-- ==== Sys2Proof/Word.lean ====
section
/-! DEFINITION. The word types of the Oluhorn Z3 and the one sparse table that every indexed piece of state uses. -/

namespace Sys2Proof

/-- A byte of any space. -/
abbrev Byte := BitVec 8

/-- One lane of a vector register (R23). -/
abbrev W32 := BitVec 32

/-- A scalar register, an instruction word or an address (R23, R58, R247). -/
abbrev W64 := BitVec 64

/-- A set of the 32 lanes of a fibre, bit l for lane l (R13). -/
abbrev LaneMask := BitVec 32

/-- The key of a fibre, a slot, a workgroup, a line: a plain number. -/
abbrev Key := Nat

/-- A sparse table: keys strictly rising; a key that is not listed reads as the table's default. -/
abbrev Tab (α : Type) := List (Nat × α)

/-- The listed value at `k`, if any. -/
def tfind {α : Type} : Tab α → Nat → Option α
  | [], _ => none
  | (a, v) :: t, k => if a = k then some v else tfind t k

/-- The value at `k`, the default `d` where nothing is listed. -/
def tget {α : Type} (d : α) (t : Tab α) (k : Nat) : α :=
  match tfind t k with
  | some v => v
  | none => d

/-- List `v` at `k`, keeping the keys rising. -/
def tput {α : Type} : Tab α → Nat → α → Tab α
  | [], k, v => [(k, v)]
  | (a, w) :: t, k, v =>
    if k < a then (k, v) :: (a, w) :: t
    else if k = a then (k, v) :: t
    else (a, w) :: tput t k v

/-- Unlist `k`. -/
def tdel {α : Type} : Tab α → Nat → Tab α
  | [], _ => []
  | (a, w) :: t, k => if a = k then tdel t k else (a, w) :: tdel t k

/-- Write `v` at `k` where `d` is what an unlisted key reads as: writing `d` unlists the key. -/
def tset {α : Type} [DecidableEq α] (d : α) (t : Tab α) (k : Nat) (v : α) : Tab α :=
  if v = d then tdel t k else tput t k v

/-- The keys rise strictly from above `lo`. -/
def tsorted {α : Type} : Nat → Tab α → Bool
  | _, [] => true
  | lo, (a, _) :: t => decide (lo < a) && tsorted a t

/-- The canonical form: keys strictly rising, and no entry equal to the default. -/
def twf {α : Type} [DecidableEq α] (d : α) : Tab α → Bool
  | [] => true
  | (a, v) :: t => decide (v ≠ d) && tsorted a t && t.all (fun e => decide (e.2 ≠ d))

/-- Apply `g` to the value at `k`. -/
def tmod {α : Type} (d : α) (t : Tab α) (k : Nat) (g : α → α) : Tab α :=
  tput t k (g (tget d t k))

/-- Do something `n` times. -/
def times {α : Type} (g : α → α) : Nat → α → α
  | 0, a => a
  | n + 1, a => times g n (g a)

end Sys2Proof
end

