-- ==== Sys2Proof/Config.lean ====
section
/-! DEFINITION. What the specification leaves to the implementation or leaves open: each is an opaque constant, so no
proof can see its value (log entries 6, 7, 8, 9, 12, 33, 34, 36, 46, 78). -/

namespace Sys2Proof

/-- The free bit number `n` (log entry 6): which of two allowed values a register ends with (R63), or which
of its two contents a sector in flight shows (R341). -/
opaque Config.freeBit : Nat → Bool

/-- The free 32-bit value number `n` (log entry 6). -/
opaque Config.freeW32 : Nat → W32

/-- The choice of a faithful `frcp` or `frsq` between the two values that bracket the exact result (R226, R227):
`true` takes the one above. -/
opaque Config.faithfulUp : Nat → W64 → Bool

/-- The bits that the device's `fex2`, `flg2`, `fsin`, `fcos`, `ftanh` (codes 0 to 4) would return; the model uses
them only where they meet the bound of R226 (log entry 7). -/
opaque Config.approx : Nat → W32 → W32

/-- SHA-512, a function the specification names and does not define (R53, R462; log entry 8). -/
opaque Config.sha512 : List Byte → BitVec 512

/-- ECDSA verification over curve P-521 with SHA-512 (R53, R54; log entry 8): public key, message, r, s. -/
opaque Config.ecdsaVerify : List Byte → List Byte → Nat → Nat → Bool

/-- ECDSA signing with the device key (R463; log entry 8). -/
opaque Config.ecdsaSign : List Byte → List Byte

/-- The certificate chain of the device key, certified at manufacture (R463; log entry 8). -/
opaque Config.certificate : List Byte

/-- The temperature of an island at a clock reading, in units the specification does not give (R463; log entry 9). -/
opaque Config.temperature : Nat → Nat → W32

/-- The set of a cluster's cache that a line stands in, for the list of its CACHE banks (R257, R289; log entry 34). -/
opaque Config.cacheSet : List Nat → Nat → Nat

/-- The set of a cluster TLB that a page stands in (R298; log entry 12). -/
opaque Config.tlbSet : Nat → Nat

/-- The Twill hops from this package to a peer (R303; log entry 36). -/
opaque Config.twillHops : Nat → Nat

/-- Which of the SCRATCH banks with room gives the next unit of 1 KiB of a window (R138: not defined): for the clock, the number of
the next workgroup, and the banks with their room (log entry 46). -/
opaque Config.scratchBank : Nat → Nat → List (Nat × Nat) → Nat

/-- The Twill hash of an address that chooses its port (R420; log entry 33). -/
opaque Config.portHash : Nat → Nat

/-- The name and version of the assembler in its PRODUCER note (R52, R120; log entry 78). -/
opaque Config.producer : List Byte

/-- The deepest call depth that the assembler notes for a kernel, by the kernel's number in the object (R52, R120; log entry 78). -/
opaque Config.callDepth : Nat → Nat

end Sys2Proof
end

