-- ==== Sys2Proof/Machine/Float.lean ====
section
/-! DEFINITION. The number formats (R182, R186, R187, R193), exact values, rounding (R191, R192), and the arithmetic and
functions on them (R188 to R197, R222 to R227). -/

namespace Sys2Proof.Machine

/-- A floating-point format (R186). f8a has no infinity, and its exponent field of ones is an ordinary exponent (R187). -/
structure Fmt where
  width : Nat
  frac  : Nat
  bias  : Nat
  f8a   : Bool
  deriving DecidableEq, Repr

def f64 : Fmt := { width := 64, frac := 52, bias := 1023, f8a := false }
def f32 : Fmt := { width := 32, frac := 23, bias := 127, f8a := false }
def f16 : Fmt := { width := 16, frac := 10, bias := 15, f8a := false }
def bf16 : Fmt := { width := 16, frac := 7, bias := 127, f8a := false }
def f8a : Fmt := { width := 8, frac := 3, bias := 7, f8a := true }
def f8b : Fmt := { width := 8, frac := 2, bias := 15, f8a := false }

/-- The number of exponent values: 2 to the width of the exponent field. -/
def Fmt.emax (f : Fmt) : Nat := 2 ^ (f.width - 1 - f.frac)

/-- An exact value: (−1)^neg × m × 2^e, an infinity, or NaN. -/
inductive FV where
  | nan | inf (neg : Bool) | num (neg : Bool) (m : Nat) (e : Int)
  deriving DecidableEq, Repr

/-- The value of the low bits of `v` in a format (R187). -/
def Fmt.value (f : Fmt) (v : Nat) : FV :=
  let fr := v % 2 ^ f.frac
  let ex := v / 2 ^ f.frac % f.emax
  let neg := v.testBit (f.width - 1)
  if ex = 0 then .num neg fr (1 - (f.bias : Int) - f.frac)
  else if ex = f.emax - 1 && f.f8a then (if fr = 7 then .nan else .num neg (8 + fr) ((ex : Int) - f.bias - f.frac))
  else if ex = f.emax - 1 then (if fr = 0 then .inf neg else .nan)
  else .num neg (2 ^ f.frac + fr) ((ex : Int) - f.bias - f.frac)

/-- The canonical NaN (R186, R188). -/
def Fmt.cnan (f : Fmt) : Nat :=
  if f.f8a then 0x7F else (f.emax - 1) * 2 ^ f.frac + 2 ^ (f.frac - 1)

def Fmt.sign (f : Fmt) (neg : Bool) : Nat := if neg then 2 ^ (f.width - 1) else 0

/-- An infinity, or f8a's NaN in its place (R192). -/
def Fmt.infBits (f : Fmt) (neg : Bool) : Nat := if f.f8a then 0x7F else f.sign neg + (f.emax - 1) * 2 ^ f.frac

/-- The largest finite value (R186). -/
def Fmt.maxBits (f : Fmt) (neg : Bool) : Nat :=
  f.sign neg + (if f.f8a then 0x7E else (f.emax - 1) * 2 ^ f.frac - 1)

/-- An overflowed result (R192). -/
def Fmt.overflow (f : Fmt) (mode : Nat) (neg : Bool) : Nat :=
  if mode = 1 || (mode = 2 && neg) || (mode = 3 && !neg) then f.maxBits neg else f.infBits neg

/-- Whether a remainder `r` of 2^d over a kept `q` rounds the magnitude up (R191). -/
def roundsUp (mode : Nat) (neg : Bool) (q r d : Nat) : Bool :=
  if r = 0 then false
  else
    match mode with
    | 0 => 2 ^ d < 2 * r || (2 * r = 2 ^ d && q % 2 = 1)
    | 1 => false
    | 2 => !neg
    | 3 => neg
    | _ => 2 ^ d ≤ 2 * r

/-- m × 2^e rounded to an integer multiple of 2^qe: the multiple (R191). -/
def roundTo (mode : Nat) (neg : Bool) (m : Nat) (e qe : Int) : Nat :=
  if qe ≤ e then m * 2 ^ (e - qe).toNat
  else
    let d := (qe - e).toNat
    let q := m / 2 ^ d
    if roundsUp mode neg q (m % 2 ^ d) d then q + 1 else q

/-- Round(x, fmt, mode) of a nonzero or zero finite value (R191, R192). -/
def Fmt.roundNum (f : Fmt) (mode : Nat) (neg : Bool) (m : Nat) (e : Int) : Nat :=
  if m = 0 then f.sign neg
  else
    let low : Int := 1 - (f.bias : Int) - f.frac
    let qe := max ((Nat.log2 m : Int) + e - f.frac) low
    let q := roundTo mode neg m e qe
    let (q, qe) := if q = 2 ^ (f.frac + 1) then (2 ^ f.frac, qe + 1) else (q, qe)
    if q < 2 ^ f.frac then f.sign neg + q
    else
      let ex := qe + f.frac + f.bias
      if (f.emax : Int) ≤ ex || (ex = f.emax - 1 && (!f.f8a || q = 15)) then f.overflow mode neg
      else f.sign neg + ex.toNat * 2 ^ f.frac + (q - 2 ^ f.frac)

/-- Round(x, fmt, mode) (R191, R192, R196). -/
def Fmt.round (f : Fmt) (mode : Nat) (x : FV) : Nat :=
  match x with
  | .nan => f.cnan
  | .inf neg => f.infBits neg
  | .num neg m e => f.roundNum mode neg m e

/-! Exact arithmetic. -/

def FV.isNan : FV → Bool
  | .nan => true
  | _ => false

def FV.neg : FV → Bool
  | .nan => false
  | .inf n => n
  | .num n _ _ => n

/-- The signed integer of a finite value at exponent `e0` below its own. -/
def signedAt (neg : Bool) (m : Nat) (e e0 : Int) : Int :=
  let v : Int := (m * 2 ^ (e - e0).toNat : Nat)
  if neg then -v else v

/-- The exact sum; `rd` says that the rounding is downwards, which decides the sign of an exact zero (R190). -/
def FV.add (rd : Bool) (a b : FV) : FV :=
  match a, b with
  | .nan, _ => .nan
  | _, .nan => .nan
  | .inf x, .inf y => if x = y then .inf x else .nan
  | .inf x, _ => .inf x
  | _, .inf y => .inf y
  | .num na ma ea, .num nb mb eb =>
    let e0 := min ea eb
    let v := signedAt na ma ea e0 + signedAt nb mb eb e0
    if v = 0 then .num (if ma = 0 && mb = 0 && na = nb then na else rd) 0 e0 else .num (decide (v < 0)) v.natAbs e0

def FV.mul (a b : FV) : FV :=
  match a, b with
  | .nan, _ => .nan
  | _, .nan => .nan
  | .inf x, .inf y => .inf (x != y)
  | .inf x, .num n m _ => if m = 0 then .nan else .inf (x != n)
  | .num n m _, .inf y => if m = 0 then .nan else .inf (n != y)
  | .num na ma ea, .num nb mb eb => .num (na != nb) (ma * mb) (ea + eb)

def FV.negate : FV → FV
  | .nan => .nan
  | .inf n => .inf (!n)
  | .num n m e => .num (!n) m e

/-- a < b on exact values; −0 = +0; false with a NaN. -/
def FV.lt (a b : FV) : Bool :=
  match a, b with
  | .nan, _ => false
  | _, .nan => false
  | .inf x, .inf y => x && !y
  | .inf x, _ => x
  | _, .inf y => !y
  | .num na ma ea, .num nb mb eb =>
    let e0 := min ea eb
    decide (signedAt na ma ea e0 < signedAt nb mb eb e0)

/-- Rne32(x) (R192), on bits. -/
def rne32 (x : FV) : W32 := BitVec.ofNat 32 (f32.round 0 x)

/-- Rne32(a + b) on f32 bits. -/
def add32 (a b : W32) : W32 := rne32 ((f32.value a.toNat).add false (f32.value b.toNat))

/-- a + b of f32 magnitudes rounded upwards (R401). -/
def addUp32 (a b : W32) : W32 := BitVec.ofNat 32 (f32.round 2 ((f32.value a.toNat).add false (f32.value b.toNat)))

/-- a ≤ b on f32 bits; false with a NaN. -/
def le32 (a b : W32) : Bool :=
  let x := f32.value a.toNat
  let y := f32.value b.toNat
  !x.isNan && !y.isNan && !y.lt x

/-- −0 before +0, otherwise by value (R223). -/
def FV.before (a b : FV) : Bool :=
  match a, b with
  | .num na 0 _, .num nb 0 _ => na && !nb
  | _, _ => a.lt b

/-- fmin (R223) on bits. -/
def Fmt.minBits (f : Fmt) (a b : Nat) : Nat :=
  match f.value a, f.value b with
  | .nan, .nan => f.cnan
  | .nan, _ => b
  | _, .nan => a
  | x, y => if y.before x then b else a

/-- fmax (R223) on bits. -/
def Fmt.maxVal (f : Fmt) (a b : Nat) : Nat :=
  match f.value a, f.value b with
  | .nan, .nan => f.cnan
  | .nan, _ => b
  | _, .nan => a
  | x, y => if x.before y then b else a

/-- A value rounded to an integer by MODE (R197, R225); NaN gives 0. -/
def roundInt (mode : Nat) (neg : Bool) (m : Nat) (e : Int) : Int :=
  let v : Int := roundTo mode neg m e 0
  if neg then -v else v

/-- Float to integer (R197): rounded, then clamped to [lo, hi]. -/
def FV.toInt (mode : Nat) (lo hi : Int) : FV → Int
  | .nan => 0
  | .inf n => if n then lo else hi
  | .num n m e => max lo (min hi (roundInt mode n m e))

/-- An integer as an exact value. -/
def FV.ofInt (v : Int) : FV := .num (decide (v < 0)) v.natAbs 0

/-- fclass (R224): the one-hot code. -/
def Fmt.classOf (f : Fmt) (v : Nat) : Nat :=
  let sub := v / 2 ^ f.frac % f.emax = 0
  match f.value v with
  | .nan => 256
  | .inf n => if n then 1 else 128
  | .num n m _ =>
    if m = 0 then (if n then 8 else 16)
    else if sub then (if n then 4 else 32)
    else if n then 2 else 64

/-- frint (R225). -/
def Fmt.rint (f : Fmt) (mode : Nat) (v : Nat) : Nat :=
  match f.value v with
  | .nan => f.cnan
  | .inf n => f.infBits n
  | .num n m e => if 0 ≤ e then f.roundNum mode n m e else f.roundNum 0 n (roundTo mode n m e 0) 0

/-- a × 2^n (R225). -/
def FV.scale (n : Int) : FV → FV
  | .num s m e => .num s m (e + n)
  | x => x

/-! Block floating point (R193 to R195). -/

/-- The value of a bfp m element with mantissa `v` of m bits and exponent byte `ex` (R194). -/
def bfpValue (m v ex : Nat) : FV :=
  if ex = 0 then .num false 0 0
  else if ex = 255 then .nan
  else
    let s : Int := if v.testBit (m - 1) then (v : Int) - 2 ^ m else v
    .num (decide (s < 0)) s.natAbs ((ex : Int) - 127 - (m - 1))

/-- Floor(log2 |x|) of a nonzero finite value. -/
def FV.ilog : FV → Int
  | .num _ m e => if m = 0 then -100000 else (Nat.log2 m : Int) + e
  | _ => 0

/-- A block of bfp m (R195): its exponent byte and its mantissas. -/
def toBfp (m mode : Nat) (xs : List FV) : Nat × List Nat :=
  if xs.any (fun x => match x with | .num _ _ _ => false | _ => true) then (255, xs.map (fun _ => 0))
  else if xs.all (fun x => match x with | .num _ v _ => v = 0 | _ => false) then (0, xs.map (fun _ => 0))
  else
    let e := xs.foldl (fun a x => max a x.ilog) (-100000)
    let ex := max 1 (min 254 (e + 128))
    let enc (x : FV) : Nat :=
      match x.scale (-(ex - 127 - (m - 1))) with
      | .num n v k =>
        let t := max (-(2 ^ (m - 1) : Int)) (min (2 ^ (m - 1) - 1) (roundInt mode n v k))
        (t % 2 ^ m).toNat
      | _ => 0
    (ex.toNat, xs.map enc)

/-! The functions of R226. A result that is not determined is a value within the stated bound: the device's own where it meets
the bound, the value computed here otherwise (log entry 7). -/

/-- Floor of the square root, by bits from 2^b down. -/
def isqrt : Nat → Nat → Nat → Nat
  | 0, _, r => r
  | b + 1, v, r => if (r + 2 ^ b) * (r + 2 ^ b) ≤ v then isqrt b v (r + 2 ^ b) else isqrt b v r

/-- A floor quotient or root with what is left over folded into one more bit: 2q, or 2q + 1 when inexact. -/
def sticky (q : Nat) (exact : Bool) : Nat := 2 * q + (if exact then 0 else 1)

/-- 1 / a as a value with a sticky bit, precise for every format. -/
def FV.recip (a : FV) : FV :=
  match a with
  | .nan => .nan
  | .inf n => .num n 0 0
  | .num n m e =>
    if m = 0 then .inf n
    else
      let q := 2 ^ 200 / m
      .num n (sticky q (q * m = 2 ^ 200)) (-201 - e)

/-- √a with a sticky bit. -/
def FV.root (a : FV) : FV :=
  match a with
  | .nan => .nan
  | .inf n => if n then .nan else .inf false
  | .num n m e =>
    if m = 0 then .num n 0 0
    else if n then .nan
    else
      let odd := e % 2 != 0
      let m' := (if odd then 2 * m else m) * 2 ^ 200
      let e' := (if odd then e - 1 else e) - 200
      let r := isqrt 140 m' 0
      .num false (sticky r (r * r = m')) (e' / 2 - 1)

/-- 1 / √a with a sticky bit. -/
def FV.rsqrt (a : FV) : FV :=
  match a with
  | .nan => .nan
  | .inf n => if n then .nan else .num false 0 0
  | .num n m e =>
    if m = 0 then .inf n
    else if n then .nan
    else
      let odd := e % 2 != 0
      let m' := if odd then 2 * m else m
      let e' := if odd then e - 1 else e
      let v := 2 ^ 320 / m'
      let r := isqrt 162 v 0
      .num false (sticky r (r * r * m' = 2 ^ 320)) (-161 - e' / 2)

/-- A faithful result: one of the two values that bracket the exact one, the exact one when it is representable (R226). -/
def Fmt.faithful (f : Fmt) (op : Nat) (bits : W64) (x : FV) : Nat :=
  if Config.faithfulUp op bits then f.round 2 x else f.round 3 x

/-- Fixed-point constants at 2^160: π and ln 2; and 1 / 2π at 2^320. -/
def piFix : Nat := 4591442807048218921384805199743311128454155024418
def ln2Fix : Nat := 1013035739299659071135698605846798551586536899366
def inv2PiFix : Nat := 339952895147018642535639799349517299692324064546005894715236429198937636543799886830530695754936

/-- Fixed-point multiplication at 2^160. -/
def fxMul (a b : Nat) : Nat := a * b / 2 ^ 160

/-- Σ x^k / k! for k from `k` on, with `t` the current term: e^x for 0 ≤ x < 1 at 2^160. -/
def fxExp : Nat → Nat → Nat → Nat → Nat
  | 0, _, _, _ => 0
  | n + 1, k, x, t => t + fxExp n (k + 1) x (fxMul t x / (k + 1))

/-- Alternating series of sine or cosine: `t` the current term, `k` its power. -/
def fxTrig : Nat → Nat → Nat → Int → Int
  | 0, _, _, _ => 0
  | n + 1, k, x2, t => t + fxTrig n (k + 2) x2 (-(t * x2 / 2 ^ 160 / ((k + 1) * (k + 2))))

/-- n bits of the fraction of log2 of a mantissa x in [1, 2) at 2^160, by squaring. -/
def fxLog : Nat → Nat → Nat → Nat
  | 0, _, acc => acc
  | n + 1, x, acc =>
    let y := fxMul x x
    if 2 ^ 161 ≤ y then fxLog n (y / 2) (2 * acc + 1) else fxLog n y (2 * acc)

/-- A finite value as a signed number at 2^160, for values below 2^40. -/
def FV.fix : FV → Int
  | .num n m e =>
    let v : Int := if 0 ≤ e + 160 then (m * 2 ^ (e + 160).toNat : Nat) else (m / 2 ^ (-(e + 160)).toNat : Nat)
    if n then -v else v
  | _ => 0

/-- A signed fixed-point number as a value. -/
def ofFix (v : Int) : FV := .num (decide (v < 0)) v.natAbs (-160)

/-- 2^x for a finite f32 x with |x| ≤ 200: the fraction's power at 2^160, and the integer part. -/
def exp2Parts (x : FV) : Nat × Int :=
  let v := x.fix
  let n := v / 2 ^ 160
  (fxExp 60 0 (fxMul (v % 2 ^ 160).toNat ln2Fix) (2 ^ 160), n)

/-- log2 of a positive finite value, at 2^100. -/
def log2Fix (m : Nat) (e : Int) : Int :=
  let k := Nat.log2 m
  let x := m * 2 ^ (160 - k)
  ((k : Int) + e) * 2 ^ 100 + (fxLog 100 x 0 : Nat)

/-- The angle of a finite value modulo 2π, at 2^160. -/
def angle (n : Bool) (m : Nat) (e : Int) : Nat :=
  let t : Nat := if 0 ≤ e then m * 2 ^ e.toNat * inv2PiFix else m * inv2PiFix / 2 ^ (-e).toNat
  let f := t % 2 ^ 320
  let f := if n && f != 0 then 2 ^ 320 - f else f
  f * (2 * piFix) / 2 ^ 320

def sinFix (a : Nat) : Int :=
  let x : Int := if piFix ≤ a then (a : Int) - 2 * piFix else a
  fxTrig 40 1 (x.natAbs * x.natAbs / 2 ^ 160) x

def cosFix (a : Nat) : Int :=
  let x : Int := if piFix ≤ a then (a : Int) - 2 * piFix else a
  fxTrig 40 0 (x.natAbs * x.natAbs / 2 ^ 160) (2 ^ 160)

/-- tanh x = (e^2x − 1) / (e^2x + 1) for 0 ≤ x < 10, from e^(2x/64) squared six times. -/
def tanhFix (x : Nat) : Nat :=
  let p := times (fun p => fxMul p p) 6 (fxExp 60 0 (2 * x / 64) (2 ^ 160))
  (p - 2 ^ 160) * 2 ^ 160 / (p + 2 ^ 160)

/-- |cand − x| ≤ bound, all at the same scale. -/
def within (cand x bound : Int) : Bool := decide ((cand - x).natAbs ≤ bound.natAbs)

/-- The spacing of f32 values at a value, at 2^160; 2 ulp is twice it (R226). -/
def ulpFix (x : FV) : Int :=
  let qe := max (x.ilog - 23) (-149)
  if 0 ≤ qe + 160 then 2 ^ (qe + 160).toNat else 0

/-- The device's own result where it is finite and meets the bound, the centre otherwise. -/
def chooseApprox (op : Nat) (a : W32) (x : FV) (bound : Int) : W32 :=
  let c := Config.approx op a
  let centre := rne32 x
  match f32.value c.toNat with
  | .num n m e => if within (FV.num n m e).fix x.fix bound then c else centre
  | _ => centre

/-- fex2 (R226). -/
def fex2Bits (a : W32) : W32 :=
  match f32.value a.toNat with
  | .nan => 0x7FC00000
  | .inf n => if n then 0 else 0x7F800000
  | .num n m e =>
    let x := FV.num n m e
    if !n && 128 * 2 ^ 160 ≤ x.fix then 0x7F800000
    else if n && x.fix ≤ -(200 * 2 ^ 160) then
      (if Config.approx 0 a ≤ 2 then Config.approx 0 a else 0)
    else
      let r := exp2Parts x
      if x.fix % 2 ^ 160 = 0 then rne32 (.num false 1 (x.fix / 2 ^ 160))
      else
        let v := FV.num false r.1 (r.2 - 160)
        let c := Config.approx 0 a
        let qe := max (v.ilog - 23) (-149)
        match f32.value c.toNat with
        | .num cn cm ce =>
          let d := signedAt cn cm ce (-400) - signedAt false r.1 (r.2 - 160) (-400)
          if decide (d.natAbs + 2 ^ (qe + 300).toNat ≤ 2 * 2 ^ (qe + 400).toNat) then c else rne32 v
        | _ => rne32 v

/-- flg2 (R226). -/
def flg2Bits (a : W32) : W32 :=
  match f32.value a.toNat with
  | .nan => 0x7FC00000
  | .inf n => if n then 0x7FC00000 else 0x7F800000
  | .num n m e =>
    if m = 0 then 0xFF800000
    else if n then 0x7FC00000
    else
      let v := log2Fix m e * 2 ^ 60
      if m = 2 ^ Nat.log2 m then rne32 (FV.ofInt ((Nat.log2 m : Int) + e))
      else
        let k := (Nat.log2 m : Int) + e
        if k = -1 || k = 0 then chooseApprox 1 a (ofFix v) (2 ^ 138 - 2 ^ 70) else chooseApprox 1 a (ofFix v) (2 * ulpFix (ofFix v) - 2 ^ 70)

/-- fsin (R226). -/
def fsinBits (a : W32) : W32 :=
  match f32.value a.toNat with
  | .nan => 0x7FC00000
  | .inf _ => 0x7FC00000
  | .num n m e => if m = 0 then a else chooseApprox 2 a (ofFix (sinFix (angle n m e))) (2 ^ 139 - 2 ^ 70)

/-- fcos (R226). -/
def fcosBits (a : W32) : W32 :=
  match f32.value a.toNat with
  | .nan => 0x7FC00000
  | .inf _ => 0x7FC00000
  | .num n m e => if m = 0 then 0x3F800000 else chooseApprox 3 a (ofFix (cosFix (angle n m e))) (2 ^ 139 - 2 ^ 70)

/-- ftanh (R226). -/
def ftanhBits (a : W32) : W32 :=
  match f32.value a.toNat with
  | .nan => 0x7FC00000
  | .inf n => if n then 0xBF800000 else 0x3F800000
  | .num n m e =>
    let x := (FV.num false m e).fix
    if m = 0 then a
    else if 37 * 2 ^ 160 ≤ 4 * x then (if n then 0xBF800000 else 0x3F800000)
    else
      let t : Int := tanhFix x.toNat
      chooseApprox 4 a (ofFix (if n then -t else t)) (2 ^ 139 - 2 ^ 70)

end Sys2Proof.Machine
end

