-- ==== Sys2Proof/Machine/Flags.lean ====
section
/-! DEFINITION. Every condition: the compare codes of R72, for integers and for floats. The device has no flag register. -/

namespace Sys2Proof.Machine

/-- An integer condition, codes 0 to 5 (R72, R218). -/
def icond (c : Nat) (a b : Int) : Bool :=
  match c with
  | 0 => a = b
  | 1 => a != b
  | 2 => a < b
  | 3 => a ≤ b
  | 4 => b < a
  | _ => b ≤ a

/-- A float condition, codes 0 to 13 (R72, R224): `lt`, `eq`, `gt` on numbers, `un` where either is NaN. -/
def fcond (c : Nat) (a b : FV) : Bool :=
  let un := a.isNan || b.isNan
  let lt := a.lt b
  let gt := b.lt a
  let eq := !un && !lt && !gt
  match c with
  | 0 => eq
  | 1 => !eq
  | 2 => lt
  | 3 => lt || eq
  | 4 => gt
  | 5 => gt || eq
  | 6 => !un
  | 7 => un
  | 8 => eq || un
  | 9 => lt || un
  | 10 => lt || eq || un
  | 11 => gt || un
  | 12 => gt || eq || un
  | _ => !eq && !un

end Sys2Proof.Machine
end

