-- ==== Sys2Proof/Syntax.lean ====
section
/-! DEFINITION. The instructions of Lomic and the events of the device: one constructor per row of
spec/opcode_table.json. An instruction word carries the fields of its format (R65 to R84), with the manual's names and
widths; an event carries what happens with it. -/

namespace Sys2Proof

/-- The engine classes of a clause (R60). -/
inductive Cls where
  | ctl | sca | vec | pair | mem | mtx | eng | syn | sys
  deriving DecidableEq, Repr

/-- The common head of an instruction word without OP (R65). -/
structure Head where
  sos : Bool
  gn  : Bool
  gp  : BitVec 3
  la  : BitVec 4
  tok : BitVec 3
  deriving DecidableEq, Repr

/-- Format V3: vector and scalar register operations (R71). -/
structure V3 where
  hd   : Head
  d    : BitVec 6
  a    : BitVec 6
  b    : BitVec 6
  c    : BitVec 6
  ty   : BitVec 5
  mode : BitVec 3
  md   : BitVec 4
  z    : Bool
  bsel : BitVec 2
  sub  : BitVec 5
  deriving DecidableEq, Repr

/-- Format VI: a 32-bit immediate (R74). It has no LA and no TOK. -/
structure VI where
  sos  : Bool
  gn   : Bool
  gp   : BitVec 3
  ty   : BitVec 5
  mode : BitVec 2
  d    : BitVec 6
  a    : BitVec 6
  imm  : BitVec 32
  deriving DecidableEq, Repr

/-- Format M: memory (R75). -/
structure FM where
  hd    : Head
  d     : BitVec 6
  a     : BitVec 6
  b     : BitVec 6
  ty    : BitVec 5
  scope : BitVec 3
  str   : Bool
  space : BitVec 2
  cnt   : BitVec 2
  abase : BitVec 2
  off   : BitVec 11
  deriving DecidableEq, Repr

/-- Format MX: the matrix unit (R77). -/
structure FX where
  hd    : Head
  acc   : BitVec 3
  obh   : BitVec 4
  bv    : BitVec 6
  g     : BitVec 3
  tya   : BitVec 5
  tyb   : BitVec 5
  ck    : Bool
  clr   : Bool
  oboff : BitVec 16
  deriving DecidableEq, Repr

/-- Format C: control (R78). -/
structure FC where
  hd  : Head
  a   : BitVec 6
  b   : BitVec 6
  tgt : BitVec 32
  deriving DecidableEq, Repr

/-- Format Q: queues and engines (R79). -/
structure FQ where
  hd  : Head
  q   : BitVec 4
  a   : BitVec 6
  b   : BitVec 6
  c   : BitVec 6
  sub : BitVec 22
  deriving DecidableEq, Repr

/-- Format Y: synchronisation and system (R80). -/
structure FY where
  hd  : Head
  d   : BitVec 6
  a   : BitVec 6
  b   : BitVec 6
  num : BitVec 12
  sub : BitVec 14
  deriving DecidableEq, Repr

/-- The pair word (R81). -/
structure FP where
  vop  : BitVec 5
  sop  : BitVec 4
  gn   : Bool
  gp   : BitVec 3
  vty  : BitVec 3
  vd   : BitVec 6
  va   : BitVec 6
  vb   : BitVec 6
  sd   : BitVec 6
  sa   : BitVec 6
  sb   : BitVec 6
  simm : BitVec 12
  deriving DecidableEq, Repr

/-- An agent whose heartbeat can be lost (R439). -/
inductive Agent where
  | core (n : Nat) | cluster (n : Nat) | die (n : Nat) | peer (n : Nat) | hostLink (n : Nat)
  deriving DecidableEq, Repr

/-- A unit of main memory that is declared lost (R306, R308, R321). A bank is named by its unit number. -/
inductive LostUnit where
  | bank (stack unit : Nat) | pseudoChannel (stack channel pc : Nat) | channel (stack channel : Nat)
  | tsvGroup (stack channel pc group : Nat) | stack (stack : Nat)
  deriving DecidableEq, Repr

/-- One island's meter over a 1 µs interval: energy in nJ, the slot-cycles of each workgroup (for a cluster island)
and the lines or flits of each virtual device (for a stack, L2 or Twill island) (R452, R453). -/
structure IslandReading where
  island : Nat
  nj     : Nat
  slots  : List (Nat × Nat)
  moved  : List (Nat × Nat)
  deriving DecidableEq, Repr

/-- What firmware sets when a function is enabled (R132, R136, R137, R142, R460): its core set, its reserved
cores, slice weight and time, live-grid quota and partition, the provinces that the partition now owns and those that no
partition owns any more, the other packages of its partition, its Twill ports, whether only signed images load, and the device budget of
an energy window where firmware sets it. -/
structure FunctionCfg where
  cores     : List Nat
  reserved  : List Nat
  weight    : Nat
  sliceUs   : Nat
  gridQuota : Nat
  partition : Nat
  owns      : List Nat
  frees     : List Nat
  peers     : List Nat
  ports     : List Nat
  signed    : Bool
  budget    : Option Nat
  deriving DecidableEq, Repr

/-- The body of a Twill packet (R457, R459, R378). -/
inductive PktBody where
  | store (vd addr : Nat) (data : List Byte)
  | red (vd addr : Nat) (aop ty : Nat) (v : W64)
  | add (vd addr : Nat) (inc : Nat)
  | read (cmd : Nat) (data : List Byte)
  | done (cmd : Nat)
  deriving DecidableEq, Repr

/-- A Twill packet as it arrives: the header's sequence number, the sender's partition, whether its CRC holds, the
highest sequence number that it acknowledges, and its body (R457, R460). -/
structure Packet where
  seq  : BitVec 12
  part : Nat
  crc  : Bool
  ack  : BitVec 12
  body : PktBody
  deriving DecidableEq, Repr

/-- A host access to device memory through a function (R421, R455). -/
inductive HostAcc where
  | read (vd addr n : Nat) | write (vd addr : Nat) (data : List Byte)
  deriving DecidableEq, Repr

/-- A queue-pair work request on an Ethernet port (R461). `data` is what the remote node sends for a read. -/
inductive WorkReq where
  | write (port qp vd addr n counter : Nat) | read (port qp vd addr : Nat) (data : List Byte) (counter : Nat)
  | send (port qp vd addr n counter : Nat)
  deriving DecidableEq, Repr

/-- What an Akvia telemetry message asks for (R463). -/
inductive Telemetry where
  | energy (island : Nat) | memEvent | temperature (island : Nat)
  deriving DecidableEq, Repr

/-- One constructor per row of spec/opcode_table.json. -/
inductive Instr where
  /-- Control word with no effect under any guard. (R178) -/
  | nop (f : FC)
  /-- Branches the lanes where the guard holds to Here + 8 × TGT; the others continue at Next. (R175) -/
  | bra (f : FC)
  /-- Branches the whole entry when any or all voting lanes satisfy the guard. (R175) -/
  | brp (f : FC)
  /-- Branches the whole entry on a signed condition of a scalar register. (R175) -/
  | brs (f : FC)
  /-- Indexed branch, one target per lane from a table offset plus v(A), splitting the entry by target. (R175) -/
  | brx (f : FC)
  /-- Per lane, makes the shifted frame resident, writes the link and transfers to a relative target. (R170) -/
  | call (f : FC)
  /-- Call to the address in s(A), trapping MISALIGNED on a misaligned target. (R176) -/
  | callx (f : FC)
  /-- Per lane, returns through the link to the caller's frame, or exits at FP 0. (R171) -/
  | ret (f : FC)
  /-- Ends the lanes where the guard holds; may end the fibre and its workgroup. (R177) -/
  | exit (f : FC)
  /-- Makes the entry wait until the named tokens, or all long-latency words, are released. (R178) -/
  | wait (f : FC)
  /-- Passes the slot's issue turn to the next ready fibre. (R178) -/
  | yield (f : FC)
  /-- Arrives at a slot barrier with a fibre mask and parks the entry until every masked fibre has arrived. (R179) -/
  | fbar (f : FC)
  /-- Raises USER_TRAP with a code, resuming at Next. (R180) -/
  | trap (f : FC)
  /-- Raises BREAKPOINT with a code, resuming at Next. (R180) -/
  | brkpt (f : FC)
  /-- Scalar integer add, wrapping or saturating. (R210) -/
  | sadd (f : V3)
  /-- Scalar integer subtract. (R210) -/
  | ssub (f : V3)
  /-- Scalar integer multiply, low part. (R210) -/
  | smul (f : V3)
  /-- Scalar integer multiply, high part. (R210) -/
  | smulh (f : V3)
  /-- Scalar integer multiply-add. (R210) -/
  | smad (f : V3)
  /-- Scalar integer absolute value. (R210) -/
  | sabs (f : V3)
  /-- Scalar integer minimum. (R210) -/
  | smin (f : V3)
  /-- Scalar integer maximum. (R210) -/
  | smax (f : V3)
  /-- Scalar bitwise AND. (R211) -/
  | sand (f : V3)
  /-- Scalar bitwise OR. (R211) -/
  | sor (f : V3)
  /-- Scalar bitwise XOR. (R211) -/
  | sxor (f : V3)
  /-- Scalar bitwise NOT. (R211) -/
  | snot (f : V3)
  /-- Scalar shift left. (R212) -/
  | sshl (f : V3)
  /-- Scalar logical shift right. (R212) -/
  | sshr (f : V3)
  /-- Scalar arithmetic shift right. (R212) -/
  | ssra (f : V3)
  /-- Scalar bitfield extract. (R213) -/
  | sbfe (f : V3)
  /-- Scalar bitfield insert. (R213) -/
  | sbfi (f : V3)
  /-- Scalar population count. (R214) -/
  | spopc (f : V3)
  /-- Scalar count of leading zeros. (R214) -/
  | sclz (f : V3)
  /-- Scalar count of trailing zeros. (R214) -/
  | sctz (f : V3)
  /-- Scalar compare whose result is written to a predicate in each acting lane. (R218) -/
  | scmp (f : V3)
  /-- Scalar select on s(C) being nonzero. (R219) -/
  | ssel (f : V3)
  /-- Scalar register move. (R219) -/
  | smov (f : V3)
  /-- Loads a 32-bit immediate, extended, into a scalar register. (R219) -/
  | smovi (f : VI)
  /-- Places a 32-bit immediate in the high or low half of a scalar and keeps the other half from s(A). (R74) -/
  | smovh (f : VI)
  /-- Copies a uniform register k0 to k63 into a scalar register. (R220) -/
  | sfromk (f : V3)
  /-- Copies one lane of a vector register into a scalar register. (R220) -/
  | sfromv (f : V3)
  /-- Broadcasts a scalar into a vector register in each acting lane. (R220) -/
  | stov (f : V3)
  /-- Vector integer add per element. (R210) -/
  | vadd (f : V3)
  /-- Vector integer subtract per element. (R210) -/
  | vsub (f : V3)
  /-- Vector integer multiply, low part. (R210) -/
  | vmul (f : V3)
  /-- Vector integer multiply, high part. (R210) -/
  | vmulh (f : V3)
  /-- Vector integer multiply-add. (R210) -/
  | vmad (f : V3)
  /-- Vector integer absolute value. (R210) -/
  | vabs (f : V3)
  /-- Vector integer negation. (R210) -/
  | vneg (f : V3)
  /-- Vector integer minimum. (R210) -/
  | vmin (f : V3)
  /-- Vector integer maximum. (R210) -/
  | vmax (f : V3)
  /-- Vector bitwise AND. (R211) -/
  | vand (f : V3)
  /-- Vector bitwise OR. (R211) -/
  | vor (f : V3)
  /-- Vector bitwise XOR. (R211) -/
  | vxor (f : V3)
  /-- Vector bitwise NOT. (R211) -/
  | vnot (f : V3)
  /-- Three-input logic operation chosen by SUB. (R211) -/
  | vlop3 (f : V3)
  /-- Vector shift left per element. (R212) -/
  | vshl (f : V3)
  /-- Vector logical shift right per element. (R212) -/
  | vshr (f : V3)
  /-- Vector arithmetic shift right per element. (R212) -/
  | vsra (f : V3)
  /-- Vector bitfield extract. (R213) -/
  | vbfe (f : V3)
  /-- Vector bitfield insert. (R213) -/
  | vbfi (f : V3)
  /-- Vector population count per element. (R214) -/
  | vpopc (f : V3)
  /-- Vector count of leading zeros per element. (R214) -/
  | vclz (f : V3)
  /-- Vector bit reversal. (R214) -/
  | vbrev (f : V3)
  /-- Assembles four bytes from eight source bytes by nibble selectors, with optional sign fill. (R215) -/
  | vperm (f : V3)
  /-- Four-way 8-bit dot product added to an accumulator. (R216) -/
  | vdot4 (f : V3)
  /-- Sum of absolute differences added to an accumulator. (R216) -/
  | vsad (f : V3)
  /-- Packs two values into the two elements of a packed result. (R217) -/
  | vpack (f : V3)
  /-- Widens one element of a packed value to 32 bits. (R217) -/
  | vunpack (f : V3)
  /-- Vector integer compare written to a predicate. (R218) -/
  | vcmp (f : V3)
  /-- Per-lane select between two values by a predicate. (R219) -/
  | vsel (f : V3)
  /-- Vector register move. (R219) -/
  | vmov (f : V3)
  /-- Loads a 32-bit immediate into a vector register. (R219) -/
  | vmovi (f : VI)
  /-- Floating-point add, rounded once. (R222) -/
  | fadd (f : V3)
  /-- Floating-point subtract. (R222) -/
  | fsub (f : V3)
  /-- Floating-point multiply. (R222) -/
  | fmul (f : V3)
  /-- Fused multiply-add with one rounding. (R222) -/
  | fma (f : V3)
  /-- Floating-point minimum, NaN-avoiding. (R223) -/
  | fmin (f : V3)
  /-- Floating-point maximum, NaN-avoiding. (R223) -/
  | fmax (f : V3)
  /-- Floating-point compare written to a predicate. (R224) -/
  | fcmp (f : V3)
  /-- Writes a one-hot class code for each element. (R224) -/
  | fclass (f : V3)
  /-- Faithful reciprocal, long latency. (R226) -/
  | frcp (f : V3)
  /-- Faithful reciprocal square root, long latency. (R226) -/
  | frsq (f : V3)
  /-- Correctly rounded square root, long latency. (R226) -/
  | fsqrt (f : V3)
  /-- Base-2 exponential, long latency. (R226) -/
  | fex2 (f : V3)
  /-- Base-2 logarithm, long latency. (R226) -/
  | flg2 (f : V3)
  /-- Sine, long latency. (R226) -/
  | fsin (f : V3)
  /-- Cosine, long latency. (R226) -/
  | fcos (f : V3)
  /-- Hyperbolic tangent, long latency. (R226) -/
  | ftanh (f : V3)
  /-- Rounds to an integral value in the same format. (R225) -/
  | frint (f : V3)
  /-- Multiplies by 2^n with one rounding. (R225) -/
  | fscale (f : V3)
  /-- Sign-bit operations chosen by SUB, keeping payloads. (R228) -/
  | fsgn (f : V3)
  /-- Converts between floating-point formats. (R229) -/
  | fcvt (f : V3)
  /-- Converts where at least one side is an integer. (R230) -/
  | icvt (f : V3)
  /-- Each acting lane reads another lane's register by index, up, down or xor. (R239) -/
  | shfl (f : V3)
  /-- Exchanges values within a quad, horizontally, vertically or diagonally. (R240) -/
  | qswp (f : V3)
  /-- Broadcasts one lane's value within each quad. (R240) -/
  | qbc (f : V3)
  /-- Any, all or uniform vote over the contributors into a predicate. (R241) -/
  | vote (f : V3)
  /-- Gathers a predicate of the contributors into a scalar mask. (R241) -/
  | ballot (f : V3)
  /-- Reduces the contributors' values, by a fixed tree for f32 add, into every acting lane. (R243) -/
  | vred (f : V3)
  /-- Inclusive or exclusive prefix scan over the contributors. (R244) -/
  | vscan (f : V3)
  /-- Predicate AND with optional inversions. (R231) -/
  | pand (f : V3)
  /-- Predicate OR. (R231) -/
  | por (f : V3)
  /-- Predicate XOR. (R231) -/
  | pxor (f : V3)
  /-- Predicate NOT. (R231) -/
  | pnot (f : V3)
  /-- Predicate move. (R231) -/
  | pmov (f : V3)
  /-- Counts the non-helper acting lanes where a predicate holds. (R232) -/
  | pcnt (f : V3)
  /-- Pair word performing one vector and one scalar operation under one guard, reading all sources first. (R84) -/
  | pair (f : FP)
  /-- Per-lane load from global, scratch or operand-buffer space. (R280) -/
  | ld (f : FM)
  /-- Per-lane store to global, scratch or operand-buffer space. (R280) -/
  | st (f : FM)
  /-- Loads a run of scalars once. (R281) -/
  | lds (f : FM)
  /-- Stores a run of scalars once. (R281) -/
  | sts (f : FM)
  /-- Loads the fibre's tile of a layout record into vector registers. (R283) -/
  | ldt (f : FM)
  /-- Stores the fibre's tile of a layout record. (R283) -/
  | stt (f : FM)
  /-- Loads a 32-byte layout record into an l register. (R282) -/
  | lrec (f : FM)
  /-- Prefetches lines to a chosen cache level without faulting. (R284) -/
  | prf (f : FM)
  /-- Writes dirty sectors held in the cluster back to the level of its scope. (R285) -/
  | cwb (f : FM)
  /-- Drops cached copies of a line at the scope, writing dirty data back first. (R286) -/
  | cinv (f : FM)
  /-- Makes a range a sealed buffer after recalling dirty copies, returning a status. (R287) -/
  | seal (f : FM)
  /-- Ends a sealed buffer once its reference count reaches zero. (R288) -/
  | unseal (f : FM)
  /-- Locks a range of lines into the cluster cache, all or nothing. (R289) -/
  | lkl (f : FM)
  /-- Unlocks the workgroup's locked lines in a range. (R290) -/
  | ulk (f : FM)
  /-- Per-lane atomic read-modify-write that returns the old value. (R391) -/
  | atom (f : FM)
  /-- Per-lane compare-and-exchange on bits. (R391) -/
  | atomx (f : FM)
  /-- Per-lane atomic reduction that returns nothing and may use update-only copies. (R391) -/
  | red (f : FM)
  /-- Defines or ends a Gauze region with a per-line budget. (R399) -/
  | gdef (f : FM)
  /-- Adds into a Gauze region element, withheld within the holder's share or drained. (R402) -/
  | gadd (f : FM)
  /-- Reads a region element with a tolerance, forcing drains until the withheld magnitude is within it. (R403) -/
  | gld (f : FM)
  /-- Acquire, release or full fence at a scope. (R292) -/
  | fence (f : FM)
  /-- Binds or frees a convergence register for the issuing gang. (R333) -/
  | gdecl (f : FY)
  /-- Builds and checks an operand-buffer reservation record in a handle. (R336) -/
  | obres (f : FY)
  /-- Makes an operand-buffer handle invalid. (R337) -/
  | obrel (f : FY)
  /-- Copies bytes from global memory into the operand buffer per lane. (R352) -/
  | obld (f : FM)
  /-- Copies bytes from the operand buffer to global memory per lane. (R352) -/
  | obst (f : FM)
  /-- Signs a matrix operation on a convergence register, capturing B and the record; the fourth signature issues it. (R334) -/
  | mma (f : FX)
  /-- Clears an accumulator tile and its checksum vectors. (R349) -/
  | aclr (f : FX)
  /-- Reads tile columns or checksum vectors into vector registers. (R349) -/
  | aget (f : FX)
  /-- Writes tile columns or checksum vectors from vector registers. (R349) -/
  | aput (f : FX)
  /-- Pushes tile columns or checksum vectors into the quarter's readout queue. (R349) -/
  | aout (f : FX)
  /-- Computes row and column checksum residues of a tile. (R349) -/
  | ackr (f : FX)
  /-- Appends one 32-lane entry to a bound FIFO bank. (R384) -/
  | qpush (f : FQ)
  /-- Removes the oldest entry of a FIFO or readout queue into a vector register. (R384) -/
  | qpop (f : FQ)
  /-- Reads a snapshot of a queue's occupancy and presence. (R385) -/
  | qstat (f : FQ)
  /-- Binds a queue name to a FIFO bank of the cluster, or releases it. (R383) -/
  | qbind (f : FQ)
  /-- Pushes a copy command, with optional gather, scatter or compression, to the cluster copy engine. (R374) -/
  | cpy (f : FQ)
  /-- Pushes a multicast copy into the scratch of several cores of the cluster. (R377) -/
  | cpym (f : FQ)
  /-- Pushes a remote copy to or from a peer package over Twill. (R378) -/
  | cpyr (f : FQ)
  /-- Pushes a collective operation to the die collective engine. (R379) -/
  | coll (f : FQ)
  /-- Releases at its scope and adds to a counter, saturating, optionally returning the old value. (R362) -/
  | cadd (f : FY)
  /-- Issues a wait that completes when a counter reaches a target, with acquire. (R363) -/
  | cwait (f : FY)
  /-- Reads a counter's value at its execution point. (R364) -/
  | cread (f : FY)
  /-- Computes the generation, next target or remainder of a barrier value. (R365) -/
  | cphase (f : FY)
  /-- Registers the fibre as a contributor to a counter for priority inheritance. (R368) -/
  | cbind (f : FY)
  /-- Removes a contributor registration. (R368) -/
  | cunbind (f : FY)
  /-- Releases and writes a value to a counter. (R366) -/
  | cset (f : FY)
  /-- Checks a launch record, descriptor and queue entry and admits a grid, returning status and identifier. (R130) -/
  | launch (f : FY)
  /-- Reads a grid's state by identifier. (R135) -/
  | lstat (f : FY)
  /-- Reads a system register after every earlier word of the fibre has completed. (R149) -/
  | rdsr (f : FY)
  /-- Writes a system register after every earlier word of the fibre has completed. (R149) -/
  | wrsr (f : FY)
  /-- Returns from a trap handler, restoring saved scalars and the set-aside frontier. (R429) -/
  | tret (f : FC)
  /-- Begins the kill of a grid of the virtual device. (R437) -/
  | halt (f : FY)
  /-- Drops cached translations by page, range, context or walk cache. (R305) -/
  | tlbi (f : FY)
  /-- Changes the mode of cluster SRAM banks, refusing banks in use. (R144) -/
  | bankmode (f : FY)
  /-- Enters or leaves shadow mode, copying lanes 0 to 15 into 16 to 31. (R443) -/
  | dmr (f : FY)
  /-- Runs one core's scan pass at once and returns its result. (R442) -/
  | scan (f : FY)
  /-- Fetches and checks a clause header and takes its WTOK wait before the first word issues. (R87) -/
  | clauseEntry (w : W64)
  /-- A long-latency word completes, writes its results and releases its token or implicit wait. (R67) -/
  | longLatencyComplete (fib idx : Nat) (part : Option (List Nat))
  /-- A pending cwait observes its counter at or above the target and completes with acquire. (R363) -/
  | cwaitComplete (fib idx : Nat)
  /-- A cwait on a host-memory counter re-reads it every 1 µs. (R359) -/
  | hostCwaitPoll (fib idx : Nat)
  /-- A ready slot that has gone 56 cycles without issuing is promoted. (R152) -/
  | slotPromotion (slot : Nat)
  /-- A stalled active slot and a ready pending slot exchange sets over 4 cycles. (R153) -/
  | slotExchange (core quarter : Nat)
  /-- An active slot is swapped out at its next clause boundary after 2,048 cycles of residence. (R153) -/
  | longResidenceSwap (core quarter : Nat)
  /-- A SPILL_CMD write with GO moves the pending chunk and updates LO. (R169) -/
  | spillCmdGo (fib : Nat) (v : W64)
  /-- The cluster placer places one workgroup of the highest-ranked ready grid every 60 ns. (R139) -/
  | workgroupPlacement (cluster : Nat)
  /-- Each 1 µs interval, island energy is charged to workgroups and virtual devices. (R453) -/
  | energyMeterInterval (readings : List IslandReading)
  /-- Every 100 µs, compute island clocks step down or up by 1/16 against the power limit. (R454) -/
  | powerClockStep (milliwatts : Nat) (draw : List Nat)
  /-- A slice ends and the outgoing virtual device's slots are pre-empted. (R136) -/
  | sliceEnd (core : Nat)
  /-- A slot not stopped within PREEMPT_TIMEOUT is stopped between words for a full save. (R432) -/
  | preemptTimeout (core : Nat)
  /-- Once all its slots have stopped, a workgroup's state is saved. (R433) -/
  | workgroupSave (wg : Nat)
  /-- A saved workgroup is restored on a core of its virtual device where it fits. (R434) -/
  | workgroupRestore (wg core : Nat)
  /-- After long-latency words complete, the trap frame is filled and the fibre enters its handler. (R427) -/
  | trapTake (fib : Nat)
  /-- Every page of a batch is served or refused and the fibre resumes or traps. (R431) -/
  | faultBatchServed (fib : Nat) (ptes : List (Nat × W64)) (refused : List Nat)
  /-- A walker reads the page-table levels and yields a translation or a fault. (R301) -/
  | pageWalk (core vd va : Nat)
  /-- The promotion engine joins 32 64 KiB pages into one 2 MiB page under MIG. (R302) -/
  | pagePromotion (vd va frame : Nat)
  /-- A workgroup resident for LIMIT takes WATCHDOG in each fibre. (R428) -/
  | watchdogExpiry (wg : Nat)
  /-- An agent silent for 10 µs is declared dead and dependent contexts are contained. (R439) -/
  | heartbeatLoss (agent : Agent)
  /-- A core's scan pass ends in pass or fail, fencing a failed core. (R441) -/
  | scanPassComplete (core : Nat) (pass : Bool)
  /-- In host-timed rotation, a core unscanned for 10 ms is scanned by the device. (R147) -/
  | unscannedCoreScan (core : Nat)
  /-- A host write of SCAN_REQ starts a core's scan pass. (R147) -/
  | scanReqWrite (v : W64)
  /-- An 8-byte MMIO write sets a counter-add slot's ADDR. (R121) -/
  | counterAddAddrWrite (vd off size : Nat) (v : W64)
  /-- An 8-byte MMIO write adds its value to the counter at the slot's ADDR. (R121) -/
  | counterAddIncrement (vd off size : Nat) (v : W64)
  /-- A 16-byte MMIO write sets a slot's ADDR and adds as one operation. (R121) -/
  | counterAddSetAndAdd (vd off : Nat) (addr inc : W64)
  /-- A read of DROPS returns the drop count and clears it. (R121) -/
  | dropsRead (vd : Nat)
  /-- A function is enabled, resetting slot ADDRs and starting its dispatcher. (R124) -/
  | functionEnable (vd : Nat) (cfg : FunctionCfg)
  /-- A write of DISPATCH_DESC stops the running dispatcher and starts a new one, or none. (R124) -/
  | dispatchDescWrite (vd : Nat) (v : W64)
  /-- A bank's drain and zeroing ends and it takes its new mode. (R145) -/
  | bankDrainComplete (cluster bank : Nat)
  /-- An engine accepts a queued command, after the fork release, and starts it. (R373) -/
  | engineAccept (cmd : Nat)
  /-- A command not accepted within ENG_DEADLINE goes to a stand-in kernel or the host. (R381) -/
  | engineDeadline (cmd : Nat)
  /-- A 4,096-byte chunk of a copy is performed and its bytes added to the counter. (R376) -/
  | copyChunkDone (cmd : Nat)
  /-- A collective's fold is delivered at a rank and its counter add made. (R379) -/
  | collectiveFoldDone (cmd : Nat) (remote : List (List Byte))
  /-- An issued matrix operation runs on the four quarter arrays and writes tiles and checksums. (R340) -/
  | mmaOperation (wg g : Nat)
  /-- The home folds a holder's drained partial and acknowledges it, lowering the tracker and returning shares. (R401) -/
  | gauzeDrainAck (cluster line : Nat)
  /-- A bank, channel, TSV group or stack is declared lost and its provinces become DEGRADED. (R321) -/
  | unitLoss (u : LostUnit)
  /-- The recovery flush ends and lost parity lines become lost members. (R320) -/
  | recoveryFlushEnd (stack : Nat)
  /-- The locked line at the watermark moves to its new placement and WM advances. (R323) -/
  | lineMove (province : Nat)
  /-- The patrol scrubber reads a line, corrects or rebuilds and rewrites it. (R327) -/
  | patrolScrub (line : Nat)
  /-- A refresh blackout of 280 ns occurs on a channel. (R331) -/
  | dramRefresh (stack channel : Nat)
  /-- A ROW_REPAIR write with GO starts post-package repair of a row. (R329) -/
  | rowRepairGo (fib : Nat) (v : W64)
  /-- MEM_RETIRE KIND 0 retires a bank. (R325) -/
  | memRetireBank (fib : Nat) (v : W64)
  /-- MEM_RETIRE KIND 1 retires a pseudo-channel. (R325) -/
  | memRetirePseudoChannel (fib : Nat) (v : W64)
  /-- MEM_RETIRE KIND 2 retires a channel. (R325) -/
  | memRetireChannel (fib : Nat) (v : W64)
  /-- MEM_RETIRE KIND 3 retires a stack. (R325) -/
  | memRetireStack (fib : Nat) (v : W64)
  /-- MEM_RETIRE KIND 4 retires an unowned province. (R325) -/
  | memRetireProvince (fib : Nat) (v : W64)
  /-- MEM_RETIRE KIND 5 starts the waiting phase or rechecks room. (R325) -/
  | memRetireStartPhase (fib : Nat) (v : W64)
  /-- MEM_RETIRE KIND 6 or 7 sets BAD_UNIT. (R325) -/
  | memRetireBadKind (fib : Nat) (v : W64)
  /-- A read of MEM_RETIRE_STATUS returns the phase and clears LAST_ERROR. (R325) -/
  | memRetireStatusRead (fib d : Nat)
  /-- A read of MEM_EVENT returns and removes the oldest log entry. (R330) -/
  | memEventRead (fib d : Nat)
  /-- A read of XLATE_OUT evaluates the placement of the address in XLATE_IN. (R316) -/
  | xlateOutRead (fib d : Nat)
  /-- A read of KILL_CAUSE returns the first kill since the last read and clears it. (R436) -/
  | killCauseRead (fib d : Nat)
  /-- A read of ENG_FAULT returns the first engine fault and clears it. (R380) -/
  | engFaultRead (fib d : Nat)
  /-- A FAULT_INJECT write with TARGET 1 flips a bit of an accumulator tile element. (R351) -/
  | faultInjectTile (fib : Nat) (v : W64)
  /-- A FAULT_INJECT write with TARGET 2 flips a bit of a checksum-vector element. (R351) -/
  | faultInjectChecksum (fib : Nat) (v : W64)
  /-- A FAULT_INJECT write with TARGET 3 flips a bit of a register-stack entry. (R444) -/
  | faultInjectRegister (fib : Nat) (v : W64)
  /-- A FAULT_INJECT write with TARGET 4 makes the core fail its next scan pass. (R444) -/
  | faultInjectScanFail (fib : Nat) (v : W64)
  /-- A write to a system register without behaviour of its own sets its RW fields. (R149) -/
  | registerWrite (fib num : Nat) (v : W64)
  /-- A Twill packet is received, checked, delivered in sequence and acknowledged. (R457) -/
  | twillPacketReceive (port : Nat) (pkt : Packet)
  /-- A CRC error makes the sender replay from the packet after the last acknowledged. (R457) -/
  | twillCrcReplay (port lane : Nat)
  /-- A port that loses both lanes has its addresses moved to the next live port. (R457) -/
  | twillPortLoss (port : Nat)
  /-- A host read or write of device memory arrives over PCI Express. (R421) -/
  | hostMemoryAccess (acc : HostAcc)
  /-- A queue-pair work request drives an RDMA read, write or send on an Ethernet port. (R461) -/
  | roceWorkRequest (req : WorkReq)
  /-- Package power-on resets registers and the ROM loads and measures the first firmware image. (R462) -/
  | powerOnReset (image : List Byte)
  /-- The firmware loader verifies, measures and loads a DEVICE image. (R55) -/
  | firmwareImageLoad (file : List Byte)
  /-- The driver loader checks, places, relocates, seals and maps an LOF image. (R56) -/
  | driverImageLoad (vd : Nat) (file : List Byte) (place : List Nat)
  /-- A loader unloads an image, refusing with BUSY while grids of it are live. (R57) -/
  | imageUnload (vd image : Nat)
  /-- SPDM CHALLENGE request signed with the device key. (R463) -/
  | challenge (nonce : List Byte)
  /-- Akvia telemetry message over MCTP for island energy, memory events and temperatures. (R463) -/
  | akviaTelemetry (item : Telemetry)
  /-- A fibre reaches a word whose OP, VOP or SOP names no instruction of its class, such as OP 0x00, and takes ILLEGAL_OPCODE at that word. (R89) -/
  | nonInstructionEncoding (w : W64)
  /-- With FUNC_MODE.SPILL = 1 the host finishes moving a spill or fill chunk, and the frozen fibre's LO advances and the fibre resumes. (R166) -/
  | hostSpillMove (fib : Nat)
  /-- A virtual device's function is disabled, ending its context together with the Gauze regions and other state that live as long as the context. (R399) -/
  | functionDisable (vd : Nat)
  /-- Effective priorities of bound contributors are raised or lowered at every core. (R369) -/
  | priorityInheritanceUpdate
  /-- A 1 ms energy window opens, applying budgets and carried debt. (R142) -/
  | energyWindowOpen
  /-- Every 40 µs the scheduler drains the next group of nine cores for their scan pass. (R440) -/
  | scanRotation
  /-- A read of SCAN_RESULT returns and removes the oldest unread result. (R147) -/
  | scanResultRead
  /-- Firmware starts REBUILDING or RESTRIPING for the next group of provinces. (R321) -/
  | phaseStart
  /-- A row repair finishes copying and switches the bank to the repair row. (R329) -/
  | rowRepairDone
  /-- SPDM GET_VERSION request over MCTP. (R463) -/
  | getVersion
  /-- SPDM GET_CAPABILITIES request. (R463) -/
  | getCapabilities
  /-- SPDM NEGOTIATE_ALGORITHMS request. (R463) -/
  | negotiateAlgorithms
  /-- SPDM GET_CERTIFICATE request. (R463) -/
  | getCertificate
  /-- SPDM GET_MEASUREMENTS request returning boot measurements. (R463) -/
  | getMeasurements
  deriving DecidableEq, Repr

end Sys2Proof
end

