-- ==== Sys2Proof/WellFormed.lean ====
section
/-! DEFINITION. The checks that a word must pass to be an instruction: step 7 of R87, with the field rules of R63 to R84
and of each instruction's entry. A word that fails one raises ILLEGAL_ENCODING (R89). -/

namespace Sys2Proof

/-- What the checks of step 7 know of the issuing fibre (R87): the shared-window size S, the fibre count F, the fibre's
index, and whether the header marks the word ephemeral. -/
structure DecCtx where
  shared : Nat
  fibres : Nat
  fibre  : Nat
  eph    : Bool
  deriving DecidableEq, Repr

namespace Wf

/-- A fixed-latency word has LA 0 and TOK 0 (R67); `ok` says whether EPH is permitted on it (R63). -/
def fixed (c : DecCtx) (h : Head) (ok : Bool) : Bool := h.la = 0 && h.tok = 0 && (ok || !c.eph)

/-- A long-latency word with LA below 15 has TOK 0, and is never ephemeral (R67, R63). -/
def long (c : DecCtx) (h : Head) : Bool := (h.la = 15 || h.tok = 0) && !c.eph

/-- A scalar destination names s0 to s31 (R69). -/
def sd (x : BitVec 6) : Bool := x < 32

/-- A field that names one of eight registers (R69). -/
def r8 (x : BitVec 6) : Bool := x < 8

/-- A field that names one of sixteen registers (R69). -/
def r16 (x : BitVec 6) : Bool := x < 16

/-- An even first register (R184). -/
def even (x : BitVec 6) : Bool := x.getLsbD 0 = false

/-- A run of n registers from x: not past v63, and not across the shared-window boundary (R69). -/
def run (c : DecCtx) (x : BitVec 6) (n : Nat) : Bool :=
  x.toNat + n ≤ 64 && (x.toNat + n ≤ 64 - c.shared || 64 - c.shared ≤ x.toNat)

/-- The kind of a register field. -/
inductive RK where
  | no    -- unused: 0 (R70)
  | val   -- a v register of the word's type: even when that type has 64 bits
  | src   -- a v register of the type that SUB names (R229, R230)
  | v32   -- one v register
  | sd    -- a scalar destination
  | any   -- a scalar source, or k0 to k63
  | p     -- a predicate
  deriving DecidableEq, Repr

/-- The kind of a B operand (R71, R203). -/
inductive BK where
  | no | val | cnt | p
  deriving DecidableEq, Repr

/-- The reading of MODE (R71). -/
inductive MK where
  | zero | sat | rnd
  deriving DecidableEq, Repr

/-- The reading of MOD (R72, R221). -/
inductive DK where
  | zero | ab | aOnly | icond | fcond
  deriving DecidableEq, Repr

/-- What an entry of R208, R209, R221, R231 or R238 allows. -/
structure Spec where
  sca  : Bool := false
  d    : RK
  a    : RK
  b    : BK := .no
  c    : RK := .no
  tys  : List Nat
  mode : MK := .zero
  md   : DK := .zero
  z    : Bool := false
  lng  : Bool := false
  eph  : Bool := true

/-- A 64-bit type code; TY 0 is i64 in the sca class (R205). -/
def is64 (sca : Bool) (ty : BitVec 5) : Bool := ty = 6 || ty = 7 || ty = 11 || (sca && ty = 0)

def reg (sca : Bool) (ty sub : BitVec 5) (k : RK) (x : BitVec 6) : Bool :=
  match k with
  | .no => x = 0
  | .val => !is64 sca ty || even x
  | .src => !is64 false sub || even x
  | .v32 => true
  | .sd => sd x
  | .any => true
  | .p => r8 x

def bop (sca : Bool) (f : V3) (k : BK) : Bool :=
  match k with
  | .no => f.b = 0 && f.bsel = 0
  | .p => r8 f.b && f.bsel = 0
  | .cnt => !(sca && f.bsel = 0)
  | .val => !(sca && f.bsel = 0) && (f.bsel != 0 || !is64 sca f.ty || even f.b)

def mode (k : MK) (m : BitVec 3) : Bool :=
  match k with
  | .zero => m = 0
  | .sat => m ≤ 1
  | .rnd => m ≤ 4

def mds (k : DK) (m : BitVec 4) : Bool :=
  match k with
  | .zero => m = 0
  | .ab => true
  | .aOnly => m < 4
  | .icond => m ≤ 5
  | .fcond => m ≤ 13

/-- The checks of a V3 word under an entry; `sub` is the entry's check of SUB. -/
def v3 (c : DecCtx) (f : V3) (s : Spec) (sub : Bool) : Bool :=
  (if s.lng then long c f.hd else fixed c f.hd s.eph)
    && s.tys.contains f.ty.toNat && mode s.mode f.mode && mds s.md f.md && (s.z || !f.z)
    && reg s.sca f.ty f.sub s.d f.d && reg s.sca f.ty f.sub s.a f.a && bop s.sca f s.b && reg s.sca f.ty f.sub s.c f.c
    && sub

/-- The type lists of R205, R209 and R221. -/
def tyS : List Nat := [0, 4, 5, 6, 7]
def tyI8 : List Nat := [16, 17, 14, 15, 4, 5, 6, 7]
def tyI6 : List Nat := [14, 15, 4, 5, 6, 7]
def tyI4 : List Nat := [14, 15, 4, 5]
def tyB4 : List Nat := [4, 5, 6, 7]
def tyA4 : List Nat := [16, 14, 4, 6]
def tyW : List Nat := [16, 17, 14, 15, 4, 5, 6, 7, 18, 19, 10, 11]
def tyF4 : List Nat := [18, 19, 10, 11]

/-- The entries' common shapes. -/
def sca3 (md : MK) : Spec := { sca := true, d := .sd, a := .any, b := .val, tys := tyS, mode := md }
def sca1 (tys : List Nat) (md : MK) : Spec := { sca := true, d := .sd, a := .any, tys := tys, mode := md }
def vec3 (tys : List Nat) (md : MK) : Spec := { d := .val, a := .val, b := .val, tys := tys, mode := md, z := true }
def vec1 (tys : List Nat) (md : MK) : Spec := { d := .val, a := .val, tys := tys, mode := md, z := true }
def flt2 (md : MK) : Spec := { d := .val, a := .val, b := .val, tys := tyF4, mode := md, md := .ab, z := true }
def fun1 (tys : List Nat) (md : MK) : Spec :=
  { d := .val, a := .val, tys := tys, mode := md, md := .aOnly, z := true, lng := true }
def prd (b : BK) : Spec := { d := .p, a := .p, b := b, tys := [0], eph := false }

/-- MODE of a reduction or scan: SAT with an integer `.add`, a rounding with an f32 `.add`, otherwise 0; no bitwise
operator on f32 (R242). -/
def redOk (f : V3) (op : Nat) : Bool :=
  op ≤ 5 && (if f.ty = 10 then op ≤ 2 && (if op = 0 then f.mode ≤ 4 else f.mode = 0)
    else (if op = 0 then f.mode ≤ 1 else f.mode = 0))

/-- MODE of `icvt` (R230), and its pair of codes. -/
def icvtOk (f : V3) : Bool :=
  f.ty ≤ 13 && f.sub ≤ 13 && !(8 ≤ f.ty && 8 ≤ f.sub) &&
    (if f.ty < 8 && f.sub < 8 then f.mode ≤ 1 else f.mode ≤ 4)

/-- The operands of a memory word that names its address in every form (R75). -/
def memAddr (f : FM) : Bool :=
  match f.abase.toNat with
  | 0 => true
  | 1 => even f.a && f.b = 0
  | 2 => f.b = 0
  | _ => false

/-- The M fields TY, STR and CNT that most words leave 0 (R269, R388). -/
def m0 (f : FM) : Bool := f.ty = 0 && !f.str && f.cnt = 0

/-- The types of `atom` and `red` (R390); `xchg` says whether AOP 6 is allowed. -/
def atomOk (f : FM) (xchg : Bool) : Bool :=
  let aop := f.off.toNat / 128
  let ty := f.ty.toNat
  if ty = 4 || ty = 5 || ty = 6 || ty = 7 then aop ≤ 8 && (xchg || aop != 6)
  else if ty = 10 then aop ≤ 2 || (xchg && aop = 6)
  else if ty = 9 || ty = 12 then aop = 0
  else false

/-- The class pairings of R339. -/
def mmaTy (a b : Nat) : Bool :=
  ((a = 8 || a = 9) && (b = 8 || b = 9))
    || ((a = 12 || a = 13 || a = 0 || a = 1 || (20 ≤ a && a ≤ 26)) && (b = 12 || b = 13 || b = 0 || b = 1))

/-- The MX fields that a readout word leaves 0 (R348); `bv` is the length of its run, 0 for none. -/
def readout (c : DecCtx) (f : FX) (bv : Nat) (ck : Bool) (col : Bool) : Bool :=
  f.obh = 0 && f.g = 0 && f.tya = 0 && f.tyb = 0 && !f.clr && (ck || !f.ck)
    && (if bv = 0 then f.bv = 0 else run c f.bv bv)
    && (if col && !f.ck then f.oboff < 4 else f.oboff = 0)

/-- A run of four scalar source fields (R371). -/
def run4 (a : BitVec 6) : Bool := a ≤ 28 || (32 ≤ a && a ≤ 60)

/-- The shift field of `call` and `callx` (R181). -/
def shift (c : DecCtx) (b : BitVec 6) : Bool := b != 0 && b.toNat ≤ 6 && 8 * b.toNat ≤ 64 - c.shared

/-- The C words: head, and the fields that R174 leaves 0. -/
def ctl (c : DecCtx) (f : FC) (a b t : Bool) : Bool :=
  fixed c f.hd false && (a || f.a = 0) && (b || f.b = 0) && (t || f.tgt = 0)

/-- A pair's vector operation accepts its type (R82). -/
def pairTy (vop vty : Nat) : Bool :=
  if vop ≤ 4 || (8 ≤ vop && vop ≤ 10) then vty = 0 || vty = 1 || vty = 3 || vty = 4
  else if vop ≤ 7 || vop = 11 then vty ≤ 6
  else vty = 2 || vty = 5 || vty = 6

/-- The fields of a pair (R82, R83, R233). -/
def pair (c : DecCtx) (f : FP) : Bool :=
  let _ := c
  let sop := f.sop.toNat
  f.vop ≤ 16 && sop ≤ 12 && pairTy f.vop.toNat f.vty.toNat
    && (if sop = 12 then r8 f.sd else sd f.sd)
    && (if sop = 11 then f.sa = 0 && f.sb = 0
        else if sop = 12 then f.simm ≤ 5
        else f.simm = 0 && (sop != 10 || f.sb = 0))
    && (f.vop != 11 || f.vb = 0)

/-- The counter sub-fields of a Y word (R361): `imm` and `scope` say whether IMM and SCOPE may be set. -/
def ctr (f : FY) (imm scope : Bool) : Bool :=
  f.num < 32 && (imm || f.num < 16) && (scope || f.num.toNat % 8 = 0)

end Wf

/-- The checks of step 7 (R87) for a decoded instruction of the fibre that `c` describes. An event is no word and passes. -/
def Instr.wellFormed (c : DecCtx) : Instr → Bool
  | .nop f => Wf.ctl c f false false false
  | .bra f => Wf.ctl c f false false true
  | .brp f => Wf.ctl c f true false true && f.a ≤ 1
  | .brs f => Wf.ctl c f true true true && f.b ≤ 3
  | .brx f => Wf.ctl c f true false true
  | .call f => Wf.ctl c f false true true && Wf.shift c f.b
  | .callx f => Wf.ctl c f true true false && Wf.shift c f.b
  | .ret f => Wf.ctl c f false false false
  | .exit f => Wf.ctl c f false false false
  | .wait f => Wf.ctl c f false false true && f.tgt < 256
  | .yield f => Wf.ctl c f false false false
  | .fbar f => Wf.ctl c f true true false && f.a ≤ 3 && f.b.toNat < 2 ^ c.fibres && f.b.getLsbD c.fibre
  | .trap f => Wf.ctl c f false false true && f.tgt < 65536
  | .brkpt f => Wf.ctl c f false false true && f.tgt < 65536
  | .sadd f => Wf.v3 c f (Wf.sca3 .sat) (f.sub = 0)
  | .ssub f => Wf.v3 c f (Wf.sca3 .sat) (f.sub = 0)
  | .smul f => Wf.v3 c f (Wf.sca3 .sat) (f.sub = 0)
  | .smulh f => Wf.v3 c f (Wf.sca3 .zero) (f.sub = 0)
  | .smad f => Wf.v3 c f { Wf.sca3 .sat with c := .any } (f.sub = 0)
  | .sabs f => Wf.v3 c f (Wf.sca1 [0, 4, 6] .sat) (f.sub = 0)
  | .smin f => Wf.v3 c f (Wf.sca3 .zero) (f.sub = 0)
  | .smax f => Wf.v3 c f (Wf.sca3 .zero) (f.sub = 0)
  | .sand f => Wf.v3 c f (Wf.sca3 .zero) (f.sub = 0)
  | .sor f => Wf.v3 c f (Wf.sca3 .zero) (f.sub = 0)
  | .sxor f => Wf.v3 c f (Wf.sca3 .zero) (f.sub = 0)
  | .snot f => Wf.v3 c f (Wf.sca1 Wf.tyS .zero) (f.sub = 0)
  | .sshl f => Wf.v3 c f (Wf.sca3 .zero) (f.sub = 0)
  | .sshr f => Wf.v3 c f (Wf.sca3 .zero) (f.sub = 0)
  | .ssra f => Wf.v3 c f (Wf.sca3 .zero) (f.sub = 0)
  | .sbfe f => Wf.v3 c f (Wf.sca3 .zero) (f.sub = 0)
  | .sbfi f => Wf.v3 c f { Wf.sca3 .zero with c := .any } (f.sub = 0)
  | .spopc f => Wf.v3 c f (Wf.sca1 Wf.tyS .zero) (f.sub = 0)
  | .sclz f => Wf.v3 c f (Wf.sca1 Wf.tyS .zero) (f.sub = 0)
  | .sctz f => Wf.v3 c f (Wf.sca1 Wf.tyS .zero) (f.sub = 0)
  | .scmp f => Wf.v3 c f { Wf.sca3 .zero with d := .p, md := .icond, eph := false } (f.sub = 0)
  | .ssel f => Wf.v3 c f { Wf.sca3 .zero with c := .any, tys := [0] } (f.sub = 0)
  | .smov f => Wf.v3 c f (Wf.sca1 [0] .zero) (f.sub = 0)
  | .smovi f => Wf.tyS.contains f.ty.toNat && f.mode = 0 && Wf.sd f.d && f.a = 0
  | .smovh f => [0, 6, 7].contains f.ty.toNat && f.mode ≤ 1 && Wf.sd f.d
  | .sfromk f => Wf.v3 c f (Wf.sca1 [0] .zero) (f.sub = 0)
  | .sfromv f => Wf.v3 c f { Wf.sca3 .zero with a := .val } (f.sub = 0)
  | .stov f => Wf.v3 c f { Wf.sca1 Wf.tyS .zero with d := .val } (f.sub = 0)
  | .vadd f => Wf.v3 c f (Wf.vec3 Wf.tyI8 .sat) (f.sub = 0)
  | .vsub f => Wf.v3 c f (Wf.vec3 Wf.tyI8 .sat) (f.sub = 0)
  | .vmul f => Wf.v3 c f (Wf.vec3 Wf.tyI6 .sat) (f.sub = 0)
  | .vmulh f => Wf.v3 c f (Wf.vec3 Wf.tyI4 .zero) (f.sub = 0)
  | .vmad f => Wf.v3 c f { Wf.vec3 Wf.tyI4 .sat with c := .val } (f.sub = 0)
  | .vabs f => Wf.v3 c f (Wf.vec1 Wf.tyA4 .sat) (f.sub = 0)
  | .vneg f => Wf.v3 c f (Wf.vec1 Wf.tyA4 .sat) (f.sub = 0)
  | .vmin f => Wf.v3 c f (Wf.vec3 Wf.tyI8 .zero) (f.sub = 0)
  | .vmax f => Wf.v3 c f (Wf.vec3 Wf.tyI8 .zero) (f.sub = 0)
  | .vand f => Wf.v3 c f (Wf.vec3 Wf.tyW .zero) (f.sub = 0)
  | .vor f => Wf.v3 c f (Wf.vec3 Wf.tyW .zero) (f.sub = 0)
  | .vxor f => Wf.v3 c f (Wf.vec3 Wf.tyW .zero) (f.sub = 0)
  | .vnot f => Wf.v3 c f (Wf.vec1 Wf.tyW .zero) (f.sub = 0)
  | .vlop3 f => Wf.v3 c f { Wf.vec3 Wf.tyW .zero with c := .val } true
  | .vshl f => Wf.v3 c f { Wf.vec3 Wf.tyI8 .zero with b := .cnt } (f.sub = 0)
  | .vshr f => Wf.v3 c f { Wf.vec3 Wf.tyI8 .zero with b := .cnt } (f.sub = 0)
  | .vsra f => Wf.v3 c f { Wf.vec3 Wf.tyI8 .zero with b := .cnt } (f.sub = 0)
  | .vbfe f => Wf.v3 c f { Wf.vec3 Wf.tyB4 .zero with b := .cnt } (f.sub = 0)
  | .vbfi f => Wf.v3 c f { Wf.vec3 Wf.tyB4 .zero with b := .cnt, c := .val } (f.sub = 0)
  | .vpopc f => Wf.v3 c f (Wf.vec1 Wf.tyI8 .zero) (f.sub = 0)
  | .vclz f => Wf.v3 c f (Wf.vec1 Wf.tyI8 .zero) (f.sub = 0)
  | .vbrev f => Wf.v3 c f (Wf.vec1 Wf.tyB4 .zero) (f.sub = 0)
  | .vperm f => Wf.v3 c f { Wf.vec3 [5] .zero with c := .val } (f.sub = 0)
  | .vdot4 f => Wf.v3 c f { Wf.vec3 [16, 17] .sat with c := .val } (f.sub = 0)
  | .vsad f => Wf.v3 c f { Wf.vec3 [17, 15] .sat with c := .val } (f.sub = 0)
  | .vpack f => Wf.v3 c f (Wf.vec3 [14, 15, 18, 19] (if 18 ≤ f.ty then .rnd else .sat)) (f.sub = 0)
  | .vunpack f => Wf.v3 c f (Wf.vec1 [16, 17, 14, 15, 18, 19] .zero) (if f.ty = 16 || f.ty = 17 then f.sub < 4 else f.sub < 2)
  | .vcmp f => Wf.v3 c f { Wf.vec3 Wf.tyB4 .zero with d := .p, md := .icond, z := false, eph := false } (f.sub = 0)
  | .vsel f => Wf.v3 c f { Wf.vec3 Wf.tyW .zero with c := .p } (f.sub = 0)
  | .vmov f => Wf.v3 c f (Wf.vec1 Wf.tyW .zero) (f.sub = 0)
  | .vmovi f => [16, 17, 14, 15, 4, 5, 6, 7, 10, 18, 19].contains f.ty.toNat && f.mode = 0 && f.a = 0 && (!Wf.is64 false f.ty || Wf.even f.d)
  | .fadd f => Wf.v3 c f (Wf.flt2 .rnd) (f.sub = 0)
  | .fsub f => Wf.v3 c f (Wf.flt2 .rnd) (f.sub = 0)
  | .fmul f => Wf.v3 c f (Wf.flt2 .rnd) (f.sub = 0)
  | .fma f => Wf.v3 c f { Wf.flt2 .rnd with c := .val } (f.sub = 0)
  | .fmin f => Wf.v3 c f (Wf.flt2 .zero) (f.sub = 0)
  | .fmax f => Wf.v3 c f (Wf.flt2 .zero) (f.sub = 0)
  | .fcmp f => Wf.v3 c f { Wf.flt2 .zero with d := .p, tys := [8, 9, 10, 11], md := .fcond, z := false, eph := false } (f.sub = 0)
  | .fclass f => Wf.v3 c f { Wf.vec1 Wf.tyF4 .zero with d := .v32 } (f.sub = 0)
  | .frcp f => Wf.v3 c f (Wf.fun1 [10, 11] .zero) (f.sub = 0)
  | .frsq f => Wf.v3 c f (Wf.fun1 [10, 11] .zero) (f.sub = 0)
  | .fsqrt f => Wf.v3 c f (Wf.fun1 [10, 11] .rnd) (f.sub = 0)
  | .fex2 f => Wf.v3 c f (Wf.fun1 [10] .zero) (f.sub = 0)
  | .flg2 f => Wf.v3 c f (Wf.fun1 [10] .zero) (f.sub = 0)
  | .fsin f => Wf.v3 c f (Wf.fun1 [10] .zero) (f.sub = 0)
  | .fcos f => Wf.v3 c f (Wf.fun1 [10] .zero) (f.sub = 0)
  | .ftanh f => Wf.v3 c f (Wf.fun1 [10] .zero) (f.sub = 0)
  | .frint f => Wf.v3 c f { Wf.vec1 Wf.tyF4 .rnd with md := .aOnly } (f.sub = 0)
  | .fscale f => Wf.v3 c f { Wf.vec3 Wf.tyF4 .rnd with b := .cnt, md := .aOnly } (f.sub = 0)
  | .fsgn f => Wf.v3 c f { Wf.vec1 Wf.tyF4 .zero with b := if f.sub < 3 then .val else .no } (f.sub ≤ 4)
  | .fcvt f => Wf.v3 c f { Wf.vec1 [8, 9, 10, 11, 12, 13] .rnd with a := .src } ([8, 9, 10, 11, 12, 13].contains f.sub.toNat && f.sub != f.ty)
  | .icvt f => Wf.v3 c f { Wf.vec1 [0, 1, 2, 3, 4, 5, 6, 7, 8, 9, 10, 11, 12, 13] .rnd with a := .src } (Wf.icvtOk f)
  | .shfl f => Wf.v3 c f { Wf.vec3 [5, 7] .zero with b := .cnt } (f.sub ≤ 3)
  | .qswp f => Wf.v3 c f (Wf.vec1 [5, 7] .zero) (f.sub ≤ 2)
  | .qbc f => Wf.v3 c f { Wf.vec3 [5, 7] .zero with b := .cnt } (f.sub = 0 && f.bsel != 0)
  | .vote f => Wf.v3 c f (Wf.prd .no) (f.sub ≤ 2)
  | .ballot f => Wf.v3 c f { Wf.prd .no with d := .sd, eph := true } (f.sub ≤ 2)
  | .vred f => Wf.v3 c f { Wf.vec1 [4, 5, 6, 7, 10] .rnd with lng := true } (f.sub < 8 && Wf.redOk f f.sub.toNat)
  | .vscan f => Wf.v3 c f { Wf.vec1 [4, 5, 6, 7, 10] .rnd with lng := true } (f.sub < 16 && Wf.redOk f (f.sub.toNat % 8))
  | .pand f => Wf.v3 c f (Wf.prd .p) (f.sub ≤ 3)
  | .por f => Wf.v3 c f (Wf.prd .p) (f.sub ≤ 3)
  | .pxor f => Wf.v3 c f (Wf.prd .p) (f.sub ≤ 3)
  | .pnot f => Wf.v3 c f (Wf.prd .no) (f.sub = 0)
  | .pmov f => Wf.v3 c f (Wf.prd .no) (f.sub = 0)
  | .pcnt f => Wf.v3 c f { Wf.prd .no with d := .sd, eph := true } (f.sub = 0)
  | .ld f => Wf.long c f.hd && f.ty < 8 && (if f.ty < 4 then f.cnt = 0 else if f.ty < 6 then true else f.cnt != 0 && Wf.even f.d)
      && Wf.run c f.d (2 ^ f.cnt.toNat) && f.space != 3 && Wf.memAddr f
  | .st f => Wf.long c f.hd && f.ty < 8 && (if f.ty < 4 then f.cnt = 0 else if f.ty < 6 then true else f.cnt != 0 && Wf.even f.d)
      && Wf.run c f.d (2 ^ f.cnt.toNat) && f.space != 3 && Wf.memAddr f
  | .lds f => Wf.long c f.hd && f.ty < 8 && Wf.sd f.d && f.d.toNat + 2 ^ f.cnt.toNat ≤ 32 && f.abase = 2 && f.b = 0 && f.space != 3
  | .sts f => Wf.long c f.hd && f.ty < 8 && Wf.sd f.d && f.d.toNat + 2 ^ f.cnt.toNat ≤ 32 && f.abase = 2 && f.b = 0 && f.space != 3
  | .ldt f => Wf.long c f.hd && f.ty = 0 && !f.str && Wf.run c f.d (2 ^ f.cnt.toNat) && Wf.r8 f.a && f.abase = 0 && f.off ≤ 9 && f.space != 3
  | .stt f => Wf.long c f.hd && f.ty = 0 && !f.str && Wf.run c f.d (2 ^ f.cnt.toNat) && Wf.r8 f.a && f.abase = 0 && f.off ≤ 9 && f.space != 3
  | .lrec f => Wf.long c f.hd && Wf.m0 f && Wf.r8 f.d && f.abase = 2 && f.b = 0 && f.space ≤ 1
  | .prf f => Wf.long c f.hd && Wf.m0 f && f.d < 3 && Wf.memAddr f && f.space = 0 && f.scope = 0
  | .cwb f => Wf.long c f.hd && Wf.m0 f && f.d = 0 && Wf.memAddr f && f.space = 0
  | .cinv f => Wf.long c f.hd && Wf.m0 f && f.d = 0 && Wf.memAddr f && f.space = 0
  | .seal f => Wf.long c f.hd && Wf.m0 f && Wf.sd f.d && f.abase = 2 && f.space = 0 && f.scope = 0
  | .unseal f => Wf.long c f.hd && Wf.m0 f && Wf.sd f.d && f.abase = 2 && f.space = 0 && f.scope = 0 && f.b = 0
  | .lkl f => Wf.long c f.hd && Wf.m0 f && Wf.sd f.d && f.abase = 2 && f.space = 0 && f.scope = 0
  | .ulk f => Wf.long c f.hd && Wf.m0 f && Wf.sd f.d && f.abase = 2 && f.space = 0 && f.scope = 0
  | .atom f => Wf.long c f.hd && !f.str && f.cnt = 0 && Wf.atomOk f true && (!Wf.is64 false f.ty || Wf.even f.d) && f.space ≤ 1 && Wf.memAddr f
  | .atomx f => Wf.long c f.hd && !f.str && f.cnt = 0 && [4, 5, 6, 7, 10].contains f.ty.toNat && (!Wf.is64 false f.ty || (Wf.even f.d && Wf.even f.b))
      && f.space ≤ 1 && (f.abase = 2 || (f.abase = 1 && Wf.even f.a))
  | .red f => Wf.long c f.hd && !f.str && f.cnt = 0 && Wf.atomOk f false && (!Wf.is64 false f.ty || Wf.even f.d) && f.space ≤ 1 && Wf.memAddr f
  | .gdef f => Wf.long c f.hd && !f.str && f.cnt = 0 && [10, 9, 4].contains f.ty.toNat && Wf.sd f.d && f.abase = 2 && f.space = 0 && f.scope = 0
  | .gadd f => Wf.long c f.hd && !f.str && f.cnt = 0 && [10, 9, 4].contains f.ty.toNat && f.space = 0 && Wf.memAddr f
  | .gld f => Wf.long c f.hd && !f.str && f.cnt = 0 && [10, 9, 4].contains f.ty.toNat && f.space = 0 && (f.abase = 2 || (f.abase = 1 && Wf.even f.a))
  | .fence f => Wf.long c f.hd && f.d = 0 && f.a = 0 && f.b = 0 && f.ty = 0 && !f.str && f.space = 0 && f.cnt != 3 && f.abase = 0 && f.off = 0
  | .gdecl f => Wf.fixed c f.hd false && Wf.r8 f.d && f.a = 0 && f.b = 0 && f.num = 0 && f.sub ≤ 1
  | .obres f => Wf.long c f.hd && Wf.r16 f.d && f.num = 0 && f.sub = 0
  | .obrel f => Wf.fixed c f.hd false && Wf.r16 f.d && f.a = 0 && f.b = 0 && f.num = 0 && f.sub = 0
  | .obld f => Wf.long c f.hd && f.ty = 0 && !f.str && f.space = 0 && Wf.memAddr f
  | .obst f => Wf.long c f.hd && f.ty = 0 && !f.str && f.space = 0 && Wf.memAddr f
  | .mma f => Wf.long c f.hd && Wf.run c f.bv 8 && Wf.mmaTy f.tya.toNat f.tyb.toNat
  | .aclr f => Wf.fixed c f.hd false && Wf.readout c f 0 false false
  | .aget f => Wf.long c f.hd && Wf.readout c f (if f.ck then 2 else 8) true true
  | .aput f => Wf.long c f.hd && Wf.readout c f (if f.ck then 2 else 8) true true
  | .aout f => Wf.long c f.hd && Wf.readout c f 0 true true
  | .ackr f => Wf.long c f.hd && Wf.readout c f 2 false false
  | .qpush f => Wf.long c f.hd && 8 ≤ f.q && f.b = 0 && f.c = 0 && f.sub = 0
  | .qpop f => Wf.long c f.hd && 4 ≤ f.q && f.b = 0 && f.c = 0 && f.sub = 0
  | .qstat f => Wf.fixed c f.hd false && f.q != 3 && Wf.sd f.a && f.b = 0 && f.c = 0 && f.sub = 0
  | .qbind f => Wf.fixed c f.hd false && 8 ≤ f.q && Wf.sd f.a && f.c = 0 && f.sub ≤ 1 && (f.sub = 0 || f.b = 0)
  | .cpy f => Wf.long c f.hd && f.q = 0 && Wf.run4 f.a && f.sub.extractLsb' 0 2 ≤ 1 && f.sub.extractLsb' 2 2 ≤ 1
      && f.sub.extractLsb' 10 2 ≤ 2 && f.sub < 65536 && (if f.sub.getLsbD 8 then Wf.r8 f.b else f.b = 0)
      && (if f.sub.getLsbD 9 then Wf.r8 f.c else f.c = 0)
  | .cpym f => Wf.long c f.hd && f.q = 0 && Wf.run4 f.a && f.sub.extractLsb' 0 5 = 20 && f.sub < 256 && f.c = 0
  | .cpyr f => Wf.long c f.hd && f.q = 2 && Wf.run4 f.a && f.sub.extractLsb' 0 5 = 0 && f.sub.extractLsb' 9 7 = 0 && f.sub.extractLsb' 16 6 != 0 && f.b = 0
      && (!f.sub.getLsbD 8 || f.c = 0)
  | .coll f => Wf.long c f.hd && f.q = 1 && Wf.run4 f.a && f.sub.extractLsb' 0 4 = 0 && f.sub < 65536 && f.c = 0
  | .cadd f => Wf.long c f.hd && f.sub ≤ 1 && (if f.sub = 1 then Wf.sd f.d else f.d = 0) && Wf.ctr f true true
  | .cwait f => Wf.long c f.hd && f.sub ≤ 1 && (if f.sub = 1 then Wf.sd f.d else f.d = 0) && Wf.ctr f false true
  | .cread f => Wf.long c f.hd && f.sub = 0 && Wf.sd f.d && f.b = 0 && Wf.ctr f false true
  | .cphase f => Wf.fixed c f.hd false && f.sub ≤ 2 && Wf.sd f.d && f.num = 0
  | .cbind f => Wf.fixed c f.hd false && f.sub = 0 && Wf.sd f.d && f.b = 0 && Wf.ctr f false false
  | .cunbind f => Wf.fixed c f.hd false && f.sub = 0 && Wf.sd f.d && f.b = 0 && Wf.ctr f false false
  | .cset f => Wf.long c f.hd && f.sub = 0 && f.d = 0 && Wf.ctr f false true
  | .launch f => Wf.long c f.hd && Wf.sd f.d && f.b = 0 && f.num = 0 && f.sub = 0
  | .lstat f => Wf.long c f.hd && Wf.sd f.d && f.b = 0 && f.num = 0 && f.sub = 0
  | .rdsr f => Wf.long c f.hd && Wf.sd f.d && f.a = 0 && f.b = 0 && f.sub = 0
  | .wrsr f => Wf.long c f.hd && f.d = 0 && f.b = 0 && f.sub = 0
  | .tret f => Wf.ctl c f false false false
  | .halt f => Wf.fixed c f.hd false && Wf.sd f.d && f.b = 0 && f.num = 0 && f.sub = 0
  | .tlbi f => Wf.long c f.hd && f.d = 0 && f.num = 0 && f.sub ≤ 3 && (f.sub ≤ 1 || f.a = 0) && (f.sub = 1 || f.b = 0)
  | .bankmode f => Wf.long c f.hd && Wf.sd f.d && f.b = 0 && f.num = 0 && f.sub ≤ 2
  | .dmr f => Wf.fixed c f.hd false && f.d = 0 && f.a = 0 && f.b = 0 && f.num = 0 && f.sub ≤ 1
  | .scan f => Wf.long c f.hd && Wf.sd f.d && f.b = 0 && f.num = 0 && f.sub = 0
  | .pair f => Wf.pair c f
  | .clauseEntry _ => true
  | .longLatencyComplete _ _ _ => true
  | .cwaitComplete _ _ => true
  | .hostCwaitPoll _ _ => true
  | .slotPromotion _ => true
  | .slotExchange _ _ => true
  | .longResidenceSwap _ _ => true
  | .spillCmdGo _ _ => true
  | .workgroupPlacement _ => true
  | .energyMeterInterval _ => true
  | .powerClockStep _ _ => true
  | .sliceEnd _ => true
  | .preemptTimeout _ => true
  | .workgroupSave _ => true
  | .workgroupRestore _ _ => true
  | .trapTake _ => true
  | .faultBatchServed _ _ _ => true
  | .pageWalk _ _ _ => true
  | .pagePromotion _ _ _ => true
  | .watchdogExpiry _ => true
  | .heartbeatLoss _ => true
  | .scanPassComplete _ _ => true
  | .unscannedCoreScan _ => true
  | .scanReqWrite _ => true
  | .counterAddAddrWrite _ _ _ _ => true
  | .counterAddIncrement _ _ _ _ => true
  | .counterAddSetAndAdd _ _ _ _ => true
  | .dropsRead _ => true
  | .functionEnable _ _ => true
  | .dispatchDescWrite _ _ => true
  | .bankDrainComplete _ _ => true
  | .engineAccept _ => true
  | .engineDeadline _ => true
  | .copyChunkDone _ => true
  | .collectiveFoldDone _ _ => true
  | .mmaOperation _ _ => true
  | .gauzeDrainAck _ _ => true
  | .unitLoss _ => true
  | .recoveryFlushEnd _ => true
  | .lineMove _ => true
  | .patrolScrub _ => true
  | .dramRefresh _ _ => true
  | .rowRepairGo _ _ => true
  | .memRetireBank _ _ => true
  | .memRetirePseudoChannel _ _ => true
  | .memRetireChannel _ _ => true
  | .memRetireStack _ _ => true
  | .memRetireProvince _ _ => true
  | .memRetireStartPhase _ _ => true
  | .memRetireBadKind _ _ => true
  | .memRetireStatusRead _ _ => true
  | .memEventRead _ _ => true
  | .xlateOutRead _ _ => true
  | .killCauseRead _ _ => true
  | .engFaultRead _ _ => true
  | .faultInjectTile _ _ => true
  | .faultInjectChecksum _ _ => true
  | .faultInjectRegister _ _ => true
  | .faultInjectScanFail _ _ => true
  | .registerWrite _ _ _ => true
  | .twillPacketReceive _ _ => true
  | .twillCrcReplay _ _ => true
  | .twillPortLoss _ => true
  | .hostMemoryAccess _ => true
  | .roceWorkRequest _ => true
  | .powerOnReset _ => true
  | .firmwareImageLoad _ => true
  | .driverImageLoad _ _ _ => true
  | .imageUnload _ _ => true
  | .challenge _ => true
  | .akviaTelemetry _ => true
  | .nonInstructionEncoding _ => true
  | .hostSpillMove _ => true
  | .functionDisable _ => true
  | .priorityInheritanceUpdate => true
  | .energyWindowOpen => true
  | .scanRotation => true
  | .scanResultRead => true
  | .phaseStart => true
  | .rowRepairDone => true
  | .getVersion => true
  | .getCapabilities => true
  | .negotiateAlgorithms => true
  | .getCertificate => true
  | .getMeasurements => true

/-- The event rows: what is no instruction word. -/
def Instr.isEvent : Instr → Bool
  | .nop _ => false
  | .bra _ => false
  | .brp _ => false
  | .brs _ => false
  | .brx _ => false
  | .call _ => false
  | .callx _ => false
  | .ret _ => false
  | .exit _ => false
  | .wait _ => false
  | .yield _ => false
  | .fbar _ => false
  | .trap _ => false
  | .brkpt _ => false
  | .sadd _ => false
  | .ssub _ => false
  | .smul _ => false
  | .smulh _ => false
  | .smad _ => false
  | .sabs _ => false
  | .smin _ => false
  | .smax _ => false
  | .sand _ => false
  | .sor _ => false
  | .sxor _ => false
  | .snot _ => false
  | .sshl _ => false
  | .sshr _ => false
  | .ssra _ => false
  | .sbfe _ => false
  | .sbfi _ => false
  | .spopc _ => false
  | .sclz _ => false
  | .sctz _ => false
  | .scmp _ => false
  | .ssel _ => false
  | .smov _ => false
  | .smovi _ => false
  | .smovh _ => false
  | .sfromk _ => false
  | .sfromv _ => false
  | .stov _ => false
  | .vadd _ => false
  | .vsub _ => false
  | .vmul _ => false
  | .vmulh _ => false
  | .vmad _ => false
  | .vabs _ => false
  | .vneg _ => false
  | .vmin _ => false
  | .vmax _ => false
  | .vand _ => false
  | .vor _ => false
  | .vxor _ => false
  | .vnot _ => false
  | .vlop3 _ => false
  | .vshl _ => false
  | .vshr _ => false
  | .vsra _ => false
  | .vbfe _ => false
  | .vbfi _ => false
  | .vpopc _ => false
  | .vclz _ => false
  | .vbrev _ => false
  | .vperm _ => false
  | .vdot4 _ => false
  | .vsad _ => false
  | .vpack _ => false
  | .vunpack _ => false
  | .vcmp _ => false
  | .vsel _ => false
  | .vmov _ => false
  | .vmovi _ => false
  | .fadd _ => false
  | .fsub _ => false
  | .fmul _ => false
  | .fma _ => false
  | .fmin _ => false
  | .fmax _ => false
  | .fcmp _ => false
  | .fclass _ => false
  | .frcp _ => false
  | .frsq _ => false
  | .fsqrt _ => false
  | .fex2 _ => false
  | .flg2 _ => false
  | .fsin _ => false
  | .fcos _ => false
  | .ftanh _ => false
  | .frint _ => false
  | .fscale _ => false
  | .fsgn _ => false
  | .fcvt _ => false
  | .icvt _ => false
  | .shfl _ => false
  | .qswp _ => false
  | .qbc _ => false
  | .vote _ => false
  | .ballot _ => false
  | .vred _ => false
  | .vscan _ => false
  | .pand _ => false
  | .por _ => false
  | .pxor _ => false
  | .pnot _ => false
  | .pmov _ => false
  | .pcnt _ => false
  | .ld _ => false
  | .st _ => false
  | .lds _ => false
  | .sts _ => false
  | .ldt _ => false
  | .stt _ => false
  | .lrec _ => false
  | .prf _ => false
  | .cwb _ => false
  | .cinv _ => false
  | .seal _ => false
  | .unseal _ => false
  | .lkl _ => false
  | .ulk _ => false
  | .atom _ => false
  | .atomx _ => false
  | .red _ => false
  | .gdef _ => false
  | .gadd _ => false
  | .gld _ => false
  | .fence _ => false
  | .gdecl _ => false
  | .obres _ => false
  | .obrel _ => false
  | .obld _ => false
  | .obst _ => false
  | .mma _ => false
  | .aclr _ => false
  | .aget _ => false
  | .aput _ => false
  | .aout _ => false
  | .ackr _ => false
  | .qpush _ => false
  | .qpop _ => false
  | .qstat _ => false
  | .qbind _ => false
  | .cpy _ => false
  | .cpym _ => false
  | .cpyr _ => false
  | .coll _ => false
  | .cadd _ => false
  | .cwait _ => false
  | .cread _ => false
  | .cphase _ => false
  | .cbind _ => false
  | .cunbind _ => false
  | .cset _ => false
  | .launch _ => false
  | .lstat _ => false
  | .rdsr _ => false
  | .wrsr _ => false
  | .tret _ => false
  | .halt _ => false
  | .tlbi _ => false
  | .bankmode _ => false
  | .dmr _ => false
  | .scan _ => false
  | .pair _ => false
  | .clauseEntry _ => true
  | .longLatencyComplete _ _ _ => true
  | .cwaitComplete _ _ => true
  | .hostCwaitPoll _ _ => true
  | .slotPromotion _ => true
  | .slotExchange _ _ => true
  | .longResidenceSwap _ _ => true
  | .spillCmdGo _ _ => true
  | .workgroupPlacement _ => true
  | .energyMeterInterval _ => true
  | .powerClockStep _ _ => true
  | .sliceEnd _ => true
  | .preemptTimeout _ => true
  | .workgroupSave _ => true
  | .workgroupRestore _ _ => true
  | .trapTake _ => true
  | .faultBatchServed _ _ _ => true
  | .pageWalk _ _ _ => true
  | .pagePromotion _ _ _ => true
  | .watchdogExpiry _ => true
  | .heartbeatLoss _ => true
  | .scanPassComplete _ _ => true
  | .unscannedCoreScan _ => true
  | .scanReqWrite _ => true
  | .counterAddAddrWrite _ _ _ _ => true
  | .counterAddIncrement _ _ _ _ => true
  | .counterAddSetAndAdd _ _ _ _ => true
  | .dropsRead _ => true
  | .functionEnable _ _ => true
  | .dispatchDescWrite _ _ => true
  | .bankDrainComplete _ _ => true
  | .engineAccept _ => true
  | .engineDeadline _ => true
  | .copyChunkDone _ => true
  | .collectiveFoldDone _ _ => true
  | .mmaOperation _ _ => true
  | .gauzeDrainAck _ _ => true
  | .unitLoss _ => true
  | .recoveryFlushEnd _ => true
  | .lineMove _ => true
  | .patrolScrub _ => true
  | .dramRefresh _ _ => true
  | .rowRepairGo _ _ => true
  | .memRetireBank _ _ => true
  | .memRetirePseudoChannel _ _ => true
  | .memRetireChannel _ _ => true
  | .memRetireStack _ _ => true
  | .memRetireProvince _ _ => true
  | .memRetireStartPhase _ _ => true
  | .memRetireBadKind _ _ => true
  | .memRetireStatusRead _ _ => true
  | .memEventRead _ _ => true
  | .xlateOutRead _ _ => true
  | .killCauseRead _ _ => true
  | .engFaultRead _ _ => true
  | .faultInjectTile _ _ => true
  | .faultInjectChecksum _ _ => true
  | .faultInjectRegister _ _ => true
  | .faultInjectScanFail _ _ => true
  | .registerWrite _ _ _ => true
  | .twillPacketReceive _ _ => true
  | .twillCrcReplay _ _ => true
  | .twillPortLoss _ => true
  | .hostMemoryAccess _ => true
  | .roceWorkRequest _ => true
  | .powerOnReset _ => true
  | .firmwareImageLoad _ => true
  | .driverImageLoad _ _ _ => true
  | .imageUnload _ _ => true
  | .challenge _ => true
  | .akviaTelemetry _ => true
  | .nonInstructionEncoding _ => false
  | .hostSpillMove _ => true
  | .functionDisable _ => true
  | .priorityInheritanceUpdate => true
  | .energyWindowOpen => true
  | .scanRotation => true
  | .scanResultRead => true
  | .phaseStart => true
  | .rowRepairDone => true
  | .getVersion => true
  | .getCapabilities => true
  | .negotiateAlgorithms => true
  | .getCertificate => true
  | .getMeasurements => true

end Sys2Proof
end

