-- ==== Sys2Proof/Decode.lean ====
section
/-! DEFINITION. Decoding: clause headers (R59, R60, R64), instruction words (R61, R65 to R89), and, after them, the
encoder, written from the same tables. -/

namespace Sys2Proof

/-- The clause header (R59). -/
structure Hdr where
  cls  : BitVec 4
  cnt  : BitVec 4
  wtok : BitVec 8
  bpri : BitVec 8
  eph  : BitVec 16
  term : Bool
  rsv  : BitVec 23
  deriving DecidableEq, Repr

def Hdr.ofWord (w : W64) : Hdr :=
  { cls := w.extractLsb' 60 4, cnt := w.extractLsb' 56 4, wtok := w.extractLsb' 48 8, bpri := w.extractLsb' 40 8,
    eph := w.extractLsb' 24 16, term := w.getLsbD 23, rsv := w.extractLsb' 0 23 }

def Hdr.toWord (h : Hdr) : W64 :=
  h.cls ++ h.cnt ++ h.wtok ++ h.bpri ++ h.eph ++ BitVec.ofBool h.term ++ h.rsv

/-- The class that a CLS code selects (R60); 9 to 15 name none. -/
def Cls.ofCode (c : BitVec 4) : Option Cls :=
  match c.toNat with
  | 0 => some .ctl | 1 => some .sca | 2 => some .vec | 3 => some .pair | 4 => some .mem
  | 5 => some .mtx | 6 => some .eng | 7 => some .syn | 8 => some .sys | _ => none

def Cls.code : Cls → BitVec 4
  | .ctl => 0 | .sca => 1 | .vec => 2 | .pair => 3 | .mem => 4 | .mtx => 5 | .eng => 6 | .syn => 7 | .sys => 8

/-- Why an encoding is refused (R64, R89). An opcode that names no instruction is refused by the constructor
`nonInstructionEncoding`, whose meaning is the trap ILLEGAL_OPCODE. -/
inductive Reject where
  | illegalClass | illegalEncoding
  deriving DecidableEq, Repr

/-- The checks of R64 on a header. -/
def Hdr.check (h : Hdr) : Except Reject Cls :=
  match Cls.ofCode h.cls with
  | none => .error .illegalClass
  | some c => if h.rsv = 0 && h.eph.toNat < 2 ^ (h.cnt.toNat + 1) then .ok c else .error .illegalEncoding

/-- The class in which word `i` of a clause is decoded: its last word is a control word when TERM is 1 (R61). -/
def Hdr.wordCls (h : Hdr) (i : Nat) : Cls :=
  if h.term && i = h.cnt.toNat then .ctl else
  match Cls.ofCode h.cls with
  | some c => c
  | none => .ctl

/-- OP (R65). -/
def opOf (w : W64) : Nat := (w.extractLsb' 56 8).toNat

def Head.ofWord (w : W64) : Head :=
  { sos := w.getLsbD 55, gn := w.getLsbD 54, gp := w.extractLsb' 51 3, la := w.extractLsb' 47 4, tok := w.extractLsb' 44 3 }

def V3.ofWord (w : W64) : V3 :=
  { hd := Head.ofWord w, d := w.extractLsb' 38 6, a := w.extractLsb' 32 6, b := w.extractLsb' 26 6,
    c := w.extractLsb' 20 6, ty := w.extractLsb' 15 5, mode := w.extractLsb' 12 3, md := w.extractLsb' 8 4,
    z := w.getLsbD 7, bsel := w.extractLsb' 5 2, sub := w.extractLsb' 0 5 }

def VI.ofWord (w : W64) : VI :=
  { sos := w.getLsbD 55, gn := w.getLsbD 54, gp := w.extractLsb' 51 3, ty := w.extractLsb' 46 5,
    mode := w.extractLsb' 44 2, d := w.extractLsb' 38 6, a := w.extractLsb' 32 6, imm := w.extractLsb' 0 32 }

def FM.ofWord (w : W64) : FM :=
  { hd := Head.ofWord w, d := w.extractLsb' 38 6, a := w.extractLsb' 32 6, b := w.extractLsb' 26 6,
    ty := w.extractLsb' 21 5, scope := w.extractLsb' 18 3, str := w.getLsbD 17, space := w.extractLsb' 15 2,
    cnt := w.extractLsb' 13 2, abase := w.extractLsb' 11 2, off := w.extractLsb' 0 11 }

def FX.ofWord (w : W64) : FX :=
  { hd := Head.ofWord w, acc := w.extractLsb' 41 3, obh := w.extractLsb' 37 4, bv := w.extractLsb' 31 6,
    g := w.extractLsb' 28 3, tya := w.extractLsb' 23 5, tyb := w.extractLsb' 18 5, ck := w.getLsbD 17,
    clr := w.getLsbD 16, oboff := w.extractLsb' 0 16 }

def FC.ofWord (w : W64) : FC :=
  { hd := Head.ofWord w, a := w.extractLsb' 38 6, b := w.extractLsb' 32 6, tgt := w.extractLsb' 0 32 }

def FQ.ofWord (w : W64) : FQ :=
  { hd := Head.ofWord w, q := w.extractLsb' 40 4, a := w.extractLsb' 34 6, b := w.extractLsb' 28 6,
    c := w.extractLsb' 22 6, sub := w.extractLsb' 0 22 }

def FY.ofWord (w : W64) : FY :=
  { hd := Head.ofWord w, d := w.extractLsb' 38 6, a := w.extractLsb' 32 6, b := w.extractLsb' 26 6,
    num := w.extractLsb' 14 12, sub := w.extractLsb' 0 14 }

def FP.ofWord (w : W64) : FP :=
  { vop := w.extractLsb' 59 5, sop := w.extractLsb' 55 4, gn := w.getLsbD 54, gp := w.extractLsb' 51 3,
    vty := w.extractLsb' 48 3, vd := w.extractLsb' 42 6, va := w.extractLsb' 36 6, vb := w.extractLsb' 30 6,
    sd := w.extractLsb' 24 6, sa := w.extractLsb' 18 6, sb := w.extractLsb' 12 6, simm := w.extractLsb' 0 12 }

/-- The opcode map of each class (R85): OP 0x00 and every OP above the last name no instruction. -/
def decodeIn (c : Cls) (w : W64) : Instr :=
  match c with
  | .pair => if (FP.ofWord w).vop ≤ 16 && (FP.ofWord w).sop ≤ 12 then .pair (FP.ofWord w) else .nonInstructionEncoding w
  | .ctl =>
    match opOf w with
    | 1 => .nop (FC.ofWord w)
    | 2 => .bra (FC.ofWord w)
    | 3 => .brp (FC.ofWord w)
    | 4 => .brs (FC.ofWord w)
    | 5 => .brx (FC.ofWord w)
    | 6 => .call (FC.ofWord w)
    | 7 => .callx (FC.ofWord w)
    | 8 => .ret (FC.ofWord w)
    | 9 => .exit (FC.ofWord w)
    | 10 => .wait (FC.ofWord w)
    | 11 => .yield (FC.ofWord w)
    | 12 => .fbar (FC.ofWord w)
    | 13 => .trap (FC.ofWord w)
    | 14 => .brkpt (FC.ofWord w)
    | _ => .nonInstructionEncoding w
  | .sca =>
    match opOf w with
    | 1 => .sadd (V3.ofWord w)
    | 2 => .ssub (V3.ofWord w)
    | 3 => .smul (V3.ofWord w)
    | 4 => .smulh (V3.ofWord w)
    | 5 => .smad (V3.ofWord w)
    | 6 => .sabs (V3.ofWord w)
    | 7 => .smin (V3.ofWord w)
    | 8 => .smax (V3.ofWord w)
    | 9 => .sand (V3.ofWord w)
    | 10 => .sor (V3.ofWord w)
    | 11 => .sxor (V3.ofWord w)
    | 12 => .snot (V3.ofWord w)
    | 13 => .sshl (V3.ofWord w)
    | 14 => .sshr (V3.ofWord w)
    | 15 => .ssra (V3.ofWord w)
    | 16 => .sbfe (V3.ofWord w)
    | 17 => .sbfi (V3.ofWord w)
    | 18 => .spopc (V3.ofWord w)
    | 19 => .sclz (V3.ofWord w)
    | 20 => .sctz (V3.ofWord w)
    | 21 => .scmp (V3.ofWord w)
    | 22 => .ssel (V3.ofWord w)
    | 23 => .smov (V3.ofWord w)
    | 24 => .smovi (VI.ofWord w)
    | 25 => .smovh (VI.ofWord w)
    | 26 => .sfromk (V3.ofWord w)
    | 27 => .sfromv (V3.ofWord w)
    | 28 => .stov (V3.ofWord w)
    | _ => .nonInstructionEncoding w
  | .vec =>
    match opOf w with
    | 1 => .vadd (V3.ofWord w)
    | 2 => .vsub (V3.ofWord w)
    | 3 => .vmul (V3.ofWord w)
    | 4 => .vmulh (V3.ofWord w)
    | 5 => .vmad (V3.ofWord w)
    | 6 => .vabs (V3.ofWord w)
    | 7 => .vneg (V3.ofWord w)
    | 8 => .vmin (V3.ofWord w)
    | 9 => .vmax (V3.ofWord w)
    | 10 => .vand (V3.ofWord w)
    | 11 => .vor (V3.ofWord w)
    | 12 => .vxor (V3.ofWord w)
    | 13 => .vnot (V3.ofWord w)
    | 14 => .vlop3 (V3.ofWord w)
    | 15 => .vshl (V3.ofWord w)
    | 16 => .vshr (V3.ofWord w)
    | 17 => .vsra (V3.ofWord w)
    | 18 => .vbfe (V3.ofWord w)
    | 19 => .vbfi (V3.ofWord w)
    | 20 => .vpopc (V3.ofWord w)
    | 21 => .vclz (V3.ofWord w)
    | 22 => .vbrev (V3.ofWord w)
    | 23 => .vperm (V3.ofWord w)
    | 24 => .vdot4 (V3.ofWord w)
    | 25 => .vsad (V3.ofWord w)
    | 26 => .vpack (V3.ofWord w)
    | 27 => .vunpack (V3.ofWord w)
    | 28 => .vcmp (V3.ofWord w)
    | 29 => .vsel (V3.ofWord w)
    | 30 => .vmov (V3.ofWord w)
    | 31 => .vmovi (VI.ofWord w)
    | 32 => .fadd (V3.ofWord w)
    | 33 => .fsub (V3.ofWord w)
    | 34 => .fmul (V3.ofWord w)
    | 35 => .fma (V3.ofWord w)
    | 36 => .fmin (V3.ofWord w)
    | 37 => .fmax (V3.ofWord w)
    | 38 => .fcmp (V3.ofWord w)
    | 39 => .fclass (V3.ofWord w)
    | 40 => .frcp (V3.ofWord w)
    | 41 => .frsq (V3.ofWord w)
    | 42 => .fsqrt (V3.ofWord w)
    | 43 => .fex2 (V3.ofWord w)
    | 44 => .flg2 (V3.ofWord w)
    | 45 => .fsin (V3.ofWord w)
    | 46 => .fcos (V3.ofWord w)
    | 47 => .ftanh (V3.ofWord w)
    | 48 => .frint (V3.ofWord w)
    | 49 => .fscale (V3.ofWord w)
    | 50 => .fsgn (V3.ofWord w)
    | 51 => .fcvt (V3.ofWord w)
    | 52 => .icvt (V3.ofWord w)
    | 53 => .shfl (V3.ofWord w)
    | 54 => .qswp (V3.ofWord w)
    | 55 => .qbc (V3.ofWord w)
    | 56 => .vote (V3.ofWord w)
    | 57 => .ballot (V3.ofWord w)
    | 58 => .vred (V3.ofWord w)
    | 59 => .vscan (V3.ofWord w)
    | 60 => .pand (V3.ofWord w)
    | 61 => .por (V3.ofWord w)
    | 62 => .pxor (V3.ofWord w)
    | 63 => .pnot (V3.ofWord w)
    | 64 => .pmov (V3.ofWord w)
    | 65 => .pcnt (V3.ofWord w)
    | _ => .nonInstructionEncoding w
  | .mem =>
    match opOf w with
    | 1 => .ld (FM.ofWord w)
    | 2 => .st (FM.ofWord w)
    | 3 => .lds (FM.ofWord w)
    | 4 => .sts (FM.ofWord w)
    | 5 => .ldt (FM.ofWord w)
    | 6 => .stt (FM.ofWord w)
    | 7 => .lrec (FM.ofWord w)
    | 8 => .prf (FM.ofWord w)
    | 9 => .cwb (FM.ofWord w)
    | 10 => .cinv (FM.ofWord w)
    | 11 => .seal (FM.ofWord w)
    | 12 => .unseal (FM.ofWord w)
    | 13 => .lkl (FM.ofWord w)
    | 14 => .ulk (FM.ofWord w)
    | 15 => .atom (FM.ofWord w)
    | 16 => .atomx (FM.ofWord w)
    | 17 => .red (FM.ofWord w)
    | 18 => .gdef (FM.ofWord w)
    | 19 => .gadd (FM.ofWord w)
    | 20 => .gld (FM.ofWord w)
    | 21 => .fence (FM.ofWord w)
    | _ => .nonInstructionEncoding w
  | .mtx =>
    match opOf w with
    | 1 => .gdecl (FY.ofWord w)
    | 2 => .obres (FY.ofWord w)
    | 3 => .obrel (FY.ofWord w)
    | 4 => .obld (FM.ofWord w)
    | 5 => .obst (FM.ofWord w)
    | 6 => .mma (FX.ofWord w)
    | 7 => .aclr (FX.ofWord w)
    | 8 => .aget (FX.ofWord w)
    | 9 => .aput (FX.ofWord w)
    | 10 => .aout (FX.ofWord w)
    | 11 => .ackr (FX.ofWord w)
    | _ => .nonInstructionEncoding w
  | .eng =>
    match opOf w with
    | 1 => .qpush (FQ.ofWord w)
    | 2 => .qpop (FQ.ofWord w)
    | 3 => .qstat (FQ.ofWord w)
    | 4 => .qbind (FQ.ofWord w)
    | 5 => .cpy (FQ.ofWord w)
    | 6 => .cpym (FQ.ofWord w)
    | 7 => .cpyr (FQ.ofWord w)
    | 8 => .coll (FQ.ofWord w)
    | _ => .nonInstructionEncoding w
  | .syn =>
    match opOf w with
    | 1 => .cadd (FY.ofWord w)
    | 2 => .cwait (FY.ofWord w)
    | 3 => .cread (FY.ofWord w)
    | 4 => .cphase (FY.ofWord w)
    | 5 => .cbind (FY.ofWord w)
    | 6 => .cunbind (FY.ofWord w)
    | 7 => .cset (FY.ofWord w)
    | _ => .nonInstructionEncoding w
  | .sys =>
    match opOf w with
    | 1 => .launch (FY.ofWord w)
    | 2 => .lstat (FY.ofWord w)
    | 3 => .rdsr (FY.ofWord w)
    | 4 => .wrsr (FY.ofWord w)
    | 5 => .tret (FC.ofWord w)
    | 6 => .halt (FY.ofWord w)
    | 7 => .tlbi (FY.ofWord w)
    | 8 => .bankmode (FY.ofWord w)
    | 9 => .dmr (FY.ofWord w)
    | 10 => .scan (FY.ofWord w)
    | _ => .nonInstructionEncoding w

/-- Decode a word of class `c` for the fibre that `k` describes: steps 6 and 7 of R87. -/
def decode (k : DecCtx) (c : Cls) (w : W64) : Except Reject Instr :=
  if (decodeIn c w).wellFormed k then .ok (decodeIn c w) else .error .illegalEncoding

/-- Little-endian bytes to a number (R8). -/
def leNat : List Byte → Nat
  | [] => 0
  | b :: t => b.toNat + 256 * leNat t

/-- The n little-endian bytes of a number (R8). -/
def leBytes : Nat → Nat → List Byte
  | 0, _ => []
  | n + 1, v => BitVec.ofNat 8 v :: leBytes n (v / 256)

/-- The instruction of a one-word clause given as bytes: its header, then its word (R58). -/
def decodeBytes (bytes : List Byte) : Option Instr :=
  let h := Hdr.ofWord (BitVec.ofNat 64 (leNat (bytes.take 8)))
  match h.check with
  | .error _ => none
  | .ok _ =>
    match decode { shared := 0, fibres := 1, fibre := 0, eph := h.eph.getLsbD 0 } (h.wordCls 0)
        (BitVec.ofNat 64 (leNat ((bytes.drop 8).take 8))) with
    | .ok i => some i
    | .error _ => none

/-- The instruction read from a clause whose first word, the header, is bits 63..0 of w and whose instruction word is
bits 127..64 (log entry 1). -/
def decodeTableWord (nbits w : Nat) : Option Instr := decodeBytes (leBytes 16 (w % 2 ^ nbits))

/-! The encoder. -/

def Head.toWord (h : Head) : BitVec 12 := BitVec.ofBool h.sos ++ BitVec.ofBool h.gn ++ h.gp ++ h.la ++ h.tok

def V3.toWord (op : BitVec 8) (f : V3) : W64 :=
  op ++ f.hd.toWord ++ f.d ++ f.a ++ f.b ++ f.c ++ f.ty ++ f.mode ++ f.md ++ BitVec.ofBool f.z ++ f.bsel ++ f.sub

def VI.toWord (op : BitVec 8) (f : VI) : W64 :=
  op ++ BitVec.ofBool f.sos ++ BitVec.ofBool f.gn ++ f.gp ++ f.ty ++ f.mode ++ f.d ++ f.a ++ f.imm

def FM.toWord (op : BitVec 8) (f : FM) : W64 :=
  op ++ f.hd.toWord ++ f.d ++ f.a ++ f.b ++ f.ty ++ f.scope ++ BitVec.ofBool f.str ++ f.space ++ f.cnt ++ f.abase ++ f.off

def FX.toWord (op : BitVec 8) (f : FX) : W64 :=
  op ++ f.hd.toWord ++ f.acc ++ f.obh ++ f.bv ++ f.g ++ f.tya ++ f.tyb ++ BitVec.ofBool f.ck ++ BitVec.ofBool f.clr ++ f.oboff

def FC.toWord (op : BitVec 8) (f : FC) : W64 := op ++ f.hd.toWord ++ f.a ++ f.b ++ f.tgt

def FQ.toWord (op : BitVec 8) (f : FQ) : W64 := op ++ f.hd.toWord ++ f.q ++ f.a ++ f.b ++ f.c ++ f.sub

def FY.toWord (op : BitVec 8) (f : FY) : W64 := op ++ f.hd.toWord ++ f.d ++ f.a ++ f.b ++ f.num ++ f.sub

def FP.toWord (f : FP) : W64 :=
  f.vop ++ f.sop ++ BitVec.ofBool f.gn ++ f.gp ++ f.vty ++ f.vd ++ f.va ++ f.vb ++ f.sd ++ f.sa ++ f.sb ++ f.simm

/-- The class and word of an instruction (R85); an event has none. -/
def encode : Instr → Option (Cls × W64)
  | .nop f => some (.ctl, f.toWord 1)
  | .bra f => some (.ctl, f.toWord 2)
  | .brp f => some (.ctl, f.toWord 3)
  | .brs f => some (.ctl, f.toWord 4)
  | .brx f => some (.ctl, f.toWord 5)
  | .call f => some (.ctl, f.toWord 6)
  | .callx f => some (.ctl, f.toWord 7)
  | .ret f => some (.ctl, f.toWord 8)
  | .exit f => some (.ctl, f.toWord 9)
  | .wait f => some (.ctl, f.toWord 10)
  | .yield f => some (.ctl, f.toWord 11)
  | .fbar f => some (.ctl, f.toWord 12)
  | .trap f => some (.ctl, f.toWord 13)
  | .brkpt f => some (.ctl, f.toWord 14)
  | .sadd f => some (.sca, f.toWord 1)
  | .ssub f => some (.sca, f.toWord 2)
  | .smul f => some (.sca, f.toWord 3)
  | .smulh f => some (.sca, f.toWord 4)
  | .smad f => some (.sca, f.toWord 5)
  | .sabs f => some (.sca, f.toWord 6)
  | .smin f => some (.sca, f.toWord 7)
  | .smax f => some (.sca, f.toWord 8)
  | .sand f => some (.sca, f.toWord 9)
  | .sor f => some (.sca, f.toWord 10)
  | .sxor f => some (.sca, f.toWord 11)
  | .snot f => some (.sca, f.toWord 12)
  | .sshl f => some (.sca, f.toWord 13)
  | .sshr f => some (.sca, f.toWord 14)
  | .ssra f => some (.sca, f.toWord 15)
  | .sbfe f => some (.sca, f.toWord 16)
  | .sbfi f => some (.sca, f.toWord 17)
  | .spopc f => some (.sca, f.toWord 18)
  | .sclz f => some (.sca, f.toWord 19)
  | .sctz f => some (.sca, f.toWord 20)
  | .scmp f => some (.sca, f.toWord 21)
  | .ssel f => some (.sca, f.toWord 22)
  | .smov f => some (.sca, f.toWord 23)
  | .smovi f => some (.sca, f.toWord 24)
  | .smovh f => some (.sca, f.toWord 25)
  | .sfromk f => some (.sca, f.toWord 26)
  | .sfromv f => some (.sca, f.toWord 27)
  | .stov f => some (.sca, f.toWord 28)
  | .vadd f => some (.vec, f.toWord 1)
  | .vsub f => some (.vec, f.toWord 2)
  | .vmul f => some (.vec, f.toWord 3)
  | .vmulh f => some (.vec, f.toWord 4)
  | .vmad f => some (.vec, f.toWord 5)
  | .vabs f => some (.vec, f.toWord 6)
  | .vneg f => some (.vec, f.toWord 7)
  | .vmin f => some (.vec, f.toWord 8)
  | .vmax f => some (.vec, f.toWord 9)
  | .vand f => some (.vec, f.toWord 10)
  | .vor f => some (.vec, f.toWord 11)
  | .vxor f => some (.vec, f.toWord 12)
  | .vnot f => some (.vec, f.toWord 13)
  | .vlop3 f => some (.vec, f.toWord 14)
  | .vshl f => some (.vec, f.toWord 15)
  | .vshr f => some (.vec, f.toWord 16)
  | .vsra f => some (.vec, f.toWord 17)
  | .vbfe f => some (.vec, f.toWord 18)
  | .vbfi f => some (.vec, f.toWord 19)
  | .vpopc f => some (.vec, f.toWord 20)
  | .vclz f => some (.vec, f.toWord 21)
  | .vbrev f => some (.vec, f.toWord 22)
  | .vperm f => some (.vec, f.toWord 23)
  | .vdot4 f => some (.vec, f.toWord 24)
  | .vsad f => some (.vec, f.toWord 25)
  | .vpack f => some (.vec, f.toWord 26)
  | .vunpack f => some (.vec, f.toWord 27)
  | .vcmp f => some (.vec, f.toWord 28)
  | .vsel f => some (.vec, f.toWord 29)
  | .vmov f => some (.vec, f.toWord 30)
  | .vmovi f => some (.vec, f.toWord 31)
  | .fadd f => some (.vec, f.toWord 32)
  | .fsub f => some (.vec, f.toWord 33)
  | .fmul f => some (.vec, f.toWord 34)
  | .fma f => some (.vec, f.toWord 35)
  | .fmin f => some (.vec, f.toWord 36)
  | .fmax f => some (.vec, f.toWord 37)
  | .fcmp f => some (.vec, f.toWord 38)
  | .fclass f => some (.vec, f.toWord 39)
  | .frcp f => some (.vec, f.toWord 40)
  | .frsq f => some (.vec, f.toWord 41)
  | .fsqrt f => some (.vec, f.toWord 42)
  | .fex2 f => some (.vec, f.toWord 43)
  | .flg2 f => some (.vec, f.toWord 44)
  | .fsin f => some (.vec, f.toWord 45)
  | .fcos f => some (.vec, f.toWord 46)
  | .ftanh f => some (.vec, f.toWord 47)
  | .frint f => some (.vec, f.toWord 48)
  | .fscale f => some (.vec, f.toWord 49)
  | .fsgn f => some (.vec, f.toWord 50)
  | .fcvt f => some (.vec, f.toWord 51)
  | .icvt f => some (.vec, f.toWord 52)
  | .shfl f => some (.vec, f.toWord 53)
  | .qswp f => some (.vec, f.toWord 54)
  | .qbc f => some (.vec, f.toWord 55)
  | .vote f => some (.vec, f.toWord 56)
  | .ballot f => some (.vec, f.toWord 57)
  | .vred f => some (.vec, f.toWord 58)
  | .vscan f => some (.vec, f.toWord 59)
  | .pand f => some (.vec, f.toWord 60)
  | .por f => some (.vec, f.toWord 61)
  | .pxor f => some (.vec, f.toWord 62)
  | .pnot f => some (.vec, f.toWord 63)
  | .pmov f => some (.vec, f.toWord 64)
  | .pcnt f => some (.vec, f.toWord 65)
  | .ld f => some (.mem, f.toWord 1)
  | .st f => some (.mem, f.toWord 2)
  | .lds f => some (.mem, f.toWord 3)
  | .sts f => some (.mem, f.toWord 4)
  | .ldt f => some (.mem, f.toWord 5)
  | .stt f => some (.mem, f.toWord 6)
  | .lrec f => some (.mem, f.toWord 7)
  | .prf f => some (.mem, f.toWord 8)
  | .cwb f => some (.mem, f.toWord 9)
  | .cinv f => some (.mem, f.toWord 10)
  | .seal f => some (.mem, f.toWord 11)
  | .unseal f => some (.mem, f.toWord 12)
  | .lkl f => some (.mem, f.toWord 13)
  | .ulk f => some (.mem, f.toWord 14)
  | .atom f => some (.mem, f.toWord 15)
  | .atomx f => some (.mem, f.toWord 16)
  | .red f => some (.mem, f.toWord 17)
  | .gdef f => some (.mem, f.toWord 18)
  | .gadd f => some (.mem, f.toWord 19)
  | .gld f => some (.mem, f.toWord 20)
  | .fence f => some (.mem, f.toWord 21)
  | .gdecl f => some (.mtx, f.toWord 1)
  | .obres f => some (.mtx, f.toWord 2)
  | .obrel f => some (.mtx, f.toWord 3)
  | .obld f => some (.mtx, f.toWord 4)
  | .obst f => some (.mtx, f.toWord 5)
  | .mma f => some (.mtx, f.toWord 6)
  | .aclr f => some (.mtx, f.toWord 7)
  | .aget f => some (.mtx, f.toWord 8)
  | .aput f => some (.mtx, f.toWord 9)
  | .aout f => some (.mtx, f.toWord 10)
  | .ackr f => some (.mtx, f.toWord 11)
  | .qpush f => some (.eng, f.toWord 1)
  | .qpop f => some (.eng, f.toWord 2)
  | .qstat f => some (.eng, f.toWord 3)
  | .qbind f => some (.eng, f.toWord 4)
  | .cpy f => some (.eng, f.toWord 5)
  | .cpym f => some (.eng, f.toWord 6)
  | .cpyr f => some (.eng, f.toWord 7)
  | .coll f => some (.eng, f.toWord 8)
  | .cadd f => some (.syn, f.toWord 1)
  | .cwait f => some (.syn, f.toWord 2)
  | .cread f => some (.syn, f.toWord 3)
  | .cphase f => some (.syn, f.toWord 4)
  | .cbind f => some (.syn, f.toWord 5)
  | .cunbind f => some (.syn, f.toWord 6)
  | .cset f => some (.syn, f.toWord 7)
  | .launch f => some (.sys, f.toWord 1)
  | .lstat f => some (.sys, f.toWord 2)
  | .rdsr f => some (.sys, f.toWord 3)
  | .wrsr f => some (.sys, f.toWord 4)
  | .tret f => some (.sys, f.toWord 5)
  | .halt f => some (.sys, f.toWord 6)
  | .tlbi f => some (.sys, f.toWord 7)
  | .bankmode f => some (.sys, f.toWord 8)
  | .dmr f => some (.sys, f.toWord 9)
  | .scan f => some (.sys, f.toWord 10)
  | .pair f => some (.pair, f.toWord)
  | .clauseEntry _ => none
  | .longLatencyComplete _ _ _ => none
  | .cwaitComplete _ _ => none
  | .hostCwaitPoll _ _ => none
  | .slotPromotion _ => none
  | .slotExchange _ _ => none
  | .longResidenceSwap _ _ => none
  | .spillCmdGo _ _ => none
  | .workgroupPlacement _ => none
  | .energyMeterInterval _ => none
  | .powerClockStep _ _ => none
  | .sliceEnd _ => none
  | .preemptTimeout _ => none
  | .workgroupSave _ => none
  | .workgroupRestore _ _ => none
  | .trapTake _ => none
  | .faultBatchServed _ _ _ => none
  | .pageWalk _ _ _ => none
  | .pagePromotion _ _ _ => none
  | .watchdogExpiry _ => none
  | .heartbeatLoss _ => none
  | .scanPassComplete _ _ => none
  | .unscannedCoreScan _ => none
  | .scanReqWrite _ => none
  | .counterAddAddrWrite _ _ _ _ => none
  | .counterAddIncrement _ _ _ _ => none
  | .counterAddSetAndAdd _ _ _ _ => none
  | .dropsRead _ => none
  | .functionEnable _ _ => none
  | .dispatchDescWrite _ _ => none
  | .bankDrainComplete _ _ => none
  | .engineAccept _ => none
  | .engineDeadline _ => none
  | .copyChunkDone _ => none
  | .collectiveFoldDone _ _ => none
  | .mmaOperation _ _ => none
  | .gauzeDrainAck _ _ => none
  | .unitLoss _ => none
  | .recoveryFlushEnd _ => none
  | .lineMove _ => none
  | .patrolScrub _ => none
  | .dramRefresh _ _ => none
  | .rowRepairGo _ _ => none
  | .memRetireBank _ _ => none
  | .memRetirePseudoChannel _ _ => none
  | .memRetireChannel _ _ => none
  | .memRetireStack _ _ => none
  | .memRetireProvince _ _ => none
  | .memRetireStartPhase _ _ => none
  | .memRetireBadKind _ _ => none
  | .memRetireStatusRead _ _ => none
  | .memEventRead _ _ => none
  | .xlateOutRead _ _ => none
  | .killCauseRead _ _ => none
  | .engFaultRead _ _ => none
  | .faultInjectTile _ _ => none
  | .faultInjectChecksum _ _ => none
  | .faultInjectRegister _ _ => none
  | .faultInjectScanFail _ _ => none
  | .registerWrite _ _ _ => none
  | .twillPacketReceive _ _ => none
  | .twillCrcReplay _ _ => none
  | .twillPortLoss _ => none
  | .hostMemoryAccess _ => none
  | .roceWorkRequest _ => none
  | .powerOnReset _ => none
  | .firmwareImageLoad _ => none
  | .driverImageLoad _ _ _ => none
  | .imageUnload _ _ => none
  | .challenge _ => none
  | .akviaTelemetry _ => none
  | .nonInstructionEncoding _ => none
  | .hostSpillMove _ => none
  | .functionDisable _ => none
  | .priorityInheritanceUpdate => none
  | .energyWindowOpen => none
  | .scanRotation => none
  | .scanResultRead => none
  | .phaseStart => none
  | .rowRepairDone => none
  | .getVersion => none
  | .getCapabilities => none
  | .negotiateAlgorithms => none
  | .getCertificate => none
  | .getMeasurements => none

end Sys2Proof
end

