-- ==== Sys2Proof/Machine/State.lean ====
section
/-! DEFINITION. Everything the specification gives the Oluhorn Z3 to hold, as plain data, and the state after a package
power-on reset. A field marked MODEL is the model's own (log entries 3, 5, 6); every other field names the rule that
gives it. INVENTORY.md lists them with their widths and reset values. -/

namespace Sys2Proof.Machine

/-- The causes of a trap (R424). -/
inductive Cause where
  | illegalClass | illegalOpcode | illegalEncoding | privilege | misaligned | pageFault | walkNode | protection
  | sealedWrite | poison | spill | fill | dmrMismatch | contained | unitAbsent | breakpoint | userTrap | watchdog
  deriving DecidableEq, Repr

/-- Why the machine stops. Nothing in the specification stops it: every illegal word is a trap, and every event of the
table has an effect. The type is closed and has no constructor. -/
inductive Fault where
  deriving DecidableEq, Repr

/-- Why an instruction has no meaning. `notModelled` is the arm of an instruction without a meaning, raised by `exec`; it is
safe, since the machine stops. -/
inductive Refusal where
  | notModelled (mnemonic : String)
  deriving DecidableEq, Repr

/-- The three levels (R31). -/
inductive Priv where
  | user | supervisor | device
  deriving DecidableEq, Repr

/-- What a frontier entry waits at (R151): nothing, a clause header's WTOK wait, a `wait` on tokens, a `wait all`, or
an `fbar`. -/
inductive Wait where
  | none | wtok (m : BitVec 8) | tok (m : BitVec 8) | all | fbar (id : Nat)
  deriving DecidableEq, Repr

/-- A frontier entry (R158). `inside` says that PC is a word of the clause at HDR, whose header word is `hw`; otherwise PC
is the address of a header that is not yet entered. -/
structure Entry where
  pc     : W64
  hdr    : W64
  hw     : W64
  inside : Bool
  bpri   : BitVec 8
  fp     : Nat
  mask   : LaneMask
  wait   : Wait
  deriving DecidableEq, Repr

/-- A register result: an entry of the slot's register stack in one lane, a scalar, or a layout record. -/
inductive RegWrite where
  | stk (entry lane : Nat) (v : W32) | sreg (n : Nat) (v : W64) | lrec (n : Nat) (v : BitVec 256)
  deriving DecidableEq, Repr

/-- What a pending `cwait` compares (R363). -/
structure CWait where
  addr    : W64
  scratch : Bool
  scope   : Nat
  target  : W64
  ret     : Option Nat
  deriving DecidableEq, Repr

/-- The kind of a pending long-latency word, for `fence` (R292; `full` where it holds loads too) and for its completion (R67, R144, R288, R335, R373, R398, R442). -/
inductive PKind where
  | load | store | other | unseal (va : Nat) | push (cmd : Nat) | cwait (c : CWait) | mma (wg g op : Nat) | drain (cluster : Nat) (lines : List Nat)
  | bank (cluster : Nat) | scan (core : Nat) | fence (full : Bool)
  deriving DecidableEq, Repr

/-- An issued long-latency word that has not completed (R67, R162, R163). `la` counts the words that may still issue
under an implicit wait; `tok` is the token it holds; `ready` says that nothing but time stands before its completion;
`poison` is the lane and address whose returning data is poisoned (R277); `obOld` what the sectors of the operand buffer that it
writes held before (R341). -/
structure Pending where
  la     : Option Nat
  tok    : Option Nat
  kind   : PKind
  wr     : List RegWrite
  ready  : Bool
  poison : Option (Nat × W64)
  obOld  : List (Nat × List Byte)
  pc     : W64
  deriving DecidableEq, Repr

/-- An open ephemeral window (R63): the clause that it lies in, how many words it still covers, and what the registers held before: v, s
and l registers in `old`, predicates in `pold` with the lanes written. `lo` is LO at the write, by which a stack entry of `old` names a
logical one (R164). -/
structure EphWin where
  hdr  : W64
  left : Nat
  lo   : Nat
  old  : List RegWrite
  pold : List (Nat × LaneMask × LaneMask)
  deriving DecidableEq, Repr

/-- A trap that a fibre is to take (R424, R426). `keep` says that the entry resumes inside its clause. -/
structure TrapInfo where
  cause  : Cause
  lane   : Nat
  addr   : W64
  code   : BitVec 16
  pc     : W64
  resume : W64
  deriving DecidableEq, Repr

/-- A fibre frozen by a page fault (R430, R431): the pages of its batch, the first being the faulting word's own. -/
structure Freeze where
  pages : List Nat
  cause : Cause
  lane  : Nat
  addr  : W64
  write : Bool
  deriving DecidableEq, Repr

/-- The life of a fibre (R20). -/
inductive Life where
  | notStarted | running | ended
  deriving DecidableEq, Repr

/-- The trap frame (R426) and what is set aside at entry (R427). -/
structure Frame where
  cause   : BitVec 5
  inh     : Bool
  lane    : BitVec 5
  code    : BitVec 16
  pc      : W64
  resume  : W64
  addr    : W64
  mask    : LaneMask
  fp      : Nat
  bpri    : BitVec 8
  save    : Tab W64
  entryResume : W64
  entry   : Option Entry
  aside   : List Entry
  pend    : List Pending
  deriving DecidableEq, Repr

/-- One fibre (R13, R23). -/
structure Fibre where
  life     : Life
  priv     : Priv
  launched : LaneMask
  helper   : LaneMask
  exited   : LaneMask
  sregs    : Tab W64
  pregs    : Tab LaneMask
  lregs    : Tab (BitVec 256)
  frontier : List Entry
  lo       : Nat
  saved    : Bool
  move     : Nat
  moveFp   : Nat
  pend     : List Pending
  eph      : List EphWin
  trap     : Frame
  raised   : Option TrapInfo
  frozen   : Option Freeze
  shadow   : Bool
  sBad     : Tab Bool
  pBad     : Tab Bool
  scrPasses   : W64
  scrRequests : W64
  pfIssued    : W64
  pfUsed      : W64
  pfLate      : W64
  pfEvicted   : W64
  xlateIn  : W64
  bound    : List (Bool × Nat)
  group    : Nat
  wdFrom   : Nat
  effPrio  : Nat
  deriving DecidableEq, Repr

/-- A pending `fbar` barrier (R179): its mask and the fibres that have arrived. -/
structure Bar where
  mask    : BitVec 4
  arrived : BitVec 4
  deriving DecidableEq, Repr

/-- The writes of one shared-window entry that no common `fbar` has ordered yet (MODEL; R25, log entry 45): the values that a fibre
may read which sees none of them, and each write that none of the others follows, with the mask of the fibres that see it. -/
structure Race where
  olds : List W32
  ws   : List (W32 × Nat)
  deriving DecidableEq, Repr

/-- One slot: its register stack of 256 entries by 32 lanes (key 32 × entry + lane, R24), its barriers and its place in
the quarter (R151 to R155). `fired` says that it has issued in the present cycle; `waited` counts the cycles that it has been pending. -/
structure Slot where
  stack     : Tab W32
  stackBad  : Tab Bool
  bars      : Tab Bar
  quarter   : Nat
  pslot     : Nat
  turn      : Nat
  active    : Bool
  promoted  : Bool
  fired     : Bool
  idle      : Nat
  age       : Nat
  stalled   : Nat
  waited    : Nat
  residence : Nat
  delay     : Nat
  stopped   : Bool
  spillIdx  : Nat
  /-- The first entry that several fibres share, 256 where none is (MODEL). -/
  window    : Nat
  /-- Unordered writes of shared entries (MODEL; key as `stack`). -/
  races     : Tab Race
  deriving DecidableEq, Repr

/-- An operand-buffer reservation record (R336). -/
structure ORec where
  off   : Nat
  size  : Nat
  ty    : Nat
  l32   : Bool
  trans : Bool
  rowb  : Nat
  scale : Nat
  mExt  : Nat
  kExt  : Nat
  nExt  : Nat
  deriving DecidableEq, Repr

/-- A signature on a convergence register (R334): the signing quarter and fibre, the operation it belongs to, the fields
and the captured B run (key 32 × register + lane) and record. -/
structure Sig where
  op    : Nat
  quarter : Nat
  fib   : Nat
  acc   : Nat
  tya   : Nat
  tyb   : Nat
  ck    : Bool
  clr   : Bool
  oboff : Nat
  orec  : ORec
  b     : Tab W32
  deriving DecidableEq, Repr

/-- A convergence register (R333, R334): the gang that it is bound to, if any, how many signatures each quarter has given
since then, the number of its first operation, and the signatures whose operation has not issued. -/
structure GReg where
  gang  : Option Nat
  signs : Tab Nat
  base  : Nat
  sigs  : List Sig
  deriving DecidableEq, Repr

/-- An issued matrix operation (R334, R341): its convergence register, its number, its four signatures, and the sectors of the operand
buffer that it reads as they were before a write that was in flight when it issued. -/
structure MmaOp where
  g    : Nat
  op   : Nat
  sigs : List Sig
  old  : List (Nat × List Byte)
  deriving DecidableEq, Repr

/-- Where a workgroup stands (R432 to R436). -/
inductive WgLife where
  | running | stopping (full : Bool) | saved | ended | killed
  deriving DecidableEq, Repr

/-- The fields of a kernel descriptor (R44, R45). -/
structure KDesc where
  code   : W64
  trapvec : W64
  spill  : W64
  spillStride : Nat
  codeSize : Nat
  scratch : Nat
  ob     : Nat
  childReserve : Nat
  energy : Nat
  argsSize : Nat
  stack  : Nat
  slots  : Nat
  fibres : Nat
  shared : Nat
  prio   : Nat
  flags  : BitVec 16
  version : Nat
  template : Nat
  rsvZero : Bool
  deriving DecidableEq, Repr

/-- One workgroup (R13, R23) with its windows, handles, tiles (key (quarter × 8 + tile) × 1024 + 32 × row + column) and
checksum vectors (key ((quarter × 8 + tile) × 2 + column vector) × 32 + index). -/
structure Wg where
  life    : WgLife
  vd      : Nat
  grid    : Nat
  index   : Nat
  core    : Nat
  kd      : KDesc
  threads : Nat
  kregs   : Tab W64
  scratch : Tab Byte
  scratchBad : Tab Bool
  ob      : Tab Byte
  obBad   : Tab Bool
  orecs   : Tab ORec
  gregs   : Tab GReg
  issued  : List MmaOp
  tiles   : Tab W32
  chks    : Tab W32
  tileBad : Tab Bool
  chkBad  : Tab Bool
  readout : Tab (List (Tab W32))
  qbind   : Tab Nat
  locks   : Tab Bool
  obConf  : W64
  engFault : W64
  started : Nat
  charge  : Nat
  measured : Nat
  banks   : Tab Nat
  again   : Bool
  deriving DecidableEq, Repr

/-- The states of a grid (R135, R450). -/
inductive GridState where
  | admitted | running | provisional | confirmed | killed
  deriving DecidableEq, Repr

/-- One admitted grid (R48, R126 to R135). `cores` lists a core, a workgroup that ran on it and how it stands with the pass that
confirms it: 0 the workgroup has not ended, 1 it has, 2 a pass that started since then is under way (R440). `since` lists the
cores and workgroups that ran there since the core's last pass, `replay` the workgroups that run again and whether they had
ended before (R441). -/
structure Grid where
  st      : GridState
  disp    : Bool
  desc    : Nat
  kd      : KDesc
  args    : List Byte
  gx      : Nat
  gy      : Nat
  gz      : Nat
  threads : Nat
  prov    : W64
  conf    : W64
  parent  : Option Nat
  reserve : Nat
  held    : Nat
  queue   : Nat
  qclass  : Nat
  urgent  : Bool
  budget  : Nat
  edef    : Nat
  resvTwill : Nat
  resvMem : Nat
  next    : Nat
  replay  : List (Nat × Bool)
  done    : Nat
  provAdded : Bool
  confAdded : Bool
  cores   : List (Nat × Nat × Nat)
  since   : List (Nat × Nat)
  deriving DecidableEq, Repr

/-- A sealed buffer of the context, by virtual address (R260, R287, R288). `ending` is set while `unseal` waits, for the engine commands
`readers` that were reading the buffer when it issued. -/
structure Seal where
  va     : Nat
  len    : Nat
  ending : Bool
  readers : List Nat
  deriving DecidableEq, Repr

/-- A Gauze region of the context (R399): base, length, element type code and budget. -/
structure Region where
  va     : Nat
  len    : Nat
  ty     : Nat
  budget : W32
  deriving DecidableEq, Repr

/-- A loaded image (R56, R57): its descriptors, its TEXT sections as address and length, the pages it placed, and the frames that it
took, those of page-table nodes with them. -/
structure Image where
  id    : Nat
  descs : List Nat
  texts : List (Nat × Nat)
  spans : List (Nat × Nat)
  frames : List Nat
  deriving DecidableEq, Repr

/-- A queue's energy window (R142): the budget that the host has set for it (R147), what its workgroups have been charged, the debt
that the window's budget is less by, the debt that has come since, whether anything has started in it, and the energy measured. -/
structure QEnergy where
  fresh   : Option Nat
  used    : Nat
  owed    : Nat
  debt    : Nat
  started : Bool
  meas    : Nat
  deriving DecidableEq, Repr

/-- One virtual device: its registers, its settings by firmware, its grids and its function (R31, R121 to R147, R428, R436). -/
structure Vd where
  enabled   : Bool
  cfg       : FunctionCfg
  queueBase : W64
  dispatchDesc : W64
  dispatchArgs : W64
  funcMode  : W64
  energyReport : W64
  fallbackRing : W64
  fallbackCtr  : W64
  heapBase  : W64
  heapLimit : W64
  heapOffset : W64
  ptRoot    : W64
  promote   : W64
  occClu    : W64
  occL2     : W64
  engDeadline : W64
  watchdog  : W64
  killCause : W64
  energyCtx : W64
  atomReplays : W64
  slots     : Tab W64
  drops     : W64
  quotaUsed : Nat
  nextGrid  : Nat
  energy    : Tab QEnergy
  window    : Nat
  seals     : List Seal
  regions   : List Region
  binds     : Nat
  images    : List Image
  keys      : List (List Byte)
  msix      : BitVec 5
  pri       : Nat
  fbPosted  : Nat
  fbDone    : Nat
  contained : Bool
  deriving DecidableEq, Repr

/-- A core: fenced off, in a scan pass, marked to fail its next pass (R440 to R444), and its slice with the clock at its start (R136). `waiter` says who asked for
the pass: 0 and the fibre of a `scan`, or 1 for SCAN_REQ. -/
structure Core where
  fenced   : Bool
  dead     : Bool
  inPass   : Bool
  failNext : Bool
  passFrom : Nat
  lastScan : Nat
  slice    : Nat
  sliceLeft : Nat
  sliceFrom : Nat
  draining : Bool
  waiter   : Option (Nat × Nat)
  deriving DecidableEq, Repr

/-- The mode of a cluster SRAM bank (R143). -/
inductive BankMode where
  | cache | scratch | fifo
  deriving DecidableEq, Repr

/-- One SRAM bank (R143, R145, R383): its mode, the mode it is changing to, and its FIFO entries. -/
structure Bank where
  mode : BankMode
  next : Option BankMode
  fifo : List (Tab W32)
  deriving DecidableEq, Repr

/-- A copy of a line in an L0 or a cluster cache (R255 to R259): the context that holds it, whether hardware keeps it fresh
(TRACKED or SEALED), its two sectors' validity, dirt, data and poison (R277), whether a prefetch brought it for a fibre and nothing has
used it, whether that prefetch is still in flight (R266), and the clock when it was last used (R265). -/
structure Line where
  vd    : Nat
  fresh : Bool
  sealedCopy : Bool
  valid : BitVec 2
  dirty : BitVec 2
  bad   : BitVec 2
  data  : BitVec 512
  pf    : Option Nat
  flight : Bool
  use   : Nat
  deriving DecidableEq, Repr

/-- A line in an L2 slice: dirty (its stripe member is open, R317) or clean, the context that holds it (R255), and as for `Line` the
prefetch that brought it and its last use. -/
structure L2Line where
  vd    : Nat
  dirty : Bool
  pf    : Option Nat
  flight : Bool
  use   : Nat
  deriving DecidableEq, Repr

/-- A 32-byte sector in a core's instruction cache (R7, R49) and its last use. -/
structure ISect where
  data : BitVec 256
  use  : Nat
  deriving DecidableEq, Repr

/-- A counter add by the device, an engine or the host whose walk waits at a MIG entry (R301, R302). -/
structure WaitAdd where
  core : Nat
  vd   : Nat
  addr : W64
  inc  : W64
  deriving DecidableEq, Repr

/-- An update-only copy (R395): the operator and type of each sector, and the partials by byte offset in the line.
`tracker` is T of R401. -/
structure UCopy where
  tag0  : Option (Nat × Nat)
  tag1  : Option (Nat × Nat)
  parts : Tab W64
  tracker : W32
  deriving DecidableEq, Repr

/-- The book of a region line at its home (R401): the share of each holding cluster. -/
abbrev Book := Tab W32

/-- A drain in flight to a line's home (R401): the holder, its partials and their magnitude. -/
structure Drain where
  cluster : Nat
  line    : Nat
  ty      : Nat
  parts   : Tab W64
  mag     : W32
  deriving DecidableEq, Repr

/-- A cached translation (R298): core TLB (level 0, holder the core) or cluster TLB (level 1, holder the cluster). `repl`
lists the valid replicas of a replicated page, as peer and frame (R303). -/
structure Tlbe where
  level  : Nat
  holder : Nat
  vd     : Nat
  va     : Nat
  size   : Nat
  pa     : Nat
  w      : Bool
  x      : Bool
  attr   : Nat
  repl   : List (Nat × Nat)
  deriving DecidableEq, Repr

/-- A walk-cache entry (R298): a non-leaf entry of a level for a range of addresses. -/
structure WalkEnt where
  die   : Nat
  vd    : Nat
  level : Nat
  va    : Nat
  node  : Nat
  peer  : Nat
  deriving DecidableEq, Repr

/-- Where an engine command stands (R373, R381): `placing` with a stand-in that has not been placed. -/
inductive CmdState where
  | queued | placing | running | host
  deriving DecidableEq, Repr

/-- An engine command (R371 to R381) with everything its push captured, the clock at its issue, the workgroup of its stand-in (R381), the
page that it waits for (R380), and what a collective has ready for its rank (R379). `record` numbers a collective of its group record. -/
structure Cmd where
  kind   : Nat
  st     : CmdState
  standIn : Bool
  vd     : Nat
  wg     : Nat
  fib    : Nat
  grid   : Nat
  cluster : Nat
  word   : W64
  scope  : Nat
  src    : W64
  dst    : W64
  n      : Nat
  ctr    : W64
  sb     : W64
  sc     : W64
  lb     : BitVec 256
  lc     : BitVec 256
  pos    : Nat
  added  : Nat
  prio   : Nat
  born   : Nat
  host   : Option Nat
  record : Nat
  wait   : Option Nat
  result : Option (List Byte)
  deriving DecidableEq, Repr

/-- The states of a province (R313). -/
inductive PState where
  | normal | degraded | rebuilding | restriping | retired
  deriving DecidableEq, Repr

/-- A province's entry words (R313), and the partition that owns it. `locked` is the lock of R322. -/
structure Prov where
  set    : Nat
  newSet : Nat
  rot    : Nat
  newRot : Nat
  st     : PState
  rb     : Bool
  wm     : Nat
  frame  : Nat
  newFrame : Nat
  spare  : Nat
  /-- The stack whose members the SPARE slots hold or will hold, once REBUILDING has begun (MODEL; log entry 49). -/
  gone   : Option Nat
  owner  : Option Nat
  locked : Bool
  deriving DecidableEq, Repr

/-- An interleave set (R309, R314). -/
structure SetEnt where
  stackBits  : Nat
  w       : Nat
  maskset : Nat
  seed    : Nat
  deriving DecidableEq, Repr

/-- The retirement in progress (R321, R325): PHASE, the phase that starts next, what is retired, the provinces that must still
complete the phase, and all the provinces of the retirement. -/
structure Retire where
  phase   : Nat
  next    : Nat
  stack   : Nat
  whole   : Bool
  planned : Bool
  todo    : List Nat
  all     : List Nat
  deriving DecidableEq, Repr

/-- A suspect row (R328). -/
structure Suspect where
  row   : Nat
  count : Nat
  deriving DecidableEq, Repr

/-- Main memory below L2 (R306 to R331). `err` is, per line, the XOR of what DRAM returns with the correct 640-bit
codewords, data bits 511..0 and check bits 639..512 (R307). -/
structure Damask where
  ready     : Bool
  provinces : Tab Prov
  sets      : Tab SetEnt
  masks     : Tab Nat
  failStack : Tab Bool
  failUnit  : Tab Bool
  tsvLost   : Tab Bool
  tsvCount  : Tab Nat
  sel       : W64
  tableSel  : W64
  memShare  : W64
  scrubCtl  : W64
  scrubRange : W64
  rowRepair : W64
  repairs   : Tab Nat
  repairMap : Tab Nat
  /-- The row that the last GO of ROW_REPAIR has in repair (R329). -/
  repairing : Option Nat
  retire    : Option Retire
  lastError : Nat
  filter    : Tab Bool
  suspects  : Tab (List Suspect)
  events    : List W64
  flushing  : Tab Bool
  err       : Tab (BitVec 640)
  deriving DecidableEq, Repr

/-- A Twill port (R457, R458): its live lanes, the CRC errors of each lane, the sender's sequence number, the packets kept
for replay and those that wait for room among them, each with its partition, and the receiver's next sequence number. -/
structure Port where
  lanes  : BitVec 2
  crc    : Tab (List Nat)
  next   : BitVec 12
  rx     : BitVec 12
  acked  : BitVec 12
  replay : List Packet
  queue  : List (Nat × PktBody)
  part   : Option Nat
  deriving DecidableEq, Repr

/-- The SPDM responder (R463): how far the session has come and the last answer, as its kind and bytes. -/
structure Spdm where
  stage  : Nat
  kind   : Nat
  answer : List Byte
  deriving DecidableEq, Repr

/-- What the caches do before the next access (MODEL; log entry 12): a cache makes room in the set of a line, an update-only copy, a
shadow, a translation or an instruction sector leaves, the stream prefetcher of fibre k's core fetches a line (R266), or a prefetched
line is still in flight (levels as for `prf`). -/
inductive Evict where
  | l0 (core line : Nat) | cc (cluster line : Nat) | l2 (line : Nat) | msc (line : Nat) | ucopy (cluster line : Nat)
  | shadow (holder pa : Nat) | tlb (level holder va : Nat) | walk (die va : Nat) | isect (core sec : Nat)
  | stream (k line attr : Nat) | fly (level holder line : Nat)
  deriving DecidableEq, Repr

/-- The whole package. -/
structure State where
  agenda   : List Instr
  evictions : List Evict
  free     : Nat
  dt       : Nat
  redInU   : Bool
  cur      : Nat
  quarter  : Nat
  feature  : W64
  clock    : Nat
  mem      : List Host.Cell
  poison   : Tab Bool
  hostMem  : Tab Byte
  peerMem  : Tab Byte
  net      : List (List Byte)
  fibres   : Tab Fibre
  slots    : Tab Slot
  wgs      : Tab Wg
  nextWg   : Nat
  grids    : Tab Grid
  vds      : Tab Vd
  cores    : Tab Core
  banks    : Tab Bank
  lastSlot : Tab Nat
  /-- The cycles that a quarter's exchange of slots still takes (R153). -/
  xchg     : Tab Nat
  l0       : Tab Line
  cc       : Tab Line
  l2       : Tab L2Line
  /-- The data lines of the memory-side caches, with the clock when they came (R255, R256). -/
  msc      : Tab Nat
  /-- The parity lines of the memory-side caches, with the clock when their oldest member opened (R255, R317); keys of `parKey`. -/
  pmsc     : Tab Nat
  /-- What DRAM returns for a parity line differs from it by this (R307, R319); keys of `parKey`. -/
  parErr   : Tab (BitVec 640)
  /-- The instruction caches; key of core and sector. -/
  icache   : Tab ISect
  waitAdds : List WaitAdd
  ucopies  : Tab UCopy
  books    : Tab Book
  drains   : List Drain
  shadows  : Tab W32
  tlb      : List Tlbe
  walks    : List WalkEnt
  cmds     : Tab Cmd
  nextCmd  : Nat
  collSeq  : Tab Nat
  collDone : Tab W64
  cpyzIn   : Tab W64
  cpyzOut  : Tab W64
  damask   : Damask
  islandSel : W64
  islandMhz : Tab Nat
  islandNj  : Tab Nat
  budgetLeft : Nat
  deviceBudget : Nat
  /-- The clock at the opening of the present energy window (R142). -/
  windowFrom : Nat
  preemptTimeout : W64
  rotation : Nat
  scanResults : List (Nat × Nat)
  ports    : Tab Port
  dead     : List Agent
  clusterMap : Tab Nat
  fuseKeys : List (BitVec 128 × Bool)
  keys     : List (List Byte)
  measure  : Tab (BitVec 512)
  firmware : Option (List Byte)
  /-- The leaf bits of the pages of the running firmware's sections, by page number (R38). -/
  firmMap  : Tab Nat
  /-- The status that the last load or unload of an image reported (R56, R57). -/
  loadStatus : Nat
  spdm     : Spdm
  telemetry : List W64
  deriving DecidableEq, Repr

/-! The values that an unlisted key reads as. -/

def Entry.empty : Entry :=
  { pc := 0, hdr := 0, hw := 0, inside := false, bpri := 0, fp := 0, mask := 0, wait := .none }

def Frame.empty : Frame :=
  { cause := 0, inh := false, lane := 0, code := 0, pc := 0, resume := 0, addr := 0, mask := 0, fp := 0, bpri := 0,
    save := [], entryResume := 0, entry := none, aside := [], pend := [] }

/-- A fibre before its first instruction, with no lane launched (R27). -/
def Fibre.empty : Fibre :=
  { life := .notStarted, priv := .user, launched := 0, helper := 0, exited := 0, sregs := [], pregs := [], lregs := [],
    frontier := [], lo := 0, saved := false, move := 0, moveFp := 0, pend := [], eph := [],
    trap := Frame.empty, raised := none, frozen := none, shadow := false, sBad := [], pBad := [], scrPasses := 0,
    scrRequests := 0, pfIssued := 0, pfUsed := 0, pfLate := 0, pfEvicted := 0, xlateIn := 0, bound := [], group := 0,
    wdFrom := 0, effPrio := 0 }

def Slot.empty : Slot :=
  { stack := [], stackBad := [], bars := [], quarter := 0, pslot := 0, turn := 0, active := false, promoted := false,
    fired := false, idle := 0, age := 0, stalled := 0, waited := 0, residence := 0, delay := 0, stopped := false, spillIdx := 0, window := 256, races := [] }

def KDesc.empty : KDesc :=
  { code := 0, trapvec := 0, spill := 0, spillStride := 0, codeSize := 0, scratch := 0, ob := 0, childReserve := 0,
    energy := 0, argsSize := 0, stack := 64, slots := 1, fibres := 1, shared := 0, prio := 0, flags := 0, version := 1,
    template := 0xFFFFFFFF, rsvZero := true }

/-- No workgroup: one that has ended. -/
def Wg.empty : Wg :=
  { life := .ended, vd := 0, grid := 0, index := 0, core := 0, kd := KDesc.empty, threads := 0, kregs := [],
    scratch := [], scratchBad := [], ob := [], obBad := [], orecs := [], gregs := [], issued := [], tiles := [], chks := [],
    tileBad := [], chkBad := [], readout := [], qbind := [], locks := [], obConf := 0, engFault := 0, started := 0,
    charge := 0, measured := 0, banks := [], again := false }

def FunctionCfg.empty : FunctionCfg :=
  { cores := [], reserved := [], weight := 1, sliceUs := 50, gridQuota := 16, partition := 0, owns := [],
    frees := [], peers := [], ports := [], signed := false, budget := none }

/-- A virtual device whose function is not enabled, every register at its Reset value: PROMOTE.EN 1 (R302), OCC limits
1,024 (R265), ENG_DEADLINE 200 (R381), all others 0. -/
def Vd.empty : Vd :=
  { enabled := false, cfg := FunctionCfg.empty, queueBase := 0, dispatchDesc := 0, dispatchArgs := 0, funcMode := 0,
    energyReport := 0, fallbackRing := 0, fallbackCtr := 0, heapBase := 0, heapLimit := 0, heapOffset := 0, ptRoot := 0,
    promote := 1, occClu := 1024, occL2 := 1024, engDeadline := 200, watchdog := 0, killCause := 0, energyCtx := 0,
    atomReplays := 0, slots := [], drops := 0, quotaUsed := 0, nextGrid := 1, energy := [], window := 0, seals := [],
    regions := [], binds := 0, images := [], keys := [], msix := 0, pri := 0, fbPosted := 0, fbDone := 0, contained := false }

def Core.empty : Core :=
  { fenced := false, dead := false, inPass := false, failNext := false, passFrom := 0, lastScan := 0, slice := 0,
    sliceLeft := 0, sliceFrom := 0, draining := false, waiter := none }

/-- After reset banks 0 to 47 of a cluster are CACHE and 48 to 63 SCRATCH (R143); key 64 × cluster + bank. -/
def Bank.empty (k : Nat) : Bank :=
  { mode := if k % 64 < 48 then .cache else .scratch, next := none, fifo := [] }

/-- A province's entry: the Reset column of R313 before firmware has set up the tables, the values of R312 after. R460 leaves to firmware
which partition owns it and gives no reset value: partition 0 (DESIGN CHOICE, log entry 83). -/
def Prov.empty (ready : Bool) (p : Nat) : Prov :=
  { set := 0, newSet := 0, rot := if ready then p % 12 else 0, newRot := 0, st := .normal, rb := false, wm := 0,
    frame := if ready then 381301 * p else 0, newFrame := 0, spare := if ready then 985067520 + 34664 * p else 0, gone := none,
    owner := some 0, locked := false }

/-- A set's entry: 0 by the Reset column of R314; firmware makes set 0 the healthy one (R312). -/
def SetEnt.empty (ready : Bool) (i : Nat) : SetEnt :=
  if ready && i = 0 then { stackBits := 0xFFF, w := 11, maskset := 0, seed := 0 }
  else { stackBits := 0, w := 0, maskset := 0, seed := 0 }

/-- A word of the mask table, key (64 × mask set + stack) × 64 + item: firmware enables every unit of mask set 0 (R312). -/
def maskEmpty (ready : Bool) (k : Nat) : Nat :=
  if ready && k / 4096 = 0 then 0xFFFFFFFF else 0

/-- The repair row count of a bank starts at 2 (R329). -/
def repairsEmpty : Nat := 2

def Damask.empty : Damask :=
  { ready := false, provinces := [], sets := [], masks := [], failStack := [], failUnit := [], tsvLost := [],
    tsvCount := [], sel := 0, tableSel := 0, memShare := 64 ||| (16 <<< 16), scrubCtl := 24 ||| (4 <<< 8) ||| (1 <<< 16),
    scrubRange := 2559 <<< 16, rowRepair := 2 <<< 35, repairs := [], repairMap := [], repairing := none, retire := none,
    lastError := 0, filter := [], suspects := [], events := [], flushing := [], err := [] }

/-- A Twill port after power-on. R460 leaves to firmware which partition owns it and gives no reset value: partition 0 (DESIGN CHOICE, log
entry 83). -/
def Port.empty : Port :=
  { lanes := 3, crc := [], next := 0, rx := 0, acked := 0, replay := [], queue := [], part := some 0 }

/-- FEATURE of an OLZ3-A of stepping 0 (R4): VARIANT 1, CORES 288, TWILL_PORTS 96, COLL 1, CPYZ 1, STACKS 12
(log entry 2). -/
def featureA : W64 :=
  1 ||| (288 <<< 8) ||| (96 <<< 17) ||| (1 <<< 24) ||| (1 <<< 25) ||| (12 <<< 26)

/-- The clock of an island at reset: 800 MHz for compute islands, 1,600 for uncore islands (R453). -/
def islandMhzReset (i : Nat) : Nat := if i < 60 && i % 20 < 12 then 800 else 1600

/-- What an unlisted byte of main memory, host memory or a peer's memory reads as (log entry 5). -/
def memDefault : Byte := 0

/-- The canonical form of memory: addresses strictly rising, none equal to what an unlisted address reads as. -/
def Memory.wf (m : List Host.Cell) : Bool := twf memDefault m

/-- The package right after a power-on reset (R10): no function enabled, nothing resident, memory with nothing listed. R142 gives the
device budget of an energy window no reset value: it starts at its upper limit (DESIGN CHOICE, log entry 83). -/
def State.reset : State :=
  { agenda := [], evictions := [], free := 0, dt := 1, redInU := false, cur := 0, quarter := 0, feature := featureA,
    clock := 0, mem := [], poison := [], hostMem := [], peerMem := [], net := [], fibres := [], slots := [], wgs := [],
    nextWg := 1, grids := [], vds := [], cores := [], banks := [], lastSlot := [], xchg := [], l0 := [], cc := [], l2 := [], msc := [],
    pmsc := [], parErr := [], icache := [], waitAdds := [],
    ucopies := [], books := [], drains := [], shadows := [], tlb := [], walks := [], cmds := [], nextCmd := 1,
    collSeq := [], collDone := [], cpyzIn := [], cpyzOut := [], damask := Damask.empty, islandSel := 0, islandMhz := [],
    islandNj := [], budgetLeft := 3600000000, deviceBudget := 3600000000, windowFrom := 0, preemptTimeout := 20, rotation := 0,
    scanResults := [], ports := [], dead := [], clusterMap := [], fuseKeys := [], keys := [], measure := [],
    firmware := none, firmMap := [], loadStatus := 0, spdm := { stage := 0, kind := 0, answer := [] }, telemetry := [] }

end Sys2Proof.Machine
end

