-- ==== Sys2Proof/Machine/Regs.lean ====
section
/-! DEFINITION. Keys, and the accessors through which every register, fibre, slot, workgroup and device is read and
written (R13, R23 to R29). -/

namespace Sys2Proof.Machine

/-- The outcome of a step of this machine. -/
abbrev Out := Host.Outcome State Fault Refusal

/-! A fibre's key is 64 × workgroup + 4 × slot + fibre; a slot's is 16 × workgroup + slot. -/

def wgOf (k : Nat) : Nat := k / 64
def slotOf (k : Nat) : Nat := k / 4
def slotIdx (k : Nat) : Nat := k / 4 % 16
def fibIdx (k : Nat) : Nat := k % 4

def State.fib (s : State) (k : Nat) : Fibre := tget Fibre.empty s.fibres k
def State.slot (s : State) (k : Nat) : Slot := tget Slot.empty s.slots k
def State.wg (s : State) (w : Nat) : Wg := tget Wg.empty s.wgs w
def State.vd (s : State) (v : Nat) : Vd := tget Vd.empty s.vds v
def State.core (s : State) (c : Nat) : Core := tget Core.empty s.cores c
def State.bank (s : State) (b : Nat) : Bank := tget (Bank.empty b) s.banks b

def State.setFib (s : State) (k : Nat) (f : Fibre) : State := { s with fibres := tput s.fibres k f }
def State.setSlot (s : State) (k : Nat) (x : Slot) : State := { s with slots := tput s.slots k x }
def State.setWg (s : State) (w : Nat) (x : Wg) : State := { s with wgs := tput s.wgs w x }
def State.setVd (s : State) (v : Nat) (x : Vd) : State := { s with vds := tput s.vds v x }
def State.setCore (s : State) (c : Nat) (x : Core) : State := { s with cores := tput s.cores c x }
def State.setBank (s : State) (b : Nat) (x : Bank) : State := { s with banks := tput s.banks b x }

def State.modFib (s : State) (k : Nat) (g : Fibre → Fibre) : State := s.setFib k (g (s.fib k))
def State.modSlot (s : State) (k : Nat) (g : Slot → Slot) : State := s.setSlot k (g (s.slot k))
def State.modWg (s : State) (w : Nat) (g : Wg → Wg) : State := s.setWg w (g (s.wg w))
def State.modVd (s : State) (v : Nat) (g : Vd → Vd) : State := s.setVd v (g (s.vd v))
def State.modCore (s : State) (c : Nat) (g : Core → Core) : State := s.setCore c (g (s.core c))

/-- The next free bit (log entry 6). -/
def State.takeBit (s : State) : Bool × State := (Config.freeBit s.free, { s with free := s.free + 1 })

/-- The next free 32-bit value (log entry 6). -/
def State.takeW32 (s : State) : W32 × State := (Config.freeW32 s.free, { s with free := s.free + 1 })

/-! The device's shape, from FEATURE (R4). -/

def State.isA (s : State) : Bool := s.feature.extractLsb' 0 4 = 1
def State.coreCount (s : State) : Nat := (s.feature.extractLsb' 8 9).toNat
def State.collPresent (s : State) : Bool := s.feature.getLsbD 24
def State.cpyzPresent (s : State) : Bool := s.feature.getLsbD 25
def State.stackCount (s : State) : Nat := (s.feature.extractLsb' 26 4).toNat
def clusterOf (core : Nat) : Nat := core / 8
/-- The die of a cluster (R29): 12 clusters a die on the OLZ3-A, 10 on the OLZ3-B. -/
def State.dieOf (s : State) (cluster : Nat) : Nat := cluster / (if s.isA then 12 else 10)

/-! Masks of lanes. -/

def lanes : List Nat := List.range 32

def maskOf (p : Nat → Bool) : LaneMask :=
  BitVec.ofNat 32 (lanes.foldl (fun n l => if p l then n + 2 ^ l else n) 0)

def lanesOf (m : LaneMask) : List Nat := lanes.filter (fun l => m.getLsbD l)

/-- The quads that hold a lane of the mask, whole (R13). -/
def quadsOf (m : LaneMask) : LaneMask :=
  maskOf (fun l => m.getLsbD (l / 4 * 4) || m.getLsbD (l / 4 * 4 + 1) || m.getLsbD (l / 4 * 4 + 2) || m.getLsbD (l / 4 * 4 + 3))

/-! The issuing fibre's context. -/

/-- S, the shared-window size (R24). -/
def Wg.sh (w : Wg) : Nat := w.kd.shared
/-- D, the stack depth of a fibre (R24). -/
def Wg.depth (w : Wg) : Nat := w.kd.stack

/-- The entry that the fibre has selected: the head of its frontier (R159). -/
def Fibre.entry (f : Fibre) : Entry :=
  match f.frontier with
  | e :: _ => e
  | [] => Entry.empty

/-- Set the selected entry. -/
def Fibre.setEntry (f : Fibre) (e : Entry) : Fibre :=
  match f.frontier with
  | _ :: t => { f with frontier := e :: t }
  | [] => f

/-- The lanes that were ever in a frontier entry: launched and helper lanes (R16, R19). -/
def Fibre.everLanes (f : Fibre) : LaneMask := f.launched ||| f.helper

/-- p(i): p7 is hard-wired to true (R27). -/
def Fibre.preg (f : Fibre) (i : Nat) : LaneMask := if i % 8 = 7 then BitVec.allOnes 32 else tget 0 f.pregs (i % 8)

/-- Write p(i) in the lanes of `m`; a write of p7 is ignored (R27). -/
def Fibre.setPreg (f : Fibre) (i : Nat) (m v : LaneMask) : Fibre :=
  if i % 8 = 7 then f
  else { f with pregs := tput f.pregs (i % 8) ((f.preg i &&& ~~~m) ||| (v &&& m)), pBad := tdel f.pBad (i % 8) }

def Fibre.sreg (f : Fibre) (i : Nat) : W64 := tget 0 f.sregs i

def Fibre.setSreg (f : Fibre) (i : Nat) (v : W64) : Fibre :=
  { f with sregs := tput f.sregs i v, sBad := tdel f.sBad i }

def Fibre.lreg (f : Fibre) (i : Nat) : BitVec 256 := tget 0 f.lregs i

/-- The physical stack entry of v(i) for a frame at `fp` (R24, R164). -/
def stackEntry (sh depth fib fp i : Nat) : Nat :=
  if 64 - sh ≤ i then 192 + i else fib * depth + (fp + i) % depth

def State.ventry (s : State) (k fp i : Nat) : Nat :=
  stackEntry (s.wg (wgOf k)).sh (s.wg (wgOf k)).depth (fibIdx k) fp i

/-- v(i) of the frame at `fp` in one lane. -/
def State.vregAt (s : State) (k fp i l : Nat) : W32 :=
  tget 0 (s.slot (slotOf k)).stack (32 * s.ventry k fp i + l)

/-- The lane whose storage a lane reads: a shadow lane reads the shared window through the lane that it copies (R443; log
entry 16). -/
def State.srcLane (s : State) (k i l : Nat) : Nat :=
  if (s.fib k).shadow && 64 - (s.wg (wgOf k)).sh ≤ i && 16 ≤ l then l - 16 else l

/-- v(i) of the selected entry in one lane (R164). -/
def State.vreg (s : State) (k i l : Nat) : W32 := s.vregAt k (s.fib k).entry.fp i (s.srcLane k i l)

/-- The even pair v(i), v(i+1) as 64 bits (R184). -/
def State.vpairReg (s : State) (k i l : Nat) : W64 := s.vreg k (i + 1) l ++ s.vreg k i l

/-- A scalar source field: s0 to s31, then k0 to k31 (R69). -/
def State.ssrc (s : State) (k : Nat) (x : BitVec 6) : W64 :=
  if x < 32 then (s.fib k).sreg x.toNat else tget 0 (s.wg (wgOf k)).kregs (x.toNat - 32)

/-- Fibre f writes v to a shared entry that holds `now` (R25): the writes that it sees are replaced. -/
def noteRace (r : Option Race) (now : W32) (f : Nat) (v : W32) : Race :=
  match r with
  | none => { olds := [now], ws := [(v, 2 ^ f)] }
  | some r => { olds := r.olds ++ (r.ws.filter (fun w => w.2.testBit f)).map (·.1), ws := (v, 2 ^ f) :: r.ws.filter (fun w => !w.2.testBit f) }

/-- One register result (R207). A write of a stack entry ends its soft error (R438). -/
def State.regWrite (s : State) (k : Nat) (w : RegWrite) : State :=
  match w with
  | .stk e l v => s.modSlot (slotOf k) (fun x =>
      { x with stack := tset 0 x.stack (32 * e + l) v, stackBad := tdel x.stackBad (32 * e + l),
               races := if (32 * e + l) / 32 < x.window then x.races
                 else tput x.races (32 * e + l) (noteRace (tfind x.races (32 * e + l)) (tget 0 x.stack (32 * e + l)) (fibIdx k) v) })
  | .sreg n v => s.modFib k (fun f => f.setSreg n v)
  | .lrec n v => s.modFib k (fun f => { f with lregs := tput f.lregs n v })

def State.regWrites (s : State) (k : Nat) (ws : List RegWrite) : State := ws.foldl (fun s w => s.regWrite k w) s

/-- The register that a result goes to. -/
def RegWrite.reg : RegWrite → Nat × Nat
  | .stk e l _ => (0, 32 * e + l)
  | .sreg n _ => (1, n)
  | .lrec n _ => (2, n)

/-- What the register of `w` holds now. -/
def State.regNow (s : State) (k : Nat) (w : RegWrite) : RegWrite :=
  match w with
  | .stk e l _ => .stk e l (tget 0 (s.slot (slotOf k)).stack (32 * e + l))
  | .sreg n _ => .sreg n ((s.fib k).sreg n)
  | .lrec n _ => .lrec n ((s.fib k).lreg n)

/-- A write of v(i) of the selected entry in one lane. -/
def State.vw (s : State) (k i l : Nat) (v : W32) : RegWrite := .stk (s.ventry k (s.fib k).entry.fp i) l v

/-- The writes of a 64-bit value to the pair v(i), v(i+1) in one lane (R184). -/
def State.vw64 (s : State) (k i l : Nat) (v : W64) : List RegWrite :=
  [s.vw k i l (v.extractLsb' 0 32), s.vw k (i + 1) l (v.extractLsb' 32 32)]

/-! The placement of a fibre. -/

def State.vdOf (s : State) (k : Nat) : Nat := (s.wg (wgOf k)).vd
def State.coreOf (s : State) (k : Nat) : Nat := (s.wg (wgOf k)).core

def Priv.code : Priv → Nat
  | .user => 0 | .supervisor => 1 | .device => 2

/-- FIBRE_ID (R29). -/
def State.fibreId (s : State) (k : Nat) : W64 :=
  let sl := s.slot (slotOf k)
  BitVec.ofNat 64 (fibIdx k + 4 * slotIdx k + 64 * (sl.pslot % 16) + 1024 * (sl.quarter % 4) + 4096 * (s.coreOf k % 512)
    + 2 ^ 24 * (s.vdOf k % 64) + 2 ^ 30 * (s.fib k).priv.code)

/-! Bytes. -/

def bytesOf (n : Nat) (v : Nat) : List Byte := leBytes n v
def w64OfBytes (l : List Byte) : W64 := BitVec.ofNat 64 (leNat l)

end Sys2Proof.Machine
end

