-- ==== Sys2Proof/Machine/Damask.lean ====
section
/-! DEFINITION. The Damask layer below L2 (R306 to R331): where a line lives, what its line code makes of it, and what is
lost. The contents of main memory in `State.mem` are the values that the layer returns; a line's DRAM errors are kept as the
difference from its correct codewords, and parity is never stored apart from the members it is the XOR of (log entry 13). -/

namespace Sys2Proof.Machine

/-! The failure map and the enabled units. A unit is keyed 1,024 × stack + unit; a TSV group 64 × 16 × stack and so on. -/

def Damask.stackFailed (d : Damask) (st : Nat) : Bool := tget false d.failStack st

/-- Failed(stack) or Failed(stack, unit) (R311, R314). -/
def Damask.unitFailed (d : Damask) (st u : Nat) : Bool := d.stackFailed st || tget false d.failUnit (1024 * st + u)

def Damask.prov (d : Damask) (p : Nat) : Prov := tget (Prov.empty d.ready p) d.provinces p
def Damask.setProv (d : Damask) (p : Nat) (e : Prov) : Damask := { d with provinces := tput d.provinces p e }
def Damask.setEnt (d : Damask) (i : Nat) : SetEnt := tget (SetEnt.empty d.ready i) d.sets i

/-- An item of the mask table (R314): mask set, stack, item. -/
def Damask.mask (d : Damask) (ms st item : Nat) : Nat :=
  let k := (64 * ms + st) * 64 + item
  tget (maskEmpty d.ready k) d.masks k

/-- The bank mask of a channel, 0 where the channel mask leaves the channel out (R312). -/
def Damask.chanMask (d : Damask) (ms st ch : Nat) : Nat :=
  if (d.mask ms st 32).testBit ch then d.mask ms st ch % 2 ^ 32 else 0

def popNat (v : Nat) : Nat → Nat
  | 0 => 0
  | n + 1 => popNat v n + (if v.testBit n then 1 else 0)

/-- N = |U| (R312). -/
def Damask.unitCount (d : Damask) (ms st : Nat) : Nat :=
  (List.range 32).foldl (fun n ch => n + popNat (d.chanMask ms st ch) 32) 0

/-- The i-th set bit of v, from bit `b` up. -/
def nthBit (v : Nat) : Nat → Nat → Nat → Nat
  | 0, b, _ => b
  | fuel + 1, b, i => if v.testBit b then (if i = 0 then b else nthBit v fuel (b + 1) (i - 1)) else nthBit v fuel (b + 1) i

/-- U[i]: the i-th enabled unit of the stack, ascending (R312). -/
def Damask.unitAt (d : Damask) (ms st : Nat) : List Nat → Nat → Nat
  | [], _ => 0
  | ch :: t, i =>
    let m := d.chanMask ms st ch
    let n := popNat m 32
    if i < n then 32 * ch + nthBit m 32 0 i else d.unitAt ms st t (i - n)

/-- The place of a line or parity line. -/
structure Place where
  stack : Nat
  slot  : Nat
  unit  : Nat
  row   : Nat
  col   : Nat
  deriving DecidableEq, Repr

/-- Place(stack, slot, s) (R312). -/
def Damask.place (d : Damask) (st slot : Nat) (e : SetEnt) : Place :=
  let n := max 1 (d.unitCount e.maskset st)
  let g := slot / n
  let h := Nat.xor (g * 0x9E3779B1 % 2 ^ 32) e.seed
  { stack := st, slot := slot, unit := d.unitAt e.maskset st (List.range 32) ((slot % n + h) % n), row := g / 16, col := g % 16 }

/-- The member stacks of a set, ascending (R309). -/
def SetEnt.members (e : SetEnt) : List Nat := (List.range 12).filter (fun i => e.stackBits.testBit i)

def nth (l : List Nat) (i : Nat) : Nat := l.getD i 0

/-- Which side of the province a line is on, with the set, rotation and frame that apply (R311). -/
def Prov.side (e : Prov) (line : Nat) : Bool × Nat × Nat × Nat :=
  let isNew := e.st = .restriping && line < e.wm
  if isNew then (true, e.newSet, e.newRot, e.newFrame) else (false, e.set, e.rot, e.frame)

/-- The stack on which R309 puts member `m` (0 the parity member, k + 1 data line k) of the stripe that holds `line`. -/
def Damask.rawStack (d : Damask) (p line m : Nat) : Nat :=
  let (_, st, rot, _) := (d.prov p).side line
  let w := max 1 (d.setEnt st).w
  nth (d.setEnt st).members (((line / w + rot) % (w + 1) + m) % (w + 1))

/-- Where member `m` of the stripe that holds `line` lives (R309, R311). A rebuilt member lives in the SPARE slots: they hold the members
of the stack for which the province passed through REBUILDING, and a stack lost after it leaves them where they are (R324). -/
def Damask.member (d : Damask) (p line m : Nat) : Place :=
  let e := d.prov p
  let (isNew, st, _, frame) := e.side line
  let se := d.setEnt st
  let w := max 1 se.w
  let n := line / w
  let stack := d.rawStack p line m
  if !isNew && d.stackFailed stack && e.gone = some stack && (e.rb || (e.st = .rebuilding && n * w < e.wm)) then
    let v := se.members.filter (fun x => x != stack)
    d.place (nth v (n % w)) (e.spare + n / w) se
  else d.place stack (frame + n) se

/-- The member of the stripe that holds `line` which REBUILDING moves (R321, R323), if the stripe has it: 0 the parity member, k + 1 data
line k. -/
def Damask.goneMember (d : Damask) (p line : Nat) : Option Nat :=
  match (d.prov p).gone with
  | none => none
  | some g => (List.range (max 1 (d.setEnt (d.prov p).set).w + 1)).find? (fun m => d.rawStack p line m = g)

/-- The line of a province that is locked: in RESTRIPING line WM, in REBUILDING the lost data member of stripe WM / W (R322). -/
def Damask.lockedLine (d : Damask) (p : Nat) : Option Nat :=
  let e := d.prov p
  let w := max 1 (d.setEnt e.set).w
  if !e.locked then none
  else if e.st = .rebuilding then
    match d.goneMember p e.wm with
    | some (k + 1) => if e.wm / w * w + k < 2 ^ 22 then some (e.wm / w * w + k) else none
    | _ => none
  else if e.st = .restriping then some e.wm
  else none

/-- Whether a line, counted over all provinces, is locked. -/
def Damask.isLocked (d : Damask) (line : Nat) : Bool := d.lockedLine (line / 2 ^ 22) = some (line % 2 ^ 22)

/-- The home of a device physical address (R311). -/
structure Home where
  prov   : Nat
  line   : Nat
  isNew  : Bool
  w      : Nat
  n      : Nat
  k      : Nat
  at_    : Place
  par    : Place
  deriving DecidableEq, Repr

def Damask.home (d : Damask) (pa : Nat) : Home :=
  let p := pa / 2 ^ 28 % 4096
  let l := pa / 64 % 2 ^ 22
  let (isNew, st, _, _) := (d.prov p).side l
  let w := max 1 (d.setEnt st).w
  { prov := p, line := l, isNew := isNew, w := w, n := l / w, k := l % w,
    at_ := d.member p l (l % w + 1), par := d.member p l 0 }

/-- The key of a stripe's parity line; the stripes of the new side of a province in RESTRIPING have keys of their own. -/
def parKey (h : Home) : Nat := (if h.isNew then 2 ^ 34 else 0) + h.prov * 2 ^ 22 + h.n

/-- The L2 slice of a home (R306). -/
def Place.slice (p : Place) : Nat := 32 * p.stack + p.unit / 32

def Damask.lost (d : Damask) (p : Place) : Bool := d.unitFailed p.stack p.unit

/-! The line code (R307, R308). -/

/-- Multiplication by α in GF(2^8) with x^8 + x^4 + x^3 + x^2 + 1. -/
def gfAlpha (x : Nat) : Nat := if x < 128 then 2 * x else Nat.xor (2 * x - 256) 0x1D

/-- x α^k. -/
def gfShift (x : Nat) : Nat → Nat
  | 0 => x
  | k + 1 => gfAlpha (gfShift x k)

/-- Symbol c_k of codeword j of a 640-bit line: data bits 511..0 (line byte 4b + i at bits 8(4b + i)), check byte b at bit
512 + 8b (R307). -/
def lineSym (v : BitVec 640) (j k : Nat) : Nat :=
  let nib (beat : Nat) : Nat :=
    if k < 2 then (v.extractLsb' (512 + 8 * beat + 4 * k) 4).toNat else (v.extractLsb' (32 * beat + 4 * (k - 2)) 4).toNat
  nib (2 * j) + 16 * nib (2 * j + 1)

/-- The syndromes (S0, S1) of codeword j; the code is linear, so those of the difference. -/
def syndromes (v : BitVec 640) (j : Nat) : Nat × Nat :=
  (List.range 10).foldl (fun (a : Nat × Nat) k => (Nat.xor a.1 (lineSym v j k), Nat.xor a.2 (gfShift (lineSym v j k) k))) (0, 0)

/-- What a codeword says: clean, poisoned, a correctable symbol, or uncorrectable. -/
inductive CwRes where
  | clean | poison | fix (k : Nat) | bad
  deriving DecidableEq, Repr

def syndromeRes (tsv : Option Nat) (sy : Nat × Nat) : CwRes :=
  if sy.1 = 0 && sy.2 = 0 then .clean
  else if sy.1 = 0 && sy.2 = 0x1C then .poison
  else
    match tsv with
    | some k => if sy.2 = gfShift sy.1 k then .fix k else .bad
    | none =>
      if sy.1 = 0 || sy.2 = 0 then .bad
      else
        match (List.range 10).find? (fun k => gfShift sy.1 k = sy.2) with
        | some k => .fix k
        | none => .bad

/-- What a read makes of a line (R308): clean or corrected (with the symbol), with the sectors that read as poisoned; or
uncorrectable by the line code. -/
inductive LineRes where
  | ok (fixed : Option Nat) (poison0 poison1 : Bool) | uncorrectable
  deriving DecidableEq, Repr

def readLine (tsv : Option Nat) (err : BitVec 640) : LineRes :=
  if err = 0 then .ok none false false
  else
    let rs := (List.range 8).map (fun j => syndromeRes tsv (syndromes err j))
    let p0 := (rs.take 4).all (· = .poison)
    let p1 := (rs.drop 4).all (· = .poison)
    let rest := (if p0 then [] else rs.take 4) ++ (if p1 then [] else rs.drop 4)
    let ks := rest.filterMap (fun r => match r with | .fix k => some k | _ => none)
    if rest.any (fun r => r = .bad || r = .poison) then .uncorrectable
    else
      match ks with
      | [] => .ok none p0 p1
      | k :: t => if t.all (· = k) then .ok (some k) p0 p1 else .uncorrectable

/-- The lost TSV group of the pseudo-channel that holds a place (R308). -/
def Damask.tsvOf (d : Damask) (p : Place) : Option Nat :=
  (List.range 10).find? (fun k => tget false d.tsvLost (16 * (64 * p.stack + p.unit / 16) + k))

/-! The log of R330 and the health of rows (R328). -/

/-- An entry of MEM_EVENT (R330). -/
def eventWord (ty : Nat) (p : Place) (prov : Nat) : W64 :=
  BitVec.ofNat 64 (ty + 16 * p.stack + 256 * (p.unit / 32) + 8192 * (p.unit / 16 % 2) + 16384 * (p.unit % 16)
    + 2 ^ 18 * p.row + 2 ^ 35 * prov)

/-- Log an event; the log has 256 entries, and an entry that does not fit leaves type 7 as the last (log entry 14). -/
def Damask.logEvent (d : Damask) (e : W64) : Damask :=
  if d.events.length < 255 then { d with events := d.events ++ [e] }
  else if d.events.length = 255 then { d with events := d.events ++ [7] }
  else d

def noPlace : Place := { stack := 0, slot := 0, unit := 0, row := 0, col := 0 }

/-- The identifier of a row in its stack (R328). -/
def rowId (p : Place) : Nat := p.unit / 32 * 2 ^ 22 + p.unit / 16 % 2 * 2 ^ 21 + p.unit % 16 * 2 ^ 17 + p.row

def filterBits (p : Place) : List Nat :=
  [0x9E3779B1, 0x85EBCA77, 0xC2B2AE3D].map (fun k => p.stack * 65536 + rowId p * k % 2 ^ 32 / 65536)

/-- The index of the suspect with the lowest count, lowest index on ties (R328). -/
def lowestSuspect : List Suspect → Nat → Nat × Nat → Nat
  | [], _, best => best.1
  | x :: t, i, best => lowestSuspect t (i + 1) (if x.count < best.2 then (i, x.count) else best)

/-- One corrected error in a row (R328, R329): what the filter, the suspect list and the log record. The second result says
that the row is to be repaired. -/
def Damask.corrected (d : Damask) (predict : Bool) (p : Place) : Damask × Bool :=
  let bits := filterBits p
  if bits.any (fun b => !tget false d.filter b) then
    ({ d with filter := bits.foldl (fun t b => tput t b true) d.filter }.logEvent (eventWord 1 p 0), false)
  else
    let l : List Suspect := tget [] d.suspects p.stack
    let th := max 1 (d.scrubCtl.extractLsb' 8 8).toNat
    let r : List Suspect × Nat × Bool :=
      match l.find? (fun x => x.row = rowId p) with
      | some x => (l.map (fun (y : Suspect) => if y.row = rowId p then { y with count := x.count + 1 } else y), x.count + 1, false)
      | none =>
        if l.length < 128 then (l ++ [{ row := rowId p, count := 1 }], 1, true)
        else (l.set (lowestSuspect l 0 (0, (l.headD { row := 0, count := 0 }).count)) { row := rowId p, count := 1 }, 1, true)
    let n := r.2.1
    let d := if r.2.2 then d.logEvent (eventWord 2 p 0) else d
    if th ≤ n then
      (({ d with suspects := tput d.suspects p.stack (r.1.filter (fun (y : Suspect) => y.row != rowId p)) }).logEvent (eventWord 3 p 0), !predict)
    else ({ d with suspects := tput d.suspects p.stack r.1 }, false)

/-! Retirements (R321, R325). -/

/-- A province that a set change has left DEGRADED, for a retirement of its own once the present one has ended. -/
def Damask.degraded (d : Damask) : List Nat := (List.range 2560).filter (fun p => (d.prov p).st = .degraded)

/-- A member stack of a province has failed. -/
def Damask.stackGone (d : Damask) (p : Nat) : Bool := (d.setEnt (d.prov p).set).members.any (fun x => d.stackFailed x)

/-- A unit that a province's set uses has failed (R312, R314). -/
def Damask.hurt (d : Damask) (p : Nat) : Bool :=
  let se := d.setEnt (d.prov p).set
  d.stackGone p || d.failUnit.any (fun e => e.2 && se.members.contains (e.1 / 1024)
    && (d.chanMask se.maskset (e.1 / 1024) (e.1 % 1024 / 32)).testBit (e.1 % 32))

/-- The province takes its new set, rotation and frame when a restripe ends (R321). Where a unit of the new set has been lost meanwhile, it
is DEGRADED (R324). -/
def Prov.restriped (e : Prov) : Prov :=
  { e with set := e.newSet, rot := e.newRot, frame := e.newFrame, rb := false, st := .normal, wm := 0, locked := false, gone := none }

def Damask.restripe (d : Damask) (p : Nat) : Damask :=
  let d := (d.setProv p (d.prov p).restriped).logEvent (eventWord 6 noPlace p)
  if d.hurt p then (d.setProv p { d.prov p with st := .degraded }).logEvent (eventWord 6 noPlace p) else d

/-- A retirement of these provinces begins; `host` says that each phase waits for the host (R146, R325). -/
def Damask.openRetire (d : Damask) (host whole planned : Bool) (stack : Nat) (all : List Nat) : Damask :=
  if all.isEmpty then d
  else { d with retire := some { phase := if host then 4 else 1, next := if whole then 2 else 3, stack := stack, whole := whole,
                                 planned := planned, todo := all, all := all } }

/-- The retirement ends; provinces that a loss meanwhile has left DEGRADED have one of their own. -/
def Damask.endRetire (d : Damask) (host : Bool) : Damask :=
  let d := { d with retire := none }
  d.openRetire host (d.degraded.any (fun q => d.stackGone q)) false 0 d.degraded

/-- A province has completed the phase that the retirement drives, or has left the retirement. The last to leave REBUILDING ends that
phase, and a planned stack is then out of use; the last to leave RESTRIPING, and a retirement without a province, end it (R321, R325). -/
def Damask.leavePhase (d : Damask) (host : Bool) (p : Nat) : Damask :=
  match d.retire with
  | none => d
  | some r =>
    let todo := r.todo.erase p
    if !todo.isEmpty then { d with retire := some { r with todo := todo } }
    else
      let d := if r.phase = 2 && r.planned then { d with failStack := tput d.failStack r.stack true } else d
      if r.phase = 2 && !r.all.isEmpty then { d with retire := some { r with phase := if host then 4 else 3, next := 3, todo := r.all } }
      else d.endRetire host

end Sys2Proof.Machine
end

