-- ==== Sys2Proof/Machine/Memory.lean ====
section
/-! DEFINITION. Memory below the instructions: bytes, the L2 slices and DRAM, the caches and what an access reads from or
updates (R255 to R261, R272, R276, R317 to R319), translation (R247, R248, R298 to R303), and the spaces (R247, R250). -/

namespace Sys2Proof.Machine

/-! Bytes of a space. -/

/-- The listed bytes of [a, a + n). -/
def window (m : Tab Byte) (a n : Nat) : Tab Byte := m.filter (fun e => a ≤ e.1 && e.1 < a + n)

/-- The bytes of [a, a + n). -/
def readTab (m : Tab Byte) (a n : Nat) : List Byte :=
  let w := window m a n
  (List.range n).map (fun i => tget memDefault w (a + i))

/-- The entries that bytes from `a` on take: none for a byte that an unlisted address reads as. -/
def cells (a : Nat) : List Byte → Tab Byte
  | [] => []
  | b :: t => if b = memDefault then cells (a + 1) t else (a, b) :: cells (a + 1) t

/-- Write bytes from `a` on. -/
def writeTab (m : Tab Byte) (a : Nat) (l : List Byte) : Tab Byte :=
  m.filter (fun e => e.1 < a) ++ cells a l ++ m.filter (fun e => a + l.length ≤ e.1)

def State.readMem (s : State) (a n : Nat) : List Byte := readTab s.mem a n
def State.writeMem (s : State) (a : Nat) (l : List Byte) : State := { s with mem := writeTab s.mem a l }

/-- A key of a cached line or of a share: holder, then address. -/
def hkey (holder a : Nat) : Nat := holder * 2 ^ 52 + a

/-! L2, the MSC and DRAM. -/

/-- Whether a place returns what its code can make whole: it is not lost, and the line's error is none that the code cannot correct
(R308, R319). -/
def State.placeReads (s : State) (p : Place) (err : BitVec 640) : Bool :=
  !s.damask.lost p && (match readLine (s.damask.tsvOf p) err with
    | .ok _ a b => !a && !b
    | .uncorrectable => false)

/-- Whether the parity line of the stripe of `h` can be had: from its memory-side cache, or from its slot (R319). -/
def State.parityOk (s : State) (h : Home) : Bool :=
  !s.damask.lost h.par && ((tfind s.pmsc (parKey h)).isSome || s.placeReads h.par (tget 0 s.parErr (parKey h)))

/-- Whether a line is dirty in L2: its stripe member is open (R317). -/
def State.isOpen (s : State) (line : Nat) : Bool :=
  match tfind s.l2 line with
  | some x => x.dirty
  | none => false

/-- Whether data line `k'` of the stripe of `h`, if it exists, is readable when it must be read (R319). Open lines are skipped; a line
that has not yet arrived in a new stripe counts as open, and one that has left an old stripe stays in its old slot (R323). -/
def State.memberOk (s : State) (h : Home) (k' : Nat) : Bool :=
  let l := h.n * h.w + k'
  let line := h.prov * 2 ^ 22 + l
  let e := s.damask.prov h.prov
  let p := s.damask.member h.prov h.line (k' + 1)
  if 2 ^ 22 ≤ l || (h.isNew && e.wm ≤ l) then true
  else if e.st = .restriping && !h.isNew && l < e.wm then !s.damask.lost p
  else s.isOpen line || s.placeReads p (tget 0 s.damask.err line)

/-- Whether a line can be rebuilt from its stripe (R319). -/
def State.rebuildOk (s : State) (h : Home) : Bool :=
  s.parityOk h && (List.range h.w).all (fun k' => k' = h.k || s.memberOk h k')

def State.poisonLine (s : State) (line : Nat) (a b : Bool) : State :=
  let t := if a then tput s.poison (2 * line) true else s.poison
  { s with poison := if b then tput t (2 * line + 1) true else t }

/-- MSI-X vector n of a function is pending (R456). -/
def State.msix (s : State) (vd n : Nat) : State :=
  s.modVd vd (fun v => { v with msix := v.msix ||| BitVec.ofNat 5 (2 ^ n) })

/-- A page that is not resident is to be served; in host mode one page request group goes out, and each raises vector 3 (R430, R456). -/
def State.pageRequest (s : State) (vd : Nat) : State :=
  if (s.vd vd).funcMode.getLsbD 0 then (s.modVd vd (fun v => { v with pri := v.pri + 1 })).msix vd 3 else s

/-- The Damask layer changes; MEM_EVENT going from empty to non-empty raises vector 0 of function 0 (R456). -/
def State.setDamask (s : State) (d : Damask) : State :=
  let r := { s with damask := d }
  if s.damask.events.isEmpty && !d.events.isEmpty then r.msix 0 0 else r

def State.logEvent (s : State) (e : W64) : State := s.setDamask (s.damask.logEvent e)

/-- FUNC_MODE.PREDICT of virtual device 0 (R146, R328). -/
def State.predict (s : State) : Bool := (s.vd 0).funcMode.getLsbD 7

/-- FUNC_MODE.REBUILD of virtual device 0 (R146, R321). -/
def State.hostRebuild (s : State) : Bool := (s.vd 0).funcMode.getLsbD 2

/-- The key of a row: its bank's, and the row. -/
def Place.rowKey (p : Place) : Nat := (1024 * p.stack + p.unit) * 131072 + p.row

/-- Start post-package repair of a row if its bank has a repair row left (R329). The map gives the repair row, 1 or 2, of a row;
a row that is still being copied is listed with 1,000,000 added. -/
def Damask.repairRow (d : Damask) (p : Place) : Damask :=
  let bankKey := 1024 * p.stack + p.unit
  let left := tget repairsEmpty d.repairs bankKey
  if left = 0 then d
  else { d with repairs := tput d.repairs bankKey (left - 1), repairMap := tput d.repairMap p.rowKey (1000000 + (3 - left)) }

/-- Read a line from DRAM (R308, R319): count a corrected error, rebuild what is lost, poison what cannot be had. -/
def State.dramRead (s : State) (line : Nat) : State :=
  let h := s.damask.home (64 * line)
  let fail (s : State) : State := (s.poisonLine line true true).logEvent (eventWord 4 h.at_ h.prov)
  if s.damask.lost h.at_ then (if s.rebuildOk h then s else fail s)
  else
    let err := tget 0 s.damask.err line
    if err = 0 then s
    else
      match readLine (s.damask.tsvOf h.at_) err with
      | .ok none a b => s.poisonLine line a b
      | .ok (some _) a b =>
        let r := s.damask.corrected s.predict h.at_
        (s.setDamask (if r.2 then r.1.repairRow h.at_ else r.1)).poisonLine line a b
      | .uncorrectable => if s.rebuildOk h then s else fail s

/-- A demand access to a prefetched line counts for the fibre that it was fetched for: late while it is in flight, else used (R266). -/
def State.pfHit (s : State) (pf : Option Nat) (flight : Bool) : State :=
  match pf with
  | some k => s.modFib k (fun f => if flight then { f with pfLate := f.pfLate + 1 } else { f with pfUsed := f.pfUsed + 1 })
  | none => s

/-- A prefetched line leaves a cache before any access has used it (R266). -/
def State.pfOut (s : State) (pf : Option Nat) : State :=
  match pf with
  | some k => s.modFib k (fun f => { f with pfEvicted := f.pfEvicted + 1 })
  | none => s

/-- Bring a line into its L2 slice (R256): from the MSC, which it leaves, or from DRAM. A line that is there is used now. -/
def State.l2Fill (s : State) (vd line : Nat) (pf : Option Nat) : State :=
  match tfind s.l2 line with
  | some x =>
    if pf.isSome then s
    else { s.pfHit x.pf x.flight with l2 := tput s.l2 line { x with pf := none, flight := false, use := s.clock } }
  | none =>
    let s := if (tfind s.msc line).isSome then { s with msc := tdel s.msc line } else s.dramRead line
    { s with l2 := tput s.l2 line { vd := vd, dirty := false, pf := pf, flight := false, use := s.clock } }

/-- A parity update (R317): the stripe's parity line stands in the memory-side cache of its stack, and its slot in DRAM is written with
it. A parity line that is lost, or that cannot be had, takes no update. -/
def State.parityUpdate (s : State) (line : Nat) : State :=
  let h := s.damask.home (64 * line)
  if s.parityOk h then
    { s with pmsc := tput s.pmsc (parKey h) (match tfind s.pmsc (parKey h) with | some n => n | none => s.clock),
             parErr := tdel s.parErr (parKey h) }
  else s

/-- The line is dirty in L2: its stripe member is open, and a clean line's old contents have gone into the parity line (R317). -/
def State.l2Dirty (s : State) (vd line : Nat) : State :=
  let s := s.l2Fill vd line none
  let s := if s.isOpen line then s else s.parityUpdate line
  { s with l2 := tput s.l2 line { vd := vd, dirty := true, pf := none, flight := false, use := s.clock } }

/-- A dirty line is written to DRAM with correct check bytes, which closes its member (R317, R318). -/
def State.l2Clean (s : State) (line : Nat) : State :=
  match tfind s.l2 line with
  | none => s
  | some x =>
    if x.dirty then
      let s := s.parityUpdate line
      { s with l2 := tput s.l2 line { x with dirty := false }, damask := { s.damask with err := tdel s.damask.err line } }
    else s

/-- Drop the shadows of a line that one holder has, 0 the home slice and c + 1 cluster c: the stored elements hold their values (R396). -/
def State.residueDrop (s : State) (holder line : Nat) : State :=
  if s.shadows.isEmpty then s
  else { s with shadows := s.shadows.filter (fun e => !(e.1 / 2 ^ 52 = holder && e.1 % 2 ^ 52 / 2 / 64 = line)) }

/-- Evict a line from L2: a dirty one is written back to DRAM; a clean one goes to the MSC of its home stack, and is dropped where that
stack is lost (R255, R306, R317). -/
def State.l2Evict (s : State) (line : Nat) : State :=
  match tfind s.l2 line with
  | none => s
  | some x =>
    let s := (s.pfOut x.pf).residueDrop 0 line
    if x.dirty then { s.l2Clean line with l2 := tdel s.l2 line }
    else if s.damask.stackFailed (s.damask.home (64 * line)).at_.stack then { s with l2 := tdel s.l2 line }
    else { s with l2 := tdel s.l2 line, msc := tput s.msc line s.clock }

/-! Atomic updates and update-only copies (R391, R394 to R396, R401). -/

/-- Bytes of a scalar type code (R73): i8 n8 i16 n16 i32 n32 i64 n64 f16 bf16 f32 f64 f8a f8b. -/
def tyBytes (ty : Nat) : Nat :=
  match ty with
  | 0 => 1 | 1 => 1 | 2 => 2 | 3 => 2 | 4 => 4 | 5 => 4 | 6 => 8 | 7 => 8 | 8 => 2 | 9 => 2 | 10 => 4 | 11 => 8 | 12 => 1
  | 13 => 1 | _ => 4

/-- The signed reading of the low w bits. -/
def sgn (w v : Nat) : Int :=
  let x := v % 2 ^ w
  if 2 ^ (w - 1) ≤ x then (x : Int) - 2 ^ w else x

def isSignedTy (ty : Nat) : Bool := ty = 0 || ty = 2 || ty = 4 || ty = 6

/-- The update of R391 on the stored bits, for the types without a shadow; code 9 is the saturating add of a counter (R360). -/
def atomicOp (aop ty o x : Nat) : Nat :=
  let w := 8 * tyBytes ty
  let lt (a b : Nat) : Bool := if isSignedTy ty then decide (sgn w a < sgn w b) else decide (a < b)
  match aop with
  | 0 => if ty = 10 then (add32 (BitVec.ofNat 32 o) (BitVec.ofNat 32 x)).toNat else (o + x) % 2 ^ w
  | 1 => if ty = 10 then f32.minBits o x else if lt x o then x else o
  | 2 => if ty = 10 then f32.maxVal o x else if lt o x then x else o
  | 3 => Nat.land o x
  | 4 => Nat.lor o x
  | 5 => Nat.xor o x
  | 6 => x
  | 7 => if x ≤ o then 0 else o + 1
  | 9 => min (o + x) (2 ^ w - 1)
  | _ => if o = 0 || x < o then x else o - 1

/-- The format of a type that accumulates in a shadow (R396). -/
def shadowFmt (ty : Nat) : Option Fmt := if ty = 9 then some bf16 else if ty = 12 then some f8a else none

/-- An element of device memory. -/
def State.elemAt (s : State) (pa ty : Nat) : Nat := leNat (s.readMem pa (tyBytes ty))

def State.setElem (s : State) (pa ty v : Nat) : State := s.writeMem pa (leBytes (tyBytes ty) v)

/-- The key of a shadow: its holder, and twice its address, plus 1 for an element of two bytes. -/
def skey (holder pa ty : Nat) : Nat := hkey holder (2 * pa + (if ty = 9 then 1 else 0))

/-- Discard every shadow of the bytes [pa, pa + n), whatever holds it (R396); the stored elements hold their values. -/
def State.dropShadows (s : State) (pa n : Nat) : State :=
  if s.shadows.isEmpty then s
  else { s with shadows := s.shadows.filter (fun e =>
    !(pa < e.1 % 2 ^ 52 / 2 + 1 + e.1 % 2 && e.1 % 2 ^ 52 / 2 < pa + n)) }

/-- An `.add` of the f32 value `x` into a bf16 or f8a element, in the shadow that `holder` holds (0 the home slice, c + 1
cluster c); a shadow elsewhere drains first (R396). -/
def State.shadowAdd (s : State) (holder pa ty : Nat) (f : Fmt) (x : W32) : State :=
  let base := match tfind s.shadows (skey holder pa ty) with
    | some b => b
    | none => rne32 (f.value (s.elemAt pa ty))
  let n := add32 base x
  let s := s.dropShadows pa (tyBytes ty)
  { s.setElem pa ty (f.round 0 (f32.value n.toNat)) with shadows := tput s.shadows (skey holder pa ty) n }

/-- One update at an execution point held by `holder` (R391): the operand is in the element's own format. -/
def State.updateElem (s : State) (holder pa aop ty x : Nat) : State :=
  match shadowFmt ty with
  | some f =>
    if aop = 0 then s.shadowAdd holder pa ty f (rne32 (f.value x))
    else (s.dropShadows pa (tyBytes ty)).setElem pa ty (atomicOp aop ty (s.elemAt pa ty) x)
  | none => (s.dropShadows pa (tyBytes ty)).setElem pa ty (atomicOp aop ty (s.elemAt pa ty) x)

/-- Fold one partial at the home (R395, R396): a counter add of type code 63 saturates (R360). -/
def State.foldPart (s : State) (pa aop ty : Nat) (v : W64) : State :=
  if ty = 63 then s.setElem pa 7 (min (s.elemAt pa 7 + v.toNat) (2 ^ 64 - 1))
  else
    match shadowFmt ty with
    | some f => s.shadowAdd 0 pa ty f (v.extractLsb' 0 32)
    | none => s.updateElem 0 pa aop ty v.toNat

/-- Fold the parts of a copy whose byte offsets lie in a sector. -/
def State.foldSector (s : State) (line sec : Nat) (tag : Option (Nat × Nat)) (parts : Tab W64) : State :=
  match tag with
  | none => s
  | some (aop, ty) =>
    parts.foldl (fun s e => if e.1 / 32 = sec then s.foldPart (64 * line + e.1) aop ty e.2 else s) s

/-- Drain an update-only copy to the home, its share returned with it (R395, R401). -/
def State.drainU (s : State) (cluster line : Nat) : State :=
  match tfind s.ucopies (hkey cluster line) with
  | none => s
  | some u =>
    let s := (s.l2Dirty (match tfind s.l2 line with | some x => x.vd | none => 0) line)
    let s := (s.foldSector line 0 u.tag0 u.parts).foldSector line 1 u.tag1 u.parts
    { s with ucopies := tdel s.ucopies (hkey cluster line),
             books := tput s.books line (tdel (tget [] s.books line) cluster) }

/-- Fold a drain in flight (R401): the tracker falls by its magnitude, and a forced drain returns the share. -/
def State.foldDrain (s : State) (d : Drain) : State :=
  let s := d.parts.foldl (fun s e => s.foldPart (64 * d.line + e.1) 0 d.ty e.2) s
  let s := { s with drains := s.drains.erase d }
  let s := if s.drains.any (fun x => x.cluster = d.cluster && x.line = d.line) then s
    else { s with fibres := s.fibres.map (fun e => (e.1, { e.2 with pend := e.2.pend.map (fun p =>
      match p.kind with
      | .drain c ls => if c = d.cluster && ls.contains d.line then
          { p with kind := .drain c (ls.filter (fun l => l != d.line)), ready := ls.all (fun l => l = d.line) } else p
      | _ => p) })) }
  let k := hkey d.cluster d.line
  match tfind s.ucopies k with
  | none => s
  | some u =>
    let t := (f32.value u.tracker.toNat).add false ((f32.value d.mag.toNat).negate)
    { s with ucopies := tput s.ucopies k { u with tracker := if u.parts.isEmpty then 0 else BitVec.ofNat 32 (f32.round 2 t) } }

/-- Combine every update-only copy of a line at its home, with every drain in flight (R395, R400). -/
def State.combine (s : State) (line : Nat) : State :=
  if s.ucopies.isEmpty && s.drains.isEmpty then s
  else
    let s := (s.drains.filter (fun d => d.line = line)).foldl (fun s d => s.foldDrain d) s
    let s := (s.ucopies.filter (fun e => e.1 % 2 ^ 52 = line)).foldl (fun s e => s.drainU (e.1 / 2 ^ 52) line) s
    s

/-! The caches. A line's data counts only where hardware does not keep the copy fresh. -/

def Line.empty : Line :=
  { vd := 0, fresh := true, sealedCopy := false, valid := 0, dirty := 0, bad := 0, data := 0, pf := none, flight := false, use := 0 }

/-- No copy yet, of a line that hardware does not keep fresh. -/
def Line.plain : Line := { Line.empty with fresh := false }

/-- The copy is used now by a context, and is no unused prefetch any more. -/
def Line.used (x : Line) (vd clock : Nat) : Line := { x with vd := vd, pf := none, flight := false, use := clock }

/-- The n bytes of a line's data from byte `o`. -/
def Line.bytes (x : Line) (o n : Nat) : List Byte :=
  (List.range n).map (fun i => x.data.extractLsb' (8 * (o + i)) 8)

/-- Put bytes into a line's data from byte `o`. -/
def putLine (d : BitVec 512) (o : Nat) : List Byte → BitVec 512
  | [] => d
  | b :: t =>
    putLine ((d &&& ~~~(BitVec.ofNat 512 (255 * 2 ^ (8 * o)))) ||| BitVec.ofNat 512 (b.toNat * 2 ^ (8 * o))) (o + 1) t

def sectorBit (pa : Nat) : Nat := pa / 32 % 2

/-- The bit of a sector in the masks of a line. -/
def secBit (sec : Nat) : BitVec 2 := BitVec.ofNat 2 (2 ^ sec)

/-- A sector of device memory is poisoned, or is so no more. -/
def State.setPoison (s : State) (sector : Nat) (bad : Bool) : State :=
  { s with poison := if bad then tput s.poison sector true else tdel s.poison sector }

/-- Write one dirty sector of a cluster's copy back to the home L2 slice, with its poison; the copy stays valid and clean (R258, R285). -/
def State.writeBackSector (s : State) (cluster line sec : Nat) : State :=
  match tfind s.cc (hkey cluster line) with
  | none => s
  | some x =>
    if x.dirty.getLsbD sec then
      let s := if x.fresh then s else (s.writeMem (64 * line + 32 * sec) (x.bytes (32 * sec) 32)).setPoison (2 * line + sec) (x.bad.getLsbD sec)
      let s := s.l2Dirty x.vd line
      { s with cc := tput s.cc (hkey cluster line) { x with dirty := x.dirty &&& ~~~(secBit sec) } }
    else s

def State.writeBack (s : State) (cluster line : Nat) : State :=
  (s.writeBackSector cluster line 0).writeBackSector cluster line 1

/-- Drop a cluster's copy of a line, writing dirty sectors back first (R286). -/
def State.ccDrop (s : State) (cluster line : Nat) : State :=
  let s := (s.writeBack cluster line).residueDrop (cluster + 1) line
  match tfind s.cc (hkey cluster line) with
  | none => s
  | some x => { s.pfOut x.pf with cc := tdel s.cc (hkey cluster line) }

def State.l0Drop (s : State) (core line : Nat) : State :=
  match tfind s.l0 (hkey core line) with
  | none => s
  | some x => { s.pfOut x.pf with l0 := tdel s.l0 (hkey core line) }

/-- Whether a workgroup holds the line locked in the cluster's cache (R289). -/
def State.locked (s : State) (cluster line : Nat) : Bool :=
  s.wgs.any (fun e => clusterOf e.2.core = cluster && tget false e.2.locks line)

/-! Copies. -/

/-- Bring a sector of an UNTRACKED line into a copy, with its poison, if the copy does not hold it. -/
def State.fillSector (s : State) (x : Line) (line sec : Nat) : Line :=
  if x.valid.getLsbD sec then x
  else
    { x with valid := x.valid ||| secBit sec, bad := if tget false s.poison (2 * line + sec) then x.bad ||| secBit sec else x.bad &&& ~~~(secBit sec),
             data := putLine x.data (32 * sec) (s.readMem (64 * line + 32 * sec) 32) }

/-- A sector of a line stands in a copy: its data too, where a context that maps the page UNTRACKED made the copy (R261). -/
def State.holdSector (s : State) (x : Line) (line sec : Nat) : Line :=
  if x.fresh then { x with valid := x.valid ||| secBit sec } else s.fillSector x line sec

/-- A cluster's copy of a line, for a context that maps its page UNTRACKED. A copy that hardware kept fresh is written back first and
holds nothing any more (R261). -/
def State.plainCopy (s : State) (cl line : Nat) : Line × State :=
  let c := tget Line.plain s.cc (hkey cl line)
  if c.fresh then ({ c with fresh := false, valid := 0, dirty := 0, bad := 0 }, s.writeBack cl line) else (c, s)

/-- The L0 copy that a read through a cluster's copy leaves: the sectors that the copy holds. -/
def Line.toL0 (c : Line) : Line := { c with dirty := 0, data := if c.fresh then 0 else c.data, pf := none, flight := false }

/-- Whether a line is present at a prefetch level (R284): 0 the core's L0, 1 the cluster cache, 2 the L2 slice. -/
def State.presentAt (s : State) (core level line : Nat) : Bool :=
  match level with
  | 0 => (tfind s.l0 (hkey core line)).isSome
  | 1 => (tfind s.cc (hkey (clusterOf core) line)).isSome
  | _ => (tfind s.l2 line).isSome

/-- A whole line stands in a cluster's cache, as a load would bring it. -/
def State.bringCc (s : State) (vd cl line attr : Nat) : Line × State :=
  let held := tfind s.cc (hkey cl line)
  let s := if held.any (fun c => c.valid = 3) then s else s.l2Fill vd line none
  let blank : Line := { (if attr = 1 then Line.plain else Line.empty) with vd := vd, sealedCopy := attr = 2, use := s.clock }
  let c := match held with
    | some c => s.holdSector (s.holdSector c line 0) line 1
    | none => s.holdSector (s.holdSector blank line 0) line 1
  (c, { s with cc := tput s.cc (hkey cl line) c })

/-- Bring a whole line to a level for fibre k, as a load would bring it; the copy at that level waits for its first use in the fibre's
counts (R266, R284). -/
def State.prefetch (s : State) (k vd core level line attr : Nat) : State :=
  if s.presentAt core level line then s
  else
    let s := s.modFib k (fun f => { f with pfIssued := f.pfIssued + 1 })
    if level = 2 then s.l2Fill vd line (some k)
    else
      let r := s.bringCc vd (clusterOf core) line attr
      if level = 1 then { r.2 with cc := tput r.2.cc (hkey (clusterOf core) line) { r.1 with pf := some k, flight := false } }
      else { r.2 with l0 := tput r.2.l0 (hkey core line) { r.1.toL0 with vd := vd, pf := some k, use := s.clock } }

/-! Room in the caches (R255, R265, R289). -/

/-- The CACHE-mode banks of a cluster that map lines (R143, R145). -/
def State.cacheBanks (s : State) (cl : Nat) : List Nat := (List.range 64).filter (fun b => (s.bank (64 * cl + b)).mode = .cache && (s.bank (64 * cl + b)).next.isNone)

/-- A candidate for eviction: its key, its context and its last use. -/
structure Cand where
  key : Nat
  vd  : Nat
  use : Nat
  deriving DecidableEq, Repr

/-- The least recently used candidate, the first of several. -/
def leastUsed : List Cand → Option Cand
  | [] => none
  | c :: t =>
    match leastUsed t with
    | none => some c
    | some d => if d.use < c.use then some d else some c

/-- What a cache evicts from a full set: first a line of a context above its limit, then the least recently used (R265). -/
def victim (above : Nat → Bool) (cs : List Cand) : Option Nat :=
  match leastUsed (cs.filter (fun c => above c.vd)) with
  | some c => some c.key
  | none => (leastUsed cs).map (fun c => c.key)

/-- LIMIT of an occupancy register: values above 1,024 act as 1,024 (R265). -/
def occLimit (v : W64) : Nat := min 1024 (v.extractLsb' 0 11).toNat

/-- The lines that a CACHE bank holds (R255), and the ways of a set of the cluster cache (R289). -/
def bankLines : Nat := 4096
def ccWays : Nat := 16

/-- A context holds more of a cluster's cache than its limit. -/
def State.overClu (s : State) (cl vd : Nat) : Bool :=
  occLimit (s.vd vd).occClu * (bankLines * (s.cacheBanks cl).length)
    < 1024 * (s.cc.filter (fun e => e.1 / 2 ^ 52 = cl && e.2.vd = vd)).length

/-- The lines of an L2 slice, and of all of them (R7). -/
def sliceLines : Nat := 8192
def l2Lines : Nat := 384 * sliceLines

/-- A context holds more of the L2 slices than its limit. -/
def State.overL2 (s : State) (vd : Nat) : Bool :=
  occLimit (s.vd vd).occL2 * l2Lines < 1024 * (s.l2.filter (fun e => e.2.vd = vd)).length

/-- The lines of a cluster's cache that stand in the set of `line`, and may leave it: locked lines are never victims (R289). -/
def State.ccSet (s : State) (cl line : Nat) : List Cand :=
  let bs := s.cacheBanks cl
  (s.cc.filter (fun e => e.1 / 2 ^ 52 = cl && !s.locked cl (e.1 % 2 ^ 52) && Config.cacheSet bs (e.1 % 2 ^ 52) = Config.cacheSet bs line)).map
    (fun e => ⟨e.1 % 2 ^ 52, e.2.vd, e.2.use⟩)

/-- The lines of the L2 slice that holds `line`. -/
def State.sliceSet (s : State) (line : Nat) : List Cand :=
  let sl := (s.damask.home (64 * line)).at_.slice
  (s.l2.filter (fun e => (s.damask.home (64 * e.1)).at_.slice = sl)).map (fun e => ⟨e.1, e.2.vd, e.2.use⟩)

/-- The lines of a core's L0. -/
def State.l0Set (s : State) (core : Nat) : List Cand :=
  (s.l0.filter (fun e => e.1 / 2 ^ 52 = core)).map (fun e => ⟨e.1 % 2 ^ 52, e.2.vd, e.2.use⟩)

/-- A stripe has an open member: its parity line is pinned in its memory-side cache (R317). The members of a new stripe are open until they
have arrived (R323). -/
def State.pinned (s : State) (key : Nat) : Bool :=
  let e := s.damask.prov (key % 2 ^ 34 / 2 ^ 22)
  (2 ^ 34 ≤ key && e.wm < (key % 2 ^ 22 + 1) * max 1 (s.damask.setEnt e.newSet).w)
    || s.l2.any (fun x => x.2.dirty && parKey (s.damask.home (64 * x.1)) = key)

/-- The stack whose memory-side cache holds a line, or a parity line. -/
def State.mscStack (s : State) (line : Nat) : Nat := (s.damask.home (64 * line)).at_.stack
def State.parStack (s : State) (key : Nat) : Nat :=
  let p := key % 2 ^ 34 / 2 ^ 22
  let w := max 1 (s.damask.setEnt ((s.damask.prov p).side (if 2 ^ 34 ≤ key then 0 else 2 ^ 22)).2.1).w
  (s.damask.member p (key % 2 ^ 22 * w) 0).stack

/-- What a memory-side cache may drop: data lines, and parity lines that are not pinned; parity keys stand above 2^40. -/
def State.mscSet (s : State) (stack : Nat) : List Cand :=
  (s.msc.filter (fun e => s.mscStack e.1 = stack)).map (fun e => ⟨e.1, 0, e.2⟩)
    ++ (s.pmsc.filter (fun e => s.parStack e.1 = stack && !s.pinned e.1)).map (fun e => ⟨2 ^ 40 + e.1, 0, e.2⟩)

def State.mscDrop (s : State) (key : Nat) : State :=
  if 2 ^ 40 ≤ key then { s with pmsc := tdel s.pmsc (key - 2 ^ 40) } else { s with msc := tdel s.msc key }

/-- Evict one line from the set of a line of a level, where it holds one that may leave. -/
def State.roomL0 (s : State) (core : Nat) : State :=
  match victim (fun _ => false) (s.l0Set core) with
  | some l => s.l0Drop core l
  | none => s
def State.roomCc (s : State) (cl line : Nat) : State :=
  match victim (s.overClu cl) (s.ccSet cl line) with
  | some l => s.ccDrop cl l
  | none => s
def State.roomL2 (s : State) (line : Nat) : State :=
  match victim s.overL2 (s.sliceSet line) with
  | some l => s.l2Evict l
  | none => s
def State.roomMsc (s : State) (stack : Nat) : State :=
  match victim (fun _ => false) (s.mscSet stack) with
  | some k => s.mscDrop k
  | none => s

/-- A prefetched line that nothing has used is still in flight (R266). -/
def State.fly (s : State) (level holder line : Nat) : State :=
  match level with
  | 0 => (match tfind s.l0 (hkey holder line) with
    | some x => { s with l0 := tput s.l0 (hkey holder line) { x with flight := x.pf.isSome } }
    | none => s)
  | 1 => (match tfind s.cc (hkey holder line) with
    | some x => { s with cc := tput s.cc (hkey holder line) { x with flight := x.pf.isSome } }
    | none => s)
  | _ => (match tfind s.l2 line with
    | some x => { s with l2 := tput s.l2 line { x with flight := x.pf.isSome } }
    | none => s)

/-- What the plan says a cache does now (log entry 12). An evicted update-only copy drains, and an evicted shadow leaves the stored
element (R395, R396). -/
def State.evict (s : State) : Evict → State
  | .l0 c _ => s.roomL0 c
  | .cc c l => s.roomCc c l
  | .l2 l => s.roomL2 l
  | .msc l => s.roomMsc (s.mscStack l)
  | .tlb lv h va => { s with tlb := s.tlb.filter (fun t => !(t.level = lv && t.holder = h && t.va = va)) }
  | .walk d va => { s with walks := s.walks.filter (fun t => !(t.die = d && t.va = va)) }
  | .ucopy c l => s.drainU c l
  | .shadow h pa => { s with shadows := tdel s.shadows (hkey h pa) }
  | .isect c sec => { s with icache := tdel s.icache (hkey c sec) }
  | .stream k l a => s.prefetch k (s.vdOf k) (s.coreOf k) 0 l a
  | .fly lv h l => s.fly lv h l

/-! No cache holds more than its size (R7, R255, R298, R396). -/

/-- An L0 that holds more than its 4,096 lines gives one up. -/
def State.trimL0 (s : State) : State :=
  match (s.l0.map (fun e => e.1 / 2 ^ 52)).find? (fun c => 4096 < (s.l0Set c).length) with
  | some c => s.roomL0 c
  | none => s

/-- A set of a cluster's cache that holds more than its 16 ways, locked ways among them, gives a line up. -/
def State.trimCc (s : State) : State :=
  match s.cc.find? (fun e =>
    let c := e.1 / 2 ^ 52
    let bs := s.cacheBanks c
    let set := Config.cacheSet bs (e.1 % 2 ^ 52)
    ccWays < (s.ccSet c (e.1 % 2 ^ 52)).length
      + (((s.wgs.filter (fun x => clusterOf x.2.core = c)).flatMap (fun x => x.2.locks.map (·.1))).eraseDups.filter (fun l => Config.cacheSet bs l = set)).length) with
  | some e => s.roomCc (e.1 / 2 ^ 52) (e.1 % 2 ^ 52)
  | none => s

/-- A slice that holds more than its 8,192 lines evicts one. -/
def State.trimL2 (s : State) : State :=
  match s.l2.find? (fun e => sliceLines < (s.sliceSet e.1).length) with
  | some e => s.roomL2 e.1
  | none => s

/-- A memory-side cache that holds more than its 786,432 lines drops one. -/
def State.trimMsc (s : State) : State :=
  match (List.range 12).find? (fun st => 786432 < (s.msc.filter (fun e => s.mscStack e.1 = st)).length + (s.pmsc.filter (fun e => s.parStack e.1 = st)).length) with
  | some st => s.roomMsc st
  | none => s

/-- The pinned parity lines of a stack. -/
def State.pins (s : State) (st : Nat) : List Cand :=
  (s.pmsc.filter (fun e => s.parStack e.1 = st && s.pinned e.1)).map (fun e => ⟨e.1, 0, e.2⟩)

/-- The open members of the oldest pinned parity line of a stack are written back (R317). -/
def State.unpin (s : State) (st : Nat) : State :=
  match leastUsed (s.pins st) with
  | some c => ((s.l2.filter (fun e => e.2.dirty && parKey (s.damask.home (64 * e.1)) = c.key)).map (·.1)).foldl (fun s l => s.l2Clean l) s
  | none => s

/-- Where pinned lines exceed 36 MiB of a memory-side cache, open members are written back until they are below 32 MiB (R317). -/
def State.trimPins (s : State) : State :=
  (List.range 12).foldl (fun s st =>
    let n := (s.pins st).length
    if 589824 < n then times (fun s => s.unpin st) (n - 524287) s else s) s

/-- The lines that a residue array has an entry for: its holder's shadows by line (R396). -/
def State.residue (s : State) (holder : Nat) : List Nat :=
  ((s.shadows.filter (fun e => e.1 / 2 ^ 52 = holder)).map (fun e => e.1 % 2 ^ 52 / 2 / 64)).eraseDups

/-- The entries of one residue array as candidates: the last use of a line is that of its copy. -/
def State.residueSet (s : State) (holder : Nat) (ls : List Nat) : List Cand :=
  ls.map (fun l => ⟨l, 0, if holder = 0 then (match tfind s.l2 l with | some x => x.use | none => 0)
    else (match tfind s.cc (hkey (holder - 1) l) with | some x => x.use | none => 0)⟩)

/-- A residue array has one entry for every eight lines of its cache; a full one drains the entry of the least recently used line (R396). -/
def State.trimResidue (s : State) : State :=
  match (s.shadows.map (fun e => e.1 / 2 ^ 52)).find? (fun h => h != 0 && bankLines / 8 * (s.cacheBanks (h - 1)).length < (s.residue h).length) with
  | some h =>
    (match leastUsed (s.residueSet h (s.residue h)) with
    | some c => s.residueDrop h c.key
    | none => s)
  | none =>
    match (s.residue 0).find? (fun l =>
      sliceLines / 8 < ((s.residue 0).filter (fun m => (s.damask.home (64 * m)).at_.slice = (s.damask.home (64 * l)).at_.slice)).length) with
    | some l =>
      (match leastUsed (s.residueSet 0 ((s.residue 0).filter (fun m => (s.damask.home (64 * m)).at_.slice = (s.damask.home (64 * l)).at_.slice))) with
      | some c => s.residueDrop 0 c.key
      | none => s)
    | none => s

/-- An instruction cache of more than 4,096 sectors drops one. -/
def State.trimIc (s : State) : State :=
  let of (c : Nat) : List Cand := (s.icache.filter (fun e => e.1 / 2 ^ 52 = c)).map (fun e => ⟨e.1, 0, e.2.use⟩)
  match (s.icache.map (fun e => e.1 / 2 ^ 52)).find? (fun c => 4096 < (of c).length) with
  | some c =>
    (match leastUsed (of c) with
    | some x => { s with icache := tdel s.icache x.key }
    | none => s)
  | none => s

/-- After a step every cache is back within its size. A table with fewer entries than one cache or set can hold needs nothing. -/
def State.trim (s : State) : State :=
  let s := times State.trimL0 (s.l0.length - 4096) s
  let s := times State.trimCc (s.cc.length - ccWays) s
  let s := times State.trimL2 (s.l2.length - sliceLines) s
  let s := if s.pmsc.length ≤ 524288 then s else s.trimPins
  let s := times State.trimMsc (s.msc.length + s.pmsc.length - 786432) s
  let s := times State.trimResidue (s.shadows.length - sliceLines / 8) s
  times State.trimIc (s.icache.length - 4096) s

/-! Where an access goes. -/

/-- One location of an access. `dev` is device memory with its page's attribute (0 TRACKED, 1 UNTRACKED, 2 SEALED), `host`
host memory, `peer` another package's. -/
inductive Loc where
  | dev (pa attr : Nat) (sealedBuf : Bool) | host (pa : Nat) | peer (p pa : Nat) | scr (off : Nat) | ob (off : Nat)
  deriving DecidableEq, Repr

/-- One piece of an access within one sector: its length and its locations (several for a replicated page, R303). -/
structure Piece where
  len  : Nat
  locs : List Loc
  deriving DecidableEq, Repr

/-- Why a translation does not answer: a cause, or a MIG entry at which the walker waits (R301). -/
inductive XErr where
  | fault (c : Cause) | mig
  deriving DecidableEq, Repr

/-- A translation: the page that holds the address, its frame, permissions and attribute. -/
structure Xl where
  va   : Nat
  size : Nat
  pa   : Nat
  w    : Bool
  x    : Bool
  attr : Nat
  repl : List (Nat × Nat)
  deriving DecidableEq, Repr

/-- Whether the context's partition owns the province of a device physical address; a RETIRED province has no owner
(R248, R321). -/
def State.owned (s : State) (vd pa : Nat) : Bool :=
  let e := s.damask.prov (pa / 2 ^ 28)
  pa < 2560 * 2 ^ 28 && e.st != .retired && e.owner = some (s.vd vd).cfg.partition

/-- The same for every province that a frame of `size` bytes lies in: a 1 GiB frame lies in four (R301). -/
def State.frameOwned (s : State) (vd pa size : Nat) : Bool :=
  (List.range ((size - 1) / 2 ^ 28 + 1)).all (fun i => s.owned vd (pa + 2 ^ 28 * i))

def State.inHeap (s : State) (vd va : Nat) : Bool :=
  let v := s.vd vd
  v.heapBase.toNat ≤ va && va < v.heapBase.toNat + v.heapLimit.toNat

/-- Eight bytes of a page-table node, local or on a peer (R301). The read is a load at the line's home, which counts what update-only
copies of the line hold (R395). -/
def State.nodeEntry (s : State) (peer a : Nat) : W64 :=
  if peer = 0 then w64OfBytes ((s.combine (a / 64)).readMem a 8) else w64OfBytes (readTab s.peerMem (hkey peer a) 8)

def pageSize (level : Nat) (contig : Bool) : Nat :=
  if level = 0 then (if contig then 65536 else 4096) else if level = 1 then 2 ^ 21 else 2 ^ 30

def pteAddr (e : W64) : Nat := (e.extractLsb' 12 45).toNat * 4096

/-- The sixteen entries of a CONTIG group agree and run from a 64 KiB-aligned frame (R300). -/
def State.contigOk (s : State) (peer node va : Nat) : Bool :=
  let base := node + va / 65536 * 16 % 512 * 8
  let e0 := s.nodeEntry peer base
  pteAddr e0 % 65536 = 0 && (List.range 16).all (fun i =>
    let e := s.nodeEntry peer (base + 8 * i)
    e = e0 + BitVec.ofNat 64 (4096 * i))

/-- The replica slots of a record (R303): peer and frame of every valid slot. -/
def State.replicas (s : State) (a : Nat) : List (Nat × Nat) :=
  (List.range 4).filterMap (fun i =>
    let e := s.nodeEntry 0 (a + 8 * i)
    if e.getLsbD 0 then some ((e.extractLsb' 57 6).toNat, pteAddr e) else none)

/-- A walk from the node of `level` at `node` on `peer` (R301). A node of a peer outside the context's partition is not reached (R460). -/
def State.walkFrom (s : State) (vd va : Nat) : Nat → Nat → Nat → Except XErr Xl
  | 0, _, _ => .error (.fault .protection)
  | level + 1, peer, node =>
    if peer != 0 && !(s.vd vd).cfg.peers.contains peer then .error (.fault .protection)
    else if peer != 0 && s.dead.contains (.peer peer) then .error (.fault .contained)
    else
      let e := s.nodeEntry peer (node + va / 2 ^ (12 + 9 * level) % 512 * 8)
      let leaf := e.getLsbD 1
      let contig := e.getLsbD 6
      let size := pageSize level contig
      if !e.getLsbD 0 then .error (.fault .pageFault)
      else if e.getLsbD 10 || e.getLsbD 11 || e.getLsbD 63 || (level = 0 && !leaf) || (3 ≤ level && leaf)
          || (leaf && !e.getLsbD 9 && pteAddr e % pageSize level false != 0)
          || (contig && !(leaf && level = 0)) || (leaf && contig && !s.contigOk peer node va)
          || (leaf && (e.extractLsb' 57 6).toNat != 0) then .error (.fault .protection)
      else if !leaf && e.getLsbD 7 then .error (.fault .walkNode)
      else if e.getLsbD 8 then .error .mig
      else if !leaf then s.walkFrom vd va level (e.extractLsb' 57 6).toNat (pteAddr e)
      else
        let attr := (e.extractLsb' 4 2).toNat
        let x : Xl := { va := va / size * size, size := size, pa := pteAddr e - pteAddr e % (if e.getLsbD 9 then 1 else size),
                        w := e.getLsbD 2, x := e.getLsbD 3, attr := attr, repl := if e.getLsbD 9 then s.replicas (pteAddr e) else [] }
        if e.getLsbD 9 then
          if x.repl.isEmpty || x.repl.any (fun r => r.2 % size != 0)
              || x.repl.any (fun r => r.1 = 0 && attr != 3 && !s.frameOwned vd r.2 size) then .error (.fault .protection)
          else .ok x
        else if attr != 3 && !s.frameOwned vd x.pa size then .error (.fault .protection)
        else .ok x

/-- Where a walk begins: the level of its first node, with the node's peer and address, from the lowest level whose parent the die's walk
cache holds (R298). -/
def State.walkStart (s : State) (core vd va : Nat) : Nat × Nat × Nat :=
  let die := s.dieOf (clusterOf core)
  let hit (lv : Nat) := s.walks.find? (fun t => t.die = die && t.vd = vd && t.level = lv && t.va = va / 2 ^ (12 + 9 * lv))
  match hit 1, hit 2, hit 3, hit 4 with
  | some t, _, _, _ => (1, t.peer, t.node)
  | none, some t, _, _ => (2, t.peer, t.node)
  | none, none, some t, _ => (3, t.peer, t.node)
  | none, none, none, some t => (4, t.peer, t.node)
  | none, none, none, none => (5, 0, (s.vd vd).ptRoot.toNat)

/-- The walk of R301. -/
def State.walk (s : State) (core vd va : Nat) : Except XErr Xl :=
  let b := s.walkStart core vd va
  s.walkFrom vd va b.1 b.2.1 b.2.2

/-- The non-leaf entries that a walk read, for the walk cache (R298). -/
def State.walkEnts (s : State) (die vd va : Nat) : Nat → Nat → Nat → List WalkEnt
  | 0, _, _ => []
  | level + 1, peer, node =>
    let e := s.nodeEntry peer (node + va / 2 ^ (12 + 9 * level) % 512 * 8)
    if e.getLsbD 0 && !e.getLsbD 1 && level != 0 then
      { die := die, vd := vd, level := level, va := va / 2 ^ (12 + 9 * level), node := pteAddr e, peer := (e.extractLsb' 57 6).toNat }
        :: s.walkEnts die vd va level (e.extractLsb' 57 6).toNat (pteAddr e)
    else []

def Tlbe.covers (t : Tlbe) (lv h vd va : Nat) : Bool :=
  t.level = lv && t.holder = h && t.vd = vd && t.va ≤ va && va < t.va + t.size

def Tlbe.xl (t : Tlbe) : Xl := { va := t.va, size := t.size, pa := t.pa, w := t.w, x := t.x, attr := t.attr, repl := t.repl }

/-- The frames that a translation yields lie in provinces of the context's partition (R248, R301). -/
def State.tlbOwned (s : State) (vd : Nat) (t : Tlbe) : Bool :=
  t.attr = 3 || (if t.repl.isEmpty then s.frameOwned vd t.pa t.size else t.repl.all (fun r => r.1 != 0 || s.frameOwned vd r.2 t.size))

/-- The translation of a paged address: core TLB, cluster TLB, then a walk; the owner of its frame is checked each time
(R248, R298). -/
def State.paged (s : State) (core vd va : Nat) : Except XErr Xl :=
  let hit :=
    match s.tlb.find? (fun t => t.covers 0 core vd va) with
    | some t => some t
    | none => s.tlb.find? (fun t => t.covers 1 (clusterOf core) vd va)
  match hit with
  | some t => if s.tlbOwned vd t then .ok t.xl else .error (.fault .protection)
  | none => s.walk core vd va

/-- The leaf bits of a page that no section of the firmware covers: it may be read and written, UNTRACKED (log entry 38). -/
def plainLeaf : Nat := 4 + 16

/-- The translation of a management core: its addresses are device physical addresses, with the attributes that the sections of the
running firmware give their pages (R38; log entry 38). -/
def State.firmXlate (s : State) (va : Nat) : Except XErr Xl :=
  if 2560 * 2 ^ 28 ≤ va then .error (.fault .protection)
  else
    let b := tget plainLeaf s.firmMap (va / 4096)
    .ok { va := va, size := 1, pa := va, w := b.testBit 2, x := b.testBit 3, attr := b / 16 % 4, repl := [] }

/-- The translation of a global address of a context. A management core, numbered from CORES on, belongs to no context. -/
def State.xlate (s : State) (core vd va : Nat) : Except XErr Xl :=
  if 2 ^ 57 ≤ va then .error (.fault .protection)
  else if s.coreCount ≤ core then s.firmXlate va
  else if s.inHeap vd va then
    let pa := va - (s.vd vd).heapBase.toNat + (s.vd vd).heapOffset.toNat
    if s.owned vd pa then .ok { va := va, size := 1, pa := pa, w := true, x := false, attr := 0, repl := [] }
    else .error (.fault .protection)
  else s.paged core vd va

/-- Keep the first n members of a list that `p` picks, and every other. -/
def keepFirst {α : Type} (p : α → Bool) : Nat → List α → List α
  | _, [] => []
  | 0, a :: t => if p a then keepFirst p 0 t else a :: keepFirst p 0 t
  | n + 1, a :: t => a :: (if p a then keepFirst p n t else keepFirst p (n + 1) t)

/-- A translation enters a TLB (R298): 256 entries in a core's, 4,096 in sets of 8 in a cluster's. What has been there longest leaves a
full one (log entry 12). -/
def State.tlbPut (s : State) (t : Tlbe) : State :=
  let l := t :: s.tlb
  if t.level = 0 then { s with tlb := keepFirst (fun x => x.level = 0 && x.holder = t.holder) 256 l }
  else
    let mine (x : Tlbe) : Bool := x.level = 1 && x.holder = t.holder
    if (l.filter mine).length ≤ 8 then { s with tlb := l }
    else { s with tlb := keepFirst mine 4096 (keepFirst (fun x => mine x && Config.tlbSet (x.va / x.size) = Config.tlbSet (t.va / t.size)) 8 l) }

/-- A non-leaf entry enters the walk cache of a die, which holds 64 (R298). -/
def State.walkPut (s : State) (w : WalkEnt) : State :=
  if s.walks.any (fun t => t.die = w.die && t.vd = w.vd && t.level = w.level && t.va = w.va) then s
  else { s with walks := keepFirst (fun t => t.die = w.die) 64 (w :: s.walks) }

/-- The lines of the entries that a walk read, with the record of a replicated page: each is in its L2 slice, combined with its
update-only copies (R301, R395). -/
def State.readNodes (s : State) (vd : Nat) (lines : List Nat) : State := lines.foldl (fun s l => (s.combine l).l2Fill vd l none) s

/-- The local lines that a walk from a node reads. -/
def State.walkLines (s : State) (va : Nat) : Nat → Nat → Nat → List Nat
  | 0, _, _ => []
  | level + 1, peer, node =>
    let a := node + va / 2 ^ (12 + 9 * level) % 512 * 8
    let e := s.nodeEntry peer a
    (if peer = 0 then [a / 64] else [])
      ++ (if e.getLsbD 0 && !e.getLsbD 1 && level != 0 then s.walkLines va level (e.extractLsb' 57 6).toNat (pteAddr e)
          else if e.getLsbD 0 && e.getLsbD 1 && e.getLsbD 9 then [pteAddr e / 64] else [])

/-- After an access: the translations that it used stand in the TLBs, and a walk's nodes in the die's walk cache (R298). -/
def State.noteXlate (s : State) (core vd va : Nat) : State :=
  if s.inHeap vd va || s.coreCount ≤ core then s
  else
    match s.tlb.find? (fun t => t.covers 0 core vd va) with
    | some _ => s
    | none =>
      match s.paged core vd va with
      | .error _ => s
      | .ok x =>
        let ent (lv h : Nat) : Tlbe :=
          { level := lv, holder := h, vd := vd, va := x.va, size := x.size, pa := x.pa, w := x.w, x := x.x, attr := x.attr, repl := x.repl }
        if s.tlb.any (fun t => t.covers 1 (clusterOf core) vd va) then s.tlbPut (ent 0 core)
        else
          let b := s.walkStart core vd va
          let t := s.readNodes vd (s.walkLines va b.1 b.2.1 b.2.2)
          let t := (s.walkEnts (s.dieOf (clusterOf core)) vd va b.1 b.2.1 b.2.2).foldl (fun t w => t.walkPut w) t
          (t.tlbPut (ent 1 (clusterOf core))).tlbPut (ent 0 core)

/-- The sealed buffer of a context that holds an address (R260). -/
def State.sealOf (s : State) (vd va : Nat) : Option Seal :=
  (s.vd vd).seals.find? (fun x => x.va ≤ va && va < x.va + x.len)

/-- The kinds of access. -/
inductive AK where
  | rd | wr | fetch
  deriving DecidableEq, Repr

/-- Whether an agent that a physical location needs has been declared dead (R439). -/
def State.deadLoc (s : State) (vd : Nat) (l : Loc) : Bool :=
  if s.dead.isEmpty then false
  else
    match l with
    | .dev pa _ _ => s.dead.contains (.die ((s.damask.home pa).at_.stack / 4))
    | .host _ => s.dead.contains (.hostLink (vd / 32))
    | .peer p _ => s.dead.contains (.peer p)
    | _ => false

/-- The Twill hops to a peer, 0 for this package. -/
def hopsTo (peer : Nat) : Nat := if peer = 0 then 0 else Config.twillHops peer

/-- The replica with the fewest Twill hops, the lowest slot on ties (R303). -/
def nearest : List (Nat × Nat) → Option (Nat × Nat)
  | [] => none
  | r :: t =>
    match nearest t with
    | none => some r
    | some q => if r.1 != 0 && hopsTo q.1 < hopsTo r.1 then some q else some r

/-- The locations of one sector piece of a global access, or its fault (R276, R301, R460). -/
def State.globalPiece (s : State) (core vd : Nat) (ak : AK) (va len : Nat) : Except XErr Piece :=
  match s.xlate core vd va with
  | .error e => .error e
  | .ok x =>
    let buf := s.sealOf vd va
    if ak = .fetch && !x.x then .error (.fault .protection)
    else if ak = .wr && (buf.isSome || x.attr = 2) then .error (.fault .sealedWrite)
    else if ak = .wr && !x.w then .error (.fault .protection)
    else
      let off := va - x.va
      let sealedBuf := match buf with
        | some b => !b.ending
        | none => false
      let attr := if sealedBuf then 2 else x.attr
      let one (peer frame : Nat) : Loc :=
        if peer != 0 then .peer peer (frame + off) else if x.attr = 3 then .host (frame + off) else .dev (frame + off) attr sealedBuf
      let locs : List Loc := match x.repl with
        | [] => [one 0 x.pa]
        | rs =>
          if ak = .wr then rs.map (fun r => one r.1 r.2)
          else
            match nearest rs with
            | some r => [one r.1 r.2]
            | none => []
      if locs.any (fun l => s.deadLoc vd l) then .error (.fault .contained)
      else if locs.any (fun l => match l with
        | .peer p _ => !(s.vd vd).cfg.peers.contains p
        | _ => false) then .error (.fault .protection)
      else .ok { len := len, locs := locs }

/-- The sector pieces of [a, a + n) (R262). `fuel` bounds their number. -/
def sectors : Nat → Nat → Nat → List (Nat × Nat)
  | 0, _, _ => []
  | fuel + 1, a, n =>
    if n = 0 then []
    else
      let m := min n (32 - a % 32)
      (a, m) :: sectors fuel (a + m) (n - m)

def collectE {α β : Type} (g : α → Except XErr β) : List α → Except XErr (List β)
  | [] => .ok []
  | a :: t =>
    match g a with
    | .error e => .error e
    | .ok b =>
      match collectE g t with
      | .error e => .error e
      | .ok bs => .ok (b :: bs)

/-- A heap address whose province the context's partition does not own (R248): the first check of an access (R276). -/
def State.heapBad (s : State) (core vd va : Nat) : Bool :=
  s.inHeap vd va && core < s.coreCount && (match s.xlate core vd va with
    | .error _ => true
    | .ok _ => false)

/-- An access of a fibre to `n` bytes at address `a` of a space (0 global, 1 scratch, 2 operand buffer) whose address must be
a multiple of `al`: its pieces, or the first fault in the order of R276. -/
def State.resolve (s : State) (k space : Nat) (ak : AK) (al : Nat) (a : W64) (n : Nat) : Except XErr (List Piece) :=
  let w := s.wg (wgOf k)
  let addr := a.toNat
  if space = 0 then
    let ps := sectors (n / 32 + 2) addr n
    if 2 ^ 57 ≤ addr || ps.any (fun p => s.heapBad w.core w.vd p.1) then .error (.fault .protection)
    else if addr % al != 0 then .error (.fault .misaligned)
    else
      match collectE (fun (p : Nat × Nat) => s.globalPiece w.core w.vd ak p.1 p.2) ps with
      | .error e => .error e
      | .ok ps => .ok ps
  else
    let ext := if space = 1 then w.kd.scratch else w.kd.ob
    if ext < addr + n then .error (.fault .protection)
    else if addr % al != 0 then .error (.fault .misaligned)
    else .ok ((sectors (n / 32 + 2) addr n).map (fun p =>
      { len := p.2, locs := [if space = 1 then .scr p.1 else .ob p.1] }))

/-! Performing an access. -/

/-- The issuing agent of an access: core, workgroup (for windows), context and scope code. -/
structure Who where
  core  : Nat
  wg    : Nat
  vd    : Nat
  scope : Nat
  deriving DecidableEq, Repr

def State.who (s : State) (k scope : Nat) : Who := { core := s.coreOf k, wg := wgOf k, vd := s.vdOf k, scope := scope }

/-- A core reads a sector of a line that hardware keeps fresh from the nearest valid copy; its L0 and its cluster's cache hold the
line (R255, R259, R272). -/
def State.touchFresh (s : State) (w : Who) (line sec attr : Nat) : State :=
  let cl := clusterOf w.core
  let c := tget Line.empty s.cc (hkey cl line)
  let z := tget Line.empty s.l0 (hkey w.core line)
  let s :=
    if z.valid.getLsbD sec then s.pfHit z.pf z.flight
    else
      let s := s.pfHit c.pf c.flight
      if c.valid.getLsbD sec then s else s.l2Fill w.vd line none
  let c := (s.holdSector c line sec).used w.vd s.clock
  let z := (s.holdSector z line sec).used w.vd s.clock
  { s with cc := tput s.cc (hkey cl line) { c with sealedCopy := attr = 2 }, l0 := tput s.l0 (hkey w.core line) { z with sealedCopy := attr = 2 } }

/-- A cluster holds a line's sector dirty, hardware keeping it fresh. -/
def State.touchDirty (s : State) (w : Who) (line sec : Nat) : State :=
  let k := hkey (clusterOf w.core) line
  let c := s.holdSector (tget Line.empty s.cc k) line sec
  { s with cc := tput s.cc k { c with vd := w.vd, dirty := c.dirty ||| secBit sec, use := s.clock } }

/-- A read of a TRACKED or SEALED line (R272). One of scope `.die` or wider leaves the cluster's copy clean (R258). -/
def State.readFresh (s : State) (w : Who) (line sec attr : Nat) : State :=
  (if 4 ≤ w.scope then s.writeBack (clusterOf w.core) line else s).touchFresh w line sec attr

/-- The cluster's copy of a sector of an UNTRACKED line, brought there if need be, and used now (R272). -/
def State.readCc (s : State) (w : Who) (line sec : Nat) : Line × State :=
  let cl := clusterOf w.core
  let r := s.plainCopy cl line
  let s := r.2.pfHit r.1.pf r.1.flight
  let s := if r.1.valid.getLsbD sec then s else s.l2Fill w.vd line none
  let c := (s.fillSector r.1 line sec).used w.vd s.clock
  (c, { s with cc := tput s.cc (hkey cl line) c })

/-- The core's L0 copy takes a sector of the cluster's copy. -/
def State.fillL0 (s : State) (w : Who) (line sec : Nat) (c : Line) : State :=
  let z := tget Line.plain s.l0 (hkey w.core line)
  let z := (if z.fresh then { z with fresh := false, valid := 0, bad := 0 } else z).used w.vd s.clock
  let z : Line := { z with valid := z.valid ||| secBit sec, bad := (z.bad &&& ~~~(secBit sec)) ||| (c.bad &&& secBit sec),
                           data := putLine z.data (32 * sec) (c.bytes (32 * sec) 32) }
  { s with l0 := tput s.l0 (hkey w.core line) z }

/-- Read one piece at one location (R258, R272). -/
def State.readLoc (s : State) (w : Who) (l : Loc) (n : Nat) : List Byte × State :=
  match l with
  | .scr o => (readTab (s.wg w.wg).scratch o n, s)
  | .ob o => (readTab (s.wg w.wg).ob o n, s)
  | .host a => (readTab s.hostMem a n, s)
  | .peer p a => (readTab s.peerMem (hkey p a) n, s)
  | .dev pa attr _ =>
    let line := pa / 64
    let sec := sectorBit pa
    let s := s.combine line
    if attr != 1 then
      let s := s.readFresh w line sec attr
      (s.readMem pa n, s)
    else if 4 ≤ w.scope then
      let s := (s.writeBack (clusterOf w.core) line).l2Fill w.vd line none
      (s.readMem pa n, s)
    else
      let z := tget Line.plain s.l0 (hkey w.core line)
      if w.scope ≤ 2 && !z.fresh && z.valid.getLsbD sec then
        let s := { s.pfHit z.pf z.flight with l0 := tput s.l0 (hkey w.core line) (z.used w.vd s.clock) }
        (z.bytes (pa % 64) n, s)
      else
        let r := s.readCc w line sec
        (r.1.bytes (pa % 64) n, if w.scope ≤ 2 then r.2.fillL0 w line sec r.1 else r.2)

/-- A store's write-through of a present L0 copy (R255). -/
def State.l0Update (s : State) (core pa : Nat) (l : List Byte) : State :=
  match tfind s.l0 (hkey core (pa / 64)) with
  | some z =>
    if z.fresh then s
    else { s with l0 := tput s.l0 (hkey core (pa / 64)) { z with data := putLine z.data (pa % 64) l } }
  | none => s

/-- A store to a TRACKED line: the cluster holds the sector dirty, and no reader sees the old data (R259). -/
def State.writeFresh (s : State) (w : Who) (pa : Nat) (bs : List Byte) : State :=
  let line := pa / 64
  let sec := sectorBit pa
  let cl := clusterOf w.core
  let c := tget Line.empty s.cc (hkey cl line)
  let s := s.pfHit c.pf c.flight
  let s := if c.valid.getLsbD sec then s else s.l2Fill w.vd line none
  let c := (s.holdSector c line sec).used w.vd s.clock
  let c : Line := { c with dirty := c.dirty ||| secBit sec, data := if c.fresh then c.data else putLine c.data (pa % 64) bs }
  { s.writeMem pa bs with cc := tput s.cc (hkey cl line) c }

/-- A store at `.die` or wider to an UNTRACKED line: the L2 slice takes it, and a copy in the cluster, which stays clean (R272). -/
def State.writeWide (s : State) (w : Who) (pa : Nat) (bs : List Byte) : State :=
  let line := pa / 64
  let cl := clusterOf w.core
  let s := ((s.writeBack cl line).l2Dirty w.vd line).writeMem pa bs
  let s := match tfind s.cc (hkey cl line) with
    | some c => if c.fresh then s else { s with cc := tput s.cc (hkey cl line) { c with data := putLine c.data (pa % 64) bs } }
    | none => s
  s.l0Update w.core pa bs

/-- A store at `.clu` or narrower to an UNTRACKED line: the cluster cache takes it (R272). -/
def State.writeCc (s : State) (w : Who) (pa : Nat) (bs : List Byte) : State :=
  let line := pa / 64
  let sec := sectorBit pa
  let r := s.readCc w line sec
  let c : Line := { r.1 with dirty := r.1.dirty ||| secBit sec, data := putLine r.1.data (pa % 64) bs }
  ({ r.2 with cc := tput r.2.cc (hkey (clusterOf w.core) line) c }).l0Update w.core pa bs

/-- Write one piece at one location (R272). -/
def State.writeLoc (s : State) (w : Who) (l : Loc) (bs : List Byte) : State :=
  match l with
  | .scr o => s.modWg w.wg (fun x => { x with scratch := writeTab x.scratch o bs })
  | .ob o => s.modWg w.wg (fun x => { x with ob := writeTab x.ob o bs })
  | .host a => { s with hostMem := writeTab s.hostMem a bs }
  | .peer p a => { s with peerMem := writeTab s.peerMem (hkey p a) bs }
  | .dev pa attr _ =>
    let s := (s.combine (pa / 64)).dropShadows pa bs.length
    if attr != 1 then s.writeFresh w pa bs
    else if 4 ≤ w.scope then s.writeWide w pa bs
    else s.writeCc w pa bs

/-- The bytes of an access, piece by piece. -/
def State.readPieces (s : State) (w : Who) : List Piece → List Byte × State
  | [] => ([], s)
  | p :: t =>
    match p.locs with
    | [] => s.readPieces w t
    | l :: _ =>
      let r := s.readLoc w l p.len
      let q := r.2.readPieces w t
      (r.1 ++ q.1, q.2)

def State.writePieces (s : State) (w : Who) : List Piece → List Byte → State
  | [], _ => s
  | p :: t, bs => (p.locs.foldl (fun s l => s.writeLoc w l (bs.take p.len)) s).writePieces w t (bs.drop p.len)

/-- Whether the sector that a read of device memory was served from is poisoned: the copy's poison where a copy of an UNTRACKED line
served it, else the home's (R272, R277). -/
def State.devBad (s : State) (w : Who) (pa attr : Nat) : Bool :=
  let line := pa / 64
  let sec := sectorBit pa
  let z := tget Line.plain s.l0 (hkey w.core line)
  let c := tget Line.plain s.cc (hkey (clusterOf w.core) line)
  if attr != 1 || 4 ≤ w.scope then tget false s.poison (pa / 32)
  else if w.scope ≤ 2 && !z.fresh && z.valid.getLsbD sec then z.bad.getLsbD sec
  else if !c.fresh && c.valid.getLsbD sec then c.bad.getLsbD sec
  else tget false s.poison (pa / 32)

/-- Whether a piece's sector is poisoned (R277, R438). -/
def State.locBad (s : State) (w : Who) (l : Loc) (n : Nat) : Bool :=
  match l with
  | .dev pa attr _ => s.devBad w pa attr
  | .scr o => tget false (s.wg w.wg).scratchBad (o / 32)
  | .ob o => !(s.wg w.wg).obBad.isEmpty && (List.range n).any (fun i => tget false (s.wg w.wg).obBad (o + i))
  | _ => false

def State.piecesBad (s : State) (w : Who) (ps : List Piece) : Bool :=
  ps.any (fun p => match p.locs with
    | l :: _ => s.locBad w l p.len
    | [] => false)

/-- The bytes of device memory, scratch and operand buffer that pieces write. -/
def coverage (ps : List Piece) : List (Loc × Nat) := ps.flatMap (fun p => p.locs.map (fun l => (l, p.len)))

/-- The copies of a sector that a word's stores went through hold no poison any more: its cluster's and its core's. -/
def State.cleanCopies (s : State) (w : Who) (sector : Nat) : State :=
  let line := sector / 2
  let clean (x : Line) : Line := { x with bad := x.bad &&& ~~~(secBit (sector % 2)) }
  let s := match tfind s.cc (hkey (clusterOf w.core) line) with
    | some c => if c.bad = 0 then s else { s with cc := tput s.cc (hkey (clusterOf w.core) line) (clean c) }
    | none => s
  match tfind s.l0 (hkey w.core line) with
  | some z => if z.bad = 0 then s else { s with l0 := tput s.l0 (hkey w.core line) (clean z) }
  | none => s

/-- A word that writes every byte of a poisoned sector ends its poison where it writes: at the home, or in the copy of an UNTRACKED line
that it updates; a sector covered in part keeps it (R277). -/
def State.clearPoison (s : State) (w : Who) (cov : List (Loc × Nat)) : State :=
  let full (f : Loc → Option Nat) (sec : Nat) : Bool :=
    (List.range 32).all (fun i => cov.any (fun c => match f c.1 with
      | some a => a ≤ 32 * sec + i && 32 * sec + i < a + c.2
      | none => false))
  let dev (l : Loc) : Option Nat := match l with | .dev pa _ _ => some pa | _ => none
  let home (l : Loc) : Option Nat := match l with | .dev pa attr _ => if attr != 1 || 4 ≤ w.scope then some pa else none | _ => none
  let s := if s.poison.isEmpty then s else { s with poison := s.poison.filter (fun e => !full home e.1) }
  let s :=
    if s.cc.all (fun e => e.2.bad = 0) && s.l0.all (fun e => e.2.bad = 0) then s
    else (((cov.filterMap (fun c => dev c.1)).map (fun pa => pa / 32)).eraseDups.filter (full dev)).foldl (fun s x => s.cleanCopies w x) s
  let x := s.wg w.wg
  if x.scratchBad.isEmpty && x.obBad.isEmpty then s
  else s.setWg w.wg { x with
    scratchBad := x.scratchBad.filter (fun e => !full (fun l => match l with | .scr o => some o | _ => none) e.1),
    obBad := x.obBad.filter (fun e => !cov.any (fun c => match c.1 with
      | .ob o => o ≤ e.1 && e.1 < o + c.2
      | _ => false)) }

/-- Read of device memory by a home-side agent at `.dev`: an engine, a walker, the placer. -/
def State.readAt (s : State) (w : Who) (ps : List Piece) : List Byte := (s.readPieces w ps).1

/-! Moves of lines under the Damask layer (R321 to R324). -/

/-- A line's value, as the old placement gives it, stands at the new one with correct check bytes: clean copies at the old slice and in
the old memory-side cache are dropped; a dirty one stays open (R323). -/
def State.moveLine (s : State) (line : Nat) : State :=
  let s := s.residueDrop 0 line
  let s := if s.isOpen line then s else { s.dramRead line with l2 := tdel s.l2 line }
  { s with damask := { s.damask with err := tdel s.damask.err line }, msc := tdel s.msc line }

/-- The stripe at the watermark of a province in REBUILDING: its lost member is rebuilt, or copied from the stack that is to retire, into
its SPARE slot (R321, R323). -/
def State.rebuildStripe (s : State) (p : Nat) : State :=
  let e := s.damask.prov p
  let w := max 1 (s.damask.setEnt e.set).w
  match s.damask.goneMember p e.wm with
  | some 0 => { s with parErr := tdel s.parErr (p * 2 ^ 22 + e.wm / w) }
  | some (k + 1) => if e.wm / w * w + k < 2 ^ 22 then s.moveLine (p * 2 ^ 22 + e.wm / w * w + k) else s
  | none => s

/-- The parity lines of a province's new stripes take the place of those of the old ones, which are freed (R321). -/
def State.newParity (s : State) (p : Nat) : State :=
  let mine (k : Nat) : Bool := k % 2 ^ 34 / 2 ^ 22 = p
  let turn {α : Type} (m : Tab α) : Tab α :=
    (m.filter (fun e => mine e.1 && 2 ^ 34 ≤ e.1)).foldl (fun t e => tput t (e.1 - 2 ^ 34) e.2) (m.filter (fun e => !mine e.1))
  { s with pmsc := turn s.pmsc, parErr := turn s.parErr }

/-- End the move at the watermark of a province: the value is what the old placement gives, by the line code or the stripe, and is
poisoned where neither can give it (R319, R322, R323). -/
def State.endMove (s : State) (p : Nat) : State :=
  let e := s.damask.prov p
  let w := max 1 (s.damask.setEnt e.set).w
  if e.st = .rebuilding then
    let s := s.rebuildStripe p
    let d := s.damask.setProv p { s.damask.prov p with wm := min ((e.wm / w + 1) * w) (2 ^ 22), locked := false }
    s.setDamask (if 2 ^ 22 ≤ (e.wm / w + 1) * w then d.leavePhase s.hostRebuild p else d)
  else if e.st = .restriping then
    let s := s.moveLine (p * 2 ^ 22 + e.wm)
    let s := ({ s with damask := s.damask.setProv p { s.damask.prov p with wm := e.wm + 1, locked := false } }).parityUpdate (p * 2 ^ 22 + e.wm)
    if e.wm + 1 = 2 ^ 22 then (s.newParity p).setDamask ((s.damask.restripe p).leavePhase s.hostRebuild p) else s
  else s

/-- An access reaches the home of a line: if the line is locked, it is held until the move ends, is answered MOVED and
replays once; `n` of its lanes count in ATOM_REPLAYS (R322). -/
def State.meetLine (s : State) (vd pa n : Nat) : State :=
  if s.damask.isLocked (pa / 64) then
    (s.endMove (pa / 2 ^ 28)).modVd vd (fun v => { v with atomReplays := v.atomReplays + BitVec.ofNat 64 n })
  else s

end Sys2Proof.Machine
end

