-- ==== Sys2Proof/Machine/Ops.lean ====
section
/-! DEFINITION. The operations that the meanings share: counters, grids and their ends (R128, R135, R436), the frontier
(R158 to R160), register windows (R164 to R169), long-latency words (R67, R162), ephemeral results (R63), TAKING A TRAP and
the return from one (R424 to R429), and what every word does when it ends. -/

namespace Sys2Proof.Machine

/-! Counters (R359, R360). -/

/-- A counter's execution point is reached as a `.dev` access (R393). -/
def Who.home (w : Who) : Who := { w with scope := max 5 w.scope }

/-- Min(a + b, 2^64 − 1) (R360). -/
def satAdd (a b : W64) : W64 := if 2 ^ 64 ≤ a.toNat + b.toNat then BitVec.allOnes 64 else a + b

/-- The value of a counter at its execution point. -/
def State.ctrRead (s : State) (w : Who) (ps : List Piece) : W64 × State :=
  let r := s.readPieces w.home ps
  (w64OfBytes r.1, r.2)

def State.ctrWrite (s : State) (w : Who) (ps : List Piece) (v : W64) : State := s.writePieces w.home ps (leBytes 8 v.toNat)

/-- A piece of a replicated page (R303, R393). -/
def Piece.remote (p : Piece) : Bool := 1 < p.locs.length || p.locs.any (fun l => match l with | .peer _ _ => true | _ => false)

/-- The pieces of a global counter of a context; `none` where it does not translate, is not writable, not aligned or replicated (R360, R393). -/
def State.ctrAt (s : State) (core vd : Nat) (a : W64) : Option (List Piece) :=
  if a.toNat % 8 != 0 then none
  else
    match s.globalPiece core vd .wr a.toNat 8 with
    | .ok p => if p.remote then none else some [p]
    | .error _ => none

/-- An add to a global counter by the device, an engine or the host: the new state and whether it was made. -/
def State.ctrAdd (s : State) (core vd : Nat) (a inc : W64) : Option State :=
  match s.ctrAt core vd a with
  | none => none
  | some ps =>
    let w : Who := { core := core, wg := 0, vd := vd, scope := 7 }
    let s := ps.foldl (fun s p => p.locs.foldl (fun s l => match l with
      | .dev pa _ _ => s.meetLine vd pa 1
      | _ => s) s) s
    let r := s.ctrRead w ps
    some (r.2.ctrWrite w ps (satAdd r.1 inc))

/-- The walk of a counter's address waits at a MIG entry (R301, R302). -/
def State.ctrWaits (s : State) (core vd : Nat) (a : W64) : Bool :=
  a.toNat % 8 = 0 && (match s.globalPiece core vd .wr a.toNat 8 with
    | .error .mig => true
    | _ => false)

/-- A completion add that cannot be made counts in DROPS (R128); one whose walk waits is made once it can be. -/
def State.ctrAddOrDrop (s : State) (core vd : Nat) (a inc : W64) : State :=
  match s.ctrAdd core vd a inc with
  | some t => t
  | none =>
    if s.ctrWaits core vd a then { s with waitAdds := s.waitAdds ++ [⟨core, vd, a, inc⟩] }
    else s.modVd vd (fun v => { v with drops := v.drops + 1 })

/-- The adds that wait for a walk are tried again (R302). -/
def State.retryAdds (s : State) : State := s.waitAdds.foldl (fun s a => s.ctrAddOrDrop a.core a.vd a.addr a.inc) { s with waitAdds := [] }

/-! Grids. A grid's key is 2^32 × virtual device + identifier. -/

def gkey (vd id : Nat) : Nat := 2 ^ 32 * vd + id

def Grid.empty : Grid :=
  { st := .killed, disp := false, desc := 0, kd := KDesc.empty, args := [], gx := 0, gy := 0, gz := 0, threads := 0, prov := 0, conf := 0,
    parent := none, reserve := 0, held := 0, queue := 0, qclass := 0, urgent := false, budget := 0, edef := 0, resvTwill := 0, resvMem := 0, next := 0,
    replay := [], done := 0, provAdded := false, confAdded := false, cores := [], since := [] }

def State.grid (s : State) (g : Nat) : Grid := tget Grid.empty s.grids g
def State.setGrid (s : State) (g : Nat) (x : Grid) : State := { s with grids := tput s.grids g x }
def Grid.total (g : Grid) : Nat := g.gx * g.gy * g.gz

/-- The PROV or CONF add of a grid, at `.sys` (R128); address 0 names no counter. -/
def State.gridAdd (s : State) (g : Nat) (a : W64) : State := if a = 0 then s else s.ctrAddOrDrop 0 (g / 2 ^ 32) a 1

/-- Return a grid's units to the quota (R132, R133). -/
def State.returnUnits (s : State) (g : Nat) : State :=
  s.modVd (g / 2 ^ 32) (fun v => { v with quotaUsed := v.quotaUsed - (s.grid g).held })

/-- Whether an engine command of the grid is still to end (R128). -/
def State.busy (s : State) (g : Nat) : Bool := s.cmds.any (fun e => e.2.grid = g)

/-- Every store of a grid's workgroups is performed at `.sys` (R128, R421): what their clusters hold dirty is written back. -/
def State.flushGrid (s : State) (k : Nat) : State :=
  let cls := (s.wgs.filter (fun e => gkey e.2.vd e.2.grid = k)).map (fun e => clusterOf e.2.core)
  ((s.cc.filter (fun e => e.2.dirty != 0 && cls.contains (e.1 / 2 ^ 52))).map (·.1)).foldl (fun s a => s.writeBack (a / 2 ^ 52) (a % 2 ^ 52)) s

/-- The completion adds of a grid, once its engine commands have ended: PROV when it is PROVISIONAL or KILLED; then CONF when it is
KILLED, or PROVISIONAL with no core left to pass, which makes it CONFIRMED (R128, R440, R450). -/
def State.settleGrid (s : State) (k : Nat) : State :=
  let g := s.grid k
  if g.disp || s.busy k || !(g.st = .provisional || g.st = .killed) then s
  else
    let s := if g.provAdded then s else (s.flushGrid k).gridAdd k g.prov
    let s := s.setGrid k { g with provAdded := true }
    if g.confAdded then s
    else if g.st = .killed then (s.setGrid k { g with provAdded := true, confAdded := true }).gridAdd k g.conf
    else if g.cores.isEmpty && g.replay.isEmpty then
      ((s.setGrid k { g with st := .confirmed, provAdded := true, confAdded := true }).returnUnits k).gridAdd k g.conf
    else s

/-- KILL_CAUSE keeps the first kill after its last read, and raises MSI-X vector 2 (R436, R456). -/
def State.killCause (s : State) (vd code lstatus id : Nat) : State :=
  if (s.vd vd).killCause = 0 then
    (s.modVd vd (fun v => { v with killCause := BitVec.ofNat 64 (code + 32 * lstatus + 2 ^ 32 * id) })).msix vd 2
  else s

/-! Placement: which fibres and slots a workgroup has. -/

def Wg.fibreKeys (w : Nat) (x : Wg) : List Nat :=
  (List.range x.kd.slots).flatMap (fun i => (List.range x.kd.fibres).map (fun f => 64 * w + 4 * i + f))

/-- The bank that a binding names (key 16 × workgroup + queue). -/
def Bank.key (core b : Nat) : Nat := 64 * clusterOf core + b

/-- The entries of the binding table that the fibres of a workgroup hold (R368). -/
def State.bindsOf (s : State) (w : Nat) : Nat := ((s.fibres.filter (fun e => wgOf e.1 = w)).map (fun e => e.2.bound.length)).sum

/-- A fibre that has ended holds its registers until its slot is used again (R20, R27, R436); everything that it waited for is
cancelled. -/
def Fibre.stop (f : Fibre) : Fibre :=
  { f with life := .ended, frontier := [], pend := [], eph := [], move := 0, raised := none, frozen := none, bound := [],
           trap := { f.trap with inh := false, pend := [], aside := [], entry := none } }

/-- What exit and kill have in common (R436): locks, bindings and readout queues end, and pending waits are cancelled. What the
workgroup's registers, scratch and buffers hold stays until they are used again (R27). -/
def State.release (s : State) (w : Nat) (life : WgLife) : State :=
  let x := s.wg w
  let s := s.modVd x.vd (fun v => { v with binds := v.binds - s.bindsOf w })
  let s := s.setWg w { x with life := life, orecs := [], gregs := [], issued := [], readout := [], qbind := [], locks := [], banks := [] }
  { s with fibres := s.fibres.map (fun e => if wgOf e.1 = w then (e.1, e.2.stop) else e),
           slots := s.slots.map (fun e => if e.1 / 16 = w then (e.1, { e.2 with active := false, bars := [] }) else e),
           banks := x.qbind.foldl (fun t q => tput t (Bank.key x.core q.2) { tget (Bank.empty q.2) t (Bank.key x.core q.2) with fifo := [] }) s.banks }

def QEnergy.empty : QEnergy := { fresh := none, used := 0, owed := 0, debt := 0, started := false, meas := 0 }

/-- The measured energy of a workgroup beyond its charge becomes its queue's debt (R142). -/
def State.settleEnergy (s : State) (w : Nat) : State :=
  let x := s.wg w
  let g := s.grid (gkey x.vd x.grid)
  if g.disp then s
  else
    s.modVd x.vd (fun v =>
      let q := tget QEnergy.empty v.energy g.queue
      let debt := if q.fresh.isSome || g.budget = 0 then q.debt else q.debt + (x.measured - x.charge)
      { v with energy := tput v.energy g.queue { q with debt := debt } })

/-- A workgroup's runs on cores have ended: a pass that starts from now on confirms them (R440). -/
def Grid.endRun (g : Grid) (index : Nat) : Grid :=
  { g with cores := g.cores.map (fun c => if c.2.1 = index && c.2.2 = 0 then (c.1, c.2.1, 1) else c) }

/-- Every lane of every fibre has exited: the workgroup ends (R20, R128). One that runs again counts no second time (R450). -/
def State.endWg (s : State) (w : Nat) : State :=
  let x := s.wg w
  let k := gkey x.vd x.grid
  let s := (s.settleEnergy w).release w .ended
  let g := (s.grid k).endRun x.index
  let g := if x.again then g else { g with done := g.done + 1 }
  if g.disp then s.setGrid k { g with st := .killed }
  else if g.done = g.total && g.st != .killed then (s.setGrid k { g with st := .provisional }).settleGrid k
  else s.setGrid k g

/-- Kill a grid (R128, R436): all its workgroups end, and each counter that has not yet advanced takes its add. -/
def State.killGrid (s : State) (k code lstatus : Nat) : State :=
  let g := s.grid k
  if g.st = .killed || g.st = .confirmed then s
  else
    let ws := (s.wgs.filter (fun e => gkey e.2.vd e.2.grid = k && e.2.life != .ended && e.2.life != .killed)).map (·.1)
    let s := ws.foldl (fun s w => (s.settleEnergy w).release w .killed) s
    let s := s.setGrid k { g with st := .killed, cores := [], since := [], replay := [] }
    let s := s.killCause (k / 2 ^ 32) code lstatus (if g.disp then 0 else k % 2 ^ 32)
    if g.disp then s else (s.returnUnits k).settleGrid k

/-- Kill a workgroup, and with it its grid (R436). A dispatcher's containment is CAUSE 30 (R124). -/
def State.killWg (s : State) (w code : Nat) : State :=
  let x := s.wg w
  let k := gkey x.vd x.grid
  s.killGrid k (if (s.grid k).disp && code = 14 then 30 else code) 0

/-! Fetching and the frontier. -/

/-- The key of a physical address in the instruction cache of a fibre's core. -/
def State.ikey (s : State) (k pa : Nat) : Nat := hkey (s.coreOf k) (pa / 32)

/-- The device memory that a fetch reads. -/
def fetchPa : List Piece → Option Nat
  | [p] => (match p.locs with
    | [.dev pa _ _] => some pa
    | _ => none)
  | _ => none

/-- The sector that a fetch finds in the instruction cache. -/
def State.iHit (s : State) (k : Nat) (ps : List Piece) : Option ISect :=
  match fetchPa ps with
  | some pa => tfind s.icache (s.ikey k pa)
  | none => none

/-- The bytes of a header or word at an address, or the fault of its fetch (R38, R87). A sector that the core's instruction cache holds is
read from there, any other from memory as a load at `.clu` would find it: after a write of TEXT a fetch so returns the old bytes or the new
ones, which R49 leaves open (DESIGN CHOICE, log entry 84). -/
def State.fetch (s : State) (k : Nat) (pc : W64) : Except XErr W64 :=
  match s.resolve k 0 .fetch 8 pc 8 with
  | .error e => .error e
  | .ok ps =>
    match s.iHit k ps with
    | some x => .ok (x.data.extractLsb' (8 * (pc.toNat % 32)) 64)
    | none => .ok (w64OfBytes (s.readPieces (s.who k 3) ps).1)

/-- The instruction cache of the core holds the sector fetched from, whole (R7, R49). -/
def State.cacheSect (s : State) (k : Nat) (pc : W64) : State :=
  match s.resolve k 0 .fetch 8 (pc &&& ~~~31) 32 with
  | .error _ => s
  | .ok ps =>
    match fetchPa ps with
    | none => s
    | some pa =>
      let x : ISect := match s.iHit k ps with
        | some x => { x with use := s.clock }
        | none => { data := BitVec.ofNat 256 (leNat (s.readPieces (s.who k 3) ps).1), use := s.clock }
      { s with icache := tput s.icache (s.ikey k pa) x }

/-- The instruction cache of a core is empty: work starts on it afresh (log entry 84). -/
def State.dropIc (s : State) (core : Nat) : State := { s with icache := s.icache.filter (fun e => e.1 / 2 ^ 52 != core) }

/-- An entry at the address of a header takes its BPRI when the header is fetched (R159). -/
def State.peek (s : State) (k : Nat) (e : Entry) : Entry :=
  if e.inside || e.hw != 0 then e
  else
    match s.fetch k e.pc with
    | .ok w => { e with hw := w, bpri := w.extractLsb' 40 8 }
    | .error _ => e

/-- Whether two entries merge (R158): equal PC and FP, and neither waits or both wait at the same point. The entry that is there keeps its
HDR and BPRI (log entry 15). -/
def Entry.merges (a b : Entry) : Bool := a.pc = b.pc && a.fp = b.fp && a.wait = b.wait

/-- Add an entry, merging it with an equal one (R160). An entry with no lane is not added. -/
def addEntry (e : Entry) : List Entry → List Entry
  | [] => if e.mask = 0 then [] else [e]
  | x :: t => if x.merges e then { x with mask := x.mask ||| e.mask } :: t else x :: addEntry e t

/-- Merge what has become equal (R158). -/
def mergeAll (l : List Entry) : List Entry := l.foldl (fun acc e => addEntry e acc) []

/-- R159: the higher BPRI, then the lower PC, then the lower FP. -/
def Entry.beats (a b : Entry) : Bool :=
  if a.bpri != b.bpri then b.bpri < a.bpri
  else if a.pc != b.pc then a.pc < b.pc
  else a.fp < b.fp

/-- The entry to select among those that do not wait (R159). -/
def bestEntry : List Entry → Option Entry
  | [] => none
  | e :: t =>
    match bestEntry t with
    | none => if e.wait = .none then some e else none
    | some b => if e.wait = .none && e.beats b then some e else some b

/-- Select an entry: it becomes the head of the frontier (R159). -/
def State.select (s : State) (k : Nat) : State :=
  let f := s.fib k
  let fr := mergeAll (f.frontier.map (fun e => s.peek k e))
  match bestEntry fr with
  | none => s.setFib k { f with frontier := fr }
  | some b => s.setFib k { f with frontier := b :: fr.filter (fun e => e != b) }

/-- The index of the word at an entry's PC in its clause (R58). -/
def Entry.index (e : Entry) : Nat := ((e.pc - e.hdr).toNat / 8) - 1

def Entry.cnt (e : Entry) : Nat := (e.hw.extractLsb' 56 4).toNat

/-- The entry at Next (R160): the following word of the clause, or the next clause header. -/
def Entry.next (e : Entry) : Entry :=
  if e.index = e.cnt then { e with pc := e.pc + 8, inside := false, hw := 0, bpri := 0 } else { e with pc := e.pc + 8 }

/-- Whether a word of a class sits in a ctl position: a selection follows it (R159). -/
def Entry.atCtl (e : Entry) : Bool := (Hdr.ofWord e.hw).wordCls e.index = .ctl

/-- The entry for a transfer to `pc` (R78: a target is a header). -/
def Entry.jump (e : Entry) (pc : W64) (fp : Nat) (mask : LaneMask) : Entry :=
  { e with pc := pc, hdr := pc, hw := 0, inside := false, bpri := 0, fp := fp, mask := mask, wait := .none }

/-! Long-latency words and ephemeral windows. -/

def Pending.isCwait (p : Pending) : Bool :=
  match p.kind with
  | .cwait _ => true
  | _ => false

/-- A word that only an engine, or the end of its readers, can perform: a push that is not accepted, an `unseal` (R288, R292, R373). -/
def Pending.unperformed (p : Pending) : Bool :=
  !p.ready && (match p.kind with
    | .unseal _ => true
    | .push _ => true
    | _ => false)

def Pending.isFence (p : Pending) : Bool :=
  match p.kind with
  | .fence _ => true
  | _ => false

/-- The condition of a `.rel` fence holds once no word before it is unperformed (R292). -/
def openFences (blocked : Bool) : List Pending → List Pending
  | [] => []
  | p :: t => (if p.isFence && !blocked then { p with ready := true } else p) :: openFences (blocked || p.unperformed) t

/-- An earlier word of the fibre is not performed yet, so that a release must wait (R287, R292, R362). -/
def State.relBlocked (s : State) (k : Nat) : Bool := (s.fib k).pend.any (fun p => p.unperformed)

/-- The pending words that `p` names, of every fibre, can complete, and the fences that waited for them. -/
def State.perform (s : State) (p : Nat → Pending → Bool) : State :=
  { s with fibres := s.fibres.map (fun e =>
    if e.2.pend.any (p e.1) then (e.1, { e.2 with pend := openFences false (e.2.pend.map (fun x => if p e.1 x then { x with ready := true } else x)) }) else e) }

/-- A token is held by a pending word (R67). -/
def Fibre.held (f : Fibre) (t : Nat) : Bool := f.pend.any (fun p => p.tok = some t)

/-- One more word of the fibre has issued: implicit waits come nearer (R162). -/
def Fibre.countWord (f : Fibre) : Fibre :=
  { f with pend := f.pend.map (fun p => match p.la with
    | some n => { p with la := some (n - 1) }
    | none => p) }

/-- The fibre's next word must wait for a pending word (R162). -/
def Fibre.mustWait (f : Fibre) : Bool := f.pend.any (fun p => p.la = some 0)

/-- Wake what waits for tokens or for all words (R62, R178). -/
def State.wake (s : State) (k : Nat) : State :=
  s.modFib k (fun f =>
    let tokens (m : BitVec 8) : Bool := (List.range 8).any (fun t => m.getLsbD t && f.held t)
    { f with frontier := f.frontier.map (fun e => match e.wait with
      | .tok m => if tokens m then e else { e with wait := .none }
      | .wtok m => if tokens m then e else { e with wait := .none }
      | .all => if f.pend.isEmpty then { e with wait := .none } else e
      | _ => e) })

/-- A pending word has completed: where the wait of an entry ends, the fibre selects again (R159). -/
def State.rouse (s : State) (k : Nat) : State :=
  let t := s.wake k
  if (t.fib k).frontier = (s.fib k).frontier then s else t.select k

/-- Whether the register that an old value of a window belongs to is in its place: a frame register may have been moved out of the stack
since (R164). -/
def State.inPlace (s : State) (k : Nat) (w : EphWin) (r : RegWrite) : Bool :=
  let x := s.wg (wgOf k)
  match r with
  | .stk e _ _ =>
    if 256 - x.sh ≤ e then true
    else
      let d := max 1 x.depth
      let n := w.lo + (e + d - (fibIdx k * d + w.lo) % d) % d
      (s.fib k).lo ≤ n && n < (s.fib k).lo + d
  | _ => true

/-- Writes supersede both values of open windows for their registers (R63). -/
def State.supersede (s : State) (k : Nat) (rs : List RegWrite) : State :=
  if (s.fib k).eph.isEmpty then s
  else s.modFib k (fun f => { f with eph := f.eph.map (fun w =>
    { w with old := w.old.filter (fun o => !(s.inPlace k w o && rs.any (fun r => r.reg = o.reg))) }) })

/-- A write of p(d) in the lanes of `m` does the same. -/
def State.supersedePred (s : State) (k d : Nat) (m : LaneMask) : State :=
  if (s.fib k).eph.isEmpty then s
  else s.modFib k (fun f => { f with eph := f.eph.map (fun w =>
    { w with pold := w.pold.map (fun p => if p.1 = d % 8 then (p.1, p.2.1 &&& ~~~m, p.2.2) else p) }) })

/-- The window of an ephemeral result ends: each register that is in its place keeps its old or its new value (R63; log entry 6). -/
def State.endWindow (s : State) (k : Nat) (w : EphWin) : State :=
  let s := (w.old.filter (s.inPlace k w)).foldl (fun s r => let c := s.takeBit
                                                            if c.1 then c.2.regWrite k r else c.2) s
  w.pold.foldl (fun s p => let c := s.takeBit
                           if c.1 then c.2.modFib k (fun f => f.setPreg p.1 p.2.1 p.2.2) else c.2) s

/-- What is left of an ended window: registers whose entries have been moved out. -/
def State.leftOver (s : State) (k : Nat) (w : EphWin) : Option EphWin :=
  match w.old.filter (fun r => !s.inPlace k w r) with
  | [] => none
  | l => some { w with left := 0, old := l, pold := [] }

/-- The windows that `p` names end. -/
def State.closeWindows (s : State) (k : Nat) (p : EphWin → Bool) : State :=
  let ws := (s.fib k).eph
  if ws.isEmpty then s
  else
    let t := s.modFib k (fun f => { f with eph := ws.filter (fun w => !p w) ++ (ws.filter p).filterMap (s.leftOver k) })
    (ws.filter p).foldl (fun t w => t.endWindow k w) t

def State.endWindows (s : State) (k : Nat) : State := s.closeWindows k (fun _ => true)

/-- Windows whose words are spent end. -/
def State.closeSpent (s : State) (k : Nat) : State := s.closeWindows k (fun w => w.left = 0)

/-- One more word of its clause has executed: windows of the clause run down, and those that are spent end. Words of another clause do not
count (R63). -/
def State.countWindows (s : State) (k : Nat) : State :=
  let e := (s.fib k).entry
  if (s.fib k).eph.isEmpty then s
  else (s.modFib k (fun f => { f with eph := f.eph.map (fun w => if e.inside && w.hdr = e.hdr then { w with left := w.left - 1 } else w) })).closeSpent k

/-- A clause that no entry of the frontier stands in any more has ended, and its windows with it (R63). -/
def State.leaveClauses (s : State) (k : Nat) : State :=
  s.closeWindows k (fun w => w.left = 0 || !(s.fib k).frontier.any (fun e => e.inside && e.hdr = w.hdr))

/-- Write the destinations of a pending word. A poisoned load writes none and is a trap to take (R277). -/
def State.deliver (s : State) (k : Nat) (p : Pending) : State :=
  match p.poison with
  | none => (s.supersede k p.wr).regWrites k p.wr
  | some (lane, addr) =>
    s.modFib k (fun f =>
      let t : TrapInfo := { cause := .poison, lane := lane, addr := addr, code := 0, pc := p.pc, resume := 0 }
      match f.raised with
      | some x => if x.cause = Cause.poison then f else { f with raised := some t }
      | none => { f with raised := some t })

/-- A frozen fibre makes no write of the shared window until it resumes (R25, R435). -/
def State.heldBack (s : State) (k : Nat) (p : Pending) : Bool :=
  (s.fib k).frozen.isSome && p.wr.any (fun r => match r with
    | .stk e _ _ => decide (256 - (s.wg (wgOf k)).sh ≤ e)
    | _ => false)

/-- A pending word that nothing but time holds back. -/
def State.completes (s : State) (k : Nat) (p : Pending) : Bool := p.ready && !s.heldBack k p

/-- Complete the pending word at an index (R67, R275). -/
def State.completeAt (s : State) (k i : Nat) : State :=
  match (s.fib k).pend[i]? with
  | none => s
  | some p => (s.modFib k (fun f => { f with pend := f.pend.eraseIdx i })).deliver k p

/-- Complete every pending word that nothing but time holds back, oldest first; the waits for them end. The caller selects. -/
def State.completeReady (s : State) (k : Nat) : State :=
  let ps := (s.fib k).pend
  if ps.isEmpty then s
  else
    let t := s.modFib k (fun f => { f with pend := f.pend.filter (fun p => !s.completes k p) })
    ((ps.filter (fun p => s.completes k p)).foldl (fun s p => s.deliver k p) t).wake k

/-! Traps. -/

def Cause.code : Cause → Nat
  | .illegalClass => 1 | .illegalOpcode => 2 | .illegalEncoding => 3 | .privilege => 4 | .misaligned => 5
  | .pageFault => 6 | .walkNode => 7 | .protection => 8 | .sealedWrite => 9 | .poison => 10 | .spill => 11 | .fill => 12
  | .dmrMismatch => 13 | .contained => 14 | .unitAbsent => 15 | .breakpoint => 16 | .userTrap => 17 | .watchdog => 18

/-- Whether an entry of a trapped fibre resumes inside its clause: `pc` is a word of it. -/
def Entry.resumeAt (e : Entry) (pc : W64) : Entry :=
  if e.inside && e.hdr < pc && pc.toNat ≤ e.hdr.toNat + 8 * (e.cnt + 1) then { e with pc := pc }
  else { e with pc := pc, inside := false, hw := 0, bpri := 0 }

/-- TAKING A TRAP (R427): the fibre's long-latency words have completed, pending `cwait` words apart; with INH set or no
TRAPVEC the workgroup is killed; otherwise the frame is filled, s28 to s31 are saved, the frontier is set aside and the
fibre enters its handler with the faulting entry's lanes. -/
def State.takeTrap (s : State) (k : Nat) (t : TrapInfo) : State :=
  let s := (s.completeReady k).endWindows k
  let f := s.fib k
  let e := f.entry
  let t := match f.raised with
    | some p => if p.cause = Cause.poison || p.cause = Cause.watchdog then { p with resume := e.pc } else p
    | none => t
  let tv := (s.wg (wgOf k)).kd.trapvec
  if f.trap.inh || tv = 0 then s.killWg (wgOf k) t.cause.code
  else
    let fr : Frame :=
      { cause := BitVec.ofNat 5 t.cause.code, inh := true, lane := BitVec.ofNat 5 t.lane, code := t.code, pc := t.pc,
        resume := t.resume, addr := t.addr, mask := e.mask, fp := e.fp, bpri := e.bpri,
        save := [(0, f.sreg 28), (1, f.sreg 29), (2, f.sreg 30), (3, f.sreg 31)],
        entryResume := t.resume, entry := some (e.resumeAt t.resume), aside := f.frontier.drop 1, pend := f.pend }
    let s := s.setFib k { f with trap := fr, raised := none, frozen := none, pend := [],
                                 move := if t.cause = .spill || t.cause = .fill then f.move else 0,
                                 frontier := [e.jump tv e.fp e.mask],
                                 wdFrom := if t.cause = .watchdog then s.clock else f.wdFrom }
    s.select k

/-- Raise a trap: it is taken at once unless a word that only another agent can complete is still pending; then TRAP_TAKE
takes it (R427). -/
def State.raise (s : State) (k : Nat) (t : TrapInfo) : State :=
  if (s.fib k).pend.all (fun p => p.ready || p.isCwait) then s.takeTrap k t
  else s.modFib k (fun f => { f with raised := match f.raised with
    | some x => some x
    | none => some t })

/-- A precise trap at the selected entry's word or header (R88): it resumes there. -/
def State.trapHere (s : State) (k : Nat) (c : Cause) (lane : Nat) (addr : W64) (code : BitVec 16) : State :=
  let pc := (s.fib k).entry.pc
  s.raise k { cause := c, lane := lane, addr := addr, code := code, pc := pc, resume := pc }

/-- A page fault or an unresolved node freezes the fibre at the word (R430); any other fault of an access is a trap. -/
def State.accessFault (s : State) (k : Nat) (e : XErr) (lane : Nat) (addr : W64) (write : Bool) : State :=
  match e with
  | .mig => s
  | .fault c =>
    if c = .pageFault || c = .walkNode then
      (s.modFib k (fun f => { f with frozen := some { pages := [addr.toNat / 4096], cause := c, lane := lane, addr := addr, write := write } })).pageRequest (s.vdOf k)
    else s.trapHere k c lane addr (if write then 1 else 0)

/-- A fetch faults (R87, R426): it has no data address, so TRAP_ADDR is 0. -/
def State.fetchFault (s : State) (k : Nat) (e : XErr) (pc : W64) : State :=
  match e with
  | .mig => s
  | .fault c =>
    if c = .pageFault || c = .walkNode then
      (s.modFib k (fun f => { f with frozen := some { pages := [pc.toNat / 4096], cause := c, lane := 0, addr := 0, write := false } })).pageRequest (s.vdOf k)
    else s.trapHere k c 0 0 0

/-! Register windows (R164 to R169). -/

/-- Where chunk c of a fibre is moved in hardware mode (R166). -/
def State.spillBase (s : State) (k c : Nat) : W64 :=
  let kd := (s.wg (wgOf k)).kd
  kd.spill + BitVec.ofNat 64 (kd.spillStride * (4 * (s.slot (slotOf k)).spillIdx + fibIdx k) + 1024 * c)

/-- The 1,024 bytes of chunk c (R166). -/
def State.chunkBytes (s : State) (k c : Nat) : List Byte :=
  let d := max 1 (s.wg (wgOf k)).depth
  (List.range 8).flatMap (fun j => lanes.flatMap (fun l =>
    leBytes 4 (tget 0 (s.slot (slotOf k)).stack (32 * (fibIdx k * d + (8 * c + j) % d) + l)).toNat))

def putChunk (d fib c : Nat) : List Nat → Tab W32 → List Byte → Tab W32
  | [], t, _ => t
  | i :: is, t, bs =>
    putChunk d fib c is (tset 0 t (32 * (fib * d + (8 * c + i / 32) % d) + i % 32) (BitVec.ofNat 32 (leNat (bs.take 4)))) (bs.drop 4)

/-- Move a chunk out to `a`, or in from it, as weak accesses of scope `.fib` (R166). -/
def State.moveChunk (s : State) (k c : Nat) (out : Bool) (a : W64) : Except XErr State :=
  match s.resolve k 0 (if out then .wr else .rd) 1 a 1024 with
  | .error e => .error e
  | .ok ps =>
    if out then .ok (s.writePieces (s.who k 0) ps (s.chunkBytes k c))
    else
      let r := s.readPieces (s.who k 0) ps
      let d := max 1 (s.wg (wgOf k)).depth
      let inChunk (e : Nat) : Bool := (List.range 8).any (fun j => e / 32 = fibIdx k * d + (8 * c + j) % d)
      .ok (r.2.modSlot (slotOf k) (fun x => { x with stack := putChunk d (fibIdx k) c (List.range 256) x.stack r.1,
                                                     stackBad := x.stackBad.filter (fun e => !inChunk e.1) }))

/-- The move that makes the frame at `fp` resident next (R165): 0 none, 1 out of chunk LO/8, 2 out of the top chunk, 3 in. The frames of the
entries of `fr` are not lost. -/
def State.nextMove (s : State) (k fp : Nat) (fr : List Entry) : Nat :=
  let w := s.wg (wgOf k)
  let f := s.fib k
  if f.lo + w.depth < fp + (64 - w.sh) then 1
  else if fp < f.lo then
    let c := (f.lo + w.depth) / 8 - 1
    if !f.saved && fr.any (fun e => e.fp < 8 * c + 8 && 8 * c < e.fp + (64 - w.sh)) then 2 else 3
  else 0

/-- The chunk of a move. -/
def State.moveOf (s : State) (k n : Nat) : Nat :=
  let f := s.fib k
  if n = 1 then f.lo / 8 else if n = 2 then (f.lo + (s.wg (wgOf k)).depth) / 8 - 1 else f.lo / 8 - 1

/-- LO and Saved after a move (R165, R169). -/
def Fibre.moved (f : Fibre) (n : Nat) : Fibre :=
  if n = 1 then { f with lo := f.lo + 8, saved := false, move := 0 }
  else if n = 2 then { f with saved := true, move := 0 }
  else { f with lo := f.lo - 8, saved := false, move := 0 }

/-- A move has been made: LO and Saved follow, and windows that ended while an entry was out end for it (R63). -/
def State.didMove (s : State) (k n : Nat) : State := (s.modFib k (fun f => f.moved n)).closeSpent k

/-- The first lane, and its address, of an image of a chunk whose bytes are poisoned (R277); lane l of each entry stands in sector l / 8. -/
def State.chunkBad (s : State) (k : Nat) (a : W64) : Option (Nat × W64) :=
  match s.resolve k 0 .rd 1 a 1024 with
  | .error _ => none
  | .ok ps => (ps.findIdx? (fun p => s.piecesBad (s.who k 0) [p])).map (fun i => (8 * (i % 4), a + BitVec.ofNat 64 (32 * i)))

/-- What making a frame resident came to. -/
inductive Res where
  | done (s : State) | stopped (s : State)

/-- Make the frame at `fp` resident before the selected entry's word (R165 to R167). While the fibre is in its handler no
move is made (R427). Words that are pending write their results into their own entries before those move (R164). -/
def State.resident (s : State) (k fp : Nat) (fr : List Entry) : Nat → Res
  | 0 => .done s
  | fuel + 1 =>
    let f := s.fib k
    let w := s.wg (wgOf k)
    let n := if f.trap.inh then 0 else s.nextMove k fp fr
    if n = 0 then .done s
    else
      let c := s.moveOf k n
      if 2 ^ 24 < fp + (64 - w.sh) then .stopped (s.trapHere k .spill 0 0 1)
      else if w.kd.flags.getLsbD 2 then
        .stopped ((s.modFib k (fun f => { f with move := n, moveFp := fp })).trapHere k (if n = 3 then .fill else .spill) 0 0 0)
      else if w.kd.spillStride < 1024 * (c + 1) then .stopped (s.trapHere k .spill 0 0 1)
      else
        let fr' := (s.fib k).frontier
        let s := s.completeReady k
        if (s.fib k).raised.isSome then .stopped s
        else if (s.fib k).frontier != fr' then .stopped (s.select k)
        else if (s.vd w.vd).funcMode.getLsbD 1 then .stopped (s.modFib k (fun f => { f with move := n, moveFp := fp }))
        else
          match (if n = 3 then s.chunkBad k (s.spillBase k c) else none), s.moveChunk k c (n != 3) (s.spillBase k c) with
          | some (l, a), _ => .stopped (s.trapHere k .poison l a 0)
          | none, .error e => .stopped (s.accessFault k e 0 (s.spillBase k c) (n != 3))
          | none, .ok t => (t.didMove k n).resident k fp fr fuel

/-- Moves of the fibre's chunks are made outside the word, by a handler or the host (R166, R167). -/
def State.movesOutside (s : State) (k : Nat) : Bool :=
  (s.wg (wgOf k)).kd.flags.getLsbD 2 || (s.vd (s.vdOf k)).funcMode.getLsbD 1

/-- Enough rounds to move any frame of 24 bits: two moves a chunk. -/
def State.resFuel (s : State) (k fp : Nat) : Nat := (fp + (s.fib k).lo + 320) / 4

/-! Ending a word. -/

/-- Lanes leave the fibre (R17, R18, R177): they are removed from every entry, those set aside included, with the helper
lanes of quads whose launched lanes have all exited. -/
def State.exitLanes (s : State) (k : Nat) (m : LaneMask) : State :=
  s.modFib k (fun f =>
    let ex := f.exited ||| m
    let left := f.launched &&& ~~~ex
    let ex := ex ||| (f.helper &&& ~~~(quadsOf left))
    let cut (l : List Entry) : List Entry := (l.map (fun e => { e with mask := e.mask &&& ~~~ex })).filter (fun e => e.mask != 0)
    { f with exited := ex, frontier := cut f.frontier, trap := { f.trap with aside := cut f.trap.aside } })

/-- Whether the fibre at index f counts as exited for its siblings: never started or ended (R20). -/
def State.fibreDone (s : State) (k : Nat) : Bool := (s.fib k).life != .running

/-- The fibres of a mask meet at a common `fbar` (R25): each of them now sees one of the writes that any of them sees, and which
one is not defined. `n` chooses among several. -/
def Race.meet (r : Race) (among n : Nat) : Race :=
  let mine := r.ws.filter (fun w => w.2 &&& among != 0)
  match mine with
  | [] => r
  | a :: t =>
    let w := mine.getD (n % mine.length) a
    { olds := r.olds ++ (mine.eraseIdx (n % mine.length)).map (·.1),
      ws := (w.1, t.foldl (fun m x => m ||| x.2) (a.2 ||| among)) :: r.ws.filter (fun w => w.2 &&& among = 0) }

/-- Order the writes of one shared entry among the fibres of a mask. An entry whose one write every fibre sees has no record any more. -/
def State.orderAt (s : State) (slot among q : Nat) : State :=
  match tfind (s.slot slot).races q with
  | none => s
  | some r =>
    let all := 2 ^ (s.wg (slot / 16)).kd.fibres - 1
    let c := if 1 < (r.ws.filter (fun w => w.2 &&& among != 0)).length then s.takeW32 else (0, s)
    let r := r.meet among c.1.toNat
    c.2.modSlot slot (fun x => match r.ws with
      | [w] => if w.2 &&& all = all then { x with stack := tset 0 x.stack q w.1, races := tdel x.races q } else { x with races := tput x.races q r }
      | _ => { x with races := tput x.races q r })

/-- The same for the whole window of a slot. -/
def State.order (s : State) (slot among : Nat) : State :=
  ((s.slot slot).races.map (·.1)).foldl (fun s q => s.orderAt slot among q) s

/-- Release the entries that wait at a completed barrier (R179), those that a trap has set aside among them. -/
def State.openBar (s : State) (slot id : Nat) : State :=
  let among := match tfind (s.slot slot).bars id with
    | some b => b.mask.toNat
    | none => 0
  let s := s.order slot among
  let s := s.modSlot slot (fun x => { x with bars := tdel x.bars id })
  (List.range 4).foldl (fun s i =>
    let f := s.fib (4 * slot + i)
    let free (l : List Entry) : List Entry := l.map (fun e => if e.wait = .fbar id then { e with wait := .none } else e)
    if f.frontier.any (fun e => e.wait = .fbar id) then
      (s.setFib (4 * slot + i) { f with frontier := free f.frontier, trap := { f.trap with aside := free f.trap.aside } }).select (4 * slot + i)
    else if f.trap.aside.any (fun e => e.wait = .fbar id) then
      s.setFib (4 * slot + i) { f with trap := { f.trap with aside := free f.trap.aside } }
    else s) s

/-- A barrier completes when every fibre of its mask has arrived or exited (R179). -/
def State.checkBar (s : State) (slot id : Nat) : State :=
  match tfind (s.slot slot).bars id with
  | none => s
  | some b =>
    if (List.range 4).all (fun i => !b.mask.getLsbD i || b.arrived.getLsbD i || s.fibreDone (4 * slot + i))
    then s.openBar slot id else s

def GReg.empty : GReg := { gang := none, signs := [], base := 0, sigs := [] }

/-- Gang (m, f) of a fibre, as one number (R21). -/
def gangOf (k : Nat) : Nat := 4 * (slotIdx k / 4) + fibIdx k

/-- The word of a signature completes. -/
def State.signed (s : State) (w g : Nat) (x : Sig) : State :=
  s.modFib x.fib (fun f => { f with pend := f.pend.map (fun p => if p.kind = .mma w g x.op then { p with ready := true } else p) })

/-- The signatures that wait on a gang's convergence registers complete with no effect when a fibre of it exits (R334). -/
def State.dropSigs (s : State) (k : Nat) : State :=
  let w := wgOf k
  (List.range 8).foldl (fun s i =>
    let g := tget GReg.empty (s.wg w).gregs i
    if g.gang = some (gangOf k) then
      g.sigs.foldl (fun s x => s.signed w i x) (s.modWg w (fun x => { x with gregs := tput x.gregs i { g with sigs := [] } }))
    else s) s

/-- A fibre with no launched lane left ends (R20); its barriers and bindings see it; its workgroup ends with its last fibre. -/
def State.endFibre (s : State) (k : Nat) : State :=
  let f := s.fib k
  if f.launched &&& ~~~f.exited != 0 then s
  else
    let s := s.endWindows k
    let v := s.vdOf k
    let n := (s.fib k).bound.length
    let s := s.modFib k Fibre.stop
    let s := s.modVd v (fun x => { x with binds := x.binds - n })
    let s := ((List.range 4).foldl (fun s id => s.checkBar (slotOf k) id) s).dropSigs k
    let w := wgOf k
    if ((s.wg w).fibreKeys w).all (fun j => s.fibreDone j) then s.endWg w else s

/-- A word that transfers no control is done: it has counted, and the entry stands at Next; a selection follows a control word
and a clause's last word (R159, R160). -/
def State.advance (s : State) (k : Nat) : State :=
  let f := s.fib k
  let e := f.entry
  let n := e.next
  let t := s.setFib k { f with frontier := mergeAll (n :: f.frontier.drop 1) }
  if n.inside && !e.atCtl then t else (t.select k).leaveClauses k

/-- Count the word for windows and lookahead, in the order: earlier pending words and windows first. -/
def State.counted (s : State) (k : Nat) : State := (s.modFib k Fibre.countWord).countWindows k

/-- The results of the entry's word are ephemeral (R63). -/
def Entry.isEph (e : Entry) : Bool := e.inside && (Hdr.ofWord e.hw).eph.getLsbD e.index

/-- Finish a fixed-latency word that writes `ws`: its results, ephemeral ones with their window (R63), then Next. `pold` gives what predicates
that it has written held before. Where a second ephemeral write falls inside the window of a first to the same register, the register ends
with the first's value or the second's (DESIGN CHOICE, log entry 6). -/
def State.finishWith (s : State) (k : Nat) (ws : List RegWrite) (pold : List (Nat × LaneMask × LaneMask)) : State :=
  let e := (s.fib k).entry
  let s := s.counted k
  let old := ws.map (fun w => s.regNow k w)
  let s := s.supersede k ws
  let s := if e.isEph then s.modFib k (fun f => { f with eph := f.eph ++ [{ hdr := e.hdr, left := 8, lo := f.lo, old := old, pold := pold }] }) else s
  (s.regWrites k ws).advance k

def State.finish (s : State) (k : Nat) (ws : List RegWrite) : State := s.finishWith k ws []

/-- Finish a long-latency word: it becomes pending with its LA or token (R67), and Next issues. -/
def State.issue (s : State) (k : Nat) (h : Head) (p : Pending) : State :=
  let e := (s.fib k).entry
  let s := s.counted k
  let p := if h.la = 15 then { p with la := none, tok := some h.tok.toNat } else { p with la := some h.la.toNat, tok := none }
  (s.modFib k (fun f => { f with pend := f.pend ++ [{ p with pc := e.pc }] })).advance k

/-- A pending word of a kind whose results are `ws`. -/
def mkPend (kind : PKind) (ws : List RegWrite) (ready : Bool) (poison : Option (Nat × W64)) : Pending :=
  { la := none, tok := none, kind := kind, wr := ws, ready := ready, poison := poison, obOld := [], pc := 0 }

/-- A predicate that holds an uncorrectable soft error (R438). -/
def State.pBadSrc (s : State) (k i : Nat) : Bool := i % 8 != 7 && tget false (s.fib k).pBad (i % 8)

/-- The lanes where the guard holds (R66). A guard that holds an uncorrectable soft error skips no word: it acts in every active
lane, and raises POISON (R438). -/
def State.guard (s : State) (k : Nat) (gn : Bool) (gp : BitVec 3) : LaneMask :=
  let f := s.fib k
  let p := f.preg gp.toNat
  if s.pBadSrc k gp.toNat then f.entry.mask else f.entry.mask &&& (if gn then ~~~p else p)

/-- The acting lanes of a word with the common head (R202). -/
def State.acts (s : State) (k : Nat) (h : Head) : LaneMask := s.guard k h.gn h.gp

/-- Every acting lane is a helper lane (R66). -/
def State.onlyHelpers (s : State) (k : Nat) (m : LaneMask) : Bool := m &&& ~~~(s.fib k).helper = 0

/-- A word below the level that its entry states takes PRIVILEGE (R31). -/
def State.atLeast (s : State) (k : Nat) (p : Priv) : Bool := p.code ≤ (s.fib k).priv.code

/-- A source register that holds an uncorrectable soft error: the word raises POISON and has no other effect (R201, R438). -/
def State.stackPoison (s : State) (k : Nat) (entries : List Nat) : Bool :=
  let b := (s.slot (slotOf k)).stackBad
  !b.isEmpty && entries.any (fun e => tget false b e)

end Sys2Proof.Machine
end

