-- ==== Sys2Proof/Machine/Operands.lean ====
section
/-! DEFINITION. Operand forms: types and elements (R73, R182 to R185), the operands of a V3 word (R71, R72, R203 to R205),
soft errors in sources (R438), and the end of a word that writes v registers (R202, R443). -/

namespace Sys2Proof.Machine

/-! Types by code (R73). -/

def tySigned (ty : Nat) : Bool := ty = 0 || ty = 2 || ty = 4 || ty = 6 || ty = 14 || ty = 16

/-- Element width and number of elements. -/
def tyElem (ty : Nat) : Nat × Nat :=
  match ty with
  | 0 => (8, 1) | 1 => (8, 1) | 2 => (16, 1) | 3 => (16, 1) | 6 => (64, 1) | 7 => (64, 1) | 8 => (16, 1) | 9 => (16, 1)
  | 11 => (64, 1) | 12 => (8, 1) | 13 => (8, 1) | 14 => (16, 2) | 15 => (16, 2) | 16 => (8, 4) | 17 => (8, 4) | 18 => (16, 2)
  | 19 => (16, 2) | _ => (32, 1)

def ty64 (ty : Nat) : Bool := ty = 6 || ty = 7 || ty = 11

/-- The float format of a type code, that of its elements for a packed type. -/
def tyFmt (ty : Nat) : Fmt :=
  match ty with
  | 8 => f16 | 9 => bf16 | 11 => f64 | 12 => f8a | 13 => f8b | 18 => f16 | 19 => bf16 | _ => f32

def tyFloat (ty : Nat) : Bool := (8 ≤ ty && ty ≤ 13) || ty = 18 || ty = 19

/-- Element j of a value (R183). -/
def elem (w j v : Nat) : Nat := v / 2 ^ (w * j) % 2 ^ w

/-- Apply an operation to every element (R183, R185). -/
def mapElems (ty : Nat) (g : Nat → Nat) : Nat :=
  let (w, n) := tyElem ty
  (List.range n).foldl (fun acc j => acc + (g j % 2 ^ w) * 2 ^ (w * j)) 0

/-- Ext: the exact integer of an element (R210). -/
def ext (ty v : Nat) : Int :=
  let w := (tyElem ty).1
  if tySigned ty then sgn w v else ((v % 2 ^ w : Nat) : Int)

def tyMin (ty : Nat) : Int := if tySigned ty then -(2 ^ ((tyElem ty).1 - 1) : Int) else 0
def tyMax (ty : Nat) : Int := if tySigned ty then 2 ^ ((tyElem ty).1 - 1) - 1 else 2 ^ (tyElem ty).1 - 1

/-- The low w bits of an integer. -/
def wrap (w : Nat) (r : Int) : Nat := (r % (2 ^ w : Int)).toNat

/-- Narrow(r, TY) (R182, R210). -/
def narrow (ty : Nat) (sat : Bool) (r : Int) : Nat :=
  wrap (tyElem ty).1 (if sat then max (tyMin ty) (min (tyMax ty) r) else r)

/-! Scalars (R205). -/

/-- The sca class reads TY 0 as i64. -/
def scaTy (ty : BitVec 5) : Nat := if ty = 0 then 6 else ty.toNat

/-- A 32-bit result is extended into the whole register (R205). -/
def scaResult (ty v : Nat) : W64 :=
  if ty = 4 then (BitVec.ofNat 32 v).signExtend 64 else if ty = 5 then BitVec.ofNat 64 (v % 2 ^ 32) else BitVec.ofNat 64 v

/-- The B operand of a sca word as 64 bits (R71). -/
def State.scaB (s : State) (k : Nat) (b : BitVec 6) (bsel : BitVec 2) : W64 :=
  match bsel.toNat with
  | 1 => s.ssrc k b
  | 2 => tget 0 (s.wg (wgOf k)).kregs b.toNat
  | _ => b.signExtend 64

/-! The B operand of a vec word (R203). -/

/-- An immediate in every element: sign-extended, or converted exactly (R71, R203). -/
def immElems (ty : Nat) (b : BitVec 6) : Nat :=
  if tyFloat ty then mapElems ty (fun _ => (tyFmt ty).round 0 (FV.ofInt b.toInt))
  else mapElems ty (fun _ => (b.signExtend 64).toNat)

/-- A scalar in every element: its low bits (R203). -/
def scalElems (ty : Nat) (v : W64) : Nat := mapElems ty (fun _ => v.toNat)

/-- v(i), or the even pair for a 64-bit type (R184). -/
def State.vval (s : State) (k ty i l : Nat) : Nat := if ty64 ty then (s.vpairReg k i l).toNat else (s.vreg k i l).toNat

/-- B as a value of type `ty` in a lane. -/
def State.vecB (s : State) (k ty : Nat) (f : V3) (l : Nat) : Nat :=
  match f.bsel.toNat with
  | 0 => s.vval k ty f.b.toNat l
  | 1 => scalElems ty (s.ssrc k f.b)
  | 2 => scalElems ty (tget 0 (s.wg (wgOf k)).kregs f.b.toNat)
  | _ => immElems ty f.b

/-- B as a count or control: one register whatever TY is (R203); a scalar or immediate count of a packed shift is the count of every
element. -/
def State.vecCnt (s : State) (k ty : Nat) (f : V3) (l : Nat) : Nat :=
  match f.bsel.toNat with
  | 0 => (s.vreg k f.b.toNat l).toNat
  | 1 => if (tyElem ty).2 = 1 then (s.ssrc k f.b).toNat % 2 ^ 32 else scalElems ty (s.ssrc k f.b)
  | 2 => let v := tget 0 (s.wg (wgOf k)).kregs f.b.toNat
         if (tyElem ty).2 = 1 then v.toNat % 2 ^ 32 else scalElems ty v
  | _ => if (tyElem ty).2 = 1 then (f.b.signExtend 32).toNat else immElems ty f.b

/-! Source modifiers (R72): bits 0 and 1 negate and take the absolute value of A, 2 and 3 of B; they act on the sign bit. -/

def modSign (f : Fmt) (neg abs : Bool) (v : Nat) : Nat :=
  let s := 2 ^ (f.width - 1)
  let v := if abs then v % s else v
  if neg then (if v % (2 * s) < s then v + s else v - s) else v

def modA (f : Fmt) (m : BitVec 4) (v : Nat) : Nat := modSign f (m.getLsbD 0) (m.getLsbD 1) v
def modB (f : Fmt) (m : BitVec 4) (v : Nat) : Nat := modSign f (m.getLsbD 2) (m.getLsbD 3) v

/-! Soft errors in sources (R201, R438). -/

/-- The stack entries of v(i), or of its pair, in the acting lanes. -/
def State.srcEntries (s : State) (k : Nat) (m : LaneMask) (i n : Nat) : List Nat :=
  if (s.slot (slotOf k)).stackBad.isEmpty then []
  else (List.range n).flatMap (fun j => (lanesOf m).map (fun l => 32 * s.ventry k (s.fib k).entry.fp (i + j) + s.srcLane k (i + j) l))

/-- A scalar source that holds an uncorrectable error. -/
def State.sBadSrc (s : State) (k : Nat) (x : BitVec 6) : Bool := x < 32 && tget false (s.fib k).sBad x.toNat

/-- How a V3 word uses B and C. -/
inductive BUse where
  | no | val | cnt
  deriving DecidableEq, Repr

/-- Whether a vec word reads a register that holds an uncorrectable soft error. -/
def State.vecPoison (s : State) (k : Nat) (f : V3) (tyA : Nat) (useA : Bool) (b : BUse) (useC : Bool) (acts : LaneMask) : Bool :=
  let ty := f.ty.toNat
  let n (t : Nat) : Nat := if ty64 t then 2 else 1
  s.pBadSrc k f.hd.gp.toNat
    || s.stackPoison k ((if useA then s.srcEntries k acts f.a.toNat (n tyA) else [])
        ++ (if b != .no && f.bsel = 0 then s.srcEntries k acts f.b.toNat (if b = .val then n ty else 1) else [])
        ++ (if useC then s.srcEntries k acts f.c.toNat (n ty) else []))
    || (b != .no && f.bsel = 1 && s.sBadSrc k f.b)

/-! Ending a word that writes v registers. -/

/-- In shadow mode a shadow lane's shared-window writes are compared with those of the lane that it copies, and not made
(R443): the lowest lane that differs, and the writes that are made. -/
def State.shadowFilter (s : State) (k : Nat) (ws : List RegWrite) : Option Nat × List RegWrite :=
  if (s.fib k).shadow then
    let base := 256 - (s.wg (wgOf k)).sh
    let bad := (List.range 16).find? (fun i => ws.any (fun w => match w with
      | .stk e l v => base ≤ e && l = i + 16 && ws.any (fun u => match u with
          | .stk e' l' v' => e' = e && l' = i && v' != v
          | _ => false)
      | _ => false))
    (bad, ws.filter (fun w => match w with
      | .stk e l _ => !(base ≤ e && 16 ≤ l)
      | _ => true))
  else (none, ws)

/-- The writes of a vec word (R202): `res` in the acting lanes, and 0 under Z in the fibre's other lanes. -/
def State.vecWrites (s : State) (k d : Nat) (wide : Bool) (z : Bool) (acts : LaneMask) (res : Nat → Nat) : List RegWrite :=
  let put (l v : Nat) : List RegWrite :=
    if wide then s.vw64 k d l (BitVec.ofNat 64 v) else [s.vw k d l (BitVec.ofNat 32 v)]
  (lanesOf acts).flatMap (fun l => put l (res l))
    ++ (if z then (lanesOf ((s.fib k).everLanes &&& ~~~acts)).flatMap (fun l => put l 0) else [])

/-- Finish a fixed-latency word with register writes, the comparison of shadow mode included. -/
def State.vfinish (s : State) (k : Nat) (ws : List RegWrite) : State :=
  match s.shadowFilter k ws with
  | (some i, _) => s.trapHere k .dmrMismatch i 0 0
  | (none, ws) => s.finish k ws

/-- A fixed-latency vec word: the acting lanes' results, computed from all sources, are written (R202). -/
def State.vecOp (s : State) (k : Nat) (f : V3) (b : BUse) (useC wide : Bool) (res : Nat → Nat) : State :=
  let acts := s.acts k f.hd
  if acts = 0 then s.finish k []
  else if s.vecPoison k f f.ty.toNat true b useC acts then s.trapHere k .poison 0 0 0
  else s.vfinish k (s.vecWrites k f.d.toNat wide f.z acts res)

/-- A fixed-latency sca word (R205): performed once, it writes s(D). -/
def State.scaOp (s : State) (k : Nat) (hd : Head) (d : BitVec 6) (srcs : List (BitVec 6)) (v : W64) : State :=
  if s.acts k hd = 0 then s.finish k []
  else if s.pBadSrc k hd.gp.toNat || srcs.any (fun x => s.sBadSrc k x) then s.trapHere k .poison 0 0 0
  else s.finish k [.sreg d.toNat v]

/-- The head of a VI word: fixed latency, with neither LA nor TOK (R74). -/
def viHead (f : VI) : Head := { sos := f.sos, gn := f.gn, gp := f.gp, la := 0, tok := 0 }

/-- The shift count of `fscale`: B's 32 bits, an immediate sign-extended to 32 bits (R203). -/
def State.scaleCnt (s : State) (k : Nat) (f : V3) (l : Nat) : Nat :=
  if f.bsel = 3 then (f.b.signExtend 32).toNat else s.vecCnt k 10 f l

/-- A word that writes a predicate in each acting lane (R218, R231): `t` in each; a write of p7 is ignored (R27). -/
def State.predOp (s : State) (k : Nat) (hd : Head) (d : Nat) (ps : List Nat) (srcs : List (BitVec 6)) (t : Nat → Bool) : State :=
  let acts := s.acts k hd
  if acts = 0 then s.finish k []
  else if s.pBadSrc k hd.gp.toNat || ps.any (fun i => s.pBadSrc k i) || srcs.any (fun x => s.sBadSrc k x) then s.trapHere k .poison 0 0 0
  else ((s.modFib k (fun f => f.setPreg d acts (maskOf t))).supersedePred k d acts).finish k []

/-- A conversion: its source has its own type (R229, R230). -/
def State.cvtOp (s : State) (k : Nat) (f : V3) (res : Nat → Nat) : State :=
  let acts := s.acts k f.hd
  if acts = 0 then s.finish k []
  else if s.vecPoison k f f.sub.toNat true .no false acts then s.trapHere k .poison 0 0 0
  else s.vfinish k (s.vecWrites k f.d.toNat (ty64 f.ty.toNat) f.z acts res)

/-- A long-latency vec word (R201): its results are written when it completes. A never-guarded word names no token (R66). -/
def State.vecLong (s : State) (k : Nat) (f : V3) (wide : Bool) (res : Nat → Nat) : State :=
  let acts := s.acts k f.hd
  if acts = 0 then s.finish k []
  else if s.vecPoison k f f.ty.toNat true .no false acts then s.trapHere k .poison 0 0 0
  else
    match s.shadowFilter k (s.vecWrites k f.d.toNat wide f.z acts res) with
    | (some i, _) => s.trapHere k .dmrMismatch i 0 0
    | (none, ws) => s.issue k f.hd (mkPend .other ws true none)

/-- The scalar sources of a V3 word that BSEL makes one. -/
def bSrc (f : V3) : List (BitVec 6) := if f.bsel = 1 then [f.b] else []

end Sys2Proof.Machine
end

