-- ==== Sys2Proof/Machine/Access.lean ====
section
/-! DEFINITION. What the memory words share: the addresses of lanes (R270), the order of faults (R276), reaching the lines
that an access needs, loads and stores of lanes, scratch passes (R251 to R253), poison found by a load (R277), and the
comparisons of shadow mode (R443). -/

namespace Sys2Proof.Machine

/-- OFF as a signed 64-bit value (R270). -/
def FM.offset (f : FM) : W64 := f.off.signExtend 64

/-- Addr(lane) with a given offset (R270). -/
def State.laneAddrOff (s : State) (k : Nat) (f : FM) (off : W64) (l : Nat) : W64 :=
  match f.abase.toNat with
  | 0 => s.ssrc k f.a + (s.vreg k f.b.toNat l).setWidth 64 + off
  | 1 => s.vpairReg k f.a.toNat l + off
  | _ => s.ssrc k f.a + off

/-- Addr(lane) (R270). -/
def State.laneAddr (s : State) (k : Nat) (f : FM) (l : Nat) : W64 := s.laneAddrOff k f (FM.offset f) l

/-- One element of a word: its lane, its order in the lane, its address, its bytes, and the alignment that it needs. -/
structure Elem where
  lane : Nat
  e    : Nat
  addr : W64
  len  : Nat
  al   : Nat
  deriving DecidableEq, Repr

/-- An element that may be accessed: its pieces, or none where a helper lane's access would fault (R17). -/
structure Acc where
  lane : Nat
  e    : Nat
  addr : W64
  len  : Nat
  ps   : Option (List Piece)
  deriving DecidableEq, Repr

/-- The first address of an element at which a translation faults; its own address for every other fault. -/
def State.faultAddr (s : State) (k space : Nat) (ak : AK) (c : Cause) (x : Elem) : W64 :=
  if space != 0 || c = .misaligned then x.addr
  else
    match (sectors (x.len / 32 + 2) x.addr.toNat x.len).find? (fun p => match s.globalPiece (s.coreOf k) (s.vdOf k) ak p.1 p.2 with
      | .error _ => true
      | .ok _ => false) with
    | some p => BitVec.ofNat 64 p.1
    | none => x.addr

/-- R276: elements in order; the first fault of a lane that is not a helper lane is the one taken. `help` says which lanes
read 0 in place of a fault, `chk` what else an element may be refused for once it has its page. -/
def State.planWith (s : State) (k space : Nat) (ak : AK) (help : Nat → Bool) (chk : Elem → List Piece → Option Cause) : List Elem → Except (XErr × Nat × W64) (List Acc)
  | [] => .ok []
  | x :: t =>
    match s.resolve k space ak x.al x.addr x.len with
    | .error .mig => .error (.mig, x.lane, x.addr)
    | .error (.fault c) =>
      if help x.lane then
        match s.planWith k space ak help chk t with
        | .error e => .error e
        | .ok as => .ok ({ lane := x.lane, e := x.e, addr := x.addr, len := x.len, ps := none } :: as)
      else .error (.fault c, x.lane, s.faultAddr k space ak c x)
    | .ok ps =>
      match chk x ps with
      | some c =>
        if help x.lane then
          match s.planWith k space ak help chk t with
          | .error e => .error e
          | .ok as => .ok ({ lane := x.lane, e := x.e, addr := x.addr, len := x.len, ps := none } :: as)
        else .error (.fault c, x.lane, x.addr)
      | none =>
        match s.planWith k space ak help chk t with
        | .error e => .error e
        | .ok as => .ok ({ lane := x.lane, e := x.e, addr := x.addr, len := x.len, ps := some ps } :: as)

/-- The plan of a load or store. -/
def State.planAll (s : State) (k space : Nat) (ak : AK) (help : Nat → Bool) (xs : List Elem) : Except (XErr × Nat × W64) (List Acc) :=
  s.planWith k space ak help (fun _ _ => none) xs

/-- The helper lanes of a fibre. -/
def State.isHelper (s : State) (k l : Nat) : Bool := (s.fib k).helper.getLsbD l

/-- The planned evictions make room (log entry 12). -/
def State.applyEvictions (s : State) : State := s.evictions.foldl (fun s e => s.evict e) { s with evictions := [] }

/-- The translations of an access stand in the TLBs (R298). -/
def State.noteAcc (s : State) (k : Nat) (addr : W64) (n : Nat) : State :=
  (s.noteXlate (s.coreOf k) (s.vdOf k) addr.toNat).noteXlate (s.coreOf k) (s.vdOf k) (addr.toNat + n - 1)

/-- The lines in device memory of an access. -/
def Acc.lines (a : Acc) : List Nat :=
  match a.ps with
  | some ps => ps.flatMap (fun p => p.locs.filterMap (fun l => match l with
    | .dev pa _ _ => some (pa / 64)
    | _ => none))
  | none => []

/-- The accesses of a word reach the homes of their lines; where they count (`cnt`), each lane that meets a line in motion
counts once in ATOM_REPLAYS (R322). -/
def State.meetAccs (s : State) (vd : Nat) (cnt : Bool) (as : List Acc) : State :=
  as.foldl (fun s a => a.lines.foldl (fun s line =>
    s.meetLine vd (64 * line) (if cnt then (as.filter (fun b => b.lines.contains line)).length else 0)) s) s

/-- What goes before the accesses of a word: translations and room. Scratch and the operand buffer need none of it. -/
def State.approach (s : State) (k space : Nat) (as : List Acc) : State :=
  if space != 0 then s
  else (as.foldl (fun s a => if a.ps.isSome then s.noteAcc k a.addr a.len else s) s).applyEvictions

/-- The same with the homes of the lines reached, for a word that does not count. -/
def State.reach (s : State) (k space : Nat) (as : List Acc) : State :=
  if space != 0 then s else (s.approach k space as).meetAccs (s.vdOf k) false as

/-! Scratch passes (R251, R253). -/

/-- The 4-byte words of n bytes at an offset. -/
def wordsOf (a n : Nat) : List Nat := if n = 0 then [] else (List.range ((a + n - 1) / 4 - a / 4 + 1)).map (fun i => a / 4 + i)

/-- The passes of one group that touches these words. -/
def groupPasses (ws : List Nat) : Nat :=
  let d := ws.eraseDups
  (List.range 32).foldl (fun m b => max m ((d.filter (fun w => w % 32 = b)).length)) 0

/-- The passes of a word that moves `w` bytes a lane: lane groups of 32, 16, 8 or 4. -/
def scratchPasses (w : Nat) (as : List Acc) : Nat :=
  let g := if w ≤ 4 then 32 else 128 / w
  (List.range (32 / max 1 g)).foldl (fun n i =>
    n + groupPasses ((as.filter (fun a => a.lane / max 1 g = i && a.ps.isSome)).flatMap (fun a => wordsOf a.addr.toNat a.len))) 0

/-- The passes of a scratch word whose acting lanes, helper lanes among them, have these elements (R251). -/
def State.elemPasses (s : State) (k space w : Nat) (xs : List Elem) : Nat :=
  if space != 1 then 0
  else scratchPasses w (xs.map (fun x => { lane := x.lane, e := x.e, addr := x.addr, len := x.len, ps := (s.resolve k 1 .rd x.al x.addr x.len).toOption }))

/-- Count a scratch word of the fibre. -/
def State.countScratch (s : State) (k space n : Nat) : State :=
  if space = 1 then
    s.modFib k (fun f => { f with scrRequests := f.scrRequests + 1, scrPasses := f.scrPasses + BitVec.ofNat 64 n })
  else s

/-! Loads. -/

/-- What an element read: its bytes, whether they carry poison, and whether poison that a helper lane read became 0. -/
structure Got where
  lane : Nat
  e    : Nat
  addr : W64
  data : List Byte
  bad  : Bool
  zero : Bool := false
  deriving DecidableEq, Repr

/-- Read every element, in order; a helper lane's fault and its poison read as 0 (R17, R277). -/
def State.readAccs (s : State) (k scope : Nat) (help : Nat → Bool) : List Acc → List Got × State
  | [] => ([], s)
  | a :: t =>
    match a.ps with
    | none =>
      let r := s.readAccs k scope help t
      ({ lane := a.lane, e := a.e, addr := a.addr, data := List.replicate a.len 0, bad := false } :: r.1, r.2)
    | some ps =>
      let q := s.readPieces (s.who k scope) ps
      let bad := q.2.piecesBad (s.who k scope) ps
      let r := q.2.readAccs k scope help t
      ({ lane := a.lane, e := a.e, addr := a.addr, data := if bad && help a.lane then List.replicate a.len 0 else q.1,
         bad := bad && !help a.lane, zero := bad && help a.lane } :: r.1, r.2)

/-- A helper lane one of whose elements would fault reads 0 in every destination byte (R17, R280, R281). -/
def blankLanes (as : List Acc) : List Acc :=
  as.map (fun a => if as.any (fun b => b.lane = a.lane && b.ps.isNone) then { a with ps := none } else a)

/-- Read every element; a helper lane that reads poison anywhere receives 0 (R277). -/
def State.readAll (s : State) (k scope : Nat) (help : Nat → Bool) (as : List Acc) : List Got × State :=
  let r := s.readAccs k scope help as
  (r.1.map (fun g => if r.1.any (fun h => h.lane = g.lane && h.zero) then { g with data := List.replicate g.data.length 0 } else g), r.2)

/-- The lane and address of the first poisoned element. -/
def firstBad (gs : List Got) : Option (Nat × W64) :=
  match gs.find? (fun g => g.bad) with
  | some g => some (g.lane, g.addr)
  | none => none

/-- The bytes that a lane received, in element order. -/
def laneBytes (gs : List Got) (l : Nat) : List Byte := (gs.filter (fun g => g.lane = l)).flatMap (fun g => g.data)

/-- Place (R280): bytes to n registers from v(D). -/
def State.placeRun (s : State) (k d n l : Nat) (bs : List Byte) : List RegWrite :=
  (List.range n).map (fun i => s.vw k (d + i) l (BitVec.ofNat 32 (leNat ((bs.drop (4 * i)).take 4))))

/-- Take (R280): the bytes of n registers from v(D). -/
def State.takeRun (s : State) (k d n l : Nat) : List Byte :=
  (List.range n).flatMap (fun i => leBytes 4 (s.vreg k (d + i) l).toNat)

/-- Issue a load whose destinations are `ws`, with the poison that it found (R277); a shadow-mode fibre compares its
shared-window writes (R443). -/
def State.issueLoad (s : State) (k : Nat) (h : Head) (ws : List RegWrite) (bad : Option (Nat × W64)) : State :=
  match s.shadowFilter k ws with
  | (some i, _) => s.trapHere k .dmrMismatch i 0 0
  | (none, ws) => s.issue k h (mkPend .load ws true bad)

/-! Stores. -/

/-- A lane of 0 to 15 whose guard, or whose key under `g`, differs from its shadow's (R443). -/
def State.dmrLanes (s : State) (k : Nat) (acts : LaneMask) (g : Nat → List Nat) : Option Nat :=
  let x := s.fib k
  if x.shadow then
    (List.range 16).find? (fun i => x.entry.mask.getLsbD i && x.entry.mask.getLsbD (i + 16)
      && (acts.getLsbD i != acts.getLsbD (i + 16) || (acts.getLsbD i && g i != g (i + 16))))
  else none

/-- The lanes of an access with a side effect: not the helper lanes, and in shadow mode the lanes that are no copies
(R17, R271, R443; log entry 16). -/
def State.storeLanes (s : State) (k : Nat) (acts : LaneMask) : LaneMask :=
  let m := acts &&& ~~~(s.fib k).helper
  if (s.fib k).shadow then m &&& 0xFFFF else m

/-- Write every element, in order: the highest lane, and the highest element, last (R274). -/
def State.writeAccs (s : State) (k scope : Nat) : List (Acc × List Byte) → State
  | [] => s
  | (a, bs) :: t =>
    match a.ps with
    | none => s.writeAccs k scope t
    | some ps => (s.writePieces (s.who k scope) ps bs).writeAccs k scope t

/-- The bytes that the elements cover. -/
def accCover (as : List Acc) : List (Loc × Nat) := as.flatMap (fun a => match a.ps with
  | some ps => coverage ps
  | none => [])

/-- A store that has issued: what the sectors of the operand buffer that it writes held before goes with it (R341). `s` is the state before
the store. -/
def State.stored (s : State) (k : Nat) (kind : PKind) (as : List Acc) : Pending :=
  let secs := ((accCover as).filterMap (fun c => match c.1 with
    | .ob o => some (o / 32)
    | _ => none)).eraseDups
  { mkPend kind [] true none with obOld := secs.map (fun q => (q, readTab (s.wg (wgOf k)).ob (32 * q) 32)) }

/-- Store every element's bytes and end the poison of the sectors that the word covers whole (R277). -/
def State.storeAccs (s : State) (k scope : Nat) (xs : List (Acc × List Byte)) : State :=
  (s.writeAccs k scope xs).clearPoison (s.who k scope) (accCover (xs.map (·.1)))

/-! Sources. -/

/-- Whether the address operands or the guard of a memory word hold an uncorrectable soft error (R438). -/
def State.memBadSrc (s : State) (k : Nat) (f : FM) (acts : LaneMask) : Bool :=
  s.pBadSrc k f.hd.gp.toNat
    || (f.abase != 1 && s.sBadSrc k f.a)
    || s.stackPoison k ((if f.abase = 0 then s.srcEntries k acts f.b.toNat 1 else [])
        ++ (if f.abase = 1 then s.srcEntries k acts f.a.toNat 2 else []))

/-- Whether a run of v registers holds an uncorrectable soft error in the acting lanes. -/
def State.runBad (s : State) (k : Nat) (acts : LaneMask) (d n : Nat) : Bool := s.stackPoison k (s.srcEntries k acts d n)

/-- The alignment of an element of z bytes in a space (R250); global memory needs none (R262). -/
def elemAl (space z : Nat) : Nat := if space = 0 then 1 else min z 4

/-! Ranges of a context's addresses. -/

/-- The page-sized steps of [a, a + n). -/
def pagesOf (a n : Nat) : List Nat := if n = 0 then [] else (List.range ((a + n - 1) / 4096 - a / 4096 + 1)).map (fun i => (a / 4096 + i) * 4096)

/-- The 64-byte lines that meet [a, a + n). -/
def linesOf (a n : Nat) : List Nat := if n = 0 then [] else (List.range ((a + n - 1) / 64 - a / 64 + 1)).map (fun i => (a / 64 + i) * 64)

/-- The walk of one of a fibre's addresses waits at a MIG entry (R301). -/
def State.anyMig (s : State) (k : Nat) (as : List Nat) : Bool :=
  as.any (fun a => match s.globalPiece (s.coreOf k) (s.vdOf k) .rd a 1 with
    | .error .mig => true
    | _ => false)

/-- The device physical address of a context's address, where it lies in this package's memory. -/
def State.devAddr (s : State) (core vd va : Nat) : Option Nat :=
  match s.globalPiece core vd .rd va 1 with
  | .ok p => match p.locs with
    | .dev pa _ _ :: _ => some pa
    | _ => none
  | .error _ => none

/-- Whether a physical line lies in the range [a, a + n) of a context. -/
def State.lineIn (s : State) (core vd a n line : Nat) : Bool :=
  (pagesOf a n).any (fun p =>
    match s.devAddr core vd p with
    | some pa => pa / 4096 = line / 64 && a < p + line % 64 * 64 + 64 && p + line % 64 * 64 < a + n
    | none => false)

/-- The lines that some cache, or an update-only copy, holds and that lie in a range. -/
def State.heldIn (s : State) (core vd a n : Nat) (keys : List Nat) : List Nat :=
  keys.filter (fun e => s.lineIn core vd a n (e % 2 ^ 52))

end Sys2Proof.Machine
end

