-- ==== Sys2Proof/Machine/Mem.lean ====
section
/-! DEFINITION. Loads, stores, tiles and cache control (R269 to R293). An access has its effect where the word issues, and a
load's destinations are written when it completes (log entry 4). -/

namespace Sys2Proof.Machine

/-! Plain loads and stores (R279 to R281). -/

/-- The elements of an acting lane of `ld` or `st` (R279, R273). -/
def State.plainElems (s : State) (k : Nat) (f : FM) (lns : List Nat) : List Elem :=
  let z := tyBytes f.ty.toNat
  let n := if z < 4 then 1 else 4 * 2 ^ f.cnt.toNat / z
  lns.flatMap (fun l => (List.range n).map (fun j =>
    { lane := l, e := j, addr := s.laneAddr k f l + BitVec.ofNat 64 (z * j), len := z,
      al := if f.str && j = 0 then z * n else elemAl f.space.toNat z }))

/-- W of R279. -/
def plainW (f : FM) : Nat := if tyBytes f.ty.toNat < 4 then tyBytes f.ty.toNat else 4 * 2 ^ f.cnt.toNat

/-- Place of R280: a narrow element is extended by its type (R204). -/
def State.placeLane (s : State) (k : Nat) (f : FM) (l : Nat) (bs : List Byte) : List RegWrite :=
  let ty := f.ty.toNat
  if tyBytes ty < 4 then [s.vw k f.d.toNat l (BitVec.ofNat 32 (wrap 32 (ext ty (leNat bs))))]
  else s.placeRun k f.d.toNat (2 ^ f.cnt.toNat) l bs

/-- R280. -/
def execLd (f : FM) (s : State) : Out :=
  let k := s.cur
  let acts := s.acts k f.hd
  let sp := f.space.toNat
  if acts = 0 then .next (s.finish k [])
  else if s.memBadSrc k f acts then .next (s.trapHere k .poison 0 0 0)
  else
    match s.planAll k sp .rd (s.isHelper k) (s.plainElems k f (lanesOf acts)) with
    | .error (e, l, a) => .next (s.accessFault k e l a false)
    | .ok as =>
      let as := blankLanes as
      let s := (s.reach k sp as).countScratch k sp (scratchPasses (plainW f) as)
      let r := s.readAll k f.scope.toNat (s.isHelper k) as
      .next (r.2.issueLoad k f.hd ((lanesOf acts).flatMap (fun l => r.2.placeLane k f l (laneBytes r.1 l))) (firstBad r.1))

/-- R280; helper lanes store nothing (R271). -/
def execSt (f : FM) (s : State) : Out :=
  let k := s.cur
  let acts := s.acts k f.hd
  let sp := f.space.toNat
  let n := if plainW f < 4 then 1 else 2 ^ f.cnt.toNat
  if acts = 0 then .next (s.finish k [])
  else if s.memBadSrc k f acts || s.runBad k acts f.d.toNat n then .next (s.trapHere k .poison 0 0 0)
  else
    let data (l : Nat) : List Byte := (s.takeRun k f.d.toNat n l).take (plainW f)
    match s.dmrLanes k acts (fun l => (s.laneAddr k f l).toNat :: (data l).map BitVec.toNat) with
    | some i => .next (s.trapHere k .dmrMismatch i 0 0)
    | none =>
      match s.planAll k sp .wr (s.isHelper k) (s.plainElems k f (lanesOf (s.storeLanes k acts))) with
      | .error (e, l, a) => .next (s.accessFault k e l a true)
      | .ok as =>
        let z := tyBytes f.ty.toNat
        let t := (s.reach k sp as).countScratch k sp (s.elemPasses k sp (plainW f) (s.plainElems k f (lanesOf acts)))
        let t := t.storeAccs k f.scope.toNat (as.map (fun a => (a, ((data a.lane).drop (z * a.e)).take z)))
        .next (t.issue k f.hd (s.stored k .store as))

/-- The elements of `lds` and `sts` (R281). -/
def State.scalarElems (s : State) (k : Nat) (f : FM) : List Elem :=
  let z := tyBytes f.ty.toNat
  let n := 2 ^ f.cnt.toNat
  (List.range n).map (fun j =>
    { lane := 0, e := j, addr := s.laneAddr k f 0 + BitVec.ofNat 64 (z * j), len := z,
      al := if f.str && j = 0 then z * n else elemAl f.space.toNat z })

/-- A 64-bit scalar from an element of type `ty` (R281). -/
def scalarElem (ty : Nat) (bs : List Byte) : W64 := BitVec.ofNat 64 (wrap 64 (ext ty (leNat bs)))

/-- R281, performed once (R271): with only helper lanes acting, a fault reads 0. -/
def execLds (f : FM) (s : State) : Out :=
  let k := s.cur
  let acts := s.acts k f.hd
  let sp := f.space.toNat
  let help (_ : Nat) : Bool := s.onlyHelpers k acts
  if acts = 0 then .next (s.finish k [])
  else if s.memBadSrc k f acts then .next (s.trapHere k .poison 0 0 0)
  else
    match s.planAll k sp .rd help (s.scalarElems k f) with
    | .error (e, l, a) => .next (s.accessFault k e l a false)
    | .ok as =>
      let as := blankLanes as
      let s := (s.reach k sp as).countScratch k sp (scratchPasses 1 as)
      let r := s.readAll k f.scope.toNat help as
      .next (r.2.issueLoad k f.hd (r.1.map (fun g => .sreg (f.d.toNat + g.e) (scalarElem f.ty.toNat g.data))) (firstBad r.1))

/-- R281; suppressed when only helper lanes act (R271). -/
def execSts (f : FM) (s : State) : Out :=
  let k := s.cur
  let acts := s.acts k f.hd
  let sp := f.space.toNat
  let n := 2 ^ f.cnt.toNat
  if s.onlyHelpers k acts then .next (s.finish k [])
  else if s.memBadSrc k f acts || (List.range n).any (fun i => s.sBadSrc k (f.d + BitVec.ofNat 6 i)) then .next (s.trapHere k .poison 0 0 0)
  else
    match s.dmrLanes k acts (fun _ => []) with
    | some i => .next (s.trapHere k .dmrMismatch i 0 0)
    | none =>
      match s.planAll k sp .wr (fun _ => false) (s.scalarElems k f) with
      | .error (e, l, a) => .next (s.accessFault k e l a true)
      | .ok as =>
        let z := tyBytes f.ty.toNat
        let t := (s.reach k sp as).countScratch k sp (scratchPasses 1 as)
        let t := t.storeAccs k f.scope.toNat (as.map (fun a => (a, leBytes z ((s.fib k).sreg (f.d.toNat + a.e)).toNat)))
        .next (t.issue k f.hd (s.stored k .store as))

/-! Layout records and tiles (R268, R282, R283). -/

/-- A layout record (R268). -/
structure LRec where
  base : Nat
  size : Nat
  edge : Nat
  str  : List Int
  ext  : List Nat
  deriving DecidableEq, Repr

def LRec.ofBits (v : BitVec 256) : LRec :=
  { base := (v.extractLsb' 0 57).toNat, size := (v.extractLsb' 57 3).toNat, edge := (v.extractLsb' 60 4).toNat,
    str := (List.range 4).map (fun i => (v.extractLsb' (64 + 32 * i) 32).toInt),
    ext := (List.range 4).map (fun i => (v.extractLsb' (192 + 16 * i) 16).toNat) }

/-- ElemBytes: 0 for SIZE codes 5 to 7 (R283). -/
def LRec.elemBytes (r : LRec) : Nat := if r.size ≤ 4 then 2 ^ r.size else 0

/-- Locate (R268, R283): the address of an element, or none where it is masked. -/
def LRec.locate (r : LRec) (i : List Nat) : Option W64 :=
  let pairs := i.zip r.ext
  let out := pairs.any (fun p => p.2 ≤ p.1)
  if 4 < r.size || 2 < r.edge then none
  else if r.edge = 0 && out then none
  else if r.edge != 0 && r.ext.any (fun e => e = 0) then none
  else
    let j := if r.edge = 1 then pairs.map (fun p => min p.1 (p.2 - 1)) else if r.edge = 2 then pairs.map (fun p => p.1 % p.2) else i
    some (BitVec.ofInt 64 ((r.base : Int) + (j.zip r.str).foldl (fun (a : Int) p => a + (p.1 : Int) * p.2) 0))

/-- The origin held in a scalar (R283). -/
def originOf (v : W64) : List Nat := (List.range 4).map (fun i => (v.extractLsb' (16 * i) 16).toNat)

/-- epl of R283. -/
def tileEpl (z n : Nat) : Nat := if z = 0 || 4 * n < z then 0 else 4 * n / z

/-- The unmasked elements of a tile word, in order. -/
def State.tileElems (s : State) (k : Nat) (f : FM) (lns : List Nat) : List Elem :=
  let r := LRec.ofBits ((s.fib k).lreg f.a.toNat)
  let z := r.elemBytes
  let o := originOf (s.ssrc k f.b)
  let epl := tileEpl z (2 ^ f.cnt.toNat)
  let t0 := 2 ^ (f.off.toNat % 16)
  lns.flatMap (fun l => (List.range epl).filterMap (fun j =>
    let e := l * epl + j
    match r.locate [nth o 0 + e % t0, nth o 1 + e / t0, nth o 2, nth o 3] with
    | some a => some { lane := l, e := j, addr := a, len := z, al := elemAl f.space.toNat z }
    | none => none))

/-- The bytes that a lane receives, 0 for masked elements. -/
def tileBytes (gs : List Got) (z epl l : Nat) : List Byte :=
  (List.range epl).flatMap (fun j => match gs.find? (fun g => g.lane = l && g.e = j) with
    | some g => g.data
    | none => List.replicate z 0)

/-- R283. -/
def execLdt (f : FM) (s : State) : Out :=
  let k := s.cur
  let acts := s.acts k f.hd
  let sp := f.space.toNat
  let n := 2 ^ f.cnt.toNat
  let z := (LRec.ofBits ((s.fib k).lreg f.a.toNat)).elemBytes
  if acts = 0 then .next (s.finish k [])
  else if s.pBadSrc k f.hd.gp.toNat || s.sBadSrc k f.b then .next (s.trapHere k .poison 0 0 0)
  else
    match s.planAll k sp .rd (s.isHelper k) (s.tileElems k f (lanesOf acts)) with
    | .error (e, l, a) => .next (s.accessFault k e l a false)
    | .ok as =>
      let s := (s.reach k sp as).countScratch k sp (scratchPasses (4 * n) as)
      let r := s.readAll k f.scope.toNat (s.isHelper k) as
      .next (r.2.issueLoad k f.hd ((lanesOf acts).flatMap (fun l =>
        r.2.placeRun k f.d.toNat n l (tileBytes r.1 z (tileEpl z n) l))) (firstBad r.1))

/-- R283. -/
def execStt (f : FM) (s : State) : Out :=
  let k := s.cur
  let acts := s.acts k f.hd
  let sp := f.space.toNat
  let n := 2 ^ f.cnt.toNat
  let z := (LRec.ofBits ((s.fib k).lreg f.a.toNat)).elemBytes
  if acts = 0 then .next (s.finish k [])
  else if s.pBadSrc k f.hd.gp.toNat || s.sBadSrc k f.b || s.runBad k acts f.d.toNat n then .next (s.trapHere k .poison 0 0 0)
  else
    let data (l : Nat) : List Byte := s.takeRun k f.d.toNat n l
    match s.dmrLanes k acts (fun l => (data l).map BitVec.toNat) with
    | some i => .next (s.trapHere k .dmrMismatch i 0 0)
    | none =>
      match s.planAll k sp .wr (s.isHelper k) (s.tileElems k f (lanesOf (s.storeLanes k acts))) with
      | .error (e, l, a) => .next (s.accessFault k e l a true)
      | .ok as =>
        let t := (s.reach k sp as).countScratch k sp (s.elemPasses k sp (4 * n) (s.tileElems k f (lanesOf acts)))
        let t := t.storeAccs k f.scope.toNat (as.map (fun a => (a, ((data a.lane).drop (z * a.e)).take z)))
        .next (t.issue k f.hd (s.stored k .store as))

/-- R282. -/
def execLrec (f : FM) (s : State) : Out :=
  let k := s.cur
  let acts := s.acts k f.hd
  let sp := f.space.toNat
  let help (_ : Nat) : Bool := s.onlyHelpers k acts
  if acts = 0 then .next (s.finish k [])
  else if s.memBadSrc k f acts then .next (s.trapHere k .poison 0 0 0)
  else
    match s.planAll k sp .rd help [{ lane := 0, e := 0, addr := s.laneAddr k f 0, len := 32, al := 32 }] with
    | .error (e, l, a) => .next (s.accessFault k e l a false)
    | .ok as =>
      let s := (s.reach k sp as).countScratch k sp (scratchPasses 1 as)
      let r := s.readAll k f.scope.toNat help as
      .next (r.2.issueLoad k f.hd (r.1.map (fun g => .lrec f.d.toNat (BitVec.ofNat 256 (leNat g.data)))) (firstBad r.1))

/-! Prefetch (R284, R266). -/

/-- The addresses of the acting lanes. -/
def State.lineAddrs (s : State) (k : Nat) (f : FM) (acts : LaneMask) : List Nat := (lanesOf acts).map (fun l => (s.laneAddr k f l).toNat)

/-- R284: each acting lane, helper lanes included; a lane whose address would fault is dropped, and a walk that meets MIG is waited for. -/
def execPrf (f : FM) (s : State) : Out :=
  let k := s.cur
  let acts := s.acts k f.hd
  if acts = 0 then .next (s.finish k [])
  else if s.memBadSrc k f acts then .next (s.trapHere k .poison 0 0 0)
  else if s.anyMig k (s.lineAddrs k f acts) then .next s
  else
    let t := (lanesOf acts).foldl (fun t l =>
      let a := (s.laneAddr k f l).toNat
      match t.globalPiece (t.coreOf k) (t.vdOf k) .rd a 1 with
      | .ok { locs := .dev pa attr _ :: _, .. } =>
        (t.noteXlate (t.coreOf k) (t.vdOf k) a).prefetch k (t.vdOf k) (t.coreOf k) f.d.toNat (pa / 64) attr
      | _ => t) s
    .next (t.issue k f.hd (mkPend .store [] true none))

/-! Writing back and invalidating (R285, R286). -/

/-- Apply `g` to the physical line of every acting lane whose address does not fault. -/
def State.eachLine (s : State) (k : Nat) (f : FM) (acts : LaneMask) (g : State → Nat → State) : State :=
  (lanesOf acts).foldl (fun t l =>
    let a := (s.laneAddr k f l).toNat
    match t.globalPiece (t.coreOf k) (t.vdOf k) .rd a 1 with
    | .ok { locs := .dev pa _ _ :: _, .. } => g ((t.noteXlate (t.coreOf k) (t.vdOf k) a).meetLine (t.vdOf k) pa 0) (pa / 64)
    | _ => t) s

/-- R285. -/
def execCwb (f : FM) (s : State) : Out :=
  let k := s.cur
  let acts := s.acts k f.hd
  if acts = 0 then .next (s.finish k [])
  else if s.memBadSrc k f acts then .next (s.trapHere k .poison 0 0 0)
  else if s.anyMig k (s.lineAddrs k f acts) then .next s
  else
    let t := s.eachLine k f acts (fun t line =>
      let cl := clusterOf (t.coreOf k)
      if f.scope < 4 then t else ((t.combine line).writeBack cl line).residueDrop (cl + 1) line)
    .next (t.issue k f.hd (mkPend .store [] true none))

/-- R286. -/
def execCinv (f : FM) (s : State) : Out :=
  let k := s.cur
  let acts := s.acts k f.hd
  if acts = 0 then .next (s.finish k [])
  else if s.memBadSrc k f acts then .next (s.trapHere k .poison 0 0 0)
  else if s.anyMig k (s.lineAddrs k f acts) then .next s
  else
    let t := s.eachLine k f acts (fun t line =>
      let cl := clusterOf (t.coreOf k)
      if f.scope < 3 then t
      else
        let t := t.l0Drop (t.coreOf k) line
        if f.scope = 3 then t else (t.combine line).ccDrop cl line)
    .next (t.issue k f.hd (mkPend .store [] true none))

/-! Sealing (R287, R288). -/

/-- Dirty and update-only copies of a range come back to L2, and no copy of an UNTRACKED line stays (R287, R417). -/
def State.recall (s : State) (core vd a n : Nat) : State :=
  let held := s.heldIn core vd a n
  let us := held (s.ucopies.map (·.1))
  let cs := held (s.cc.map (·.1))
  let plain (m : Tab Line) : List Nat := held ((m.filter (fun e => !e.2.fresh)).map (·.1))
  let s1 := us.foldl (fun s e => s.combine (e % 2 ^ 52)) s
  let s2 := cs.foldl (fun s e => s.writeBack (e / 2 ^ 52) (e % 2 ^ 52)) s1
  let s3 := (plain s.cc).foldl (fun s e => s.ccDrop (e / 2 ^ 52) (e % 2 ^ 52)) s2
  (plain s.l0).foldl (fun s e => s.l0Drop (e / 2 ^ 52) (e % 2 ^ 52)) s3

/-- The status of `seal` (R287). -/
def State.sealStatus (s : State) (core vd a n : Nat) : Nat :=
  let seals := (s.vd vd).seals
  if a % 256 != 0 || n % 32 != 0 || n = 0 || 2 ^ 36 < n then 1
  else if seals.any (fun x => a < x.va + x.len && x.va < a + n) then 2
  else if seals.length = 4096 then 3
  else if (pagesOf a n).any (fun p => match s.xlate core vd p with
    | .ok x => !x.w
    | .error _ => true) then 4
  else 0

/-- The fibre's pending words that `g` picks complete, oldest first. -/
def State.completeIf (s : State) (k : Nat) (g : Pending → Bool) : State :=
  let ps := (s.fib k).pend
  let s := s.modFib k (fun f => { f with pend := f.pend.filter (fun p => !g p) })
  (ps.filter g).foldl (fun s p => s.deliver k p) s

/-- The drains in flight of the fibre's `gadd` words are folded at their homes (R398, R401). -/
def State.foldMine (s : State) (k : Nat) : State :=
  (s.fib k).pend.foldl (fun s p => match p.kind with
    | .drain cl ls => (s.drains.filter (fun d => d.cluster = cl && ls.contains d.line)).foldl (fun s d => s.foldDrain d) s
    | _ => s) s

/-- R287; suppressed when only helper lanes act (R271). It makes a release first, and a walk that meets MIG is waited for. -/
def execSeal (f : FM) (s : State) : Out :=
  let k := s.cur
  let acts := s.acts k f.hd
  let a := (s.laneAddr k f 0).toNat
  let n := (s.ssrc k f.b).toNat
  if s.onlyHelpers k acts then .next (s.finish k [])
  else if s.memBadSrc k f acts || s.sBadSrc k f.b then .next (s.trapHere k .poison 0 0 0)
  else if s.relBlocked k || ([0, 4].contains (s.sealStatus (s.coreOf k) (s.vdOf k) a n) && s.anyMig k (pagesOf a n)) then .next s
  else
    let s := s.foldMine k
    let st := s.sealStatus (s.coreOf k) (s.vdOf k) a n
    let t := if st = 0 then
        (s.recall (s.coreOf k) (s.vdOf k) a n).modVd (s.vdOf k) (fun v => { v with seals := v.seals ++ [{ va := a, len := n, ending := false, readers := [] }] })
      else s
    .next (t.issue k f.hd (mkPend .store [.sreg f.d.toNat (BitVec.ofNat 64 st)] true none))

/-! Locking lines (R289, R290). -/

/-- The lines that workgroups hold locked in a cluster's cache. -/
def State.lockedLines (s : State) (cl : Nat) : List Nat :=
  ((s.wgs.filter (fun e => clusterOf e.2.core = cl)).flatMap (fun e => e.2.locks.map (·.1))).eraseDups

/-- The status of `lkl` for the physical lines of the range (none for one that cannot be had), and the lines that are new to the
workgroup (R289). -/
def State.lockStatus (s : State) (w cl : Nat) (ls : List (Option Nat)) : Nat × List Nat :=
  let held := (s.wg w).locks
  let new := (ls.filterMap id).eraseDups.filter (fun l => !tget false held l)
  let banks := s.cacheBanks cl
  let all := (s.lockedLines cl ++ new).eraseDups
  if 1024 < held.length + new.length + (ls.filter Option.isNone).length then (1, [])
  else if new.any (fun l => 8 < (all.filter (fun x => Config.cacheSet banks x = Config.cacheSet banks l)).length) then (2, [])
  else if ls.any Option.isNone then (3, [])
  else (0, new)

/-- The line of a context's address, with its page's attribute. -/
def State.lineAt (s : State) (core vd va : Nat) : Option (Nat × Nat) :=
  match s.globalPiece core vd .rd va 1 with
  | .ok p => (match p.locs with
    | .dev pa attr _ :: _ => some (pa / 64, attr)
    | _ => none)
  | .error _ => none

/-- R289: a line that is not there is fetched as a load would fetch it, and a walk that meets MIG is waited for. -/
def execLkl (f : FM) (s : State) : Out :=
  let k := s.cur
  let acts := s.acts k f.hd
  let w := wgOf k
  let core := s.coreOf k
  let vd := s.vdOf k
  let a := (s.laneAddr k f 0).toNat
  let n := (s.ssrc k f.b).toNat
  let done (t : State) (st cnt : Nat) : Out :=
    .next (t.issue k f.hd (mkPend .store [.sreg f.d.toNat (BitVec.ofNat 64 (st + 2 ^ 32 * cnt))] true none))
  if acts = 0 then .next (s.finish k [])
  else if s.memBadSrc k f acts || s.sBadSrc k f.b then .next (s.trapHere k .poison 0 0 0)
  else if n != 0 && 1024 < (a + n - 1) / 64 - a / 64 + 1 then done s 1 0
  else if s.anyMig k (pagesOf a n) then .next s
  else
    let ls := (linesOf a n).map (fun va => s.lineAt core vd va)
    match s.lockStatus w (clusterOf core) (ls.map (fun x => x.map (·.1))) with
    | (0, new) =>
      let t := (ls.filterMap id).foldl (fun t x =>
        let t := if t.presentAt core 1 x.1 then t else (t.bringCc vd (clusterOf core) x.1 x.2).2
        t.modWg w (fun y => { y with locks := tput y.locks x.1 true })) s
      done t 0 new.length
    | (st, _) => done s st 0

/-- R290. A walk that meets MIG is waited for. -/
def execUlk (f : FM) (s : State) : Out :=
  let k := s.cur
  let acts := s.acts k f.hd
  let w := wgOf k
  let a := (s.laneAddr k f 0).toNat
  let n := (s.ssrc k f.b).toNat
  if acts = 0 then .next (s.finish k [])
  else if s.memBadSrc k f acts || s.sBadSrc k f.b then .next (s.trapHere k .poison 0 0 0)
  else if s.anyMig k (pagesOf a n) then .next s
  else
    let locks := (s.wg w).locks
    let out := (locks.map (·.1)).filter (fun l => s.lineIn (s.coreOf k) (s.vdOf k) a n l)
    let t := s.modWg w (fun x => { x with locks := x.locks.filter (fun e => !out.contains e.1) })
    .next (t.issue k f.hd (mkPend .store [.sreg f.d.toNat (BitVec.ofNat 64 (2 ^ 32 * out.length))] true none))

/-! Fences (R292). -/

/-- A pending word of a load kind (R292). -/
def Pending.isLoad (p : Pending) : Bool :=
  match p.kind with
  | .load => true
  | _ => false

/-- R292: performed once. Every memory effect of the fibre's earlier words stands already (log entry 4); an `.acq` half lets
its loads complete first, and a `.rel` half its drains. While an earlier push or `unseal` is not performed the fence's condition does not
hold: it stays pending, and later words that it holds do not issue. -/
def execFence (f : FM) (s : State) : Out :=
  let k := s.cur
  let acts := s.acts k f.hd
  if acts = 0 then .next (s.finish k [])
  else if s.pBadSrc k f.hd.gp.toNat then .next (s.trapHere k .poison 0 0 0)
  else
    let t := if f.cnt = 0 then s else s.foldMine k
    let t := if f.cnt = 1 then t else t.completeIf k (fun p => p.ready && p.isLoad)
    let kind : PKind := if f.cnt = 0 then .other else .fence (f.cnt = 2)
    .next ((t.issue k f.hd (mkPend kind [] (f.cnt = 0 || !t.relBlocked k) none)).rouse k)

end Sys2Proof.Machine
end

