-- ==== Sys2Proof/Machine/Atomic.lean ====
section
/-! DEFINITION. Atomics, reductions and Gauze regions (R388 to R405). -/

namespace Sys2Proof.Machine

/-- AOP (R76). -/
def FM.aop (f : FM) : Nat := f.off.toNat / 128

/-- The offset of `atom` and `red`, in the low seven bits of OFF (R76). -/
def FM.aoff (f : FM) : W64 := (f.off.extractLsb' 0 7).signExtend 64

/-- What an access at an execution point does (R391). -/
inductive Upd where
  | op (aop x : Nat) | cas (cmp new : Nat) | read
  deriving DecidableEq, Repr

/-- The new element for a type without a shadow (R391). -/
def Upd.app (u : Upd) (ty o : Nat) : Nat :=
  match u with
  | .op aop x => atomicOp aop ty o x
  | .cas c n => if o = c then n else o
  | .read => o

/-- An update of an element that has no shadow store beside it: scratch rounds at once (R396). -/
def Upd.plain (u : Upd) (ty o : Nat) : Nat :=
  match shadowFmt ty, u with
  | some f, .op _ x => f.round 0 (f32.value (add32 (rne32 (f.value o)) (rne32 (f.value x))).toNat)
  | _, _ => u.app ty o

/-- Copies of a line in the clusters come back to the home and go, but for the one that `keep` names (R394). -/
def State.takeLine (s : State) (line : Nat) (keep : Option Nat) : State :=
  (s.cc.filter (fun e => e.1 % 2 ^ 52 = line && e.2.dirty != 0 && some (e.1 / 2 ^ 52) != keep)).foldl
    (fun s e => s.ccDrop (e.1 / 2 ^ 52) line) s

/-- After an update at the home, the issuing cluster's and core's copies of an UNTRACKED line hold the new bytes (R274). -/
def State.refresh (s : State) (core pa n : Nat) : State :=
  let bs := s.readMem pa n
  let k := hkey (clusterOf core) (pa / 64)
  let s := match tfind s.cc k with
    | some c => if c.fresh then s else { s with cc := tput s.cc k { c with data := putLine c.data (pa % 64) bs } }
    | none => s
  s.l0Update core pa bs

/-- The holder of an element's execution point in device memory (R393): 0 the home slice, c + 1 cluster c. -/
def execHolder (core attr scope : Nat) : Nat := if attr = 0 && scope ≤ 3 then clusterOf core + 1 else 0

/-- One access at an element's execution point (R391, R393, R394): the old value, whether the element is poisoned (it is then
unchanged), and the state. -/
def State.atPoint (s : State) (w : Who) (l : Loc) (ty : Nat) (u : Upd) : Nat × Bool × State :=
  let n := tyBytes ty
  match l with
  | .scr o =>
    let old := leNat (readTab (s.wg w.wg).scratch o n)
    if s.locBad w l n then (0, true, s) else (old, false, s.modWg w.wg (fun x => { x with scratch := writeTab x.scratch o (leBytes n (u.plain ty old)) }))
  | .ob o => (leNat (readTab (s.wg w.wg).ob o n), false, s)
  | .host a =>
    let old := leNat (readTab s.hostMem a n)
    (old, false, { s with hostMem := writeTab s.hostMem a (leBytes n (u.app ty old)) })
  | .peer p a =>
    let old := leNat (readTab s.peerMem (hkey p a) n)
    (old, false, { s with peerMem := writeTab s.peerMem (hkey p a) (leBytes n (u.app ty old)) })
  | .dev pa attr _ =>
    let line := pa / 64
    let cl := clusterOf w.core
    let holder := execHolder w.core attr w.scope
    let s := s.combine line
    let s := if attr = 1 then s.writeBackSector cl line (sectorBit pa) else s.takeLine line (if holder = 0 then none else some cl)
    let s := s.l2Fill w.vd line none
    if tget false s.poison (pa / 32) then (0, true, s)
    else
      let old := s.elemAt pa ty
      match u with
      | .read => (old, false, s)
      | .op aop x =>
        let s := if holder = 0 then s.l2Dirty w.vd line else s.touchDirty w line (sectorBit pa)
        (old, false, (s.updateElem holder pa aop ty x).refresh w.core pa n)
      | .cas c nw =>
        let s := if holder = 0 then s.l2Dirty w.vd line else s.touchDirty w line (sectorBit pa)
        (old, false, ((s.dropShadows pa n).setElem pa ty (if old = c then nw else old)).refresh w.core pa n)

/-- Why an element's page refuses an atomic access (R393, R405): host memory takes the AtomicOps only, and a replicated page
integer reductions only. -/
def atomicRefuse (ty : Nat) (u : Upd) (isRed : Bool) (ps : List Piece) : Option Cause :=
  let int := 4 ≤ ty && ty ≤ 7
  let one (l : Loc) : Bool := match l with
    | .host _ => (match u with
      | .op 0 _ => !int
      | .op 6 _ => !(int || ty = 10)
      | .cas _ _ => false
      | _ => true)
    | _ => false
  if ps.any (fun (p : Piece) => p.locs.any one) then some .protection
  else if ps.any Piece.remote && !(isRed && int) then some .protection
  else none

/-- The element of each lane. -/
def State.atomElems (s : State) (k : Nat) (f : FM) (off : W64) (lns : List Nat) : List Elem :=
  let n := tyBytes f.ty.toNat
  lns.map (fun l => { lane := l, e := 0, addr := s.laneAddrOff k f off l, len := n, al := n })

/-- A register operand of the word's type (R184, R388). -/
def State.atomVal (s : State) (k : Nat) (f : FM) (r l : Nat) : Nat :=
  if ty64 f.ty.toNat then (s.vpairReg k r l).toNat else (s.vreg k r l).toNat % 2 ^ (8 * tyBytes f.ty.toNat)

/-- Perform the lanes' accesses in ascending order (R392), each at its execution point: their old values and poison. -/
def State.pointAccs (s : State) (w : Who) (ty : Nat) (u : Nat → Upd) : List Acc → List Got × State
  | [] => ([], s)
  | a :: t =>
    let ls := match a.ps with
      | some ps => ps.flatMap (fun (p : Piece) => p.locs)
      | none => []
    let r := ls.foldl (fun (r : Nat × Bool × State) l =>
      let q := r.2.2.atPoint w l ty (u a.lane)
      (q.1, r.2.1 || q.2.1, q.2.2)) (0, false, s)
    let q := r.2.2.pointAccs w ty u t
    ({ lane := a.lane, e := 0, addr := a.addr, data := leBytes 8 r.1, bad := r.2.1 } :: q.1, q.2)

/-- The destination writes of a word that returns an element: in shadow mode a copy takes its lane's value (R443). -/
def State.atomWrites (s : State) (k d ty : Nat) (acts : LaneMask) (gs : List Got) : List RegWrite :=
  let sh := (s.fib k).shadow
  (lanesOf (acts &&& ~~~(s.fib k).helper)).flatMap (fun l =>
    let src := if sh then l % 16 else l
    match gs.find? (fun g => g.lane = src) with
    | some g => if ty64 ty then s.vw64 k d l (w64OfBytes g.data) else [s.vw k d l (BitVec.ofNat 32 (leNat g.data))]
    | none => [])

/-- The soft errors of a word's registers: address, operands in v(D), and v(B) where `useB`. -/
def State.atomBad (s : State) (k : Nat) (f : FM) (acts : LaneMask) (useB : Bool) : Bool :=
  let n := if ty64 f.ty.toNat then 2 else 1
  s.memBadSrc k f acts || s.runBad k acts f.d.toNat n || (useB && s.runBad k acts f.b.toNat n)

/-- `atom` and `atomx` (R391): both return the old value when they complete. -/
def State.atomWord (s : State) (k : Nat) (f : FM) (off : W64) (useB : Bool) (u : Nat → Upd) (key : Nat → List Nat) : State :=
  let acts := s.acts k f.hd
  let sp := f.space.toNat
  let ty := f.ty.toNat
  if acts = 0 then s.finish k []
  else if s.atomBad k f acts useB then s.trapHere k .poison 0 0 0
  else
    match s.dmrLanes k acts (fun l => (s.laneAddrOff k f off l).toNat :: key l) with
    | some i => s.trapHere k .dmrMismatch i 0 0
    | none =>
      match s.planWith k sp .wr (s.isHelper k) (fun x ps => atomicRefuse ty (u x.lane) false ps) (s.atomElems k f off (lanesOf (s.storeLanes k acts))) with
      | .error (e, l, a) => s.accessFault k e l a true
      | .ok as =>
        let n := s.elemPasses k sp (tyBytes ty) (s.atomElems k f off (lanesOf acts))
        let s := ((s.approach k sp as).meetAccs (s.vdOf k) true as).countScratch k sp n
        let r := s.pointAccs (s.who k f.scope.toNat) ty u as
        r.2.issueLoad k f.hd (r.2.atomWrites k f.d.toNat ty acts r.1) (firstBad r.1)

/-- R391. -/
def execAtom (f : FM) (s : State) : Out :=
  let k := s.cur
  .next (s.atomWord k f (FM.aoff f) false (fun l => .op (FM.aop f) (s.atomVal k f f.d.toNat l)) (fun l => [s.atomVal k f f.d.toNat l]))

/-- R391. -/
def execAtomx (f : FM) (s : State) : Out :=
  let k := s.cur
  .next (s.atomWord k f (FM.offset f) true (fun l => .cas (s.atomVal k f f.d.toNat l) (s.atomVal k f f.b.toNat l))
    (fun l => [s.atomVal k f f.d.toNat l, s.atomVal k f f.b.toNat l]))

/-! Update-only copies (R395). -/

def UCopy.empty : UCopy := { tag0 := none, tag1 := none, parts := [], tracker := 0 }

/-- The identity of an operator (R242). -/
def identityOf (aop ty : Nat) : Nat :=
  let w := 8 * tyBytes ty
  match aop with
  | 1 => if ty = 10 then 0x7F800000 else if tySigned ty then 2 ^ (w - 1) - 1 else 2 ^ w - 1
  | 2 => if ty = 10 then 0xFF800000 else if tySigned ty then 2 ^ (w - 1) else 0
  | 3 => 2 ^ w - 1
  | _ => 0

/-- A partial after one more update (R395, R396): an f32 sum for bf16 and f8a; saturating for a counter (type code 63). -/
def addPart (aop ty : Nat) (old : Option W64) (x : Nat) : W64 :=
  if ty = 63 then satAdd (old.getD 0) (BitVec.ofNat 64 x)
  else
    match shadowFmt ty with
    | some f => (add32 ((old.getD 0).extractLsb' 0 32) (rne32 (f.value x))).setWidth 64
    | none => BitVec.ofNat 64 (atomicOp aop ty (match old with | some v => v.toNat | none => identityOf aop ty) x)

/-- An update in the issuing cluster's update-only copy: another operator's partial in the sector drains first. -/
def State.updateU (s : State) (cl pa aop ty x : Nat) : State :=
  let line := pa / 64
  let k := hkey cl line
  let sec := sectorBit pa
  let u := tget UCopy.empty s.ucopies k
  let tag := if sec = 0 then u.tag0 else u.tag1
  let s := if tag.isSome && tag != some (aop, ty) then (s.l2Dirty 0 line).foldSector line sec tag u.parts else s
  let parts := if tag.isSome && tag != some (aop, ty) then u.parts.filter (fun e => e.1 / 32 != sec) else u.parts
  let u : UCopy := { u with parts := tput parts (pa % 64) (addPart aop ty (tfind parts (pa % 64)) x),
                            tag0 := if sec = 0 then some (aop, ty) else u.tag0, tag1 := if sec = 0 then u.tag1 else some (aop, ty) }
  { s with ucopies := tput s.ucopies k u }

/-- The region of a context that holds an address (R399). -/
def State.regionOf (s : State) (vd va : Nat) : Option Region := (s.vd vd).regions.find? (fun r => r.va ≤ va && va < r.va + r.len)

/-- Whether a reduction or a counter add at a scope is performed in a U copy (R395): up to `.dev`, on a TRACKED line of this
package that no region holds, where the model's switch says so (log entry 35). -/
def State.inU (s : State) (vd va scope : Nat) (l : Loc) : Bool :=
  match l with
  | .dev pa 0 _ => s.redInU && scope ≤ 5 && (s.regionOf vd va).isNone && !tget false s.poison (pa / 32)
  | _ => false

/-- The one location of an access. -/
def Acc.loc (a : Acc) : Option Loc :=
  match a.ps with
  | some [p] => (match p.locs with
    | [l] => some l
    | _ => none)
  | _ => none

/-- Whether a reduction of a lane goes to a U copy: `.incw` and `.decw` have no identity and do not. -/
def State.redU (s : State) (k aop scope : Nat) (a : Acc) : Bool :=
  match a.loc with
  | some l => aop ≤ 5 && s.inU (s.vdOf k) a.addr.toNat scope l
  | none => false

/-- The lanes of a reduction, in ascending order. -/
def State.redAccs (s : State) (k aop ty scope : Nat) (x : Nat → Nat) (as : List Acc) : Option (Nat × W64) × State :=
  as.foldl (fun (r : Option (Nat × W64) × State) a =>
    let s := r.2
    match s.redU k aop scope a, a.loc with
    | true, some (.dev pa _ _) => (r.1, s.updateU (clusterOf (s.coreOf k)) pa aop ty (x a.lane))
    | _, _ =>
      let q := s.pointAccs (s.who k scope) ty (fun l => .op aop (x l)) [a]
      (match r.1 with | some b => some b | none => firstBad q.1, q.2)) (none, s)

/-- `red`, and `gadd` outside regions (R391, R395, R402): it returns nothing; poison at an execution point is reported as for a
load (R405). -/
def State.redWord (s : State) (k : Nat) (f : FM) (off : W64) (aop scope : Nat) (isRed : Bool) (chk : Elem → List Piece → Option Cause)
    (perform : State → List Acc → State) : State :=
  let acts := s.acts k f.hd
  let sp := f.space.toNat
  let ty := f.ty.toNat
  let x (l : Nat) : Nat := s.atomVal k f f.d.toNat l
  if acts = 0 then s.finish k []
  else if s.atomBad k f acts false then s.trapHere k .poison 0 0 0
  else
    match s.dmrLanes k acts (fun l => [(s.laneAddrOff k f off l).toNat, x l]) with
    | some i => s.trapHere k .dmrMismatch i 0 0
    | none =>
      match s.planWith k sp .wr (s.isHelper k) (fun e ps => match chk e ps with
          | some c => some c
          | none => atomicRefuse ty (.op aop (x e.lane)) isRed ps) (s.atomElems k f off (lanesOf (s.storeLanes k acts))) with
      | .error (e, l, a) => s.accessFault k e l a true
      | .ok as =>
        let out := as.filter (fun a => (s.regionOf (s.vdOf k) a.addr.toNat).isNone || sp != 0)
        let home := out.filter (fun a => !s.redU k aop scope a)
        let t := (s.approach k sp as).meetAccs (s.vdOf k) true (if sp = 0 then home else [])
        let t := t.countScratch k sp (s.elemPasses k sp (tyBytes ty) (s.atomElems k f off (lanesOf acts)))
        perform t as

/-- R391, R395. -/
def execRed (f : FM) (s : State) : Out :=
  let k := s.cur
  let x (l : Nat) : Nat := s.atomVal k f f.d.toNat l
  .next (s.redWord k f (FM.aoff f) (FM.aop f) f.scope.toNat true (fun _ _ => none) (fun t as =>
    let r := t.redAccs k (FM.aop f) f.ty.toNat f.scope.toNat x as
    r.2.issue k f.hd (mkPend .store [] true r.1)))

/-! Gauze regions. -/

/-- The magnitude of an addend, as f32 rounded upwards; NaN and infinities are infinite (R401, R402). -/
def gaddMag (ty x : Nat) : W32 :=
  if ty = 4 then BitVec.ofNat 32 (f32.round 2 (FV.ofInt (sgn 32 x).natAbs))
  else
    match (tyFmt ty).value x with
    | .num _ m e => BitVec.ofNat 32 (f32.round 2 (.num false m e))
    | _ => 0x7F800000

/-- Σ σ_h of a line, exactly (R401). -/
def bookSum (b : Book) : FV := b.foldl (fun acc e => acc.add false (f32.value e.2.toNat)) (.num false 0 0)

/-- B / 4. -/
def quarterOf (b : W32) : FV := match f32.value b.toNat with
  | .num n m e => .num n m (e - 2)
  | v => v

/-- The share that the home grants or tops up to (R401): Min(σ + free, B / 4), kept within f32 by rounding down. -/
def grantShare (budget : W32) (book : Book) (own : W32) : W32 :=
  let total : FV := (f32.value budget.toNat).add false ((bookSum book).negate)
  let most : FV := total.add false (f32.value own.toNat)
  let q := quarterOf budget
  BitVec.ofNat 32 (f32.round 1 (if most.lt q then most else q))

/-- The magnitude of a line's drains in flight from a holder. -/
def State.inFlight (s : State) (cl line : Nat) : FV :=
  s.drains.foldl (fun acc d => if d.cluster = cl && d.line = line then acc.add false (f32.value d.mag.toNat) else acc) (.num false 0 0)

/-- One `gadd` in a region (R401, R402): withheld in the holder's copy, drained with its partial, or folded at the home. The
second result says that a drain is in flight. -/
def State.gaddLane (s : State) (vd cl pa ty x : Nat) (rg : Region) : State × Bool :=
  let line := pa / 64
  let k := hkey cl line
  let book : Book := tget [] s.books line
  let fresh := (tfind s.ucopies k).isNone
  let share : W32 := if fresh then grantShare rg.budget book 0 else tget 0 book cl
  let u := tget UCopy.empty s.ucopies k
  let t := addUp32 u.tracker (gaddMag ty x)
  if share = 0 then ((s.l2Dirty vd line).updateElem 0 pa 0 ty x, false)
  else
    let book := tput book cl share
    if le32 t share then
      let s := s.updateU cl pa 0 ty x
      let u := tget UCopy.empty s.ucopies k
      ({ s with ucopies := tput s.ucopies k { u with tracker := t }, books := tput s.books line book }, false)
    else
      let parts := tput u.parts (pa % 64) (addPart 0 ty (tfind u.parts (pa % 64)) x)
      let mag := BitVec.ofNat 32 (f32.round 2 ((f32.value u.tracker.toNat).add false ((s.inFlight cl line).negate)))
      let d : Drain := { cluster := cl, line := line, ty := ty, parts := parts, mag := mag }
      let top := grantShare rg.budget book share
      let book := if (f32.value share.toNat).lt (quarterOf rg.budget) then tput book cl top else book
      ({ s with ucopies := tput s.ucopies k { u with parts := [] }, books := tput s.books line book, drains := s.drains ++ [d] }, true)

/-- The scope of a Gauze word: codes 6 and 7 act as `.dev` (R402). -/
def gauzeScope (f : FM) : Nat := min 5 f.scope.toNat

/-- R402. Every lane that meets a line in motion at its home counts (R322); the word completes once each of its drains is folded. -/
def execGadd (f : FM) (s : State) : Out :=
  let k := s.cur
  let vd := s.vdOf k
  let cl := clusterOf (s.coreOf k)
  let ty := f.ty.toNat
  let x (l : Nat) : Nat := s.atomVal k f f.d.toNat l
  let wrong (e : Elem) (_ : List Piece) : Option Cause := match s.regionOf vd e.addr.toNat with
    | some r => if r.ty = ty then none else some .protection
    | none => none
  .next (s.redWord k f (FM.offset f) 0 (gauzeScope f) false wrong (fun t as =>
    let on (line : Nat) : Nat := (as.filter (fun b => match t.regionOf vd b.addr.toNat, b.loc with
      | some _, some (.dev pa _ _) => pa / 64 = line
      | _, _ => false)).length
    let r := as.foldl (fun (r : Option (Nat × W64) × List Nat × State) a =>
      match r.2.2.regionOf vd a.addr.toNat, a.loc with
      | some rg, some (.dev pa _ _) =>
        let home := (tfind r.2.2.ucopies (hkey cl (pa / 64))).isNone && grantShare rg.budget (tget [] r.2.2.books (pa / 64)) 0 = 0
        let t := r.2.2.meetLine vd pa (if home then on (pa / 64) else 0)
        let t := t.l2Fill vd (pa / 64) none
        if tget false t.poison (pa / 32) then ((match r.1 with | some b => some b | none => some (a.lane, a.addr)), r.2.1, t)
        else
          let q := t.gaddLane vd cl pa ty (x a.lane) rg
          (r.1, if q.2 then r.2.1 ++ [pa / 64] else r.2.1, q.1)
      | _, _ =>
        let q := r.2.2.redAccs k 0 ty (gauzeScope f) x [a]
        (match r.1 with | some b => some b | none => q.1, r.2.1, q.2)) (none, [], t)
    if r.2.1.isEmpty then r.2.2.issue k f.hd (mkPend .store [] true r.1)
    else r.2.2.issue k f.hd (mkPend (.drain cl r.2.1) [] false r.1)))

/-- Share entries by share descending, lower cluster first on ties (R403). -/
def biggestShare : Book → Option (Nat × W32)
  | [] => none
  | e :: t =>
    match biggestShare t with
    | none => some e
    | some b => if le32 b.2 e.2 then some e else some b

/-- Force drains until the withheld shares sum to at most ε (R403). -/
def State.forceDrains (s : State) (line : Nat) (eps : FV) : Nat → State
  | 0 => s
  | fuel + 1 =>
    let book : Book := tget [] s.books line
    match biggestShare book with
    | none => s
    | some (cl, _) =>
      if eps.lt (bookSum book) then
        let s := (s.drains.filter (fun d => d.cluster = cl && d.line = line)).foldl (fun s d => s.foldDrain d) s
        let s := s.drainU cl line
        ({ s with books := tput s.books line (tdel (tget [] s.books line) cl) }).forceDrains line eps fuel
      else s

/-- ε of R403: a negative or NaN ε acts as 0. -/
def epsOf (v : W64) : FV :=
  match f32.value (v.extractLsb' 0 32).toNat with
  | .nan => .num false 0 0
  | .inf true => .num false 0 0
  | .num true _ _ => .num false 0 0
  | x => x

/-- R403. -/
def execGld (f : FM) (s : State) : Out :=
  let k := s.cur
  let acts := s.acts k f.hd
  let vd := s.vdOf k
  let ty := f.ty.toNat
  let eps := epsOf (s.ssrc k f.b)
  let refuse (e : Elem) (ps : List Piece) : Option Cause := match s.regionOf vd e.addr.toNat with
    | some r => if r.ty = ty then none else some .protection
    | none => atomicRefuse ty .read false ps
  if acts = 0 then .next (s.finish k [])
  else if s.memBadSrc k f acts || s.sBadSrc k f.b then .next (s.trapHere k .poison 0 0 0)
  else
    match s.planWith k 0 .rd (s.isHelper k) refuse (s.atomElems k f (FM.offset f) (lanesOf (acts &&& ~~~(s.fib k).helper))) with
    | .error (e, l, a) => .next (s.accessFault k e l a false)
    | .ok as =>
      let s := (s.foldMine k).completeIf k (fun p => p.ready && (match p.kind with | .drain _ _ => true | _ => false))
      let s := (s.approach k 0 as).meetAccs vd false as
      let r := as.foldl (fun (r : List Got × State) a =>
        let t := r.2
        let q := match t.regionOf vd a.addr.toNat, a.loc with
          | some _, some (.dev pa _ _) =>
            let t := (t.forceDrains (pa / 64) eps (tget [] t.books (pa / 64)).length).l2Fill vd (pa / 64) none
            (t.elemAt pa ty, tget false t.poison (pa / 32), t)
          | _, some l => t.atPoint (t.who k f.scope.toNat) l ty .read
          | _, none => (0, false, t)
        (r.1 ++ [{ lane := a.lane, e := 0, addr := a.addr, data := leBytes 8 q.1, bad := q.2.1 }], q.2.2)) ([], s)
      let ws := (lanesOf (acts &&& ~~~(s.fib k).helper)).flatMap (fun l => match r.1.find? (fun g => g.lane = l) with
        | some g => [r.2.vw k f.d.toNat l (BitVec.ofNat 32 (leNat g.data))]
        | none => [])
      .next (r.2.issueLoad k f.hd ws (firstBad r.1))

/-- The status of `gdef` with a length (R399). -/
def State.gdefStatus (s : State) (core vd a n : Nat) (b : W32) : Nat :=
  let rs := (s.vd vd).regions
  if a % 64 != 0 || n % 64 != 0 then 1
  else if rs.any (fun r => a < r.va + r.len && r.va < a + n) then 2
  else if rs.length = 64 then 3
  else if (pagesOf a n).any (fun p => match s.globalPiece core vd .wr p 1 with
    | .ok { locs := [.dev _ 0 _], .. } => false
    | _ => true) then 4
  else
    match f32.value b.toNat with
    | .num neg m _ => if neg && m != 0 then 5 else 0
    | _ => 5

/-- The lines of a range that an update-only copy, a share or a drain concerns. -/
def State.gauzeLines (s : State) (core vd a n : Nat) : List Nat :=
  (s.heldIn core vd a n (s.ucopies.map (fun e => e.1 % 2 ^ 52) ++ s.books.map (·.1) ++ s.drains.map (fun d => d.line))).eraseDups

/-- Combine a range and take its shares back. -/
def State.settleRange (s : State) (core vd a n : Nat) : State :=
  (s.gauzeLines core vd a n).foldl (fun s line => { s.combine line with books := tdel s.books line }) s

/-- R399; suppressed when only helper lanes act. A walk that meets MIG is waited for. -/
def execGdef (f : FM) (s : State) : Out :=
  let k := s.cur
  let acts := s.acts k f.hd
  let vd := s.vdOf k
  let core := s.coreOf k
  let a := (s.laneAddr k f 0).toNat
  let v := s.ssrc k f.b
  let n := (v.extractLsb' 0 32).toNat
  let b := v.extractLsb' 32 32
  let done (t : State) (st : Nat) : Out := .next (t.issue k f.hd (mkPend .store [.sreg f.d.toNat (BitVec.ofNat 64 st)] true none))
  if s.onlyHelpers k acts then .next (s.finish k [])
  else if s.memBadSrc k f acts || s.sBadSrc k f.b then .next (s.trapHere k .poison 0 0 0)
  else if n != 0 then
    let st := s.gdefStatus core vd a n b
    if (st = 0 || 4 ≤ st) && s.anyMig k (pagesOf a n) then .next s
    else if st = 0 then
      done ((s.settleRange core vd a n).modVd vd (fun x => { x with regions := x.regions ++ [{ va := a, len := n, ty := f.ty.toNat, budget := b }] })) 0
    else done s st
  else
    match (s.vd vd).regions.find? (fun r => r.va = a) with
    | none => done s 6
    | some r =>
      if s.anyMig k (pagesOf r.va r.len) then .next s
      else done ((s.settleRange core vd r.va r.len).modVd vd (fun x => { x with regions := x.regions.filter (fun y => y.va != a) })) 0

/-- GAUZE_DRAIN_ACK (R401): the oldest drain of a holder is folded at the home and acknowledged. -/
def execGauzeDrainAck (cluster line : Nat) (s : State) : Out :=
  match s.drains.find? (fun d => d.cluster = cluster && d.line = line) with
  | none => .next s
  | some d => .next (((s.meetLine 0 (64 * line) 0).l2Dirty 0 line).foldDrain d)

end Sys2Proof.Machine
end

