-- ==== Sys2Proof/Machine/Ctl.lean ====
section
/-! DEFINITION. The clause header and the control class (R62, R64, R87, R160, R170, R171, R174 to R181). -/

namespace Sys2Proof.Machine

/-- Lane i and lane 16 + i of a shadow-mode fibre differ under `g` (R443): the lowest such i among the lanes of `m`. -/
def dmrDiff {α : Type} [DecidableEq α] (m : LaneMask) (g : Nat → α) : Option Nat :=
  (List.range 16).find? (fun i => m.getLsbD i && m.getLsbD (i + 16) && g i != g (i + 16))

/-- A control word gives each lane its next PC and FP, or none where it continues at Next (R160). -/
def State.control (s : State) (k : Nat) (g : Nat → Option (W64 × Nat)) : State :=
  let f := s.fib k
  let e := f.entry
  match (if f.shadow then dmrDiff e.mask g else none) with
  | some i => s.trapHere k .dmrMismatch i 0 0
  | none =>
    let stay := maskOf (fun l => e.mask.getLsbD l && (g l).isNone)
    let s := s.counted k
    let fr := addEntry { e.next with mask := stay } ((s.fib k).frontier.drop 1)
    let fr := (lanesOf e.mask).foldl (fun fr l => match g l with
      | some (pc, fp) => addEntry (e.jump pc fp (maskOf (fun i => i = l))) fr
      | none => fr) fr
    ((s.modFib k (fun f => { f with frontier := fr })).select k).leaveClauses k

/-- Here + 8 × TGT (R174). -/
def branchTo (f : FC) (here : W64) : W64 := here + 8 * f.tgt.signExtend 64

/-- The entry that the fibre has selected waits at `w` from now on, standing at Next (R151, R178, R179). -/
def State.waitAt (s : State) (k : Nat) (w : Wait) : State :=
  let e := (s.fib k).entry
  let s := s.counted k
  (((s.modFib k (fun f => { f with frontier := addEntry { e.next with wait := w } (f.frontier.drop 1) })).wake k).select k).leaveClauses k

/-- CLAUSE_ENTRY: a header is checked (R64), its BPRI taken (R158), the group number of a mem clause advances (R278), and the
entry waits for the tokens of WTOK before the first word (R62). -/
def execClauseEntry (w : W64) (s : State) : Out :=
  let k := s.cur
  let h := Hdr.ofWord w
  match h.check with
  | .error .illegalClass => .next (s.trapHere k .illegalClass 0 0 0)
  | .error .illegalEncoding => .next (s.trapHere k .illegalEncoding 0 0 0)
  | .ok c =>
    let f := s.fib k
    let e := f.entry
    let e := { e with hdr := e.pc, pc := e.pc + 8, hw := w, inside := true, bpri := h.bpri, wait := if h.wtok = 0 then .none else .wtok h.wtok }
    let f := { f.setEntry e with group := if c = .mem then f.group + 1 else f.group }
    if h.wtok = 0 then .next (s.setFib k f) else .next (((s.setFib k f).wake k).select k)

/-- NON_INSTRUCTION_ENCODING: an OP, VOP or SOP that names no instruction of its class takes ILLEGAL_OPCODE (R85, R89). -/
def execNonInstructionEncoding (w : W64) (s : State) : Out :=
  let _ := w
  .next (s.trapHere s.cur .illegalOpcode 0 0 0)

def execNop (f : FC) (s : State) : Out :=
  let _ := f
  .next (s.finish s.cur [])

/-- The guard of a control word, or its scalar source where it reads one, holds an uncorrectable soft error (R438). -/
def State.ctlBad (s : State) (k : Nat) (f : FC) (a : Bool) : Bool :=
  s.pBadSrc k f.hd.gp.toNat || (a && f.a < 32 && tget false (s.fib k).sBad f.a.toNat)

/-- R175. -/
def execBra (f : FC) (s : State) : Out :=
  let k := s.cur
  let e := (s.fib k).entry
  let taken := s.acts k f.hd
  if s.ctlBad k f false then .next (s.trapHere k .poison 0 0 0)
  else .next (s.control k (fun l => if taken.getLsbD l then some (branchTo f e.pc, e.fp) else none))

/-- R175; in shadow mode the vote takes lanes 0 to 15 only (R443). -/
def execBrp (f : FC) (s : State) : Out :=
  let k := s.cur
  let x := s.fib k
  let e := x.entry
  let taken := s.acts k f.hd
  let act := if x.shadow then e.mask &&& 0xFFFF else e.mask
  let v := act &&& ~~~x.helper
  let voters := if v = 0 then act else v
  let t := if f.a = 0 then voters &&& taken != 0 else voters &&& ~~~taken = 0
  if s.ctlBad k f false then .next (s.trapHere k .poison 0 0 0)
  else .next (s.control k (fun _ => if t then some (branchTo f e.pc, e.fp) else none))

/-- The condition of `brs` (R174). -/
def brsCond (c : BitVec 6) (v : W64) : Bool :=
  match c.toNat with
  | 0 => v = 0
  | 1 => v != 0
  | 2 => v.msb
  | _ => !v.msb

/-- R175. -/
def execBrs (f : FC) (s : State) : Out :=
  let k := s.cur
  let e := (s.fib k).entry
  let t := s.acts k f.hd != 0 && brsCond f.b (s.ssrc k f.a)
  if s.ctlBad k f true then .next (s.trapHere k .poison 0 0 0)
  else .next (s.control k (fun _ => if t then some (branchTo f e.pc, e.fp) else none))

/-- R175. -/
def execBrx (f : FC) (s : State) : Out :=
  let k := s.cur
  let e := (s.fib k).entry
  let taken := s.acts k f.hd
  if s.ctlBad k f false || s.stackPoison k ((lanesOf taken).map (fun l => 32 * s.ventry k e.fp f.a.toNat + l)) then .next (s.trapHere k .poison 0 0 0)
  else
    .next (s.control k (fun l =>
      if taken.getLsbD l then some (branchTo f e.pc + 8 * (s.vreg k f.a.toNat l).signExtend 64, e.fp) else none))

/-- The link: Next with the shift in its low bits (R170). -/
def linkOf (next : W64) (b : BitVec 6) : W64 := next ||| BitVec.ofNat 64 (b.toNat % 8)

/-- `call` and `callx` (R170): the new frame is made resident, the link is written to its last two frame registers, and the
taken lanes go to the target in it. -/
def State.callTo (s : State) (k : Nat) (f : FC) (target : W64) : State :=
  let e := (s.fib k).entry
  let taken := s.acts k f.hd
  if taken = 0 then s.control k (fun _ => none)
  else
    let fp := e.fp + 8 * f.b.toNat
    match s.resident k fp (s.fib k).frontier (s.resFuel k fp) with
    | .stopped t => t
    | .done s =>
      let sh := (s.wg (wgOf k)).sh
      let link := linkOf e.next.pc f.b
      let ws := (lanesOf taken).flatMap (fun l =>
        [RegWrite.stk (s.ventry k fp (62 - sh)) l (link.extractLsb' 0 32), .stk (s.ventry k fp (63 - sh)) l (link.extractLsb' 32 32)])
      (s.regWrites k ws).control k (fun l => if taken.getLsbD l then some (target, fp) else none)

/-- R170. -/
def execCall (f : FC) (s : State) : Out :=
  if s.ctlBad s.cur f false then .next (s.trapHere s.cur .poison 0 0 0)
  else .next (s.callTo s.cur f (branchTo f (s.fib s.cur).entry.pc))

/-- R170, R176. -/
def execCallx (f : FC) (s : State) : Out :=
  let t := s.ssrc s.cur f.a
  if s.ctlBad s.cur f (s.acts s.cur f.hd != 0) then .next (s.trapHere s.cur .poison 0 0 0)
  else if s.acts s.cur f.hd != 0 && t.extractLsb' 0 3 != 0 then .next (s.trapHere s.cur .misaligned 0 0 0)
  else .next (s.callTo s.cur f t)

/-- Lanes exit at a control word; the others continue at Next (R177). The register results that words still owe to the lanes that exit are
discarded, those of helper lanes that exit with their quad among them (R18, R163). -/
def State.exitAt (s : State) (k : Nat) (taken : LaneMask) : State :=
  let e := (s.fib k).entry
  let s := s.counted k
  let s := (s.modFib k (fun f => { f with frontier := addEntry { e.next with mask := e.mask &&& ~~~taken } (f.frontier.drop 1) })).exitLanes k taken
  let s := s.modFib k (fun f => { f with pend := f.pend.map (fun p => { p with wr := p.wr.filter (fun r => match r with
      | .stk _ l _ => !f.exited.getLsbD l
      | _ => true) }) })
  ((s.select k).leaveClauses k).endFibre k

/-- R177. -/
def execExit (f : FC) (s : State) : Out :=
  if s.ctlBad s.cur f false then .next (s.trapHere s.cur .poison 0 0 0) else .next (s.exitAt s.cur (s.acts s.cur f.hd))

/-- The link of a lane (R171). -/
def State.linkAt (s : State) (k l : Nat) : W64 :=
  let sh := (s.wg (wgOf k)).sh
  s.vreg k (63 - sh) l ++ s.vreg k (62 - sh) l

/-- The taken lanes go where `g` says, and the caller's frame that the next selection needs is made resident within the `ret` (R171). Where
moves are made outside the word and the stack cannot hold both frames, that frame's moves come at the caller's next word (log entry 86). -/
def State.retTo (s : State) (k : Nat) (g : Nat → Option (W64 × Nat)) : State :=
  let e := (s.fib k).entry
  let t := s.control k g
  let fp := (t.fib k).entry.fp
  let w := s.wg (wgOf k)
  if !(lanesOf e.mask).any (fun l => (g l).any (fun x => x.2 = fp)) || (s.movesOutside k && w.depth < e.fp + (64 - w.sh) - fp) then t
  else
    match s.resident k fp (t.fib k).frontier (s.resFuel k fp) with
    | .stopped u => u
    | .done u => u.control k g

/-- R171. -/
def execRet (f : FC) (s : State) : Out :=
  let k := s.cur
  let e := (s.fib k).entry
  let taken := s.acts k f.hd
  let sh := (s.wg (wgOf k)).sh
  if s.ctlBad k f false then .next (s.trapHere k .poison 0 0 0)
  else if e.fp = 0 then .next (s.exitAt k taken)
  else if s.stackPoison k ((lanesOf taken).flatMap (fun l => [32 * s.ventry k e.fp (62 - sh) + l, 32 * s.ventry k e.fp (63 - sh) + l])) then
    .next (s.trapHere k .poison 0 0 0)
  else
    let shift (l : Nat) : Nat := (s.linkAt k l).toNat % 8
    match (lanesOf taken).find? (fun l => shift l = 0 || shift l = 7 || e.fp < 8 * shift l) with
    | some l => .next (s.trapHere k .illegalEncoding l 0 0)
    | none =>
      .next (s.retTo k (fun l =>
        if taken.getLsbD l then some ((s.linkAt k l) &&& ~~~7, e.fp - 8 * shift l) else none))

/-- R178. -/
def execWait (f : FC) (s : State) : Out :=
  let k := s.cur
  let m := f.tgt.extractLsb' 0 8
  if s.acts k f.hd = 0 then .next (s.finish k [])
  else if s.ctlBad k f false then .next (s.trapHere k .poison 0 0 0)
  else .next (s.waitAt k (if m = 0 then .all else .tok m))

/-- R155, R178: the turn passes, where another fibre can issue, as the word ends (`State.passTurn`). -/
def execYield (f : FC) (s : State) : Out :=
  let k := s.cur
  let t := s.finish k []
  if s.acts k f.hd = 0 then .next t
  else if s.ctlBad k f false then .next (s.trapHere k .poison 0 0 0)
  else .next (t.modSlot (slotOf k) (fun x => { x with turn := 4 + fibIdx k }))

/-- R179. -/
def execFbar (f : FC) (s : State) : Out :=
  let k := s.cur
  let sl := slotOf k
  let id := f.a.toNat
  let mask := f.b.extractLsb' 0 4
  if s.acts k f.hd = 0 then .next (s.finish k [])
  else if s.ctlBad k f false then .next (s.trapHere k .poison 0 0 0)
  else
    let b := tget { mask := mask, arrived := 0 } (s.slot sl).bars id
    if b.mask != mask then .next (s.trapHere k .illegalEncoding 0 0 0)
    else
      let s := s.modSlot sl (fun x => { x with bars := tput x.bars id { b with arrived := b.arrived ||| BitVec.ofNat 4 (2 ^ fibIdx k) } })
      .next (((s.waitAt k (.fbar id)).checkBar sl id).select k)

/-- A software trap: it reports its code and resumes at Next (R180). -/
def State.softTrap (s : State) (k : Nat) (c : Cause) (f : FC) : State :=
  if s.acts k f.hd = 0 then s.finish k []
  else if s.ctlBad k f false then s.trapHere k .poison 0 0 0
  else
    let e := (s.fib k).entry
    (s.counted k).raise k { cause := c, lane := 0, addr := 0, code := f.tgt.extractLsb' 0 16, pc := e.pc, resume := e.next.pc }

/-- R180. -/
def execTrap (f : FC) (s : State) : Out := .next (s.softTrap s.cur .userTrap f)

/-- R180. -/
def execBrkpt (f : FC) (s : State) : Out := .next (s.softTrap s.cur .breakpoint f)

end Sys2Proof.Machine
end

