-- ==== Sys2Proof/Machine/Queue.lean ====
section
/-! DEFINITION. The queues of R28 and R370: what stands in them, and when a word cannot issue because its queue is full or
empty (R68, R384). -/

namespace Sys2Proof.Machine

/-- The quarter whose readout queue q4 to q7 names (R28): q4 the fibre's own, the others in ascending order. -/
def State.readoutQuarter (s : State) (k q : Nat) : Nat :=
  let own := (s.slot (slotOf k)).quarter % 4
  if q = 4 then own else nth ((List.range 4).filter (fun i => i != own)) (q - 5)

/-- The entries of a workgroup's readout queue of a quarter (R350). -/
def State.readoutQ (s : State) (w quarter : Nat) : List (Tab W32) := tget [] (s.wg w).readout quarter

/-- The FIFO bank, by its key, that q8 to q15 names (R28, R383). -/
def State.fifoKey (s : State) (k q : Nat) : Option Nat :=
  match tfind (s.wg (wgOf k)).qbind q with
  | some b => some (Bank.key (s.coreOf k) b)
  | none => none

/-- The engine that performs a kind of command: clusters and dies count apart (R370). -/
def State.sameEngine (s : State) (kind cluster : Nat) (c : Cmd) : Bool :=
  if kind ≤ 1 then c.kind ≤ 1 && c.cluster = cluster
  else c.kind = kind && s.dieOf c.cluster = s.dieOf cluster

/-- The commands that wait in an engine's queue. -/
def State.queued (s : State) (kind cluster : Nat) : Nat :=
  (s.cmds.filter (fun e => e.2.st = .queued && s.sameEngine kind cluster e.2)).length

/-- The depth of a command queue (R370). -/
def queueDepth (kind : Nat) : Nat := if kind ≤ 1 then 64 else 32

/-- Whether a fibre has signed an operation on a tile that has not been performed (R347). -/
def State.tileBusy (s : State) (k acc : Nat) : Bool :=
  let x := s.wg (wgOf k)
  let mine (l : List Sig) : Bool := l.any (fun g => g.fib = k && g.acc = acc)
  x.gregs.any (fun g => mine g.2.sigs) || x.issued.any (fun o => mine o.sigs)

/-- Whether a word of the matrix unit cannot issue: a third signature (R334), a tile with an operation under way (R347), or a
readout queue without room (R350). -/
def State.mtxWaits (s : State) (k : Nat) (w : W64) : Bool :=
  let f := FX.ofWord w
  let op := opOf w
  let acts := s.acts k f.hd
  if op < 6 || 11 < op || acts = 0 || !(s.wg (wgOf k)).kd.flags.getLsbD 0 then false
  else if op = 6 then
    2 ≤ ((tget GReg.empty (s.wg (wgOf k)).gregs f.g.toNat).sigs.filter (fun x => x.fib = k)).length
  else s.tileBusy k f.acc.toNat
    || (op = 10 && !s.onlyHelpers k acts
        && 64 < (s.readoutQ (wgOf k) ((s.slot (slotOf k)).quarter % 4)).length + (if f.ck then 2 else 8))

/-- Whether a word of the sys class waits: `rdsr` and `wrsr` for every earlier word of the fibre (R149), `tret` for the words of its
handler (R429), `bankmode` for the one before it in the cluster (R144). -/
def State.sysWaits (s : State) (k : Nat) (w : W64) : Bool :=
  let f := FY.ofWord w
  let acts := s.acts k f.hd
  let x := s.fib k
  match opOf w with
  | 3 => acts != 0 && !x.pend.isEmpty
  | 4 => !s.onlyHelpers k acts && !x.pend.isEmpty
  | 5 => acts != 0 && x.trap.inh && !x.pend.isEmpty
  | 8 => !s.onlyHelpers k acts && x.priv != .user
      && (List.range 64).any (fun b => (s.bank (64 * clusterOf (s.coreOf k) + b)).next.isSome)
  | _ => false

/-- Whether a queue word cannot issue (R384): a full FIFO at `qpush`, an empty queue at `qpop`, a full command queue at a push; or a
word of the matrix unit that waits. -/
def State.queueWaits (s : State) (k : Nat) (c : Cls) (w : W64) : Bool :=
  if c = .mtx then s.mtxWaits k w
  else if c = .sys then s.sysWaits k w
  else if c != .eng then false
  else
    let f := FQ.ofWord w
    let acts := s.acts k f.hd
    let q := f.q.toNat
    match opOf w with
    | 1 => !s.onlyHelpers k acts && (match s.fifoKey k q with
      | some b => 2048 ≤ (s.bank b).fifo.length
      | none => false)
    | 2 => acts != 0 && (if q < 8 then (s.readoutQ (wgOf k) (s.readoutQuarter k q)).isEmpty
        else match s.fifoKey k q with
          | some b => (s.bank b).fifo.isEmpty
          | none => false)
    | 3 => false
    | 4 => false
    | op => !s.onlyHelpers k acts && queueDepth (op - 5) ≤ s.queued (op - 5) (clusterOf (s.coreOf k))

end Sys2Proof.Machine
end

