-- ==== Sys2Proof/Machine/Sched.lean ====
section
/-! DEFINITION. Which word issues next (R150 to R157), and which event of the device is due when no word can issue. -/

namespace Sys2Proof.Machine

/-- What step 7 of R87 knows of the issuing fibre. -/
def State.decCtx (s : State) (k : Nat) : DecCtx :=
  let w := s.wg (wgOf k)
  let e := (s.fib k).entry
  { shared := w.sh, fibres := w.kd.fibres, fibre := fibIdx k, eph := e.inside && (Hdr.ofWord e.hw).eph.getLsbD e.index }

/-- The class in which the selected entry's word is decoded (R61). -/
def Entry.cls (e : Entry) : Cls := (Hdr.ofWord e.hw).wordCls e.index

/-- A word held by a pending `cwait`: mem-class words, `cadd` and pushes (R363), and the copies of the operand buffer, which are
loads and stores (R352). -/
def heldByCwait (c : Cls) (w : W64) : Bool :=
  match c with
  | .mem => true
  | .mtx => opOf w = 4 || opOf w = 5
  | .syn => opOf w = 1
  | .eng => opOf w = 1 || 5 ≤ opOf w
  | _ => false

/-- A word held by a `fence` whose condition does not hold yet (R292): stores, atomics, adds and pushes, and under `.full` loads too. -/
def heldByFence (full : Bool) (c : Cls) (w : W64) : Bool :=
  match c with
  | .mem => full || [2, 4, 6, 11, 15, 16, 17, 19].contains (opOf w)
  | .mtx => opOf w = 5 || (full && opOf w = 4)
  | .syn => opOf w = 1 || (full && opOf w = 2)
  | .eng => 5 ≤ opOf w
  | _ => false

/-- `cadd`, `cset`, `seal`, `launch` and `tlbi` make a release before they act (R130, R287, R305, R362, R366). -/
def releases (c : Cls) (w : W64) : Bool := (c = .mem && opOf w = 11) || (c = .syn && (opOf w = 1 || opOf w = 7)) || (c = .sys && (opOf w = 1 || opOf w = 7))

/-- A VI word has no LA and no TOK (R65, R74). -/
def isVI (c : Cls) (w : W64) : Bool :=
  match c with
  | .sca => opOf w = 24 || opOf w = 25
  | .vec => opOf w = 31
  | .pair => true
  | _ => false

/-- A `cwait` under an implicit wait: a fibre holds one such at a time (R363). -/
def implicitCwait (c : Cls) (w : W64) : Bool := c = .syn && opOf w = 2 && (Head.ofWord w).la != 15

/-- The word waits for the token that it names (R67), for a pending `cwait` (R363), for a fence or as a release (R287, R292, R362), or at a
queue (R384). -/
def State.wordWaits (s : State) (k : Nat) (w : W64) : Bool :=
  let f := s.fib k
  let c := f.entry.cls
  match decode (s.decCtx k) c w with
  | .error _ => false
  | .ok _ =>
    (!isVI c w && (Head.ofWord w).la = 15 && f.held (Head.ofWord w).tok.toNat)
      || (heldByCwait c w && f.pend.any (fun p => p.isCwait))
      || f.pend.any (fun p => match p.kind with
        | .fence full => !p.ready && heldByFence full c w
        | _ => false)
      || (releases c w && s.relBlocked k)
      || s.queueWaits k c w
      || (implicitCwait c w && f.pend.any (fun p => p.isCwait && p.la.isSome))

/-- The workgroup holds slots of a core: it has been placed and not saved (R138, R433). -/
def State.onCore (s : State) (w : Nat) : Bool :=
  match (s.wg w).life with
  | .running => true
  | .stopping _ => true
  | _ => false

/-- An entry is parked at `fbar`, or at a wait for a pending `cwait` (R432). -/
def Fibre.parksAt (f : Fibre) (e : Entry) : Bool :=
  let cwaits (m : BitVec 8) : Bool := f.pend.any (fun p => p.isCwait && (match p.tok with
    | some t => m.getLsbD t
    | none => false))
  match e.wait with
  | .fbar _ => true
  | .tok m => cwaits m
  | .wtok m => cwaits m
  | .all => f.pend.any (fun p => p.isCwait)
  | .none => false

/-- A fibre stands where a slot that is to be pre-empted may stop: reconverged and between clauses, or frozen, parked at `fbar` or
`cwait`, or exited (R161, R432). -/
def State.atStop (s : State) (k : Nat) : Bool :=
  let f := s.fib k
  f.life != .running || f.frozen.isSome || f.frontier.all (fun e => f.parksAt e) || f.pend.any (fun p => p.isCwait && p.la = some 0)
    || (f.frontier.length ≤ 1 && !f.entry.inside)

/-- The slot issues no word any more because its workgroup is being pre-empted (R432). -/
def State.halts (s : State) (slot : Nat) : Bool :=
  (s.slot slot).stopped || (match (s.wg (slot / 16)).life with
    | .stopping true => true
    | .stopping false => (List.range 4).all (fun i => s.atStop (4 * slot + i))
    | _ => false)

/-- A running fibre that is neither frozen nor about to take a trap, with an entry that does not wait: it is not parked
(R151). -/
def State.awake (s : State) (k : Nat) : Bool :=
  let f := s.fib k
  f.life = .running && f.frozen.isNone && f.raised.isNone && (f.move = 0 || (s.wg (wgOf k)).kd.flags.getLsbD 2) && s.onCore (wgOf k) && !s.halts (slotOf k)
    && !f.frontier.isEmpty && f.entry.wait = .none

/-- Whether the fibre can issue a word, or read a header, now (R151, R162). -/
def State.canIssue (s : State) (k : Nat) : Bool :=
  s.awake k &&
    (!(s.fib k).entry.inside ||
      (!(s.fib k).mustWait && (match s.fetch k (s.fib k).entry.pc with
        | .ok w => !s.wordWaits k w
        | .error (.fault _) => true
        | .error .mig => false)))

/-- A `call` where moves are made outside the word needs only its new frame, which STACK_STATE names (R168): no smaller stack could hold both
(log entry 86). -/
def State.callsOutside (s : State) (k : Nat) : Bool :=
  let e := (s.fib k).entry
  s.movesOutside k && e.cls = .ctl && (match s.fetch k e.pc with
    | .ok w => opOf w = 6 || opOf w = 7
    | .error _ => false)

/-- The frame that the selected entry's word needs is made resident (R165). -/
def State.readyFrame (s : State) (k : Nat) : Res :=
  let fp := (s.fib k).entry.fp
  if s.callsOutside k then .done s else s.resident k fp (s.fib k).frontier (s.resFuel k fp)

/-- SOS of the word at which the fibre stands (R68). -/
def State.sosHere (s : State) (k : Nat) : Bool :=
  match s.fetch k (s.fib k).entry.pc with
  | .ok w => (s.fib k).entry.cls != .pair && w.getLsbD 55
  | .error _ => false

/-- The fibre of a slot that issues now, if any (R155, R156). `turn` is the fibre that holds the turn, plus 4 when it passes it by `yield` or at
a full or empty queue. -/
def State.issuer (s : State) (slot : Nat) : Option Nat :=
  let x := s.slot slot
  let h := 4 * slot + x.turn % 4
  let passes := 4 ≤ x.turn || !s.awake h || !(s.fib h).entry.inside || (!s.canIssue h && s.sosHere h)
  if passes then
    ([1, 2, 3, 4].map (fun i => 4 * slot + (x.turn + i) % 4)).find? (fun k => s.canIssue k)
  else if s.canIssue h then some h else none

/-- An active slot is stalled when every fibre of it is parked (R151). -/
def State.slotStalled (s : State) (slot : Nat) : Bool := (List.range 4).all (fun i => !s.awake (4 * slot + i))

/-- A pending slot is ready when a fibre of it is not parked (R153). -/
def State.slotAwake (s : State) (slot : Nat) : Bool := !s.slotStalled slot

/-- The effective priority of a slot: the highest of its fibres (R369). -/
def State.slotPrio (s : State) (slot : Nat) : Nat :=
  (List.range 4).foldl (fun p i => max p (s.fib (4 * slot + i)).effPrio) (s.wg (slot / 16)).kd.prio

def State.slotQuarter (s : State) (slot : Nat) : Nat := 4 * (s.wg (slot / 16)).core + (s.slot slot).quarter

/-- The slots of a quarter, by physical slot. -/
def State.slotsOf (s : State) (q : Nat) : List Nat := (s.slots.map (·.1)).filter (fun x => s.slotQuarter x = q && s.onCore (x / 16))

/-- Round robin after the slot that issued last (R152): the distance of a physical slot from it. -/
def State.rrDist (s : State) (q slot : Nat) : Nat := ((s.slot slot).pslot + 16 - tget 15 s.lastSlot q - 1) % 16

/-- Whether slot a is to be chosen before slot b (R152). -/
def State.before (s : State) (q a b : Nat) : Bool :=
  let pa := (s.slot a).promoted
  let pb := (s.slot b).promoted
  if pa != pb then pa
  else if !pa && s.slotPrio a != s.slotPrio b then s.slotPrio b < s.slotPrio a
  else s.rrDist q a < s.rrDist q b

/-- The ready active slot that a quarter issues from (R152). -/
def State.pickSlot (s : State) (q : Nat) : List Nat → Option (Nat × Nat)
  | [] => none
  | x :: t =>
    let here := if (s.slot x).active && (s.slot x).delay = 0 then (s.issuer x).map (fun k => (x, k)) else none
    match here, s.pickSlot q t with
    | none, r => r
    | some a, none => some a
    | some a, some b => if s.before q a.1 b.1 then some a else some b

/-- The lowest quarter from `q` on that has a slot. -/
def State.nextQuarter (s : State) (q : Nat) : Option Nat :=
  (s.slots.map (fun e => s.slotQuarter e.1)).foldl (fun best x =>
    if x < q then best
    else
      match best with
      | none => some x
      | some b => some (min b x)) none

/-- The next fibre to issue in this cycle: the first quarter from `s.quarter` on that can issue (R150). -/
def State.pickFrom (s : State) : Nat → Nat → Option (Nat × Nat × Nat)
  | 0, _ => none
  | fuel + 1, q =>
    match s.nextQuarter q with
    | none => none
    | some q' =>
      match s.pickSlot q' (s.slotsOf q') with
      | some (slot, k) => some (q', slot, k)
      | none => s.pickFrom fuel (q' + 1)

def State.pick (s : State) : Option (Nat × Nat × Nat) := s.pickFrom s.slots.length s.quarter

/-- The values that a fibre may find in a shared entry (R25): the writes that no other follows, and, where it sees none of them, the
older ones. -/
def Race.seen (r : Race) (f : Nat) : List W32 := if r.ws.any (fun w => w.2.testBit f) then r.ws.map (·.1) else r.olds ++ r.ws.map (·.1)

/-- What the fibre finds in a shared entry that unordered writes have reached (R25): one of the values allowed, and which one is not
defined. A value that was changed from outside stays. -/
def State.findAt (s : State) (k q : Nat) : State :=
  match tfind (s.slot (slotOf k)).races q with
  | none => s
  | some r =>
    let l := r.seen (fibIdx k)
    if !(r.olds ++ r.ws.map (·.1)).contains (tget 0 (s.slot (slotOf k)).stack q) then s
    else
      let c := if l.length ≤ 1 then (0, s) else s.takeW32
      c.2.modSlot (slotOf k) (fun x => { x with stack := tset 0 x.stack q (l.getD (c.1.toNat % l.length) 0) })

/-- The same for the whole window of its slot. -/
def State.find (s : State) (k : Nat) : State :=
  ((s.slot (slotOf k)).races.map (·.1)).foldl (fun s q => s.findAt k q) s

/-- The state in which the picked fibre's word executes: it is the issuing fibre, its slot issued last, and the cycle goes on
with the following quarter. A header is no word: reading it leaves the quarter its issue (R150). -/
def State.chosen (s : State) (q slot k : Nat) : State :=
  if (s.fib k).entry.inside then
    { ((s.find k).modSlot slot (fun x => { x with turn := fibIdx k, idle := 0, promoted := false, fired := true })) with
      cur := k, quarter := q + 1, lastSlot := tput s.lastSlot q (s.slot slot).pslot }
  else { s.modSlot slot (fun x => { x with turn := fibIdx k }) with cur := k, quarter := q }

/-- The ready pending slot that comes into a quarter's active set next: of the highest effective priority, pending longest
(R153). -/
def State.incoming (s : State) : List Nat → Option Nat
  | [] => none
  | x :: t =>
    if (s.slot x).active || !s.slotAwake x then s.incoming t
    else
      match s.incoming t with
      | none => some x
      | some y => if s.slotPrio x < s.slotPrio y || (s.slotPrio x = s.slotPrio y && (s.slot x).waited < (s.slot y).waited) then some y else some x

/-- A slot enters the active set, by an exchange or because there is room in it: its first word issues 4 cycles later (R151, R153). -/
def State.activate (s : State) (slot : Nat) : State :=
  s.modSlot slot (fun x => { x with active := true, fired := false, idle := 0, age := 0, stalled := 0, waited := 0, residence := 0, delay := 4, promoted := false })

/-- A slot leaves the active set. -/
def State.deactivate (s : State) (slot : Nat) : State :=
  s.modSlot slot (fun x => { x with active := false, idle := 0, age := 0, stalled := 0, waited := 0, residence := 0, promoted := false })

/-- Where fewer than 8 slots of a quarter are active, the ready pending slot that comes in next becomes active (R151). -/
def State.fillQuarter (s : State) (q : Nat) : State :=
  let xs := s.slotsOf q
  if (xs.filter (fun x => (s.slot x).active)).length < 8 then
    match s.incoming xs with
    | some x => s.activate x
    | none => s
  else s

/-- The quarters that hold a pending slot. -/
def State.pendingQuarters (s : State) : List Nat :=
  ((s.slots.filter (fun e => !e.2.active && s.onCore (e.1 / 16))).map (fun e => s.slotQuarter e.1)).eraseDups

/-- The issue turn of a slot passes at once to the next fibre that can issue where its holder has parked, ended or yielded, or cannot issue a
word with SOS = 1; with no such fibre the holder keeps it (R155, R178). The slot's next word issues one cycle later than it would have. -/
def State.passTurn (s : State) (slot : Nat) : State :=
  let x := s.slot slot
  let t := x.turn % 4
  let h := 4 * slot + t
  let others := [1, 2, 3].map (fun i => 4 * slot + (t + i) % 4)
  if x.turn < 4 && !others.any (fun k => s.awake k) then s
  else if 4 ≤ x.turn || !s.awake h || (!s.canIssue h && s.sosHere h) then
    match others.find? (fun k => s.canIssue k) with
    | some k => s.modSlot slot (fun x => { x with turn := k % 4, delay := max x.delay (if x.fired then 2 else 1) })
    | none => s.modSlot slot (fun x => { x with turn := t })
  else s

/-- What holds after every step: the free places of every active set are filled, issue turns have passed, and each cache is within its size
(R7, R151, R155). -/
def State.settle (s : State) : State :=
  let s := s.pendingQuarters.foldl (fun s q => times (fun s => s.fillQuarter q) 8 s) s
  (((s.slots.map (·.1)).filter (fun x => s.onCore (x / 16))).foldl (fun s x => s.passTurn x) s).trim

/-- A core cycle has passed: time, the counts of R152 and R153, and the adds that wait for a walk. The 56 cycles of a promotion are counted
over consecutive cycles in which the slot is ready (DESIGN CHOICE, log entry 85). -/
def State.cycle (s : State) : State :=
  let upd (e : Nat × Slot) : Nat × Slot :=
    let x := e.2
    let ready := (s.issuer e.1).isSome
    let idle := if x.active && ready && !x.fired then x.idle + 1 else 0
    let rival := (s.slotsOf (s.slotQuarter e.1)).any (fun y =>
      !(s.slot y).active && s.slotAwake y && s.slotPrio e.1 ≤ s.slotPrio y)
    (e.1, { x with
      idle := idle,
      promoted := 56 ≤ idle,
      fired := false,
      age := if x.active then x.age + 1 else 0,
      stopped := s.onCore (e.1 / 16) && s.halts e.1,
      stalled := if x.active && s.slotStalled e.1 then x.stalled + 1 else 0,
      waited := if x.active then 0 else x.waited + 1,
      residence := if x.active && rival then x.residence + 1 else 0,
      delay := x.delay - 1 })
  let t : State := { s with quarter := 0, clock := s.clock + s.dt, slots := s.slots.map upd,
                            xchg := s.xchg.filterMap (fun e => if e.2 ≤ 1 then none else some (e.1, e.2 - 1)) }
  t.retryAdds

/-- A pending word that is ready and that the fibre waits for, or that nothing but time holds: it completes in its own time
(R67). The oldest of the first such fibre. -/
def State.dueCompletion (s : State) : Option Instr :=
  s.fibres.findSome? (fun e =>
    match e.2.pend.findIdx? (fun p => s.completes e.1 p && !p.isCwait) with
    | some i => some (.longLatencyComplete e.1 i none)
    | none => none)

/-- A trap that was raised while a word was pending and can be taken now (R427). -/
def State.dueTrap (s : State) : Option Instr :=
  s.fibres.findSome? (fun e =>
    if e.2.raised.isSome && e.2.life = .running && e.2.pend.all (fun p => p.ready || p.isCwait) then some (.trapTake e.1) else none)

end Sys2Proof.Machine
end

