-- ==== Sys2Proof/Machine/Stream.lean ====
section
/-! DEFINITION. The streams of engine commands (R371 to R375): what a command captured, and the bytes that its engine reads; and `unseal`,
which waits for the commands that read a sealed buffer (R288). -/

namespace Sys2Proof.Machine

/-! What a command captured (R371 to R373). -/

/-- The fields of R372 in a command's word. -/
def Cmd.sub (c : Cmd) (lo n : Nat) : Nat := c.word.toNat / 2 ^ lo % 2 ^ n
def Cmd.ssp (c : Cmd) : Bool := c.kind = 0 && c.sub 0 2 = 1
def Cmd.dsp (c : Cmd) : Bool := (c.kind = 0 || c.kind = 1) && c.sub 2 2 = 1
def Cmd.csp (c : Cmd) : Bool := c.sub 4 1 = 1
def Cmd.gather (c : Cmd) : Bool := c.kind = 0 && c.sub 8 1 = 1
def Cmd.scatter (c : Cmd) : Bool := c.kind = 0 && c.sub 9 1 = 1
def Cmd.cmp (c : Cmd) : Nat := if c.kind = 0 then c.sub 10 2 else 0
def Cmd.tw (c : Cmd) : Nat := c.sub 12 4
def Cmd.get (c : Cmd) : Bool := c.sub 8 1 = 1
def Cmd.peer (c : Cmd) : Nat := c.sub 16 6
def Cmd.cop (c : Cmd) : Nat := c.sub 8 3
def Cmd.cty (c : Cmd) : Nat := c.sub 11 5

/-- A workgroup that still has its scratch (R373). -/
def State.live (s : State) (w : Nat) : Bool := (s.wg w).life != .ended && (s.wg w).life != .killed

/-- The agent that performs a command's accesses: its scope contains the pusher and the engine (R33, R372). -/
def Cmd.who (c : Cmd) : Who :=
  { core := 8 * c.cluster, wg := c.wg, vd := c.vd, scope := max c.scope (if c.kind ≤ 1 then 3 else 4) }

/-- The pieces of an engine's access, or its fault and the address of it (R380). -/
def State.engPlan (s : State) (c : Cmd) (scr : Bool) (ak : AK) (al a n : Nat) : Except (XErr × Nat) (List Piece) :=
  if scr then
    if (s.wg c.wg).kd.scratch < a + n then .error (.fault .protection, a)
    else if a % al != 0 then .error (.fault .misaligned, a)
    else .ok ((sectors (n / 32 + 2) a n).map (fun p => { len := p.2, locs := [.scr p.1] }))
  else
    (sectors (n / 32 + 2) a n).foldl (fun (r : Except (XErr × Nat) (List Piece)) p =>
      match r with
      | .error e => .error e
      | .ok ps => match s.globalPiece (8 * c.cluster) c.vd ak p.1 p.2 with
        | .ok q => .ok (ps ++ [q])
        | .error e => .error (e, p.1)) (.ok [])

/-- Element e of a layout record from an origin in rows of width 2^TW (R374). -/
def Cmd.locate (c : Cmd) (rec : BitVec 256) (origin : W64) (e : Nat) : Option W64 :=
  let o := originOf origin
  (LRec.ofBits rec).locate [nth o 0 + e % 2 ^ c.tw, nth o 1 + e / 2 ^ c.tw, nth o 2, nth o 3]

/-- What a read of an engine came to. -/
inductive EngRead where
  | got (data : List Byte) (s : State) | fault (e : XErr) (a : Nat) | poison (a : Nat)

/-- The address of the first poisoned sector of an access that begins at `a` (R277, R380). -/
def State.badFrom (s : State) (w : Who) : List Piece → Nat → Option Nat
  | [], _ => none
  | p :: t, a => if s.piecesBad w [p] then some a else s.badFrom w t (a + p.len)

/-- Read one run of bytes. -/
def State.engRead1 (s : State) (c : Cmd) (scr : Bool) (al a n : Nat) : EngRead :=
  match s.engPlan c scr .rd al a n with
  | .error (e, x) => .fault e x
  | .ok ps =>
    let r := s.readPieces c.who ps
    match r.2.badFrom c.who ps a with
    | some x => .poison x
    | none => .got r.1 r.2

/-- Read a list of runs, one after another; none of them supplies zero bytes (a masked element). -/
def State.engReads (s : State) (c : Cmd) (scr : Bool) (al z : Nat) : List (Option Nat) → EngRead
  | [] => .got [] s
  | none :: t =>
    match s.engReads c scr al z t with
    | .got d s => .got (List.replicate z 0 ++ d) s
    | r => r
  | some a :: t =>
    match s.engRead1 c scr al a z with
    | .got d s =>
      (match s.engReads c scr al z t with
      | .got d' s => .got (d ++ d') s
      | r => r)
    | r => r

/-- Bytes off .. off + n − 1 of the source stream (R374). -/
def State.engSource (s : State) (c : Cmd) (off n : Nat) : EngRead :=
  if n = 0 then .got [] s
  else if c.gather then
    let z := (LRec.ofBits c.lb).elemBytes
    let first := off / z
    let es := (List.range ((off + n - 1) / z - first + 1)).map (fun i => (c.locate c.lb c.src (first + i)).map BitVec.toNat)
    match s.engReads c c.ssp (if c.ssp then min z 4 else 1) z es with
    | .got d s => .got ((d.drop (off - first * z)).take n) s
    | r => r
  else s.engRead1 c c.ssp 1 (c.src.toNat + off) n

/-! Expansion (R375). -/

/-- The 64 bytes of a block with header h from its nonzero bytes (R375). -/
def expandBlock (h : Nat) : Nat → List Byte → List Byte
  | 0, _ => []
  | i + 1, body =>
    if h.testBit (63 - i) then (match body with
      | b :: t => b :: expandBlock h i t
      | [] => 0 :: expandBlock h i [])
    else 0 :: expandBlock h i body

/-- Expand `blocks` blocks from position `pos` of the source stream: the bytes, and how many were read (R375). -/
def State.expand (s : State) (c : Cmd) : Nat → Nat → EngRead × Nat
  | 0, pos => (.got [] s, pos)
  | blocks + 1, pos =>
    match s.engSource c pos 8 with
    | .got hd s =>
      let h := leNat hd
      let n := popNat h 64
      (match s.engSource c (pos + 8) n with
      | .got body s =>
        (match s.expand c blocks (pos + 8 + n) with
        | (.got d s, p) => (.got (expandBlock h 64 body ++ d) s, p)
        | r => r)
      | r => (r, pos))
    | r => (r, pos)

/-! The readers of a sealed buffer (R260, R288). -/

/-- The parts of global memory that a command reads (R374, R378, R379): a gathered source as its elements, an expanded one as far as its blocks
go, a collective with its group record. -/
def State.sources (s : State) (c : Cmd) : List (Nat × Nat) :=
  let n := if c.cmp = 2 then (s.expand c (c.n / 64) 0).2 else c.n
  let z := (LRec.ofBits c.lb).elemBytes
  let main : List (Nat × Nat) :=
    if c.ssp || (c.kind = 2 && c.get) then []
    else if c.gather then (List.range ((n + z - 1) / max 1 z)).filterMap (fun e => (c.locate c.lb c.src e).map (fun a => (a.toNat, z)))
    else [(c.src.toNat, n)]
  if c.kind = 3 then (c.sb.toNat, 64) :: main else main

/-- The commands of a context that its engines, their stand-ins or the host perform now, and that read some byte of [a, a + n). -/
def State.readersOf (s : State) (vd a n : Nat) : List Nat :=
  (s.cmds.filter (fun e => e.2.vd = vd && (e.2.st = .running || e.2.st = .host)
    && (s.sources e.2).any (fun r => r.2 != 0 && r.1 < a + n && a < r.1 + r.2))).map (·.1)

/-- A buffer whose readers have all ended ends, and the words that wait for its end may complete (R288). -/
def State.endSeal (s : State) (vd va : Nat) : State :=
  match (s.vd vd).seals.find? (fun x => x.va = va && x.ending) with
  | none => s
  | some x =>
    if x.readers.any (fun id => (tfind s.cmds id).isSome) then s
    else (s.modVd vd (fun v => { v with seals := v.seals.filter (fun y => y.va != va) })).perform (fun k p => s.vdOf k = vd && p.kind = .unseal va)

/-- Every cache drops its sealed copies of a range (R288). -/
def State.dropSealed (s : State) (core vd a n : Nat) : State :=
  let marked (m : Tab Line) : List Nat := s.heldIn core vd a n ((m.filter (fun e => e.2.sealedCopy)).map (·.1))
  let t := (marked s.cc).foldl (fun s e => s.ccDrop (e / 2 ^ 52) (e % 2 ^ 52)) s
  (marked s.l0).foldl (fun s e => s.l0Drop (e / 2 ^ 52) (e % 2 ^ 52)) t

/-- R288; suppressed when only helper lanes act (R271). -/
def execUnseal (f : FM) (s : State) : Out :=
  let k := s.cur
  let acts := s.acts k f.hd
  let vd := s.vdOf k
  let a := (s.laneAddr k f 0).toNat
  if s.onlyHelpers k acts then .next (s.finish k [])
  else if s.memBadSrc k f acts then .next (s.trapHere k .poison 0 0 0)
  else if s.anyMig k (((s.vd vd).seals.filter (fun x => x.va = a && !x.ending)).flatMap (fun x => pagesOf x.va x.len)) then .next s
  else
    match (s.vd vd).seals.find? (fun x => x.va = a && !x.ending) with
    | none => .next (s.issue k f.hd (mkPend .store [.sreg f.d.toNat 5] true none))
    | some x =>
      let t := (s.dropSealed (s.coreOf k) vd x.va x.len).modVd vd (fun v =>
        { v with seals := v.seals.map (fun y => if y.va = a then { y with ending := true, readers := s.readersOf vd x.va x.len } else y) })
      .next ((t.issue k f.hd (mkPend (.unseal a) [.sreg f.d.toNat 0] false none)).endSeal vd a)

end Sys2Proof.Machine
end

