-- ==== Sys2Proof/Machine/Syn.lean ====
section
/-! DEFINITION. Counters, barriers and priority inheritance (R359 to R369): the syn class, and the events in which a pending
`cwait` completes. -/

namespace Sys2Proof.Machine

/-! The counter sub-fields (R361). -/

def FY.scope (f : FY) : Nat := f.num.toNat % 8
def FY.scr (f : FY) : Bool := f.num.getLsbD 3
def FY.imm (f : FY) : Bool := f.num.getLsbD 4
def FY.ret (f : FY) : Bool := f.sub.getLsbD 0

/-- Every address of a counter is a multiple of 8 (R359); what its page may refuse is what it refuses an `atom` (R360, R393). With `help`
a fault gives 0 in its place (R17). -/
def State.ctrPlan (s : State) (k : Nat) (scr : Bool) (ak : AK) (addr : W64) (u : Upd) (help : Bool) : Except (XErr × Nat × W64) (List Acc) :=
  s.planWith k (if scr then 1 else 0) ak (fun _ => help) (fun _ ps => match u with
    | .read => if ps.any Piece.remote then some .protection else none
    | _ => atomicRefuse 7 (match u with | .op 9 x => .op 0 x | u => u) false ps)
    [{ lane := 0, e := 0, addr := addr, len := 8, al := 8 }]

/-- The scalar sources or the guard of a Y word hold a soft error (R438). -/
def State.yBad (s : State) (k : Nat) (f : FY) (useB : Bool) : Bool :=
  s.pBadSrc k f.hd.gp.toNat || s.sBadSrc k f.a || (useB && s.sBadSrc k f.b)

/-- A counter operation at the counter's execution point (R360): it reaches the line's home, and is then pending with the old
value in s(D) where it returns one. -/
def State.ctrWord (s : State) (k : Nat) (f : FY) (u : Upd) (ret : Bool) (as : List Acc) : State :=
  let s := (s.approach k (if FY.scr f then 1 else 0) as).meetAccs (s.vdOf k) true (if FY.scr f then [] else as)
  let r := s.pointAccs (s.who k (FY.scope f)) 7 (fun _ => u) as
  let ws := if ret then r.1.map (fun g => RegWrite.sreg f.d.toNat (w64OfBytes g.data)) else []
  r.2.issue k f.hd (mkPend (if ret then .load else .store) ws true (firstBad r.1))

/-- R362: the fibre's earlier words are performed; a `cadd` without RET at scopes up to `.dev` may stay in a U copy (R395). -/
def execCadd (f : FY) (s : State) : Out :=
  let k := s.cur
  let acts := s.acts k f.hd
  let inc := if FY.imm f then f.b.setWidth 64 else s.ssrc k f.b
  if s.onlyHelpers k acts then .next (s.finish k [])
  else if s.relBlocked k then .next s
  else if s.yBad k f (!FY.imm f) then .next (s.trapHere k .poison 0 0 0)
  else if 2 ^ 36 - 1 < inc.toNat then .next (s.trapHere k .illegalEncoding 0 0 0)
  else
    match s.dmrLanes k acts (fun _ => []) with
    | some i => .next (s.trapHere k .dmrMismatch i 0 0)
    | none =>
      match s.ctrPlan k (FY.scr f) .wr (s.ssrc k f.a) (.op 9 inc.toNat) false with
      | .error (e, l, a) => .next (s.accessFault k e l a true)
      | .ok as =>
        let s := s.foldMine k
        match as with
        | [a] =>
          (match a.loc with
          | some (.dev pa at_ b) =>
            if !FY.ret f && s.inU (s.vdOf k) a.addr.toNat (FY.scope f) (.dev pa at_ b) then
              let t := (s.approach k 0 as).updateU (clusterOf (s.coreOf k)) pa 0 63 inc.toNat
              .next (t.issue k f.hd (mkPend .store [] true none))
            else .next (s.ctrWord k f (.op 9 inc.toNat) (FY.ret f) as)
          | _ => .next (s.ctrWord k f (.op 9 inc.toNat) (FY.ret f) as))
        | _ => .next (s.ctrWord k f (.op 9 inc.toNat) (FY.ret f) as)

/-- R363: the word issues without delay and completes when the counter is seen at or above its target. -/
def execCwait (f : FY) (s : State) : Out :=
  let k := s.cur
  let acts := s.acts k f.hd
  if acts = 0 then .next (s.finish k [])
  else if s.yBad k f true then .next (s.trapHere k .poison 0 0 0)
  else
    match s.ctrPlan k (FY.scr f) .rd (s.ssrc k f.a) .read false with
    | .error (e, l, a) => .next (s.accessFault k e l a false)
    | .ok as =>
      let t := (s.approach k (if FY.scr f then 1 else 0) as).meetAccs (s.vdOf k) true (if FY.scr f then [] else as)
      let c : CWait := { addr := s.ssrc k f.a, scratch := FY.scr f, scope := FY.scope f, target := s.ssrc k f.b,
                         ret := if FY.ret f then some f.d.toNat else none }
      .next (t.issue k f.hd (mkPend (.cwait c) [] false none))

/-- R364. It is a load: a fault of a word that only helper lanes execute gives 0 (R17). -/
def execCread (f : FY) (s : State) : Out :=
  let k := s.cur
  let acts := s.acts k f.hd
  if acts = 0 then .next (s.finish k [])
  else if s.yBad k f false then .next (s.trapHere k .poison 0 0 0)
  else
    match s.ctrPlan k (FY.scr f) .rd (s.ssrc k f.a) .read (s.onlyHelpers k acts) with
    | .error (e, l, a) => .next (s.accessFault k e l a false)
    | .ok as => .next (s.ctrWord k f .read true as)

/-- The result of `cphase` (R365). -/
def phaseOf (sub : Nat) (a t : W64) : W64 :=
  if t = 0 then BitVec.allOnes 64
  else
    match sub with
    | 0 => BitVec.ofNat 64 (a.toNat / t.toNat)
    | 1 => BitVec.ofNat 64 (min ((a.toNat / t.toNat + 1) * t.toNat) (2 ^ 64 - 1))
    | _ => BitVec.ofNat 64 (a.toNat % t.toNat)

/-- R365. -/
def execCphase (f : FY) (s : State) : Out :=
  let k := s.cur
  .next (s.scaOp k f.hd f.d [f.a, f.b] (phaseOf f.sub.toNat (s.ssrc k f.a) (s.ssrc k f.b)))

/-- The name of a counter for a binding (R368). -/
def State.bindName (s : State) (k : Nat) (f : FY) : Bool × Nat := (FY.scr f, (s.ssrc k f.a).toNat)

/-- R368. -/
def execCbind (f : FY) (s : State) : Out :=
  let k := s.cur
  let acts := s.acts k f.hd
  if acts = 0 then .next (s.finish k [])
  else if s.yBad k f false then .next (s.trapHere k .poison 0 0 0)
  else
    match s.ctrPlan k (FY.scr f) .rd (s.ssrc k f.a) .read false with
    | .error (e, l, a) => .next (s.accessFault k e l a false)
    | .ok _ =>
      let b := (s.fib k).bound
      let n := s.bindName k f
      let st := if b.contains n then 2 else if b.length = 4 || (s.vd (s.vdOf k)).binds = 4096 then 1 else 0
      let t := if st = 0 then (s.modFib k (fun x => { x with bound := x.bound ++ [n] })).modVd (s.vdOf k) (fun v => { v with binds := v.binds + 1 }) else s
      .next (t.finish k [.sreg f.d.toNat (BitVec.ofNat 64 st)])

/-- R368. -/
def execCunbind (f : FY) (s : State) : Out :=
  let k := s.cur
  let acts := s.acts k f.hd
  if acts = 0 then .next (s.finish k [])
  else if s.yBad k f false then .next (s.trapHere k .poison 0 0 0)
  else
    match s.ctrPlan k (FY.scr f) .rd (s.ssrc k f.a) .read false with
    | .error (e, l, a) => .next (s.accessFault k e l a false)
    | .ok _ =>
      let n := s.bindName k f
      if (s.fib k).bound.contains n then
        let t := (s.modFib k (fun x => { x with bound := x.bound.erase n })).modVd (s.vdOf k) (fun v => { v with binds := v.binds - 1 })
        .next (t.finish k [.sreg f.d.toNat 0])
      else .next (s.finish k [.sreg f.d.toNat 3])

/-! Completion of a pending `cwait` (R363). -/

/-- The value that a pending `cwait` observes at its scope, whether its line is poisoned, and the state after the read; none
where the counter can no longer be read. -/
def State.observe (s : State) (k : Nat) (c : CWait) : Option (W64 × Bool × State) :=
  match s.ctrPlan k c.scratch .rd c.addr .read false with
  | .error _ => none
  | .ok as =>
    let s := s.meetAccs (s.vdOf k) true (if c.scratch then [] else as)
    let r := s.pointAccs (s.who k c.scope) 7 (fun _ => .read) as
    match r.1 with
    | g :: _ => some (w64OfBytes g.data, g.bad, r.2)
    | [] => none

/-- Complete the pending `cwait` at an index of a fibre if its counter has reached the target; what waits for it still has to wake. -/
def State.metCwait (s : State) (k i : Nat) : State :=
  match (s.fib k).pend[i]? with
  | none => s
  | some p =>
    match p.kind with
    | .cwait c =>
      (match s.observe k c with
      | some (v, bad, t) =>
        if bad || c.target ≤ v then
          let t := t.modFib k (fun f => { f with pend := f.pend.eraseIdx i })
          t.deliver k { p with wr := (match c.ret with | some d => [RegWrite.sreg d v] | none => []),
                               poison := if bad then some (0, c.addr) else none }
        else s
      | none => s)
    | _ => s

def State.tryCwait (s : State) (k i : Nat) : State := (s.metCwait k i).rouse k

/-- The pending `cwait` words on a counter, as fibre and index, the last of a fibre first. -/
def State.waitsOn (s : State) (k : Nat) (scr : Bool) (addr : W64) : List (Nat × Nat) :=
  s.fibres.flatMap (fun e => ((List.range e.2.pend.length).reverse.filter (fun i =>
    match e.2.pend[i]?.map (fun p => p.kind) with
    | some (PKind.cwait c) => c.scratch = scr && c.addr = addr && (if scr then wgOf e.1 = wgOf k else s.vdOf e.1 = s.vdOf k)
    | _ => false)).map (fun i => (e.1, i)))

/-- R366, SUPERVISOR. It releases as `cadd` does; each pending `cwait` that the counter has satisfied completes before it is written. -/
def execCset (f : FY) (s : State) : Out :=
  let k := s.cur
  let acts := s.acts k f.hd
  if !s.atLeast k .supervisor then .next (s.trapHere k .privilege 0 0 0)
  else if s.onlyHelpers k acts then .next (s.finish k [])
  else if s.relBlocked k then .next s
  else if s.yBad k f true then .next (s.trapHere k .poison 0 0 0)
  else
    let v := (s.ssrc k f.b).toNat
    match s.ctrPlan k (FY.scr f) .wr (s.ssrc k f.a) (.op 6 v) false with
    | .error (e, l, a) => .next (s.accessFault k e l a true)
    | .ok as =>
      let t := s.foldMine k
      let t := (t.waitsOn k (FY.scr f) (s.ssrc k f.a)).foldl (fun t i => if i.1 = k then t.metCwait k i.2 else t.tryCwait i.1 i.2) t
      .next ((t.ctrWord k f (.op 6 v) false as).rouse k)

/-- CWAIT_COMPLETE. -/
def execCwaitComplete (fib idx : Nat) (s : State) : Out := .next (s.tryCwait fib idx)

/-- HOST_CWAIT_POLL: the counter is read again across PCI Express (R359). -/
def execHostCwaitPoll (fib idx : Nat) (s : State) : Out := .next (s.tryCwait fib idx)

/-- LONG_LATENCY_COMPLETE (R67, R162, R163, R275): the word at an index of a fibre's pending words completes. A word whose
condition does not hold yet stays pending, and so does one that a frozen fibre holds back (R25). With `part`, only the listed results of it
become visible first (R162). -/
def execLongLatencyComplete (fib idx : Nat) (part : Option (List Nat)) (s : State) : Out :=
  match (s.fib fib).pend[idx]? with
  | none => .next s
  | some p =>
    if !s.completes fib p then .next s
    else
      match part, p.poison with
      | some l, none =>
        let ws := l.filterMap (fun i => p.wr[i]?)
        .next (((s.supersede fib ws).regWrites fib ws).modFib fib (fun f => { f with pend := f.pend.set idx { p with wr := p.wr.filter (fun w => !ws.contains w) } }))
      | _, _ => .next ((s.completeAt fib idx).rouse fib)

end Sys2Proof.Machine
end

