-- ==== Sys2Proof/Machine/Eng.lean ====
section
/-! DEFINITION. Queues and engines (R370 to R387): the eng class, and the events in which an engine or its stand-in accepts a
command and performs it. -/

namespace Sys2Proof.Machine

/-! FIFO and readout queues (R383 to R385). -/

/-- The fibre's turn passes at a queue that is full or empty when SOS is set (R68, R384); the word has not issued. -/
def State.queueStall (s : State) (k : Nat) (h : Head) : State :=
  if h.sos then s.modSlot (slotOf k) (fun x => { x with turn := 4 + fibIdx k }) else s

/-- R384. -/
def execQpush (f : FQ) (s : State) : Out :=
  let k := s.cur
  let acts := s.acts k f.hd
  if s.onlyHelpers k acts then .next (s.finish k [])
  else if s.pBadSrc k f.hd.gp.toNat || s.runBad k acts f.a.toNat 1 then .next (s.trapHere k .poison 0 0 0)
  else
    match s.fifoKey k f.q.toNat with
    | none => .next (s.trapHere k .illegalEncoding 0 0 0)
    | some b =>
      match s.dmrLanes k acts (fun l => [(s.vreg k f.a.toNat l).toNat]) with
      | some i => .next (s.trapHere k .dmrMismatch i 0 0)
      | none =>
        let x := s.bank b
        if 2048 ≤ x.fifo.length then .next (s.queueStall k f.hd)
        else
          let e : Tab W32 := (lanesOf (acts &&& ~~~(s.fib k).helper)).foldl (fun t l => tset 0 t l (s.vreg k f.a.toNat l)) []
          .next ((s.setBank b { x with fifo := x.fifo ++ [e] }).issue k f.hd (mkPend .store [] true none))

/-- R384. -/
def execQpop (f : FQ) (s : State) : Out :=
  let k := s.cur
  let acts := s.acts k f.hd
  let q := f.q.toNat
  let got (e : Tab W32) (t : State) : Out :=
    .next (t.issueLoad k f.hd ((lanesOf acts).map (fun l => t.vw k f.a.toNat l (tget 0 e l))) none)
  if acts = 0 then .next (s.finish k [])
  else if s.pBadSrc k f.hd.gp.toNat then .next (s.trapHere k .poison 0 0 0)
  else if q < 8 then
    let r := s.readoutQuarter k q
    match s.readoutQ (wgOf k) r with
    | [] => .next (s.queueStall k f.hd)
    | e :: t => got e (s.modWg (wgOf k) (fun x => { x with readout := tput x.readout r t }))
  else
    match s.fifoKey k q with
    | none => .next (s.trapHere k .illegalEncoding 0 0 0)
    | some b =>
      match (s.bank b).fifo with
      | [] => .next (s.queueStall k f.hd)
      | e :: t => got e (s.setBank b { s.bank b with fifo := t })

/-- The word that `qstat` returns (R385). -/
def qstatWord (n depth : Nat) (present : Bool) : W64 :=
  if present then BitVec.ofNat 64 (n + 2 ^ 16 * (depth - n) + 2 ^ 32) else 0

/-- R385. -/
def execQstat (f : FQ) (s : State) : Out :=
  let k := s.cur
  let cl := clusterOf (s.coreOf k)
  let q := f.q.toNat
  let v :=
    if q = 0 then qstatWord (s.queued 0 cl) 64 true
    else if q = 1 then qstatWord (s.queued 3 cl) 32 s.collPresent
    else if q = 2 then qstatWord (s.queued 2 cl) 32 true
    else if q < 8 then qstatWord (s.readoutQ (wgOf k) (s.readoutQuarter k q)).length 64 true
    else
      match s.fifoKey k q with
      | some b => qstatWord (s.bank b).fifo.length 2048 true
      | none => 0
  .next (s.scaOp k f.hd f.a [] v)

/-- Workgroups of another virtual device hold the bank bound (R383). -/
def State.boundByOther (s : State) (vd core b : Nat) : Bool :=
  s.wgs.any (fun e => e.2.vd != vd && clusterOf e.2.core = clusterOf core && e.2.qbind.any (fun q => q.2 = b))

/-- R383; s(B)[63:6] must be 0. -/
def execQbind (f : FQ) (s : State) : Out :=
  let k := s.cur
  let acts := s.acts k f.hd
  let w := wgOf k
  let q := f.q.toNat
  let free := f.sub.getLsbD 0
  let v := s.ssrc k f.b
  let b := v.toNat % 64
  if acts = 0 then .next (s.finish k [])
  else if s.pBadSrc k f.hd.gp.toNat || (!free && s.sBadSrc k f.b) then .next (s.trapHere k .poison 0 0 0)
  else if free then
    if (tfind (s.wg w).qbind q).isSome then
      .next ((s.modWg w (fun x => { x with qbind := tdel x.qbind q })).finish k [.sreg f.a.toNat 0])
    else .next (s.finish k [.sreg f.a.toNat 3])
  else if 64 ≤ v.toNat then .next (s.trapHere k .illegalEncoding 0 0 0)
  else
    let bk := s.bank (Bank.key (s.coreOf k) b)
    if bk.mode != .fifo || bk.next.isSome then .next (s.finish k [.sreg f.a.toNat 1])
    else if s.boundByOther (s.vdOf k) (s.coreOf k) b then .next (s.finish k [.sreg f.a.toNat 2])
    else .next ((s.modWg w (fun x => { x with qbind := tput x.qbind q b })).finish k [.sreg f.a.toNat 0])

/-! Commands (R371 to R380). -/

/-- The runs of the destination stream that bytes at `off` go to (R374); a masked element is not written. -/
def Cmd.dest (c : Cmd) (off : Nat) (bs : List Byte) : List (Nat × List Byte) :=
  if c.scatter then
    let z := (LRec.ofBits c.lc).elemBytes
    (List.range (bs.length / max 1 z)).filterMap (fun i =>
      (c.locate c.lc c.dst (off / max 1 z + i)).map (fun a => (a.toNat, (bs.drop (i * z)).take z)))
  else if bs.isEmpty then [] else [(c.dst.toNat + off, bs)]

/-- Plan every write of a chunk before any is made: a fault leaves the destination bytes as they were (R380). -/
def State.engWrite (s : State) (c : Cmd) (scr : Bool) (al : Nat) (ws : List (Nat × List Byte)) : Except (XErr × Nat) State :=
  if scr && !s.live c.wg then .ok s
  else
    match ws.foldl (fun (r : Except (XErr × Nat) (List (List Piece × List Byte))) w =>
        match r with
        | .error e => .error e
        | .ok l => match s.engPlan c scr .wr al w.1 w.2.length with
          | .ok ps => .ok (l ++ [(ps, w.2)])
          | .error e => .error e) (.ok []) with
    | .error e => .error e
    | .ok l =>
      .ok ((l.foldl (fun s w => s.writePieces c.who w.1 w.2) (l.foldl (fun s w => w.1.foldl (fun s p => p.locs.foldl (fun s x => match x with
        | .dev pa _ _ => s.meetLine c.vd pa 0
        | _ => s) s) s) s)).clearPoison c.who (l.flatMap (fun w => coverage w.1)))

/-- The CAUSE code of ENG_FAULT (R380). -/
def engCause (c : Cause) : Nat :=
  match c with
  | .pageFault => 1 | .walkNode => 1 | .protection => 2 | .sealedWrite => 3 | .poison => 4 | .contained => 6 | .misaligned => 7 | _ => 2

/-- ENG_FAULT keeps the first fault of the workgroup (R380). -/
def State.recordFault (s : State) (w cause engine addr : Nat) : State :=
  if (s.wg w).engFault.toNat % 16 = 0 then
    s.modWg w (fun x => { x with engFault := BitVec.ofNat 64 (cause + 16 * engine + 256 * (addr / 8 % 2 ^ 54)) })
  else s

def Cmd.engine (c : Cmd) : Nat := c.kind + (if c.standIn then 8 else 0)

/-- A `cadd` to a counter in a workgroup's scratch; dropped when the workgroup has ended (R373, R376). -/
def State.scratchAdd (s : State) (w off inc : Nat) : State :=
  if !s.live w || (s.wg w).kd.scratch < off + 8 then s
  else
    let v := satAdd (w64OfBytes (readTab (s.wg w).scratch off 8)) (BitVec.ofNat 64 inc)
    s.modWg w (fun x => { x with scratch := writeTab x.scratch off (leBytes 8 v.toNat) })

/-- What an engine's add to its counter meets, if its page refuses it (R301, R380). -/
def State.ctrErr (s : State) (c : Cmd) : Option XErr :=
  if c.ctr = 0 || c.csp then none
  else
    match s.globalPiece (8 * c.cluster) c.vd .wr c.ctr.toNat 8 with
    | .error e => some e
    | .ok p => if p.remote then some (.fault .protection) else none

/-- A fault that stops the command. -/
def State.ctrRefused (s : State) (c : Cmd) : Bool := match s.ctrErr c with
  | some (.fault _) => true
  | _ => false

/-- An engine's add to its counter (R376); an address of 0 names none, and an add that its page refuses is recorded (R380). -/
def State.engAdd (s : State) (c : Cmd) (inc : Nat) : State :=
  if c.ctr = 0 || inc = 0 then s
  else if c.csp then s.scratchAdd c.wg c.ctr.toNat inc
  else
    match s.ctrAdd (8 * c.cluster) c.vd c.ctr (BitVec.ofNat 64 inc) with
    | some t => t
    | none =>
      match s.ctrErr c with
      | some (.fault x) => s.recordFault c.wg (engCause x) c.engine c.ctr.toNat
      | some .mig => { s with waitAdds := s.waitAdds ++ [⟨8 * c.cluster, c.vd, c.ctr, BitVec.ofNat 64 inc⟩] }
      | none => s

/-- The command with the counter of this package that it adds to in place of its own: for a `cpyr` without GET that is s(C) (R378). -/
def Cmd.here (c : Cmd) : Cmd := if c.kind = 2 && !c.get then { c with ctr := c.sc } else c

/-- The walk of a command's counter waits (R301), and the command with it. -/
def State.ctrStuck (s : State) (c : Cmd) : Bool := s.ctrErr c.here = some .mig

/-- A command's counter lies in a page that is not resident: the command waits for it as for any page (R380). -/
def State.ctrAbsent (s : State) (c : Cmd) : Option Cause :=
  match s.ctrErr c.here with
  | some (.fault x) => if x = .pageFault || x = .walkNode then some x else none
  | _ => none

def State.setCmd (s : State) (id : Nat) (c : Cmd) : State := { s with cmds := tput s.cmds id c }

/-- A command has ended: its stand-in's workgroup leaves its core (R381), its grid may take its completion adds, and sealed buffers that wait
for readers may end. -/
def State.finishCmd (s : State) (id : Nat) : State :=
  match tfind s.cmds id with
  | none => s
  | some c =>
    let s := { s with cmds := tdel s.cmds id }
    let s := match c.host with
      | some w => s.release w .ended
      | none => s
    let s := ((s.vd c.vd).seals.filter (fun x => x.ending)).foldl (fun s x => s.endSeal c.vd x.va) s
    s.settleGrid c.grid

/-- The targets of a `cpym` (R377). -/
def State.targets (s : State) (c : Cmd) : List Nat :=
  (s.wgs.filter (fun e => gkey e.2.vd e.2.grid = c.grid && s.onCore e.1 && clusterOf e.2.core = c.cluster
    && c.sb.getLsbD (e.2.core % 8))).map (·.1)

/-- What a collective adds at a rank (R379). -/
def Cmd.collAdd (c : Cmd) (count : Nat) : Nat :=
  match c.cop with
  | 1 => c.n / max 1 count
  | 2 => count * c.n
  | _ => c.n

/-- Another package's memory in the same virtual device's context, by virtual address (R378; log entry 36). -/
def peerKey (vd peer a : Nat) : Nat := hkey (64 * (vd + 1) + peer) a

/-- The live port of a partition that an address goes out by (R420, R457); `n` ports are looked at from the hashed one on. -/
def State.portFor (s : State) (part a : Nat) : Option Nat :=
  let ports := (s.feature.extractLsb' 17 7).toNat
  ((List.range ports).map (fun i => (Config.portHash a + i) % max 1 ports)).find? (fun p =>
    let x := tget Port.empty s.ports p
    x.lanes != 0 && x.part = some part)

/-- The flits of a packet (R457): a header, its payload in pieces of 16 bytes, and a CRC. -/
def pktFlits : PktBody → Nat
  | .store _ _ bs => 2 + (bs.length + 15) / 16
  | .read _ bs => 2 + (bs.length + 15) / 16
  | .done _ => 2
  | _ => 3

/-- The replay store of a port, 256 flits, has room for a packet (R457). -/
def Port.room (x : Port) (b : PktBody) : Bool := (x.replay.map (fun p => pktFlits p.body)).sum + pktFlits b ≤ 256

/-- A packet leaves by a port and is kept for replay until it is acknowledged. -/
def Port.emit (x : Port) (part : Nat) (body : PktBody) : Port :=
  { x with next := x.next + 1, replay := x.replay ++ [{ seq := x.next, part := part, crc := true, ack := x.rx - 1, body := body }] }

/-- Packets that have waited leave, in their order, while the replay store has room. -/
def Port.flush (x : Port) : List (Nat × PktBody) → Port
  | [] => { x with queue := [] }
  | e :: t => if x.room e.2 then (x.emit e.1 e.2).flush t else { x with queue := e :: t }

/-- A packet goes out by a port: at once where nothing waits there and the replay store has room (R457, R458). -/
def State.send (s : State) (part port : Nat) (body : PktBody) : State :=
  let x := tget Port.empty s.ports port
  { s with ports := tput s.ports port (x.flush (x.queue ++ [(part, body)])) }

/-- Bytes cut into the payloads of packets: at most 16 flits of 16 bytes each (R457). -/
def payloads (bs : List Byte) : List (Nat × List Byte) :=
  (List.range ((bs.length + 255) / 256)).map (fun i => (256 * i, (bs.drop (256 * i)).take 256))

/-- The port by which a command reaches its peer: none where the peer is outside the partition or dead, or no port is live (R378, R439, R460). -/
def State.portTo (s : State) (c : Cmd) : Option Nat :=
  let v := s.vd c.vd
  if !v.cfg.peers.contains c.peer || s.dead.contains (.peer c.peer) then none else s.portFor v.cfg.partition c.dst.toNat

/-- An add to a counter of another package (R378): it goes out after what went out before by the same port. -/
def State.peerAdd (s : State) (c : Cmd) (port inc : Nat) : State :=
  if c.ctr = 0 || inc = 0 then s
  else
    let k := peerKey c.vd c.peer c.ctr.toNat
    let v := satAdd (w64OfBytes (readTab s.peerMem k 8)) (BitVec.ofNat 64 inc)
    { s.send (s.vd c.vd).cfg.partition port (.add c.vd c.ctr.toNat inc) with peerMem := writeTab s.peerMem k (leBytes 8 v.toNat) }

/-- Every add that a command has not yet made (R380). -/
def State.lateAdds (s : State) (c : Cmd) (count : Nat) : State :=
  match c.kind with
  | 1 => if c.ctr = 0 then s else (s.targets c).foldl (fun s w => s.scratchAdd w c.ctr.toNat (c.n - c.added)) s
  | 3 => s.engAdd c (c.collAdd count)
  | 2 =>
    if c.get then s.engAdd c (c.n - c.added)
    else
      let s := match s.portTo c with
        | some port => s.peerAdd c port (c.n - c.added)
        | none => s
      s.engAdd c.here c.n
  | _ => s.engAdd c (c.n - c.added)

/-- A command stops at a fault: its adds are made, and the fault is recorded (R380). -/
def State.engFail (s : State) (id : Nat) (c : Cmd) (cause addr count : Nat) : State :=
  let s := s.recordFault c.wg cause c.engine addr
  let die := s.dieOf c.cluster
  let s := if c.kind = 3 && !c.standIn then { s with collDone := tput s.collDone die (tget 0 s.collDone die + 2 ^ 32) } else s
  (s.lateAdds c count).finishCmd id

/-- A fault of an access: a page that is not resident is waited for, any other stops the command (R380). -/
def State.engFault (s : State) (id : Nat) (c : Cmd) (e : XErr) (a count : Nat) : State :=
  match e with
  | .mig => s
  | .fault x =>
    if x = Cause.pageFault || x = Cause.walkNode then
      (s.setCmd id { c with wait := some (a / 4096) }).pageRequest c.vd
    else s.engFail id c (engCause x) a count

/-! Pushes. -/

/-- The command that a push captures (R373). -/
def State.capture (s : State) (k kind : Nat) (f : FQ) : Cmd :=
  { kind := kind, st := .queued, standIn := false, vd := s.vdOf k, wg := wgOf k, fib := k, grid := gkey (s.vdOf k) (s.wg (wgOf k)).grid,
    cluster := clusterOf (s.coreOf k), word := FQ.toWord (BitVec.ofNat 8 (kind + 5)) f, scope := (f.sub.extractLsb' 5 3).toNat,
    src := s.ssrc k f.a, dst := s.ssrc k (f.a + 1), n := (s.ssrc k (f.a + 2)).toNat, ctr := s.ssrc k (f.a + 3),
    sb := if kind = 1 || kind = 3 then s.ssrc k f.b else 0, sc := if kind = 2 && f.c != 0 then s.ssrc k f.c else 0,
    lb := if kind = 0 && f.sub.getLsbD 8 then (s.fib k).lreg f.b.toNat else 0,
    lc := if kind = 0 && f.sub.getLsbD 9 then (s.fib k).lreg f.c.toNat else 0,
    pos := 0, added := 0, prio := max (s.wg (wgOf k)).kd.prio (s.fib k).effPrio, born := s.clock, host := none, record := 0, wait := none, result := none }

/-- The precise traps of a push, in the order of R380. -/
def State.pushTrap (s : State) (k : Nat) (c : Cmd) : Option (Cause × W64) :=
  let ext := (s.wg (wgOf k)).kd.scratch
  let out (a : W64) (n : Nat) : Bool := decide (ext < a.toNat + n)
  let badRec (on : Bool) (r : BitVec 256) : Bool :=
    on && ((LRec.ofBits r).elemBytes = 0 || c.n % max 1 (LRec.ofBits r).elemBytes != 0)
  if 2 ^ 36 - 1 < c.n && c.kind != 3 then some (.illegalEncoding, 0)
  else if c.cmp != 0 && c.n % 64 != 0 then some (.illegalEncoding, 0)
  else if badRec c.gather c.lb || badRec c.scatter c.lc then some (.illegalEncoding, 0)
  else if c.kind = 1 && 256 ≤ c.sb.toNat then some (.illegalEncoding, 0)
  else if c.ctr.toNat % 8 != 0 then some (.misaligned, c.ctr)
  else if c.kind = 2 && c.sc.toNat % 8 != 0 then some (.misaligned, c.sc)
  else if c.ssp && !c.gather && c.n != 0 && out c.src (if c.cmp = 2 then 1 else c.n) then some (.protection, c.src)
  else if c.dsp && !c.scatter && c.n != 0 && out c.dst (if c.cmp = 1 then 1 else c.n) then some (.protection, c.dst)
  else if c.csp && c.ctr != 0 && out c.ctr 8 then some (.protection, c.ctr)
  else none

/-- The push words of a fibre that wait for a command's acceptance complete (R373). -/
def State.accepted (s : State) (id : Nat) : State := s.perform (fun _ p => p.kind = .push id)

/-- The device writes bytes at the pieces of an access, at `.sys` scope. -/
def State.putCtx (s : State) (core vd : Nat) (ps : List Piece) (bs : List Byte) : State :=
  let w : Who := { core := core, wg := 0, vd := vd, scope := 7 }
  let s := ps.foldl (fun s p => p.locs.foldl (fun s l => match l with
    | .dev pa _ _ => s.meetLine vd pa 0
    | _ => s) s) s
  (s.writePieces w ps bs).clearPoison w (coverage ps)

/-- Bytes of a context's memory that the device writes for firmware's interfaces; none where it does not translate. -/
def State.ctxWrite (s : State) (core vd a : Nat) (bs : List Byte) : Option State :=
  match collectE (fun (p : Nat × Nat) => s.globalPiece core vd .wr p.1 p.2) (sectors (bs.length / 32 + 2) a bs.length) with
  | .ok ps => some (s.putCtx core vd ps bs)
  | .error _ => none

/-- The bytes of a context's memory that the device reads at `.dev`; none where a translation fails (R130). -/
def State.ctxRead (s : State) (core vd a n : Nat) : Option (List Byte) :=
  match collectE (fun (p : Nat × Nat) => s.globalPiece core vd .rd p.1 p.2) (sectors (n / 32 + 2) a n) with
  | .ok ps => some (s.readPieces { core := core, wg := 0, vd := vd, scope := 5 } ps).1
  | .error _ => none

/-- A fallback record (R147). -/
def Cmd.fallback (c : Cmd) : List Byte :=
  leBytes 8 c.word.toNat ++ leBytes 8 c.src.toNat ++ leBytes 8 c.dst.toNat ++ leBytes 8 c.n ++ leBytes 8 c.ctr.toNat
    ++ leBytes 8 c.sb.toNat ++ leBytes 8 c.sc.toNat ++ leBytes 32 c.lb.toNat ++ leBytes 32 c.lc.toNat
    ++ leBytes 4 (c.grid % 2 ^ 32) ++ List.replicate 4 0

/-- FALLBACK_RING: its base and number of records. -/
def Vd.ring (v : Vd) : Nat × Nat := (v.fallbackRing.toNat / 4096 % 2 ^ 45 * 4096, 2 ^ (v.fallbackRing.toNat % 16))

/-- FALLBACK_CTR: the POSTED counter; DONE lies 8 above (R147). -/
def Vd.posted (v : Vd) : W64 := v.fallbackCtr &&& 0x01FFFFFFFFFFFFF8

/-- The host takes commands whose engine does not (R147). -/
def Vd.toHost (v : Vd) : Bool := v.funcMode.getLsbD 3 && v.ring.1 != 0

/-- The address of the next fallback record. -/
def Vd.nextRec (v : Vd) : Nat := v.ring.1 + 128 * (v.fbPosted % v.ring.2)

/-- The host's ring has no room, or the walk of its next record waits. -/
def State.ringFull (s : State) (c : Cmd) : Bool :=
  let v := s.vd c.vd
  v.toHost && (v.ring.2 ≤ v.fbPosted - v.fbDone || (match s.globalPiece (8 * c.cluster) c.vd .wr v.nextRec 1 with
    | .error .mig => true
    | _ => false))

/-- A command goes to a stand-in kernel, which accepts it at once and is then placed (R381), or to the host where FUNC_MODE.ENG_FALLBACK says
so and there is a ring with room (R147). A record whose ring address does not translate is not written; POSTED and the command go on (DESIGN
CHOICE, log entry 87). -/
def State.standIn (s : State) (id : Nat) (c : Cmd) : State :=
  let v := s.vd c.vd
  if s.ringFull c then s
  else if v.toHost then
    let s := (s.ctxWrite (8 * c.cluster) c.vd v.nextRec c.fallback).getD s
    let s := (s.ctrAddOrDrop (8 * c.cluster) c.vd v.posted 1).modVd c.vd (fun v => { v with fbPosted := v.fbPosted + 1 })
    ((s.setCmd id { c with st := .host, standIn := true, record := v.fbPosted }).msix c.vd 4).accepted id
  else (s.setCmd id { c with st := .placing, standIn := true }).accepted id

/-- The engine of a command is absent (R6, R381). -/
def State.absent (s : State) (c : Cmd) : Bool := (c.kind = 3 && !s.collPresent) || (c.cmp != 0 && !s.cpyzPresent)

/-- A waiting command is past its deadline, or its engine is absent (R381). -/
def State.cmdOverdue (s : State) (c : Cmd) : Bool := s.absent c || c.born + 10 * (s.vd c.vd).engDeadline.toNat % 655360 ≤ s.clock

/-- A waiting command may be accepted: none of its fibre's to the same queue is before it, and every earlier word of the fibre is performed,
so that what its engine reads comes after them (R373). -/
def State.mayAccept (s : State) (id : Nat) (c : Cmd) : Bool :=
  c.st = .queued
    && !((s.fib c.fib).pend.takeWhile (fun p => p.kind != .push id)).any (fun p => p.unperformed)
    && !s.cmds.any (fun e => e.1 < id && e.2.st = .queued && e.2.fib = c.fib && (if c.kind ≤ 1 then e.2.kind ≤ 1 else e.2.kind = c.kind))

/-- The number of a collective of a record (R379). -/
def State.numberColl (s : State) (c : Cmd) : Cmd × State :=
  if c.kind = 3 then
    let key := hkey c.vd c.sb.toNat
    let n := tget 0 s.collSeq key
    ({ c with record := n }, { s with collSeq := tput s.collSeq key (n + 1) })
  else (c, s)

/-- A push (R373): performed once; it traps precisely, or forks a command whose acceptance completes the word. -/
def State.push (s : State) (k kind : Nat) (f : FQ) (extra : List (BitVec 6)) : State :=
  let acts := s.acts k f.hd
  if s.onlyHelpers k acts then s.finish k []
  else if s.pBadSrc k f.hd.gp.toNat || ((List.range 4).map (fun i => f.a + BitVec.ofNat 6 i) ++ extra).any (fun x => s.sBadSrc k x) then
    s.trapHere k .poison 0 0 0
  else
    let c := s.capture k kind f
    match s.pushTrap k c with
    | some (cause, a) => s.trapHere k cause 0 a 0
    | none =>
      match s.dmrLanes k acts (fun _ => []) with
      | some i => s.trapHere k .dmrMismatch i 0 0
      | none =>
        if queueDepth kind ≤ s.queued kind c.cluster then s.queueStall k f.hd
        else
          let (c, s) := (s.foldMine k).numberColl c
          let id := s.nextCmd
          let s := ({ s with nextCmd := id + 1 }.setCmd id c).issue k f.hd (mkPend (.push id) [] false none)
          if s.cmdOverdue c && s.mayAccept id c then s.standIn id c else s

/-- R374. -/
def execCpy (f : FQ) (s : State) : Out := .next (s.push s.cur 0 f [])

/-- R377. -/
def execCpym (f : FQ) (s : State) : Out := .next (s.push s.cur 1 f [f.b])

/-- R378. -/
def execCpyr (f : FQ) (s : State) : Out := .next (s.push s.cur 2 f (if f.c = 0 then [] else [f.c]))

/-- R379. -/
def execColl (f : FQ) (s : State) : Out := .next (s.push s.cur 3 f [f.b])

/-! Acceptance (R373, R381). -/

/-- The waiting command that an engine starts next: of the highest effective priority at its push, the oldest of several (R369, R373). -/
def State.upNext (s : State) (c : Cmd) : List (Nat × Cmd) → Option (Nat × Cmd)
  | [] => none
  | e :: t =>
    match s.upNext c t with
    | none => if s.sameEngine c.kind c.cluster e.2 && !s.absent e.2 && s.mayAccept e.1 e.2 then some e else none
    | some b => if s.sameEngine c.kind c.cluster e.2 && !s.absent e.2 && s.mayAccept e.1 e.2 && b.2.prio ≤ e.2.prio then some e else some b

/-- ENGINE_ACCEPT: the engine starts its next command. -/
def execEngineAccept (cmd : Nat) (s : State) : Out :=
  match tfind s.cmds cmd with
  | none => .next s
  | some c =>
    if (s.upNext c s.cmds).map (·.1) = some cmd then .next ((s.setCmd cmd { c with st := .running }).accepted cmd) else .next s

/-- ENGINE_DEADLINE: a command that its engine has not accepted by its deadline goes to a stand-in or the host (R381). -/
def execEngineDeadline (cmd : Nat) (s : State) : Out :=
  match tfind s.cmds cmd with
  | none => .next s
  | some c => if s.cmdOverdue c && s.mayAccept cmd c then .next (s.standIn cmd c) else .next s

/-- The engine works on a command, or its stand-in does while it is on a core (R381). -/
def State.works (s : State) (c : Cmd) : Bool := c.st = .running && (match c.host with
  | some w => s.onCore w
  | none => true)

/-! Copies (R374 to R378). -/

/-- Compress (R375). -/
def compressBlock (b : List Byte) : List Byte :=
  leBytes 8 ((List.range 64).foldl (fun h i => if b.getD i 0 != 0 then h + 2 ^ i else h) 0) ++ b.filter (fun x => x != 0)

def compress (bs : List Byte) : List Byte := (List.range (bs.length / 64)).flatMap (fun i => compressBlock ((bs.drop (64 * i)).take 64))

/-- A `cpy` through the compression stage: performed whole, with one add (R375, R376, R382). -/
def State.copyWhole (s : State) (id : Nat) (c : Cmd) : State :=
  let r : EngRead × Nat := if c.cmp = 1 then (s.engSource c 0 c.n, c.n) else s.expand c (c.n / 64) 0
  match r with
  | (.fault e a, _) => s.engFault id c e a 0
  | (.poison a, _) => s.engFail id c 4 a 0
  | (.got d s, read) =>
    let out := if c.cmp = 1 then compress d else d
    match s.engWrite c c.dsp (if c.dsp && c.scatter then min 4 (LRec.ofBits c.lc).elemBytes else 1) (c.dest 0 out) with
    | .error (e, a) => s.engFault id c e a 0
    | .ok s =>
      let s := if c.standIn then s else
        { s with cpyzIn := tput s.cpyzIn c.cluster (tget 0 s.cpyzIn c.cluster + BitVec.ofNat 64 read),
                 cpyzOut := tput s.cpyzOut c.cluster (tget 0 s.cpyzOut c.cluster + BitVec.ofNat 64 out.length) }
      (s.engAdd c c.n).finishCmd id

/-- A chunk of a `cpy` has been performed: its bytes are added, and the command goes on, ends, or stops where its counter's page refuses
the add (R376, R380). -/
def State.chunkDone (s : State) (id : Nat) (c : Cmd) (k : Nat) : State :=
  let t := s.engAdd c k
  if c.pos + k = c.n || s.ctrRefused c then t.finishCmd id else t.setCmd id { c with pos := c.pos + k, added := c.added + k, wait := none }

/-- One chunk of a `cpy` (R376). -/
def State.copyChunk (s : State) (id : Nat) (c : Cmd) (k : Nat) : State :=
  match s.engSource c c.pos k with
  | .fault e a => s.engFault id c e a 0
  | .poison a => s.engFail id c 4 a 0
  | .got d s =>
    match s.engWrite c c.dsp (if c.dsp && c.scatter then min 4 (max 1 (LRec.ofBits c.lc).elemBytes) else 1) (c.dest c.pos d) with
    | .error (e, a) => s.engFault id c e a 0
    | .ok s => s.chunkDone id c k

/-- One chunk of a `cpym`, delivered to every target; one whose window the range overruns receives no byte (R377).
The source comes from L2 (R264). -/
def State.castChunk (s : State) (id : Nat) (c : Cmd) (k : Nat) : State :=
  match s.engRead1 { c with scope := max 4 c.scope } false 1 (c.src.toNat + c.pos) k with
  | .fault e a => s.engFault id c e a 0
  | .poison a => s.engFail id c 4 a 0
  | .got d s =>
    let s := (s.targets c).foldl (fun s w =>
      let fits := c.dst.toNat + c.n ≤ (s.wg w).kd.scratch
      let s := if fits then (s.modWg w (fun x => { x with scratch := writeTab x.scratch (c.dst.toNat + c.pos) d })).clearPoison { c.who with wg := w }
            [(.scr (c.dst.toNat + c.pos), d.length)]
        else s.recordFault c.wg 2 c.engine c.dst.toNat
      if c.ctr = 0 then s else s.scratchAdd w c.ctr.toNat k) s
    if c.pos + k = c.n then s.finishCmd id else s.setCmd id { c with pos := c.pos + k, added := c.added + k, wait := none }

/-- One chunk of a `cpyr` toward a peer (R378): its bytes, and then its add, go out by Twill; the command ends when the far side
has acknowledged the last. -/
def State.putChunk (s : State) (id : Nat) (c : Cmd) (k : Nat) : State :=
  match s.portTo c with
  | none => s.engFail id c 2 c.dst.toNat 0
  | some port =>
    match s.engRead1 c false 1 (c.src.toNat + c.pos) k with
    | .fault e a => s.engFault id c e a 0
    | .poison a => s.engFail id c 4 a 0
    | .got d s =>
      let s := (payloads d).foldl (fun s x => s.send (s.vd c.vd).cfg.partition port (.store c.vd (c.dst.toNat + c.pos + x.1) x.2)) s
      let s := { s with peerMem := writeTab s.peerMem (peerKey c.vd c.peer (c.dst.toNat + c.pos)) d }
      (s.peerAdd c port k).setCmd id { c with pos := c.pos + k, added := c.added + k, wait := none }

/-- The peer of a `cpyr` that cannot be reached: one that is dead (6), or outside the partition (2) (R378, R380, R439). -/
def State.peerFault (s : State) (c : Cmd) : Option Nat :=
  if c.kind != 2 then none
  else if !(s.vd c.vd).cfg.peers.contains c.peer then some 2
  else if s.dead.contains (.peer c.peer) then some 6
  else none

/-- A page that is not resident at the destination of the next `n` bytes of a `cpyr` with GET: the command waits for it (R378, R380). -/
def State.getAbsent (s : State) (c : Cmd) (n : Nat) : Option (Cause × Nat) :=
  match s.engPlan c false .wr 1 (c.dst.toNat + c.pos) (min (min 4096 n) (c.n - c.pos)) with
  | .error (.fault x, a) => if x = .pageFault || x = .walkNode then some (x, a) else none
  | _ => none

/-- COPY_CHUNK_DONE: the next chunk of a running copy is performed and its bytes are added (R376). -/
def execCopyChunkDone (cmd : Nat) (s : State) : Out :=
  match tfind s.cmds cmd with
  | none => .next s
  | some c =>
    let k := min 4096 (c.n - c.pos)
    if !s.works c || s.ctrStuck c || c.kind = 3 then .next s
    else
      match s.peerFault c, (if c.n = 0 then none else s.ctrAbsent c) with
      | some cause, _ => .next (s.engFail cmd c cause c.dst.toNat 0)
      | none, some x => .next (s.engFault cmd c (.fault x) c.here.ctr.toNat 0)
      | none, none =>
        if c.n = 0 then .next (s.finishCmd cmd)
        else if c.kind = 0 then .next (if c.cmp = 0 then s.copyChunk cmd c k else s.copyWhole cmd c)
        else if c.kind = 1 then .next (s.castChunk cmd c k)
        else if c.get then
          match s.getAbsent c 4096 with
          | some (x, a) => .next (s.engFault cmd c (.fault x) a 0)
          | none => .next s
        else if c.pos < c.n then .next (s.putChunk cmd c k)
        else .next s

/-! Collectives (R379). -/

/-- A group record: COUNT, RANK and the bytes of the ranks. -/
structure GroupRec where
  count : Nat
  rank  : Nat
  who   : List Nat
  deriving DecidableEq, Repr

/-- The group record of a command, as its engine reads it. -/
def State.groupRec (s : State) (c : Cmd) : Except (XErr × Nat) GroupRec :=
  match s.engRead1 c false 1 c.sb.toNat 64 with
  | .fault e a => .error (e, a)
  | .poison a => .error (.fault .poison, a)
  | .got d _ =>
    let b := d.map BitVec.toNat
    .ok { count := nth b 0, rank := nth b 1, who := (b.drop 2).take (nth b 0) }

/-- The command of a rank of this package in the same collective. -/
def State.mate (s : State) (c : Cmd) (g : GroupRec) (r : Nat) : Option (Nat × Cmd) :=
  s.cmds.find? (fun e => e.2.kind = 3 && e.2.vd = c.vd && s.works e.2 && e.2.record = c.record
    && (match s.groupRec e.2 with
      | .ok h => h.count = g.count && h.who = g.who && h.rank = r
      | .error _ => false))

/-- The element type of CTY: its bytes, 0 for a code that is none. -/
def ctyBytes (cty : Nat) : Nat := if cty = 10 || cty = 4 || cty = 5 then 4 else if cty = 9 then 2 else 0

/-- A left fold over ranks of one element (R379). -/
def foldElem (cop cty : Nat) : List Nat → Nat
  | [] => 0
  | x :: t =>
    if cop = 4 then
      if cty = 10 then t.foldl f32.maxVal x
      else if cty = 9 then t.foldl bf16.maxVal x
      else t.foldl (fun a b => atomicOp 2 cty a b) x
    else if cty = 10 then (t.foldl (fun (a : W32) b => add32 a (BitVec.ofNat 32 b)) (BitVec.ofNat 32 x)).toNat
    else if cty = 9 then
      bf16.round 0 (f32.value (t.foldl (fun (a : W32) b => add32 a (rne32 (bf16.value b))) (rne32 (bf16.value x))).toNat)
    else t.foldl (fun a b => (a + b) % 2 ^ 32) x

/-- What rank r receives from the ranks' source bytes (R379). -/
def collResult (c : Cmd) (count r : Nat) (srcs : List (List Byte)) : List Byte :=
  let z := ctyBytes c.cty
  let el (i : Nat) : List Byte := leBytes z (foldElem c.cop c.cty (srcs.map (fun s => leNat ((s.drop (z * i)).take z))))
  let m := c.n / max 1 z
  match c.cop with
  | 0 => (List.range m).flatMap el
  | 1 => (List.range (m / max 1 count)).flatMap (fun i => el (r * (m / max 1 count) + i))
  | 2 => srcs.flatMap id
  | 3 => srcs.headD []
  | _ => (List.range m).flatMap el

/-- A command that does not fit its collective (R379). -/
def State.misfit (s : State) (c d : Cmd) (g h : GroupRec) : Bool :=
  let z := ctyBytes c.cty
  d.cop != c.cop || d.cty != c.cty || d.n != c.n || 4 < c.cop || z = 0
    || nth h.who h.rank != 64 * s.dieOf d.cluster
    || c.n % max 1 z != 0 || (c.cop = 1 && c.n % (g.count * max 1 z) != 0) || 2 ^ 36 - 1 < c.collAdd g.count

/-- The ranks' commands of this package; none while one has not been accepted. -/
def State.mates (s : State) (c : Cmd) (g : GroupRec) : Option (List (Nat × Cmd)) :=
  (List.range g.count).foldl (fun (r : Option (List (Nat × Cmd))) i =>
    match r with
    | none => none
    | some l => if nth g.who i % 64 != 0 then some l
      else match s.mate c g i with
        | some m => some (l ++ [m])
        | none => none) (some [])

/-- The source bytes of every rank, those of other packages from `remote`. -/
def State.collSources (s : State) (c : Cmd) (g : GroupRec) : List Nat → List (List Byte) → Except (XErr × Nat) (List (List Byte))
  | [], _ => .ok []
  | i :: t, remote =>
    if nth g.who i % 64 != 0 then
      match s.collSources c g t (remote.drop 1) with
      | .ok l => .ok (remote.headD [] :: l)
      | .error e => .error e
    else
      match s.mate c g i with
      | none => .ok []
      | some m =>
        match s.engRead1 m.2 false 1 m.2.src.toNat m.2.n with
        | .fault e a => .error (e, a)
        | .poison a => .error (.fault .poison, a)
        | .got d _ =>
          match s.collSources c g t remote with
          | .ok l => .ok (d :: l)
          | .error e => .error e

/-- Deliver a rank's result and make its add (R379, R382). -/
def State.deliverColl (s : State) (id : Nat) (c : Cmd) (count : Nat) (bs : List Byte) : State :=
  match s.engWrite c false 1 (if bs.isEmpty then [] else [(c.dst.toNat, bs)]) with
  | .error (e, a) => s.engFault id c e a count
  | .ok s =>
    let die := s.dieOf c.cluster
    let d := tget 0 s.collDone die
    let s := if c.standIn then s
      else { s with collDone := tput s.collDone die ((d &&& 0xFFFFFFFF00000000) ||| BitVec.ofNat 64 ((d.toNat + 1) % 2 ^ 32)) }
    (s.engAdd c (c.collAdd count)).finishCmd id

/-- COLLECTIVE_FOLD_DONE: the first of a collective's events at this package folds every rank's source; each then delivers its own
rank. `remote` is what the ranks of other packages contribute, in rank order. -/
def execCollectiveFoldDone (cmd : Nat) (remote : List (List Byte)) (s : State) : Out :=
  match tfind s.cmds cmd with
  | none => .next s
  | some c =>
    if c.kind != 3 || !s.works c || s.ctrStuck c then .next s
    else if let some x := s.ctrAbsent c then .next (s.engFault cmd c (.fault x) c.ctr.toNat 1)
    else
      match s.groupRec c with
      | .error (e, a) => .next (s.engFault cmd c e a 1)
      | .ok g =>
        match c.result with
        | some bs => .next (s.deliverColl cmd c g.count bs)
        | none =>
          if g.count < 2 || 62 < g.count || g.count ≤ g.rank || c.sb.toNat % 8 != 0 then .next (s.engFail cmd c 5 c.sb.toNat g.count)
          else
            match s.mates c g with
            | none => .next s
            | some ms =>
              let bad := ms.any (fun m => match s.groupRec m.2 with
                | .ok h => s.misfit c m.2 g h
                | .error _ => true) || remote.any (fun r => r.length != c.n)
              if bad then .next (ms.foldl (fun s m => s.engFail m.1 m.2 5 m.2.sb.toNat g.count) s)
              else
                match s.collSources c g (List.range g.count) remote with
                | .error (.fault .poison, a) => .next (ms.foldl (fun s m => s.engFail m.1 m.2 4 a g.count) s)
                | .error (e, a) => .next (ms.foldl (fun s m => s.engFault m.1 m.2 e a g.count) s)
                | .ok srcs =>
                  let t := ms.foldl (fun t m => match s.groupRec m.2 with
                    | .ok h => t.setCmd m.1 { m.2 with result := some (collResult m.2 g.count h.rank srcs), wait := none }
                    | .error _ => t) s
                  match tfind t.cmds cmd with
                  | some d => .next (t.deliverColl cmd d g.count (d.result.getD []))
                  | none => .next t

end Sys2Proof.Machine
end

