-- ==== Sys2Proof/Machine/Alu.lean ====
section
/-! DEFINITION. The arithmetic of R210 to R217 and R222 to R225 on values: the operations that the sca class, the vec class and
the pair words share. -/

namespace Sys2Proof.Machine

/-- The exact result of R210. -/
inductive IOp where
  | add | sub | mul | mulh | mad | abs | neg | min | max
  deriving DecidableEq, Repr

def IOp.exact (o : IOp) (w : Nat) (a b c : Int) : Int :=
  match o with
  | .add => a + b
  | .sub => a - b
  | .mul => a * b
  | .mulh => a * b / 2 ^ w
  | .mad => a * b + c
  | .abs => a.natAbs
  | .neg => -a
  | .min => Min.min a b
  | .max => Max.max a b

/-- R210 on every element. -/
def aluInt (o : IOp) (ty : Nat) (sat : Bool) (a b c : Nat) : Nat :=
  let w := (tyElem ty).1
  mapElems ty (fun j => narrow ty sat (o.exact w (ext ty (elem w j a)) (ext ty (elem w j b)) (ext ty (elem w j c))))

/-- The width of a lane value of a type. -/
def tyBits (ty : Nat) : Nat := if ty64 ty then 64 else 32

def aluNot (ty a : Nat) : Nat := 2 ^ tyBits ty - 1 - a % 2 ^ tyBits ty

/-- F of R211. -/
def lopF (n : Nat) (ty x y : Nat) : Nat :=
  match n with
  | 0 => Nat.land x y
  | 1 => Nat.lor x y
  | 2 => Nat.xor x y
  | _ => Nat.land x (aluNot ty y)

/-- vlop3 (R211). -/
def aluLop3 (ty : Nat) (sub : BitVec 5) (a b c : Nat) : Nat :=
  let t := lopF (sub.extractLsb' 2 2).toNat ty (lopF (sub.extractLsb' 0 2).toNat ty a b) c
  if sub.getLsbD 4 then aluNot ty t else t

/-- One element shifted by n (R212): left, logical right, arithmetic right. -/
inductive Shift where
  | shl | shr | sra
  deriving DecidableEq, Repr

def shift1 (o : Shift) (w a n : Nat) : Nat :=
  match o with
  | .shl => a * 2 ^ min n w % 2 ^ w
  | .shr => a % 2 ^ w / 2 ^ min n w
  | .sra => wrap w (sgn w a / 2 ^ min n w)

/-- R212 for a vector value: the count per element for packed types, B's 32 bits otherwise. -/
def aluShift (o : Shift) (ty a b : Nat) : Nat :=
  let (w, n) := tyElem ty
  mapElems ty (fun j => shift1 o w (elem w j a) (if n = 1 then b else elem w j b))

/-- bfe (R213) of a w-bit value. -/
def bfe (ty w a k : Nat) : Nat :=
  let pos := k % 256
  let len := min (k / 256 % 256) w
  let f := a % 2 ^ w / 2 ^ pos % 2 ^ len
  if len = 0 then 0 else if tySigned ty then wrap w (sgn len f) else f

/-- bfi (R213). -/
def bfi (w a k c : Nat) : Nat :=
  let pos := k % 256
  let len := min (k / 256 % 256) w
  let m := ((2 ^ len - 1) * 2 ^ pos) % 2 ^ w
  Nat.lor (Nat.land a (2 ^ w - 1 - m)) (Nat.land (c * 2 ^ pos) m)

def popc (w v : Nat) : Nat := (List.range w).foldl (fun n i => if v.testBit i then n + 1 else n) 0

/-- Zero bits above the highest one (R214). -/
def clz (w v : Nat) : Nat := if v % 2 ^ w = 0 then w else w - 1 - Nat.log2 (v % 2 ^ w)

/-- Zero bits below the lowest one (R214). -/
def ctz (w v : Nat) : Nat :=
  match (List.range w).find? (fun i => v.testBit i) with
  | some i => i
  | none => w

def brev (w v : Nat) : Nat := (List.range w).foldl (fun n i => if v.testBit i then n + 2 ^ (w - 1 - i) else n) 0

/-- vperm (R215). -/
def aluPerm (a b c : Nat) : Nat :=
  let src (i : Nat) : Nat := if i < 4 then elem 8 i a else elem 8 (i - 4) b
  (List.range 4).foldl (fun acc j =>
    let sel := elem 4 j c
    let y := src (sel % 8)
    acc + (if sel < 8 then y else if 128 ≤ y then 255 else 0) * 2 ^ (8 * j)) 0

/-- The sum type of `vdot4` and `vsad` (R216). -/
def foldTy (ty : Nat) : Nat := if ty = 16 then 4 else 5

def aluDot4 (ty : Nat) (sat : Bool) (a b c : Nat) : Nat :=
  narrow (foldTy ty) sat ((List.range 4).foldl (fun r j => r + ext ty (elem 8 j a) * ext ty (elem 8 j b)) (ext (foldTy ty) c))

def aluSad (ty : Nat) (sat : Bool) (a b c : Nat) : Nat :=
  let (w, n) := tyElem ty
  narrow (foldTy ty) sat ((List.range n).foldl (fun r j =>
    r + (((ext ty (elem w j a)) - ext ty (elem w j b)).natAbs : Int)) (ext (foldTy ty) c))

/-- vpack (R217). -/
def aluPack (ty mode a b : Nat) : Nat :=
  if tyFloat ty then
    let f := tyFmt ty
    f.round mode (f32.value a) + f.round mode (f32.value b) * 2 ^ 16
  else narrow ty (mode = 1) (sgn 32 a) + narrow ty (mode = 1) (sgn 32 b) * 2 ^ 16

/-- vunpack (R217). -/
def aluUnpack (ty e a : Nat) : Nat :=
  let w := (tyElem ty).1
  if tyFloat ty then f32.round 0 ((tyFmt ty).value (elem w e a)) else wrap 32 (ext ty (elem w e a))

/-! Floats, per element (R222 to R225, R228). -/

inductive FOp where
  | add | sub | mul | min | max
  deriving DecidableEq, Repr

def FOp.bits (o : FOp) (f : Fmt) (mode a b : Nat) : Nat :=
  match o with
  | .add => f.round mode ((f.value a).add (mode = 3) (f.value b))
  | .sub => f.round mode ((f.value a).add (mode = 3) (f.value b).negate)
  | .mul => f.round mode ((f.value a).mul (f.value b))
  | .min => f.minBits a b
  | .max => f.maxVal a b

def aluFlt (o : FOp) (ty mode : Nat) (md : BitVec 4) (a b : Nat) : Nat :=
  let f := tyFmt ty
  let w := f.width
  mapElems ty (fun j => o.bits f mode (modA f md (elem w j a)) (modB f md (elem w j b)))

def aluFma (ty mode : Nat) (md : BitVec 4) (a b c : Nat) : Nat :=
  let f := tyFmt ty
  let w := f.width
  mapElems ty (fun j => f.round mode
    (((f.value (modA f md (elem w j a))).mul (f.value (modB f md (elem w j b)))).add (mode = 3) (f.value (elem w j c))))

/-- The one-operand forms per element, A modified (R225, R226). -/
def aluFun (ty : Nat) (md : BitVec 4) (g : Fmt → Nat → Nat) (a : Nat) : Nat :=
  let f := tyFmt ty
  mapElems ty (fun j => g f (modA f md (elem f.width j a)))

/-- fsgn (R228). -/
def aluSgn (ty sub a b : Nat) : Nat :=
  let f := tyFmt ty
  let w := f.width
  mapElems ty (fun j =>
    let x := elem w j a
    let y := elem w j b
    let s := 2 ^ (w - 1)
    let sx := decide (s ≤ x)
    let sy := decide (s ≤ y)
    let sign := match sub with
      | 0 => sy
      | 1 => !sy
      | 2 => sx != sy
      | 3 => false
      | _ => !sx
    x % s + (if sign then s else 0))

/-- A narrow destination in a 32-bit lane (R204): sign-extended for i types, zero-extended otherwise. -/
def placeNarrow (ty v : Nat) : Nat :=
  let w := (tyElem ty).1
  if ty64 ty then v else if tySigned ty then wrap 32 (sgn w v) else v % 2 ^ w

/-- fcvt (R196, R229). -/
def aluFcvt (dst src mode a : Nat) : Nat :=
  placeNarrow dst ((tyFmt dst).round mode ((tyFmt src).value (a % 2 ^ (tyElem src).1)))

/-- icvt (R197, R230). -/
def aluIcvt (dst src mode a : Nat) : Nat :=
  let x := a % 2 ^ (tyElem src).1
  if tyFloat dst then placeNarrow dst ((tyFmt dst).round mode (FV.ofInt (ext src x)))
  else if tyFloat src then placeNarrow dst (wrap (tyElem dst).1 (((tyFmt src).value x).toInt mode (tyMin dst) (tyMax dst)))
  else placeNarrow dst (narrow dst (mode = 1) (ext src x))

end Sys2Proof.Machine
end

