-- ==== Sys2Proof/Machine/FloatOps.lean ====
section
/-! DEFINITION. The float instructions (R221 to R230). -/

namespace Sys2Proof.Machine

/-- R222. -/
def execFadd (f : V3) (s : State) : Out :=
  let k := s.cur
  let ty := f.ty.toNat
  .next (s.vecOp k f .val false (ty64 ty) (fun l => aluFlt .add ty f.mode.toNat f.md (s.vval k ty f.a.toNat l) (s.vecB k ty f l)))

/-- R222. -/
def execFsub (f : V3) (s : State) : Out :=
  let k := s.cur
  let ty := f.ty.toNat
  .next (s.vecOp k f .val false (ty64 ty) (fun l => aluFlt .sub ty f.mode.toNat f.md (s.vval k ty f.a.toNat l) (s.vecB k ty f l)))

/-- R222. -/
def execFmul (f : V3) (s : State) : Out :=
  let k := s.cur
  let ty := f.ty.toNat
  .next (s.vecOp k f .val false (ty64 ty) (fun l => aluFlt .mul ty f.mode.toNat f.md (s.vval k ty f.a.toNat l) (s.vecB k ty f l)))

/-- R223. -/
def execFmin (f : V3) (s : State) : Out :=
  let k := s.cur
  let ty := f.ty.toNat
  .next (s.vecOp k f .val false (ty64 ty) (fun l => aluFlt .min ty f.mode.toNat f.md (s.vval k ty f.a.toNat l) (s.vecB k ty f l)))

/-- R223. -/
def execFmax (f : V3) (s : State) : Out :=
  let k := s.cur
  let ty := f.ty.toNat
  .next (s.vecOp k f .val false (ty64 ty) (fun l => aluFlt .max ty f.mode.toNat f.md (s.vval k ty f.a.toNat l) (s.vecB k ty f l)))

/-- R222. -/
def execFma (f : V3) (s : State) : Out :=
  let k := s.cur
  let ty := f.ty.toNat
  .next (s.vecOp k f .val true (ty64 ty) (fun l => aluFma ty f.mode.toNat f.md (s.vval k ty f.a.toNat l) (s.vecB k ty f l) (s.vval k ty f.c.toNat l)))

/-- R224: f16 and bf16 read the low bits of the lane (R204). -/
def execFcmp (f : V3) (s : State) : Out :=
  let k := s.cur
  let ty := f.ty.toNat
  let w := (tyElem ty).1
  if s.acts k f.hd != 0 && s.vecPoison k f ty true .val false (s.acts k f.hd) then .next (s.trapHere k .poison 0 0 0)
  else
    .next (s.predOp k f.hd f.d.toNat [] [] (fun l =>
      fcond f.md.toNat ((tyFmt ty).value (s.vval k ty f.a.toNat l % 2 ^ w)) ((tyFmt ty).value (s.vecB k ty f l % 2 ^ w))))

/-- R224: the code of each element in its 16 bits for the packed types, else in the low bits of one register. -/
def execFclass (f : V3) (s : State) : Out :=
  let k := s.cur
  let ty := f.ty.toNat
  let w := (tyElem ty).1
  .next (s.vecOp k f .no false false (fun l =>
    if (tyElem ty).2 = 1 then (tyFmt ty).classOf (s.vval k ty f.a.toNat l)
    else mapElems ty (fun j => (tyFmt ty).classOf (elem w j (s.vval k ty f.a.toNat l)))))

/-- R226: faithful. -/
def execFrcp (f : V3) (s : State) : Out :=
  let k := s.cur
  let ty := f.ty.toNat
  .next (s.vecLong k f (ty64 ty) (fun l => aluFun ty f.md (fun fm a => fm.faithful 0 (BitVec.ofNat 64 a) (fm.value a).recip) (s.vval k ty f.a.toNat l)))

/-- R226: faithful. -/
def execFrsq (f : V3) (s : State) : Out :=
  let k := s.cur
  let ty := f.ty.toNat
  .next (s.vecLong k f (ty64 ty) (fun l => aluFun ty f.md (fun fm a => fm.faithful 1 (BitVec.ofNat 64 a) (fm.value a).rsqrt) (s.vval k ty f.a.toNat l)))

/-- R226: correctly rounded by MODE. -/
def execFsqrt (f : V3) (s : State) : Out :=
  let k := s.cur
  let ty := f.ty.toNat
  .next (s.vecLong k f (ty64 ty) (fun l => aluFun ty f.md (fun fm a => fm.round f.mode.toNat (fm.value a).root) (s.vval k ty f.a.toNat l)))

/-- R226 (log entry 7). -/
def execFex2 (f : V3) (s : State) : Out :=
  let k := s.cur
  let ty := f.ty.toNat
  .next (s.vecLong k f (ty64 ty) (fun l => aluFun ty f.md (fun _ a => (fex2Bits (BitVec.ofNat 32 a)).toNat) (s.vval k ty f.a.toNat l)))

/-- R226 (log entry 7). -/
def execFlg2 (f : V3) (s : State) : Out :=
  let k := s.cur
  let ty := f.ty.toNat
  .next (s.vecLong k f (ty64 ty) (fun l => aluFun ty f.md (fun _ a => (flg2Bits (BitVec.ofNat 32 a)).toNat) (s.vval k ty f.a.toNat l)))

/-- R226 (log entry 7). -/
def execFsin (f : V3) (s : State) : Out :=
  let k := s.cur
  let ty := f.ty.toNat
  .next (s.vecLong k f (ty64 ty) (fun l => aluFun ty f.md (fun _ a => (fsinBits (BitVec.ofNat 32 a)).toNat) (s.vval k ty f.a.toNat l)))

/-- R226 (log entry 7). -/
def execFcos (f : V3) (s : State) : Out :=
  let k := s.cur
  let ty := f.ty.toNat
  .next (s.vecLong k f (ty64 ty) (fun l => aluFun ty f.md (fun _ a => (fcosBits (BitVec.ofNat 32 a)).toNat) (s.vval k ty f.a.toNat l)))

/-- R226 (log entry 7). -/
def execFtanh (f : V3) (s : State) : Out :=
  let k := s.cur
  let ty := f.ty.toNat
  .next (s.vecLong k f (ty64 ty) (fun l => aluFun ty f.md (fun _ a => (ftanhBits (BitVec.ofNat 32 a)).toNat) (s.vval k ty f.a.toNat l)))

/-- R225. -/
def execFrint (f : V3) (s : State) : Out :=
  let k := s.cur
  let ty := f.ty.toNat
  .next (s.vecOp k f .no false (ty64 ty) (fun l => aluFun ty f.md (fun fm a => fm.rint f.mode.toNat a) (s.vval k ty f.a.toNat l)))

/-- R225: n is B as a signed 32-bit count. -/
def execFscale (f : V3) (s : State) : Out :=
  let k := s.cur
  let ty := f.ty.toNat
  .next (s.vecOp k f .cnt false (ty64 ty) (fun l => aluFun ty f.md (fun fm a => fm.round f.mode.toNat ((fm.value a).scale (sgn 32 (s.scaleCnt k f l)))) (s.vval k ty f.a.toNat l)))

/-- R228. -/
def execFsgn (f : V3) (s : State) : Out :=
  let k := s.cur
  let ty := f.ty.toNat
  .next (s.vecOp k f (if f.sub < 3 then .val else .no) false (ty64 ty) (fun l => aluSgn ty f.sub.toNat (s.vval k ty f.a.toNat l) (s.vecB k ty f l)))

/-- R229: TY is the destination and SUB the source. -/
def execFcvt (f : V3) (s : State) : Out :=
  let k := s.cur
  let src := f.sub.toNat
  .next (s.cvtOp k f (fun l => aluFcvt f.ty.toNat src f.mode.toNat (s.vval k src f.a.toNat l)))

/-- R230. -/
def execIcvt (f : V3) (s : State) : Out :=
  let k := s.cur
  let src := f.sub.toNat
  .next (s.cvtOp k f (fun l => aluIcvt f.ty.toNat src f.mode.toNat (s.vval k src f.a.toNat l)))

end Sys2Proof.Machine
end

