-- ==== Sys2Proof/Machine/Lanes.lean ====
section
/-! DEFINITION. Exchanges across lanes and quads, votes, ballots, reductions and scans (R235 to R245), the predicate
instructions (R231, R232), and what shadow mode makes of them (R443; log entry 16). -/

namespace Sys2Proof.Machine

/-- A reading lane as its own number in its 16-lane group in shadow mode. -/
def groupLane (shadow : Bool) (r : Nat) : Nat := if shadow then r % 16 else r

/-- The source lane in the reader's half in shadow mode. -/
def mapLane (shadow : Bool) (r : Nat) (x : Int) : Int := if shadow then x % 16 + (if 16 ≤ r then 16 else 0) else x

/-- Supply(s, r) (R236): the source's value where it acts, otherwise the reader's own. -/
def State.supply (s : State) (k ty i r : Nat) (acts : LaneMask) (x : Int) : Nat :=
  if x < 0 || 31 < x then s.vval k ty i r
  else
    let y := mapLane (s.fib k).shadow r x
    if acts.getLsbD y.toNat then s.vval k ty i y.toNat else s.vval k ty i r

/-- R239. -/
def execShfl (f : V3) (s : State) : Out :=
  let k := s.cur
  let ty := f.ty.toNat
  let acts := s.acts k f.hd
  .next (s.vecOp k f .cnt false (ty64 ty) (fun r =>
    let b := s.vecCnt k 5 f r
    let r' := groupLane (s.fib k).shadow r
    let x : Int := match f.sub.toNat with
      | 0 => (b % 32 : Nat)
      | 1 => (r' : Int) - b
      | 2 => (r' : Int) + b
      | _ => (Nat.xor r' (b % 32) : Nat)
    s.supply k ty f.a.toNat r acts x))

/-- R240. -/
def execQswp (f : V3) (s : State) : Out :=
  let k := s.cur
  let ty := f.ty.toNat
  let acts := s.acts k f.hd
  .next (s.vecOp k f .no false (ty64 ty) (fun r => s.supply k ty f.a.toNat r acts (Nat.xor r (f.sub.toNat + 1) : Nat)))

/-- R240. -/
def execQbc (f : V3) (s : State) : Out :=
  let k := s.cur
  let ty := f.ty.toNat
  let acts := s.acts k f.hd
  .next (s.vecOp k f .cnt false (ty64 ty) (fun r => s.supply k ty f.a.toNat r acts (4 * (r / 4) + s.vecCnt k 5 f r % 4 : Nat)))

/-- The contributors (R237): acting lanes that are not helper lanes, of lanes 0 to 15 in shadow mode (R443). -/
def State.contributors (s : State) (k : Nat) (acts : LaneMask) : LaneMask :=
  let c := acts &&& ~~~(s.fib k).helper
  if (s.fib k).shadow then c &&& 0xFFFF else c

/-- The first lane of 0 to 15 whose guard or predicate differs from its shadow's (R443). -/
def State.dmrPred (s : State) (k : Nat) (acts : LaneMask) (p : Nat) : Option Nat :=
  let x := s.fib k
  if x.shadow then
    (List.range 16).find? (fun i => x.entry.mask.getLsbD i && x.entry.mask.getLsbD (i + 16)
      && (acts.getLsbD i != acts.getLsbD (i + 16) || (acts.getLsbD i && (x.preg p).getLsbD i != (x.preg p).getLsbD (i + 16))))
  else none

/-- The vote of R241. -/
def voteOf (sub : Nat) (v c : LaneMask) : Bool :=
  match sub with
  | 0 => v != 0
  | 1 => v = c
  | _ => v = 0 || v = c

/-- R241. -/
def execVote (f : V3) (s : State) : Out :=
  let k := s.cur
  let acts := s.acts k f.hd
  match s.dmrPred k acts f.a.toNat with
  | some i => .next (s.trapHere k .dmrMismatch i 0 0)
  | none =>
    let c := s.contributors k acts
    let t := voteOf f.sub.toNat (c &&& (s.fib k).preg f.a.toNat) c
    .next (s.predOp k f.hd f.d.toNat [f.a.toNat] [] (fun _ => t))

/-- The value that `ballot` writes (R241). -/
def ballotOf (sub : Nat) (m : LaneMask) (d : W64) : W64 :=
  match sub with
  | 0 => m.zeroExtend 64
  | 1 => d.extractLsb' 32 32 ++ m
  | _ => m ++ d.extractLsb' 0 32

/-- R241. -/
def execBallot (f : V3) (s : State) : Out :=
  let k := s.cur
  let acts := s.acts k f.hd
  match s.dmrPred k acts f.a.toNat with
  | some i => .next (s.trapHere k .dmrMismatch i 0 0)
  | none =>
    if acts != 0 && s.pBadSrc k f.a.toNat then .next (s.trapHere k .poison 0 0 0)
    else
      let m := s.contributors k acts &&& (s.fib k).preg f.a.toNat
      .next (s.scaOp k f.hd f.d (if f.sub = 0 then [] else [f.d]) (ballotOf f.sub.toNat m ((s.fib k).sreg f.d.toNat)))

/-- The value of an integer reduction of exact values (R242, R243). -/
def redInt (ty op : Nat) (sat : Bool) (xs : List Nat) : Nat :=
  let w := (tyElem ty).1
  match op with
  | 0 => narrow ty sat (xs.foldl (fun a x => a + ext ty x) 0)
  | 1 => wrap w (xs.foldl (fun a x => min a (ext ty x)) (tyMax ty))
  | 2 => wrap w (xs.foldl (fun a x => max a (ext ty x)) (tyMin ty))
  | 3 => xs.foldl (fun a x => Nat.land a x) (2 ^ w - 1)
  | 4 => xs.foldl (fun a x => Nat.lor a x) 0
  | _ => xs.foldl (fun a x => Nat.xor a x) 0

/-- The identity of an f32 operator (R242). -/
def redId32 (op : Nat) : Nat := if op = 0 then 0 else if op = 1 then 0x7F800000 else 0xFF800000

/-- One f32 addition with a rounding mode. -/
def addMode (mode a b : Nat) : Nat := FOp.add.bits f32 mode a b

/-- Comb of R243. -/
def comb (mode : Nat) : Option Nat → Option Nat → Option Nat
  | a, none => a
  | none, b => b
  | some a, some b => some (addMode mode a b)

/-- One level of the fixed tree: neighbours are combined. -/
def pairUp (mode : Nat) : List (Option Nat) → List (Option Nat)
  | a :: b :: t => comb mode a b :: pairUp mode t
  | l => l

/-- The fixed tree of R243 over 32 positions. -/
def treeSum (mode : Nat) (xs : List (Option Nat)) : Nat :=
  match pairUp mode (pairUp mode (pairUp mode (pairUp mode (pairUp mode xs)))) with
  | some r :: _ => r
  | _ => 0

/-- fmin or fmax from the first value on, ascending; a lone NaN is the canonical NaN (R243). -/
def minMax32 (op : Nat) (a : Option Nat) (x : Nat) : Option Nat :=
  match a with
  | none => some (if (f32.value x).isNan then 0x7FC00000 else x)
  | some y => some (if op = 1 then f32.minBits y x else f32.maxVal y x)

/-- R243. -/
def State.redValue (s : State) (k : Nat) (f : V3) (c : LaneMask) : Nat :=
  let ty := f.ty.toNat
  let op := f.sub.toNat % 8
  let x (l : Nat) : Nat := s.vval k ty f.a.toNat l
  if ty = 10 then
    if op = 0 then
      let r := treeSum f.mode.toNat (lanes.map (fun l => if c.getLsbD l then some (x l) else none))
      if (f32.value r).isNan then 0x7FC00000 else r
    else
      match (lanesOf c).foldl (fun a l => minMax32 op a (x l)) none with
      | some r => r
      | none => redId32 op
  else redInt ty op (f.mode = 1) ((lanesOf c).map x)

/-- R243. -/
def execVred (f : V3) (s : State) : Out :=
  let k := s.cur
  let r := s.redValue k f (s.contributors k (s.acts k f.hd))
  .next (s.vecLong k f (ty64 f.ty.toNat) (fun _ => r))

/-- Step of R244: the running value, EMPTY as none. The sum of the identity and a NaN is the canonical NaN (R188). -/
def scanStep (ty op mode : Nat) (a : Option Nat) (x : Nat) : Option Nat :=
  if ty = 10 then
    match op, a with
    | 0, some y => some (addMode mode y x)
    | _, _ => minMax32 op a x
  else some (redInt ty op (op = 0 && mode = 1) (match a with
      | none => [x]
      | some y => [y, x]))

/-- Val of R244. -/
def scanVal (ty op : Nat) : Option Nat → Nat
  | some v => v
  | none => if ty = 10 then redId32 op else redInt ty op false []

/-- The contributors below lane r, and lane r itself for an inclusive scan, in ascending order. -/
def scanLanes (c : LaneMask) (excl : Bool) (r : Nat) : List Nat := (lanesOf c).filter (fun l => if excl then l < r else l ≤ r)

/-- R244; in shadow mode lane 16 + i takes lane i's value (R443). -/
def State.scanValue (s : State) (k : Nat) (f : V3) (c : LaneMask) (r : Nat) : Nat :=
  let ty := f.ty.toNat
  let op := f.sub.toNat % 8
  let r' := groupLane (s.fib k).shadow r
  scanVal ty op ((scanLanes c (f.sub.getLsbD 3) r').foldl (fun a l =>
    scanStep ty op f.mode.toNat a (s.vval k ty f.a.toNat l)) none)

/-- R244. -/
def execVscan (f : V3) (s : State) : Out :=
  let k := s.cur
  let c := s.contributors k (s.acts k f.hd)
  .next (s.vecLong k f (ty64 f.ty.toNat) (fun r => s.scanValue k f c r))

/-! Predicates (R231). -/

/-- p(i) in a lane, inverted where SUB says. -/
def State.plane (s : State) (k : Nat) (i : BitVec 6) (inv : Bool) (l : Nat) : Bool := ((s.fib k).preg i.toNat).getLsbD l != inv

/-- R231. -/
def execPand (f : V3) (s : State) : Out :=
  let k := s.cur
  .next (s.predOp k f.hd f.d.toNat [f.a.toNat, f.b.toNat] [] (fun l =>
    s.plane k f.a (f.sub.getLsbD 0) l && s.plane k f.b (f.sub.getLsbD 1) l))

/-- R231. -/
def execPor (f : V3) (s : State) : Out :=
  let k := s.cur
  .next (s.predOp k f.hd f.d.toNat [f.a.toNat, f.b.toNat] [] (fun l =>
    s.plane k f.a (f.sub.getLsbD 0) l || s.plane k f.b (f.sub.getLsbD 1) l))

/-- R231. -/
def execPxor (f : V3) (s : State) : Out :=
  let k := s.cur
  .next (s.predOp k f.hd f.d.toNat [f.a.toNat, f.b.toNat] [] (fun l =>
    s.plane k f.a (f.sub.getLsbD 0) l != s.plane k f.b (f.sub.getLsbD 1) l))

/-- R231. -/
def execPnot (f : V3) (s : State) : Out :=
  let k := s.cur
  .next (s.predOp k f.hd f.d.toNat [f.a.toNat] [] (fun l => !s.plane k f.a false l))

/-- R231. -/
def execPmov (f : V3) (s : State) : Out :=
  let k := s.cur
  .next (s.predOp k f.hd f.d.toNat [f.a.toNat] [] (fun l => s.plane k f.a false l))

/-- R232. -/
def execPcnt (f : V3) (s : State) : Out :=
  let k := s.cur
  let acts := s.acts k f.hd
  match s.dmrPred k acts f.a.toNat with
  | some i => .next (s.trapHere k .dmrMismatch i 0 0)
  | none =>
    if acts != 0 && s.pBadSrc k f.a.toNat then .next (s.trapHere k .poison 0 0 0)
    else
      .next (s.scaOp k f.hd f.d [] (BitVec.ofNat 64 (popc 32 (s.contributors k acts &&& (s.fib k).preg f.a.toNat).toNat)))

end Sys2Proof.Machine
end

