-- ==== Sys2Proof/Machine/Loss.lean ====
section
/-! DEFINITION. The loss and retirement of memory (R320 to R325, R464), the patrol scrubber (R327), row repair (R329) and the
refresh of DRAM (R331). Values survive in `State.mem`; what a loss changes is where a line lives, and what can be had back from
its stripe (log entry 13). -/

namespace Sys2Proof.Machine

/-! Units. -/

def lostStack : LostUnit → Nat
  | .bank s _ => s | .pseudoChannel s _ _ => s | .channel s _ => s | .tsvGroup s _ _ _ => s | .stack s => s

/-- The units of its stack that a loss names (R306); a whole stack and a TSV group are not named by units. -/
def lostUnits : LostUnit → List Nat
  | .bank _ u => [u]
  | .pseudoChannel _ ch pc => (List.range 16).map (fun b => 32 * ch + 16 * pc + b)
  | .channel _ ch => (List.range 32).map (fun b => 32 * ch + b)
  | .tsvGroup _ _ _ _ => []
  | .stack _ => []

def lostWhole : LostUnit → Bool
  | .stack _ => true
  | _ => false

/-- Whether a unit of a stack is enabled in a mask set and has not failed (R312, R314). -/
def Damask.unitLive (d : Damask) (ms st u : Nat) : Bool := (d.chanMask ms st (u / 32)).testBit (u % 32) && !d.unitFailed st u

/-- Whether a province's set uses what a loss names (R321, R325). -/
def Damask.uses (d : Damask) (p : Nat) (u : LostUnit) : Bool :=
  let e := d.prov p
  let s := d.setEnt e.set
  e.st != .retired && s.stackBits.testBit (lostStack u) && !d.stackFailed (lostStack u)
    && ((lostWhole u) || (lostUnits u).any (fun x => d.unitLive s.maskset (lostStack u) x))

/-- The provinces that a loss strikes. -/
def Damask.struck (d : Damask) (u : LostUnit) : List Nat := (List.range 2560).filter (fun p => d.uses p u)

/-- A province changes its state (R321, R330). -/
def Damask.setState (d : Damask) (p : Nat) (e : Prov) : Damask := (d.setProv p e).logEvent (eventWord 6 noPlace p)

/-- The place that a loss logs. -/
def lostPlace : LostUnit → Place
  | .bank s u => { noPlace with stack := s, unit := u }
  | .pseudoChannel s ch pc => { noPlace with stack := s, unit := 32 * ch + 16 * pc }
  | .channel s ch => { noPlace with stack := s, unit := 32 * ch }
  | .tsvGroup s ch pc _ => { noPlace with stack := s, unit := 32 * ch + 16 * pc }
  | .stack s => { noPlace with stack := s }

/-- The failure map takes a loss (R314), and the log records it. A lost TSV group is an erasure of the line code (R308): group g carries symbol
g + 2, groups 8 and 9 the check symbols 0 and 1 (R307). -/
def Damask.fail (d : Damask) (u : LostUnit) : Damask :=
  let d := d.logEvent (eventWord 5 (lostPlace u) 0)
  match u with
  | .stack s => { d with failStack := tput d.failStack s true }
  | .tsvGroup s ch pc g => { d with tsvLost := tput d.tsvLost (16 * (64 * s + 2 * ch + pc) + (g + 2) % 10) true }
  | _ => { d with failUnit := (lostUnits u).foldl (fun t x => tput t (1024 * lostStack u + x) true) d.failUnit }

/-- Dirty lines whose parity stack is lost are written back, without a pre-image (R320). -/
def State.recoveryFlush (s : State) (stack : Nat) : State :=
  (s.l2.filter (fun e => e.2.dirty && (s.damask.home (64 * e.1)).par.stack = stack)).foldl (fun s e =>
    { s with l2 := tput s.l2 e.1 { e.2 with dirty := false }, damask := { s.damask with err := tdel s.damask.err e.1 } }) s

/-- The memory-side cache of a lost stack holds nothing any more. -/
def State.dropMsc (s : State) (stack : Nat) : State :=
  { s with msc := s.msc.filter (fun e => s.mscStack e.1 != stack), pmsc := s.pmsc.filter (fun e => s.parStack e.1 != stack) }

/-- A unit is declared lost, unplanned (R321): its provinces become DEGRADED; one in RESTRIPING becomes so at its end (R324). -/
def State.declareLost (s : State) (u : LostUnit) : State :=
  let hit := s.damask.struck u
  let s := if (lostWhole u) then (s.recoveryFlush (lostStack u)).dropMsc (lostStack u) else s
  let d := s.damask.fail u
  let d := hit.foldl (fun d p => if (d.prov p).st = .normal then d.setState p { d.prov p with st := .degraded } else d) d
  s.setDamask (if (lostWhole u) then { d with flushing := tput d.flushing (lostStack u) true } else d)

/-- UNIT_LOSS. -/
def execUnitLoss (u : LostUnit) (s : State) : Out :=
  if s.damask.stackFailed (lostStack u) || 12 ≤ (lostStack u) then .next s
  else
    let hit := s.damask.struck u
    let t := s.declareLost u
    if t.damask.retire.isSome then .next t
    else .next (t.setDamask (t.damask.openRetire t.hostRebuild (lostWhole u) false (lostStack u) hit))

/-- RECOVERY_FLUSH_END: each parity line that lay on the lost stack is a lost member from now on (R320). -/
def execRecoveryFlushEnd (stack : Nat) (s : State) : Out :=
  if tget false s.damask.flushing stack then
    let t := s.recoveryFlush stack
    .next { t with damask := { t.damask with flushing := tdel t.damask.flushing stack } }
  else .next s

/-! Phases (R315, R321, R325). -/

def stripesOf (w : Nat) : Nat := (2 ^ 22 + w - 1) / max 1 w

/-- The slots that live members of a province use, as stack, first slot and number (R309, R311). -/
def Damask.liveSlots (d : Damask) (p : Nat) : List (Nat × Nat × Nat) :=
  let e := d.prov p
  let s := d.setEnt e.set
  let n := stripesOf s.w
  let alive := s.members.filter (fun x => !d.stackFailed x)
  if e.st = .retired then []
  else
    alive.map (fun x => (x, e.frame, n))
      ++ (if e.rb || e.st = .rebuilding then alive.map (fun x => (x, e.spare, n / max 1 s.w + 1)) else [])
      ++ (if e.st = .restriping then (d.setEnt e.newSet).members.map (fun x => (x, e.newFrame, stripesOf (d.setEnt e.newSet).w)) else [])

/-- The new slots of a province meet no live slot and lie below the end of every stack (R315). -/
def Damask.roomOk (d : Damask) (p : Nat) : Bool :=
  let e := d.prov p
  let n := stripesOf (d.setEnt e.newSet).w
  e.newFrame + n ≤ 1073807360
    && (List.range 2560).all (fun q => (d.liveSlots q).all (fun r =>
      !((d.setEnt e.newSet).members.contains r.1 && e.newFrame < r.2.1 + r.2.2 && r.2.1 < e.newFrame + n)))

/-- A province that must pass through REBUILDING in a retirement (R321). -/
def Damask.needsRebuild (d : Damask) (r : Retire) (p : Nat) : Bool :=
  d.stackGone p || (r.planned && r.whole && (d.setEnt (d.prov p).set).members.contains r.stack)

/-- A province at work in the phase: in its state with lines left to move. -/
def Damask.working (d : Damask) (r : Retire) (p : Nat) : Bool :=
  let e := d.prov p
  if r.phase = 2 then e.st = .rebuilding && e.wm < 2 ^ 22 else e.st = .restriping

/-- The next group of the phase, at most 16 provinces in ascending order, once none is at work; where room is checked again, those that wait
for it. -/
def Damask.nextGroup (d : Damask) (r : Retire) (again : Bool) : List Nat :=
  let idle := r.todo.filter (fun p => !d.working r p)
  let n := r.todo.length - idle.length
  if again then idle.take (16 - n) else if n = 0 then idle.take 16 else []

/-- The stack whose members of a province REBUILDING moves: the one to retire, or one that has failed. -/
def Damask.goneStack (d : Damask) (r : Retire) (p : Nat) : Option Nat :=
  let ms := (d.setEnt (d.prov p).set).members
  if r.planned && r.whole && ms.contains r.stack then some r.stack else ms.find? (fun x => d.stackFailed x)

/-- A province starts REBUILDING, or RESTRIPING where it has room. -/
def Damask.startProv (d : Damask) (r : Retire) (p : Nat) : Damask :=
  let e := d.prov p
  if r.phase = 2 then d.setState p { e with st := .rebuilding, wm := 0, gone := d.goneStack r p }
  else if d.roomOk p then d.setState p { e with st := .restriping, rb := e.st = .rebuilding, wm := 0 }
  else d

/-- Start the next group of the phase; while a province of it has no room, PHASE reads WAIT_ROOM (R315). -/
def Damask.startGroup (d : Damask) (r : Retire) (again : Bool) : Damask :=
  let g := d.nextGroup r again
  let d := g.foldl (fun d p => d.startProv r p) d
  { d with retire := some (if g.any (fun p => !d.working r p) then { r with phase := 5, next := 3 } else r) }

/-- The phase that waits, or the next group of the phase in progress, starts. -/
def Damask.start (d : Damask) (r : Retire) (host : Bool) : Damask :=
  if r.phase = 2 || r.phase = 3 then d.startGroup r false
  else if r.phase = 5 then d.startGroup { r with phase := 3 } true
  else if r.next = 2 then
    let todo := r.all.filter (fun p => d.needsRebuild r p)
    if todo.isEmpty then { d with retire := some { r with phase := if host then 4 else 3, next := 3, todo := r.all } }
    else d.startGroup { r with phase := 2, todo := todo } false
  else d.startGroup { r with phase := 3, todo := r.all } false

/-- PHASE_START: firmware starts the phase, or its next group, or has room checked again; with FUNC_MODE.REBUILD = 1 a phase waits for the
host (R321). -/
def execPhaseStart (s : State) : Out :=
  match s.damask.retire with
  | none => .next s
  | some r => if r.phase = 4 then .next s else .next (s.setDamask (s.damask.start r s.hostRebuild))

/-- LINE_MOVE: the line at the watermark is locked while it moves, and moves (R322, R323). The first event of a line locks it, the
second ends its move. -/
def execLineMove (province : Nat) (s : State) : Out :=
  let e := s.damask.prov province
  if (e.st = .rebuilding || e.st = .restriping) && e.wm < 2 ^ 22 then
    if e.locked then .next (s.endMove province)
    else .next { s with damask := s.damask.setProv province { e with locked := true } }
  else .next s

/-! MEM_RETIRE (R325). -/

def State.retireError (s : State) (n : Nat) : State := { s with damask := { s.damask with lastError := n } }

/-- The unit that a MEM_RETIRE of KIND 0 to 3 names. -/
def retireUnit (kind : Nat) (v : W64) : LostUnit :=
  let st := (v.extractLsb' 4 4).toNat
  let ch := (v.extractLsb' 8 5).toNat
  let pc := (v.extractLsb' 13 1).toNat
  match kind with
  | 0 => .bank st (32 * ch + 16 * pc + (v.extractLsb' 14 4).toNat)
  | 1 => .pseudoChannel st ch pc
  | 2 => .channel st ch
  | _ => .stack st

/-- KIND 0 to 3. REBUILDING for a planned stack starts at once, unless it waits for the host; before a RESTRIPING firmware writes the new
placement, and then starts it (R321, R464). -/
def State.retireUnits (s : State) (kind : Nat) (v : W64) : State :=
  let u := retireUnit kind v
  let hit := s.damask.struck u
  if s.damask.retire.isSome then s.retireError 1
  else if hit.isEmpty then s.retireError 2
  else
    let planned := v.getLsbD 3
    let s := if planned then s else s.declareLost u
    let d := s.damask.openRetire s.hostRebuild (lostWhole u) planned (lostStack u) hit
    match d.retire with
    | some r => s.setDamask (if planned && lostWhole u && !s.hostRebuild then d.start r false else d)
    | none => s.setDamask d

/-- Check room for a phase that waits in WAIT_ROOM. -/
def State.checkRoom (s : State) : State :=
  match s.damask.retire with
  | some r => if r.phase = 5 then s.setDamask (s.damask.start r s.hostRebuild) else s
  | none => s

/-- KIND 4: a province that no partition owns becomes RETIRED (R321). -/
def State.retireProvince (s : State) (v : W64) : State :=
  let p := (v.extractLsb' 18 12).toNat
  let e := s.damask.prov p
  if 2560 ≤ p then s.retireError 2
  else if e.owner.isSome then s.retireError 4
  else if e.st = .retired then s
  else
    let d := s.damask.setState p { e with st := .retired, rb := false, wm := 0, locked := false }
    let d := match d.retire with
      | some r =>
        if r.all.contains p then
          let r := { r with all := r.all.erase p }
          (if r.todo.contains p then ({ d with retire := some r } : Damask).leavePhase s.hostRebuild p else { d with retire := some r })
        else d
      | none => d
    (s.setDamask d).checkRoom

/-- KIND 5: what waits starts. -/
def State.retireStart (s : State) : State :=
  match s.damask.retire with
  | some r => if r.phase = 4 || r.phase = 5 then s.setDamask (s.damask.start r s.hostRebuild) else s.retireError 5
  | none => s.retireError 5

/-- A write of MEM_RETIRE with a KIND. -/
def State.memRetire (s : State) (kind : Nat) (v : W64) : State :=
  if kind ≤ 3 then s.retireUnits kind v
  else if kind = 4 then s.retireProvince v
  else if kind = 5 then s.retireStart
  else s.retireError 2

/-- MEM_RETIRE_STATUS (R325). -/
def Damask.status (d : Damask) : W64 :=
  let r := match d.retire with
    | some r => r.phase + 2 ^ 32 * (r.todo.length % 4096)
    | none => 0
  BitVec.ofNat 64 (r + 256 * d.lastError)

def execMemRetireBank (fib : Nat) (v : W64) (s : State) : Out := let _ := fib; .next (s.memRetire 0 v)
def execMemRetirePseudoChannel (fib : Nat) (v : W64) (s : State) : Out := let _ := fib; .next (s.memRetire 1 v)
def execMemRetireChannel (fib : Nat) (v : W64) (s : State) : Out := let _ := fib; .next (s.memRetire 2 v)
def execMemRetireStack (fib : Nat) (v : W64) (s : State) : Out := let _ := fib; .next (s.memRetire 3 v)
def execMemRetireProvince (fib : Nat) (v : W64) (s : State) : Out := let _ := fib; .next (s.memRetire 4 v)
def execMemRetireStartPhase (fib : Nat) (v : W64) (s : State) : Out := let _ := fib; .next (s.memRetire 5 v)
def execMemRetireBadKind (fib : Nat) (v : W64) (s : State) : Out := let _ := fib; .next (s.memRetire 6 v)

/-! The patrol scrubber (R327, R308). -/

/-- What a poisoned line looks like in DRAM: both check symbols of every codeword complemented (R308). -/
def poisonErr : BitVec 640 := BitVec.allOnes 128 ++ (0 : BitVec 512)

/-- Eight lines of a pass corrected at the same symbol mark that TSV group lost (R308). -/
def Damask.countTsv (d : Damask) (p : Place) (k : Nat) : Damask :=
  let key := 16 * (64 * p.stack + p.unit / 16) + k
  let n := tget 0 d.tsvCount key + 1
  { d with tsvCount := tput d.tsvCount key n, tsvLost := if 8 ≤ n then tput d.tsvLost key true else d.tsvLost }

/-- The poison of a line's two sectors as DRAM holds it. -/
def sectorPoison (a b : Bool) : BitVec 640 :=
  (if b then BitVec.allOnes 64 else 0) ++ (if a then BitVec.allOnes 64 else 0) ++ (0 : BitVec 512)

/-- What DRAM holds of a line, or of a parity line by its key, is rewritten. -/
def State.setErr (s : State) (par : Bool) (key : Nat) (e : BitVec 640) : State :=
  if par then { s with parErr := if e = 0 then tdel s.parErr key else tput s.parErr key e }
  else { s with damask := { s.damask with err := if e = 0 then tdel s.damask.err key else tput s.damask.err key e } }

/-- One line of DRAM at a place is read and rewritten: corrected, rebuilt where `other` says that its value can be had, or poisoned. -/
def State.rewriteAt (s : State) (patrol par : Bool) (key prov : Nat) (p : Place) (err : BitVec 640) (other : Bool) : State :=
  if err = 0 || s.damask.lost p then s
  else
    match readLine (s.damask.tsvOf p) err with
    | .ok fix a b =>
      let s := match fix with
        | some k =>
          let r := s.damask.corrected s.predict p
          let d := if r.2 then r.1.repairRow p else r.1
          s.setDamask (if patrol then d.countTsv p k else d)
        | none => s
      s.setErr par key (sectorPoison a b)
    | .uncorrectable => if other then s.setErr par key 0 else (s.setErr par key poisonErr).logEvent (eventWord 4 p prov)

/-- A line of DRAM is read and rewritten. An open line's value is its dirty copy in L2 (R317, R319). -/
def State.rewriteLine (s : State) (patrol : Bool) (line : Nat) : State :=
  let h := s.damask.home (64 * line)
  s.rewriteAt patrol false line h.prov h.at_ (tget 0 s.damask.err line) (s.isOpen line || s.rebuildOk h)

/-- The same for the parity line of a line's stripe: it can be had from its memory-side cache or from the members. -/
def State.rewriteParity (s : State) (patrol : Bool) (line : Nat) : State :=
  let h := s.damask.home (64 * line)
  s.rewriteAt patrol true (parKey h) h.prov h.par (tget 0 s.parErr (parKey h))
    ((tfind s.pmsc (parKey h)).isSome || (List.range h.w).all (fun k => s.memberOk h k))

/-- The lines that a pass covers (R146, R327): the last line ends it. -/
def State.patrolRange (s : State) : Nat × Nat :=
  let r := s.damask.scrubRange
  if (s.vd 0).funcMode.getLsbD 6 then ((r.extractLsb' 0 12).toNat * 2 ^ 22, ((r.extractLsb' 16 12).toNat + 1) * 2 ^ 22)
  else (0, 2560 * 2 ^ 22)

/-- PATROL_SCRUB: a line, and with the first of a stripe its parity line; locked lines are skipped. The end of a pass clears the filter and
counts in PASSES. -/
def execPatrolScrub (line : Nat) (s : State) : Out :=
  let r := s.patrolRange
  if !s.damask.scrubCtl.getLsbD 16 || line < r.1 || r.2 ≤ line then .next s
  else
    let t := if s.damask.isLocked line then s else s.rewriteLine true line
    let t := if (s.damask.home (64 * line)).k = 0 then t.rewriteParity true line else t
    if line + 1 = r.2 then
      .next { t with damask := { t.damask with filter := [], tsvCount := [], scrubCtl := t.damask.scrubCtl + 2 ^ 32 } }
    else .next t

/-- DRAM_REFRESH: a blackout delays commands and changes no value (R331). -/
def execDramRefresh (stack channel : Nat) (s : State) : Out :=
  let _ := stack
  let _ := channel
  .next s

/-! Row repair (R329). -/

/-- The row that ROW_REPAIR names. -/
def rowOf (v : W64) : Place :=
  { stack := (v.extractLsb' 0 4).toNat, slot := 0, unit := (v.extractLsb' 4 5).toNat * 32 + (v.extractLsb' 9 1).toNat * 16 + (v.extractLsb' 10 4).toNat,
    row := (v.extractLsb' 14 17).toNat, col := 0 }

/-- ROW_REPAIR with its STATUS. -/
def rowReg (v : W64) (status : Nat) : W64 := (v &&& 0x7FFFFFFF) ||| BitVec.ofNat 64 (status * 2 ^ 32)

/-- A write of ROW_REPAIR. -/
def State.rowRepairWrite (s : State) (v : W64) : State :=
  let d := s.damask
  let busy := (d.rowRepair.extractLsb' 32 3).toNat = 1
  let p := rowOf v
  if busy then (if v.getLsbD 31 then s else { s with damask := { d with rowRepair := rowReg v 1 } })
  else if !v.getLsbD 31 then { s with damask := { d with rowRepair := rowReg v (d.rowRepair.extractLsb' 32 3).toNat } }
  else if 12 ≤ p.stack || 65540 ≤ p.row then { s with damask := { d with rowRepair := rowReg v 4 } }
  else if tget repairsEmpty d.repairs (1024 * p.stack + p.unit) = 0 then { s with damask := { d with rowRepair := rowReg v 3 } }
  else { s with damask := { d.repairRow p with rowRepair := rowReg v 1, repairing := some p.rowKey } }

/-- ROW_REPAIR as it reads: LEFT is that of the bank that it names. -/
def Damask.rowRepairRead (d : Damask) : W64 :=
  let p := rowOf d.rowRepair
  d.rowRepair &&& 0x77FFFFFFF ||| BitVec.ofNat 64 (tget repairsEmpty d.repairs (1024 * p.stack + p.unit) * 2 ^ 35)

/-- ROW_REPAIR_GO. -/
def execRowRepairGo (fib : Nat) (v : W64) (s : State) : Out :=
  let _ := fib
  .next (s.rowRepairWrite (v ||| 0x80000000))

/-- The data lines of the stripes that a parity key counts. -/
def State.parWidth (s : State) (key : Nat) : Nat :=
  let e := s.damask.prov (key % 2 ^ 34 / 2 ^ 22)
  max 1 (s.damask.setEnt (if 2 ^ 34 ≤ key then e.newSet else e.set)).w

/-- ROW_REPAIR_DONE: the oldest row in repair has been copied, its lines corrected or rebuilt, and its bank uses the repair row. -/
def execRowRepairDone (s : State) : Out :=
  match s.damask.repairMap.find? (fun e => 1000000 ≤ e.2) with
  | none => .next s
  | some (key, n) =>
    let t := (s.parErr.map (·.1)).foldl (fun s k =>
      let line := k % 2 ^ 34 / 2 ^ 22 * 2 ^ 22 + k % 2 ^ 22 * (s.parWidth k)
      if (s.damask.home (64 * line)).par.rowKey = key && parKey (s.damask.home (64 * line)) = k then s.rewriteParity false line else s) s
    let t := (t.damask.err.map (·.1)).foldl (fun s line =>
      if (s.damask.home (64 * line)).at_.rowKey = key then s.rewriteLine false line else s) t
    let d := t.damask
    let mine := d.repairing = some key
    .next { t with damask := { d with repairMap := tput d.repairMap key (n - 1000000),
                                      rowRepair := if mine then rowReg d.rowRepair 2 else d.rowRepair,
                                      repairing := if mine then none else d.repairing } }

end Sys2Proof.Machine
end

