-- ==== Sys2Proof/Machine/Place.lean ====
section
/-! DEFINITION. Launching and placing work (R121 to R142), from a launch record to a workgroup's first instruction; the active
sets of the quarters (R151 to R153); shadow mode's copy (R443); and what enabling and disabling a function does. -/

namespace Sys2Proof.Machine

/-! Records in memory. -/

/-- A little-endian field of a record. -/
def fieldAt (bs : List Byte) (o n : Nat) : Nat := leNat ((bs.drop o).take n)

/-- A launch record (R127). -/
structure LaunchRec where
  desc    : Nat
  args    : Nat
  prov    : Nat
  conf    : Nat
  gx      : Nat
  gy      : Nat
  gz      : Nat
  threads : Nat
  queue   : Nat
  lflags  : Nat
  parent  : Nat
  rsv     : Nat
  deriving DecidableEq, Repr

def LaunchRec.ofBytes (bs : List Byte) : LaunchRec :=
  { desc := fieldAt bs 0 8, args := fieldAt bs 8 8, prov := fieldAt bs 16 8, conf := fieldAt bs 24 8, gx := fieldAt bs 32 4,
    gy := fieldAt bs 36 4, gz := fieldAt bs 40 4, threads := fieldAt bs 44 4, queue := fieldAt bs 48 2, lflags := fieldAt bs 50 2,
    parent := fieldAt bs 52 4, rsv := fieldAt bs 56 8 }

def LaunchRec.child (r : LaunchRec) : Bool := r.lflags % 2 = 1

/-- R127 except THREADS and ARGS; QUEUE below QCOUNT, except for the dispatcher (R124, R130). -/
def LaunchRec.ok (r : LaunchRec) (qcount : Nat) (disp : Bool) : Bool :=
  let ext (n : Nat) : Bool := 1 ≤ n && n ≤ 2 ^ 21
  r.prov % 8 = 0 && r.conf % 8 = 0 && ext r.gx && ext r.gy && ext r.gz && (disp || r.queue < min 64 qcount) && r.lflags < 2
    && (r.child || r.parent = 0) && r.rsv = 0

/-- A kernel descriptor (R44). -/
def KDesc.ofBytes (bs : List Byte) : KDesc :=
  { code := BitVec.ofNat 64 (fieldAt bs 0x00 8), trapvec := BitVec.ofNat 64 (fieldAt bs 0x08 8), spill := BitVec.ofNat 64 (fieldAt bs 0x10 8),
    spillStride := fieldAt bs 0x18 4, codeSize := fieldAt bs 0x1C 4, scratch := fieldAt bs 0x20 4, ob := fieldAt bs 0x24 4,
    childReserve := fieldAt bs 0x28 4, energy := fieldAt bs 0x2C 4, argsSize := fieldAt bs 0x30 2, stack := fieldAt bs 0x32 2,
    slots := fieldAt bs 0x34 1, fibres := fieldAt bs 0x35 1, shared := fieldAt bs 0x36 1, prio := fieldAt bs 0x37 1,
    flags := BitVec.ofNat 16 (fieldAt bs 0x38 2), version := fieldAt bs 0x3A 2, template := fieldAt bs 0x3C 4,
    rsvZero := (bs.drop 0x40).all (fun b => b = 0) }

/-- R44 to R47: the descriptor is valid; `texts` are the TEXT sections that its CODE may lie in. -/
def KDesc.ok (d : KDesc) (texts : List (Nat × Nat)) : Bool :=
  d.code.toNat % 8 = 0 && texts.any (fun t => t.1 ≤ d.code.toNat && d.code.toNat < t.1 + t.2)
    && d.scratch % 1024 = 0 && d.scratch ≤ 2 ^ 22 && d.ob % 1024 = 0 && d.ob ≤ 2 ^ 19 && d.childReserve ≤ 2 ^ 20 && d.argsSize ≤ 512
    && d.stack % 8 = 0 && 64 ≤ d.stack && d.stack ≤ 256 && 1 ≤ d.slots && d.slots ≤ 16 && 1 ≤ d.fibres && d.fibres ≤ 4
    && [0, 8, 16, 32].contains d.shared && d.prio ≤ 7 && d.flags.toNat < 32 && d.version = 1 && d.rsvZero
    && d.fibres * d.stack + d.shared ≤ 256 && (!d.flags.getLsbD 0 || d.slots % 4 = 0)
    && (d.flags.getLsbD 2 || (d.spill != 0 && d.spill.toNat % 4096 = 0 && 1024 ≤ d.spillStride && d.spillStride % 1024 = 0))

/-- What `launch` reads of a queue entry (R126). -/
structure QueueEnt where
  budget  : Nat
  edef    : Nat
  qclass  : Nat
  enabled : Bool
  urgent  : Bool
  twill   : Nat
  mem     : Nat
  deriving DecidableEq, Repr

def QueueEnt.ofBytes (bs : List Byte) : QueueEnt :=
  { twill := fieldAt bs 0x12 2, mem := fieldAt bs 0x1E 2, budget := fieldAt bs 0x14 4, edef := fieldAt bs 0x18 4, qclass := fieldAt bs 0x1C 1, enabled := fieldAt bs 0x1D 1 % 2 = 1,
    urgent := fieldAt bs 0x1D 1 / 2 % 2 = 1 }

/-- The dispatcher's grid reads no queue entry (R124). -/
def QueueEnt.dispatcher : QueueEnt := { budget := 0, edef := 0, qclass := 0, enabled := true, urgent := false, twill := 0, mem := 0 }

/-- QUEUE_BASE: the address of the table, and QCOUNT (R125). -/
def Vd.queueTable (v : Vd) : Nat := v.queueBase.toNat / 2048 % 2 ^ 46 * 2048
def Vd.qcount (v : Vd) : Nat := v.queueBase.toNat % 128

/-- TryRead (R130): the bytes, or why a read of them did not answer: a translation, or poison (log entry 74). -/
def State.tryRead (s : State) (core vd a n : Nat) : Except XErr (List Byte) :=
  match collectE (fun (p : Nat × Nat) => s.globalPiece core vd .rd p.1 p.2) (sectors (n / 32 + 2) a n) with
  | .ok ps =>
    let w : Who := { core := core, wg := 0, vd := vd, scope := 5 }
    let r := s.readPieces w ps
    if r.2.piecesBad w ps then .error (.fault .poison) else .ok r.1
  | .error e => .error e

/-! Admission (R130 to R133). -/

/-- The queue entry of a record, if it is ENABLED. -/
def State.queueEntry (s : State) (core vd : Nat) (r : LaunchRec) (disp : Bool) : Except XErr (Option QueueEnt) :=
  if disp then .ok (some QueueEnt.dispatcher)
  else
    match s.tryRead core vd ((s.vd vd).queueTable + 32 * r.queue) 32 with
    | .error e => .error e
    | .ok b => .ok (if (QueueEnt.ofBytes b).enabled then some (QueueEnt.ofBytes b) else none)

/-- A new grid, whose workgroups use what was read at admission (R48, R126). -/
def Grid.admitted (r : LaunchRec) (kd : KDesc) (args : List Byte) (q : QueueEnt) (disp : Bool) : Grid :=
  { Grid.empty with
    st := .admitted, disp := disp, desc := r.desc, kd := kd, args := args, gx := r.gx, gy := r.gy, gz := r.gz,
    threads := if r.threads = 0 then 32 * kd.fibres * kd.slots else r.threads, prov := BitVec.ofNat 64 r.prov, conf := BitVec.ofNat 64 r.conf,
    parent := if r.child then some r.parent else none, reserve := kd.childReserve, held := if disp then 0 else 1 + kd.childReserve,
    queue := r.queue, qclass := q.qclass, urgent := q.urgent, budget := q.budget, edef := q.edef, resvTwill := q.twill, resvMem := q.mem }

/-- The parent of a CHILD launch accepts a draw (R133). -/
def State.parentOk (s : State) (vd : Nat) (r : LaunchRec) (draw : Nat) : Bool :=
  let p := s.grid (gkey vd r.parent)
  r.parent != 0 && (p.st = .admitted || p.st = .running) && draw ≤ p.reserve

/-- Admit (R132, R133): the status with the identifier. -/
def State.admitGrid (s : State) (vd : Nat) (r : LaunchRec) (kd : KDesc) (args : List Byte) (q : QueueEnt) (disp : Bool) : Nat × State :=
  let v := s.vd vd
  let draw := 1 + kd.childReserve
  let g := Grid.admitted r kd args q disp
  if disp then (0, s.setGrid (gkey vd 0) g)
  else if r.child then
    if s.parentOk vd r draw then
      let p := s.grid (gkey vd r.parent)
      let t := (s.setGrid (gkey vd r.parent) { p with reserve := p.reserve - draw, held := p.held - draw }).setGrid (gkey vd v.nextGrid) g
      (2 ^ 32 * v.nextGrid, t.setVd vd { v with nextGrid := v.nextGrid + 1 })
    else (1, s)
  else if v.cfg.gridQuota < v.quotaUsed + draw then (5, s)
  else (2 ^ 32 * v.nextGrid, (s.setGrid (gkey vd v.nextGrid) g).setVd vd { v with nextGrid := v.nextGrid + 1, quotaUsed := v.quotaUsed + draw })

/-- Steps 3 to 9 of R130 on a record; an error is a walk that waits. -/
def State.admitRec (s : State) (core vd : Nat) (r : LaunchRec) (disp : Bool) : Except XErr (Nat × State) :=
  let v := s.vd vd
  let failed (e : XErr) : Except XErr (Nat × State) := match e with
    | .mig => .error .mig
    | .fault _ => .ok (7, s)
  if !r.ok v.qcount disp then .ok (3, s)
  else
    match s.queueEntry core vd r disp with
    | .error e => failed e
    | .ok none => .ok (3, s)
    | .ok (some q) =>
      if !v.images.any (fun i => i.descs.contains r.desc) then .ok (6, s)
      else
        match s.tryRead core vd r.desc 128 with
        | .error e => failed e
        | .ok b =>
          let kd := KDesc.ofBytes b
          if !kd.ok (v.images.flatMap (fun i => i.texts)) then .ok (2, s)
          else if 32 * kd.fibres * kd.slots < r.threads then .ok (3, s)
          else if kd.argsSize = 0 then .ok (s.admitGrid vd r kd [] q disp)
          else if r.args % 8 != 0 then .ok (3, s)
          else
            match s.tryRead core vd r.args kd.argsSize with
            | .error e => failed e
            | .ok args => .ok (s.admitGrid vd r kd args q disp)

/-- The effect of `launch` on the record at `a` (R130). -/
def State.launchAt (s : State) (core vd a : Nat) : Except XErr (Nat × State) :=
  if a % 64 != 0 then .ok (3, s)
  else
    match s.tryRead core vd a 64 with
    | .error .mig => .error .mig
    | .error (.fault _) => .ok (7, s)
    | .ok b => s.admitRec core vd (LaunchRec.ofBytes b) false

/-! Room on a core (R138). -/

/-- The workgroups that hold room on a core. -/
def State.wgsOn (s : State) (core : Nat) : List (Nat × Wg) := s.wgs.filter (fun e => e.2.core = core && s.onCore e.1)

/-- The free physical slots of a quarter, ascending. -/
def State.freeSlots (s : State) (core q : Nat) : List Nat :=
  let held := (s.slots.filter (fun e => s.onCore (e.1 / 16) && (s.wg (e.1 / 16)).core = core && e.2.quarter % 4 = q)).map (fun e => e.2.pslot)
  (List.range 16).filter (fun p => !held.contains p)

/-- Slots by visiting the quarters in rotation: each takes the lowest free slot of its quarter. -/
def rotate : Nat → Nat → Nat → List (List Nat) → List (Nat × Nat)
  | 0, _, _, _ => []
  | fuel + 1, need, q, free =>
    if need = 0 then []
    else
      match free.getD q [] with
      | [] => rotate fuel need ((q + 1) % 4) free
      | p :: t => (q, p) :: rotate fuel (need - 1) ((q + 1) % 4) (free.set q t)

/-- The quarter with the most free slots, the lowest on ties. -/
def fullestQuarter (free : List (List Nat)) : Nat :=
  (List.range 4).foldl (fun b q => if (free.getD b []).length < (free.getD q []).length then q else b) 0

/-- The quarter and physical slot of each slot of a workgroup, if the core has them. -/
def pickSlots (gang : Bool) (n : Nat) (free : List (List Nat)) : Option (List (Nat × Nat)) :=
  if gang then
    if free.all (fun l => n / 4 ≤ l.length) then some ((List.range n).map (fun j => (j % 4, nth (free.getD (j % 4) []) (j / 4)))) else none
  else if (free.map List.length).sum < n then none
  else some (rotate (4 * n + 8) n (fullestQuarter free) free)

/-- The units of 1 KiB of each SCRATCH bank of a cluster that hold no window; a bank whose change is in progress gives none
(R138, R145). -/
def State.freeUnits (s : State) (cluster : Nat) : List (Nat × Nat) :=
  let ws := s.wgs.filter (fun e => clusterOf e.2.core = cluster && s.onCore e.1)
  ((List.range 64).filter (fun b => (s.bank (64 * cluster + b)).mode = .scratch && (s.bank (64 * cluster + b)).next.isNone)).map
    (fun b => (b, 256 - (ws.map (fun e => tget 0 e.2.banks b)).sum))

/-- Take units one by one from banks with room; which bank gives each is not defined (R138): `pick` says, of the room that is left. -/
def takeUnits (pick : List (Nat × Nat) → Nat) : Nat → List (Nat × Nat) → Tab Nat
  | 0, _ => []
  | need + 1, units =>
    let room := units.filter (fun u => u.2 != 0)
    let b := (room.getD (pick room % room.length) (0, 0)).1
    let t := takeUnits pick need (units.map (fun u => if u.1 = b then (u.1, u.2 - 1) else u))
    tset 0 t b (tget 0 t b + 1)

/-- A core that takes placements. -/
def State.coreOpen (s : State) (core : Nat) : Bool :=
  let c := s.core core
  !c.fenced && !c.dead && !c.draining && !c.inPass && core < s.coreCount && !s.dead.contains (.cluster (clusterOf core))
    && !s.dead.contains (.die (s.dieOf (clusterOf core)))

/-- The slots and scratch units that a workgroup would get on a core, if it fits (R138). -/
def State.fits (s : State) (core : Nat) (kd : KDesc) : Option (List (Nat × Nat) × Tab Nat) :=
  let ws := s.wgsOn core
  let units := s.freeUnits (clusterOf core)
  if !s.coreOpen core || (kd.flags.getLsbD 0 && ws.any (fun e => e.2.kd.flags.getLsbD 0))
      || 2 ^ 19 < (ws.map (fun e => e.2.kd.ob)).sum + kd.ob || (units.map (·.2)).sum < kd.scratch / 1024 then none
  else
    match pickSlots (kd.flags.getLsbD 0) kd.slots ((List.range 4).map (fun q => s.freeSlots core q)) with
    | some l => some (l, takeUnits (Config.scratchBank s.clock s.nextWg) (kd.scratch / 1024) units)
    | none => none

/-! Slices (R136). -/

/-- The virtual devices that share a core, ascending. -/
def State.sharers (s : State) (core : Nat) : List Nat :=
  if s.vds.any (fun e => e.2.enabled && e.2.cfg.reserved.contains core) then []
  else (s.vds.filter (fun e => e.2.enabled && e.2.cfg.cores.contains core)).map (·.1)

/-- The virtual device whose slice is current on a core. -/
def State.sliceVd (s : State) (core : Nat) : Option Nat :=
  let l := s.sharers core
  if l.contains (s.core core).slice then some (s.core core).slice else l.head?

/-- A grid of a virtual device may run on a core now (R136, R137). -/
def State.mayRun (s : State) (vd core : Nat) (urgent : Bool) : Bool :=
  (urgent && (s.vd vd).cfg.reserved.contains core) || s.sliceVd core = some vd

/-! Reservations (R126). -/

/-- A reservation of r in a list whose sum exceeds 1,024 is scaled by 1,024 over the sum. -/
def scaled (l : List Nat) (r : Nat) : Nat := if l.sum ≤ 1024 then r else r * 1024 / l.sum

/-- The memory reservation that a running grid has on the device. -/
def State.memResv (s : State) (g : Nat) : Nat :=
  scaled ((s.grids.filter (fun e => e.2.st = .running)).map (fun e => e.2.resvMem)) (s.grid g).resvMem

/-- The Twill reservation that it has within its partition. -/
def State.twillResv (s : State) (g : Nat) : Nat :=
  let part (k : Nat) : Nat := (s.vd (k / 2 ^ 32)).cfg.partition
  scaled ((s.grids.filter (fun e => e.2.st = .running && part e.1 = part g)).map (fun e => e.2.resvTwill)) (s.grid g).resvTwill

/-! Energy admission (R142). -/

/-- A grid with a workgroup still to start. -/
def Grid.ready (g : Grid) : Bool :=
  ((g.st = .admitted || g.st = .running) && g.next < g.total) || ((g.st = .running || g.st = .provisional) && !g.replay.isEmpty)

/-- The opening of the present window: as long as the placer takes over the grids that are ready (R139; DESIGN CHOICE, log entry 37). -/
def State.atOpening (s : State) : Bool := s.clock ≤ s.windowFrom + 60 * ((s.grids.filter (fun e => e.2.ready)).length + 1)

def Grid.charge (g : Grid) : Nat := if g.kd.energy = 0 then g.edef else g.kd.energy

/-- The next workgroup of a grid may start in the present window. -/
def State.energyOk (s : State) (g : Nat) : Bool :=
  let x := s.grid g
  let q := tget QEnergy.empty (s.vd (g / 2 ^ 32)).energy x.queue
  let b := q.fresh.getD x.budget
  s.budgetLeft != 0 && (x.disp || b = 0 || q.used + x.charge ≤ b - q.owed || (b < x.charge && !q.started && s.atOpening))

/-- Charge a workgroup's start to its queue and the device; the excess of one that exceeds the whole budget becomes debt. -/
def State.chargeStart (s : State) (g : Nat) : State :=
  let x := s.grid g
  let s := { s with budgetLeft := s.budgetLeft - x.charge }
  if x.disp then s
  else
    s.modVd (g / 2 ^ 32) (fun v =>
      let q := tget QEnergy.empty v.energy x.queue
      let b := q.fresh.getD x.budget
      let excess := if b = 0 || q.fresh.isSome then 0 else x.charge - b
      { v with energy := tput v.energy x.queue { q with used := q.used + x.charge, debt := q.debt + excess, started := true } })

/-! Shadow mode (R443; log entry 16). -/

/-- The lanes of a fibre by their kinds at launch (R16): launched and helper. -/
def launchKinds (threads base : Nat) : LaneMask × LaneMask :=
  let l := maskOf (fun i => base + i < threads)
  (l, quadsOf l &&& ~~~l)

def dupHalf (m : LaneMask) : LaneMask := (m &&& 0xFFFF) ||| (m <<< 16)

/-- Copy the frame at `fp` of the lanes of `m` below 16 into the lanes 16 above them. -/
def State.copyFrame (s : State) (k fp : Nat) (m : LaneMask) : State :=
  let n := 64 - (s.wg (wgOf k)).sh
  let es := (List.range n).map (fun i => s.ventry k fp i)
  s.modSlot (slotOf k) (fun x => { x with stack := es.foldl (fun t e => (lanesOf (m &&& 0xFFFF)).foldl (fun t l =>
    tset 0 t (32 * e + 16 + l) (tget 0 x.stack (32 * e + l))) t) x.stack })

/-- `dmr.on`. -/
def State.dmrOn (s : State) (k : Nat) : State :=
  let f := s.fib k
  let s := f.frontier.foldl (fun s e => s.copyFrame k e.fp e.mask) s
  let cut (l : List Entry) : List Entry := (l.map (fun e => { e with mask := dupHalf e.mask })).filter (fun e => e.mask != 0)
  s.setFib k { f with shadow := true, launched := dupHalf f.launched, helper := dupHalf f.helper, exited := dupHalf f.exited,
                      pregs := f.pregs.map (fun p => (p.1, dupHalf p.2)), frontier := cut f.frontier,
                      trap := { f.trap with aside := cut f.trap.aside } }

/-- `dmr.off`: lanes 16 to 31 have their launch kinds again; one that stands in no entry has exited. -/
def State.dmrOff (s : State) (k : Nat) : State :=
  let f := s.fib k
  let w := s.wg (wgOf k)
  let (l, h) := launchKinds w.threads (32 * (slotIdx k * w.kd.fibres + fibIdx k))
  if !f.shadow then s
  else
    let launched := (f.launched &&& 0xFFFF) ||| (l &&& 0xFFFF0000)
    let helper := (f.helper &&& 0xFFFF) ||| (h &&& 0xFFFF0000)
    let cut (l : List Entry) : List Entry := (l.map (fun e => { e with mask := e.mask &&& (launched ||| helper) })).filter (fun e => e.mask != 0)
    let fr := cut f.frontier
    let aside := cut f.trap.aside
    let entry := f.trap.entry.map (fun e => { e with mask := e.mask &&& (launched ||| helper) })
    let here := (fr ++ aside ++ entry.toList).foldl (fun m e => m ||| e.mask) 0
    s.setFib k { f with shadow := false, launched := launched, helper := helper,
                        exited := (f.exited &&& 0xFFFF) ||| ((launched ||| helper) &&& ~~~here &&& 0xFFFF0000),
                        frontier := fr, trap := { f.trap with aside := aside, entry := entry } }

/-! Starting a workgroup (R26, R27, R166). -/

/-- The bytes of an argument block as k registers. -/
def kregsOf (args : List Byte) : Tab W64 :=
  (List.range ((args.length + 7) / 8)).foldl (fun t i => tset 0 t i (w64OfBytes ((args.drop (8 * i)).take 8))) []

/-- The coordinates word of s1 (R27). -/
def coordWord (gx gy index : Nat) : Nat :=
  index % max 1 gx + 2 ^ 21 * (index / max 1 gx % max 1 gy) + 2 ^ 42 * (index / max 1 gx / max 1 gy)

/-- A fibre before its first instruction. -/
def Fibre.first (g : Grid) (priv : Priv) (index slot fib now : Nat) : Fibre :=
  let base := 32 * (slot * g.kd.fibres + fib)
  let (l, h) := launchKinds g.threads base
  let e : Entry := { Entry.empty with pc := g.kd.code, hdr := g.kd.code, mask := l ||| h }
  { Fibre.empty with
    life := if l = 0 then .notStarted else .running, priv := priv, launched := l, helper := h,
    sregs := [(0, BitVec.ofNat 64 index), (1, BitVec.ofNat 64 (coordWord g.gx g.gy index)), (2, BitVec.ofNat 64 g.total),
              (3, BitVec.ofNat 64 (16 * slot + fib))],
    pregs := [(0, l)], frontier := if l = 0 then [] else [e], wdFrom := now }

/-- The register stack of a slot: v0 of every fibre holds the thread index, every other entry 0. -/
def firstStack (kd : KDesc) (slot : Nat) : Tab W32 :=
  (List.range kd.fibres).foldl (fun t f => lanes.foldl (fun t l =>
    tset 0 t (32 * (f * kd.stack) + l) (BitVec.ofNat 32 (32 * (slot * kd.fibres + f) + l))) t) []

/-- The lowest number from `n` on that is not in the list. -/
def lowestFree (l : List Nat) : Nat → Nat → Nat
  | 0, n => n
  | fuel + 1, n => if l.contains n then lowestFree l fuel (n + 1) else n

/-- `n` spill indices that no started, unexited slot with the same SPILL holds, ascending (R166). -/
def spillIndices (held : List Nat) : Nat → List Nat
  | 0 => []
  | n + 1 => let i := lowestFree held held.length 0
             i :: spillIndices (i :: held) n

/-- A slot has started and not exited: a fibre of it runs. -/
def State.slotLive (s : State) (slot : Nat) : Bool := s.live (slot / 16) && (List.range 4).any (fun i => (s.fib (4 * slot + i)).life = .running)

/-- The spill indices that other slots with the same SPILL hold: with SPILL_MODE 1 the field is not read (R46). -/
def State.heldSpill (s : State) (spill : W64) : List Nat :=
  (s.slots.filter (fun e => s.slotLive e.1 && !(s.wg (e.1 / 16)).kd.flags.getLsbD 2 && (s.wg (e.1 / 16)).kd.spill = spill)).map (fun e => e.2.spillIdx)

/-- The number of active slots of a quarter. -/
def State.activeIn (s : State) (q : Nat) : Nat := ((s.slotsOf q).filter (fun x => (s.slot x).active)).length

/-- A slot takes its place in a quarter: active where fewer than 8 slots are (R151). -/
def State.seat (s : State) (slot quarter pslot : Nat) : State :=
  let on := decide (s.activeIn (4 * (s.wg (slot / 16)).core + quarter) < 8)
  s.modSlot slot (fun x => { x with quarter := quarter, pslot := pslot, active := on, promoted := false, idle := 0, age := 0, stalled := 0,
                                    waited := 0, residence := 0, delay := 0, stopped := false })

/-- Physical slots of a core are used again: what workgroups that ended in them left there is zeroed (R27, R138, R436). -/
def State.reuse (s : State) (core : Nat) (places : List (Nat × Nat)) : State :=
  let old (slot : Nat) (x : Slot) : Bool := !s.live (slot / 16) && (s.wg (slot / 16)).core = core && places.contains (x.quarter % 4, x.pslot)
  let gone := (s.slots.filter (fun e => old e.1 e.2)).map (·.1)
  if gone.isEmpty then s
  else
    let slots := s.slots.filter (fun e => !gone.contains e.1)
    { s with slots := slots, fibres := s.fibres.filter (fun e => !gone.contains (slotOf e.1)),
             wgs := s.wgs.filter (fun e => !gone.any (fun x => x / 16 = e.1) || slots.any (fun x => x.1 / 16 = e.1)) }

/-- Place the next workgroup of a grid, or one that runs again, on a core. -/
def State.startWg (s : State) (g core : Nat) (slots : List (Nat × Nat)) (banks : Tab Nat) : State :=
  let s := (s.reuse core slots).dropIc core
  let x := s.grid g
  let w := s.nextWg
  let (index, again) := match x.replay with
    | r :: _ => r
    | [] => (x.next, false)
  let priv : Priv := if x.disp then .supervisor else .user
  let wg : Wg := { Wg.empty with
    life := .running, vd := g / 2 ^ 32, grid := g % 2 ^ 32, index := index, core := core, kd := x.kd, threads := x.threads,
    kregs := kregsOf x.args, started := s.clock, charge := x.charge, banks := banks, again := again }
  let idx := if x.kd.flags.getLsbD 2 then List.replicate x.kd.slots 0 else spillIndices (s.heldSpill x.kd.spill) x.kd.slots
  let t : State := { s.chargeStart g with nextWg := w + 1 }
  let t := t.setWg w wg
  let t := (List.range x.kd.slots).foldl (fun t i =>
    let t := t.setSlot (16 * w + i) { Slot.empty with stack := firstStack x.kd i, spillIdx := nth idx i, window := if x.kd.fibres ≤ 1 then 256 else 256 - x.kd.shared }
    (t.seat (16 * w + i) (slots.getD i (0, 0)).1 (slots.getD i (0, 0)).2)) t
  let t := (List.range x.kd.slots).foldl (fun t i => (List.range x.kd.fibres).foldl (fun t f =>
    let k := 64 * w + 4 * i + f
    let t := t.setFib k (Fibre.first x priv index i f s.clock)
    let t := if x.kd.flags.getLsbD 1 && (t.fib k).life = .running then t.dmrOn k else t
    t.select k) t) t
  t.setGrid g { x with st := if x.st = .admitted then .running else x.st, next := if x.replay.isEmpty then x.next + 1 else x.next,
                       replay := x.replay.drop 1, cores := x.cores ++ [(core, index, 0)], since := x.since ++ [(core, index)] }

/-! The placer (R139). -/

/-- The core of a cluster that the next workgroup of a grid would start on, with its place there. -/
def State.place (s : State) (cluster g : Nat) : Option (Nat × List (Nat × Nat) × Tab Nat) :=
  let x := s.grid g
  let v := s.vd (g / 2 ^ 32)
  let at_ (c : Nat) : Option (Nat × List (Nat × Nat) × Tab Nat) := (s.fits c x.kd).map (fun p => (c, p.1, p.2))
  if !x.ready || !v.enabled || !s.energyOk g then none
  else if x.disp then
    let l := if v.cfg.reserved.isEmpty then v.cfg.cores else v.cfg.reserved
    match ((List.range s.coreCount).filter (fun c => l.contains c)).findSome? at_ with
    | some p => if clusterOf p.1 = cluster then some p else none
    | none => none
  else ((List.range 8).map (fun i => 8 * cluster + i)).findSome? (fun c => if s.mayRun (g / 2 ^ 32) c x.urgent then at_ c else none)

/-- Descending PRIO, then descending CLASS, then ascending identifier, then ascending virtual device. -/
def State.ranks (s : State) (a b : Nat) : Bool :=
  let x := s.grid a
  let y := s.grid b
  if x.kd.prio != y.kd.prio then y.kd.prio < x.kd.prio
  else if x.qclass != y.qclass then y.qclass < x.qclass
  else if a % 2 ^ 32 != b % 2 ^ 32 then a % 2 ^ 32 < b % 2 ^ 32
  else a < b

/-- The highest-ranked grid that can be placed in the cluster. -/
def State.bestGrid (s : State) (cluster : Nat) : List Nat → Option (Nat × Nat × List (Nat × Nat) × Tab Nat)
  | [] => none
  | g :: t =>
    match s.place cluster g, s.bestGrid cluster t with
    | none, r => r
    | some p, none => some (g, p)
    | some p, some b => if s.ranks g b.1 then some (g, p) else some b

/-! Stand-ins (R381; log entry 55). -/

/-- What a built-in kernel needs of a core: one slot, and the pusher's priority. -/
def standKd (c : Cmd) : KDesc := { KDesc.empty with prio := c.prio }

/-- Where a stand-in's workgroup would start in a cluster. -/
def State.placeStand (s : State) (cluster : Nat) (c : Cmd) : Option (Nat × List (Nat × Nat)) :=
  if c.st != .placing then none
  else ((List.range 8).map (fun i => 8 * cluster + i)).findSome? (fun k =>
    if s.mayRun c.vd k false then (s.fits k (standKd c)).map (fun p => (k, p.1)) else none)

/-- The stand-in that a cluster places next: of the highest priority, the oldest command of several. -/
def State.bestStand (s : State) (cluster : Nat) : List (Nat × Cmd) → Option (Nat × Nat × List (Nat × Nat))
  | [] => none
  | e :: t =>
    match s.placeStand cluster e.2, s.bestStand cluster t with
    | none, r => r
    | some p, none => some (e.1, p)
    | some p, some b => if (match tfind s.cmds b.1 with | some c => decide (e.2.prio < c.prio) | none => false) then some b else some (e.1, p)

/-- A stand-in starts on a core, as a workgroup of no grid. -/
def State.startStand (s : State) (id core : Nat) (slots : List (Nat × Nat)) : State :=
  match tfind s.cmds id with
  | none => s
  | some c =>
    let w := s.nextWg
    let t := { s.reuse core slots with nextWg := w + 1 }
    let t := t.setWg w { Wg.empty with life := .running, vd := c.vd, grid := 2 ^ 40 + id, core := core, kd := standKd c, started := s.clock }
    let t := (t.setSlot (16 * w) Slot.empty).seat (16 * w) (slots.headD (0, 0)).1 (slots.headD (0, 0)).2
    t.setCmd id { c with st := .running, host := some w }

/-- WORKGROUP_PLACEMENT: one placement in a cluster. A stand-in goes ahead of grids whose PRIO is its own (R139, R381). -/
def execWorkgroupPlacement (cluster : Nat) (s : State) : Out :=
  match s.bestStand cluster s.cmds, s.bestGrid cluster (s.grids.map (·.1)) with
  | none, none => .next s
  | some (id, core, slots), none => .next (s.startStand id core slots)
  | none, some (g, core, slots, banks) => .next (s.startWg g core slots banks)
  | some (id, core, slots), some (g, core', slots', banks) =>
    if (match tfind s.cmds id with | some c => decide (c.prio < (s.grid g).kd.prio) | none => true) then .next (s.startWg g core' slots' banks)
    else .next (s.startStand id core slots)

/-! The dispatcher (R124). -/

/-- Start the dispatcher that DISPATCH_DESC names; a failed start is a kill with CAUSE 28. -/
def State.startDispatcher (s : State) (vd : Nat) : State :=
  let v := s.vd vd
  if v.dispatchDesc = 0 || !v.enabled then s
  else
    let core := (v.cfg.reserved ++ v.cfg.cores).headD 0
    let r : LaunchRec := { desc := v.dispatchDesc.toNat, args := v.dispatchArgs.toNat, prov := 0, conf := 0, gx := 1, gy := 1, gz := 1,
                           threads := 0, queue := 0, lflags := 0, parent := 0, rsv := 0 }
    match s.admitRec core vd r true with
    | .ok (0, t) => t
    | .ok (st, t) => t.killCause vd 28 st 0
    | .error _ => s.killCause vd 28 7 0

/-- The running dispatcher ends as a killed workgroup ends, with no KILL_CAUSE. -/
def State.stopDispatcher (s : State) (vd : Nat) : State :=
  let k := gkey vd 0
  let ws := (s.wgs.filter (fun e => gkey e.2.vd e.2.grid = k && s.live e.1 && s.onCore e.1 || (gkey e.2.vd e.2.grid = k && e.2.life = .saved))).map (·.1)
  let s := ws.foldl (fun s w => s.release w .killed) s
  match tfind s.grids k with
  | some g => s.setGrid k { g with st := .killed }
  | none => s

/-- DISPATCH_DESC_WRITE. -/
def State.setDispatchDesc (s : State) (vd : Nat) (v : W64) : State :=
  ((s.modVd vd (fun x => { x with dispatchDesc := v &&& 0x01FFFFFFFFFFFFFF })).stopDispatcher vd).startDispatcher vd

def execDispatchDescWrite (vd : Nat) (v : W64) (s : State) : Out := .next (s.setDispatchDesc vd v)

/-! Functions. -/

/-- Firmware assigns provinces and Twill ports to a partition while none of its virtual devices is enabled (R248, R460). A port that is fused
off has no number (R3). -/
def State.assign (s : State) (cfg : FunctionCfg) : State :=
  if s.vds.any (fun e => e.2.enabled && e.2.cfg.partition = cfg.partition) then s
  else
    let ports := cfg.ports.filter (fun p => p < (s.feature.extractLsb' 17 7).toNat)
    let d := cfg.owns.foldl (fun d p => if p < 2560 then d.setProv p { d.prov p with owner := some cfg.partition } else d) s.damask
    let d := cfg.frees.foldl (fun d p => if p < 2560 then d.setProv p { d.prov p with owner := none } else d) d
    { s with damask := d, ports := ports.foldl (fun t p => tput t p { tget Port.empty t p with part := some cfg.partition }) s.ports }

/-- Firmware sets the device budget of the windows to come, no higher than the limit (R142). -/
def State.setBudget (s : State) (b : Option Nat) : State :=
  match b with
  | some b => { s with deviceBudget := min b 3600000000 }
  | none => s

/-- A configuration takes a cluster, a province or a port of another partition that has an enabled virtual device (R460). -/
def State.clash (s : State) (cfg : FunctionCfg) : Bool :=
  s.vds.any (fun e => e.2.enabled && e.2.cfg.partition != cfg.partition &&
    ((cfg.cores ++ cfg.reserved).any (fun c => (e.2.cfg.cores ++ e.2.cfg.reserved).any (fun d => clusterOf d = clusterOf c))
      || (cfg.owns ++ cfg.frees).any (fun p => (s.damask.prov p).owner = some e.2.cfg.partition)
      || cfg.ports.any (fun p => (tget Port.empty s.ports p).part = some e.2.cfg.partition)))

/-- FUNCTION_ENABLE (R121, R124, R142, R462): firmware must have been accepted, and a resource belongs to one partition only (R460). -/
def execFunctionEnable (vd : Nat) (cfg : FunctionCfg) (s : State) : Out :=
  if s.firmware.isNone || 64 ≤ vd || (s.vd vd).enabled || s.clash cfg then .next s
  else
    let t := ((s.setBudget cfg.budget).assign cfg).modVd vd (fun v => { v with enabled := true, cfg := cfg, slots := [], energyCtx := 0 })
    .next (t.startDispatcher vd)

/-- FUNCTION_DISABLE (R399): the context ends, with its grids, commands, translations, regions, seals and copies. -/
def execFunctionDisable (vd : Nat) (s : State) : Out :=
  if !(s.vd vd).enabled then .next s
  else
    let core := ((s.vd vd).cfg.reserved ++ (s.vd vd).cfg.cores).headD 0
    let t := (s.vd vd).regions.foldl (fun t r => t.settleRange core vd r.va r.len) s
    let t := ((t.wgs.filter (fun e => e.2.vd = vd && t.live e.1)).map (·.1)).foldl (fun t w => t.release w .killed) t
    let t := ((t.cc.filter (fun e => e.2.vd = vd)).map (·.1)).foldl (fun t k => t.ccDrop (k / 2 ^ 52) (k % 2 ^ 52)) t
    let t := ((t.l0.filter (fun e => e.2.vd = vd)).map (·.1)).foldl (fun t k => t.l0Drop (k / 2 ^ 52) (k % 2 ^ 52)) t
    .next { t with grids := t.grids.filter (fun e => e.1 / 2 ^ 32 != vd), cmds := t.cmds.filter (fun e => e.2.vd != vd), waitAdds := t.waitAdds.filter (fun a => a.vd != vd),
                   tlb := t.tlb.filter (fun e => e.vd != vd), walks := t.walks.filter (fun e => e.vd != vd),
                   vds := tput t.vds vd { Vd.empty with keys := (t.vd vd).keys } }

/-! Energy windows (R142, R147). -/

/-- ENERGY in host mode: FUNC_MODE.ENERGY with a report area (R147). -/
def Vd.hostEnergy (v : Vd) : Bool := v.funcMode.getLsbD 5 && v.energyReport.toNat / 64 % 2 ^ 51 != 0

/-- The close of a window in host mode: the report area and its counter. -/
def State.reportEnergy (s : State) (vd : Nat) : State :=
  let v := s.vd vd
  let a := v.energyReport.toNat / 64 % 2 ^ 51 * 64
  let core := (v.cfg.reserved ++ v.cfg.cores).headD 0
  let s := v.energy.foldl (fun s e => (s.ctxWrite core vd (a + 8 * e.1) (leBytes 8 e.2.meas)).getD s) s
  s.ctrAddOrDrop core vd (BitVec.ofNat 64 (a + 512)) 1

/-- The budget of a queue in hardware mode, as the live grids of the queue hold it (log entry 37). -/
def State.queueBudget (s : State) (vd q : Nat) : Nat :=
  (s.grids.filter (fun e => e.1 / 2 ^ 32 = vd && e.2.queue = q && (e.2.st = .admitted || e.2.st = .running))).foldl (fun m e => max m e.2.budget) 0

/-- The opening of a window for a virtual device. -/
def State.openWindow (s : State) (vd : Nat) : State :=
  let v := s.vd vd
  if v.hostEnergy then
    let s := s.reportEnergy vd
    let core := (v.cfg.reserved ++ v.cfg.cores).headD 0
    let fresh (q : Nat) : Option Nat := match s.tryRead core vd (v.queueTable + 32 * q + 0x14) 4 with
      | .ok b => some (leNat b)
      | .error _ => (tget QEnergy.empty v.energy q).fresh
    s.modVd vd (fun v => { v with energy := (List.range (min 64 v.qcount)).map (fun q => (q, { QEnergy.empty with fresh := fresh q })),
                                  window := v.window + 1 })
  else
    s.modVd vd (fun v => { v with
      energy := v.energy.map (fun e => (e.1, { QEnergy.empty with owed := (e.2.owed - s.queueBudget vd e.1) + e.2.debt })), window := v.window + 1 })

/-- A window has run its 1 ms; windows are aligned to CLOCK (R142). -/
def State.windowOver (s : State) : Bool := s.windowFrom / 1000000 < s.clock / 1000000

/-- ENERGY_WINDOW_OPEN: the next window of every queue opens once the present one has run out (R142). -/
def execEnergyWindowOpen (s : State) : Out :=
  if !s.windowOver then .next s
  else
    let t : State := { s with budgetLeft := s.deviceBudget, windowFrom := s.clock / 1000000 * 1000000 }
    .next (((t.vds.filter (fun e => e.2.enabled)).map (·.1)).foldl (fun t v => t.openWindow v) t)

/-! The active set (R152, R153). -/

/-- SLOT_PROMOTION: a ready slot that has gone 56 cycles without issuing; `State.cycle` does the same in each cycle. -/
def execSlotPromotion (slot : Nat) (s : State) : Out :=
  let x := s.slot slot
  if x.active && 56 ≤ x.idle && (s.issuer slot).isSome then .next (s.modSlot slot (fun x => { x with promoted := true })) else .next s

/-- The stalled active slot of a quarter that has been stalled longest. -/
def State.outgoing (s : State) : List Nat → Option Nat
  | [] => none
  | x :: t =>
    if !(s.slot x).active || !s.slotStalled x then s.outgoing t
    else
      match s.outgoing t with
      | none => some x
      | some y => if (s.slot x).stalled < (s.slot y).stalled then some y else some x

/-- The exchange that is due in a quarter: it makes one at a time, and each takes 4 cycles. -/
def State.dueExchange (s : State) (q : Nat) : Option (Nat × Nat) :=
  if tget 0 s.xchg q != 0 then none
  else match s.outgoing (s.slotsOf q), s.incoming (s.slotsOf q) with
  | some a, some b => some (a, b)
  | _, _ => none

/-- Two slots of a quarter exchange sets. -/
def State.exchange (s : State) (q a b : Nat) : State := { (s.deactivate a).activate b with xchg := tput s.xchg q 4 }

/-- SLOT_EXCHANGE. -/
def execSlotExchange (core quarter : Nat) (s : State) : Out :=
  match s.dueExchange (4 * core + quarter % 4) with
  | some (a, b) => .next (s.exchange (4 * core + quarter % 4) a b)
  | none => .next s

/-- No fibre of a slot stands inside a clause of a class other than ctl (R153). -/
def State.betweenClauses (s : State) (slot : Nat) : Bool :=
  (List.range 4).all (fun i =>
    let k := 4 * slot + i
    !s.awake k || !(s.fib k).entry.inside || (s.fib k).entry.cls = .ctl)

/-- An active slot that a long residence sends out: its count is full and it stands between clauses or parked; the one that has
been active longest. -/
def State.resident2048 (s : State) : List Nat → Option Nat
  | [] => none
  | x :: t =>
    if !(s.slot x).active || (s.slot x).residence < 2048 || !s.betweenClauses x then s.resident2048 t
    else
      match s.resident2048 t with
      | none => some x
      | some y => if (s.slot x).age < (s.slot y).age then some y else some x

/-- The exchange that a long residence makes due in a quarter. -/
def State.dueResident (s : State) (q : Nat) : Option (Nat × Nat) :=
  if tget 0 s.xchg q != 0 then none
  else
    match s.resident2048 (s.slotsOf q), s.incoming (s.slotsOf q) with
    | some a, some b => some (a, b)
    | _, _ => none

/-- LONG_RESIDENCE_SWAP. -/
def execLongResidenceSwap (core quarter : Nat) (s : State) : Out :=
  match s.dueResident (4 * core + quarter % 4) with
  | some (a, b) => .next (s.exchange (4 * core + quarter % 4) a b)
  | none => .next s

end Sys2Proof.Machine
end

