-- ==== Sys2Proof/Machine/SysReg.lean ====
section
/-! DEFINITION. Every system register (R30, R149): who reads and writes it, what a read returns and clears, and what a write
does. -/

namespace Sys2Proof.Machine

/-- The read level of an assigned number, and its write level; `none` where no level may write it. -/
def sysLevels (n : Nat) : Option (Priv × Option Priv) :=
  if [0x001, 0x010, 0x011, 0x020, 0x050, 0x060, 0x061, 0x063, 0x064, 0x120, 0x121, 0x128, 0x130, 0x131, 0x132, 0x133, 0x160, 0x171, 0x172,
      0x173, 0x174].contains n then some (.user, none)
  else if [0x051, 0x062, 0x068, 0x069, 0x06A, 0x06B, 0x3F0].contains n then some (.user, some .user)
  else if [0x040, 0x140, 0x141, 0x170, 0x210, 0x211, 0x212, 0x214].contains n then some (.user, some .supervisor)
  else if [0x013, 0x06D, 0x24A].contains n then some (.supervisor, none)
  else if [0x012, 0x200, 0x201, 0x213, 0x240, 0x241, 0x249].contains n then some (.supervisor, some .supervisor)
  else if [0x030, 0x031, 0x032, 0x033, 0x041, 0x042, 0x06C, 0x06E, 0x242, 0x243, 0x244, 0x245, 0x246, 0x247, 0x248].contains n then
    some (.supervisor, some .device)
  else none

/-- A register of a unit that FEATURE shows absent (R425). -/
def State.sysAbsent (s : State) (n : Nat) : Bool := (n = 0x172 && !s.collPresent) || ((n = 0x173 || n = 0x174) && !s.cpyzPresent)

/-- Who reads or writes: the fibre, its virtual device and core, and its level. Firmware writes for a virtual device with no fibre. -/
structure RegUser where
  fib  : Option Nat
  vd   : Nat
  core : Nat
  priv : Priv
  deriving DecidableEq, Repr

def State.regUser (s : State) (k : Nat) : RegUser := { fib := some k, vd := s.vdOf k, core := s.coreOf k, priv := (s.fib k).priv }

def RegUser.key (u : RegUser) : Nat := u.fib.getD 0

/-- The fibre that a register belongs to, where there is one. -/
def State.userFib (s : State) (u : RegUser) : Fibre :=
  match u.fib with
  | some k => s.fib k
  | none => Fibre.empty

/-! What reads return. -/

/-- The logical cluster of an island, 0x3FF for none (R452). -/
def State.lcluster (s : State) (i : Nat) : Nat :=
  if 60 ≤ i || 12 ≤ i % 20 then 0x3FF else if s.isA then 12 * (i / 20) + i % 20 else tget 0x3FF s.clusterMap i

/-- ISLAND_SEL with MHZ and LCLUSTER (R452, R453). -/
def State.islandWord (s : State) : W64 :=
  let i := s.islandSel.toNat % 64
  BitVec.ofNat 64 (i + 2 ^ 16 * tget (islandMhzReset i) s.islandMhz i + 2 ^ 32 * s.lcluster i)

/-- The island of a fused-off cluster position: its meter reads 0 (R452). -/
def State.islandOff (s : State) (i : Nat) : Bool := i < 60 && i % 20 < 12 && s.lcluster i = 0x3FF

/-- OCC_CLU and OCC_L2: the limit, and the lines that the context holds (R265). -/
def State.occClu (s : State) (u : RegUser) : W64 :=
  BitVec.ofNat 64 ((s.vd u.vd).occClu.toNat % 2048
    + 2 ^ 32 * (s.cc.filter (fun e => e.2.vd = u.vd && e.1 / 2 ^ 52 = clusterOf u.core)).length)

def State.occL2 (s : State) (u : RegUser) : W64 :=
  BitVec.ofNat 64 ((s.vd u.vd).occL2.toNat % 2048 + 2 ^ 32 * (s.l2.filter (fun e => e.2.vd = u.vd)).length)

/-- TRAP_CAUSE and TRAP_ENTRY (R426). -/
def Frame.causeWord (f : Frame) : W64 :=
  BitVec.ofNat 64 (f.cause.toNat + (if f.inh then 32 else 0) + 64 * f.lane.toNat + 2 ^ 16 * f.code.toNat)

def Frame.entryWord (f : Frame) : W64 := BitVec.ofNat 64 (f.mask.toNat + 2 ^ 32 * (f.fp % 2 ^ 24) + 2 ^ 56 * f.bpri.toNat)

/-- STACK_STATE (R168). -/
def Fibre.stackWord (f : Fibre) : W64 :=
  BitVec.ofNat 64 (f.lo % 2 ^ 24 + 2 ^ 24 * ((if f.move = 0 then f.entry.fp else f.moveFp) % 2 ^ 24) + 2 ^ 48 * f.move)

def PState.code : PState → Nat
  | .normal => 0 | .degraded => 1 | .rebuilding => 2 | .restriping => 3 | .retired => 4

/-- The entry words of a province (R313). -/
def Prov.word (e : Prov) (n : Nat) : W64 :=
  match n with
  | 0 => BitVec.ofNat 64 (e.set % 64 + 2 ^ 6 * (e.newSet % 64) + 2 ^ 12 * (e.rot % 16) + 2 ^ 16 * (e.newRot % 16) + 2 ^ 20 * PState.code e.st
      + (if e.rb then 2 ^ 23 else 0) + 2 ^ 24 * e.wm)
  | 1 => BitVec.ofNat 64 (e.frame % 2 ^ 31 + 2 ^ 31 * (e.newFrame % 2 ^ 31))
  | 2 => BitVec.ofNat 64 (e.spare % 2 ^ 31)
  | _ => 0

/-- A set as TABLE_DATA shows it (R314). -/
def SetEnt.word (e : SetEnt) : W64 :=
  BitVec.ofNat 64 (e.stackBits % 4096 + 2 ^ 12 * (e.w % 16) + 2 ^ 16 * (e.maskset % 16) + 2 ^ 32 * (e.seed % 2 ^ 32))

/-- The fields of TABLE_SEL (R314). -/
def Damask.selTable (d : Damask) : Nat := d.tableSel.toNat % 4
def Damask.selIndex (d : Damask) : Nat := d.tableSel.toNat / 4 % 64
def Damask.selStack (d : Damask) : Nat := d.tableSel.toNat / 256 % 16
def Damask.selItem (d : Damask) : Nat := d.tableSel.toNat / 4096 % 64

def bitsWhere (n : Nat) (p : Nat → Bool) : Nat := (List.range n).foldl (fun v i => if p i then v + 2 ^ i else v) 0

/-- An item of the failure map: failed banks of a channel, channels with every bank failed, or the stack itself. -/
def Damask.failItem (d : Damask) (st item : Nat) : Nat :=
  let unit (u : Nat) : Bool := tget false d.failUnit (1024 * st + u)
  if item < 32 then bitsWhere 32 (fun b => unit (32 * item + b))
  else if item = 32 then bitsWhere 32 (fun c => (List.range 32).all (fun b => unit (32 * c + b)))
  else if d.stackFailed st then 1 else 0

/-- The item that TABLE_SEL chooses; none where the numbers name no item of their table. -/
def Damask.tableItem (d : Damask) : Option W64 :=
  match d.selTable with
  | 0 => some (d.setEnt d.selIndex).word
  | 1 => if d.selIndex < 16 && d.selStack < 12 && d.selItem < 33 then some (BitVec.ofNat 64 (d.mask d.selIndex d.selStack d.selItem)) else none
  | 2 => if d.selStack < 12 && d.selItem < 34 then some (BitVec.ofNat 64 (d.failItem d.selStack d.selItem)) else none
  | _ => some 0

/-- What XLATE_OUT says of a device physical address (R316). -/
def State.placeWord (s : State) (pa : Nat) : W64 :=
  let d := s.damask
  let p := pa / 2 ^ 28
  let e := d.prov p
  if 2560 ≤ p then 0
  else if e.st = .retired then BitVec.ofNat 64 (4 + 2 ^ 47 * p)
  else
    let h := d.home pa
    BitVec.ofNat 64 (PState.code e.st + (if h.isNew then 8 else 0) + (if d.isLocked (pa / 64) then 16 else 0) + (if d.lost h.at_ then 32 else 0)
      + 128 + 2 ^ 8 * h.at_.stack + 2 ^ 12 * (h.at_.unit / 32) + 2 ^ 17 * (h.at_.unit / 16 % 2) + 2 ^ 18 * (h.at_.unit % 16)
      + 2 ^ 22 * h.at_.row + 2 ^ 39 * h.at_.col + 2 ^ 43 * h.par.stack + 2 ^ 47 * p)

/-- XLATE_OUT (R316); a walk at a MIG entry waits. -/
def State.xlateOut (s : State) (u : RegUser) : Except XErr W64 :=
  let a := (s.userFib u).xlateIn
  let addr := a.toNat % 2 ^ 57
  if a.getLsbD 63 && u.priv = .device then .ok (s.placeWord addr)
  else
    match s.globalPiece u.core u.vd .rd addr 1 with
    | .error .mig => .error .mig
    | .error (.fault _) => .ok 64
    | .ok p =>
      match p.locs with
      | .dev pa _ _ :: _ => .ok (s.placeWord pa)
      | _ => .ok 0

/-- A 64-bit free value (log entry 6). -/
def State.takeW64 (s : State) : W64 × State :=
  let a := s.takeW32
  let b := a.2.takeW32
  (b.1 ++ a.1, b.2)

def State.setVector (s : State) (vd n : Nat) (on : Bool) : State :=
  s.modVd vd (fun v => { v with msix := if on then v.msix ||| BitVec.ofNat 5 (2 ^ n) else v.msix &&& ~~~(BitVec.ofNat 5 (2 ^ n)) })

/-- The value of a register that clears nothing. -/
def State.sysValue (s : State) (u : RegUser) (n : Nat) : W64 :=
  let v := s.vd u.vd
  let f := s.userFib u
  let d := s.damask
  match n with
  | 0x001 => s.feature
  | 0x010 => BitVec.ofNat 64 s.clock
  | 0x011 => v.energyCtx
  | 0x012 => s.islandWord
  | 0x013 => BitVec.ofNat 64 (tget 0 s.islandNj (s.islandSel.toNat % 64))
  | 0x020 => s.fibreId u.key
  | 0x030 => v.funcMode
  | 0x031 => v.energyReport
  | 0x032 => v.fallbackRing
  | 0x033 => v.fallbackCtr
  | 0x040 => v.queueBase
  | 0x041 => v.dispatchDesc
  | 0x042 => v.dispatchArgs
  | 0x050 => f.stackWord
  | 0x060 => f.trap.causeWord
  | 0x061 => f.trap.pc
  | 0x062 => f.trap.resume
  | 0x063 => f.trap.addr
  | 0x064 => f.trap.entryWord
  | 0x068 => tget 0 f.trap.save 0
  | 0x069 => tget 0 f.trap.save 1
  | 0x06A => tget 0 f.trap.save 2
  | 0x06B => tget 0 f.trap.save 3
  | 0x06C => v.watchdog
  | 0x06E => s.preemptTimeout
  | 0x120 => f.scrPasses
  | 0x121 => f.scrRequests
  | 0x128 => v.atomReplays
  | 0x130 => f.pfIssued
  | 0x131 => f.pfUsed
  | 0x132 => f.pfLate
  | 0x133 => f.pfEvicted
  | 0x140 => s.occClu u
  | 0x141 => s.occL2 u
  | 0x160 => (s.wg (wgOf u.key)).obConf
  | 0x170 => v.engDeadline
  | 0x172 => tget 0 s.collDone (s.dieOf (clusterOf u.core))
  | 0x173 => tget 0 s.cpyzIn (clusterOf u.core)
  | 0x174 => tget 0 s.cpyzOut (clusterOf u.core)
  | 0x200 => f.xlateIn
  | 0x210 => v.heapBase
  | 0x211 => v.heapLimit
  | 0x212 => v.heapOffset
  | 0x213 => v.ptRoot
  | 0x214 => v.promote
  | 0x242 => d.sel
  | 0x243 => (d.prov (d.sel.toNat % 4096)).word (d.sel.toNat / 4096 % 4)
  | 0x244 => d.tableSel
  | 0x245 => d.tableItem.getD 0
  | 0x246 => d.memShare
  | 0x247 => d.scrubCtl
  | 0x248 => d.scrubRange
  | 0x249 => d.rowRepairRead
  | _ => 0

/-- KILL_CAUSE (R436): the first kill since the last read. -/
def State.readKillCause (s : State) (u : RegUser) : W64 × State :=
  ((s.vd u.vd).killCause, (s.modVd u.vd (fun v => { v with killCause := 0 })).setVector u.vd 2 false)

/-- ENG_FAULT (R380): the first fault of the workgroup since the last read. -/
def State.readEngFault (s : State) (u : RegUser) : W64 × State :=
  ((s.wg (wgOf u.key)).engFault, s.modWg (wgOf u.key) (fun x => { x with engFault := 0 }))

/-- MEM_RETIRE_STATUS (R325): LAST_ERROR clears. -/
def State.readRetireStatus (s : State) : W64 × State := (s.damask.status, { s with damask := { s.damask with lastError := 0 } })

/-- MEM_EVENT (R330): the oldest entry leaves the log; another virtual device reads 0. -/
def State.readMemEvent (s : State) (u : RegUser) : W64 × State :=
  if u.vd != 0 then (0, s)
  else
    match s.damask.events with
    | [] => (0, s.setVector 0 0 false)
    | e :: t => (e, ({ s with damask := { s.damask with events := t } }).setVector 0 0 false)

/-- A read of a register: its value, and the state after what clears on read has cleared. -/
def State.sysRead (s : State) (u : RegUser) (n : Nat) : Except XErr (W64 × State) :=
  match n with
  | 0x06D => .ok (s.readKillCause u)
  | 0x171 => .ok (s.readEngFault u)
  | 0x201 => match s.xlateOut u with
    | .ok v => .ok (v, s)
    | .error e => .error e
  | 0x241 => .ok s.readRetireStatus
  | 0x24A => .ok (s.readMemEvent u)
  | 0x243 => if 2560 ≤ s.damask.sel.toNat % 4096 && s.damask.sel.toNat / 4096 % 4 != 3 then .ok s.takeW64 else .ok (s.sysValue u n, s)
  | 0x245 => if s.damask.tableItem.isNone then .ok s.takeW64 else .ok (s.sysValue u n, s)
  | _ => .ok (s.sysValue u n, s)

/-! What writes do. -/

/-- PROVINCE_STATE (R313): RW* fields only while the province is NORMAL and owned by no partition, the NEW fields except in
RESTRIPING. -/
def Prov.write (e : Prov) (n : Nat) (v : W64) : Prov :=
  let x := v.toNat
  let free := e.st = .normal && e.owner.isNone
  let fresh := e.st != .restriping
  match n with
  | 0 => { e with set := if free then x % 64 else e.set, rot := if free then x / 2 ^ 12 % 16 else e.rot,
                  newSet := if fresh then x / 2 ^ 6 % 64 else e.newSet, newRot := if fresh then x / 2 ^ 16 % 16 else e.newRot }
  | 1 => { e with frame := if free then x % 2 ^ 31 else e.frame, newFrame := if fresh then x / 2 ^ 31 % 2 ^ 31 else e.newFrame }
  | 2 => { e with spare := if free then x % 2 ^ 31 else e.spare }
  | _ => e

/-- A write of TABLE_DATA (R314); the failure map, and numbers that name no item, take none. -/
def Damask.tableWrite (d : Damask) (v : W64) : Damask :=
  let x := v.toNat
  match d.selTable with
  | 0 => { d with sets := tput d.sets d.selIndex { stackBits := x % 4096, w := x / 2 ^ 12 % 16, maskset := x / 2 ^ 16 % 16, seed := x / 2 ^ 32 } }
  | 1 => if d.tableItem.isSome then { d with masks := tput d.masks ((64 * d.selIndex + d.selStack) * 64 + d.selItem) (x % 2 ^ 32) } else d
  | _ => d

/-- SPILL_CMD with GO (R169): the pending chunk moves at once, as an access of the fibre would; a fault, or poison that a move in meets (R277),
is raised by the write itself, and nothing moves. The first result says that nothing was raised. -/
def State.spillGo (s : State) (k : Nat) (v : W64) : Bool × State :=
  let n := (s.fib k).move
  let a : W64 := v &&& 0x01FFFFFFFFFFFC00
  if !v.getLsbD 0 || n = 0 then (true, s)
  else
    match (if n = 3 then s.chunkBad k a else none), s.moveChunk k (s.moveOf k n) (n != 3) a with
    | some (l, x), _ => (false, s.trapHere k .poison l x 0)
    | none, .error e => (false, s.accessFault k e 0 a (n != 3))
    | none, .ok t => (true, t.didMove k n)

def State.spillCmd (s : State) (k : Nat) (v : W64) : State := (s.spillGo k v).2

/-- Flip a bit of a word. -/
def flipBit (x : W32) (b : Nat) : W32 := x ^^^ BitVec.ofNat 32 (2 ^ b)

/-- The fields of a FAULT_INJECT write (R351). -/
def injQuarter (v : W64) : Nat := v.toNat / 2 ^ 4 % 4
def injTile (v : W64) : Nat := v.toNat / 2 ^ 6 % 8
def injRow (v : W64) : Nat := v.toNat / 2 ^ 9 % 32
def injCol (v : W64) : Nat := v.toNat / 2 ^ 14 % 32
def injBit (v : W64) : Nat := v.toNat / 2 ^ 19 % 32
def injSilent (v : W64) : Bool := v.getLsbD 24

/-- The parity of an element after a flip: recomputed, or left stale (R351). -/
def injParity (t : Tab Bool) (key : Nat) (silent : Bool) : Tab Bool := if silent then tdel t key else tset false t key (!tget false t key)

/-- TARGET 1. -/
def State.injectTile (s : State) (k : Nat) (v : W64) : State :=
  let key := (injQuarter v * 8 + injTile v) * 1024 + 32 * injRow v + injCol v
  if !(s.wg (wgOf k)).kd.flags.getLsbD 0 then s
  else s.modWg (wgOf k) (fun x => { x with tiles := tset 0 x.tiles key (flipBit (tget 0 x.tiles key) (injBit v)),
                                           tileBad := injParity x.tileBad key (injSilent v) })

/-- TARGET 2. -/
def State.injectChk (s : State) (k : Nat) (v : W64) : State :=
  let key := ((injQuarter v * 8 + injTile v) * 2 + injCol v) * 32 + injRow v
  if !(s.wg (wgOf k)).kd.flags.getLsbD 0 || 2 ≤ injCol v then s
  else s.modWg (wgOf k) (fun x => { x with chks := tset 0 x.chks key (flipBit (tget 0 x.chks key) (injBit v)),
                                           chkBad := injParity x.chkBad key (injSilent v) })

/-- TARGET 3 (R444). -/
def State.injectReg (s : State) (k : Nat) (v : W64) : State :=
  let key := 32 * (32 * injTile v + injCol v) + injRow v
  s.modSlot (slotOf k) (fun x => { x with stack := tset 0 x.stack key (flipBit (tget 0 x.stack key) (injBit v)),
                                          stackBad := if injSilent v then tdel x.stackBad key else tput x.stackBad key true })

/-- TARGET 4 (R444). -/
def State.injectScan (s : State) (k : Nat) : State :=
  if s.atLeast k .supervisor then s.modCore (s.coreOf k) (fun c => { c with failNext := true }) else s

def State.inject (s : State) (k : Nat) (v : W64) : State :=
  match v.toNat % 16 with
  | 1 => s.injectTile k v
  | 2 => s.injectChk k v
  | 3 => s.injectReg k v
  | 4 => s.injectScan k
  | _ => s

/-- A write to a register of a virtual device or the device. -/
def State.sysWriteDev (s : State) (u : RegUser) (n : Nat) (v : W64) : State :=
  let vd (g : Vd → Vd) : State := s.modVd u.vd g
  let dm (g : Damask → Damask) : State := s.setDamask (g s.damask)
  match n with
  | 0x012 => { s with islandSel := v &&& 0x3F }
  | 0x030 => vd (fun x => { x with funcMode := v &&& 0xFF })
  | 0x031 => vd (fun x => { x with energyReport := v &&& 0x01FFFFFFFFFFFFC0 })
  | 0x032 => vd (fun x => { x with fallbackRing := v &&& 0x01FFFFFFFFFFF00F })
  | 0x033 => vd (fun x => { x with fallbackCtr := v &&& 0x01FFFFFFFFFFFFF8 })
  | 0x040 => vd (fun x => { x with queueBase := v &&& 0x01FFFFFFFFFFF87F })
  | 0x041 => s.setDispatchDesc u.vd v
  | 0x042 => vd (fun x => { x with dispatchArgs := v &&& 0x01FFFFFFFFFFFFFF })
  | 0x06C => vd (fun x => { x with watchdog := v &&& 0xFFFF })
  | 0x06E => { s with preemptTimeout := v &&& 0xFF }
  | 0x140 => vd (fun x => { x with occClu := v &&& 0x7FF })
  | 0x141 => vd (fun x => { x with occL2 := v &&& 0x7FF })
  | 0x170 => vd (fun x => { x with engDeadline := v &&& 0xFFFF })
  | 0x210 => vd (fun x => { x with heapBase := v &&& 0x01FFFFFFFFE00000 })
  | 0x211 => vd (fun x => { x with heapLimit := v &&& 0x01FFFFFFFFE00000 })
  | 0x212 => vd (fun x => { x with heapOffset := v &&& 0x01FFFFFFFFE00000 })
  | 0x213 => vd (fun x => { x with ptRoot := v &&& 0x01FFFFFFFFFFF000 })
  | 0x214 => vd (fun x => { x with promote := (x.promote &&& 0xFFFFFFFF00000000) ||| (v &&& 1) })
  | 0x240 => s.memRetire (v.toNat % 8) v
  | 0x242 => dm (fun d => { d with sel := v &&& 0x3FFF })
  | 0x243 => if s.damask.sel.toNat % 4096 < 2560 then
      dm (fun d => d.setProv (d.sel.toNat % 4096) ((d.prov (d.sel.toNat % 4096)).write (d.sel.toNat / 4096 % 4) v)) else s
  | 0x244 => dm (fun d => { d with tableSel := v &&& 0x3FFFF })
  | 0x245 => dm (fun d => d.tableWrite v)
  | 0x246 => dm (fun d => { d with memShare := v &&& 0x07FF07FF })
  | 0x247 => dm (fun d => { d with scrubCtl := (d.scrubCtl &&& 0xFFFFFFFF00000000) ||| (v &&& 0x1FFFF) })
  | 0x248 => dm (fun d => { d with scrubRange := v &&& 0x0FFF0FFF })
  | 0x249 => s.rowRepairWrite v
  | _ => s

/-- A write to a register of a fibre. -/
def State.sysWriteFib (s : State) (k : Nat) (n : Nat) (v : W64) : State :=
  let save (i : Nat) : State := s.modFib k (fun f => { f with trap := { f.trap with save := tput f.trap.save i v } })
  match n with
  | 0x051 => s.spillCmd k v
  | 0x062 => s.modFib k (fun f => { f with trap := { f.trap with resume := v } })
  | 0x068 => save 0
  | 0x069 => save 1
  | 0x06A => save 2
  | 0x06B => save 3
  | 0x200 => s.modFib k (fun f => { f with xlateIn := v &&& (if f.priv = .device then 0x81FFFFFFFFFFFFFF else 0x01FFFFFFFFFFFFFF) })
  | 0x3F0 => s.inject k v
  | _ => s

/-- The registers that belong to a fibre. -/
def fibReg (n : Nat) : Bool := [0x051, 0x062, 0x068, 0x069, 0x06A, 0x06B, 0x200, 0x3F0].contains n

/-- ApplyWrite (R149). -/
def State.sysWrite (s : State) (u : RegUser) (n : Nat) (v : W64) : State :=
  if fibReg n then (match u.fib with
    | some k => s.sysWriteFib k n v
    | none => s)
  else s.sysWriteDev u n v

/-- Whether a user may read a register. -/
def RegUser.mayRead (u : RegUser) (n : Nat) : Bool :=
  match sysLevels n with
  | some (r, _) => r.code ≤ u.priv.code
  | none => false

/-- Whether a user may write a register; the registers of memory retirement take SUPERVISOR writes from virtual device 0 alone
(R325, R329). -/
def RegUser.mayWrite (u : RegUser) (n : Nat) : Bool :=
  match sysLevels n with
  | some (_, some w) => w.code ≤ u.priv.code && !([0x240, 0x241, 0x249].contains n && u.priv = .supervisor && u.vd != 0)
  | _ => false

/-! The events that are reads and writes of one register. -/

/-- A read by a fibre into one of its scalars. -/
def State.readInto (s : State) (k d n : Nat) : State :=
  if !(s.regUser k).mayRead n then s
  else
    match s.sysRead (s.regUser k) n with
    | .ok (v, t) => t.modFib k (fun f => f.setSreg d v)
    | .error _ => s

def execMemRetireStatusRead (fib d : Nat) (s : State) : Out := .next (s.readInto fib d 0x241)
def execMemEventRead (fib d : Nat) (s : State) : Out := .next (s.readInto fib d 0x24A)
def execXlateOutRead (fib d : Nat) (s : State) : Out := .next (s.readInto fib d 0x201)
def execKillCauseRead (fib d : Nat) (s : State) : Out := .next (s.readInto fib d 0x06D)
def execEngFaultRead (fib d : Nat) (s : State) : Out := .next (s.readInto fib d 0x171)

/-- SPILL_CMD_GO. -/
def execSpillCmdGo (fib : Nat) (v : W64) (s : State) : Out := .next (s.spillCmd fib (v ||| 1))

def execFaultInjectTile (fib : Nat) (v : W64) (s : State) : Out := .next (s.injectTile fib v)
def execFaultInjectChecksum (fib : Nat) (v : W64) (s : State) : Out := .next (s.injectChk fib v)
def execFaultInjectRegister (fib : Nat) (v : W64) (s : State) : Out := .next (s.injectReg fib v)
def execFaultInjectScanFail (fib : Nat) (v : W64) (s : State) : Out := let _ := v; .next (s.injectScan fib)

/-- Firmware writes a register for virtual device d where the event names fibre 2^60 + d (log entry 39). -/
def State.writer (s : State) (fib : Nat) : RegUser :=
  if fib < 2 ^ 60 then s.regUser fib else { fib := none, vd := fib - 2 ^ 60, core := 0, priv := .device }

/-- REGISTER_WRITE. -/
def execRegisterWrite (fib num : Nat) (v : W64) (s : State) : Out :=
  if (s.writer fib).mayWrite num then .next (s.sysWrite (s.writer fib) num v) else .next s

end Sys2Proof.Machine
end

