-- ==== Sys2Proof/Machine/Sys.lean ====
section
/-! DEFINITION. The sys class: `launch` and `lstat` (R129, R135), `rdsr` and `wrsr` (R149), `tret` (R429), `halt` (R437), `tlbi` (R305),
`bankmode` (R144), `dmr` (R443) and `scan` (R442). A word below its level takes PRIVILEGE before its guard is looked at (R31, R87). -/

namespace Sys2Proof.Machine

/-- The scalar source A or the guard of a Y word holds a soft error (R438). -/
def State.aBad (s : State) (k : Nat) (f : FY) : Bool := s.pBadSrc k f.hd.gp.toNat || s.sBadSrc k f.a

/-- R130. The grid is admitted when the word issues; s(D) is written when the word completes. -/
def execLaunch (f : FY) (s : State) : Out :=
  let k := s.cur
  let acts := s.acts k f.hd
  if !s.atLeast k .supervisor then .next (s.trapHere k .privilege 0 0 0)
  else if s.onlyHelpers k acts then .next (s.finish k [])
  else if s.relBlocked k then .next s
  else if s.aBad k f then .next (s.trapHere k .poison 0 0 0)
  else
    match (s.foldMine k).launchAt (s.coreOf k) (s.vdOf k) (s.ssrc k f.a).toNat with
    | .error _ => .next s
    | .ok (v, t) => .next (t.issue k f.hd (mkPend .other [.sreg f.d.toNat (BitVec.ofNat 64 v)] true none))

/-- The state code of a grid (R135). -/
def GridState.code : GridState → Nat
  | .admitted => 1 | .running => 2 | .provisional => 3 | .confirmed => 4 | .killed => 5

/-- Later grids of the virtual device that have become CONFIRMED or KILLED (R134). -/
def State.laterEnded (s : State) (vd id : Nat) : Nat :=
  (s.grids.filter (fun e => e.1 / 2 ^ 32 = vd && id < e.1 % 2 ^ 32 && (e.2.st = .confirmed || e.2.st = .killed))).length

/-- No core of the virtual device can hold one workgroup of the grid now (R135). -/
def State.noFit (s : State) (g : Nat) : Bool :=
  let v := s.vd (g / 2 ^ 32)
  (v.cfg.cores ++ v.cfg.reserved).all (fun c => (s.fits c (s.grid g).kd).isNone)

/-- The word that `lstat` returns (R135); an identifier of 0 names no grid. -/
def State.lstatWord (s : State) (vd : Nat) (a : W64) : W64 :=
  let id := a.toNat
  let g := gkey vd id
  if 2 ^ 32 ≤ id || id = 0 || (tfind s.grids g).isNone || 4096 ≤ s.laterEnded vd id then 0
  else
    let x := s.grid g
    BitVec.ofNat 64 (GridState.code x.st + (if s.noFit g then 16 else 0) + (if x.ready && !s.energyOk g then 32 else 0)
      + 256 * min x.done (2 ^ 56 - 1))

/-- R135. -/
def execLstat (f : FY) (s : State) : Out :=
  let k := s.cur
  let acts := s.acts k f.hd
  if !s.atLeast k .supervisor then .next (s.trapHere k .privilege 0 0 0)
  else if s.onlyHelpers k acts then .next (s.finish k [])
  else if s.aBad k f then .next (s.trapHere k .poison 0 0 0)
  else .next (s.issue k f.hd (mkPend .other [.sreg f.d.toNat (s.lstatWord (s.vdOf k) (s.ssrc k f.a))] true none))

/-- R149: a read, once every earlier word of the fibre has completed. The number and the level are looked at before the guard (R87). -/
def execRdsr (f : FY) (s : State) : Out :=
  let k := s.cur
  let n := f.num.toNat
  if (sysLevels n).isNone then .next (s.trapHere k .illegalEncoding 0 0 0)
  else if !(s.regUser k).mayRead n then .next (s.trapHere k .privilege 0 0 0)
  else if s.acts k f.hd = 0 then .next (s.finish k [])
  else if s.pBadSrc k f.hd.gp.toNat then .next (s.trapHere k .poison 0 0 0)
  else if s.sysAbsent n then .next (s.trapHere k .unitAbsent 0 0 0)
  else
    match s.sysRead (s.regUser k) n with
    | .error _ => .next s
    | .ok (v, t) => .next (t.issue k f.hd (mkPend .other [.sreg f.d.toNat v] true none))

/-- R149, R169: a write. A SPILL_CMD whose address faults raises the fault at the word, with nothing moved. -/
def execWrsr (f : FY) (s : State) : Out :=
  let k := s.cur
  let n := f.num.toNat
  let v := s.ssrc k f.a
  if (sysLevels n).isNone then .next (s.trapHere k .illegalEncoding 0 0 0)
  else if !(s.regUser k).mayWrite n then .next (s.trapHere k .privilege 0 0 0)
  else if s.onlyHelpers k (s.acts k f.hd) then .next (s.finish k [])
  else if s.aBad k f then .next (s.trapHere k .poison 0 0 0)
  else if s.sysAbsent n then .next (s.trapHere k .unitAbsent 0 0 0)
  else if n = 0x051 then
    let r := s.spillGo k v
    if r.1 then .next (r.2.issue k f.hd (mkPend .other [] true none)) else .next r.2
  else .next ((s.sysWrite (s.regUser k) n v).issue k f.hd (mkPend .other [] true none))

/-! Return from a trap. -/

/-- RETURN FROM A TRAP (R429): s28 to s31 come back; the handler's frontier gives way to the one set aside and the entry at
TRAP_RESUME, which resumes inside its clause where TRAP_RESUME is as it was written at entry. -/
def State.trapReturn (s : State) (k : Nat) : State :=
  let s := s.endWindows k
  let f := s.fib k
  let t := f.trap
  let f := (((f.setSreg 28 (tget 0 t.save 0)).setSreg 29 (tget 0 t.save 1)).setSreg 30 (tget 0 t.save 2)).setSreg 31 (tget 0 t.save 3)
  let old := t.entry.getD Entry.empty
  let mask := (match t.entry with
    | some e => e.mask
    | none => t.mask) &&& ~~~f.exited
  let e := if t.resume = t.entryResume then { old with mask := mask, wait := .none } else old.jump (t.resume &&& ~~~7) t.fp mask
  let s := s.setFib k { f with trap := { t with inh := false, aside := [], entry := none, pend := [] }, pend := t.pend, move := 0,
                               frontier := mergeAll (addEntry e t.aside) }
  (s.wake k).select k

/-- R429. That the fibre is in its handler is looked at before the guard (R87). -/
def execTret (f : FC) (s : State) : Out :=
  let k := s.cur
  if !(s.fib k).trap.inh then .next (s.trapHere k .illegalEncoding 0 0 0)
  else if s.acts k f.hd = 0 then .next (s.finish k [])
  else if s.pBadSrc k f.hd.gp.toNat then .next (s.trapHere k .poison 0 0 0)
  else .next (s.trapReturn k)

/-- R437. -/
def execHalt (f : FY) (s : State) : Out :=
  let k := s.cur
  if !s.atLeast k .supervisor then .next (s.trapHere k .privilege 0 0 0)
  else if s.acts k f.hd = 0 then .next (s.finish k [])
  else if s.aBad k f then .next (s.trapHere k .poison 0 0 0)
  else
    let id := (s.ssrc k f.a).toNat
    let g := gkey (s.vdOf k) id
    if id != 0 && id < 2 ^ 32 && ((s.grid g).st = .admitted || (s.grid g).st = .running) then
      .next ((s.killGrid g 31 0).finish k [.sreg f.d.toNat 0])
    else .next (s.finish k [.sreg f.d.toNat 1])

/-! Translations (R305). -/

/-- Drop the entries of a virtual device whose pages meet [a, a + n), and the walk-cache entries on their paths. -/
def State.dropXlate (s : State) (vd a n : Nat) : State :=
  let meets (lo size : Nat) : Bool := lo < a + n && a < lo + size
  { s with tlb := s.tlb.filter (fun t => !(t.vd = vd && meets t.va t.size)),
           walks := s.walks.filter (fun t => !(t.vd = vd && meets (t.va * 2 ^ (12 + 9 * t.level)) (2 ^ (12 + 9 * t.level)))) }

def State.dropContext (s : State) (vd : Nat) : State :=
  { s with tlb := s.tlb.filter (fun t => t.vd != vd), walks := s.walks.filter (fun t => t.vd != vd) }

/-- R305: performed once, helper lanes included. -/
def execTlbi (f : FY) (s : State) : Out :=
  let k := s.cur
  let vd := s.vdOf k
  let a := (s.ssrc k f.a).toNat
  let b := (s.ssrc k f.b).toNat
  if !s.atLeast k .supervisor then .next (s.trapHere k .privilege 0 0 0)
  else if s.acts k f.hd = 0 then .next (s.finish k [])
  else if s.relBlocked k then .next s
  else if s.pBadSrc k f.hd.gp.toNat || (f.sub.toNat ≤ 1 && s.sBadSrc k f.a) || (f.sub = 1 && s.sBadSrc k f.b) then .next (s.trapHere k .poison 0 0 0)
  else
    let s := s.foldMine k
    let t :=
      if f.sub = 0 then (if 2 ^ 57 ≤ a then s else s.dropXlate vd a 1)
      else if f.sub = 1 then
        if 2 ^ 40 ≤ b then s.dropContext vd else if 2 ^ 57 ≤ a || b = 0 then s else s.dropXlate vd a b
      else if f.sub = 2 then s.dropContext vd
      else { s with walks := s.walks.filter (fun t => t.vd != vd) }
    .next (t.issue k f.hd (mkPend .other [] true none))

/-! Bank modes (R143 to R145). -/

def bankModeOf (n : Nat) : BankMode := if n = 0 then .cache else if n = 1 then .scratch else .fifo

/-- The bank holds scratch of a workgroup, or is bound as a FIFO. -/
def State.bankInUse (s : State) (cl b : Nat) : Bool :=
  s.wgs.any (fun e => clusterOf e.2.core = cl && ((s.onCore e.1 && tget 0 e.2.banks b != 0) || (s.live e.1 && e.2.qbind.any (fun q => q.2 = b))))

/-- The CACHE bank that a line of the cluster's cache stands in (R257; log entry 34). -/
def bankOf (banks : List Nat) (line : Nat) : Nat := nth banks (Config.cacheSet banks line % max 1 banks.length)

/-- A bank leaves CACHE mode: its dirty lines are written back, its lines dropped, its update-only copies drained, and the locks on its lines
end (R291). -/
def State.emptyBank (s : State) (cl : Nat) (banks : List Nat) (b : Nat) : State :=
  let mine (k : Nat) : Bool := k / 2 ^ 52 = cl && bankOf banks (k % 2 ^ 52) = b
  let s := ((s.ucopies.map (·.1)).filter mine).foldl (fun s k => s.drainU cl (k % 2 ^ 52)) s
  let s := ((s.cc.map (·.1)).filter mine).foldl (fun s k => s.ccDrop cl (k % 2 ^ 52)) s
  { s with wgs := s.wgs.map (fun e => if clusterOf e.2.core = cl then
    (e.1, { e.2 with locks := e.2.locks.filter (fun l => bankOf banks l.1 != b) }) else e) }

/-- R144. The word completes once every bank that it changes has drained (R145). -/
def execBankmode (f : FY) (s : State) : Out :=
  let k := s.cur
  let cl := clusterOf (s.coreOf k)
  let req := s.ssrc k f.a
  let m := bankModeOf f.sub.toNat
  let mode (b : Nat) : BankMode := (s.bank (64 * cl + b)).mode
  let done (v : W64) (ready : Bool) (t : State) : Out := .next (t.issue k f.hd (mkPend (.bank cl) [.sreg f.d.toNat v] ready none))
  if !s.atLeast k .supervisor then .next (s.trapHere k .privilege 0 0 0)
  else if s.onlyHelpers k (s.acts k f.hd) then .next (s.finish k [])
  else if s.aBad k f then .next (s.trapHere k .poison 0 0 0)
  else if ((List.range 64).filter (fun b => if req.getLsbD b then m = .cache else mode b = .cache)).length < 8 then done req true s
  else
    let want := (List.range 64).filter (fun b => req.getLsbD b && mode b != m)
    let refused := want.filter (fun b => s.bankInUse cl b)
    let take := want.filter (fun b => !s.bankInUse cl b)
    let banks := s.cacheBanks cl
    let t := take.foldl (fun t b =>
      let t := if mode b = .cache then t.emptyBank cl banks b else t
      t.setBank (64 * cl + b) { t.bank (64 * cl + b) with next := some m }) s
    done (BitVec.ofNat 64 (bitsWhere 64 (fun b => refused.contains b))) take.isEmpty t

/-- BANK_DRAIN_COMPLETE: the bank has drained and is zeroed, and takes its new mode; with the last of a cluster the `bankmode` that
changed them completes. -/
def execBankDrainComplete (cluster bank : Nat) (s : State) : Out :=
  let x := s.bank (64 * cluster + bank)
  match x.next with
  | none => .next s
  | some m =>
    let t := s.setBank (64 * cluster + bank) { mode := m, next := none, fifo := [] }
    if (List.range 64).any (fun b => (t.bank (64 * cluster + b)).next.isSome) then .next t
    else .next { t with fibres := t.fibres.map (fun e => (e.1, { e.2 with pend := e.2.pend.map (fun p =>
      if p.kind = .bank cluster then { p with ready := true } else p) })) }

/-- A frame register that `dmr.on` copies holds a soft error (R438). -/
def State.frameBad (s : State) (k : Nat) : Bool :=
  let n := 64 - (s.wg (wgOf k)).sh
  (s.fib k).frontier.any (fun e => s.stackPoison k ((List.range n).flatMap (fun i =>
    (lanesOf (e.mask &&& 0xFFFF)).map (fun l => 32 * s.ventry k e.fp i + l))))

/-- R443. -/
def execDmr (f : FY) (s : State) : Out :=
  let k := s.cur
  if s.acts k f.hd = 0 then .next (s.finish k [])
  else if s.pBadSrc k f.hd.gp.toNat || (f.sub = 1 && s.frameBad k) then .next (s.trapHere k .poison 0 0 0)
  else
    let t := s.finish k []
    if f.sub = 1 then .next ((t.dmrOn k).endFibre k) else .next ((t.dmrOff k).endFibre k)

end Sys2Proof.Machine
end

