-- ==== Sys2Proof/Machine/Preempt.lean ====
section
/-! DEFINITION. Interruption from outside a fibre (R427 to R442): delayed traps, served page faults, the watchdog, pre-emption, saving
and restoring, containment, scan passes; and priority inheritance (R369). -/

namespace Sys2Proof.Machine

/-! Traps and faults. -/

/-- TRAP_TAKE: a trap that waited for long-latency words is taken (R427). -/
def execTrapTake (fib : Nat) (s : State) : Out :=
  let f := s.fib fib
  match f.raised with
  | some t => if f.life = .running && f.pend.all (fun p => p.ready || p.isCwait) then .next (s.takeTrap fib t) else .next s
  | none => .next s

/-- The trap of a fault whose page was refused (R431). -/
def Freeze.trap (x : Freeze) (pc : W64) : TrapInfo :=
  { cause := x.cause, lane := x.lane, addr := x.addr, code := if x.write then 1 else 0, pc := pc, resume := pc }

/-- The server writes entries of page tables. -/
def State.writePtes (s : State) (ptes : List (Nat × W64)) : State := ptes.foldl (fun s p => s.writeMem p.1 (leBytes 8 p.2.toNat)) s

/-- The engine command that a batch names, if it names one: fibre 2^60 + command (log entry 40). -/
def batchCmd (fib : Nat) : Option Nat := if 2 ^ 60 ≤ fib then some (fib - 2 ^ 60) else none

/-- FAULT_BATCH_SERVED (R380, R430, R431): entries are written, and the fibre resumes at its word, or traps where its own page is
refused; an engine command goes on or stops. -/
def execFaultBatchServed (fib : Nat) (ptes : List (Nat × W64)) (refused : List Nat) (s : State) : Out :=
  let t := s.writePtes ptes
  match batchCmd fib with
  | some id =>
    (match tfind t.cmds id with
    | some c =>
      (match c.wait with
      | some p => if refused.contains p then .next (t.engFail id { c with wait := none } 1 (4096 * p) 2) else .next (t.setCmd id { c with wait := none })
      | none => .next t)
    | none => .next t)
  | none =>
    match (t.fib fib).frozen with
    | none => .next t
    | some x =>
      let u := t.modFib fib (fun f => { f with frozen := none })
      if (x.pages.take 1).any (fun p => refused.contains p) then .next (u.raise fib (x.trap (u.fib fib).entry.pc)) else .next u

/-- HOST_SPILL_MOVE (R166): the host has moved the chunk that the frozen fibre waits for, and LO follows. -/
def execHostSpillMove (fib : Nat) (s : State) : Out :=
  let n := (s.fib fib).move
  if n = 0 || (s.wg (wgOf fib)).kd.flags.getLsbD 2 then .next s
  else
    let a := s.spillBase fib (s.moveOf fib n)
    let t := s.modFib fib (fun f => { f with move := 0 })
    match (if n = 3 then s.chunkBad fib a else none), s.moveChunk fib (s.moveOf fib n) (n != 3) a with
    | some (l, x), _ => .next (t.trapHere fib .poison l x 0)
    | none, .error .mig => .next s
    | none, .error e => .next (t.accessFault fib e 0 a (n != 3))
    | none, .ok u => .next (u.didMove fib n)

/-- PAGE_WALK (R298, R301): a translation found enters the TLBs and the walk cache; a fault changes nothing. -/
def execPageWalk (core vd va : Nat) (s : State) : Out := .next (s.noteXlate core vd va)

/-- The limit has passed for a fibre that can issue and is not in its handler (R428). -/
def State.overdue (s : State) (k : Nat) : Bool :=
  let limit := (s.vd (s.vdOf k)).watchdog.toNat % 65536
  limit != 0 && s.awake k && !(s.fib k).trap.inh && limit * 1000000 ≤ s.clock - (s.fib k).wdFrom

/-- WATCHDOG_EXPIRY (R428): each fibre of the workgroup that can issue and is not in its handler takes WATCHDOG at its next word, once
the limit has passed since its start or its last. -/
def execWatchdogExpiry (wg : Nat) (s : State) : Out :=
  let x := s.wg wg
  .next ((x.fibreKeys wg).foldl (fun s k =>
    if s.overdue k then
      s.raise k { cause := .watchdog, lane := 0, addr := 0, code := 0, pc := (s.fib k).entry.pc, resume := (s.fib k).entry.pc }
    else s) s)

/-! Pre-emption (R432 to R434). -/

/-- The workgroup begins to stop. -/
def State.stopWg (s : State) (w : Nat) : State :=
  s.modWg w (fun x => { x with life := if x.life = .running then .stopping false else x.life })

/-- Whether a workgroup is the dispatcher's (R124). -/
def State.isDispatcher (s : State) (w : Nat) : Bool := (s.grid (gkey (s.wg w).vd (s.wg w).grid)).disp

/-- A pass starts on a drained core that nothing holds (R440): it counts for every workgroup that ended before. -/
def State.startPass (s : State) (core : Nat) : State :=
  let c := s.core core
  if !c.draining || c.inPass || !(s.wgsOn core).isEmpty then s
  else
    { s.setCore core { c with inPass := true, passFrom := s.clock } with
      grids := s.grids.map (fun (e : Nat × Grid) => (e.1, { e.2 with cores := e.2.cores.map (fun (x : Nat × Nat × Nat) =>
        if x.1 = core && x.2.2 = 1 then (x.1, x.2.1, 2) else x) })) }

/-- A core is drained for its pass: its workgroups stop, the dispatcher among them. -/
def State.drain (s : State) (core : Nat) (waiter : Option (Nat × Nat)) : State :=
  let c := s.core core
  let s := s.setCore core { c with draining := true, waiter := waiter, passFrom := s.clock }
  ((s.wgsOn core).foldl (fun s e => s.stopWg e.1) s).startPass core

/-- The virtual device after `v` in a round over those that share the core (R136). -/
def nextSharer (l : List Nat) (v : Nat) : Nat := ((l.filter (fun x => v < x)) ++ l).headD v

/-- The current slice of a shared core has run its length (R136). -/
def State.sliceOver (s : State) (core : Nat) : Bool :=
  1 < (s.sharers core).length && (match s.sliceVd core with
    | some v => (s.core core).sliceFrom + 1000 * (s.vd v).cfg.sliceUs ≤ s.clock
    | none => false)

/-- SLICE_END (R136): the next slice begins; the slots of an outgoing virtual device are pre-empted, its dispatcher's apart. -/
def execSliceEnd (core : Nat) (s : State) : Out :=
  match s.sliceVd core with
  | none => .next s
  | some v =>
    if !s.sliceOver core then .next s
    else
      let c := s.core core
      let left := if c.slice = v && c.sliceLeft != 0 then c.sliceLeft else (s.vd v).cfg.weight
      if 1 < left then .next (s.setCore core { c with slice := v, sliceLeft := left - 1, sliceFrom := s.clock })
      else
        let n := nextSharer (s.sharers core) v
        let t := s.setCore core { c with slice := n, sliceLeft := (s.vd n).cfg.weight, sliceFrom := s.clock }
        .next ((t.wgsOn core).foldl (fun t e => if e.2.vd = v && !t.isDispatcher e.1 then t.stopWg e.1 else t) t)

/-- PREEMPT_TIMEOUT has passed since the slice end, or since the core began to drain, and something has not stopped (R432). -/
def State.timedOut (s : State) (core : Nat) : Bool :=
  let c := s.core core
  (s.wgsOn core).any (fun e => e.2.life = .stopping false)
    && (if c.draining then c.passFrom else c.sliceFrom) + 1000 * max 1 (s.preemptTimeout.toNat % 256) ≤ s.clock

/-- PREEMPT_TIMEOUT (R432): what has not stopped is stopped between words, for the full save. -/
def execPreemptTimeout (core : Nat) (s : State) : Out :=
  if !s.timedOut core then .next s
  else
    .next ((s.wgsOn core).foldl (fun s e => s.modWg e.1 (fun x => { x with life := if x.life = .stopping false then .stopping true else x.life })) s)

/-- A workgroup whose slots have all stopped can be saved: its long-latency words have completed, pending `cwait` words and
signatures apart, and no matrix operation of it is under way (R335, R432). -/
def State.saveable (s : State) (w : Nat) : Bool :=
  let x := s.wg w
  (match x.life with
    | .stopping _ => true
    | _ => false)
    && (List.range x.kd.slots).all (fun i => s.halts (16 * w + i)) && x.issued.isEmpty
    && (x.fibreKeys w).all (fun k => (s.fib k).pend.all (fun p => p.ready || (match p.kind with
      | .cwait _ => true
      | .mma _ _ _ => true
      | _ => false)))

/-- The words of a fibre that nothing but time holds back complete; where a wait ends, it selects (R159). -/
def State.settleFibre (s : State) (k : Nat) : State :=
  let t := s.completeReady k
  if (t.fib k).frontier = (s.fib k).frontier then t else t.select k

/-- A workgroup leaves a cluster: what the cluster's cache holds dirty of its context is written back, so that its fibres find their own stores
wherever they go on (R274; log entry 88). -/
def State.leaveCluster (s : State) (cl vd : Nat) : State :=
  ((s.cc.filter (fun e => e.1 / 2 ^ 52 = cl && e.2.vd = vd && e.2.dirty != 0)).map (·.1)).foldl (fun s k => s.writeBack cl (k % 2 ^ 52)) s

/-- It arrives at a core: the copies of UNTRACKED lines there, which may be older than its own stores, are dropped. -/
def State.arrive (s : State) (core vd : Nat) : State :=
  let s := ((s.cc.filter (fun e => e.1 / 2 ^ 52 = clusterOf core && e.2.vd = vd && !e.2.fresh)).map (·.1)).foldl
    (fun s k => s.ccDrop (clusterOf core) (k % 2 ^ 52)) s
  ((s.l0.filter (fun e => e.1 / 2 ^ 52 = core && e.2.vd = vd && !e.2.fresh)).map (·.1)).foldl (fun s k => s.l0Drop core (k % 2 ^ 52)) s

/-- WORKGROUP_SAVE (R433): the workgroup leaves its core with all of its state. Pre-empted time does not count for WATCHDOG. -/
def execWorkgroupSave (wg : Nat) (s : State) : Out :=
  if !s.saveable wg then .next s
  else
    let x := s.wg wg
    let t := (x.fibreKeys wg).foldl (fun t k => (t.settleFibre k).modFib k (fun f => { f with wdFrom := s.clock - f.wdFrom })) s
    let t := (List.range x.kd.slots).foldl (fun t i => t.modSlot (16 * wg + i) (fun y => { y with active := false, stopped := false })) t
    .next (((t.setWg wg { t.wg wg with life := .saved }).leaveCluster (clusterOf x.core) x.vd).startPass x.core)

/-- The grid of a workgroup notes that it has run on a core. -/
def Grid.ranOn (g : Grid) (core index : Nat) : Grid :=
  { g with cores := if g.cores.contains (core, index, 0) then g.cores else g.cores ++ [(core, index, 0)],
           since := if g.since.contains (core, index) then g.since else g.since ++ [(core, index)] }

/-- WORKGROUP_RESTORE (R434): a saved workgroup goes on where it fits, on a core of its virtual device. -/
def execWorkgroupRestore (wg core : Nat) (s : State) : Out :=
  let x := s.wg wg
  let g := gkey x.vd x.grid
  let v := s.vd x.vd
  let may := if s.isDispatcher wg then v.cfg.cores.contains core || v.cfg.reserved.contains core else s.mayRun x.vd core (s.grid g).urgent
  if x.life != .saved || !may then .next s
  else
    match s.fits core x.kd with
    | none => .next s
    | some (slots, banks) =>
      let t := ((s.reuse core slots).dropIc core).arrive core x.vd
      let t := t.setWg wg { x with life := .running, core := core, banks := banks }
      let t := (List.range x.kd.slots).foldl (fun t i => t.seat (16 * wg + i) (slots.getD i (0, 0)).1 (slots.getD i (0, 0)).2) t
      let t := (x.fibreKeys wg).foldl (fun t k => t.modFib k (fun f => { f with wdFrom := s.clock - f.wdFrom })) t
      .next (if (tfind t.grids g).isNone then t else t.setGrid g ((t.grid g).ranOn core x.index))

/-! Scan passes (R440 to R442). -/

/-- A pass counts: it confirms what ended before it started, and the core starts a new interval. -/
def State.passOk (s : State) (core : Nat) : State :=
  (s.grids.map (·.1)).foldl (fun s k =>
    let g := s.grid k
    (s.setGrid k { g with cores := g.cores.filter (fun x => !(x.1 = core && x.2.2 = 2)), since := g.since.filter (fun x => x.1 != core) }).settleGrid k) s

/-- The live workgroup of a grid with an index. -/
def State.wgOfIndex (s : State) (k index : Nat) : Option Nat :=
  (s.wgs.find? (fun e => gkey e.2.vd e.2.grid = k && e.2.index = index && s.live e.1)).map (·.1)

/-- A workgroup that ran on a failed core runs again: an unfinished one is stopped and discarded (R441). -/
def State.replayWg (s : State) (k index : Nat) : State :=
  let w := s.wgOfIndex k index
  let again := match w with
    | some w => (s.wg w).again
    | none => true
  let s := match w with
    | some w => (s.settleEnergy w).release w .killed
    | none => s
  let g := (s.grid k).endRun index
  s.setGrid k { g with replay := g.replay ++ [(index, again)] }

/-- A core has failed its pass: it is fenced off; what ran on it since its last pass runs again where it is IDEMPOTENT, and otherwise
kills its grid (R441). -/
def State.passFail (s : State) (core : Nat) : State :=
  (s.grids.map (·.1)).foldl (fun s k =>
    let g := s.grid k
    let hit := ((g.since.filter (fun x => x.1 = core)).map (·.2)).eraseDups
    let drop (s : State) : State :=
      s.setGrid k { s.grid k with cores := (s.grid k).cores.filter (fun x => x.1 != core), since := (s.grid k).since.filter (fun x => x.1 != core) }
    if hit.isEmpty || g.st = .killed || g.st = .confirmed then (drop s).settleGrid k
    else if g.kd.flags.getLsbD 4 then (drop (hit.foldl (fun s i => s.replayWg k i) s)).settleGrid k
    else s.killGrid k 29 0) s

/-- The result of a pass goes to who asked for it: s(D) of a `scan`, or SCAN_RESULT, which holds 64 (R147, R442). -/
def State.postScan (s : State) (core : Nat) (waiter : Option (Nat × Nat)) (res : Nat) : State :=
  match waiter with
  | some (0, k) => s.modFib k (fun f => { f with pend := f.pend.map (fun p => if p.kind = .scan core then
      { p with ready := true, wr := p.wr.map (fun w => match w with
        | .sreg n _ => .sreg n (BitVec.ofNat 64 res)
        | w => w) } else p) })
  | some _ => if s.scanResults.length < 64 then { s with scanResults := s.scanResults ++ [(core, res)] } else s
  | none => s

/-- SCAN_PASS_COMPLETE. A core marked by FAULT_INJECT fails its next pass (R444). -/
def execScanPassComplete (core : Nat) (pass : Bool) (s : State) : Out :=
  let c := s.core core
  if !c.inPass then .next (s.startPass core)
  else
    let ok := pass && !c.failNext
    let t := s.setCore core { c with inPass := false, draining := false, failNext := false, lastScan := s.clock, waiter := none,
                                     fenced := c.fenced || !ok }
    .next ((if ok then t.passOk core else t.passFail core).postScan core c.waiter (if ok then 0 else 1))

/-- A core can be scanned now. -/
def State.scanFree (s : State) (core : Nat) : Bool :=
  core < s.coreCount && !(s.core core).inPass && !(s.core core).draining && !(s.core core).dead

/-- FUNC_MODE.ROTATION of virtual device 0 (R146). -/
def State.hostRotation (s : State) : Bool := (s.vd 0).funcMode.getLsbD 4

/-- SCAN_ROTATION (R440): the next nine cores, in hardware mode. -/
def execScanRotation (s : State) : Out :=
  if s.hostRotation then .next s
  else
    let group := (List.range 9).map (fun i => 9 * s.rotation + i)
    let t := group.foldl (fun t c => if t.scanFree c && !(t.core c).fenced then t.drain c none else t) s
    .next { t with rotation := (s.rotation + 1) % max 1 ((s.coreCount + 8) / 9) }

/-- UNSCANNED_CORE_SCAN (R147): with the host timing the passes, a core not scanned for 10 ms. -/
def execUnscannedCoreScan (core : Nat) (s : State) : Out :=
  if s.hostRotation && s.scanFree core && !(s.core core).fenced && 10000000 ≤ s.clock - (s.core core).lastScan then .next (s.drain core none)
  else .next s

/-- SCAN_REQ_WRITE (R147). -/
def execScanReqWrite (v : W64) (s : State) : Out :=
  let c := v.toNat % 512
  if s.scanFree c then .next (s.drain c (some (1, 0))) else .next s

/-- SCAN_RESULT_READ (R147): the oldest result leaves. -/
def execScanResultRead (s : State) : Out := .next { s with scanResults := s.scanResults.drop 1 }

/-- The word that SCAN_RESULT reads. -/
def State.scanResultWord (s : State) : W64 :=
  match s.scanResults with
  | (c, r) :: _ => BitVec.ofNat 64 (c % 512 + 512 * (r % 4) + 2048)
  | [] => 0

/-- R442. The word completes with the pass. -/
def execScan (f : FY) (s : State) : Out :=
  let k := s.cur
  let a := (s.ssrc k f.a).toNat
  let now (v : W64) : Out := .next (s.issue k f.hd (mkPend .other [.sreg f.d.toNat v] true none))
  if !s.atLeast k .device then .next (s.trapHere k .privilege 0 0 0)
  else if s.acts k f.hd = 0 then .next (s.finish k [])
  else if s.aBad k f then .next (s.trapHere k .poison 0 0 0)
  else if 512 ≤ a || s.coreCount ≤ a then now 3
  else if !s.scanFree a then now 2
  else .next ((s.issue k f.hd (mkPend (.scan a) [.sreg f.d.toNat 0] false none)).drain a (some (0, k)))

/-! Containment (R439). -/

/-- Whether a core belongs to an agent. -/
def State.coreIn (s : State) (a : Agent) (core : Nat) : Bool :=
  match a with
  | .core n => core = n
  | .cluster n => clusterOf core = n
  | .die n => s.dieOf (clusterOf core) = n
  | _ => false

/-- A command of a collective one of whose ranks `p` picks (R379). -/
def State.hasRank (s : State) (c : Cmd) (p : Nat → Bool) : Bool :=
  c.kind = 3 && (match s.groupRec c with
    | .ok g => g.who.any p
    | .error _ => false)

/-- An engine command that has a transaction outstanding with an agent. -/
def State.cmdNeeds (s : State) (a : Agent) (c : Cmd) : Bool :=
  match a with
  | .core _ => false
  | .cluster n => c.cluster = n
  | .die n => s.dieOf c.cluster = n || s.hasRank c (fun r => r = 64 * n)
  | .peer n => (c.kind = 2 && c.peer = n) || s.hasRank c (fun r => r % 64 = n)
  | .hostLink n => c.st = .host && c.vd / 32 = n

/-- A context that had a workgroup running on the agent, or a transaction outstanding with it. -/
def State.needs (s : State) (a : Agent) (vd : Nat) : Bool :=
  s.wgs.any (fun e => e.2.vd = vd && s.onCore e.1 && s.coreIn a e.2.core) || s.cmds.any (fun e => e.2.vd = vd && s.cmdNeeds a e.2)

/-- A context halts: its grids are killed with CAUSE 14, its dispatcher with 30, and MSI-X vector 1 is raised. -/
def State.contain (s : State) (vd : Nat) : State :=
  let s := ((s.grids.filter (fun e => e.1 / 2 ^ 32 = vd)).map (·.1)).foldl (fun s k => s.killGrid k (if (s.grid k).disp then 30 else 14) 0) s
  (s.modVd vd (fun v => { v with contained := true })).msix vd 1

/-- A stand-in whose core has gone is placed again (R381). -/
def State.rehost (s : State) (a : Agent) : State :=
  (s.cmds.filter (fun e => match e.2.host with
    | some w => s.coreIn a (s.wg w).core
    | none => false)).foldl (fun s e => (s.release (e.2.host.getD 0) .killed).setCmd e.1 { e.2 with st := .placing, host := none }) s

/-- HEARTBEAT_LOSS: the agent is dead from now on. -/
def execHeartbeatLoss (agent : Agent) (s : State) : Out :=
  if s.dead.contains agent then .next s
  else
    let vds := ((s.vds.filter (fun e => e.2.enabled && s.needs agent e.1)).map (·.1))
    let cmds := (s.cmds.filter (fun e => s.cmdNeeds agent e.2)).map (·.1)
    let t : State := { s with dead := agent :: s.dead }
    let t := match agent with
      | .core n => t.modCore n (fun c => { c with dead := true })
      | _ => t
    let t := (vds.foldl (fun t v => t.contain v) t).rehost agent
    .next (cmds.foldl (fun t id => match tfind t.cmds id with
      | some c => t.engFail id c 6 0 2
      | none => t) t)

/-! Priority inheritance (R369). -/

/-- The counters that a fibre's pending `cwait` words wait on, those set aside by a trap included (R427). -/
def Fibre.awaits (f : Fibre) : List (Bool × Nat) :=
  (f.pend ++ f.trap.pend).filterMap (fun p => match p.kind with
    | .cwait c => some (c.scratch, c.addr.toNat)
    | _ => none)

/-- Whether fibres `a` and `b` mean the same counter by a name: a scratch name is its workgroup's, a global one its context's. -/
def State.sameScope (s : State) (a b : Nat) (scr : Bool) : Bool := if scr then wgOf a = wgOf b else s.vdOf a = s.vdOf b

/-- The effective priority of a fibre before any update. -/
def State.basePrio (s : State) (k : Nat) : Nat := (s.wg (wgOf k)).kd.prio

/-- One round: each fibre rises to the highest of the fibres that wait on a counter it is bound to. -/
def State.raiseOnce (s : State) (p : Tab Nat) : Tab Nat :=
  s.fibres.map (fun (e : Nat × Fibre) => (e.1, s.fibres.foldl (fun m (x : Nat × Fibre) =>
    if x.2.awaits.any (fun c => e.2.bound.contains c && s.sameScope e.1 x.1 c.1) then max m (tget 0 p x.1) else m) (s.basePrio e.1)))

/-- The effective priorities that the rule gives, to a depth of 8. -/
def State.effPrios (s : State) : Tab Nat := times s.raiseOnce 8 (s.fibres.map (fun (e : Nat × Fibre) => (e.1, s.basePrio e.1)))

/-- PRIORITY_INHERITANCE_UPDATE. -/
def execPriorityInheritanceUpdate (s : State) : Out :=
  let p := s.effPrios
  .next { s with fibres := s.fibres.map (fun (e : Nat × Fibre) => (e.1, { e.2 with effPrio := tget 0 p e.1 })) }

/-- Whether some fibre's effective priority is no longer what the rule gives. -/
def State.prioStale (s : State) : Bool :=
  s.fibres.any (fun e => !e.2.bound.isEmpty || e.2.effPrio != s.basePrio e.1)
    && s.fibres.any (fun e => e.2.effPrio != tget 0 s.effPrios e.1)

/-! Moving pages (R302). -/

/-- The level-1 entry of an address: where it stands, if every level above it names a local node. -/
def State.level1At (s : State) (vd va : Nat) : Option Nat :=
  let step (node level : Nat) : Option Nat :=
    let e := s.nodeEntry 0 (node + va / 2 ^ (12 + 9 * level) % 512 * 8)
    if e.getLsbD 0 && !e.getLsbD 1 && !e.getLsbD 7 && !e.getLsbD 8 && (e.extractLsb' 57 6).toNat = 0 then some (pteAddr e) else none
  match step (s.vd vd).ptRoot.toNat 4 with
  | none => none
  | some a =>
    match step a 3 with
    | none => none
    | some b =>
      match step b 2 with
      | none => none
      | some c => some (c + va / 2 ^ 21 % 512 * 8)

/-- The frames of the 32 pages of 64 KiB of a 2 MiB range, where they can be joined: all mapped, with equal W, X and ATTR, none
replicated, all in one province; and MIG in all of their entries, or in none, as `mig` says. -/
def State.joinable (s : State) (node : Nat) (mig : Bool) : Option (W64 × List Nat) :=
  let es := (List.range 32).map (fun i => s.nodeEntry 0 (node + 128 * i))
  let e0 := es.headD 0
  let f0 := pteAddr e0
  if es.all (fun e => e.getLsbD 0 && e.getLsbD 1 && e.getLsbD 6 && e.getLsbD 8 = mig && !e.getLsbD 9 && e.extractLsb' 2 4 = e0.extractLsb' 2 4
        && pteAddr e / 2 ^ 28 = f0 / 2 ^ 28 && (e.extractLsb' 57 6).toNat = 0) && (e0.extractLsb' 4 2).toNat != 3
      && (List.range 32).all (fun i => s.contigOk 0 node (65536 * i))
  then some (e0, es.map pteAddr) else none

/-- Every copy of the lines of [a, a + n) is written back and dropped: update-only copies, caches, translations of text, shadows. -/
def State.flushRange (s : State) (a n : Nat) : State :=
  let mine (line : Nat) : Bool := a < 64 * line + 64 && 64 * line < a + n
  let us : List Nat := (s.ucopies.map (fun (e : Nat × UCopy) => e.1 % 2 ^ 52)) ++ s.drains.map (fun (d : Drain) => d.line)
  let s : State := (us.filter mine).foldl (fun (s : State) l => s.combine l) s
  let cs : List Nat := (s.cc.map (fun (e : Nat × Line) => e.1)).filter (fun k => mine (k % 2 ^ 52))
  let s : State := cs.foldl (fun (s : State) k => s.ccDrop (k / 2 ^ 52) (k % 2 ^ 52)) s
  let zs : List Nat := (s.l0.map (fun (e : Nat × Line) => e.1)).filter (fun k => mine (k % 2 ^ 52))
  let s : State := zs.foldl (fun (s : State) k => s.l0Drop (k / 2 ^ 52) (k % 2 ^ 52)) s
  let s : State := s.dropShadows a n
  { s with icache := s.icache.filter (fun (e : Nat × ISect) => !mine (e.1 % 2 ^ 52 / 2)) }

/-- Move 64 KiB of device memory: every copy of the old lines, and of the new frame's, is written back and dropped first (R302). -/
def State.movePage (s : State) (src dst : Nat) : State :=
  let old (a : Nat) : Bool := src ≤ a && a < src + 65536
  let new (a : Nat) : Bool := dst ≤ a && a < dst + 65536
  let s : State := (s.flushRange src 65536).flushRange dst 65536
  let es : List Nat := (s.damask.err.map (fun (e : Nat × BitVec 640) => e.1)).filter (fun l => old (64 * l))
  let s : State := es.foldl (fun (s : State) l => if (tfind s.l2 l).isSome then s else s.l2Fill 0 l none) s
  let cells : List Host.Cell := s.mem.filter (fun (e : Host.Cell) => old e.1)
  let keep : List Host.Cell := s.mem.filter (fun (e : Host.Cell) => !new e.1)
  let bad : Tab Bool := s.poison.filter (fun (e : Nat × Bool) => old (32 * e.1))
  let stay : Tab Bool := s.poison.filter (fun (e : Nat × Bool) => !new (32 * e.1))
  { s with mem := cells.foldl (fun (m : List Host.Cell) (e : Host.Cell) => tset memDefault m (dst + (e.1 - src)) e.2) keep,
           poison := bad.foldl (fun (t : Tab Bool) (e : Nat × Bool) => tput t ((dst + (32 * e.1 - src)) / 32) e.2) stay,
           damask := { s.damask with err := s.damask.err.filter (fun (e : Nat × BitVec 640) => !new (64 * e.1)) } }

/-- MIG is set in the 512 entries of a level-0 node. -/
def State.setMig (s : State) (node : Nat) : State :=
  (List.range 512).foldl (fun s i => s.writeMem (node + 8 * i) (leBytes 8 ((s.nodeEntry 0 (node + 8 * i)) ||| 0x100).toNat)) s

/-- PAGE_PROMOTION: 32 pages of 64 KiB become one page of 2 MiB in a free frame of the same province. The first event of a range sets MIG in its
entries and drops their translations; the second copies the pages and writes the leaf. Between the two, walks of the range wait. -/
def execPagePromotion (vd va frame : Nat) (s : State) : Out :=
  match s.level1At vd va with
  | none => .next s
  | some at1 =>
    let e1 := s.nodeEntry 0 at1
    if !(s.vd vd).promote.getLsbD 0 || va % 2 ^ 21 != 0 || frame % 2 ^ 21 != 0 || !s.owned vd frame
        || !(e1.getLsbD 0 && !e1.getLsbD 1 && !e1.getLsbD 7 && !e1.getLsbD 8 && (e1.extractLsb' 57 6).toNat = 0) then .next s
    else
      match s.joinable (pteAddr e1) true with
      | none => if (s.joinable (pteAddr e1) false).isNone then .next s else .next ((s.setMig (pteAddr e1)).dropXlate vd va (2 ^ 21))
      | some (e0, fs) =>
        if (fs.headD 0) / 2 ^ 28 != frame / 2 ^ 28 || fs.any (fun f => f / 2 ^ 21 = frame / 2 ^ 21) then .next s
        else
          let t := (List.range 32).foldl (fun t i => t.movePage (nth fs i) (frame + 65536 * i)) s
          let leaf : W64 := BitVec.ofNat 64 (frame + 3 + 4 * (e0.extractLsb' 2 4).toNat)
          let t := (t.writeMem at1 (leBytes 8 leaf.toNat)).dropXlate vd va (2 ^ 21)
          .next (t.modVd vd (fun v => { v with promote := v.promote + 2 ^ 32 }))

end Sys2Proof.Machine
end

