-- ==== Sys2Proof/Machine/Outside.lean ====
section
/-! DEFINITION. The world outside (R121, R147, R452 to R463): energy and clocks, the counter-add window, host accesses, Twill, Ethernet,
attestation and telemetry. -/

namespace Sys2Proof.Machine

/-! Energy and clocks (R452 to R454). -/

def shareOf (nj part total : Nat) : Nat := if total = 0 then 0 else nj * part / total

def sumSnd (l : List (Nat × Nat)) : Nat := (l.map (·.2)).sum

/-- Charge energy to a workgroup: its measured energy, and its queue's in the window. -/
def State.chargeWg (s : State) (w nj : Nat) : State :=
  let x := s.wg w
  let g := s.grid (gkey x.vd x.grid)
  let s := s.modWg w (fun x => { x with measured := x.measured + nj })
  if g.disp || (tfind s.grids (gkey x.vd x.grid)).isNone then s
  else s.modVd x.vd (fun v => { v with energy := tmod QEnergy.empty v.energy g.queue (fun q => { q with meas := q.meas + nj }) })

/-- Charge energy to a virtual device (ENERGY_CTX). -/
def State.chargeVd (s : State) (vd nj : Nat) : State := s.modVd vd (fun v => { v with energyCtx := v.energyCtx + BitVec.ofNat 64 nj })

/-- One island's interval; `held` lists the slot-cycles of every workgroup in the interval, over all islands. -/
def State.meterIsland (s : State) (held : List (Nat × Nat)) (r : IslandReading) : State :=
  if s.islandOff r.island then s else
  let s := { s with islandNj := tput s.islandNj r.island (tget 0 s.islandNj r.island + r.nj) }
  if 60 ≤ r.island then s
  else if r.island % 20 < 12 then
    r.slots.foldl (fun s e =>
      let nj := shareOf r.nj e.2 (sumSnd r.slots)
      (s.chargeWg e.1 nj).chargeVd (s.wg e.1).vd nj) s
  else
    r.moved.foldl (fun s e =>
      let nj := shareOf r.nj e.2 (sumSnd r.moved)
      let mine := held.filter (fun h => (s.wg h.1).vd = e.1)
      mine.foldl (fun s h => s.chargeWg h.1 (shareOf nj h.2 (sumSnd mine))) (s.chargeVd e.1 nj)) s

/-- ENERGY_METER_INTERVAL. -/
def execEnergyMeterInterval (readings : List IslandReading) (s : State) : Out :=
  let held := readings.flatMap (fun r => if r.island < 60 && r.island % 20 < 12 then r.slots else [])
  .next (readings.foldl (fun s r => s.meterIsland held r) s)

/-- The compute islands: those of cluster positions. -/
def computeIslands : List Nat := (List.range 60).filter (fun i => i % 20 < 12)

/-- POWER_CLOCK_STEP (R454): `milliwatts` is the package power over the last 1 ms, `draw` the compute islands that step down, those that
draw the most first. A step is 1/16 of the nominal 800 MHz. -/
def execPowerClockStep (milliwatts : Nat) (draw : List Nat) (s : State) : Out :=
  let mhz (t : Tab Nat) (i : Nat) : Nat := tget (islandMhzReset i) t i
  if 3600000 < milliwatts then
    .next { s with islandMhz := (draw.filter (fun i => computeIslands.contains i)).foldl (fun t i => tput t i (max 400 (mhz t i - 50))) s.islandMhz }
  else if milliwatts < 3420000 then
    .next { s with islandMhz := computeIslands.foldl (fun t i => if mhz t i < 800 then tput t i (min 800 (mhz t i + 50)) else t) s.islandMhz }
  else .next s

/-! The counter-add window (R121). -/

def State.dropAdd (s : State) (vd : Nat) : State := s.modVd vd (fun v => { v with drops := v.drops + 1 })

/-- A command that the host performed has ended: a nonzero STATUS is a fault of a stand-in (R147), at an
address that the specification does not give (log entry 6). -/
def State.hostDone (s : State) (id : Nat) (c : Cmd) : State :=
  let v := s.vd c.vd
  let done (st : Nat) : State :=
    let r := s.takeW64
    (if st = 0 then s else r.2.recordFault c.wg st c.engine r.1.toNat).finishCmd id
  match s.tryRead 0 c.vd (v.ring.1 + 128 * (c.record % v.ring.2) + 0x7C) 1 with
  | .ok b => done (leNat b % 16)
  | .error .mig => s
  | .error _ => done 0

/-- DONE has advanced: the records that it now covers are complete, and vector 4 may be raised again (R147, R456). -/
def State.fallbackDone (s : State) (vd : Nat) : State :=
  let v := s.vd vd
  if !s.cmds.any (fun e => e.2.vd = vd && e.2.st = .host) then s
  else
    match s.tryRead 0 vd (v.posted.toNat + 8) 8 with
    | .error _ => s
    | .ok b =>
      let n := min (leNat b) v.fbPosted
      let ids := (s.cmds.filter (fun e => e.2.vd = vd && e.2.st = .host && e.2.record < n)).map (·.1)
      let s := ids.foldl (fun s id => match tfind s.cmds id with
        | some c => s.hostDone id c
        | none => s) s
      (s.modVd vd (fun v => { v with fbDone := max v.fbDone n })).setVector vd 4 false

/-- An increment of a slot's counter. -/
def State.slotAdd (s : State) (vd slot : Nat) (v : W64) : State :=
  let a := tget 0 (s.vd vd).slots slot
  if v = 0 || 2 ^ 36 ≤ v.toNat || a = 0 then s.dropAdd vd
  else
    match s.ctrAdd 0 vd a v with
    | some t => t.fallbackDone vd
    | none => s.ctrAddOrDrop 0 vd a v

/-- DONE counters that an add has reached since the last look (R147). -/
def State.hostWatch (s : State) : State :=
  if s.cmds.any (fun e => e.2.st = .host) then (s.vds.map (·.1)).foldl (fun s v => s.fallbackDone v) s else s

def State.slotAddr (s : State) (vd slot : Nat) (a : W64) : State := s.modVd vd (fun v => { v with slots := tput v.slots slot a })

/-- A write of `size` bytes at an offset of BAR0; outside the window BAR0 ignores it (R121, R455). -/
def State.mmioWrite (s : State) (vd off size : Nat) (v : W64) : State :=
  if !(s.vd vd).enabled || 0x1000 ≤ off then s
  else if size = 8 && off % 16 = 0 then s.slotAddr vd (off / 16) v
  else if size = 8 && off % 16 = 8 then s.slotAdd vd (off / 16) v
  else s.dropAdd vd

/-- COUNTER_ADD_ADDR_WRITE. -/
def execCounterAddAddrWrite (vd off size : Nat) (v : W64) (s : State) : Out := .next (s.mmioWrite vd off size v)

/-- COUNTER_ADD_INCREMENT. -/
def execCounterAddIncrement (vd off size : Nat) (v : W64) (s : State) : Out := .next (s.mmioWrite vd off size v)

/-- COUNTER_ADD_SET_AND_ADD: one write of 16 bytes sets ADDR and adds; at another slot offset it is dropped. -/
def execCounterAddSetAndAdd (vd off : Nat) (addr inc : W64) (s : State) : Out :=
  if !(s.vd vd).enabled || 0x1000 ≤ off then .next s
  else if off % 16 = 0 then .next ((s.slotAddr vd (off / 16) addr).slotAdd vd (off / 16) inc)
  else .next (s.dropAdd vd)

/-- DROPS_READ: the count clears. -/
def execDropsRead (vd : Nat) (s : State) : Out := .next (s.modVd vd (fun v => { v with drops := 0 }))

/-- HOST_MEMORY_ACCESS (R421): a `.sys` access of the function's context. An access that does not translate changes nothing, and one whose
walk waits has not been made yet: the agenda holds it again (log entry 3). -/
def execHostMemoryAccess (acc : HostAcc) (s : State) : Out :=
  match acc with
  | .write vd a bs => if (s.vd vd).enabled then .next ((s.ctxWrite 0 vd a bs).getD s) else .next s
  | .read vd a n =>
    match collectE (fun (p : Nat × Nat) => s.globalPiece 0 vd .rd p.1 p.2) (sectors (n / 32 + 2) a n) with
    | .ok ps => if (s.vd vd).enabled then .next (s.readPieces { core := 0, wg := 0, vd := vd, scope := 7 } ps).2 else .next s
    | .error _ => .next s

/-! Twill (R420, R457 to R460). -/

/-- Packets up to an acknowledged sequence number leave the replay store, and packets that waited for room go out (R457). -/
def Port.acknowledge (x : Port) (ack : BitVec 12) : Port :=
  let x := match x.replay.findIdx? (fun p => p.seq = ack) with
    | some i => { x with replay := x.replay.drop (i + 1), acked := ack }
    | none => { x with acked := ack }
  x.flush x.queue

/-- The next bytes of a `cpyr` with GET arrive: they are written in order, and every finished chunk is added (R376, R378). -/
def State.getBytes (s : State) (id : Nat) (c : Cmd) (bs : List Byte) : State :=
  let d := bs.take (c.n - c.pos)
  match s.engWrite c false 1 (if d.isEmpty then [] else [(c.dst.toNat + c.pos, d)]) with
  | .error (e, a) => s.engFault id c e a 0
  | .ok s =>
    let pos := c.pos + d.length
    let full := if pos = c.n then c.n else pos / 4096 * 4096
    let stop := c.added < full && s.ctrRefused c
    let s := s.engAdd c (full - c.added)
    let c := { c with pos := pos, added := max c.added full }
    if pos = c.n || stop then s.finishCmd id else s.setCmd id c

/-- The locations of a piece in this package: a switch brings a store to every replica, and each package writes its own (R459). -/
def Piece.near (p : Piece) : Piece := { p with locs := p.locs.filter (fun l => match l with
  | .peer _ _ => false
  | _ => true) }

/-- The bytes of a packet are stored. -/
def State.pktStore (s : State) (vd a : Nat) (bs : List Byte) : State :=
  match collectE (fun (p : Nat × Nat) => s.globalPiece 0 vd .wr p.1 p.2) (sectors (bs.length / 32 + 2) a bs.length) with
  | .ok ps => s.putCtx 0 vd (ps.map Piece.near) bs
  | .error _ => s

/-- A packet's body is delivered (R378, R459). A `red` executes at the line's home. -/
def State.deliverPkt (s : State) (b : PktBody) : State :=
  match b with
  | .store vd a bs => s.pktStore vd a bs
  | .add vd a inc => (s.ctrAdd 0 vd (BitVec.ofNat 64 a) (BitVec.ofNat 64 inc)).getD s
  | .red vd a aop ty v =>
    (match s.globalPiece 0 vd .wr a (tyBytes ty) with
    | .ok p =>
      (match p.locs.find? (fun l => match l with
        | .dev _ _ _ => true
        | _ => false) with
      | some l => (s.atPoint { core := 0, wg := 0, vd := vd, scope := 6 } l ty (.op aop (v.toNat % 2 ^ (8 * tyBytes ty)))).2.2
      | none => s)
    | .error _ => s)
  | .read id bs =>
    (match tfind s.cmds id with
    | some c => if c.kind = 2 && c.get && s.works c then s.getBytes id c bs else s
    | none => s)
  | .done id =>
    match tfind s.cmds id with
    | some c =>
      if c.kind = 2 && !c.get && s.works c && c.pos = c.n then (s.engAdd c.here c.n).finishCmd id else s
    | none => s

/-- The walk of an address that a packet's body names waits (R301), or the command that it is for waits for a page (R380): the packet is not
taken yet, and its sender replays it. -/
def State.pktWaits (s : State) (b : PktBody) : Bool :=
  let mig (core vd a n : Nat) : Bool := (pagesOf a n).any (fun p => match s.globalPiece core vd .wr p 1 with
    | .error .mig => true
    | _ => false)
  match b with
  | .store vd a bs => mig 0 vd a bs.length
  | .add vd a _ => mig 0 vd a 8
  | .red vd a _ ty _ => mig 0 vd a (tyBytes ty)
  | .read id bs => (match tfind s.cmds id with
    | some c => s.ctrStuck c || (s.ctrAbsent c).isSome || (s.getAbsent c bs.length).isSome || mig (8 * c.cluster) c.vd (c.dst.toNat + c.pos) bs.length
    | none => false)
  | .done id => (match tfind s.cmds id with
    | some c => s.ctrStuck c || (s.ctrAbsent c).isSome
    | none => false)

/-- TWILL_PACKET_RECEIVE: a packet of another partition, with a bad CRC, or out of sequence is not delivered. A port that is fused off has no
number (R3). -/
def execTwillPacketReceive (port : Nat) (pkt : Packet) (s : State) : Out :=
  let x := tget Port.empty s.ports port
  if (s.feature.extractLsb' 17 7).toNat ≤ port || x.lanes = 0 || !pkt.crc || x.part != some pkt.part || s.pktWaits pkt.body then .next s
  else
    let x := x.acknowledge pkt.ack
    let s := { s with ports := tput s.ports port x }
    if pkt.seq != x.rx then .next s
    else .next ({ s with ports := tput s.ports port { x with rx := x.rx + 1 } }.deliverPkt pkt.body)

/-- TWILL_CRC_REPLAY: the sender's packets from the one after the last acknowledged go out again, in order; a lane with three errors
within 1 ms is dropped. -/
def execTwillCrcReplay (port lane : Nat) (s : State) : Out :=
  let x := tget Port.empty s.ports port
  let es := (tget [] x.crc lane).filter (fun t => s.clock < t + 1000000) ++ [s.clock]
  let lanes := if 3 ≤ es.length then x.lanes &&& ~~~(BitVec.ofNat 2 (2 ^ lane)) else x.lanes
  .next { s with ports := tput s.ports port { x with crc := tput x.crc lane es, lanes := lanes } }

/-- TWILL_PORT_LOSS: the port carries nothing, and what it had not had acknowledged goes out by the next live port of the partition. -/
def execTwillPortLoss (port : Nat) (s : State) : Out :=
  let x := tget Port.empty s.ports port
  let s := { s with ports := tput s.ports port { x with lanes := 0, replay := [], queue := [] } }
  let n := max 1 (s.feature.extractLsb' 17 7).toNat
  let live := ((List.range n).map (fun i => (port + 1 + i) % n)).find? (fun p =>
    (tget Port.empty s.ports p).lanes != 0 && (tget Port.empty s.ports p).part = x.part)
  match live, x.part with
  | some p, some part => .next ((x.replay.map (fun q => q.body) ++ x.queue.map (fun q => q.2)).foldl (fun s b => s.send part p b) s)
  | _, _ => .next s

/-! Ethernet (R461). -/

/-- A completion is a counter add, of the bytes moved (R376, R461; log entry 41). -/
def State.rdmaDone (s : State) (vd ctr n : Nat) : State := if ctr = 0 then s else s.ctrAddOrDrop 0 vd (BitVec.ofNat 64 ctr) (BitVec.ofNat 64 n)

/-- Bytes of a context go out to the network. -/
def State.netSend (s : State) (vd a n ctr : Nat) : State :=
  match s.tryRead 0 vd a n with
  | .ok bs => ({ s with net := s.net ++ [bs] }).rdmaDone vd ctr n
  | .error _ => s

/-- ROCE_WORK_REQUEST. -/
def execRoceWorkRequest (req : WorkReq) (s : State) : Out :=
  match req with
  | .write port _ vd a n ctr => if port < 16 && (s.vd vd).enabled then .next (s.netSend vd a n ctr) else .next s
  | .send port _ vd a n ctr => if port < 16 && (s.vd vd).enabled then .next (s.netSend vd a n ctr) else .next s
  | .read port _ vd a bs ctr =>
    if port < 16 && (s.vd vd).enabled then
      match s.ctxWrite 0 vd a bs with
      | some t => .next (t.rdmaDone vd ctr bs.length)
      | none => .next s
    else .next s

/-! Attestation and telemetry (R463). -/

/-- An answer of the SPDM responder. -/
def State.answer (s : State) (stage kind : Nat) (bs : List Byte) : State :=
  { s with spdm := { stage := max s.spdm.stage stage, kind := kind, answer := bs } }

/-- The eight measurement registers, 64 bytes each. -/
def State.measurements (s : State) : List Byte := (List.range 8).flatMap (fun i => leBytes 64 (tget 0 s.measure i).toNat)

/-- GET_VERSION: version 1.3. -/
def execGetVersion (s : State) : Out := .next (s.answer 1 1 [0x13])

/-- GET_CAPABILITIES. -/
def execGetCapabilities (s : State) : Out := .next (s.answer 2 2 [])

/-- NEGOTIATE_ALGORITHMS: ECDSA P-521 over SHA-512, as the device names them (R53). -/
def execNegotiateAlgorithms (s : State) : Out := .next (s.answer 3 3 [1])

/-- GET_CERTIFICATE. -/
def execGetCertificate (s : State) : Out := .next (s.answer 4 4 Config.certificate)

/-- CHALLENGE: signed with the device key. -/
def execChallenge (nonce : List Byte) (s : State) : Out := .next (s.answer 5 5 (Config.ecdsaSign (nonce ++ s.measurements)))

/-- GET_MEASUREMENTS. -/
def execGetMeasurements (s : State) : Out := .next (s.answer 6 6 s.measurements)

/-- AKVIA_TELEMETRY: what the endpoint answers. -/
def execAkviaTelemetry (item : Telemetry) (s : State) : Out :=
  let v : W64 := match item with
    | .energy i => BitVec.ofNat 64 (tget 0 s.islandNj (i % 64))
    | .memEvent => s.damask.events.headD 0
    | .temperature i => (Config.temperature (i % 64) s.clock).setWidth 64
  .next { s with telemetry := s.telemetry ++ [v] }

end Sys2Proof.Machine
end

