-- ==== Sys2Proof/Machine/Loader.lean ====
section
/-! DEFINITION. The Lomic Object Format (R35 to R57): what the two loaders check and do, the boot of the package (R462) and the unloading
of an image. -/

namespace Sys2Proof.Machine

/-! The file. -/

/-- A section-table entry (R36). -/
structure Sect where
  name   : Nat
  type   : Nat
  sflags : Nat
  addr   : Nat
  offset : Nat
  size   : Nat
  link   : Nat
  align  : Nat
  rsv    : Nat
  deriving DecidableEq, Repr

def Sect.ofBytes (b : List Byte) : Sect :=
  { name := fieldAt b 0 4, type := fieldAt b 4 2, sflags := fieldAt b 6 2, addr := fieldAt b 8 8, offset := fieldAt b 0x10 8,
    size := fieldAt b 0x18 8, link := fieldAt b 0x20 4, align := fieldAt b 0x24 2, rsv := fieldAt b 0x26 2 }

def Sect.alloc (x : Sect) : Bool := x.sflags % 2 = 1

/-- SH_OFFSET, and the sections of a file by its header. -/
def shOffset (f : List Byte) : Nat := fieldAt f 0x18 8
def shCount (f : List Byte) : Nat := fieldAt f 0x0C 2
def lofFlags (f : List Byte) : Nat := fieldAt f 0x10 4

def lofSections (f : List Byte) : List Sect := (List.range (shCount f)).map (fun i => Sect.ofBytes ((f.drop (shOffset f + 40 * i)).take 40))

/-- The contents of a section. -/
def Sect.bytes (x : Sect) (f : List Byte) : List Byte := (f.drop x.offset).take x.size

/-- The row of R37 for a type: SFLAGS, least ALIGN, and the least and greatest count (1,000,000 for any). -/
def sectRow (t : Nat) : Option (Nat × Nat × Nat × Nat) :=
  match t with
  | 1 => some (5, 6, 0, 1000000)
  | 2 => some (1, 7, 0, 1)
  | 3 => some (0, 3, 0, 1)
  | 4 => some (3, 3, 0, 1000000)
  | 5 => some (1, 3, 0, 1000000)
  | 6 => some (9, 8, 0, 1)
  | 7 => some (0, 2, 0, 1000000)
  | 8 => some (0, 3, 0, 1)
  | 9 => some (0, 3, 1, 1)
  | 10 => some (0, 3, 0, 1000000)
  | 11 => some (0, 0, 1, 1)
  | _ => none

/-- One entry of the table, other than entry 0 (R36, R37). The specification gives ALIGN no upper limit; the model refuses an ALIGN of
64 or more, which no 64-bit address but 0 can keep (DESIGN CHOICE, log entry 79). -/
def Sect.ok (x : Sect) (fileSize : Nat) : Bool :=
  match sectRow x.type with
  | none => false
  | some (fl, al, _, _) =>
    x.sflags = fl && al ≤ x.align && x.align < 64 && x.addr % 2 ^ x.align = 0 && x.offset % 2 ^ x.align = 0 && (x.alloc || x.addr = 0)
      && x.offset + x.size ≤ fileSize && (x.type = 10 || x.link = 0) && x.rsv = 0 && (x.type != 2 || x.size % 128 = 0)

/-- Two allocated sections share an address. A section without contents shares none. -/
def Sect.meets (x y : Sect) : Bool :=
  x.alloc && y.alloc && x.size != 0 && y.size != 0 && x.addr < y.addr + y.size && y.addr < x.addr + x.size

def pairwise {α : Type} (p : α → α → Bool) : List α → Bool
  | [] => true
  | a :: t => t.all (p a) && pairwise p t

/-- The first section of a type. -/
def sectOf (ss : List Sect) (t : Nat) : Option Sect := ss.find? (fun x => x.type = t)

/-- One byte of a UTF-8 text: how many bytes the character still needs and the range of the next one; none where the text is not
UTF-8. -/
def utf8Step (st : Option (Nat × Nat × Nat)) (x : Byte) : Option (Nat × Nat × Nat) :=
  match st with
  | none => none
  | some (0, _, _) =>
    let n := x.toNat
    if n < 0x80 then some (0, 0, 0)
    else if 0xC2 ≤ n && n ≤ 0xDF then some (1, 0x80, 0xBF)
    else if 0xE0 ≤ n && n ≤ 0xEF then some (2, if n = 0xE0 then 0xA0 else 0x80, if n = 0xED then 0x9F else 0xBF)
    else if 0xF0 ≤ n && n ≤ 0xF4 then some (3, if n = 0xF0 then 0x90 else 0x80, if n = 0xF4 then 0x8F else 0xBF)
    else none
  | some (more + 1, lo, hi) => if lo ≤ x.toNat && x.toNat ≤ hi then some (more, 0x80, 0xBF) else none

/-- The string section is a run of NUL-terminated UTF-8 strings, the first of them empty (R39). -/
def stringsOk (tab : List Byte) : Bool :=
  tab.headD 1 = 0 && tab.getLastD 1 = 0 && tab.foldl utf8Step (some (0, 0, 0)) = some (0, 0, 0)

/-- A string offset points at the first byte of a string inside the string section (R39). -/
def strOk (tab : List Byte) (o : Nat) : Bool :=
  o < tab.length && (o = 0 || tab.getD (o - 1) 1 = 0) && (tab.drop o).any (fun b => b = 0)

/-- A string up to its NUL. -/
def strAt (tab : List Byte) (o : Nat) : List Byte := (tab.drop o).takeWhile (fun b => b != 0)

/-- A symbol record (R40). -/
structure Sym where
  name  : Nat
  kind  : Nat
  bind  : Nat
  sect  : Nat
  value : Nat
  size  : Nat
  deriving DecidableEq, Repr

def Sym.ofBytes (b : List Byte) : Sym :=
  { name := fieldAt b 0 4, kind := fieldAt b 4 1, bind := fieldAt b 5 1, sect := fieldAt b 6 2, value := fieldAt b 8 8, size := fieldAt b 16 8 }

def records (n : Nat) (b : List Byte) : List (List Byte) := (List.range (b.length / n)).map (fun i => (b.drop (n * i)).take n)

def symbols (ss : List Sect) (f : List Byte) : List Sym :=
  match sectOf ss 9 with
  | some x => (records 24 (x.bytes f)).map Sym.ofBytes
  | none => []

/-- The symbols are well formed (R40); an undefined one is not allowed in an image, which has EXEC set. -/
def symsOk (exec : Bool) (ss : List Sect) (syms : List Sym) (tab : List Byte) : Bool :=
  (match syms with
    | z :: _ => z = { name := 0, kind := 0, bind := 0, sect := 0, value := 0, size := 0 }
    | [] => true)
    && (syms.drop 1).all (fun y => y.kind ≤ 4 && y.bind ≤ 1 && strOk tab y.name && (y.sect < ss.length || y.sect = 0xFFFF) && !(exec && y.sect = 0)
      && (y.kind != 2 || ((ss.getD y.sect (Sect.ofBytes [])).type = 2 && y.value % 128 = 0 && y.size = 128)))
    && pairwise (fun a b => !(a.bind = 1 && b.bind = 1 && strAt tab a.name = strAt tab b.name)) (syms.drop 1)

/-- The framing of note records (R52). -/
def notesOk : Nat → List Byte → Bool
  | 0, _ => false
  | fuel + 1, b =>
    if b.isEmpty then true
    else
      let n := 12 + (fieldAt b 0 4 + 3) / 4 * 4 + (fieldAt b 4 4 + 3) / 4 * 4
      12 ≤ b.length && n ≤ b.length && notesOk fuel (b.drop n)

/-- One template of ARGS (R50) at the start of the bytes: its length, if it keeps the rules. -/
def templateOk (b : List Byte) (tab : List Byte) : Option Nat :=
  let size := fieldAt b 0 2
  let count := fieldAt b 2 2
  let len := 8 + 16 * count + (size + 7) / 8 * 8
  let es := (List.range count).map (fun i => (b.drop (8 + 16 * i)).take 16)
  let one (e : List Byte) : Bool :=
    let o := fieldAt e 0 2
    let z := fieldAt e 2 1
    let k := fieldAt e 3 1
    [1, 2, 4, 8].contains z && o % max 1 z = 0 && o + z ≤ size && k ≤ 3 && (k = 0 || z = 8) && fieldAt e 8 8 = 0 && strOk tab (fieldAt e 4 4)
  let clear (x y : List Byte) : Bool := fieldAt x 0 2 + fieldAt x 2 1 ≤ fieldAt y 0 2 || fieldAt y 0 2 + fieldAt y 2 1 ≤ fieldAt x 0 2
  let padding := (b.take len).drop (8 + 16 * count + size)
  if size ≤ 512 && fieldAt b 4 4 = 0 && len ≤ b.length && es.all one && pairwise clear es && 8 ≤ b.length && padding.all (fun x => x = 0)
  then some len else none

/-- ARGS is a run of templates, one after another, and each of them keeps the rules (R50; log entry 80). -/
def argsOk : Nat → List Byte → List Byte → Bool
  | 0, _, _ => false
  | fuel + 1, b, tab =>
    if b.isEmpty then true
    else
      match templateOk b tab with
      | some n => argsOk fuel (b.drop n) tab
      | none => false

/-- Every template keeps the rules; a descriptor's lies in ARGS, at an 8-byte boundary, and agrees with its ARGS_SIZE (R44, R50). -/
def templatesOk (ss : List Sect) (f tab : List Byte) : Bool :=
  (match sectOf ss 3 with
    | none => true
    | some a => argsOk (a.size + 1) (a.bytes f) tab)
  && (match sectOf ss 2 with
    | none => true
    | some kd =>
      (records 128 (kd.bytes f)).all (fun d =>
        let o := fieldAt d 0x3C 4
        o = 0xFFFFFFFF || (match sectOf ss 3 with
          | none => false
          | some a => o % 8 = 0 && o < a.size && (templateOk ((a.bytes f).drop o) tab).isSome
              && fieldAt (a.bytes f) o 2 = fieldAt d 0x30 2)))

/-- The reserved words of a SIG section are 0 (R53). -/
def sigRsvOk (ss : List Sect) (f : List Byte) : Bool :=
  match sectOf ss 8 with
  | none => true
  | some x => fieldAt (x.bytes f) 4 4 = 0 && fieldAt (x.bytes f) 0x9C 4 = 0

/-- Step 3 of R56. -/
def layoutOk (f : List Byte) : Bool :=
  let ss := lofSections f
  let body := ss.drop 1
  let strtab := ss.getD (fieldAt f 0x0E 2) (Sect.ofBytes [])
  let tab := strtab.bytes f
  let count (t : Nat) : Nat := (body.filter (fun x => x.type = t)).length
  2 ≤ shCount f && shCount f ≤ 1024 && shOffset f % 8 = 0 && shOffset f + 40 * shCount f ≤ f.length && fieldAt f 0x28 8 = f.length
    && lofFlags f < 8 && fieldAt f 0x30 8 = 0 && fieldAt f 0x38 8 = 0 && (lofFlags f / 2 % 2 = 1 || fieldAt f 0x20 8 = 0)
    && ((f.drop (shOffset f)).take 40).all (fun b => b = 0)
    && body.all (fun x => x.ok f.length) && (List.range 12).all (fun t => match sectRow t with
      | some (_, _, lo, hi) => lo ≤ count t && count t ≤ hi
      | none => true)
    && pairwise (fun a b => !a.meets b) body
    && strtab.type = 11 && stringsOk tab && body.all (fun x => strOk tab x.name)
    && symsOk (lofFlags f % 2 = 1) ss (symbols ss f) tab && templatesOk ss f tab
    && body.all (fun x => (x.type != 7 || notesOk (x.size + 1) (x.bytes f)) && ((x.type != 9 && x.type != 10) || x.size % 24 = 0)
      && (x.type != 10 || (x.link < ss.length && (records 24 (x.bytes f)).all (fun r => fieldAt r 14 2 = 0))))
    && sigRsvOk ss f

/-! Signatures (R53 to R55). -/

/-- The order of the group of curve P-521. -/
def p521Order : Nat :=
  0x01FFFFFFFFFFFFFFFFFFFFFFFFFFFFFFFFFFFFFFFFFFFFFFFFFFFFFFFFFFFFFFFFFFFA51868783BF2F966B7FCC0148F709A5D03BB5C9B8899C47AEBB6FB71E91386409

/-- A big-endian integer. -/
def beNat (b : List Byte) : Nat := b.foldl (fun n x => 256 * n + x.toNat) 0

/-- KEY_ID of a public key: the first 16 bytes of its SHA-512, the digest's first byte being its most significant (R53). -/
def keyId (pub : List Byte) : BitVec 128 := (Config.sha512 pub).extractLsb' 384 128

/-- The SIG section is the final 160 bytes of the file, of version 1 and algorithm 1 (R53, R54). -/
def sigPlaceOk (x : Sect) (f : List Byte) : Bool :=
  x.size = 160 && x.offset + 160 = f.length && fieldAt (x.bytes f) 0 2 = 1 && fieldAt (x.bytes f) 2 2 = 1

/-- The status of the signature of an image: 0 valid, 5 BAD_SIG, 6 UNSIGNED, 7 UNKNOWN_KEY. -/
def sigStatus (keys : List (List Byte)) (f : List Byte) : Nat :=
  match sectOf (lofSections f) 8 with
  | none => 6
  | some x =>
    let b := x.bytes f
    if !sigPlaceOk x f then 5 else
    let id : BitVec 128 := BitVec.ofNat 128 (beNat ((b.drop 8).take 16))
    match keys.find? (fun k => keyId k = id) with
    | none => 7
    | some k =>
      let r := beNat ((b.drop 0x18).take 66)
      let q := beNat ((b.drop 0x5A).take 66)
      if 1 ≤ r && r < p521Order && 1 ≤ q && q < p521Order && Config.ecdsaVerify k (f.take (f.length - 160)) r q then 0 else 5

/-! Relocation (R41 to R43). -/

/-- The least number of bytes of the word at PLACE, and its alignment (R42). -/
def relWidth (kind : Nat) : Nat := if kind = 2 || kind = 3 then 4 else 8

/-- The field that a kind writes, as low bit and width, its value for S + A and P, and whether that keeps its limit (R42). S + A is the
sum of an unsigned S and a signed A, not wrapped to 64 bits (DESIGN CHOICE, log entry 81). -/
def relValue (kind : Nat) (sa p : Int) : Nat × Nat × Int × Bool :=
  let d := sa - p
  match kind with
  | 1 => (0, 64, sa, true)
  | 2 => (0, 32, sa, 0 ≤ sa && sa < 2 ^ 32)
  | 3 => (0, 32, d, -(2 ^ 31 : Int) ≤ d && d < 2 ^ 31)
  | 4 => (0, 32, d / 8, d % 8 = 0)
  | 5 => (0, 32, sa % 2 ^ 32, true)
  | 6 => (0, 32, sa / 2 ^ 32 % 2 ^ 32, true)
  | 7 => (0, 11, sa, -1024 ≤ sa && sa ≤ 1023)
  | 8 => (0, 16, sa / 64, sa % 64 = 0 && 0 ≤ sa && sa / 64 ≤ 65535)
  | _ => (0, 7, sa, -64 ≤ sa && sa ≤ 63)

/-- The address of each section once loaded. -/
abbrev Addrs := List Nat

/-- S of R40, as an unsigned number: the specification does not say whether the VALUE of an absolute symbol is signed (DESIGN CHOICE, log
entry 81). -/
def symValue (addrs : Addrs) (y : Sym) : Nat := if y.sect = 0xFFFF then y.value else nth addrs y.sect + y.value

/-- Write a field of `w` bits into the low bits of an n-byte word of a list of bytes. -/
def patch (b : List Byte) (at_ n w : Nat) (v : Nat) : List Byte :=
  let old := fieldAt b at_ n
  b.take at_ ++ leBytes n (old / 2 ^ w * 2 ^ w + v % 2 ^ w) ++ b.drop (at_ + n)

/-- Apply one record to the contents of the sections: the new contents, or 10 BAD_RELOC, 11 RANGE. A PLACE that is not aligned to its
word is BAD_RELOC, though the list of R42 does not name it (DESIGN CHOICE, log entry 82). -/
def applyRel (addrs : Addrs) (syms : List Sym) (link : Nat) (cont : List (List Byte)) (r : List Byte) : Except Nat (List (List Byte)) :=
  let place := fieldAt r 0 8
  let kind := fieldAt r 12 2
  let add : Int := sgn 64 (fieldAt r 16 8)
  let body := cont.getD link []
  match syms[fieldAt r 8 4]? with
  | none => .error 10
  | some y =>
    if kind = 0 || 9 < kind || y.sect = 0 || body.length < place + relWidth kind || place % relWidth kind != 0 then .error 10
    else
      let (_, w, v, fit) := relValue kind (symValue addrs y + add) (nth addrs link + place)
      if !fit then .error 11 else .ok (cont.set link (patch body place (relWidth kind) w (wrap 64 v)))

/-- Every RELA section in table order, every record in its order (R43). -/
def relocate (addrs : Addrs) (ss : List Sect) (syms : List Sym) (f : List Byte) (cont : List (List Byte)) : Except Nat (List (List Byte)) :=
  (ss.filter (fun x => x.type = 10)).foldl (fun c x => (records 24 (x.bytes f)).foldl (fun c r => match c with
    | .ok c => applyRel addrs syms x.link c r
    | .error e => .error e) c) (.ok cont)

/-! Mapping (R38, R300). -/

/-- Write the leaf that maps a page, taking frames for absent nodes from the list; none where it runs out, and where the page is mapped
already. -/
def State.mapPage (s : State) (root va leaf : Nat) (spare : List Nat) : Option (State × List Nat) :=
  let rec go : Nat → Nat → State → List Nat → Option (State × List Nat)
    | 0, node, s, spare =>
      let at_ := node + va / 2 ^ 12 % 512 * 8
      if (s.nodeEntry 0 at_).getLsbD 0 then none else some (s.writeMem at_ (leBytes 8 leaf), spare)
    | level + 1, node, s, spare =>
      let at_ := node + va / 2 ^ (12 + 9 * (level + 1)) % 512 * 8
      let e := s.nodeEntry 0 at_
      if e.getLsbD 0 then (if e.getLsbD 1 || e.getLsbD 7 || e.getLsbD 8 || (e.extractLsb' 57 6).toNat != 0 then none else go level (pteAddr e) s spare)
      else
        match spare with
        | [] => none
        | n :: t => go level n ((s.writeMem n (List.replicate 4096 0)).writeMem at_ (leBytes 8 (n / 4096 * 4096 + 1))) t
  go 4 root s spare

/-- W, X and ATTR of the pages of a section, in place in a leaf (R38). -/
def sectLeaf (type : Nat) : Nat :=
  match type with
  | 1 => 8 + 16
  | 4 => 4
  | 6 => 32
  | _ => 16

/-- The pages of a placed section: virtual address, frame, and leaf bits. -/
def sectPages (type va pa n : Nat) : List (Nat × Nat × Nat) :=
  if n = 0 then [] else (List.range ((va + n - 1) / 4096 - va / 4096 + 1)).map (fun i =>
    ((va / 4096 + i) * 4096, (pa / 4096 + i) * 4096, sectLeaf type))

/-- Two sections ask for one page, or for one frame, in different ways. -/
def pagesClash (ps : List (Nat × Nat × Nat)) : Bool := ps.any (fun p => ps.any (fun q => p != q && (p.1 = q.1 || p.2.1 = q.2.1)))

/-- Map the pages of an image (log entry 42). -/
def State.mapAll (s : State) (root : Nat) : List (Nat × Nat × Nat) → List Nat → Option State
  | [], _ => some s
  | (va, pa, bits) :: t, spare =>
    match s.mapPage root va (pa + 3 + bits) spare with
    | some (s, spare) => s.mapAll root t spare
    | none => none

/-- The allocated sections with their index. -/
def allocated (ss : List Sect) : List (Nat × Sect) := ((List.range ss.length).map (fun i => (i, ss.getD i (Sect.ofBytes [])))).filter (fun e => e.2.alloc)

/-- Where the sections go: virtual and physical address of each allocated section, from the loader's choice (log entry 42). -/
def placeOf (xs : List (Nat × Sect)) (choice : List Nat) : List (Nat × Sect × Nat × Nat) :=
  (List.range xs.length).map (fun i => ((xs.getD i (0, Sect.ofBytes [])).1, (xs.getD i (0, Sect.ofBytes [])).2, nth choice (2 * i), nth choice (2 * i + 1)))

/-- The placement is one that the image allows: at ADDR where RELOC is clear, aligned, with frames that the context owns. -/
def State.placeOk (s : State) (vd : Nat) (reloc : Bool) (p : Nat × Sect × Nat × Nat) : Bool :=
  let (_, x, va, pa) := p
  (reloc || va = x.addr) && va % 2 ^ x.align = 0 && va % 4096 = pa % 4096 && va + x.size ≤ 2 ^ 57
    && (sectPages x.type va pa x.size).all (fun g => s.owned vd g.2.1 && !s.inHeap vd g.1)

/-- A management core can use the addresses of a section: they are device memory, in provinces that are not RETIRED (log entry 38). -/
def State.firmPlaceOk (s : State) (x : Sect) : Bool :=
  x.size = 0 || (x.addr + x.size ≤ 2560 * 2 ^ 28 && (List.range ((x.addr + x.size - 1) / 2 ^ 28 - x.addr / 2 ^ 28 + 1)).all (fun i =>
    (s.damask.prov (x.addr / 2 ^ 28 + i)).st != .retired))

/-- Frames that an image holds already, whatever its virtual device. -/
def State.framesHeld (s : State) : List Nat := s.vds.flatMap (fun e => e.2.images.flatMap (fun i => i.frames))

/-- The sealed buffers of SEALED: its data objects (R51). -/
def sealedBufs (addrs : Addrs) (ss : List Sect) (syms : List Sym) : List (Nat × Nat) :=
  (syms.filter (fun y => y.kind = 3 && y.sect < ss.length && (ss.getD y.sect (Sect.ofBytes [])).type = 6)).map (fun y => (symValue addrs y, y.size))

/-- Steps 1 to 7 of R56: 0, or the status of the first that fails. -/
def checkImage (device : Bool) (keys : List (List Byte)) (mustSign : Bool) (step : Nat) (f : List Byte) : Nat :=
  if fieldAt f 0 4 != 0x1A464F4C || fieldAt f 0x14 2 != 0x4C5A then 1
  else if fieldAt f 4 2 != 1 || fieldAt f 8 2 != 64 || fieldAt f 0x0A 2 != 40 then 2
  else if f.length < 64 || !layoutOk f then 3
  else if lofFlags f % 2 = 0 then 4
  else if (lofFlags f / 2 % 2 = 1) != device then 13
  else
    let st := sigStatus keys f
    if st = 6 && !mustSign then (if fieldAt f 0x16 2 ≤ step then 0 else 8)
    else if st != 0 then st
    else if fieldAt f 0x16 2 ≤ step then 0 else 8

/-- FEATURE.STEP (R4). -/
def State.stepping (s : State) : Nat := (s.feature.extractLsb' 4 4).toNat

/-- What the steps from 9 on have made of an image: the contents of its sections, the addresses of its descriptors, its TEXT sections
and its sealed buffers. -/
structure Linked where
  cont  : List (List Byte)
  descs : List Nat
  texts : List (Nat × Nat)
  bufs  : List (Nat × Nat)
  deriving DecidableEq, Repr

/-- Steps 9 to 11 of R56 up to the mapping: the relocations, the descriptors, and the sealed buffers of an image whose sections are
placed, in a context that holds `held` sealed buffers (R260). -/
def linkImage (f : List Byte) (ps : List (Nat × Sect × Nat × Nat)) (held : Nat) : Except Nat Linked :=
  let ss := lofSections f
  let syms := symbols ss f
  let addrs : Addrs := (List.range ss.length).map (fun i => match ps.find? (fun p => p.1 = i) with
    | some p => p.2.2.1
    | none => 0)
  match relocate addrs ss syms f (ss.map (fun x => x.bytes f)) with
  | .error e => .error e
  | .ok cont =>
    let texts := (ps.filter (fun p => p.2.1.type = 1)).map (fun p => (p.2.2.1, p.2.1.size))
    let kds := (ps.filter (fun p => p.2.1.type = 2)).flatMap (fun p => (List.range (p.2.1.size / 128)).map (fun i =>
      (p.2.2.1 + 128 * i, KDesc.ofBytes (((cont.getD p.1 []).drop (128 * i)).take 128))))
    let bufs := sealedBufs addrs ss syms
    if !kds.all (fun k => k.2.ok texts) then .error 9
    else if !(bufs.all (fun b => b.1 % 256 = 0 && b.2 % 32 = 0) && pairwise (fun a b => a.1 + a.2 ≤ b.1 || b.1 + b.2 ≤ a.1) bufs)
        || 4096 < held + bufs.length then .error 12
    else .ok { cont := cont, descs := kds.map (·.1), texts := texts, bufs := bufs }

/-- The sectors that lie in a range hold no poison any more. -/
def State.unpoison (s : State) (a n : Nat) : State := { s with poison := s.poison.filter (fun e => !(a ≤ 32 * e.1 && 32 * e.1 + 32 ≤ a + n)) }

/-- The contents of the placed sections stand in memory, and no cache holds anything else for them. -/
def State.writeSects (s : State) (ps : List (Nat × Sect × Nat × Nat)) (cont : List (List Byte)) : State :=
  ps.foldl (fun (t : State) p =>
    let bs := cont.getD p.1 []
    let a := p.2.2.2
    ((t.flushRange a bs.length).writeMem a bs).unpoison a bs.length) s

/-- The buffers of SEALED are sealed in a context (R51). -/
def State.sealBufs (s : State) (vd : Nat) (bufs : List (Nat × Nat)) : State :=
  s.modVd vd (fun v => { v with seals := v.seals ++ bufs.map (fun b => { va := b.1, len := b.2, ending := false, readers := [] }) })

/-- Steps 8 to 11 of R56: the loaded state, or the status of the first that fails. `choice` gives the address and frame of every
allocated section, and then frames for page-table nodes. -/
def State.loadImage (s : State) (vd : Nat) (f : List Byte) (choice : List Nat) : Except Nat State :=
  let xs := allocated (lofSections f)
  let ps := placeOf xs choice
  let pages := ps.flatMap (fun p => sectPages p.2.1.type p.2.2.1 p.2.2.2 p.2.1.size)
  let nodes := choice.drop (2 * xs.length)
  let frames := (pages.map (fun g => g.2.1)).eraseDups ++ nodes
  if choice.length < 2 * xs.length || !ps.all (fun p => s.placeOk vd (lofFlags f / 4 % 2 = 1) p) || pagesClash pages
      || !nodes.all (fun n => n % 4096 = 0 && s.owned vd n) || !decide frames.Nodup || frames.any (fun n => s.framesHeld.contains n) then .error 12
  else
    match linkImage f ps (s.vd vd).seals.length with
    | .error e => .error e
    | .ok l =>
      match (s.writeSects ps l.cont).mapAll (s.vd vd).ptRoot.toNat pages.eraseDups nodes with
      | none => .error 12
      | some t =>
        let img : Image := { id := (t.vd vd).images.foldl (fun m i => max m i.id) 0 + 1, descs := l.descs, texts := l.texts,
                             spans := pages.eraseDups.map (fun g => (g.1, 4096)), frames := frames }
        .ok ((t.sealBufs vd l.bufs).modVd vd (fun v => { v with images := v.images ++ [img] }))

/-- A loader reports its status (R56). -/
def State.report (s : State) (status : Nat) : State := { s with loadStatus := status }

/-- DRIVER_IMAGE_LOAD (R56): on any failure nothing of the attempt stays but the status. -/
def execDriverImageLoad (vd : Nat) (file : List Byte) (place : List Nat) (s : State) : Out :=
  let v := s.vd vd
  if !v.enabled then .next s
  else
    match checkImage false v.keys v.cfg.signed s.stepping file with
    | 0 =>
      (match s.loadImage vd file place with
      | .ok t => .next (t.report 0)
      | .error e => .next (s.report e))
    | e => .next (s.report e)

/-- A grid launched from one of an image's descriptors is admitted or running (R57). -/
def State.imageBusy (s : State) (vd : Nat) (i : Image) : Bool :=
  s.grids.any (fun e => e.1 / 2 ^ 32 = vd && (e.2.st = .admitted || e.2.st = .running) && i.descs.contains e.2.desc)

/-- IMAGE_UNLOAD (R57): refused with BUSY while a grid of the image is live; otherwise its pages are unmapped. -/
def execImageUnload (vd image : Nat) (s : State) : Out :=
  match (s.vd vd).images.find? (fun i => i.id = image) with
  | none => .next s
  | some i =>
    if s.imageBusy vd i then .next (s.report 14)
    else
      let t := i.spans.foldl (fun (t : State) g =>
        let t := match t.level1At vd g.1 with
          | some a =>
            let e := t.nodeEntry 0 a
            if e.getLsbD 0 && !e.getLsbD 1 then t.writeMem (pteAddr e + g.1 / 4096 % 512 * 8) (List.replicate 8 0) else t
          | none => t
        t.dropXlate vd g.1 g.2) s
      .next ((t.report 0).modVd vd (fun v =>
        { v with images := v.images.filter (fun x => x.id != image),
                 seals := v.seals.filter (fun x => !i.spans.any (fun g => g.1 ≤ x.va && x.va < g.1 + g.2)) }))

/-! Firmware and boot (R55, R462). -/

/-- Extend a measurement register with an image's digest. -/
def State.extend (s : State) (n : Nat) (f : List Byte) : State :=
  let bytes (v : BitVec 512) : List Byte := (leBytes 64 v.toNat).reverse
  let old : BitVec 512 := tget 0 s.measure n
  { s with measure := tput s.measure n (Config.sha512 (bytes old ++ bytes (Config.sha512 f))) }

/-- The public keys that the firmware loader trusts: their identifiers are fused and not revoked. -/
def State.trusted (s : State) : List (List Byte) := s.keys.filter (fun k => s.fuseKeys.any (fun e => e.1 = keyId k && !e.2))

/-- The number under which State keeps the context of the management cores: no virtual device has it (log entry 38). -/
def firmVd : Nat := 64

/-- The pages of the firmware are those of `m`, and it has sealed nothing. -/
def State.mapFirmware (s : State) (m : Tab Nat) : State := { s with firmMap := m }.modVd firmVd (fun v => { v with seals := [] })

/-- Steps 8 to 11 of R56 by the firmware loader: every section stands at its address, relocated, with the attributes of R38, and its
buffers are sealed. What the firmware before it had mapped and sealed is so no more. -/
def State.placeFirmware (s : State) (f : List Byte) : Except Nat State :=
  let ps := (allocated (lofSections f)).map (fun e => (e.1, e.2, e.2.addr, e.2.addr))
  let pages := ps.flatMap (fun p => sectPages p.2.1.type p.2.2.1 p.2.2.2 p.2.1.size)
  if !ps.all (fun p => s.firmPlaceOk p.2.1) || pagesClash pages then .error 12
  else
    match linkImage f ps 0 with
    | .error e => .error e
    | .ok l =>
      let m := pages.foldl (fun (m : Tab Nat) (g : Nat × Nat × Nat) => tput m (g.1 / 4096) g.2.2) []
      .ok (((s.writeSects ps l.cont).mapFirmware m).sealBufs firmVd l.bufs)

/-- The workgroup of the firmware that ran until now ends. -/
def State.endFirmware (s : State) : State :=
  ((s.wgs.filter (fun e => e.2.core = s.coreCount)).map (·.1)).foldl (fun (t : State) w => t.release w .killed) s

/-- The fibre in which a firmware program starts: one entry of 32 lanes at ENTRY, at DEVICE. -/
def firmwareFibre (f : List Byte) : Fibre :=
  let entry : W64 := BitVec.ofNat 64 (fieldAt f 0x20 8)
  let e : Entry := { Entry.empty with pc := entry, hdr := entry, mask := BitVec.allOnes 32 }
  { Fibre.empty with life := .running, priv := .device, launched := BitVec.allOnes 32, pregs := [(0, BitVec.allOnes 32)], frontier := [e] }

/-- The next workgroup number is taken. -/
def State.bumpWg (s : State) : State := { s with nextWg := s.nextWg + 1 }

/-- The running firmware image is noted. -/
def State.noteFirmware (s : State) (f : List Byte) : State := { s with firmware := some f }

/-- The firmware program starts at ENTRY on management core 0, at DEVICE (R31, R35; log entry 38). -/
def State.startFirmware (s : State) (f : List Byte) : State :=
  let t := s.endFirmware.dropIc s.coreCount
  let w := t.nextWg
  let g : Wg := { Wg.empty with life := .running, vd := firmVd, grid := 2 ^ 32 - 1, core := t.coreCount, threads := 32 }
  (((((t.bumpWg.setWg w g).setSlot (16 * w) { Slot.empty with active := true, stack := firstStack KDesc.empty 0 }).setFib (64 * w)
    (firmwareFibre f)).noteFirmware f).select (64 * w))

/-- Load a firmware image: its status, and the state in which it runs where the status is 0 (R55, R56). -/
def State.loadFirmware (s : State) (f : List Byte) : State :=
  match checkImage true s.trusted true s.stepping f with
  | 0 =>
    (match s.placeFirmware f with
    | .ok t => (t.startFirmware f).report 0
    | .error e => s.report e)
  | e => s.report e

/-- FIRMWARE_IMAGE_LOAD: the image is measured, accepted or not; the running firmware stays where it is refused. -/
def execFirmwareImageLoad (file : List Byte) (s : State) : Out := .next ((s.extend 1 file).loadFirmware file)

/-- POWER_ON_RESET (R10, R462): every register at its Reset value, the fuses, the host's memory and other packages' as they are; the ROM
loads and measures the first firmware image, which sets up the tables of R312. -/
def execPowerOnReset (image : List Byte) (s : State) : Out :=
  let r := { State.reset with
    agenda := s.agenda, evictions := s.evictions, free := s.free, dt := s.dt, redInU := s.redInU, feature := s.feature, hostMem := s.hostMem,
    peerMem := s.peerMem, clusterMap := s.clusterMap, fuseKeys := s.fuseKeys, keys := s.keys }
  let t := (r.extend 0 image).loadFirmware image
  .next (if t.firmware.isSome then { t with damask := { t.damask with ready := true } } else t)

end Sys2Proof.Machine
end

