-- ==== Sys2Proof/Machine/Mtx.lean ====
section
/-! DEFINITION. The matrix unit (R332 to R355): convergence registers and signatures, operand-buffer reservations, the
operation on the four quarter arrays, the words that reach the accumulators, and the copies of the operand buffer. -/

namespace Sys2Proof.Machine

/-- The quarter of a fibre (R21). -/
def State.quarterOf (s : State) (k : Nat) : Nat := (s.slot (slotOf k)).quarter % 4

/-- The workgroup has GANG set (R45, R332). -/
def State.isGang (s : State) (k : Nat) : Bool := (s.wg (wgOf k)).kd.flags.getLsbD 0

/-- The four fibres of a fibre's gang (R21). -/
def gangFibres (k : Nat) : List Nat :=
  (List.range 4).map (fun i => 64 * wgOf k + 4 * (4 * (slotIdx k / 4) + i) + fibIdx k)

def tileKey (q t i j : Nat) : Nat := (q * 8 + t) * 1024 + 32 * i + j
def chkKey (q t v i : Nat) : Nat := ((q * 8 + t) * 2 + v) * 32 + i

/-! Convergence registers and reservations. -/

/-- R333. -/
def execGdecl (f : FY) (s : State) : Out :=
  let k := s.cur
  let w := wgOf k
  let d := f.d.toNat
  let g := tget GReg.empty (s.wg w).gregs d
  let put (g : GReg) : State := s.modWg w (fun x => { x with gregs := tput x.gregs d g })
  if s.acts k f.hd = 0 then .next (s.finish k [])
  else if !s.isGang k then .next (s.trapHere k .illegalEncoding 0 0 0)
  else if s.pBadSrc k f.hd.gp.toNat then .next (s.trapHere k .poison 0 0 0)
  else if f.sub.getLsbD 0 then
    if g.gang != some (gangOf k) then .next (s.finish k [])
    else if !g.sigs.isEmpty then .next (s.trapHere k .illegalEncoding 0 0 0)
    else .next ((put { g with gang := none, signs := [], base := g.base + g.signs.foldl (fun m e => max m e.2) 0 }).finish k [])
  else
    match g.gang with
    | none => .next ((put { g with gang := some (gangOf k) }).finish k [])
    | some x => if x = gangOf k then .next (s.finish k []) else .next (s.trapHere k .illegalEncoding 0 0 0)

/-- The record that two scalars describe (R336). -/
def ORec.ofScalars (a b : W64) : ORec :=
  { off := (a.extractLsb' 0 13).toNat, size := (a.extractLsb' 13 14).toNat, ty := (a.extractLsb' 27 5).toNat,
    l32 := a.getLsbD 32, trans := a.getLsbD 33, rowb := (b.extractLsb' 0 16).toNat, scale := (b.extractLsb' 16 13).toNat,
    mExt := (b.extractLsb' 32 6).toNat, kExt := (b.extractLsb' 38 8).toNat, nExt := (b.extractLsb' 46 6).toNat }

/-- A block type, bfp2 to bfp8 (R73). -/
def blockTy (ty : Nat) : Bool := 20 ≤ ty && ty ≤ 26

/-- Every field of a record is inside its limits, and the reserved bits are 0 (R336, check 2). -/
def ORec.fieldsOk (r : ORec) (a b : W64) : Bool :=
  1 ≤ r.size && r.size ≤ 8192
    && (blockTy r.ty || r.ty = 8 || r.ty = 9 || r.ty = 12 || r.ty = 13 || r.ty = 0 || r.ty = 1)
    && (blockTy r.ty || !r.l32) && (!blockTy r.ty || !r.trans) && a.extractLsb' 34 30 = 0
    && 1 ≤ r.rowb && b.extractLsb' 29 3 = 0 && r.mExt ≤ 32 && r.nExt ≤ 32 && b.extractLsb' 52 12 = 0

/-- R336. -/
def execObres (f : FY) (s : State) : Out :=
  let k := s.cur
  let w := wgOf k
  let a := s.ssrc k f.a
  let b := s.ssrc k f.b
  let r := ORec.ofScalars a b
  if s.acts k f.hd = 0 then .next (s.finish k [])
  else if s.pBadSrc k f.hd.gp.toNat || s.sBadSrc k f.a || s.sBadSrc k f.b then .next (s.trapHere k .poison 0 0 0)
  else if (s.wg w).kd.ob / 64 < r.off + r.size then .next (s.trapHere k .protection 0 0 0)
  else if !r.fieldsOk a b then .next (s.trapHere k .illegalEncoding 0 0 0)
  else .next ((s.modWg w (fun x => { x with orecs := tput x.orecs f.d.toNat r })).issue k f.hd (mkPend .other [] true none))

/-- R337. -/
def execObrel (f : FY) (s : State) : Out :=
  let k := s.cur
  if s.acts k f.hd = 0 then .next (s.finish k [])
  else if s.pBadSrc k f.hd.gp.toNat then .next (s.trapHere k .poison 0 0 0)
  else .next ((s.modWg (wgOf k) (fun x => { x with orecs := tdel x.orecs f.d.toNat })).finish k [])

/-! The A slice (R338). -/

/-- K of a step and its array cycles C (R339). -/
def stepK (tya : Nat) : Nat := if tya = 8 || tya = 9 then 64 else 128
def stepC (tya : Nat) : Nat := if blockTy tya then tya - 18 else 8

/-- Mantissa bits of a block type, and its block length. -/
def ORec.m (r : ORec) : Nat := r.ty - 18
def ORec.l (r : ORec) : Nat := if r.l32 then 32 else 16

/-- Where an A element lies: its first byte, its bytes, the bit in the first byte, and its exponent's byte (R338). -/
structure ALoc where
  byte : Nat
  len  : Nat
  bit  : Nat
  exp  : Option Nat
  deriving DecidableEq, Repr

def ORec.loc (r : ORec) (oboff i k : Nat) : ALoc :=
  let base := 64 * (r.off + oboff)
  if blockTy r.ty then
    let bit := 8 * (base + i * r.rowb) + k * r.m
    { byte := bit / 8, len := (bit + r.m - 1) / 8 - bit / 8 + 1, bit := bit % 8,
      exp := some (64 * (r.off + r.scale) + i * (8 * r.rowb / (r.m * r.l)) + (512 * oboff / r.m + k) / r.l) }
  else
    let z := tyBytes r.ty
    { byte := if r.trans then base + k * r.rowb + i * z else base + i * r.rowb + k * z, len := z, bit := 0, exp := none }

/-- KV of R340, and the unmasked elements in order. -/
def ORec.kv (r : ORec) : Nat := min r.kExt (stepK r.ty)
def ORec.unmasked (r : ORec) : List (Nat × Nat) :=
  (List.range (min 32 r.mExt)).flatMap (fun i => (List.range r.kv).map (fun k => (i, k)))

/-- The first failure of an A element, with the operand-buffer offset of the byte concerned (R338). -/
def ORec.elemFault (r : ORec) (oboff : Nat) (x : Nat × Nat) : Option (Cause × Nat) :=
  let e := r.loc oboff x.1 x.2
  let lo := 64 * r.off
  let hi := 64 * (r.off + r.size)
  if e.byte < lo || hi < e.byte + e.len then some (.protection, if e.byte < lo then e.byte else max hi e.byte)
  else if e.len = 2 && !blockTy r.ty && e.byte % 2 = 1 then some (.misaligned, e.byte)
  else
    match e.exp with
    | some b => if b < lo || hi ≤ b then some (.protection, b) else none
    | none => none

/-- Check 6 of R342: the block alignment, then every unmasked element. -/
def ORec.sliceFault (r : ORec) (oboff : Nat) : Option (Cause × Nat) :=
  if blockTy r.ty && (8 * r.rowb % (r.m * r.l) != 0 || 512 * oboff % (r.m * r.l) != 0) then some (.misaligned, 0)
  else r.unmasked.findSome? (fun x => r.elemFault oboff x)

/-! Signing (R334, R342). -/

/-- A later signer whose word differs from the first signer's (R334). -/
def Sig.differs (x : Sig) (f : FX) : Bool :=
  x.acc != f.acc.toNat || x.tya != f.tya.toNat || x.tyb != f.tyb.toNat || x.ck != f.ck || x.clr != f.clr

/-- The B run of a signer, in all 32 lanes. -/
def State.captureB (s : State) (k bv : Nat) : Tab W32 :=
  (List.range 8).flatMap (fun t => lanes.map (fun l => (32 * t + l, s.vreg k (bv + t) l)))

/-- What an operation that issues now finds of writes in flight: of each sector that one of them writes, the bytes before it where the
operation reads the old ones (R341; log entry 4). -/
def State.obInFlight (s : State) (w : Nat) : List (Nat × List Byte) × State :=
  ((s.fibres.filter (fun e => wgOf e.1 = w)).flatMap (fun e => e.2.pend.flatMap (fun p => p.obOld))).foldl
    (fun (r : List (Nat × List Byte) × State) e =>
      let c := r.2.takeBit
      (if c.1 then r.1 ++ [e] else r.1, c.2)) ([], s)

/-- Give a signature; the fourth issues the operation. -/
def State.sign (s : State) (w g : Nat) (r : GReg) (x : Sig) : State :=
  let (old, s) := if (r.sigs.filter (fun y => y.op = x.op)).length = 3 then s.obInFlight w else ([], s)
  let all := r.sigs ++ [x]
  let mine := all.filter (fun y => y.op = x.op)
  let n := tget 0 r.signs x.quarter + 1
  s.modWg w (fun y =>
    if mine.length = 4 then
      { y with gregs := tput y.gregs g { r with signs := tput r.signs x.quarter n, sigs := all.filter (fun z => z.op != x.op) },
               issued := y.issued ++ [{ g := g, op := x.op, sigs := mine, old := old }] }
    else { y with gregs := tput y.gregs g { r with signs := tput r.signs x.quarter n, sigs := all } })

/-- R334, R342. -/
def execMma (f : FX) (s : State) : Out :=
  let k := s.cur
  let w := wgOf k
  let q := s.quarterOf k
  let gi := f.g.toNat
  let r := tget GReg.empty (s.wg w).gregs gi
  let bad (c : Cause) (a : Nat) : Out := .next (s.trapHere k c 0 (BitVec.ofNat 64 a) 0)
  if s.acts k f.hd = 0 then .next (s.finish k [])
  else if !s.isGang k || r.gang != some (gangOf k) then bad .illegalEncoding 0
  else if s.pBadSrc k f.hd.gp.toNat || s.runBad k (BitVec.allOnes 32) f.bv.toNat 8 then bad .poison 0
  else
    match tfind (s.wg w).orecs f.obh.toNat with
    | none => bad .illegalEncoding 0
    | some o =>
      let op := r.base + tget 0 r.signs q
      let gone := (gangFibres k).any (fun j => s.fibreDone j)
      if o.ty != f.tya.toNat then bad .illegalEncoding 0
      else if !gone && r.sigs.any (fun x => x.op = op && x.differs f) then bad .illegalEncoding 0
      else
        match o.sliceFault f.oboff.toNat with
        | some (c, a) => bad c a
        | none =>
          if gone then .next (s.issue k f.hd (mkPend .other [] true none))
          else
            let x : Sig := { op := op, quarter := q, fib := k, acc := f.acc.toNat, tya := f.tya.toNat, tyb := f.tyb.toNat, ck := f.ck,
                             clr := f.clr, oboff := f.oboff.toNat, orec := o, b := s.captureB k f.bv.toNat }
            .next ((s.sign w gi r x).issue k f.hd (mkPend (.mma w gi op) [] false none))

/-! The operation (R198, R199, R340). -/

/-- The exact value of an element of a tile (R198). -/
def mtxValue (ty v : Nat) : FV := if ty = 0 then FV.ofInt (sgn 8 v) else if ty = 1 then FV.ofInt (v % 256 : Nat) else (tyFmt ty).value v

/-- An A element as the array reads it; one whose bytes hold an uncorrectable error is NaN (R438). -/
def Wg.aValue (x : Wg) (r : ORec) (oboff i k : Nat) : FV :=
  let e := r.loc oboff i k
  let err (a n : Nat) : Bool := !x.obBad.isEmpty && (List.range n).any (fun j => tget false x.obBad (a + j))
  let raw := leNat (readTab x.ob e.byte e.len)
  match e.exp with
  | none => if err e.byte e.len then .nan else mtxValue r.ty raw
  | some b =>
    if err e.byte e.len || err b 1 then .nan
    else bfpValue r.m (raw / 2 ^ e.bit % 2 ^ r.m) (tget memDefault x.ob b).toNat

/-- Row k of B, from the run of the quarter that holds it (R339). -/
def bRow (sigs : List Sig) (tyb kk k : Nat) : List FV :=
  match sigs.find? (fun x => x.quarter = k / (kk / 4)) with
  | none => []
  | some x =>
    let o := k % (kk / 4)
    lanes.map (fun j =>
      if kk = 64 then mtxValue tyb ((tget 0 x.b (32 * (o / 2) + j)).toNat / 2 ^ (16 * (o % 2)) % 2 ^ 16)
      else mtxValue tyb ((tget 0 x.b (32 * (o / 4) + j)).toNat / 2 ^ (8 * (o % 4)) % 2 ^ 8))

/-- One chain of R198. -/
def chain (start : W32) (ps : List FV) : W32 := ps.foldl (fun a p => rne32 ((f32.value a.toNat).add false p)) start

/-- The items at even, or odd, positions. -/
def alternate {α : Type} : Bool → List α → List α
  | _, [] => []
  | true, a :: t => a :: alternate false t
  | false, _ :: t => alternate true t

/-- Some product of two unmasked factors has a NaN (R198, R199). -/
def nanIn (as bs : List (Option FV)) : Bool :=
  (List.zipWith (fun u v => match u, v with
    | some u, some v => u.isNan || v.isNan
    | _, _ => false) as bs).any id

/-- An accumulated element (R198): two chains and their sum; NaN where `nan` says so. -/
def accumulate (prior : W32) (nan : Bool) (ps : List FV) : W32 :=
  if nan || (f32.value prior.toNat).isNan then 0x7FC00000
  else add32 (chain prior (alternate true ps)) (chain 0 (alternate false ps))

def zeroFV : FV := .num false 0 0

/-- The exact sum of a list, rounded once (R340). -/
def exactSum (l : List FV) : FV := f32.value (rne32 (l.foldl (fun a b => a.add false b) zeroFV)).toNat

/-- R340 for one quarter: the new tile and checksum vectors. -/
def Wg.mmaQuarter (x : Wg) (s : Sig) (b : List (List FV)) : Wg :=
  let r := s.orec
  let q := s.quarter
  let t := s.acc
  let kk := stepK s.tya
  let a : List (List (Option FV)) := lanes.map (fun i => (List.range kk).map (fun k =>
    if r.mExt ≤ i || r.kv ≤ k then none else some (x.aValue r s.oboff i k)))
  let bm : List (List (Option FV)) := (List.range kk).map (fun k => (b.getD k []).mapIdx (fun j v => if r.kv ≤ k || r.nExt ≤ j then none else some v))
  let cols : List (List (Option FV)) := lanes.map (fun j => bm.map (fun row => row.getD j none))
  let prod (u v : Option FV) : FV := match u, v with
    | some u, some v => u.mul v
    | _, _ => zeroFV
  let prior (j : Nat) : W32 := if s.clr then 0 else if tget false x.tileBad j then 0x7FC00000 else tget 0 x.tiles j
  let tile := (a.mapIdx (fun i ar => cols.mapIdx (fun j bc =>
    (tileKey q t i j, accumulate (prior (tileKey q t i j)) (nanIn ar bc) (List.zipWith prod ar bc))))).flatMap id
  let pc (j : Nat) : W32 := if s.clr then 0 else if tget false x.chkBad j then 0x7FC00000 else tget 0 x.chks j
  let bSum := bm.map (fun row => exactSum (row.filterMap id))
  let aSum := (List.range kk).map (fun k => exactSum (a.filterMap (fun ar => ar.getD k none)))
  let chk :=
    if s.ck then
      (a.mapIdx (fun i ar => (chkKey q t 0 i, accumulate (pc (chkKey q t 0 i)) false (List.zipWith (fun u v => match u with | some u => u.mul v | none => zeroFV) ar bSum))))
        ++ (cols.mapIdx (fun j bc => (chkKey q t 1 j, accumulate (pc (chkKey q t 1 j)) false (List.zipWith (fun v u => match v with | some v => u.mul v | none => zeroFV) bc aSum))))
    else if s.clr then (List.range 64).map (fun i => (chkKey q t 0 0 + i, (0 : W32)))
    else []
  { x with tiles := tile.foldl (fun m e => tset 0 m e.1 e.2) x.tiles, tileBad := x.tileBad.filter (fun e => e.1 / 1024 != q * 8 + t),
           chks := chk.foldl (fun m e => tset 0 m e.1 e.2) x.chks,
           chkBad := if s.ck || s.clr then x.chkBad.filter (fun e => e.1 / 64 != q * 8 + t) else x.chkBad }

/-- The operand-buffer lines that an operation needs, once each (R343). -/
def MmaOp.lines (op : MmaOp) : List Nat :=
  (op.sigs.flatMap (fun s => s.orec.unmasked.flatMap (fun x =>
    let e := s.orec.loc s.oboff x.1 x.2
    (List.range e.len).map (fun j => (e.byte + j) / 64) ++ (match e.exp with
      | some b => [b / 64]
      | none => [])))).eraseDups

/-- Peak (R344). -/
def MmaOp.peak (op : MmaOp) : Nat :=
  let ls := op.lines
  (List.range 32).foldl (fun m b => max m ((ls.filter (fun l => l % 32 = b)).length)) 0

/-- Perform an issued operation: the four quarters, and the delay of its operand read, which `lent` cycles of other requests lengthen
(R340, R344, R345). -/
def Wg.perform (x : Wg) (op : MmaOp) (lent : Nat) : Wg :=
  match op.sigs with
  | [] => x
  | h :: _ =>
    let kk := stepK h.tya
    let b := (List.range kk).map (fun k => bRow op.sigs h.tyb kk k)
    let seen : Wg := { x with ob := op.old.foldl (fun t e => writeTab t (32 * e.1) e.2) x.ob }
    let y := op.sigs.foldl (fun (y : Wg) s => y.mmaQuarter s b) seen
    { y with ob := x.ob, obConf := y.obConf + BitVec.ofNat 64 (op.peak - 2 * stepC h.tya + lent), issued := y.issued.drop 1 }

/-- Other requests to the operand buffer of the core may wait while an operation reads it: another operation, or a load or store in flight. -/
def State.obBusy (s : State) (wg : Nat) : Bool :=
  let core := (s.wg wg).core
  1 < (s.wg wg).issued.length || s.wgs.any (fun e => e.1 != wg && e.2.core = core && !e.2.issued.isEmpty)
    || s.fibres.any (fun e => s.coreOf e.1 = core && e.2.pend.any (fun p => p.kind = .load || p.kind = .store))

/-- The bank cycles that other requests take of an operation's read, one in four at most: which number of them is not defined (R344; log
entry 70). -/
def State.lentCycles (s : State) (wg : Nat) (op : MmaOp) : Nat × State :=
  if !s.obBusy wg then (0, s)
  else
    let c := s.takeW32
    (c.1.toNat % (max op.peak (2 * stepC ((op.sigs.map (fun x => x.tya)).headD 8)) / 3 + 1), c.2)

/-- MMA_OPERATION: the oldest issued operation of the workgroup, which signed register g, runs on the arrays (R340, R341). -/
def execMmaOperation (wg g : Nat) (s : State) : Out :=
  match (s.wg wg).issued with
  | [] => .next s
  | op :: _ =>
    if op.g != g then .next s
    else
      let c := s.lentCycles wg op
      .next (op.sigs.foldl (fun s x => s.signed wg g x) (c.2.modWg wg (fun x => x.perform op c.1)))

/-! Words that reach the accumulators (R346 to R350). -/

/-- R349. -/
def execAclr (f : FX) (s : State) : Out :=
  let k := s.cur
  let n := s.quarterOf k * 8 + f.acc.toNat
  if s.acts k f.hd = 0 then .next (s.finish k [])
  else if !s.isGang k then .next (s.trapHere k .illegalEncoding 0 0 0)
  else if s.pBadSrc k f.hd.gp.toNat then .next (s.trapHere k .poison 0 0 0)
  else .next ((s.modWg (wgOf k) (fun x => { x with
    tiles := x.tiles.filter (fun e => e.1 / 1024 != n), tileBad := x.tileBad.filter (fun e => e.1 / 1024 != n),
    chks := x.chks.filter (fun e => e.1 / 64 != n), chkBad := x.chkBad.filter (fun e => e.1 / 64 != n) })).finish k [])

/-- The column group c of a readout word. -/
def FX.col (f : FX) : Nat := 8 * (f.oboff.toNat % 4)

/-- The elements that a readout word moves in a row, as tile elements (false) or checksum elements (true) with their keys (R348). -/
def rowKeys (f : FX) (q i : Nat) : List (Bool × Nat) :=
  if f.ck then [(true, chkKey q f.acc.toNat 0 i), (true, chkKey q f.acc.toNat 1 i)]
  else (List.range 8).map (fun t => (false, tileKey q f.acc.toNat i (FX.col f + t)))

def Wg.accVal (x : Wg) (e : Bool × Nat) : W32 := if e.1 then tget 0 x.chks e.2 else tget 0 x.tiles e.2
def Wg.accBad (x : Wg) (e : Bool × Nat) : Bool := if e.1 then tget false x.chkBad e.2 else tget false x.tileBad e.2

/-- Finish a long-latency readout word whose v results are `res`, with the lanes that read an element in error (R346): a helper
lane among them receives 0 (R277). -/
def State.readout (s : State) (k : Nat) (f : FX) (acts : LaneMask) (bad : Nat → Bool) (res : Nat → List W32) : State :=
  let x := s.fib k
  let ws := (lanesOf acts).flatMap (fun l => (res l).mapIdx (fun t v => s.vw k (f.bv.toNat + t) l (if bad l then 0 else v)))
  match s.shadowFilter k ws with
  | (some i, _) => s.trapHere k .dmrMismatch i 0 0
  | (none, ws) =>
    s.issue k f.hd (mkPend .other ws true (((lanesOf acts).find? (fun l => bad l && !x.helper.getLsbD l)).map (fun l => (l, 0))))

/-- R349. -/
def execAget (f : FX) (s : State) : Out :=
  let k := s.cur
  let q := s.quarterOf k
  let x := s.wg (wgOf k)
  let acts := s.acts k f.hd
  if acts = 0 then .next (s.finish k [])
  else if !s.isGang k then .next (s.trapHere k .illegalEncoding 0 0 0)
  else if s.pBadSrc k f.hd.gp.toNat then .next (s.trapHere k .poison 0 0 0)
  else .next (s.readout k f acts (fun i => (rowKeys f q i).any x.accBad) (fun i => (rowKeys f q i).map x.accVal))

/-- Write elements of a quarter's accumulators, which sets their parity right (R346). -/
def Wg.accWrite (x : Wg) (es : List ((Bool × Nat) × W32)) : Wg :=
  es.foldl (fun (x : Wg) e =>
    if e.1.1 then { x with chks := tset 0 x.chks e.1.2 e.2, chkBad := tdel x.chkBad e.1.2 }
    else { x with tiles := tset 0 x.tiles e.1.2 e.2, tileBad := tdel x.tileBad e.1.2 }) x

/-- R349. -/
def execAput (f : FX) (s : State) : Out :=
  let k := s.cur
  let q := s.quarterOf k
  let acts := s.acts k f.hd
  if acts = 0 then .next (s.finish k [])
  else if !s.isGang k then .next (s.trapHere k .illegalEncoding 0 0 0)
  else if s.pBadSrc k f.hd.gp.toNat || s.runBad k acts f.bv.toNat (if f.ck then 2 else 8) then .next (s.trapHere k .poison 0 0 0)
  else
    let es := (lanesOf acts).flatMap (fun i => (rowKeys f q i).mapIdx (fun t e => (e, s.vreg k (f.bv.toNat + t) i)))
    .next ((s.modWg (wgOf k) (fun x => x.accWrite es)).issue k f.hd (mkPend .other [] true none))

/-- The entries that `aout` pushes (R349): lane i of an entry holds row i. -/
def Wg.outEntries (x : Wg) (f : FX) (q : Nat) : List (Tab W32) :=
  (List.range (if f.ck then 2 else 8)).map (fun t =>
    lanes.foldl (fun m i => tset 0 m i (x.accVal ((rowKeys f q i).getD t (false, 0)))) [])

/-- R349, R350. -/
def execAout (f : FX) (s : State) : Out :=
  let k := s.cur
  let q := s.quarterOf k
  let x := s.wg (wgOf k)
  let acts := s.acts k f.hd
  if acts = 0 then .next (s.finish k [])
  else if !s.isGang k then .next (s.trapHere k .illegalEncoding 0 0 0)
  else if s.onlyHelpers k acts then .next (s.finish k [])
  else if s.pBadSrc k f.hd.gp.toNat then .next (s.trapHere k .poison 0 0 0)
  else if lanes.any (fun i => (rowKeys f q i).any x.accBad) then .next (s.issue k f.hd (mkPend .other [] true (some (0, 0))))
  else
    .next ((s.modWg (wgOf k) (fun x => { x with readout := tput x.readout q (tget [] x.readout q ++ x.outEntries f q) })).issue k f.hd
      (mkPend .other [] true none))

/-- Σ in ascending order from +0.0, each addition rounded (R349). -/
def runSum (l : List W32) : W32 := l.foldl add32 0

/-- Rne32(a − b). -/
def sub32 (a b : W32) : W32 := rne32 ((f32.value a.toNat).add false ((f32.value b.toNat).negate))

/-- R349. -/
def execAckr (f : FX) (s : State) : Out :=
  let k := s.cur
  let q := s.quarterOf k
  let x := s.wg (wgOf k)
  let t := f.acc.toNat
  let acts := s.acts k f.hd
  let row (i : Nat) : List Nat := lanes.map (fun j => tileKey q t i j)
  let col (j : Nat) : List Nat := lanes.map (fun i => tileKey q t i j)
  if acts = 0 then .next (s.finish k [])
  else if !s.isGang k then .next (s.trapHere k .illegalEncoding 0 0 0)
  else if s.pBadSrc k f.hd.gp.toNat then .next (s.trapHere k .poison 0 0 0)
  else
    .next (s.readout k f acts
      (fun i => tget false x.chkBad (chkKey q t 0 i) || tget false x.chkBad (chkKey q t 1 i) || (row i ++ col i).any (fun e => tget false x.tileBad e))
      (fun i => [sub32 (tget 0 x.chks (chkKey q t 0 i)) (runSum ((row i).map (fun e => tget 0 x.tiles e))),
                 sub32 (tget 0 x.chks (chkKey q t 1 i)) (runSum ((col i).map (fun e => tget 0 x.tiles e)))]))

/-! Copies of the operand buffer (R352). -/

/-- The two ends of each lane's copy, operand buffer and global memory, or the first fault in lane order, with whether it is a fault
of `obst`'s write of global memory (R276, R352, R426; log entry 43). -/
def State.obPlan (s : State) (k : Nat) (f : FM) (load : Bool) : List Nat → Except ((XErr × Nat × W64) × Bool) (List (Acc × Acc))
  | [] => .ok []
  | l :: t =>
    let n := 16 * 2 ^ f.cnt.toNat
    let o := (s.vreg k f.d.toNat l).setWidth 64
    let one (sp : Nat) (ak : AK) (a : W64) := s.planAll k sp ak (fun _ => false) [{ lane := l, e := 0, addr := a, len := n, al := 16 }]
    match one 2 (if load then .wr else .rd) o, one 0 (if load then .rd else .wr) (s.laneAddr k f l) with
    | .ok [a], .ok [b] =>
      (match s.obPlan k f load t with
      | .error e => .error e
      | .ok as => .ok ((a, b) :: as))
    | .error e, _ => .error (e, false)
    | _, .error e => .error (e, !load)
    | _, _ => .ok []

/-- The soft errors of a copy's registers. -/
def State.obBadSrc (s : State) (k : Nat) (f : FM) (acts : LaneMask) : Bool := s.memBadSrc k f acts || s.runBad k acts f.d.toNat 1

/-- R352: a load-kind word into the operand buffer. -/
def execObld (f : FM) (s : State) : Out :=
  let k := s.cur
  let acts := s.acts k f.hd
  if acts = 0 then .next (s.finish k [])
  else if s.obBadSrc k f acts then .next (s.trapHere k .poison 0 0 0)
  else
    match s.obPlan k f true (lanesOf (s.storeLanes k acts)) with
    | .error ((e, l, a), w) => .next (s.accessFault k e l a w)
    | .ok as =>
      let s := s.reach k 0 (as.map (·.2))
      let r := s.readAccs k f.scope.toNat (fun _ => false) (as.map (·.2))
      match firstBad r.1 with
      | some b => .next (r.2.issue k f.hd (mkPend .load [] true (some b)))
      | none => .next ((r.2.storeAccs k 0 (List.zipWith (fun (a : Acc × Acc) (g : Got) => (a.1, g.data)) as r.1)).issue k f.hd
        (s.stored k .load (as.map (·.1))))

/-- R352; an operand-buffer byte in error raises POISON (R438). -/
def execObst (f : FM) (s : State) : Out :=
  let k := s.cur
  let acts := s.acts k f.hd
  let n := 16 * 2 ^ f.cnt.toNat
  if acts = 0 then .next (s.finish k [])
  else if s.obBadSrc k f acts then .next (s.trapHere k .poison 0 0 0)
  else
    match s.dmrLanes k acts (fun l => (s.laneAddr k f l).toNat :: ((readTab (s.wg (wgOf k)).ob (s.vreg k f.d.toNat l).toNat n).map BitVec.toNat)) with
    | some i => .next (s.trapHere k .dmrMismatch i 0 0)
    | none =>
      match s.obPlan k f false (lanesOf (s.storeLanes k acts)) with
      | .error ((e, l, a), w) => .next (s.accessFault k e l a w)
      | .ok as =>
        let r := s.readAccs k 0 (fun _ => false) (as.map (·.1))
        match firstBad r.1 with
        | some b => .next (s.issue k f.hd (mkPend .store [] true (some b)))
        | none =>
          let t := s.reach k 0 (as.map (·.2))
          .next ((t.storeAccs k f.scope.toNat (List.zipWith (fun (a : Acc × Acc) (g : Got) => (a.2, g.data)) as r.1)).issue k f.hd (mkPend .store [] true none))

end Sys2Proof.Machine
end

