-- ==== Sys2Proof/Machine/Pair.lean ====
section
/-! DEFINITION. The pair words (R81 to R84, R233). -/

namespace Sys2Proof.Machine

/-- The type code of a VTY (R82). -/
def pairTy (v : Nat) : Nat :=
  match v with
  | 0 => 4 | 1 => 5 | 2 => 10 | 3 => 14 | 4 => 15 | 5 => 18 | _ => 19

/-- The vector half's operation (R82), with MODE 0 and no modifiers. -/
def pairVec (vop ty a b : Nat) : Nat :=
  match vop with
  | 0 => aluInt .add ty false a b 0
  | 1 => aluInt .sub ty false a b 0
  | 2 => aluInt .mul ty false a b 0
  | 3 => aluInt .min ty false a b 0
  | 4 => aluInt .max ty false a b 0
  | 5 => Nat.land a b
  | 6 => Nat.lor a b
  | 7 => Nat.xor a b
  | 8 => aluShift .shl ty a b
  | 9 => aluShift .shr ty a b
  | 10 => aluShift .sra ty a b
  | 11 => a
  | 12 => aluFlt .add ty 0 0 a b
  | 13 => aluFlt .sub ty 0 0 a b
  | 14 => aluFlt .mul ty 0 0 a b
  | 15 => aluFlt .min ty 0 0 a b
  | _ => aluFlt .max ty 0 0 a b

/-- The scalar half's value on 64 bits (R83); `smovi12` takes SIMM12. -/
def pairSca (sop : Nat) (simm : BitVec 12) (a b : W64) : W64 :=
  match sop with
  | 0 => a + b
  | 1 => a - b
  | 2 => a * b
  | 3 => a &&& b
  | 4 => a ||| b
  | 5 => a ^^^ b
  | 6 => BitVec.ofNat 64 (shift1 .shl 64 a.toNat b.toNat)
  | 7 => BitVec.ofNat 64 (shift1 .shr 64 a.toNat b.toNat)
  | 8 => if a.slt b then a else b
  | 9 => if a.slt b then b else a
  | 10 => a
  | _ => simm.signExtend 64

/-- R84, R233: both halves read their sources under the old guard; then the vector half writes per lane, and the scalar half
writes its register, or for `scmp` a predicate in each acting lane. -/
def execPair (f : FP) (s : State) : Out :=
  let k := s.cur
  let acts := s.guard k f.gn f.gp
  let ty := pairTy f.vty.toNat
  let sop := f.sop.toNat
  let srcs : List (BitVec 6) := if sop = 11 then [] else if sop = 10 then [f.sa] else [f.sa, f.sb]
  if acts = 0 then .next (s.finish k [])
  else if s.pBadSrc k f.gp.toNat || srcs.any (fun x => s.sBadSrc k x)
      || s.stackPoison k (s.srcEntries k acts f.va.toNat 1 ++ (if f.vop = 11 then [] else s.srcEntries k acts f.vb.toNat 1)) then
    .next (s.trapHere k .poison 0 0 0)
  else
    let vws := s.vecWrites k f.vd.toNat false false acts (fun l =>
      pairVec f.vop.toNat ty (s.vreg k f.va.toNat l).toNat (s.vreg k f.vb.toNat l).toNat)
    let a := s.ssrc k f.sa
    let b := s.ssrc k f.sb
    if sop = 12 then
      match s.shadowFilter k vws with
      | (some i, _) => .next (s.trapHere k .dmrMismatch i 0 0)
      | (none, ws) =>
        let t := icond f.simm.toNat a.toInt b.toInt
        let old := (s.fib k).preg f.sd.toNat
        .next (((s.modFib k (fun x => x.setPreg f.sd.toNat acts (if t then acts else 0))).supersedePred k f.sd.toNat acts).finishWith k ws
          [(f.sd.toNat % 8, acts, old)])
    else .next (s.vfinish k (vws ++ [.sreg f.sd.toNat (pairSca sop f.simm a b)]))

end Sys2Proof.Machine
end

