-- ==== Sys2Proof/Machine/Sca.lean ====
section
/-! DEFINITION. The sca class (R205 to R208, R210 to R214, R218 to R220). -/

namespace Sys2Proof.Machine

/-- R205, R210. -/
def execSadd (f : V3) (s : State) : Out :=
  let k := s.cur
  let ty := scaTy f.ty
  .next (s.scaOp k f.hd f.d (f.a :: bSrc f) (scaResult ty (aluInt .add ty (f.mode = 1) (s.ssrc k f.a).toNat (s.scaB k f.b f.bsel).toNat 0)))

/-- R205, R210. -/
def execSsub (f : V3) (s : State) : Out :=
  let k := s.cur
  let ty := scaTy f.ty
  .next (s.scaOp k f.hd f.d (f.a :: bSrc f) (scaResult ty (aluInt .sub ty (f.mode = 1) (s.ssrc k f.a).toNat (s.scaB k f.b f.bsel).toNat 0)))

/-- R205, R210. -/
def execSmul (f : V3) (s : State) : Out :=
  let k := s.cur
  let ty := scaTy f.ty
  .next (s.scaOp k f.hd f.d (f.a :: bSrc f) (scaResult ty (aluInt .mul ty (f.mode = 1) (s.ssrc k f.a).toNat (s.scaB k f.b f.bsel).toNat 0)))

/-- R205, R210. -/
def execSmulh (f : V3) (s : State) : Out :=
  let k := s.cur
  let ty := scaTy f.ty
  .next (s.scaOp k f.hd f.d (f.a :: bSrc f) (scaResult ty (aluInt .mulh ty false (s.ssrc k f.a).toNat (s.scaB k f.b f.bsel).toNat 0)))

/-- R205, R210. -/
def execSmin (f : V3) (s : State) : Out :=
  let k := s.cur
  let ty := scaTy f.ty
  .next (s.scaOp k f.hd f.d (f.a :: bSrc f) (scaResult ty (aluInt .min ty false (s.ssrc k f.a).toNat (s.scaB k f.b f.bsel).toNat 0)))

/-- R205, R210. -/
def execSmax (f : V3) (s : State) : Out :=
  let k := s.cur
  let ty := scaTy f.ty
  .next (s.scaOp k f.hd f.d (f.a :: bSrc f) (scaResult ty (aluInt .max ty false (s.ssrc k f.a).toNat (s.scaB k f.b f.bsel).toNat 0)))

/-- R205, R210. -/
def execSmad (f : V3) (s : State) : Out :=
  let k := s.cur
  let ty := scaTy f.ty
  .next (s.scaOp k f.hd f.d (f.a :: f.c :: bSrc f) (scaResult ty (aluInt .mad ty (f.mode = 1) (s.ssrc k f.a).toNat (s.scaB k f.b f.bsel).toNat (s.ssrc k f.c).toNat)))

/-- R205, R210. -/
def execSabs (f : V3) (s : State) : Out :=
  let k := s.cur
  let ty := scaTy f.ty
  .next (s.scaOp k f.hd f.d ([f.a]) (scaResult ty (aluInt .abs ty (f.mode = 1) (s.ssrc k f.a).toNat 0 0)))

/-- R205, R211. -/
def execSand (f : V3) (s : State) : Out :=
  let k := s.cur
  let ty := scaTy f.ty
  .next (s.scaOp k f.hd f.d (f.a :: bSrc f) (scaResult ty (Nat.land (s.ssrc k f.a).toNat (s.scaB k f.b f.bsel).toNat)))

/-- R205, R211. -/
def execSor (f : V3) (s : State) : Out :=
  let k := s.cur
  let ty := scaTy f.ty
  .next (s.scaOp k f.hd f.d (f.a :: bSrc f) (scaResult ty (Nat.lor (s.ssrc k f.a).toNat (s.scaB k f.b f.bsel).toNat)))

/-- R205, R211. -/
def execSxor (f : V3) (s : State) : Out :=
  let k := s.cur
  let ty := scaTy f.ty
  .next (s.scaOp k f.hd f.d (f.a :: bSrc f) (scaResult ty (Nat.xor (s.ssrc k f.a).toNat (s.scaB k f.b f.bsel).toNat)))

/-- R205, R211. -/
def execSnot (f : V3) (s : State) : Out :=
  let k := s.cur
  let ty := scaTy f.ty
  .next (s.scaOp k f.hd f.d ([f.a]) (scaResult ty (aluNot ty (s.ssrc k f.a).toNat)))

/-- R205, R212: the count is all 64 bits of B. -/
def execSshl (f : V3) (s : State) : Out :=
  let k := s.cur
  let ty := scaTy f.ty
  .next (s.scaOp k f.hd f.d (f.a :: bSrc f) (scaResult ty (shift1 .shl (tyBits ty) (s.ssrc k f.a).toNat (s.scaB k f.b f.bsel).toNat)))

/-- R205, R212: the count is all 64 bits of B. -/
def execSshr (f : V3) (s : State) : Out :=
  let k := s.cur
  let ty := scaTy f.ty
  .next (s.scaOp k f.hd f.d (f.a :: bSrc f) (scaResult ty (shift1 .shr (tyBits ty) (s.ssrc k f.a).toNat (s.scaB k f.b f.bsel).toNat)))

/-- R205, R212: the count is all 64 bits of B. -/
def execSsra (f : V3) (s : State) : Out :=
  let k := s.cur
  let ty := scaTy f.ty
  .next (s.scaOp k f.hd f.d (f.a :: bSrc f) (scaResult ty (shift1 .sra (tyBits ty) (s.ssrc k f.a).toNat (s.scaB k f.b f.bsel).toNat)))

/-- R205, R213: the control is the low 32 bits of B. -/
def execSbfe (f : V3) (s : State) : Out :=
  let k := s.cur
  let ty := scaTy f.ty
  .next (s.scaOp k f.hd f.d (f.a :: bSrc f) (scaResult ty (bfe ty (tyBits ty) (s.ssrc k f.a).toNat ((s.scaB k f.b f.bsel).toNat % 2 ^ 32))))

/-- R205, R213. -/
def execSbfi (f : V3) (s : State) : Out :=
  let k := s.cur
  let ty := scaTy f.ty
  .next (s.scaOp k f.hd f.d (f.a :: f.c :: bSrc f) (scaResult ty (bfi (tyBits ty) ((s.ssrc k f.a).toNat % 2 ^ tyBits ty) ((s.scaB k f.b f.bsel).toNat % 2 ^ 32) (s.ssrc k f.c).toNat)))

/-- R205, R214. -/
def execSpopc (f : V3) (s : State) : Out :=
  let k := s.cur
  let ty := scaTy f.ty
  .next (s.scaOp k f.hd f.d ([f.a]) (scaResult ty (popc (tyBits ty) (s.ssrc k f.a).toNat)))

/-- R205, R214. -/
def execSclz (f : V3) (s : State) : Out :=
  let k := s.cur
  let ty := scaTy f.ty
  .next (s.scaOp k f.hd f.d ([f.a]) (scaResult ty (clz (tyBits ty) (s.ssrc k f.a).toNat)))

/-- R205, R214. -/
def execSctz (f : V3) (s : State) : Out :=
  let k := s.cur
  let ty := scaTy f.ty
  .next (s.scaOp k f.hd f.d ([f.a]) (scaResult ty (ctz (tyBits ty) (s.ssrc k f.a).toNat)))

/-- R205, R218: compared once, the result is written to p(D) in each acting lane. -/
def execScmp (f : V3) (s : State) : Out :=
  let k := s.cur
  let ty := scaTy f.ty
  let t := icond f.md.toNat (ext ty (s.ssrc k f.a).toNat) (ext ty (s.scaB k f.b f.bsel).toNat)
  .next (s.predOp k f.hd f.d.toNat [] (f.a :: bSrc f) (fun _ => t))

/-- R219. -/
def execSsel (f : V3) (s : State) : Out :=
  let k := s.cur
  .next (s.scaOp k f.hd f.d (f.a :: f.c :: bSrc f) (if s.ssrc k f.c != 0 then s.ssrc k f.a else s.scaB k f.b f.bsel))

/-- R219. -/
def execSmov (f : V3) (s : State) : Out :=
  let k := s.cur
  .next (s.scaOp k f.hd f.d ([f.a]) (s.ssrc k f.a))

/-- R219: sign-extended for TY 0, i32 and i64, zero-extended for n32 and n64. -/
def execSmovi (f : VI) (s : State) : Out :=
  let ty := scaTy f.ty
  .next (s.scaOp s.cur (viHead f) f.d []
    (if tySigned ty then f.imm.signExtend 64 else f.imm.zeroExtend 64))

/-- R74: MODE 0 places IMM in the high half, MODE 1 in the low half; the other half comes from s(A). -/
def execSmovh (f : VI) (s : State) : Out :=
  let a := s.ssrc s.cur f.a
  .next (s.scaOp s.cur (viHead f) f.d [f.a]
    (if f.mode = 0 then f.imm ++ a.extractLsb' 0 32 else a.extractLsb' 32 32 ++ f.imm))

/-- R220: A names k0 to k63 directly. -/
def execSfromk (f : V3) (s : State) : Out :=
  .next (s.scaOp s.cur f.hd f.d [] (tget 0 (s.wg (wgOf s.cur)).kregs f.a.toNat))

/-- R220: lane B mod 32 of v(A), whatever its kind or activity. -/
def execSfromv (f : V3) (s : State) : Out :=
  let k := s.cur
  let ty := scaTy f.ty
  let l := (s.scaB k f.b f.bsel).toNat % 32
  if s.acts k f.hd != 0 && s.stackPoison k (s.srcEntries k (maskOf (fun i => i = l)) f.a.toNat (if ty64 ty then 2 else 1)) then
    .next (s.trapHere k .poison 0 0 0)
  else .next (s.scaOp k f.hd f.d (bSrc f) (scaResult ty (s.vval k ty f.a.toNat l)))

/-- R220: s(A) in each acting lane of v(D). -/
def execStov (f : V3) (s : State) : Out :=
  let k := s.cur
  let ty := scaTy f.ty
  let acts := s.acts k f.hd
  if acts = 0 then .next (s.finish k [])
  else if s.pBadSrc k f.hd.gp.toNat || s.sBadSrc k f.a then .next (s.trapHere k .poison 0 0 0)
  else .next (s.vfinish k (s.vecWrites k f.d.toNat (ty64 ty) false acts (fun _ => (s.ssrc k f.a).toNat % 2 ^ tyBits ty)))

end Sys2Proof.Machine
end

