-- ==== Sys2Proof/Machine/VecInt.lean ====
section
/-! DEFINITION. The integer, bitwise, select and move instructions of the vec class (R209 to R219). -/

namespace Sys2Proof.Machine

/-- R210. -/
def execVadd (f : V3) (s : State) : Out :=
  let k := s.cur
  let ty := f.ty.toNat
  .next (s.vecOp k f .val false (ty64 ty) (fun l => aluInt .add ty (f.mode = 1) (s.vval k ty f.a.toNat l) (s.vecB k ty f l) 0))

/-- R210. -/
def execVsub (f : V3) (s : State) : Out :=
  let k := s.cur
  let ty := f.ty.toNat
  .next (s.vecOp k f .val false (ty64 ty) (fun l => aluInt .sub ty (f.mode = 1) (s.vval k ty f.a.toNat l) (s.vecB k ty f l) 0))

/-- R210. -/
def execVmul (f : V3) (s : State) : Out :=
  let k := s.cur
  let ty := f.ty.toNat
  .next (s.vecOp k f .val false (ty64 ty) (fun l => aluInt .mul ty (f.mode = 1) (s.vval k ty f.a.toNat l) (s.vecB k ty f l) 0))

/-- R210. -/
def execVmulh (f : V3) (s : State) : Out :=
  let k := s.cur
  let ty := f.ty.toNat
  .next (s.vecOp k f .val false (ty64 ty) (fun l => aluInt .mulh ty false (s.vval k ty f.a.toNat l) (s.vecB k ty f l) 0))

/-- R210. -/
def execVmin (f : V3) (s : State) : Out :=
  let k := s.cur
  let ty := f.ty.toNat
  .next (s.vecOp k f .val false (ty64 ty) (fun l => aluInt .min ty false (s.vval k ty f.a.toNat l) (s.vecB k ty f l) 0))

/-- R210. -/
def execVmax (f : V3) (s : State) : Out :=
  let k := s.cur
  let ty := f.ty.toNat
  .next (s.vecOp k f .val false (ty64 ty) (fun l => aluInt .max ty false (s.vval k ty f.a.toNat l) (s.vecB k ty f l) 0))

/-- R210. -/
def execVmad (f : V3) (s : State) : Out :=
  let k := s.cur
  let ty := f.ty.toNat
  .next (s.vecOp k f .val true (ty64 ty) (fun l => aluInt .mad ty (f.mode = 1) (s.vval k ty f.a.toNat l) (s.vecB k ty f l) (s.vval k ty f.c.toNat l)))

/-- R210. -/
def execVabs (f : V3) (s : State) : Out :=
  let k := s.cur
  let ty := f.ty.toNat
  .next (s.vecOp k f .no false (ty64 ty) (fun l => aluInt .abs ty (f.mode = 1) (s.vval k ty f.a.toNat l) 0 0))

/-- R210. -/
def execVneg (f : V3) (s : State) : Out :=
  let k := s.cur
  let ty := f.ty.toNat
  .next (s.vecOp k f .no false (ty64 ty) (fun l => aluInt .neg ty (f.mode = 1) (s.vval k ty f.a.toNat l) 0 0))

/-- R211. -/
def execVand (f : V3) (s : State) : Out :=
  let k := s.cur
  let ty := f.ty.toNat
  .next (s.vecOp k f .val false (ty64 ty) (fun l => Nat.land (s.vval k ty f.a.toNat l) (s.vecB k ty f l)))

/-- R211. -/
def execVor (f : V3) (s : State) : Out :=
  let k := s.cur
  let ty := f.ty.toNat
  .next (s.vecOp k f .val false (ty64 ty) (fun l => Nat.lor (s.vval k ty f.a.toNat l) (s.vecB k ty f l)))

/-- R211. -/
def execVxor (f : V3) (s : State) : Out :=
  let k := s.cur
  let ty := f.ty.toNat
  .next (s.vecOp k f .val false (ty64 ty) (fun l => Nat.xor (s.vval k ty f.a.toNat l) (s.vecB k ty f l)))

/-- R211. -/
def execVnot (f : V3) (s : State) : Out :=
  let k := s.cur
  let ty := f.ty.toNat
  .next (s.vecOp k f .no false (ty64 ty) (fun l => aluNot ty (s.vval k ty f.a.toNat l)))

/-- R211. -/
def execVlop3 (f : V3) (s : State) : Out :=
  let k := s.cur
  let ty := f.ty.toNat
  .next (s.vecOp k f .val true (ty64 ty) (fun l => aluLop3 ty f.sub (s.vval k ty f.a.toNat l) (s.vecB k ty f l) (s.vval k ty f.c.toNat l)))

/-- R212. -/
def execVshl (f : V3) (s : State) : Out :=
  let k := s.cur
  let ty := f.ty.toNat
  .next (s.vecOp k f .cnt false (ty64 ty) (fun l => aluShift .shl ty (s.vval k ty f.a.toNat l) (s.vecCnt k ty f l)))

/-- R212. -/
def execVshr (f : V3) (s : State) : Out :=
  let k := s.cur
  let ty := f.ty.toNat
  .next (s.vecOp k f .cnt false (ty64 ty) (fun l => aluShift .shr ty (s.vval k ty f.a.toNat l) (s.vecCnt k ty f l)))

/-- R212. -/
def execVsra (f : V3) (s : State) : Out :=
  let k := s.cur
  let ty := f.ty.toNat
  .next (s.vecOp k f .cnt false (ty64 ty) (fun l => aluShift .sra ty (s.vval k ty f.a.toNat l) (s.vecCnt k ty f l)))

/-- R213. -/
def execVbfe (f : V3) (s : State) : Out :=
  let k := s.cur
  let ty := f.ty.toNat
  .next (s.vecOp k f .cnt false (ty64 ty) (fun l => bfe ty (tyBits ty) (s.vval k ty f.a.toNat l) (s.vecCnt k ty f l)))

/-- R213. -/
def execVbfi (f : V3) (s : State) : Out :=
  let k := s.cur
  let ty := f.ty.toNat
  .next (s.vecOp k f .cnt true (ty64 ty) (fun l => bfi (tyBits ty) (s.vval k ty f.a.toNat l) (s.vecCnt k ty f l) (s.vval k ty f.c.toNat l)))

/-- R214. -/
def execVpopc (f : V3) (s : State) : Out :=
  let k := s.cur
  let ty := f.ty.toNat
  .next (s.vecOp k f .no false (ty64 ty) (fun l => mapElems ty (fun j => popc (tyElem ty).1 (elem (tyElem ty).1 j (s.vval k ty f.a.toNat l)))))

/-- R214. -/
def execVclz (f : V3) (s : State) : Out :=
  let k := s.cur
  let ty := f.ty.toNat
  .next (s.vecOp k f .no false (ty64 ty) (fun l => mapElems ty (fun j => clz (tyElem ty).1 (elem (tyElem ty).1 j (s.vval k ty f.a.toNat l)))))

/-- R214. -/
def execVbrev (f : V3) (s : State) : Out :=
  let k := s.cur
  let ty := f.ty.toNat
  .next (s.vecOp k f .no false (ty64 ty) (fun l => brev (tyBits ty) (s.vval k ty f.a.toNat l)))

/-- R215. -/
def execVperm (f : V3) (s : State) : Out :=
  let k := s.cur
  let ty := f.ty.toNat
  .next (s.vecOp k f .val true (ty64 ty) (fun l => aluPerm (s.vval k ty f.a.toNat l) (s.vecB k ty f l) (s.vval k ty f.c.toNat l)))

/-- R216. -/
def execVdot4 (f : V3) (s : State) : Out :=
  let k := s.cur
  let ty := f.ty.toNat
  .next (s.vecOp k f .val true (ty64 ty) (fun l => aluDot4 ty (f.mode = 1) (s.vval k ty f.a.toNat l) (s.vecB k ty f l) (s.vval k ty f.c.toNat l)))

/-- R216. -/
def execVsad (f : V3) (s : State) : Out :=
  let k := s.cur
  let ty := f.ty.toNat
  .next (s.vecOp k f .val true (ty64 ty) (fun l => aluSad ty (f.mode = 1) (s.vval k ty f.a.toNat l) (s.vecB k ty f l) (s.vval k ty f.c.toNat l)))

/-- R217: B is read as the source type, i32 or f32. -/
def execVpack (f : V3) (s : State) : Out :=
  let k := s.cur
  let ty := f.ty.toNat
  .next (s.vecOp k f .val false (false) (fun l => aluPack ty f.mode.toNat (s.vval k ty f.a.toNat l) (s.vecB k (if tyFloat ty then 10 else 4) f l)))

/-- R217. -/
def execVunpack (f : V3) (s : State) : Out :=
  let k := s.cur
  let ty := f.ty.toNat
  .next (s.vecOp k f .no false (false) (fun l => aluUnpack ty f.sub.toNat (s.vval k ty f.a.toNat l)))

/-- R218. -/
def execVcmp (f : V3) (s : State) : Out :=
  let k := s.cur
  let ty := f.ty.toNat
  if s.acts k f.hd != 0 && s.vecPoison k f ty true .val false (s.acts k f.hd) then .next (s.trapHere k .poison 0 0 0)
  else
    .next (s.predOp k f.hd f.d.toNat [] [] (fun l =>
      icond f.md.toNat (ext ty (s.vval k ty f.a.toNat l)) (ext ty (s.vecB k ty f l))))

/-- R219. -/
def execVsel (f : V3) (s : State) : Out :=
  let k := s.cur
  let ty := f.ty.toNat
  if s.acts k f.hd != 0 && s.pBadSrc k f.c.toNat then .next (s.trapHere k .poison 0 0 0)
  else
    .next (s.vecOp k f .val false (ty64 ty) (fun l =>
      if ((s.fib k).preg f.c.toNat).getLsbD l then s.vval k ty f.a.toNat l else s.vecB k ty f l))

/-- R219. -/
def execVmov (f : V3) (s : State) : Out :=
  let k := s.cur
  let ty := f.ty.toNat
  .next (s.vecOp k f .no false (ty64 ty) (fun l => (s.vval k ty f.a.toNat l)))

/-- R219: lanes outside the acting lanes keep their value. -/
def execVmovi (f : VI) (s : State) : Out :=
  let k := s.cur
  let ty := f.ty.toNat
  let acts := s.guard k f.gn f.gp
  let v := if ty = 6 then (f.imm.signExtend 64).toNat else f.imm.toNat
  if acts = 0 then .next (s.finish k [])
  else if s.pBadSrc k f.gp.toNat then .next (s.trapHere k .poison 0 0 0)
  else .next (s.vfinish k (s.vecWrites k f.d.toNat (ty64 ty) false acts (fun _ => v)))

end Sys2Proof.Machine
end

