-- ==== Sys2Proof/Machine/Dispatch.lean ====
section
/-! DEFINITION. One arm per instruction and event: its meaning. -/

namespace Sys2Proof.Machine

def exec (i : Instr) (s : State) : Host.Outcome State Fault Refusal :=
  match i with
  | .nop f => Sys2Proof.Machine.execNop f s
  | .bra f => Sys2Proof.Machine.execBra f s
  | .brp f => Sys2Proof.Machine.execBrp f s
  | .brs f => Sys2Proof.Machine.execBrs f s
  | .brx f => Sys2Proof.Machine.execBrx f s
  | .call f => Sys2Proof.Machine.execCall f s
  | .callx f => Sys2Proof.Machine.execCallx f s
  | .ret f => Sys2Proof.Machine.execRet f s
  | .exit f => Sys2Proof.Machine.execExit f s
  | .wait f => Sys2Proof.Machine.execWait f s
  | .yield f => Sys2Proof.Machine.execYield f s
  | .fbar f => Sys2Proof.Machine.execFbar f s
  | .trap f => Sys2Proof.Machine.execTrap f s
  | .brkpt f => Sys2Proof.Machine.execBrkpt f s
  | .sadd f => Sys2Proof.Machine.execSadd f s
  | .ssub f => Sys2Proof.Machine.execSsub f s
  | .smul f => Sys2Proof.Machine.execSmul f s
  | .smulh f => Sys2Proof.Machine.execSmulh f s
  | .smad f => Sys2Proof.Machine.execSmad f s
  | .sabs f => Sys2Proof.Machine.execSabs f s
  | .smin f => Sys2Proof.Machine.execSmin f s
  | .smax f => Sys2Proof.Machine.execSmax f s
  | .sand f => Sys2Proof.Machine.execSand f s
  | .sor f => Sys2Proof.Machine.execSor f s
  | .sxor f => Sys2Proof.Machine.execSxor f s
  | .snot f => Sys2Proof.Machine.execSnot f s
  | .sshl f => Sys2Proof.Machine.execSshl f s
  | .sshr f => Sys2Proof.Machine.execSshr f s
  | .ssra f => Sys2Proof.Machine.execSsra f s
  | .sbfe f => Sys2Proof.Machine.execSbfe f s
  | .sbfi f => Sys2Proof.Machine.execSbfi f s
  | .spopc f => Sys2Proof.Machine.execSpopc f s
  | .sclz f => Sys2Proof.Machine.execSclz f s
  | .sctz f => Sys2Proof.Machine.execSctz f s
  | .scmp f => Sys2Proof.Machine.execScmp f s
  | .ssel f => Sys2Proof.Machine.execSsel f s
  | .smov f => Sys2Proof.Machine.execSmov f s
  | .smovi f => Sys2Proof.Machine.execSmovi f s
  | .smovh f => Sys2Proof.Machine.execSmovh f s
  | .sfromk f => Sys2Proof.Machine.execSfromk f s
  | .sfromv f => Sys2Proof.Machine.execSfromv f s
  | .stov f => Sys2Proof.Machine.execStov f s
  | .vadd f => Sys2Proof.Machine.execVadd f s
  | .vsub f => Sys2Proof.Machine.execVsub f s
  | .vmul f => Sys2Proof.Machine.execVmul f s
  | .vmulh f => Sys2Proof.Machine.execVmulh f s
  | .vmad f => Sys2Proof.Machine.execVmad f s
  | .vabs f => Sys2Proof.Machine.execVabs f s
  | .vneg f => Sys2Proof.Machine.execVneg f s
  | .vmin f => Sys2Proof.Machine.execVmin f s
  | .vmax f => Sys2Proof.Machine.execVmax f s
  | .vand f => Sys2Proof.Machine.execVand f s
  | .vor f => Sys2Proof.Machine.execVor f s
  | .vxor f => Sys2Proof.Machine.execVxor f s
  | .vnot f => Sys2Proof.Machine.execVnot f s
  | .vlop3 f => Sys2Proof.Machine.execVlop3 f s
  | .vshl f => Sys2Proof.Machine.execVshl f s
  | .vshr f => Sys2Proof.Machine.execVshr f s
  | .vsra f => Sys2Proof.Machine.execVsra f s
  | .vbfe f => Sys2Proof.Machine.execVbfe f s
  | .vbfi f => Sys2Proof.Machine.execVbfi f s
  | .vpopc f => Sys2Proof.Machine.execVpopc f s
  | .vclz f => Sys2Proof.Machine.execVclz f s
  | .vbrev f => Sys2Proof.Machine.execVbrev f s
  | .vperm f => Sys2Proof.Machine.execVperm f s
  | .vdot4 f => Sys2Proof.Machine.execVdot4 f s
  | .vsad f => Sys2Proof.Machine.execVsad f s
  | .vpack f => Sys2Proof.Machine.execVpack f s
  | .vunpack f => Sys2Proof.Machine.execVunpack f s
  | .vcmp f => Sys2Proof.Machine.execVcmp f s
  | .vsel f => Sys2Proof.Machine.execVsel f s
  | .vmov f => Sys2Proof.Machine.execVmov f s
  | .vmovi f => Sys2Proof.Machine.execVmovi f s
  | .fadd f => Sys2Proof.Machine.execFadd f s
  | .fsub f => Sys2Proof.Machine.execFsub f s
  | .fmul f => Sys2Proof.Machine.execFmul f s
  | .fma f => Sys2Proof.Machine.execFma f s
  | .fmin f => Sys2Proof.Machine.execFmin f s
  | .fmax f => Sys2Proof.Machine.execFmax f s
  | .fcmp f => Sys2Proof.Machine.execFcmp f s
  | .fclass f => Sys2Proof.Machine.execFclass f s
  | .frcp f => Sys2Proof.Machine.execFrcp f s
  | .frsq f => Sys2Proof.Machine.execFrsq f s
  | .fsqrt f => Sys2Proof.Machine.execFsqrt f s
  | .fex2 f => Sys2Proof.Machine.execFex2 f s
  | .flg2 f => Sys2Proof.Machine.execFlg2 f s
  | .fsin f => Sys2Proof.Machine.execFsin f s
  | .fcos f => Sys2Proof.Machine.execFcos f s
  | .ftanh f => Sys2Proof.Machine.execFtanh f s
  | .frint f => Sys2Proof.Machine.execFrint f s
  | .fscale f => Sys2Proof.Machine.execFscale f s
  | .fsgn f => Sys2Proof.Machine.execFsgn f s
  | .fcvt f => Sys2Proof.Machine.execFcvt f s
  | .icvt f => Sys2Proof.Machine.execIcvt f s
  | .shfl f => Sys2Proof.Machine.execShfl f s
  | .qswp f => Sys2Proof.Machine.execQswp f s
  | .qbc f => Sys2Proof.Machine.execQbc f s
  | .vote f => Sys2Proof.Machine.execVote f s
  | .ballot f => Sys2Proof.Machine.execBallot f s
  | .vred f => Sys2Proof.Machine.execVred f s
  | .vscan f => Sys2Proof.Machine.execVscan f s
  | .pand f => Sys2Proof.Machine.execPand f s
  | .por f => Sys2Proof.Machine.execPor f s
  | .pxor f => Sys2Proof.Machine.execPxor f s
  | .pnot f => Sys2Proof.Machine.execPnot f s
  | .pmov f => Sys2Proof.Machine.execPmov f s
  | .pcnt f => Sys2Proof.Machine.execPcnt f s
  | .pair f => Sys2Proof.Machine.execPair f s
  | .ld f => Sys2Proof.Machine.execLd f s
  | .st f => Sys2Proof.Machine.execSt f s
  | .lds f => Sys2Proof.Machine.execLds f s
  | .sts f => Sys2Proof.Machine.execSts f s
  | .ldt f => Sys2Proof.Machine.execLdt f s
  | .stt f => Sys2Proof.Machine.execStt f s
  | .lrec f => Sys2Proof.Machine.execLrec f s
  | .prf f => Sys2Proof.Machine.execPrf f s
  | .cwb f => Sys2Proof.Machine.execCwb f s
  | .cinv f => Sys2Proof.Machine.execCinv f s
  | .seal f => Sys2Proof.Machine.execSeal f s
  | .unseal f => Sys2Proof.Machine.execUnseal f s
  | .lkl f => Sys2Proof.Machine.execLkl f s
  | .ulk f => Sys2Proof.Machine.execUlk f s
  | .atom f => Sys2Proof.Machine.execAtom f s
  | .atomx f => Sys2Proof.Machine.execAtomx f s
  | .red f => Sys2Proof.Machine.execRed f s
  | .gdef f => Sys2Proof.Machine.execGdef f s
  | .gadd f => Sys2Proof.Machine.execGadd f s
  | .gld f => Sys2Proof.Machine.execGld f s
  | .fence f => Sys2Proof.Machine.execFence f s
  | .gdecl f => Sys2Proof.Machine.execGdecl f s
  | .obres f => Sys2Proof.Machine.execObres f s
  | .obrel f => Sys2Proof.Machine.execObrel f s
  | .obld f => Sys2Proof.Machine.execObld f s
  | .obst f => Sys2Proof.Machine.execObst f s
  | .mma f => Sys2Proof.Machine.execMma f s
  | .aclr f => Sys2Proof.Machine.execAclr f s
  | .aget f => Sys2Proof.Machine.execAget f s
  | .aput f => Sys2Proof.Machine.execAput f s
  | .aout f => Sys2Proof.Machine.execAout f s
  | .ackr f => Sys2Proof.Machine.execAckr f s
  | .qpush f => Sys2Proof.Machine.execQpush f s
  | .qpop f => Sys2Proof.Machine.execQpop f s
  | .qstat f => Sys2Proof.Machine.execQstat f s
  | .qbind f => Sys2Proof.Machine.execQbind f s
  | .cpy f => Sys2Proof.Machine.execCpy f s
  | .cpym f => Sys2Proof.Machine.execCpym f s
  | .cpyr f => Sys2Proof.Machine.execCpyr f s
  | .coll f => Sys2Proof.Machine.execColl f s
  | .cadd f => Sys2Proof.Machine.execCadd f s
  | .cwait f => Sys2Proof.Machine.execCwait f s
  | .cread f => Sys2Proof.Machine.execCread f s
  | .cphase f => Sys2Proof.Machine.execCphase f s
  | .cbind f => Sys2Proof.Machine.execCbind f s
  | .cunbind f => Sys2Proof.Machine.execCunbind f s
  | .cset f => Sys2Proof.Machine.execCset f s
  | .launch f => Sys2Proof.Machine.execLaunch f s
  | .lstat f => Sys2Proof.Machine.execLstat f s
  | .rdsr f => Sys2Proof.Machine.execRdsr f s
  | .wrsr f => Sys2Proof.Machine.execWrsr f s
  | .tret f => Sys2Proof.Machine.execTret f s
  | .halt f => Sys2Proof.Machine.execHalt f s
  | .tlbi f => Sys2Proof.Machine.execTlbi f s
  | .bankmode f => Sys2Proof.Machine.execBankmode f s
  | .dmr f => Sys2Proof.Machine.execDmr f s
  | .scan f => Sys2Proof.Machine.execScan f s
  | .clauseEntry w => Sys2Proof.Machine.execClauseEntry w s
  | .longLatencyComplete fib idx part => Sys2Proof.Machine.execLongLatencyComplete fib idx part s
  | .cwaitComplete fib idx => Sys2Proof.Machine.execCwaitComplete fib idx s
  | .hostCwaitPoll fib idx => Sys2Proof.Machine.execHostCwaitPoll fib idx s
  | .slotPromotion slot => Sys2Proof.Machine.execSlotPromotion slot s
  | .slotExchange core quarter => Sys2Proof.Machine.execSlotExchange core quarter s
  | .longResidenceSwap core quarter => Sys2Proof.Machine.execLongResidenceSwap core quarter s
  | .spillCmdGo fib v => Sys2Proof.Machine.execSpillCmdGo fib v s
  | .workgroupPlacement cluster => Sys2Proof.Machine.execWorkgroupPlacement cluster s
  | .energyMeterInterval readings => Sys2Proof.Machine.execEnergyMeterInterval readings s
  | .powerClockStep milliwatts draw => Sys2Proof.Machine.execPowerClockStep milliwatts draw s
  | .sliceEnd core => Sys2Proof.Machine.execSliceEnd core s
  | .preemptTimeout core => Sys2Proof.Machine.execPreemptTimeout core s
  | .workgroupSave wg => Sys2Proof.Machine.execWorkgroupSave wg s
  | .workgroupRestore wg core => Sys2Proof.Machine.execWorkgroupRestore wg core s
  | .trapTake fib => Sys2Proof.Machine.execTrapTake fib s
  | .faultBatchServed fib ptes refused => Sys2Proof.Machine.execFaultBatchServed fib ptes refused s
  | .pageWalk core vd va => Sys2Proof.Machine.execPageWalk core vd va s
  | .pagePromotion vd va frame => Sys2Proof.Machine.execPagePromotion vd va frame s
  | .watchdogExpiry wg => Sys2Proof.Machine.execWatchdogExpiry wg s
  | .heartbeatLoss agent => Sys2Proof.Machine.execHeartbeatLoss agent s
  | .scanPassComplete core pass => Sys2Proof.Machine.execScanPassComplete core pass s
  | .unscannedCoreScan core => Sys2Proof.Machine.execUnscannedCoreScan core s
  | .scanReqWrite v => Sys2Proof.Machine.execScanReqWrite v s
  | .counterAddAddrWrite vd off size v => Sys2Proof.Machine.execCounterAddAddrWrite vd off size v s
  | .counterAddIncrement vd off size v => Sys2Proof.Machine.execCounterAddIncrement vd off size v s
  | .counterAddSetAndAdd vd off addr inc => Sys2Proof.Machine.execCounterAddSetAndAdd vd off addr inc s
  | .dropsRead vd => Sys2Proof.Machine.execDropsRead vd s
  | .functionEnable vd cfg => Sys2Proof.Machine.execFunctionEnable vd cfg s
  | .dispatchDescWrite vd v => Sys2Proof.Machine.execDispatchDescWrite vd v s
  | .bankDrainComplete cluster bank => Sys2Proof.Machine.execBankDrainComplete cluster bank s
  | .engineAccept cmd => Sys2Proof.Machine.execEngineAccept cmd s
  | .engineDeadline cmd => Sys2Proof.Machine.execEngineDeadline cmd s
  | .copyChunkDone cmd => Sys2Proof.Machine.execCopyChunkDone cmd s
  | .collectiveFoldDone cmd remote => Sys2Proof.Machine.execCollectiveFoldDone cmd remote s
  | .mmaOperation wg g => Sys2Proof.Machine.execMmaOperation wg g s
  | .gauzeDrainAck cluster line => Sys2Proof.Machine.execGauzeDrainAck cluster line s
  | .unitLoss u => Sys2Proof.Machine.execUnitLoss u s
  | .recoveryFlushEnd stack => Sys2Proof.Machine.execRecoveryFlushEnd stack s
  | .lineMove province => Sys2Proof.Machine.execLineMove province s
  | .patrolScrub line => Sys2Proof.Machine.execPatrolScrub line s
  | .dramRefresh stack channel => Sys2Proof.Machine.execDramRefresh stack channel s
  | .rowRepairGo fib v => Sys2Proof.Machine.execRowRepairGo fib v s
  | .memRetireBank fib v => Sys2Proof.Machine.execMemRetireBank fib v s
  | .memRetirePseudoChannel fib v => Sys2Proof.Machine.execMemRetirePseudoChannel fib v s
  | .memRetireChannel fib v => Sys2Proof.Machine.execMemRetireChannel fib v s
  | .memRetireStack fib v => Sys2Proof.Machine.execMemRetireStack fib v s
  | .memRetireProvince fib v => Sys2Proof.Machine.execMemRetireProvince fib v s
  | .memRetireStartPhase fib v => Sys2Proof.Machine.execMemRetireStartPhase fib v s
  | .memRetireBadKind fib v => Sys2Proof.Machine.execMemRetireBadKind fib v s
  | .memRetireStatusRead fib d => Sys2Proof.Machine.execMemRetireStatusRead fib d s
  | .memEventRead fib d => Sys2Proof.Machine.execMemEventRead fib d s
  | .xlateOutRead fib d => Sys2Proof.Machine.execXlateOutRead fib d s
  | .killCauseRead fib d => Sys2Proof.Machine.execKillCauseRead fib d s
  | .engFaultRead fib d => Sys2Proof.Machine.execEngFaultRead fib d s
  | .faultInjectTile fib v => Sys2Proof.Machine.execFaultInjectTile fib v s
  | .faultInjectChecksum fib v => Sys2Proof.Machine.execFaultInjectChecksum fib v s
  | .faultInjectRegister fib v => Sys2Proof.Machine.execFaultInjectRegister fib v s
  | .faultInjectScanFail fib v => Sys2Proof.Machine.execFaultInjectScanFail fib v s
  | .registerWrite fib num v => Sys2Proof.Machine.execRegisterWrite fib num v s
  | .twillPacketReceive port pkt => Sys2Proof.Machine.execTwillPacketReceive port pkt s
  | .twillCrcReplay port lane => Sys2Proof.Machine.execTwillCrcReplay port lane s
  | .twillPortLoss port => Sys2Proof.Machine.execTwillPortLoss port s
  | .hostMemoryAccess acc => Sys2Proof.Machine.execHostMemoryAccess acc s
  | .roceWorkRequest req => Sys2Proof.Machine.execRoceWorkRequest req s
  | .powerOnReset image => Sys2Proof.Machine.execPowerOnReset image s
  | .firmwareImageLoad file => Sys2Proof.Machine.execFirmwareImageLoad file s
  | .driverImageLoad vd file place => Sys2Proof.Machine.execDriverImageLoad vd file place s
  | .imageUnload vd image => Sys2Proof.Machine.execImageUnload vd image s
  | .challenge nonce => Sys2Proof.Machine.execChallenge nonce s
  | .akviaTelemetry item => Sys2Proof.Machine.execAkviaTelemetry item s
  | .nonInstructionEncoding w => Sys2Proof.Machine.execNonInstructionEncoding w s
  | .hostSpillMove fib => Sys2Proof.Machine.execHostSpillMove fib s
  | .functionDisable vd => Sys2Proof.Machine.execFunctionDisable vd s
  | .priorityInheritanceUpdate => Sys2Proof.Machine.execPriorityInheritanceUpdate s
  | .energyWindowOpen => Sys2Proof.Machine.execEnergyWindowOpen s
  | .scanRotation => Sys2Proof.Machine.execScanRotation s
  | .scanResultRead => Sys2Proof.Machine.execScanResultRead s
  | .phaseStart => Sys2Proof.Machine.execPhaseStart s
  | .rowRepairDone => Sys2Proof.Machine.execRowRepairDone s
  | .getVersion => Sys2Proof.Machine.execGetVersion s
  | .getCapabilities => Sys2Proof.Machine.execGetCapabilities s
  | .negotiateAlgorithms => Sys2Proof.Machine.execNegotiateAlgorithms s
  | .getCertificate => Sys2Proof.Machine.execGetCertificate s
  | .getMeasurements => Sys2Proof.Machine.execGetMeasurements s

end Sys2Proof.Machine
end

