-- ==== Sys2Proof/Machine/Ahead.lean ====
section
/-! DEFINITION. Run-ahead (R431): with FAULT_MODE 1 a fibre that a page fault freezes first issues its words on a hidden copy of the
machine, in which an unknown value is marked as a soft error is, and the pages that its loads miss join the batch. -/

namespace Sys2Proof.Machine

/-- What run-ahead makes of a word: it stops there, the word transfers control, it is a load, it is issued for its register results
alone, or it is passed over, its effects being ones that an agent can observe (log entry 44). -/
inductive AheadUse where
  | stop | turn | load | run | pass
  deriving DecidableEq, Repr

def AheadUse.of (i : Instr) : AheadUse :=
  match i with
  | .exit .. | .fbar .. | .cwait .. | .trap .. | .brkpt .. | .tret .. => .stop
  | .bra .. | .brp .. | .brs .. | .brx .. | .call .. | .callx .. | .ret .. => .turn
  | .ld .. | .lds .. | .ldt .. | .lrec .. | .gld .. | .cread .. => .load
  | .nop .. | .wait .. | .yield .. | .sadd .. | .ssub .. | .smul .. | .smulh .. | .smad .. | .sabs .. | .smin ..
  | .smax .. | .sand .. | .sor .. | .sxor .. | .snot .. | .sshl .. | .sshr .. | .ssra .. | .sbfe .. | .sbfi ..
  | .spopc .. | .sclz .. | .sctz .. | .scmp .. | .ssel .. | .smov .. | .smovi .. | .smovh .. | .sfromk ..
  | .sfromv .. | .stov .. | .vadd .. | .vsub .. | .vmul .. | .vmulh .. | .vmad .. | .vabs .. | .vneg .. | .vmin ..
  | .vmax .. | .vand .. | .vor .. | .vxor .. | .vnot .. | .vlop3 .. | .vshl .. | .vshr .. | .vsra .. | .vbfe ..
  | .vbfi .. | .vpopc .. | .vclz .. | .vbrev .. | .vperm .. | .vdot4 .. | .vsad .. | .vpack .. | .vunpack ..
  | .vcmp .. | .vsel .. | .vmov .. | .vmovi .. | .fadd .. | .fsub .. | .fmul .. | .fma .. | .fmin .. | .fmax ..
  | .fcmp .. | .fclass .. | .frcp .. | .frsq .. | .fsqrt .. | .fex2 .. | .flg2 .. | .fsin .. | .fcos .. | .ftanh ..
  | .frint .. | .fscale .. | .fsgn .. | .fcvt .. | .icvt .. | .shfl .. | .qswp .. | .qbc .. | .vote .. | .ballot ..
  | .vred .. | .vscan .. | .pand .. | .por .. | .pxor .. | .pnot .. | .pmov .. | .pcnt .. | .pair .. | .qstat ..
  | .cphase .. | .lstat .. | .rdsr .. => .run
  | .st .. | .sts .. | .stt .. | .prf .. | .cwb .. | .cinv .. | .seal .. | .unseal .. | .lkl .. | .ulk .. | .atom ..
  | .atomx .. | .red .. | .gdef .. | .gadd .. | .fence .. | .gdecl .. | .obres .. | .obrel .. | .obld .. | .obst ..
  | .mma .. | .aclr .. | .aget .. | .aput .. | .aout .. | .ackr .. | .qpush .. | .qpop .. | .qbind .. | .cpy ..
  | .cpym .. | .cpyr .. | .coll .. | .cadd .. | .cbind .. | .cunbind .. | .cset .. | .launch .. | .wrsr .. | .halt ..
  | .tlbi .. | .bankmode .. | .dmr .. | .scan .. | .clauseEntry .. | .longLatencyComplete .. | .cwaitComplete ..
  | .hostCwaitPoll .. | .slotPromotion .. | .slotExchange .. | .longResidenceSwap .. | .spillCmdGo ..
  | .workgroupPlacement .. | .energyMeterInterval .. | .powerClockStep .. | .sliceEnd .. | .preemptTimeout ..
  | .workgroupSave .. | .workgroupRestore .. | .trapTake .. | .faultBatchServed .. | .pageWalk .. | .pagePromotion ..
  | .watchdogExpiry .. | .heartbeatLoss .. | .scanPassComplete .. | .unscannedCoreScan .. | .scanReqWrite ..
  | .counterAddAddrWrite .. | .counterAddIncrement .. | .counterAddSetAndAdd .. | .dropsRead .. | .functionEnable ..
  | .dispatchDescWrite .. | .bankDrainComplete .. | .engineAccept .. | .engineDeadline .. | .copyChunkDone ..
  | .collectiveFoldDone .. | .mmaOperation .. | .gauzeDrainAck .. | .unitLoss .. | .recoveryFlushEnd ..
  | .lineMove .. | .patrolScrub .. | .dramRefresh .. | .rowRepairGo .. | .memRetireBank ..
  | .memRetirePseudoChannel .. | .memRetireChannel .. | .memRetireStack .. | .memRetireProvince ..
  | .memRetireStartPhase .. | .memRetireBadKind .. | .memRetireStatusRead .. | .memEventRead .. | .xlateOutRead ..
  | .killCauseRead .. | .engFaultRead .. | .faultInjectTile .. | .faultInjectChecksum .. | .faultInjectRegister ..
  | .faultInjectScanFail .. | .registerWrite .. | .twillPacketReceive .. | .twillCrcReplay .. | .twillPortLoss ..
  | .hostMemoryAccess .. | .roceWorkRequest .. | .powerOnReset .. | .firmwareImageLoad .. | .driverImageLoad ..
  | .imageUnload .. | .challenge .. | .akviaTelemetry .. | .nonInstructionEncoding .. | .hostSpillMove ..
  | .functionDisable .. | .priorityInheritanceUpdate | .energyWindowOpen | .scanRotation
  | .scanResultRead | .phaseStart | .rowRepairDone | .getVersion | .getCapabilities
  | .negotiateAlgorithms | .getCertificate | .getMeasurements => .pass

/-- A hidden copy that has run ahead: the pages of the batch, the layout registers whose value is unknown, and whether the fibre is in
its handler, where no register move is made (R427). -/
structure Ahead where
  st      : State
  pages   : List Nat
  unknown : List Nat
  inh     : Bool
  deriving DecidableEq, Repr

/-- The layout registers among results. -/
def lregsOf (ws : List RegWrite) : List Nat := ws.filterMap (fun w => match w with
  | .lrec n _ => some n
  | _ => none)

/-- The registers of these results become unknown. The shared window is not written (R431). -/
def State.forget (s : State) (k : Nat) (ws : List RegWrite) : State :=
  let lim := 256 - (s.wg (wgOf k)).sh
  ws.foldl (fun s w => match w with
    | .stk e l _ => if e < lim then s.modSlot (slotOf k) (fun x => { x with stackBad := tput x.stackBad (32 * e + l) true }) else s
    | .sreg n _ => s.modFib k (fun f => { f with sBad := tput f.sBad n true })
    | .lrec _ _ => s) s

/-- The fibre's pending words end in the hidden copy: what nothing but time holds back arrives, and the other results, with poisoned
ones, are unknown. -/
def State.settleAhead (s : State) (k : Nat) : State :=
  let ps := (s.fib k).pend
  let s := s.modFib k (fun f => { f with pend := [], raised := none })
  ps.foldl (fun s p => if p.ready && p.poison.isNone then s.regWrites k p.wr else s.forget k p.wr) s

/-- What the hidden copy starts from. -/
def State.hide (s : State) (k : Nat) (pages : List Nat) : Ahead :=
  let s' := (s.settleAhead k).modFib k (fun f => { f with frozen := none, trap := { f.trap with inh := false } })
  { st := (s'.modWg (wgOf k) (fun w => { w with kd := { w.kd with trapvec := 8 } })).wake k, pages := pages,
    unknown := (s.fib k).pend.flatMap (fun p => if p.ready && p.poison.isNone then [] else lregsOf p.wr), inh := (s.fib k).trap.inh }

/-- The predicate registers that a word writes. -/
def predDests (i : Instr) : List Nat :=
  match i with
  | .vcmp f | .fcmp f | .vote f | .pand f | .por f | .pxor f | .pnot f | .pmov f | .scmp f => [f.d.toNat]
  | .pair f => if f.sop = 12 then [f.sd.toNat] else []
  | _ => []

/-- The state in which a word shows its destinations: nothing is unknown, its guard holds, and it is the first of a long clause whose
results are ephemeral. -/
def State.bare (s : State) (k : Nat) (w : W64) : State :=
  let gp := (w.extractLsb' 51 3).toNat
  (s.modSlot (slotOf k) (fun x => { x with stackBad := [] })).modFib k (fun f =>
    let e := f.entry
    { (f.setEntry { e with hdr := e.pc - 8, hw := e.hw ||| (0x0F00000001000000 : W64) }) with
      sBad := [], pBad := [], eph := [],
      pregs := if s.pBadSrc k gp then tput f.pregs (gp % 8) (if w.getLsbD 54 then 0 else BitVec.allOnes 32) else f.pregs })

/-- The registers that a memory word loads, whatever its address is. -/
def State.memDests (s : State) (k : Nat) (i : Instr) : List RegWrite :=
  let run (f : FM) (n : Nat) : List RegWrite := (lanesOf (s.acts k f.hd)).flatMap (fun l => (List.range n).map (fun j => s.vw k (f.d.toNat + j) l 0))
  match i with
  | .ld f => run f (if plainW f < 4 then 1 else 2 ^ f.cnt.toNat)
  | .ldt f => run f (2 ^ f.cnt.toNat)
  | .gld f => run f 1
  | .atom f | .atomx f => run f (if ty64 f.ty.toNat then 2 else 1)
  | .lds f => (List.range (2 ^ f.cnt.toNat)).map (fun j => .sreg (f.d.toNat + j) 0)
  | .lrec f => [.lrec f.d.toNat 0]
  | .cread f => [.sreg f.d.toNat 0]
  | _ => []

/-- The results of a word: what it would write. -/
def State.destsOf (s : State) (k : Nat) (w : W64) (i : Instr) : List RegWrite :=
  match s.memDests k i with
  | [] =>
    (match exec i (s.bare k w) with
    | .next t =>
      if (t.fib k).trap.inh then []
      else (match (t.fib k).pend.getLast? with
        | some p => p.wr
        | none => []) ++ (t.fib k).eph.flatMap (fun x => x.old)
    | _ => [])
  | ws => ws

/-- A word that reads an unknown value, or whose effect is not made, is skipped: its results are unknown. -/
def Ahead.skip (a : Ahead) (w : W64) (i : Instr) : Ahead :=
  let k := a.st.cur
  let ws := a.st.destsOf k w i
  let t := (a.st.finish k []).forget k ws
  { a with st := t.modFib k (fun f => { f with pBad := (predDests i).foldl (fun t p => if p % 8 = 7 then t else tput t (p % 8) true) f.pBad }),
           unknown := a.unknown ++ lregsOf ws }

/-- The shared window, and the counters of scratch and prefetch, as they were (R431). -/
def State.keepShared (s t : State) (k : Nat) : State :=
  let lim := 32 * (256 - (s.wg (wgOf k)).sh)
  let x := s.slot (slotOf k)
  let f := s.fib k
  (t.modSlot (slotOf k) (fun y => { y with stack := y.stack.filter (fun e => e.1 < lim) ++ x.stack.filter (fun e => lim ≤ e.1),
                                           stackBad := y.stackBad.filter (fun e => e.1 < lim) ++ x.stackBad.filter (fun e => lim ≤ e.1),
                                           races := x.races })).modFib k (fun g =>
    { g with scrPasses := f.scrPasses, scrRequests := f.scrRequests, pfIssued := f.pfIssued, pfUsed := f.pfUsed, pfEvicted := f.pfEvicted })

/-- A translation for a page that is not resident, so that the word shows the next page that it misses. -/
def State.pretend (s : State) (k : Nat) (page : Nat) : State :=
  match s.xlate (s.coreOf k) (s.vdOf k) (s.fib k).entry.pc.toNat with
  | .error _ => s
  | .ok x =>
    let t : Tlbe := { level := 0, holder := s.coreOf k, vd := s.vdOf k, va := 4096 * page, size := 4096, pa := x.pa / 4096 * 4096, w := true, x := false, attr := 0, repl := [] }
    { s with tlb := t :: s.tlb }

/-- The pages that a load misses, at most 16 beyond the first (R431). -/
def State.missed (s : State) (i : Instr) : Nat → List Nat → List Nat
  | 0, ps => ps
  | n + 1, ps =>
    if 17 ≤ ps.length then ps
    else
      match exec i s with
      | .next t =>
        (match (t.fib s.cur).frozen with
        | some x =>
          let p := x.addr.toNat / 4096
          (s.pretend s.cur p).missed i n (if ps.contains p then ps else ps ++ [p])
        | none => ps)
      | _ => ps

/-- Every page that one word can touch: 32 lanes of 16 elements. -/
def missFuel : Nat := 512

/-- One word of run-ahead, or none where it stops (R431). -/
def Ahead.word (a : Ahead) (w : W64) (i : Instr) : Option Ahead :=
  let s := a.st
  let k := s.cur
  let e := (s.fib k).entry
  match AheadUse.of i with
  | .stop => none
  | .pass => some (a.skip w i)
  | .turn =>
    let fp := match i with
      | .call f | .callx f => e.fp + 8 * f.b.toNat
      | _ => e.fp
    let leaves := match i with
      | .ret f => e.fp = 0 && s.acts k f.hd != 0
      | _ => false
    if leaves || (!a.inh && s.nextMove k fp (s.fib k).frontier != 0) then none
    else
      (match exec i s with
      | .next t =>
        if (t.fib k).trap.inh || (t.fib k).lo != (s.fib k).lo || (t.fib k).move != 0 || (t.fib k).frozen.isSome then none
        else some { a with st := s.keepShared t k }
      | _ => none)
  | .run =>
    (match exec i s with
    | .next t => if (t.fib k).trap.inh then some (a.skip w i) else some { a with st := s.keepShared (t.settleAhead k) k }
    | _ => none)
  | .load =>
    let dark := match i with
      | .ldt f => a.unknown.contains f.a.toNat
      | _ => false
    if dark then some (a.skip w i)
    else
      (match exec i s with
      | .next t =>
        if (t.fib k).frozen.isSome then some ({ a with pages := s.missed i missFuel a.pages }.skip w i)
        else if (t.fib k).trap.inh || ((t.fib k).entry = e && (t.fib k).pend.isEmpty) then some (a.skip w i)
        else
          let ps := (t.fib k).pend
          some { a with st := s.keepShared (t.settleAhead k) k,
                        unknown := a.unknown.filter (fun n => !(ps.flatMap (fun p => lregsOf p.wr)).contains n)
                          ++ ps.flatMap (fun p => if p.ready && p.poison.isNone then [] else lregsOf p.wr) }
      | _ => none)

/-- Run ahead for at most `n` words (R431); `fuel` also counts clause headers. -/
def Ahead.go : Nat → Nat → Ahead → Ahead
  | 0, _, a => a
  | fuel + 1, n, a =>
    let s := a.st
    let k := s.cur
    let e := (s.fib k).entry
    if (s.fib k).frontier.isEmpty || e.wait != .none || 17 ≤ a.pages.length then a
    else
      match s.fetch k e.pc with
      | .error _ => a
      | .ok w =>
        if !e.inside then
          match (Hdr.ofWord w).check with
          | .error _ => a
          | .ok _ =>
            (match exec (.clauseEntry w) s with
            | .next t => Ahead.go fuel n { a with st := t }
            | _ => a)
        else if n = 0 || (!a.inh && !s.callsOutside k && s.nextMove k e.fp (s.fib k).frontier != 0) then a
        else
          match decode (s.decCtx k) e.cls w with
          | .error _ => Ahead.go fuel (n - 1) { a with st := s.finish k [] }
          | .ok i =>
            (match a.word w i with
            | none => a
            | some b => Ahead.go fuel (n - 1) b)

/-- A word that has just frozen its fibre fixes the batch: the page itself, and with FAULT_MODE 1 the pages that run-ahead adds
(R430, R431). `s` is the state before the word, `t` the one after it. -/
def State.withBatch (s t : State) : State :=
  match (s.fib s.cur).frozen, (t.fib s.cur).frozen with
  | none, some x =>
    if (t.wg (wgOf s.cur)).kd.flags.getLsbD 3 then
      t.modFib s.cur (fun f => { f with frozen := some { x with pages := (Ahead.go 513 256 (s.hide s.cur x.pages)).pages } })
    else t
  | _, _ => t

/-- The batch of a word's page fault is fixed where the word freezes its fibre. -/
def batched (s : State) (o : Out) : Out :=
  match o with
  | .next t => .next (s.withBatch t)
  | .fault f => .fault f
  | .refused r => .refused r

end Sys2Proof.Machine
end

