-- ==== Sys2Proof/Machine/Due.lean ====
section
/-! DEFINITION. The event of the device that happens next when no quarter can issue any more in a cycle: one whose condition holds
and that the specification lets happen at once (log entry 3). Every event may also stand in the agenda. -/

namespace Sys2Proof.Machine

def firstSome {α : Type} : List (Option α) → Option α
  | [] => none
  | some a :: _ => some a
  | none :: t => firstSome t

/-- A pending `cwait` whose counter has reached its target, or whose line is poisoned (R363). -/
def State.cwaitMet (s : State) (k : Nat) (p : Pending) : Bool :=
  match p.kind with
  | .cwait c => (match s.observe k c with
    | some (v, bad, _) => bad || c.target ≤ v
    | none => false)
  | _ => false

def State.dueCwait (s : State) : Option Instr :=
  s.fibres.findSome? (fun e => (e.2.pend.findIdx? (fun p => s.cwaitMet e.1 p)).map (fun i => .cwaitComplete e.1 i))

/-- The oldest drain in flight (R401). -/
def State.dueDrain (s : State) : Option Instr := s.drains.head?.map (fun d => .gauzeDrainAck d.cluster d.line)

/-- The oldest issued operation of a workgroup (R334). -/
def State.dueMma (s : State) : Option Instr :=
  s.wgs.findSome? (fun e => e.2.issued.head?.map (fun op => .mmaOperation e.1 op.g))

/-- A bank that changes its mode (R144). -/
def State.dueBank (s : State) : Option Instr :=
  s.banks.findSome? (fun e => if e.2.next.isSome then some (.bankDrainComplete (e.1 / 64) (e.1 % 64)) else none)

/-- An engine that can start its next command, a command that its engine has left waiting too long, or a running copy whose next chunk waits
for nothing (R373, R376, R381). -/
def State.dueCmd (s : State) : Option Instr :=
  s.cmds.findSome? (fun e =>
    let c := e.2
    if c.st = .queued && (s.upNext c s.cmds).map (·.1) = some e.1 then some (.engineAccept e.1)
    else if s.cmdOverdue c && s.mayAccept e.1 c && !s.ringFull c then some (.engineDeadline e.1)
    else if s.works c && !s.ctrStuck c && c.kind < 3 && c.wait.isNone
        && (c.kind != 2 || c.n = 0 || (s.peerFault c).isSome || (s.ctrAbsent c).isSome
          || (if c.get then (s.getAbsent c 4096).isSome else c.pos < c.n)) then
      some (.copyChunkDone e.1)
    else none)

/-- A collective all of whose ranks are of this package and have been accepted (R379). -/
def State.dueColl (s : State) : Option Instr :=
  s.cmds.findSome? (fun e =>
    let c := e.2
    if c.kind != 3 || !s.works c || s.ctrStuck c || c.wait.isSome then none
    else
      match s.groupRec c with
      | .error (.mig, _) => none
      | .error _ => some (.collectiveFoldDone e.1 [])
      | .ok g =>
        if c.result.isSome || (g.who.all (fun r => r % 64 = 0) && (s.mates c g).isSome) then some (.collectiveFoldDone e.1 []) else none)

/-- A workgroup or a stand-in that the placer of a cluster can start (R139, R381). -/
def State.duePlace (s : State) : Option Instr :=
  if s.grids.isEmpty && s.cmds.isEmpty then none
  else ((List.range 36).find? (fun c => (s.bestStand c s.cmds).isSome || (s.bestGrid c (s.grids.map (·.1))).isSome)).map (fun c => .workgroupPlacement c)

/-- Every quarter makes the exchange that is due in it: a stalled slot for a ready pending one, or one that a long residence sends out
(R153). -/
def State.exchanges (s : State) : State :=
  s.pendingQuarters.foldl (fun s q =>
    match s.dueExchange q, s.dueResident q with
    | some (a, b), _ => s.exchange q a b
    | none, some (a, b) => s.exchange q a b
    | none, none => s) s

/-- The energy window has run out (R142). -/
def State.dueWindow (s : State) : Option Instr := if s.windowOver then some .energyWindowOpen else none

/-- A slice of a shared core has run its length (R136). -/
def State.dueSlice (s : State) : Option Instr :=
  (((s.vds.filter (fun e => e.2.enabled)).flatMap (fun e => e.2.cfg.cores)).find? (fun c => s.sliceOver c)).map (fun c => .sliceEnd c)

/-- Something has not stopped within PREEMPT_TIMEOUT (R432). -/
def State.dueTimeout (s : State) : Option Instr := (s.wgs.find? (fun e => s.timedOut e.2.core)).map (fun e => .preemptTimeout e.2.core)

/-- A workgroup that has stopped for another to run (R433). -/
def State.dueSave (s : State) : Option Instr :=
  (s.wgs.find? (fun e => s.saveable e.1)).map (fun e => .workgroupSave e.1)

/-- A fibre whose WATCHDOG limit has passed (R428). -/
def State.dueWatchdog (s : State) : Option Instr := (s.fibres.find? (fun e => s.overdue e.1)).map (fun e => .watchdogExpiry (wgOf e.1))

/-- An effective priority that is to change (R369). -/
def State.duePrio (s : State) : Option Instr := if s.prioStale then some .priorityInheritanceUpdate else none

/-- A port that has lost both lanes, with packets that have not been acknowledged (R457). -/
def State.duePort (s : State) : Option Instr :=
  (s.ports.find? (fun e => e.2.lanes = 0 && !(e.2.replay.isEmpty && e.2.queue.isEmpty))).map (fun e => .twillPortLoss e.1)

/-- The device event that is due, if any: what the clock brings first. -/
def State.due (s : State) : Option Instr :=
  firstSome [s.dueWindow, s.dueSlice, s.dueTimeout, s.dueWatchdog, s.dueTrap, s.duePrio, s.dueCompletion, s.dueCwait, s.dueDrain, s.dueMma, s.dueBank,
    s.dueSave, s.duePlace, s.dueColl, s.dueCmd, s.duePort]

end Sys2Proof.Machine
end

