-- ==== Sys2Proof/Machine/Step.lean ====
section
/-! DEFINITION. One step of the package: the next event of the agenda; else the word, or the clause header, of the fibre
that issues; else a device event that is due; else a cycle passes (log entry 3). What holds after every step is `State.settle`. -/

namespace Sys2Proof.Machine

/-- A fetch leaves its translation in the TLBs (R298) and its sector in the instruction cache (R49). -/
def State.noteFetch (s : State) (k : Nat) (pc : W64) : State := (s.noteXlate (s.coreOf k) (s.vdOf k) pc.toNat).cacheSect k pc

/-- The current fibre reads a clause header (R87, steps 1 to 4). -/
def stepHeader (s : State) : Out :=
  match s.fetch s.cur (s.fib s.cur).entry.pc with
  | .error e => .next (s.fetchFault s.cur e (s.fib s.cur).entry.pc)
  | .ok w => exec (.clauseEntry w) (s.noteFetch s.cur (s.fib s.cur).entry.pc)

/-- The current fibre issues the word at its PC: its frame is resident, the word is fetched and decoded (R87, steps 5 to 7),
and it executes; where it page-faults, its batch is fixed (R431). -/
def stepWord (s : State) : Out :=
  match s.readyFrame s.cur with
  | .stopped t => .next t
  | .done s =>
    match s.fetch s.cur (s.fib s.cur).entry.pc with
    | .error e => .next (s.fetchFault s.cur e (s.fib s.cur).entry.pc)
    | .ok w =>
      match decode (s.decCtx s.cur) (s.fib s.cur).entry.cls w with
      | .error _ => .next (s.trapHere s.cur .illegalEncoding 0 0 0)
      | .ok i => batched s (exec i (s.noteFetch s.cur (s.fib s.cur).entry.pc))

/-- The current fibre issues. -/
def stepFibre (s : State) : Out := if (s.fib s.cur).entry.inside then stepWord s else stepHeader s

/-- A cycle passes: slots exchange, the device looks at what the host has done, and where no quarter could issue a due event happens. -/
def stepDevice (s : State) : Out :=
  let s := s.cycle.exchanges.hostWatch
  match s.due with
  | some i => exec i s
  | none => .next s

/-- One step, before the active sets, issue turns and caches settle. -/
def stepRaw (s : State) : Out :=
  match s.agenda with
  | i :: t => if i.isEvent then exec i { s with agenda := t } else .next { s with agenda := t }
  | [] =>
    match s.pick with
    | some (q, slot, k) => stepFibre (s.chosen q slot k)
    | none => stepDevice s

/-- What a step leaves settles (R7, R151, R155). -/
def settled (o : Out) : Out :=
  match o with
  | .next t => .next t.settle
  | .fault f => .fault f
  | .refused r => .refused r

def step (s : State) : Out := settled (stepRaw s)

/-- The address, virtual and physical, at which `withFetchWord` places its clause. -/
def fetchBase : Nat := 4096

/-- The state in which the very next step runs the instruction laid out in w (log entry 1): one workgroup of one fibre on
core 0 of virtual device 0 stands at the first word of the clause, and the page of the clause is translated. -/
def State.withFetchWord (s : State) (nbits w : Nat) : State :=
  let bytes := leBytes 16 (w % 2 ^ nbits)
  let hw := BitVec.ofNat 64 (leNat (bytes.take 8))
  let e : Entry := { pc := 4104, hdr := 4096, hw := hw, inside := true, bpri := hw.extractLsb' 40 8, fp := 0,
                     mask := BitVec.allOnes 32, wait := .none }
  let f : Fibre := { Fibre.empty with life := .running, launched := BitVec.allOnes 32, frontier := [e] }
  let g : Wg := { Wg.empty with life := .running, threads := 32 }
  let t : Tlbe := { level := 0, holder := 0, vd := 0, va := 4096, size := 4096, pa := 4096, w := false, x := true, attr := 0, repl := [] }
  { s with mem := writeTab s.mem fetchBase bytes, agenda := [], quarter := 0, tlb := t :: s.tlb,
           icache := tdel s.icache (hkey 0 (fetchBase / 32)), cc := tdel s.cc (hkey 0 (fetchBase / 64)),
           vds := tput s.vds 0 { s.vd 0 with enabled := true },
           fibres := [(64 * s.nextWg, f)], slots := [(16 * s.nextWg, { Slot.empty with active := true })],
           wgs := tput s.wgs s.nextWg g, nextWg := s.nextWg + 1 }

end Sys2Proof.Machine
end

