-- ==== Sys2Proof/Safety.lean ====
section
/-! DEFINITION. The terms in which claims are made: what counts as a safe run, where a fibre stands when a plain word issues, and what a
word leaves alone. -/

namespace Sys2Proof

/-- The step from `s` answers a next state. -/
def Steps (s t : Machine.State) : Prop := Machine.step s = .next t

/-- A state whose main memory is in canonical form. -/
def MemOk (s : Machine.State) : Prop := Machine.Memory.wf s.mem = true

/-- The width and the number of the elements of a word's type (R183). -/
def V3.w (f : V3) : Nat := (Machine.tyElem f.ty.toNat).1
def V3.els (f : V3) : Nat := (Machine.tyElem f.ty.toNat).2

/-- The types that a sca word accepts (R205). -/
def V3.scaOk (f : V3) : Prop := f.ty = 0 ∨ f.ty = 4 ∨ f.ty = 5 ∨ f.ty = 6 ∨ f.ty = 7

namespace Machine

/-- The issuing fibre. -/
def State.me (s : State) : Fibre := s.fib s.cur

/-- The slot of the issuing fibre. -/
def State.mySlot (s : State) : Slot := s.slot (slotOf s.cur)

/-- The issuing fibre holds no uncorrectable soft error (R438), is not in shadow mode (R443) and has no ephemeral window open; an
ephemeral word is neither the last of its clause nor a control word (R63). Nothing then alters the results of a word. -/
structure Plain (s : State) : Prop where
  scalars    : s.me.sBad = []
  predicates : s.me.pBad = []
  vectors    : s.mySlot.stackBad = []
  single     : s.me.shadow = false
  windows    : s.me.eph = []
  lasting    : s.me.entry.isEph = true → s.me.entry.next.inside = true ∧ s.me.entry.atCtl = false

/-- Nothing but the issuing fibre and its slot has changed. -/
structure Local (s t : State) : Prop where
  rest   : { t with fibres := s.fibres, slots := s.slots } = s
  fibres : ∀ j, j ≠ s.cur → t.fib j = s.fib j
  slots  : ∀ j, j ≠ slotOf s.cur → t.slot j = s.slot j

/-- A fibre but for its place in the program, its pending words and its ephemeral windows. -/
def Fibre.kept (f : Fibre) : Fibre := { f with frontier := [], pend := [], eph := [] }

/-- The pending words have come one word nearer to their implicit waits, and nothing else about them has changed (R162). -/
def SamePend (s t : State) : Prop := t.me.pend = s.me.countWord.pend

/-- The physical entry of v(i) in the frame of the issuing word (R24, R164). -/
def State.vent (s : State) (i : Nat) : Nat := s.ventry s.cur s.me.entry.fp i

/-- What an entry of a slot's register stack holds in a lane. -/
def Slot.at (x : Slot) (e l : Nat) : W32 := tget 0 x.stack (32 * e + l)

/-- What it holds, with the writes that no common `fbar` has ordered (R25). -/
def Slot.holds (x : Slot) (e l : Nat) : W32 × Option Race := (x.at e l, tfind x.races (32 * e + l))

/-- A slot has changed in its register stack alone; unordered writes are there in the shared window only. -/
structure SameSlot (x y : Slot) : Prop where
  slot : y = { x with stack := y.stack, races := y.races }
  own  : ∀ q, q / 32 < x.window → tfind y.races q = tfind x.races q

/-- A word has changed the register stack of its slot and nothing else. -/
structure StackOnly (s t : State) : Prop where
  near : Local s t
  kept : t.me.kept = s.me.kept
  pend : SamePend s t
  slot : SameSlot s.mySlot t.mySlot

/-- What a word leaves that writes v(d), or for a 64-bit type the pair v(d), v(d+1) (R184, R202): `res` in the acting lanes; under Z
0 in the fibre's other lanes; in all else what was there. -/
structure VecEnd (s : State) (d : Nat) (wide z : Bool) (acts : LaneMask) (res : Nat → Nat) (t : State) : Prop where
  only   : StackOnly s t
  narrow : wide = false → ∀ l, l < 32 → t.mySlot.at (s.vent d) l = if acts.getLsbD l then BitVec.ofNat 32 (res l)
    else if z && acts != 0 && s.me.everLanes.getLsbD l then 0 else s.mySlot.at (s.vent d) l
  low    : wide = true → ∀ l, l < 32 → t.mySlot.at (s.vent d) l = if acts.getLsbD l then BitVec.ofNat 32 (res l % 2 ^ 32)
    else if z && acts != 0 && s.me.everLanes.getLsbD l then 0 else s.mySlot.at (s.vent d) l
  high   : wide = true → ∀ l, l < 32 → t.mySlot.at (s.vent (d + 1)) l = if acts.getLsbD l then BitVec.ofNat 32 (res l / 2 ^ 32 % 2 ^ 32)
    else if z && acts != 0 && s.me.everLanes.getLsbD l then 0 else s.mySlot.at (s.vent (d + 1)) l
  others : ∀ e l, l < 32 → e ≠ s.vent d → (wide = true → e ≠ s.vent (d + 1)) → t.mySlot.holds e l = s.mySlot.holds e l

/-- The two registers of a pair have a place of their own each. It holds for every register number in every frame of a legal
descriptor; a word of a 32-bit type asks nothing. -/
def State.pairOk (s : State) (d : Nat) (wide : Bool) : Prop := wide = true → s.vent (d + 1) ≠ s.vent d

/-- A word has had no effect but to be passed: registers, predicates, slot and everything else are as they were. -/
structure Quiet (s t : State) : Prop where
  near : Local s t
  slot : t.mySlot = s.mySlot
  kept : t.me.kept = s.me.kept
  pend : SamePend s t

/-- What a word leaves that writes s(d) alone (R205). -/
structure ScaEnd (s : State) (d : Nat) (v : W64) (t : State) : Prop where
  near   : Local s t
  slot   : t.mySlot = s.mySlot
  pend   : SamePend s t
  rest   : t.me.kept = { s.me.kept with sregs := t.me.sregs }
  dest   : t.me.sreg d = v
  others : ∀ n, n ≠ d → t.me.sreg n = s.me.sreg n

/-- What a word leaves that writes p(d) in the lanes of `acts` and nothing else; p7 keeps its value, true (R27, R218). -/
structure PredEnd (s : State) (d : Nat) (acts : LaneMask) (v : Nat → Bool) (t : State) : Prop where
  near   : Local s t
  slot   : t.mySlot = s.mySlot
  pend   : SamePend s t
  rest   : t.me.kept = { s.me.kept with pregs := t.me.pregs }
  dest   : d % 8 ≠ 7 → ∀ l, l < 32 → (t.me.preg d).getLsbD l = if acts.getLsbD l then v l else (s.me.preg d).getLsbD l
  others : ∀ n, n % 8 ≠ d % 8 → t.me.preg n = s.me.preg n
  p7     : t.me.preg 7 = BitVec.allOnes 32

/-- A pending word under the implicit wait of LA, or with the token, that its head names (R67). -/
def State.headed (s : State) (hd : Head) (p : Pending) : Pending :=
  { p with la := if hd.la = 15 then none else some hd.la.toNat, tok := if hd.la = 15 then some hd.tok.toNat else none, pc := s.me.entry.pc }

/-- What a long-latency word leaves when it issues: one more pending word, which owes `ws`, under the implicit wait of LA or with the
token that it names (R67); its registers are written when it completes. -/
structure Owes (s : State) (hd : Head) (kind : PKind) (ready : Bool) (ws : List RegWrite) (t : State) : Prop where
  near : Local s t
  slot : t.mySlot = s.mySlot
  kept : t.me.kept = s.me.kept
  pend : t.me.pend = s.me.countWord.pend ++ [s.headed hd (mkPend kind ws ready none)]

/-- A trap is taken at once, and in the handler (R427): no word is pending, none was raised before, INH is clear and the descriptor
names a handler. -/
structure CanTrap (s : State) : Prop where
  lanes   : s.me.entry.mask ≠ 0
  pend    : s.me.pend = []
  windows : s.me.eph = []
  raised  : s.me.raised = none
  inh     : s.me.trap.inh = false
  vector  : (s.wg (wgOf s.cur)).kd.trapvec ≠ 0

/-- What taking a trap leaves (R426, R427): the frame is filled, s28 to s31 are saved and not changed, the rest of the frontier is set
aside, and the lanes of the entry stand at TRAPVEC. -/
structure TookTrap (s : State) (c : Cause) (lane : Nat) (addr : W64) (code : BitVec 16) (resume : W64) (t : State) : Prop where
  near   : Local s t
  slot   : t.mySlot = s.mySlot
  cause  : t.me.trap.cause = BitVec.ofNat 5 c.code
  inh    : t.me.trap.inh = true
  lane   : t.me.trap.lane = BitVec.ofNat 5 lane
  code   : t.me.trap.code = code
  pc     : t.me.trap.pc = s.me.entry.pc
  resume : t.me.trap.resume = resume
  addr   : t.me.trap.addr = addr
  mask   : t.me.trap.mask = s.me.entry.mask
  fp     : t.me.trap.fp = s.me.entry.fp
  bpri   : t.me.trap.bpri = s.me.entry.bpri
  saved  : ∀ i, i < 4 → tget 0 t.me.trap.save i = s.me.sreg (28 + i)
  aside  : t.me.trap.aside = s.me.frontier.drop 1
  at_    : ∃ e, t.me.frontier = [e] ∧ e.pc = (s.wg (wgOf s.cur)).kd.trapvec ∧ e.inside = false ∧ e.fp = s.me.entry.fp ∧ e.mask = s.me.entry.mask
  regs   : t.me.sregs = s.me.sregs ∧ t.me.pregs = s.me.pregs ∧ t.me.lregs = s.me.lregs ∧ t.me.priv = s.me.priv

/-! How the statements speak of an ALU word. -/

/-- A word that writes v(d) (its pair, when `wide`) completes wherever its fibre is plain; `R l r` says what its result r is in
each acting lane l. The frame is that of `VecEnd`. -/
def VecDone (i : Instr) (hd : Head) (d : Nat) (wide z : Bool) (s : State) (R : Nat → Nat → Prop) : Prop :=
  Plain s → s.pairOk d wide →
    ∃ t res, exec i s = .next t ∧ VecEnd s d wide z (s.acts s.cur hd) res t ∧
      ∀ l, l < 32 → (s.acts s.cur hd).getLsbD l = true → R l (res l)

/-- A V3 word of the vec class with a destination of its own type. -/
def VecV3 (i : V3 → Instr) (R : State → V3 → Nat → Nat → Prop) : Prop :=
  ∀ s f, VecDone (i f) f.hd f.d.toNat (ty64 f.ty.toNat) f.z s (R s f)

/-- A word that writes s(d) completes wherever its fibre is plain and its guard holds in some lane; `v` is what it writes. -/
def ScaDone (i : Instr) (hd : Head) (d : Nat) (s : State) (v : W64) : Prop :=
  Plain s → s.acts s.cur hd ≠ 0 → ∃ t, exec i s = .next t ∧ ScaEnd s d v t

/-- A word that writes p(d) completes wherever its fibre is plain and its guard holds in some lane; `R l` says when lane l of the
predicate becomes true. -/
def PredDone (i : Instr) (hd : Head) (d : Nat) (s : State) (R : Nat → Prop) : Prop :=
  Plain s → s.acts s.cur hd ≠ 0 →
    ∃ t v, exec i s = .next t ∧ PredEnd s d (s.acts s.cur hd) v t ∧ ∀ l, l < 32 → (v l = true ↔ R l)

/-- A long-latency word that writes v(d) issues wherever its fibre is plain and its guard holds in some lane; its pending word owes
the writes of results r with `R l r`. -/
def LongDone (i : V3 → Instr) (R : State → V3 → Nat → Nat → Prop) : Prop :=
  ∀ s f, Plain s → s.acts s.cur f.hd ≠ 0 →
    ∃ t res, exec (i f) s = .next t ∧
      Owes s f.hd .other true (s.vecWrites s.cur f.d.toNat (ty64 f.ty.toNat) f.z (s.acts s.cur f.hd) res) t ∧
      ∀ l, l < 32 → (s.acts s.cur f.hd).getLsbD l = true → R s f l (res l)

/-- The operands of a vec word in a lane: A, B as a value, B as a count, C. -/
def State.va (s : State) (f : V3) (l : Nat) : Nat := s.vval s.cur f.ty.toNat f.a.toNat l
def State.vb (s : State) (f : V3) (l : Nat) : Nat := s.vecB s.cur f.ty.toNat f l
def State.vn (s : State) (f : V3) (l : Nat) : Nat := s.vecCnt s.cur f.ty.toNat f l
def State.vc (s : State) (f : V3) (l : Nat) : Nat := s.vval s.cur f.ty.toNat f.c.toNat l

/-- The operands of a sca word: A, B, C. -/
def State.sa (s : State) (f : V3) : W64 := s.ssrc s.cur f.a
def State.sb (s : State) (f : V3) : W64 := s.scaB s.cur f.b f.bsel
def State.sc (s : State) (f : V3) : W64 := s.ssrc s.cur f.c

/-- An exact result clamped to the range of its type where SAT says so (R182). -/
def fit (ty : Nat) (sat : Bool) (r : Int) : Int := if sat then max (tyMin ty) (min (tyMax ty) r) else r

/-- A 64-bit result of a sca word of a type: the low 32 bits extended by i32 or n32, or all 64 (R205). -/
def scaBits (ty : Nat) (x : W64) : W64 :=
  if ty = 4 then (x.setWidth 32).signExtend 64 else if ty = 5 then (x.setWidth 32).setWidth 64 else x

/-- A source of a sca word of a type, extended without a sign: bits [31:0] for a 32-bit type (R205). -/
def scaLow (ty : Nat) (x : W64) : W64 := if ty64 ty then x else (x.setWidth 32).setWidth 64

/-- An integer condition (R72). -/
def intCond (c : Nat) (a b : Int) : Prop :=
  match c with
  | 0 => a = b | 1 => a ≠ b | 2 => a < b | 3 => a ≤ b | 4 => a > b | _ => a ≥ b

/-- A float condition (R72): codes 0, 2 to 5 and 13 are false when either operand is NaN, codes 1 and 7 to 12 true. -/
def fltCond (c : Nat) (a b : FV) : Prop :=
  let un := a.isNan = true ∨ b.isNan = true
  let lt := ¬ un ∧ a.lt b = true
  let gt := ¬ un ∧ b.lt a = true
  let eq := ¬ un ∧ ¬ a.lt b = true ∧ ¬ b.lt a = true
  match c with
  | 0 => eq | 1 => ¬ eq | 2 => lt | 3 => lt ∨ eq | 4 => gt | 5 => gt ∨ eq | 6 => ¬ un | 7 => un
  | 8 => eq ∨ un | 9 => lt ∨ un | 10 => lt ∨ eq ∨ un | 11 => gt ∨ un | 12 => gt ∨ eq ∨ un | _ => ¬ eq ∧ ¬ un

/-- Bit i of a bitfield of `len` bits extracted from bit `pos` of a w-bit value (R213). -/
def fieldBit (signed : Bool) (w pos len a i : Nat) : Bool :=
  let bit (j : Nat) : Bool := pos + j < w && a.testBit (pos + j)
  if len = 0 then false else if i < len then bit i else signed && bit (len - 1)

/-- Bit i of a value whose bits `pos` to `pos + len − 1` are the low bits of c, and the others those of a (R213). -/
def insertBit (pos len a c i : Nat) : Bool := if pos ≤ i ∧ i < pos + len then c.testBit (i - pos) else a.testBit i

/-- F of R211, on one bit. -/
def lopBit (n : Nat) (x y : Bool) : Bool :=
  match n with
  | 0 => x && y | 1 => x || y | 2 => x != y | _ => x && !y

/-- The contributors (R237). -/
def State.voters (s : State) (hd : Head) (l : Nat) : Prop := (s.acts s.cur hd).getLsbD l = true ∧ s.me.helper.getLsbD l = false


/-! How the statements speak of the frontier. -/

/-- Lane l stands where x says: in an entry with x's PC, FP and wait (R158). -/
def standsIn (fr : List Entry) (l : Nat) (x : Entry) : Prop :=
  ∃ e ∈ fr, e.mask.getLsbD l = true ∧ e.pc = x.pc ∧ e.fp = x.fp ∧ e.wait = x.wait

def Fibre.stands (f : Fibre) (l : Nat) (x : Entry) : Prop := standsIn f.frontier l x

/-- What a control word leaves: each lane of its entry stands at `g`'s place, and every other lane where it stood; nothing else has
changed (R160). -/
structure Moved (s : State) (g : Nat → Entry) (t : State) : Prop where
  near   : Local s t
  slot   : t.mySlot = s.mySlot
  kept   : t.me.kept = s.me.kept
  pend   : SamePend s t
  lanes  : ∀ l, l < 32 → s.me.entry.mask.getLsbD l = true → t.me.stands l (g l)
  others : ∀ l x, s.me.entry.mask.getLsbD l = false → (t.me.stands l x ↔ s.me.stands l x)

/-- The place of a lane that a control word sends to `pc` in the frame at `fp`. -/
def State.sent (s : State) (pc : W64) (fp : Nat) : Entry := s.me.entry.jump pc fp s.me.entry.mask

/-- The place Next of the issuing entry, and the same with a wait. -/
def State.atNext (s : State) : Entry := s.me.entry.next
def State.atNextWaiting (s : State) (w : Wait) : Entry := { s.me.entry.next with wait := w }

/-- Tokens of the mask that a word of the fibre still holds (R67). -/
def Fibre.holds (f : Fibre) (m : BitVec 8) : Prop := ∃ i, i < 8 ∧ m.getLsbD i = true ∧ f.held i = true

/-- What a pair word leaves: v(VD) in the acting lanes, and a scalar register or a predicate (R84). -/
structure PairEnd (s : State) (f : FP) (acts : LaneMask) (res : Nat → Nat) (t : State) : Prop where
  near   : Local s t
  pend   : SamePend s t
  stack  : SameSlot s.mySlot t.mySlot
  rest   : t.me.kept = { s.me.kept with sregs := t.me.sregs, pregs := t.me.pregs }
  vec    : ∀ l, l < 32 → t.mySlot.at (s.vent f.vd.toNat) l = if acts.getLsbD l then BitVec.ofNat 32 (res l) else s.mySlot.at (s.vent f.vd.toNat) l
  vecs   : ∀ e l, l < 32 → e ≠ s.vent f.vd.toNat → t.mySlot.holds e l = s.mySlot.holds e l

/-! How the statements speak of memory. -/

/-- A place of one byte: the space (0 device memory, 1 the scratch window and 2 the operand buffer of a workgroup, 3 host memory, 4 the
memory of peers) and the address in it. -/
abbrev Spot := Nat × Nat

/-- Every byte of memory as workgroup w finds it at its home. -/
def State.byteAt (s : State) (w : Nat) (x : Spot) : Byte :=
  match x.1 with
  | 0 => tget memDefault s.mem x.2
  | 1 => tget memDefault (s.wg w).scratch x.2
  | 2 => tget memDefault (s.wg w).ob x.2
  | 3 => tget memDefault s.hostMem x.2
  | _ => tget memDefault s.peerMem x.2

/-- Byte i from a location. -/
def Loc.spot (l : Loc) (i : Nat) : Spot :=
  match l with
  | .dev pa _ _ => (0, pa + i) | .scr o => (1, o + i) | .ob o => (2, o + i) | .host a => (3, a + i) | .peer p a => (4, hkey p a + i)

/-- A device byte as a core sees it at a scope (R261, R272): an UNTRACKED line in the copies that the scope may use, else at home. -/
def State.viewAt (s : State) (core scope attr pa : Nat) : Byte :=
  let old : Line := { Line.empty with fresh := false }
  let z := tget old s.l0 (hkey core (pa / 64))
  let c := tget old s.cc (hkey (clusterOf core) (pa / 64))
  if attr = 1 && scope ≤ 2 && !z.fresh && z.valid.getLsbD (sectorBit pa) then z.data.extractLsb' (8 * (pa % 64)) 8
  else if attr = 1 && scope ≤ 3 && !c.fresh && c.valid.getLsbD (sectorBit pa) then c.data.extractLsb' (8 * (pa % 64)) 8
  else tget memDefault s.mem pa

/-- The n bytes that a fibre reads at a location with a scope. -/
def State.locBytes (s : State) (k scope : Nat) (l : Loc) (n : Nat) : List Byte :=
  (List.range n).map (fun i => match l with
    | .dev pa attr _ => s.viewAt (s.coreOf k) scope attr (pa + i)
    | _ => s.byteAt (wgOf k) (l.spot i))

/-- The bytes that an element reads: at the first location of each of its pieces; 0 where a helper lane's access would fault (R17). -/
def State.seen (s : State) (k scope : Nat) (a : Acc) : List Byte :=
  match a.ps with
  | none => List.replicate a.len 0
  | some ps => ps.flatMap (fun p => match p.locs with
    | [] => []
    | l :: _ => s.locBytes k scope l p.len)

/-- Memory as a function, and bytes put into it. -/
abbrev Bytes := Spot → Byte

def Bytes.put (m : Bytes) (l : Loc) (bs : List Byte) : Bytes := fun x =>
  match (List.range bs.length).find? (fun i => l.spot i = x) with
  | some i => bs.getD i 0
  | none => m x

/-- The bytes of an access put at every location of its pieces that `keep` takes. -/
def Bytes.putPieces (keep : Loc → Bool) : Bytes → List Piece → List Byte → Bytes
  | m, [], _ => m
  | m, p :: t, bs => Bytes.putPieces keep ((p.locs.filter keep).foldl (fun m l => m.put l (bs.take p.len)) m) t (bs.drop p.len)

/-- The elements' bytes put in order: the highest lane, and the highest element, last (R252, R274). -/
def Bytes.putAll (keep : Loc → Bool) (m : Bytes) (xs : List (Acc × List Byte)) : Bytes :=
  xs.foldl (fun m x => match x.1.ps with
    | none => m
    | some ps => m.putPieces keep ps x.2) m

/-- A store at a scope reaches the home: on any page but an UNTRACKED one below `.dev` (R261, R272). -/
def reachesHome (scope : Nat) (l : Loc) : Bool :=
  match l with
  | .dev _ attr _ => attr != 1 || 4 ≤ scope
  | _ => true

/-- The locations of a word: no piece crosses a sector of device memory, which holds of every page frame, and the pages are all
UNTRACKED or none is. -/
structure TidyLocs (as : List Acc) : Prop where
  sectors : ∀ a ∈ as, ∀ ps, a.ps = some ps → ∀ p ∈ ps, ∀ l ∈ p.locs, ∀ pa at_ b, l = .dev pa at_ b → pa % 32 + p.len ≤ 32
  uniform : (∀ a ∈ as, ∀ ps, a.ps = some ps → ∀ p ∈ ps, ∀ l ∈ p.locs, ∀ pa b, l ≠ .dev pa 1 b) ∨
    (∀ a ∈ as, ∀ ps, a.ps = some ps → ∀ p ∈ ps, ∀ l ∈ p.locs, ∃ pa b, l = .dev pa 1 b)

/-- Nothing but the word acts on memory: no eviction is planned, no update-only copy or drain is out, no byte is poisoned, at home or in a
copy, DRAM returns what was written, and no line is in motion. -/
structure Calm (s : State) : Prop where
  evictions : s.evictions = []
  copies    : s.ucopies = []
  drains    : s.drains = []
  poison    : s.poison = []
  copied    : ∀ e ∈ s.cc ++ s.l0, e.2.bad = 0
  errors    : s.damask.err = []
  present   : ∀ p, s.damask.lost p = false
  moves     : ∀ p, (s.damask.prov p).locked = false
  scratch   : (s.wg (wgOf s.cur)).scratchBad = []
  buffer    : (s.wg (wgOf s.cur)).obBad = []

/-- No UNTRACKED copy is dirty in a cluster. -/
def CleanCopies (s : State) : Prop := ∀ e ∈ s.cc, e.2.fresh = false → e.2.dirty = 0

/-- No cluster holds an UNTRACKED copy. -/
def NoOldCopies (s : State) : Prop := ∀ e ∈ s.cc, e.2.fresh = true

/-- A fibre but for its counts of prefetches and scratch passes. -/
def Fibre.bare (f : Fibre) : Fibre := { f with pfIssued := 0, pfUsed := 0, pfLate := 0, pfEvicted := 0, scrPasses := 0, scrRequests := 0 }

/-- What a memory word leaves when it issues: `p` as one more pending word; `bytes` is every byte of memory at its
home; caches and translations follow their own rules; the scratch counts rise by `scr`. -/
structure MemDone (s : State) (hd : Head) (p : Pending) (scr : Nat × Nat) (bytes : Bytes) (t : State) : Prop where
  rest   : { t with fibres := s.fibres, wgs := s.wgs, mem := s.mem, hostMem := s.hostMem, peerMem := s.peerMem, cc := s.cc, l0 := s.l0, l2 := s.l2,
                    msc := s.msc, pmsc := s.pmsc, parErr := s.parErr, shadows := s.shadows, tlb := s.tlb, walks := s.walks } = s
  fibres : ∀ j, j ≠ s.cur → (t.fib j).bare = (s.fib j).bare
  kept   : t.me.bare.kept = s.me.bare.kept
  requests : t.me.scrRequests = s.me.scrRequests + BitVec.ofNat 64 scr.1
  passes : t.me.scrPasses = s.me.scrPasses + BitVec.ofNat 64 scr.2
  pend   : t.me.pend = s.me.countWord.pend ++ [s.headed hd p]
  wgs    : ∀ j, j ≠ wgOf s.cur → t.wg j = s.wg j
  own    : { t.wg (wgOf s.cur) with scratch := (s.wg (wgOf s.cur)).scratch, ob := (s.wg (wgOf s.cur)).ob } = s.wg (wgOf s.cur)
  bytes  : ∀ x : Spot, x.1 ≤ 4 → t.byteAt (wgOf s.cur) x = bytes x

/-- The elements of a word fault first at `x` (R276): every element before it may be accessed, or is a helper lane's. -/
def State.firstFault (s : State) (k space : Nat) (ak : AK) (help : Nat → Bool) (xs : List Elem) (x : Elem) (e : XErr) : Prop :=
  ∃ pre post, xs = pre ++ x :: post ∧ s.resolve k space ak x.al x.addr x.len = .error e ∧ (e ≠ .mig → help x.lane = false) ∧
    ∀ y ∈ pre, (∃ ps, s.resolve k space ak y.al y.addr y.len = .ok ps) ∨
      (help y.lane = true ∧ ∃ c, s.resolve k space ak y.al y.addr y.len = .error (.fault c))

/-- The fibre is frozen at its word by a page fault (R430); under FAULT_MODE 1 MSI-X vector 3 of its function is pending (R456). -/
structure Froze (s : State) (c : Cause) (lane : Nat) (addr : W64) (write : Bool) (t : State) : Prop where
  rest   : { t with fibres := s.fibres, vds := s.vds } = s
  fibres : ∀ j, j ≠ s.cur → t.fib j = s.fib j
  me     : t.me = { s.me with frozen := some { pages := [addr.toNat / 4096], cause := c, lane := lane, addr := addr, write := write } }
  vds    : ∀ v, v ≠ s.vdOf s.cur → t.vd v = s.vd v
  vd     : t.vd (s.vdOf s.cur) = { s.vd (s.vdOf s.cur) with msix := (s.vd (s.vdOf s.cur)).msix |||
             (if (s.vd (s.vdOf s.cur)).funcMode.getLsbD 0 then 8 else 0) }

/-- What an access that fails with `e` at an element leaves: a wait at a page in motion changes nothing; a page fault freezes the fibre;
any other fault is a trap that reports the lane, the address and 0 for a read, 1 for a write. -/
def Failed (s : State) (e : XErr) (lane : Nat) (addr : W64) (write : Bool) (t : State) : Prop :=
  match e with
  | .mig => t = s
  | .fault .pageFault => Froze s .pageFault lane addr write t
  | .fault .walkNode => Froze s .walkNode lane addr write t
  | .fault c => CanTrap s → TookTrap s c lane addr (if write then 1 else 0) s.me.entry.pc t

/-- The scratch counts of a word that moves w bytes a lane (R253). -/
def scrCounts (f : FM) (w : Nat) (as : List Acc) : Nat × Nat := if f.space = 1 then (1, scratchPasses w as) else (0, 0)

/-- The same of a store, whose helper lanes take part in its passes though they store nothing (R251). -/
def State.scrStore (s : State) (f : FM) (w : Nat) (xs : List Elem) : Nat × Nat :=
  if f.space = 1 then (1, s.elemPasses s.cur f.space.toNat w xs) else (0, 0)

/-! How the statements speak of a workgroup. -/

/-- One more pending word of the issuing fibre (R67). -/
def State.newPend (s : State) (hd : Head) (kind : PKind) (ready : Bool) (ws : List RegWrite) (poison : Option (Nat × W64)) : Pending :=
  s.headed hd (mkPend kind ws ready poison)

/-- A word has changed its workgroup to x, and its fibre by its place and by the pending words `more`; nothing else. -/
structure WgDone (s : State) (x : Wg) (more : List Pending) (t : State) : Prop where
  rest   : { t with fibres := s.fibres, wgs := s.wgs } = s
  fibres : ∀ j, j ≠ s.cur → t.fib j = s.fib j
  kept   : t.me.kept = s.me.kept
  pend   : t.me.pend = s.me.countWord.pend ++ more
  wgs    : ∀ j, j ≠ wgOf s.cur → t.wg j = s.wg j
  own    : t.wg (wgOf s.cur) = x

/-- The issuing workgroup. -/
def State.myWg (s : State) : Wg := s.wg (wgOf s.cur)

end Machine

end Sys2Proof
end

