-- ==== Sys2Proof/Certificates/Slice0/Obligations.lean ====
section
/-! DEFINITION. The statements for the provers. -/

set_option autoImplicit false

open Sys2Proof Sys2Proof.Machine

/-! The arithmetic of the vec and sca classes (R201 to R220). -/

/-- The exact result of R210 for each word, with whether it takes SAT. -/
def vecArith : List ((V3 → Instr) × Bool × (Nat → Int → Int → Int → Int)) :=
  [(.vadd, true, fun _ a b _ => a + b), (.vsub, true, fun _ a b _ => a - b), (.vmul, true, fun _ a b _ => a * b),
   (.vmulh, false, fun w a b _ => a * b / 2 ^ w), (.vmad, true, fun _ a b c => a * b + c), (.vabs, true, fun _ a _ _ => |a|),
   (.vneg, true, fun _ a _ _ => -a), (.vmin, false, fun _ a b _ => min a b), (.vmax, false, fun _ a b _ => max a b)]

/-- R210: every element of the result of vadd, vsub, vmul, vmulh, vmad, vabs, vneg, vmin and vmax is the exact integer result, narrowed
once, with SAT clamped to the range of TY; nothing else changes (R202). -/
def vecIntegerArithmeticRule : Prop :=
  ∀ p ∈ vecArith, VecV3 p.1 (fun s f l r => ∀ j, j < f.els →
    (elem f.w j r : Int) = fit f.ty.toNat (p.2.1 && f.mode = 1)
      (p.2.2 f.w (ext f.ty.toNat (elem f.w j (s.va f l))) (ext f.ty.toNat (elem f.w j (s.vb f l))) (ext f.ty.toNat (elem f.w j (s.vc f l)))) % 2 ^ f.w)

/-- R203: the B operand of a vec word. A vector register holds B whole; a scalar, or an immediate, is the same value in every element, an
immediate of a float type being converted exactly; a count of a type that is not packed is 32 bits of one register. -/
def vecOperandsRule : Prop :=
  ∀ (s : State) (f : V3) l,
    let b := s.ssrc s.cur f.b
    let c : W64 := tget 0 (s.wg (wgOf s.cur)).kregs f.b.toNat
    let all (v : Nat) (x : Int) : Prop := ∀ j, j < f.els → (elem f.w j v : Int) = x % 2 ^ f.w
    (f.bsel = 0 → s.vb f l = (if ty64 f.ty.toNat then (s.vreg s.cur (f.b.toNat + 1) l ++ s.vreg s.cur f.b.toNat l).toNat else (s.vreg s.cur f.b.toNat l).toNat)) ∧
    (f.bsel = 1 → all (s.vb f l) b.toNat) ∧ (f.bsel = 2 → all (s.vb f l) c.toNat) ∧
    (f.bsel = 3 → tyFloat f.ty.toNat = false → all (s.vb f l) f.b.toInt) ∧
    (f.bsel = 3 → tyFloat f.ty.toNat = true → 16 ≤ f.w → ∀ j, j < f.els → fltCond 0 ((tyFmt f.ty.toNat).value (elem f.w j (s.vb f l))) (FV.ofInt f.b.toInt)) ∧
    (f.bsel = 0 → s.vn f l = (s.vreg s.cur f.b.toNat l).toNat) ∧
    (f.els = 1 → (f.bsel = 1 → s.vn f l = b.toNat % 2 ^ 32) ∧ (f.bsel = 2 → s.vn f l = c.toNat % 2 ^ 32) ∧ (f.bsel = 3 → (s.vn f l : Int) = f.b.toInt % 2 ^ 32)) ∧
    (f.els ≠ 1 → (f.bsel = 1 → all (s.vn f l) b.toNat) ∧ (f.bsel = 2 → all (s.vn f l) c.toNat) ∧ (f.bsel = 3 → tyFloat f.ty.toNat = false → all (s.vn f l) f.b.toInt))

/-- R211: vand, vor, vxor, vnot and vlop3 work bit by bit, whatever the elements are. -/
def vecBitwiseRule : Prop :=
  VecV3 .vand (fun s f l r => ∀ i, i < tyBits f.ty.toNat → r.testBit i = ((s.va f l).testBit i && (s.vb f l).testBit i)) ∧
  VecV3 .vor (fun s f l r => ∀ i, i < tyBits f.ty.toNat → r.testBit i = ((s.va f l).testBit i || (s.vb f l).testBit i)) ∧
  VecV3 .vxor (fun s f l r => ∀ i, i < tyBits f.ty.toNat → r.testBit i = ((s.va f l).testBit i != (s.vb f l).testBit i)) ∧
  VecV3 .vnot (fun s f l r => ∀ i, i < tyBits f.ty.toNat → r.testBit i = !(s.va f l).testBit i) ∧
  VecV3 .vlop3 (fun s f l r => ∀ i, i < tyBits f.ty.toNat →
    r.testBit i = (lopBit (f.sub.extractLsb' 2 2).toNat (lopBit (f.sub.extractLsb' 0 2).toNat ((s.va f l).testBit i) ((s.vb f l).testBit i))
      ((s.vc f l).testBit i) != f.sub.getLsbD 4))

/-- The shift count of element j (R212): the matching element of B for a packed type, B's 32 bits otherwise. -/
def shiftCount (s : State) (f : V3) (l j : Nat) : Nat := if f.els = 1 then s.vn f l else elem f.w j (s.vn f l)

/-- R212: vshl, vshr and vsra shift each element by its own count; a count of the width or more leaves 0, or the sign in every bit. -/
def vecShiftsRule : Prop :=
  VecV3 .vshl (fun s f l r => ∀ j, j < f.els → elem f.w j r = (BitVec.ofNat f.w (elem f.w j (s.va f l)) <<< shiftCount s f l j).toNat) ∧
  VecV3 .vshr (fun s f l r => ∀ j, j < f.els → elem f.w j r = (BitVec.ofNat f.w (elem f.w j (s.va f l)) >>> shiftCount s f l j).toNat) ∧
  VecV3 .vsra (fun s f l r => ∀ j, j < f.els → elem f.w j r = ((BitVec.ofNat f.w (elem f.w j (s.va f l))).sshiftRight (shiftCount s f l j)).toNat)

/-- R213: vbfe extracts, and vbfi inserts, the field that the control word k = B[31:0] names: pos = k[7:0], len = min(k[15:8], w). -/
def vecBitfieldsRule : Prop :=
  VecV3 .vbfe (fun s f l r => ∀ i, i < tyBits f.ty.toNat →
    r.testBit i = fieldBit (tySigned f.ty.toNat) (tyBits f.ty.toNat) (s.vn f l % 256) (min (s.vn f l / 256 % 256) (tyBits f.ty.toNat)) (s.va f l) i) ∧
  VecV3 .vbfi (fun s f l r => ∀ i, i < tyBits f.ty.toNat →
    r.testBit i = insertBit (s.vn f l % 256) (min (s.vn f l / 256 % 256) (tyBits f.ty.toNat)) (s.va f l) (s.vc f l) i)

/-- R214: vpopc counts the one bits of each element, vclz its zero bits above the highest one, and vbrev reverses all 32 or 64 bits. -/
def vecCountsRule : Prop :=
  VecV3 .vpopc (fun s f l r => ∀ j, j < f.els → elem f.w j r = ((List.range f.w).filter (fun i => (elem f.w j (s.va f l)).testBit i)).length) ∧
  VecV3 .vclz (fun s f l r => ∀ j, j < f.els → elem f.w j r ≤ f.w ∧
    (∀ i, i < f.w → f.w - elem f.w j r ≤ i → (elem f.w j (s.va f l)).testBit i = false) ∧
    (elem f.w j r < f.w → (elem f.w j (s.va f l)).testBit (f.w - 1 - elem f.w j r) = true)) ∧
  VecV3 .vbrev (fun s f l r => ∀ i, i < tyBits f.ty.toNat → r.testBit i = (s.va f l).testBit (tyBits f.ty.toNat - 1 - i))

/-- Source byte n of vperm (R215). -/
def permByte (a b n : Nat) : Nat := if n < 4 then elem 8 n a else elem 8 (n - 4) b

/-- R215, R216: vperm picks bytes by nibble, with a sign fill; vdot4 and vsad add products, or absolute differences, to c. -/
def vecBytesAndSumsRule : Prop :=
  VecV3 .vperm (fun s f l r => ∀ j, j < 4 →
    let n := elem 4 j (s.vc f l)
    let y := permByte (s.va f l) (s.vb f l) (n % 8)
    elem 8 j r = if n < 8 then y else if y.testBit 7 then 255 else 0) ∧
  VecV3 .vdot4 (fun s f l r =>
    let e (v j : Nat) : Int := ext f.ty.toNat (elem 8 j v)
    let c : Int := if f.ty = 16 then (s.vreg s.cur f.c.toNat l).toInt else (s.vreg s.cur f.c.toNat l).toNat
    f.ty = 16 ∨ f.ty = 17 → (r : Int) = fit (if f.ty = 16 then 4 else 5) (f.mode = 1) (c + e (s.va f l) 0 * e (s.vb f l) 0 +
      e (s.va f l) 1 * e (s.vb f l) 1 + e (s.va f l) 2 * e (s.vb f l) 2 + e (s.va f l) 3 * e (s.vb f l) 3) % 2 ^ 32) ∧
  VecV3 .vsad (fun s f l r =>
    let e (v j : Nat) : Int := elem f.w j v
    f.ty = 15 ∨ f.ty = 17 → (r : Int) = fit 5 (f.mode = 1) ((s.vreg s.cur f.c.toNat l).toNat +
      ((List.range f.els).map (fun j => |e (s.va f l) j - e (s.vb f l) j|)).sum) % 2 ^ 32)

/-- R217: vpack narrows, or rounds, a and b into the two elements; vunpack widens one element. -/
def vecPackAndUnpackRule : Prop :=
  (∀ s (f : V3), f.ty = 14 ∨ f.ty = 15 ∨ f.ty = 18 ∨ f.ty = 19 → VecDone (.vpack f) f.hd f.d.toNat false f.z s (fun l r =>
    let b := s.vecB s.cur (if tyFloat f.ty.toNat then 10 else 4) f l
    if f.ty = 14 ∨ f.ty = 15 then
      (elem 16 0 r : Int) = fit f.ty.toNat (f.mode = 1) (sgn 32 (s.va f l)) % 2 ^ 16 ∧ (elem 16 1 r : Int) = fit f.ty.toNat (f.mode = 1) (sgn 32 b) % 2 ^ 16
    else
      elem 16 0 r = (tyFmt f.ty.toNat).round f.mode.toNat (f32.value (s.va f l)) ∧ elem 16 1 r = (tyFmt f.ty.toNat).round f.mode.toNat (f32.value b))) ∧
  (∀ s (f : V3), VecDone (.vunpack f) f.hd f.d.toNat false f.z s (fun l r =>
    let x := elem f.w f.sub.toNat (s.va f l)
    if f.ty = 18 ∨ f.ty = 19 then r = f32.round 0 ((tyFmt f.ty.toNat).value x)
    else if f.ty = 14 ∨ f.ty = 16 then (r : Int) = sgn f.w x % 2 ^ 32
    else if f.ty = 15 ∨ f.ty = 17 then r = x else True))

/-- R218, R224: vcmp and fcmp write to p(D) in each acting lane whether their condition holds there. -/
def vecComparesRule : Prop :=
  (∀ s (f : V3), PredDone (.vcmp f) f.hd f.d.toNat s (fun l =>
    intCond f.md.toNat (ext f.ty.toNat (s.va f l)) (ext f.ty.toNat (s.vb f l)))) ∧
  (∀ s (f : V3), PredDone (.fcmp f) f.hd f.d.toNat s (fun l =>
    fltCond f.md.toNat ((tyFmt f.ty.toNat).value (s.va f l % 2 ^ f.w)) ((tyFmt f.ty.toNat).value (s.vb f l % 2 ^ f.w))))

/-- R219, R220: vsel, vmov, vmovi and stov carry bits without arithmetic. -/
def vecMovesRule : Prop :=
  VecV3 .vsel (fun s f l r => r = if (s.me.preg f.c.toNat).getLsbD l then s.va f l else s.vb f l) ∧
  VecV3 .vmov (fun s f l r => r = s.va f l) ∧
  (∀ s (f : VI), VecDone (.vmovi f) (viHead f) f.d.toNat (ty64 f.ty.toNat) false s (fun _ r =>
    r = if f.ty = 6 then (f.imm.signExtend 64).toNat else f.imm.toNat)) ∧
  (∀ s (f : V3), VecDone (.stov f) f.hd f.d.toNat (ty64 (scaTy f.ty)) false s (fun _ r =>
    r = if ty64 (scaTy f.ty) then (s.sa f).toNat else ((s.sa f).setWidth 32).toNat))

/-- The exact result of R210 for each sca word, with whether it takes SAT. -/
def scaArith : List ((V3 → Instr) × Bool × (Nat → Int → Int → Int → Int)) :=
  [(.sadd, true, fun _ a b _ => a + b), (.ssub, true, fun _ a b _ => a - b), (.smul, true, fun _ a b _ => a * b),
   (.smulh, false, fun w a b _ => a * b / 2 ^ w), (.smad, true, fun _ a b c => a * b + c), (.sabs, true, fun _ a _ _ => |a|),
   (.smin, false, fun _ a b _ => min a b), (.smax, false, fun _ a b _ => max a b)]

/-- R205, R210: sadd, ssub, smul, smulh, smad, sabs, smin and smax write the exact integer result, narrowed once and extended by TY. -/
def scalarArithmeticRule : Prop :=
  ∀ p ∈ scaArith, ∀ s (f : V3), f.scaOk → ScaDone (p.1 f) f.hd f.d.toNat s
    (let ty := scaTy f.ty
     scaBits ty (BitVec.ofInt 64 (fit ty (p.2.1 && f.mode = 1)
       (p.2.2 (tyBits ty) (ext ty (s.sa f).toNat) (ext ty (s.sb f).toNat) (ext ty (s.sc f).toNat)))))

/-- R205, R211, R212: the bitwise operations and shifts of the sca class; the count of a shift is all 64 bits of B. -/
def scalarLogicAndShiftsRule : Prop :=
  ∀ s (f : V3), f.scaOk →
    let ty := scaTy f.ty
    ScaDone (.sand f) f.hd f.d.toNat s (scaBits ty (s.sa f &&& s.sb f)) ∧
    ScaDone (.sor f) f.hd f.d.toNat s (scaBits ty (s.sa f ||| s.sb f)) ∧
    ScaDone (.sxor f) f.hd f.d.toNat s (scaBits ty (s.sa f ^^^ s.sb f)) ∧
    ScaDone (.snot f) f.hd f.d.toNat s (scaBits ty (~~~ s.sa f)) ∧
    ScaDone (.sshl f) f.hd f.d.toNat s (scaBits ty (s.sa f <<< (s.sb f).toNat)) ∧
    ScaDone (.sshr f) f.hd f.d.toNat s (scaBits ty (scaLow ty (s.sa f) >>> (s.sb f).toNat)) ∧
    ScaDone (.ssra f) f.hd f.d.toNat s
      (scaBits ty ((if ty64 ty then s.sa f else ((s.sa f).setWidth 32).signExtend 64).sshiftRight (s.sb f).toNat))

/-- R203, R210 to R212: the integer arithmetic, the bitwise instructions and the shifts of both classes, and the B operand of a vec word. -/
def Obligations.IntegersAndLogic : Prop := vecIntegerArithmeticRule ∧ vecOperandsRule ∧ scalarArithmeticRule ∧ vecBitwiseRule ∧ vecShiftsRule ∧ scalarLogicAndShiftsRule

/-- R205, R213, R214: bitfields and counts of the sca class, on the low 32 bits for a 32-bit type. -/
def scalarBitfieldsAndCountsRule : Prop :=
  ∀ s (f : V3), f.scaOk →
    let ty := scaTy f.ty
    let w := tyBits ty
    let a := (scaLow ty (s.sa f)).toNat
    let k := (s.sb f).toNat
    (∃ r : Nat, ScaDone (.sbfe f) f.hd f.d.toNat s (scaBits ty (BitVec.ofNat 64 r)) ∧
      ∀ i, i < w → r.testBit i = fieldBit (tySigned ty) w (k % 256) (min (k / 256 % 256) w) a i) ∧
    (∃ r : Nat, ScaDone (.sbfi f) f.hd f.d.toNat s (scaBits ty (BitVec.ofNat 64 r)) ∧
      ∀ i, i < w → r.testBit i = insertBit (k % 256) (min (k / 256 % 256) w) a (s.sc f).toNat i) ∧
    ScaDone (.spopc f) f.hd f.d.toNat s (BitVec.ofNat 64 ((List.range w).filter (fun i => a.testBit i)).length) ∧
    (∃ n, n ≤ w ∧ ScaDone (.sclz f) f.hd f.d.toNat s (BitVec.ofNat 64 n) ∧
      (∀ i, i < w → w - n ≤ i → a.testBit i = false) ∧ (n < w → a.testBit (w - 1 - n) = true)) ∧
    (∃ n, n ≤ w ∧ ScaDone (.sctz f) f.hd f.d.toNat s (BitVec.ofNat 64 n) ∧
      (∀ i, i < n → a.testBit i = false) ∧ (n < w → a.testBit n = true))

/-- R213 to R217: the bitfield and the counting instructions of both classes, byte permutations, sums and packs. -/
def Obligations.FieldsBytesAndPacks : Prop := vecBitfieldsRule ∧ vecCountsRule ∧ scalarBitfieldsAndCountsRule ∧ vecBytesAndSumsRule ∧ vecPackAndUnpackRule

/-- R74, R218 to R220: the compare, the select and the moves of the sca class. -/
def scalarMovesRule : Prop :=
  (∀ s (f : V3), f.scaOk → PredDone (.scmp f) f.hd f.d.toNat s (fun _ =>
    intCond f.md.toNat (ext (scaTy f.ty) (s.sa f).toNat) (ext (scaTy f.ty) (s.sb f).toNat))) ∧
  (∀ s (f : V3), ScaDone (.ssel f) f.hd f.d.toNat s (if s.sc f ≠ 0 then s.sa f else s.sb f)) ∧
  (∀ s (f : V3), ScaDone (.smov f) f.hd f.d.toNat s (s.sa f)) ∧
  (∀ s (f : VI), ScaDone (.smovi f) (viHead f) f.d.toNat s
    (if f.ty = 5 ∨ f.ty = 7 then f.imm.setWidth 64 else if f.ty = 0 ∨ f.ty = 4 ∨ f.ty = 6 then f.imm.signExtend 64
     else if tySigned f.ty.toNat then f.imm.signExtend 64 else f.imm.setWidth 64)) ∧
  (∀ s (f : VI), ∃ v, ScaDone (.smovh f) (viHead f) f.d.toNat s v ∧
    (f.mode = 0 → v.extractLsb' 32 32 = f.imm ∧ v.extractLsb' 0 32 = (s.ssrc s.cur f.a).extractLsb' 0 32) ∧
    (f.mode = 1 → v.extractLsb' 0 32 = f.imm ∧ v.extractLsb' 32 32 = (s.ssrc s.cur f.a).extractLsb' 32 32)) ∧
  (∀ s (f : V3), ScaDone (.sfromk f) f.hd f.d.toNat s (tget 0 (s.wg (wgOf s.cur)).kregs f.a.toNat)) ∧
  (∀ s (f : V3), f.scaOk → ScaDone (.sfromv f) f.hd f.d.toNat s
    (let l := (s.sb f).toNat % 32
     if ty64 (scaTy f.ty) then s.vreg s.cur (f.a.toNat + 1) l ++ s.vreg s.cur f.a.toNat l
     else scaBits (scaTy f.ty) ((s.vreg s.cur f.a.toNat l).setWidth 64)))

/-- R218 to R220, R224: the compares, selects and moves of both classes. -/
def Obligations.ComparesAndMoves : Prop := vecComparesRule ∧ vecMovesRule ∧ scalarMovesRule

/-! Floats (R221 to R230). -/

/-- R222: fadd, fsub, fmul and fma compute the exact result of their modified operands and round it once, element by element. -/
def Obligations.FloatArithmetic : Prop :=
  let fm (f : V3) : Fmt := tyFmt f.ty.toNat
  let a (s : State) (f : V3) (l j : Nat) : FV := (fm f).value (modA (fm f) f.md (elem f.w j (s.va f l)))
  let b (s : State) (f : V3) (l j : Nat) : FV := (fm f).value (modB (fm f) f.md (elem f.w j (s.vb f l)))
  let c (s : State) (f : V3) (l j : Nat) : FV := (fm f).value (elem f.w j (s.vc f l))
  let ok (f : V3) : Prop := f.ty = 18 ∨ f.ty = 19 ∨ f.ty = 10 ∨ f.ty = 11
  VecV3 .fadd (fun s f l r => ok f → ∀ j, j < f.els → elem f.w j r = (fm f).round f.mode.toNat ((a s f l j).add (f.mode = 3) (b s f l j))) ∧
  VecV3 .fsub (fun s f l r => ok f → ∀ j, j < f.els → elem f.w j r = (fm f).round f.mode.toNat ((a s f l j).add (f.mode = 3) (b s f l j).negate)) ∧
  VecV3 .fmul (fun s f l r => ok f → ∀ j, j < f.els → elem f.w j r = (fm f).round f.mode.toNat ((a s f l j).mul (b s f l j))) ∧
  VecV3 .fma (fun s f l r => ok f → ∀ j, j < f.els →
    elem f.w j r = (fm f).round f.mode.toNat (((a s f l j).mul (b s f l j)).add (f.mode = 3) (c s f l j)))

/-- R223: what fmin (`lo`) or fmax returns of its modified operands x and y. -/
def MinMax (fm : Fmt) (lo : Bool) (x y r : Nat) : Prop :=
  let a := fm.value x
  let b := fm.value y
  (a.isNan = true → b.isNan = true → r = fm.cnan) ∧ (a.isNan = true → b.isNan = false → r = y) ∧ (a.isNan = false → b.isNan = true → r = x) ∧
  (a.isNan = false → b.isNan = false → (r = x ∨ r = y) ∧
    (a.lt b = true → r = if lo then x else y) ∧ (b.lt a = true → r = if lo then y else x) ∧
    (a.lt b = false → b.lt a = false → a.neg ≠ b.neg → (fm.value r).neg = lo))

/-- R223, R224, R228: fmin and fmax return one of their operands; fclass writes a one-hot class; fsgn moves sign bits alone. -/
def Obligations.FloatSelects : Prop :=
  let fm (f : V3) : Fmt := tyFmt f.ty.toNat
  let ok (f : V3) : Prop := f.ty = 18 ∨ f.ty = 19 ∨ f.ty = 10 ∨ f.ty = 11
  VecV3 .fmin (fun s f l r => ok f → ∀ j, j < f.els →
    MinMax (fm f) true (modA (fm f) f.md (elem f.w j (s.va f l))) (modB (fm f) f.md (elem f.w j (s.vb f l))) (elem f.w j r)) ∧
  VecV3 .fmax (fun s f l r => ok f → ∀ j, j < f.els →
    MinMax (fm f) false (modA (fm f) f.md (elem f.w j (s.va f l))) (modB (fm f) f.md (elem f.w j (s.vb f l))) (elem f.w j r)) ∧
  (∀ s (f : V3), ok f → VecDone (.fclass f) f.hd f.d.toNat false f.z s (fun l r => ∀ j, j < f.els →
    let x := elem f.w j (s.va f l)
    let v := (fm f).value x
    (if f.els = 1 then r else elem f.w j r) =
      2 ^ (match v with
        | .nan => 8
        | .inf n => if n then 0 else 7
        | .num n m _ => if m = 0 then (if n then 3 else 4) else if x / 2 ^ (fm f).frac % (fm f).emax = 0 then (if n then 2 else 5) else if n then 1 else 6))) ∧
  VecV3 .fsgn (fun s f l r => ok f → f.sub.toNat < 5 → ∀ j, j < f.els →
    let x := elem f.w j (s.va f l)
    let y := elem f.w j (s.vb f l)
    (∀ i, i < f.w - 1 → (elem f.w j r).testBit i = x.testBit i) ∧
    (elem f.w j r).testBit (f.w - 1) =
      (if f.sub = 0 then y.testBit (f.w - 1) else if f.sub = 1 then !y.testBit (f.w - 1) else if f.sub = 2 then x.testBit (f.w - 1) != y.testBit (f.w - 1)
       else if f.sub = 3 then false else !x.testBit (f.w - 1)))

/-- R225, R229, R230: frint and fscale round once; fcvt and icvt convert by R196 and R197, and fill the lane by R204. -/
def floatRoundingAndConversionRule : Prop :=
  let fm (ty : Nat) : Fmt := tyFmt ty
  let ok (f : V3) : Prop := f.ty = 18 ∨ f.ty = 19 ∨ f.ty = 10 ∨ f.ty = 11
  let place (ty v : Nat) : Int := if ty64 ty then v else if tySigned ty then sgn (tyElem ty).1 v % 2 ^ 32 else v
  VecV3 .frint (fun s f l r => ok f → ∀ j, j < f.els →
    elem f.w j r = match (fm f.ty.toNat).value (modA (fm f.ty.toNat) f.md (elem f.w j (s.va f l))) with
      | .nan => (fm f.ty.toNat).cnan
      | .inf n => (fm f.ty.toNat).infBits n
      | .num n m e => (fm f.ty.toNat).round 0 (.num n (roundInt f.mode.toNat n m e).natAbs 0)) ∧
  VecV3 .fscale (fun s f l r => ok f → ∀ j, j < f.els →
    elem f.w j r = (fm f.ty.toNat).round f.mode.toNat
      (((fm f.ty.toNat).value (modA (fm f.ty.toNat) f.md (elem f.w j (s.va f l)))).scale (BitVec.ofNat 32 (s.scaleCnt s.cur f l)).toInt)) ∧
  VecV3 .fcvt (fun s f l r => tyFloat f.ty.toNat = true → tyFloat f.sub.toNat = true → f.ty.toNat ≤ 13 → f.sub.toNat ≤ 13 →
    (r : Int) = place f.ty.toNat ((fm f.ty.toNat).round f.mode.toNat
      ((fm f.sub.toNat).value (s.vval s.cur f.sub.toNat f.a.toNat l % 2 ^ (tyElem f.sub.toNat).1)))) ∧
  VecV3 .icvt (fun s f l r => f.ty.toNat ≤ 13 → f.sub.toNat ≤ 13 → ∃ v,
    (r : Int) = place f.ty.toNat v ∧ v < 2 ^ f.w ∧
    let x := s.vval s.cur f.sub.toNat f.a.toNat l % 2 ^ (tyElem f.sub.toNat).1
    (tyFloat f.ty.toNat = true → tyFloat f.sub.toNat = false → v = (fm f.ty.toNat).round f.mode.toNat (FV.ofInt (ext f.sub.toNat x))) ∧
    (tyFloat f.ty.toNat = false → tyFloat f.sub.toNat = false → (v : Int) = fit f.ty.toNat (f.mode = 1) (ext f.sub.toNat x) % 2 ^ f.w) ∧
    (tyFloat f.ty.toNat = false → tyFloat f.sub.toNat = true → (v : Int) =
      (match (fm f.sub.toNat).value x with
        | .nan => 0
        | .inf n => if n then tyMin f.ty.toNat else tyMax f.ty.toNat
        | .num n m e => fit f.ty.toNat true (roundInt f.mode.toNat n m e)) % 2 ^ f.w))

/-- The special inputs of the functions (R226), by the value of the modified operand; `none` where the result is an ordinary one. -/
def specialOf (i : Nat) (fm : Fmt) (v : FV) : Option Nat :=
  match i, v with
  | _, .nan => some fm.cnan
  | 0, .inf n => some (fm.sign n)
  | 0, .num n 0 _ => some (fm.infBits n)
  | 1, .inf n => some (if n then fm.cnan else 0)
  | 1, .num n 0 _ => some (fm.infBits n)
  | 1, .num true _ _ => some fm.cnan
  | 2, .inf n => some (if n then fm.cnan else fm.infBits false)
  | 2, .num n 0 _ => some (fm.sign n)
  | 2, .num true _ _ => some fm.cnan
  | 3, .inf n => some (if n then 0 else fm.infBits false)
  | 4, .inf n => some (if n then fm.cnan else fm.infBits false)
  | 4, .num _ 0 _ => some (fm.infBits true)
  | 4, .num true _ _ => some fm.cnan
  | 5, .inf _ => some fm.cnan
  | 5, .num n 0 _ => some (fm.sign n)
  | 6, .inf _ => some fm.cnan
  | 6, .num _ 0 _ => some 0x3F800000
  | 7, .inf n => some (if n then 0xBF800000 else 0x3F800000)
  | 7, .num n 0 _ => some (fm.sign n)
  | _, _ => none

/-- The functions of R226 in the order of `specialOf`. -/
def functions : List ((V3 → Instr) × Nat) :=
  [(.frcp, 0), (.frsq, 1), (.fsqrt, 2), (.fex2, 3), (.flg2, 4), (.fsin, 5), (.fcos, 6), (.ftanh, 7)]

/-- R201, R226: frcp, frsq, fsqrt, fex2, flg2, fsin, fcos and ftanh become pending with their results, which on special inputs are
those of R226's table; registers are written when they complete. -/
def floatFunctionsRule : Prop :=
  ∀ p ∈ functions, LongDone p.1 (fun s f l r => f.ty = 10 ∨ (f.ty = 11 ∧ p.2 ≤ 2) →
    ∀ v, specialOf p.2 (tyFmt f.ty.toNat) ((tyFmt f.ty.toNat).value (modA (tyFmt f.ty.toNat) f.md (s.va f l))) = some v → r = v)

/-- R225, R226, R229, R230. -/
def Obligations.FloatConversionsAndFunctions : Prop := floatRoundingAndConversionRule ∧ floatFunctionsRule

/-- An exact value as a rational number. -/
def ratOf : FV → ℚ
  | .num n m e => (if n then -1 else 1) * m * (2 : ℚ) ^ e
  | _ => 0

/-- R191, R192: a finite value of a magnitude up to the largest of the format is rounded, by MODE, to the nearest value of the format, ties
to even or away from zero, or to the next value towards zero, up or down. -/
def Obligations.RoundingIsCorrect : Prop :=
  ∀ fm ∈ [f64, f32, f16, bf16, f8a, f8b], ∀ (mode : Nat) (n : Bool) (m : Nat) (e : Int),
    let x := ratOf (.num n m e)
    |x| ≤ ratOf (fm.value (fm.maxBits false)) →
    let r := fm.round mode (.num n m e)
    let y := ratOf (fm.value r)
    (∃ m' e', fm.value r = .num n m' e') ∧ r < 2 ^ fm.width ∧
    ∀ b, b < 2 ^ fm.width → (∃ n' m' e', fm.value b = .num n' m' e') →
      let z := ratOf (fm.value b)
      (mode = 0 → |x - y| ≤ |x - z| ∧ (|x - y| = |x - z| → z ≠ y → r % 2 = 0)) ∧
      (mode = 1 → |y| ≤ |x| ∧ (|z| ≤ |x| → |z| ≤ |y|)) ∧
      (mode = 2 → x ≤ y ∧ (x ≤ z → y ≤ z)) ∧
      (mode = 3 → y ≤ x ∧ (z ≤ x → z ≤ y)) ∧
      (mode = 4 → |x - y| ≤ |x - z| ∧ (|x - y| = |x - z| → |z| ≤ |y|))

/-! Lanes, quads and predicates (R231 to R245). -/

/-- What a lane r receives of a source lane x (R236): x's value where x is an acting lane, its own otherwise. -/
def Received (s : State) (f : V3) (r : Nat) (x : Int) (v : Nat) : Prop :=
  (∀ y : Nat, x = y → y < 32 → (s.acts s.cur f.hd).getLsbD y = true → v = s.va f y) ∧
  ((∀ y : Nat, x = y → y < 32 → (s.acts s.cur f.hd).getLsbD y = false) → v = s.va f r)

/-- R236 to R240: shfl, qswp and qbc give each acting lane the value of the lane that it names. -/
def Obligations.LaneExchanges : Prop :=
  let b (s : State) (f : V3) (r : Nat) : Nat := s.vecCnt s.cur 5 f r
  VecV3 .shfl (fun s f r v =>
    (f.sub = 0 → Received s f r (b s f r % 32 : Nat) v) ∧ (f.sub = 1 → Received s f r (r - b s f r) v) ∧
    (f.sub = 2 → Received s f r (r + b s f r) v) ∧ (f.sub = 3 → Received s f r (r ^^^ (b s f r % 32) : Nat) v)) ∧
  VecV3 .qswp (fun s f r v => f.sub.toNat < 3 → Received s f r (r ^^^ (f.sub.toNat + 1) : Nat) v) ∧
  VecV3 .qbc (fun s f r v => Received s f r (4 * (r / 4) + b s f r % 4 : Nat) v)

/-- R232, R237, R241: vote, ballot and pcnt count the contributors, the acting lanes that are not helper lanes. -/
def votesBallotsAndCountsRule : Prop :=
  let c (s : State) (f : V3) (l : Nat) : Prop := s.voters f.hd l
  let p (s : State) (f : V3) (l : Nat) : Prop := s.voters f.hd l ∧ (s.me.preg f.a.toNat).getLsbD l = true
  (∀ s (f : V3), f.sub.toNat < 3 → PredDone (.vote f) f.hd f.d.toNat s (fun _ =>
    (f.sub = 0 ∧ ∃ l, p s f l) ∨ (f.sub = 1 ∧ ∀ l, c s f l → p s f l) ∨ (f.sub = 2 ∧ ((∀ l, ¬ p s f l) ∨ ∀ l, c s f l → p s f l)))) ∧
  (∀ s (f : V3), f.sub.toNat < 3 → ∃ m : LaneMask, (∀ l, l < 32 → (m.getLsbD l = true ↔ p s f l)) ∧
    ScaDone (.ballot f) f.hd f.d.toNat s
      (if f.sub = 0 then m.setWidth 64 else if f.sub = 1 then (s.me.sreg f.d.toNat &&& 0xFFFFFFFF00000000) ||| m.setWidth 64
       else (s.me.sreg f.d.toNat &&& 0x00000000FFFFFFFF) ||| (m.setWidth 64 <<< 32))) ∧
  (∀ s (f : V3), ∃ m : LaneMask, (∀ l, l < 32 → (m.getLsbD l = true ↔ p s f l)) ∧
    ScaDone (.pcnt f) f.hd f.d.toNat s (BitVec.ofNat 64 ((List.range 32).filter (fun l => m.getLsbD l)).length))

/-- The fixed tree of R243: the sum of the 2^k positions from l on, `none` for EMPTY. -/
def treeAt (mode : Nat) (x : Nat → Option Nat) : Nat → Nat → Option Nat
  | 0, l => x l
  | k + 1, l =>
    match treeAt mode x k l, treeAt mode x k (l + 2 ^ k) with
    | a, none => a
    | none, b => b
    | some a, some b => some (f32.round mode ((f32.value a).add (mode = 3) (f32.value b)))

/-- Step of R244 for f32, `none` for EMPTY; `op` 0 add, 1 min, 2 max. -/
def fltStep (op mode : Nat) (a : Option Nat) (x : Nat) : Nat :=
  match op, a with
  | _, none => if (f32.value x).isNan then 0x7FC00000 else x
  | 0, some y => f32.round mode ((f32.value y).add (mode = 3) (f32.value x))
  | 1, some y => f32.minBits y x
  | _, some y => f32.maxVal y x

/-- Step of R244 for an integer type. -/
def intStep (ty op : Nat) (sat : Bool) (a x : Nat) : Nat :=
  match op with
  | 0 => narrow ty sat (ext ty a + ext ty x)
  | 1 => if ext ty a ≤ ext ty x then a else x
  | 2 => if ext ty x ≤ ext ty a then a else x
  | 3 => a &&& x
  | 4 => a ||| x
  | _ => a ^^^ x

/-- The identity of an operator (R242). -/
def identOf (ty op : Nat) : Nat :=
  let w := (tyElem ty).1
  if ty = 10 then (if op = 0 then 0 else if op = 1 then 0x7F800000 else 0xFF800000)
  else
    match op with
    | 1 => wrap w (tyMax ty)
    | 2 => wrap w (tyMin ty)
    | 3 => 2 ^ w - 1
    | _ => 0

/-- The running value of R244 over the lanes below n: EMPTY as long as no contributor is below. -/
def runTo (s : State) (f : V3) : Nat → Option Nat
  | 0 => none
  | n + 1 =>
    let a := runTo s f n
    if (s.acts s.cur f.hd).getLsbD n && !s.me.helper.getLsbD n then
      let x := s.va f n
      let op := f.sub.toNat % 8
      some (if f.ty = 10 then fltStep op f.mode.toNat a x else intStep f.ty.toNat op (op = 0 && f.mode = 1) (a.getD (identOf f.ty.toNat op)) x)
    else a

/-- The contributors' values of an integer sum, exactly (R243). -/
def exactSum (s : State) (f : V3) : Nat → Int
  | 0 => 0
  | n + 1 => exactSum s f n + (if (s.acts s.cur f.hd).getLsbD n && !s.me.helper.getLsbD n then ext f.ty.toNat (s.va f n) else 0)

/-- R242 to R244: vred gives every acting lane one value, by the fixed tree for an f32 sum and from the exact sum for an integer one; vscan
gives each its running value, inclusive or exclusive. Both become pending with their results. -/
def Obligations.ReductionsAndScans : Prop :=
  let ok (f : V3) : Prop := (f.ty = 4 ∨ f.ty = 5 ∨ f.ty = 6 ∨ f.ty = 7) ∧ f.sub.toNat % 8 ≤ 5 ∨ f.ty = 10 ∧ f.sub.toNat % 8 ≤ 2
  LongDone .vred (fun s f _ r => ok f →
    let op := f.sub.toNat % 8
    let x (l : Nat) : Option Nat := if (s.acts s.cur f.hd).getLsbD l && !s.me.helper.getLsbD l then some (s.va f l) else none
    if op = 0 then
      (f.ty = 10 → ∃ v, treeAt f.mode.toNat x 5 0 = v ∧ r = if (f32.value (v.getD 0)).isNan then 0x7FC00000 else v.getD 0) ∧
      (f.ty ≠ 10 → (r : Int) = fit f.ty.toNat (f.mode = 1) (exactSum s f 32) % 2 ^ f.w)
    else r = (runTo s f 32).getD (identOf f.ty.toNat op)) ∧
  LongDone .vscan (fun s f l r => ok f →
    r = (runTo s f (if f.sub.getLsbD 3 then l else l + 1)).getD (identOf f.ty.toNat (f.sub.toNat % 8)))

/-- R231: pand, por, pxor, pnot and pmov write p(D) in each acting lane. -/
def predicateLogicRule : Prop :=
  let x (s : State) (f : V3) (l : Nat) : Bool := (s.me.preg f.a.toNat).getLsbD l != f.sub.getLsbD 0
  let y (s : State) (f : V3) (l : Nat) : Bool := (s.me.preg f.b.toNat).getLsbD l != f.sub.getLsbD 1
  (∀ s (f : V3), PredDone (.pand f) f.hd f.d.toNat s (fun l => x s f l = true ∧ y s f l = true)) ∧
  (∀ s (f : V3), PredDone (.por f) f.hd f.d.toNat s (fun l => x s f l = true ∨ y s f l = true)) ∧
  (∀ s (f : V3), PredDone (.pxor f) f.hd f.d.toNat s (fun l => x s f l ≠ y s f l)) ∧
  (∀ s (f : V3), PredDone (.pnot f) f.hd f.d.toNat s (fun l => (s.me.preg f.a.toNat).getLsbD l = false)) ∧
  (∀ s (f : V3), PredDone (.pmov f) f.hd f.d.toNat s (fun l => (s.me.preg f.a.toNat).getLsbD l = true))

/-- R231, R232, R237, R241. -/
def Obligations.VotesAndPredicates : Prop := votesBallotsAndCountsRule ∧ predicateLogicRule

/-! Pair words (R81 to R84, R233). -/

/-- The vector half of a pair word on an element (R82): integer arithmetic narrowed without SAT, shifts, and floats rounded to
nearest even. -/
def halfElem (vop ty w : Nat) (a b : Nat) : Nat :=
  let x := ext ty a
  let y := ext ty b
  let fm := tyFmt ty
  match vop with
  | 0 => wrap w (x + y) | 1 => wrap w (x - y) | 2 => wrap w (x * y) | 3 => wrap w (min x y) | 4 => wrap w (max x y)
  | 5 => a &&& b | 6 => a ||| b | 7 => a ^^^ b
  | 8 => (BitVec.ofNat w a <<< b).toNat | 9 => (BitVec.ofNat w a >>> b).toNat | 10 => ((BitVec.ofNat w a).sshiftRight b).toNat
  | 11 => a
  | 12 => fm.round 0 ((fm.value a).add false (fm.value b)) | 13 => fm.round 0 ((fm.value a).add false (fm.value b).negate)
  | 14 => fm.round 0 ((fm.value a).mul (fm.value b)) | 15 => fm.minBits a b | _ => fm.maxVal a b

/-- The scalar half of a pair word on all 64 bits (R83). -/
def halfScalar (sop : Nat) (simm : BitVec 12) (a b : W64) : W64 :=
  match sop with
  | 0 => a + b | 1 => a - b | 2 => a * b | 3 => a &&& b | 4 => a ||| b | 5 => a ^^^ b | 6 => a <<< b.toNat | 7 => a >>> b.toNat
  | 8 => if a.toInt < b.toInt then a else b | 9 => if a.toInt < b.toInt then b else a | 10 => a | _ => simm.signExtend 64

/-- R81 to R84, R233: a pair word reads the sources of both halves, then writes v(VD) in the acting lanes and s(SD), or for scmp p(SD) in
the acting lanes. -/
def Obligations.PairWord : Prop :=
  ∀ s (f : FP), let acts := s.guard s.cur f.gn f.gp
    let ty := pairTy f.vty.toNat
    let w := (tyElem ty).1
    let a := s.ssrc s.cur f.sa
    let b := s.ssrc s.cur f.sb
    let cond := intCond f.simm.toNat a.toInt b.toInt
    Plain s → acts ≠ 0 → f.sop.toNat ≤ 12 → f.vop.toNat ≤ 16 → (12 ≤ f.vop.toNat → ty = 10 ∨ ty = 18 ∨ ty = 19) → ∃ t res, exec (.pair f) s = .next t ∧ PairEnd s f acts res t ∧
      (∀ l j, l < 32 → j < (tyElem ty).2 → elem w j (res l) = halfElem f.vop.toNat ty w (elem w j (s.vreg s.cur f.va.toNat l).toNat)
        (elem w j (s.vreg s.cur f.vb.toNat l).toNat)) ∧
      (f.sop.toNat ≠ 12 → t.me.sreg f.sd.toNat = halfScalar f.sop.toNat f.simm a b ∧ (∀ n, n ≠ f.sd.toNat → t.me.sreg n = s.me.sreg n) ∧
        t.me.pregs = s.me.pregs) ∧
      (f.sop.toNat = 12 → t.me.sregs = s.me.sregs ∧ (∀ n, n % 8 ≠ f.sd.toNat % 8 → t.me.preg n = s.me.preg n) ∧ (f.sd.toNat % 8 ≠ 7 →
        ∀ l, l < 32 → ((t.me.preg f.sd.toNat).getLsbD l = true ↔ if acts.getLsbD l then cond else (s.me.preg f.sd.toNat).getLsbD l = true)))

/-! Control (R87, R158 to R180). -/

/-- R160, R175: where bra, brp, brs and brx send each lane of their entry; a lane that they do not send stands at Next. -/
def Obligations.Branches : Prop :=
  ∀ s (f : FC), Plain s →
    let here := s.me.entry.pc
    let fp := s.me.entry.fp
    let taken := s.acts s.cur f.hd
    let target (n : Int) : W64 := here + 8 * (BitVec.ofInt 64 (f.tgt.toInt + n))
    let voter (l : Nat) : Prop := s.me.entry.mask.getLsbD l = true ∧
      ((∃ i, s.me.entry.mask.getLsbD i = true ∧ s.me.helper.getLsbD i = false) → s.me.helper.getLsbD l = false)
    let vote : Prop := if f.a = 0 then ∃ l, voter l ∧ taken.getLsbD l = true else ∀ l, voter l → taken.getLsbD l = true
    let a := s.ssrc s.cur f.a
    let cond : Prop := taken ≠ 0 ∧ match f.b.toNat with
      | 0 => a.toInt = 0 | 1 => a.toInt ≠ 0 | 2 => a.toInt < 0 | _ => 0 ≤ a.toInt
    (∃ t, exec (.bra f) s = .next t ∧ Moved s (fun l => if taken.getLsbD l then s.sent (target 0) fp else s.atNext) t) ∧
    (∃ t g, exec (.brp f) s = .next t ∧ Moved s g t ∧ ∀ l, (vote → g l = s.sent (target 0) fp) ∧ (¬ vote → g l = s.atNext)) ∧
    (∃ t g, exec (.brs f) s = .next t ∧ Moved s g t ∧ ∀ l, (cond → g l = s.sent (target 0) fp) ∧ (¬ cond → g l = s.atNext)) ∧
    (∃ t, exec (.brx f) s = .next t ∧ Moved s (fun l => if taken.getLsbD l then
      s.sent (target (s.vreg s.cur f.a.toNat l).toInt) fp else s.atNext) t)

/-- The link of R170: Next with B in its low bits. -/
def linkWord (s : State) (f : FC) : W64 := s.atNext.pc ||| (f.b.setWidth 3).setWidth 64

/-- What a call leaves of a state whose new frame, at `fp`, is resident: the lanes of `taken` hold the link in the last two registers of the
new frame and stand at the target in it; the others stand at Next. -/
structure Called (s : State) (taken : LaneMask) (fp : Nat) (link target : W64) (t : State) : Prop where
  near   : Local s t
  kept   : t.me.kept = s.me.kept
  pend   : SamePend s t
  stack  : SameSlot s.mySlot t.mySlot
  low    : ∀ l, l < 32 → taken.getLsbD l = true → t.mySlot.at (s.ventry s.cur fp (62 - (s.wg (wgOf s.cur)).sh)) l = link.extractLsb' 0 32
  high   : ∀ l, l < 32 → taken.getLsbD l = true → t.mySlot.at (s.ventry s.cur fp (63 - (s.wg (wgOf s.cur)).sh)) l = link.extractLsb' 32 32
  others : ∀ e l, l < 32 → (taken.getLsbD l = false ∨ (e ≠ s.ventry s.cur fp (62 - (s.wg (wgOf s.cur)).sh) ∧
    e ≠ s.ventry s.cur fp (63 - (s.wg (wgOf s.cur)).sh))) → t.mySlot.holds e l = s.mySlot.holds e l
  lanes  : ∀ l, l < 32 → s.me.entry.mask.getLsbD l = true → t.me.stands l (if taken.getLsbD l then s.sent target fp else s.atNext)
  apart  : ∀ l x, s.me.entry.mask.getLsbD l = false → (t.me.stands l x ↔ s.me.stands l x)

/-- R165, R170, R171, R176: call and callx link and transfer, in the state u whose chunk moves have made the new frame resident; ret goes
back through the link, in the state whose chunk moves have made resident the caller's frame that is selected next; a misaligned callx and a bad link trap. -/
def Obligations.CallsAndReturns : Prop :=
  (∀ s u (f : FC), let taken := s.acts s.cur f.hd
    let fp := s.me.entry.fp + 8 * f.b.toNat
    let sh := (s.wg (wgOf s.cur)).sh
    Plain s → Plain u → taken ≠ 0 → s.resident s.cur fp s.me.frontier (s.resFuel s.cur fp) = .done u → u.cur = s.cur → u.me.entry = s.me.entry → u.wgs = s.wgs →
    s.ventry s.cur fp (62 - sh) ≠ s.ventry s.cur fp (63 - sh) →
      (∃ t, exec (.call f) s = .next t ∧ Called u taken fp (linkWord s f) (s.me.entry.pc + 8 * f.tgt.signExtend 64) t) ∧
      ((s.ssrc s.cur f.a).toNat % 8 = 0 → ∃ t, exec (.callx f) s = .next t ∧ Called u taken fp (linkWord s f) (s.ssrc s.cur f.a) t)) ∧
  (∀ s (f : FC), Plain s → CanTrap s → s.acts s.cur f.hd ≠ 0 → (s.ssrc s.cur f.a).toNat % 8 ≠ 0 →
    ∃ t, exec (.callx f) s = .next t ∧ TookTrap s .misaligned 0 0 0 s.me.entry.pc t) ∧
  (∀ s (f : FC), let taken := s.acts s.cur f.hd
    let link (l : Nat) : Nat := (s.linkAt s.cur l).toNat
    let good (l : Nat) : Prop := link l % 8 ≠ 0 ∧ link l % 8 ≠ 7 ∧ 8 * (link l % 8) ≤ s.me.entry.fp
    let goes (l : Nat) : Entry := if taken.getLsbD l then s.sent (BitVec.ofNat 64 (link l / 8 * 8)) (s.me.entry.fp - 8 * (link l % 8)) else s.atNext
    let back := s.control s.cur (fun l => if taken.getLsbD l then some (BitVec.ofNat 64 (link l / 8 * 8), s.me.entry.fp - 8 * (link l % 8)) else none)
    let fp := back.me.entry.fp
    let w := s.wg (wgOf s.cur)
    let near : Prop := (∀ l, l < 32 → s.me.entry.mask.getLsbD l = true → taken.getLsbD l = true → s.me.entry.fp - 8 * (link l % 8) ≠ fp) ∨
      (s.movesOutside s.cur = true ∧ w.depth < s.me.entry.fp + (64 - w.sh) - fp)
    Plain s → s.me.entry.fp ≠ 0 →
      ((∀ l, l < 32 → taken.getLsbD l = true → good l) →
        (near → ∃ t, exec (.ret f) s = .next t ∧ Moved s goes t) ∧
        (¬ near → ∀ u, s.resident s.cur fp back.me.frontier (s.resFuel s.cur fp) = .done u → Plain u → u.cur = s.cur → u.me.entry = s.me.entry →
          ∃ t, exec (.ret f) s = .next t ∧ Moved u goes t)) ∧
      (CanTrap s → ∀ l, l < 32 → taken.getLsbD l = true → ¬ good l → (∀ i, i < l → taken.getLsbD i = true → good i) →
        ∃ t, exec (.ret f) s = .next t ∧ TookTrap s .illegalEncoding l 0 0 s.me.entry.pc t))

/-- R177, R18, R171: exit, and ret at frame pointer 0, end the lanes where the guard holds, and with them the helper lanes of quads that have no
launched lane left; the others stand at Next. -/
def Obligations.LanesExit : Prop :=
  ∀ s (f : FC), Plain s →
    let taken := s.acts s.cur f.hd
    let left := s.me.launched &&& ~~~(s.me.exited ||| taken)
    let gone (l : Nat) : Bool := s.me.exited.getLsbD l || taken.getLsbD l ||
      (s.me.helper.getLsbD l && (List.range 4).all (fun i => !left.getLsbD (4 * (l / 4) + i)))
    let end_ (t : State) : Prop := Local s t ∧ t.mySlot = s.mySlot ∧ t.me.sregs = s.me.sregs ∧ t.me.pregs = s.me.pregs ∧ t.me.life = s.me.life ∧
      (∀ l, l < 32 → t.me.exited.getLsbD l = gone l) ∧ (∀ l x, gone l = true → l < 32 → ¬ t.me.stands l x) ∧
      (∀ l, l < 32 → s.me.entry.mask.getLsbD l = true → gone l = false → t.me.stands l s.atNext)
    (left ≠ 0 → (∃ t, exec (.exit f) s = .next t ∧ end_ t) ∧ (s.me.entry.fp = 0 → ∃ t, exec (.ret f) s = .next t ∧ end_ t)) ∧
    (left = 0 → (∃ t, exec (.exit f) s = .next t ∧ t.fibreDone s.cur = true) ∧
      (s.me.entry.fp = 0 → ∃ t, exec (.ret f) s = .next t ∧ t.fibreDone s.cur = true))

/-- R178, R179: nop does nothing; yield passes the turn; wait stands at Next until its tokens are released; fbar arrives, and parks its entry until
every fibre of its mask has arrived or exited, and then releases all. -/
def waitsAndBarriersRule : Prop :=
  (∀ s (f : FC), Plain s → ∃ t, exec (.nop f) s = .next t ∧ Quiet s t) ∧
  (∀ s (f : FC), Plain s → s.acts s.cur f.hd ≠ 0 → ∃ t, exec (.yield f) s = .next t ∧ Local s t ∧ t.me.kept = s.me.kept ∧ SamePend s t ∧
    t.mySlot = { s.mySlot with turn := 4 + fibIdx s.cur }) ∧
  (∀ s (f : FC), let m := f.tgt.extractLsb' 0 8
    Plain s → s.acts s.cur f.hd ≠ 0 → ∃ t, exec (.wait f) s = .next t ∧ Local s t ∧ t.mySlot = s.mySlot ∧ t.me.kept = s.me.kept ∧ SamePend s t ∧
      ∀ l, l < 32 → s.me.entry.mask.getLsbD l = true →
        (m ≠ 0 → (s.me.holds m → t.me.stands l (s.atNextWaiting (.tok m))) ∧ (¬ s.me.holds m → t.me.stands l (s.atNextWaiting .none))) ∧
        (m = 0 → (s.me.pend ≠ [] → t.me.stands l (s.atNextWaiting .all)) ∧ (s.me.pend = [] → t.me.stands l (s.atNextWaiting .none)))) ∧
  (∀ s (f : FC), let id := f.a.toNat
    let m := f.b.extractLsb' 0 4
    let b := tget { mask := m, arrived := 0 } s.mySlot.bars id
    let full : Prop := ∀ i, i < 4 → m.getLsbD i = true → i = fibIdx s.cur ∨ b.arrived.getLsbD i = true ∨ s.fibreDone (4 * slotOf s.cur + i) = true
    Plain s → s.acts s.cur f.hd ≠ 0 →
      (b.mask = m → ∃ t, exec (.fbar f) s = .next t ∧
        (¬ full → t.mySlot.bars = tput s.mySlot.bars id { b with arrived := b.arrived ||| BitVec.ofNat 4 (2 ^ fibIdx s.cur) } ∧
          ∀ l, l < 32 → s.me.entry.mask.getLsbD l = true → t.me.stands l (s.atNextWaiting (.fbar id))) ∧
        (full → t.mySlot.bars = tdel s.mySlot.bars id ∧ ∀ l, l < 32 → s.me.entry.mask.getLsbD l = true → t.me.stands l (s.atNextWaiting .none)) ∧
        (full → ∀ i, i < 4 → ∀ e ∈ (t.fib (4 * slotOf s.cur + i)).frontier, e.wait ≠ .fbar id)) ∧
      (b.mask ≠ m → CanTrap s → ∃ t, exec (.fbar f) s = .next t ∧ TookTrap s .illegalEncoding 0 0 0 s.me.entry.pc t))

/-- R25: a write of an entry that several fibres share is done whole; until a common fbar a sibling may find the old value or the written one, the writer its own; the fibre that issues finds a value that it may find, which one is not defined; and an fbar that completes leaves the fibres of its mask one value, of a write that one of them saw. -/
def sharedWindowRule : Prop :=
  (∀ (s : State) k e l v, l < 32 → let x := s.slot (slotOf k)
    let y := (s.regWrite k (.stk e l v)).slot (slotOf k)
    y.at e l = v ∧ (e < x.window → tfind y.races (32 * e + l) = tfind x.races (32 * e + l)) ∧
    (x.window ≤ e → ∃ r, tfind y.races (32 * e + l) = some r ∧ (∀ g, v ∈ r.seen g) ∧
      (tfind x.races (32 * e + l) = none → r.seen (fibIdx k) = [v] ∧ ∀ g, g ≠ fibIdx k → r.seen g = [x.at e l, v]))) ∧
  (∀ (s : State) q k e l, let x := s.slot (slotOf k)
    let y := (s.chosen q (slotOf k) k).slot (slotOf k)
    (tfind x.races (32 * e + l) = none → y.at e l = x.at e l) ∧
    ∀ r, (s.fib k).entry.inside = true → tfind x.races (32 * e + l) = some r → x.at e l ∈ r.olds ++ r.ws.map (·.1) → y.at e l ∈ r.seen (fibIdx k)) ∧
  (∀ s (f : FC), let m := f.b.extractLsb' 0 4
    let b := tget { mask := m, arrived := 0 } s.mySlot.bars f.a.toNat
    Plain s → s.acts s.cur f.hd ≠ 0 → b.mask = m →
    (∀ i, i < 4 → m.getLsbD i = true → i = fibIdx s.cur ∨ b.arrived.getLsbD i = true ∨ s.fibreDone (4 * slotOf s.cur + i) = true) →
    ∃ t, exec (.fbar f) s = .next t ∧ ∀ e l r, tfind s.mySlot.races (32 * e + l) = some r → (∃ w ∈ r.ws, w.2 &&& m.toNat ≠ 0) →
      ∃ w ∈ r.ws, w.2 &&& m.toNat ≠ 0 ∧ ((tfind t.mySlot.races (32 * e + l) = none ∧ t.mySlot.at e l = w.1) ∨
        ∃ r', tfind t.mySlot.races (32 * e + l) = some r' ∧ ∀ u ∈ r'.ws, u.2 &&& m.toNat ≠ 0 → u.1 = w.1))

/-- R180, R89: trap and brkpt report TGT[15:0] and resume at Next; an opcode that names no instruction takes ILLEGAL_OPCODE and resumes at itself. -/
def softwareTrapsRule : Prop :=
  (∀ s (f : FC), Plain s → CanTrap s → s.acts s.cur f.hd ≠ 0 →
    (∃ t, exec (.trap f) s = .next t ∧ TookTrap s .userTrap 0 0 (f.tgt.extractLsb' 0 16) s.atNext.pc t) ∧
    (∃ t, exec (.brkpt f) s = .next t ∧ TookTrap s .breakpoint 0 0 (f.tgt.extractLsb' 0 16) s.atNext.pc t)) ∧
  (∀ s w, CanTrap s → ∃ t, exec (.nonInstructionEncoding w) s = .next t ∧ TookTrap s .illegalOpcode 0 0 0 s.me.entry.pc t)

/-- R58, R62, R64, R278: entering a clause checks its header; its lanes then stand at its first word, with its BPRI, once the tokens of WTOK are
released. -/
def clauseEntryRule : Prop :=
  ∀ s w, let h := Hdr.ofWord w
    let place : Entry := { s.me.entry with hdr := s.me.entry.pc, pc := s.me.entry.pc + 8, hw := w, inside := true, bpri := h.bpri }
    (h.cls.toNat ≤ 8 → h.rsv = 0 → h.eph.toNat < 2 ^ (h.cnt.toNat + 1) → s.me.frontier ≠ [] → ∃ t, exec (.clauseEntry w) s = .next t ∧ Local s t ∧ t.mySlot = s.mySlot ∧
      t.me.group = s.me.group + (if h.cls = 4 then 1 else 0) ∧ t.me.sregs = s.me.sregs ∧ t.me.pregs = s.me.pregs ∧ t.me.pend = s.me.pend ∧
      (h.wtok = 0 → t.me.entry = { place with wait := .none }) ∧
      (h.wtok ≠ 0 → s.me.holds h.wtok → ∀ l, s.me.entry.mask.getLsbD l = true → t.me.stands l { place with wait := .wtok h.wtok }) ∧
      (h.wtok ≠ 0 → ¬ s.me.holds h.wtok → ∀ l, s.me.entry.mask.getLsbD l = true → t.me.stands l { place with wait := .none })) ∧
    (CanTrap s → 8 < h.cls.toNat → ∃ t, exec (.clauseEntry w) s = .next t ∧ TookTrap s .illegalClass 0 0 0 s.me.entry.pc t) ∧
    (CanTrap s → h.cls.toNat ≤ 8 → h.rsv ≠ 0 ∨ 2 ^ (h.cnt.toNat + 1) ≤ h.eph.toNat → ∃ t, exec (.clauseEntry w) s = .next t ∧
      TookTrap s .illegalEncoding 0 0 0 s.me.entry.pc t)

/-- R25, R58, R62, R64, R178, R179, R278. -/
def Obligations.WaitsBarriersAndClauses : Prop := waitsAndBarriersRule ∧ sharedWindowRule ∧ clauseEntryRule

/-! Memory words (R269 to R292). -/

/-- What a load word reads and where it puts it: its kind of help, its elements, and its destinations from the bytes of each lane, one by
one, and of each element. -/
def ldWrites (s : State) (f : FM) (as : List Acc) : List RegWrite :=
  (lanesOf (s.acts s.cur f.hd)).flatMap (fun l =>
    let bs := ((blankLanes as).filter (fun a => a.lane = l)).flatMap (fun a => s.seen s.cur f.scope.toNat a)
    if tyBytes f.ty.toNat < 4 then [.stk (s.vent f.d.toNat) l (BitVec.ofNat 32 (wrap 32 (ext f.ty.toNat (leNat bs))))]
    else (List.range (2 ^ f.cnt.toNat)).map (fun i => .stk (s.vent (f.d.toNat + i)) l (BitVec.ofNat 32 (leNat ((bs.drop (4 * i)).take 4)))))

def ldsWrites (s : State) (f : FM) (as : List Acc) : List RegWrite :=
  (blankLanes as).map (fun a => .sreg (f.d.toNat + a.e) (BitVec.ofInt 64 (ext f.ty.toNat (leNat (s.seen s.cur f.scope.toNat a)))))

def ldtWrites (s : State) (f : FM) (as : List Acc) : List RegWrite :=
  let n := 2 ^ f.cnt.toNat
  let z := (LRec.ofBits (s.me.lreg f.a.toNat)).elemBytes
  (lanesOf (s.acts s.cur f.hd)).flatMap (fun l =>
    let bs := (List.range (tileEpl z n)).flatMap (fun j => match as.find? (fun a => a.lane = l && a.e = j) with
      | some a => s.seen s.cur f.scope.toNat a
      | none => List.replicate z 0)
    (List.range n).map (fun i => .stk (s.vent (f.d.toNat + i)) l (BitVec.ofNat 32 (leNat ((bs.drop (4 * i)).take 4)))))

/-- R280 to R283, R204, R253: a load whose accesses are allowed issues with the bytes that it saw owed to its destinations, and changes no
byte of memory. -/
def Obligations.Loads : Prop :=
  ∀ s (f : FM) (as : List Acc), Plain s → Calm s → CleanCopies s → s.acts s.cur f.hd ≠ 0 → TidyLocs as →
    let k := s.cur
    let acts := s.acts k f.hd
    let sp := f.space.toNat
    let same := s.byteAt (wgOf k)
    let once (_ : Nat) : Bool := s.onlyHelpers k acts
    (s.planAll k sp .rd (s.isHelper k) (s.plainElems k f (lanesOf acts)) = .ok as →
      ∃ t, exec (.ld f) s = .next t ∧ MemDone s f.hd (mkPend .load (ldWrites s f as) true none) (scrCounts f (plainW f) (blankLanes as)) same t) ∧
    (s.planAll k sp .rd once (s.scalarElems k f) = .ok as →
      ∃ t, exec (.lds f) s = .next t ∧ MemDone s f.hd (mkPend .load (ldsWrites s f as) true none) (scrCounts f 1 (blankLanes as)) same t) ∧
    (s.planAll k sp .rd (s.isHelper k) (s.tileElems k f (lanesOf acts)) = .ok as →
      ∃ t, exec (.ldt f) s = .next t ∧ MemDone s f.hd (mkPend .load (ldtWrites s f as) true none) (scrCounts f (4 * 2 ^ f.cnt.toNat) as) same t) ∧
    (s.planAll k sp .rd once [{ lane := 0, e := 0, addr := s.laneAddr k f 0, len := 32, al := 32 }] = .ok as →
      ∃ t, exec (.lrec f) s = .next t ∧ MemDone s f.hd (mkPend .load (as.map (fun a => .lrec f.d.toNat (BitVec.ofNat 256 (leNat (s.seen k f.scope.toNat a))))) true none) (scrCounts f 1 as) same t)

/-- What a store leaves of memory: at its home each byte that reaches it, and in the issuing cluster's view every byte; the other bytes
are as they were. -/
def Stored (s : State) (hd : Head) (scope : Nat) (scr : Nat × Nat) (xs : List (Acc × List Byte)) (t : State) : Prop :=
  let core := s.coreOf s.cur
  MemDone s hd (s.stored s.cur .store (xs.map (·.1))) scr (Bytes.putAll (reachesHome scope) (s.byteAt (wgOf s.cur)) xs) t ∧
  ∀ pa, t.viewAt core 3 1 pa = Bytes.putAll (fun _ => true) (fun x => if x.1 = 0 then s.viewAt core 3 1 x.2 else 0) xs (0, pa)

/-- R280, R281, R283, R252, R274: a store whose accesses are allowed puts the low bytes of its registers, the highest lane and element last, and
changes no other byte; helper lanes store nothing (R17, R271). -/
def Obligations.Stores : Prop :=
  ∀ s (f : FM) (as : List Acc), Plain s → Calm s → CleanCopies s → s.acts s.cur f.hd ≠ 0 → TidyLocs as →
    let k := s.cur
    let acts := s.acts k f.hd
    let lns := lanesOf (acts &&& ~~~s.me.helper)
    let sp := f.space.toNat
    let n := 2 ^ f.cnt.toNat
    let z := tyBytes f.ty.toNat
    let zt := (LRec.ofBits (s.me.lreg f.a.toNat)).elemBytes
    let run (l : Nat) : List Byte := (List.range n).flatMap (fun i => leBytes 4 (s.vreg k (f.d.toNat + i) l).toNat)
    (s.planAll k sp .wr (s.isHelper k) (s.plainElems k f lns) = .ok as → 
      ∃ t, exec (.st f) s = .next t ∧ Stored s f.hd f.scope.toNat (s.scrStore f (plainW f) (s.plainElems k f (lanesOf acts))) (as.map (fun a => (a, ((run a.lane).drop (z * a.e)).take z))) t) ∧
    (acts &&& ~~~s.me.helper ≠ 0 → s.planAll k sp .wr (fun _ => false) (s.scalarElems k f) = .ok as →
      ∃ t, exec (.sts f) s = .next t ∧
        Stored s f.hd f.scope.toNat (scrCounts f 1 as) (as.map (fun a => (a, leBytes z (s.me.sreg (f.d.toNat + a.e)).toNat))) t) ∧
    (s.planAll k sp .wr (s.isHelper k) (s.tileElems k f lns) = .ok as →
      ∃ t, exec (.stt f) s = .next t ∧ Stored s f.hd f.scope.toNat (s.scrStore f (4 * n) (s.tileElems k f (lanesOf acts)))
        (as.map (fun a => (a, ((run a.lane).drop (zt * a.e)).take zt))) t)

/-- The words that access the elements of their lanes: whether they write, their elements, and the lanes that read 0 in place of a fault. -/
def memElems (s : State) (f : FM) : List (Instr × Bool × List Elem × (Nat → Bool)) :=
  let k := s.cur
  let acts := s.acts k f.hd
  let lns := lanesOf (acts &&& ~~~s.me.helper)
  [(.ld f, false, s.plainElems k f (lanesOf acts), s.isHelper k), (.ldt f, false, s.tileElems k f (lanesOf acts), s.isHelper k),
   (.lds f, false, s.scalarElems k f, fun _ => s.onlyHelpers k acts),
   (.lrec f, false, [{ lane := 0, e := 0, addr := s.laneAddr k f 0, len := 32, al := 32 }], fun _ => s.onlyHelpers k acts),
   (.st f, true, s.plainElems k f lns, s.isHelper k), (.stt f, true, s.tileElems k f lns, s.isHelper k),
   (.sts f, true, if s.onlyHelpers k acts then [] else s.scalarElems k f, fun _ => false)]

/-- R276, R88, R430: the first element, in order of lanes and elements, that may not be accessed decides; the word has no effect but the trap,
the freeze or the wait. -/
def Obligations.AccessFaults : Prop :=
  ∀ s (f : FM), Plain s → s.acts s.cur f.hd ≠ 0 → ∀ w ∈ memElems s f, ∀ x e,
    s.firstFault s.cur f.space.toNat (if w.2.1 then .wr else .rd) w.2.2.2 w.2.2.1 x e →
      ∃ t, exec w.1 s = .next t ∧ Failed s e x.lane (match e with
        | .fault c => s.faultAddr s.cur f.space.toNat (if w.2.1 then .wr else .rd) c x
        | .mig => x.addr) w.2.1 t

/-- Lane l is the lowest acting lane, or its address lies in the heap, whose translation no other lane's can change. -/
def sureLane (s : State) (f : FM) (l : Nat) : Prop :=
  l < 32 ∧ (s.acts s.cur f.hd).getLsbD l = true ∧
    ((∀ i, i < l → (s.acts s.cur f.hd).getLsbD i = false) ∨ s.inHeap (s.vdOf s.cur) (s.laneAddr s.cur f l).toNat = true)

/-- Lane l's line of device memory. -/
def laneLine (s : State) (f : FM) (l line : Nat) : Prop :=
  ∃ pa at_ b rest n, s.globalPiece (s.coreOf s.cur) (s.vdOf s.cur) .rd (s.laneAddr s.cur f l).toNat 1 = .ok { len := n, locs := .dev pa at_ b :: rest } ∧
    line = pa / 64

/-- A sector of the issuing cluster's copy of an UNTRACKED line is dirty. -/
def dirtyAt (s : State) (pa : Nat) : Prop :=
  ∃ c, tfind s.cc (hkey (clusterOf (s.coreOf s.cur)) (pa / 64)) = some c ∧ c.fresh = false ∧ c.dirty.getLsbD (sectorBit pa) = true

/-- R284 to R286, R301: prf brings the line of a lane to its level and changes no byte; cwb from `.die` on writes the dirty sectors of the lines
back, which stay clean; cinv drops the core's copies, and from `.die` on the cluster's, writing dirty sectors first. None of them faults; a walk that meets MIG is waited for. -/
def cacheWordsRule : Prop :=
  ∀ s (f : FM), Plain s → Calm s → s.acts s.cur f.hd ≠ 0 →
    let core := s.coreOf s.cur
    let key (line : Nat) : Nat := hkey (clusterOf core) line
    let mig := s.anyMig s.cur (s.lineAddrs s.cur f (s.acts s.cur f.hd))
    let kept (t : State) : Prop := ∀ pa, tget memDefault t.mem pa ≠ tget memDefault s.mem pa →
      dirtyAt s pa ∧ ∃ c, tfind s.cc (key (pa / 64)) = some c ∧ tget memDefault t.mem pa = c.data.extractLsb' (8 * (pa % 64)) 8
    let done (bytes : Bytes) (t : State) : Prop := MemDone s f.hd (mkPend .store [] true none) (0, 0) bytes t
    (mig = true → exec (.prf f) s = .next s ∧ exec (.cwb f) s = .next s ∧ exec (.cinv f) s = .next s) ∧
    (mig = false →
      (∃ t bytes, exec (.prf f) s = .next t ∧ done bytes t ∧ t.mem = s.mem ∧
        ∀ l line, sureLane s f l → laneLine s f l line → t.presentAt core f.d.toNat line = true) ∧
      (∃ t bytes, exec (.cwb f) s = .next t ∧ done bytes t ∧ kept t ∧ (f.scope.toNat < 4 → t.mem = s.mem) ∧
        (4 ≤ f.scope.toNat → ∀ l line, sureLane s f l → laneLine s f l line →
          (∀ c, tfind t.cc (key line) = some c → c.dirty = 0) ∧
          ∀ pa, pa / 64 = line → dirtyAt s pa → ∀ c, tfind s.cc (key line) = some c → tget memDefault t.mem pa = c.data.extractLsb' (8 * (pa % 64)) 8)) ∧
      (∃ t bytes, exec (.cinv f) s = .next t ∧ done bytes t ∧ kept t ∧ (f.scope.toNat < 4 → t.mem = s.mem) ∧
        (∀ l line, sureLane s f l → laneLine s f l line →
          (3 ≤ f.scope.toNat → tfind t.l0 (hkey core line) = none) ∧
          (4 ≤ f.scope.toNat → tfind t.cc (key line) = none ∧
            ∀ pa, pa / 64 = line → dirtyAt s pa → ∀ c, tfind s.cc (key line) = some c → tget memDefault t.mem pa = c.data.extractLsb' (8 * (pa % 64)) 8))))

/-- R292, R275: with an acquiring half a fence completes the fibre's loads, oldest first, before it issues; with a releasing half it stays
pending while an earlier word of the fibre is not performed. Every other earlier word has had its effect (log entry 4). -/
def fencesRule : Prop :=
  ∀ s (f : FM), Plain s → Calm s → s.acts s.cur f.hd ≠ 0 → (∀ p ∈ s.me.pend, p.poison = none) →
    let loads := if f.cnt = 1 then [] else s.me.pend.filter (fun p => p.ready && p.isLoad)
    let left := if f.cnt = 1 then s.me.pend else s.me.pend.filter (fun p => !(p.ready && p.isLoad))
    let u := s.regWrites s.cur (loads.flatMap (fun p => p.wr))
    ∃ t, exec (.fence f) s = .next t ∧ Local s t ∧ t.mySlot = u.mySlot ∧ t.me.kept = u.me.kept ∧
      t.me.pend = ({ s.me with pend := left } : Fibre).countWord.pend ++
        [s.newPend f.hd (if f.cnt = 0 then .other else .fence (f.cnt = 2)) (f.cnt = 0 || !s.relBlocked s.cur) [] none]

/-- R284 to R286, R292. -/
def Obligations.CachesAndFences : Prop := cacheWordsRule ∧ fencesRule

/-! Atomics, counters and Gauze words (R359 to R403). -/

/-- The new element of R391, for a type without a shadow. -/
def atomNew (aop ty o x : Nat) : Nat :=
  let w := 8 * tyBytes ty
  match aop with
  | 0 => if ty = 10 then f32.round 0 ((f32.value o).add false (f32.value x)) else (o + x) % 2 ^ w
  | 1 => if ty = 10 then f32.minBits o x else wrap w (min (ext ty o) (ext ty x))
  | 2 => if ty = 10 then f32.maxVal o x else wrap w (max (ext ty o) (ext ty x))
  | 3 => o &&& x | 4 => o ||| x | 5 => o ^^^ x | 6 => x
  | 7 => if x ≤ o then 0 else o + 1
  | _ => if o = 0 ∨ x < o then x else o - 1

/-- The sum of R396 in scratch: one addition in f32, then one rounding to the type. -/
def scratchAdd (f : Fmt) (o x : Nat) : Nat :=
  f.round 0 (f32.value (add32 (rne32 (f.value o)) (rne32 (f.value x))).toNat)

/-- The elements of the accesses take their updates one after another, in order of lanes (R252, R392): what each lane's element held
before, and memory after. -/
def runAtoms (n : Nat) (g : Nat → Nat → Nat) : List Acc → Bytes → List (Nat × Nat) × Bytes
  | [], m => ([], m)
  | a :: t, m =>
    let ls : List Loc := match a.ps with
      | some ps => ps.flatMap (fun (p : Piece) => p.locs)
      | none => []
    let r := ls.foldl (fun (r : Nat × Bytes) l =>
      let o := leNat ((List.range n).map (fun i => r.2 (l.spot i)))
      (o, r.2.put l (leBytes n (g a.lane o)))) (0, m)
    let q := runAtoms n g t r.2
    ((a.lane, r.1) :: q.1, q.2)

/-- The registers that take the old elements: v(D), or the pair for a 64-bit type, in the acting lanes that are not helper lanes. -/
def oldWrites (s : State) (f : FM) (olds : List (Nat × Nat)) : List RegWrite :=
  (lanesOf (s.acts s.cur f.hd &&& ~~~s.me.helper)).flatMap (fun l => match olds.find? (fun o => o.1 = l) with
    | some o => if ty64 f.ty.toNat then s.vw64 s.cur f.d.toNat l (BitVec.ofNat 64 o.2) else [s.vw s.cur f.d.toNat l (BitVec.ofNat 32 o.2)]
    | none => [])

/-- R391 to R394, R17, R252, R253: atom, atomx and red update the element of every acting lane that is not a helper lane, one lane after another, and
atom and atomx owe the old values; a red that may go to an update-only copy is not this one (log entry 35). -/
def atomicsRule : Prop :=
  ∀ s (f : FM) (as : List Acc), Plain s → Calm s → NoOldCopies s → s.acts s.cur f.hd ≠ 0 → f.space ≠ 2 →
    let k := s.cur
    let ty := f.ty.toNat
    let lns := lanesOf (s.acts k f.hd &&& ~~~s.me.helper)
    let x (l : Nat) : Nat := s.atomVal k f f.d.toNat l
    let y (l : Nat) : Nat := s.atomVal k f f.b.toNat l
    let plan (isRed : Bool) (off : W64) (u : Nat → Upd) := s.planWith k f.space.toNat .wr (s.isHelper k)
      (fun e ps => atomicRefuse ty (u e.lane) isRed ps) (s.atomElems k f off lns)
    let scr (off : W64) := s.scrStore f (tyBytes ty) (s.atomElems k f off (lanesOf (s.acts k f.hd)))
    let run (g : Nat → Nat → Nat) := runAtoms (tyBytes ty) g as (s.byteAt (wgOf k))
    let sum (l o : Nat) : Nat := if ty = 9 then scratchAdd bf16 o (x l) else scratchAdd f8a o (x l)
    let red (g : Nat → Nat → Nat) : Prop := s.redInU = false → plan true (FM.aoff f) (fun l => .op (FM.aop f) (x l)) = .ok as →
      ∃ t, exec (.red f) s = .next t ∧ MemDone s f.hd (mkPend .store [] true none) (scr (FM.aoff f)) (run g).2 t
    let atom (g : Nat → Nat → Nat) : Prop := plan false (FM.aoff f) (fun l => .op (FM.aop f) (x l)) = .ok as →
      ∃ t, exec (.atom f) s = .next t ∧ MemDone s f.hd (mkPend .load (oldWrites s f (run g).1) true none) (scr (FM.aoff f)) (run g).2 t
    let op (l o : Nat) : Nat := atomNew (FM.aop f) ty o (x l)
    (ty ∈ [4, 5, 6, 7, 10] → FM.aop f ≤ 8 → atom op ∧ red op) ∧
    (ty = 9 ∨ ty = 12 → f.space = 1 → FM.aop f = 0 → atom sum ∧ red sum) ∧
    (plan false (FM.offset f) (fun l => .cas (x l) (y l)) = .ok as → let g (l o : Nat) : Nat := if o = x l then y l else o
      (ty ∈ [4, 5, 6, 7, 10] → ∃ t, exec (.atomx f) s = .next t ∧ MemDone s f.hd (mkPend .load (oldWrites s f (run g).1) true none) (scr (FM.offset f)) (run g).2 t))

/-- R396: an `.add` of one lane into a bf16 or f8a element of device memory rounds its f32 shadow, which starts from the stored element, and
stores the shadow rounded to the type; every other shadow of the element is gone. -/
def shadowAddsRule : Prop :=
  ∀ s (f : FM) (fm : Fmt) (a : Acc) (pa at_ len : Nat) (b : Bool), Plain s → Calm s → NoOldCopies s → f.space = 0 →
    (f.ty = 9 ∧ fm = bf16) ∨ (f.ty = 12 ∧ fm = f8a) → FM.aop f = 0 → a.ps = some [{ len := len, locs := [.dev pa at_ b] }] →
    s.acts s.cur f.hd ≠ 0 →
    let k := s.cur
    let ty := f.ty.toNat
    let x := s.atomVal k f f.d.toNat a.lane
    let old := leNat ((List.range (tyBytes ty)).map (fun i => tget memDefault s.mem (pa + i)))
    let key := skey (execHolder (s.coreOf k) at_ f.scope.toNat) pa ty
    let base := match tfind s.shadows key with
      | some v => v
      | none => rne32 (fm.value old)
    let new := add32 base (rne32 (fm.value x))
    let bytes := Bytes.put (s.byteAt (wgOf k)) (.dev pa at_ b) (leBytes (tyBytes ty) (fm.round 0 (f32.value new.toNat)))
    s.planWith k 0 .wr (s.isHelper k) (fun e ps => atomicRefuse ty (.op 0 (s.atomVal k f f.d.toNat e.lane)) false ps)
      (s.atomElems k f (FM.aoff f) (lanesOf (s.acts k f.hd &&& ~~~s.me.helper))) = .ok [a] →
    ∃ t, exec (.atom f) s = .next t ∧ MemDone s f.hd (mkPend .load (oldWrites s f [(a.lane, old)]) true none) (0, 0) bytes t ∧
      tfind t.shadows key = some new ∧
      ∀ q v, q ≠ key → (tfind t.shadows q = some v ↔ tfind s.shadows q = some v ∧
        ¬ (pa < q % 2 ^ 52 / 2 + 1 + q % 2 ∧ q % 2 ^ 52 / 2 < pa + tyBytes ty))

/-- R391 to R396. -/
def Obligations.Atomics : Prop := atomicsRule ∧ shadowAddsRule

/-- The head and the address of a counter word, and its one access. -/
def ctrAcc (s : State) (f : FY) (ak : AK) (u : Upd) (a : Acc) : Prop := s.ctrPlan s.cur (FY.scr f) ak (s.ssrc s.cur f.a) u false = .ok [a]

/-- R359, R360, R362 to R364, R366: cadd adds its increment, not above 2^64 − 1; cset stores; both, and cread, leave every other byte alone; with RET the
old value is owed to s(D); cadd and cset wait while an earlier word of the fibre is not performed; no cwait is pending on the counter of this cset; cwait is pending until its target is seen. A cadd that may go to an update-only copy is not this one (log
entry 35). -/
def Obligations.Counters : Prop :=
  ∀ s (f : FY) (a : Acc), Plain s → Calm s → NoOldCopies s → (s.acts s.cur f.hd) &&& ~~~s.me.helper ≠ 0 →
    let k := s.cur
    let inc : Nat := if FY.imm f then f.b.toNat else (s.ssrc k f.b).toNat
    let v := (s.ssrc k f.b).toNat
    let run (g : Nat → Nat) := runAtoms 8 (fun _ => g) [a] (s.byteAt (wgOf k))
    let old (g : Nat → Nat) : List RegWrite := (run g).1.map (fun o => .sreg f.d.toNat (BitVec.ofNat 64 o.2))
    let add (o : Nat) : Nat := min (o + inc) (2 ^ 64 - 1)
    let c : CWait := ⟨s.ssrc k f.a, FY.scr f, FY.scope f, s.ssrc k f.b, if FY.ret f then some f.d.toNat else none⟩
    (inc < 2 ^ 36 → s.redInU = false → s.relBlocked k = false → ctrAcc s f .wr (.op 9 inc) a → ∃ t, exec (.cadd f) s = .next t ∧
      MemDone s f.hd (mkPend (if FY.ret f then .load else .store) (if FY.ret f then old add else []) true none) (0, 0) (run add).2 t) ∧
    (2 ^ 36 ≤ inc → CanTrap s → ∃ t, exec (.cadd f) s = .next t ∧ TookTrap s .illegalEncoding 0 0 0 s.me.entry.pc t) ∧
    (s.me.priv ≠ .user → s.relBlocked k = false → s.waitsOn k (FY.scr f) (s.ssrc k f.a) = [] → ctrAcc s f .wr (.op 6 v) a → ∃ t, exec (.cset f) s = .next t ∧ MemDone s f.hd (mkPend .store [] true none) (0, 0) (run (fun _ => v)).2 t) ∧
    (s.relBlocked k = true → exec (.cadd f) s = .next s ∧ (s.me.priv ≠ .user → exec (.cset f) s = .next s)) ∧
    (s.me.priv = .user → CanTrap s → ∃ t, exec (.cset f) s = .next t ∧ TookTrap s .privilege 0 0 0 s.me.entry.pc t) ∧
    (ctrAcc s f .rd .read a → ∃ t, exec (.cread f) s = .next t ∧ MemDone s f.hd (mkPend .load (old id) true none) (0, 0) (s.byteAt (wgOf k)) t) ∧
    (ctrAcc s f .rd .read a → ∃ t, exec (.cwait f) s = .next t ∧ MemDone s f.hd (mkPend (.cwait c) [] false none) (0, 0) (s.byteAt (wgOf k)) t)

/-- What cbind and cunbind leave: s(D), the fibre's bindings, and the count of the virtual device's. -/
structure BindEnd (s : State) (d st : Nat) (bound : List (Bool × Nat)) (binds : Nat) (t : State) : Prop where
  rest   : { t with fibres := s.fibres, vds := s.vds } = s
  fibres : ∀ j, j ≠ s.cur → t.fib j = s.fib j
  me     : t.me.kept = { s.me.kept with sregs := t.me.sregs, bound := bound }
  dest   : t.me.sreg d = BitVec.ofNat 64 st
  others : ∀ n, n ≠ d → t.me.sreg n = s.me.sreg n
  pend   : SamePend s t
  vds    : ∀ v, v ≠ s.vdOf s.cur → t.vd v = s.vd v
  vd     : t.vd (s.vdOf s.cur) = { s.vd (s.vdOf s.cur) with binds := binds }

/-- R365, R368: cphase computes its three forms; cbind and cunbind keep at most 4 bindings a fibre and 4,096 a virtual device. -/
def Obligations.PhasesAndBindings : Prop :=
  (∀ s (f : FY), let a := (s.ssrc s.cur f.a).toNat
    let t := (s.ssrc s.cur f.b).toNat
    ScaDone (.cphase f) f.hd f.d.toNat s (if t = 0 then BitVec.allOnes 64 else BitVec.ofNat 64 (match f.sub.toNat with
      | 0 => a / t | 1 => min ((a / t + 1) * t) (2 ^ 64 - 1) | _ => a % t))) ∧
  (∀ s (f : FY) (a : Acc), Plain s → s.acts s.cur f.hd ≠ 0 → ctrAcc s f .rd .read a →
    let b := s.me.bound
    let n := (FY.scr f, (s.ssrc s.cur f.a).toNat)
    let c := (s.vd (s.vdOf s.cur)).binds
    (n ∈ b → (∃ t, exec (.cbind f) s = .next t ∧ BindEnd s f.d.toNat 2 b c t) ∧ (∃ t, exec (.cunbind f) s = .next t ∧ BindEnd s f.d.toNat 0 (b.erase n) (c - 1) t)) ∧
    (n ∉ b → (b.length = 4 ∨ c = 4096 → ∃ t, exec (.cbind f) s = .next t ∧ BindEnd s f.d.toNat 1 b c t) ∧
      (b.length ≠ 4 → c ≠ 4096 → ∃ t, exec (.cbind f) s = .next t ∧ BindEnd s f.d.toNat 0 (b ++ [n]) (c + 1) t) ∧
      (∃ t, exec (.cunbind f) s = .next t ∧ BindEnd s f.d.toNat 3 b c t)))

/-- What the completion of a pending word leaves: it is no longer pending, its results are in its registers, and no entry still waits for
tokens that are free. -/
structure Completed (s : State) (k i : Nat) (ws : List RegWrite) (t : State) : Prop where
  fibres : ∀ j, j ≠ k → t.fib j = s.fib j
  pend   : (t.fib k).pend = (s.fib k).pend.eraseIdx i
  kept   : (t.fib k).kept = ((s.regWrites k ws).fib k).kept
  slots  : ∀ j, t.slot j = (s.regWrites k ws).slot j
  waits  : ∀ e ∈ (t.fib k).frontier, ∀ m, e.wait = .tok m ∨ e.wait = .wtok m → (t.fib k).holds m
  all_   : ∀ e ∈ (t.fib k).frontier, e.wait = .all → (t.fib k).pend ≠ []

/-- R67, R162, R275, R277: LONG_LATENCY_COMPLETE writes the results of a pending word that is ready, or raises the poison that it found; one that
is not ready stays, and so does one that a frozen fibre holds back (R25). CWAIT_COMPLETE and HOST_CWAIT_POLL complete a cwait whose counter has reached its target (R363). -/
def Obligations.Completions : Prop :=
  (∀ s k i p, (s.fib k).pend[i]? = some p →
    (s.completes k p = true → p.poison = none → ∃ t, exec (.longLatencyComplete k i none) s = .next t ∧
      { t with fibres := s.fibres, slots := s.slots } = s ∧ Completed s k i p.wr t) ∧
    (s.completes k p = true → ∀ l a, p.poison = some (l, a) → (s.fib k).raised = none → ∃ t, exec (.longLatencyComplete k i none) s = .next t ∧
      { t with fibres := s.fibres } = s ∧ (t.fib k).pend = (s.fib k).pend.eraseIdx i ∧ (t.fib k).sregs = (s.fib k).sregs ∧
      (t.fib k).raised = some { cause := .poison, lane := l, addr := a, code := 0, pc := p.pc, resume := 0 }) ∧
    (p.ready = true → (s.fib k).frozen = none → s.completes k p = true) ∧
    (s.completes k p = false → exec (.longLatencyComplete k i none) s = .next s)) ∧
  (∀ s k i p (c : CWait) (a : Acc), let ev := [Instr.cwaitComplete k i, Instr.hostCwaitPoll k i]
    let v := (runAtoms 8 (fun _ o => o) [a] (s.byteAt (wgOf k))).1.map (·.2)
    Calm s → NoOldCopies s → (s.wg (wgOf k)).scratchBad = [] → (s.fib k).pend[i]? = some p → p.kind = .cwait c →
    s.ctrPlan k c.scratch .rd c.addr .read false = .ok [a] →
      (∀ o, v = [o] → c.target.toNat ≤ o → ∀ e ∈ ev, ∃ t, exec e s = .next t ∧ (∀ j, j ≠ k → (t.fib j).bare = (s.fib j).bare) ∧
        (t.fib k).pend = (s.fib k).pend.eraseIdx i ∧ (∀ x : Spot, x.1 ≤ 4 → t.byteAt (wgOf k) x = s.byteAt (wgOf k) x) ∧
        ∀ n, (t.fib k).sreg n = if c.ret = some n then BitVec.ofNat 64 o else (s.fib k).sreg n) ∧
      (∀ o, v = [o] → o < c.target.toNat → ∀ e ∈ ev, exec e s = .next (s.rouse k)))

/-! Sealing, locking and Gauze words (R287 to R290, R399 to R403). -/

/-- A memory word that changes the seals or the regions of its context beside what `MemDone` says. -/
structure CtxDone (s : State) (hd : Head) (kind : PKind) (ready : Bool) (ws : List RegWrite) (bytes : Bytes) (seals : List Seal)
    (regions : List Region) (t : State) : Prop where
  rest : MemDone s hd (mkPend kind ws ready none) (0, 0) bytes { t with vds := s.vds }
  vds  : ∀ v, v ≠ s.vdOf s.cur → t.vd v = s.vd v
  vd   : t.vd (s.vdOf s.cur) = { s.vd (s.vdOf s.cur) with seals := seals, regions := regions }

/-- A cluster's copy of an UNTRACKED line whose sector of a byte is dirty. -/
def dirtyIn (s : State) (cl pa : Nat) (c : Line) : Prop :=
  tfind s.cc (hkey cl (pa / 64)) = some c ∧ c.fresh = false ∧ c.dirty.getLsbD (sectorBit pa) = true

/-- R287, R271, R417: the statuses of seal in their order; a buffer that is sealed has its dirty sectors written back, and no cache of the package
keeps one dirty, or a copy of an UNTRACKED line. It waits while an earlier word of the fibre is not performed, and at a walk that meets MIG (R301). With only helper lanes acting nothing happens. -/
def sealsRule : Prop :=
  ∀ s (f : FM), Plain s → Calm s →
    let k := s.cur
    let core := s.coreOf k
    let vd := s.vdOf k
    let a := (s.laneAddr k f 0).toNat
    let n := (s.ssrc k f.b).toNat
    let v := s.vd vd
    let same := s.byteAt (wgOf k)
    let align : Prop := a % 256 ≠ 0 ∨ n % 32 ≠ 0 ∨ n = 0 ∨ 2 ^ 36 < n
    let overlap : Prop := ∃ x ∈ v.seals, a < x.va + x.len ∧ x.va < a + n
    let fault : Prop := ∃ p ∈ pagesOf a n, ∀ x, s.xlate core vd p = .ok x → x.w = false
    let blocked := s.relBlocked k
    let mig := s.anyMig k (pagesOf a n)
    let refused (st : Nat) : Prop := ∃ t, exec (.seal f) s = .next t ∧ MemDone s f.hd (mkPend .store [.sreg f.d.toNat (BitVec.ofNat 64 st)] true none) (0, 0) same t
    (s.acts k f.hd &&& ~~~s.me.helper = 0 → (∃ t, exec (.seal f) s = .next t ∧ Quiet s t) ∧ (∃ t, exec (.unseal f) s = .next t ∧ Quiet s t)) ∧
    (s.acts k f.hd &&& ~~~s.me.helper ≠ 0 → blocked = true → exec (.seal f) s = .next s) ∧
    (s.acts k f.hd &&& ~~~s.me.helper ≠ 0 → blocked = false →
      (align → refused 1) ∧ (¬ align → overlap → refused 2) ∧ (¬ align → ¬ overlap → v.seals.length = 4096 → refused 3) ∧
      (¬ align → ¬ overlap → v.seals.length ≠ 4096 → mig = true → exec (.seal f) s = .next s) ∧
      (¬ align → ¬ overlap → v.seals.length ≠ 4096 → mig = false → fault → refused 4) ∧
      (¬ align → ¬ overlap → v.seals.length ≠ 4096 → mig = false → ¬ fault → ∃ t bytes, exec (.seal f) s = .next t ∧
        CtxDone s f.hd .store true [.sreg f.d.toNat 0] bytes (v.seals ++ [{ va := a, len := n, ending := false, readers := [] }]) v.regions t ∧
        (∀ pa, tget memDefault t.mem pa ≠ tget memDefault s.mem pa → s.lineIn core vd a n (pa / 64) = true) ∧
        (∀ pa, s.lineIn core vd a n (pa / 64) = true → pa / 64 < 2 ^ 52 → (∃ cl c, dirtyIn s cl pa c) →
          ∃ cl c, dirtyIn s cl pa c ∧ tget memDefault t.mem pa = c.data.extractLsb' (8 * (pa % 64)) 8) ∧
        (∀ cl line c, line < 2 ^ 52 → s.lineIn core vd a n line = true → tfind t.cc (hkey cl line) = some c → c.dirty = 0 ∧ c.fresh = true) ∧
        (∀ h line z, line < 2 ^ 52 → s.lineIn core vd a n line = true → tfind t.l0 (hkey h line) = some z → z.fresh = true)))

/-- R288: unseal of no buffer's beginning writes NOT_SEALED; else every cache drops its sealed copies of the buffer, and s(D) is owed OK
at once where no engine command reads the range, when its last one ends otherwise. No other word waits for the same end; a walk that meets MIG is waited for (R301). -/
def unsealsRule : Prop :=
  ∀ s (f : FM), Plain s → Calm s → CleanCopies s → s.acts s.cur f.hd &&& ~~~s.me.helper ≠ 0 →
    let k := s.cur
    let core := s.coreOf k
    let vd := s.vdOf k
    let a := (s.laneAddr k f 0).toNat
    let v := s.vd vd
    let same := s.byteAt (wgOf k)
    (s.anyMig k ((v.seals.filter (fun x => x.va = a && !x.ending)).flatMap (fun x => pagesOf x.va x.len)) = true → exec (.unseal f) s = .next s) ∧
    ((∀ x ∈ v.seals, x.va = a → x.ending = true) →
      ∃ t, exec (.unseal f) s = .next t ∧ MemDone s f.hd (mkPend .store [.sreg f.d.toNat 5] true none) (0, 0) same t) ∧
    (∀ x ∈ v.seals, x.va = a → x.ending = false → (∀ y ∈ v.seals, y.va = a → y = x) → s.anyMig k (pagesOf x.va x.len) = false →
      (∀ e ∈ s.fibres, ∀ p ∈ e.2.pend, p.kind ≠ .unseal a) → (∀ p ∈ s.me.pend, ∀ b, p.kind = .fence b → p.ready = true) →
      let dropped (t : State) : Prop := ∀ h line c, line < 2 ^ 52 → s.lineIn core vd x.va x.len line = true →
        tfind t.cc (hkey h line) = some c ∨ tfind t.l0 (hkey h line) = some c → c.sealedCopy = false
      (s.readersOf vd x.va x.len = [] → ∃ t, exec (.unseal f) s = .next t ∧ dropped t ∧
        CtxDone s f.hd (.unseal a) true [.sreg f.d.toNat 0] same (v.seals.filter (fun y => y.va != a)) v.regions t) ∧
      (s.readersOf vd x.va x.len ≠ [] → ∃ t, exec (.unseal f) s = .next t ∧ dropped t ∧
        CtxDone s f.hd (.unseal a) false [.sreg f.d.toNat 0] same
          (v.seals.map (fun y => if y.va = a then { y with ending := true, readers := s.readersOf vd x.va x.len } else y)) v.regions t))

/-- A word that changes the locks of its workgroup beside what `MemDone` says. -/
structure LockDone (s : State) (hd : Head) (ws : List RegWrite) (held : Nat → Bool) (t : State) : Prop where
  rest  : MemDone s hd (mkPend .store ws true none) (0, 0) (s.byteAt (wgOf s.cur)) { t with wgs := s.wgs }
  wgs   : ∀ j, j ≠ wgOf s.cur → t.wg j = s.wg j
  own   : { t.wg (wgOf s.cur) with locks := (s.wg (wgOf s.cur)).locks } = s.wg (wgOf s.cur)
  locks : ∀ line, tget false (t.wg (wgOf s.cur)).locks line = held line

/-- R289, R290: lkl is all or nothing, with its statuses in the order QUOTA, WAYS, FAULT; ulk unlocks the lines of the range that the workgroup
holds, and counts them. Both wait at a walk that meets MIG (R301). -/
def lineLocksRule : Prop :=
  ∀ s (f : FM), Plain s → Calm s → s.acts s.cur f.hd ≠ 0 →
    let k := s.cur
    let core := s.coreOf k
    let vd := s.vdOf k
    let a := (s.laneAddr k f 0).toNat
    let n := (s.ssrc k f.b).toNat
    let held := (s.wg (wgOf k)).locks
    let ls := (linesOf a n).map (fun va => (s.devAddr core vd va).map (fun pa => pa / 64))
    let new := (ls.filterMap id).eraseDups.filter (fun l => !tget false held l)
    let set (l : Nat) : Nat := Config.cacheSet (s.cacheBanks (clusterOf core)) l
    let quota : Prop := 1024 < ls.length ∨ 1024 < held.length + new.length + (ls.filter Option.isNone).length
    let ways : Prop := ∃ l ∈ new, 8 < ((s.lockedLines (clusterOf core) ++ new).eraseDups.filter (fun x => set x = set l)).length
    let res (st cnt : Nat) : List RegWrite := [.sreg f.d.toNat (BitVec.ofNat 64 (st + 2 ^ 32 * cnt))]
    let refused (st : Nat) : Prop := ∃ t, exec (.lkl f) s = .next t ∧ LockDone s f.hd (res st 0) (tget false held) t
    let mig := s.anyMig k (pagesOf a n)
    (1024 < ls.length → refused 1) ∧
    (mig = true → (ls.length ≤ 1024 → exec (.lkl f) s = .next s) ∧ exec (.ulk f) s = .next s) ∧
    (mig = false →
    (quota → refused 1) ∧ (¬ quota → ways → refused 2) ∧ (¬ quota → ¬ ways → none ∈ ls → refused 3) ∧
    (¬ quota → ¬ ways → none ∉ ls → ∃ t, exec (.lkl f) s = .next t ∧
      LockDone s f.hd (res 0 new.length) (fun l => tget false held l || ls.contains (some l)) t ∧
      ∀ l ∈ new, ∃ c, tfind t.cc (hkey (clusterOf core) l) = some c ∧ (tfind s.cc (hkey (clusterOf core) l) = none → c.valid = 3)) ∧
    (let out := (held.map (·.1)).filter (fun l => s.lineIn core vd a n l)
      ∃ t, exec (.ulk f) s = .next t ∧ LockDone s f.hd (res 0 out.length) (fun l => tget false held l && !out.contains l) t))

/-- R287 to R290. -/
def Obligations.SealsAndLocks : Prop := sealsRule ∧ unsealsRule ∧ lineLocksRule

/-- A Gauze word beside what `MemDone` says: U copies, shares and drains follow the rules of the word. -/
def GauzeDone (s : State) (hd : Head) (kind : PKind) (ready : Bool) (scr : Nat × Nat) (bytes : Bytes) (t : State) : Prop :=
  MemDone s hd (mkPend kind [] ready none) scr bytes { t with ucopies := s.ucopies, books := s.books, drains := s.drains }

/-- The partial that one addend starts in a U copy (R395, R396): from +0 in f32 for bf16, from 0 for i32. -/
def firstPart (ty x : Nat) : W64 :=
  if ty = 4 then BitVec.ofNat 64 (x % 2 ^ 32) else (add32 0 (if ty = 9 then rne32 (bf16.value x) else BitVec.ofNat 32 x)).setWidth 64

/-- R399, R271: gdef defines a region, or with length 0 ends it, with its statuses in their order; it waits at a walk that meets MIG (R301). -/
def Obligations.RegionsDefined : Prop :=
  ∀ s (f : FM), Plain s → Calm s → s.books = [] →
    let k := s.cur
    let core := s.coreOf k
    let vd := s.vdOf k
    let a := (s.laneAddr k f 0).toNat
    let n := ((s.ssrc k f.b).extractLsb' 0 32).toNat
    let b := (s.ssrc k f.b).extractLsb' 32 32
    let v := s.vd vd
    let same := s.byteAt (wgOf k)
    let align : Prop := a % 64 ≠ 0 ∨ n % 64 ≠ 0
    let overlap : Prop := ∃ r ∈ v.regions, a < r.va + r.len ∧ r.va < a + n
    let fault : Prop := ∃ p ∈ pagesOf a n, ∀ len pa sb, s.globalPiece core vd .wr p 1 ≠ .ok { len := len, locs := [.dev pa 0 sb] }
    let mig := s.anyMig k (pagesOf a n)
    let budget : Prop := match f32.value b.toNat with
      | .num neg m _ => neg = true ∧ m ≠ 0
      | _ => True
    let gives (st : Nat) (rs : List Region) : Prop :=
      ∃ t, exec (.gdef f) s = .next t ∧ CtxDone s f.hd .store true [.sreg f.d.toNat (BitVec.ofNat 64 st)] same v.seals rs t
    (s.acts k f.hd &&& ~~~s.me.helper = 0 → ∃ t, exec (.gdef f) s = .next t ∧ Quiet s t) ∧
    (s.acts k f.hd &&& ~~~s.me.helper ≠ 0 →
      (n ≠ 0 → (align → gives 1 v.regions) ∧ (¬ align → overlap → gives 2 v.regions) ∧
        (¬ align → ¬ overlap → v.regions.length = 64 → gives 3 v.regions) ∧
        (¬ align → ¬ overlap → v.regions.length ≠ 64 → mig = true → exec (.gdef f) s = .next s) ∧
        (¬ align → ¬ overlap → v.regions.length ≠ 64 → mig = false → fault → gives 4 v.regions) ∧
        (¬ align → ¬ overlap → v.regions.length ≠ 64 → mig = false → ¬ fault → budget → gives 5 v.regions) ∧
        (¬ align → ¬ overlap → v.regions.length ≠ 64 → mig = false → ¬ fault → ¬ budget →
          gives 0 (v.regions ++ [{ va := a, len := n, ty := f.ty.toNat, budget := b }]))) ∧
      (n = 0 → ((∃ r ∈ v.regions, r.va = a) → (∀ r ∈ v.regions, r.va = a → s.anyMig k (pagesOf r.va r.len) = false) → gives 0 (v.regions.filter (fun r => r.va != a))) ∧
        ((∀ r ∈ v.regions, r.va ≠ a) → gives 6 v.regions)))

/-- R401 to R403: an addend that its cluster's share has room for is withheld there, memory unchanged; one that has none is added at the home where
no share can be had, and else drained, to be folded at the home by GAUZE_DRAIN_ACK, when gadd may complete; gld reads the element, and
forces drains until what is withheld is at most ε. -/
def Obligations.GauzeWords : Prop :=
  (∀ s (f : FM) (a : Acc) (pa at_ len : Nat) (sb : Bool) (rg : Region), Plain s → Calm s → NoOldCopies s → s.books = [] → s.acts s.cur f.hd ≠ 0 →
    a.ps = some [{ len := len, locs := [.dev pa at_ sb] }] → s.regionOf (s.vdOf s.cur) a.addr.toNat = some rg → rg.ty = f.ty.toNat → f.space = 0 →
    f.ty.toNat ∈ [4, 9, 10] →
    let k := s.cur
    let ty := f.ty.toNat
    let cl := clusterOf (s.coreOf k)
    let x := s.atomVal k f f.d.toNat a.lane
    let share := grantShare rg.budget [] 0
    let T := addUp32 0 (gaddMag ty x)
    let same := s.byteAt (wgOf k)
    s.planWith k 0 .wr (s.isHelper k) (fun e ps => match (match s.regionOf (s.vdOf k) e.addr.toNat with
        | some r => if r.ty = ty then none else some Cause.protection
        | none => none) with
      | some c => some c
      | none => atomicRefuse ty (.op 0 (s.atomVal k f f.d.toNat e.lane)) false ps)
      (s.atomElems k f (FM.offset f) (lanesOf (s.acts k f.hd &&& ~~~s.me.helper))) = .ok [a] →
      (share = 0 → ty ≠ 9 → ∃ t, exec (.gadd f) s = .next t ∧ t.ucopies = [] ∧ t.drains = [] ∧
        GauzeDone s f.hd .store true (0, 0) (runAtoms (tyBytes ty) (fun _ o => atomNew 0 ty o x) [a] same).2 t) ∧
      (share ≠ 0 → le32 T share = true → ∃ t u, exec (.gadd f) s = .next t ∧ GauzeDone s f.hd .store true (0, 0) same t ∧ t.drains = [] ∧
        t.ucopies = [(hkey cl (pa / 64), u)] ∧ u.parts = [(pa % 64, firstPart ty x)] ∧ u.tracker = T ∧ t.books = [(pa / 64, [(cl, share)])]) ∧
      (share ≠ 0 → le32 T share = false → ∃ t d, exec (.gadd f) s = .next t ∧ GauzeDone s f.hd (.drain cl [pa / 64]) false (0, 0) same t ∧
        t.drains = [d] ∧ d.cluster = cl ∧ d.line = pa / 64 ∧ d.ty = ty ∧ d.parts = [(pa % 64, firstPart ty x)])) ∧
  (∀ s cl line, (∀ d ∈ s.drains, d.cluster = cl → d.line ≠ line) → exec (.gauzeDrainAck cl line) s = .next s) ∧
  (∀ s cl line d o (v : W64), Calm { s with drains := [], ucopies := [] } → s.drains = [d] → d.cluster = cl → d.line = line → d.parts = [(o, v)] →
    d.ty = 4 ∨ d.ty = 10 → v.toNat < 2 ^ 32 → s.ucopies = [] →
    let old := leNat ((List.range 4).map (fun i => tget memDefault s.mem (64 * line + o + i)))
    ∃ t, exec (.gauzeDrainAck cl line) s = .next t ∧ t.drains = [] ∧ t.ucopies = [] ∧
      (∀ pa, tget memDefault t.mem pa = Bytes.put (fun x => tget memDefault s.mem x.2) (.dev (64 * line + o) 0 false)
        (leBytes 4 (atomNew 0 d.ty old v.toNat)) (0, pa)) ∧
      (∀ k (i : Nat) (p : Pending) (ls : List Nat), (s.fib k).pend[i]? = some p → p.kind = .drain cl ls → line ∈ ls →
        (t.fib k).pend[i]? = some { p with kind := .drain cl (ls.filter (fun l => l != line)), ready := ls.all (fun l => l = line) }) ∧
      ∀ k, (t.fib k).pend.length = (s.fib k).pend.length) ∧
  (∀ s (f : FM) (as : List Acc), Plain s → Calm s → NoOldCopies s → s.books = [] → s.acts s.cur f.hd ≠ 0 →
    (∀ p ∈ s.me.pend, ∀ cl ls, p.kind ≠ .drain cl ls) → (∀ a ∈ as, ∃ pa at_ len sb, a.ps = some [{ len := len, locs := [.dev pa at_ sb] }]) →
    let k := s.cur
    let ty := f.ty.toNat
    ty ∈ [4, 9, 10] →
    s.planWith k 0 .rd (s.isHelper k) (fun e ps => match s.regionOf (s.vdOf k) e.addr.toNat with
      | some r => if r.ty = ty then none else some Cause.protection
      | none => atomicRefuse ty .read false ps) (s.atomElems k f (FM.offset f) (lanesOf (s.acts k f.hd &&& ~~~s.me.helper))) = .ok as →
    ∃ t, exec (.gld f) s = .next t ∧ MemDone s f.hd (mkPend .load (oldWrites s f (runAtoms (tyBytes ty) (fun _ o => o) as (s.byteAt (wgOf k))).1) true none) (0, 0)
      (s.byteAt (wgOf k)) t) ∧
  (∀ (s : State) line v, let t := s.forceDrains line (epsOf v) (tget [] s.books line).length
    (epsOf v).lt (bookSum (tget [] t.books line)) = false)

/-! The matrix unit (R332 to R352). -/

/-- R333, R336, R337: gdecl binds a free convergence register to the issuing fibre's gang, and gdecl.free frees it; obres writes a checked record to its
handle, and obrel makes a handle invalid. -/
def Obligations.MatrixHandles : Prop :=
  ∀ s (f : FY), Plain s → s.acts s.cur f.hd ≠ 0 →
    let w := s.myWg
    let d := f.d.toNat
    let g := tget GReg.empty w.gregs d
    let mine := gangOf s.cur
    let put (g : GReg) : Wg := { w with gregs := tput w.gregs d g }
    let a := s.ssrc s.cur f.a
    let b := s.ssrc s.cur f.b
    let ty := (a.extractLsb' 27 5).toNat
    let block : Prop := 20 ≤ ty ∧ ty ≤ 26
    let inside : Prop := (a.extractLsb' 0 13).toNat + (a.extractLsb' 13 14).toNat ≤ w.kd.ob / 64
    let legal : Prop := 1 ≤ (a.extractLsb' 13 14).toNat ∧ (a.extractLsb' 13 14).toNat ≤ 8192 ∧ (block ∨ ty ∈ [0, 1, 8, 9, 12, 13]) ∧
      (a.getLsbD 32 = true → block) ∧ (a.getLsbD 33 = true → ¬ block) ∧ a.extractLsb' 34 30 = 0 ∧ 1 ≤ (b.extractLsb' 0 16).toNat ∧
      b.extractLsb' 29 3 = 0 ∧ (b.extractLsb' 32 6).toNat ≤ 32 ∧ (b.extractLsb' 46 6).toNat ≤ 32 ∧ b.extractLsb' 52 12 = 0
    let illegal (i : Instr) (c : Cause) : Prop := CanTrap s → ∃ t, exec i s = .next t ∧ TookTrap s c 0 0 0 s.me.entry.pc t
    let quiet (i : Instr) : Prop := ∃ t, exec i s = .next t ∧ Quiet s t
    (w.kd.flags.getLsbD 0 = true → f.sub.getLsbD 0 = false →
      (g.gang = none → ∃ t, exec (.gdecl f) s = .next t ∧ WgDone s (put { g with gang := some mine }) [] t) ∧
      (g.gang = some mine → quiet (.gdecl f)) ∧ (∀ x, g.gang = some x → x ≠ mine → illegal (.gdecl f) .illegalEncoding)) ∧
    (w.kd.flags.getLsbD 0 = true → f.sub.getLsbD 0 = true →
      (g.gang ≠ some mine → quiet (.gdecl f)) ∧ (g.gang = some mine → g.sigs ≠ [] → illegal (.gdecl f) .illegalEncoding) ∧
      (g.gang = some mine → g.sigs = [] → ∃ t g', exec (.gdecl f) s = .next t ∧ WgDone s (put g') [] t ∧ g'.gang = none ∧ g'.signs = [] ∧ g'.sigs = [] ∧
        ∀ q, g.base + tget 0 g.signs q ≤ g'.base)) ∧
    (w.kd.flags.getLsbD 0 = false → illegal (.gdecl f) .illegalEncoding) ∧
    (inside → legal → ∃ t r, exec (.obres f) s = .next t ∧
      WgDone s { w with orecs := tput w.orecs d r } [s.newPend f.hd .other true [] none] t ∧
      r.off = (a.extractLsb' 0 13).toNat ∧ r.size = (a.extractLsb' 13 14).toNat ∧ r.ty = ty ∧ r.l32 = a.getLsbD 32 ∧ r.trans = a.getLsbD 33 ∧
      r.rowb = (b.extractLsb' 0 16).toNat ∧ r.scale = (b.extractLsb' 16 13).toNat ∧ r.mExt = (b.extractLsb' 32 6).toNat ∧
      r.kExt = (b.extractLsb' 38 8).toNat ∧ r.nExt = (b.extractLsb' 46 6).toNat) ∧
    (¬ inside → illegal (.obres f) .protection) ∧ (inside → ¬ legal → illegal (.obres f) .illegalEncoding) ∧
    (∃ t, exec (.obrel f) s = .next t ∧ WgDone s { w with orecs := tdel w.orecs d } [] t)

/-- R334, R342: an mma that passes its checks gives its quarter's signature, with its own B run and record; the fourth issues the operation, with what it finds of writes in flight to the operand buffer (R341). A check
that fails traps. -/
def mmaSignsRule : Prop :=
  ∀ s (f : FX), Plain s → s.acts s.cur f.hd ≠ 0 →
    let k := s.cur
    let w := s.myWg
    let q := s.quarterOf k
    let gi := f.g.toNat
    let r := tget GReg.empty w.gregs gi
    let n := tget 0 r.signs q
    let op := r.base + n
    let mates := r.sigs.filter (fun y => y.op = op)
    let gone : Prop := ∃ i, i < 4 ∧ s.fibreDone (64 * wgOf k + 4 * (4 * (slotIdx k / 4) + i) + fibIdx k) = true
    let agree : Prop := ∀ y ∈ mates, y.acc = f.acc.toNat ∧ y.tya = f.tya.toNat ∧ y.tyb = f.tyb.toNat ∧ y.ck = f.ck ∧ y.clr = f.clr
    let bound : Prop := w.kd.flags.getLsbD 0 = true ∧ r.gang = some (gangOf k)
    let trap (c : Cause) (a : Nat) : Prop := CanTrap s → ∃ t, exec (.mma f) s = .next t ∧ TookTrap s c 0 (BitVec.ofNat 64 a) 0 s.me.entry.pc t
    (¬ bound → trap .illegalEncoding 0) ∧ (bound → tfind w.orecs f.obh.toNat = none → trap .illegalEncoding 0) ∧
    ∀ o, bound → tfind w.orecs f.obh.toNat = some o →
      (o.ty ≠ f.tya.toNat → trap .illegalEncoding 0) ∧ (o.ty = f.tya.toNat → ¬ gone → ¬ agree → trap .illegalEncoding 0) ∧
      (o.ty = f.tya.toNat → (gone ∨ agree) → ∀ c a, o.sliceFault f.oboff.toNat = some (c, a) → trap c a) ∧
      (o.ty = f.tya.toNat → gone → o.sliceFault f.oboff.toNat = none → ∃ t, exec (.mma f) s = .next t ∧
        WgDone s w [s.newPend f.hd .other true [] none] t) ∧
      (o.ty = f.tya.toNat → ¬ gone → agree → o.sliceFault f.oboff.toNat = none →
        let inFlight := if mates.length = 3 then s.obInFlight (wgOf k) else ([], s)
        ((∀ e ∈ s.fibres, wgOf e.1 = wgOf k → ∀ p ∈ e.2.pend, p.obOld = []) → inFlight = ([], s)) ∧
        ∃ t x r' is, exec (.mma f) s = .next t ∧
        WgDone inFlight.2 { w with gregs := tput w.gregs gi r', issued := w.issued ++ is } [s.newPend f.hd (.mma (wgOf k) gi op) false [] none] t ∧
        (x : Sig).op = op ∧ x.quarter = q ∧ x.fib = k ∧ x.acc = f.acc.toNat ∧ x.tya = f.tya.toNat ∧ x.tyb = f.tyb.toNat ∧ x.ck = f.ck ∧
        x.clr = f.clr ∧ x.oboff = f.oboff.toNat ∧ x.orec = o ∧ (∀ i l, i < 8 → l < 32 → tget 0 x.b (32 * i + l) = s.vreg k (f.bv.toNat + i) l) ∧
        r'.gang = r.gang ∧ r'.base = r.base ∧ r'.signs = tput r.signs q (n + 1) ∧
        (mates.length ≠ 3 → is = [] ∧ r'.sigs = r.sigs ++ [x]) ∧
        (mates.length = 3 → is = [{ g := gi, op := op, sigs := mates ++ [x], old := inFlight.1 }] ∧ r'.sigs = r.sigs.filter (fun y => y.op != op)))

/-- An unmasked element of A, as quarter q's signature captured its record (R338, R340). -/
def sigA (x : Wg) (g : Sig) (i k : Nat) : Option FV :=
  if g.orec.mExt ≤ i ∨ min g.orec.kExt (stepK g.orec.ty) ≤ k then none else some (x.aValue g.orec g.oboff i k)

/-- An unmasked element of B under a quarter's record: the signer of quarter p holds rows p·K/4 on (R339). -/
def sigB (op : MmaOp) (g : Sig) (k j : Nat) : Option FV :=
  let kk := stepK g.tya
  if min g.orec.kExt (stepK g.orec.ty) ≤ k ∨ g.orec.nExt ≤ j then none
  else match op.sigs.find? (fun y => y.quarter = k / (kk / 4)) with
    | none => none
    | some y =>
      let o := k % (kk / 4)
      let e := if kk = 64 then elem 16 (o % 2) (tget 0 y.b (32 * (o / 2) + j)).toNat else elem 8 (o % 4) (tget 0 y.b (32 * (o / 4) + j)).toNat
      some (if g.tyb = 0 then FV.ofInt (ext 0 e) else if g.tyb = 1 then FV.ofInt (ext 1 e) else (tyFmt g.tyb).value e)

/-- A product of R198: +0 where a factor is masked. -/
def maskProd (a b : Option FV) : FV :=
  match a, b with
  | some a, some b => a.mul b
  | _, _ => .num false 0 0

/-- The two chains of R198 and their sum: even and odd k apart, each addition rounded; the canonical NaN where `nan` says so. -/
def twoChains (n : Nat) (nan : Prop) [Decidable nan] (prior : W32) (p : Nat → FV) : W32 :=
  let run (start : W32) (odd : Nat) : W32 := ((List.range n).filter (fun k => k % 2 = odd)).foldl (fun a k => rne32 ((f32.value a.toNat).add false (p k))) start
  if nan ∨ (f32.value prior.toNat).isNan = true then 0x7FC00000
  else rne32 ((f32.value (run prior 0).toNat).add false (f32.value (run 0 1).toNat))

/-- R198, R199, R340, R341, R344: an issued operation with a signature of each quarter gives every element of tile ACC of each quarter the sum of its products in
two chains, and with CK moves the two checksum vectors on; an unmasked NaN counts where its factor is unmasked too; its words complete, other tiles keep their values, and
OB_CONFLICTS counts what its read takes beyond twice C, with the cycles lent to other requests, at most one in four. An operation that is not
the oldest waits. -/
def matrixOperationRule : Prop :=
  (∀ s w g, (s.wg w).issued = [] ∨ (∃ op rest, (s.wg w).issued = op :: rest ∧ op.g ≠ g) → exec (.mmaOperation w g) s = .next s) ∧
  ∀ s w op rest (tya tyb acc : Nat) (ck clr : Bool), (s.wg w).issued = op :: rest → (op.sigs.map (fun y => y.quarter)).Perm [0, 1, 2, 3] → acc < 8 →
    (∀ x ∈ op.sigs, x.tya = tya ∧ x.tyb = tyb ∧ x.acc = acc ∧ x.ck = ck ∧ x.clr = clr ∧ x.orec.ty = tya) → (s.wg w).obBad = [] →
    let x := s.wg w
    let a : Wg := { x with ob := op.old.foldl (fun m e => writeTab m (32 * e.1) e.2) x.ob }
    let n := stepK tya
    let lent := s.lentCycles w op
    (s.obBusy w = false → lent = (0, s)) ∧ 3 * lent.1 ≤ max op.peak (2 * stepC tya) ∧
    ∃ t, exec (.mmaOperation w op.g) s = .next t ∧ { t with fibres := s.fibres, wgs := s.wgs } = lent.2 ∧ (t.wg w).obConf = x.obConf + BitVec.ofNat 64 (op.peak - 2 * stepC tya + lent.1) ∧ (∀ j, j ≠ w → t.wg j = s.wg j) ∧
      (t.wg w).issued = rest ∧ (t.wg w).ob = x.ob ∧ (t.wg w).scratch = x.scratch ∧ (t.wg w).gregs = x.gregs ∧ (t.wg w).orecs = x.orecs ∧
      (∀ y ∈ op.sigs, ∀ p ∈ (t.fib y.fib).pend, p.kind = .mma w op.g y.op → p.ready = true) ∧
      (∀ y ∈ op.sigs, ∀ i j, i < 32 → j < 32 →
        let key := tileKey y.quarter acc i j
        tget false (t.wg w).tileBad key = false ∧
        tget 0 (t.wg w).tiles key = twoChains n (∃ k, k < n ∧ (sigA a y i k).isSome = true ∧ (sigB op y k j).isSome = true ∧ ((sigA a y i k).any FV.isNan = true ∨ (sigB op y k j).any FV.isNan = true))
          (if clr then 0 else if tget false x.tileBad key then 0x7FC00000 else tget 0 x.tiles key) (fun k => maskProd (sigA a y i k) (sigB op y k j))) ∧
      (∀ key, (∀ q i j, q < 4 → i < 32 → j < 32 → key ≠ tileKey q acc i j) → tget 0 (t.wg w).tiles key = tget 0 x.tiles key) ∧
      (∀ y ∈ op.sigs, ∀ i, i < 32 →
        let row := chkKey y.quarter acc 0 i
        let col := chkKey y.quarter acc 1 i
        let sum (l : List FV) : FV := f32.value (rne32 (l.foldl (fun a b => a.add false b) (.num false 0 0))).toNat
        let bSum (k : Nat) : FV := sum ((List.range 32).filterMap (fun j => sigB op y k j))
        let aSum (k : Nat) : FV := sum ((List.range 32).filterMap (fun i => sigA a y i k))
        let prior (key : Nat) : W32 := if clr then 0 else if tget false x.chkBad key then 0x7FC00000 else tget 0 x.chks key
        (ck = true → tget 0 (t.wg w).chks row = twoChains n False (prior row) (fun k => maskProd (sigA a y i k) (some (bSum k))) ∧
          tget 0 (t.wg w).chks col = twoChains n False (prior col) (fun k => maskProd (some (aSum k)) (sigB op y k i))) ∧
        (ck = false → tget 0 (t.wg w).chks row = (if clr then 0 else tget 0 x.chks row) ∧ tget 0 (t.wg w).chks col = (if clr then 0 else tget 0 x.chks col)))

/-- R198, R199, R334, R340 to R342. -/
def Obligations.MatrixOperations : Prop := mmaSignsRule ∧ matrixOperationRule

/-- The accumulator elements that a readout word moves for row i, with their keys and whether they are checksums (R349). -/
def accRow (f : FX) (q i : Nat) : List (Bool × Nat) :=
  if f.ck then [(true, chkKey q f.acc.toNat 0 i), (true, chkKey q f.acc.toNat 1 i)]
  else (List.range 8).map (fun t => (false, tileKey q f.acc.toNat i (8 * (f.oboff.toNat % 4) + t)))

def accGet (x : Wg) (e : Bool × Nat) : W32 := if e.1 then tget 0 x.chks e.2 else tget 0 x.tiles e.2
def accBad (x : Wg) (e : Bool × Nat) : Bool := if e.1 then tget false x.chkBad e.2 else tget false x.tileBad e.2

/-- R346, R349, R350: aclr clears a tile and its vectors; aget and ackr owe their results to the acting lanes' registers; aput writes the acting rows and
nothing else; aout queues whole columns. An element in error that a lane reads is poison. -/
def Obligations.AccumulatorWords : Prop :=
  ∀ s (f : FX), Plain s → s.acts s.cur f.hd ≠ 0 → s.myWg.kd.flags.getLsbD 0 = true →
    let k := s.cur
    let w := s.myWg
    let q := s.quarterOf k
    let acts := s.acts k f.hd
    let tile (i j : Nat) : W32 := tget 0 w.tiles (tileKey q f.acc.toNat i j)
    let sum (g : Nat → W32) : W32 := (List.range 32).foldl (fun a j => add32 a (g j)) 0
    let diff (a b : W32) : W32 := rne32 ((f32.value a.toNat).add false (f32.value b.toNat).negate)
    let seen (i : Nat) : List (Bool × Nat) := accRow { f with ck := true } q i ++
      (List.range 32).flatMap (fun j => [(false, tileKey q f.acc.toNat i j), (false, tileKey q f.acc.toNat j i)])
    let owes (i : Instr) (reads : Nat → List (Bool × Nat)) (res : Nat → List W32) : Prop :=
      let hurt (l : Nat) : Prop := l < 32 ∧ acts.getLsbD l = true ∧ ∃ e ∈ reads l, accBad w e = true
      ((∀ l, ¬ hurt l) → ∃ t, exec i s = .next t ∧ Owes s f.hd .other true
        ((lanesOf acts).flatMap (fun l => (List.range (res l).length).map (fun n => s.vw k (f.bv.toNat + n) l ((res l).getD n 0)))) t) ∧
      (∀ l, hurt l → s.me.helper = 0 → (∀ j, j < l → ¬ hurt j) → ∃ t ws, exec i s = .next t ∧ WgDone s w [s.newPend f.hd .other true ws (some (l, 0))] t)
    owes (.aget f) (accRow f q) (fun l => (accRow f q l).map (accGet w)) ∧
    owes (.ackr f) seen (fun i => [diff (accGet w (true, chkKey q f.acc.toNat 0 i)) (sum (fun j => tile i j)),
      diff (accGet w (true, chkKey q f.acc.toNat 1 i)) (sum (fun j => tile j i))]) ∧
    (∃ t x, exec (.aclr f) s = .next t ∧ WgDone s x [] t ∧ { x with tiles := w.tiles, tileBad := w.tileBad, chks := w.chks, chkBad := w.chkBad } = w ∧
      (∀ e, tget 0 x.tiles e = (if e / 1024 = q * 8 + f.acc.toNat then 0 else tget 0 w.tiles e) ∧
        tget false x.tileBad e = (e / 1024 ≠ q * 8 + f.acc.toNat && tget false w.tileBad e) ∧
        tget 0 x.chks e = (if e / 64 = q * 8 + f.acc.toNat then 0 else tget 0 w.chks e) ∧
        tget false x.chkBad e = (e / 64 ≠ q * 8 + f.acc.toNat && tget false w.chkBad e))) ∧
    (∃ t x, exec (.aput f) s = .next t ∧ WgDone s x [s.newPend f.hd .other true [] none] t ∧
      { x with tiles := w.tiles, tileBad := w.tileBad, chks := w.chks, chkBad := w.chkBad } = w ∧
      (∀ i n, i < 32 → acts.getLsbD i = true → ∀ h : n < (accRow f q i).length,
        accGet x (accRow f q i)[n] = s.vreg k (f.bv.toNat + n) i ∧ accBad x (accRow f q i)[n] = false) ∧
      (∀ e, (∀ i, i < 32 → acts.getLsbD i = true → e ∉ accRow f q i) → accGet x e = accGet w e ∧ accBad x e = accBad w e)) ∧
    (acts &&& ~~~s.me.helper = 0 → ∃ t, exec (.aout f) s = .next t ∧ Quiet s t) ∧
    (acts &&& ~~~s.me.helper ≠ 0 →
      ((∀ i, i < 32 → ∀ e ∈ accRow f q i, accBad w e = false) → ∃ t more, exec (.aout f) s = .next t ∧
        WgDone s { w with readout := tput w.readout q (tget [] w.readout q ++ more) } [s.newPend f.hd .other true [] none] t ∧
        more.length = (if f.ck then 2 else 8) ∧
        ∀ n i, i < 32 → n < more.length → tget 0 (more.getD n []) i = accGet w ((accRow f q i).getD n (false, 0))) ∧
      ((∃ i, i < 32 ∧ ∃ e ∈ accRow f q i, accBad w e = true) → ∃ t, exec (.aout f) s = .next t ∧
        WgDone s w [s.newPend f.hd .other true [] (some (0, 0))] t))

/-- R352, R274: obld copies each acting lane's bytes from global memory into the operand buffer, and obst copies them back; helper lanes copy nothing. -/
def Obligations.OperandBufferCopies : Prop :=
  ∀ s (f : FM) (as : List (Acc × Acc)), Plain s → Calm s → CleanCopies s → s.acts s.cur f.hd ≠ 0 → TidyLocs (as.map (·.2)) →
    let k := s.cur
    let lns := lanesOf (s.acts k f.hd &&& ~~~s.me.helper)
    (s.obPlan k f true lns = .ok as → ∃ t, exec (.obld f) s = .next t ∧
      MemDone s f.hd (s.stored k .load (as.map (·.1))) (0, 0) (Bytes.putAll (fun _ => true) (s.byteAt (wgOf k)) (as.map (fun a => (a.1, s.seen k f.scope.toNat a.2)))) t) ∧
    (s.obPlan k f false lns = .ok as → ∃ t, exec (.obst f) s = .next t ∧
      Stored s f.hd f.scope.toNat (0, 0) (as.map (fun a => (a.2, s.seen k 0 a.1))) t)

/-! Queues and engines (R370 to R385). -/

/-- A word has changed FIFO bank b, its workgroup to x, and its fibre by its place and by one pending word; nothing else. -/
structure QueueDone (s : State) (b : Nat) (fifo : List (Tab W32)) (x : Wg) (p : Pending) (t : State) : Prop where
  rest   : { t with fibres := s.fibres, banks := s.banks, wgs := s.wgs } = s
  fibres : ∀ j, j ≠ s.cur → t.fib j = s.fib j
  kept   : t.me.kept = s.me.kept
  pend   : t.me.pend = s.me.countWord.pend ++ [p]
  banks  : ∀ j, j ≠ b → t.bank j = s.bank j
  bank   : t.bank b = { s.bank b with fifo := fifo }
  wgs    : ∀ j, j ≠ wgOf s.cur → t.wg j = s.wg j
  own    : t.wg (wgOf s.cur) = x

/-- R28, R384: qpush appends one entry, of the acting lanes that are not helper lanes and 0 elsewhere; qpop takes the oldest and owes it to the acting
lanes; neither issues at a full or an empty queue, where SOS passes the turn (R68); an unbound name traps. -/
def queuePushAndPopRule : Prop :=
  ∀ s (f : FQ), Plain s → s.acts s.cur f.hd ≠ 0 →
    let k := s.cur
    let acts := s.acts k f.hd
    let q := f.q.toNat
    let w := s.myWg
    let trap (i : Instr) : Prop := CanTrap s → ∃ t, exec i s = .next t ∧ TookTrap s .illegalEncoding 0 0 0 s.me.entry.pc t
    let held (i : Instr) : Prop := ∃ t, exec i s = .next t ∧ (f.hd.sos = false → t = s) ∧
      (f.hd.sos = true → { t with slots := s.slots } = s ∧ t.mySlot = { s.mySlot with turn := 4 + fibIdx k } ∧ ∀ j, j ≠ slotOf k → t.slot j = s.slot j)
    let takes (e : Tab W32) : Pending := s.newPend f.hd .load true ((lanesOf acts).map (fun l => s.vw k f.a.toNat l (tget 0 e l))) none
    (acts &&& ~~~s.me.helper = 0 → ∃ t, exec (.qpush f) s = .next t ∧ Quiet s t) ∧
    (acts &&& ~~~s.me.helper ≠ 0 → tfind w.qbind q = none → trap (.qpush f)) ∧ (8 ≤ q → tfind w.qbind q = none → trap (.qpop f)) ∧
    (∀ n, tfind w.qbind q = some n →
      let b := 64 * clusterOf (s.coreOf k) + n
      let fifo := (s.bank b).fifo
      (acts &&& ~~~s.me.helper ≠ 0 → fifo.length < 2048 → ∃ t e, exec (.qpush f) s = .next t ∧
        QueueDone s b (fifo ++ [e]) w (s.newPend f.hd .store true [] none) t ∧
        ∀ l, l < 32 → tget 0 e l = if acts.getLsbD l && !s.me.helper.getLsbD l then s.vreg k f.a.toNat l else 0) ∧
      (acts &&& ~~~s.me.helper ≠ 0 → 2048 ≤ fifo.length → held (.qpush f)) ∧
      (8 ≤ q → ∀ e r, fifo = e :: r → ∃ t, exec (.qpop f) s = .next t ∧ QueueDone s b r w (takes e) t) ∧ (8 ≤ q → fifo = [] → held (.qpop f))) ∧
    (q < 8 →
      let own := s.mySlot.quarter % 4
      let r := if q = 4 then own else (((List.range 4).filter (fun i => i != own)).getD (q - 5) 0)
      (∀ e t', tget [] w.readout r = e :: t' → ∃ t, exec (.qpop f) s = .next t ∧
        QueueDone s 0 (s.bank 0).fifo { w with readout := tput w.readout r t' } (takes e) t) ∧
      (tget [] w.readout r = [] → held (.qpop f)))

/-- R385, R383: qstat counts what stands in a queue and its free places; qbind binds a FIFO-mode bank that no other virtual device holds bound, and
releases it, with its statuses in their order. -/
def queueStatusAndBindingRule : Prop :=
  ∀ s (f : FQ), Plain s → s.acts s.cur f.hd ≠ 0 →
    let k := s.cur
    let q := f.q.toNat
    let w := s.myWg
    let cl := clusterOf (s.coreOf k)
    let own := s.mySlot.quarter % 4
    let waiting (kind : Nat) : Nat := (s.cmds.filter (fun e => e.2.st = .queued && s.sameEngine kind cl e.2)).length
    let word (n depth : Nat) : W64 := BitVec.ofNat 64 (n + 2 ^ 16 * (depth - n) + 2 ^ 32)
    let gives (v : W64) : Prop := ∃ t, exec (.qstat f) s = .next t ∧ ScaEnd s f.a.toNat v t
    let b := (s.ssrc k f.b).toNat % 64
    let bk := s.bank (64 * cl + b)
    let ready : Prop := bk.mode = .fifo ∧ bk.next = none
    let other : Prop := ∃ e ∈ s.wgs, e.2.vd ≠ s.vdOf k ∧ clusterOf e.2.core = cl ∧ ∃ p ∈ e.2.qbind, p.2 = b
    let ends (st : Nat) (bind : Tab Nat) : Prop := ∃ t, exec (.qbind f) s = .next t ∧ { t with fibres := s.fibres, wgs := s.wgs } = s ∧
      (∀ j, j ≠ k → t.fib j = s.fib j) ∧ t.me.kept = { s.me.kept with sregs := t.me.sregs } ∧ SamePend s t ∧ t.me.sreg f.a.toNat = BitVec.ofNat 64 st ∧
      (∀ n, n ≠ f.a.toNat → t.me.sreg n = s.me.sreg n) ∧ (∀ j, j ≠ wgOf k → t.wg j = s.wg j) ∧ t.myWg = { w with qbind := bind }
    (q = 0 → gives (word (waiting 0) 64)) ∧ (q = 1 → gives (if s.feature.getLsbD 24 then word (waiting 3) 32 else 0)) ∧
    (q = 2 → gives (word (waiting 2) 32)) ∧
    (2 < q → q < 8 → gives (word (tget [] w.readout (if q = 4 then own else (((List.range 4).filter (fun i => i != own)).getD (q - 5) 0))).length 64)) ∧
    (8 ≤ q → (tfind w.qbind q = none → gives 0) ∧ ∀ n, tfind w.qbind q = some n → gives (word (s.bank (64 * cl + n)).fifo.length 2048)) ∧
    (f.sub.getLsbD 0 = true → (tfind w.qbind q = none → ends 3 w.qbind) ∧ (tfind w.qbind q ≠ none → ends 0 (tdel w.qbind q))) ∧
    (f.sub.getLsbD 0 = false → (s.ssrc k f.b).toNat < 64 →
      (¬ ready → ends 1 w.qbind) ∧ (ready → other → ends 2 w.qbind) ∧ (ready → ¬ other → ends 0 (tput w.qbind q b))) ∧
    (f.sub.getLsbD 0 = false → 64 ≤ (s.ssrc k f.b).toNat → CanTrap s → ∃ t, exec (.qbind f) s = .next t ∧ TookTrap s .illegalEncoding 0 0 0 s.me.entry.pc t)

/-- R28, R383 to R385. -/
def Obligations.Queues : Prop := queuePushAndPopRule ∧ queueStatusAndBindingRule

/-- The four pushes with the kinds of their commands. -/
def pushes (f : FQ) : List (Instr × Nat) := [(.cpy f, 0), (.cpym f, 1), (.cpyr f, 2), (.coll f, 3)]

/-- R373, R374, R380, R381: a push captures its run of four and its records and waits for acceptance; a command whose engine is absent, or under a deadline
of 0, goes to a stand-in at once, which accepts it, where no earlier word or command of its fibre comes first; a push whose check fails traps with nothing forked; with only helper lanes it does
nothing. -/
def Obligations.EnginePushes : Prop :=
  ∀ s (f : FQ), Plain s → s.drains = [] → s.acts s.cur f.hd ≠ 0 → ∀ p ∈ pushes f,
    let k := s.cur
    let vd := s.vdOf k
    let c := s.capture k p.2 f
    let depth := if p.2 ≤ 1 then 64 else 32
    let free : Prop := (s.cmds.filter (fun e => e.2.st = .queued && s.sameEngine p.2 c.cluster e.2)).length < depth
    let away : Prop := (p.2 = 3 ∧ s.feature.getLsbD 24 = false) ∨ (p.2 = 0 ∧ f.sub.extractLsb' 10 2 ≠ 0 ∧ s.feature.getLsbD 25 = false) ∨
      (s.vd vd).engDeadline.toNat % 65536 = 0
    let first : Prop := s.relBlocked k = false ∧ ∀ e ∈ s.cmds, e.1 < s.nextCmd → e.2.st = .queued → e.2.fib = k → (if p.2 ≤ 1 then 2 ≤ e.2.kind else e.2.kind ≠ p.2)
    let forked (st : CmdState) (by_ ready : Bool) : Prop := ∃ t d, exec p.1 s = .next t ∧
      { t with fibres := s.fibres, cmds := s.cmds, nextCmd := s.nextCmd, collSeq := s.collSeq } = s ∧ t.nextCmd = s.nextCmd + 1 ∧
      t.cmds = tput s.cmds s.nextCmd d ∧ (∀ j, j ≠ k → t.fib j = s.fib j) ∧ t.me.kept = s.me.kept ∧
      t.me.pend = s.me.countWord.pend ++ [s.newPend f.hd (.push s.nextCmd) ready [] none] ∧
      d.kind = p.2 ∧ d.st = st ∧ d.standIn = by_ ∧ d.vd = vd ∧ d.wg = wgOf k ∧ d.fib = k ∧ d.src = s.ssrc k f.a ∧ d.dst = s.ssrc k (f.a + 1) ∧
      d.n = (s.ssrc k (f.a + 2)).toNat ∧ d.ctr = s.ssrc k (f.a + 3) ∧ d.scope = (f.sub.extractLsb' 5 3).toNat ∧ d.pos = 0 ∧ d.added = 0 ∧
      (p.2 = 1 ∨ p.2 = 3 → d.sb = s.ssrc k f.b) ∧ (p.2 = 0 → f.sub.getLsbD 8 = true → d.lb = s.me.lreg f.b.toNat) ∧
      (p.2 = 0 → f.sub.getLsbD 9 = true → d.lc = s.me.lreg f.c.toNat) ∧
      (p.2 = 3 → d.record = tget 0 s.collSeq (hkey vd d.sb.toNat) ∧ tget 0 t.collSeq (hkey vd d.sb.toNat) = d.record + 1)
    (s.acts k f.hd &&& ~~~s.me.helper = 0 → ∃ t, exec p.1 s = .next t ∧ Quiet s t) ∧
    (s.acts k f.hd &&& ~~~s.me.helper ≠ 0 →
      (∀ cause a, s.pushTrap k c = some (cause, a) → CanTrap s → ∃ t, exec p.1 s = .next t ∧ TookTrap s cause 0 a 0 s.me.entry.pc t) ∧
      (s.pushTrap k c = none → free → ¬ away → forked .queued false false) ∧
      ((∀ e ∈ s.fibres, ∀ x ∈ e.2.pend, x.kind ≠ .push s.nextCmd) → s.pushTrap k c = none → free → away →
        (¬ first → forked .queued false false) ∧
        (first → (s.vd vd).toHost = false → (∀ x ∈ s.me.pend, ∀ b, x.kind = .fence b → x.ready = true) → forked .placing true true)) ∧
      (s.pushTrap k c = none → ¬ free → f.hd.sos = false → exec p.1 s = .next s))

/-- A command has been accepted by its engine, or by a stand-in: the words that pushed it may complete, with the fences that waited for them, and
nothing else has changed. -/
structure Accepted (s : State) (id : Nat) (c : Cmd) (t : State) : Prop where
  rest : { t with fibres := s.fibres, cmds := s.cmds } = s
  cmds : t.cmds = tput s.cmds id c
  pend : ∀ j (i : Nat) (p : Pending), (s.fib j).pend[i]? = some p → ∃ q, (t.fib j).pend[i]? = some q ∧ q = { p with ready := q.ready } ∧
    (p.kind = .push id → q.ready = true) ∧ (p.isFence = false → p.kind ≠ .push id → q.ready = p.ready)
  same : ∀ j, (t.fib j).pend.length = (s.fib j).pend.length
  kept : ∀ j, (t.fib j).kept = (s.fib j).kept ∧ (t.fib j).frontier = (s.fib j).frontier

/-- A command that the engine of `c` may start: it waits, its engine is present, and nothing of its fibre comes before it (R373). -/
def startable (s : State) (c : Cmd) (e : Nat × Cmd) : Prop :=
  s.sameEngine c.kind c.cluster e.2 = true ∧ s.absent e.2 = false ∧ s.mayAccept e.1 e.2 = true

/-- The bytes of a list of pieces. -/
def pieceBytes (m : Bytes) (ps : List Piece) : List Byte :=
  ps.flatMap (fun p => match p.locs with
    | [] => []
    | l :: _ => (List.range p.len).map (fun i => m (l.spot i)))

/-- A location that is no UNTRACKED page's. -/
def freshLocs (ps : List Piece) : Prop := ∀ p ∈ ps, ∀ l ∈ p.locs, ∀ pa b, l ≠ .dev pa 1 b

/-- R369, R373, R376, R381: an engine starts a waiting command of the highest priority; ENGINE_ACCEPT starts it, and ENGINE_DEADLINE gives one that is overdue to a stand-in; COPY_CHUNK_DONE moves the next
4,096 bytes of a plain cpy and then adds them to its counter, and the command ends with its last chunk. The counter's translation depends on no byte of memory. -/
def Obligations.EngineCopies : Prop :=
  (∀ (s : State) c e, s.upNext c s.cmds = some e → e ∈ s.cmds ∧ startable s c e ∧ ∀ e' ∈ s.cmds, startable s c e' → e'.2.prio ≤ e.2.prio) ∧
  (∀ s id c, tfind s.cmds id = some c →
    ((s.upNext c s.cmds).map (·.1) = some id → ∃ t, exec (.engineAccept id) s = .next t ∧ Accepted s id { c with st := .running } t) ∧
    ((s.upNext c s.cmds).map (·.1) ≠ some id → exec (.engineAccept id) s = .next s) ∧
    (s.cmdOverdue c = true → s.mayAccept id c = true → (s.vd c.vd).toHost = false →
      ∃ t, exec (.engineDeadline id) s = .next t ∧ Accepted s id { c with st := .placing, standIn := true } t) ∧
    (s.cmdOverdue c = false ∨ s.mayAccept id c = false → exec (.engineDeadline id) s = .next s)) ∧
  (∀ s id c (ps qs : List Piece), Calm s → NoOldCopies s → (s.wg c.wg).scratchBad = [] → tfind s.cmds id = some c → c.st = .running → c.host = none → c.kind = 0 →
    c.cmp = 0 → c.gather = false → c.scatter = false → c.pos < c.n → (c.dsp = true ∨ c.csp = true → s.live c.wg = true) →
    (s.grid c.grid).st = .running → (∀ x ∈ (s.vd c.vd).seals, x.ending = false) → freshLocs ps → freshLocs qs →
    let k := min 4096 (c.n - c.pos)
    let core := 8 * c.cluster
    s.engPlan c c.ssp .rd 1 (c.src.toNat + c.pos) k = .ok ps → s.engPlan c c.dsp .wr 1 (c.dst.toNat + c.pos) k = .ok qs →
    let m := Bytes.putPieces (fun _ => true) (s.byteAt c.wg) qs (pieceBytes (s.byteAt c.wg) ps)
    let added (l : Loc) : Bytes := m.put l (leBytes 8 (min (leNat ((List.range 8).map (fun i => m (l.spot i))) + k) (2 ^ 64 - 1)))
    ∀ m', (c.ctr = 0 ∧ m' = m) ∨ (c.ctr ≠ 0 ∧ c.csp = true ∧ c.ctr.toNat + 8 ≤ (s.wg c.wg).kd.scratch ∧ m' = added (.scr c.ctr.toNat)) ∨
        (c.ctr ≠ 0 ∧ c.csp = false ∧ ∃ pa b, (∀ mem, ({ s with mem := mem } : State).ctrAt core c.vd c.ctr = some [{ len := 8, locs := [.dev pa 0 b] }]) ∧ m' = added (.dev pa 0 b)) →
      ∃ t, exec (.copyChunkDone id) s = .next t ∧ (∀ x : Spot, x.1 ≤ 4 → t.byteAt c.wg x = m' x) ∧
        (c.pos + k < c.n → tfind t.cmds id = some { c with pos := c.pos + k, added := c.added + k, wait := none }) ∧
        (c.pos + k = c.n → tfind t.cmds id = none))

/-- The fold of R379 over the ranks' elements, for the integer types. -/
def rankFold (cop cty : Nat) (xs : List Nat) : Nat :=
  if cop = 4 then (if cty = 4 then wrap 32 ((xs.map (ext 4)).foldl max (-(2 ^ 31))) else xs.foldl max 0)
  else xs.foldl (fun a b => (a + b) % 2 ^ 32) 0

/-- R379: what each rank of a collective receives is the fold in ascending rank of every element, its own slice of it, every rank's bytes, or rank 0's;
COLLECTIVE_FOLD_DONE writes it at the rank's destination, adds to its counter and counts in COLL_DONE. -/
def Obligations.Collectives : Prop :=
  (∀ c (count r : Nat) (srcs : List (List Byte)), c.kind = 3 → srcs.length = count → 0 < count → r < count → (∀ b ∈ srcs, b.length = c.n) →
    c.cty = 4 ∨ c.cty = 5 → c.n % (4 * count) = 0 →
    let el (l : List Byte) (i : Nat) : Nat := leNat ((l.drop (4 * i)).take 4)
    let res := collResult c count r srcs
    (c.cop = 0 ∨ c.cop = 4 → res.length = c.n ∧ ∀ i, 4 * i < c.n → el res i = rankFold c.cop c.cty (srcs.map (fun l => el l i))) ∧
    (c.cop = 1 → res.length = c.n / count ∧ ∀ i, 4 * i < c.n / count → el res i = rankFold 0 c.cty (srcs.map (fun l => el l (r * (c.n / 4 / count) + i)))) ∧
    (c.cop = 2 → res = srcs.flatten) ∧ (c.cop = 3 → srcs.head? = some res)) ∧
  (∀ s id remote c, tfind s.cmds id = some c → c.kind ≠ 3 ∨ c.st ≠ .running → exec (.collectiveFoldDone id remote) s = .next s) ∧
  (∀ s id remote c g bs (qs : List Piece), Calm s → NoOldCopies s → tfind s.cmds id = some c → c.kind = 3 → c.st = .running → c.standIn = false → c.host = none →
    s.groupRec c = .ok g → c.result = some bs → bs ≠ [] → c.ctr = 0 → (s.grid c.grid).st = .running → (∀ x ∈ (s.vd c.vd).seals, x.ending = false) →
    freshLocs qs → s.engPlan c false .wr 1 c.dst.toNat bs.length = .ok qs →
    let die := s.dieOf c.cluster
    let done := tget 0 s.collDone die
    ∃ t, exec (.collectiveFoldDone id remote) s = .next t ∧ tfind t.cmds id = none ∧
      (∀ x : Spot, x.1 ≤ 4 → t.byteAt c.wg x = Bytes.putPieces (fun _ => true) (s.byteAt c.wg) qs bs x) ∧
      (tget 0 t.collDone die).extractLsb' 0 32 = done.extractLsb' 0 32 + 1 ∧ (tget 0 t.collDone die).extractLsb' 32 32 = done.extractLsb' 32 32)

/-! System registers (R9, R30, R148, R149). -/

/-- The system registers: number, the level that reads it, and the level that writes it, if any does (R30 and the chapter of each). -/
def sysRows : List (Nat × Priv × Option Priv) :=
  [(0x001, .user, none), (0x010, .user, none), (0x011, .user, none), (0x012, .supervisor, some .supervisor), (0x013, .supervisor, none),
   (0x020, .user, none), (0x030, .supervisor, some .device), (0x031, .supervisor, some .device), (0x032, .supervisor, some .device),
   (0x033, .supervisor, some .device), (0x040, .user, some .supervisor), (0x041, .supervisor, some .device), (0x042, .supervisor, some .device),
   (0x050, .user, none), (0x051, .user, some .user), (0x060, .user, none), (0x061, .user, none), (0x062, .user, some .user), (0x063, .user, none),
   (0x064, .user, none), (0x068, .user, some .user), (0x069, .user, some .user), (0x06A, .user, some .user), (0x06B, .user, some .user),
   (0x06C, .supervisor, some .device), (0x06D, .supervisor, none), (0x06E, .supervisor, some .device), (0x120, .user, none), (0x121, .user, none),
   (0x128, .user, none), (0x130, .user, none), (0x131, .user, none), (0x132, .user, none), (0x133, .user, none), (0x140, .user, some .supervisor),
   (0x141, .user, some .supervisor), (0x160, .user, none), (0x170, .user, some .supervisor), (0x171, .user, none), (0x172, .user, none),
   (0x173, .user, none), (0x174, .user, none), (0x200, .supervisor, some .supervisor), (0x201, .supervisor, some .supervisor),
   (0x210, .user, some .supervisor), (0x211, .user, some .supervisor), (0x212, .user, some .supervisor), (0x213, .supervisor, some .supervisor),
   (0x214, .user, some .supervisor), (0x240, .supervisor, some .supervisor), (0x241, .supervisor, some .supervisor),
   (0x242, .supervisor, some .device), (0x243, .supervisor, some .device), (0x244, .supervisor, some .device), (0x245, .supervisor, some .device),
   (0x246, .supervisor, some .device), (0x247, .supervisor, some .device), (0x248, .supervisor, some .device), (0x249, .supervisor, some .supervisor),
   (0x24A, .supervisor, none), (0x3F0, .user, some .user)]

/-- What the registers hold that a read leaves as they are, for a fibre: its own, its workgroup's, its virtual device's and the device's. -/
def plainReads : List (Nat × (State → Nat → W64)) :=
  [(0x001, fun s _ => s.feature), (0x010, fun s _ => BitVec.ofNat 64 s.clock), (0x011, fun s k => (s.vd (s.vdOf k)).energyCtx),
   (0x013, fun s _ => BitVec.ofNat 64 (tget 0 s.islandNj (s.islandSel.toNat % 64))), (0x030, fun s k => (s.vd (s.vdOf k)).funcMode),
   (0x031, fun s k => (s.vd (s.vdOf k)).energyReport), (0x032, fun s k => (s.vd (s.vdOf k)).fallbackRing),
   (0x033, fun s k => (s.vd (s.vdOf k)).fallbackCtr), (0x040, fun s k => (s.vd (s.vdOf k)).queueBase),
   (0x041, fun s k => (s.vd (s.vdOf k)).dispatchDesc), (0x042, fun s k => (s.vd (s.vdOf k)).dispatchArgs),
   (0x061, fun s k => (s.fib k).trap.pc), (0x062, fun s k => (s.fib k).trap.resume), (0x063, fun s k => (s.fib k).trap.addr),
   (0x068, fun s k => tget 0 (s.fib k).trap.save 0), (0x069, fun s k => tget 0 (s.fib k).trap.save 1),
   (0x06A, fun s k => tget 0 (s.fib k).trap.save 2), (0x06B, fun s k => tget 0 (s.fib k).trap.save 3), (0x06C, fun s k => (s.vd (s.vdOf k)).watchdog),
   (0x06E, fun s _ => s.preemptTimeout), (0x120, fun s k => (s.fib k).scrPasses), (0x121, fun s k => (s.fib k).scrRequests),
   (0x128, fun s k => (s.vd (s.vdOf k)).atomReplays), (0x130, fun s k => (s.fib k).pfIssued), (0x131, fun s k => (s.fib k).pfUsed),
   (0x132, fun s k => (s.fib k).pfLate), (0x133, fun s k => (s.fib k).pfEvicted), (0x160, fun s k => (s.wg (wgOf k)).obConf),
   (0x170, fun s k => (s.vd (s.vdOf k)).engDeadline), (0x200, fun s k => (s.fib k).xlateIn), (0x210, fun s k => (s.vd (s.vdOf k)).heapBase),
   (0x211, fun s k => (s.vd (s.vdOf k)).heapLimit), (0x212, fun s k => (s.vd (s.vdOf k)).heapOffset), (0x213, fun s k => (s.vd (s.vdOf k)).ptRoot),
   (0x214, fun s k => (s.vd (s.vdOf k)).promote), (0x242, fun s _ => s.damask.sel), (0x244, fun s _ => s.damask.tableSel),
   (0x246, fun s _ => s.damask.memShare), (0x247, fun s _ => s.damask.scrubCtl), (0x248, fun s _ => s.damask.scrubRange)]

/-- A field of a register, at bit `lo`, `n` bits wide. -/
def field (v : W64) (lo n : Nat) : Nat := v.toNat / 2 ^ lo % 2 ^ n

/-- A word whose guard holds in some lane, of a fibre at level `p` or above. -/
def runsAt (s : State) (hd : Head) (p : Priv) : Prop := s.acts s.cur hd ≠ 0 ∧ p.code ≤ s.me.priv.code

/-- R149, R30, R87: rdsr owes s(D) the register's value; an unassigned number and a level below the register's trap, in this order, whatever the guard is; with its
guard in no lane it does nothing else; then an absent unit traps. -/
def Obligations.RegisterReads : Prop :=
  ∀ s (f : FY), Plain s →
    let n := f.num.toNat
    let owes (v : W64 → Prop) : Prop := ∃ t v', exec (.rdsr f) s = .next t ∧ Owes s f.hd .other true [.sreg f.d.toNat v'] t ∧ v v'
    let trap (c : Cause) : Prop := ∃ t, exec (.rdsr f) s = .next t ∧ TookTrap s c 0 0 0 s.me.entry.pc t
    (∀ r ∈ sysRows, r.1 = n → r.2.1.code ≤ s.me.priv.code → s.acts s.cur f.hd = 0 → ∃ t, exec (.rdsr f) s = .next t ∧ Quiet s t) ∧
    (CanTrap s →
      ((∀ r ∈ sysRows, r.1 ≠ n) → trap .illegalEncoding) ∧
      (∀ r ∈ sysRows, r.1 = n → s.me.priv.code < r.2.1.code → trap .privilege) ∧
      (s.acts s.cur f.hd ≠ 0 → (n = 0x172 → s.feature.getLsbD 24 = false → trap .unitAbsent) ∧
        (n = 0x173 ∨ n = 0x174 → s.feature.getLsbD 25 = false → trap .unitAbsent))) ∧
    (∀ r ∈ sysRows, r.1 = n → runsAt s f.hd r.2.1 → n ≠ 0x201 → (n = 0x172 → s.feature.getLsbD 24 = true) →
      (n = 0x173 ∨ n = 0x174 → s.feature.getLsbD 25 = true) →
      (∃ t v, exec (.rdsr f) s = .next t ∧ t.me.pend = s.me.countWord.pend ++ [s.newPend f.hd .other true [.sreg f.d.toNat v] none]) ∧
      (∀ p ∈ plainReads, p.1 = n → owes (fun v => v = p.2 s s.cur)) ∧
      (n = 0x020 → owes (fun v => v = s.fibreId s.cur)) ∧
      (n = 0x060 → owes (fun v => field v 0 5 = s.me.trap.cause.toNat ∧ v.getLsbD 5 = s.me.trap.inh ∧ field v 6 5 = s.me.trap.lane.toNat ∧
        field v 16 16 = s.me.trap.code.toNat)) ∧
      (n = 0x064 → owes (fun v => field v 0 32 = s.me.trap.mask.toNat ∧ field v 32 24 = s.me.trap.fp % 2 ^ 24 ∧ field v 56 8 = s.me.trap.bpri.toNat)) ∧
      (n = 0x050 → s.me.move < 4 → owes (fun v => field v 0 24 = s.me.lo % 2 ^ 24 ∧ field v 48 2 = s.me.move ∧
        field v 24 24 = (if s.me.move = 0 then s.me.entry.fp else s.me.moveFp) % 2 ^ 24)) ∧
      (n = 0x172 → owes (fun v => v = tget 0 s.collDone (s.dieOf (clusterOf (s.coreOf s.cur))))) ∧
      (n = 0x173 → owes (fun v => v = tget 0 s.cpyzIn (clusterOf (s.coreOf s.cur)))) ∧
      (n = 0x174 → owes (fun v => v = tget 0 s.cpyzOut (clusterOf (s.coreOf s.cur)))) ∧
      (n = 0x140 → owes (fun v => field v 0 11 = field (s.vd (s.vdOf s.cur)).occClu 0 11)) ∧
      (n = 0x141 → owes (fun v => field v 0 11 = field (s.vd (s.vdOf s.cur)).occL2 0 11)) ∧
      (n = 0x240 → owes (fun v => v = 0)))

/-- What a read with a clearing field finds, and what it leaves of the state (R9). -/
structure Clearing where
  num   : Nat
  level : Priv
  instr : Nat → Nat → Instr
  value : State → Nat → W64
  clear : State → Nat → State → Prop

/-- KILL_CAUSE (R436), ENG_FAULT (R380), MEM_RETIRE_STATUS (R325), and MEM_EVENT of virtual device 0 with an entry in the log (R330). -/
def clearings : List Clearing :=
  [{ num := 0x06D, level := .supervisor, instr := .killCauseRead, value := fun s k => (s.vd (s.vdOf k)).killCause,
     clear := fun s k u => { u with vds := s.vds } = s ∧ (∀ v, v ≠ s.vdOf k → u.vd v = s.vd v) ∧ (u.vd (s.vdOf k)).killCause = 0 ∧
       { u.vd (s.vdOf k) with killCause := (s.vd (s.vdOf k)).killCause, msix := (s.vd (s.vdOf k)).msix } = s.vd (s.vdOf k) },
   { num := 0x171, level := .user, instr := .engFaultRead, value := fun s k => (s.wg (wgOf k)).engFault,
     clear := fun s k u => { u with wgs := s.wgs } = s ∧ (∀ w, w ≠ wgOf k → u.wg w = s.wg w) ∧ u.wg (wgOf k) = { s.wg (wgOf k) with engFault := 0 } },
   { num := 0x241, level := .supervisor, instr := .memRetireStatusRead,
     value := fun s _ => BitVec.ofNat 64 ((match s.damask.retire with
       | some r => r.phase + 2 ^ 32 * (r.todo.length % 4096)
       | none => 0) + 2 ^ 8 * s.damask.lastError),
     clear := fun s _ u => u = { s with damask := { s.damask with lastError := 0 } } },
   { num := 0x24A, level := .supervisor, instr := .memEventRead, value := fun s k => if s.vdOf k = 0 then s.damask.events.headD 0 else 0,
     clear := fun s k u => { u with damask := s.damask, vds := s.vds } = s ∧
       u.damask = { s.damask with events := if s.vdOf k = 0 then s.damask.events.drop 1 else s.damask.events } }]

/-- What XLATE_OUT says of a device physical address (R316), from the home that R311 gives it. -/
def outWord (s : State) (pa : Nat) (v : W64) : Prop :=
  let p := pa / 2 ^ 28
  let e := s.damask.prov p
  let h := s.damask.home pa
  if 2560 ≤ p then v = 0
  else if e.st = .retired then field v 0 3 = 4 ∧ field v 47 12 = p
  else h.at_.stack < 12 → h.par.stack < 12 → h.at_.unit < 1024 → h.at_.row < 2 ^ 17 → h.at_.col < 16 →
    field v 0 3 = PState.code e.st ∧ v.getLsbD 3 = h.isNew ∧ v.getLsbD 4 = s.damask.isLocked (pa / 64) ∧ v.getLsbD 5 = s.damask.lost h.at_ ∧ v.getLsbD 7 = true ∧ field v 8 4 = h.at_.stack ∧
    field v 12 5 = h.at_.unit / 32 ∧ field v 17 1 = h.at_.unit / 16 % 2 ∧ field v 18 4 = h.at_.unit % 16 ∧ field v 22 17 = h.at_.row ∧
    field v 39 4 = h.at_.col ∧ field v 43 4 = h.par.stack ∧ field v 47 12 = p

/-- R9, R149, R325, R330, R380, R436, R316: a read of a register with a clearing field returns it and clears it, by rdsr and by the event of the table;
XLATE_OUT returns the placement of the address in XLATE_IN. -/
def Obligations.ClearingReads : Prop :=
  (∀ s (f : FY) (c : Clearing), c ∈ clearings → c.num = f.num.toNat → Plain s → runsAt s f.hd c.level →
    ∃ t u, exec (.rdsr f) s = .next t ∧ c.clear s s.cur u ∧ Owes u f.hd .other true [.sreg f.d.toNat (c.value s s.cur)] t) ∧
  (∀ s k d (c : Clearing), c ∈ clearings →
    (c.level.code ≤ (s.fib k).priv.code → ∃ t u, exec (c.instr k d) s = .next t ∧ c.clear s k u ∧ { t with fibres := u.fibres } = u ∧
      (∀ j, j ≠ k → t.fib j = u.fib j) ∧ { t.fib k with sregs := (u.fib k).sregs, sBad := (u.fib k).sBad } = u.fib k ∧ (t.fib k).sreg d = c.value s k ∧
      ∀ i, i ≠ d → (t.fib k).sreg i = (u.fib k).sreg i) ∧
    ((s.fib k).priv.code < c.level.code → exec (c.instr k d) s = .next s)) ∧
  (∀ s k d, 1 ≤ (s.fib k).priv.code →
    let a := (s.fib k).xlateIn
    let va := a.toNat % 2 ^ 57
    let phys : Prop := a.getLsbD 63 = true ∧ (s.fib k).priv = .device
    let reads (R : W64 → Prop) : Prop := ∃ t v, exec (.xlateOutRead k d) s = .next t ∧ t = s.modFib k (fun f => f.setSreg d v) ∧ R v
    (phys → reads (outWord s va)) ∧
    (¬ phys → s.globalPiece (s.coreOf k) (s.vdOf k) .rd va 1 = .error .mig → exec (.xlateOutRead k d) s = .next s) ∧
    (¬ phys → ∀ c, s.globalPiece (s.coreOf k) (s.vdOf k) .rd va 1 = .error (.fault c) → reads (fun v => v = 64)) ∧
    (¬ phys → ∀ p pa b c, s.globalPiece (s.coreOf k) (s.vdOf k) .rd va 1 = .ok p → p.locs = [.dev pa b c] → reads (outWord s pa)) ∧
    (¬ phys → ∀ p, s.globalPiece (s.coreOf k) (s.vdOf k) .rd va 1 = .ok p → (∀ pa b c, p.locs.head? ≠ some (.dev pa b c)) → reads (fun v => v = 0)))

/-- The registers that a write merely sets: number, level, what it holds, and what it holds after a write of v. -/
def plainWrites : List (Nat × Priv × (State → Nat → W64) × (W64 → W64 → W64)) :=
  [(0x012, .supervisor, fun s _ => s.islandSel, fun _ v => v &&& 0x3F), (0x030, .device, fun s k => (s.vd (s.vdOf k)).funcMode, fun _ v => v &&& 0xFF),
   (0x031, .device, fun s k => (s.vd (s.vdOf k)).energyReport, fun _ v => v &&& 0x01FFFFFFFFFFFFC0),
   (0x032, .device, fun s k => (s.vd (s.vdOf k)).fallbackRing, fun _ v => v &&& 0x01FFFFFFFFFFF00F),
   (0x033, .device, fun s k => (s.vd (s.vdOf k)).fallbackCtr, fun _ v => v &&& 0x01FFFFFFFFFFFFF8),
   (0x040, .supervisor, fun s k => (s.vd (s.vdOf k)).queueBase, fun _ v => v &&& 0x01FFFFFFFFFFF87F),
   (0x042, .device, fun s k => (s.vd (s.vdOf k)).dispatchArgs, fun _ v => v &&& 0x01FFFFFFFFFFFFFF),
   (0x062, .user, fun s k => (s.fib k).trap.resume, fun _ v => v), (0x068, .user, fun s k => tget 0 (s.fib k).trap.save 0, fun _ v => v),
   (0x069, .user, fun s k => tget 0 (s.fib k).trap.save 1, fun _ v => v), (0x06A, .user, fun s k => tget 0 (s.fib k).trap.save 2, fun _ v => v),
   (0x06B, .user, fun s k => tget 0 (s.fib k).trap.save 3, fun _ v => v), (0x06C, .device, fun s k => (s.vd (s.vdOf k)).watchdog, fun _ v => v &&& 0xFFFF),
   (0x06E, .device, fun s _ => s.preemptTimeout, fun _ v => v &&& 0xFF), (0x140, .supervisor, fun s k => (s.vd (s.vdOf k)).occClu, fun _ v => v &&& 0x7FF),
   (0x141, .supervisor, fun s k => (s.vd (s.vdOf k)).occL2, fun _ v => v &&& 0x7FF),
   (0x170, .supervisor, fun s k => (s.vd (s.vdOf k)).engDeadline, fun _ v => v &&& 0xFFFF),
   (0x210, .supervisor, fun s k => (s.vd (s.vdOf k)).heapBase, fun _ v => v &&& 0x01FFFFFFFFE00000),
   (0x211, .supervisor, fun s k => (s.vd (s.vdOf k)).heapLimit, fun _ v => v &&& 0x01FFFFFFFFE00000),
   (0x212, .supervisor, fun s k => (s.vd (s.vdOf k)).heapOffset, fun _ v => v &&& 0x01FFFFFFFFE00000),
   (0x213, .supervisor, fun s k => (s.vd (s.vdOf k)).ptRoot, fun _ v => v &&& 0x01FFFFFFFFFFF000),
   (0x214, .supervisor, fun s k => (s.vd (s.vdOf k)).promote, fun o v => (o &&& 0xFFFFFFFF00000000) ||| (v &&& 1)),
   (0x242, .device, fun s _ => s.damask.sel, fun _ v => v &&& 0x3FFF), (0x244, .device, fun s _ => s.damask.tableSel, fun _ v => v &&& 0x3FFFF),
   (0x246, .device, fun s _ => s.damask.memShare, fun _ v => v &&& 0x07FF07FF),
   (0x247, .device, fun s _ => s.damask.scrubCtl, fun o v => (o &&& 0xFFFFFFFF00000000) ||| (v &&& 0x1FFFF)),
   (0x248, .device, fun s _ => s.damask.scrubRange, fun _ v => v &&& 0x0FFF0FFF)]

/-- Fibre k has written v to the register of a row: it holds what the row says, and every other register what it held. -/
structure Written (s : State) (k : Nat) (r : Nat × Priv × (State → Nat → W64) × (W64 → W64 → W64)) (v : W64) (t : State) : Prop where
  frame  : { t with fibres := s.fibres, vds := s.vds, damask := s.damask, islandSel := s.islandSel, preemptTimeout := s.preemptTimeout } = s
  fibres : ∀ j, j ≠ k → t.fib j = s.fib j
  fibre  : { t.fib k with trap := (s.fib k).trap } = s.fib k
  vds    : ∀ j, j ≠ s.vdOf k → t.vd j = s.vd j
  value  : r.2.2.1 t k = r.2.2.2 (r.2.2.1 s k) v
  others : ∀ q ∈ plainReads, q.1 ≠ r.1 → (q.1 = 0x013 → r.1 ≠ 0x012) → q.2 t k = q.2 s k

/-- R149, R9, R87: wrsr sets the writable fields of a register and leaves its other bits and every other register; a number that no register has, and a level
below the register's or a register that no level writes, trap, whatever the guard is; with its guard in no lane but helper lanes it does nothing else; REGISTER_WRITE is the same
write by any fibre. -/
def Obligations.RegisterWrites : Prop :=
  (∀ s (f : FY), Plain s →
    let n := f.num.toNat
    let some_ : Prop := s.acts s.cur f.hd &&& ~~~s.me.helper ≠ 0
    let trap (c : Cause) : Prop := ∃ t, exec (.wrsr f) s = .next t ∧ TookTrap s c 0 0 0 s.me.entry.pc t
    (∀ r ∈ plainWrites, r.1 = n → r.2.1.code ≤ s.me.priv.code → ¬ some_ → ∃ t, exec (.wrsr f) s = .next t ∧ Quiet s t) ∧
    (CanTrap s → ((∀ r ∈ sysRows, r.1 ≠ n) → trap .illegalEncoding) ∧
      (∀ r ∈ sysRows, r.1 = n → (∀ p, r.2.2 = some p → s.me.priv.code < p.code) → trap .privilege)) ∧
    (∀ r ∈ plainWrites, r.1 = n → some_ → r.2.1.code ≤ s.me.priv.code → ∃ t u, exec (.wrsr f) s = .next t ∧ Written s s.cur r (s.ssrc s.cur f.a) u ∧
      u.me.entry = s.me.entry ∧ u.me.pend = s.me.pend ∧ Owes u f.hd .other true [] t)) ∧
  (∀ s k (v : W64), k < 2 ^ 60 → ∀ r ∈ plainWrites,
    (r.2.1.code ≤ (s.fib k).priv.code → ∃ t, exec (.registerWrite k r.1 v) s = .next t ∧ Written s k r v t) ∧
    ((s.fib k).priv.code < r.2.1.code → exec (.registerWrite k r.1 v) s = .next s))

/-- R351, R444: a FAULT_INJECT write flips a bit of a tile element, of a checksum element or of a register-stack entry, with its parity or without, or marks
the core to fail its next scan pass. -/
def faultInjectionRule : Prop :=
  ∀ s k (v : W64),
    let w := wgOf k
    let gang : Bool := (s.wg w).kd.flags.getLsbD 0
    let bit : W32 := BitVec.ofNat 32 (2 ^ field v 19 5)
    let tile := (field v 4 2 * 8 + field v 6 3) * 1024 + 32 * field v 9 5 + field v 14 5
    let chk := ((field v 4 2 * 8 + field v 6 3) * 2 + field v 14 5) * 32 + field v 9 5
    let reg := 32 * (32 * field v 6 3 + field v 14 5) + field v 9 5
    let wgOnly (t : State) : Prop := { t with wgs := s.wgs } = s ∧ ∀ j, j ≠ w → t.wg j = s.wg j
    let flipped (a b : Tab W32) (key : Nat) : Prop := tget 0 b key = tget 0 a key ^^^ bit ∧ ∀ j, j ≠ key → tget 0 b j = tget 0 a j
    (∃ t, exec (.faultInjectTile k v) s = .next t ∧ (gang = false → t = s) ∧ (gang = true → wgOnly t ∧
      { t.wg w with tiles := (s.wg w).tiles, tileBad := (s.wg w).tileBad } = s.wg w ∧ flipped (s.wg w).tiles (t.wg w).tiles tile ∧
      (tget false (t.wg w).tileBad tile = if v.getLsbD 24 then false else !tget false (s.wg w).tileBad tile))) ∧
    (∃ t, exec (.faultInjectChecksum k v) s = .next t ∧ (gang = false ∨ 2 ≤ field v 14 5 → t = s) ∧ (gang = true → field v 14 5 < 2 → wgOnly t ∧
      { t.wg w with chks := (s.wg w).chks, chkBad := (s.wg w).chkBad } = s.wg w ∧ flipped (s.wg w).chks (t.wg w).chks chk ∧
      (tget false (t.wg w).chkBad chk = if v.getLsbD 24 then false else !tget false (s.wg w).chkBad chk))) ∧
    (∃ t, exec (.faultInjectRegister k v) s = .next t ∧ { t with slots := s.slots } = s ∧ (∀ j, j ≠ slotOf k → t.slot j = s.slot j) ∧
      { t.slot (slotOf k) with stack := (s.slot (slotOf k)).stack, stackBad := (s.slot (slotOf k)).stackBad } = s.slot (slotOf k) ∧
      flipped (s.slot (slotOf k)).stack (t.slot (slotOf k)).stack reg ∧
      (tget false (t.slot (slotOf k)).stackBad reg = !v.getLsbD 24) ∧
      ∀ j, j ≠ reg → tget false (t.slot (slotOf k)).stackBad j = tget false (s.slot (slotOf k)).stackBad j) ∧
    (∃ t, exec (.faultInjectScanFail k v) s = .next t ∧ ((s.fib k).priv = .user → t = s) ∧ ((s.fib k).priv ≠ .user →
      { t with cores := s.cores } = s ∧ (∀ j, j ≠ s.coreOf k → t.core j = s.core j) ∧
      t.core (s.coreOf k) = { s.core (s.coreOf k) with failNext := true })) ∧
    (∀ f : FY, k = s.cur → Plain s → s.acts k f.hd &&& ~~~s.me.helper ≠ 0 → f.num.toNat = 0x3F0 → s.ssrc k f.a = v →
      ∃ t u, exec (.wrsr f) s = .next t ∧ Owes u f.hd .other true [] t ∧ (field v 0 4 = 1 → exec (.faultInjectTile k v) s = .next u) ∧
        (field v 0 4 = 2 → exec (.faultInjectChecksum k v) s = .next u) ∧ (field v 0 4 = 3 → exec (.faultInjectRegister k v) s = .next u) ∧
        (field v 0 4 = 4 → exec (.faultInjectScanFail k v) s = .next u) ∧ (field v 0 4 = 0 ∨ 5 ≤ field v 0 4 → u = s))

/-- R169, R277: a SPILL_CMD with GO moves the pending chunk to or from its address, with the address's low ten bits 0, and LO and Saved follow; with no move pending it
does nothing; a fault, or poison that a move in meets, is a trap of the write, and nothing moves. No window of an ephemeral result is open. -/
def spillCommandRule : Prop :=
  ∀ s k (v : W64),
    let f := s.fib k
    let a : W64 := v &&& 0x01FFFFFFFFFFFC00
    let depth := (s.wg (wgOf k)).depth
    let c := if f.move = 1 then f.lo / 8 else if f.move = 2 then (f.lo + depth) / 8 - 1 else f.lo / 8 - 1
    let clean : Prop := f.move = 3 → s.chunkBad k a = none
    (f.move = 0 → exec (.spillCmdGo k v) s = .next s) ∧
    (∀ u, f.move ≠ 0 → f.eph = [] → clean → s.moveChunk k c (f.move != 3) a = .ok u → ∃ t, exec (.spillCmdGo k v) s = .next t ∧ { t with fibres := u.fibres } = u ∧
      (∀ j, j ≠ k → t.fib j = u.fib j) ∧ (t.fib k).move = 0 ∧ { t.fib k with lo := f.lo, saved := f.saved, move := f.move } = { u.fib k with lo := f.lo, saved := f.saved, move := f.move } ∧
      (f.move = 1 → (t.fib k).lo = (u.fib k).lo + 8 ∧ (t.fib k).saved = false) ∧ (f.move = 2 → (t.fib k).lo = (u.fib k).lo ∧ (t.fib k).saved = true) ∧
      (f.move = 3 → (t.fib k).lo = (u.fib k).lo - 8 ∧ (t.fib k).saved = false)) ∧
    (∀ l x, k = s.cur → CanTrap s → f.move = 3 → s.chunkBad k a = some (l, x) → ∃ t, exec (.spillCmdGo k v) s = .next t ∧ TookTrap s .poison l x 0 s.me.entry.pc t) ∧
    (∀ c', k = s.cur → CanTrap s → f.move ≠ 0 → clean → c' ≠ .pageFault → c' ≠ .walkNode → s.moveChunk k c (f.move != 3) a = .error (.fault c') →
      ∃ t, exec (.spillCmdGo k v) s = .next t ∧ TookTrap s c' 0 a (if f.move = 3 then 0 else 1) s.me.entry.pc t)

/-- R169, R351, R444. -/
def Obligations.InjectionAndSpill : Prop := faultInjectionRule ∧ spillCommandRule

/-! Words and events of the system (R137 to R145, R305, R437, R442, R443). -/

/-- A SUPERVISOR or DEVICE word of a fibre below its level takes PRIVILEGE before its guard is looked at (R31, R87). -/
def privilegedWordsRule : Prop :=
  ∀ s (f : FY), CanTrap s →
    (s.me.priv = .user → ∀ i ∈ [Instr.launch f, .lstat f, .halt f, .tlbi f, .bankmode f, .scan f],
      ∃ t, exec i s = .next t ∧ TookTrap s .privilege 0 0 0 s.me.entry.pc t) ∧
    (s.me.priv = .supervisor → ∃ t, exec (.scan f) s = .next t ∧ TookTrap s .privilege 0 0 0 s.me.entry.pc t)

/-- R437, R436: halt of a grid of the virtual device that is ADMITTED or RUNNING begins its kill and gives 0; of any other identifier it gives 1 and does
nothing else. -/
def haltRule : Prop :=
  ∀ s (f : FY), Plain s → runsAt s f.hd .supervisor →
    let vd := s.vdOf s.cur
    let a := s.ssrc s.cur f.a
    let g := gkey vd a.toNat
    let live : Prop := a.toNat ≠ 0 ∧ a.toNat < 2 ^ 32 ∧ ((s.grid g).st = .admitted ∨ (s.grid g).st = .running)
    (¬ live → ∃ t, exec (.halt f) s = .next t ∧ ScaEnd s f.d.toNat 1 t) ∧
    (live → (∀ e ∈ s.wgs, e.1 = wgOf s.cur → gkey e.2.vd e.2.grid ≠ g) → ∃ t, exec (.halt f) s = .next t ∧ (t.grid g).st = .killed ∧
      t.me.sreg f.d.toNat = 0 ∧ (∀ n, n ≠ f.d.toNat → t.me.sreg n = s.me.sreg n) ∧
      (∀ w, gkey (s.wg w).vd (s.wg w).grid = g → (s.wg w).life ≠ .ended → (s.wg w).life ≠ .killed → (t.wg w).life = .killed ∧ (t.wg w).qbind = [] ∧ (t.wg w).locks = []))

/-- The cached translations of a virtual device that a tlbi drops (R305): those whose pages, and the walk-cache entries whose ranges, meet n bytes from a. -/
def meets (lo size a n : Nat) : Prop := lo < a + n ∧ a < lo + size

/-- R305: tlbi drops the translations of one page, of a range, or of the whole context, or its walk-cache entries; a range of 2^40 bytes or more drops all. It makes a release first, so it
waits for the earlier words of its fibre that are not performed. -/
def tlbiRule : Prop :=
  ∀ s (f : FY), Plain s → runsAt s f.hd .supervisor → s.drains = [] → f.sub.toNat < 4 →
    let vd := s.vdOf s.cur
    let a := (s.ssrc s.cur f.a).toNat
    let b := (s.ssrc s.cur f.b).toNat
    let all : Prop := f.sub = 2 ∨ (f.sub = 1 ∧ 2 ^ 40 ≤ b)
    let n : Nat := if f.sub = 0 then 1 else if f.sub = 1 then b else 0
    let part : Prop := f.sub.toNat ≤ 1 ∧ a < 2 ^ 57 ∧ n ≠ 0
    (s.relBlocked s.cur = true → exec (.tlbi f) s = .next s) ∧
    (s.relBlocked s.cur = false → ∃ t u, exec (.tlbi f) s = .next t ∧ Owes u f.hd .other true [] t ∧ { u with tlb := s.tlb, walks := s.walks } = s ∧
      (∀ e, e ∈ u.tlb ↔ e ∈ s.tlb ∧ ¬ (e.vd = vd ∧ (all ∨ (part ∧ meets e.va e.size a n)))) ∧
      (∀ e, e ∈ u.walks ↔ e ∈ s.walks ∧ ¬ (e.vd = vd ∧ (all ∨ f.sub = 3 ∨
        (part ∧ meets (e.va * 2 ^ (12 + 9 * e.level)) (2 ^ (12 + 9 * e.level)) a n)))))

/-- R143 to R145: bankmode refuses a mask that would leave fewer than 8 CACHE banks, returning it whole; otherwise it returns the banks that are in use, and every other bank of the
mask in another mode begins to change; the word completes, and the bank has its new mode and is empty, when the last bank of its cluster has drained. -/
def bankRule : Prop :=
  (∀ s (f : FY), Plain s → s.acts s.cur f.hd &&& ~~~s.me.helper ≠ 0 → 1 ≤ s.me.priv.code → f.sub.toNat < 3 →
    let cl := clusterOf (s.coreOf s.cur)
    let req := s.ssrc s.cur f.a
    let m : BankMode := if f.sub = 0 then .cache else if f.sub = 1 then .scratch else .fifo
    let mode (b : Nat) : BankMode := (s.bank (64 * cl + b)).mode
    let left := ((List.range 64).filter (fun b => if req.getLsbD b then m = .cache else mode b = .cache)).length
    let used (b : Nat) : Prop := ∃ e ∈ s.wgs, clusterOf e.2.core = cl ∧
      ((s.onCore e.1 = true ∧ tget 0 e.2.banks b ≠ 0) ∨ ((s.wg e.1).life ≠ .ended ∧ (s.wg e.1).life ≠ .killed ∧ ∃ q ∈ e.2.qbind, q.2 = b))
    let want (b : Nat) : Prop := req.getLsbD b = true ∧ mode b ≠ m
    (left < 8 → ∃ t, exec (.bankmode f) s = .next t ∧ Owes s f.hd (.bank cl) true [.sreg f.d.toNat req] t) ∧
    (8 ≤ left → ∃ t u v ready, exec (.bankmode f) s = .next t ∧ Owes u f.hd (.bank cl) ready [.sreg f.d.toNat v] t ∧
      (∀ b, b < 64 → (v.getLsbD b = true ↔ want b ∧ used b)) ∧ (ready = true ↔ ∀ b, b < 64 → want b → used b) ∧
      (∀ b, b < 64 → (want b ∧ ¬ used b → u.bank (64 * cl + b) = { s.bank (64 * cl + b) with next := some m }) ∧
        (¬ (want b ∧ ¬ used b) → u.bank (64 * cl + b) = s.bank (64 * cl + b))) ∧
      (∀ j, j / 64 ≠ cl → u.bank j = s.bank j) ∧ u.cur = s.cur ∧ u.me.bare = s.me.bare ∧ (m = .cache → { u with banks := s.banks } = s))) ∧
  (∀ s cl b, let x := s.bank (64 * cl + b)
    (x.next = none → exec (.bankDrainComplete cl b) s = .next s) ∧
    (∀ m, x.next = some m → ∃ t, exec (.bankDrainComplete cl b) s = .next t ∧ { t with banks := s.banks, fibres := s.fibres } = s ∧
      t.bank (64 * cl + b) = { mode := m, next := none, fifo := [] } ∧ (∀ j, j ≠ 64 * cl + b → t.bank j = s.bank j) ∧
      ∀ k, { t.fib k with pend := (s.fib k).pend } = s.fib k ∧ (t.fib k).pend =
        if (List.range 64).any (fun j => j != b && (s.bank (64 * cl + j)).next.isSome) then (s.fib k).pend
        else (s.fib k).pend.map (fun p => if p.kind = .bank cl then { p with ready := true } else p)))

/-- R443: dmr.on copies lanes 0 to 15 of every frame in use, of the predicates and of the lane kinds into lanes 16 to 31 and turns shadow mode on; dmr.off turns it off, and
lanes 16 to 31 have their launch kinds. -/
def dmrRule : Prop :=
  ∀ s (f : FY), s.acts s.cur f.hd ≠ 0 → (s.me.launched &&& ~~~s.me.exited) &&& 0xFFFF ≠ 0 →
    (Plain s → f.sub = 1 → ∃ t, exec (.dmr f) s = .next t ∧ t.me.shadow = true ∧ t.me.sregs = s.me.sregs ∧
      (∀ l, l < 16 → t.me.launched.getLsbD (16 + l) = s.me.launched.getLsbD l ∧ t.me.launched.getLsbD l = s.me.launched.getLsbD l ∧
        t.me.helper.getLsbD (16 + l) = s.me.helper.getLsbD l ∧ t.me.exited.getLsbD (16 + l) = s.me.exited.getLsbD l ∧
        ∀ n, (t.me.preg n).getLsbD (16 + l) = (s.me.preg n).getLsbD l ∧ (t.me.preg n).getLsbD l = (s.me.preg n).getLsbD l) ∧
      (∀ e ∈ s.me.frontier, ∀ i l, i < 64 - (s.wg (wgOf s.cur)).sh → l < 16 → e.mask.getLsbD l = true →
        t.mySlot.at (s.ventry s.cur e.fp i) (16 + l) = s.mySlot.at (s.ventry s.cur e.fp i) l) ∧
      (∀ i l, l < 16 → t.mySlot.at i l = s.mySlot.at i l)) ∧
    (Plain s → f.sub = 0 → ∃ t, exec (.dmr f) s = .next t ∧ Quiet s t) ∧
    (s.me.shadow = true → s.me.pBad = [] → s.me.eph = [] → f.sub = 0 → ∃ t, exec (.dmr f) s = .next t ∧ t.me.shadow = false ∧ t.me.sregs = s.me.sregs ∧
      t.me.pregs = s.me.pregs ∧ t.mySlot.stack = s.mySlot.stack ∧
      let w := s.wg (wgOf s.cur)
      let base := 32 * (slotIdx s.cur * w.kd.fibres + fibIdx s.cur)
      (∀ l, l < 16 → t.me.launched.getLsbD l = s.me.launched.getLsbD l) ∧
      ∀ l, 16 ≤ l → l < 32 → (t.me.launched.getLsbD l = true ↔ base + l < w.threads))

/-- R442: scan at DEVICE drains its core for a pass and completes with the pass; a core that the package lacks gives 3, and one that cannot be scanned now 2. -/
def scanRule : Prop :=
  ∀ s (f : FY), Plain s → runsAt s f.hd .device →
    let a := (s.ssrc s.cur f.a).toNat
    let now (v : W64) : Prop := ∃ t, exec (.scan f) s = .next t ∧ Owes s f.hd .other true [.sreg f.d.toNat v] t
    let free : Prop := (s.core a).inPass = false ∧ (s.core a).draining = false ∧ (s.core a).dead = false
    (512 ≤ a ∨ s.coreCount ≤ a → now 3) ∧
    (a < 512 → a < s.coreCount → ¬ free → now 2) ∧
    (a < 512 → a < s.coreCount → free → ∃ t u, exec (.scan f) s = .next t ∧ Owes s f.hd (.scan a) false [.sreg f.d.toNat 0] u ∧
      { t with cores := u.cores, wgs := u.wgs, grids := u.grids } = u ∧ (t.core a).draining = true ∧ (t.core a).waiter = some (0, s.cur) ∧
      (∀ j, j ≠ a → t.core j = s.core j) ∧
      ∀ w, (s.wg w).core = a → (s.wg w).life = .running → (t.wg w).life = .stopping false)

/-- R143 to R145, R305, R437, R442, R443. -/
def haltTlbiAndBankmodeRule : Prop := haltRule ∧ tlbiRule ∧ bankRule
def shadowAndScanWordsRule : Prop := dmrRule ∧ scanRule

/-- R31, R87, R143 to R145, R305, R436, R437, R442, R443. -/
def Obligations.PrivilegedAndModeWords : Prop := privilegedWordsRule ∧ haltTlbiAndBankmodeRule ∧ shadowAndScanWordsRule

/-! Interruption (R298 to R302, R426 to R431). -/

/-- Fibre k has entered its handler with the trap x (R426, R427): the frame is filled, s28 to s31 are saved, the rest of the frontier and the pending words are set
aside, and the lanes of the entry stand at TRAPVEC. -/
structure Entered (s : State) (k : Nat) (c : Cause) (lane : Nat) (addr : W64) (code : BitVec 16) (pc resume : W64) (t : State) : Prop where
  cause  : (t.fib k).trap.cause = BitVec.ofNat 5 c.code
  inh    : (t.fib k).trap.inh = true
  lane   : (t.fib k).trap.lane = BitVec.ofNat 5 lane
  code   : (t.fib k).trap.code = code
  addr   : (t.fib k).trap.addr = addr
  pc     : (t.fib k).trap.pc = pc
  resume : (t.fib k).trap.resume = resume
  mask   : (t.fib k).trap.mask = (s.fib k).entry.mask
  fp     : (t.fib k).trap.fp = (s.fib k).entry.fp
  bpri   : (t.fib k).trap.bpri = (s.fib k).entry.bpri
  saved  : ∀ i, i < 4 → tget 0 (t.fib k).trap.save i = (s.fib k).sreg (28 + i)
  aside  : (t.fib k).trap.aside = (s.fib k).frontier.drop 1
  later  : (t.fib k).trap.pend = (s.fib k).pend ∧ (t.fib k).pend = []
  at_    : ∃ e, (t.fib k).frontier = [e] ∧ e.pc = (s.wg (wgOf k)).kd.trapvec ∧ e.inside = false ∧ e.fp = (s.fib k).entry.fp ∧ e.mask = (s.fib k).entry.mask
  regs   : (t.fib k).sregs = (s.fib k).sregs ∧ (t.fib k).pregs = (s.fib k).pregs ∧ (t.fib k).raised = none ∧ (t.fib k).frozen = none

/-- Fibre k can enter its handler: its long-latency words have completed, pending cwait words apart (R427). -/
structure CanEnter (s : State) (k : Nat) : Prop where
  lanes   : (s.fib k).entry.mask ≠ 0
  pend    : ∀ p ∈ (s.fib k).pend, p.isCwait = true ∧ p.ready = false
  windows : (s.fib k).eph = []
  waits   : (s.fib k).pend = [] ∨ ∀ e ∈ (s.fib k).frontier, ∀ m, e.wait = .tok m ∨ e.wait = .wtok m → (s.fib k).holds m
  inh     : (s.fib k).trap.inh = false
  vector  : (s.wg (wgOf k)).kd.trapvec ≠ 0

/-- R427, R429: TRAP_TAKE enters the handler once every long-latency word but cwait has completed, and not before; tret gives back s28 to s31, the frontier and the pending words, and the entry
resumes at TRAP_RESUME, inside its clause if TRAP_RESUME was not written; an entry whose tokens have been released meanwhile waits no more. Outside a handler tret traps, whatever its guard is. -/
def trapEntryAndReturnRule : Prop :=
  (∀ s k (x : TrapInfo), (s.fib k).raised = some x → (s.fib k).life = .running → CanEnter s k →
    ∃ t, exec (.trapTake k) s = .next t ∧ { t with fibres := s.fibres } = s ∧ (∀ j, j ≠ k → t.fib j = s.fib j) ∧
      Entered s k x.cause x.lane x.addr x.code x.pc (if x.cause = .poison ∨ x.cause = .watchdog then (s.fib k).entry.pc else x.resume) t) ∧
  (∀ s k, (s.fib k).raised = none ∨ (∃ p ∈ (s.fib k).pend, p.ready = false ∧ p.isCwait = false) → exec (.trapTake k) s = .next s) ∧
  (∀ s (f : FC), CanTrap s → ∃ t, exec (.tret f) s = .next t ∧ TookTrap s .illegalEncoding 0 0 0 s.me.entry.pc t) ∧
  (∀ s (f : FC) (e : Entry), Plain s → s.acts s.cur f.hd ≠ 0 → s.me.trap.inh = true → s.me.trap.entry = some e →
    let held (m : BitVec 8) : Prop := ∃ i, i < 8 ∧ m.getLsbD i = true ∧ ∃ p ∈ s.me.trap.pend, p.tok = some i
    let waits (w : Wait) : Prop := match w with
      | .none => False
      | .tok m => held m
      | .wtok m => held m
      | .all => s.me.trap.pend ≠ []
      | _ => True
    ∃ t, exec (.tret f) s = .next t ∧ Local s t ∧ t.mySlot = s.mySlot ∧ t.me.trap.inh = false ∧
      (∀ i, i < 4 → t.me.sreg (28 + i) = tget 0 s.me.trap.save i) ∧ (∀ n, n < 28 ∨ 32 ≤ n → t.me.sreg n = s.me.sreg n) ∧ t.me.pregs = s.me.pregs ∧
      t.me.pend = s.me.trap.pend ∧
      (∀ x ∈ s.me.trap.aside, ∀ l, x.mask.getLsbD l = true → (waits x.wait → t.me.stands l x) ∧ (¬ waits x.wait → t.me.stands l { x with wait := .none })) ∧
      ∀ l, l < 32 → e.mask.getLsbD l = true → s.me.exited.getLsbD l = false →
        (s.me.trap.resume = s.me.trap.entryResume → t.me.stands l { e with wait := .none }) ∧
        (s.me.trap.resume ≠ s.me.trap.entryResume → t.me.stands l (e.jump (s.me.trap.resume &&& ~~~7) s.me.trap.fp e.mask)))

/-- R89, R180, R427, R429. -/
def Obligations.Traps : Prop := softwareTrapsRule ∧ trapEntryAndReturnRule

/-- R428: WATCHDOG_EXPIRY makes each fibre of the workgroup that can issue, is not in its handler and has run for LIMIT million nanoseconds since its start or its last WATCHDOG take the trap at its
next word; it changes no other fibre. -/
def watchdogRule : Prop :=
  ∀ s w, let late (k : Nat) : Prop := (s.vd (s.vdOf k)).watchdog.toNat % 65536 ≠ 0 ∧ s.awake k = true ∧ (s.fib k).trap.inh = false ∧
      (s.vd (s.vdOf k)).watchdog.toNat % 65536 * 1000000 ≤ s.clock - (s.fib k).wdFrom
    let mine (k : Nat) : Prop := ∃ i j, i < (s.wg w).kd.slots ∧ j < (s.wg w).kd.fibres ∧ k = 64 * w + 4 * i + j
    (s.wg w).kd.slots ≤ 16 → (s.wg w).kd.fibres ≤ 4 → (s.wg w).kd.trapvec ≠ 0 → (s.wg w).life = .running → (∀ k, mine k → late k → CanEnter s k) →
      ∃ t, exec (.watchdogExpiry w) s = .next t ∧ { t with fibres := s.fibres } = s ∧ (∀ k, ¬ (mine k ∧ late k) → t.fib k = s.fib k) ∧
        ∀ k, mine k → late k → Entered s k .watchdog 0 0 0 (s.fib k).entry.pc (s.fib k).entry.pc t ∧ (t.fib k).wdFrom = s.clock

/-- A byte of device memory after entries of page tables have been written. -/
def ptesAt (m : Nat → Byte) (ptes : List (Nat × W64)) : Nat → Byte :=
  ptes.foldl (fun m p => fun a => if p.1 ≤ a ∧ a < p.1 + 8 then p.2.extractLsb' (8 * (a - p.1)) 8 else m a) m

/-- R430, R431, R380: a served batch writes its entries and lets the fibre issue its word again; a fibre whose own page is refused takes the trap of its fault; an engine command goes on. -/
def faultServiceRule : Prop :=
  ∀ s ptes refused,
    let bytes (t : State) : Prop := ∀ a, tget memDefault t.mem a = ptesAt (fun a => tget memDefault s.mem a) ptes a
    (∀ k x, k < 2 ^ 60 → (s.fib k).frozen = some x →
      ((∀ p ∈ x.pages.take 1, p ∉ refused) → ∃ t, exec (.faultBatchServed k ptes refused) s = .next t ∧ bytes t ∧ { t with mem := s.mem, fibres := s.fibres } = s ∧
        t.fib k = { s.fib k with frozen := none } ∧ ∀ j, j ≠ k → t.fib j = s.fib j) ∧
      ((∃ p ∈ x.pages.take 1, p ∈ refused) → CanEnter s k → (s.fib k).raised = none → ∃ t, exec (.faultBatchServed k ptes refused) s = .next t ∧ bytes t ∧
        { t with mem := s.mem, fibres := s.fibres } = s ∧ (∀ j, j ≠ k → t.fib j = s.fib j) ∧
        Entered s k x.cause x.lane x.addr (if x.write then 1 else 0) (s.fib k).entry.pc (s.fib k).entry.pc t)) ∧
    (∀ k, k < 2 ^ 60 → (s.fib k).frozen = none → ∃ t, exec (.faultBatchServed k ptes refused) s = .next t ∧ bytes t ∧ { t with mem := s.mem } = s) ∧
    (∀ id c p, tfind s.cmds id = some c → c.wait = some p → p ∉ refused → ∃ t, exec (.faultBatchServed (2 ^ 60 + id) ptes refused) s = .next t ∧ bytes t ∧
      { t with mem := s.mem, cmds := s.cmds } = s ∧ t.cmds = tput s.cmds id { c with wait := none })

/-- R380, R428, R430, R431. -/
def Obligations.WatchdogAndFaultService : Prop := watchdogRule ∧ faultServiceRule

/-- R298, R301: a walk that finds a translation puts it into the core's TLB, and into the cluster's TLB if that has none, with the nodes on its path in the die's walk cache, where these are not
full; one that faults or waits changes nothing. What a walk reads enters the L2 slices. -/
def walkRule : Prop :=
  ∀ s core vd va, va < 2 ^ 57 → core < s.coreCount → s.inHeap vd va = false → (∀ e ∈ s.tlb, e.covers 0 core vd va = false) → (∀ e ∈ s.tlb, e.covers 1 (clusterOf core) vd va = false) →
    let ent (x : Xl) (lv h : Nat) : Tlbe := { level := lv, holder := h, vd := vd, va := x.va, size := x.size, pa := x.pa, w := x.w, x := x.x, attr := x.attr, repl := x.repl }
    (∀ e, s.walk core vd va = .error e → exec (.pageWalk core vd va) s = .next s) ∧
    (∀ x, s.walk core vd va = .ok x → s.ucopies = [] → s.drains = [] → s.damask.err = [] → (∀ p, s.damask.lost p = false) →
      (s.tlb.filter (fun e => e.level = 0 && e.holder = core)).length < 256 → (s.tlb.filter (fun e => e.level = 1 && e.holder = clusterOf core)).length < 8 →
      (s.walks.filter (fun e => e.die = s.dieOf (clusterOf core))).length ≤ 60 →
      ∃ t, exec (.pageWalk core vd va) s = .next t ∧ { t with tlb := s.tlb, walks := s.walks, l2 := s.l2, msc := s.msc, fibres := s.fibres } = s ∧
        (∀ k, (t.fib k).bare = (s.fib k).bare) ∧ t.tlb = ent x 0 core :: ent x 1 (clusterOf core) :: s.tlb ∧ (∀ e, e ∈ s.walks → e ∈ t.walks) ∧
        (va < x.va + x.size → x.va ≤ va → ∀ p, t.paged core vd va = .ok p → p = x))

/-- The conditions on which a range of 2 MiB is promoted to the frame (R302): PROMOTE allows it, range and frame are aligned, the frame is the partition's, and the level-1 entry at `at1` names a
local node that is not in motion. -/
structure Promotes (s : State) (vd va frame at1 : Nat) : Prop where
  on    : (s.vd vd).promote.getLsbD 0 = true
  range : va % 2 ^ 21 = 0
  aligned : frame % 2 ^ 21 = 0
  owned : s.owned vd frame = true
  at_   : s.level1At vd va = some at1
  node  : (s.nodeEntry 0 at1).getLsbD 0 = true ∧ (s.nodeEntry 0 at1).getLsbD 1 = false ∧ (s.nodeEntry 0 at1).getLsbD 7 = false ∧
    (s.nodeEntry 0 at1).getLsbD 8 = false ∧ (s.nodeEntry 0 at1).extractLsb' 57 6 = 0

/-- R302: a page promotion sets MIG in the entries of 32 pages of 64 KiB of one province, mapped with equal permissions and attribute, and drops their translations; then it copies them into a free
frame of 2 MiB of the same province, maps that frame by one leaf, drops the old translations and counts in PROMOTE. -/
def promotionRule : Prop :=
  ∀ s vd va frame at1, Promotes s vd va frame at1 → MemOk s → s.ucopies = [] → s.drains = [] →
    let node := pteAddr (s.nodeEntry 0 at1)
    let dropped (t : State) : Prop := ∀ e ∈ t.tlb, e.vd = vd → ¬ meets e.va e.size va (2 ^ 21)
    (∀ r, s.joinable node true = none → s.joinable node false = some r →
      ∃ t, exec (.pagePromotion vd va frame) s = .next t ∧ { t with mem := s.mem, tlb := s.tlb, walks := s.walks } = s ∧ dropped t ∧
        (∀ i, i < 512 → t.nodeEntry 0 (node + 8 * i) = s.nodeEntry 0 (node + 8 * i) ||| 0x100) ∧
        ∀ a, (a < node ∨ node + 4096 ≤ a) → tget memDefault t.mem a = tget memDefault s.mem a) ∧
    (∀ e0 fs, s.joinable node true = some (e0, fs) → s.cc = [] → s.l0 = [] → s.damask.err = [] → s.poison = [] → fs.headD 0 / 2 ^ 28 = frame / 2 ^ 28 →
      (∀ f ∈ fs, f / 2 ^ 21 ≠ frame / 2 ^ 21) → (at1 + 8 ≤ frame ∨ frame + 2 ^ 21 ≤ at1) →
      ∃ t, exec (.pagePromotion vd va frame) s = .next t ∧ dropped t ∧
        (∀ i o, i < 32 → o < 65536 → tget memDefault t.mem (frame + 65536 * i + o) = tget memDefault s.mem (fs.getD i 0 + o)) ∧
        (∀ a, (a < frame ∨ frame + 2 ^ 21 ≤ a) → (a < at1 ∨ at1 + 8 ≤ a) → tget memDefault t.mem a = tget memDefault s.mem a) ∧
        pteAddr (t.nodeEntry 0 at1) = frame ∧ (t.nodeEntry 0 at1).getLsbD 0 = true ∧ (t.nodeEntry 0 at1).getLsbD 1 = true ∧
        (t.nodeEntry 0 at1).extractLsb' 2 4 = e0.extractLsb' 2 4 ∧ (t.vd vd).promote = (s.vd vd).promote + 2 ^ 32)

/-- R298, R301, R302. -/
def Obligations.WalksAndPromotions : Prop := walkRule ∧ promotionRule

/-! Launching and placing (R26, R27, R124 to R142). -/

/-- A launch record keeps the rules of R127, THREADS and ARGS apart: counters at multiples of 8, extents 1 to 2^21, a queue below QCOUNT, CHILD the only flag, a parent
only with it, and zero in the rest. -/
structure RecordOk (r : LaunchRec) (qcount : Nat) : Prop where
  prov   : r.prov % 8 = 0
  conf   : r.conf % 8 = 0
  gx     : 1 ≤ r.gx ∧ r.gx ≤ 2 ^ 21
  gy     : 1 ≤ r.gy ∧ r.gy ≤ 2 ^ 21
  gz     : 1 ≤ r.gz ∧ r.gz ≤ 2 ^ 21
  queue  : r.queue < 64 ∧ r.queue < qcount
  flags  : r.lflags < 2
  parent : r.lflags = 0 → r.parent = 0
  rsv    : r.rsv = 0

/-- A kernel descriptor keeps R47: every field in its range, CODE in a TEXT section of the virtual device, and the frames of a slot in its 256 entries. -/
structure DescOk (d : KDesc) (texts : List (Nat × Nat)) : Prop where
  code     : d.code.toNat % 8 = 0 ∧ ∃ t ∈ texts, t.1 ≤ d.code.toNat ∧ d.code.toNat < t.1 + t.2
  scratch  : d.scratch % 1024 = 0 ∧ d.scratch ≤ 2 ^ 22
  ob       : d.ob % 1024 = 0 ∧ d.ob ≤ 2 ^ 19
  reserve  : d.childReserve ≤ 2 ^ 20
  args     : d.argsSize ≤ 512
  stack    : d.stack % 8 = 0 ∧ 64 ≤ d.stack ∧ d.stack ≤ 256
  slots    : 1 ≤ d.slots ∧ d.slots ≤ 16
  fibres   : 1 ≤ d.fibres ∧ d.fibres ≤ 4
  shared   : d.shared = 0 ∨ d.shared = 8 ∨ d.shared = 16 ∨ d.shared = 32
  prio     : d.prio ≤ 7
  flags    : d.flags.toNat < 32
  version  : d.version = 1
  rsv      : d.rsvZero = true
  room     : d.fibres * d.stack + d.shared ≤ 256
  gang     : d.flags.getLsbD 0 = true → d.slots % 4 = 0
  spill    : d.flags.getLsbD 2 = false → d.spill ≠ 0 ∧ d.spill.toNat % 4096 = 0 ∧ 1024 ≤ d.spillStride ∧ d.spillStride % 1024 = 0

/-- A grid that launch has admitted (R48, R126, R130): what the record, the descriptor, the argument block and the queue entry said then. -/
structure AdmittedGrid (r : LaunchRec) (kd : KDesc) (args : List Byte) (q : QueueEnt) (g : Grid) : Prop where
  state   : g.st = .admitted ∧ g.disp = false ∧ g.next = 0 ∧ g.done = 0
  desc    : g.desc = r.desc ∧ g.kd = kd ∧ g.args = args
  shape   : g.gx = r.gx ∧ g.gy = r.gy ∧ g.gz = r.gz ∧ g.threads = if r.threads = 0 then 32 * kd.fibres * kd.slots else r.threads
  ends    : g.prov = BitVec.ofNat 64 r.prov ∧ g.conf = BitVec.ofNat 64 r.conf
  reserve : g.reserve = kd.childReserve ∧ g.held = 1 + kd.childReserve
  queue   : g.queue = r.queue ∧ g.qclass = q.qclass ∧ g.urgent = q.urgent ∧ g.budget = q.budget ∧ g.edef = q.edef ∧ g.resvTwill = q.twill ∧ g.resvMem = q.mem

/-- R130 to R133: launch makes its checks in the order of R130, the first that fails gives the status and admits nothing; an admitted grid takes the next identifier and its units from the quota, or,
a child, from its parent's reserve. A launch makes a release first and waits for what it must wait for. -/
def Obligations.Launches : Prop :=
  ∀ s (f : FY), Plain s → s.drains = [] → s.acts s.cur f.hd &&& ~~~s.me.helper ≠ 0 → 1 ≤ s.me.priv.code →
    let vd := s.vdOf s.cur
    let v := s.vd vd
    let core := s.coreOf s.cur
    let a := (s.ssrc s.cur f.a).toNat
    let gives (n : Nat) (P : State → Prop) : Prop := ∃ t u, exec (.launch f) s = .next t ∧ P u ∧ Owes u f.hd .other true [.sreg f.d.toNat (BitVec.ofNat 64 n)] t
    let fails (n : Nat) : Prop := gives n (fun u => u = s)
    let read (a n : Nat) := s.tryRead core vd a n
    (s.relBlocked s.cur = true → exec (.launch f) s = .next s) ∧
    (s.relBlocked s.cur = false →
    (a % 64 ≠ 0 → fails 3) ∧
    (∀ c, a % 64 = 0 → read a 64 = .error (.fault c) → fails 7) ∧
    (∀ b, a % 64 = 0 → read a 64 = .ok b →
      let r := LaunchRec.ofBytes b
      let qcount := v.queueBase.toNat % 128
      let entry := v.queueBase.toNat / 2048 % 2 ^ 46 * 2048 + 32 * r.queue
      (¬ RecordOk r qcount → fails 3) ∧
      (∀ c, RecordOk r qcount → read entry 32 = .error (.fault c) → fails 7) ∧
      (∀ qb, RecordOk r qcount → read entry 32 = .ok qb →
        let q := QueueEnt.ofBytes qb
        let listed : Prop := ∃ i ∈ v.images, r.desc ∈ i.descs
        (q.enabled = false → fails 3) ∧
        (q.enabled = true → ¬ listed → fails 6) ∧
        (∀ c, q.enabled = true → listed → read r.desc 128 = .error (.fault c) → fails 7) ∧
        (∀ db, q.enabled = true → listed → read r.desc 128 = .ok db →
          let kd := KDesc.ofBytes db
          let ok := DescOk kd (v.images.flatMap (fun i => i.texts))
          (¬ ok → fails 2) ∧
          (ok → 32 * kd.fibres * kd.slots < r.threads → fails 3) ∧
          (ok → r.threads ≤ 32 * kd.fibres * kd.slots → kd.argsSize ≠ 0 → r.args % 8 ≠ 0 → fails 3) ∧
          (∀ c, ok → r.threads ≤ 32 * kd.fibres * kd.slots → kd.argsSize ≠ 0 → r.args % 8 = 0 → read r.args kd.argsSize = .error (.fault c) → fails 7) ∧
          (∀ args, ok → r.threads ≤ 32 * kd.fibres * kd.slots → (kd.argsSize = 0 ∧ args = []) ∨ (kd.argsSize ≠ 0 ∧ r.args % 8 = 0 ∧ read r.args kd.argsSize = .ok args) →
            let draw := 1 + kd.childReserve
            let id := v.nextGrid
            let pk := gkey vd r.parent
            let p := s.grid pk
            let accepts : Prop := r.parent ≠ 0 ∧ (p.st = .admitted ∨ p.st = .running) ∧ draw ≤ p.reserve
            let takes (u : State) : Prop := { u with grids := s.grids, vds := s.vds } = s ∧ AdmittedGrid r kd args q (u.grid (gkey vd id)) ∧
              (u.vd vd).nextGrid = id + 1 ∧ ∀ j, j ≠ vd → u.vd j = s.vd j
            (r.lflags = 0 → v.cfg.gridQuota < v.quotaUsed + draw → fails 5) ∧
            (r.lflags = 0 → v.quotaUsed + draw ≤ v.cfg.gridQuota → gives (2 ^ 32 * id) (fun u => takes u ∧ (u.vd vd).quotaUsed = v.quotaUsed + draw ∧
              (u.grid (gkey vd id)).parent = none ∧ ∀ j, j ≠ gkey vd id → u.grid j = s.grid j)) ∧
            (r.lflags = 1 → ¬ accepts → fails 1) ∧
            (r.lflags = 1 → accepts → r.parent ≠ id → gives (2 ^ 32 * id) (fun u => takes u ∧ (u.vd vd).quotaUsed = v.quotaUsed ∧
              (u.grid (gkey vd id)).parent = some r.parent ∧ u.grid pk = { p with reserve := p.reserve - draw, held := p.held - draw } ∧
              ∀ j, j ≠ gkey vd id → j ≠ pk → u.grid j = s.grid j)))))))

/-- R134, R135: lstat gives a grid's state, whether no core can hold a workgroup of it now, whether its next workgroup waits for energy, and how many of its workgroups have exited; 0 for an
identifier of no grid of the virtual device, and for one after which 4,096 later grids have ended. -/
def lstatRule : Prop :=
  ∀ s (f : FY), Plain s → s.acts s.cur f.hd &&& ~~~s.me.helper ≠ 0 → 1 ≤ s.me.priv.code →
    let vd := s.vdOf s.cur
    let id := (s.ssrc s.cur f.a).toNat
    let x := s.grid (gkey vd id)
    let known : Prop := id ≠ 0 ∧ id < 2 ^ 32 ∧ (tfind s.grids (gkey vd id)).isSome = true ∧
      (s.grids.filter (fun e => e.1 / 2 ^ 32 = vd && id < e.1 % 2 ^ 32 && (e.2.st = .confirmed || e.2.st = .killed))).length < 4096
    ∃ t w, exec (.lstat f) s = .next t ∧ Owes s f.hd .other true [.sreg f.d.toNat w] t ∧ (¬ known → w = 0) ∧
      (known → (x.st = .admitted → field w 0 4 = 1) ∧ (x.st = .running → field w 0 4 = 2) ∧ (x.st = .provisional → field w 0 4 = 3) ∧
        (x.st = .confirmed → field w 0 4 = 4) ∧ (x.st = .killed → field w 0 4 = 5) ∧
        (w.getLsbD 4 = true ↔ ∀ c ∈ (s.vd vd).cfg.cores ++ (s.vd vd).cfg.reserved, s.fits c x.kd = none) ∧
        (w.getLsbD 5 = true ↔ x.ready = true ∧ s.energyOk (gkey vd id) = false) ∧ field w 6 2 = 0 ∧ field w 8 56 = min x.done (2 ^ 56 - 1))

/-- R26, R27, R139, R140, R381: WORKGROUP_PLACEMENT starts one workgroup of a grid that no placeable grid of the cluster outranks, its registers, windows and lanes as R26 and R27 give them; a stand-in
of no lower priority is placed ahead of it, as a workgroup of one slot; and nothing happens where nothing can be placed. -/
def placementRule : Prop :=
  ∀ s cluster,
    (s.bestStand cluster s.cmds = none → s.bestGrid cluster (s.grids.map (·.1)) = none → exec (.workgroupPlacement cluster) s = .next s) ∧
    (∀ id core slots c, s.bestStand cluster s.cmds = some (id, core, slots) → tfind s.cmds id = some c → (∀ e ∈ s.cmds, tfind s.cmds e.1 = some e.2) →
      (∀ g p, s.bestGrid cluster (s.grids.map (·.1)) = some (g, p) → (s.grid g).kd.prio ≤ c.prio) →
      c.st = .placing ∧ ∃ t, exec (.workgroupPlacement cluster) s = .next t ∧ t.mem = s.mem ∧ t.grids = s.grids ∧ t.nextWg = s.nextWg + 1 ∧
        tfind t.cmds id = some { c with st := .running, host := some s.nextWg } ∧ (t.wg s.nextWg).life = .running ∧ (t.wg s.nextWg).vd = c.vd ∧
        (t.wg s.nextWg).core = core ∧ (t.wg s.nextWg).kd.prio = c.prio ∧ clusterOf core = cluster ∧ ∀ j, j ≠ s.nextWg → s.live j = true → t.wg j = s.wg j) ∧
    (∀ g core slots banks, s.bestGrid cluster (s.grids.map (·.1)) = some (g, core, slots, banks) →
      (∀ id p c, s.bestStand cluster s.cmds = some (id, p) → tfind s.cmds id = some c → c.prio < (s.grid g).kd.prio) → (s.grid g).kd.slots ≤ 16 → (s.grid g).kd.fibres ≤ 4 → 64 ≤ (s.grid g).kd.stack →
      let x := s.grid g
      let w := s.nextWg
      let index := match x.replay with
        | r :: _ => r.1
        | [] => x.next
      let thread (i j : Nat) : Nat := 32 * (i * x.kd.fibres + j)
      (∀ g', g' ∈ s.grids.map (·.1) → (s.place cluster g').isSome = true → (s.grid g').kd.prio ≤ x.kd.prio ∧ ((s.grid g').kd.prio = x.kd.prio → (s.grid g').qclass ≤ x.qclass)) ∧
      s.place cluster g = some (core, slots, banks) ∧ ∃ t, exec (.workgroupPlacement cluster) s = .next t ∧ t.nextWg = w + 1 ∧ t.mem = s.mem ∧
        (t.wg w).life = .running ∧ (t.wg w).vd = g / 2 ^ 32 ∧ (t.wg w).grid = g % 2 ^ 32 ∧ (t.wg w).core = core ∧ (t.wg w).index = index ∧ (t.wg w).kd = x.kd ∧
        (t.wg w).scratch = [] ∧ (t.wg w).ob = [] ∧ (t.wg w).tiles = [] ∧ (t.wg w).banks = banks ∧ (∀ j, j ≠ w → s.live j = true → t.wg j = s.wg j) ∧
        (∀ i j, i < x.kd.slots → j < x.kd.fibres → x.kd.flags.getLsbD 1 = false →
          let f := t.fib (64 * w + 4 * i + j)
          (∀ l, l < 32 → (f.launched.getLsbD l = true ↔ thread i j + l < x.threads)) ∧ (f.preg 0) = f.launched ∧ f.exited = 0 ∧
          f.sreg 0 = BitVec.ofNat 64 index ∧ f.sreg 2 = BitVec.ofNat 64 (x.gx * x.gy * x.gz) ∧ f.sreg 3 = BitVec.ofNat 64 (16 * i + j) ∧
          f.sreg 1 = BitVec.ofNat 64 (index % max 1 x.gx + 2 ^ 21 * (index / max 1 x.gx % max 1 x.gy) + 2 ^ 42 * (index / max 1 x.gx / max 1 x.gy)) ∧
          (∀ n, 4 ≤ n → f.sreg n = 0) ∧ (∀ n, 1 ≤ n → n < 7 → f.preg n = 0) ∧ (x.disp = true → f.priv = .supervisor) ∧ (x.disp = false → f.priv = .user) ∧
          (f.launched ≠ 0 → f.life = .running ∧ f.entry.pc = x.kd.code ∧ f.entry.fp = 0 ∧ f.entry.inside = false) ∧ (f.launched = 0 → f.life = .notStarted ∧ f.frontier = [])) ∧
        (∀ i e l, i < x.kd.slots → l < 32 → x.kd.flags.getLsbD 1 = false → (t.slot (16 * w + i)).at e l = if e % x.kd.stack = 0 ∧ e / x.kd.stack < x.kd.fibres
          then BitVec.ofNat 32 (thread i (e / x.kd.stack) + l) else 0) ∧
        (∀ n, n < 64 → tget 0 (t.wg w).kregs n = w64OfBytes ((x.args.drop (8 * n)).take 8)))

/-- The record by which firmware starts a dispatcher (R124). -/
def dispatcherRec (desc args : W64) : LaunchRec :=
  { desc := desc.toNat, args := args.toNat, prov := 0, conf := 0, gx := 1, gy := 1, gz := 1, threads := 0, queue := 0, lflags := 0, parent := 0, rsv := 0 }

/-- R124: a write of DISPATCH_DESC ends the running dispatcher; 0 starts none; another address starts the dispatcher that it names, and a start that fails is reported in KILL_CAUSE with CAUSE 28 and its status. -/
def dispatcherRule : Prop :=
  ∀ s vd (v : W64), let a : W64 := v &&& 0x01FFFFFFFFFFFFFF
    ∃ t u, exec (.dispatchDescWrite vd v) s = .next t ∧ (u.vd vd).dispatchDesc = a ∧ u.mem = s.mem ∧ (∀ g, g ≠ gkey vd 0 → u.grid g = s.grid g) ∧ (u.grid (gkey vd 0)).st = .killed ∧
      (∀ w, gkey (s.wg w).vd (s.wg w).grid = gkey vd 0 → (s.wg w).life ≠ .ended → (s.wg w).life ≠ .killed → (u.wg w).life = .killed) ∧
      (a = 0 ∨ (s.vd vd).enabled = false → t = u) ∧
      (a ≠ 0 → (s.vd vd).enabled = true → ∀ st t',
        u.admitRec (((s.vd vd).cfg.reserved ++ (s.vd vd).cfg.cores).headD 0) vd (dispatcherRec a (s.vd vd).dispatchArgs) true = .ok (st, t') →
        (st = 0 → t = t' ∧ (t.grid (gkey vd 0)).st = .admitted ∧ (t.grid (gkey vd 0)).disp = true) ∧
        (st ≠ 0 → t.grids = u.grids ∧ ((s.vd vd).killCause = 0 → (t.vd vd).killCause = BitVec.ofNat 64 (28 + 32 * st) ∧ (t.vd vd).msix.getLsbD 2 = true)))

/-- R124, R134, R135, R139. -/
def Obligations.GridsAndPlacement : Prop := lstatRule ∧ placementRule ∧ dispatcherRule

/-! The active set, pre-emption and priorities (R136, R151 to R153, R166, R369, R432 to R434). -/

/-- Slots a and b of quarter q have exchanged sets: a is pending, b is active and issues 4 cycles later; registers and barriers stay. The quarter makes its next exchange 4 cycles later. -/
structure Exchanged (s : State) (q a b : Nat) (t : State) : Prop where
  rest   : { t with slots := s.slots, xchg := s.xchg } = s
  busy   : tget 0 t.xchg q = 4 ∧ ∀ j, j ≠ q → tget 0 t.xchg j = tget 0 s.xchg j
  out    : (t.slot a).active = false ∧ (t.slot a).stack = (s.slot a).stack ∧ (t.slot a).bars = (s.slot a).bars
  in_    : (t.slot b).active = true ∧ (t.slot b).delay = 4 ∧ (t.slot b).stack = (s.slot b).stack ∧ (t.slot b).bars = (s.slot b).bars
  others : ∀ j, j ≠ a → j ≠ b → t.slot j = s.slot j

/-- R152, R153: a slot that has been ready for 56 cycles is promoted; a stalled active slot, the one stalled longest, or one that a long residence sends out, the one active longest, exchanges sets with the ready
pending slot of highest effective priority that has been pending longest; a quarter makes one exchange at a time. -/
def activeSetsRule : Prop :=
  (∀ s x, let ripe : Prop := (s.slot x).active = true ∧ 56 ≤ (s.slot x).idle ∧ (s.issuer x).isSome = true
    (ripe → ∃ t, exec (.slotPromotion x) s = .next t ∧ { t with slots := s.slots } = s ∧ t.slot x = { s.slot x with promoted := true } ∧ ∀ j, j ≠ x → t.slot j = s.slot j) ∧
    (¬ ripe → exec (.slotPromotion x) s = .next s)) ∧
  (∀ s core quarter,
    let q := 4 * core + quarter % 4
    let xs := s.slotsOf q
    let stalled (x : Nat) : Prop := x ∈ xs ∧ (s.slot x).active = true ∧ s.slotStalled x = true
    let long (x : Nat) : Prop := x ∈ xs ∧ (s.slot x).active = true ∧ 2048 ≤ (s.slot x).residence ∧
      ∀ i, i < 4 → s.awake (4 * x + i) = false ∨ (s.fib (4 * x + i)).entry.inside = false ∨ (s.fib (4 * x + i)).entry.cls = .ctl
    let ready (y : Nat) : Prop := y ∈ xs ∧ (s.slot y).active = false ∧ s.slotStalled y = false
    let next (b : Nat) : Prop := ready b ∧ ∀ y, ready y → s.slotPrio y < s.slotPrio b ∨ (s.slotPrio y = s.slotPrio b ∧ (s.slot y).waited ≤ (s.slot b).waited)
    (tget 0 s.xchg q ≠ 0 ∨ (∀ x, ¬ stalled x) ∨ (∀ y, ¬ ready y) → exec (.slotExchange core quarter) s = .next s) ∧
    (tget 0 s.xchg q = 0 → (∃ x, stalled x) → (∃ y, ready y) → ∃ t a b, exec (.slotExchange core quarter) s = .next t ∧ Exchanged s q a b t ∧ next b ∧
      stalled a ∧ ∀ x, stalled x → (s.slot x).stalled ≤ (s.slot a).stalled) ∧
    (tget 0 s.xchg q ≠ 0 ∨ (∀ x, ¬ long x) ∨ (∀ y, ¬ ready y) → exec (.longResidenceSwap core quarter) s = .next s) ∧
    (tget 0 s.xchg q = 0 → (∃ x, long x) → (∃ y, ready y) → ∃ t a b, exec (.longResidenceSwap core quarter) s = .next t ∧ Exchanged s q a b t ∧ next b ∧
      long a ∧ ∀ x, long x → (s.slot x).age ≤ (s.slot a).age))

/-- R166: HOST_SPILL_MOVE moves the chunk that the frozen fibre waits for between its registers and the fibre's spill area, and LO and Saved follow; with no move pending, or where the program moves chunks
itself, it does nothing. (A chunk with poisoned bytes, and the ends of windows, are not of this statement.) -/
def hostSpillRule : Prop :=
  ∀ s k,
    let f := s.fib k
    let kd := (s.wg (wgOf k)).kd
    let c := if f.move = 1 then f.lo / 8 else if f.move = 2 then (f.lo + kd.stack) / 8 - 1 else f.lo / 8 - 1
    let a : W64 := kd.spill + BitVec.ofNat 64 (kd.spillStride * (4 * (s.slot (slotOf k)).spillIdx + fibIdx k) + 1024 * c)
    (f.move = 0 ∨ kd.flags.getLsbD 2 = true → exec (.hostSpillMove k) s = .next s) ∧
    (∀ u, f.move ≠ 0 → kd.flags.getLsbD 2 = false → f.eph = [] → (f.move = 3 → s.chunkBad k a = none) → s.moveChunk k c (f.move != 3) a = .ok u → ∃ t, exec (.hostSpillMove k) s = .next t ∧ { t with fibres := u.fibres } = u ∧
      (∀ j, j ≠ k → t.fib j = u.fib j) ∧ (t.fib k).move = 0 ∧ { t.fib k with lo := f.lo, saved := f.saved, move := f.move } = { u.fib k with lo := f.lo, saved := f.saved, move := f.move } ∧
      (f.move = 1 → (t.fib k).lo = (u.fib k).lo + 8 ∧ (t.fib k).saved = false) ∧ (f.move = 2 → (t.fib k).lo = (u.fib k).lo ∧ (t.fib k).saved = true) ∧
      (f.move = 3 → (t.fib k).lo = (u.fib k).lo - 8 ∧ (t.fib k).saved = false))

/-- R136, R432: when the current slice of a shared core has run its length, a virtual device of weight W that has had fewer than W keeps the core; otherwise the next sharer in ascending order has it and the workgroups of the outgoing one begin to stop, its
dispatcher's apart; PREEMPT_TIMEOUT stops between words what has not stopped. -/
def sliceRule : Prop :=
  (∀ s core, let l := s.sharers core
    (l.length ≤ 1 → exec (.sliceEnd core) s = .next s) ∧
    (∀ v, 2 ≤ l.length → s.sliceVd core = some v →
      let c := s.core core
      let spent : Prop := c.sliceFrom + 1000 * (s.vd v).cfg.sliceUs ≤ s.clock
      let left := if c.slice = v ∧ c.sliceLeft ≠ 0 then c.sliceLeft else (s.vd v).cfg.weight
      let n := ((l.filter (fun x => v < x)) ++ l).headD v
      (¬ spent → exec (.sliceEnd core) s = .next s) ∧
      (spent → 1 < left → ∃ t, exec (.sliceEnd core) s = .next t ∧ { t with cores := s.cores } = s ∧ t.core core = { c with slice := v, sliceLeft := left - 1, sliceFrom := s.clock } ∧
        ∀ j, j ≠ core → t.core j = s.core j) ∧
      (spent → left ≤ 1 → ∃ t, exec (.sliceEnd core) s = .next t ∧ { t with cores := s.cores, wgs := s.wgs } = s ∧ t.core core = { c with slice := n, sliceLeft := (s.vd n).cfg.weight, sliceFrom := s.clock } ∧
        (∀ j, j ≠ core → t.core j = s.core j) ∧
        (∀ w, (s.wg w).core = core → (s.wg w).vd = v → (s.wg w).life = .running → s.isDispatcher w = false → t.wg w = { s.wg w with life := .stopping false }) ∧
        (∀ w, (∀ e ∈ s.wgs, e.1 = w → e.2.core ≠ core ∨ e.2.vd ≠ v) ∨ (s.wg w).life ≠ .running → t.wg w = s.wg w)))) ∧
  (∀ s core, let due : Prop := (if (s.core core).draining then (s.core core).passFrom else (s.core core).sliceFrom) + 1000 * max 1 (s.preemptTimeout.toNat % 256) ≤ s.clock
    (¬ due → exec (.preemptTimeout core) s = .next s) ∧
    (due → ∃ t, exec (.preemptTimeout core) s = .next t ∧ { t with wgs := s.wgs } = s ∧
    (∀ w, (s.wg w).core = core → (s.wg w).life = .stopping false → t.wg w = { s.wg w with life := .stopping true }) ∧
    (∀ w, (∀ e ∈ s.wgs, e.1 = w → e.2.core ≠ core) ∨ (s.wg w).life ≠ .stopping false → t.wg w = s.wg w)))

/-- R433, R434: a workgroup all of whose slots have stopped, with only cwait and unissued signatures pending, leaves its core with all its state (here where the cluster's cache holds nothing dirty of its context), and goes on with it on a core of its virtual device where it fits. -/
def saveRule : Prop :=
  (∀ s w, let x := s.wg w
    let stopped : Prop := (∃ b, x.life = .stopping b) ∧ (∀ i, i < x.kd.slots → s.halts (16 * w + i) = true) ∧ x.issued = [] ∧
      ∀ k ∈ x.fibreKeys w, ∀ p ∈ (s.fib k).pend, p.ready = true ∨ (∃ c, p.kind = .cwait c) ∨ ∃ a b c, p.kind = .mma a b c
    (¬ stopped → exec (.workgroupSave w) s = .next s) ∧
    (stopped → (∀ k ∈ x.fibreKeys w, (∀ p ∈ (s.fib k).pend, p.ready = false) ∧ ((s.fib k).pend = [] ∨
        ∀ e ∈ (s.fib k).frontier, ∀ m, e.wait = .tok m ∨ e.wait = .wtok m → (s.fib k).holds m)) →
      (∀ e ∈ s.cc, e.1 / 2 ^ 52 = clusterOf x.core → e.2.vd = x.vd → e.2.dirty = 0) → ∃ t, exec (.workgroupSave w) s = .next t ∧
      { t with fibres := s.fibres, slots := s.slots, wgs := s.wgs, cores := s.cores, grids := s.grids } = s ∧ t.wg w = { x with life := .saved } ∧ (∀ j, j ≠ w → t.wg j = s.wg j) ∧
      (∀ k, { t.fib k with wdFrom := (s.fib k).wdFrom } = s.fib k) ∧ (∀ k, k ∉ x.fibreKeys w → t.fib k = s.fib k) ∧
      (∀ i, i < x.kd.slots → t.slot (16 * w + i) = { s.slot (16 * w + i) with active := false, stopped := false }) ∧
      (∀ j, (∀ i, i < x.kd.slots → j ≠ 16 * w + i) → t.slot j = s.slot j))) ∧
  (∀ s w core, let x := s.wg w
    let cfg := (s.vd x.vd).cfg
    let may : Prop := if s.isDispatcher w then core ∈ cfg.cores ∨ core ∈ cfg.reserved else s.mayRun x.vd core (s.grid (gkey x.vd x.grid)).urgent = true
    (x.life ≠ .saved ∨ ¬ may ∨ s.fits core x.kd = none → exec (.workgroupRestore w core) s = .next s) ∧
    (∀ slots banks, x.life = .saved → may → s.fits core x.kd = some (slots, banks) →
      (∀ e ∈ s.cc, e.1 / 2 ^ 52 = clusterOf core → e.2.vd = x.vd → e.2.fresh = true) → (∀ e ∈ s.l0, e.1 / 2 ^ 52 = core → e.2.vd = x.vd → e.2.fresh = true) → ∃ t, exec (.workgroupRestore w core) s = .next t ∧
      { t with fibres := s.fibres, slots := s.slots, wgs := s.wgs, grids := s.grids, icache := s.icache } = s ∧ t.wg w = { x with life := .running, core := core, banks := banks } ∧
      (∀ j, j ≠ w → s.live j = true → t.wg j = s.wg j) ∧ (∀ k, s.live (wgOf k) = true → { t.fib k with wdFrom := (s.fib k).wdFrom } = s.fib k) ∧
      ∀ i, i < x.kd.slots → (t.slot (16 * w + i)).stack = (s.slot (16 * w + i)).stack ∧ (t.slot (16 * w + i)).bars = (s.slot (16 * w + i)).bars ∧
        (t.slot (16 * w + i)).spillIdx = (s.slot (16 * w + i)).spillIdx ∧ (t.slot (16 * w + i)).quarter = (slots.getD i (0, 0)).1 ∧ (t.slot (16 * w + i)).pslot = (slots.getD i (0, 0)).2))

/-- R136, R166, R432 to R434. -/
def Obligations.SlicesAndSaving : Prop := hostSpillRule ∧ sliceRule ∧ saveRule

/-- Fibre j waits, after at most n steps, on a counter that fibre k helps to raise: k itself after none; or a fibre that has a pending cwait on a counter that k is bound to, and whatever that fibre's raise reaches. -/
def reaches (s : State) : Nat → Nat → Nat → Prop
  | 0, k, j => k = j
  | n + 1, k, j => k = j ∨ ∃ x ∈ s.fibres, (∃ c ∈ x.2.awaits, c ∈ (s.fib k).bound ∧ s.sameScope k x.1 c.1 = true) ∧ reaches s n x.1 j

/-- R369: after an update a fibre's effective priority is the highest descriptor PRIO of the fibres that it reaches through cbind and pending cwait words, to a depth of 8; nothing else changes. -/
def priorityInheritanceRule : Prop :=
  ∀ s, ∃ t, exec .priorityInheritanceUpdate s = .next t ∧ { t with fibres := s.fibres } = s ∧ ∀ k, k ∈ s.fibres.map (·.1) →
    { t.fib k with effPrio := (s.fib k).effPrio } = s.fib k ∧
    (∀ j, reaches s 8 k j → (s.wg (wgOf j)).kd.prio ≤ (t.fib k).effPrio) ∧ ∃ j, reaches s 8 k j ∧ (t.fib k).effPrio = (s.wg (wgOf j)).kd.prio

/-- R152, R153, R369. -/
def Obligations.SchedulingAndPriorities : Prop := activeSetsRule ∧ priorityInheritanceRule

/-! Energy (R142, R453, R454). -/

/-- Island i is that of a cluster position that is fused off, on an OLZ3-B (R452). -/
def fusedOff (s : State) (i : Nat) : Prop := i < 60 ∧ i % 20 < 12 ∧ field s.feature 0 4 ≠ 1 ∧ tget 0x3FF s.clusterMap i = 0x3FF

/-- R452, R453: an interval's energy is counted for its island, but for one that is fused off, whose meter reads 0; that of a cluster island goes to the workgroups in proportion to their slot-cycles and to their virtual devices, that of another island below 60 to the virtual
devices in proportion to what they moved, that of islands 60 to 63 to no one. -/
def meterRule : Prop :=
  (∀ s rs, ∃ t, exec (.energyMeterInterval rs) s = .next t ∧ { t with wgs := s.wgs, vds := s.vds, islandNj := s.islandNj } = s ∧
    ∀ i, (fusedOff s i → tget 0 t.islandNj i = tget 0 s.islandNj i) ∧
      (¬ fusedOff s i → tget 0 t.islandNj i = tget 0 s.islandNj i + ((rs.filter (fun r => r.island = i)).map (fun r => r.nj)).sum)) ∧
  (∀ s (r : IslandReading) t, ¬ fusedOff s r.island → exec (.energyMeterInterval [r]) s = .next t →
    let share (l : List (Nat × Nat)) (n : Nat) : Nat := r.nj * n / (l.map (·.2)).sum
    (r.island < 60 → r.island % 20 < 12 →
      (∀ w, (t.wg w).measured = (s.wg w).measured + ((r.slots.filter (fun e => e.1 = w)).map (fun e => share r.slots e.2)).sum) ∧
      (∀ v, (t.vd v).energyCtx = (s.vd v).energyCtx + BitVec.ofNat 64 ((r.slots.filter (fun e => (s.wg e.1).vd = v)).map (fun e => share r.slots e.2)).sum)) ∧
    (r.island < 60 → 12 ≤ r.island % 20 → t.wgs = s.wgs ∧
      ∀ v, (t.vd v).energyCtx = (s.vd v).energyCtx + BitVec.ofNat 64 ((r.moved.filter (fun e => e.1 = v)).map (fun e => share r.moved e.2)).sum) ∧
    (60 ≤ r.island → t.wgs = s.wgs ∧ t.vds = s.vds))

/-- R454: above 3,600 W the compute islands named step down by 50 MHz, not below 400; below 3,420 W every compute island below 800 MHz steps up by 50; between, no clock changes. -/
def clockRule : Prop :=
  ∀ s mw (draw : List Nat), draw.Nodup →
    let mhz (x : State) (i : Nat) : Nat := tget (islandMhzReset i) x.islandMhz i
    let compute (i : Nat) : Prop := i < 60 ∧ i % 20 < 12
    ∃ t, exec (.powerClockStep mw draw) s = .next t ∧ { t with islandMhz := s.islandMhz } = s ∧ ∀ i,
      (3600000 < mw → (i ∈ draw ∧ compute i → mhz t i = max 400 (mhz s i - 50)) ∧ (¬ (i ∈ draw ∧ compute i) → mhz t i = mhz s i)) ∧
      (mw < 3420000 → (compute i ∧ mhz s i < 800 → mhz t i = min 800 (mhz s i + 50)) ∧ (¬ (compute i ∧ mhz s i < 800) → mhz t i = mhz s i)) ∧
      (3420000 ≤ mw → mw ≤ 3600000 → mhz t i = mhz s i)

/-- R142: once the present window of 1 ms has run out, and not before, the next one opens with the device budget whole; each queue of an enabled virtual device in hardware mode has charged nothing and
started nothing, and what it still owes beyond the last budget, with the debt that has come since, is owed in this one. -/
def windowRule : Prop :=
  ∀ s, (s.clock / 1000000 ≤ s.windowFrom / 1000000 → exec .energyWindowOpen s = .next s) ∧
    (s.windowFrom / 1000000 < s.clock / 1000000 → (∀ e ∈ s.vds, e.2.hostEnergy = false) → ∃ t, exec .energyWindowOpen s = .next t ∧
    { t with vds := s.vds, budgetLeft := s.budgetLeft, windowFrom := s.windowFrom } = s ∧ t.budgetLeft = s.deviceBudget ∧
    t.windowFrom = s.clock / 1000000 * 1000000 ∧
    ∀ v q, v ∈ s.vds.map (·.1) → (s.vd v).enabled = true → q ∈ (s.vd v).energy.map (·.1) →
      let e := tget QEnergy.empty (s.vd v).energy q
      let e' := tget QEnergy.empty (t.vd v).energy q
      e'.used = 0 ∧ e'.debt = 0 ∧ e'.started = false ∧ ((s.vds.filter (fun e => e.1 = v)).length = 1 → e'.owed = (e.owed - s.queueBudget v q) + e.debt ∧ (t.vd v).window = (s.vd v).window + 1))

/-- R142, R453, R454. -/
def Obligations.Energy : Prop := meterRule ∧ clockRule ∧ windowRule

/-! Scan passes and containment (R147, R439 to R442, R450). -/

/-- Core c has begun to drain for a pass that `who` asked for; its workgroups begin to stop. -/
structure Draining (s : State) (c : Nat) (who : Option (Nat × Nat)) (t : State) : Prop where
  rest : { t with cores := s.cores, wgs := s.wgs, grids := s.grids } = s
  core : (t.core c).draining = true ∧ (t.core c).waiter = who ∧ (t.core c).fenced = (s.core c).fenced ∧ (t.core c).lastScan = (s.core c).lastScan
  else_ : ∀ j, j ≠ c → t.core j = s.core j
  wgs  : ∀ w, (s.wg w).core = c → (s.wg w).life = .running → (t.wg w).life = .stopping false

/-- Core c exists and is neither dead nor being drained nor in a pass. -/
def scannable (s : State) (c : Nat) : Prop := c < s.coreCount ∧ (s.core c).inPass = false ∧ (s.core c).draining = false ∧ (s.core c).dead = false

/-- R147, R440: passes begin by the rotation in groups of nine cores, fenced ones apart; by the device for a core that the host has not scanned for 10 ms; and by a write of SCAN_REQ. A read of SCAN_RESULT removes the oldest
result. -/
def scanStarts : Prop :=
  (∀ s, let host : Prop := (s.vd 0).funcMode.getLsbD 4 = true
    (host → exec .scanRotation s = .next s) ∧
    (¬ host → ∃ t, exec .scanRotation s = .next t ∧ { t with cores := s.cores, wgs := s.wgs, grids := s.grids, rotation := s.rotation } = s ∧
      t.rotation = (s.rotation + 1) % max 1 ((s.coreCount + 8) / 9) ∧
      (∀ i, i < 9 → scannable s (9 * s.rotation + i) → (s.core (9 * s.rotation + i)).fenced = false → (t.core (9 * s.rotation + i)).draining = true ∧
        (t.core (9 * s.rotation + i)).waiter = none ∧ ∀ w, (s.wg w).core = 9 * s.rotation + i → (s.wg w).life = .running → (t.wg w).life = .stopping false) ∧
      ∀ c, (c < 9 * s.rotation ∨ 9 * s.rotation + 9 ≤ c ∨ ¬ scannable s c ∨ (s.core c).fenced = true) → t.core c = s.core c)) ∧
  (∀ s c, let due : Prop := (s.vd 0).funcMode.getLsbD 4 = true ∧ scannable s c ∧ (s.core c).fenced = false ∧ 10000000 ≤ s.clock - (s.core c).lastScan
    (due → ∃ t, exec (.unscannedCoreScan c) s = .next t ∧ Draining s c none t) ∧ (¬ due → exec (.unscannedCoreScan c) s = .next s)) ∧
  (∀ s (v : W64), let c := v.toNat % 512
    (scannable s c → ∃ t, exec (.scanReqWrite v) s = .next t ∧ Draining s c (some (1, 0)) t) ∧ (¬ scannable s c → exec (.scanReqWrite v) s = .next s)) ∧
  (∀ s, exec .scanResultRead s = .next { s with scanResults := s.scanResults.drop 1 })

/-- R440 to R442, R444, R450: a pass that ends frees its core and answers who asked for it; if it passed, grids whose workgroups ended before it and that wait for no other core are CONFIRMED; a failed core is fenced, and a grid that ran there since its last
pass is killed or, where it is IDEMPOTENT, runs the workgroup again. -/
def scanEnds : Prop :=
  ∀ s c pass, (s.core c).inPass = true →
    let ok : Bool := pass && !(s.core c).failNext
    ∃ t, exec (.scanPassComplete c pass) s = .next t ∧
      t.core c = { s.core c with inPass := false, draining := false, failNext := false, lastScan := s.clock, waiter := none, fenced := (s.core c).fenced || !ok } ∧
      (∀ j, j ≠ c → t.core j = s.core j) ∧
      (∀ x, (s.core c).waiter = some (1, x) → s.scanResults.length < 64 → t.scanResults = s.scanResults ++ [(c, if ok then 0 else 1)]) ∧
      (∀ g, g ∈ s.grids.map (·.1) → ok = true → (s.grid g).st = .provisional → (s.grid g).disp = false → s.busy g = false → (s.grid g).confAdded = false → (s.grid g).replay = [] →
        (∀ x ∈ (s.grid g).cores, x.1 = c ∧ x.2.2 = 2) → (t.grid g).st = .confirmed) ∧
      (∀ g, g ∈ s.grids.map (·.1) → ok = true → (s.grid g).st = .provisional → (∃ x ∈ (s.grid g).cores, x.1 ≠ c ∨ x.2.2 ≠ 2) → (t.grid g).st = .provisional) ∧
      (∀ g, g ∈ s.grids.map (·.1) → ok = false → (s.grid g).st ≠ .killed → (s.grid g).st ≠ .confirmed → (∃ i, (c, i) ∈ (s.grid g).since) → (s.grid g).kd.flags.getLsbD 4 = false →
        (t.grid g).st = .killed) ∧
      (∀ g i, g ∈ s.grids.map (·.1) → ok = false → (s.grid g).st ≠ .killed → (s.grid g).st ≠ .confirmed → (c, i) ∈ (s.grid g).since → (s.grid g).kd.flags.getLsbD 4 = true →
        ∃ b, (i, b) ∈ (t.grid g).replay)

/-- R439: the loss of an agent's heartbeat makes the agent dead and contains every enabled virtual device that needs it: its grids are killed and MSI-X vector 1 is pending; a dead core takes no more placement; a loss declared before changes nothing. -/
def heartbeatRule : Prop :=
  ∀ s a,
    let held (v : Nat) : Prop := (∃ e ∈ s.wgs, e.2.vd = v ∧ s.onCore e.1 = true ∧ s.coreIn a e.2.core = true) ∨ ∃ e ∈ s.cmds, e.2.vd = v ∧ s.cmdNeeds a e.2 = true
    (a ∈ s.dead → exec (.heartbeatLoss a) s = .next s) ∧
    (a ∉ s.dead → ∃ t, exec (.heartbeatLoss a) s = .next t ∧ t.dead = a :: s.dead ∧
      (∀ n, a = .core n → (t.core n).dead = true) ∧
      ∀ v, v ∈ s.vds.map (·.1) → (s.vd v).enabled = true → held v → (t.vd v).contained = true ∧ (t.vd v).msix.getLsbD 1 = true ∧
        ∀ g, g / 2 ^ 32 = v → (s.grid g).st ≠ .confirmed → (t.grid g).st = .killed)

/-- R147, R439 to R442, R450. -/
def Obligations.ScansAndContainment : Prop := scanStarts ∧ scanEnds ∧ heartbeatRule

/-! Loss, retirement, patrol and repair of main memory (R314 to R331). -/

/-- The unit of a stack that a loss names, by number; a TSV group names none. -/
def namesUnit (u : LostUnit) (st x : Nat) : Prop :=
  match u with
  | .bank s n => st = s ∧ x = n
  | .pseudoChannel s ch pc => st = s ∧ x / 16 = 2 * ch + pc
  | .channel s ch => st = s ∧ x / 32 = ch
  | .tsvGroup _ _ _ _ => False
  | .stack s => st = s

/-- The numbers of a loss are those of units that exist. -/
def unitExists (u : LostUnit) : Prop :=
  match u with
  | .bank s n => s < 12 ∧ n < 1024
  | .pseudoChannel s ch pc => s < 12 ∧ ch < 32 ∧ pc < 2
  | .channel s ch => s < 12 ∧ ch < 32
  | .tsvGroup s ch pc g => s < 12 ∧ ch < 32 ∧ pc < 2 ∧ g < 10
  | .stack s => s < 12

/-- A loss strikes a province whose set holds the unit's stack and, but for a whole stack, one of its enabled units that has not failed before (R321). -/
def struckBy (d : Damask) (u : LostUnit) (p : Nat) : Prop :=
  let e := d.prov p
  let s := d.setEnt e.set
  e.st ≠ .retired ∧ s.stackBits.testBit (lostStack u) = true ∧ d.stackFailed (lostStack u) = false ∧
    ((∃ k, u = .stack k) ∨ ∃ x, x < 1024 ∧ namesUnit u (lostStack u) x ∧ (d.chanMask s.maskset (lostStack u) (x / 32)).testBit (x % 32) = true ∧
      d.unitFailed (lostStack u) x = false)

/-- A unit has failed, unplanned: every byte keeps its value, the failure map takes it, and the provinces that it strikes go from NORMAL to DEGRADED (R314, R319, R321). -/
structure LostNow (s : State) (u : LostUnit) (t : State) : Prop where
  mem    : t.mem = s.mem
  failed : ∀ st x, x < 1024 → (t.damask.unitFailed st x = true ↔ s.damask.unitFailed st x = true ∨ namesUnit u st x)
  struck : ∀ p, p < 2560 → struckBy s.damask u p → (s.damask.prov p).st = .normal → t.damask.prov p = { s.damask.prov p with st := .degraded }
  spared : ∀ p, p < 2560 → ¬ struckBy s.damask u p ∨ (s.damask.prov p).st ≠ .normal → t.damask.prov p = s.damask.prov p

/-- A retirement of the provinces struck begins (R321, R325): its first phase is REBUILDING for a stack and RESTRIPING otherwise, and waits for the host under FUNC_MODE.REBUILD. -/
def retires (s : State) (u : LostUnit) (planned : Bool) (r : Retire) : Prop :=
  r.phase = (if (s.vd 0).funcMode.getLsbD 2 then 4 else 1) ∧ r.stack = lostStack u ∧ r.planned = planned ∧ ((∃ k, u = .stack k) → r.next = 2 ∧ r.whole = true) ∧
    ((∀ k, u ≠ .stack k) → r.next = 3 ∧ r.whole = false) ∧ r.todo = r.all ∧ ∀ p, p ∈ r.all ↔ p < 2560 ∧ struckBy s.damask u p

/-- R307, R308, R314, R320, R321, R325: UNIT_LOSS fails a unit of a stack that has not failed and opens a retirement where none is in progress; a lost TSV group g is an erasure of symbol g + 2 of the line code, groups 8 and 9 of the check symbols 0 and 1; RECOVERY_FLUSH_END ends the flush of a lost stack, whose parity's lines are then clean; neither changes a byte of memory. -/
def lossRule : Prop :=
  (∀ s u, unitExists u → s.damask.stackFailed (lostStack u) = false → ∃ t, exec (.unitLoss u) s = .next t ∧ LostNow s u t ∧
    (s.damask.retire ≠ none → t.damask.retire = s.damask.retire) ∧
    (s.damask.retire = none → (∀ p, p < 2560 → ¬ struckBy s.damask u p) → t.damask.retire = none) ∧
    (s.damask.retire = none → (∃ p, p < 2560 ∧ struckBy s.damask u p) → ∃ r, t.damask.retire = some r ∧ retires s u false r) ∧
    (∀ st ch pc g, u = .tsvGroup st ch pc g → tget false t.damask.tsvLost (16 * (64 * st + 2 * ch + pc) + (g + 2) % 10) = true)) ∧
  (∀ s u, s.damask.stackFailed (lostStack u) = true ∨ 12 ≤ lostStack u → exec (.unitLoss u) s = .next s) ∧
  (∀ s st, (tget false s.damask.flushing st = false → exec (.recoveryFlushEnd st) s = .next s) ∧
    (tget false s.damask.flushing st = true → ∃ t, exec (.recoveryFlushEnd st) s = .next t ∧ t.mem = s.mem ∧ tget false t.damask.flushing st = false ∧
      (∀ p, t.damask.prov p = s.damask.prov p) ∧
      ∀ n x, tfind s.l2 n = some x → x.dirty = true → (s.damask.home (64 * n)).par.stack = st → ∃ x', tfind t.l2 n = some x' ∧ x'.dirty = false))

/-- R321 to R323: a line move locks the line at the watermark, then moves it with every byte kept; RESTRIPING advances by a line and ends in NORMAL at the new set, or DEGRADED where a unit of that set has been lost, REBUILDING by a stripe; another province does not move. -/
def moveRule : Prop :=
  ∀ s p,
    let e := s.damask.prov p
    let moving : Prop := (e.st = .rebuilding ∨ e.st = .restriping) ∧ e.wm < 2 ^ 22
    let w := max 1 (s.damask.setEnt e.set).w
    let se := s.damask.setEnt e.newSet
    let hurt : Prop := (∃ x ∈ se.members, s.damask.stackFailed x = true) ∨ ∃ u ∈ s.damask.failUnit, u.2 = true ∧ u.1 / 1024 ∈ se.members ∧
      (s.damask.chanMask se.maskset (u.1 / 1024) (u.1 % 1024 / 32)).testBit (u.1 % 32) = true
    let there : Prov := { e with set := e.newSet, rot := e.newRot, frame := e.newFrame, rb := false, st := .normal, wm := 0, locked := false, gone := none }
    (¬ moving → exec (.lineMove p) s = .next s) ∧
    (moving → e.locked = false → ∃ t, exec (.lineMove p) s = .next t ∧ { t with damask := s.damask } = s ∧ t.damask.prov p = { e with locked := true } ∧
      ∀ q, q ≠ p → t.damask.prov q = s.damask.prov q) ∧
    (moving → e.locked = true → ∃ t, exec (.lineMove p) s = .next t ∧ t.mem = s.mem ∧ (∀ q, q ≠ p → t.damask.prov q = s.damask.prov q) ∧
      (e.st = .restriping → e.wm + 1 < 2 ^ 22 → t.damask.prov p = { e with wm := e.wm + 1, locked := false }) ∧
      (e.st = .restriping → e.wm + 1 = 2 ^ 22 → ¬ hurt → t.damask.prov p = there) ∧
      (e.st = .restriping → e.wm + 1 = 2 ^ 22 → hurt → t.damask.prov p = { there with st := .degraded }) ∧
      (e.st = .rebuilding → t.damask.prov p = { e with wm := min ((e.wm / w + 1) * w) (2 ^ 22), locked := false }))

/-- A province of a retirement has started REBUILDING, or RESTRIPING (R321). -/
def rebuildsNow (d : Damask) (r : Retire) (p : Nat) : Prov := { d.prov p with st := .rebuilding, wm := 0, gone := d.goneStack r p }
def restripesNow (d : Damask) (p : Nat) : Prov := { d.prov p with st := .restriping, rb := (d.prov p).st = .rebuilding, wm := 0 }

/-- R315, R321: PHASE_START starts the next group of the phase: at most 16 provinces in order, once none is at work, into REBUILDING, or into RESTRIPING where their new slots have room; while one of
a group has none, the phase waits for room, and the next PHASE_START looks again; with no retirement, or with a phase that waits for the host, it does nothing. -/
def phaseRule : Prop :=
  (∀ s, s.damask.retire = none → exec .phaseStart s = .next s) ∧
  (∀ s r, s.damask.retire = some r → r.phase = 4 → exec .phaseStart s = .next s) ∧
  (∀ s r, s.damask.retire = some r → r.phase = 2 ∨ r.phase = 3 → (∀ p ∈ r.todo, s.damask.working r p = false) → r.todo ≠ [] → r.todo.Nodup →
    ∃ t, exec .phaseStart s = .next t ∧ t.mem = s.mem ∧
      (∀ q, q ∉ r.todo.take 16 → t.damask.prov q = s.damask.prov q) ∧
      (r.phase = 2 → t.damask.retire = some r ∧ ∀ p ∈ r.todo.take 16, t.damask.prov p = rebuildsNow s.damask r p) ∧
      (r.phase = 3 → (∀ p ∈ r.todo.take 16, t.damask.prov p = s.damask.prov p ∨ t.damask.prov p = restripesNow s.damask p) ∧
        (∀ p, r.todo.head? = some p → s.damask.roomOk p = true → t.damask.prov p = restripesNow s.damask p) ∧
        ((∀ p ∈ r.todo.take 16, (t.damask.prov p).st = .restriping) → t.damask.retire = some r) ∧
        ((∃ p ∈ r.todo.take 16, (t.damask.prov p).st ≠ .restriping) → t.damask.retire = some { r with phase := 5, next := 3 }) ∧
        ((∀ p ∈ r.todo.take 16, s.damask.roomOk p = false) → ∀ q, t.damask.prov q = s.damask.prov q))) ∧
  (∀ s r, s.damask.retire = some r → r.phase = 5 → r.todo.Nodup →
    ∃ t, exec .phaseStart s = .next t ∧ t.mem = s.mem ∧ (∀ q, q ∉ r.todo → t.damask.prov q = s.damask.prov q) ∧
      (∀ p ∈ r.todo, t.damask.prov p = s.damask.prov p ∨ ((s.damask.prov p).st ≠ .restriping ∧ t.damask.prov p = restripesNow s.damask p)) ∧
      (t.damask.retire = some { r with phase := 3 } ∨ t.damask.retire = some { r with phase := 5, next := 3 }))

/-- R320 to R323, R315. -/
def Obligations.LossAndMoves : Prop := lossRule ∧ moveRule ∧ phaseRule

/-- The unit that a MEM_RETIRE of KIND 0 to 3 names (R325). -/
def retireNames (kind : Nat) (v : W64) : LostUnit :=
  match kind with
  | 0 => .bank (field v 4 4) (32 * field v 8 5 + 16 * field v 13 1 + field v 14 4)
  | 1 => .pseudoChannel (field v 4 4) (field v 8 5) (field v 13 1)
  | 2 => .channel (field v 4 4) (field v 8 5)
  | _ => .stack (field v 4 4)

/-- R325, R321, R464: MEM_RETIRE retires a bank, pseudo-channel, channel or stack, failed at once unless PLANNED, or a province that no partition owns, or starts what waits (before a RESTRIPING of a planned unit firmware writes the new placement, so no province moves yet); a request that cannot be carried out sets LAST_ERROR and changes nothing else. -/
def memoryRetirementRule : Prop :=
  ∀ s k (v : W64),
    let refused (i : Instr) (n : Nat) : Prop := exec i s = .next { s with damask := { s.damask with lastError := n } }
    (∀ i kind, (i = Instr.memRetireBank k v ∧ kind = 0) ∨ (i = Instr.memRetirePseudoChannel k v ∧ kind = 1) ∨ (i = Instr.memRetireChannel k v ∧ kind = 2) ∨
        (i = Instr.memRetireStack k v ∧ kind = 3) →
      let u := retireNames kind v
      (s.damask.retire ≠ none → refused i 1) ∧
      (s.damask.retire = none → (∀ p, p < 2560 → ¬ struckBy s.damask u p) → refused i 2) ∧
      (s.damask.retire = none → (∃ p, p < 2560 ∧ struckBy s.damask u p) →
        (v.getLsbD 3 = false → ∃ t r, exec i s = .next t ∧ LostNow s u t ∧ t.damask.retire = some r ∧ retires s u false r) ∧
        (v.getLsbD 3 = true → (s.vd 0).funcMode.getLsbD 2 = true → ∃ t r, exec i s = .next t ∧ t.mem = s.mem ∧ (∀ p, t.damask.prov p = s.damask.prov p) ∧
          t.damask.failStack = s.damask.failStack ∧ t.damask.failUnit = s.damask.failUnit ∧ t.damask.retire = some r ∧ retires s u true r) ∧
        (v.getLsbD 3 = true → (s.vd 0).funcMode.getLsbD 2 = false → ∃ t r, exec i s = .next t ∧ t.mem = s.mem ∧ t.damask.failStack = s.damask.failStack ∧
          t.damask.failUnit = s.damask.failUnit ∧ t.damask.retire = some r ∧ (∀ p, p ∈ r.all ↔ p < 2560 ∧ struckBy s.damask u p) ∧
          (kind ≠ 3 → retires s u true r ∧ ∀ p, t.damask.prov p = s.damask.prov p)))) ∧
    (let p := field v 18 12
     let e := s.damask.prov p
     let i := Instr.memRetireProvince k v
     (2560 ≤ p → refused i 2) ∧ (p < 2560 → e.owner ≠ none → refused i 4) ∧ (p < 2560 → e.owner = none → e.st = .retired → exec i s = .next s) ∧
     (p < 2560 → e.owner = none → e.st ≠ .retired → s.damask.retire = none → ∃ t, exec i s = .next t ∧ t.mem = s.mem ∧
       t.damask.prov p = { e with st := .retired, rb := false, wm := 0, locked := false } ∧ ∀ q, q ≠ p → t.damask.prov q = s.damask.prov q)) ∧
    ((∀ r, s.damask.retire = some r → r.phase ≠ 4 ∧ r.phase ≠ 5) → refused (.memRetireStartPhase k v) 5) ∧
    (∀ r, s.damask.retire = some r → r.phase = 4 ∨ r.phase = 5 → ∃ t, exec (.memRetireStartPhase k v) s = .next t ∧ t.mem = s.mem ∧
      ∃ r', t.damask.retire = some r' ∧ (r.next ≠ 2 → r'.phase = 3 ∨ r'.phase = 5) ∧ r'.all = r.all) ∧
    refused (.memRetireBadKind k v) 2

/-- R308, R327, R331: the patrol scrubber reads the lines of its range, and with the first of a stripe its parity line, while EN is set; a line that DRAM returns correct is left as it is, one that the line code corrects is rewritten correct, and the last line of a pass counts in PASSES and clears the
filter; a refresh changes nothing. -/
def patrolRule : Prop :=
  (∀ s n,
    let first := if (s.vd 0).funcMode.getLsbD 6 then field s.damask.scrubRange 0 12 * 2 ^ 22 else 0
    let end_ := if (s.vd 0).funcMode.getLsbD 6 then (field s.damask.scrubRange 16 12 + 1) * 2 ^ 22 else 2560 * 2 ^ 22
    let on : Prop := s.damask.scrubCtl.getLsbD 16 = true ∧ first ≤ n ∧ n < end_
    let h := s.damask.home (64 * n)
    let clean : Prop := tget 0 s.damask.err n = 0 ∧ (h.k = 0 → tget 0 s.parErr (parKey h) = 0)
    (¬ on → exec (.patrolScrub n) s = .next s) ∧
    (on → clean → n + 1 ≠ end_ → exec (.patrolScrub n) s = .next s) ∧
    (on → clean → n + 1 = end_ → ∃ t, exec (.patrolScrub n) s = .next t ∧ { t with damask := s.damask } = s ∧ t.damask.filter = [] ∧
      field t.damask.scrubCtl 32 32 = (field s.damask.scrubCtl 32 32 + 1) % 2 ^ 32 ∧ field t.damask.scrubCtl 0 32 = field s.damask.scrubCtl 0 32) ∧
    (∀ k, on → s.damask.isLocked n = false → tget 0 s.damask.err n ≠ 0 → s.damask.lost h.at_ = false → readLine (s.damask.tsvOf h.at_) (tget 0 s.damask.err n) = .ok (some k) false false →
      ∃ t, exec (.patrolScrub n) s = .next t ∧ t.mem = s.mem ∧ tget 0 t.damask.err n = 0) ∧
    (∀ k, on → h.k = 0 → tget 0 s.damask.err n = 0 → tget 0 s.parErr (parKey h) ≠ 0 → s.damask.lost h.par = false →
      readLine (s.damask.tsvOf h.par) (tget 0 s.parErr (parKey h)) = .ok (some k) false false →
      ∃ t, exec (.patrolScrub n) s = .next t ∧ t.mem = s.mem ∧ tget 0 t.parErr (parKey h) = 0)) ∧
  (∀ s st ch, exec (.dramRefresh st ch) s = .next s)

/-- R329: a ROW_REPAIR with GO starts the repair of its row and takes a repair row of the bank; BAD_ROW for a row that does not exist, NO_SPARE where the bank has none left; while BUSY it is ignored; when a repair ends the bank uses the repair row, and where it is the one that ROW_REPAIR started STATUS is DONE. -/
def repairRule : Prop :=
  (∀ s k (v : W64),
    let bank := 1024 * field v 0 4 + 32 * field v 4 5 + 16 * field v 9 1 + field v 10 4
    let left (x : State) : Nat := tget 2 x.damask.repairs bank
    let busy : Prop := field s.damask.rowRepair 32 3 = 1
    let bad : Prop := 12 ≤ field v 0 4 ∨ 65540 ≤ field v 14 17
    (busy → exec (.rowRepairGo k v) s = .next s) ∧
    (¬ busy → ∃ t, exec (.rowRepairGo k v) s = .next t ∧ { t with damask := s.damask } = s ∧ field t.damask.rowRepair 0 31 = field v 0 31 ∧ t.damask.rowRepair.getLsbD 31 = false ∧
      (bad → field t.damask.rowRepair 32 3 = 4 ∧ t.damask.repairs = s.damask.repairs) ∧
      (¬ bad → left s = 0 → field t.damask.rowRepair 32 3 = 3 ∧ t.damask.repairs = s.damask.repairs) ∧
      (¬ bad → left s ≠ 0 → field t.damask.rowRepair 32 3 = 1 ∧ left t = left s - 1 ∧ ∀ b, b ≠ bank → tget 2 t.damask.repairs b = tget 2 s.damask.repairs b))) ∧
  (∀ s, ((∀ e ∈ s.damask.repairMap, e.2 < 1000000) → exec .rowRepairDone s = .next s) ∧
    (∀ key n, s.damask.repairMap.find? (fun e => 1000000 ≤ e.2) = some (key, n) → s.damask.err = [] → s.parErr = [] → ∃ t, exec .rowRepairDone s = .next t ∧ { t with damask := s.damask } = s ∧
      tget 0 t.damask.repairMap key = n - 1000000 ∧
      (s.damask.repairing = some key → field t.damask.rowRepair 32 3 = 2) ∧ (s.damask.repairing ≠ some key → t.damask.rowRepair = s.damask.rowRepair)))

/-- R308, R327, R329, R331. -/
def patrolAndRepairRule : Prop := patrolRule ∧ repairRule

/-- R308, R325 to R331. -/
def Obligations.RetirementAndRepair : Prop := memoryRetirementRule ∧ patrolAndRepairRule

/-! The host, other packages and the network (R121, R147, R399, R421, R457 to R461). -/

/-- A counter at a location after an add of n (R360). -/
def ctrAdded (m : Bytes) (l : Loc) (n : Nat) : Bytes := m.put l (leBytes 8 (min (leNat ((List.range 8).map (fun i => m (l.spot i))) + n) (2 ^ 64 - 1)))

/-- The pieces of a context's access, if it translates. -/
def ctxPieces (s : State) (core vd : Nat) (ak : AK) (a n : Nat) : Except XErr (List Piece) :=
  collectE (fun (p : Nat × Nat) => s.globalPiece core vd ak p.1 p.2) (sectors (n / 32 + 2) a n)

/-- Nothing has changed but what one virtual device holds. -/
def vdOnly (s : State) (v : Nat) (x : Vd) (t : State) : Prop := { t with vds := s.vds } = s ∧ t.vd v = x ∧ ∀ j, j ≠ v → t.vd j = s.vd j

/-- R121, R455: an 8-byte write in the counter-add window sets a slot's ADDR or adds to the counter there, and a 16-byte write does both; an add of 0 or of 2^36 or more, to no address or to one that cannot be added to, and a write of another size or offset, are
dropped and counted in DROPS, which a read clears; one whose walk meets MIG waits. -/
def counterAddWindowRule : Prop :=
  (∀ s vd off size (v : W64), ∀ i ∈ [Instr.counterAddAddrWrite vd off size v, .counterAddIncrement vd off size v],
    let x := s.vd vd
    let a := tget 0 x.slots (off / 16)
    let waits : Bool := s.ctrWaits 0 vd a
    let dropped : Prop := ∃ t, exec i s = .next t ∧ vdOnly s vd { x with drops := x.drops + 1 } t
    (x.enabled = false ∨ 0x1000 ≤ off → exec i s = .next s) ∧
    (x.enabled = true → off < 0x1000 →
      (size = 8 → off % 16 = 0 → ∃ t, exec i s = .next t ∧ vdOnly s vd { x with slots := tput x.slots (off / 16) v } t) ∧
      (size ≠ 8 ∨ (off % 16 ≠ 0 ∧ off % 16 ≠ 8) → dropped) ∧
      (size = 8 → off % 16 = 8 → v = 0 ∨ 2 ^ 36 ≤ v.toNat ∨ a = 0 ∨ (s.ctrAt 0 vd a = none ∧ waits = false) → dropped) ∧
      (size = 8 → off % 16 = 8 → v ≠ 0 → v.toNat < 2 ^ 36 → a ≠ 0 → waits = true → exec i s = .next { s with waitAdds := s.waitAdds ++ [⟨0, vd, a, v⟩] }) ∧
      (∀ pa at_ b, size = 8 → off % 16 = 8 → v ≠ 0 → v.toNat < 2 ^ 36 → a ≠ 0 → s.ctrAt 0 vd a = some [{ len := 8, locs := [.dev pa at_ b] }] → Calm s → NoOldCopies s → (∀ e ∈ s.cmds, e.2.vd = vd → e.2.st ≠ .host) →
        ∃ t, exec i s = .next t ∧ (∀ y : Spot, y.1 ≤ 4 → t.byteAt 0 y = ctrAdded (s.byteAt 0) (.dev pa at_ b) v.toNat y) ∧ (t.vd vd).drops = x.drops))) ∧
  (∀ s vd off (addr inc : W64),
    let x := s.vd vd
    let i := Instr.counterAddSetAndAdd vd off addr inc
    (x.enabled = false ∨ 0x1000 ≤ off → exec i s = .next s) ∧
    (x.enabled = true → off < 0x1000 →
      (off % 16 ≠ 0 → ∃ t, exec i s = .next t ∧ vdOnly s vd { x with drops := x.drops + 1 } t) ∧
      (off % 16 = 0 → inc = 0 ∨ 2 ^ 36 ≤ inc.toNat ∨ addr = 0 ∨ (s.ctrAt 0 vd addr = none ∧ s.ctrWaits 0 vd addr = false) → ∃ t, exec i s = .next t ∧
        vdOnly s vd { x with slots := tput x.slots (off / 16) addr, drops := x.drops + 1 } t) ∧
      (∀ pa at_ b, off % 16 = 0 → inc ≠ 0 → inc.toNat < 2 ^ 36 → addr ≠ 0 → s.ctrAt 0 vd addr = some [{ len := 8, locs := [.dev pa at_ b] }] → Calm s → NoOldCopies s → (∀ e ∈ s.cmds, e.2.vd = vd → e.2.st ≠ .host) →
        ∃ t, exec i s = .next t ∧ (∀ y : Spot, y.1 ≤ 4 → t.byteAt 0 y = ctrAdded (s.byteAt 0) (.dev pa at_ b) inc.toNat y) ∧ tget 0 (t.vd vd).slots (off / 16) = addr))) ∧
  (∀ s vd, ∃ t, exec (.dropsRead vd) s = .next t ∧ vdOnly s vd { s.vd vd with drops := 0 } t)

/-- R121, R124, R142, R399, R460: enabling a function of a device with firmware sets its context up, with the device budget that firmware gives, no higher than 3,600,000,000 nJ, and with its provinces and ports where its partition has no enabled function yet; a configuration that takes a cluster, a province or a port of another partition with an enabled function is not accepted; disabling it ends its context, with its grids, commands, workgroups,
regions, seals and translations. -/
def functionRule : Prop :=
  (∀ s vd (cfg : FunctionCfg),
    let clash : Prop := ∃ e ∈ s.vds, e.2.enabled = true ∧ e.2.cfg.partition ≠ cfg.partition ∧
      ((∃ c ∈ cfg.cores ++ cfg.reserved, ∃ d ∈ e.2.cfg.cores ++ e.2.cfg.reserved, d / 8 = c / 8) ∨
        (∃ p ∈ cfg.owns ++ cfg.frees, (s.damask.prov p).owner = some e.2.cfg.partition) ∨ ∃ p ∈ cfg.ports, (tget Port.empty s.ports p).part = some e.2.cfg.partition)
    (s.firmware = none ∨ 64 ≤ vd ∨ (s.vd vd).enabled = true ∨ clash → exec (.functionEnable vd cfg) s = .next s) ∧
    (s.firmware ≠ none → vd < 64 → (s.vd vd).enabled = false → ¬ clash → ∃ t, exec (.functionEnable vd cfg) s = .next t ∧ (t.vd vd).enabled = true ∧ (t.vd vd).cfg = cfg ∧ (t.vd vd).slots = [] ∧
      (t.vd vd).energyCtx = 0 ∧ (∀ j, j ≠ vd → t.vd j = s.vd j) ∧ t.mem = s.mem ∧ t.deviceBudget = (match cfg.budget with | some b => min b 3600000000 | none => s.deviceBudget) ∧
      ((∀ e ∈ s.vds, e.2.enabled = true → e.2.cfg.partition ≠ cfg.partition) → (∀ p, p < 2560 → (t.damask.prov p).owner =
          if p ∈ cfg.frees then none else if p ∈ cfg.owns then some cfg.partition else (s.damask.prov p).owner) ∧
        ∀ p, tget Port.empty t.ports p = if p ∈ cfg.ports ∧ p < field s.feature 17 7 then { tget Port.empty s.ports p with part := some cfg.partition } else tget Port.empty s.ports p) ∧
      ((∃ e ∈ s.vds, e.2.enabled = true ∧ e.2.cfg.partition = cfg.partition) → t.damask = s.damask ∧ t.ports = s.ports))) ∧
  (∀ s vd, ((s.vd vd).enabled = false → exec (.functionDisable vd) s = .next s) ∧
    ((s.vd vd).enabled = true → ∃ t, exec (.functionDisable vd) s = .next t ∧ (t.vd vd).enabled = false ∧ (t.vd vd).seals = [] ∧ (t.vd vd).regions = [] ∧ (t.vd vd).images = [] ∧
      (∀ e ∈ t.grids, e.1 / 2 ^ 32 ≠ vd) ∧ (∀ e ∈ t.cmds, e.2.vd ≠ vd) ∧ (∀ e ∈ t.tlb, e.vd ≠ vd) ∧ (∀ e ∈ t.walks, e.vd ≠ vd) ∧
      ∀ w, (s.wg w).vd = vd → (s.wg w).life ≠ .ended → (t.wg w).life ≠ .running ∧ (∀ b, (t.wg w).life ≠ .stopping b) ∧ (t.wg w).life ≠ .saved))

/-- R421, R461: a host write, and an RDMA read of a work request, put their bytes at every location of their pages; a host read changes no byte; an RDMA write or send sends the bytes of the context; a work request's completion adds the bytes moved to its counter, if it names
one (log entry 41); a request of a disabled function, or whose addresses do not translate, does nothing. -/
def accessRule : Prop :=
  (∀ s vd a bs ps, let off : Prop := (s.vd vd).enabled = false
    let done (i : Instr) (m : Bytes) : Prop := ∃ t, exec i s = .next t ∧ ∀ y : Spot, y.1 ≤ 4 → t.byteAt 0 y = m y
    (off → exec (.hostMemoryAccess (.write vd a bs)) s = .next s) ∧
    (∀ e, ctxPieces s 0 vd .wr a bs.length = .error e → exec (.hostMemoryAccess (.write vd a bs)) s = .next s) ∧
    (¬ off → Calm s → NoOldCopies s → ctxPieces s 0 vd .wr a bs.length = .ok ps →
      done (.hostMemoryAccess (.write vd a bs)) (Bytes.putPieces (fun _ => true) (s.byteAt 0) ps bs) ∧
      ∀ port qp, port < 16 → done (.roceWorkRequest (.read port qp vd a bs 0)) (Bytes.putPieces (fun _ => true) (s.byteAt 0) ps bs))) ∧
  (∀ s vd a n, Calm s → NoOldCopies s → ∃ t, exec (.hostMemoryAccess (.read vd a n)) s = .next t ∧ ∀ y : Spot, y.1 ≤ 4 → t.byteAt 0 y = s.byteAt 0 y) ∧
  (∀ s port qp vd a n ctr, ∀ r ∈ [WorkReq.write port qp vd a n ctr, .send port qp vd a n ctr],
    (16 ≤ port ∨ (s.vd vd).enabled = false → exec (.roceWorkRequest r) s = .next s) ∧
    (∀ e, s.tryRead 0 vd a n = .error e → exec (.roceWorkRequest r) s = .next s) ∧
    (∀ bs, port < 16 → (s.vd vd).enabled = true → s.tryRead 0 vd a n = .ok bs → ∃ t, exec (.roceWorkRequest r) s = .next t ∧ t.net = s.net ++ [bs] ∧
      (ctr = 0 → t = { s with net := s.net ++ [bs] }) ∧
      (∀ pa at_ b, ctr ≠ 0 → s.ctrAt 0 vd (BitVec.ofNat 64 ctr) = some [{ len := 8, locs := [.dev pa at_ b] }] → Calm s → NoOldCopies s → n < 2 ^ 64 →
        ∀ y : Spot, y.1 ≤ 4 → t.byteAt 0 y = ctrAdded (s.byteAt 0) (.dev pa at_ b) n y)))

/-- A port has taken an acknowledgement: what is not acknowledged any more stays, packets that waited for room among 256 flits have gone out in their order, and nothing else has
changed but the receiver's next number. -/
def Heard (x : Port) (acked : List Packet) (ack rx : BitVec 12) (y : Port) : Prop :=
  { y with replay := x.replay, queue := x.queue, next := x.next } = { x with acked := ack, rx := rx } ∧ acked <+: y.replay ∧
  y.replay.map (fun p => p.body) ++ y.queue.map (·.2) = acked.map (fun p => p.body) ++ x.queue.map (·.2) ∧
  (x.queue = [] → y = { x with replay := acked, acked := ack, rx := rx }) ∧
  ((acked.map (fun p => pktFlits p.body)).sum ≤ 256 → (y.replay.map (fun p => pktFlits p.body)).sum ≤ 256)

/-- R457, R459, R460: a packet of the partition of a port that exists, with a good CRC, whose addresses are not in motion, acknowledges the packets up to its number, and is delivered if it is the next in sequence; a store writes its bytes in this package and an add adds; any other packet does nothing; a CRC error counts against its lane, and the
third within 1 ms drops the lane; a port that has lost its lanes hands what was not acknowledged, and what had waited, to the next live port of its partition. -/
def twillRule : Prop :=
  (∀ s port (p : Packet),
    let x := tget Port.empty s.ports port
    let good : Prop := port < field s.feature 17 7 ∧ x.lanes ≠ 0 ∧ p.crc = true ∧ x.part = some p.part ∧ s.pktWaits p.body = false
    let acked : List Packet := match x.replay.findIdx? (fun q => q.seq = p.ack) with
      | some i => x.replay.drop (i + 1)
      | none => x.replay
    (¬ good → exec (.twillPacketReceive port p) s = .next s) ∧
    (good → p.seq ≠ x.rx → ∃ t, exec (.twillPacketReceive port p) s = .next t ∧ { t with ports := s.ports } = s ∧ Heard x acked p.ack x.rx (tget Port.empty t.ports port) ∧
      ∀ j, j ≠ port → tget Port.empty t.ports j = tget Port.empty s.ports j) ∧
    (good → p.seq = x.rx → ∃ t, exec (.twillPacketReceive port p) s = .next t ∧ Heard x acked p.ack (x.rx + 1) (tget Port.empty t.ports port) ∧
      (∀ j, j ≠ port → tget Port.empty t.ports j = tget Port.empty s.ports j) ∧
      (∀ vd a bs ps, p.body = .store vd a bs → Calm s → NoOldCopies s → ctxPieces s 0 vd .wr a bs.length = .ok ps →
        ∀ y : Spot, y.1 ≤ 4 → t.byteAt 0 y = Bytes.putPieces (fun l => match l with
          | .peer _ _ => false
          | _ => true) (s.byteAt 0) ps bs y) ∧
      (∀ vd a inc pa at_ b, p.body = .add vd a inc → inc < 2 ^ 64 → Calm s → NoOldCopies s → s.ctrAt 0 vd (BitVec.ofNat 64 a) = some [{ len := 8, locs := [.dev pa at_ b] }] →
        ∀ y : Spot, y.1 ≤ 4 → t.byteAt 0 y = ctrAdded (s.byteAt 0) (.dev pa at_ b) inc y))) ∧
  (∀ s port lane,
    let x := tget Port.empty s.ports port
    let es := (tget [] x.crc lane).filter (fun t => s.clock < t + 1000000) ++ [s.clock]
    ∃ t, exec (.twillCrcReplay port lane) s = .next t ∧ { t with ports := s.ports } = s ∧ (∀ j, j ≠ port → tget Port.empty t.ports j = tget Port.empty s.ports j) ∧
      let y := tget Port.empty t.ports port
      { y with crc := x.crc, lanes := x.lanes } = x ∧ tget [] y.crc lane = es ∧ (es.length < 3 → y.lanes = x.lanes) ∧
      (3 ≤ es.length → lane < 2 → ∀ l, l < 2 → y.lanes.getLsbD l = (x.lanes.getLsbD l && l != lane))) ∧
  (∀ s port,
    let x := tget Port.empty s.ports port
    let n := max 1 (field s.feature 17 7)
    let bodies (y : Port) : List PktBody := y.replay.map (fun p => p.body) ++ y.queue.map (·.2)
    let live (p : Nat) : Bool := p != port && (tget Port.empty s.ports p).lanes != 0 && (tget Port.empty s.ports p).part == x.part
    ∃ t, exec (.twillPortLoss port) s = .next t ∧ { t with ports := s.ports } = s ∧ (tget Port.empty t.ports port).lanes = 0 ∧ (tget Port.empty t.ports port).replay = [] ∧ (tget Port.empty t.ports port).queue = [] ∧
      ∀ p, p ≠ port → (x.part ≠ none → ((List.range n).map (fun i => (port + 1 + i) % n)).find? live = some p →
          bodies (tget Port.empty t.ports p) = bodies (tget Port.empty s.ports p) ++ bodies x) ∧
        (((List.range n).map (fun i => (port + 1 + i) % n)).find? live ≠ some p → tget Port.empty t.ports p = tget Port.empty s.ports p))

/-- R121, R124, R399, R421, R457 to R461. -/
def functionsHostAndTwillRule : Prop := functionRule ∧ accessRule ∧ twillRule

/-- R121, R421, R455 to R461. -/
def Obligations.OutsideAccesses : Prop := counterAddWindowRule ∧ functionsHostAndTwillRule

/-! Loaders, boot and attestation (R53 to R57, R462, R463). -/

/-- A measurement register after an image has been extended into it (R462): SHA-512 of the old value and the image's digest. -/
def extended (old : BitVec 512) (file : List Byte) : BitVec 512 :=
  let bytes (v : BitVec 512) : List Byte := (leBytes 64 v.toNat).reverse
  Config.sha512 (bytes old ++ bytes (Config.sha512 file))

/-- The keys of a state whose identifiers are fused and not revoked (R55, R462). -/
def fusedKeys (s : State) : List (List Byte) := s.keys.filter (fun k => s.fuseKeys.any (fun e => e.1 = keyId k && !e.2))

/-- The firmware program of a file starts on the first management core, at DEVICE, at its ENTRY (R31, R35; log entry 38), with its sections at their addresses, as the file has them where it holds no relocation, and with the attributes that R38 gives their pages. -/
structure FirmwareRuns (s : State) (file : List Byte) (t : State) : Prop where
  image : t.firmware = some file ∧ t.loadStatus = 0
  fibre : let f := t.fib (64 * s.nextWg)
          f.life = .running ∧ f.priv = .device ∧ f.launched = BitVec.allOnes 32 ∧ f.entry.pc = BitVec.ofNat 64 (fieldAt file 0x20 8) ∧ f.entry.fp = 0 ∧ f.entry.inside = false ∧
            f.entry.mask = BitVec.allOnes 32
  place : (t.wg s.nextWg).life = .running ∧ (t.wg s.nextWg).core = s.coreCount
  bytes : (∀ x ∈ lofSections file, x.type ≠ 10) → ∀ x ∈ lofSections file, x.alloc = true → ∀ i, i < x.size → tget memDefault t.mem (x.addr + i) = file.getD (x.offset + i) 0
  rest  : ∀ a, (∀ x ∈ lofSections file, x.alloc = true → a < x.addr ∨ x.addr + x.size ≤ a) → tget memDefault t.mem a = tget memDefault s.mem a
  attrs : ∀ x ∈ lofSections file, x.alloc = true → ∀ i, i < x.size → tget plainLeaf t.firmMap ((x.addr + i) / 4096) = sectLeaf x.type

/-- R10, R38, R55, R56, R462: a power-on reset gives every register its reset value and keeps the fuses, the host's memory and other packages'; the ROM measures the first firmware image into a register that starts from zeros, and starts it if it is accepted and its sections can be placed
and linked. A later firmware image is measured, accepted or refused; one that is refused leaves the running firmware as it was. The loader reports its status. (What dirty copies in caches hold is not of this statement.) -/
def bootAndFirmwareRule : Prop :=
  (∀ s image,
    let st := checkImage true (fusedKeys s) true (field s.feature 4 4) image
    let ok : Prop := st = 0 ∧ ∃ u, State.reset.placeFirmware image = .ok u
    ∃ t, exec (.powerOnReset image) s = .next t ∧ (∀ v, v < 64 → t.vd v = Vd.empty) ∧ t.grids = [] ∧ t.cmds = [] ∧ t.l2 = [] ∧ t.cc = [] ∧ t.tlb = [] ∧ t.clock = 0 ∧ t.banks = [] ∧ t.ports = [] ∧
      t.poison = [] ∧ t.hostMem = s.hostMem ∧ t.peerMem = s.peerMem ∧ t.feature = s.feature ∧ t.fuseKeys = s.fuseKeys ∧
      tget 0 t.measure 0 = extended 0 image ∧ (∀ n, n ≠ 0 → tget 0 t.measure n = 0) ∧
      (¬ ok → t.firmware = none ∧ t.fibres = [] ∧ t.wgs = [] ∧ t.mem = [] ∧ t.damask = State.reset.damask) ∧ (st ≠ 0 → t.loadStatus = st) ∧
      (ok → FirmwareRuns { State.reset with feature := s.feature } image t ∧ t.damask = { State.reset.damask with ready := true })) ∧
  (∀ s file,
    let st := checkImage true (fusedKeys s) true (field s.feature 4 4) file
    let ok : Prop := st = 0 ∧ ∃ u, s.placeFirmware file = .ok u
    ∃ t, exec (.firmwareImageLoad file) s = .next t ∧ tget 0 t.measure 1 = extended (tget 0 s.measure 1) file ∧ (∀ n, n ≠ 1 → tget 0 t.measure n = tget 0 s.measure n) ∧
      (¬ ok → { t with measure := s.measure, loadStatus := s.loadStatus } = s) ∧ (st ≠ 0 → t.loadStatus = st) ∧ (∀ e, st = 0 → s.placeFirmware file = .error e → t.loadStatus = e) ∧
      (ok → s.cc = [] → s.ucopies = [] → s.drains = [] → FirmwareRuns s file t ∧ ∀ w, (s.wg w).core = s.coreCount → w ≠ s.nextWg → (s.wg w).life ≠ .ended → (t.wg w).life = .killed))

/-- The loader's first checks in their order (R56): bad magic, bad version, a layout that breaks R36 to R52, no EXEC, DEVICE against the loader, the signature, the stepping. -/
def firstFailure (device : Bool) (keys : List (List Byte)) (mustSign : Bool) (step : Nat) (f : List Byte) (n : Nat) : Prop :=
  let flags := fieldAt f 0x10 4
  if fieldAt f 0 4 ≠ 0x1A464F4C ∨ fieldAt f 0x14 2 ≠ 0x4C5A then n = 1
  else if fieldAt f 4 2 ≠ 1 ∨ fieldAt f 8 2 ≠ 64 ∨ fieldAt f 0x0A 2 ≠ 40 then n = 2
  else if f.length < 64 ∨ layoutOk f = false then n = 3
  else if flags.testBit 0 = false then n = 4
  else if flags.testBit 1 ≠ device then n = 13
  else if sigStatus keys f ≠ 0 ∧ ¬ (sigStatus keys f = 6 ∧ mustSign = false) then n = sigStatus keys f
  else if step < fieldAt f 0x16 2 then n = 8
  else n = 0

/-- R55 to R57: an image of the driver loader that fails a check leaves nothing but the status that the loader reports; one that passes them all is listed, with a number of its own, its descriptors and the sealed buffers of its SEALED section (here where no cache holds data); an unload
is refused with BUSY while a grid of the image is admitted or running, and otherwise drops the image, its seals and its translations. -/
def driverImagesRule : Prop :=
  (∀ device keys must step f, firstFailure device keys must step f (checkImage device keys must step f)) ∧
  (∀ s vd file place,
    let v := s.vd vd
    let st := checkImage false v.keys v.cfg.signed (field s.feature 4 4) file
    let i := Instr.driverImageLoad vd file place
    (v.enabled = false → exec i s = .next s) ∧
    (v.enabled = true → st ≠ 0 → exec i s = .next { s with loadStatus := st }) ∧
    (∀ e, v.enabled = true → st = 0 → s.loadImage vd file place = .error e → exec i s = .next { s with loadStatus := e }) ∧
    (∀ u, v.enabled = true → st = 0 → s.loadImage vd file place = .ok u → s.cc = [] → s.l0 = [] → s.ucopies = [] → s.drains = [] → ∃ t, exec i s = .next t ∧ t.loadStatus = 0 ∧
      { t with mem := s.mem, vds := s.vds, shadows := s.shadows, icache := s.icache, poison := s.poison, loadStatus := s.loadStatus } = s ∧ (∀ j, j ≠ vd → t.vd j = s.vd j) ∧
      ∃ img bufs, (t.vd vd) = { v with images := v.images ++ [img], seals := v.seals ++ bufs } ∧ (∀ x ∈ v.images, x.id < img.id) ∧ v.seals.length + bufs.length ≤ 4096 ∧
        (∀ b ∈ bufs, b.va % 256 = 0 ∧ b.len % 32 = 0 ∧ b.ending = false))) ∧
  (∀ s vd id,
    let v := s.vd vd
    let i := Instr.imageUnload vd id
    let busy (img : Image) : Prop := ∃ e ∈ s.grids, e.1 / 2 ^ 32 = vd ∧ (e.2.st = .admitted ∨ e.2.st = .running) ∧ e.2.desc ∈ img.descs
    ((∀ x ∈ v.images, x.id ≠ id) → exec i s = .next s) ∧
    (∀ img, v.images.find? (fun x => x.id = id) = some img → busy img → exec i s = .next { s with loadStatus := 14 }) ∧
    (∀ img, v.images.find? (fun x => x.id = id) = some img → ¬ busy img → ∃ t, exec i s = .next t ∧ t.loadStatus = 0 ∧
      { t with mem := s.mem, tlb := s.tlb, walks := s.walks, vds := s.vds, loadStatus := s.loadStatus } = s ∧
      (∀ x ∈ (t.vd vd).images, x.id ≠ id) ∧ (∀ x ∈ v.images, x.id ≠ id → x ∈ (t.vd vd).images) ∧
      (∀ e ∈ t.tlb, e.vd = vd → ∀ g ∈ img.spans, ¬ (e.va < g.1 + g.2 ∧ g.1 < e.va + e.size)) ∧
      ∀ x ∈ (t.vd vd).seals, ∀ g ∈ img.spans, ¬ (g.1 ≤ x.va ∧ x.va < g.1 + g.2)))

/-- R463: the device answers the six SPDM requests, the measurements with its eight registers, the certificate with its own, a challenge signed over the nonce and the measurements; the endpoint serves the energy of an island, the oldest memory event and temperatures; none of these reads or changes anything
else. What a version and algorithm answer holds is the model's (see NOTES.md). -/
def attestationAndTelemetryRule : Prop :=
  ∀ s nonce island,
    let regs : List Byte := (List.range 8).flatMap (fun i => leBytes 64 (tget 0 s.measure i).toNat)
    let answers (i : Instr) (kind : Nat) (bs : List Byte) : Prop := ∃ t, exec i s = .next t ∧ { t with spdm := s.spdm } = s ∧ t.spdm.kind = kind ∧ t.spdm.answer = bs ∧ kind ≤ t.spdm.stage
    let serves (i : Instr) (v : W64) : Prop := ∃ t, exec i s = .next t ∧ { t with telemetry := s.telemetry } = s ∧ t.telemetry = s.telemetry ++ [v]
    answers .getVersion 1 [0x13] ∧ answers .getCapabilities 2 [] ∧ answers .negotiateAlgorithms 3 [1] ∧ answers .getCertificate 4 Config.certificate ∧
    answers (.challenge nonce) 5 (Config.ecdsaSign (nonce ++ regs)) ∧ answers .getMeasurements 6 regs ∧
    serves (.akviaTelemetry (.energy island)) (BitVec.ofNat 64 (tget 0 s.islandNj (island % 64))) ∧
    serves (.akviaTelemetry .memEvent) (s.damask.events.headD 0) ∧
    serves (.akviaTelemetry (.temperature island)) ((Config.temperature (island % 64) s.clock).setWidth 64)

/-- R10, R55 to R57, R462, R463. -/
def Obligations.BootAndImages : Prop := bootAndFirmwareRule ∧ driverImagesRule ∧ attestationAndTelemetryRule

/-! Where words and events complete that other statements give in more detail. -/

/-- The issuing fibre's word has issued: `p` is its pending word, and the lanes of its entry stand at Next (R67, R160). -/
structure Issued (s : State) (p : Pending) (t : State) : Prop where
  cur   : t.cur = s.cur
  pend  : t.me.pend = s.me.countWord.pend ++ [p]
  lanes : ∀ l, l < 32 → s.me.entry.mask.getLsbD l = true → t.me.stands l s.atNext

/-- R135, R284 to R290, R292, R401, R402: where some acting lane is no helper, no walk of the word's addresses meets MIG, no earlier word of the fibre is still to be performed or drained and the elements of a gadd or gld may be accessed,
prf, cwb, cinv, seal, unseal, lkl, ulk, gadd, gld, fence and, at SUPERVISOR, lstat issue: the word is pending with its results, s(D) of seal, unseal, lkl and ulk with its status and count, and seals, locks and buffers have changed. -/
def Obligations.MemoryWordsComplete : Prop :=
  ∀ s (f : FM), Plain s → s.acts s.cur f.hd &&& ~~~s.me.helper ≠ 0 → (∀ p ∈ s.me.pend, ∀ cl ls, p.kind ≠ .drain cl ls) → s.relBlocked s.cur = false →
    let k := s.cur
    let vd := s.vdOf k
    let core := s.coreOf k
    let acts := s.acts k f.hd
    let a := (s.laneAddr k f 0).toNat
    let n := (s.ssrc k f.b).toNat
    let seals := (s.vd vd).seals
    let passes (i : Instr) : Prop := ∃ t, exec i s = .next t ∧ Issued s (s.newPend f.hd .store true [] none) t
    let tells (i : Instr) (v : Nat) (P : State → Prop) : Prop := ∃ t, exec i s = .next t ∧ Issued s (s.newPend f.hd .store true [.sreg f.d.toNat (BitVec.ofNat 64 v)] none) t ∧ P t
    (s.anyMig k (s.lineAddrs k f acts) = false → passes (.prf f) ∧ passes (.cwb f) ∧ passes (.cinv f)) ∧
    (s.anyMig k (pagesOf a n) = false →
      (let st := s.sealStatus core vd a n
       tells (.seal f) st (fun t => (t.vd vd).seals = if st = 0 then seals ++ [{ va := a, len := n, ending := false, readers := [] }] else seals)) ∧
      (n = 0 ∨ (a + n - 1) / 64 - a / 64 < 1024 →
        let r := s.lockStatus (wgOf k) (clusterOf core) ((linesOf a n).map (fun va => (s.lineAt core vd va).map (·.1)))
        tells (.lkl f) (r.1 + 2 ^ 32 * r.2.length) (fun t => ∀ l ∈ r.2, tget false (t.wg (wgOf k)).locks l = true)) ∧
      (let out := ((s.wg (wgOf k)).locks.map (·.1)).filter (fun l => s.lineIn core vd a n l)
       tells (.ulk f) (2 ^ 32 * out.length) (fun t => (t.wg (wgOf k)).locks = (s.wg (wgOf k)).locks.filter (fun e => !out.contains e.1)))) ∧
    ((∀ x ∈ seals, x.va = a → x.ending = true) → tells (.unseal f) 5 (fun t => (t.vd vd).seals = seals)) ∧
    ((∃ x ∈ seals, x.va = a ∧ x.ending = false) → (∀ x ∈ seals, x.va = a → s.anyMig k (pagesOf x.va x.len) = false) → ∃ t, exec (.unseal f) s = .next t ∧
      (∃ p ∈ t.me.pend, p.kind = .unseal a ∧ p.wr = [.sreg f.d.toNat 0]) ∧ ∀ z ∈ (t.vd vd).seals, z.va = a → z.ending = true) ∧
    (∀ as, s.planWith k f.space.toNat .wr (s.isHelper k) (fun e ps => match (match s.regionOf vd e.addr.toNat with
        | some r => if r.ty = f.ty.toNat then none else some Cause.protection
        | none => none) with
      | some c => some c
      | none => atomicRefuse f.ty.toNat (.op 0 (s.atomVal k f f.d.toNat e.lane)) false ps)
      (s.atomElems k f (FM.offset f) (lanesOf (s.storeLanes k acts))) = .ok as →
      ∃ t kind ready poison, exec (.gadd f) s = .next t ∧ Issued s (s.newPend f.hd kind ready [] poison) t ∧
        (kind = .store ∧ ready = true ∨ ∃ ls, kind = .drain (clusterOf core) ls ∧ ready = false)) ∧
    (∀ as, s.planWith k 0 .rd (s.isHelper k) (fun e ps => match s.regionOf vd e.addr.toNat with
      | some r => if r.ty = f.ty.toNat then none else some Cause.protection
      | none => atomicRefuse f.ty.toNat .read false ps) (s.atomElems k f (FM.offset f) (lanesOf (acts &&& ~~~s.me.helper))) = .ok as →
      ∃ t ws poison, exec (.gld f) s = .next t ∧ Issued s (s.newPend f.hd .load true ws poison) t ∧
        ∀ w ∈ ws, ∃ l v, l < 32 ∧ acts.getLsbD l = true ∧ w = s.vw k f.d.toNat l v) ∧
    (s.me.pend = [] → s.me.entry.wait = .none → ∃ t, exec (.fence f) s = .next t ∧ Issued s (s.newPend f.hd (if f.cnt = 0 then .other else .fence (f.cnt = 2)) true [] none) t) ∧
    (∀ y : FY, y.hd = f.hd → 1 ≤ s.me.priv.code → ∃ t, exec (.lstat y) s = .next t ∧ Issued s (s.newPend f.hd .other true [.sreg y.d.toNat (s.lstatWord vd (s.ssrc k y.a))] none) t)

/-- R124, R136, R139, R166, R432 to R434: where its condition holds, a placement starts a workgroup, a slice end begins the next slice or the next of its virtual device's slices, PREEMPT_TIMEOUT stops what has not stopped, a save takes a workgroup off its core and a restore puts it on one,
a write of DISPATCH_DESC is kept, and HOST_SPILL_MOVE moves the chunk that the fibre waits for. -/
def Obligations.EventsComplete : Prop :=
  (∀ s cluster g core slots banks, s.bestStand cluster s.cmds = none → s.bestGrid cluster (s.grids.map (·.1)) = some (g, core, slots, banks) →
    ∃ t, exec (.workgroupPlacement cluster) s = .next t ∧ t.nextWg = s.nextWg + 1 ∧ (t.wg s.nextWg).life = .running ∧ (t.wg s.nextWg).core = core ∧ (t.wg s.nextWg).grid = g % 2 ^ 32) ∧
  (∀ s core, s.sliceOver core = true → ∃ t, exec (.sliceEnd core) s = .next t ∧ (t.core core).sliceFrom = s.clock) ∧
  (∀ s core, s.timedOut core = true → ∃ t, exec (.preemptTimeout core) s = .next t ∧
    ∀ w, (s.wg w).core = core → (s.wg w).life = .stopping false → (t.wg w).life = .stopping true) ∧
  (∀ s w, s.saveable w = true → ∃ t, exec (.workgroupSave w) s = .next t ∧ (t.wg w).life = .saved) ∧
  (∀ s w core slots banks, let x := s.wg w
    let cfg := (s.vd x.vd).cfg
    x.life = .saved → s.fits core x.kd = some (slots, banks) →
      (if s.isDispatcher w then core ∈ cfg.cores ∨ core ∈ cfg.reserved else s.mayRun x.vd core (s.grid (gkey x.vd x.grid)).urgent = true) →
      ∃ t, exec (.workgroupRestore w core) s = .next t ∧ (t.wg w).life = .running ∧ (t.wg w).core = core ∧ (t.wg w).banks = banks) ∧
  (∀ s vd (v : W64), ∃ t, exec (.dispatchDescWrite vd v) s = .next t ∧ (t.vd vd).dispatchDesc = v &&& 0x01FFFFFFFFFFFFFF) ∧
  (∀ s k u, let f := s.fib k
    f.move ≠ 0 → (s.wg (wgOf k)).kd.flags.getLsbD 2 = false → (f.move = 3 → s.chunkBad k (s.spillBase k (s.moveOf k 3)) = none) →
      s.moveChunk k (s.moveOf k f.move) (f.move != 3) (s.spillBase k (s.moveOf k f.move)) = .ok u →
      ∃ t, exec (.hostSpillMove k) s = .next t ∧ (t.fib k).move = 0 ∧ (f.move = 1 → (t.fib k).lo = f.lo + 8) ∧ (f.move = 3 → (t.fib k).lo = f.lo - 8))

/-! The whole machine (R8 to R10, R24, R27, R58 to R89, R151, R155, R313). -/

/-- R4, R10, R143, R149, R302, R313, R329, R426, R453: after reset no function is enabled and nothing is resident, memory lists nothing, and the registers hold what their Reset columns say; a fresh fibre has p7 true and its other registers 0.
That the variant is an OLZ3-A is the model's choice (log entry 2). -/
def Obligations.ResetState : Prop :=
  let s := State.reset
  MemOk s ∧ s.mem = [] ∧ s.fibres = [] ∧ s.wgs = [] ∧ s.grids = [] ∧ s.cmds = [] ∧ s.tlb = [] ∧ s.cc = [] ∧ s.firmware = none ∧ s.clock = 0 ∧ s.preemptTimeout = 20 ∧ s.islandSel = 0 ∧
  field s.feature 0 4 = 1 ∧ field s.feature 8 9 = 288 ∧ field s.feature 17 7 = 96 ∧ s.feature.getLsbD 24 = true ∧ s.feature.getLsbD 25 = true ∧ field s.feature 26 4 = 12 ∧ field s.feature 30 34 = 0 ∧
  (∀ v, let x := s.vd v
    x.enabled = false ∧ x.queueBase = 0 ∧ x.dispatchDesc = 0 ∧ x.funcMode = 0 ∧ x.heapBase = 0 ∧ x.heapLimit = 0 ∧ x.heapOffset = 0 ∧ x.ptRoot = 0 ∧ x.promote = 1 ∧ x.occClu = 1024 ∧ x.occL2 = 1024 ∧
    x.engDeadline = 200 ∧ x.watchdog = 0 ∧ x.killCause = 0 ∧ x.energyCtx = 0 ∧ x.drops = 0) ∧
  (∀ k, let f := s.fib k
    f.life = .notStarted ∧ f.priv = .user ∧ f.trap.cause = 0 ∧ f.trap.inh = false ∧ f.trap.pc = 0 ∧ f.trap.resume = 0 ∧ f.trap.addr = 0 ∧ f.preg 7 = BitVec.allOnes 32 ∧ (∀ n, f.sreg n = 0) ∧
    ∀ n, n < 7 → f.preg n = 0) ∧
  (∀ c b, b < 64 → (s.bank (64 * c + b)).mode = if b < 48 then .cache else .scratch) ∧
  (∀ i, i < 60 → tget (islandMhzReset i) s.islandMhz i = if i % 20 < 12 then 800 else 1600) ∧ field s.damask.scrubCtl 16 1 = 1 ∧ field s.damask.rowRepair 35 2 = 2 ∧ s.damask.retire = none

/-- R8: every step, whatever it is of an event, a word, a clause header or a cycle, keeps main memory in its one canonical form. The form is the model's (log entry 5). -/
def Obligations.StepKeepsMemoryCanonical : Prop := ∀ s t, MemOk s → Steps s t → MemOk t

/-- R59 to R89: in every format and at every value of its fields, a word that passes the checks decodes to the instruction that it encodes, and is the only word of its class that does; headers likewise. -/
def Obligations.DecodeInvertsEncode : Prop :=
  (∀ (k : DecCtx) i c w, encode i = some (c, w) → i.wellFormed k = true → decode k c w = .ok i) ∧
  (∀ (k : DecCtx) c w i, decode k c w = .ok i → encode i = some (c, w) ∨ i = .nonInstructionEncoding w) ∧
  (∀ h : Hdr, Hdr.ofWord h.toWord = h) ∧ (∀ w, (Hdr.ofWord w).toWord = w)

/-- The common head that `lomas` gives a long-latency word with LA 0, and a fixed-latency one: the guard is "always". -/
def headAlways : Head := { sos := false, gn := false, gp := 7, la := 0, tok := 0 }

/-- R78, R80, R238, R269, R365, R429: the words that the spec writes out decode to their instructions. -/
def Obligations.WrittenWordsDecode : Prop :=
  let k : DecCtx := { shared := 0, fibres := 1, fibre := 0, eph := false }
  decode k .ctl 0x0208000000000005 = .ok (.bra { hd := { headAlways with gp := 1 }, a := 0, b := 0, tgt := 5 }) ∧
  decode k .ctl 0x02380000FFFFFFFA = .ok (.bra { hd := headAlways, a := 0, b := 0, tgt := 0xFFFFFFFA }) ∧
  decode k .ctl 0x0938000000000000 = .ok (.exit { hd := headAlways, a := 0, b := 0, tgt := 0 }) ∧
  decode k .vec 0x3538014304028063 = .ok (.shfl { hd := headAlways, d := 5, a := 3, b := 1, c := 0, ty := 5, mode := 0, md := 0, z := false, bsel := 3, sub := 3 }) ∧
  decode k .mem 0x0138010608A88010 = .ok (.ld { hd := headAlways, d := 4, a := 6, b := 2, ty := 5, scope := 2, str := false, space := 1, cnt := 0, abase := 0, off := 16 }) ∧
  decode k .syn 0x043801C624000001 = .ok (.cphase { hd := headAlways, d := 7, a := 6, b := 9, num := 0, sub := 1 }) ∧
  decode k .eng 0x0238045000000000 = .ok (.qpop { hd := headAlways, q := 4, a := 20, b := 0, c := 0, sub := 0 }) ∧
  decode k .sys 0x0538000000000000 = .ok (.tret { hd := headAlways, a := 0, b := 0, tgt := 0 }) ∧
  decode k .sys 0x0A38010600000000 = .ok (.scan { hd := headAlways, d := 4, a := 6, b := 0, num := 0, sub := 0 }) ∧
  decode k .ctl 0x0038000000000000 = .ok (.nonInstructionEncoding 0x0038000000000000)

/-- R87, R151, R155: where nothing comes first, the word at the picked fibre's PC is fetched, decoded and executed, and its batch is fixed if it page-faults; a word that decodes to none raises ILLEGAL_ENCODING; between clauses the word there is a
header. An event of the agenda happens before any word. After each of them the active sets, issue turns and caches settle. -/
def Obligations.StepRunsDecodedWord : Prop :=
  ∀ s q slot k, s.agenda = [] → s.pick = some (q, slot, k) →
    let u := s.chosen q slot k
    let e := (u.fib k).entry
    (∀ v w, e.inside = true → u.readyFrame k = .done v → v.cur = k → v.fetch k (v.fib k).entry.pc = .ok w →
      (∀ i, decode (v.decCtx k) (v.fib k).entry.cls w = .ok i → step s = settled (batched v (exec i (v.noteFetch k (v.fib k).entry.pc))) ∧
        ∀ t, exec i (v.noteFetch k (v.fib k).entry.pc) = .next t → (t.fib k).frozen = none → step s = .next t.settle) ∧
      (∀ r, decode (v.decCtx k) (v.fib k).entry.cls w = .error r → step s = .next (v.trapHere k .illegalEncoding 0 0 0).settle)) ∧
    (∀ t, e.inside = true → u.readyFrame k = .stopped t → step s = .next t.settle) ∧
    (∀ w, e.inside = false → u.fetch k e.pc = .ok w → step s = settled (exec (.clauseEntry w) (u.noteFetch k e.pc))) ∧
    (∀ i rest, i.isEvent = true → step { s with agenda := i :: rest } = settled (exec i { s with agenda := rest }))

/-- R66, R160: an instruction word whose guard holds in no active lane changes no register, no memory and no other state; its lanes go on at Next. The words of the sys class, whose level is checked first, `exit`, `ret` and a `cset` at USER are stated elsewhere. -/
def Obligations.GuardFalseWordIsPassed : Prop :=
  ∀ s i c w, encode i = some (c, w) → c ≠ .sys → (∀ f, i ≠ .exit f ∧ i ≠ .ret f) → s.me.priv ≠ .user ∨ (∀ f, i ≠ .cset f) → Plain s →
    s.guard s.cur (w.getLsbD 54) (w.extractLsb' 51 3) = 0 →
    ∃ t, exec i s = .next t ∧ Quiet s t ∧ (∀ l, l < 32 → s.me.entry.mask.getLsbD l = true → t.me.stands l s.atNext) ∧
      ∀ l x, s.me.entry.mask.getLsbD l = false → (t.me.stands l x ↔ s.me.stands l x)
end

