-- ==== Sys2Proof/Laws/Tab.lean ====
section
/-! SUPPORT. The laws of the sparse table: what a key reads as after a write, and that the canonical form is kept. -/

namespace Sys2Proof

variable {α : Type}

theorem tfind_tput_self (t : Tab α) (k : Nat) (v : α) : tfind (tput t k v) k = some v := by
  induction t with
  | nil => simp [tput, tfind]
  | cons e t ih =>
    obtain ⟨a, w⟩ := e
    by_cases h1 : k < a
    · simp [tput, h1, tfind]
    · by_cases h2 : k = a
      · simp [tput, h2, tfind]
      · have h3 : ¬ a = k := fun h => h2 h.symm
        simp [tput, h1, h2, h3, tfind, ih]

theorem tfind_tput_ne (t : Tab α) (k j : Nat) (v : α) (h : j ≠ k) : tfind (tput t k v) j = tfind t j := by
  have hk : ¬ k = j := fun e => h e.symm
  induction t with
  | nil => simp [tput, tfind, hk]
  | cons e t ih =>
    obtain ⟨a, w⟩ := e
    by_cases h1 : k < a
    · simp [tput, h1, tfind, hk]
    · by_cases h2 : k = a
      · subst h2
        simp [tput, tfind, hk]
      · by_cases h3 : a = j
        · subst h3; simp [tput, h1, h2, tfind]
        · simp [tput, h1, h2, h3, tfind, ih]

/-- Reading after a write to the same key. -/
@[simp] theorem tget_tput_self (d : α) (t : Tab α) (k : Nat) (v : α) : tget d (tput t k v) k = v := by
  simp [tget, tfind_tput_self]

/-- A write leaves every other key alone. -/
theorem tget_tput_ne (d : α) (t : Tab α) (k j : Nat) (v : α) (h : j ≠ k) : tget d (tput t k v) j = tget d t j := by
  simp [tget, tfind_tput_ne t k j v h]

/-- A second write to a key overrides the first. -/
@[simp] theorem tput_tput (t : Tab α) (k : Nat) (v w : α) : tput (tput t k v) k w = tput t k w := by
  induction t with
  | nil => simp [tput]
  | cons e t ih =>
    obtain ⟨a, x⟩ := e
    by_cases h1 : k < a
    · simp [tput, h1]
    · by_cases h2 : k = a
      · simp [tput, h2]
      · simp [tput, h1, h2, ih]

theorem tfind_tdel_ne (t : Tab α) (k j : Nat) (h : j ≠ k) : tfind (tdel t k) j = tfind t j := by
  induction t with
  | nil => rfl
  | cons e t ih =>
    obtain ⟨a, w⟩ := e
    by_cases h1 : a = k
    · subst h1
      have h2 : ¬ a = j := fun e => h e.symm
      simp [tdel, tfind, h2, ih]
    · by_cases h3 : a = j
      · subst h3; simp [tdel, h1, tfind]
      · simp [tdel, h1, h3, tfind, ih]

theorem tget_tdel_ne (d : α) (t : Tab α) (k j : Nat) (h : j ≠ k) : tget d (tdel t k) j = tget d t j := by
  simp [tget, tfind_tdel_ne t k j h]

theorem tget_tset_ne [DecidableEq α] (d : α) (t : Tab α) (k j : Nat) (v : α) (h : j ≠ k) :
    tget d (tset d t k v) j = tget d t j := by
  unfold tset
  split
  · exact tget_tdel_ne d t k j h
  · exact tget_tput_ne d t k j v h

/-! The canonical form, as an order of keys and a bound on values. -/

theorem tsorted_iff (lo : Nat) (t : Tab α) :
    tsorted lo t = true ↔ (∀ e ∈ t, lo < e.1) ∧ t.Pairwise (fun a b => a.1 < b.1) := by
  induction t generalizing lo with
  | nil => simp [tsorted]
  | cons e t ih =>
    obtain ⟨a, w⟩ := e
    simp only [tsorted, Bool.and_eq_true, decide_eq_true_eq, ih, List.pairwise_cons, List.mem_cons, forall_eq_or_imp]
    constructor
    · rintro ⟨h, h', hp⟩
      exact ⟨⟨h, fun e he => Nat.lt_trans h (h' e he)⟩, h', hp⟩
    · rintro ⟨⟨h, -⟩, h', hp⟩
      exact ⟨h, h', hp⟩

theorem twf_iff [DecidableEq α] (d : α) (t : Tab α) :
    twf d t = true ↔ t.Pairwise (fun a b => a.1 < b.1) ∧ ∀ e ∈ t, e.2 ≠ d := by
  cases t with
  | nil => simp [twf]
  | cons e t =>
    obtain ⟨a, v⟩ := e
    simp only [twf, Bool.and_eq_true, decide_eq_true_eq, List.all_eq_true, tsorted_iff, List.pairwise_cons, List.mem_cons,
      forall_eq_or_imp]
    constructor
    · rintro ⟨⟨h, h1, h2⟩, h3⟩
      exact ⟨⟨h1, h2⟩, h, h3⟩
    · rintro ⟨⟨h1, h2⟩, h, h3⟩
      exact ⟨⟨h, h1, h2⟩, h3⟩

theorem twf_nil [DecidableEq α] (d : α) : twf d ([] : Tab α) = true := rfl

theorem twf_filter [DecidableEq α] (d : α) (t : Tab α) (p : Nat × α → Bool) (h : twf d t = true) : twf d (t.filter p) = true := by
  rw [twf_iff] at h ⊢
  exact ⟨h.1.sublist List.filter_sublist, fun e he => h.2 e (List.mem_filter.1 he).1⟩

theorem mem_tput (t : Tab α) (k : Nat) (v : α) (e : Nat × α) (h : e ∈ tput t k v) : e = (k, v) ∨ e ∈ t := by
  induction t with
  | nil => simpa [tput] using h
  | cons x t ih =>
    obtain ⟨a, w⟩ := x
    simp only [tput] at h
    split at h
    · simpa using h
    · split at h
      · rcases List.mem_cons.1 h with h | h
        · exact .inl h
        · exact .inr (List.mem_cons_of_mem _ h)
      · rcases List.mem_cons.1 h with h | h
        · exact .inr (h ▸ List.mem_cons_self)
        · exact (ih h).imp id (List.mem_cons_of_mem _)

theorem pairwise_tput (t : Tab α) (k : Nat) (v : α) (h : t.Pairwise (fun a b => a.1 < b.1)) :
    (tput t k v).Pairwise (fun a b => a.1 < b.1) := by
  induction t with
  | nil => simp [tput]
  | cons x t ih =>
    obtain ⟨a, w⟩ := x
    rw [List.pairwise_cons] at h
    simp only [tput]
    split
    · refine List.pairwise_cons.2 ⟨fun e he => ?_, List.pairwise_cons.2 h⟩
      rcases List.mem_cons.1 he with he | he
      · subst he; assumption
      · exact Nat.lt_trans ‹_› (h.1 e he)
    · split
      · subst_vars; exact List.pairwise_cons.2 h
      · refine List.pairwise_cons.2 ⟨fun e he => ?_, ih h.2⟩
        rcases mem_tput t k v e he with he | he
        · subst he; simp only; omega
        · exact h.1 e he

theorem tdel_sublist (t : Tab α) (k : Nat) : (tdel t k).Sublist t := by
  induction t with
  | nil => exact List.Sublist.slnil
  | cons x t ih =>
    obtain ⟨a, w⟩ := x
    simp only [tdel]
    split
    · exact ih.cons _
    · exact ih.cons_cons _

/-- Writing one key keeps the canonical form. -/
theorem twf_tset [DecidableEq α] (d : α) (t : Tab α) (k : Nat) (v : α) (h : twf d t = true) : twf d (tset d t k v) = true := by
  rw [twf_iff] at h ⊢
  unfold tset
  split
  · exact ⟨h.1.sublist (tdel_sublist t k), fun e he => h.2 e ((tdel_sublist t k).subset he)⟩
  · refine ⟨pairwise_tput t k v h.1, fun e he => ?_⟩
    rcases mem_tput t k v e he with he | he
    · subst he; assumption
    · exact h.2 e he

/-- A key that has been unlisted reads as the default. -/
theorem tfind_tdel_self (t : Tab α) (k : Nat) : tfind (tdel t k) k = none := by
  induction t with
  | nil => rfl
  | cons x t ih =>
    obtain ⟨a, w⟩ := x
    by_cases h1 : a = k
    · simp [tdel, h1, ih]
    · simp [tdel, h1, tfind, ih]

@[simp] theorem tget_tdel_self (d : α) (t : Tab α) (k : Nat) : tget d (tdel t k) k = d := by
  simp [tget, tfind_tdel_self]

/-- Reading a key after it was written. -/
@[simp] theorem tget_tset_self [DecidableEq α] (d : α) (t : Tab α) (k : Nat) (v : α) : tget d (tset d t k v) k = v := by
  unfold tset
  split
  · rename_i hv
    simp [hv]
  · exact tget_tput_self d t k v

end Sys2Proof
end

