-- ==== Sys2Proof/Laws/State.lean ====
section
/-! SUPPORT. One law for each field of State under each named update, and what the accessors answer after an update. -/

namespace Sys2Proof.Machine

/-! `State.setFib` changes `fibres` alone. -/

@[simp] theorem State.setFib_agenda (s : State) (k : Nat) (x : Fibre) : (s.setFib k x).agenda = s.agenda := rfl
@[simp] theorem State.setFib_evictions (s : State) (k : Nat) (x : Fibre) : (s.setFib k x).evictions = s.evictions := rfl
@[simp] theorem State.setFib_free (s : State) (k : Nat) (x : Fibre) : (s.setFib k x).free = s.free := rfl
@[simp] theorem State.setFib_dt (s : State) (k : Nat) (x : Fibre) : (s.setFib k x).dt = s.dt := rfl
@[simp] theorem State.setFib_redInU (s : State) (k : Nat) (x : Fibre) : (s.setFib k x).redInU = s.redInU := rfl
@[simp] theorem State.setFib_cur (s : State) (k : Nat) (x : Fibre) : (s.setFib k x).cur = s.cur := rfl
@[simp] theorem State.setFib_quarter (s : State) (k : Nat) (x : Fibre) : (s.setFib k x).quarter = s.quarter := rfl
@[simp] theorem State.setFib_feature (s : State) (k : Nat) (x : Fibre) : (s.setFib k x).feature = s.feature := rfl
@[simp] theorem State.setFib_clock (s : State) (k : Nat) (x : Fibre) : (s.setFib k x).clock = s.clock := rfl
@[simp] theorem State.setFib_mem (s : State) (k : Nat) (x : Fibre) : (s.setFib k x).mem = s.mem := rfl
@[simp] theorem State.setFib_poison (s : State) (k : Nat) (x : Fibre) : (s.setFib k x).poison = s.poison := rfl
@[simp] theorem State.setFib_hostMem (s : State) (k : Nat) (x : Fibre) : (s.setFib k x).hostMem = s.hostMem := rfl
@[simp] theorem State.setFib_peerMem (s : State) (k : Nat) (x : Fibre) : (s.setFib k x).peerMem = s.peerMem := rfl
@[simp] theorem State.setFib_net (s : State) (k : Nat) (x : Fibre) : (s.setFib k x).net = s.net := rfl
@[simp] theorem State.setFib_fibres (s : State) (k : Nat) (x : Fibre) : (s.setFib k x).fibres = tput s.fibres k x := rfl
@[simp] theorem State.setFib_slots (s : State) (k : Nat) (x : Fibre) : (s.setFib k x).slots = s.slots := rfl
@[simp] theorem State.setFib_wgs (s : State) (k : Nat) (x : Fibre) : (s.setFib k x).wgs = s.wgs := rfl
@[simp] theorem State.setFib_nextWg (s : State) (k : Nat) (x : Fibre) : (s.setFib k x).nextWg = s.nextWg := rfl
@[simp] theorem State.setFib_grids (s : State) (k : Nat) (x : Fibre) : (s.setFib k x).grids = s.grids := rfl
@[simp] theorem State.setFib_vds (s : State) (k : Nat) (x : Fibre) : (s.setFib k x).vds = s.vds := rfl
@[simp] theorem State.setFib_cores (s : State) (k : Nat) (x : Fibre) : (s.setFib k x).cores = s.cores := rfl
@[simp] theorem State.setFib_banks (s : State) (k : Nat) (x : Fibre) : (s.setFib k x).banks = s.banks := rfl
@[simp] theorem State.setFib_lastSlot (s : State) (k : Nat) (x : Fibre) : (s.setFib k x).lastSlot = s.lastSlot := rfl
@[simp] theorem State.setFib_xchg (s : State) (k : Nat) (x : Fibre) : (s.setFib k x).xchg = s.xchg := rfl
@[simp] theorem State.setFib_l0 (s : State) (k : Nat) (x : Fibre) : (s.setFib k x).l0 = s.l0 := rfl
@[simp] theorem State.setFib_cc (s : State) (k : Nat) (x : Fibre) : (s.setFib k x).cc = s.cc := rfl
@[simp] theorem State.setFib_l2 (s : State) (k : Nat) (x : Fibre) : (s.setFib k x).l2 = s.l2 := rfl
@[simp] theorem State.setFib_msc (s : State) (k : Nat) (x : Fibre) : (s.setFib k x).msc = s.msc := rfl
@[simp] theorem State.setFib_pmsc (s : State) (k : Nat) (x : Fibre) : (s.setFib k x).pmsc = s.pmsc := rfl
@[simp] theorem State.setFib_parErr (s : State) (k : Nat) (x : Fibre) : (s.setFib k x).parErr = s.parErr := rfl
@[simp] theorem State.setFib_icache (s : State) (k : Nat) (x : Fibre) : (s.setFib k x).icache = s.icache := rfl
@[simp] theorem State.setFib_waitAdds (s : State) (k : Nat) (x : Fibre) : (s.setFib k x).waitAdds = s.waitAdds := rfl
@[simp] theorem State.setFib_ucopies (s : State) (k : Nat) (x : Fibre) : (s.setFib k x).ucopies = s.ucopies := rfl
@[simp] theorem State.setFib_books (s : State) (k : Nat) (x : Fibre) : (s.setFib k x).books = s.books := rfl
@[simp] theorem State.setFib_drains (s : State) (k : Nat) (x : Fibre) : (s.setFib k x).drains = s.drains := rfl
@[simp] theorem State.setFib_shadows (s : State) (k : Nat) (x : Fibre) : (s.setFib k x).shadows = s.shadows := rfl
@[simp] theorem State.setFib_tlb (s : State) (k : Nat) (x : Fibre) : (s.setFib k x).tlb = s.tlb := rfl
@[simp] theorem State.setFib_walks (s : State) (k : Nat) (x : Fibre) : (s.setFib k x).walks = s.walks := rfl
@[simp] theorem State.setFib_cmds (s : State) (k : Nat) (x : Fibre) : (s.setFib k x).cmds = s.cmds := rfl
@[simp] theorem State.setFib_nextCmd (s : State) (k : Nat) (x : Fibre) : (s.setFib k x).nextCmd = s.nextCmd := rfl
@[simp] theorem State.setFib_collSeq (s : State) (k : Nat) (x : Fibre) : (s.setFib k x).collSeq = s.collSeq := rfl
@[simp] theorem State.setFib_collDone (s : State) (k : Nat) (x : Fibre) : (s.setFib k x).collDone = s.collDone := rfl
@[simp] theorem State.setFib_cpyzIn (s : State) (k : Nat) (x : Fibre) : (s.setFib k x).cpyzIn = s.cpyzIn := rfl
@[simp] theorem State.setFib_cpyzOut (s : State) (k : Nat) (x : Fibre) : (s.setFib k x).cpyzOut = s.cpyzOut := rfl
@[simp] theorem State.setFib_damask (s : State) (k : Nat) (x : Fibre) : (s.setFib k x).damask = s.damask := rfl
@[simp] theorem State.setFib_islandSel (s : State) (k : Nat) (x : Fibre) : (s.setFib k x).islandSel = s.islandSel := rfl
@[simp] theorem State.setFib_islandMhz (s : State) (k : Nat) (x : Fibre) : (s.setFib k x).islandMhz = s.islandMhz := rfl
@[simp] theorem State.setFib_islandNj (s : State) (k : Nat) (x : Fibre) : (s.setFib k x).islandNj = s.islandNj := rfl
@[simp] theorem State.setFib_budgetLeft (s : State) (k : Nat) (x : Fibre) : (s.setFib k x).budgetLeft = s.budgetLeft := rfl
@[simp] theorem State.setFib_deviceBudget (s : State) (k : Nat) (x : Fibre) : (s.setFib k x).deviceBudget = s.deviceBudget := rfl
@[simp] theorem State.setFib_windowFrom (s : State) (k : Nat) (x : Fibre) : (s.setFib k x).windowFrom = s.windowFrom := rfl
@[simp] theorem State.setFib_preemptTimeout (s : State) (k : Nat) (x : Fibre) : (s.setFib k x).preemptTimeout = s.preemptTimeout := rfl
@[simp] theorem State.setFib_rotation (s : State) (k : Nat) (x : Fibre) : (s.setFib k x).rotation = s.rotation := rfl
@[simp] theorem State.setFib_scanResults (s : State) (k : Nat) (x : Fibre) : (s.setFib k x).scanResults = s.scanResults := rfl
@[simp] theorem State.setFib_ports (s : State) (k : Nat) (x : Fibre) : (s.setFib k x).ports = s.ports := rfl
@[simp] theorem State.setFib_dead (s : State) (k : Nat) (x : Fibre) : (s.setFib k x).dead = s.dead := rfl
@[simp] theorem State.setFib_clusterMap (s : State) (k : Nat) (x : Fibre) : (s.setFib k x).clusterMap = s.clusterMap := rfl
@[simp] theorem State.setFib_fuseKeys (s : State) (k : Nat) (x : Fibre) : (s.setFib k x).fuseKeys = s.fuseKeys := rfl
@[simp] theorem State.setFib_keys (s : State) (k : Nat) (x : Fibre) : (s.setFib k x).keys = s.keys := rfl
@[simp] theorem State.setFib_measure (s : State) (k : Nat) (x : Fibre) : (s.setFib k x).measure = s.measure := rfl
@[simp] theorem State.setFib_firmware (s : State) (k : Nat) (x : Fibre) : (s.setFib k x).firmware = s.firmware := rfl
@[simp] theorem State.setFib_firmMap (s : State) (k : Nat) (x : Fibre) : (s.setFib k x).firmMap = s.firmMap := rfl
@[simp] theorem State.setFib_loadStatus (s : State) (k : Nat) (x : Fibre) : (s.setFib k x).loadStatus = s.loadStatus := rfl
@[simp] theorem State.setFib_spdm (s : State) (k : Nat) (x : Fibre) : (s.setFib k x).spdm = s.spdm := rfl
@[simp] theorem State.setFib_telemetry (s : State) (k : Nat) (x : Fibre) : (s.setFib k x).telemetry = s.telemetry := rfl

/-! `State.setSlot` changes `slots` alone. -/

@[simp] theorem State.setSlot_agenda (s : State) (k : Nat) (x : Slot) : (s.setSlot k x).agenda = s.agenda := rfl
@[simp] theorem State.setSlot_evictions (s : State) (k : Nat) (x : Slot) : (s.setSlot k x).evictions = s.evictions := rfl
@[simp] theorem State.setSlot_free (s : State) (k : Nat) (x : Slot) : (s.setSlot k x).free = s.free := rfl
@[simp] theorem State.setSlot_dt (s : State) (k : Nat) (x : Slot) : (s.setSlot k x).dt = s.dt := rfl
@[simp] theorem State.setSlot_redInU (s : State) (k : Nat) (x : Slot) : (s.setSlot k x).redInU = s.redInU := rfl
@[simp] theorem State.setSlot_cur (s : State) (k : Nat) (x : Slot) : (s.setSlot k x).cur = s.cur := rfl
@[simp] theorem State.setSlot_quarter (s : State) (k : Nat) (x : Slot) : (s.setSlot k x).quarter = s.quarter := rfl
@[simp] theorem State.setSlot_feature (s : State) (k : Nat) (x : Slot) : (s.setSlot k x).feature = s.feature := rfl
@[simp] theorem State.setSlot_clock (s : State) (k : Nat) (x : Slot) : (s.setSlot k x).clock = s.clock := rfl
@[simp] theorem State.setSlot_mem (s : State) (k : Nat) (x : Slot) : (s.setSlot k x).mem = s.mem := rfl
@[simp] theorem State.setSlot_poison (s : State) (k : Nat) (x : Slot) : (s.setSlot k x).poison = s.poison := rfl
@[simp] theorem State.setSlot_hostMem (s : State) (k : Nat) (x : Slot) : (s.setSlot k x).hostMem = s.hostMem := rfl
@[simp] theorem State.setSlot_peerMem (s : State) (k : Nat) (x : Slot) : (s.setSlot k x).peerMem = s.peerMem := rfl
@[simp] theorem State.setSlot_net (s : State) (k : Nat) (x : Slot) : (s.setSlot k x).net = s.net := rfl
@[simp] theorem State.setSlot_fibres (s : State) (k : Nat) (x : Slot) : (s.setSlot k x).fibres = s.fibres := rfl
@[simp] theorem State.setSlot_slots (s : State) (k : Nat) (x : Slot) : (s.setSlot k x).slots = tput s.slots k x := rfl
@[simp] theorem State.setSlot_wgs (s : State) (k : Nat) (x : Slot) : (s.setSlot k x).wgs = s.wgs := rfl
@[simp] theorem State.setSlot_nextWg (s : State) (k : Nat) (x : Slot) : (s.setSlot k x).nextWg = s.nextWg := rfl
@[simp] theorem State.setSlot_grids (s : State) (k : Nat) (x : Slot) : (s.setSlot k x).grids = s.grids := rfl
@[simp] theorem State.setSlot_vds (s : State) (k : Nat) (x : Slot) : (s.setSlot k x).vds = s.vds := rfl
@[simp] theorem State.setSlot_cores (s : State) (k : Nat) (x : Slot) : (s.setSlot k x).cores = s.cores := rfl
@[simp] theorem State.setSlot_banks (s : State) (k : Nat) (x : Slot) : (s.setSlot k x).banks = s.banks := rfl
@[simp] theorem State.setSlot_lastSlot (s : State) (k : Nat) (x : Slot) : (s.setSlot k x).lastSlot = s.lastSlot := rfl
@[simp] theorem State.setSlot_xchg (s : State) (k : Nat) (x : Slot) : (s.setSlot k x).xchg = s.xchg := rfl
@[simp] theorem State.setSlot_l0 (s : State) (k : Nat) (x : Slot) : (s.setSlot k x).l0 = s.l0 := rfl
@[simp] theorem State.setSlot_cc (s : State) (k : Nat) (x : Slot) : (s.setSlot k x).cc = s.cc := rfl
@[simp] theorem State.setSlot_l2 (s : State) (k : Nat) (x : Slot) : (s.setSlot k x).l2 = s.l2 := rfl
@[simp] theorem State.setSlot_msc (s : State) (k : Nat) (x : Slot) : (s.setSlot k x).msc = s.msc := rfl
@[simp] theorem State.setSlot_pmsc (s : State) (k : Nat) (x : Slot) : (s.setSlot k x).pmsc = s.pmsc := rfl
@[simp] theorem State.setSlot_parErr (s : State) (k : Nat) (x : Slot) : (s.setSlot k x).parErr = s.parErr := rfl
@[simp] theorem State.setSlot_icache (s : State) (k : Nat) (x : Slot) : (s.setSlot k x).icache = s.icache := rfl
@[simp] theorem State.setSlot_waitAdds (s : State) (k : Nat) (x : Slot) : (s.setSlot k x).waitAdds = s.waitAdds := rfl
@[simp] theorem State.setSlot_ucopies (s : State) (k : Nat) (x : Slot) : (s.setSlot k x).ucopies = s.ucopies := rfl
@[simp] theorem State.setSlot_books (s : State) (k : Nat) (x : Slot) : (s.setSlot k x).books = s.books := rfl
@[simp] theorem State.setSlot_drains (s : State) (k : Nat) (x : Slot) : (s.setSlot k x).drains = s.drains := rfl
@[simp] theorem State.setSlot_shadows (s : State) (k : Nat) (x : Slot) : (s.setSlot k x).shadows = s.shadows := rfl
@[simp] theorem State.setSlot_tlb (s : State) (k : Nat) (x : Slot) : (s.setSlot k x).tlb = s.tlb := rfl
@[simp] theorem State.setSlot_walks (s : State) (k : Nat) (x : Slot) : (s.setSlot k x).walks = s.walks := rfl
@[simp] theorem State.setSlot_cmds (s : State) (k : Nat) (x : Slot) : (s.setSlot k x).cmds = s.cmds := rfl
@[simp] theorem State.setSlot_nextCmd (s : State) (k : Nat) (x : Slot) : (s.setSlot k x).nextCmd = s.nextCmd := rfl
@[simp] theorem State.setSlot_collSeq (s : State) (k : Nat) (x : Slot) : (s.setSlot k x).collSeq = s.collSeq := rfl
@[simp] theorem State.setSlot_collDone (s : State) (k : Nat) (x : Slot) : (s.setSlot k x).collDone = s.collDone := rfl
@[simp] theorem State.setSlot_cpyzIn (s : State) (k : Nat) (x : Slot) : (s.setSlot k x).cpyzIn = s.cpyzIn := rfl
@[simp] theorem State.setSlot_cpyzOut (s : State) (k : Nat) (x : Slot) : (s.setSlot k x).cpyzOut = s.cpyzOut := rfl
@[simp] theorem State.setSlot_damask (s : State) (k : Nat) (x : Slot) : (s.setSlot k x).damask = s.damask := rfl
@[simp] theorem State.setSlot_islandSel (s : State) (k : Nat) (x : Slot) : (s.setSlot k x).islandSel = s.islandSel := rfl
@[simp] theorem State.setSlot_islandMhz (s : State) (k : Nat) (x : Slot) : (s.setSlot k x).islandMhz = s.islandMhz := rfl
@[simp] theorem State.setSlot_islandNj (s : State) (k : Nat) (x : Slot) : (s.setSlot k x).islandNj = s.islandNj := rfl
@[simp] theorem State.setSlot_budgetLeft (s : State) (k : Nat) (x : Slot) : (s.setSlot k x).budgetLeft = s.budgetLeft := rfl
@[simp] theorem State.setSlot_deviceBudget (s : State) (k : Nat) (x : Slot) : (s.setSlot k x).deviceBudget = s.deviceBudget := rfl
@[simp] theorem State.setSlot_windowFrom (s : State) (k : Nat) (x : Slot) : (s.setSlot k x).windowFrom = s.windowFrom := rfl
@[simp] theorem State.setSlot_preemptTimeout (s : State) (k : Nat) (x : Slot) : (s.setSlot k x).preemptTimeout = s.preemptTimeout := rfl
@[simp] theorem State.setSlot_rotation (s : State) (k : Nat) (x : Slot) : (s.setSlot k x).rotation = s.rotation := rfl
@[simp] theorem State.setSlot_scanResults (s : State) (k : Nat) (x : Slot) : (s.setSlot k x).scanResults = s.scanResults := rfl
@[simp] theorem State.setSlot_ports (s : State) (k : Nat) (x : Slot) : (s.setSlot k x).ports = s.ports := rfl
@[simp] theorem State.setSlot_dead (s : State) (k : Nat) (x : Slot) : (s.setSlot k x).dead = s.dead := rfl
@[simp] theorem State.setSlot_clusterMap (s : State) (k : Nat) (x : Slot) : (s.setSlot k x).clusterMap = s.clusterMap := rfl
@[simp] theorem State.setSlot_fuseKeys (s : State) (k : Nat) (x : Slot) : (s.setSlot k x).fuseKeys = s.fuseKeys := rfl
@[simp] theorem State.setSlot_keys (s : State) (k : Nat) (x : Slot) : (s.setSlot k x).keys = s.keys := rfl
@[simp] theorem State.setSlot_measure (s : State) (k : Nat) (x : Slot) : (s.setSlot k x).measure = s.measure := rfl
@[simp] theorem State.setSlot_firmware (s : State) (k : Nat) (x : Slot) : (s.setSlot k x).firmware = s.firmware := rfl
@[simp] theorem State.setSlot_firmMap (s : State) (k : Nat) (x : Slot) : (s.setSlot k x).firmMap = s.firmMap := rfl
@[simp] theorem State.setSlot_loadStatus (s : State) (k : Nat) (x : Slot) : (s.setSlot k x).loadStatus = s.loadStatus := rfl
@[simp] theorem State.setSlot_spdm (s : State) (k : Nat) (x : Slot) : (s.setSlot k x).spdm = s.spdm := rfl
@[simp] theorem State.setSlot_telemetry (s : State) (k : Nat) (x : Slot) : (s.setSlot k x).telemetry = s.telemetry := rfl

/-! `State.setWg` changes `wgs` alone. -/

@[simp] theorem State.setWg_agenda (s : State) (k : Nat) (x : Wg) : (s.setWg k x).agenda = s.agenda := rfl
@[simp] theorem State.setWg_evictions (s : State) (k : Nat) (x : Wg) : (s.setWg k x).evictions = s.evictions := rfl
@[simp] theorem State.setWg_free (s : State) (k : Nat) (x : Wg) : (s.setWg k x).free = s.free := rfl
@[simp] theorem State.setWg_dt (s : State) (k : Nat) (x : Wg) : (s.setWg k x).dt = s.dt := rfl
@[simp] theorem State.setWg_redInU (s : State) (k : Nat) (x : Wg) : (s.setWg k x).redInU = s.redInU := rfl
@[simp] theorem State.setWg_cur (s : State) (k : Nat) (x : Wg) : (s.setWg k x).cur = s.cur := rfl
@[simp] theorem State.setWg_quarter (s : State) (k : Nat) (x : Wg) : (s.setWg k x).quarter = s.quarter := rfl
@[simp] theorem State.setWg_feature (s : State) (k : Nat) (x : Wg) : (s.setWg k x).feature = s.feature := rfl
@[simp] theorem State.setWg_clock (s : State) (k : Nat) (x : Wg) : (s.setWg k x).clock = s.clock := rfl
@[simp] theorem State.setWg_mem (s : State) (k : Nat) (x : Wg) : (s.setWg k x).mem = s.mem := rfl
@[simp] theorem State.setWg_poison (s : State) (k : Nat) (x : Wg) : (s.setWg k x).poison = s.poison := rfl
@[simp] theorem State.setWg_hostMem (s : State) (k : Nat) (x : Wg) : (s.setWg k x).hostMem = s.hostMem := rfl
@[simp] theorem State.setWg_peerMem (s : State) (k : Nat) (x : Wg) : (s.setWg k x).peerMem = s.peerMem := rfl
@[simp] theorem State.setWg_net (s : State) (k : Nat) (x : Wg) : (s.setWg k x).net = s.net := rfl
@[simp] theorem State.setWg_fibres (s : State) (k : Nat) (x : Wg) : (s.setWg k x).fibres = s.fibres := rfl
@[simp] theorem State.setWg_slots (s : State) (k : Nat) (x : Wg) : (s.setWg k x).slots = s.slots := rfl
@[simp] theorem State.setWg_wgs (s : State) (k : Nat) (x : Wg) : (s.setWg k x).wgs = tput s.wgs k x := rfl
@[simp] theorem State.setWg_nextWg (s : State) (k : Nat) (x : Wg) : (s.setWg k x).nextWg = s.nextWg := rfl
@[simp] theorem State.setWg_grids (s : State) (k : Nat) (x : Wg) : (s.setWg k x).grids = s.grids := rfl
@[simp] theorem State.setWg_vds (s : State) (k : Nat) (x : Wg) : (s.setWg k x).vds = s.vds := rfl
@[simp] theorem State.setWg_cores (s : State) (k : Nat) (x : Wg) : (s.setWg k x).cores = s.cores := rfl
@[simp] theorem State.setWg_banks (s : State) (k : Nat) (x : Wg) : (s.setWg k x).banks = s.banks := rfl
@[simp] theorem State.setWg_lastSlot (s : State) (k : Nat) (x : Wg) : (s.setWg k x).lastSlot = s.lastSlot := rfl
@[simp] theorem State.setWg_xchg (s : State) (k : Nat) (x : Wg) : (s.setWg k x).xchg = s.xchg := rfl
@[simp] theorem State.setWg_l0 (s : State) (k : Nat) (x : Wg) : (s.setWg k x).l0 = s.l0 := rfl
@[simp] theorem State.setWg_cc (s : State) (k : Nat) (x : Wg) : (s.setWg k x).cc = s.cc := rfl
@[simp] theorem State.setWg_l2 (s : State) (k : Nat) (x : Wg) : (s.setWg k x).l2 = s.l2 := rfl
@[simp] theorem State.setWg_msc (s : State) (k : Nat) (x : Wg) : (s.setWg k x).msc = s.msc := rfl
@[simp] theorem State.setWg_pmsc (s : State) (k : Nat) (x : Wg) : (s.setWg k x).pmsc = s.pmsc := rfl
@[simp] theorem State.setWg_parErr (s : State) (k : Nat) (x : Wg) : (s.setWg k x).parErr = s.parErr := rfl
@[simp] theorem State.setWg_icache (s : State) (k : Nat) (x : Wg) : (s.setWg k x).icache = s.icache := rfl
@[simp] theorem State.setWg_waitAdds (s : State) (k : Nat) (x : Wg) : (s.setWg k x).waitAdds = s.waitAdds := rfl
@[simp] theorem State.setWg_ucopies (s : State) (k : Nat) (x : Wg) : (s.setWg k x).ucopies = s.ucopies := rfl
@[simp] theorem State.setWg_books (s : State) (k : Nat) (x : Wg) : (s.setWg k x).books = s.books := rfl
@[simp] theorem State.setWg_drains (s : State) (k : Nat) (x : Wg) : (s.setWg k x).drains = s.drains := rfl
@[simp] theorem State.setWg_shadows (s : State) (k : Nat) (x : Wg) : (s.setWg k x).shadows = s.shadows := rfl
@[simp] theorem State.setWg_tlb (s : State) (k : Nat) (x : Wg) : (s.setWg k x).tlb = s.tlb := rfl
@[simp] theorem State.setWg_walks (s : State) (k : Nat) (x : Wg) : (s.setWg k x).walks = s.walks := rfl
@[simp] theorem State.setWg_cmds (s : State) (k : Nat) (x : Wg) : (s.setWg k x).cmds = s.cmds := rfl
@[simp] theorem State.setWg_nextCmd (s : State) (k : Nat) (x : Wg) : (s.setWg k x).nextCmd = s.nextCmd := rfl
@[simp] theorem State.setWg_collSeq (s : State) (k : Nat) (x : Wg) : (s.setWg k x).collSeq = s.collSeq := rfl
@[simp] theorem State.setWg_collDone (s : State) (k : Nat) (x : Wg) : (s.setWg k x).collDone = s.collDone := rfl
@[simp] theorem State.setWg_cpyzIn (s : State) (k : Nat) (x : Wg) : (s.setWg k x).cpyzIn = s.cpyzIn := rfl
@[simp] theorem State.setWg_cpyzOut (s : State) (k : Nat) (x : Wg) : (s.setWg k x).cpyzOut = s.cpyzOut := rfl
@[simp] theorem State.setWg_damask (s : State) (k : Nat) (x : Wg) : (s.setWg k x).damask = s.damask := rfl
@[simp] theorem State.setWg_islandSel (s : State) (k : Nat) (x : Wg) : (s.setWg k x).islandSel = s.islandSel := rfl
@[simp] theorem State.setWg_islandMhz (s : State) (k : Nat) (x : Wg) : (s.setWg k x).islandMhz = s.islandMhz := rfl
@[simp] theorem State.setWg_islandNj (s : State) (k : Nat) (x : Wg) : (s.setWg k x).islandNj = s.islandNj := rfl
@[simp] theorem State.setWg_budgetLeft (s : State) (k : Nat) (x : Wg) : (s.setWg k x).budgetLeft = s.budgetLeft := rfl
@[simp] theorem State.setWg_deviceBudget (s : State) (k : Nat) (x : Wg) : (s.setWg k x).deviceBudget = s.deviceBudget := rfl
@[simp] theorem State.setWg_windowFrom (s : State) (k : Nat) (x : Wg) : (s.setWg k x).windowFrom = s.windowFrom := rfl
@[simp] theorem State.setWg_preemptTimeout (s : State) (k : Nat) (x : Wg) : (s.setWg k x).preemptTimeout = s.preemptTimeout := rfl
@[simp] theorem State.setWg_rotation (s : State) (k : Nat) (x : Wg) : (s.setWg k x).rotation = s.rotation := rfl
@[simp] theorem State.setWg_scanResults (s : State) (k : Nat) (x : Wg) : (s.setWg k x).scanResults = s.scanResults := rfl
@[simp] theorem State.setWg_ports (s : State) (k : Nat) (x : Wg) : (s.setWg k x).ports = s.ports := rfl
@[simp] theorem State.setWg_dead (s : State) (k : Nat) (x : Wg) : (s.setWg k x).dead = s.dead := rfl
@[simp] theorem State.setWg_clusterMap (s : State) (k : Nat) (x : Wg) : (s.setWg k x).clusterMap = s.clusterMap := rfl
@[simp] theorem State.setWg_fuseKeys (s : State) (k : Nat) (x : Wg) : (s.setWg k x).fuseKeys = s.fuseKeys := rfl
@[simp] theorem State.setWg_keys (s : State) (k : Nat) (x : Wg) : (s.setWg k x).keys = s.keys := rfl
@[simp] theorem State.setWg_measure (s : State) (k : Nat) (x : Wg) : (s.setWg k x).measure = s.measure := rfl
@[simp] theorem State.setWg_firmware (s : State) (k : Nat) (x : Wg) : (s.setWg k x).firmware = s.firmware := rfl
@[simp] theorem State.setWg_firmMap (s : State) (k : Nat) (x : Wg) : (s.setWg k x).firmMap = s.firmMap := rfl
@[simp] theorem State.setWg_loadStatus (s : State) (k : Nat) (x : Wg) : (s.setWg k x).loadStatus = s.loadStatus := rfl
@[simp] theorem State.setWg_spdm (s : State) (k : Nat) (x : Wg) : (s.setWg k x).spdm = s.spdm := rfl
@[simp] theorem State.setWg_telemetry (s : State) (k : Nat) (x : Wg) : (s.setWg k x).telemetry = s.telemetry := rfl

/-! `State.setVd` changes `vds` alone. -/

@[simp] theorem State.setVd_agenda (s : State) (k : Nat) (x : Vd) : (s.setVd k x).agenda = s.agenda := rfl
@[simp] theorem State.setVd_evictions (s : State) (k : Nat) (x : Vd) : (s.setVd k x).evictions = s.evictions := rfl
@[simp] theorem State.setVd_free (s : State) (k : Nat) (x : Vd) : (s.setVd k x).free = s.free := rfl
@[simp] theorem State.setVd_dt (s : State) (k : Nat) (x : Vd) : (s.setVd k x).dt = s.dt := rfl
@[simp] theorem State.setVd_redInU (s : State) (k : Nat) (x : Vd) : (s.setVd k x).redInU = s.redInU := rfl
@[simp] theorem State.setVd_cur (s : State) (k : Nat) (x : Vd) : (s.setVd k x).cur = s.cur := rfl
@[simp] theorem State.setVd_quarter (s : State) (k : Nat) (x : Vd) : (s.setVd k x).quarter = s.quarter := rfl
@[simp] theorem State.setVd_feature (s : State) (k : Nat) (x : Vd) : (s.setVd k x).feature = s.feature := rfl
@[simp] theorem State.setVd_clock (s : State) (k : Nat) (x : Vd) : (s.setVd k x).clock = s.clock := rfl
@[simp] theorem State.setVd_mem (s : State) (k : Nat) (x : Vd) : (s.setVd k x).mem = s.mem := rfl
@[simp] theorem State.setVd_poison (s : State) (k : Nat) (x : Vd) : (s.setVd k x).poison = s.poison := rfl
@[simp] theorem State.setVd_hostMem (s : State) (k : Nat) (x : Vd) : (s.setVd k x).hostMem = s.hostMem := rfl
@[simp] theorem State.setVd_peerMem (s : State) (k : Nat) (x : Vd) : (s.setVd k x).peerMem = s.peerMem := rfl
@[simp] theorem State.setVd_net (s : State) (k : Nat) (x : Vd) : (s.setVd k x).net = s.net := rfl
@[simp] theorem State.setVd_fibres (s : State) (k : Nat) (x : Vd) : (s.setVd k x).fibres = s.fibres := rfl
@[simp] theorem State.setVd_slots (s : State) (k : Nat) (x : Vd) : (s.setVd k x).slots = s.slots := rfl
@[simp] theorem State.setVd_wgs (s : State) (k : Nat) (x : Vd) : (s.setVd k x).wgs = s.wgs := rfl
@[simp] theorem State.setVd_nextWg (s : State) (k : Nat) (x : Vd) : (s.setVd k x).nextWg = s.nextWg := rfl
@[simp] theorem State.setVd_grids (s : State) (k : Nat) (x : Vd) : (s.setVd k x).grids = s.grids := rfl
@[simp] theorem State.setVd_vds (s : State) (k : Nat) (x : Vd) : (s.setVd k x).vds = tput s.vds k x := rfl
@[simp] theorem State.setVd_cores (s : State) (k : Nat) (x : Vd) : (s.setVd k x).cores = s.cores := rfl
@[simp] theorem State.setVd_banks (s : State) (k : Nat) (x : Vd) : (s.setVd k x).banks = s.banks := rfl
@[simp] theorem State.setVd_lastSlot (s : State) (k : Nat) (x : Vd) : (s.setVd k x).lastSlot = s.lastSlot := rfl
@[simp] theorem State.setVd_xchg (s : State) (k : Nat) (x : Vd) : (s.setVd k x).xchg = s.xchg := rfl
@[simp] theorem State.setVd_l0 (s : State) (k : Nat) (x : Vd) : (s.setVd k x).l0 = s.l0 := rfl
@[simp] theorem State.setVd_cc (s : State) (k : Nat) (x : Vd) : (s.setVd k x).cc = s.cc := rfl
@[simp] theorem State.setVd_l2 (s : State) (k : Nat) (x : Vd) : (s.setVd k x).l2 = s.l2 := rfl
@[simp] theorem State.setVd_msc (s : State) (k : Nat) (x : Vd) : (s.setVd k x).msc = s.msc := rfl
@[simp] theorem State.setVd_pmsc (s : State) (k : Nat) (x : Vd) : (s.setVd k x).pmsc = s.pmsc := rfl
@[simp] theorem State.setVd_parErr (s : State) (k : Nat) (x : Vd) : (s.setVd k x).parErr = s.parErr := rfl
@[simp] theorem State.setVd_icache (s : State) (k : Nat) (x : Vd) : (s.setVd k x).icache = s.icache := rfl
@[simp] theorem State.setVd_waitAdds (s : State) (k : Nat) (x : Vd) : (s.setVd k x).waitAdds = s.waitAdds := rfl
@[simp] theorem State.setVd_ucopies (s : State) (k : Nat) (x : Vd) : (s.setVd k x).ucopies = s.ucopies := rfl
@[simp] theorem State.setVd_books (s : State) (k : Nat) (x : Vd) : (s.setVd k x).books = s.books := rfl
@[simp] theorem State.setVd_drains (s : State) (k : Nat) (x : Vd) : (s.setVd k x).drains = s.drains := rfl
@[simp] theorem State.setVd_shadows (s : State) (k : Nat) (x : Vd) : (s.setVd k x).shadows = s.shadows := rfl
@[simp] theorem State.setVd_tlb (s : State) (k : Nat) (x : Vd) : (s.setVd k x).tlb = s.tlb := rfl
@[simp] theorem State.setVd_walks (s : State) (k : Nat) (x : Vd) : (s.setVd k x).walks = s.walks := rfl
@[simp] theorem State.setVd_cmds (s : State) (k : Nat) (x : Vd) : (s.setVd k x).cmds = s.cmds := rfl
@[simp] theorem State.setVd_nextCmd (s : State) (k : Nat) (x : Vd) : (s.setVd k x).nextCmd = s.nextCmd := rfl
@[simp] theorem State.setVd_collSeq (s : State) (k : Nat) (x : Vd) : (s.setVd k x).collSeq = s.collSeq := rfl
@[simp] theorem State.setVd_collDone (s : State) (k : Nat) (x : Vd) : (s.setVd k x).collDone = s.collDone := rfl
@[simp] theorem State.setVd_cpyzIn (s : State) (k : Nat) (x : Vd) : (s.setVd k x).cpyzIn = s.cpyzIn := rfl
@[simp] theorem State.setVd_cpyzOut (s : State) (k : Nat) (x : Vd) : (s.setVd k x).cpyzOut = s.cpyzOut := rfl
@[simp] theorem State.setVd_damask (s : State) (k : Nat) (x : Vd) : (s.setVd k x).damask = s.damask := rfl
@[simp] theorem State.setVd_islandSel (s : State) (k : Nat) (x : Vd) : (s.setVd k x).islandSel = s.islandSel := rfl
@[simp] theorem State.setVd_islandMhz (s : State) (k : Nat) (x : Vd) : (s.setVd k x).islandMhz = s.islandMhz := rfl
@[simp] theorem State.setVd_islandNj (s : State) (k : Nat) (x : Vd) : (s.setVd k x).islandNj = s.islandNj := rfl
@[simp] theorem State.setVd_budgetLeft (s : State) (k : Nat) (x : Vd) : (s.setVd k x).budgetLeft = s.budgetLeft := rfl
@[simp] theorem State.setVd_deviceBudget (s : State) (k : Nat) (x : Vd) : (s.setVd k x).deviceBudget = s.deviceBudget := rfl
@[simp] theorem State.setVd_windowFrom (s : State) (k : Nat) (x : Vd) : (s.setVd k x).windowFrom = s.windowFrom := rfl
@[simp] theorem State.setVd_preemptTimeout (s : State) (k : Nat) (x : Vd) : (s.setVd k x).preemptTimeout = s.preemptTimeout := rfl
@[simp] theorem State.setVd_rotation (s : State) (k : Nat) (x : Vd) : (s.setVd k x).rotation = s.rotation := rfl
@[simp] theorem State.setVd_scanResults (s : State) (k : Nat) (x : Vd) : (s.setVd k x).scanResults = s.scanResults := rfl
@[simp] theorem State.setVd_ports (s : State) (k : Nat) (x : Vd) : (s.setVd k x).ports = s.ports := rfl
@[simp] theorem State.setVd_dead (s : State) (k : Nat) (x : Vd) : (s.setVd k x).dead = s.dead := rfl
@[simp] theorem State.setVd_clusterMap (s : State) (k : Nat) (x : Vd) : (s.setVd k x).clusterMap = s.clusterMap := rfl
@[simp] theorem State.setVd_fuseKeys (s : State) (k : Nat) (x : Vd) : (s.setVd k x).fuseKeys = s.fuseKeys := rfl
@[simp] theorem State.setVd_keys (s : State) (k : Nat) (x : Vd) : (s.setVd k x).keys = s.keys := rfl
@[simp] theorem State.setVd_measure (s : State) (k : Nat) (x : Vd) : (s.setVd k x).measure = s.measure := rfl
@[simp] theorem State.setVd_firmware (s : State) (k : Nat) (x : Vd) : (s.setVd k x).firmware = s.firmware := rfl
@[simp] theorem State.setVd_firmMap (s : State) (k : Nat) (x : Vd) : (s.setVd k x).firmMap = s.firmMap := rfl
@[simp] theorem State.setVd_loadStatus (s : State) (k : Nat) (x : Vd) : (s.setVd k x).loadStatus = s.loadStatus := rfl
@[simp] theorem State.setVd_spdm (s : State) (k : Nat) (x : Vd) : (s.setVd k x).spdm = s.spdm := rfl
@[simp] theorem State.setVd_telemetry (s : State) (k : Nat) (x : Vd) : (s.setVd k x).telemetry = s.telemetry := rfl

/-! `State.setCore` changes `cores` alone. -/

@[simp] theorem State.setCore_agenda (s : State) (k : Nat) (x : Core) : (s.setCore k x).agenda = s.agenda := rfl
@[simp] theorem State.setCore_evictions (s : State) (k : Nat) (x : Core) : (s.setCore k x).evictions = s.evictions := rfl
@[simp] theorem State.setCore_free (s : State) (k : Nat) (x : Core) : (s.setCore k x).free = s.free := rfl
@[simp] theorem State.setCore_dt (s : State) (k : Nat) (x : Core) : (s.setCore k x).dt = s.dt := rfl
@[simp] theorem State.setCore_redInU (s : State) (k : Nat) (x : Core) : (s.setCore k x).redInU = s.redInU := rfl
@[simp] theorem State.setCore_cur (s : State) (k : Nat) (x : Core) : (s.setCore k x).cur = s.cur := rfl
@[simp] theorem State.setCore_quarter (s : State) (k : Nat) (x : Core) : (s.setCore k x).quarter = s.quarter := rfl
@[simp] theorem State.setCore_feature (s : State) (k : Nat) (x : Core) : (s.setCore k x).feature = s.feature := rfl
@[simp] theorem State.setCore_clock (s : State) (k : Nat) (x : Core) : (s.setCore k x).clock = s.clock := rfl
@[simp] theorem State.setCore_mem (s : State) (k : Nat) (x : Core) : (s.setCore k x).mem = s.mem := rfl
@[simp] theorem State.setCore_poison (s : State) (k : Nat) (x : Core) : (s.setCore k x).poison = s.poison := rfl
@[simp] theorem State.setCore_hostMem (s : State) (k : Nat) (x : Core) : (s.setCore k x).hostMem = s.hostMem := rfl
@[simp] theorem State.setCore_peerMem (s : State) (k : Nat) (x : Core) : (s.setCore k x).peerMem = s.peerMem := rfl
@[simp] theorem State.setCore_net (s : State) (k : Nat) (x : Core) : (s.setCore k x).net = s.net := rfl
@[simp] theorem State.setCore_fibres (s : State) (k : Nat) (x : Core) : (s.setCore k x).fibres = s.fibres := rfl
@[simp] theorem State.setCore_slots (s : State) (k : Nat) (x : Core) : (s.setCore k x).slots = s.slots := rfl
@[simp] theorem State.setCore_wgs (s : State) (k : Nat) (x : Core) : (s.setCore k x).wgs = s.wgs := rfl
@[simp] theorem State.setCore_nextWg (s : State) (k : Nat) (x : Core) : (s.setCore k x).nextWg = s.nextWg := rfl
@[simp] theorem State.setCore_grids (s : State) (k : Nat) (x : Core) : (s.setCore k x).grids = s.grids := rfl
@[simp] theorem State.setCore_vds (s : State) (k : Nat) (x : Core) : (s.setCore k x).vds = s.vds := rfl
@[simp] theorem State.setCore_cores (s : State) (k : Nat) (x : Core) : (s.setCore k x).cores = tput s.cores k x := rfl
@[simp] theorem State.setCore_banks (s : State) (k : Nat) (x : Core) : (s.setCore k x).banks = s.banks := rfl
@[simp] theorem State.setCore_lastSlot (s : State) (k : Nat) (x : Core) : (s.setCore k x).lastSlot = s.lastSlot := rfl
@[simp] theorem State.setCore_xchg (s : State) (k : Nat) (x : Core) : (s.setCore k x).xchg = s.xchg := rfl
@[simp] theorem State.setCore_l0 (s : State) (k : Nat) (x : Core) : (s.setCore k x).l0 = s.l0 := rfl
@[simp] theorem State.setCore_cc (s : State) (k : Nat) (x : Core) : (s.setCore k x).cc = s.cc := rfl
@[simp] theorem State.setCore_l2 (s : State) (k : Nat) (x : Core) : (s.setCore k x).l2 = s.l2 := rfl
@[simp] theorem State.setCore_msc (s : State) (k : Nat) (x : Core) : (s.setCore k x).msc = s.msc := rfl
@[simp] theorem State.setCore_pmsc (s : State) (k : Nat) (x : Core) : (s.setCore k x).pmsc = s.pmsc := rfl
@[simp] theorem State.setCore_parErr (s : State) (k : Nat) (x : Core) : (s.setCore k x).parErr = s.parErr := rfl
@[simp] theorem State.setCore_icache (s : State) (k : Nat) (x : Core) : (s.setCore k x).icache = s.icache := rfl
@[simp] theorem State.setCore_waitAdds (s : State) (k : Nat) (x : Core) : (s.setCore k x).waitAdds = s.waitAdds := rfl
@[simp] theorem State.setCore_ucopies (s : State) (k : Nat) (x : Core) : (s.setCore k x).ucopies = s.ucopies := rfl
@[simp] theorem State.setCore_books (s : State) (k : Nat) (x : Core) : (s.setCore k x).books = s.books := rfl
@[simp] theorem State.setCore_drains (s : State) (k : Nat) (x : Core) : (s.setCore k x).drains = s.drains := rfl
@[simp] theorem State.setCore_shadows (s : State) (k : Nat) (x : Core) : (s.setCore k x).shadows = s.shadows := rfl
@[simp] theorem State.setCore_tlb (s : State) (k : Nat) (x : Core) : (s.setCore k x).tlb = s.tlb := rfl
@[simp] theorem State.setCore_walks (s : State) (k : Nat) (x : Core) : (s.setCore k x).walks = s.walks := rfl
@[simp] theorem State.setCore_cmds (s : State) (k : Nat) (x : Core) : (s.setCore k x).cmds = s.cmds := rfl
@[simp] theorem State.setCore_nextCmd (s : State) (k : Nat) (x : Core) : (s.setCore k x).nextCmd = s.nextCmd := rfl
@[simp] theorem State.setCore_collSeq (s : State) (k : Nat) (x : Core) : (s.setCore k x).collSeq = s.collSeq := rfl
@[simp] theorem State.setCore_collDone (s : State) (k : Nat) (x : Core) : (s.setCore k x).collDone = s.collDone := rfl
@[simp] theorem State.setCore_cpyzIn (s : State) (k : Nat) (x : Core) : (s.setCore k x).cpyzIn = s.cpyzIn := rfl
@[simp] theorem State.setCore_cpyzOut (s : State) (k : Nat) (x : Core) : (s.setCore k x).cpyzOut = s.cpyzOut := rfl
@[simp] theorem State.setCore_damask (s : State) (k : Nat) (x : Core) : (s.setCore k x).damask = s.damask := rfl
@[simp] theorem State.setCore_islandSel (s : State) (k : Nat) (x : Core) : (s.setCore k x).islandSel = s.islandSel := rfl
@[simp] theorem State.setCore_islandMhz (s : State) (k : Nat) (x : Core) : (s.setCore k x).islandMhz = s.islandMhz := rfl
@[simp] theorem State.setCore_islandNj (s : State) (k : Nat) (x : Core) : (s.setCore k x).islandNj = s.islandNj := rfl
@[simp] theorem State.setCore_budgetLeft (s : State) (k : Nat) (x : Core) : (s.setCore k x).budgetLeft = s.budgetLeft := rfl
@[simp] theorem State.setCore_deviceBudget (s : State) (k : Nat) (x : Core) : (s.setCore k x).deviceBudget = s.deviceBudget := rfl
@[simp] theorem State.setCore_windowFrom (s : State) (k : Nat) (x : Core) : (s.setCore k x).windowFrom = s.windowFrom := rfl
@[simp] theorem State.setCore_preemptTimeout (s : State) (k : Nat) (x : Core) : (s.setCore k x).preemptTimeout = s.preemptTimeout := rfl
@[simp] theorem State.setCore_rotation (s : State) (k : Nat) (x : Core) : (s.setCore k x).rotation = s.rotation := rfl
@[simp] theorem State.setCore_scanResults (s : State) (k : Nat) (x : Core) : (s.setCore k x).scanResults = s.scanResults := rfl
@[simp] theorem State.setCore_ports (s : State) (k : Nat) (x : Core) : (s.setCore k x).ports = s.ports := rfl
@[simp] theorem State.setCore_dead (s : State) (k : Nat) (x : Core) : (s.setCore k x).dead = s.dead := rfl
@[simp] theorem State.setCore_clusterMap (s : State) (k : Nat) (x : Core) : (s.setCore k x).clusterMap = s.clusterMap := rfl
@[simp] theorem State.setCore_fuseKeys (s : State) (k : Nat) (x : Core) : (s.setCore k x).fuseKeys = s.fuseKeys := rfl
@[simp] theorem State.setCore_keys (s : State) (k : Nat) (x : Core) : (s.setCore k x).keys = s.keys := rfl
@[simp] theorem State.setCore_measure (s : State) (k : Nat) (x : Core) : (s.setCore k x).measure = s.measure := rfl
@[simp] theorem State.setCore_firmware (s : State) (k : Nat) (x : Core) : (s.setCore k x).firmware = s.firmware := rfl
@[simp] theorem State.setCore_firmMap (s : State) (k : Nat) (x : Core) : (s.setCore k x).firmMap = s.firmMap := rfl
@[simp] theorem State.setCore_loadStatus (s : State) (k : Nat) (x : Core) : (s.setCore k x).loadStatus = s.loadStatus := rfl
@[simp] theorem State.setCore_spdm (s : State) (k : Nat) (x : Core) : (s.setCore k x).spdm = s.spdm := rfl
@[simp] theorem State.setCore_telemetry (s : State) (k : Nat) (x : Core) : (s.setCore k x).telemetry = s.telemetry := rfl

/-! `State.setBank` changes `banks` alone. -/

@[simp] theorem State.setBank_agenda (s : State) (k : Nat) (x : Bank) : (s.setBank k x).agenda = s.agenda := rfl
@[simp] theorem State.setBank_evictions (s : State) (k : Nat) (x : Bank) : (s.setBank k x).evictions = s.evictions := rfl
@[simp] theorem State.setBank_free (s : State) (k : Nat) (x : Bank) : (s.setBank k x).free = s.free := rfl
@[simp] theorem State.setBank_dt (s : State) (k : Nat) (x : Bank) : (s.setBank k x).dt = s.dt := rfl
@[simp] theorem State.setBank_redInU (s : State) (k : Nat) (x : Bank) : (s.setBank k x).redInU = s.redInU := rfl
@[simp] theorem State.setBank_cur (s : State) (k : Nat) (x : Bank) : (s.setBank k x).cur = s.cur := rfl
@[simp] theorem State.setBank_quarter (s : State) (k : Nat) (x : Bank) : (s.setBank k x).quarter = s.quarter := rfl
@[simp] theorem State.setBank_feature (s : State) (k : Nat) (x : Bank) : (s.setBank k x).feature = s.feature := rfl
@[simp] theorem State.setBank_clock (s : State) (k : Nat) (x : Bank) : (s.setBank k x).clock = s.clock := rfl
@[simp] theorem State.setBank_mem (s : State) (k : Nat) (x : Bank) : (s.setBank k x).mem = s.mem := rfl
@[simp] theorem State.setBank_poison (s : State) (k : Nat) (x : Bank) : (s.setBank k x).poison = s.poison := rfl
@[simp] theorem State.setBank_hostMem (s : State) (k : Nat) (x : Bank) : (s.setBank k x).hostMem = s.hostMem := rfl
@[simp] theorem State.setBank_peerMem (s : State) (k : Nat) (x : Bank) : (s.setBank k x).peerMem = s.peerMem := rfl
@[simp] theorem State.setBank_net (s : State) (k : Nat) (x : Bank) : (s.setBank k x).net = s.net := rfl
@[simp] theorem State.setBank_fibres (s : State) (k : Nat) (x : Bank) : (s.setBank k x).fibres = s.fibres := rfl
@[simp] theorem State.setBank_slots (s : State) (k : Nat) (x : Bank) : (s.setBank k x).slots = s.slots := rfl
@[simp] theorem State.setBank_wgs (s : State) (k : Nat) (x : Bank) : (s.setBank k x).wgs = s.wgs := rfl
@[simp] theorem State.setBank_nextWg (s : State) (k : Nat) (x : Bank) : (s.setBank k x).nextWg = s.nextWg := rfl
@[simp] theorem State.setBank_grids (s : State) (k : Nat) (x : Bank) : (s.setBank k x).grids = s.grids := rfl
@[simp] theorem State.setBank_vds (s : State) (k : Nat) (x : Bank) : (s.setBank k x).vds = s.vds := rfl
@[simp] theorem State.setBank_cores (s : State) (k : Nat) (x : Bank) : (s.setBank k x).cores = s.cores := rfl
@[simp] theorem State.setBank_banks (s : State) (k : Nat) (x : Bank) : (s.setBank k x).banks = tput s.banks k x := rfl
@[simp] theorem State.setBank_lastSlot (s : State) (k : Nat) (x : Bank) : (s.setBank k x).lastSlot = s.lastSlot := rfl
@[simp] theorem State.setBank_xchg (s : State) (k : Nat) (x : Bank) : (s.setBank k x).xchg = s.xchg := rfl
@[simp] theorem State.setBank_l0 (s : State) (k : Nat) (x : Bank) : (s.setBank k x).l0 = s.l0 := rfl
@[simp] theorem State.setBank_cc (s : State) (k : Nat) (x : Bank) : (s.setBank k x).cc = s.cc := rfl
@[simp] theorem State.setBank_l2 (s : State) (k : Nat) (x : Bank) : (s.setBank k x).l2 = s.l2 := rfl
@[simp] theorem State.setBank_msc (s : State) (k : Nat) (x : Bank) : (s.setBank k x).msc = s.msc := rfl
@[simp] theorem State.setBank_pmsc (s : State) (k : Nat) (x : Bank) : (s.setBank k x).pmsc = s.pmsc := rfl
@[simp] theorem State.setBank_parErr (s : State) (k : Nat) (x : Bank) : (s.setBank k x).parErr = s.parErr := rfl
@[simp] theorem State.setBank_icache (s : State) (k : Nat) (x : Bank) : (s.setBank k x).icache = s.icache := rfl
@[simp] theorem State.setBank_waitAdds (s : State) (k : Nat) (x : Bank) : (s.setBank k x).waitAdds = s.waitAdds := rfl
@[simp] theorem State.setBank_ucopies (s : State) (k : Nat) (x : Bank) : (s.setBank k x).ucopies = s.ucopies := rfl
@[simp] theorem State.setBank_books (s : State) (k : Nat) (x : Bank) : (s.setBank k x).books = s.books := rfl
@[simp] theorem State.setBank_drains (s : State) (k : Nat) (x : Bank) : (s.setBank k x).drains = s.drains := rfl
@[simp] theorem State.setBank_shadows (s : State) (k : Nat) (x : Bank) : (s.setBank k x).shadows = s.shadows := rfl
@[simp] theorem State.setBank_tlb (s : State) (k : Nat) (x : Bank) : (s.setBank k x).tlb = s.tlb := rfl
@[simp] theorem State.setBank_walks (s : State) (k : Nat) (x : Bank) : (s.setBank k x).walks = s.walks := rfl
@[simp] theorem State.setBank_cmds (s : State) (k : Nat) (x : Bank) : (s.setBank k x).cmds = s.cmds := rfl
@[simp] theorem State.setBank_nextCmd (s : State) (k : Nat) (x : Bank) : (s.setBank k x).nextCmd = s.nextCmd := rfl
@[simp] theorem State.setBank_collSeq (s : State) (k : Nat) (x : Bank) : (s.setBank k x).collSeq = s.collSeq := rfl
@[simp] theorem State.setBank_collDone (s : State) (k : Nat) (x : Bank) : (s.setBank k x).collDone = s.collDone := rfl
@[simp] theorem State.setBank_cpyzIn (s : State) (k : Nat) (x : Bank) : (s.setBank k x).cpyzIn = s.cpyzIn := rfl
@[simp] theorem State.setBank_cpyzOut (s : State) (k : Nat) (x : Bank) : (s.setBank k x).cpyzOut = s.cpyzOut := rfl
@[simp] theorem State.setBank_damask (s : State) (k : Nat) (x : Bank) : (s.setBank k x).damask = s.damask := rfl
@[simp] theorem State.setBank_islandSel (s : State) (k : Nat) (x : Bank) : (s.setBank k x).islandSel = s.islandSel := rfl
@[simp] theorem State.setBank_islandMhz (s : State) (k : Nat) (x : Bank) : (s.setBank k x).islandMhz = s.islandMhz := rfl
@[simp] theorem State.setBank_islandNj (s : State) (k : Nat) (x : Bank) : (s.setBank k x).islandNj = s.islandNj := rfl
@[simp] theorem State.setBank_budgetLeft (s : State) (k : Nat) (x : Bank) : (s.setBank k x).budgetLeft = s.budgetLeft := rfl
@[simp] theorem State.setBank_deviceBudget (s : State) (k : Nat) (x : Bank) : (s.setBank k x).deviceBudget = s.deviceBudget := rfl
@[simp] theorem State.setBank_windowFrom (s : State) (k : Nat) (x : Bank) : (s.setBank k x).windowFrom = s.windowFrom := rfl
@[simp] theorem State.setBank_preemptTimeout (s : State) (k : Nat) (x : Bank) : (s.setBank k x).preemptTimeout = s.preemptTimeout := rfl
@[simp] theorem State.setBank_rotation (s : State) (k : Nat) (x : Bank) : (s.setBank k x).rotation = s.rotation := rfl
@[simp] theorem State.setBank_scanResults (s : State) (k : Nat) (x : Bank) : (s.setBank k x).scanResults = s.scanResults := rfl
@[simp] theorem State.setBank_ports (s : State) (k : Nat) (x : Bank) : (s.setBank k x).ports = s.ports := rfl
@[simp] theorem State.setBank_dead (s : State) (k : Nat) (x : Bank) : (s.setBank k x).dead = s.dead := rfl
@[simp] theorem State.setBank_clusterMap (s : State) (k : Nat) (x : Bank) : (s.setBank k x).clusterMap = s.clusterMap := rfl
@[simp] theorem State.setBank_fuseKeys (s : State) (k : Nat) (x : Bank) : (s.setBank k x).fuseKeys = s.fuseKeys := rfl
@[simp] theorem State.setBank_keys (s : State) (k : Nat) (x : Bank) : (s.setBank k x).keys = s.keys := rfl
@[simp] theorem State.setBank_measure (s : State) (k : Nat) (x : Bank) : (s.setBank k x).measure = s.measure := rfl
@[simp] theorem State.setBank_firmware (s : State) (k : Nat) (x : Bank) : (s.setBank k x).firmware = s.firmware := rfl
@[simp] theorem State.setBank_firmMap (s : State) (k : Nat) (x : Bank) : (s.setBank k x).firmMap = s.firmMap := rfl
@[simp] theorem State.setBank_loadStatus (s : State) (k : Nat) (x : Bank) : (s.setBank k x).loadStatus = s.loadStatus := rfl
@[simp] theorem State.setBank_spdm (s : State) (k : Nat) (x : Bank) : (s.setBank k x).spdm = s.spdm := rfl
@[simp] theorem State.setBank_telemetry (s : State) (k : Nat) (x : Bank) : (s.setBank k x).telemetry = s.telemetry := rfl

/-! `State.setGrid` changes `grids` alone. -/

@[simp] theorem State.setGrid_agenda (s : State) (k : Nat) (x : Grid) : (s.setGrid k x).agenda = s.agenda := rfl
@[simp] theorem State.setGrid_evictions (s : State) (k : Nat) (x : Grid) : (s.setGrid k x).evictions = s.evictions := rfl
@[simp] theorem State.setGrid_free (s : State) (k : Nat) (x : Grid) : (s.setGrid k x).free = s.free := rfl
@[simp] theorem State.setGrid_dt (s : State) (k : Nat) (x : Grid) : (s.setGrid k x).dt = s.dt := rfl
@[simp] theorem State.setGrid_redInU (s : State) (k : Nat) (x : Grid) : (s.setGrid k x).redInU = s.redInU := rfl
@[simp] theorem State.setGrid_cur (s : State) (k : Nat) (x : Grid) : (s.setGrid k x).cur = s.cur := rfl
@[simp] theorem State.setGrid_quarter (s : State) (k : Nat) (x : Grid) : (s.setGrid k x).quarter = s.quarter := rfl
@[simp] theorem State.setGrid_feature (s : State) (k : Nat) (x : Grid) : (s.setGrid k x).feature = s.feature := rfl
@[simp] theorem State.setGrid_clock (s : State) (k : Nat) (x : Grid) : (s.setGrid k x).clock = s.clock := rfl
@[simp] theorem State.setGrid_mem (s : State) (k : Nat) (x : Grid) : (s.setGrid k x).mem = s.mem := rfl
@[simp] theorem State.setGrid_poison (s : State) (k : Nat) (x : Grid) : (s.setGrid k x).poison = s.poison := rfl
@[simp] theorem State.setGrid_hostMem (s : State) (k : Nat) (x : Grid) : (s.setGrid k x).hostMem = s.hostMem := rfl
@[simp] theorem State.setGrid_peerMem (s : State) (k : Nat) (x : Grid) : (s.setGrid k x).peerMem = s.peerMem := rfl
@[simp] theorem State.setGrid_net (s : State) (k : Nat) (x : Grid) : (s.setGrid k x).net = s.net := rfl
@[simp] theorem State.setGrid_fibres (s : State) (k : Nat) (x : Grid) : (s.setGrid k x).fibres = s.fibres := rfl
@[simp] theorem State.setGrid_slots (s : State) (k : Nat) (x : Grid) : (s.setGrid k x).slots = s.slots := rfl
@[simp] theorem State.setGrid_wgs (s : State) (k : Nat) (x : Grid) : (s.setGrid k x).wgs = s.wgs := rfl
@[simp] theorem State.setGrid_nextWg (s : State) (k : Nat) (x : Grid) : (s.setGrid k x).nextWg = s.nextWg := rfl
@[simp] theorem State.setGrid_grids (s : State) (k : Nat) (x : Grid) : (s.setGrid k x).grids = tput s.grids k x := rfl
@[simp] theorem State.setGrid_vds (s : State) (k : Nat) (x : Grid) : (s.setGrid k x).vds = s.vds := rfl
@[simp] theorem State.setGrid_cores (s : State) (k : Nat) (x : Grid) : (s.setGrid k x).cores = s.cores := rfl
@[simp] theorem State.setGrid_banks (s : State) (k : Nat) (x : Grid) : (s.setGrid k x).banks = s.banks := rfl
@[simp] theorem State.setGrid_lastSlot (s : State) (k : Nat) (x : Grid) : (s.setGrid k x).lastSlot = s.lastSlot := rfl
@[simp] theorem State.setGrid_xchg (s : State) (k : Nat) (x : Grid) : (s.setGrid k x).xchg = s.xchg := rfl
@[simp] theorem State.setGrid_l0 (s : State) (k : Nat) (x : Grid) : (s.setGrid k x).l0 = s.l0 := rfl
@[simp] theorem State.setGrid_cc (s : State) (k : Nat) (x : Grid) : (s.setGrid k x).cc = s.cc := rfl
@[simp] theorem State.setGrid_l2 (s : State) (k : Nat) (x : Grid) : (s.setGrid k x).l2 = s.l2 := rfl
@[simp] theorem State.setGrid_msc (s : State) (k : Nat) (x : Grid) : (s.setGrid k x).msc = s.msc := rfl
@[simp] theorem State.setGrid_pmsc (s : State) (k : Nat) (x : Grid) : (s.setGrid k x).pmsc = s.pmsc := rfl
@[simp] theorem State.setGrid_parErr (s : State) (k : Nat) (x : Grid) : (s.setGrid k x).parErr = s.parErr := rfl
@[simp] theorem State.setGrid_icache (s : State) (k : Nat) (x : Grid) : (s.setGrid k x).icache = s.icache := rfl
@[simp] theorem State.setGrid_waitAdds (s : State) (k : Nat) (x : Grid) : (s.setGrid k x).waitAdds = s.waitAdds := rfl
@[simp] theorem State.setGrid_ucopies (s : State) (k : Nat) (x : Grid) : (s.setGrid k x).ucopies = s.ucopies := rfl
@[simp] theorem State.setGrid_books (s : State) (k : Nat) (x : Grid) : (s.setGrid k x).books = s.books := rfl
@[simp] theorem State.setGrid_drains (s : State) (k : Nat) (x : Grid) : (s.setGrid k x).drains = s.drains := rfl
@[simp] theorem State.setGrid_shadows (s : State) (k : Nat) (x : Grid) : (s.setGrid k x).shadows = s.shadows := rfl
@[simp] theorem State.setGrid_tlb (s : State) (k : Nat) (x : Grid) : (s.setGrid k x).tlb = s.tlb := rfl
@[simp] theorem State.setGrid_walks (s : State) (k : Nat) (x : Grid) : (s.setGrid k x).walks = s.walks := rfl
@[simp] theorem State.setGrid_cmds (s : State) (k : Nat) (x : Grid) : (s.setGrid k x).cmds = s.cmds := rfl
@[simp] theorem State.setGrid_nextCmd (s : State) (k : Nat) (x : Grid) : (s.setGrid k x).nextCmd = s.nextCmd := rfl
@[simp] theorem State.setGrid_collSeq (s : State) (k : Nat) (x : Grid) : (s.setGrid k x).collSeq = s.collSeq := rfl
@[simp] theorem State.setGrid_collDone (s : State) (k : Nat) (x : Grid) : (s.setGrid k x).collDone = s.collDone := rfl
@[simp] theorem State.setGrid_cpyzIn (s : State) (k : Nat) (x : Grid) : (s.setGrid k x).cpyzIn = s.cpyzIn := rfl
@[simp] theorem State.setGrid_cpyzOut (s : State) (k : Nat) (x : Grid) : (s.setGrid k x).cpyzOut = s.cpyzOut := rfl
@[simp] theorem State.setGrid_damask (s : State) (k : Nat) (x : Grid) : (s.setGrid k x).damask = s.damask := rfl
@[simp] theorem State.setGrid_islandSel (s : State) (k : Nat) (x : Grid) : (s.setGrid k x).islandSel = s.islandSel := rfl
@[simp] theorem State.setGrid_islandMhz (s : State) (k : Nat) (x : Grid) : (s.setGrid k x).islandMhz = s.islandMhz := rfl
@[simp] theorem State.setGrid_islandNj (s : State) (k : Nat) (x : Grid) : (s.setGrid k x).islandNj = s.islandNj := rfl
@[simp] theorem State.setGrid_budgetLeft (s : State) (k : Nat) (x : Grid) : (s.setGrid k x).budgetLeft = s.budgetLeft := rfl
@[simp] theorem State.setGrid_deviceBudget (s : State) (k : Nat) (x : Grid) : (s.setGrid k x).deviceBudget = s.deviceBudget := rfl
@[simp] theorem State.setGrid_windowFrom (s : State) (k : Nat) (x : Grid) : (s.setGrid k x).windowFrom = s.windowFrom := rfl
@[simp] theorem State.setGrid_preemptTimeout (s : State) (k : Nat) (x : Grid) : (s.setGrid k x).preemptTimeout = s.preemptTimeout := rfl
@[simp] theorem State.setGrid_rotation (s : State) (k : Nat) (x : Grid) : (s.setGrid k x).rotation = s.rotation := rfl
@[simp] theorem State.setGrid_scanResults (s : State) (k : Nat) (x : Grid) : (s.setGrid k x).scanResults = s.scanResults := rfl
@[simp] theorem State.setGrid_ports (s : State) (k : Nat) (x : Grid) : (s.setGrid k x).ports = s.ports := rfl
@[simp] theorem State.setGrid_dead (s : State) (k : Nat) (x : Grid) : (s.setGrid k x).dead = s.dead := rfl
@[simp] theorem State.setGrid_clusterMap (s : State) (k : Nat) (x : Grid) : (s.setGrid k x).clusterMap = s.clusterMap := rfl
@[simp] theorem State.setGrid_fuseKeys (s : State) (k : Nat) (x : Grid) : (s.setGrid k x).fuseKeys = s.fuseKeys := rfl
@[simp] theorem State.setGrid_keys (s : State) (k : Nat) (x : Grid) : (s.setGrid k x).keys = s.keys := rfl
@[simp] theorem State.setGrid_measure (s : State) (k : Nat) (x : Grid) : (s.setGrid k x).measure = s.measure := rfl
@[simp] theorem State.setGrid_firmware (s : State) (k : Nat) (x : Grid) : (s.setGrid k x).firmware = s.firmware := rfl
@[simp] theorem State.setGrid_firmMap (s : State) (k : Nat) (x : Grid) : (s.setGrid k x).firmMap = s.firmMap := rfl
@[simp] theorem State.setGrid_loadStatus (s : State) (k : Nat) (x : Grid) : (s.setGrid k x).loadStatus = s.loadStatus := rfl
@[simp] theorem State.setGrid_spdm (s : State) (k : Nat) (x : Grid) : (s.setGrid k x).spdm = s.spdm := rfl
@[simp] theorem State.setGrid_telemetry (s : State) (k : Nat) (x : Grid) : (s.setGrid k x).telemetry = s.telemetry := rfl

/-! The accessors after the updates. -/

@[simp] theorem State.fib_setFib_self (s : State) (k : Nat) (x : Fibre) : (s.setFib k x).fib k = x := tget_tput_self _ _ _ _
theorem State.fib_setFib_ne (s : State) (k j : Nat) (x : Fibre) (h : j ≠ k) : (s.setFib k x).fib j = s.fib j := tget_tput_ne _ _ _ _ _ h
@[simp] theorem State.fib_setSlot (s : State) (k j : Nat) (x : Slot) : (s.setSlot k x).fib j = s.fib j := rfl
@[simp] theorem State.fib_setWg (s : State) (k j : Nat) (x : Wg) : (s.setWg k x).fib j = s.fib j := rfl
@[simp] theorem State.fib_setVd (s : State) (k j : Nat) (x : Vd) : (s.setVd k x).fib j = s.fib j := rfl
@[simp] theorem State.fib_setCore (s : State) (k j : Nat) (x : Core) : (s.setCore k x).fib j = s.fib j := rfl
@[simp] theorem State.fib_setBank (s : State) (k j : Nat) (x : Bank) : (s.setBank k x).fib j = s.fib j := rfl
@[simp] theorem State.fib_setGrid (s : State) (k j : Nat) (x : Grid) : (s.setGrid k x).fib j = s.fib j := rfl
@[simp] theorem State.slot_setSlot_self (s : State) (k : Nat) (x : Slot) : (s.setSlot k x).slot k = x := tget_tput_self _ _ _ _
theorem State.slot_setSlot_ne (s : State) (k j : Nat) (x : Slot) (h : j ≠ k) : (s.setSlot k x).slot j = s.slot j := tget_tput_ne _ _ _ _ _ h
@[simp] theorem State.slot_setFib (s : State) (k j : Nat) (x : Fibre) : (s.setFib k x).slot j = s.slot j := rfl
@[simp] theorem State.slot_setWg (s : State) (k j : Nat) (x : Wg) : (s.setWg k x).slot j = s.slot j := rfl
@[simp] theorem State.slot_setVd (s : State) (k j : Nat) (x : Vd) : (s.setVd k x).slot j = s.slot j := rfl
@[simp] theorem State.slot_setCore (s : State) (k j : Nat) (x : Core) : (s.setCore k x).slot j = s.slot j := rfl
@[simp] theorem State.slot_setBank (s : State) (k j : Nat) (x : Bank) : (s.setBank k x).slot j = s.slot j := rfl
@[simp] theorem State.slot_setGrid (s : State) (k j : Nat) (x : Grid) : (s.setGrid k x).slot j = s.slot j := rfl
@[simp] theorem State.wg_setWg_self (s : State) (k : Nat) (x : Wg) : (s.setWg k x).wg k = x := tget_tput_self _ _ _ _
theorem State.wg_setWg_ne (s : State) (k j : Nat) (x : Wg) (h : j ≠ k) : (s.setWg k x).wg j = s.wg j := tget_tput_ne _ _ _ _ _ h
@[simp] theorem State.wg_setFib (s : State) (k j : Nat) (x : Fibre) : (s.setFib k x).wg j = s.wg j := rfl
@[simp] theorem State.wg_setSlot (s : State) (k j : Nat) (x : Slot) : (s.setSlot k x).wg j = s.wg j := rfl
@[simp] theorem State.wg_setVd (s : State) (k j : Nat) (x : Vd) : (s.setVd k x).wg j = s.wg j := rfl
@[simp] theorem State.wg_setCore (s : State) (k j : Nat) (x : Core) : (s.setCore k x).wg j = s.wg j := rfl
@[simp] theorem State.wg_setBank (s : State) (k j : Nat) (x : Bank) : (s.setBank k x).wg j = s.wg j := rfl
@[simp] theorem State.wg_setGrid (s : State) (k j : Nat) (x : Grid) : (s.setGrid k x).wg j = s.wg j := rfl
@[simp] theorem State.vd_setVd_self (s : State) (k : Nat) (x : Vd) : (s.setVd k x).vd k = x := tget_tput_self _ _ _ _
theorem State.vd_setVd_ne (s : State) (k j : Nat) (x : Vd) (h : j ≠ k) : (s.setVd k x).vd j = s.vd j := tget_tput_ne _ _ _ _ _ h
@[simp] theorem State.vd_setFib (s : State) (k j : Nat) (x : Fibre) : (s.setFib k x).vd j = s.vd j := rfl
@[simp] theorem State.vd_setSlot (s : State) (k j : Nat) (x : Slot) : (s.setSlot k x).vd j = s.vd j := rfl
@[simp] theorem State.vd_setWg (s : State) (k j : Nat) (x : Wg) : (s.setWg k x).vd j = s.vd j := rfl
@[simp] theorem State.vd_setCore (s : State) (k j : Nat) (x : Core) : (s.setCore k x).vd j = s.vd j := rfl
@[simp] theorem State.vd_setBank (s : State) (k j : Nat) (x : Bank) : (s.setBank k x).vd j = s.vd j := rfl
@[simp] theorem State.vd_setGrid (s : State) (k j : Nat) (x : Grid) : (s.setGrid k x).vd j = s.vd j := rfl
@[simp] theorem State.core_setCore_self (s : State) (k : Nat) (x : Core) : (s.setCore k x).core k = x := tget_tput_self _ _ _ _
theorem State.core_setCore_ne (s : State) (k j : Nat) (x : Core) (h : j ≠ k) : (s.setCore k x).core j = s.core j := tget_tput_ne _ _ _ _ _ h
@[simp] theorem State.core_setFib (s : State) (k j : Nat) (x : Fibre) : (s.setFib k x).core j = s.core j := rfl
@[simp] theorem State.core_setSlot (s : State) (k j : Nat) (x : Slot) : (s.setSlot k x).core j = s.core j := rfl
@[simp] theorem State.core_setWg (s : State) (k j : Nat) (x : Wg) : (s.setWg k x).core j = s.core j := rfl
@[simp] theorem State.core_setVd (s : State) (k j : Nat) (x : Vd) : (s.setVd k x).core j = s.core j := rfl
@[simp] theorem State.core_setBank (s : State) (k j : Nat) (x : Bank) : (s.setBank k x).core j = s.core j := rfl
@[simp] theorem State.core_setGrid (s : State) (k j : Nat) (x : Grid) : (s.setGrid k x).core j = s.core j := rfl
@[simp] theorem State.bank_setBank_self (s : State) (k : Nat) (x : Bank) : (s.setBank k x).bank k = x := tget_tput_self _ _ _ _
theorem State.bank_setBank_ne (s : State) (k j : Nat) (x : Bank) (h : j ≠ k) : (s.setBank k x).bank j = s.bank j := tget_tput_ne _ _ _ _ _ h
@[simp] theorem State.bank_setFib (s : State) (k j : Nat) (x : Fibre) : (s.setFib k x).bank j = s.bank j := rfl
@[simp] theorem State.bank_setSlot (s : State) (k j : Nat) (x : Slot) : (s.setSlot k x).bank j = s.bank j := rfl
@[simp] theorem State.bank_setWg (s : State) (k j : Nat) (x : Wg) : (s.setWg k x).bank j = s.bank j := rfl
@[simp] theorem State.bank_setVd (s : State) (k j : Nat) (x : Vd) : (s.setVd k x).bank j = s.bank j := rfl
@[simp] theorem State.bank_setCore (s : State) (k j : Nat) (x : Core) : (s.setCore k x).bank j = s.bank j := rfl
@[simp] theorem State.bank_setGrid (s : State) (k j : Nat) (x : Grid) : (s.setGrid k x).bank j = s.bank j := rfl
@[simp] theorem State.grid_setGrid_self (s : State) (k : Nat) (x : Grid) : (s.setGrid k x).grid k = x := tget_tput_self _ _ _ _
theorem State.grid_setGrid_ne (s : State) (k j : Nat) (x : Grid) (h : j ≠ k) : (s.setGrid k x).grid j = s.grid j := tget_tput_ne _ _ _ _ _ h
@[simp] theorem State.grid_setFib (s : State) (k j : Nat) (x : Fibre) : (s.setFib k x).grid j = s.grid j := rfl
@[simp] theorem State.grid_setSlot (s : State) (k j : Nat) (x : Slot) : (s.setSlot k x).grid j = s.grid j := rfl
@[simp] theorem State.grid_setWg (s : State) (k j : Nat) (x : Wg) : (s.setWg k x).grid j = s.grid j := rfl
@[simp] theorem State.grid_setVd (s : State) (k j : Nat) (x : Vd) : (s.setVd k x).grid j = s.grid j := rfl
@[simp] theorem State.grid_setCore (s : State) (k j : Nat) (x : Core) : (s.setCore k x).grid j = s.grid j := rfl
@[simp] theorem State.grid_setBank (s : State) (k j : Nat) (x : Bank) : (s.setBank k x).grid j = s.grid j := rfl

/-! A modification is the update by the modified value. -/

theorem State.modFib_eq (s : State) (k : Nat) (g : Fibre → Fibre) : s.modFib k g = s.setFib k (g (s.fib k)) := rfl
@[simp] theorem State.modFib_agenda (s : State) (k : Nat) (g : Fibre → Fibre) : (s.modFib k g).agenda = s.agenda := rfl
@[simp] theorem State.modFib_evictions (s : State) (k : Nat) (g : Fibre → Fibre) : (s.modFib k g).evictions = s.evictions := rfl
@[simp] theorem State.modFib_free (s : State) (k : Nat) (g : Fibre → Fibre) : (s.modFib k g).free = s.free := rfl
@[simp] theorem State.modFib_dt (s : State) (k : Nat) (g : Fibre → Fibre) : (s.modFib k g).dt = s.dt := rfl
@[simp] theorem State.modFib_redInU (s : State) (k : Nat) (g : Fibre → Fibre) : (s.modFib k g).redInU = s.redInU := rfl
@[simp] theorem State.modFib_cur (s : State) (k : Nat) (g : Fibre → Fibre) : (s.modFib k g).cur = s.cur := rfl
@[simp] theorem State.modFib_quarter (s : State) (k : Nat) (g : Fibre → Fibre) : (s.modFib k g).quarter = s.quarter := rfl
@[simp] theorem State.modFib_feature (s : State) (k : Nat) (g : Fibre → Fibre) : (s.modFib k g).feature = s.feature := rfl
@[simp] theorem State.modFib_clock (s : State) (k : Nat) (g : Fibre → Fibre) : (s.modFib k g).clock = s.clock := rfl
@[simp] theorem State.modFib_mem (s : State) (k : Nat) (g : Fibre → Fibre) : (s.modFib k g).mem = s.mem := rfl
@[simp] theorem State.modFib_poison (s : State) (k : Nat) (g : Fibre → Fibre) : (s.modFib k g).poison = s.poison := rfl
@[simp] theorem State.modFib_hostMem (s : State) (k : Nat) (g : Fibre → Fibre) : (s.modFib k g).hostMem = s.hostMem := rfl
@[simp] theorem State.modFib_peerMem (s : State) (k : Nat) (g : Fibre → Fibre) : (s.modFib k g).peerMem = s.peerMem := rfl
@[simp] theorem State.modFib_net (s : State) (k : Nat) (g : Fibre → Fibre) : (s.modFib k g).net = s.net := rfl
@[simp] theorem State.modFib_slots (s : State) (k : Nat) (g : Fibre → Fibre) : (s.modFib k g).slots = s.slots := rfl
@[simp] theorem State.modFib_wgs (s : State) (k : Nat) (g : Fibre → Fibre) : (s.modFib k g).wgs = s.wgs := rfl
@[simp] theorem State.modFib_nextWg (s : State) (k : Nat) (g : Fibre → Fibre) : (s.modFib k g).nextWg = s.nextWg := rfl
@[simp] theorem State.modFib_grids (s : State) (k : Nat) (g : Fibre → Fibre) : (s.modFib k g).grids = s.grids := rfl
@[simp] theorem State.modFib_vds (s : State) (k : Nat) (g : Fibre → Fibre) : (s.modFib k g).vds = s.vds := rfl
@[simp] theorem State.modFib_cores (s : State) (k : Nat) (g : Fibre → Fibre) : (s.modFib k g).cores = s.cores := rfl
@[simp] theorem State.modFib_banks (s : State) (k : Nat) (g : Fibre → Fibre) : (s.modFib k g).banks = s.banks := rfl
@[simp] theorem State.modFib_lastSlot (s : State) (k : Nat) (g : Fibre → Fibre) : (s.modFib k g).lastSlot = s.lastSlot := rfl
@[simp] theorem State.modFib_xchg (s : State) (k : Nat) (g : Fibre → Fibre) : (s.modFib k g).xchg = s.xchg := rfl
@[simp] theorem State.modFib_l0 (s : State) (k : Nat) (g : Fibre → Fibre) : (s.modFib k g).l0 = s.l0 := rfl
@[simp] theorem State.modFib_cc (s : State) (k : Nat) (g : Fibre → Fibre) : (s.modFib k g).cc = s.cc := rfl
@[simp] theorem State.modFib_l2 (s : State) (k : Nat) (g : Fibre → Fibre) : (s.modFib k g).l2 = s.l2 := rfl
@[simp] theorem State.modFib_msc (s : State) (k : Nat) (g : Fibre → Fibre) : (s.modFib k g).msc = s.msc := rfl
@[simp] theorem State.modFib_pmsc (s : State) (k : Nat) (g : Fibre → Fibre) : (s.modFib k g).pmsc = s.pmsc := rfl
@[simp] theorem State.modFib_parErr (s : State) (k : Nat) (g : Fibre → Fibre) : (s.modFib k g).parErr = s.parErr := rfl
@[simp] theorem State.modFib_icache (s : State) (k : Nat) (g : Fibre → Fibre) : (s.modFib k g).icache = s.icache := rfl
@[simp] theorem State.modFib_waitAdds (s : State) (k : Nat) (g : Fibre → Fibre) : (s.modFib k g).waitAdds = s.waitAdds := rfl
@[simp] theorem State.modFib_ucopies (s : State) (k : Nat) (g : Fibre → Fibre) : (s.modFib k g).ucopies = s.ucopies := rfl
@[simp] theorem State.modFib_books (s : State) (k : Nat) (g : Fibre → Fibre) : (s.modFib k g).books = s.books := rfl
@[simp] theorem State.modFib_drains (s : State) (k : Nat) (g : Fibre → Fibre) : (s.modFib k g).drains = s.drains := rfl
@[simp] theorem State.modFib_shadows (s : State) (k : Nat) (g : Fibre → Fibre) : (s.modFib k g).shadows = s.shadows := rfl
@[simp] theorem State.modFib_tlb (s : State) (k : Nat) (g : Fibre → Fibre) : (s.modFib k g).tlb = s.tlb := rfl
@[simp] theorem State.modFib_walks (s : State) (k : Nat) (g : Fibre → Fibre) : (s.modFib k g).walks = s.walks := rfl
@[simp] theorem State.modFib_cmds (s : State) (k : Nat) (g : Fibre → Fibre) : (s.modFib k g).cmds = s.cmds := rfl
@[simp] theorem State.modFib_nextCmd (s : State) (k : Nat) (g : Fibre → Fibre) : (s.modFib k g).nextCmd = s.nextCmd := rfl
@[simp] theorem State.modFib_collSeq (s : State) (k : Nat) (g : Fibre → Fibre) : (s.modFib k g).collSeq = s.collSeq := rfl
@[simp] theorem State.modFib_collDone (s : State) (k : Nat) (g : Fibre → Fibre) : (s.modFib k g).collDone = s.collDone := rfl
@[simp] theorem State.modFib_cpyzIn (s : State) (k : Nat) (g : Fibre → Fibre) : (s.modFib k g).cpyzIn = s.cpyzIn := rfl
@[simp] theorem State.modFib_cpyzOut (s : State) (k : Nat) (g : Fibre → Fibre) : (s.modFib k g).cpyzOut = s.cpyzOut := rfl
@[simp] theorem State.modFib_damask (s : State) (k : Nat) (g : Fibre → Fibre) : (s.modFib k g).damask = s.damask := rfl
@[simp] theorem State.modFib_islandSel (s : State) (k : Nat) (g : Fibre → Fibre) : (s.modFib k g).islandSel = s.islandSel := rfl
@[simp] theorem State.modFib_islandMhz (s : State) (k : Nat) (g : Fibre → Fibre) : (s.modFib k g).islandMhz = s.islandMhz := rfl
@[simp] theorem State.modFib_islandNj (s : State) (k : Nat) (g : Fibre → Fibre) : (s.modFib k g).islandNj = s.islandNj := rfl
@[simp] theorem State.modFib_budgetLeft (s : State) (k : Nat) (g : Fibre → Fibre) : (s.modFib k g).budgetLeft = s.budgetLeft := rfl
@[simp] theorem State.modFib_deviceBudget (s : State) (k : Nat) (g : Fibre → Fibre) : (s.modFib k g).deviceBudget = s.deviceBudget := rfl
@[simp] theorem State.modFib_windowFrom (s : State) (k : Nat) (g : Fibre → Fibre) : (s.modFib k g).windowFrom = s.windowFrom := rfl
@[simp] theorem State.modFib_preemptTimeout (s : State) (k : Nat) (g : Fibre → Fibre) : (s.modFib k g).preemptTimeout = s.preemptTimeout := rfl
@[simp] theorem State.modFib_rotation (s : State) (k : Nat) (g : Fibre → Fibre) : (s.modFib k g).rotation = s.rotation := rfl
@[simp] theorem State.modFib_scanResults (s : State) (k : Nat) (g : Fibre → Fibre) : (s.modFib k g).scanResults = s.scanResults := rfl
@[simp] theorem State.modFib_ports (s : State) (k : Nat) (g : Fibre → Fibre) : (s.modFib k g).ports = s.ports := rfl
@[simp] theorem State.modFib_dead (s : State) (k : Nat) (g : Fibre → Fibre) : (s.modFib k g).dead = s.dead := rfl
@[simp] theorem State.modFib_clusterMap (s : State) (k : Nat) (g : Fibre → Fibre) : (s.modFib k g).clusterMap = s.clusterMap := rfl
@[simp] theorem State.modFib_fuseKeys (s : State) (k : Nat) (g : Fibre → Fibre) : (s.modFib k g).fuseKeys = s.fuseKeys := rfl
@[simp] theorem State.modFib_keys (s : State) (k : Nat) (g : Fibre → Fibre) : (s.modFib k g).keys = s.keys := rfl
@[simp] theorem State.modFib_measure (s : State) (k : Nat) (g : Fibre → Fibre) : (s.modFib k g).measure = s.measure := rfl
@[simp] theorem State.modFib_firmware (s : State) (k : Nat) (g : Fibre → Fibre) : (s.modFib k g).firmware = s.firmware := rfl
@[simp] theorem State.modFib_firmMap (s : State) (k : Nat) (g : Fibre → Fibre) : (s.modFib k g).firmMap = s.firmMap := rfl
@[simp] theorem State.modFib_loadStatus (s : State) (k : Nat) (g : Fibre → Fibre) : (s.modFib k g).loadStatus = s.loadStatus := rfl
@[simp] theorem State.modFib_spdm (s : State) (k : Nat) (g : Fibre → Fibre) : (s.modFib k g).spdm = s.spdm := rfl
@[simp] theorem State.modFib_telemetry (s : State) (k : Nat) (g : Fibre → Fibre) : (s.modFib k g).telemetry = s.telemetry := rfl
@[simp] theorem State.fib_modFib_self (s : State) (k : Nat) (g : Fibre → Fibre) : (s.modFib k g).fib k = g (s.fib k) := tget_tput_self _ _ _ _
theorem State.fib_modFib_ne (s : State) (k j : Nat) (g : Fibre → Fibre) (h : j ≠ k) : (s.modFib k g).fib j = s.fib j := tget_tput_ne _ _ _ _ _ h
@[simp] theorem State.slot_modFib (s : State) (k j : Nat) (g : Fibre → Fibre) : (s.modFib k g).slot j = s.slot j := rfl
@[simp] theorem State.wg_modFib (s : State) (k j : Nat) (g : Fibre → Fibre) : (s.modFib k g).wg j = s.wg j := rfl
@[simp] theorem State.vd_modFib (s : State) (k j : Nat) (g : Fibre → Fibre) : (s.modFib k g).vd j = s.vd j := rfl
@[simp] theorem State.core_modFib (s : State) (k j : Nat) (g : Fibre → Fibre) : (s.modFib k g).core j = s.core j := rfl

theorem State.modSlot_eq (s : State) (k : Nat) (g : Slot → Slot) : s.modSlot k g = s.setSlot k (g (s.slot k)) := rfl
@[simp] theorem State.modSlot_agenda (s : State) (k : Nat) (g : Slot → Slot) : (s.modSlot k g).agenda = s.agenda := rfl
@[simp] theorem State.modSlot_evictions (s : State) (k : Nat) (g : Slot → Slot) : (s.modSlot k g).evictions = s.evictions := rfl
@[simp] theorem State.modSlot_free (s : State) (k : Nat) (g : Slot → Slot) : (s.modSlot k g).free = s.free := rfl
@[simp] theorem State.modSlot_dt (s : State) (k : Nat) (g : Slot → Slot) : (s.modSlot k g).dt = s.dt := rfl
@[simp] theorem State.modSlot_redInU (s : State) (k : Nat) (g : Slot → Slot) : (s.modSlot k g).redInU = s.redInU := rfl
@[simp] theorem State.modSlot_cur (s : State) (k : Nat) (g : Slot → Slot) : (s.modSlot k g).cur = s.cur := rfl
@[simp] theorem State.modSlot_quarter (s : State) (k : Nat) (g : Slot → Slot) : (s.modSlot k g).quarter = s.quarter := rfl
@[simp] theorem State.modSlot_feature (s : State) (k : Nat) (g : Slot → Slot) : (s.modSlot k g).feature = s.feature := rfl
@[simp] theorem State.modSlot_clock (s : State) (k : Nat) (g : Slot → Slot) : (s.modSlot k g).clock = s.clock := rfl
@[simp] theorem State.modSlot_mem (s : State) (k : Nat) (g : Slot → Slot) : (s.modSlot k g).mem = s.mem := rfl
@[simp] theorem State.modSlot_poison (s : State) (k : Nat) (g : Slot → Slot) : (s.modSlot k g).poison = s.poison := rfl
@[simp] theorem State.modSlot_hostMem (s : State) (k : Nat) (g : Slot → Slot) : (s.modSlot k g).hostMem = s.hostMem := rfl
@[simp] theorem State.modSlot_peerMem (s : State) (k : Nat) (g : Slot → Slot) : (s.modSlot k g).peerMem = s.peerMem := rfl
@[simp] theorem State.modSlot_net (s : State) (k : Nat) (g : Slot → Slot) : (s.modSlot k g).net = s.net := rfl
@[simp] theorem State.modSlot_fibres (s : State) (k : Nat) (g : Slot → Slot) : (s.modSlot k g).fibres = s.fibres := rfl
@[simp] theorem State.modSlot_wgs (s : State) (k : Nat) (g : Slot → Slot) : (s.modSlot k g).wgs = s.wgs := rfl
@[simp] theorem State.modSlot_nextWg (s : State) (k : Nat) (g : Slot → Slot) : (s.modSlot k g).nextWg = s.nextWg := rfl
@[simp] theorem State.modSlot_grids (s : State) (k : Nat) (g : Slot → Slot) : (s.modSlot k g).grids = s.grids := rfl
@[simp] theorem State.modSlot_vds (s : State) (k : Nat) (g : Slot → Slot) : (s.modSlot k g).vds = s.vds := rfl
@[simp] theorem State.modSlot_cores (s : State) (k : Nat) (g : Slot → Slot) : (s.modSlot k g).cores = s.cores := rfl
@[simp] theorem State.modSlot_banks (s : State) (k : Nat) (g : Slot → Slot) : (s.modSlot k g).banks = s.banks := rfl
@[simp] theorem State.modSlot_lastSlot (s : State) (k : Nat) (g : Slot → Slot) : (s.modSlot k g).lastSlot = s.lastSlot := rfl
@[simp] theorem State.modSlot_xchg (s : State) (k : Nat) (g : Slot → Slot) : (s.modSlot k g).xchg = s.xchg := rfl
@[simp] theorem State.modSlot_l0 (s : State) (k : Nat) (g : Slot → Slot) : (s.modSlot k g).l0 = s.l0 := rfl
@[simp] theorem State.modSlot_cc (s : State) (k : Nat) (g : Slot → Slot) : (s.modSlot k g).cc = s.cc := rfl
@[simp] theorem State.modSlot_l2 (s : State) (k : Nat) (g : Slot → Slot) : (s.modSlot k g).l2 = s.l2 := rfl
@[simp] theorem State.modSlot_msc (s : State) (k : Nat) (g : Slot → Slot) : (s.modSlot k g).msc = s.msc := rfl
@[simp] theorem State.modSlot_pmsc (s : State) (k : Nat) (g : Slot → Slot) : (s.modSlot k g).pmsc = s.pmsc := rfl
@[simp] theorem State.modSlot_parErr (s : State) (k : Nat) (g : Slot → Slot) : (s.modSlot k g).parErr = s.parErr := rfl
@[simp] theorem State.modSlot_icache (s : State) (k : Nat) (g : Slot → Slot) : (s.modSlot k g).icache = s.icache := rfl
@[simp] theorem State.modSlot_waitAdds (s : State) (k : Nat) (g : Slot → Slot) : (s.modSlot k g).waitAdds = s.waitAdds := rfl
@[simp] theorem State.modSlot_ucopies (s : State) (k : Nat) (g : Slot → Slot) : (s.modSlot k g).ucopies = s.ucopies := rfl
@[simp] theorem State.modSlot_books (s : State) (k : Nat) (g : Slot → Slot) : (s.modSlot k g).books = s.books := rfl
@[simp] theorem State.modSlot_drains (s : State) (k : Nat) (g : Slot → Slot) : (s.modSlot k g).drains = s.drains := rfl
@[simp] theorem State.modSlot_shadows (s : State) (k : Nat) (g : Slot → Slot) : (s.modSlot k g).shadows = s.shadows := rfl
@[simp] theorem State.modSlot_tlb (s : State) (k : Nat) (g : Slot → Slot) : (s.modSlot k g).tlb = s.tlb := rfl
@[simp] theorem State.modSlot_walks (s : State) (k : Nat) (g : Slot → Slot) : (s.modSlot k g).walks = s.walks := rfl
@[simp] theorem State.modSlot_cmds (s : State) (k : Nat) (g : Slot → Slot) : (s.modSlot k g).cmds = s.cmds := rfl
@[simp] theorem State.modSlot_nextCmd (s : State) (k : Nat) (g : Slot → Slot) : (s.modSlot k g).nextCmd = s.nextCmd := rfl
@[simp] theorem State.modSlot_collSeq (s : State) (k : Nat) (g : Slot → Slot) : (s.modSlot k g).collSeq = s.collSeq := rfl
@[simp] theorem State.modSlot_collDone (s : State) (k : Nat) (g : Slot → Slot) : (s.modSlot k g).collDone = s.collDone := rfl
@[simp] theorem State.modSlot_cpyzIn (s : State) (k : Nat) (g : Slot → Slot) : (s.modSlot k g).cpyzIn = s.cpyzIn := rfl
@[simp] theorem State.modSlot_cpyzOut (s : State) (k : Nat) (g : Slot → Slot) : (s.modSlot k g).cpyzOut = s.cpyzOut := rfl
@[simp] theorem State.modSlot_damask (s : State) (k : Nat) (g : Slot → Slot) : (s.modSlot k g).damask = s.damask := rfl
@[simp] theorem State.modSlot_islandSel (s : State) (k : Nat) (g : Slot → Slot) : (s.modSlot k g).islandSel = s.islandSel := rfl
@[simp] theorem State.modSlot_islandMhz (s : State) (k : Nat) (g : Slot → Slot) : (s.modSlot k g).islandMhz = s.islandMhz := rfl
@[simp] theorem State.modSlot_islandNj (s : State) (k : Nat) (g : Slot → Slot) : (s.modSlot k g).islandNj = s.islandNj := rfl
@[simp] theorem State.modSlot_budgetLeft (s : State) (k : Nat) (g : Slot → Slot) : (s.modSlot k g).budgetLeft = s.budgetLeft := rfl
@[simp] theorem State.modSlot_deviceBudget (s : State) (k : Nat) (g : Slot → Slot) : (s.modSlot k g).deviceBudget = s.deviceBudget := rfl
@[simp] theorem State.modSlot_windowFrom (s : State) (k : Nat) (g : Slot → Slot) : (s.modSlot k g).windowFrom = s.windowFrom := rfl
@[simp] theorem State.modSlot_preemptTimeout (s : State) (k : Nat) (g : Slot → Slot) : (s.modSlot k g).preemptTimeout = s.preemptTimeout := rfl
@[simp] theorem State.modSlot_rotation (s : State) (k : Nat) (g : Slot → Slot) : (s.modSlot k g).rotation = s.rotation := rfl
@[simp] theorem State.modSlot_scanResults (s : State) (k : Nat) (g : Slot → Slot) : (s.modSlot k g).scanResults = s.scanResults := rfl
@[simp] theorem State.modSlot_ports (s : State) (k : Nat) (g : Slot → Slot) : (s.modSlot k g).ports = s.ports := rfl
@[simp] theorem State.modSlot_dead (s : State) (k : Nat) (g : Slot → Slot) : (s.modSlot k g).dead = s.dead := rfl
@[simp] theorem State.modSlot_clusterMap (s : State) (k : Nat) (g : Slot → Slot) : (s.modSlot k g).clusterMap = s.clusterMap := rfl
@[simp] theorem State.modSlot_fuseKeys (s : State) (k : Nat) (g : Slot → Slot) : (s.modSlot k g).fuseKeys = s.fuseKeys := rfl
@[simp] theorem State.modSlot_keys (s : State) (k : Nat) (g : Slot → Slot) : (s.modSlot k g).keys = s.keys := rfl
@[simp] theorem State.modSlot_measure (s : State) (k : Nat) (g : Slot → Slot) : (s.modSlot k g).measure = s.measure := rfl
@[simp] theorem State.modSlot_firmware (s : State) (k : Nat) (g : Slot → Slot) : (s.modSlot k g).firmware = s.firmware := rfl
@[simp] theorem State.modSlot_firmMap (s : State) (k : Nat) (g : Slot → Slot) : (s.modSlot k g).firmMap = s.firmMap := rfl
@[simp] theorem State.modSlot_loadStatus (s : State) (k : Nat) (g : Slot → Slot) : (s.modSlot k g).loadStatus = s.loadStatus := rfl
@[simp] theorem State.modSlot_spdm (s : State) (k : Nat) (g : Slot → Slot) : (s.modSlot k g).spdm = s.spdm := rfl
@[simp] theorem State.modSlot_telemetry (s : State) (k : Nat) (g : Slot → Slot) : (s.modSlot k g).telemetry = s.telemetry := rfl
@[simp] theorem State.fib_modSlot (s : State) (k j : Nat) (g : Slot → Slot) : (s.modSlot k g).fib j = s.fib j := rfl
@[simp] theorem State.slot_modSlot_self (s : State) (k : Nat) (g : Slot → Slot) : (s.modSlot k g).slot k = g (s.slot k) := tget_tput_self _ _ _ _
theorem State.slot_modSlot_ne (s : State) (k j : Nat) (g : Slot → Slot) (h : j ≠ k) : (s.modSlot k g).slot j = s.slot j := tget_tput_ne _ _ _ _ _ h
@[simp] theorem State.wg_modSlot (s : State) (k j : Nat) (g : Slot → Slot) : (s.modSlot k g).wg j = s.wg j := rfl
@[simp] theorem State.vd_modSlot (s : State) (k j : Nat) (g : Slot → Slot) : (s.modSlot k g).vd j = s.vd j := rfl
@[simp] theorem State.core_modSlot (s : State) (k j : Nat) (g : Slot → Slot) : (s.modSlot k g).core j = s.core j := rfl

theorem State.modWg_eq (s : State) (k : Nat) (g : Wg → Wg) : s.modWg k g = s.setWg k (g (s.wg k)) := rfl
@[simp] theorem State.modWg_agenda (s : State) (k : Nat) (g : Wg → Wg) : (s.modWg k g).agenda = s.agenda := rfl
@[simp] theorem State.modWg_evictions (s : State) (k : Nat) (g : Wg → Wg) : (s.modWg k g).evictions = s.evictions := rfl
@[simp] theorem State.modWg_free (s : State) (k : Nat) (g : Wg → Wg) : (s.modWg k g).free = s.free := rfl
@[simp] theorem State.modWg_dt (s : State) (k : Nat) (g : Wg → Wg) : (s.modWg k g).dt = s.dt := rfl
@[simp] theorem State.modWg_redInU (s : State) (k : Nat) (g : Wg → Wg) : (s.modWg k g).redInU = s.redInU := rfl
@[simp] theorem State.modWg_cur (s : State) (k : Nat) (g : Wg → Wg) : (s.modWg k g).cur = s.cur := rfl
@[simp] theorem State.modWg_quarter (s : State) (k : Nat) (g : Wg → Wg) : (s.modWg k g).quarter = s.quarter := rfl
@[simp] theorem State.modWg_feature (s : State) (k : Nat) (g : Wg → Wg) : (s.modWg k g).feature = s.feature := rfl
@[simp] theorem State.modWg_clock (s : State) (k : Nat) (g : Wg → Wg) : (s.modWg k g).clock = s.clock := rfl
@[simp] theorem State.modWg_mem (s : State) (k : Nat) (g : Wg → Wg) : (s.modWg k g).mem = s.mem := rfl
@[simp] theorem State.modWg_poison (s : State) (k : Nat) (g : Wg → Wg) : (s.modWg k g).poison = s.poison := rfl
@[simp] theorem State.modWg_hostMem (s : State) (k : Nat) (g : Wg → Wg) : (s.modWg k g).hostMem = s.hostMem := rfl
@[simp] theorem State.modWg_peerMem (s : State) (k : Nat) (g : Wg → Wg) : (s.modWg k g).peerMem = s.peerMem := rfl
@[simp] theorem State.modWg_net (s : State) (k : Nat) (g : Wg → Wg) : (s.modWg k g).net = s.net := rfl
@[simp] theorem State.modWg_fibres (s : State) (k : Nat) (g : Wg → Wg) : (s.modWg k g).fibres = s.fibres := rfl
@[simp] theorem State.modWg_slots (s : State) (k : Nat) (g : Wg → Wg) : (s.modWg k g).slots = s.slots := rfl
@[simp] theorem State.modWg_nextWg (s : State) (k : Nat) (g : Wg → Wg) : (s.modWg k g).nextWg = s.nextWg := rfl
@[simp] theorem State.modWg_grids (s : State) (k : Nat) (g : Wg → Wg) : (s.modWg k g).grids = s.grids := rfl
@[simp] theorem State.modWg_vds (s : State) (k : Nat) (g : Wg → Wg) : (s.modWg k g).vds = s.vds := rfl
@[simp] theorem State.modWg_cores (s : State) (k : Nat) (g : Wg → Wg) : (s.modWg k g).cores = s.cores := rfl
@[simp] theorem State.modWg_banks (s : State) (k : Nat) (g : Wg → Wg) : (s.modWg k g).banks = s.banks := rfl
@[simp] theorem State.modWg_lastSlot (s : State) (k : Nat) (g : Wg → Wg) : (s.modWg k g).lastSlot = s.lastSlot := rfl
@[simp] theorem State.modWg_xchg (s : State) (k : Nat) (g : Wg → Wg) : (s.modWg k g).xchg = s.xchg := rfl
@[simp] theorem State.modWg_l0 (s : State) (k : Nat) (g : Wg → Wg) : (s.modWg k g).l0 = s.l0 := rfl
@[simp] theorem State.modWg_cc (s : State) (k : Nat) (g : Wg → Wg) : (s.modWg k g).cc = s.cc := rfl
@[simp] theorem State.modWg_l2 (s : State) (k : Nat) (g : Wg → Wg) : (s.modWg k g).l2 = s.l2 := rfl
@[simp] theorem State.modWg_msc (s : State) (k : Nat) (g : Wg → Wg) : (s.modWg k g).msc = s.msc := rfl
@[simp] theorem State.modWg_pmsc (s : State) (k : Nat) (g : Wg → Wg) : (s.modWg k g).pmsc = s.pmsc := rfl
@[simp] theorem State.modWg_parErr (s : State) (k : Nat) (g : Wg → Wg) : (s.modWg k g).parErr = s.parErr := rfl
@[simp] theorem State.modWg_icache (s : State) (k : Nat) (g : Wg → Wg) : (s.modWg k g).icache = s.icache := rfl
@[simp] theorem State.modWg_waitAdds (s : State) (k : Nat) (g : Wg → Wg) : (s.modWg k g).waitAdds = s.waitAdds := rfl
@[simp] theorem State.modWg_ucopies (s : State) (k : Nat) (g : Wg → Wg) : (s.modWg k g).ucopies = s.ucopies := rfl
@[simp] theorem State.modWg_books (s : State) (k : Nat) (g : Wg → Wg) : (s.modWg k g).books = s.books := rfl
@[simp] theorem State.modWg_drains (s : State) (k : Nat) (g : Wg → Wg) : (s.modWg k g).drains = s.drains := rfl
@[simp] theorem State.modWg_shadows (s : State) (k : Nat) (g : Wg → Wg) : (s.modWg k g).shadows = s.shadows := rfl
@[simp] theorem State.modWg_tlb (s : State) (k : Nat) (g : Wg → Wg) : (s.modWg k g).tlb = s.tlb := rfl
@[simp] theorem State.modWg_walks (s : State) (k : Nat) (g : Wg → Wg) : (s.modWg k g).walks = s.walks := rfl
@[simp] theorem State.modWg_cmds (s : State) (k : Nat) (g : Wg → Wg) : (s.modWg k g).cmds = s.cmds := rfl
@[simp] theorem State.modWg_nextCmd (s : State) (k : Nat) (g : Wg → Wg) : (s.modWg k g).nextCmd = s.nextCmd := rfl
@[simp] theorem State.modWg_collSeq (s : State) (k : Nat) (g : Wg → Wg) : (s.modWg k g).collSeq = s.collSeq := rfl
@[simp] theorem State.modWg_collDone (s : State) (k : Nat) (g : Wg → Wg) : (s.modWg k g).collDone = s.collDone := rfl
@[simp] theorem State.modWg_cpyzIn (s : State) (k : Nat) (g : Wg → Wg) : (s.modWg k g).cpyzIn = s.cpyzIn := rfl
@[simp] theorem State.modWg_cpyzOut (s : State) (k : Nat) (g : Wg → Wg) : (s.modWg k g).cpyzOut = s.cpyzOut := rfl
@[simp] theorem State.modWg_damask (s : State) (k : Nat) (g : Wg → Wg) : (s.modWg k g).damask = s.damask := rfl
@[simp] theorem State.modWg_islandSel (s : State) (k : Nat) (g : Wg → Wg) : (s.modWg k g).islandSel = s.islandSel := rfl
@[simp] theorem State.modWg_islandMhz (s : State) (k : Nat) (g : Wg → Wg) : (s.modWg k g).islandMhz = s.islandMhz := rfl
@[simp] theorem State.modWg_islandNj (s : State) (k : Nat) (g : Wg → Wg) : (s.modWg k g).islandNj = s.islandNj := rfl
@[simp] theorem State.modWg_budgetLeft (s : State) (k : Nat) (g : Wg → Wg) : (s.modWg k g).budgetLeft = s.budgetLeft := rfl
@[simp] theorem State.modWg_deviceBudget (s : State) (k : Nat) (g : Wg → Wg) : (s.modWg k g).deviceBudget = s.deviceBudget := rfl
@[simp] theorem State.modWg_windowFrom (s : State) (k : Nat) (g : Wg → Wg) : (s.modWg k g).windowFrom = s.windowFrom := rfl
@[simp] theorem State.modWg_preemptTimeout (s : State) (k : Nat) (g : Wg → Wg) : (s.modWg k g).preemptTimeout = s.preemptTimeout := rfl
@[simp] theorem State.modWg_rotation (s : State) (k : Nat) (g : Wg → Wg) : (s.modWg k g).rotation = s.rotation := rfl
@[simp] theorem State.modWg_scanResults (s : State) (k : Nat) (g : Wg → Wg) : (s.modWg k g).scanResults = s.scanResults := rfl
@[simp] theorem State.modWg_ports (s : State) (k : Nat) (g : Wg → Wg) : (s.modWg k g).ports = s.ports := rfl
@[simp] theorem State.modWg_dead (s : State) (k : Nat) (g : Wg → Wg) : (s.modWg k g).dead = s.dead := rfl
@[simp] theorem State.modWg_clusterMap (s : State) (k : Nat) (g : Wg → Wg) : (s.modWg k g).clusterMap = s.clusterMap := rfl
@[simp] theorem State.modWg_fuseKeys (s : State) (k : Nat) (g : Wg → Wg) : (s.modWg k g).fuseKeys = s.fuseKeys := rfl
@[simp] theorem State.modWg_keys (s : State) (k : Nat) (g : Wg → Wg) : (s.modWg k g).keys = s.keys := rfl
@[simp] theorem State.modWg_measure (s : State) (k : Nat) (g : Wg → Wg) : (s.modWg k g).measure = s.measure := rfl
@[simp] theorem State.modWg_firmware (s : State) (k : Nat) (g : Wg → Wg) : (s.modWg k g).firmware = s.firmware := rfl
@[simp] theorem State.modWg_firmMap (s : State) (k : Nat) (g : Wg → Wg) : (s.modWg k g).firmMap = s.firmMap := rfl
@[simp] theorem State.modWg_loadStatus (s : State) (k : Nat) (g : Wg → Wg) : (s.modWg k g).loadStatus = s.loadStatus := rfl
@[simp] theorem State.modWg_spdm (s : State) (k : Nat) (g : Wg → Wg) : (s.modWg k g).spdm = s.spdm := rfl
@[simp] theorem State.modWg_telemetry (s : State) (k : Nat) (g : Wg → Wg) : (s.modWg k g).telemetry = s.telemetry := rfl
@[simp] theorem State.fib_modWg (s : State) (k j : Nat) (g : Wg → Wg) : (s.modWg k g).fib j = s.fib j := rfl
@[simp] theorem State.slot_modWg (s : State) (k j : Nat) (g : Wg → Wg) : (s.modWg k g).slot j = s.slot j := rfl
@[simp] theorem State.wg_modWg_self (s : State) (k : Nat) (g : Wg → Wg) : (s.modWg k g).wg k = g (s.wg k) := tget_tput_self _ _ _ _
theorem State.wg_modWg_ne (s : State) (k j : Nat) (g : Wg → Wg) (h : j ≠ k) : (s.modWg k g).wg j = s.wg j := tget_tput_ne _ _ _ _ _ h
@[simp] theorem State.vd_modWg (s : State) (k j : Nat) (g : Wg → Wg) : (s.modWg k g).vd j = s.vd j := rfl
@[simp] theorem State.core_modWg (s : State) (k j : Nat) (g : Wg → Wg) : (s.modWg k g).core j = s.core j := rfl

theorem State.modVd_eq (s : State) (k : Nat) (g : Vd → Vd) : s.modVd k g = s.setVd k (g (s.vd k)) := rfl
@[simp] theorem State.modVd_agenda (s : State) (k : Nat) (g : Vd → Vd) : (s.modVd k g).agenda = s.agenda := rfl
@[simp] theorem State.modVd_evictions (s : State) (k : Nat) (g : Vd → Vd) : (s.modVd k g).evictions = s.evictions := rfl
@[simp] theorem State.modVd_free (s : State) (k : Nat) (g : Vd → Vd) : (s.modVd k g).free = s.free := rfl
@[simp] theorem State.modVd_dt (s : State) (k : Nat) (g : Vd → Vd) : (s.modVd k g).dt = s.dt := rfl
@[simp] theorem State.modVd_redInU (s : State) (k : Nat) (g : Vd → Vd) : (s.modVd k g).redInU = s.redInU := rfl
@[simp] theorem State.modVd_cur (s : State) (k : Nat) (g : Vd → Vd) : (s.modVd k g).cur = s.cur := rfl
@[simp] theorem State.modVd_quarter (s : State) (k : Nat) (g : Vd → Vd) : (s.modVd k g).quarter = s.quarter := rfl
@[simp] theorem State.modVd_feature (s : State) (k : Nat) (g : Vd → Vd) : (s.modVd k g).feature = s.feature := rfl
@[simp] theorem State.modVd_clock (s : State) (k : Nat) (g : Vd → Vd) : (s.modVd k g).clock = s.clock := rfl
@[simp] theorem State.modVd_mem (s : State) (k : Nat) (g : Vd → Vd) : (s.modVd k g).mem = s.mem := rfl
@[simp] theorem State.modVd_poison (s : State) (k : Nat) (g : Vd → Vd) : (s.modVd k g).poison = s.poison := rfl
@[simp] theorem State.modVd_hostMem (s : State) (k : Nat) (g : Vd → Vd) : (s.modVd k g).hostMem = s.hostMem := rfl
@[simp] theorem State.modVd_peerMem (s : State) (k : Nat) (g : Vd → Vd) : (s.modVd k g).peerMem = s.peerMem := rfl
@[simp] theorem State.modVd_net (s : State) (k : Nat) (g : Vd → Vd) : (s.modVd k g).net = s.net := rfl
@[simp] theorem State.modVd_fibres (s : State) (k : Nat) (g : Vd → Vd) : (s.modVd k g).fibres = s.fibres := rfl
@[simp] theorem State.modVd_slots (s : State) (k : Nat) (g : Vd → Vd) : (s.modVd k g).slots = s.slots := rfl
@[simp] theorem State.modVd_wgs (s : State) (k : Nat) (g : Vd → Vd) : (s.modVd k g).wgs = s.wgs := rfl
@[simp] theorem State.modVd_nextWg (s : State) (k : Nat) (g : Vd → Vd) : (s.modVd k g).nextWg = s.nextWg := rfl
@[simp] theorem State.modVd_grids (s : State) (k : Nat) (g : Vd → Vd) : (s.modVd k g).grids = s.grids := rfl
@[simp] theorem State.modVd_cores (s : State) (k : Nat) (g : Vd → Vd) : (s.modVd k g).cores = s.cores := rfl
@[simp] theorem State.modVd_banks (s : State) (k : Nat) (g : Vd → Vd) : (s.modVd k g).banks = s.banks := rfl
@[simp] theorem State.modVd_lastSlot (s : State) (k : Nat) (g : Vd → Vd) : (s.modVd k g).lastSlot = s.lastSlot := rfl
@[simp] theorem State.modVd_xchg (s : State) (k : Nat) (g : Vd → Vd) : (s.modVd k g).xchg = s.xchg := rfl
@[simp] theorem State.modVd_l0 (s : State) (k : Nat) (g : Vd → Vd) : (s.modVd k g).l0 = s.l0 := rfl
@[simp] theorem State.modVd_cc (s : State) (k : Nat) (g : Vd → Vd) : (s.modVd k g).cc = s.cc := rfl
@[simp] theorem State.modVd_l2 (s : State) (k : Nat) (g : Vd → Vd) : (s.modVd k g).l2 = s.l2 := rfl
@[simp] theorem State.modVd_msc (s : State) (k : Nat) (g : Vd → Vd) : (s.modVd k g).msc = s.msc := rfl
@[simp] theorem State.modVd_pmsc (s : State) (k : Nat) (g : Vd → Vd) : (s.modVd k g).pmsc = s.pmsc := rfl
@[simp] theorem State.modVd_parErr (s : State) (k : Nat) (g : Vd → Vd) : (s.modVd k g).parErr = s.parErr := rfl
@[simp] theorem State.modVd_icache (s : State) (k : Nat) (g : Vd → Vd) : (s.modVd k g).icache = s.icache := rfl
@[simp] theorem State.modVd_waitAdds (s : State) (k : Nat) (g : Vd → Vd) : (s.modVd k g).waitAdds = s.waitAdds := rfl
@[simp] theorem State.modVd_ucopies (s : State) (k : Nat) (g : Vd → Vd) : (s.modVd k g).ucopies = s.ucopies := rfl
@[simp] theorem State.modVd_books (s : State) (k : Nat) (g : Vd → Vd) : (s.modVd k g).books = s.books := rfl
@[simp] theorem State.modVd_drains (s : State) (k : Nat) (g : Vd → Vd) : (s.modVd k g).drains = s.drains := rfl
@[simp] theorem State.modVd_shadows (s : State) (k : Nat) (g : Vd → Vd) : (s.modVd k g).shadows = s.shadows := rfl
@[simp] theorem State.modVd_tlb (s : State) (k : Nat) (g : Vd → Vd) : (s.modVd k g).tlb = s.tlb := rfl
@[simp] theorem State.modVd_walks (s : State) (k : Nat) (g : Vd → Vd) : (s.modVd k g).walks = s.walks := rfl
@[simp] theorem State.modVd_cmds (s : State) (k : Nat) (g : Vd → Vd) : (s.modVd k g).cmds = s.cmds := rfl
@[simp] theorem State.modVd_nextCmd (s : State) (k : Nat) (g : Vd → Vd) : (s.modVd k g).nextCmd = s.nextCmd := rfl
@[simp] theorem State.modVd_collSeq (s : State) (k : Nat) (g : Vd → Vd) : (s.modVd k g).collSeq = s.collSeq := rfl
@[simp] theorem State.modVd_collDone (s : State) (k : Nat) (g : Vd → Vd) : (s.modVd k g).collDone = s.collDone := rfl
@[simp] theorem State.modVd_cpyzIn (s : State) (k : Nat) (g : Vd → Vd) : (s.modVd k g).cpyzIn = s.cpyzIn := rfl
@[simp] theorem State.modVd_cpyzOut (s : State) (k : Nat) (g : Vd → Vd) : (s.modVd k g).cpyzOut = s.cpyzOut := rfl
@[simp] theorem State.modVd_damask (s : State) (k : Nat) (g : Vd → Vd) : (s.modVd k g).damask = s.damask := rfl
@[simp] theorem State.modVd_islandSel (s : State) (k : Nat) (g : Vd → Vd) : (s.modVd k g).islandSel = s.islandSel := rfl
@[simp] theorem State.modVd_islandMhz (s : State) (k : Nat) (g : Vd → Vd) : (s.modVd k g).islandMhz = s.islandMhz := rfl
@[simp] theorem State.modVd_islandNj (s : State) (k : Nat) (g : Vd → Vd) : (s.modVd k g).islandNj = s.islandNj := rfl
@[simp] theorem State.modVd_budgetLeft (s : State) (k : Nat) (g : Vd → Vd) : (s.modVd k g).budgetLeft = s.budgetLeft := rfl
@[simp] theorem State.modVd_deviceBudget (s : State) (k : Nat) (g : Vd → Vd) : (s.modVd k g).deviceBudget = s.deviceBudget := rfl
@[simp] theorem State.modVd_windowFrom (s : State) (k : Nat) (g : Vd → Vd) : (s.modVd k g).windowFrom = s.windowFrom := rfl
@[simp] theorem State.modVd_preemptTimeout (s : State) (k : Nat) (g : Vd → Vd) : (s.modVd k g).preemptTimeout = s.preemptTimeout := rfl
@[simp] theorem State.modVd_rotation (s : State) (k : Nat) (g : Vd → Vd) : (s.modVd k g).rotation = s.rotation := rfl
@[simp] theorem State.modVd_scanResults (s : State) (k : Nat) (g : Vd → Vd) : (s.modVd k g).scanResults = s.scanResults := rfl
@[simp] theorem State.modVd_ports (s : State) (k : Nat) (g : Vd → Vd) : (s.modVd k g).ports = s.ports := rfl
@[simp] theorem State.modVd_dead (s : State) (k : Nat) (g : Vd → Vd) : (s.modVd k g).dead = s.dead := rfl
@[simp] theorem State.modVd_clusterMap (s : State) (k : Nat) (g : Vd → Vd) : (s.modVd k g).clusterMap = s.clusterMap := rfl
@[simp] theorem State.modVd_fuseKeys (s : State) (k : Nat) (g : Vd → Vd) : (s.modVd k g).fuseKeys = s.fuseKeys := rfl
@[simp] theorem State.modVd_keys (s : State) (k : Nat) (g : Vd → Vd) : (s.modVd k g).keys = s.keys := rfl
@[simp] theorem State.modVd_measure (s : State) (k : Nat) (g : Vd → Vd) : (s.modVd k g).measure = s.measure := rfl
@[simp] theorem State.modVd_firmware (s : State) (k : Nat) (g : Vd → Vd) : (s.modVd k g).firmware = s.firmware := rfl
@[simp] theorem State.modVd_firmMap (s : State) (k : Nat) (g : Vd → Vd) : (s.modVd k g).firmMap = s.firmMap := rfl
@[simp] theorem State.modVd_loadStatus (s : State) (k : Nat) (g : Vd → Vd) : (s.modVd k g).loadStatus = s.loadStatus := rfl
@[simp] theorem State.modVd_spdm (s : State) (k : Nat) (g : Vd → Vd) : (s.modVd k g).spdm = s.spdm := rfl
@[simp] theorem State.modVd_telemetry (s : State) (k : Nat) (g : Vd → Vd) : (s.modVd k g).telemetry = s.telemetry := rfl
@[simp] theorem State.fib_modVd (s : State) (k j : Nat) (g : Vd → Vd) : (s.modVd k g).fib j = s.fib j := rfl
@[simp] theorem State.slot_modVd (s : State) (k j : Nat) (g : Vd → Vd) : (s.modVd k g).slot j = s.slot j := rfl
@[simp] theorem State.wg_modVd (s : State) (k j : Nat) (g : Vd → Vd) : (s.modVd k g).wg j = s.wg j := rfl
@[simp] theorem State.vd_modVd_self (s : State) (k : Nat) (g : Vd → Vd) : (s.modVd k g).vd k = g (s.vd k) := tget_tput_self _ _ _ _
theorem State.vd_modVd_ne (s : State) (k j : Nat) (g : Vd → Vd) (h : j ≠ k) : (s.modVd k g).vd j = s.vd j := tget_tput_ne _ _ _ _ _ h
@[simp] theorem State.core_modVd (s : State) (k j : Nat) (g : Vd → Vd) : (s.modVd k g).core j = s.core j := rfl

theorem State.modCore_eq (s : State) (k : Nat) (g : Core → Core) : s.modCore k g = s.setCore k (g (s.core k)) := rfl
@[simp] theorem State.modCore_agenda (s : State) (k : Nat) (g : Core → Core) : (s.modCore k g).agenda = s.agenda := rfl
@[simp] theorem State.modCore_evictions (s : State) (k : Nat) (g : Core → Core) : (s.modCore k g).evictions = s.evictions := rfl
@[simp] theorem State.modCore_free (s : State) (k : Nat) (g : Core → Core) : (s.modCore k g).free = s.free := rfl
@[simp] theorem State.modCore_dt (s : State) (k : Nat) (g : Core → Core) : (s.modCore k g).dt = s.dt := rfl
@[simp] theorem State.modCore_redInU (s : State) (k : Nat) (g : Core → Core) : (s.modCore k g).redInU = s.redInU := rfl
@[simp] theorem State.modCore_cur (s : State) (k : Nat) (g : Core → Core) : (s.modCore k g).cur = s.cur := rfl
@[simp] theorem State.modCore_quarter (s : State) (k : Nat) (g : Core → Core) : (s.modCore k g).quarter = s.quarter := rfl
@[simp] theorem State.modCore_feature (s : State) (k : Nat) (g : Core → Core) : (s.modCore k g).feature = s.feature := rfl
@[simp] theorem State.modCore_clock (s : State) (k : Nat) (g : Core → Core) : (s.modCore k g).clock = s.clock := rfl
@[simp] theorem State.modCore_mem (s : State) (k : Nat) (g : Core → Core) : (s.modCore k g).mem = s.mem := rfl
@[simp] theorem State.modCore_poison (s : State) (k : Nat) (g : Core → Core) : (s.modCore k g).poison = s.poison := rfl
@[simp] theorem State.modCore_hostMem (s : State) (k : Nat) (g : Core → Core) : (s.modCore k g).hostMem = s.hostMem := rfl
@[simp] theorem State.modCore_peerMem (s : State) (k : Nat) (g : Core → Core) : (s.modCore k g).peerMem = s.peerMem := rfl
@[simp] theorem State.modCore_net (s : State) (k : Nat) (g : Core → Core) : (s.modCore k g).net = s.net := rfl
@[simp] theorem State.modCore_fibres (s : State) (k : Nat) (g : Core → Core) : (s.modCore k g).fibres = s.fibres := rfl
@[simp] theorem State.modCore_slots (s : State) (k : Nat) (g : Core → Core) : (s.modCore k g).slots = s.slots := rfl
@[simp] theorem State.modCore_wgs (s : State) (k : Nat) (g : Core → Core) : (s.modCore k g).wgs = s.wgs := rfl
@[simp] theorem State.modCore_nextWg (s : State) (k : Nat) (g : Core → Core) : (s.modCore k g).nextWg = s.nextWg := rfl
@[simp] theorem State.modCore_grids (s : State) (k : Nat) (g : Core → Core) : (s.modCore k g).grids = s.grids := rfl
@[simp] theorem State.modCore_vds (s : State) (k : Nat) (g : Core → Core) : (s.modCore k g).vds = s.vds := rfl
@[simp] theorem State.modCore_banks (s : State) (k : Nat) (g : Core → Core) : (s.modCore k g).banks = s.banks := rfl
@[simp] theorem State.modCore_lastSlot (s : State) (k : Nat) (g : Core → Core) : (s.modCore k g).lastSlot = s.lastSlot := rfl
@[simp] theorem State.modCore_xchg (s : State) (k : Nat) (g : Core → Core) : (s.modCore k g).xchg = s.xchg := rfl
@[simp] theorem State.modCore_l0 (s : State) (k : Nat) (g : Core → Core) : (s.modCore k g).l0 = s.l0 := rfl
@[simp] theorem State.modCore_cc (s : State) (k : Nat) (g : Core → Core) : (s.modCore k g).cc = s.cc := rfl
@[simp] theorem State.modCore_l2 (s : State) (k : Nat) (g : Core → Core) : (s.modCore k g).l2 = s.l2 := rfl
@[simp] theorem State.modCore_msc (s : State) (k : Nat) (g : Core → Core) : (s.modCore k g).msc = s.msc := rfl
@[simp] theorem State.modCore_pmsc (s : State) (k : Nat) (g : Core → Core) : (s.modCore k g).pmsc = s.pmsc := rfl
@[simp] theorem State.modCore_parErr (s : State) (k : Nat) (g : Core → Core) : (s.modCore k g).parErr = s.parErr := rfl
@[simp] theorem State.modCore_icache (s : State) (k : Nat) (g : Core → Core) : (s.modCore k g).icache = s.icache := rfl
@[simp] theorem State.modCore_waitAdds (s : State) (k : Nat) (g : Core → Core) : (s.modCore k g).waitAdds = s.waitAdds := rfl
@[simp] theorem State.modCore_ucopies (s : State) (k : Nat) (g : Core → Core) : (s.modCore k g).ucopies = s.ucopies := rfl
@[simp] theorem State.modCore_books (s : State) (k : Nat) (g : Core → Core) : (s.modCore k g).books = s.books := rfl
@[simp] theorem State.modCore_drains (s : State) (k : Nat) (g : Core → Core) : (s.modCore k g).drains = s.drains := rfl
@[simp] theorem State.modCore_shadows (s : State) (k : Nat) (g : Core → Core) : (s.modCore k g).shadows = s.shadows := rfl
@[simp] theorem State.modCore_tlb (s : State) (k : Nat) (g : Core → Core) : (s.modCore k g).tlb = s.tlb := rfl
@[simp] theorem State.modCore_walks (s : State) (k : Nat) (g : Core → Core) : (s.modCore k g).walks = s.walks := rfl
@[simp] theorem State.modCore_cmds (s : State) (k : Nat) (g : Core → Core) : (s.modCore k g).cmds = s.cmds := rfl
@[simp] theorem State.modCore_nextCmd (s : State) (k : Nat) (g : Core → Core) : (s.modCore k g).nextCmd = s.nextCmd := rfl
@[simp] theorem State.modCore_collSeq (s : State) (k : Nat) (g : Core → Core) : (s.modCore k g).collSeq = s.collSeq := rfl
@[simp] theorem State.modCore_collDone (s : State) (k : Nat) (g : Core → Core) : (s.modCore k g).collDone = s.collDone := rfl
@[simp] theorem State.modCore_cpyzIn (s : State) (k : Nat) (g : Core → Core) : (s.modCore k g).cpyzIn = s.cpyzIn := rfl
@[simp] theorem State.modCore_cpyzOut (s : State) (k : Nat) (g : Core → Core) : (s.modCore k g).cpyzOut = s.cpyzOut := rfl
@[simp] theorem State.modCore_damask (s : State) (k : Nat) (g : Core → Core) : (s.modCore k g).damask = s.damask := rfl
@[simp] theorem State.modCore_islandSel (s : State) (k : Nat) (g : Core → Core) : (s.modCore k g).islandSel = s.islandSel := rfl
@[simp] theorem State.modCore_islandMhz (s : State) (k : Nat) (g : Core → Core) : (s.modCore k g).islandMhz = s.islandMhz := rfl
@[simp] theorem State.modCore_islandNj (s : State) (k : Nat) (g : Core → Core) : (s.modCore k g).islandNj = s.islandNj := rfl
@[simp] theorem State.modCore_budgetLeft (s : State) (k : Nat) (g : Core → Core) : (s.modCore k g).budgetLeft = s.budgetLeft := rfl
@[simp] theorem State.modCore_deviceBudget (s : State) (k : Nat) (g : Core → Core) : (s.modCore k g).deviceBudget = s.deviceBudget := rfl
@[simp] theorem State.modCore_windowFrom (s : State) (k : Nat) (g : Core → Core) : (s.modCore k g).windowFrom = s.windowFrom := rfl
@[simp] theorem State.modCore_preemptTimeout (s : State) (k : Nat) (g : Core → Core) : (s.modCore k g).preemptTimeout = s.preemptTimeout := rfl
@[simp] theorem State.modCore_rotation (s : State) (k : Nat) (g : Core → Core) : (s.modCore k g).rotation = s.rotation := rfl
@[simp] theorem State.modCore_scanResults (s : State) (k : Nat) (g : Core → Core) : (s.modCore k g).scanResults = s.scanResults := rfl
@[simp] theorem State.modCore_ports (s : State) (k : Nat) (g : Core → Core) : (s.modCore k g).ports = s.ports := rfl
@[simp] theorem State.modCore_dead (s : State) (k : Nat) (g : Core → Core) : (s.modCore k g).dead = s.dead := rfl
@[simp] theorem State.modCore_clusterMap (s : State) (k : Nat) (g : Core → Core) : (s.modCore k g).clusterMap = s.clusterMap := rfl
@[simp] theorem State.modCore_fuseKeys (s : State) (k : Nat) (g : Core → Core) : (s.modCore k g).fuseKeys = s.fuseKeys := rfl
@[simp] theorem State.modCore_keys (s : State) (k : Nat) (g : Core → Core) : (s.modCore k g).keys = s.keys := rfl
@[simp] theorem State.modCore_measure (s : State) (k : Nat) (g : Core → Core) : (s.modCore k g).measure = s.measure := rfl
@[simp] theorem State.modCore_firmware (s : State) (k : Nat) (g : Core → Core) : (s.modCore k g).firmware = s.firmware := rfl
@[simp] theorem State.modCore_firmMap (s : State) (k : Nat) (g : Core → Core) : (s.modCore k g).firmMap = s.firmMap := rfl
@[simp] theorem State.modCore_loadStatus (s : State) (k : Nat) (g : Core → Core) : (s.modCore k g).loadStatus = s.loadStatus := rfl
@[simp] theorem State.modCore_spdm (s : State) (k : Nat) (g : Core → Core) : (s.modCore k g).spdm = s.spdm := rfl
@[simp] theorem State.modCore_telemetry (s : State) (k : Nat) (g : Core → Core) : (s.modCore k g).telemetry = s.telemetry := rfl
@[simp] theorem State.fib_modCore (s : State) (k j : Nat) (g : Core → Core) : (s.modCore k g).fib j = s.fib j := rfl
@[simp] theorem State.slot_modCore (s : State) (k j : Nat) (g : Core → Core) : (s.modCore k g).slot j = s.slot j := rfl
@[simp] theorem State.wg_modCore (s : State) (k j : Nat) (g : Core → Core) : (s.modCore k g).wg j = s.wg j := rfl
@[simp] theorem State.vd_modCore (s : State) (k j : Nat) (g : Core → Core) : (s.modCore k g).vd j = s.vd j := rfl
@[simp] theorem State.core_modCore_self (s : State) (k : Nat) (g : Core → Core) : (s.modCore k g).core k = g (s.core k) := tget_tput_self _ _ _ _
theorem State.core_modCore_ne (s : State) (k j : Nat) (g : Core → Core) (h : j ≠ k) : (s.modCore k g).core j = s.core j := tget_tput_ne _ _ _ _ _ h

/-! A free value taken advances the counter alone. -/

@[simp] theorem State.takeBit_agenda (s : State) : s.takeBit.2.agenda = s.agenda := rfl
@[simp] theorem State.takeBit_evictions (s : State) : s.takeBit.2.evictions = s.evictions := rfl
@[simp] theorem State.takeBit_free (s : State) : s.takeBit.2.free = s.free + 1 := rfl
@[simp] theorem State.takeBit_dt (s : State) : s.takeBit.2.dt = s.dt := rfl
@[simp] theorem State.takeBit_redInU (s : State) : s.takeBit.2.redInU = s.redInU := rfl
@[simp] theorem State.takeBit_cur (s : State) : s.takeBit.2.cur = s.cur := rfl
@[simp] theorem State.takeBit_quarter (s : State) : s.takeBit.2.quarter = s.quarter := rfl
@[simp] theorem State.takeBit_feature (s : State) : s.takeBit.2.feature = s.feature := rfl
@[simp] theorem State.takeBit_clock (s : State) : s.takeBit.2.clock = s.clock := rfl
@[simp] theorem State.takeBit_mem (s : State) : s.takeBit.2.mem = s.mem := rfl
@[simp] theorem State.takeBit_poison (s : State) : s.takeBit.2.poison = s.poison := rfl
@[simp] theorem State.takeBit_hostMem (s : State) : s.takeBit.2.hostMem = s.hostMem := rfl
@[simp] theorem State.takeBit_peerMem (s : State) : s.takeBit.2.peerMem = s.peerMem := rfl
@[simp] theorem State.takeBit_net (s : State) : s.takeBit.2.net = s.net := rfl
@[simp] theorem State.takeBit_fibres (s : State) : s.takeBit.2.fibres = s.fibres := rfl
@[simp] theorem State.takeBit_slots (s : State) : s.takeBit.2.slots = s.slots := rfl
@[simp] theorem State.takeBit_wgs (s : State) : s.takeBit.2.wgs = s.wgs := rfl
@[simp] theorem State.takeBit_nextWg (s : State) : s.takeBit.2.nextWg = s.nextWg := rfl
@[simp] theorem State.takeBit_grids (s : State) : s.takeBit.2.grids = s.grids := rfl
@[simp] theorem State.takeBit_vds (s : State) : s.takeBit.2.vds = s.vds := rfl
@[simp] theorem State.takeBit_cores (s : State) : s.takeBit.2.cores = s.cores := rfl
@[simp] theorem State.takeBit_banks (s : State) : s.takeBit.2.banks = s.banks := rfl
@[simp] theorem State.takeBit_lastSlot (s : State) : s.takeBit.2.lastSlot = s.lastSlot := rfl
@[simp] theorem State.takeBit_xchg (s : State) : s.takeBit.2.xchg = s.xchg := rfl
@[simp] theorem State.takeBit_l0 (s : State) : s.takeBit.2.l0 = s.l0 := rfl
@[simp] theorem State.takeBit_cc (s : State) : s.takeBit.2.cc = s.cc := rfl
@[simp] theorem State.takeBit_l2 (s : State) : s.takeBit.2.l2 = s.l2 := rfl
@[simp] theorem State.takeBit_msc (s : State) : s.takeBit.2.msc = s.msc := rfl
@[simp] theorem State.takeBit_pmsc (s : State) : s.takeBit.2.pmsc = s.pmsc := rfl
@[simp] theorem State.takeBit_parErr (s : State) : s.takeBit.2.parErr = s.parErr := rfl
@[simp] theorem State.takeBit_icache (s : State) : s.takeBit.2.icache = s.icache := rfl
@[simp] theorem State.takeBit_waitAdds (s : State) : s.takeBit.2.waitAdds = s.waitAdds := rfl
@[simp] theorem State.takeBit_ucopies (s : State) : s.takeBit.2.ucopies = s.ucopies := rfl
@[simp] theorem State.takeBit_books (s : State) : s.takeBit.2.books = s.books := rfl
@[simp] theorem State.takeBit_drains (s : State) : s.takeBit.2.drains = s.drains := rfl
@[simp] theorem State.takeBit_shadows (s : State) : s.takeBit.2.shadows = s.shadows := rfl
@[simp] theorem State.takeBit_tlb (s : State) : s.takeBit.2.tlb = s.tlb := rfl
@[simp] theorem State.takeBit_walks (s : State) : s.takeBit.2.walks = s.walks := rfl
@[simp] theorem State.takeBit_cmds (s : State) : s.takeBit.2.cmds = s.cmds := rfl
@[simp] theorem State.takeBit_nextCmd (s : State) : s.takeBit.2.nextCmd = s.nextCmd := rfl
@[simp] theorem State.takeBit_collSeq (s : State) : s.takeBit.2.collSeq = s.collSeq := rfl
@[simp] theorem State.takeBit_collDone (s : State) : s.takeBit.2.collDone = s.collDone := rfl
@[simp] theorem State.takeBit_cpyzIn (s : State) : s.takeBit.2.cpyzIn = s.cpyzIn := rfl
@[simp] theorem State.takeBit_cpyzOut (s : State) : s.takeBit.2.cpyzOut = s.cpyzOut := rfl
@[simp] theorem State.takeBit_damask (s : State) : s.takeBit.2.damask = s.damask := rfl
@[simp] theorem State.takeBit_islandSel (s : State) : s.takeBit.2.islandSel = s.islandSel := rfl
@[simp] theorem State.takeBit_islandMhz (s : State) : s.takeBit.2.islandMhz = s.islandMhz := rfl
@[simp] theorem State.takeBit_islandNj (s : State) : s.takeBit.2.islandNj = s.islandNj := rfl
@[simp] theorem State.takeBit_budgetLeft (s : State) : s.takeBit.2.budgetLeft = s.budgetLeft := rfl
@[simp] theorem State.takeBit_deviceBudget (s : State) : s.takeBit.2.deviceBudget = s.deviceBudget := rfl
@[simp] theorem State.takeBit_windowFrom (s : State) : s.takeBit.2.windowFrom = s.windowFrom := rfl
@[simp] theorem State.takeBit_preemptTimeout (s : State) : s.takeBit.2.preemptTimeout = s.preemptTimeout := rfl
@[simp] theorem State.takeBit_rotation (s : State) : s.takeBit.2.rotation = s.rotation := rfl
@[simp] theorem State.takeBit_scanResults (s : State) : s.takeBit.2.scanResults = s.scanResults := rfl
@[simp] theorem State.takeBit_ports (s : State) : s.takeBit.2.ports = s.ports := rfl
@[simp] theorem State.takeBit_dead (s : State) : s.takeBit.2.dead = s.dead := rfl
@[simp] theorem State.takeBit_clusterMap (s : State) : s.takeBit.2.clusterMap = s.clusterMap := rfl
@[simp] theorem State.takeBit_fuseKeys (s : State) : s.takeBit.2.fuseKeys = s.fuseKeys := rfl
@[simp] theorem State.takeBit_keys (s : State) : s.takeBit.2.keys = s.keys := rfl
@[simp] theorem State.takeBit_measure (s : State) : s.takeBit.2.measure = s.measure := rfl
@[simp] theorem State.takeBit_firmware (s : State) : s.takeBit.2.firmware = s.firmware := rfl
@[simp] theorem State.takeBit_firmMap (s : State) : s.takeBit.2.firmMap = s.firmMap := rfl
@[simp] theorem State.takeBit_loadStatus (s : State) : s.takeBit.2.loadStatus = s.loadStatus := rfl
@[simp] theorem State.takeBit_spdm (s : State) : s.takeBit.2.spdm = s.spdm := rfl
@[simp] theorem State.takeBit_telemetry (s : State) : s.takeBit.2.telemetry = s.telemetry := rfl

@[simp] theorem State.takeW32_agenda (s : State) : s.takeW32.2.agenda = s.agenda := rfl
@[simp] theorem State.takeW32_evictions (s : State) : s.takeW32.2.evictions = s.evictions := rfl
@[simp] theorem State.takeW32_free (s : State) : s.takeW32.2.free = s.free + 1 := rfl
@[simp] theorem State.takeW32_dt (s : State) : s.takeW32.2.dt = s.dt := rfl
@[simp] theorem State.takeW32_redInU (s : State) : s.takeW32.2.redInU = s.redInU := rfl
@[simp] theorem State.takeW32_cur (s : State) : s.takeW32.2.cur = s.cur := rfl
@[simp] theorem State.takeW32_quarter (s : State) : s.takeW32.2.quarter = s.quarter := rfl
@[simp] theorem State.takeW32_feature (s : State) : s.takeW32.2.feature = s.feature := rfl
@[simp] theorem State.takeW32_clock (s : State) : s.takeW32.2.clock = s.clock := rfl
@[simp] theorem State.takeW32_mem (s : State) : s.takeW32.2.mem = s.mem := rfl
@[simp] theorem State.takeW32_poison (s : State) : s.takeW32.2.poison = s.poison := rfl
@[simp] theorem State.takeW32_hostMem (s : State) : s.takeW32.2.hostMem = s.hostMem := rfl
@[simp] theorem State.takeW32_peerMem (s : State) : s.takeW32.2.peerMem = s.peerMem := rfl
@[simp] theorem State.takeW32_net (s : State) : s.takeW32.2.net = s.net := rfl
@[simp] theorem State.takeW32_fibres (s : State) : s.takeW32.2.fibres = s.fibres := rfl
@[simp] theorem State.takeW32_slots (s : State) : s.takeW32.2.slots = s.slots := rfl
@[simp] theorem State.takeW32_wgs (s : State) : s.takeW32.2.wgs = s.wgs := rfl
@[simp] theorem State.takeW32_nextWg (s : State) : s.takeW32.2.nextWg = s.nextWg := rfl
@[simp] theorem State.takeW32_grids (s : State) : s.takeW32.2.grids = s.grids := rfl
@[simp] theorem State.takeW32_vds (s : State) : s.takeW32.2.vds = s.vds := rfl
@[simp] theorem State.takeW32_cores (s : State) : s.takeW32.2.cores = s.cores := rfl
@[simp] theorem State.takeW32_banks (s : State) : s.takeW32.2.banks = s.banks := rfl
@[simp] theorem State.takeW32_lastSlot (s : State) : s.takeW32.2.lastSlot = s.lastSlot := rfl
@[simp] theorem State.takeW32_xchg (s : State) : s.takeW32.2.xchg = s.xchg := rfl
@[simp] theorem State.takeW32_l0 (s : State) : s.takeW32.2.l0 = s.l0 := rfl
@[simp] theorem State.takeW32_cc (s : State) : s.takeW32.2.cc = s.cc := rfl
@[simp] theorem State.takeW32_l2 (s : State) : s.takeW32.2.l2 = s.l2 := rfl
@[simp] theorem State.takeW32_msc (s : State) : s.takeW32.2.msc = s.msc := rfl
@[simp] theorem State.takeW32_pmsc (s : State) : s.takeW32.2.pmsc = s.pmsc := rfl
@[simp] theorem State.takeW32_parErr (s : State) : s.takeW32.2.parErr = s.parErr := rfl
@[simp] theorem State.takeW32_icache (s : State) : s.takeW32.2.icache = s.icache := rfl
@[simp] theorem State.takeW32_waitAdds (s : State) : s.takeW32.2.waitAdds = s.waitAdds := rfl
@[simp] theorem State.takeW32_ucopies (s : State) : s.takeW32.2.ucopies = s.ucopies := rfl
@[simp] theorem State.takeW32_books (s : State) : s.takeW32.2.books = s.books := rfl
@[simp] theorem State.takeW32_drains (s : State) : s.takeW32.2.drains = s.drains := rfl
@[simp] theorem State.takeW32_shadows (s : State) : s.takeW32.2.shadows = s.shadows := rfl
@[simp] theorem State.takeW32_tlb (s : State) : s.takeW32.2.tlb = s.tlb := rfl
@[simp] theorem State.takeW32_walks (s : State) : s.takeW32.2.walks = s.walks := rfl
@[simp] theorem State.takeW32_cmds (s : State) : s.takeW32.2.cmds = s.cmds := rfl
@[simp] theorem State.takeW32_nextCmd (s : State) : s.takeW32.2.nextCmd = s.nextCmd := rfl
@[simp] theorem State.takeW32_collSeq (s : State) : s.takeW32.2.collSeq = s.collSeq := rfl
@[simp] theorem State.takeW32_collDone (s : State) : s.takeW32.2.collDone = s.collDone := rfl
@[simp] theorem State.takeW32_cpyzIn (s : State) : s.takeW32.2.cpyzIn = s.cpyzIn := rfl
@[simp] theorem State.takeW32_cpyzOut (s : State) : s.takeW32.2.cpyzOut = s.cpyzOut := rfl
@[simp] theorem State.takeW32_damask (s : State) : s.takeW32.2.damask = s.damask := rfl
@[simp] theorem State.takeW32_islandSel (s : State) : s.takeW32.2.islandSel = s.islandSel := rfl
@[simp] theorem State.takeW32_islandMhz (s : State) : s.takeW32.2.islandMhz = s.islandMhz := rfl
@[simp] theorem State.takeW32_islandNj (s : State) : s.takeW32.2.islandNj = s.islandNj := rfl
@[simp] theorem State.takeW32_budgetLeft (s : State) : s.takeW32.2.budgetLeft = s.budgetLeft := rfl
@[simp] theorem State.takeW32_deviceBudget (s : State) : s.takeW32.2.deviceBudget = s.deviceBudget := rfl
@[simp] theorem State.takeW32_windowFrom (s : State) : s.takeW32.2.windowFrom = s.windowFrom := rfl
@[simp] theorem State.takeW32_preemptTimeout (s : State) : s.takeW32.2.preemptTimeout = s.preemptTimeout := rfl
@[simp] theorem State.takeW32_rotation (s : State) : s.takeW32.2.rotation = s.rotation := rfl
@[simp] theorem State.takeW32_scanResults (s : State) : s.takeW32.2.scanResults = s.scanResults := rfl
@[simp] theorem State.takeW32_ports (s : State) : s.takeW32.2.ports = s.ports := rfl
@[simp] theorem State.takeW32_dead (s : State) : s.takeW32.2.dead = s.dead := rfl
@[simp] theorem State.takeW32_clusterMap (s : State) : s.takeW32.2.clusterMap = s.clusterMap := rfl
@[simp] theorem State.takeW32_fuseKeys (s : State) : s.takeW32.2.fuseKeys = s.fuseKeys := rfl
@[simp] theorem State.takeW32_keys (s : State) : s.takeW32.2.keys = s.keys := rfl
@[simp] theorem State.takeW32_measure (s : State) : s.takeW32.2.measure = s.measure := rfl
@[simp] theorem State.takeW32_firmware (s : State) : s.takeW32.2.firmware = s.firmware := rfl
@[simp] theorem State.takeW32_firmMap (s : State) : s.takeW32.2.firmMap = s.firmMap := rfl
@[simp] theorem State.takeW32_loadStatus (s : State) : s.takeW32.2.loadStatus = s.loadStatus := rfl
@[simp] theorem State.takeW32_spdm (s : State) : s.takeW32.2.spdm = s.spdm := rfl
@[simp] theorem State.takeW32_telemetry (s : State) : s.takeW32.2.telemetry = s.telemetry := rfl

end Sys2Proof.Machine
end

