-- ==== Sys2Proof/Laws/Issue.lean ====
section
/-! SUPPORT. What the ends of a word do: `finish` and `issue` under the condition that nothing alters a word's results. -/

namespace Sys2Proof.Machine

/-- What one register write does to its fibre. -/
def Fibre.put (f : Fibre) : RegWrite → Fibre
  | .stk _ _ _ => f
  | .sreg n v => f.setSreg n v
  | .lrec n v => { f with lregs := tput f.lregs n v }

/-- What one register write of a fibre does to its slot. -/
def Slot.put (k : Nat) (x : Slot) : RegWrite → Slot
  | .stk e l v => { x with stack := tset 0 x.stack (32 * e + l) v, stackBad := tdel x.stackBad (32 * e + l),
                           races := if (32 * e + l) / 32 < x.window then x.races
                             else tput x.races (32 * e + l) (noteRace (tfind x.races (32 * e + l)) (tget 0 x.stack (32 * e + l)) (fibIdx k) v) }
  | _ => x

/-- Only the fibre k and its slot change. -/
structure Near (k : Nat) (s t : State) : Prop where
  rest   : { t with fibres := s.fibres, slots := s.slots } = s
  fibres : ∀ j, j ≠ k → t.fib j = s.fib j
  slots  : ∀ j, j ≠ slotOf k → t.slot j = s.slot j

theorem Near.refl (k : Nat) (s : State) : Near k s s := ⟨rfl, fun _ _ => rfl, fun _ _ => rfl⟩

theorem Near.trans {k : Nat} {s t u : State} (h : Near k s t) (g : Near k t u) : Near k s u := by
  refine ⟨?_, fun j hj => (g.fibres j hj).trans (h.fibres j hj), fun j hj => (g.slots j hj).trans (h.slots j hj)⟩
  have h1 := h.rest
  have g1 := g.rest
  rw [← g1] at h1
  exact h1

theorem Near.setFib (k : Nat) (s : State) (f : Fibre) : Near k s (s.setFib k f) :=
  ⟨rfl, fun j hj => by simp [State.fib, tget_tput_ne _ _ _ _ _ hj], fun _ _ => rfl⟩

theorem Near.modFib (k : Nat) (s : State) (g : Fibre → Fibre) : Near k s (s.modFib k g) := Near.setFib k s _

theorem Near.modSlot (k : Nat) (s : State) (g : Slot → Slot) : Near k s (s.modSlot (slotOf k) g) :=
  ⟨rfl, fun _ _ => rfl, fun j hj => by simp [State.modSlot, State.slot, tget_tput_ne _ _ _ _ _ hj]⟩

theorem Near.local {s t : State} (h : Near s.cur s t) : Local s t := ⟨h.rest, h.fibres, h.slots⟩

theorem Near.cur {k : Nat} {s t : State} (h : Near k s t) : t.cur = s.cur := by
  have := congrArg State.cur h.rest
  exact this

theorem Near.wgs {k : Nat} {s t : State} (h : Near k s t) : t.wgs = s.wgs := by
  have := congrArg State.wgs h.rest
  exact this

theorem Near.mem {k : Nat} {s t : State} (h : Near k s t) : t.mem = s.mem := by
  have := congrArg State.mem h.rest
  exact this

theorem Near.regWrite (k : Nat) (s : State) (w : RegWrite) : Near k s (s.regWrite k w) := by
  cases w with
  | stk e l v => unfold State.regWrite; exact Near.modSlot k s _
  | sreg n v => exact Near.modFib k s (fun f => f.setSreg n v)
  | lrec n v => exact Near.modFib k s (fun f => { f with lregs := tput f.lregs n v })

theorem Near.regWrites (k : Nat) (s : State) (ws : List RegWrite) : Near k s (s.regWrites k ws) := by
  unfold State.regWrites
  induction ws generalizing s with
  | nil => exact Near.refl k s
  | cons w l ih => exact (Near.regWrite k s w).trans (ih _)

theorem Near.select (k : Nat) (s : State) : Near k s (s.select k) := by
  unfold State.select
  dsimp only
  split <;> exact Near.setFib k s _

@[simp] theorem State.regWrite_fib (s : State) (k : Nat) (w : RegWrite) : (s.regWrite k w).fib k = (s.fib k).put w := by
  cases w
  · rfl
  · exact State.fib_modFib_self _ _ _
  · exact State.fib_modFib_self _ _ _

@[simp] theorem State.regWrite_slot (s : State) (k : Nat) (w : RegWrite) : (s.regWrite k w).slot (slotOf k) = (s.slot (slotOf k)).put k w := by
  cases w
  · simp [State.regWrite, State.modSlot, State.slot, Slot.put]
  · rfl
  · rfl

@[simp] theorem State.regWrites_fib (s : State) (k : Nat) (ws : List RegWrite) : (s.regWrites k ws).fib k = ws.foldl Fibre.put (s.fib k) := by
  unfold State.regWrites
  induction ws generalizing s with
  | nil => rfl
  | cons w l ih => rw [List.foldl_cons, List.foldl_cons, ih, State.regWrite_fib]

@[simp] theorem State.regWrites_slot (s : State) (k : Nat) (ws : List RegWrite) :
    (s.regWrites k ws).slot (slotOf k) = ws.foldl (Slot.put k) (s.slot (slotOf k)) := by
  unfold State.regWrites
  induction ws generalizing s with
  | nil => rfl
  | cons w l ih => rw [List.foldl_cons, List.foldl_cons, ih, State.regWrite_slot]

/-- `select` moves entries of the frontier alone. -/
theorem State.select_fib (s : State) (k : Nat) : ∃ fr, (s.select k).fib k = { s.fib k with frontier := fr } := by
  unfold State.select
  dsimp only
  split
  · exact ⟨_, State.fib_setFib_self _ _ _⟩
  · exact ⟨_, State.fib_setFib_self _ _ _⟩

@[simp] theorem State.select_slot (s : State) (k j : Nat) : (s.select k).slot j = s.slot j := by
  unfold State.select
  dsimp only
  split <;> rfl

/-- With no window open there is none to close. -/
theorem State.closeWindows_eq (s : State) (k : Nat) (p : EphWin → Bool) (h : (s.fib k).eph = []) : s.closeWindows k p = s := by
  unfold State.closeWindows
  simp [h]

theorem State.leaveClauses_eq (s : State) (k : Nat) (h : (s.fib k).eph = []) : s.leaveClauses k = s := s.closeWindows_eq k _ h

/-- With no window open, windows end in nothing. -/
theorem State.endWindows_eq (s : State) (k : Nat) (h : (s.fib k).eph = []) : s.endWindows k = s := s.closeWindows_eq k _ h

/-- `advance` moves entries of the frontier alone, where no window is open or the word leaves the fibre in its clause. -/
theorem State.advance_moves (s : State) (k : Nat)
    (h : (s.fib k).eph = [] ∨ ((s.fib k).entry.next.inside = true ∧ (s.fib k).entry.atCtl = false)) :
    Near k s (s.advance k) ∧ (∃ fr, (s.advance k).fib k = { s.fib k with frontier := fr }) ∧ ∀ j, (s.advance k).slot j = s.slot j := by
  unfold State.advance
  dsimp only
  split
  · exact ⟨Near.setFib k s _, ⟨_, State.fib_setFib_self _ _ _⟩, fun _ => rfl⟩
  · rename_i hn
    have he : (s.fib k).eph = [] := by
      rcases h with h | ⟨h1, h2⟩
      · exact h
      · simp [h1, h2] at hn
    obtain ⟨fr, hf⟩ := State.select_fib (s.setFib k { s.fib k with frontier := mergeAll ((s.fib k).entry.next :: (s.fib k).frontier.drop 1) }) k
    rw [State.fib_setFib_self] at hf
    rw [State.leaveClauses_eq _ _ (by rw [hf]; exact he)]
    exact ⟨(Near.setFib k s _).trans (Near.select k _), ⟨fr, hf⟩, fun j => by rw [State.select_slot]; rfl⟩

@[simp] theorem Fibre.put_kept (f : Fibre) (w : RegWrite) : (f.put w).kept = f.kept.put w := by
  cases w <;> rfl

theorem Fibre.foldl_put_kept (ws : List RegWrite) (f : Fibre) : (ws.foldl Fibre.put f).kept = ws.foldl Fibre.put f.kept := by
  induction ws generalizing f with
  | nil => rfl
  | cons w l ih => rw [List.foldl_cons, List.foldl_cons, ih, Fibre.put_kept]

theorem Fibre.foldl_put_pend (ws : List RegWrite) (f : Fibre) : (ws.foldl Fibre.put f).pend = f.pend := by
  induction ws generalizing f with
  | nil => rfl
  | cons w l ih => rw [List.foldl_cons, ih]; cases w <;> rfl

theorem Fibre.foldl_put_eph (ws : List RegWrite) (f : Fibre) : (ws.foldl Fibre.put f).eph = f.eph := by
  induction ws generalizing f with
  | nil => rfl
  | cons w l ih => rw [List.foldl_cons, ih]; cases w <;> rfl

/-- With no window open, counting a word brings pending words nearer and does nothing else. -/
theorem State.counted_eq (s : State) (k : Nat) (h : (s.fib k).eph = []) : s.counted k = s.setFib k (s.fib k).countWord := by
  have h1 : (s.modFib k Fibre.countWord).fib k = (s.fib k).countWord := State.fib_modFib_self _ _ _
  unfold State.counted State.countWindows
  dsimp only
  rw [h1, if_pos (by simp [Fibre.countWord, h])]
  rfl

/-- With no window open, a write supersedes nothing. -/
theorem State.supersede_eq (s : State) (k : Nat) (rs : List RegWrite) (h : (s.fib k).eph = []) : s.supersede k rs = s := by
  unfold State.supersede
  simp [h]

theorem State.supersedePred_eq (s : State) (k d : Nat) (m : LaneMask) (h : (s.fib k).eph = []) : s.supersedePred k d m = s := by
  unfold State.supersedePred
  simp [h]

/-- What a fixed-latency word leaves of its fibre and slot where nothing alters its results: exactly its writes. -/
structure Ended (s : State) (ws : List RegWrite) (t : State) : Prop where
  near : Near s.cur s t
  kept : t.me.kept = (ws.foldl Fibre.put s.me).kept
  slot : t.mySlot = ws.foldl (Slot.put s.cur) s.mySlot
  pend : SamePend s t

theorem Fibre.foldl_put_frontier (ws : List RegWrite) (f : Fibre) : (ws.foldl Fibre.put f).frontier = f.frontier := by
  induction ws generalizing f with
  | nil => rfl
  | cons w l ih => rw [List.foldl_cons, ih]; cases w <;> rfl

theorem State.finishWith_ended (s : State) (ws : List RegWrite) (pold : List (Nat × LaneMask × LaneMask)) (hp : Plain s) :
    Ended s ws (s.finishWith s.cur ws pold) := by
  have hw : (s.fib s.cur).eph = [] := hp.windows
  have hl := hp.lasting
  unfold State.finishWith
  extract_lets e s1 old s2 s3
  have hs1 : s1 = s.setFib s.cur (s.fib s.cur).countWord := State.counted_eq s s.cur hw
  have hs1f : s1.fib s.cur = (s.fib s.cur).countWord := by rw [hs1, State.fib_setFib_self]
  have hs1e : (s1.fib s.cur).eph = [] := by rw [hs1f]; exact hw
  have hs2 : s2 = s1 := State.supersede_eq _ _ _ hs1e
  have hs3 : ∃ w, s3.fib s.cur = { (s.fib s.cur).countWord with eph := w } ∧ (w = [] ∨ e.isEph = true) ∧ Near s.cur s s3 ∧
      s3.slot (slotOf s.cur) = s.slot (slotOf s.cur) := by
    have hn1 : Near s.cur s s1 := by rw [hs1]; exact Near.setFib _ _ _
    by_cases he : e.isEph = true
    · have h3 : ∃ g : Fibre → Fibre, s3 = s1.modFib s.cur g ∧ ∀ f, g f = { f with eph := (g f).eph } := by
        refine ⟨_, (if_pos he).trans (by rw [hs2]), fun f => rfl⟩
      obtain ⟨g, h3, hg⟩ := h3
      refine ⟨(g (s.fib s.cur).countWord).eph, ?_, .inr he, ?_, ?_⟩
      · rw [h3, State.fib_modFib_self, hs1f]
        exact hg _
      · rw [h3]
        exact hn1.trans (Near.modFib _ _ _)
      · rw [h3, hs1]
        rfl
    · have h3 : s3 = s1 := (if_neg he).trans hs2
      refine ⟨[], ?_, .inl rfl, h3 ▸ hn1, ?_⟩
      · rw [h3, hs1f]
        exact congrArg (fun x => { (s.fib s.cur).countWord with eph := x }) hw
      · rw [h3, hs1]
        rfl
  obtain ⟨w, hf3, hw3, hn3, hsl3⟩ := hs3
  have hf4 : (s3.regWrites s.cur ws).fib s.cur = ws.foldl Fibre.put (s3.fib s.cur) := State.regWrites_fib _ _ _
  have hent : ((s3.regWrites s.cur ws).fib s.cur).entry = e := by
    rw [hf4]
    unfold Fibre.entry
    rw [Fibre.foldl_put_frontier, hf3]
    rfl
  obtain ⟨hna, ⟨fr, hfa⟩, hsa⟩ := State.advance_moves (s3.regWrites s.cur ws) s.cur (by
    rcases hw3 with h | h
    · exact .inl (by rw [hf4, Fibre.foldl_put_eph, hf3, h])
    · rw [hent]; exact .inr (hl h))
  have hnear := (hn3.trans (Near.regWrites s.cur s3 ws)).trans hna
  have hcur : ((s3.regWrites s.cur ws).advance s.cur).cur = s.cur := hnear.cur
  refine ⟨hnear, ?_, ?_, ?_⟩
  · unfold State.me
    rw [hcur, hfa]
    show ((s3.regWrites s.cur ws).fib s.cur).kept = _
    rw [hf4, Fibre.foldl_put_kept, Fibre.foldl_put_kept, hf3]
    rfl
  · unfold State.mySlot
    rw [hcur, hsa, State.regWrites_slot, hsl3]
  · unfold SamePend State.me
    rw [hcur, hfa]
    show ((s3.regWrites s.cur ws).fib s.cur).pend = _
    rw [hf4, Fibre.foldl_put_pend, hf3]

theorem State.finish_ended (s : State) (ws : List RegWrite) (hp : Plain s) : Ended s ws (s.finish s.cur ws) := s.finishWith_ended ws [] hp

/-! What a list of stack writes leaves. -/

/-- The key of a stack write. -/
def RegWrite.stackKey : RegWrite → Option Nat
  | .stk e l _ => some (32 * e + l)
  | _ => none

/-- The value of a stack write. -/
def RegWrite.stackVal : RegWrite → W32
  | .stk _ _ v => v
  | _ => 0

theorem Slot.put_ne (k : Nat) (x : Slot) (w : RegWrite) (q : Nat) (h : w.stackKey ≠ some q) : tget 0 (x.put k w).stack q = tget 0 x.stack q := by
  cases w with
  | stk e l v => exact tget_tset_ne _ _ _ _ _ (fun hq => h (congrArg some hq.symm))
  | sreg n v => rfl
  | lrec n v => rfl

theorem Slot.puts_ne (k : Nat) (ws : List RegWrite) (x : Slot) (q : Nat) (h : ∀ w ∈ ws, w.stackKey ≠ some q) :
    tget 0 (ws.foldl (Slot.put k) x).stack q = tget 0 x.stack q := by
  induction ws generalizing x with
  | nil => rfl
  | cons w l ih =>
    rw [List.foldl_cons, ih _ (fun u hu => h u (List.mem_cons_of_mem _ hu)), Slot.put_ne _ _ _ _ (h w List.mem_cons_self)]

theorem Slot.puts_eq (k : Nat) (ws : List RegWrite) (x : Slot) (q : Nat) (v : W32) (hm : ∃ w ∈ ws, w.stackKey = some q)
    (hv : ∀ w ∈ ws, w.stackKey = some q → w.stackVal = v) : tget 0 (ws.foldl (Slot.put k) x).stack q = v := by
  induction ws generalizing x with
  | nil => obtain ⟨w, hw, -⟩ := hm; simp at hw
  | cons w l ih =>
    rw [List.foldl_cons]
    by_cases hl : ∃ u ∈ l, u.stackKey = some q
    · exact ih _ hl (fun u hu => hv u (List.mem_cons_of_mem _ hu))
    · rw [Slot.puts_ne k l _ q (fun u hu hq => hl ⟨u, hu, hq⟩)]
      obtain ⟨u, hu, hq⟩ := hm
      rcases List.mem_cons.1 hu with rfl | hu
      · have := hv u List.mem_cons_self hq
        cases u with
        | stk e l v' =>
          simp only [RegWrite.stackKey, Option.some.injEq] at hq
          subst hq
          simp only [RegWrite.stackVal] at this
          subst this
          exact tget_tset_self _ _ _ _
        | sreg n v => simp [RegWrite.stackKey] at hq
        | lrec n v => simp [RegWrite.stackKey] at hq
      · exact absurd ⟨u, hu, hq⟩ hl

/-- A write of another entry leaves the unordered writes of an entry alone, and so does every write of an entry that is not shared (R25). -/
theorem Slot.put_race (k : Nat) (x : Slot) (w : RegWrite) (q : Nat) (h : w.stackKey ≠ some q ∨ q / 32 < x.window) :
    tfind (x.put k w).races q = tfind x.races q := by
  cases w with
  | stk e l v =>
    simp only [Slot.put]
    split
    · rfl
    · rename_i hw
      refine tfind_tput_ne _ _ _ _ (fun hq => ?_)
      subst hq
      rcases h with h | h
      · exact h rfl
      · exact hw h
  | sreg n v => rfl
  | lrec n v => rfl

@[simp] theorem Slot.put_window (k : Nat) (x : Slot) (w : RegWrite) : (x.put k w).window = x.window := by cases w <;> rfl

theorem Slot.puts_race (k : Nat) (ws : List RegWrite) (x : Slot) (q : Nat) (h : (∀ w ∈ ws, w.stackKey ≠ some q) ∨ q / 32 < x.window) :
    tfind (ws.foldl (Slot.put k) x).races q = tfind x.races q := by
  induction ws generalizing x with
  | nil => rfl
  | cons w l ih =>
    rw [List.foldl_cons, ih, Slot.put_race]
    · exact h.imp (fun h => h w List.mem_cons_self) id
    · exact h.imp (fun h u hu => h u (List.mem_cons_of_mem _ hu)) (by rw [Slot.put_window]; exact id)

/-- Stack writes change the stack of a slot without soft errors, the unordered writes of its shared window, and nothing else of it. -/
theorem Slot.puts_rest (k : Nat) (ws : List RegWrite) (x : Slot) (h : x.stackBad = []) : SameSlot x (ws.foldl (Slot.put k) x) := by
  refine ⟨?_, fun q hq => Slot.puts_race k ws x q (.inr hq)⟩
  induction ws generalizing x with
  | nil => rfl
  | cons w l ih =>
    have hb : (x.put k w).stackBad = [] := by
      cases w
      · simp [Slot.put, h, tdel]
      · exact h
      · exact h
    have hx : x.put k w = { x with stack := (x.put k w).stack, races := (x.put k w).races } := by
      cases w
      · simp only [Slot.put, h, tdel]
      · rfl
      · rfl
    rw [List.foldl_cons]
    have := ih _ hb
    rw [hx] at this ⊢
    exact this

theorem Fibre.puts_stk (ws : List RegWrite) (f : Fibre) (h : ∀ w ∈ ws, ∃ q, w.stackKey = some q) : ws.foldl Fibre.put f = f := by
  induction ws generalizing f with
  | nil => rfl
  | cons w l ih =>
    have hw : f.put w = f := by
      obtain ⟨q, hq⟩ := h w List.mem_cons_self
      cases w
      · rfl
      · simp [RegWrite.stackKey] at hq
      · simp [RegWrite.stackKey] at hq
    rw [List.foldl_cons, hw, ih _ (fun u hu => h u (List.mem_cons_of_mem _ hu))]

/-- A word whose writes are all of the register stack. -/
theorem Ended.stackOnly {s t : State} {ws : List RegWrite} (hp : Plain s) (h : Ended s ws t) (hs : ∀ w ∈ ws, ∃ q, w.stackKey = some q) :
    StackOnly s t := by
  refine ⟨h.near.local, ?_, h.pend, ?_⟩
  · rw [h.kept, Fibre.puts_stk ws _ hs]
  · rw [h.slot]
    exact Slot.puts_rest _ ws _ hp.vectors

/-! The writes of a vec word. -/

@[simp] theorem mem_lanesOf (m : LaneMask) (l : Nat) : l ∈ lanesOf m ↔ l < 32 ∧ m.getLsbD l = true := by
  simp [lanesOf, lanes]

/-- Every write of a vec word is one of v(d), or of v(d+1) for a 64-bit type, in an acting lane or, under Z, in another of the fibre's. -/
theorem State.mem_vecWrites (s : State) (d : Nat) (wide z : Bool) (acts : LaneMask) (res : Nat → Nat) (w : RegWrite) :
    w ∈ s.vecWrites s.cur d wide z acts res ↔ ∃ l, l < 32 ∧
      ((acts.getLsbD l = true ∧ (if wide then w = .stk (s.vent d) l (BitVec.ofNat 32 (res l % 2 ^ 32)) ∨
          w = .stk (s.vent (d + 1)) l (BitVec.ofNat 32 (res l / 2 ^ 32 % 2 ^ 32)) else w = .stk (s.vent d) l (BitVec.ofNat 32 (res l)))) ∨
       (z = true ∧ acts.getLsbD l = false ∧ s.me.everLanes.getLsbD l = true ∧
        (if wide then w = .stk (s.vent d) l 0 ∨ w = .stk (s.vent (d + 1)) l 0 else w = .stk (s.vent d) l 0))) := by
  have lo (n : Nat) : (BitVec.ofNat 64 n).extractLsb' 0 32 = BitVec.ofNat 32 (n % 2 ^ 32) := by
    apply BitVec.eq_of_toNat_eq; simp
  have hi (n : Nat) : (BitVec.ofNat 64 n).extractLsb' 32 32 = BitVec.ofNat 32 (n / 2 ^ 32 % 2 ^ 32) := by
    apply BitVec.eq_of_toNat_eq; simp [Nat.shiftRight_eq_div_pow]; omega
  unfold State.vecWrites
  cases wide <;> cases z <;>
    simp only [State.vw64, State.vw, lo, hi, State.vent, State.me, List.mem_append, List.mem_flatMap, mem_lanesOf, List.mem_cons, List.not_mem_nil,
      or_false, if_true, Bool.false_eq_true, if_false, BitVec.getLsbD_and, BitVec.getLsbD_not, Bool.and_eq_true, Bool.not_eq_true',
      decide_eq_true_eq, false_and, true_and]
  · constructor
    · rintro ⟨l, ⟨h1, h2⟩, h3⟩; exact ⟨l, h1, h2, h3⟩
    · rintro ⟨l, h1, h2, h3⟩; exact ⟨l, ⟨h1, h2⟩, h3⟩
  · constructor
    · rintro (⟨l, ⟨h1, h2⟩, h3⟩ | ⟨l, ⟨h1, h2, h4, h5⟩, h3⟩)
      · exact ⟨l, h1, .inl ⟨h2, h3⟩⟩
      · exact ⟨l, h1, .inr ⟨h5, h2, h3⟩⟩
    · rintro ⟨l, h1, ⟨h2, h3⟩ | ⟨h5, h2, h3⟩⟩
      · exact .inl ⟨l, ⟨h1, h2⟩, h3⟩
      · exact .inr ⟨l, ⟨h1, h2, h1, h5⟩, h3⟩
  · constructor
    · rintro ⟨l, ⟨h1, h2⟩, h3⟩; exact ⟨l, h1, h2, h3⟩
    · rintro ⟨l, h1, h2, h3⟩; exact ⟨l, ⟨h1, h2⟩, h3⟩
  · constructor
    · rintro (⟨l, ⟨h1, h2⟩, h3⟩ | ⟨l, ⟨h1, h2, h4, h5⟩, h3⟩)
      · exact ⟨l, h1, .inl ⟨h2, h3⟩⟩
      · exact ⟨l, h1, .inr ⟨h5, h2, h3⟩⟩
    · rintro ⟨l, h1, ⟨h2, h3⟩ | ⟨h5, h2, h3⟩⟩
      · exact .inl ⟨l, ⟨h1, h2⟩, h3⟩
      · exact .inr ⟨l, ⟨h1, h2, h1, h5⟩, h3⟩

theorem State.vecWrites_stk (s : State) (d : Nat) (wide z : Bool) (acts : LaneMask) (res : Nat → Nat) :
    ∀ w ∈ s.vecWrites s.cur d wide z acts res, ∃ q, w.stackKey = some q := by
  intro w hw
  obtain ⟨l, -, ⟨-, h⟩ | ⟨-, -, -, h⟩⟩ := (State.mem_vecWrites s d wide z acts res w).1 hw <;> cases wide <;>
    simp only [if_true, Bool.false_eq_true, if_false] at h
  · subst h; exact ⟨_, rfl⟩
  · rcases h with rfl | rfl <;> exact ⟨_, rfl⟩
  · subst h; exact ⟨_, rfl⟩
  · rcases h with rfl | rfl <;> exact ⟨_, rfl⟩

theorem stackKey_inj {e l e' l' : Nat} (h : l < 32) (h' : l' < 32) (hq : 32 * e + l = 32 * e' + l') : e = e' ∧ l = l' := by
  omega

/-- The writes of a vec word, made at its end, are all that a plain word changes. -/
theorem State.vecEnd_of_ended {s t : State} {d : Nat} {wide z : Bool} {acts : LaneMask} {res : Nat → Nat} (hp : Plain s)
    (hd : s.pairOk d wide) (ha : acts ≠ 0) (h : Ended s (s.vecWrites s.cur d wide z acts res) t) : VecEnd s d wide z acts res t := by
  have hm := State.mem_vecWrites s d wide z acts res
  have ha' : ¬ acts = 0#32 := ha
  refine ⟨h.stackOnly hp (State.vecWrites_stk s d wide z acts res), ?_, ?_, ?_, ?_⟩
  · rintro rfl l hl
    simp only [Slot.at, h.slot]
    by_cases hc : acts.getLsbD l = true
    · rw [if_pos hc]
      refine Slot.puts_eq _ _ _ _ _ ⟨_, (hm _).2 ⟨l, hl, .inl ⟨hc, rfl⟩⟩, rfl⟩ (fun w hw hq => ?_)
      obtain ⟨l', hl', ⟨h1, h2⟩ | ⟨h0, h1, h1', h2⟩⟩ := (hm w).1 hw <;> simp only [Bool.false_eq_true, if_false] at h2 <;> subst h2
      · simp only [RegWrite.stackKey, Option.some.injEq] at hq
        obtain ⟨-, rfl⟩ := stackKey_inj hl' hl hq
        rfl
      · simp only [RegWrite.stackKey, Option.some.injEq] at hq
        obtain ⟨-, rfl⟩ := stackKey_inj hl' hl hq
        rw [h1] at hc; simp at hc
    · rw [if_neg hc]
      by_cases hz : z = true ∧ s.me.everLanes.getLsbD l = true
      · rw [if_pos (by simp [hz.1, ha', hz.2])]
        refine Slot.puts_eq _ _ _ _ _ ⟨_, (hm _).2 ⟨l, hl, .inr ⟨hz.1, by simpa using hc, hz.2, rfl⟩⟩, rfl⟩ (fun w hw hq => ?_)
        obtain ⟨l', hl', ⟨h1, h2⟩ | ⟨h0, h1, h1', h2⟩⟩ := (hm w).1 hw <;> simp only [Bool.false_eq_true, if_false] at h2 <;> subst h2
        · simp only [RegWrite.stackKey, Option.some.injEq] at hq
          obtain ⟨-, rfl⟩ := stackKey_inj hl' hl hq
          exact absurd h1 hc
        · rfl
      · rw [if_neg (by simpa [ha'] using hz)]
        refine Slot.puts_ne _ _ _ _ (fun w hw hq => ?_)
        obtain ⟨l', hl', ⟨h1, h2⟩ | ⟨h0, h1, h1', h2⟩⟩ := (hm w).1 hw <;> simp only [Bool.false_eq_true, if_false] at h2 <;> subst h2
        · simp only [RegWrite.stackKey, Option.some.injEq] at hq
          obtain ⟨-, rfl⟩ := stackKey_inj hl' hl hq
          exact hc h1
        · simp only [RegWrite.stackKey, Option.some.injEq] at hq
          obtain ⟨-, rfl⟩ := stackKey_inj hl' hl hq
          exact hz ⟨h0, h1'⟩
  · rintro rfl l hl
    have hne := hd rfl
    simp only [Slot.at, h.slot]
    by_cases hc : acts.getLsbD l = true
    · rw [if_pos hc]
      refine Slot.puts_eq _ _ _ _ _ ⟨_, (hm _).2 ⟨l, hl, .inl ⟨hc, .inl rfl⟩⟩, rfl⟩ (fun w hw hq => ?_)
      obtain ⟨l', hl', ⟨h1, h2 | h2⟩ | ⟨h0, h1, h1', h2 | h2⟩⟩ := (hm w).1 hw <;> subst h2 <;>
        simp only [RegWrite.stackKey, Option.some.injEq] at hq <;> obtain ⟨he, rfl⟩ := stackKey_inj hl' hl hq
      · rfl
      · exact absurd he hne
      · rw [h1] at hc; simp at hc
      · exact absurd he hne
    · rw [if_neg hc]
      by_cases hz : z = true ∧ s.me.everLanes.getLsbD l = true
      · rw [if_pos (by simp [hz.1, ha', hz.2])]
        refine Slot.puts_eq _ _ _ _ _ ⟨_, (hm _).2 ⟨l, hl, .inr ⟨hz.1, by simpa using hc, hz.2, .inl rfl⟩⟩, rfl⟩ (fun w hw hq => ?_)
        obtain ⟨l', hl', ⟨h1, h2 | h2⟩ | ⟨h0, h1, h1', h2 | h2⟩⟩ := (hm w).1 hw <;> subst h2 <;>
          simp only [RegWrite.stackKey, Option.some.injEq] at hq <;> obtain ⟨he, rfl⟩ := stackKey_inj hl' hl hq
        · exact absurd h1 hc
        · exact absurd h1 hc
        · rfl
        · rfl
      · rw [if_neg (by simpa [ha'] using hz)]
        refine Slot.puts_ne _ _ _ _ (fun w hw hq => ?_)
        obtain ⟨l', hl', ⟨h1, h2 | h2⟩ | ⟨h0, h1, h1', h2 | h2⟩⟩ := (hm w).1 hw <;> subst h2 <;>
          simp only [RegWrite.stackKey, Option.some.injEq] at hq <;> obtain ⟨he, rfl⟩ := stackKey_inj hl' hl hq
        · exact hc h1
        · exact hc h1
        · exact hz ⟨h0, h1'⟩
        · exact hz ⟨h0, h1'⟩
  · rintro rfl l hl
    have hne := hd rfl
    simp only [Slot.at, h.slot]
    by_cases hc : acts.getLsbD l = true
    · rw [if_pos hc]
      refine Slot.puts_eq _ _ _ _ _ ⟨_, (hm _).2 ⟨l, hl, .inl ⟨hc, .inr rfl⟩⟩, rfl⟩ (fun w hw hq => ?_)
      obtain ⟨l', hl', ⟨h1, h2 | h2⟩ | ⟨h0, h1, h1', h2 | h2⟩⟩ := (hm w).1 hw <;> subst h2 <;>
        simp only [RegWrite.stackKey, Option.some.injEq] at hq <;> obtain ⟨he, rfl⟩ := stackKey_inj hl' hl hq
      · exact absurd he.symm hne
      · rfl
      · rw [h1] at hc; simp at hc
      · rw [h1] at hc; simp at hc
    · rw [if_neg hc]
      by_cases hz : z = true ∧ s.me.everLanes.getLsbD l = true
      · rw [if_pos (by simp [hz.1, ha', hz.2])]
        refine Slot.puts_eq _ _ _ _ _ ⟨_, (hm _).2 ⟨l, hl, .inr ⟨hz.1, by simpa using hc, hz.2, .inr rfl⟩⟩, rfl⟩ (fun w hw hq => ?_)
        obtain ⟨l', hl', ⟨h1, h2 | h2⟩ | ⟨h0, h1, h1', h2 | h2⟩⟩ := (hm w).1 hw <;> subst h2 <;>
          simp only [RegWrite.stackKey, Option.some.injEq] at hq <;> obtain ⟨he, rfl⟩ := stackKey_inj hl' hl hq
        · exact absurd h1 hc
        · exact absurd h1 hc
        · rfl
        · rfl
      · rw [if_neg (by simpa [ha'] using hz)]
        refine Slot.puts_ne _ _ _ _ (fun w hw hq => ?_)
        obtain ⟨l', hl', ⟨h1, h2 | h2⟩ | ⟨h0, h1, h1', h2 | h2⟩⟩ := (hm w).1 hw <;> subst h2 <;>
          simp only [RegWrite.stackKey, Option.some.injEq] at hq <;> obtain ⟨he, rfl⟩ := stackKey_inj hl' hl hq
        · exact hc h1
        · exact hc h1
        · exact hz ⟨h0, h1'⟩
        · exact hz ⟨h0, h1'⟩
  · intro e l hl h1 h2
    simp only [Slot.holds, Slot.at, h.slot]
    suffices hn : ∀ w ∈ s.vecWrites s.cur d wide z acts res, w.stackKey ≠ some (32 * e + l) by
      rw [Slot.puts_ne _ _ _ _ hn, Slot.puts_race _ _ _ _ (.inl hn)]
    intro w hw hq
    obtain ⟨l', hl', ⟨-, h3⟩ | ⟨-, -, -, h3⟩⟩ := (hm w).1 hw <;> cases wide <;>
      simp only [if_true, Bool.false_eq_true, if_false] at h3
    · subst h3
      simp only [RegWrite.stackKey, Option.some.injEq] at hq
      exact h1 (stackKey_inj hl' hl hq).1.symm
    · rcases h3 with rfl | rfl <;> simp only [RegWrite.stackKey, Option.some.injEq] at hq
      · exact h1 (stackKey_inj hl' hl hq).1.symm
      · exact h2 rfl (stackKey_inj hl' hl hq).1.symm
    · subst h3
      simp only [RegWrite.stackKey, Option.some.injEq] at hq
      exact h1 (stackKey_inj hl' hl hq).1.symm
    · rcases h3 with rfl | rfl <;> simp only [RegWrite.stackKey, Option.some.injEq] at hq
      · exact h1 (stackKey_inj hl' hl hq).1.symm
      · exact h2 rfl (stackKey_inj hl' hl hq).1.symm

/-- A word without acting lanes ends with no effect (R66). -/
theorem State.vecEnd_of_none {s t : State} {d : Nat} {wide z : Bool} {acts : LaneMask} {res : Nat → Nat} (hp : Plain s)
    (ha : acts = 0) (h : Ended s [] t) : VecEnd s d wide z acts res t := by
  subst ha
  have hs : t.mySlot = s.mySlot := h.slot
  refine ⟨h.stackOnly hp (by simp), ?_, ?_, ?_, ?_⟩ <;> simp [hs]

theorem State.vfinish_eq (s : State) (ws : List RegWrite) (hp : Plain s) : s.vfinish s.cur ws = s.finish s.cur ws := by
  have h : (s.fib s.cur).shadow = false := hp.single
  simp [State.vfinish, State.shadowFilter, h]

theorem State.vecPoison_eq (s : State) (f : V3) (tyA : Nat) (useA : Bool) (b : BUse) (useC : Bool) (acts : LaneMask) (hp : Plain s) :
    s.vecPoison s.cur f tyA useA b useC acts = false := by
  have h1 : (s.fib s.cur).sBad = [] := hp.scalars
  have h2 : (s.fib s.cur).pBad = [] := hp.predicates
  have h3 : (s.slot (slotOf s.cur)).stackBad = [] := hp.vectors
  simp [State.vecPoison, State.pBadSrc, State.sBadSrc, State.stackPoison, h1, h2, h3, tget, tfind]

/-- What a fixed-latency vec word leaves. -/
theorem State.vecOp_end (s : State) (f : V3) (b : BUse) (useC wide : Bool) (res : Nat → Nat) (hp : Plain s) (hd : s.pairOk f.d.toNat wide) :
    VecEnd s f.d.toNat wide f.z (s.acts s.cur f.hd) res (s.vecOp s.cur f b useC wide res) := by
  unfold State.vecOp
  dsimp only
  split
  · exact State.vecEnd_of_none hp ‹_› (State.finish_ended s [] hp)
  · rw [State.vecPoison_eq s f _ _ _ _ _ hp, if_neg (by simp), State.vfinish_eq s _ hp]
    exact State.vecEnd_of_ended hp hd ‹_› (State.finish_ended s _ hp)

/-- What a conversion leaves. -/
theorem State.cvtOp_end (s : State) (f : V3) (res : Nat → Nat) (hp : Plain s) (hd : s.pairOk f.d.toNat (ty64 f.ty.toNat)) :
    VecEnd s f.d.toNat (ty64 f.ty.toNat) f.z (s.acts s.cur f.hd) res (s.cvtOp s.cur f res) := by
  unfold State.cvtOp
  dsimp only
  split
  · exact State.vecEnd_of_none hp ‹_› (State.finish_ended s [] hp)
  · rw [State.vecPoison_eq s f _ _ _ _ _ hp, if_neg (by simp), State.vfinish_eq s _ hp]
    exact State.vecEnd_of_ended hp hd ‹_› (State.finish_ended s _ hp)

theorem Ended.quiet {s t : State} (h : Ended s [] t) : Quiet s t := ⟨h.near.local, h.slot, h.kept, h.pend⟩

/-- A word whose guard holds in no lane, and one that has no result, leave everything as it was. -/
theorem State.finish_quiet (s : State) (hp : Plain s) : Quiet s (s.finish s.cur []) := (State.finish_ended s [] hp).quiet

@[simp] theorem Fibre.setSreg_self (f : Fibre) (n : Nat) (v : W64) : (f.setSreg n v).sreg n = v := by
  simp [Fibre.setSreg, Fibre.sreg]

theorem Fibre.setSreg_ne (f : Fibre) (n m : Nat) (v : W64) (h : m ≠ n) : (f.setSreg n v).sreg m = f.sreg m := by
  simp [Fibre.setSreg, Fibre.sreg, tget_tput_ne _ _ _ _ _ h]

theorem State.finish_sreg (s : State) (d : Nat) (v : W64) (hp : Plain s) : ScaEnd s d v (s.finish s.cur [.sreg d v]) := by
  have h := State.finish_ended s [.sreg d v] hp
  have hb : s.me.sBad = [] := hp.scalars
  have hs : (s.finish s.cur [.sreg d v]).me.sregs = (s.me.setSreg d v).sregs := by
    have := congrArg Fibre.sregs h.kept
    exact this
  refine ⟨h.near.local, h.slot, h.pend, ?_, ?_, ?_⟩
  · rw [h.kept, hs]
    show (s.me.setSreg d v).kept = _
    simp only [Fibre.setSreg, Fibre.kept, hb, tdel]
  · unfold Fibre.sreg
    rw [hs]
    exact Fibre.setSreg_self _ _ _
  · intro n hn
    unfold Fibre.sreg
    rw [hs]
    exact Fibre.setSreg_ne _ _ _ _ hn

theorem State.pBadSrc_eq (s : State) (i : Nat) (hp : Plain s) : s.pBadSrc s.cur i = false := by
  have h2 : (s.fib s.cur).pBad = [] := hp.predicates
  simp [State.pBadSrc, h2, tget, tfind]

theorem State.sBadSrc_eq (s : State) (x : BitVec 6) (hp : Plain s) : s.sBadSrc s.cur x = false := by
  have h2 : (s.fib s.cur).sBad = [] := hp.scalars
  simp [State.sBadSrc, h2, tget, tfind]

theorem State.stackPoison_eq (s : State) (l : List Nat) (hp : Plain s) : s.stackPoison s.cur l = false := by
  have h2 : (s.slot (slotOf s.cur)).stackBad = [] := hp.vectors
  simp [State.stackPoison, h2]

/-- What a fixed-latency sca word leaves. -/
theorem State.scaOp_end (s : State) (hd : Head) (d : BitVec 6) (srcs : List (BitVec 6)) (v : W64) (hp : Plain s) (ha : s.acts s.cur hd ≠ 0) :
    ScaEnd s d.toNat v (s.scaOp s.cur hd d srcs v) := by
  unfold State.scaOp
  rw [if_neg ha, State.pBadSrc_eq _ _ hp]
  rw [if_neg (by simp [State.sBadSrc_eq _ _ hp])]
  exact State.finish_sreg s _ v hp

theorem State.scaOp_quiet (s : State) (hd : Head) (d : BitVec 6) (srcs : List (BitVec 6)) (v : W64) (hp : Plain s) (ha : s.acts s.cur hd = 0) :
    Quiet s (s.scaOp s.cur hd d srcs v) := by
  unfold State.scaOp
  rw [if_pos ha]
  exact State.finish_quiet s hp

/-! Predicates. -/

theorem foldl_bits (p : Nat → Bool) (n : Nat) :
    (∀ l, ((List.range n).foldl (fun n l => if p l then n + 2 ^ l else n) 0).testBit l = (decide (l < n) && p l)) ∧
      (List.range n).foldl (fun n l => if p l then n + 2 ^ l else n) 0 < 2 ^ n := by
  induction n with
  | zero => simp
  | succ n ih =>
    obtain ⟨ih, hlt⟩ := ih
    rw [List.range_succ, List.foldl_append]
    simp only [List.foldl_cons, List.foldl_nil]
    generalize (List.range n).foldl (fun n l => if p l then n + 2 ^ l else n) 0 = m at ih hlt
    constructor
    · intro l
      split
      · rename_i hn
        rw [Nat.add_comm]
        rcases Nat.lt_trichotomy l n with h | h | h
        · rw [Nat.testBit_two_pow_add_gt h, ih l]
          congr 1
          simp only [decide_eq_decide]
          omega
        · subst h
          rw [Nat.testBit_two_pow_add_eq, ih l]
          simp [hn]
        · rw [Nat.testBit_lt_two_pow]
          · have : ¬ l < n + 1 := by omega
            simp [this]
          · have := Nat.pow_le_pow_right (n := 2) (by omega) h
            rw [Nat.pow_succ] at this
            omega
      · rename_i hn
        rw [ih l]
        by_cases h : l = n
        · subst h; simp [hn]
        · congr 1
          simp only [decide_eq_decide]
          omega
    · split <;> omega

@[simp] theorem maskOf_getLsbD (p : Nat → Bool) (l : Nat) : (maskOf p).getLsbD l = (decide (l < 32) && p l) := by
  obtain ⟨h, -⟩ := foldl_bits p 32
  unfold maskOf lanes
  rw [BitVec.getLsbD_ofNat, h l]
  cases decide (l < 32) <;> simp

theorem Fibre.preg_setPreg_self (f : Fibre) (i : Nat) (m v : LaneMask) (h : i % 8 ≠ 7) :
    (f.setPreg i m v).preg i = (f.preg i &&& ~~~m) ||| (v &&& m) := by
  simp [Fibre.setPreg, Fibre.preg, h]

theorem Fibre.preg_setPreg_ne (f : Fibre) (i n : Nat) (m v : LaneMask) (h : n % 8 ≠ i % 8) : (f.setPreg i m v).preg n = f.preg n := by
  unfold Fibre.setPreg
  split
  · rfl
  · unfold Fibre.preg
    split
    · rfl
    · exact tget_tput_ne _ _ _ _ _ h

@[simp] theorem Fibre.preg_seven (f : Fibre) : f.preg 7 = BitVec.allOnes 32 := rfl

theorem State.modFib_ended {s u : State} {g : Fibre → Fibre} (hu : u = s.modFib s.cur g) (hcur : u.cur = s.cur) {t : State}
    (h : Ended u [] t) (hw : (g s.me).countWord.pend = s.me.countWord.pend) :
    Local s t ∧ t.mySlot = s.mySlot ∧ SamePend s t ∧ t.me.kept = (g s.me).kept := by
  have hme : u.me = g s.me := by unfold State.me; rw [hcur, hu, State.fib_modFib_self]
  have hn : Near s.cur s u := by rw [hu]; exact Near.modFib _ _ _
  have hn2 : Near s.cur u t := hcur ▸ h.near
  refine ⟨(hn.trans hn2).local, ?_, ?_, ?_⟩
  · rw [h.slot]
    show u.mySlot = s.mySlot
    unfold State.mySlot
    rw [hcur, hu]; rfl
  · show t.me.pend = _
    rw [h.pend, hme, hw]
  · rw [h.kept, List.foldl_nil, hme]

/-- A word whose other inputs are plain stays plain where only registers of its fibre change. -/
theorem Plain.modFib {s : State} {g : Fibre → Fibre} (hp : Plain s) (hs : (g s.me).sBad = []) (hb : (g s.me).pBad = [])
    (hd : (g s.me).shadow = false) (he : (g s.me).eph = []) (hf : (g s.me).entry = s.me.entry) : Plain (s.modFib s.cur g) := by
  have hme : (s.modFib s.cur g).me = g s.me := State.fib_modFib_self _ _ _
  refine ⟨?_, ?_, ?_, ?_, ?_, ?_⟩ <;> (try rw [hme]) <;> (try assumption)
  · exact hp.vectors
  · rw [hf]; exact hp.lasting

/-- What a word that writes a predicate leaves (R218). -/
theorem State.predOp_end (s : State) (hd : Head) (d : Nat) (ps : List Nat) (srcs : List (BitVec 6)) (v : Nat → Bool) (hp : Plain s)
    (ha : s.acts s.cur hd ≠ 0) : PredEnd s d (s.acts s.cur hd) v (s.predOp s.cur hd d ps srcs v) := by
  unfold State.predOp
  dsimp only
  rw [if_neg ha, State.pBadSrc_eq _ _ hp, if_neg (by simp [State.sBadSrc_eq _ _ hp, State.pBadSrc_eq _ _ hp])]
  generalize hacts : s.acts s.cur hd = acts at ha
  have hpb : s.me.pBad = [] := hp.predicates
  have hkept : (s.me.setPreg d acts (maskOf v)) = { s.me with pregs := (s.me.setPreg d acts (maskOf v)).pregs } := by
    unfold Fibre.setPreg
    split
    · rfl
    · simp [hpb, tdel]
  have hpl : Plain (s.modFib s.cur (fun f => f.setPreg d acts (maskOf v))) := by
    apply hp.modFib <;> rw [hkept]
    · exact hp.scalars
    · exact hp.predicates
    · exact hp.single
    · exact hp.windows
    · rfl
  rw [State.supersedePred_eq _ s.cur d acts hpl.windows]
  have h := State.finish_ended _ [] hpl
  have hf : (s.modFib s.cur (fun f => f.setPreg d acts (maskOf v))).cur = s.cur := rfl
  rw [hf] at h
  obtain ⟨h1, h2, h3, h4⟩ := State.modFib_ended rfl hf h (by rw [hkept]; rfl)
  generalize (s.modFib s.cur (fun f => f.setPreg d acts (maskOf v))).finish s.cur [] = t at h1 h2 h3 h4
  have hpr : t.me.pregs = (s.me.setPreg d acts (maskOf v)).pregs := by
    have := congrArg Fibre.pregs h4
    exact this
  have hpreg : ∀ n, t.me.preg n = (s.me.setPreg d acts (maskOf v)).preg n := by
    intro n
    unfold Fibre.preg
    rw [hpr]
  refine ⟨h1, h2, h3, ?_, ?_, ?_, rfl⟩
  · rw [h4, hpr, hkept]; rfl
  · intro hd7 l hl
    rw [hpreg, Fibre.preg_setPreg_self _ _ _ _ hd7]
    simp only [BitVec.getLsbD_or, BitVec.getLsbD_and, BitVec.getLsbD_not, maskOf_getLsbD, hl, decide_true, Bool.true_and]
    cases acts.getLsbD l <;> simp
  · intro n hn
    rw [hpreg, Fibre.preg_setPreg_ne _ _ _ _ _ hn]

theorem State.predOp_quiet (s : State) (hd : Head) (d : Nat) (ps : List Nat) (srcs : List (BitVec 6)) (v : Nat → Bool) (hp : Plain s)
    (ha : s.acts s.cur hd = 0) : Quiet s (s.predOp s.cur hd d ps srcs v) := by
  unfold State.predOp
  dsimp only
  rw [if_pos ha]
  exact State.finish_quiet s hp

/-! Long-latency words. -/

/-- What the issue of a long-latency word leaves. -/
theorem State.issue_owes (s : State) (hd : Head) (kind : PKind) (ready : Bool) (ws : List RegWrite) (hp : Plain s) :
    Owes s hd kind ready ws (s.issue s.cur hd (mkPend kind ws ready none)) := by
  have hw : (s.fib s.cur).eph = [] := hp.windows
  unfold State.issue
  extract_lets e s1 p
  have hs1 : s1 = s.setFib s.cur (s.fib s.cur).countWord := State.counted_eq s s.cur hw
  generalize hs2 : s1.modFib s.cur _ = s2
  have hs2f : s2.fib s.cur = { (s.fib s.cur).countWord with pend := (s.fib s.cur).countWord.pend ++ [{ p with pc := e.pc }] } := by
    rw [← hs2, State.fib_modFib_self, hs1, State.fib_setFib_self]
  have hn2 : Near s.cur s s2 := by
    rw [← hs2, hs1]
    exact (Near.setFib _ _ _).trans (Near.modFib _ _ _)
  obtain ⟨hna, ⟨fr, hfa⟩, hsa⟩ := State.advance_moves s2 s.cur (.inl (by rw [hs2f]; exact hw))
  have hnear := hn2.trans hna
  have hcur : (s2.advance s.cur).cur = s.cur := hnear.cur
  refine ⟨hnear.local, ?_, ?_, ?_⟩
  · unfold State.mySlot
    rw [hcur, hsa, ← hs2, hs1]
    rfl
  · unfold State.me
    rw [hcur, hfa, hs2f]
    rfl
  · unfold State.me
    rw [hcur, hfa, hs2f]
    show (s.fib s.cur).countWord.pend ++ _ = _
    congr 1
    show [{ p with pc := e.pc }] = _
    by_cases h15 : hd.la = 15
    · simp only [p, mkPend, State.headed, if_pos h15, e, State.me]
    · simp only [p, mkPend, State.headed, if_neg h15, e, State.me]

/-- What a long-latency vec word leaves when it issues. -/
theorem State.vecLong_owes (s : State) (f : V3) (wide : Bool) (res : Nat → Nat) (hp : Plain s) (ha : s.acts s.cur f.hd ≠ 0) :
    Owes s f.hd .other true (s.vecWrites s.cur f.d.toNat wide f.z (s.acts s.cur f.hd) res) (s.vecLong s.cur f wide res) := by
  have h : (s.fib s.cur).shadow = false := hp.single
  unfold State.vecLong
  dsimp only
  rw [if_neg ha, State.vecPoison_eq s f _ _ _ _ _ hp, if_neg (by simp)]
  simp only [State.shadowFilter, h, Bool.false_eq_true, if_false]
  exact State.issue_owes s f.hd _ _ _ hp

theorem State.vecLong_quiet (s : State) (f : V3) (wide : Bool) (res : Nat → Nat) (hp : Plain s) (ha : s.acts s.cur f.hd = 0) :
    Quiet s (s.vecLong s.cur f wide res) := by
  unfold State.vecLong
  dsimp only
  rw [if_pos ha]
  exact State.finish_quiet s hp

/-! Taking a trap. -/

theorem State.completeReady_eq (s : State) (k : Nat) (h : (s.fib k).pend = []) : s.completeReady k = s := by
  unfold State.completeReady
  simp [h]

theorem State.peek_outside (s : State) (k : Nat) (e : Entry) (h : e.inside = false) :
    (s.peek k e).pc = e.pc ∧ (s.peek k e).inside = false ∧ (s.peek k e).fp = e.fp ∧ (s.peek k e).mask = e.mask ∧ (s.peek k e).wait = e.wait := by
  unfold State.peek
  split
  · exact ⟨rfl, h, rfl, rfl, rfl⟩
  · split
    · exact ⟨rfl, h, rfl, rfl, rfl⟩
    · exact ⟨rfl, h, rfl, rfl, rfl⟩

/-- Selecting in a frontier of one entry that has lanes: it stays, with its header looked at. -/
theorem State.select_one (s : State) (k : Nat) (e : Entry) (h : (s.fib k).frontier = [e]) (hm : e.mask ≠ 0) :
    s.select k = s.setFib k { s.fib k with frontier := [s.peek k e] } := by
  have hpm : (s.peek k e).mask = e.mask := by
    unfold State.peek
    split
    · rfl
    · split <;> rfl
  have h1 : mergeAll ([e].map (fun e => s.peek k e)) = [s.peek k e] := by
    have hm' : ¬ e.mask = 0#32 := hm
    simp [mergeAll, addEntry, hpm, hm']
  unfold State.select
  dsimp only
  rw [h, h1]
  split
  · rfl
  · rename_i b hb
    have : b = s.peek k e := by
      simp only [bestEntry] at hb
      split at hb
      · simpa using hb.symm
      · simp at hb
    subst this
    simp

theorem State.takeTrap_took (s : State) (t : TrapInfo) (c : Cause) (hc : t.cause = c) (hpc : t.pc = s.me.entry.pc)
    (h : CanTrap s) : TookTrap s c t.lane t.addr t.code t.resume (s.takeTrap s.cur t) := by
  subst hc
  have hm := h.lanes
  have h0 : (s.completeReady s.cur).endWindows s.cur = s := by
    rw [State.completeReady_eq s s.cur h.pend, State.endWindows_eq s s.cur h.windows]
  have hr : (s.fib s.cur).raised = none := h.raised
  have hi : (s.fib s.cur).trap.inh = false := h.inh
  have hv : (s.wg (wgOf s.cur)).kd.trapvec ≠ 0 := h.vector
  unfold State.takeTrap
  dsimp only
  rw [h0, hr, hi]
  dsimp only
  rw [if_neg (by simpa using hv)]
  rw [State.select_one _ _ _ (by rw [State.fib_setFib_self]) (by exact hm)]
  rw [State.fib_setFib_self]
  generalize hu : State.setFib s s.cur _ = u
  have hn : Near s.cur s u := by rw [← hu]; exact Near.setFib _ _ _
  have hcur : u.cur = s.cur := hn.cur
  obtain ⟨p1, p2, p3, p4, -⟩ := State.peek_outside u s.cur ((s.fib s.cur).entry.jump (s.wg (wgOf s.cur)).kd.trapvec (s.fib s.cur).entry.fp (s.fib s.cur).entry.mask) rfl
  have hslot : u.slot (slotOf s.cur) = s.slot (slotOf s.cur) := by rw [← hu]; rfl
  constructor
  case near => exact (hn.trans (Near.setFib _ _ _)).local
  case slot =>
    show (State.setFib u s.cur _).slot (slotOf (State.setFib u s.cur _).cur) = s.slot (slotOf s.cur)
    rw [show (State.setFib u s.cur _).cur = s.cur from hcur]
    exact hslot
  all_goals (try unfold State.me); (try rw [show (State.setFib u s.cur _).cur = s.cur from hcur]); (try rw [State.fib_setFib_self])
  case pc => exact hpc
  case saved =>
    intro i hi
    have : i = 0 ∨ i = 1 ∨ i = 2 ∨ i = 3 := by omega
    rcases this with rfl | rfl | rfl | rfl <;> rfl
  case at_ => exact ⟨_, rfl, p1, p2, p3, p4⟩
  case regs => exact ⟨rfl, rfl, rfl, rfl⟩
  all_goals rfl

/-- A precise trap at the selected word, where it can be taken at once. -/
theorem State.trapHere_took (s : State) (c : Cause) (lane : Nat) (addr : W64) (code : BitVec 16) (h : CanTrap s) :
    TookTrap s c lane addr code s.me.entry.pc (s.trapHere s.cur c lane addr code) := by
  have hp : (s.fib s.cur).pend = [] := h.pend
  unfold State.trapHere State.raise
  dsimp only
  rw [hp, if_pos (by simp)]
  exact State.takeTrap_took s { cause := c, lane := lane, addr := addr, code := code, pc := s.me.entry.pc, resume := s.me.entry.pc } c rfl rfl h

end Sys2Proof.Machine
end

