-- ==== Sys2Proof/Laws/Alu.lean ====
section
/-! SUPPORT. Elements of packed values, and how the words of the vec and sca classes end. -/

namespace Sys2Proof.Machine

theorem elem_lt (w j v : Nat) : elem w j v < 2 ^ w := Nat.mod_lt _ (Nat.two_pow_pos w)

/-- The partial sums of a packed value: its elements are in place, and nothing is above them. -/
theorem foldl_elems (w n : Nat) (g : Nat → Nat) :
    (List.range n).foldl (fun acc j => acc + (g j % 2 ^ w) * 2 ^ (w * j)) 0 < 2 ^ (w * n) ∧
      ∀ j, j < n → elem w j ((List.range n).foldl (fun acc j => acc + (g j % 2 ^ w) * 2 ^ (w * j)) 0) = g j % 2 ^ w := by
  induction n with
  | zero => simp
  | succ n ih =>
    obtain ⟨hlt, he⟩ := ih
    rw [List.range_succ, List.foldl_append]
    simp only [List.foldl_cons, List.foldl_nil]
    generalize (List.range n).foldl (fun acc j => acc + (g j % 2 ^ w) * 2 ^ (w * j)) 0 = m at hlt he
    have hg : g n % 2 ^ w < 2 ^ w := Nat.mod_lt _ (Nat.two_pow_pos w)
    have hp : 2 ^ (w * (n + 1)) = 2 ^ (w * n) * 2 ^ w := by rw [Nat.mul_succ, Nat.pow_add]
    have hpos := Nat.two_pow_pos (w * n)
    constructor
    · rw [hp]
      calc m + g n % 2 ^ w * 2 ^ (w * n) < 2 ^ (w * n) + g n % 2 ^ w * 2 ^ (w * n) := by omega
        _ = (g n % 2 ^ w + 1) * 2 ^ (w * n) := by rw [Nat.add_mul, Nat.one_mul, Nat.add_comm]
        _ ≤ 2 ^ w * 2 ^ (w * n) := Nat.mul_le_mul_right _ hg
        _ = 2 ^ (w * n) * 2 ^ w := Nat.mul_comm _ _
    · intro j hj
      unfold elem
      by_cases h : j = n
      · subst h
        rw [Nat.add_mul_div_right _ _ hpos, Nat.div_eq_of_lt hlt, Nat.zero_add, Nat.mod_mod]
      · have hj' : j < n := by omega
        have hd : w * n = w * j + w * (n - j) := by rw [← Nat.mul_add]; congr 1; omega
        rw [hd, Nat.pow_add, Nat.mul_comm (2 ^ (w * j)), ← Nat.mul_assoc, Nat.add_mul_div_right _ _ (Nat.two_pow_pos _)]
        have hd2 : w * (n - j) = w * (n - j - 1) + w := by
          rw [← Nat.mul_succ]; congr 1; omega
        rw [hd2, Nat.pow_add, ← Nat.mul_assoc, Nat.add_mul_mod_self_right]
        exact he j hj'

/-- Element j of a value that is built element by element (R183). -/
theorem elem_mapElems (ty : Nat) (g : Nat → Nat) (j : Nat) (hj : j < (tyElem ty).2) :
    elem (tyElem ty).1 j (mapElems ty g) = g j % 2 ^ (tyElem ty).1 :=
  (foldl_elems _ _ g).2 j hj

theorem wrap_lt (w : Nat) (r : Int) : wrap w r < 2 ^ w := by
  unfold wrap
  have h : (0 : Int) < 2 ^ w := Int.pow_pos (by decide)
  have := Int.emod_lt_of_pos r h
  have h2 := Int.emod_nonneg r (Int.ne_of_gt h)
  have : ((r % 2 ^ w).toNat : Int) < 2 ^ w := by rw [Int.toNat_of_nonneg h2]; exact this
  exact_mod_cast this

theorem wrap_cast (w : Nat) (r : Int) : (wrap w r : Int) = r % 2 ^ w := by
  unfold wrap
  exact Int.toNat_of_nonneg (Int.emod_nonneg r (Int.ne_of_gt (Int.pow_pos (by decide))))

/-- Narrow (R182). -/
theorem narrow_cast (ty : Nat) (sat : Bool) (r : Int) : (narrow ty sat r : Int) = fit ty sat r % 2 ^ (tyElem ty).1 := wrap_cast _ _

theorem narrow_lt (ty : Nat) (sat : Bool) (r : Int) : narrow ty sat r < 2 ^ (tyElem ty).1 := wrap_lt _ _

/-- A vec word that is one `vecOp` completes with its results. -/
theorem vecDone_of_vecOp {i : Instr} {s : State} {f : V3} {b : BUse} {useC wide : Bool} {res : Nat → Nat} {R : Nat → Nat → Prop}
    (he : exec i s = .next (s.vecOp s.cur f b useC wide res)) (hR : ∀ l, R l (res l)) : VecDone i f.hd f.d.toNat wide f.z s R :=
  fun hp hd => ⟨_, res, he, State.vecOp_end s f b useC wide res hp hd, fun l _ _ => hR l⟩

/-- A sca word that is one `scaOp` completes with its result. -/
theorem scaDone_of_scaOp {i : Instr} {s : State} {hd : Head} {d : BitVec 6} {srcs : List (BitVec 6)} {v : W64}
    (he : exec i s = .next (s.scaOp s.cur hd d srcs v)) : ScaDone i hd d.toNat s v :=
  fun hp ha => ⟨_, he, State.scaOp_end s hd d srcs v hp ha⟩

/-- A word that is one `predOp` completes with its predicate. -/
theorem predDone_of_predOp {i : Instr} {s : State} {hd : Head} {d : Nat} {ps : List Nat} {srcs : List (BitVec 6)} {v : Nat → Bool}
    {R : Nat → Prop} (he : exec i s = .next (s.predOp s.cur hd d ps srcs v)) (hR : ∀ l, v l = true ↔ R l) : PredDone i hd d s R :=
  fun hp ha => ⟨_, v, he, State.predOp_end s hd d ps srcs v hp ha, fun l _ => hR l⟩

/-- A function word that is one `vecLong` becomes pending with its results. -/
theorem longDone_of_vecLong {i : V3 → Instr} {R : State → V3 → Nat → Nat → Prop} (res : State → V3 → Nat → Nat)
    (he : ∀ s f, exec (i f) s = .next (s.vecLong s.cur f (ty64 f.ty.toNat) (res s f))) (hR : ∀ s f l, R s f l (res s f l)) : LongDone i R :=
  fun s f hp ha => ⟨_, res s f, he s f, State.vecLong_owes s f _ _ hp ha, fun l _ _ => hR s f l⟩

end Sys2Proof.Machine
end

