-- ==== Sys2Proof/Laws/Frames.lean ====
section
/-! SUPPORT. The registers of a frame have entries of their own. -/

namespace Sys2Proof.Machine

/-- R24, R164: in a frame that keeps the limits of R24 two registers never share an entry of the stack. -/
theorem stackEntry_inj (sh depth f fp i j : Nat) (hs : sh ≤ 32) (hd : 64 ≤ depth) (hr : f * depth + depth + sh ≤ 256) (hi : i < 64) (hj : j < 64)
    (h : stackEntry sh depth f fp i = stackEntry sh depth f fp j) : i = j := by
  unfold stackEntry at h
  have hp : 0 < depth := by omega
  have h1 := Nat.mod_lt (fp + i) hp
  have h2 := Nat.mod_lt (fp + j) hp
  have e1 := Nat.div_add_mod (fp + i) depth
  have e2 := Nat.div_add_mod (fp + j) depth
  split at h <;> split at h
  · omega
  · omega
  · omega
  · have hm : (fp + i) % depth = (fp + j) % depth := by omega
    rcases Nat.lt_trichotomy ((fp + i) / depth) ((fp + j) / depth) with g | g | g
    · have := Nat.mul_le_mul_left depth g
      rw [Nat.mul_succ] at this; omega
    · rw [g] at e1; omega
    · have := Nat.mul_le_mul_left depth g
      rw [Nat.mul_succ] at this; omega

end Sys2Proof.Machine
end

