-- ==== Sys2Proof/Laws/Frontier.lean ====
section
/-! SUPPORT. The frontier: where lanes stand after entries are added, merged and selected, and what a control word leaves. -/

namespace Sys2Proof.Machine

theorem standsIn_append (a b : List Entry) (l : Nat) (x : Entry) : standsIn (a ++ b) l x ↔ standsIn a l x ∨ standsIn b l x := by
  simp [standsIn, List.mem_append, or_and_right, exists_or]

theorem standsIn_cons (e : Entry) (b : List Entry) (l : Nat) (x : Entry) : standsIn (e :: b) l x ↔ standsIn [e] l x ∨ standsIn b l x :=
  standsIn_append [e] b l x

@[simp] theorem standsIn_nil (l : Nat) (x : Entry) : ¬ standsIn [] l x := by simp [standsIn]

theorem Entry.merges_iff (a b : Entry) : a.merges b = true ↔ a.pc = b.pc ∧ a.fp = b.fp ∧ a.wait = b.wait := by
  simp [Entry.merges, and_assoc]

/-- An added entry brings its lanes, and takes none away (R160). -/
theorem standsIn_addEntry (e : Entry) (fr : List Entry) (l : Nat) (x : Entry) :
    standsIn (addEntry e fr) l x ↔ standsIn [e] l x ∨ standsIn fr l x := by
  induction fr with
  | nil =>
    unfold addEntry
    split
    · rename_i h
      simp [standsIn, h]
    · simp
  | cons y t ih =>
    unfold addEntry
    split
    · rename_i hm
      obtain ⟨h1, h2, h3⟩ := (Entry.merges_iff y e).1 hm
      rw [standsIn_cons, standsIn_cons y, ← or_assoc]
      refine or_congr_left ?_
      simp only [standsIn, List.mem_singleton, exists_eq_left, BitVec.getLsbD_or, Bool.or_eq_true]
      rw [← h1, ← h2, ← h3, or_comm, or_and_right]
    · rw [standsIn_cons, ih, standsIn_cons y t]
      exact or_left_comm

theorem standsIn_foldl_addEntry (es acc : List Entry) (l : Nat) (x : Entry) :
    standsIn (es.foldl (fun acc e => addEntry e acc) acc) l x ↔ standsIn acc l x ∨ standsIn es l x := by
  induction es generalizing acc with
  | nil => simp
  | cons e t ih => rw [List.foldl_cons, ih, standsIn_addEntry, standsIn_cons e t]; grind

theorem standsIn_mergeAll (es : List Entry) (l : Nat) (x : Entry) : standsIn (mergeAll es) l x ↔ standsIn es l x := by
  simp [mergeAll, standsIn_foldl_addEntry]

theorem State.peek_place (s : State) (k : Nat) (e : Entry) :
    (s.peek k e).pc = e.pc ∧ (s.peek k e).hdr = e.hdr ∧ (s.peek k e).inside = e.inside ∧ (s.peek k e).fp = e.fp ∧ (s.peek k e).mask = e.mask ∧
      (s.peek k e).wait = e.wait := by
  unfold State.peek
  split
  · exact ⟨rfl, rfl, rfl, rfl, rfl, rfl⟩
  · split <;> exact ⟨rfl, rfl, rfl, rfl, rfl, rfl⟩

theorem standsIn_peek (s : State) (k : Nat) (es : List Entry) (l : Nat) (x : Entry) :
    standsIn (es.map (fun e => s.peek k e)) l x ↔ standsIn es l x := by
  simp only [standsIn, List.mem_map]
  constructor
  · rintro ⟨_, ⟨e, he, rfl⟩, h⟩
    obtain ⟨h1, -, -, h4, h5, h6⟩ := State.peek_place s k e
    rw [h1, h4, h5, h6] at h
    exact ⟨e, he, h⟩
  · rintro ⟨e, he, h⟩
    obtain ⟨h1, -, -, h4, h5, h6⟩ := State.peek_place s k e
    refine ⟨_, ⟨e, he, rfl⟩, ?_⟩
    rw [h1, h4, h5, h6]
    exact h

theorem bestEntry_mem (l : List Entry) (b : Entry) (h : bestEntry l = some b) : b ∈ l := by
  induction l generalizing b with
  | nil => simp [bestEntry] at h
  | cons e t ih =>
    unfold bestEntry at h
    split at h
    · split at h
      · simp only [Option.some.injEq] at h; subst h; exact List.mem_cons_self
      · simp at h
    · rename_i b' hb'
      split at h
      · simp only [Option.some.injEq] at h; subst h; exact List.mem_cons_self
      · simp only [Option.some.injEq] at h; subst h; exact List.mem_cons_of_mem _ (ih _ hb')

/-- Selection moves no lane (R159). -/
theorem State.select_stands (s : State) (k l : Nat) (x : Entry) : ((s.select k).fib k).stands l x ↔ (s.fib k).stands l x := by
  have hm : standsIn (mergeAll ((s.fib k).frontier.map (fun e => s.peek k e))) l x ↔ standsIn (s.fib k).frontier l x := by
    rw [standsIn_mergeAll, standsIn_peek]
  unfold State.select Fibre.stands
  dsimp only
  split
  · rw [State.fib_setFib_self]; exact hm
  · rename_i b hb
    rw [State.fib_setFib_self]
    dsimp only
    rw [← hm]
    have hmem := bestEntry_mem _ _ hb
    generalize mergeAll ((s.fib k).frontier.map (fun e => s.peek k e)) = fr at hmem
    simp only [standsIn, List.mem_cons, List.mem_filter, bne_iff_ne, ne_eq]
    constructor
    · rintro ⟨e, rfl | ⟨he, -⟩, h⟩
      · exact ⟨_, hmem, h⟩
      · exact ⟨e, he, h⟩
    · rintro ⟨e, he, h⟩
      by_cases hb' : e = b
      · exact ⟨e, .inl hb', h⟩
      · exact ⟨e, .inr ⟨he, hb'⟩, h⟩

/-- The lanes of a mask of one lane. -/
theorem maskOf_single (l j : Nat) (hl : l < 32) : (maskOf (fun i => i = l)).getLsbD j = decide (j = l) := by
  rw [maskOf_getLsbD]
  by_cases h : j = l
  · subst h; simp [hl]
  · simp [h]

theorem standsIn_single (e : Entry) (l : Nat) (x : Entry) : standsIn [e] l x ↔
    e.mask.getLsbD l = true ∧ e.pc = x.pc ∧ e.fp = x.fp ∧ e.wait = x.wait := by
  simp [standsIn]

/-- The entries that a control word adds for the lanes that it sends away. -/
theorem standsIn_sent (e : Entry) (g : Nat → Option (W64 × Nat)) (ls : List Nat) (hl : ∀ i ∈ ls, i < 32) (fr : List Entry) (l : Nat) (x : Entry) :
    standsIn (ls.foldl (fun fr i => match g i with
      | some (pc, fp) => addEntry (e.jump pc fp (maskOf (fun j => j = i))) fr
      | none => fr) fr) l x ↔
      (l ∈ ls ∧ ∃ pc fp, g l = some (pc, fp) ∧ pc = x.pc ∧ fp = x.fp ∧ x.wait = .none) ∨ standsIn fr l x := by
  induction ls generalizing fr with
  | nil => simp
  | cons i t ih =>
    rw [List.foldl_cons, ih (fun j hj => hl j (List.mem_cons_of_mem _ hj))]
    have hi := hl i List.mem_cons_self
    cases hg : g i with
    | none =>
      constructor
      · rintro (⟨h1, h2⟩ | h)
        · exact .inl ⟨List.mem_cons_of_mem _ h1, h2⟩
        · exact .inr h
      · rintro (⟨h1, h2⟩ | h)
        · rcases List.mem_cons.1 h1 with rfl | h1
          · obtain ⟨pc, fp, h3, -⟩ := h2; rw [hg] at h3; simp at h3
          · exact .inl ⟨h1, h2⟩
        · exact .inr h
    | some p =>
      obtain ⟨pc, fp⟩ := p
      dsimp only
      rw [standsIn_addEntry, standsIn_single]
      simp only [Entry.jump, maskOf_single i l hi, decide_eq_true_eq]
      constructor
      · rintro (⟨h1, h2⟩ | ⟨h1, h2, h3, h5⟩ | h)
        · exact .inl ⟨List.mem_cons_of_mem _ h1, h2⟩
        · subst h1
          exact .inl ⟨List.mem_cons_self, pc, fp, hg, h2, h3, h5.symm⟩
        · exact .inr h
      · rintro (⟨h1, pc', fp', h3, h4, h5, h7⟩ | h)
        · by_cases hli : l = i
          · subst hli
            rw [hg] at h3
            simp only [Option.some.injEq, Prod.mk.injEq] at h3
            obtain ⟨rfl, rfl⟩ := h3
            exact .inr (.inl ⟨rfl, h4, h5, h7.symm⟩)
          · rcases List.mem_cons.1 h1 with rfl | h1
            · exact absurd rfl hli
            · exact .inl ⟨h1, pc', fp', h3, h4, h5, h7⟩
        · exact .inr (.inr h)

/-- What a control word leaves: each lane of its entry at the place that `g` gives it, or at Next (R160). -/
theorem State.control_moved (s : State) (g : Nat → Option (W64 × Nat)) (hp : Plain s) :
    Moved s (fun l => match g l with
      | some (pc, fp) => s.sent pc fp
      | none => s.atNext) (s.control s.cur g) := by
  have hsh : (s.fib s.cur).shadow = false := hp.single
  have hw : (s.fib s.cur).eph = [] := hp.windows
  unfold State.control
  extract_lets f e stay s1 nx fr1 fr2
  split
  · rename_i i hi; rw [if_neg (by simp [f, hsh])] at hi; simp at hi
  rename_i hd
  clear hd
  have hs1 : s1 = s.setFib s.cur (s.fib s.cur).countWord := State.counted_eq s s.cur hw
  have hfr : (s1.fib s.cur).frontier = (s.fib s.cur).frontier := by rw [hs1, State.fib_setFib_self]; rfl
  generalize hu : s1.modFib s.cur (fun f => { f with frontier := fr2 }) = u
  have huf : u.fib s.cur = { (s.fib s.cur).countWord with frontier := fr2 } := by rw [← hu, State.fib_modFib_self, hs1, State.fib_setFib_self]
  have hnu : Near s.cur s u := by
    rw [← hu, hs1]
    exact (Near.setFib _ _ _).trans (Near.modFib _ _ _)
  have hnear := hnu.trans (Near.select s.cur u)
  have hcur : (u.select s.cur).cur = s.cur := hnear.cur
  obtain ⟨fr, hsel⟩ := State.select_fib u s.cur
  rw [State.leaveClauses_eq _ _ (by rw [hsel, huf]; exact hw)]
  have hst : ∀ l x, (u.select s.cur).me.stands l x ↔ standsIn fr2 l x := by
    intro l x
    unfold State.me
    rw [hcur, State.select_stands]
    unfold Fibre.stands
    rw [huf]
  have hfr2 : ∀ l x, standsIn fr2 l x ↔
      (l ∈ lanesOf e.mask ∧ ∃ pc fp, g l = some (pc, fp) ∧ pc = x.pc ∧ fp = x.fp ∧ x.wait = .none) ∨
        standsIn [{ e.next with mask := stay }] l x ∨ standsIn ((s.fib s.cur).frontier.drop 1) l x := by
    intro l x
    refine Iff.trans (standsIn_sent e g _ (fun i hi => ((mem_lanesOf _ _).1 hi).1) fr1 l x) ?_
    show _ ∨ standsIn (addEntry { e.next with mask := stay } ((s1.fib s.cur).frontier.drop 1)) l x ↔ _
    rw [standsIn_addEntry, hfr]
  refine ⟨hnear.local, ?_, ?_, ?_, ?_, ?_⟩
  · unfold State.mySlot
    rw [hcur, State.select_slot, ← hu, hs1]
    rfl
  · unfold State.me
    rw [hcur, hsel, huf]
    rfl
  · unfold SamePend State.me
    rw [hcur, hsel, huf]
  · intro l hl hm
    rw [hst, hfr2]
    have hm' : e.mask.getLsbD l = true := hm
    cases hg : g l with
    | some p =>
      obtain ⟨pc, fp⟩ := p
      exact .inl ⟨(mem_lanesOf _ _).2 ⟨hl, hm'⟩, pc, fp, rfl, rfl, rfl, rfl⟩
    | none =>
      refine .inr (.inl ?_)
      rw [standsIn_single]
      refine ⟨?_, rfl, rfl, rfl⟩
      show stay.getLsbD l = true
      simp [stay, hl, hm', hg]
  · intro l x hm
    have hm' : e.mask.getLsbD l = false := hm
    rw [hst, hfr2]
    have h1 : ¬ l ∈ lanesOf e.mask := by rw [mem_lanesOf]; simp [hm']
    have h2 : ¬ standsIn [{ e.next with mask := stay }] l x := by
      rw [standsIn_single]
      simp [stay, hm']
    have h3 : s.me.stands l x ↔ standsIn ((s.fib s.cur).frontier.drop 1) l x := by
      unfold Fibre.stands State.me
      have he : e = (s.fib s.cur).entry := rfl
      cases hf : (s.fib s.cur).frontier with
      | nil => simp
      | cons y t =>
        rw [standsIn_cons]
        have : e = y := by rw [he]; unfold Fibre.entry; rw [hf]
        have hy : ¬ standsIn [y] l x := by rw [standsIn_single, ← this]; simp [hm']
        simp [hy]
    rw [h3]
    simp [h1, h2]

end Sys2Proof.Machine
end

