-- ==== Sys2Proof/Laws/Mem.lean ====
section
/-! SUPPORT. The laws of main memory: what a byte reads as after a write, and that every write keeps the canonical form. -/

namespace Sys2Proof.Machine

theorem cells_mem (a : Nat) (l : List Byte) : ∀ e ∈ cells a l, a ≤ e.1 ∧ e.1 < a + l.length ∧ e.2 ≠ memDefault := by
  induction l generalizing a with
  | nil => simp [cells]
  | cons b t ih =>
    intro e he
    simp only [cells] at he
    split at he
    · have := ih (a + 1) e he
      exact ⟨by omega, by simp only [List.length_cons]; omega, this.2.2⟩
    · rcases List.mem_cons.1 he with he | he
      · subst he; exact ⟨Nat.le_refl _, by simp, by assumption⟩
      · have := ih (a + 1) e he
        exact ⟨by omega, by simp only [List.length_cons]; omega, this.2.2⟩

theorem cells_pairwise (a : Nat) (l : List Byte) : (cells a l).Pairwise (fun x y => x.1 < y.1) := by
  induction l generalizing a with
  | nil => simp [cells]
  | cons b t ih =>
    simp only [cells]
    split
    · exact ih (a + 1)
    · refine List.pairwise_cons.2 ⟨fun e he => ?_, ih (a + 1)⟩
      have := cells_mem (a + 1) t e he
      simp only; omega

/-- Writing bytes keeps the canonical form. -/
theorem twf_writeTab (m : Tab Byte) (a : Nat) (l : List Byte) (h : twf memDefault m = true) :
    twf memDefault (writeTab m a l) = true := by
  rw [twf_iff] at h ⊢
  refine ⟨?_, ?_⟩
  · unfold writeTab
    rw [List.append_assoc, List.pairwise_append, List.pairwise_append]
    refine ⟨h.1.sublist List.filter_sublist, ⟨cells_pairwise a l, h.1.sublist List.filter_sublist, ?_⟩, ?_⟩
    · intro x hx y hy
      have := cells_mem a l x hx
      have hy := (List.mem_filter.1 hy).2
      simp only [decide_eq_true_eq] at hy
      omega
    · intro x hx y hy
      have hx := (List.mem_filter.1 hx).2
      simp only [decide_eq_true_eq] at hx
      rcases List.mem_append.1 hy with hy | hy
      · have := cells_mem a l y hy
        omega
      · have hy := (List.mem_filter.1 hy).2
        simp only [decide_eq_true_eq] at hy
        omega
  · intro e he
    simp only [writeTab, List.mem_append] at he
    rcases he with (he | he) | he
    · exact h.2 e (List.mem_filter.1 he).1
    · exact (cells_mem a l e he).2.2
    · exact h.2 e (List.mem_filter.1 he).1

theorem tfind_append {α : Type} (x y : Tab α) (k : Nat) : tfind (x ++ y) k = (tfind x k).or (tfind y k) := by
  induction x with
  | nil => simp [tfind]
  | cons e x ih =>
    obtain ⟨a, w⟩ := e
    by_cases h : a = k
    · simp [tfind, h]
    · simp [tfind, h, ih]

theorem tfind_none {α : Type} (x : Tab α) (k : Nat) (h : ∀ e ∈ x, e.1 ≠ k) : tfind x k = none := by
  induction x with
  | nil => rfl
  | cons e x ih =>
    obtain ⟨a, w⟩ := e
    have h1 : ¬ a = k := h _ List.mem_cons_self
    simp [tfind, h1, ih (fun e he => h e (List.mem_cons_of_mem _ he))]

theorem tfind_filter_key {α : Type} (x : Tab α) (p : Nat → Bool) (k : Nat) :
    tfind (x.filter (fun e => p e.1)) k = if p k then tfind x k else none := by
  induction x with
  | nil => simp [tfind]
  | cons e x ih =>
    obtain ⟨a, w⟩ := e
    by_cases hp : p a = true
    · rw [List.filter_cons_of_pos (by simpa using hp)]
      by_cases h : a = k
      · subst h; simp [tfind, hp]
      · simp [tfind, h, ih]
    · rw [List.filter_cons_of_neg (by simpa using hp), ih]
      by_cases h : a = k
      · subst h; simp [hp]
      · simp [tfind, h]

/-- A byte outside the bytes written reads as before. -/
theorem tget_writeTab_ne (m : Tab Byte) (a : Nat) (l : List Byte) (k : Nat) (h : k < a ∨ a + l.length ≤ k) :
    tget memDefault (writeTab m a l) k = tget memDefault m k := by
  have hc : tfind (cells a l) k = none := tfind_none _ _ (fun e he hk => by
    have := cells_mem a l e he
    omega)
  unfold tget writeTab
  rw [tfind_append, tfind_append, hc, tfind_filter_key m (fun n => decide (n < a)) k,
    tfind_filter_key m (fun n => decide (a + l.length ≤ n)) k]
  rcases h with h | h
  · have h2 : ¬ (a + l.length ≤ k) := by omega
    simp [h, h2]
  · have h2 : ¬ k < a := by omega
    simp [h, h2]

theorem tget_cells (a : Nat) (l : List Byte) (i : Nat) (h : i < l.length) :
    (tfind (cells a l) (a + i)).getD memDefault = l[i] := by
  induction l generalizing a i with
  | nil => simp at h
  | cons b t ih =>
    have after (j : Nat) (hj : j ≤ a) : tfind (cells (a + 1) t) j = none := tfind_none _ _ (fun e he hk => by
      have := cells_mem (a + 1) t e he
      omega)
    cases i with
    | zero =>
      simp only [cells]
      split
      · simp_all
      · simp [tfind]
    | succ i =>
      have hi : i < t.length := by simpa using h
      have := ih (a + 1) i hi
      have e : a + (i + 1) = a + 1 + i := by omega
      have hne : ¬ a = a + 1 + i := by omega
      simp only [cells, List.getElem_cons_succ]
      split
      · rw [e]; exact this
      · rw [e]; simp only [tfind, hne, if_false]; exact this

/-- A byte that was written reads as what was written. -/
theorem tget_writeTab (m : Tab Byte) (a : Nat) (l : List Byte) (i : Nat) (h : i < l.length) :
    tget memDefault (writeTab m a l) (a + i) = l[i] := by
  unfold tget writeTab
  have h1 : ¬ (a + i < a) := by omega
  have h2 : ¬ (a + l.length ≤ a + i) := by omega
  rw [tfind_append, tfind_append, tfind_filter_key m (fun n => decide (n < a)) (a + i),
    tfind_filter_key m (fun n => decide (a + l.length ≤ n)) (a + i)]
  have := tget_cells a l i h
  simp only [h1, h2, decide_false, if_false, Option.none_or, Option.or_none, Bool.false_eq_true]
  cases hc : tfind (cells a l) (a + i) with
  | none => simpa [hc] using this
  | some v => simpa [hc] using this

theorem readTab_length (m : Tab Byte) (a n : Nat) : (readTab m a n).length = n := by simp [readTab]

theorem tget_window (m : Tab Byte) (a n i : Nat) (h : i < n) : tget memDefault (window m a n) (a + i) = tget memDefault m (a + i) := by
  unfold tget window
  rw [tfind_filter_key m (fun k => decide (a ≤ k) && decide (k < a + n)) (a + i)]
  have h1 : a + i < a + n := by omega
  simp [h1]

/-- Reading a range reads its bytes one by one. -/
theorem readTab_eq (m : Tab Byte) (a n : Nat) : readTab m a n = (List.range n).map (fun i => tget memDefault m (a + i)) := by
  unfold readTab
  refine List.map_congr_left (fun i hi => ?_)
  exact tget_window m a n i (List.mem_range.1 hi)

/-- Reading a range after writing it. -/
theorem readTab_writeTab_self (m : Tab Byte) (a : Nat) (l : List Byte) : readTab (writeTab m a l) a l.length = l := by
  rw [readTab_eq]
  refine List.ext_getElem (by simp) (fun i h1 h2 => ?_)
  simpa using tget_writeTab m a l i h2

/-- Reading a range that a write does not touch. -/
theorem readTab_writeTab_ne (m : Tab Byte) (a : Nat) (l : List Byte) (b n : Nat) (h : b + n ≤ a ∨ a + l.length ≤ b) :
    readTab (writeTab m a l) b n = readTab m b n := by
  rw [readTab_eq, readTab_eq]
  refine List.map_congr_left (fun i hi => ?_)
  have := List.mem_range.1 hi
  exact tget_writeTab_ne m a l (b + i) (by omega)

@[simp] theorem State.writeMem_wf (s : State) (a : Nat) (l : List Byte) (h : Memory.wf s.mem = true) :
    Memory.wf (s.writeMem a l).mem = true := twf_writeTab s.mem a l h

theorem State.readMem_writeMem_self (s : State) (a : Nat) (l : List Byte) : (s.writeMem a l).readMem a l.length = l :=
  readTab_writeTab_self s.mem a l

theorem State.readMem_writeMem_ne (s : State) (a : Nat) (l : List Byte) (b n : Nat) (h : b + n ≤ a ∨ a + l.length ≤ b) :
    (s.writeMem a l).readMem b n = s.readMem b n := readTab_writeTab_ne s.mem a l b n h

theorem State.reset_wf : Memory.wf State.reset.mem = true := rfl

/-- One level of a walk (R301). -/
theorem State.walkFrom_succ (s : State) (vd va level peer node : Nat) :
    s.walkFrom vd va (level + 1) peer node =
      if peer != 0 && !(s.vd vd).cfg.peers.contains peer then .error (.fault .protection)
      else if peer != 0 && s.dead.contains (.peer peer) then .error (.fault .contained)
      else
        let e := s.nodeEntry peer (node + va / 2 ^ (12 + 9 * level) % 512 * 8)
        let leaf := e.getLsbD 1
        let contig := e.getLsbD 6
        let size := pageSize level contig
        if !e.getLsbD 0 then .error (.fault .pageFault)
        else if e.getLsbD 10 || e.getLsbD 11 || e.getLsbD 63 || (level = 0 && !leaf) || (3 ≤ level && leaf)
            || (leaf && !e.getLsbD 9 && pteAddr e % pageSize level false != 0)
            || (contig && !(leaf && level = 0)) || (leaf && contig && !s.contigOk peer node va)
            || (leaf && (e.extractLsb' 57 6).toNat != 0) then .error (.fault .protection)
        else if !leaf && e.getLsbD 7 then .error (.fault .walkNode)
        else if e.getLsbD 8 then .error .mig
        else if !leaf then s.walkFrom vd va level (e.extractLsb' 57 6).toNat (pteAddr e)
        else
          let attr := (e.extractLsb' 4 2).toNat
          let x : Xl := { va := va / size * size, size := size, pa := pteAddr e - pteAddr e % (if e.getLsbD 9 then 1 else size),
                          w := e.getLsbD 2, x := e.getLsbD 3, attr := attr, repl := if e.getLsbD 9 then s.replicas (pteAddr e) else [] }
          if e.getLsbD 9 then
            if x.repl.isEmpty || x.repl.any (fun r => r.2 % size != 0)
                || x.repl.any (fun r => r.1 = 0 && attr != 3 && !s.frameOwned vd r.2 size) then .error (.fault .protection)
            else .ok x
          else if attr != 3 && !s.frameOwned vd x.pa size then .error (.fault .protection)
          else .ok x := rfl

end Sys2Proof.Machine
end

