-- ==== Sys2Proof/Laws/KeepOps.lean ====
section
/-! SUPPORT. What the registers, the memory system, entries, traps and issue, operands and accesses do to memory: each operation leaves it alone (the lemmas that end in _mem) or keeps its canonical form (those
that end in _wf). -/

namespace Sys2Proof.Machine

/-! Machine/Regs. -/

/-- Where making a frame resident leads. -/
def Res.st : Res → State
  | .done s => s
  | .stopped s => s

@[simp] theorem Res.st_done (s : State) : (Res.done s).st = s := rfl
@[simp] theorem Res.st_stopped (s : State) : (Res.stopped s).st = s := rfl

@[simp] theorem State.mem_ite (c : Prop) [Decidable c] (a b : State) : (if c then a else b).mem = if c then a.mem else b.mem := by
  split <;> rfl

@[simp] theorem wf_ite (c : Prop) [Decidable c] (a b : List Host.Cell) (ha : Memory.wf a = true) (hb : Memory.wf b = true) :
    Memory.wf (if c then a else b) = true := by
  split <;> assumption

/-- What every step of a fold keeps, the fold keeps. -/
theorem foldl_inv {α β : Type} (P : α → Prop) (g : α → β → α) (hg : ∀ a x, P a → P (g a x)) (l : List β) (a : α) (h : P a) :
    P (l.foldl g a) := by
  induction l generalizing a with
  | nil => exact h
  | cons x l ih => exact ih _ (hg _ _ h)

/-- A fold whose steps leave memory alone leaves it alone. -/
@[simp] theorem foldl_mem {β : Type} (g : State → β → State) (hg : ∀ s x, (g s x).mem = s.mem) (l : List β) (s : State) :
    (l.foldl g s).mem = s.mem := by
  induction l generalizing s with
  | nil => rfl
  | cons x l ih => rw [List.foldl_cons, ih, hg]

/-- A fold whose steps keep memory canonical keeps it canonical. -/
@[simp] theorem foldl_wf {β : Type} (g : State → β → State) (hg : ∀ s x, Memory.wf s.mem = true → Memory.wf (g s x).mem = true)
    (l : List β) (s : State) (hw : Memory.wf s.mem = true) : Memory.wf (l.foldl g s).mem = true := by
  induction l generalizing s with
  | nil => exact hw
  | cons x l ih => exact ih _ (hg _ _ hw)

/-- What one round keeps, every number of rounds keeps. -/
theorem times_inv {α : Type} (P : α → Prop) (g : α → α) (hg : ∀ a, P a → P (g a)) (n : Nat) (a : α) (h : P a) : P (times g n a) := by
  induction n generalizing a with
  | zero => exact h
  | succ n ih => exact ih _ (hg _ h)

/-- Rounds that keep memory canonical keep it canonical. -/
@[simp] theorem times_wf (g : State → State) (hg : ∀ s, Memory.wf s.mem = true → Memory.wf (g s).mem = true) (n : Nat) (s : State)
    (hw : Memory.wf s.mem = true) : Memory.wf (times g n s).mem = true :=
  times_inv (fun s => Memory.wf s.mem = true) g hg n s hw

@[simp] theorem State.regWrite_mem (s : State) (k : Nat) (w : RegWrite) : (State.regWrite s k w).mem = s.mem := by
  unfold State.regWrite
  split <;> simp

@[simp] theorem State.regWrites_mem (s : State) (k : Nat) (ws : List RegWrite) : (State.regWrites s k ws).mem = s.mem := by
  unfold State.regWrites
  simp

/-! Machine/Memory. -/

@[simp] theorem State.poisonLine_wf (s : State) (line : Nat) (a b : Bool) (hw : Memory.wf s.mem = true) : Memory.wf (State.poisonLine s line a b).mem = true := by
  unfold State.poisonLine
  simp [hw]

@[simp] theorem State.msix_mem (s : State) (vd n : Nat) : (State.msix s vd n).mem = s.mem := (rfl)

@[simp] theorem State.pageRequest_mem (s : State) (vd : Nat) : (State.pageRequest s vd).mem = s.mem := by
  unfold State.pageRequest
  split <;> rfl

@[simp] theorem State.setDamask_mem (s : State) (d : Damask) : (State.setDamask s d).mem = s.mem := by
  unfold State.setDamask
  simp

@[simp] theorem State.logEvent_mem (s : State) (e : W64) : (State.logEvent s e).mem = s.mem := by
  unfold State.logEvent
  simp

@[simp] theorem State.dramRead_wf (s : State) (line : Nat) (hw : Memory.wf s.mem = true) : Memory.wf (State.dramRead s line).mem = true := by
  unfold State.dramRead
  dsimp only
  (repeat' split) <;> simp [hw]

@[simp] theorem State.pfHit_mem (s : State) (pf : Option Nat) (flight : Bool) : (State.pfHit s pf flight).mem = s.mem := by
  unfold State.pfHit
  split <;> simp

@[simp] theorem State.pfOut_mem (s : State) (pf : Option Nat) : (State.pfOut s pf).mem = s.mem := by
  unfold State.pfOut
  split <;> simp

@[simp] theorem State.l2Fill_wf (s : State) (vd line : Nat) (pf : Option Nat) (hw : Memory.wf s.mem = true) : Memory.wf (State.l2Fill s vd line pf).mem = true := by
  unfold State.l2Fill
  split <;> simp [hw]

@[simp] theorem State.parityUpdate_mem (s : State) (line : Nat) : (State.parityUpdate s line).mem = s.mem := by
  unfold State.parityUpdate
  simp

@[simp] theorem State.l2Dirty_wf (s : State) (vd line : Nat) (hw : Memory.wf s.mem = true) : Memory.wf (State.l2Dirty s vd line).mem = true := by
  unfold State.l2Dirty
  simp [hw]

@[simp] theorem State.l2Clean_mem (s : State) (line : Nat) : (State.l2Clean s line).mem = s.mem := by
  unfold State.l2Clean
  split <;> simp

@[simp] theorem State.residueDrop_mem (s : State) (holder line : Nat) : (State.residueDrop s holder line).mem = s.mem := by
  unfold State.residueDrop
  simp

@[simp] theorem State.l2Evict_mem (s : State) (line : Nat) : (State.l2Evict s line).mem = s.mem := by
  unfold State.l2Evict
  split <;> simp

@[simp] theorem State.setElem_wf (s : State) (pa ty v : Nat) (hw : Memory.wf s.mem = true) : Memory.wf (State.setElem s pa ty v).mem = true := by
  unfold State.setElem
  simp [hw]

@[simp] theorem State.dropShadows_mem (s : State) (pa n : Nat) : (State.dropShadows s pa n).mem = s.mem := by
  unfold State.dropShadows
  simp

@[simp] theorem State.shadowAdd_wf (s : State) (holder pa ty : Nat) (f : Fmt) (x : W32) (hw : Memory.wf s.mem = true) : Memory.wf (State.shadowAdd s holder pa ty f x).mem = true := by
  unfold State.shadowAdd
  simp [hw]

@[simp] theorem State.updateElem_wf (s : State) (holder pa aop ty x : Nat) (hw : Memory.wf s.mem = true) : Memory.wf (State.updateElem s holder pa aop ty x).mem = true := by
  unfold State.updateElem
  split <;> simp [hw]

@[simp] theorem State.foldPart_wf (s : State) (pa aop ty : Nat) (v : W64) (hw : Memory.wf s.mem = true) : Memory.wf (State.foldPart s pa aop ty v).mem = true := by
  unfold State.foldPart
  try dsimp only
  first
    | exact hw
    | (simp (maxDischargeDepth := 20) [hw]; done)
    | ((repeat' split) <;> (first | exact hw | (simp (maxDischargeDepth := 20) [hw]; done) | (simp (maxDischargeDepth := 20) [*]; done) | (simp_all (maxDischargeDepth := 20) ; done)))

@[simp] theorem State.foldSector_wf (s : State) (line sec : Nat) (tag : Option (Nat × Nat)) (parts : Tab W64) (hw : Memory.wf s.mem = true) : Memory.wf (State.foldSector s line sec tag parts).mem = true := by
  unfold State.foldSector
  split
  · exact hw
  · refine foldl_wf _ (fun s x h => ?_) _ _ hw
    split
    · simp [h]
    · exact h

@[simp] theorem State.drainU_wf (s : State) (cluster line : Nat) (hw : Memory.wf s.mem = true) : Memory.wf (State.drainU s cluster line).mem = true := by
  unfold State.drainU
  dsimp only
  (repeat' split) <;> simp (maxDischargeDepth := 20) [*]

@[simp] theorem State.foldDrain_wf (s : State) (d : Drain) (hw : Memory.wf s.mem = true) : Memory.wf (State.foldDrain s d).mem = true := by
  unfold State.foldDrain
  dsimp only
  (repeat' split) <;> simp_all (maxDischargeDepth := 20)

@[simp] theorem State.combine_wf (s : State) (line : Nat) (hw : Memory.wf s.mem = true) : Memory.wf (State.combine s line).mem = true := by
  unfold State.combine
  split
  · exact hw
  · refine foldl_wf _ (fun s x h => ?_) _ _ (foldl_wf _ (fun s x h => ?_) _ _ hw)
    · simp [h]
    · simp [h]

@[simp] theorem State.setPoison_wf (s : State) (sector : Nat) (bad : Bool) (hw : Memory.wf s.mem = true) : Memory.wf (State.setPoison s sector bad).mem = true := by
  unfold State.setPoison
  simp [hw]

@[simp] theorem State.writeBackSector_wf (s : State) (cluster line sec : Nat) (hw : Memory.wf s.mem = true) : Memory.wf (State.writeBackSector s cluster line sec).mem = true := by
  unfold State.writeBackSector
  dsimp only
  (repeat' split) <;> simp (maxDischargeDepth := 20) [*]

@[simp] theorem State.writeBack_wf (s : State) (cluster line : Nat) (hw : Memory.wf s.mem = true) : Memory.wf (State.writeBack s cluster line).mem = true := by
  unfold State.writeBack
  simp [hw]

@[simp] theorem State.ccDrop_wf (s : State) (cluster line : Nat) (hw : Memory.wf s.mem = true) : Memory.wf (State.ccDrop s cluster line).mem = true := by
  unfold State.ccDrop
  dsimp only
  (repeat' split) <;> simp [hw]

@[simp] theorem State.l0Drop_mem (s : State) (core line : Nat) : (State.l0Drop s core line).mem = s.mem := by
  unfold State.l0Drop
  split <;> simp

@[simp] theorem State.plainCopy_wf (s : State) (cl line : Nat) (hw : Memory.wf s.mem = true) : Memory.wf (State.plainCopy s cl line).2.mem = true := by
  unfold State.plainCopy
  dsimp only
  (repeat' split) <;> simp [hw]

@[simp] theorem State.bringCc_wf (s : State) (vd cl line attr : Nat) (hw : Memory.wf s.mem = true) : Memory.wf (State.bringCc s vd cl line attr).2.mem = true := by
  unfold State.bringCc
  simp [hw]

@[simp] theorem State.prefetch_wf (s : State) (k vd core level line attr : Nat) (hw : Memory.wf s.mem = true) : Memory.wf (State.prefetch s k vd core level line attr).mem = true := by
  unfold State.prefetch
  split <;> simp [hw]

@[simp] theorem State.mscDrop_mem (s : State) (key : Nat) : (State.mscDrop s key).mem = s.mem := by
  unfold State.mscDrop
  simp

@[simp] theorem State.roomL0_mem (s : State) (core : Nat) : (State.roomL0 s core).mem = s.mem := by
  unfold State.roomL0
  split <;> simp

@[simp] theorem State.roomCc_wf (s : State) (cl line : Nat) (hw : Memory.wf s.mem = true) : Memory.wf (State.roomCc s cl line).mem = true := by
  unfold State.roomCc
  split <;> simp [hw]

@[simp] theorem State.roomL2_mem (s : State) (line : Nat) : (State.roomL2 s line).mem = s.mem := by
  unfold State.roomL2
  split <;> simp

@[simp] theorem State.roomMsc_mem (s : State) (stack : Nat) : (State.roomMsc s stack).mem = s.mem := by
  unfold State.roomMsc
  split <;> simp

@[simp] theorem State.fly_mem (s : State) (level holder line : Nat) : (State.fly s level holder line).mem = s.mem := by
  unfold State.fly
  try dsimp only
  first
    | rfl
    | (simp ; done)
    | ((repeat' split) <;> (first | rfl | (simp ; done) | (simp [*]; done) | (simp_all ; done)))

@[simp] theorem State.evict_wf (s : State) (x1 : Evict) (hw : Memory.wf s.mem = true) : Memory.wf (State.evict s x1).mem = true := by
  unfold State.evict
  split <;> simp [hw]

@[simp] theorem State.trimL0_mem (s : State) : (State.trimL0 s).mem = s.mem := by
  unfold State.trimL0
  split <;> simp

@[simp] theorem State.trimCc_wf (s : State) (hw : Memory.wf s.mem = true) : Memory.wf (State.trimCc s).mem = true := by
  unfold State.trimCc
  split <;> simp [hw]

@[simp] theorem State.trimL2_mem (s : State) : (State.trimL2 s).mem = s.mem := by
  unfold State.trimL2
  split <;> simp

@[simp] theorem State.trimMsc_mem (s : State) : (State.trimMsc s).mem = s.mem := by
  unfold State.trimMsc
  split <;> simp

@[simp] theorem State.unpin_mem (s : State) (st : Nat) : (State.unpin s st).mem = s.mem := by
  unfold State.unpin
  split <;> simp

@[simp] theorem State.trimPins_wf (s : State) (hw : Memory.wf s.mem = true) : Memory.wf (State.trimPins s).mem = true := by
  unfold State.trimPins
  refine foldl_wf _ (fun s x h => ?_) _ _ hw
  dsimp only
  split
  · exact times_wf _ (fun s h => by simp [h]) _ _ h
  · exact h

@[simp] theorem State.trimResidue_mem (s : State) : (State.trimResidue s).mem = s.mem := by
  unfold State.trimResidue
  try dsimp only
  first
    | rfl
    | (simp ; done)
    | ((repeat' split) <;> (first | rfl | (simp ; done) | (simp [*]; done) | (simp_all ; done)))

@[simp] theorem State.trimIc_mem (s : State) : (State.trimIc s).mem = s.mem := by
  unfold State.trimIc
  dsimp only
  (repeat' split) <;> simp

@[simp] theorem State.trim_wf (s : State) (hw : Memory.wf s.mem = true) : Memory.wf (State.trim s).mem = true := by
  unfold State.trim
  refine times_wf _ (fun s h => by simp [h]) _ _ (times_wf _ (fun s h => by simp [h]) _ _ (times_wf _ (fun s h => by simp [h]) _ _ ?_))
  have h n m k : Memory.wf (times State.trimL2 n (times State.trimCc m (times State.trimL0 k s))).mem = true :=
    times_wf _ (fun s h => by simp [h]) _ _ (times_wf _ (fun s h => by simp [h]) _ _ (times_wf _ (fun s h => by simp [h]) _ _ hw))
  split
  · exact h _ _ _
  · exact State.trimPins_wf _ (h _ _ _)

@[simp] theorem State.tlbPut_mem (s : State) (t : Tlbe) : (State.tlbPut s t).mem = s.mem := by
  unfold State.tlbPut
  simp

@[simp] theorem State.walkPut_mem (s : State) (w : WalkEnt) : (State.walkPut s w).mem = s.mem := by
  unfold State.walkPut
  simp

@[simp] theorem State.readNodes_wf (s : State) (vd : Nat) (lines : List Nat) (hw : Memory.wf s.mem = true) : Memory.wf (State.readNodes s vd lines).mem = true := by
  unfold State.readNodes
  try dsimp only
  first
    | exact hw
    | (simp (maxDischargeDepth := 20) [hw]; done)
    | ((repeat' split) <;> (first | exact hw | (simp (maxDischargeDepth := 20) [hw]; done) | (simp (maxDischargeDepth := 20) [*]; done) | (simp_all (maxDischargeDepth := 20) ; done)))

@[simp] theorem State.noteXlate_wf (s : State) (core vd va : Nat) (hw : Memory.wf s.mem = true) : Memory.wf (State.noteXlate s core vd va).mem = true := by
  unfold State.noteXlate
  dsimp only
  (repeat' split) <;> simp [hw]

@[simp] theorem State.touchFresh_wf (s : State) (w : Who) (line sec attr : Nat) (hw : Memory.wf s.mem = true) : Memory.wf (State.touchFresh s w line sec attr).mem = true := by
  unfold State.touchFresh
  dsimp only
  (repeat' split) <;> simp [hw]

@[simp] theorem State.touchDirty_wf (s : State) (w : Who) (line sec : Nat) (hw : Memory.wf s.mem = true) : Memory.wf (State.touchDirty s w line sec).mem = true := by
  unfold State.touchDirty
  simp [hw]

@[simp] theorem State.readFresh_wf (s : State) (w : Who) (line sec attr : Nat) (hw : Memory.wf s.mem = true) : Memory.wf (State.readFresh s w line sec attr).mem = true := by
  unfold State.readFresh
  split <;> simp [hw]

@[simp] theorem State.readCc_wf (s : State) (w : Who) (line sec : Nat) (hw : Memory.wf s.mem = true) : Memory.wf (State.readCc s w line sec).2.mem = true := by
  unfold State.readCc
  dsimp only
  (repeat' split) <;> simp [hw]

@[simp] theorem State.fillL0_wf (s : State) (w : Who) (line sec : Nat) (c : Line) (hw : Memory.wf s.mem = true) : Memory.wf (State.fillL0 s w line sec c).mem = true := by
  unfold State.fillL0
  simp [hw]

@[simp] theorem State.readLoc_wf (s : State) (w : Who) (l : Loc) (n : Nat) (hw : Memory.wf s.mem = true) : Memory.wf (State.readLoc s w l n).2.mem = true := by
  unfold State.readLoc
  dsimp only
  (repeat' split) <;> simp (maxDischargeDepth := 20) [*]

@[simp] theorem State.l0Update_mem (s : State) (core pa : Nat) (l : List Byte) : (State.l0Update s core pa l).mem = s.mem := by
  unfold State.l0Update
  split <;> simp

@[simp] theorem State.writeFresh_wf (s : State) (w : Who) (pa : Nat) (bs : List Byte) (hw : Memory.wf s.mem = true) : Memory.wf (State.writeFresh s w pa bs).mem = true := by
  unfold State.writeFresh
  dsimp only
  (repeat' split) <;> simp [hw]

@[simp] theorem State.writeWide_wf (s : State) (w : Who) (pa : Nat) (bs : List Byte) (hw : Memory.wf s.mem = true) : Memory.wf (State.writeWide s w pa bs).mem = true := by
  unfold State.writeWide
  dsimp only
  (repeat' split) <;> simp (maxDischargeDepth := 20) [*]

@[simp] theorem State.writeCc_wf (s : State) (w : Who) (pa : Nat) (bs : List Byte) (hw : Memory.wf s.mem = true) : Memory.wf (State.writeCc s w pa bs).mem = true := by
  unfold State.writeCc
  simp [hw]

@[simp] theorem State.writeLoc_wf (s : State) (w : Who) (l : Loc) (bs : List Byte) (hw : Memory.wf s.mem = true) : Memory.wf (State.writeLoc s w l bs).mem = true := by
  unfold State.writeLoc
  dsimp only
  (repeat' split) <;> simp [hw]

@[simp] theorem State.readPieces_wf (s : State) (w : Who) (x1 : List Piece) (hw : Memory.wf s.mem = true) : Memory.wf (State.readPieces s w x1).2.mem = true := by
  fun_induction State.readPieces with
  | case1 => exact hw
  | case2 s p t h ih => exact ih hw
  | case3 s p t l _ h r q ih => exact ih (State.readLoc_wf _ _ _ _ hw)

@[simp] theorem State.writePieces_wf (s : State) (w : Who) (x1 : List Piece) (x2 : List Byte) (hw : Memory.wf s.mem = true) : Memory.wf (State.writePieces s w x1 x2).mem = true := by
  fun_induction State.writePieces <;> (try dsimp only) <;> (first | rfl | assumption | (simp (maxDischargeDepth := 20) [*]; done) | ((repeat' split) <;> (first | rfl | assumption | (simp (maxDischargeDepth := 20) [*]; done) | (simp_all (maxDischargeDepth := 20) ; done))))

@[simp] theorem State.cleanCopies_mem (s : State) (w : Who) (sector : Nat) : (State.cleanCopies s w sector).mem = s.mem := by
  unfold State.cleanCopies
  dsimp only
  (repeat' split) <;> simp

@[simp] theorem State.clearPoison_mem (s : State) (w : Who) (cov : List (Loc × Nat)) : (State.clearPoison s w cov).mem = s.mem := by
  unfold State.clearPoison
  simp

@[simp] theorem State.moveLine_wf (s : State) (line : Nat) (hw : Memory.wf s.mem = true) : Memory.wf (State.moveLine s line).mem = true := by
  unfold State.moveLine
  simp [hw]

@[simp] theorem State.rebuildStripe_wf (s : State) (p : Nat) (hw : Memory.wf s.mem = true) : Memory.wf (State.rebuildStripe s p).mem = true := by
  unfold State.rebuildStripe
  dsimp only
  (repeat' split) <;> simp [hw]

@[simp] theorem State.newParity_wf (s : State) (p : Nat) (hw : Memory.wf s.mem = true) : Memory.wf (State.newParity s p).mem = true := by
  unfold State.newParity
  simp [hw]

@[simp] theorem State.endMove_wf (s : State) (p : Nat) (hw : Memory.wf s.mem = true) : Memory.wf (State.endMove s p).mem = true := by
  unfold State.endMove
  dsimp only
  split
  · simp [hw]
  · split
    · split <;> simp [hw]
    · exact hw

@[simp] theorem State.meetLine_wf (s : State) (vd pa n : Nat) (hw : Memory.wf s.mem = true) : Memory.wf (State.meetLine s vd pa n).mem = true := by
  unfold State.meetLine
  simp [hw]

/-! Machine/Ops. -/

@[simp] theorem State.ctrRead_wf (s : State) (w : Who) (ps : List Piece) (hw : Memory.wf s.mem = true) : Memory.wf (State.ctrRead s w ps).2.mem = true := by
  unfold State.ctrRead
  simp [hw]

@[simp] theorem State.ctrWrite_wf (s : State) (w : Who) (ps : List Piece) (v : W64) (hw : Memory.wf s.mem = true) : Memory.wf (State.ctrWrite s w ps v).mem = true := by
  unfold State.ctrWrite
  simp [hw]

theorem State.ctrAdd_wf (s : State) (core vd : Nat) (a inc : W64) (hw : Memory.wf s.mem = true) {t} (ht : State.ctrAdd s core vd a inc = some t) : Memory.wf t.mem = true := by
  unfold State.ctrAdd at ht
  split at ht
  · simp at ht
  · simp only [Option.some.injEq] at ht
    subst ht
    refine State.ctrWrite_wf _ _ _ _ (State.ctrRead_wf _ _ _ (foldl_wf _ (fun s p h => foldl_wf _ (fun s l h => ?_) _ _ h) _ _ hw))
    split
    · exact State.meetLine_wf _ _ _ _ h
    · exact h

@[simp] theorem State.ctrAddOrDrop_wf (s : State) (core vd : Nat) (a inc : W64) (hw : Memory.wf s.mem = true) : Memory.wf (State.ctrAddOrDrop s core vd a inc).mem = true := by
  unfold State.ctrAddOrDrop
  split
  · exact State.ctrAdd_wf _ _ _ _ _ hw ‹_›
  · simpa using hw

@[simp] theorem State.retryAdds_wf (s : State) (hw : Memory.wf s.mem = true) : Memory.wf (State.retryAdds s).mem = true := by
  unfold State.retryAdds
  try dsimp only
  first
    | exact hw
    | (simp (maxDischargeDepth := 20) [hw]; done)
    | ((repeat' split) <;> (first | exact hw | (simp (maxDischargeDepth := 20) [hw]; done) | (simp (maxDischargeDepth := 20) [*]; done) | (simp_all (maxDischargeDepth := 20) ; done)))

@[simp] theorem State.gridAdd_wf (s : State) (g : Nat) (a : W64) (hw : Memory.wf s.mem = true) : Memory.wf (State.gridAdd s g a).mem = true := by
  unfold State.gridAdd
  simp [hw]

@[simp] theorem State.returnUnits_mem (s : State) (g : Nat) : (State.returnUnits s g).mem = s.mem := (rfl)

@[simp] theorem State.flushGrid_wf (s : State) (k : Nat) (hw : Memory.wf s.mem = true) : Memory.wf (State.flushGrid s k).mem = true := by
  unfold State.flushGrid
  dsimp only
  (repeat' split) <;> simp_all (maxDischargeDepth := 20)

@[simp] theorem State.settleGrid_wf (s : State) (k : Nat) (hw : Memory.wf s.mem = true) : Memory.wf (State.settleGrid s k).mem = true := by
  unfold State.settleGrid
  dsimp only
  (repeat' split) <;> simp (maxDischargeDepth := 20) [*]

@[simp] theorem State.killCause_mem (s : State) (vd code lstatus id : Nat) : (State.killCause s vd code lstatus id).mem = s.mem := by
  unfold State.killCause
  simp

@[simp] theorem State.release_mem (s : State) (w : Nat) (life : WgLife) : (State.release s w life).mem = s.mem := (rfl)

@[simp] theorem State.settleEnergy_mem (s : State) (w : Nat) : (State.settleEnergy s w).mem = s.mem := by
  unfold State.settleEnergy
  simp

@[simp] theorem State.endWg_wf (s : State) (w : Nat) (hw : Memory.wf s.mem = true) : Memory.wf (State.endWg s w).mem = true := by
  unfold State.endWg
  dsimp only
  (repeat' split) <;> simp [hw]

@[simp] theorem State.killGrid_wf (s : State) (k code lstatus : Nat) (hw : Memory.wf s.mem = true) : Memory.wf (State.killGrid s k code lstatus).mem = true := by
  unfold State.killGrid
  dsimp only
  (repeat' split) <;> simp [hw]

@[simp] theorem State.killWg_wf (s : State) (w code : Nat) (hw : Memory.wf s.mem = true) : Memory.wf (State.killWg s w code).mem = true := by
  unfold State.killWg
  simp [hw]

@[simp] theorem State.cacheSect_mem (s : State) (k : Nat) (pc : W64) : (State.cacheSect s k pc).mem = s.mem := by
  unfold State.cacheSect
  dsimp only
  (repeat' split) <;> simp

@[simp] theorem State.dropIc_mem (s : State) (core : Nat) : (State.dropIc s core).mem = s.mem := (rfl)

@[simp] theorem State.select_mem (s : State) (k : Nat) : (State.select s k).mem = s.mem := by
  unfold State.select
  dsimp only
  (repeat' split) <;> simp

@[simp] theorem State.perform_wf (s : State) (p : Nat → Pending → Bool) (hw : Memory.wf s.mem = true) : Memory.wf (State.perform s p).mem = true := by
  unfold State.perform
  simp [hw]

@[simp] theorem State.wake_mem (s : State) (k : Nat) : (State.wake s k).mem = s.mem := (rfl)

@[simp] theorem State.rouse_mem (s : State) (k : Nat) : (State.rouse s k).mem = s.mem := by
  unfold State.rouse
  simp

@[simp] theorem State.supersede_mem (s : State) (k : Nat) (rs : List RegWrite) : (State.supersede s k rs).mem = s.mem := by
  unfold State.supersede
  simp

@[simp] theorem State.supersedePred_mem (s : State) (k d : Nat) (m : LaneMask) : (State.supersedePred s k d m).mem = s.mem := by
  unfold State.supersedePred
  simp

@[simp] theorem State.endWindow_mem (s : State) (k : Nat) (w : EphWin) : (State.endWindow s k w).mem = s.mem := by
  unfold State.endWindow
  simp

@[simp] theorem State.closeWindows_mem (s : State) (k : Nat) (p : EphWin → Bool) : (State.closeWindows s k p).mem = s.mem := by
  unfold State.closeWindows
  simp

@[simp] theorem State.endWindows_mem (s : State) (k : Nat) : (State.endWindows s k).mem = s.mem := by
  unfold State.endWindows
  simp

@[simp] theorem State.closeSpent_mem (s : State) (k : Nat) : (State.closeSpent s k).mem = s.mem := by
  unfold State.closeSpent
  simp

@[simp] theorem State.countWindows_mem (s : State) (k : Nat) : (State.countWindows s k).mem = s.mem := by
  unfold State.countWindows
  simp

@[simp] theorem State.leaveClauses_mem (s : State) (k : Nat) : (State.leaveClauses s k).mem = s.mem := by
  unfold State.leaveClauses
  simp

@[simp] theorem State.deliver_mem (s : State) (k : Nat) (p : Pending) : (State.deliver s k p).mem = s.mem := by
  unfold State.deliver
  split <;> simp

@[simp] theorem State.completeAt_mem (s : State) (k i : Nat) : (State.completeAt s k i).mem = s.mem := by
  unfold State.completeAt
  split <;> simp

@[simp] theorem State.completeReady_mem (s : State) (k : Nat) : (State.completeReady s k).mem = s.mem := by
  unfold State.completeReady
  simp

@[simp] theorem State.takeTrap_wf (s : State) (k : Nat) (t : TrapInfo) (hw : Memory.wf s.mem = true) : Memory.wf (State.takeTrap s k t).mem = true := by
  unfold State.takeTrap
  simp [hw]

@[simp] theorem State.raise_wf (s : State) (k : Nat) (t : TrapInfo) (hw : Memory.wf s.mem = true) : Memory.wf (State.raise s k t).mem = true := by
  unfold State.raise
  simp [hw]

@[simp] theorem State.trapHere_wf (s : State) (k : Nat) (c : Cause) (lane : Nat) (addr : W64) (code : BitVec 16) (hw : Memory.wf s.mem = true) : Memory.wf (State.trapHere s k c lane addr code).mem = true := by
  unfold State.trapHere
  simp [hw]

@[simp] theorem State.accessFault_wf (s : State) (k : Nat) (e : XErr) (lane : Nat) (addr : W64) (write : Bool) (hw : Memory.wf s.mem = true) : Memory.wf (State.accessFault s k e lane addr write).mem = true := by
  unfold State.accessFault
  split <;> simp [hw]

@[simp] theorem State.fetchFault_wf (s : State) (k : Nat) (e : XErr) (pc : W64) (hw : Memory.wf s.mem = true) : Memory.wf (State.fetchFault s k e pc).mem = true := by
  unfold State.fetchFault
  split <;> simp [hw]

theorem State.moveChunk_wf (s : State) (k c : Nat) (out : Bool) (a : W64) (hw : Memory.wf s.mem = true) {t} (ht : State.moveChunk s k c out a = .ok t) : Memory.wf t.mem = true := by
  unfold State.moveChunk at ht
  (repeat' split at ht) <;> simp at ht <;> subst ht <;> simp [hw]

@[simp] theorem State.didMove_mem (s : State) (k n : Nat) : (State.didMove s k n).mem = s.mem := by
  unfold State.didMove
  simp

@[simp] theorem State.resident_wf (s : State) (k fp : Nat) (fr : List Entry) (x1 : Nat) (hw : Memory.wf s.mem = true) : Memory.wf (State.resident s k fp fr x1).st.mem = true := by
  have hc (s : State) (h : Memory.wf s.mem = true) : Memory.wf (s.completeReady k).mem = true := by simpa using h
  fun_induction State.resident with
  | case1 | case2 => exact hw
  | case3 | case4 | case5 => simp [hw]
  | case6 => exact hc _ hw
  | case7 =>
    rw [Res.st_stopped, State.select_mem]
    exact hc _ hw
  | case8 =>
    rw [Res.st_stopped, State.modFib_mem]
    exact hc _ hw
  | case9 => exact State.trapHere_wf _ _ _ _ _ _ (hc _ hw)
  | case10 => exact State.accessFault_wf _ _ _ _ _ _ (hc _ hw)
  | case11 =>
    rename_i ht _ ih
    exact ih (by simpa using State.moveChunk_wf _ _ _ _ _ (hc _ hw) ht)

@[simp] theorem State.exitLanes_mem (s : State) (k : Nat) (m : LaneMask) : (State.exitLanes s k m).mem = s.mem := (rfl)

@[simp] theorem State.orderAt_mem (s : State) (slot among q : Nat) : (State.orderAt s slot among q).mem = s.mem := by
  unfold State.orderAt
  dsimp only
  (repeat' split) <;> simp

@[simp] theorem State.order_mem (s : State) (slot among : Nat) : (State.order s slot among).mem = s.mem := by
  unfold State.order
  simp

@[simp] theorem State.openBar_mem (s : State) (slot id : Nat) : (State.openBar s slot id).mem = s.mem := by
  unfold State.openBar
  dsimp only
  refine (foldl_mem _ (fun s i => ?_) _ _).trans (by simp)
  split
  · simp
  · split <;> simp

@[simp] theorem State.checkBar_mem (s : State) (slot id : Nat) : (State.checkBar s slot id).mem = s.mem := by
  unfold State.checkBar
  split
  · rfl
  · split
    · simp
    · rfl

@[simp] theorem State.signed_mem (s : State) (w g : Nat) (x : Sig) : (State.signed s w g x).mem = s.mem := (rfl)

@[simp] theorem State.dropSigs_mem (s : State) (k : Nat) : (State.dropSigs s k).mem = s.mem := by
  unfold State.dropSigs
  refine foldl_mem _ (fun s i => ?_) _ _
  dsimp only
  split
  · exact (foldl_mem _ (fun s x => State.signed_mem _ _ _ _) _ _).trans rfl
  · rfl

@[simp] theorem State.endFibre_wf (s : State) (k : Nat) (hw : Memory.wf s.mem = true) : Memory.wf (State.endFibre s k).mem = true := by
  unfold State.endFibre
  dsimp only
  split
  · exact hw
  · split <;> simp [hw]

@[simp] theorem State.advance_mem (s : State) (k : Nat) : (State.advance s k).mem = s.mem := by
  unfold State.advance
  simp

@[simp] theorem State.counted_mem (s : State) (k : Nat) : (State.counted s k).mem = s.mem := by
  unfold State.counted
  simp

@[simp] theorem State.finishWith_mem (s : State) (k : Nat) (ws : List RegWrite) (pold : List (Nat × LaneMask × LaneMask)) : (State.finishWith s k ws pold).mem = s.mem := by
  unfold State.finishWith
  simp

@[simp] theorem State.finish_mem (s : State) (k : Nat) (ws : List RegWrite) : (State.finish s k ws).mem = s.mem := by
  unfold State.finish
  simp

@[simp] theorem State.issue_mem (s : State) (k : Nat) (h : Head) (p : Pending) : (State.issue s k h p).mem = s.mem := by
  unfold State.issue
  simp

/-! Machine/Sched. -/

@[simp] theorem State.readyFrame_wf (s : State) (k : Nat) (hw : Memory.wf s.mem = true) : Memory.wf (State.readyFrame s k).st.mem = true := by
  unfold State.readyFrame
  split <;> simp [hw]

@[simp] theorem State.findAt_mem (s : State) (k q : Nat) : (State.findAt s k q).mem = s.mem := by
  unfold State.findAt
  dsimp only
  (repeat' split) <;> simp

@[simp] theorem State.find_mem (s : State) (k : Nat) : (State.find s k).mem = s.mem := by
  unfold State.find
  simp

@[simp] theorem State.chosen_mem (s : State) (q slot k : Nat) : (State.chosen s q slot k).mem = s.mem := by
  unfold State.chosen
  simp

@[simp] theorem State.activate_mem (s : State) (slot : Nat) : (State.activate s slot).mem = s.mem := (rfl)

@[simp] theorem State.deactivate_mem (s : State) (slot : Nat) : (State.deactivate s slot).mem = s.mem := (rfl)

@[simp] theorem State.fillQuarter_mem (s : State) (q : Nat) : (State.fillQuarter s q).mem = s.mem := by
  unfold State.fillQuarter
  dsimp only
  (repeat' split) <;> simp

@[simp] theorem State.passTurn_mem (s : State) (slot : Nat) : (State.passTurn s slot).mem = s.mem := by
  unfold State.passTurn
  dsimp only
  (repeat' split) <;> simp

@[simp] theorem State.settle_wf (s : State) (hw : Memory.wf s.mem = true) : Memory.wf (State.settle s).mem = true := by
  unfold State.settle
  refine State.trim_wf _ ?_
  rw [foldl_mem _ (fun s x => State.passTurn_mem s x), foldl_mem _ (fun s q => ?_)]
  · exact hw
  · exact times_inv (fun t : State => t.mem = s.mem) _ (fun t h => (State.fillQuarter_mem t q).trans h) _ _ rfl

@[simp] theorem State.cycle_wf (s : State) (hw : Memory.wf s.mem = true) : Memory.wf (State.cycle s).mem = true := by
  unfold State.cycle
  simp [hw]

/-! Machine/Operands. -/

@[simp] theorem State.vfinish_wf (s : State) (k : Nat) (ws : List RegWrite) (hw : Memory.wf s.mem = true) : Memory.wf (State.vfinish s k ws).mem = true := by
  unfold State.vfinish
  split <;> simp [hw]

@[simp] theorem State.vecOp_wf (s : State) (k : Nat) (f : V3) (b : BUse) (useC wide : Bool) (res : Nat → Nat) (hw : Memory.wf s.mem = true) : Memory.wf (State.vecOp s k f b useC wide res).mem = true := by
  unfold State.vecOp
  dsimp only
  (repeat' split) <;> simp [hw]

@[simp] theorem State.scaOp_wf (s : State) (k : Nat) (hd : Head) (d : BitVec 6) (srcs : List (BitVec 6)) (v : W64) (hw : Memory.wf s.mem = true) : Memory.wf (State.scaOp s k hd d srcs v).mem = true := by
  unfold State.scaOp
  split <;> simp [hw]

@[simp] theorem State.predOp_wf (s : State) (k : Nat) (hd : Head) (d : Nat) (ps : List Nat) (srcs : List (BitVec 6)) (t : Nat → Bool) (hw : Memory.wf s.mem = true) : Memory.wf (State.predOp s k hd d ps srcs t).mem = true := by
  unfold State.predOp
  split <;> simp [hw]

@[simp] theorem State.cvtOp_wf (s : State) (k : Nat) (f : V3) (res : Nat → Nat) (hw : Memory.wf s.mem = true) : Memory.wf (State.cvtOp s k f res).mem = true := by
  unfold State.cvtOp
  dsimp only
  (repeat' split) <;> simp [hw]

@[simp] theorem State.vecLong_wf (s : State) (k : Nat) (f : V3) (wide : Bool) (res : Nat → Nat) (hw : Memory.wf s.mem = true) : Memory.wf (State.vecLong s k f wide res).mem = true := by
  unfold State.vecLong
  dsimp only
  (repeat' split) <;> simp [hw]

/-! Machine/Access. -/

@[simp] theorem State.applyEvictions_wf (s : State) (hw : Memory.wf s.mem = true) : Memory.wf (State.applyEvictions s).mem = true := by
  unfold State.applyEvictions
  try dsimp only
  first
    | exact hw
    | (simp (maxDischargeDepth := 20) [hw]; done)
    | ((repeat' split) <;> (first | exact hw | (simp (maxDischargeDepth := 20) [hw]; done) | (simp (maxDischargeDepth := 20) [*]; done) | (simp_all (maxDischargeDepth := 20) ; done)))

@[simp] theorem State.noteAcc_wf (s : State) (k : Nat) (addr : W64) (n : Nat) (hw : Memory.wf s.mem = true) : Memory.wf (State.noteAcc s k addr n).mem = true := by
  unfold State.noteAcc
  simp [hw]

@[simp] theorem State.meetAccs_wf (s : State) (vd : Nat) (cnt : Bool) (as : List Acc) (hw : Memory.wf s.mem = true) : Memory.wf (State.meetAccs s vd cnt as).mem = true := by
  unfold State.meetAccs
  try dsimp only
  first
    | exact hw
    | (simp (maxDischargeDepth := 20) [hw]; done)
    | ((repeat' split) <;> (first | exact hw | (simp (maxDischargeDepth := 20) [hw]; done) | (simp (maxDischargeDepth := 20) [*]; done) | (simp_all (maxDischargeDepth := 20) ; done)))

@[simp] theorem State.approach_wf (s : State) (k space : Nat) (as : List Acc) (hw : Memory.wf s.mem = true) : Memory.wf (State.approach s k space as).mem = true := by
  unfold State.approach
  try dsimp only
  first
    | exact hw
    | (simp (maxDischargeDepth := 20) [hw]; done)
    | ((repeat' split) <;> (first | exact hw | (simp (maxDischargeDepth := 20) [hw]; done) | (simp (maxDischargeDepth := 20) [*]; done) | (simp_all (maxDischargeDepth := 20) ; done)))

@[simp] theorem State.reach_wf (s : State) (k space : Nat) (as : List Acc) (hw : Memory.wf s.mem = true) : Memory.wf (State.reach s k space as).mem = true := by
  unfold State.reach
  split <;> simp [hw]

@[simp] theorem State.countScratch_mem (s : State) (k space n : Nat) : (State.countScratch s k space n).mem = s.mem := by
  unfold State.countScratch
  simp

@[simp] theorem State.readAccs_wf (s : State) (k scope : Nat) (help : Nat → Bool) (x1 : List Acc) (hw : Memory.wf s.mem = true) : Memory.wf (State.readAccs s k scope help x1).2.mem = true := by
  fun_induction State.readAccs with
  | case1 => exact hw
  | case2 s a t h r ih => exact ih hw
  | case3 s a t ps h q bad r ih => exact ih (State.readPieces_wf _ _ _ hw)

@[simp] theorem State.readAll_wf (s : State) (k scope : Nat) (help : Nat → Bool) (as : List Acc) (hw : Memory.wf s.mem = true) : Memory.wf (State.readAll s k scope help as).2.mem = true := by
  unfold State.readAll
  simp [hw]

@[simp] theorem State.issueLoad_wf (s : State) (k : Nat) (h : Head) (ws : List RegWrite) (bad : Option (Nat × W64)) (hw : Memory.wf s.mem = true) : Memory.wf (State.issueLoad s k h ws bad).mem = true := by
  unfold State.issueLoad
  split <;> simp [hw]

@[simp] theorem State.writeAccs_wf (s : State) (k scope : Nat) (x1 : List (Acc × List Byte)) (hw : Memory.wf s.mem = true) : Memory.wf (State.writeAccs s k scope x1).mem = true := by
  fun_induction State.writeAccs <;> (try dsimp only) <;> (first | rfl | assumption | (simp (maxDischargeDepth := 20) [*]; done) | ((repeat' split) <;> (first | rfl | assumption | (simp (maxDischargeDepth := 20) [*]; done) | (simp_all (maxDischargeDepth := 20) ; done))))

@[simp] theorem State.storeAccs_wf (s : State) (k scope : Nat) (xs : List (Acc × List Byte)) (hw : Memory.wf s.mem = true) : Memory.wf (State.storeAccs s k scope xs).mem = true := by
  unfold State.storeAccs
  simp [hw]

end Sys2Proof.Machine
end

