-- ==== Sys2Proof/Laws/KeepMem.lean ====
section
/-! SUPPORT. What loads, stores, atomics, synchronization and engines do to memory: each operation leaves it alone (the lemmas that end in _mem) or keeps its canonical form (those
that end in _wf). -/

namespace Sys2Proof.Machine

/-! Machine/Mem. -/

theorem execLd_wf (f : FM) (s : State) (hw : Memory.wf s.mem = true) {t} (ht : execLd f s = .next t) : Memory.wf t.mem = true := by
  unfold execLd at ht
  dsimp only at ht
  (repeat' split at ht) <;> simp at ht <;> subst ht <;> simp (maxDischargeDepth := 20) [*]

theorem execSt_wf (f : FM) (s : State) (hw : Memory.wf s.mem = true) {t} (ht : execSt f s = .next t) : Memory.wf t.mem = true := by
  unfold execSt at ht
  dsimp only at ht
  (repeat' split at ht) <;> simp at ht <;> subst ht <;> simp [hw]

theorem execLds_wf (f : FM) (s : State) (hw : Memory.wf s.mem = true) {t} (ht : execLds f s = .next t) : Memory.wf t.mem = true := by
  unfold execLds at ht
  dsimp only at ht
  (repeat' split at ht) <;> simp at ht <;> subst ht <;> simp (maxDischargeDepth := 20) [*]

theorem execSts_wf (f : FM) (s : State) (hw : Memory.wf s.mem = true) {t} (ht : execSts f s = .next t) : Memory.wf t.mem = true := by
  unfold execSts at ht
  dsimp only at ht
  (repeat' split at ht) <;> simp at ht <;> subst ht <;> simp [hw]

theorem execLdt_wf (f : FM) (s : State) (hw : Memory.wf s.mem = true) {t} (ht : execLdt f s = .next t) : Memory.wf t.mem = true := by
  unfold execLdt at ht
  dsimp only at ht
  (repeat' split at ht) <;> simp at ht <;> subst ht <;> simp (maxDischargeDepth := 20) [*]

theorem execStt_wf (f : FM) (s : State) (hw : Memory.wf s.mem = true) {t} (ht : execStt f s = .next t) : Memory.wf t.mem = true := by
  unfold execStt at ht
  dsimp only at ht
  (repeat' split at ht) <;> simp at ht <;> subst ht <;> simp [hw]

theorem execLrec_wf (f : FM) (s : State) (hw : Memory.wf s.mem = true) {t} (ht : execLrec f s = .next t) : Memory.wf t.mem = true := by
  unfold execLrec at ht
  dsimp only at ht
  (repeat' split at ht) <;> simp at ht <;> subst ht <;> simp (maxDischargeDepth := 20) [*]

theorem execPrf_wf (f : FM) (s : State) (hw : Memory.wf s.mem = true) {t} (ht : execPrf f s = .next t) : Memory.wf t.mem = true := by
  unfold execPrf at ht
  dsimp only at ht
  split at ht
  · simp at ht; subst ht; simp [hw]
  · split at ht
    · simp at ht; subst ht; simp [hw]
    · split at ht
      · simp at ht; subst ht; exact hw
      · simp only [Host.Outcome.next.injEq] at ht
        subst ht
        rw [State.issue_mem]
        refine foldl_wf _ (fun s l h => ?_) _ _ hw
        split
        · exact State.prefetch_wf _ _ _ _ _ _ _ (by simp [h])
        · exact h

/-- Applying an operation that keeps memory canonical to the lines of a word keeps it canonical. -/
theorem State.eachLine_wf (s : State) (k : Nat) (f : FM) (acts : LaneMask) (g : State → Nat → State)
    (hg : ∀ s l, Memory.wf s.mem = true → Memory.wf (g s l).mem = true) (hw : Memory.wf s.mem = true) :
    Memory.wf (s.eachLine k f acts g).mem = true := by
  unfold State.eachLine
  refine foldl_wf _ (fun s l h => ?_) _ _ hw
  dsimp only
  split
  · exact hg _ _ (State.meetLine_wf _ _ _ _ (by simp [h]))
  · exact h

theorem execCwb_wf (f : FM) (s : State) (hw : Memory.wf s.mem = true) {t} (ht : execCwb f s = .next t) : Memory.wf t.mem = true := by
  unfold execCwb at ht
  dsimp only at ht
  split at ht
  · simp at ht; subst ht; simp [hw]
  · split at ht
    · simp at ht; subst ht; simp [hw]
    · split at ht
      · simp at ht; subst ht; exact hw
      · simp only [Host.Outcome.next.injEq] at ht
        subst ht
        rw [State.issue_mem]
        refine State.eachLine_wf _ _ _ _ _ (fun s l h => ?_) hw
        split
        · exact h
        · simp (maxDischargeDepth := 20) [h]

theorem execCinv_wf (f : FM) (s : State) (hw : Memory.wf s.mem = true) {t} (ht : execCinv f s = .next t) : Memory.wf t.mem = true := by
  unfold execCinv at ht
  dsimp only at ht
  split at ht
  · simp at ht; subst ht; simp [hw]
  · split at ht
    · simp at ht; subst ht; simp [hw]
    · split at ht
      · simp at ht; subst ht; exact hw
      · simp only [Host.Outcome.next.injEq] at ht
        subst ht
        rw [State.issue_mem]
        refine State.eachLine_wf _ _ _ _ _ (fun s l h => ?_) hw
        split
        · exact h
        · split
          · simp [h]
          · simp (maxDischargeDepth := 20) [h]

@[simp] theorem State.recall_wf (s : State) (core vd a n : Nat) (hw : Memory.wf s.mem = true) : Memory.wf (State.recall s core vd a n).mem = true := by
  unfold State.recall
  exact foldl_wf _ (fun s x h => by simp [h]) _ _ (foldl_wf _ (fun s x h => by simp [h]) _ _ (foldl_wf _ (fun s x h => by simp [h]) _ _ (foldl_wf _ (fun s x h => by simp [h]) _ _ hw)))

@[simp] theorem State.completeIf_mem (s : State) (k : Nat) (g : Pending → Bool) : (State.completeIf s k g).mem = s.mem := by
  unfold State.completeIf
  simp

@[simp] theorem State.foldMine_wf (s : State) (k : Nat) (hw : Memory.wf s.mem = true) : Memory.wf (State.foldMine s k).mem = true := by
  unfold State.foldMine
  refine foldl_wf _ (fun s p h => ?_) _ _ hw
  split
  · exact foldl_wf _ (fun s d h => State.foldDrain_wf _ _ h) _ _ h
  · exact h

theorem execSeal_wf (f : FM) (s : State) (hw : Memory.wf s.mem = true) {t} (ht : execSeal f s = .next t) : Memory.wf t.mem = true := by
  unfold execSeal at ht
  dsimp only at ht
  (repeat' split at ht) <;> simp at ht <;> subst ht <;> simp [hw]

theorem execLkl_wf (f : FM) (s : State) (hw : Memory.wf s.mem = true) {t} (ht : execLkl f s = .next t) : Memory.wf t.mem = true := by
  unfold execLkl at ht
  try dsimp only at ht
  (repeat' (split at ht)) <;> (first | (simp at ht; done) | (simp at ht; subst ht; first | exact hw | (simp (maxDischargeDepth := 20) [hw]; done) | (simp (maxDischargeDepth := 20) [*]; done) | (simp_all (maxDischargeDepth := 20) ; done)) | (simp_all; done))

theorem execUlk_wf (f : FM) (s : State) (hw : Memory.wf s.mem = true) {t} (ht : execUlk f s = .next t) : Memory.wf t.mem = true := by
  unfold execUlk at ht
  dsimp only at ht
  (repeat' split at ht) <;> simp at ht <;> subst ht <;> simp [hw]

theorem execFence_wf (f : FM) (s : State) (hw : Memory.wf s.mem = true) {t} (ht : execFence f s = .next t) : Memory.wf t.mem = true := by
  unfold execFence at ht
  dsimp only at ht
  (repeat' split at ht) <;> simp at ht <;> subst ht <;> simp [hw]

/-! Machine/Stream. -/

@[simp] theorem State.endSeal_wf (s : State) (vd va : Nat) (hw : Memory.wf s.mem = true) : Memory.wf (State.endSeal s vd va).mem = true := by
  unfold State.endSeal
  split <;> simp [hw]

@[simp] theorem State.dropSealed_wf (s : State) (core vd a n : Nat) (hw : Memory.wf s.mem = true) : Memory.wf (State.dropSealed s core vd a n).mem = true := by
  unfold State.dropSealed
  exact foldl_wf _ (fun s x h => by simp [h]) _ _ (foldl_wf _ (fun s x h => by simp [h]) _ _ hw)

theorem execUnseal_wf (f : FM) (s : State) (hw : Memory.wf s.mem = true) {t} (ht : execUnseal f s = .next t) : Memory.wf t.mem = true := by
  unfold execUnseal at ht
  dsimp only at ht
  split at ht
  · simp at ht; subst ht; simp [hw]
  · split at ht
    · simp at ht; subst ht; simp [hw]
    · split at ht
      · simp at ht; subst ht; exact hw
      · split at ht
        · simp at ht; subst ht; simp [hw]
        · simp only [Host.Outcome.next.injEq] at ht
          subst ht
          simp [hw]

/-! Machine/Atomic. -/

@[simp] theorem State.takeLine_wf (s : State) (line : Nat) (keep : Option Nat) (hw : Memory.wf s.mem = true) : Memory.wf (State.takeLine s line keep).mem = true := by
  unfold State.takeLine
  try dsimp only
  first
    | exact hw
    | (simp (maxDischargeDepth := 20) [hw]; done)
    | ((repeat' split) <;> (first | exact hw | (simp (maxDischargeDepth := 20) [hw]; done) | (simp (maxDischargeDepth := 20) [*]; done) | (simp_all (maxDischargeDepth := 20) ; done)))

@[simp] theorem State.refresh_mem (s : State) (core pa n : Nat) : (State.refresh s core pa n).mem = s.mem := by
  unfold State.refresh
  dsimp only
  (repeat' split) <;> simp

@[simp] theorem State.atPoint_wf (s : State) (w : Who) (l : Loc) (ty : Nat) (u : Upd) (hw : Memory.wf s.mem = true) : Memory.wf (State.atPoint s w l ty u).2.2.mem = true := by
  unfold State.atPoint
  dsimp only
  (repeat' split) <;> simp (maxDischargeDepth := 20) [*]

@[simp] theorem State.pointAccs_wf (s : State) (w : Who) (ty : Nat) (u : Nat → Upd) (x1 : List Acc) (hw : Memory.wf s.mem = true) : Memory.wf (State.pointAccs s w ty u x1).2.mem = true := by
  fun_induction State.pointAccs with
  | case1 => exact hw
  | case2 s a t ls r q ih =>
    refine ih ?_
    have go : ∀ (l : List Loc) (r : Nat × Bool × State), Memory.wf r.2.2.mem = true →
        Memory.wf (l.foldl (fun (r : Nat × Bool × State) l =>
          let q := r.2.2.atPoint w l ty (u a.lane)
          (q.1, r.2.1 || q.2.1, q.2.2)) r).2.2.mem = true := by
      intro l
      induction l with
      | nil => intro r h; exact h
      | cons x l ih => intro r h; exact ih _ (State.atPoint_wf _ _ _ _ _ h)
    exact go _ _ hw

@[simp] theorem State.atomWord_wf (s : State) (k : Nat) (f : FM) (off : W64) (useB : Bool) (u : Nat → Upd) (key : Nat → List Nat) (hw : Memory.wf s.mem = true) : Memory.wf (State.atomWord s k f off useB u key).mem = true := by
  unfold State.atomWord
  dsimp only
  (repeat' split) <;> simp (maxDischargeDepth := 20) [*]

theorem execAtom_wf (f : FM) (s : State) (hw : Memory.wf s.mem = true) {t} (ht : execAtom f s = .next t) : Memory.wf t.mem = true := by
  unfold execAtom at ht
  simp at ht
  subst ht
  simp [hw]

theorem execAtomx_wf (f : FM) (s : State) (hw : Memory.wf s.mem = true) {t} (ht : execAtomx f s = .next t) : Memory.wf t.mem = true := by
  unfold execAtomx at ht
  simp at ht
  subst ht
  simp [hw]

@[simp] theorem State.updateU_wf (s : State) (cl pa aop ty x : Nat) (hw : Memory.wf s.mem = true) : Memory.wf (State.updateU s cl pa aop ty x).mem = true := by
  unfold State.updateU
  dsimp only
  (repeat' split) <;> simp [hw]

@[simp] theorem State.redAccs_wf (s : State) (k aop ty scope : Nat) (x : Nat → Nat) (as : List Acc) (hw : Memory.wf s.mem = true) : Memory.wf (State.redAccs s k aop ty scope x as).2.mem = true := by
  unfold State.redAccs
  refine foldl_inv (fun r : Option (Nat × W64) × State => Memory.wf r.2.mem = true) _ (fun r a h => ?_) _ _ hw
  dsimp only
  split
  · simp [h]
  · exact State.pointAccs_wf _ _ _ _ _ h

/-- A reduction keeps memory canonical where what it performs at the accesses does. -/
theorem State.redWord_wf (s : State) (k : Nat) (f : FM) (off : W64) (aop scope : Nat) (isRed : Bool) (chk : Elem → List Piece → Option Cause)
    (perform : State → List Acc → State) (hp : ∀ s as, Memory.wf s.mem = true → Memory.wf (perform s as).mem = true)
    (hw : Memory.wf s.mem = true) : Memory.wf (s.redWord k f off aop scope isRed chk perform).mem = true := by
  unfold State.redWord
  dsimp only
  split
  · simp [hw]
  · split
    · simp [hw]
    · split
      · simp [hw]
      · split
        · simp [hw]
        · refine hp _ _ ?_
          rw [State.countScratch_mem]
          exact State.meetAccs_wf _ _ _ _ (State.approach_wf _ _ _ _ hw)

theorem execRed_wf (f : FM) (s : State) (hw : Memory.wf s.mem = true) {t} (ht : execRed f s = .next t) : Memory.wf t.mem = true := by
  simp only [execRed, Host.Outcome.next.injEq] at ht
  subst ht
  exact State.redWord_wf _ _ _ _ _ _ _ _ _ (fun s as h => by rw [State.issue_mem]; exact State.redAccs_wf _ _ _ _ _ _ _ h) hw

@[simp] theorem State.gaddLane_wf (s : State) (vd cl pa ty x : Nat) (rg : Region) (hw : Memory.wf s.mem = true) : Memory.wf (State.gaddLane s vd cl pa ty x rg).1.mem = true := by
  unfold State.gaddLane
  dsimp only
  (repeat' split) <;> simp [hw]

theorem execGadd_wf (f : FM) (s : State) (hw : Memory.wf s.mem = true) {t} (ht : execGadd f s = .next t) : Memory.wf t.mem = true := by
  simp only [execGadd, Host.Outcome.next.injEq] at ht
  subst ht
  refine State.redWord_wf _ _ _ _ _ _ _ _ _ (fun s as h => ?_) hw
  generalize hr : List.foldl _ _ as = r
  have hw : Memory.wf r.2.2.mem = true := by
    rw [← hr]
    refine foldl_inv (fun r : Option (Nat × W64) × List Nat × State => Memory.wf r.2.2.mem = true) _ (fun r a h => ?_) _ _ h
    split
    · (repeat' split) <;> simp (maxDischargeDepth := 20) [h]
    · exact State.redAccs_wf _ _ _ _ _ _ _ h
  split <;> (rw [State.issue_mem]; exact hw)

@[simp] theorem State.forceDrains_wf (s : State) (line : Nat) (eps : FV) (x1 : Nat) (hw : Memory.wf s.mem = true) : Memory.wf (State.forceDrains s line eps x1).mem = true := by
  fun_induction State.forceDrains with
  | case1 => exact hw
  | case2 => exact hw
  | case3 s fuel book cl h1 h2 _ s1 s2 ih =>
    refine ih (State.drainU_wf _ _ _ (foldl_wf _ (fun s d h => State.foldDrain_wf _ _ h) _ _ hw))
  | case4 => exact hw

theorem execGld_wf (f : FM) (s : State) (hw : Memory.wf s.mem = true) {t} (ht : execGld f s = .next t) : Memory.wf t.mem = true := by
  unfold execGld at ht
  dsimp only at ht
  split at ht
  · simp at ht; subst ht; simp [hw]
  · split at ht
    · simp at ht; subst ht; simp [hw]
    · split at ht
      · simp at ht; subst ht; simp [hw]
      · simp only [Host.Outcome.next.injEq] at ht
        subst ht
        refine State.issueLoad_wf _ _ _ _ _ (foldl_inv (fun r : List Got × State => Memory.wf r.2.mem = true) _ (fun r a h => ?_) _ _ ?_)
        · dsimp only
          split
          · exact State.l2Fill_wf _ _ _ _ (State.forceDrains_wf _ _ _ _ h)
          · exact State.atPoint_wf _ _ _ _ _ h
          · exact h
        · refine State.meetAccs_wf _ _ _ _ (State.approach_wf _ _ _ _ ?_)
          rw [State.completeIf_mem]
          exact State.foldMine_wf _ _ hw

@[simp] theorem State.settleRange_wf (s : State) (core vd a n : Nat) (hw : Memory.wf s.mem = true) : Memory.wf (State.settleRange s core vd a n).mem = true := by
  unfold State.settleRange
  dsimp only
  (repeat' split) <;> simp_all (maxDischargeDepth := 20)

theorem execGdef_wf (f : FM) (s : State) (hw : Memory.wf s.mem = true) {t} (ht : execGdef f s = .next t) : Memory.wf t.mem = true := by
  unfold execGdef at ht
  dsimp only at ht
  (repeat' split at ht) <;> simp at ht <;> subst ht <;> simp [hw]

theorem execGauzeDrainAck_wf (cluster line : Nat) (s : State) (hw : Memory.wf s.mem = true) {t} (ht : execGauzeDrainAck cluster line s = .next t) : Memory.wf t.mem = true := by
  unfold execGauzeDrainAck at ht
  try dsimp only at ht
  (repeat' (split at ht)) <;> (first | (simp at ht; done) | (simp at ht; subst ht; first | exact hw | (simp (maxDischargeDepth := 20) [hw]; done) | (simp (maxDischargeDepth := 20) [*]; done) | (simp_all (maxDischargeDepth := 20) ; done)) | (simp_all; done))

/-! Machine/Syn. -/

@[simp] theorem State.ctrWord_wf (s : State) (k : Nat) (f : FY) (u : Upd) (ret : Bool) (as : List Acc) (hw : Memory.wf s.mem = true) : Memory.wf (State.ctrWord s k f u ret as).mem = true := by
  unfold State.ctrWord
  dsimp only
  (repeat' split) <;> simp (maxDischargeDepth := 20) [*]

theorem execCadd_wf (f : FY) (s : State) (hw : Memory.wf s.mem = true) {t} (ht : execCadd f s = .next t) : Memory.wf t.mem = true := by
  unfold execCadd at ht
  dsimp only at ht
  (repeat' split at ht) <;> simp at ht <;> subst ht <;> simp (maxDischargeDepth := 20) [*]

theorem execCwait_wf (f : FY) (s : State) (hw : Memory.wf s.mem = true) {t} (ht : execCwait f s = .next t) : Memory.wf t.mem = true := by
  unfold execCwait at ht
  dsimp only at ht
  (repeat' split at ht) <;> simp at ht <;> subst ht <;> simp [hw]

theorem execCread_wf (f : FY) (s : State) (hw : Memory.wf s.mem = true) {t} (ht : execCread f s = .next t) : Memory.wf t.mem = true := by
  unfold execCread at ht
  dsimp only at ht
  (repeat' split at ht) <;> simp at ht <;> subst ht <;> simp [hw]

theorem execCphase_wf (f : FY) (s : State) (hw : Memory.wf s.mem = true) {t} (ht : execCphase f s = .next t) : Memory.wf t.mem = true := by
  unfold execCphase at ht
  simp at ht
  subst ht
  simp [hw]

theorem execCbind_wf (f : FY) (s : State) (hw : Memory.wf s.mem = true) {t} (ht : execCbind f s = .next t) : Memory.wf t.mem = true := by
  unfold execCbind at ht
  dsimp only at ht
  (repeat' split at ht) <;> simp at ht <;> subst ht <;> simp [hw]

theorem execCunbind_wf (f : FY) (s : State) (hw : Memory.wf s.mem = true) {t} (ht : execCunbind f s = .next t) : Memory.wf t.mem = true := by
  unfold execCunbind at ht
  dsimp only at ht
  (repeat' split at ht) <;> simp at ht <;> subst ht <;> simp [hw]

theorem State.observe_wf (s : State) (k : Nat) (c : CWait) (hw : Memory.wf s.mem = true) {t} (ht : State.observe s k c = some t) : Memory.wf t.2.2.mem = true := by
  unfold State.observe at ht
  dsimp only at ht
  (repeat' split at ht) <;> simp at ht <;> subst ht <;> simp [hw]

@[simp] theorem State.metCwait_wf (s : State) (k i : Nat) (hw : Memory.wf s.mem = true) : Memory.wf (State.metCwait s k i).mem = true := by
  unfold State.metCwait
  split
  · exact hw
  · split
    · split
      · split
        · rw [State.deliver_mem, State.modFib_mem]
          exact State.observe_wf _ _ _ hw ‹_›
        · exact hw
      · exact hw
    · exact hw

@[simp] theorem State.tryCwait_wf (s : State) (k i : Nat) (hw : Memory.wf s.mem = true) : Memory.wf (State.tryCwait s k i).mem = true := by
  unfold State.tryCwait
  rw [State.rouse_mem]
  exact State.metCwait_wf _ _ _ hw

theorem execCset_wf (f : FY) (s : State) (hw : Memory.wf s.mem = true) {t} (ht : execCset f s = .next t) : Memory.wf t.mem = true := by
  unfold execCset at ht
  try dsimp only at ht
  (repeat' (split at ht)) <;> (first | (simp at ht; done) | (simp at ht; subst ht; first | exact hw | (simp (maxDischargeDepth := 20) [hw]; done) | (simp (maxDischargeDepth := 20) [*]; done) | (simp_all (maxDischargeDepth := 20) ; done)) | (simp_all; done))

theorem execCwaitComplete_wf (fib idx : Nat) (s : State) (hw : Memory.wf s.mem = true) {t} (ht : execCwaitComplete fib idx s = .next t) : Memory.wf t.mem = true := by
  unfold execCwaitComplete at ht
  simp at ht
  subst ht
  simp [hw]

theorem execHostCwaitPoll_wf (fib idx : Nat) (s : State) (hw : Memory.wf s.mem = true) {t} (ht : execHostCwaitPoll fib idx s = .next t) : Memory.wf t.mem = true := by
  unfold execHostCwaitPoll at ht
  simp at ht
  subst ht
  simp [hw]

theorem execLongLatencyComplete_mem (fib idx : Nat) (part : Option (List Nat)) (s : State) {t} (ht : execLongLatencyComplete fib idx part s = .next t) : t.mem = s.mem := by
  unfold execLongLatencyComplete at ht
  (repeat' split at ht) <;> simp at ht <;> subst ht <;> simp

/-! Machine/Eng. -/

@[simp] theorem State.queueStall_mem (s : State) (k : Nat) (h : Head) : (State.queueStall s k h).mem = s.mem := by
  unfold State.queueStall
  simp

theorem execQpush_wf (f : FQ) (s : State) (hw : Memory.wf s.mem = true) {t} (ht : execQpush f s = .next t) : Memory.wf t.mem = true := by
  unfold execQpush at ht
  dsimp only at ht
  (repeat' split at ht) <;> simp at ht <;> subst ht <;> simp [hw]

theorem execQpop_wf (f : FQ) (s : State) (hw : Memory.wf s.mem = true) {t} (ht : execQpop f s = .next t) : Memory.wf t.mem = true := by
  unfold execQpop at ht
  dsimp only at ht
  (repeat' split at ht) <;> simp at ht <;> subst ht <;> simp [hw]

theorem execQstat_wf (f : FQ) (s : State) (hw : Memory.wf s.mem = true) {t} (ht : execQstat f s = .next t) : Memory.wf t.mem = true := by
  unfold execQstat at ht
  simp at ht
  subst ht
  simp [hw]

theorem execQbind_wf (f : FQ) (s : State) (hw : Memory.wf s.mem = true) {t} (ht : execQbind f s = .next t) : Memory.wf t.mem = true := by
  unfold execQbind at ht
  dsimp only at ht
  (repeat' split at ht) <;> simp at ht <;> subst ht <;> simp [hw]

/-- A read by an engine that answers keeps memory canonical. -/
theorem State.engRead1_wf (s : State) (c : Cmd) (scr : Bool) (al a n : Nat) (hw : Memory.wf s.mem = true) {d t}
    (ht : s.engRead1 c scr al a n = .got d t) : Memory.wf t.mem = true := by
  unfold State.engRead1 at ht
  dsimp only at ht
  split at ht
  · cases ht
  · split at ht
    · cases ht
    · simp only [EngRead.got.injEq] at ht
      rw [← ht.2]
      exact State.readPieces_wf _ _ _ hw

theorem State.engReads_wf (s : State) (c : Cmd) (scr : Bool) (al z : Nat) (l : List (Option Nat)) (hw : Memory.wf s.mem = true) {d t}
    (ht : s.engReads c scr al z l = .got d t) : Memory.wf t.mem = true := by
  induction l generalizing s d t with
  | nil => simp only [State.engReads, EngRead.got.injEq] at ht; rw [← ht.2]; exact hw
  | cons x l ih =>
    cases x with
    | none =>
      simp only [State.engReads] at ht
      split at ht
      · simp only [EngRead.got.injEq] at ht; rw [← ht.2]; exact ih _ hw ‹_›
      · exact ih _ hw ht
    | some a =>
      simp only [State.engReads] at ht
      split at ht
      · split at ht
        · simp only [EngRead.got.injEq] at ht
          rw [← ht.2]
          exact ih _ (State.engRead1_wf _ _ _ _ _ _ hw ‹_›) ‹_›
        · exact ih _ (State.engRead1_wf _ _ _ _ _ _ hw ‹_›) ht
      · exact State.engRead1_wf _ _ _ _ _ _ hw ht

theorem State.engSource_wf (s : State) (c : Cmd) (off n : Nat) (hw : Memory.wf s.mem = true) {d t}
    (ht : s.engSource c off n = .got d t) : Memory.wf t.mem = true := by
  unfold State.engSource at ht
  dsimp only at ht
  split at ht
  · simp only [EngRead.got.injEq] at ht; rw [← ht.2]; exact hw
  · split at ht
    · split at ht
      · simp only [EngRead.got.injEq] at ht; rw [← ht.2]; exact State.engReads_wf _ _ _ _ _ _ hw ‹_›
      · exact State.engReads_wf _ _ _ _ _ _ hw ht
    · exact State.engRead1_wf _ _ _ _ _ _ hw ht

theorem State.engWrite_wf (s : State) (c : Cmd) (scr : Bool) (al : Nat) (ws : List (Nat × List Byte)) (hw : Memory.wf s.mem = true) {t} (ht : State.engWrite s c scr al ws = .ok t) : Memory.wf t.mem = true := by
  unfold State.engWrite at ht
  split at ht
  · simp only [Except.ok.injEq] at ht; subst ht; exact hw
  · split at ht
    · simp at ht
    · simp only [Except.ok.injEq] at ht
      subst ht
      rw [State.clearPoison_mem]
      refine foldl_wf _ (fun s w h => State.writePieces_wf _ _ _ _ h) _ _ (foldl_wf _ (fun s w h => foldl_wf _ (fun s p h =>
        foldl_wf _ (fun s x h => ?_) _ _ h) _ _ h) _ _ hw)
      split
      · exact State.meetLine_wf _ _ _ _ h
      · exact h

@[simp] theorem State.recordFault_mem (s : State) (w cause engine addr : Nat) : (State.recordFault s w cause engine addr).mem = s.mem := by
  unfold State.recordFault
  simp

@[simp] theorem State.scratchAdd_mem (s : State) (w off inc : Nat) : (State.scratchAdd s w off inc).mem = s.mem := by
  unfold State.scratchAdd
  simp

@[simp] theorem State.engAdd_wf (s : State) (c : Cmd) (inc : Nat) (hw : Memory.wf s.mem = true) : Memory.wf (State.engAdd s c inc).mem = true := by
  unfold State.engAdd
  split
  · exact hw
  · split
    · simp [hw]
    · split
      · exact State.ctrAdd_wf _ _ _ _ _ hw ‹_›
      · split <;> simp [hw]

@[simp] theorem State.setCmd_mem (s : State) (id : Nat) (c : Cmd) : (State.setCmd s id c).mem = s.mem := (rfl)

@[simp] theorem State.finishCmd_wf (s : State) (id : Nat) (hw : Memory.wf s.mem = true) : Memory.wf (State.finishCmd s id).mem = true := by
  unfold State.finishCmd
  dsimp only
  (repeat' split) <;> simp_all (maxDischargeDepth := 20)

@[simp] theorem State.send_mem (s : State) (part port : Nat) (body : PktBody) : (State.send s part port body).mem = s.mem := (rfl)

@[simp] theorem State.peerAdd_mem (s : State) (c : Cmd) (port inc : Nat) : (State.peerAdd s c port inc).mem = s.mem := by
  unfold State.peerAdd
  split <;> rfl

@[simp] theorem State.lateAdds_wf (s : State) (c : Cmd) (count : Nat) (hw : Memory.wf s.mem = true) : Memory.wf (State.lateAdds s c count).mem = true := by
  unfold State.lateAdds
  split
  · simp [hw]
  · simp [hw]
  · split
    · simp [hw]
    · refine State.engAdd_wf _ _ _ ?_
      split <;> simp [hw]
  · simp [hw]

@[simp] theorem State.engFail_wf (s : State) (id : Nat) (c : Cmd) (cause addr count : Nat) (hw : Memory.wf s.mem = true) : Memory.wf (State.engFail s id c cause addr count).mem = true := by
  unfold State.engFail
  simp [hw]

@[simp] theorem State.engFault_wf (s : State) (id : Nat) (c : Cmd) (e : XErr) (a count : Nat) (hw : Memory.wf s.mem = true) : Memory.wf (State.engFault s id c e a count).mem = true := by
  unfold State.engFault
  split <;> simp [hw]

@[simp] theorem State.accepted_mem (s : State) (id : Nat) : (State.accepted s id).mem = s.mem := (rfl)

@[simp] theorem State.putCtx_wf (s : State) (core vd : Nat) (ps : List Piece) (bs : List Byte) (hw : Memory.wf s.mem = true) : Memory.wf (State.putCtx s core vd ps bs).mem = true := by
  unfold State.putCtx
  rw [State.clearPoison_mem]
  refine State.writePieces_wf _ _ _ _ (foldl_wf _ (fun s p h => foldl_wf _ (fun s l h => ?_) _ _ h) _ _ hw)
  split
  · exact State.meetLine_wf _ _ _ _ h
  · exact h

theorem State.ctxWrite_wf (s : State) (core vd a : Nat) (bs : List Byte) (hw : Memory.wf s.mem = true) {t} (ht : State.ctxWrite s core vd a bs = some t) : Memory.wf t.mem = true := by
  unfold State.ctxWrite at ht
  split at ht
  · simp only [Option.some.injEq] at ht
    subst ht
    exact State.putCtx_wf _ _ _ _ _ hw
  · simp at ht

@[simp] theorem State.standIn_wf (s : State) (id : Nat) (c : Cmd) (hw : Memory.wf s.mem = true) : Memory.wf (State.standIn s id c).mem = true := by
  unfold State.standIn
  dsimp only
  split
  · exact hw
  · split
    · rw [State.accepted_mem, State.msix_mem, State.setCmd_mem, State.modVd_mem]
      refine State.ctrAddOrDrop_wf _ _ _ _ _ ?_
      cases h : s.ctxWrite (8 * c.cluster) c.vd (s.vd c.vd).nextRec c.fallback with
      | none => exact hw
      | some t => exact State.ctxWrite_wf _ _ _ _ _ hw h
    · rw [State.accepted_mem, State.setCmd_mem]
      exact hw

@[simp] theorem State.numberColl_mem (s : State) (c : Cmd) : (State.numberColl s c).2.mem = s.mem := by
  unfold State.numberColl
  split <;> simp

@[simp] theorem State.push_wf (s : State) (k kind : Nat) (f : FQ) (extra : List (BitVec 6)) (hw : Memory.wf s.mem = true) : Memory.wf (State.push s k kind f extra).mem = true := by
  unfold State.push
  dsimp only
  (repeat' split) <;> simp [hw]

theorem execCpy_wf (f : FQ) (s : State) (hw : Memory.wf s.mem = true) {t} (ht : execCpy f s = .next t) : Memory.wf t.mem = true := by
  unfold execCpy at ht
  simp at ht
  subst ht
  simp [hw]

theorem execCpym_wf (f : FQ) (s : State) (hw : Memory.wf s.mem = true) {t} (ht : execCpym f s = .next t) : Memory.wf t.mem = true := by
  unfold execCpym at ht
  simp at ht
  subst ht
  simp [hw]

theorem execCpyr_wf (f : FQ) (s : State) (hw : Memory.wf s.mem = true) {t} (ht : execCpyr f s = .next t) : Memory.wf t.mem = true := by
  unfold execCpyr at ht
  simp at ht
  subst ht
  simp [hw]

theorem execColl_wf (f : FQ) (s : State) (hw : Memory.wf s.mem = true) {t} (ht : execColl f s = .next t) : Memory.wf t.mem = true := by
  unfold execColl at ht
  simp at ht
  subst ht
  simp [hw]

theorem execEngineAccept_mem (cmd : Nat) (s : State) {t} (ht : execEngineAccept cmd s = .next t) : t.mem = s.mem := by
  unfold execEngineAccept at ht
  (repeat' split at ht) <;> simp at ht <;> subst ht <;> simp

theorem execEngineDeadline_wf (cmd : Nat) (s : State) (hw : Memory.wf s.mem = true) {t} (ht : execEngineDeadline cmd s = .next t) : Memory.wf t.mem = true := by
  unfold execEngineDeadline at ht
  (repeat' split at ht) <;> simp at ht <;> subst ht <;> simp [hw]

theorem State.expand_wf (s : State) (c : Cmd) (n pos : Nat) (hw : Memory.wf s.mem = true) {d t p}
    (ht : s.expand c n pos = (.got d t, p)) : Memory.wf t.mem = true := by
  induction n generalizing s pos d t p with
  | zero => simp only [State.expand, Prod.mk.injEq, EngRead.got.injEq] at ht; rw [← ht.1.2]; exact hw
  | succ n ih =>
    simp only [State.expand] at ht
    split at ht
    · rename_i h1
      have w1 := State.engSource_wf _ _ _ _ hw h1
      split at ht
      · rename_i h2
        have w2 := State.engSource_wf _ _ _ _ w1 h2
        split at ht
        · rename_i h3
          simp only [Prod.mk.injEq, EngRead.got.injEq] at ht
          rw [← ht.1.2]
          exact ih _ _ w2 h3
        · exact ih _ _ w2 ht
      · simp only [Prod.mk.injEq] at ht
        exact State.engSource_wf _ _ _ _ w1 ht.1
    · simp only [Prod.mk.injEq] at ht
      exact State.engSource_wf _ _ _ _ hw ht.1

@[simp] theorem State.copyWhole_wf (s : State) (id : Nat) (c : Cmd) (hw : Memory.wf s.mem = true) : Memory.wf (State.copyWhole s id c).mem = true := by
  unfold State.copyWhole
  dsimp only
  split
  · simp [hw]
  · simp [hw]
  · rename_i d t read hr
    have w1 : Memory.wf t.mem = true := by
      split at hr
      · simp only [Prod.mk.injEq] at hr
        exact State.engSource_wf _ _ _ _ hw hr.1
      · exact State.expand_wf _ _ _ _ hw hr
    split
    · simp [w1]
    · have w2 := State.engWrite_wf _ _ _ _ _ w1 ‹_›
      split <;> simp (maxDischargeDepth := 20) [w2]

@[simp] theorem State.chunkDone_wf (s : State) (id : Nat) (c : Cmd) (k : Nat) (hw : Memory.wf s.mem = true) : Memory.wf (State.chunkDone s id c k).mem = true := by
  unfold State.chunkDone
  dsimp only
  split <;> simp (maxDischargeDepth := 20) [hw]

@[simp] theorem State.copyChunk_wf (s : State) (id : Nat) (c : Cmd) (k : Nat) (hw : Memory.wf s.mem = true) : Memory.wf (State.copyChunk s id c k).mem = true := by
  unfold State.copyChunk
  split
  · simp [hw]
  · simp [hw]
  · have w1 := State.engSource_wf _ _ _ _ hw ‹_›
    split
    · simp [w1]
    · exact State.chunkDone_wf _ _ _ _ (State.engWrite_wf _ _ _ _ _ w1 ‹_›)

@[simp] theorem State.castChunk_wf (s : State) (id : Nat) (c : Cmd) (k : Nat) (hw : Memory.wf s.mem = true) : Memory.wf (State.castChunk s id c k).mem = true := by
  unfold State.castChunk
  split
  · simp [hw]
  · simp [hw]
  · have w1 := State.engRead1_wf _ _ _ _ _ _ hw ‹_›
    dsimp only
    generalize hr : List.foldl _ _ _ = r
    have w2 : Memory.wf r.mem = true := by
      rw [← hr]
      refine foldl_wf _ (fun s w h => ?_) _ _ w1
      split <;> split <;> simp [h]
    split
    · exact State.finishCmd_wf _ _ w2
    · rw [State.setCmd_mem]; exact w2

@[simp] theorem State.putChunk_wf (s : State) (id : Nat) (c : Cmd) (k : Nat) (hw : Memory.wf s.mem = true) : Memory.wf (State.putChunk s id c k).mem = true := by
  unfold State.putChunk
  dsimp only
  split
  · simp [hw]
  · split
    · simp [hw]
    · simp [hw]
    · have w1 := State.engRead1_wf _ _ _ _ _ _ hw ‹_›
      rw [State.setCmd_mem, State.peerAdd_mem]
      generalize hr : List.foldl _ _ _ = r
      have w2 : Memory.wf r.mem = true := by
        rw [← hr, foldl_mem _ (fun s x => State.send_mem _ _ _ _)]
        exact w1
      exact w2

theorem execCopyChunkDone_wf (cmd : Nat) (s : State) (hw : Memory.wf s.mem = true) {t} (ht : execCopyChunkDone cmd s = .next t) : Memory.wf t.mem = true := by
  unfold execCopyChunkDone at ht
  (repeat' split at ht) <;> simp at ht <;> subst ht <;> simp [hw]

@[simp] theorem State.deliverColl_wf (s : State) (id : Nat) (c : Cmd) (count : Nat) (bs : List Byte) (hw : Memory.wf s.mem = true) : Memory.wf (State.deliverColl s id c count bs).mem = true := by
  unfold State.deliverColl
  split
  · simp [hw]
  · have w1 := State.engWrite_wf _ _ _ _ _ hw ‹_›
    dsimp only
    split <;> simp (maxDischargeDepth := 20) [w1]

theorem execCollectiveFoldDone_wf (cmd : Nat) (remote : List (List Byte)) (s : State) (hw : Memory.wf s.mem = true) {t} (ht : execCollectiveFoldDone cmd remote s = .next t) : Memory.wf t.mem = true := by
  unfold execCollectiveFoldDone at ht
  dsimp only at ht
  (repeat' (split at ht)) <;> simp only [Host.Outcome.next.injEq] at ht <;> subst ht
  all_goals first
    | exact hw
    | exact State.engFault_wf _ _ _ _ _ _ hw
    | exact State.engFail_wf _ _ _ _ _ _ hw
    | exact State.deliverColl_wf _ _ _ _ _ hw
    | exact foldl_wf _ (fun s m h => State.engFail_wf _ _ _ _ _ _ h) _ _ hw
    | exact foldl_wf _ (fun s m h => State.engFault_wf _ _ _ _ _ _ h) _ _ hw
    | (refine State.deliverColl_wf _ _ _ _ _ (foldl_wf _ (fun s m h => ?_) _ _ hw); split <;> first | exact h | (rw [State.setCmd_mem]; exact h))
    | (refine foldl_wf _ (fun s m h => ?_) _ _ hw; split <;> first | exact h | (rw [State.setCmd_mem]; exact h))

end Sys2Proof.Machine
end

