-- ==== Sys2Proof/Laws/KeepSys.lean ====
section
/-! SUPPORT. What placement, memory loss, system registers, pre-emption, the world outside and the loaders do to memory: each operation leaves it alone (the lemmas that end in _mem) or keeps its canonical form (those
that end in _wf). -/

namespace Sys2Proof.Machine

/-! Machine/Place. -/

@[simp] theorem State.admitGrid_mem (s : State) (vd : Nat) (r : LaunchRec) (kd : KDesc) (args : List Byte) (q : QueueEnt) (disp : Bool) : (State.admitGrid s vd r kd args q disp).2.mem = s.mem := by
  unfold State.admitGrid
  dsimp only
  (repeat' split) <;> simp

theorem State.admitRec_mem (s : State) (core vd : Nat) (r : LaunchRec) (disp : Bool) {t} (ht : State.admitRec s core vd r disp = .ok t) : t.2.mem = s.mem := by
  unfold State.admitRec at ht
  dsimp only at ht
  (repeat' split at ht) <;> simp at ht <;> subst ht <;> simp

theorem State.launchAt_wf (s : State) (core vd a : Nat) (hw : Memory.wf s.mem = true) {t} (ht : State.launchAt s core vd a = .ok t) : Memory.wf t.2.mem = true := by
  unfold State.launchAt at ht
  split at ht
  · simp only [Except.ok.injEq] at ht; subst ht; exact hw
  · split at ht
    · simp at ht
    · simp only [Except.ok.injEq] at ht; subst ht; exact hw
    · rw [State.admitRec_mem _ _ _ _ _ ht]; exact hw

@[simp] theorem State.chargeStart_mem (s : State) (g : Nat) : (State.chargeStart s g).mem = s.mem := by
  unfold State.chargeStart
  simp

@[simp] theorem State.copyFrame_mem (s : State) (k fp : Nat) (m : LaneMask) : (State.copyFrame s k fp m).mem = s.mem := (rfl)

@[simp] theorem State.dmrOn_mem (s : State) (k : Nat) : (State.dmrOn s k).mem = s.mem := by
  unfold State.dmrOn
  try dsimp only
  first
    | rfl
    | (simp ; done)
    | ((repeat' split) <;> (first | rfl | (simp ; done) | (simp [*]; done) | (simp_all ; done)))

@[simp] theorem State.dmrOff_mem (s : State) (k : Nat) : (State.dmrOff s k).mem = s.mem := by
  unfold State.dmrOff
  simp

@[simp] theorem State.seat_mem (s : State) (slot quarter pslot : Nat) : (State.seat s slot quarter pslot).mem = s.mem := (rfl)

@[simp] theorem State.reuse_mem (s : State) (core : Nat) (places : List (Nat × Nat)) : (State.reuse s core places).mem = s.mem := by
  unfold State.reuse
  simp

@[simp] theorem State.startWg_mem (s : State) (g core : Nat) (slots : List (Nat × Nat)) (banks : Tab Nat) : (State.startWg s g core slots banks).mem = s.mem := by
  unfold State.startWg
  dsimp only
  rw [State.setGrid_mem]
  refine (foldl_mem _ (fun t i => foldl_mem _ (fun t f => ?_) _ _) _ _).trans ((foldl_mem _ (fun t i => by simp) _ _).trans ?_)
  · rw [State.select_mem]
    split <;> simp
  · simp only [State.setWg_mem]
    unfold State.chargeStart
    dsimp only
    split <;> simp

@[simp] theorem State.startStand_mem (s : State) (id core : Nat) (slots : List (Nat × Nat)) : (State.startStand s id core slots).mem = s.mem := by
  unfold State.startStand
  split <;> simp

theorem execWorkgroupPlacement_wf (cluster : Nat) (s : State) (hw : Memory.wf s.mem = true) {t} (ht : execWorkgroupPlacement cluster s = .next t) : Memory.wf t.mem = true := by
  unfold execWorkgroupPlacement at ht
  (repeat' split at ht) <;> simp at ht <;> subst ht <;> simp [hw]

@[simp] theorem State.startDispatcher_wf (s : State) (vd : Nat) (hw : Memory.wf s.mem = true) : Memory.wf (State.startDispatcher s vd).mem = true := by
  unfold State.startDispatcher
  dsimp only
  split
  · exact hw
  · split
    · rename_i h
      have := State.admitRec_mem _ _ _ _ _ h
      simp only at this
      rw [this]; exact hw
    · rename_i h
      have := State.admitRec_mem _ _ _ _ _ h
      simp only at this
      rw [State.killCause_mem, this]; exact hw
    · rw [State.killCause_mem]; exact hw

@[simp] theorem State.stopDispatcher_mem (s : State) (vd : Nat) : (State.stopDispatcher s vd).mem = s.mem := by
  unfold State.stopDispatcher
  dsimp only
  (repeat' split) <;> simp

@[simp] theorem State.setDispatchDesc_wf (s : State) (vd : Nat) (v : W64) (hw : Memory.wf s.mem = true) : Memory.wf (State.setDispatchDesc s vd v).mem = true := by
  unfold State.setDispatchDesc
  simp [hw]

theorem execDispatchDescWrite_wf (vd : Nat) (v : W64) (s : State) (hw : Memory.wf s.mem = true) {t} (ht : execDispatchDescWrite vd v s = .next t) : Memory.wf t.mem = true := by
  unfold execDispatchDescWrite at ht
  simp at ht
  subst ht
  simp [hw]

@[simp] theorem State.assign_mem (s : State) (cfg : FunctionCfg) : (State.assign s cfg).mem = s.mem := by
  unfold State.assign
  simp

@[simp] theorem State.setBudget_mem (s : State) (b : Option Nat) : (State.setBudget s b).mem = s.mem := by
  cases b <;> rfl

theorem execFunctionEnable_wf (vd : Nat) (cfg : FunctionCfg) (s : State) (hw : Memory.wf s.mem = true) {t} (ht : execFunctionEnable vd cfg s = .next t) : Memory.wf t.mem = true := by
  unfold execFunctionEnable at ht
  (repeat' split at ht) <;> simp at ht <;> subst ht <;> simp [hw]

theorem execFunctionDisable_wf (vd : Nat) (s : State) (hw : Memory.wf s.mem = true) {t} (ht : execFunctionDisable vd s = .next t) : Memory.wf t.mem = true := by
  unfold execFunctionDisable at ht
  try dsimp only at ht
  (repeat' (split at ht)) <;> (first | (simp at ht; done) | (simp at ht; subst ht; first | exact hw | (simp (maxDischargeDepth := 20) [hw]; done) | (simp (maxDischargeDepth := 20) [*]; done) | (simp_all (maxDischargeDepth := 20) ; done)) | (simp_all; done))

@[simp] theorem State.reportEnergy_wf (s : State) (vd : Nat) (hw : Memory.wf s.mem = true) : Memory.wf (State.reportEnergy s vd).mem = true := by
  unfold State.reportEnergy
  refine State.ctrAddOrDrop_wf _ _ _ _ _ (foldl_wf _ (fun s e h => ?_) _ _ hw)
  cases hc : s.ctxWrite _ _ _ _ with
  | none => exact h
  | some t => exact State.ctxWrite_wf _ _ _ _ _ h hc

@[simp] theorem State.openWindow_wf (s : State) (vd : Nat) (hw : Memory.wf s.mem = true) : Memory.wf (State.openWindow s vd).mem = true := by
  unfold State.openWindow
  simp [hw]

theorem execEnergyWindowOpen_wf (s : State) (hw : Memory.wf s.mem = true) {t} (ht : execEnergyWindowOpen s = .next t) : Memory.wf t.mem = true := by
  unfold execEnergyWindowOpen at ht
  try dsimp only at ht
  (repeat' (split at ht)) <;> (first | (simp at ht; done) | (simp at ht; subst ht; first | exact hw | (simp (maxDischargeDepth := 20) [hw]; done) | (simp (maxDischargeDepth := 20) [*]; done) | (simp_all (maxDischargeDepth := 20) ; done)) | (simp_all; done))

theorem execSlotPromotion_mem (slot : Nat) (s : State) {t} (ht : execSlotPromotion slot s = .next t) : t.mem = s.mem := by
  unfold execSlotPromotion at ht
  dsimp only at ht
  (repeat' split at ht) <;> simp at ht <;> subst ht <;> simp

@[simp] theorem State.exchange_mem (s : State) (q a b : Nat) : (State.exchange s q a b).mem = s.mem := (rfl)

theorem execSlotExchange_mem (core quarter : Nat) (s : State) {t} (ht : execSlotExchange core quarter s = .next t) : t.mem = s.mem := by
  unfold execSlotExchange at ht
  (repeat' split at ht) <;> simp at ht <;> subst ht <;> simp

theorem execLongResidenceSwap_mem (core quarter : Nat) (s : State) {t} (ht : execLongResidenceSwap core quarter s = .next t) : t.mem = s.mem := by
  unfold execLongResidenceSwap at ht
  (repeat' split at ht) <;> simp at ht <;> subst ht <;> simp

/-! Machine/Loss. -/

@[simp] theorem State.recoveryFlush_mem (s : State) (stack : Nat) : (State.recoveryFlush s stack).mem = s.mem := by
  unfold State.recoveryFlush
  simp

@[simp] theorem State.dropMsc_wf (s : State) (stack : Nat) (hw : Memory.wf s.mem = true) : Memory.wf (State.dropMsc s stack).mem = true := by
  unfold State.dropMsc
  simp [hw]

@[simp] theorem State.declareLost_wf (s : State) (u : LostUnit) (hw : Memory.wf s.mem = true) : Memory.wf (State.declareLost s u).mem = true := by
  unfold State.declareLost
  simp [hw]

theorem execUnitLoss_wf (u : LostUnit) (s : State) (hw : Memory.wf s.mem = true) {t} (ht : execUnitLoss u s = .next t) : Memory.wf t.mem = true := by
  unfold execUnitLoss at ht
  dsimp only at ht
  (repeat' split at ht) <;> simp at ht <;> subst ht <;> simp [hw]

theorem execRecoveryFlushEnd_mem (stack : Nat) (s : State) {t} (ht : execRecoveryFlushEnd stack s = .next t) : t.mem = s.mem := by
  unfold execRecoveryFlushEnd at ht
  (repeat' split at ht) <;> simp at ht <;> subst ht <;> simp

theorem execPhaseStart_mem (s : State) {t} (ht : execPhaseStart s = .next t) : t.mem = s.mem := by
  unfold execPhaseStart at ht
  (repeat' split at ht) <;> simp at ht <;> subst ht <;> simp

theorem execLineMove_wf (province : Nat) (s : State) (hw : Memory.wf s.mem = true) {t} (ht : execLineMove province s = .next t) : Memory.wf t.mem = true := by
  unfold execLineMove at ht
  dsimp only at ht
  (repeat' split at ht) <;> simp at ht <;> subst ht <;> simp [hw]

@[simp] theorem State.retireError_wf (s : State) (n : Nat) (hw : Memory.wf s.mem = true) : Memory.wf (State.retireError s n).mem = true := by
  unfold State.retireError
  simp [hw]

@[simp] theorem State.retireUnits_wf (s : State) (kind : Nat) (v : W64) (hw : Memory.wf s.mem = true) : Memory.wf (State.retireUnits s kind v).mem = true := by
  unfold State.retireUnits
  dsimp only
  (repeat' split) <;> simp [hw]

@[simp] theorem State.checkRoom_mem (s : State) : (State.checkRoom s).mem = s.mem := by
  unfold State.checkRoom
  split <;> simp

@[simp] theorem State.retireProvince_mem (s : State) (v : W64) : (State.retireProvince s v).mem = s.mem := by
  unfold State.retireProvince
  try dsimp only
  first
    | rfl
    | (simp ; done)
    | ((repeat' split) <;> (first | rfl | (simp ; done) | (simp [*]; done) | (simp_all ; done)))

@[simp] theorem State.retireStart_mem (s : State) : (State.retireStart s).mem = s.mem := by
  unfold State.retireStart
  try dsimp only
  first
    | rfl
    | (simp ; done)
    | ((repeat' split) <;> (first | rfl | (simp ; done) | (simp [*]; done) | (simp_all ; done)))

@[simp] theorem State.memRetire_wf (s : State) (kind : Nat) (v : W64) (hw : Memory.wf s.mem = true) : Memory.wf (State.memRetire s kind v).mem = true := by
  unfold State.memRetire
  try dsimp only
  first
    | exact hw
    | (simp (maxDischargeDepth := 20) [hw]; done)
    | ((repeat' split) <;> (first | exact hw | (simp (maxDischargeDepth := 20) [hw]; done) | (simp (maxDischargeDepth := 20) [*]; done) | (simp_all (maxDischargeDepth := 20) ; done)))

theorem execMemRetireBank_wf (fib : Nat) (v : W64) (s : State) (hw : Memory.wf s.mem = true) {t} (ht : execMemRetireBank fib v s = .next t) : Memory.wf t.mem = true := by
  unfold execMemRetireBank at ht
  simp at ht
  subst ht
  simp [hw]

theorem execMemRetirePseudoChannel_wf (fib : Nat) (v : W64) (s : State) (hw : Memory.wf s.mem = true) {t} (ht : execMemRetirePseudoChannel fib v s = .next t) : Memory.wf t.mem = true := by
  unfold execMemRetirePseudoChannel at ht
  simp at ht
  subst ht
  simp [hw]

theorem execMemRetireChannel_wf (fib : Nat) (v : W64) (s : State) (hw : Memory.wf s.mem = true) {t} (ht : execMemRetireChannel fib v s = .next t) : Memory.wf t.mem = true := by
  unfold execMemRetireChannel at ht
  simp at ht
  subst ht
  simp [hw]

theorem execMemRetireStack_wf (fib : Nat) (v : W64) (s : State) (hw : Memory.wf s.mem = true) {t} (ht : execMemRetireStack fib v s = .next t) : Memory.wf t.mem = true := by
  unfold execMemRetireStack at ht
  simp at ht
  subst ht
  simp [hw]

theorem execMemRetireProvince_wf (fib : Nat) (v : W64) (s : State) (hw : Memory.wf s.mem = true) {t} (ht : execMemRetireProvince fib v s = .next t) : Memory.wf t.mem = true := by
  unfold execMemRetireProvince at ht
  simp at ht
  subst ht
  simp [hw]

theorem execMemRetireStartPhase_wf (fib : Nat) (v : W64) (s : State) (hw : Memory.wf s.mem = true) {t} (ht : execMemRetireStartPhase fib v s = .next t) : Memory.wf t.mem = true := by
  unfold execMemRetireStartPhase at ht
  simp at ht
  subst ht
  simp [hw]

theorem execMemRetireBadKind_mem (fib : Nat) (v : W64) (s : State) {t} (ht : execMemRetireBadKind fib v s = .next t) : t.mem = s.mem := by
  unfold execMemRetireBadKind at ht
  try dsimp only at ht
  (repeat' (split at ht)) <;> (first | (simp at ht; done) | (simp at ht; subst ht; first | rfl | (simp ; done) | (simp [*]; done) | (simp_all ; done)) | (simp_all; done))

@[simp] theorem State.setErr_mem (s : State) (par : Bool) (key : Nat) (e : BitVec 640) : (State.setErr s par key e).mem = s.mem := by
  unfold State.setErr
  simp

@[simp] theorem State.rewriteAt_mem (s : State) (patrol par : Bool) (key prov : Nat) (p : Place) (err : BitVec 640) (other : Bool) : (State.rewriteAt s patrol par key prov p err other).mem = s.mem := by
  unfold State.rewriteAt
  dsimp only
  (repeat' split) <;> simp

@[simp] theorem State.rewriteLine_mem (s : State) (patrol : Bool) (line : Nat) : (State.rewriteLine s patrol line).mem = s.mem := by
  unfold State.rewriteLine
  simp

@[simp] theorem State.rewriteParity_mem (s : State) (patrol : Bool) (line : Nat) : (State.rewriteParity s patrol line).mem = s.mem := by
  unfold State.rewriteParity
  simp

theorem execPatrolScrub_mem (line : Nat) (s : State) {t} (ht : execPatrolScrub line s = .next t) : t.mem = s.mem := by
  unfold execPatrolScrub at ht
  dsimp only at ht
  (repeat' split at ht) <;> simp at ht <;> subst ht <;> simp

theorem execDramRefresh_mem (stack channel : Nat) (s : State) {t} (ht : execDramRefresh stack channel s = .next t) : t.mem = s.mem := by
  unfold execDramRefresh at ht
  simp at ht
  subst ht
  simp

@[simp] theorem State.rowRepairWrite_mem (s : State) (v : W64) : (State.rowRepairWrite s v).mem = s.mem := by
  unfold State.rowRepairWrite
  simp

theorem execRowRepairGo_mem (fib : Nat) (v : W64) (s : State) {t} (ht : execRowRepairGo fib v s = .next t) : t.mem = s.mem := by
  unfold execRowRepairGo at ht
  (repeat' split at ht) <;> simp at ht <;> subst ht <;> simp

theorem execRowRepairDone_mem (s : State) {t} (ht : execRowRepairDone s = .next t) : t.mem = s.mem := by
  unfold execRowRepairDone at ht
  (repeat' split at ht) <;> simp at ht <;> subst ht <;> simp

/-! Machine/SysReg. -/

@[simp] theorem State.takeW64_mem (s : State) : (State.takeW64 s).2.mem = s.mem := (rfl)

@[simp] theorem State.setVector_mem (s : State) (vd n : Nat) (on : Bool) : (State.setVector s vd n on).mem = s.mem := (rfl)

@[simp] theorem State.readKillCause_mem (s : State) (u : RegUser) : (State.readKillCause s u).2.mem = s.mem := (rfl)

@[simp] theorem State.readEngFault_mem (s : State) (u : RegUser) : (State.readEngFault s u).2.mem = s.mem := (rfl)

@[simp] theorem State.readRetireStatus_wf (s : State) (hw : Memory.wf s.mem = true) : Memory.wf (State.readRetireStatus s).2.mem = true := by
  unfold State.readRetireStatus
  simp [hw]

@[simp] theorem State.readMemEvent_mem (s : State) (u : RegUser) : (State.readMemEvent s u).2.mem = s.mem := by
  unfold State.readMemEvent
  dsimp only
  (repeat' split) <;> simp

theorem State.sysRead_mem (s : State) (u : RegUser) (n : Nat) {t} (ht : State.sysRead s u n = .ok t) : t.2.mem = s.mem := by
  unfold State.sysRead at ht
  try dsimp only at ht
  (repeat' (split at ht)) <;> (first | (simp at ht; done) | (simp at ht; subst ht; first | rfl | (simp ; done) | (simp [*]; done) | (simp_all ; done)) | (simp_all; done))

@[simp] theorem State.spillGo_wf (s : State) (k : Nat) (v : W64) (hw : Memory.wf s.mem = true) : Memory.wf (State.spillGo s k v).2.mem = true := by
  unfold State.spillGo
  dsimp only
  split
  · exact hw
  · split
    · exact State.trapHere_wf _ _ _ _ _ _ hw
    · exact State.accessFault_wf _ _ _ _ _ _ hw
    · rw [State.didMove_mem]
      exact State.moveChunk_wf _ _ _ _ _ hw ‹_›

@[simp] theorem State.spillCmd_wf (s : State) (k : Nat) (v : W64) (hw : Memory.wf s.mem = true) : Memory.wf (State.spillCmd s k v).mem = true := by
  exact State.spillGo_wf _ _ _ hw

@[simp] theorem State.injectTile_mem (s : State) (k : Nat) (v : W64) : (State.injectTile s k v).mem = s.mem := by
  unfold State.injectTile
  simp

@[simp] theorem State.injectChk_mem (s : State) (k : Nat) (v : W64) : (State.injectChk s k v).mem = s.mem := by
  unfold State.injectChk
  simp

@[simp] theorem State.injectReg_mem (s : State) (k : Nat) (v : W64) : (State.injectReg s k v).mem = s.mem := (rfl)

@[simp] theorem State.injectScan_mem (s : State) (k : Nat) : (State.injectScan s k).mem = s.mem := by
  unfold State.injectScan
  simp

@[simp] theorem State.inject_mem (s : State) (k : Nat) (v : W64) : (State.inject s k v).mem = s.mem := by
  unfold State.inject
  split <;> simp

@[simp] theorem State.sysWriteDev_wf (s : State) (u : RegUser) (n : Nat) (v : W64) (hw : Memory.wf s.mem = true) : Memory.wf (State.sysWriteDev s u n v).mem = true := by
  unfold State.sysWriteDev
  split <;> simp [hw]

@[simp] theorem State.sysWriteFib_wf (s : State) (k : Nat) (n : Nat) (v : W64) (hw : Memory.wf s.mem = true) : Memory.wf (State.sysWriteFib s k n v).mem = true := by
  unfold State.sysWriteFib
  split <;> simp [hw]

@[simp] theorem State.sysWrite_wf (s : State) (u : RegUser) (n : Nat) (v : W64) (hw : Memory.wf s.mem = true) : Memory.wf (State.sysWrite s u n v).mem = true := by
  unfold State.sysWrite
  try dsimp only
  first
    | exact hw
    | (simp (maxDischargeDepth := 20) [hw]; done)
    | ((repeat' split) <;> (first | exact hw | (simp (maxDischargeDepth := 20) [hw]; done) | (simp (maxDischargeDepth := 20) [*]; done) | (simp_all (maxDischargeDepth := 20) ; done)))

@[simp] theorem State.readInto_wf (s : State) (k d n : Nat) (hw : Memory.wf s.mem = true) : Memory.wf (State.readInto s k d n).mem = true := by
  unfold State.readInto
  split
  · exact hw
  · split
    · rename_i h
      have := State.sysRead_mem _ _ _ h
      simp only at this
      rw [State.modFib_mem, this]; exact hw
    · exact hw

theorem execMemRetireStatusRead_wf (fib d : Nat) (s : State) (hw : Memory.wf s.mem = true) {t} (ht : execMemRetireStatusRead fib d s = .next t) : Memory.wf t.mem = true := by
  unfold execMemRetireStatusRead at ht
  simp at ht
  subst ht
  simp [hw]

theorem execMemEventRead_wf (fib d : Nat) (s : State) (hw : Memory.wf s.mem = true) {t} (ht : execMemEventRead fib d s = .next t) : Memory.wf t.mem = true := by
  unfold execMemEventRead at ht
  simp at ht
  subst ht
  simp [hw]

theorem execXlateOutRead_wf (fib d : Nat) (s : State) (hw : Memory.wf s.mem = true) {t} (ht : execXlateOutRead fib d s = .next t) : Memory.wf t.mem = true := by
  unfold execXlateOutRead at ht
  simp at ht
  subst ht
  simp [hw]

theorem execKillCauseRead_wf (fib d : Nat) (s : State) (hw : Memory.wf s.mem = true) {t} (ht : execKillCauseRead fib d s = .next t) : Memory.wf t.mem = true := by
  unfold execKillCauseRead at ht
  simp at ht
  subst ht
  simp [hw]

theorem execEngFaultRead_mem (fib d : Nat) (s : State) {t} (ht : execEngFaultRead fib d s = .next t) : t.mem = s.mem := by
  unfold execEngFaultRead at ht
  try dsimp only at ht
  (repeat' (split at ht)) <;> (first | (simp at ht; done) | (simp at ht; subst ht; first | rfl | (simp ; done) | (simp [*]; done) | (simp_all ; done)) | (simp_all; done))

theorem execSpillCmdGo_wf (fib : Nat) (v : W64) (s : State) (hw : Memory.wf s.mem = true) {t} (ht : execSpillCmdGo fib v s = .next t) : Memory.wf t.mem = true := by
  unfold execSpillCmdGo at ht
  simp at ht
  subst ht
  simp [hw]

theorem execFaultInjectTile_mem (fib : Nat) (v : W64) (s : State) {t} (ht : execFaultInjectTile fib v s = .next t) : t.mem = s.mem := by
  unfold execFaultInjectTile at ht
  simp at ht
  subst ht
  simp

theorem execFaultInjectChecksum_mem (fib : Nat) (v : W64) (s : State) {t} (ht : execFaultInjectChecksum fib v s = .next t) : t.mem = s.mem := by
  unfold execFaultInjectChecksum at ht
  simp at ht
  subst ht
  simp

theorem execFaultInjectRegister_mem (fib : Nat) (v : W64) (s : State) {t} (ht : execFaultInjectRegister fib v s = .next t) : t.mem = s.mem := by
  unfold execFaultInjectRegister at ht
  simp at ht
  subst ht
  simp

theorem execFaultInjectScanFail_mem (fib : Nat) (v : W64) (s : State) {t} (ht : execFaultInjectScanFail fib v s = .next t) : t.mem = s.mem := by
  unfold execFaultInjectScanFail at ht
  simp at ht
  subst ht
  simp

theorem execRegisterWrite_wf (fib num : Nat) (v : W64) (s : State) (hw : Memory.wf s.mem = true) {t} (ht : execRegisterWrite fib num v s = .next t) : Memory.wf t.mem = true := by
  unfold execRegisterWrite at ht
  (repeat' split at ht) <;> simp at ht <;> subst ht <;> simp [hw]

/-! Machine/Sys. -/

theorem execLaunch_wf (f : FY) (s : State) (hw : Memory.wf s.mem = true) {t} (ht : execLaunch f s = .next t) : Memory.wf t.mem = true := by
  unfold execLaunch at ht
  dsimp only at ht
  (repeat' (split at ht)) <;> simp only [Host.Outcome.next.injEq] at ht <;> subst ht
  all_goals first
    | exact hw
    | (simp [hw]; done)
    | (rw [State.issue_mem]; exact State.launchAt_wf _ _ _ _ (State.foldMine_wf _ _ hw) ‹_›)

theorem execLstat_wf (f : FY) (s : State) (hw : Memory.wf s.mem = true) {t} (ht : execLstat f s = .next t) : Memory.wf t.mem = true := by
  unfold execLstat at ht
  dsimp only at ht
  (repeat' split at ht) <;> simp at ht <;> subst ht <;> simp [hw]

theorem execRdsr_wf (f : FY) (s : State) (hw : Memory.wf s.mem = true) {t} (ht : execRdsr f s = .next t) : Memory.wf t.mem = true := by
  unfold execRdsr at ht
  dsimp only at ht
  (repeat' (split at ht)) <;> simp only [Host.Outcome.next.injEq] at ht <;> subst ht
  all_goals first
    | exact hw
    | (simp [hw]; done)
    | (rename_i h
       have := State.sysRead_mem _ _ _ h
       simp only at this
       rw [State.issue_mem, this]; exact hw)

theorem execWrsr_wf (f : FY) (s : State) (hw : Memory.wf s.mem = true) {t} (ht : execWrsr f s = .next t) : Memory.wf t.mem = true := by
  unfold execWrsr at ht
  dsimp only at ht
  (repeat' (split at ht)) <;> simp only [Host.Outcome.next.injEq] at ht <;> subst ht
  all_goals first
    | exact hw
    | (simp [hw]; done)
    | (rw [State.issue_mem, State.modFib_mem]; exact State.moveChunk_wf _ _ _ _ _ hw ‹_›)

@[simp] theorem State.trapReturn_mem (s : State) (k : Nat) : (State.trapReturn s k).mem = s.mem := by
  unfold State.trapReturn
  simp

theorem execTret_wf (f : FC) (s : State) (hw : Memory.wf s.mem = true) {t} (ht : execTret f s = .next t) : Memory.wf t.mem = true := by
  unfold execTret at ht
  dsimp only at ht
  (repeat' split at ht) <;> simp at ht <;> subst ht <;> simp [hw]

theorem execHalt_wf (f : FY) (s : State) (hw : Memory.wf s.mem = true) {t} (ht : execHalt f s = .next t) : Memory.wf t.mem = true := by
  unfold execHalt at ht
  dsimp only at ht
  (repeat' split at ht) <;> simp at ht <;> subst ht <;> simp [hw]

@[simp] theorem State.dropXlate_wf (s : State) (vd a n : Nat) (hw : Memory.wf s.mem = true) : Memory.wf (State.dropXlate s vd a n).mem = true := by
  unfold State.dropXlate
  simp [hw]

@[simp] theorem State.dropContext_wf (s : State) (vd : Nat) (hw : Memory.wf s.mem = true) : Memory.wf (State.dropContext s vd).mem = true := by
  unfold State.dropContext
  simp [hw]

theorem execTlbi_wf (f : FY) (s : State) (hw : Memory.wf s.mem = true) {t} (ht : execTlbi f s = .next t) : Memory.wf t.mem = true := by
  unfold execTlbi at ht
  dsimp only at ht
  (repeat' split at ht) <;> simp at ht <;> subst ht <;> simp [hw]

@[simp] theorem State.emptyBank_wf (s : State) (cl : Nat) (banks : List Nat) (b : Nat) (hw : Memory.wf s.mem = true) : Memory.wf (State.emptyBank s cl banks b).mem = true := by
  unfold State.emptyBank
  dsimp only
  (repeat' split) <;> simp_all (maxDischargeDepth := 20)

theorem execBankmode_wf (f : FY) (s : State) (hw : Memory.wf s.mem = true) {t} (ht : execBankmode f s = .next t) : Memory.wf t.mem = true := by
  unfold execBankmode at ht
  try dsimp only at ht
  (repeat' (split at ht)) <;> (first | (simp at ht; done) | (simp at ht; subst ht; first | exact hw | (simp (maxDischargeDepth := 20) [hw]; done) | (simp (maxDischargeDepth := 20) [*]; done) | (simp_all (maxDischargeDepth := 20) ; done)) | (simp_all; done))

theorem execBankDrainComplete_mem (cluster bank : Nat) (s : State) {t} (ht : execBankDrainComplete cluster bank s = .next t) : t.mem = s.mem := by
  unfold execBankDrainComplete at ht
  dsimp only at ht
  (repeat' split at ht) <;> simp at ht <;> subst ht <;> simp

theorem execDmr_wf (f : FY) (s : State) (hw : Memory.wf s.mem = true) {t} (ht : execDmr f s = .next t) : Memory.wf t.mem = true := by
  unfold execDmr at ht
  dsimp only at ht
  (repeat' split at ht) <;> simp at ht <;> subst ht <;> simp [hw]

/-! Machine/Preempt. -/

theorem execTrapTake_wf (fib : Nat) (s : State) (hw : Memory.wf s.mem = true) {t} (ht : execTrapTake fib s = .next t) : Memory.wf t.mem = true := by
  unfold execTrapTake at ht
  dsimp only at ht
  (repeat' split at ht) <;> simp at ht <;> subst ht <;> simp [hw]

@[simp] theorem State.writePtes_wf (s : State) (ptes : List (Nat × W64)) (hw : Memory.wf s.mem = true) : Memory.wf (State.writePtes s ptes).mem = true := by
  unfold State.writePtes
  try dsimp only
  first
    | exact hw
    | (simp (maxDischargeDepth := 20) [hw]; done)
    | ((repeat' split) <;> (first | exact hw | (simp (maxDischargeDepth := 20) [hw]; done) | (simp (maxDischargeDepth := 20) [*]; done) | (simp_all (maxDischargeDepth := 20) ; done)))

theorem execFaultBatchServed_wf (fib : Nat) (ptes : List (Nat × W64)) (refused : List Nat) (s : State) (hw : Memory.wf s.mem = true) {t} (ht : execFaultBatchServed fib ptes refused s = .next t) : Memory.wf t.mem = true := by
  unfold execFaultBatchServed at ht
  dsimp only at ht
  (repeat' split at ht) <;> simp at ht <;> subst ht <;> simp [hw]

theorem execHostSpillMove_wf (fib : Nat) (s : State) (hw : Memory.wf s.mem = true) {t} (ht : execHostSpillMove fib s = .next t) : Memory.wf t.mem = true := by
  unfold execHostSpillMove at ht
  dsimp only at ht
  (repeat' (split at ht)) <;> simp only [Host.Outcome.next.injEq] at ht <;> subst ht
  all_goals first
    | exact hw
    | (simp [hw]; done)
    | (rw [State.didMove_mem]; exact State.moveChunk_wf _ _ _ _ _ (by simpa using hw) ‹_›)

theorem execPageWalk_wf (core vd va : Nat) (s : State) (hw : Memory.wf s.mem = true) {t} (ht : execPageWalk core vd va s = .next t) : Memory.wf t.mem = true := by
  unfold execPageWalk at ht
  simp at ht
  subst ht
  simp [hw]

theorem execWatchdogExpiry_wf (wg : Nat) (s : State) (hw : Memory.wf s.mem = true) {t} (ht : execWatchdogExpiry wg s = .next t) : Memory.wf t.mem = true := by
  unfold execWatchdogExpiry at ht
  try dsimp only at ht
  (repeat' (split at ht)) <;> (first | (simp at ht; done) | (simp at ht; subst ht; first | exact hw | (simp (maxDischargeDepth := 20) [hw]; done) | (simp (maxDischargeDepth := 20) [*]; done) | (simp_all (maxDischargeDepth := 20) ; done)) | (simp_all; done))

@[simp] theorem State.stopWg_mem (s : State) (w : Nat) : (State.stopWg s w).mem = s.mem := (rfl)

@[simp] theorem State.startPass_mem (s : State) (core : Nat) : (State.startPass s core).mem = s.mem := by
  unfold State.startPass
  simp

@[simp] theorem State.drain_mem (s : State) (core : Nat) (waiter : Option (Nat × Nat)) : (State.drain s core waiter).mem = s.mem := by
  unfold State.drain
  try dsimp only
  first
    | rfl
    | (simp ; done)
    | ((repeat' split) <;> (first | rfl | (simp ; done) | (simp [*]; done) | (simp_all ; done)))

theorem execSliceEnd_mem (core : Nat) (s : State) {t} (ht : execSliceEnd core s = .next t) : t.mem = s.mem := by
  unfold execSliceEnd at ht
  dsimp only at ht
  (repeat' split at ht) <;> simp at ht <;> subst ht <;> simp

theorem execPreemptTimeout_wf (core : Nat) (s : State) (hw : Memory.wf s.mem = true) {t} (ht : execPreemptTimeout core s = .next t) : Memory.wf t.mem = true := by
  unfold execPreemptTimeout at ht
  try dsimp only at ht
  (repeat' (split at ht)) <;> (first | (simp at ht; done) | (simp at ht; subst ht; first | exact hw | (simp (maxDischargeDepth := 20) [hw]; done) | (simp (maxDischargeDepth := 20) [*]; done) | (simp_all (maxDischargeDepth := 20) ; done)) | (simp_all; done))

@[simp] theorem State.settleFibre_mem (s : State) (k : Nat) : (State.settleFibre s k).mem = s.mem := by
  unfold State.settleFibre
  simp

@[simp] theorem State.leaveCluster_wf (s : State) (cl vd : Nat) (hw : Memory.wf s.mem = true) : Memory.wf (State.leaveCluster s cl vd).mem = true := by
  unfold State.leaveCluster
  try dsimp only
  first
    | exact hw
    | (simp (maxDischargeDepth := 20) [hw]; done)
    | ((repeat' split) <;> (first | exact hw | (simp (maxDischargeDepth := 20) [hw]; done) | (simp (maxDischargeDepth := 20) [*]; done) | (simp_all (maxDischargeDepth := 20) ; done)))

@[simp] theorem State.arrive_wf (s : State) (core vd : Nat) (hw : Memory.wf s.mem = true) : Memory.wf (State.arrive s core vd).mem = true := by
  unfold State.arrive
  dsimp only
  (repeat' split) <;> simp_all (maxDischargeDepth := 20)

theorem execWorkgroupSave_wf (wg : Nat) (s : State) (hw : Memory.wf s.mem = true) {t} (ht : execWorkgroupSave wg s = .next t) : Memory.wf t.mem = true := by
  unfold execWorkgroupSave at ht
  try dsimp only at ht
  (repeat' (split at ht)) <;> (first | (simp at ht; done) | (simp at ht; subst ht; first | exact hw | (simp (maxDischargeDepth := 20) [hw]; done) | (simp (maxDischargeDepth := 20) [*]; done) | (simp_all (maxDischargeDepth := 20) ; done)) | (simp_all; done))

theorem execWorkgroupRestore_wf (wg core : Nat) (s : State) (hw : Memory.wf s.mem = true) {t} (ht : execWorkgroupRestore wg core s = .next t) : Memory.wf t.mem = true := by
  unfold execWorkgroupRestore at ht
  try dsimp only at ht
  (repeat' (split at ht)) <;> (first | (simp at ht; done) | (simp at ht; subst ht; first | exact hw | (simp (maxDischargeDepth := 20) [hw]; done) | (simp (maxDischargeDepth := 20) [*]; done) | (simp_all (maxDischargeDepth := 20) ; done)) | (simp_all; done))

@[simp] theorem State.passOk_wf (s : State) (core : Nat) (hw : Memory.wf s.mem = true) : Memory.wf (State.passOk s core).mem = true := by
  unfold State.passOk
  dsimp only
  (repeat' split) <;> simp_all (maxDischargeDepth := 20)

@[simp] theorem State.replayWg_mem (s : State) (k index : Nat) : (State.replayWg s k index).mem = s.mem := by
  unfold State.replayWg
  dsimp only
  (repeat' split) <;> simp

@[simp] theorem State.passFail_wf (s : State) (core : Nat) (hw : Memory.wf s.mem = true) : Memory.wf (State.passFail s core).mem = true := by
  unfold State.passFail
  refine foldl_wf _ (fun s k h => ?_) _ _ hw
  dsimp only
  split
  · exact State.settleGrid_wf _ _ (by simpa using h)
  · split
    · refine State.settleGrid_wf _ _ ?_
      rw [State.setGrid_mem]
      exact foldl_wf _ (fun s i h => by simpa using h) _ _ h
    · exact State.killGrid_wf _ _ _ _ h

@[simp] theorem State.postScan_mem (s : State) (core : Nat) (waiter : Option (Nat × Nat)) (res : Nat) : (State.postScan s core waiter res).mem = s.mem := by
  unfold State.postScan
  split <;> simp

theorem execScanPassComplete_wf (core : Nat) (pass : Bool) (s : State) (hw : Memory.wf s.mem = true) {t} (ht : execScanPassComplete core pass s = .next t) : Memory.wf t.mem = true := by
  unfold execScanPassComplete at ht
  dsimp only at ht
  (repeat' split at ht) <;> simp at ht <;> subst ht <;> simp [hw]

theorem execScanRotation_mem (s : State) {t} (ht : execScanRotation s = .next t) : t.mem = s.mem := by
  unfold execScanRotation at ht
  (repeat' split at ht) <;> simp at ht <;> subst ht <;> simp

theorem execUnscannedCoreScan_mem (core : Nat) (s : State) {t} (ht : execUnscannedCoreScan core s = .next t) : t.mem = s.mem := by
  unfold execUnscannedCoreScan at ht
  (repeat' split at ht) <;> simp at ht <;> subst ht <;> simp

theorem execScanReqWrite_mem (v : W64) (s : State) {t} (ht : execScanReqWrite v s = .next t) : t.mem = s.mem := by
  unfold execScanReqWrite at ht
  dsimp only at ht
  (repeat' split at ht) <;> simp at ht <;> subst ht <;> simp

theorem execScanResultRead_mem (s : State) {t} (ht : execScanResultRead s = .next t) : t.mem = s.mem := by
  unfold execScanResultRead at ht
  simp at ht
  subst ht
  simp

theorem execScan_wf (f : FY) (s : State) (hw : Memory.wf s.mem = true) {t} (ht : execScan f s = .next t) : Memory.wf t.mem = true := by
  unfold execScan at ht
  dsimp only at ht
  (repeat' split at ht) <;> simp at ht <;> subst ht <;> simp [hw]

@[simp] theorem State.contain_wf (s : State) (vd : Nat) (hw : Memory.wf s.mem = true) : Memory.wf (State.contain s vd).mem = true := by
  unfold State.contain
  dsimp only
  (repeat' split) <;> simp_all (maxDischargeDepth := 20)

@[simp] theorem State.rehost_mem (s : State) (a : Agent) : (State.rehost s a).mem = s.mem := by
  unfold State.rehost
  simp

theorem execHeartbeatLoss_wf (agent : Agent) (s : State) (hw : Memory.wf s.mem = true) {t} (ht : execHeartbeatLoss agent s = .next t) : Memory.wf t.mem = true := by
  unfold execHeartbeatLoss at ht
  dsimp only at ht
  split at ht
  · simp only [Host.Outcome.next.injEq] at ht; subst ht; exact hw
  · simp only [Host.Outcome.next.injEq] at ht
    subst ht
    refine foldl_wf _ (fun s id h => ?_) _ _ ?_
    · split
      · exact State.engFail_wf _ _ _ _ _ _ h
      · exact h
    · rw [State.rehost_mem]
      refine foldl_wf _ (fun s v h => State.contain_wf _ _ h) _ _ ?_
      split
      · rw [State.modCore_mem]; exact hw
      · exact hw

theorem execPriorityInheritanceUpdate_mem (s : State) {t} (ht : execPriorityInheritanceUpdate s = .next t) : t.mem = s.mem := by
  unfold execPriorityInheritanceUpdate at ht
  simp at ht
  subst ht
  simp

@[simp] theorem State.flushRange_wf (s : State) (a n : Nat) (hw : Memory.wf s.mem = true) : Memory.wf (State.flushRange s a n).mem = true := by
  unfold State.flushRange
  dsimp only
  (repeat' split) <;> simp_all (maxDischargeDepth := 20)

@[simp] theorem State.movePage_wf (s : State) (src dst : Nat) (hw : Memory.wf s.mem = true) : Memory.wf (State.movePage s src dst).mem = true := by
  unfold State.movePage
  dsimp only
  refine foldl_inv (fun m : List Host.Cell => Memory.wf m = true) _ (fun m e h => twf_tset _ _ _ _ h) _ _ (twf_filter _ _ _ ?_)
  refine foldl_wf _ (fun s l h => ?_) _ _ ?_
  · split
    · exact h
    · exact State.l2Fill_wf _ _ _ _ h
  · exact State.flushRange_wf _ _ _ (State.flushRange_wf _ _ _ hw)

@[simp] theorem State.setMig_wf (s : State) (node : Nat) (hw : Memory.wf s.mem = true) : Memory.wf (State.setMig s node).mem = true := by
  unfold State.setMig
  exact foldl_wf _ (fun s i h => State.writeMem_wf _ _ _ h) _ _ hw

theorem execPagePromotion_wf (vd va frame : Nat) (s : State) (hw : Memory.wf s.mem = true) {t} (ht : execPagePromotion vd va frame s = .next t) : Memory.wf t.mem = true := by
  unfold execPagePromotion at ht
  dsimp only at ht
  split at ht
  · simp only [Host.Outcome.next.injEq] at ht; subst ht; exact hw
  split at ht
  · simp only [Host.Outcome.next.injEq] at ht; subst ht; exact hw
  split at ht
  · split at ht <;> simp only [Host.Outcome.next.injEq] at ht <;> subst ht
    · exact hw
    · exact State.dropXlate_wf _ _ _ _ (State.setMig_wf _ _ hw)
  split at ht
  · simp only [Host.Outcome.next.injEq] at ht; subst ht; exact hw
  simp only [Host.Outcome.next.injEq] at ht
  subst ht
  rw [State.modVd_mem]
  apply State.dropXlate_wf
  apply State.writeMem_wf
  generalize List.range 32 = l
  exact foldl_wf _ (fun s i h => State.movePage_wf _ _ _ h) _ _ hw

/-! Machine/Outside. -/

@[simp] theorem State.chargeWg_mem (s : State) (w nj : Nat) : (State.chargeWg s w nj).mem = s.mem := by
  unfold State.chargeWg
  simp

@[simp] theorem State.chargeVd_mem (s : State) (vd nj : Nat) : (State.chargeVd s vd nj).mem = s.mem := (rfl)

@[simp] theorem State.meterIsland_mem (s : State) (held : List (Nat × Nat)) (r : IslandReading) : (State.meterIsland s held r).mem = s.mem := by
  unfold State.meterIsland
  simp

theorem execEnergyMeterInterval_mem (readings : List IslandReading) (s : State) {t} (ht : execEnergyMeterInterval readings s = .next t) : t.mem = s.mem := by
  unfold execEnergyMeterInterval at ht
  simp at ht
  subst ht
  simp

theorem execPowerClockStep_mem (milliwatts : Nat) (draw : List Nat) (s : State) {t} (ht : execPowerClockStep milliwatts draw s = .next t) : t.mem = s.mem := by
  unfold execPowerClockStep at ht
  (repeat' split at ht) <;> simp at ht <;> subst ht <;> simp

@[simp] theorem State.dropAdd_mem (s : State) (vd : Nat) : (State.dropAdd s vd).mem = s.mem := (rfl)

@[simp] theorem State.hostDone_wf (s : State) (id : Nat) (c : Cmd) (hw : Memory.wf s.mem = true) : Memory.wf (State.hostDone s id c).mem = true := by
  unfold State.hostDone
  dsimp only
  (repeat' split) <;> simp [hw]

@[simp] theorem State.fallbackDone_wf (s : State) (vd : Nat) (hw : Memory.wf s.mem = true) : Memory.wf (State.fallbackDone s vd).mem = true := by
  unfold State.fallbackDone
  dsimp only
  split
  · exact hw
  split
  · exact hw
  rw [State.setVector_mem, State.modVd_mem]
  refine foldl_wf _ (fun s k h => ?_) _ _ hw
  split
  · exact State.hostDone_wf _ _ _ h
  · exact h

@[simp] theorem State.slotAdd_wf (s : State) (vd slot : Nat) (v : W64) (hw : Memory.wf s.mem = true) : Memory.wf (State.slotAdd s vd slot v).mem = true := by
  unfold State.slotAdd
  dsimp only
  split
  · rw [State.dropAdd_mem]; exact hw
  split
  · exact State.fallbackDone_wf _ _ (State.ctrAdd_wf _ _ _ _ _ hw ‹_›)
  · exact State.ctrAddOrDrop_wf _ _ _ _ _ hw

@[simp] theorem State.hostWatch_wf (s : State) (hw : Memory.wf s.mem = true) : Memory.wf (State.hostWatch s).mem = true := by
  unfold State.hostWatch
  split
  · exact foldl_wf _ (fun s v h => State.fallbackDone_wf _ _ h) _ _ hw
  · exact hw

@[simp] theorem State.slotAddr_mem (s : State) (vd slot : Nat) (a : W64) : (State.slotAddr s vd slot a).mem = s.mem := (rfl)

@[simp] theorem State.mmioWrite_wf (s : State) (vd off size : Nat) (v : W64) (hw : Memory.wf s.mem = true) : Memory.wf (State.mmioWrite s vd off size v).mem = true := by
  unfold State.mmioWrite
  try dsimp only
  first
    | exact hw
    | (simp (maxDischargeDepth := 20) [hw]; done)
    | ((repeat' split) <;> (first | exact hw | (simp (maxDischargeDepth := 20) [hw]; done) | (simp (maxDischargeDepth := 20) [*]; done) | (simp_all (maxDischargeDepth := 20) ; done)))

theorem execCounterAddAddrWrite_wf (vd off size : Nat) (v : W64) (s : State) (hw : Memory.wf s.mem = true) {t} (ht : execCounterAddAddrWrite vd off size v s = .next t) : Memory.wf t.mem = true := by
  unfold execCounterAddAddrWrite at ht
  simp at ht
  subst ht
  simp [hw]

theorem execCounterAddIncrement_wf (vd off size : Nat) (v : W64) (s : State) (hw : Memory.wf s.mem = true) {t} (ht : execCounterAddIncrement vd off size v s = .next t) : Memory.wf t.mem = true := by
  unfold execCounterAddIncrement at ht
  simp at ht
  subst ht
  simp [hw]

theorem execCounterAddSetAndAdd_wf (vd off : Nat) (addr inc : W64) (s : State) (hw : Memory.wf s.mem = true) {t} (ht : execCounterAddSetAndAdd vd off addr inc s = .next t) : Memory.wf t.mem = true := by
  unfold execCounterAddSetAndAdd at ht
  (repeat' split at ht) <;> simp at ht <;> subst ht <;> simp [hw]

theorem execDropsRead_mem (vd : Nat) (s : State) {t} (ht : execDropsRead vd s = .next t) : t.mem = s.mem := by
  unfold execDropsRead at ht
  simp at ht
  subst ht
  simp

theorem execHostMemoryAccess_wf (acc : HostAcc) (s : State) (hw : Memory.wf s.mem = true) {t} (ht : execHostMemoryAccess acc s = .next t) : Memory.wf t.mem = true := by
  unfold execHostMemoryAccess at ht
  (repeat' (split at ht)) <;> simp only [Host.Outcome.next.injEq] at ht <;> subst ht
  all_goals first
    | exact hw
    | exact State.readPieces_wf _ _ _ hw
    | (generalize hx : s.ctxWrite _ _ _ _ = x
       cases x with
       | none => exact hw
       | some t => exact State.ctxWrite_wf _ _ _ _ _ hw hx)

@[simp] theorem State.getBytes_wf (s : State) (id : Nat) (c : Cmd) (bs : List Byte) (hw : Memory.wf s.mem = true) : Memory.wf (State.getBytes s id c bs).mem = true := by
  unfold State.getBytes
  dsimp only
  split
  · exact State.engFault_wf _ _ _ _ _ _ hw
  · rename_i t ht
    have h (n : Nat) : Memory.wf (t.engAdd c n).mem = true := State.engAdd_wf t c n (State.engWrite_wf _ _ _ _ _ hw ht)
    generalize (if c.pos + (bs.take (c.n - c.pos)).length = c.n then c.n else (c.pos + (bs.take (c.n - c.pos)).length) / 4096 * 4096) = full
    split
    · exact State.finishCmd_wf _ _ (h _)
    · rw [State.setCmd_mem]; exact h _

@[simp] theorem State.pktStore_wf (s : State) (vd a : Nat) (bs : List Byte) (hw : Memory.wf s.mem = true) : Memory.wf (State.pktStore s vd a bs).mem = true := by
  unfold State.pktStore
  split <;> simp [hw]

@[simp] theorem State.deliverPkt_wf (s : State) (b : PktBody) (hw : Memory.wf s.mem = true) : Memory.wf (State.deliverPkt s b).mem = true := by
  unfold State.deliverPkt
  (repeat' split)
  all_goals first
    | exact hw
    | exact State.getBytes_wf _ _ _ _ hw
    | exact State.pktStore_wf _ _ _ _ hw
    | exact State.atPoint_wf _ _ _ _ _ hw
    | exact State.finishCmd_wf _ _ (State.engAdd_wf _ _ _ hw)
    | (generalize hx : s.ctrAdd _ _ _ _ = x
       cases x with
       | none => exact hw
       | some t => exact State.ctrAdd_wf _ _ _ _ _ hw hx)

theorem execTwillPacketReceive_wf (port : Nat) (pkt : Packet) (s : State) (hw : Memory.wf s.mem = true) {t} (ht : execTwillPacketReceive port pkt s = .next t) : Memory.wf t.mem = true := by
  unfold execTwillPacketReceive at ht
  dsimp only at ht
  (repeat' split at ht) <;> simp at ht <;> subst ht <;> simp [hw]

theorem execTwillCrcReplay_mem (port lane : Nat) (s : State) {t} (ht : execTwillCrcReplay port lane s = .next t) : t.mem = s.mem := by
  unfold execTwillCrcReplay at ht
  simp at ht
  subst ht
  simp

theorem execTwillPortLoss_wf (port : Nat) (s : State) (hw : Memory.wf s.mem = true) {t} (ht : execTwillPortLoss port s = .next t) : Memory.wf t.mem = true := by
  unfold execTwillPortLoss at ht
  try dsimp only at ht
  (repeat' (split at ht)) <;> (first | (simp at ht; done) | (simp at ht; subst ht; first | exact hw | (simp (maxDischargeDepth := 20) [hw]; done) | (simp (maxDischargeDepth := 20) [*]; done) | (simp_all (maxDischargeDepth := 20) ; done)) | (simp_all; done))

@[simp] theorem State.rdmaDone_wf (s : State) (vd ctr n : Nat) (hw : Memory.wf s.mem = true) : Memory.wf (State.rdmaDone s vd ctr n).mem = true := by
  unfold State.rdmaDone
  simp [hw]

@[simp] theorem State.netSend_wf (s : State) (vd a n ctr : Nat) (hw : Memory.wf s.mem = true) : Memory.wf (State.netSend s vd a n ctr).mem = true := by
  unfold State.netSend
  split <;> simp [hw]

theorem execRoceWorkRequest_wf (req : WorkReq) (s : State) (hw : Memory.wf s.mem = true) {t} (ht : execRoceWorkRequest req s = .next t) : Memory.wf t.mem = true := by
  unfold execRoceWorkRequest at ht
  (repeat' (split at ht)) <;> simp only [Host.Outcome.next.injEq] at ht <;> subst ht
  all_goals first
    | exact hw
    | exact State.netSend_wf _ _ _ _ _ hw
    | (have h := State.ctxWrite_wf _ _ _ _ _ hw ‹_›
       unfold State.rdmaDone
       split
       · exact h
       · exact State.ctrAddOrDrop_wf _ _ _ _ _ h)

@[simp] theorem State.answer_wf (s : State) (stage kind : Nat) (bs : List Byte) (hw : Memory.wf s.mem = true) : Memory.wf (State.answer s stage kind bs).mem = true := by
  unfold State.answer
  simp [hw]

theorem execGetVersion_mem (s : State) {t} (ht : execGetVersion s = .next t) : t.mem = s.mem := by
  unfold execGetVersion at ht
  try dsimp only at ht
  (repeat' (split at ht)) <;> (first | (simp at ht; done) | (simp at ht; subst ht; first | rfl | (simp ; done) | (simp [*]; done) | (simp_all ; done)) | (simp_all; done))

theorem execGetCapabilities_mem (s : State) {t} (ht : execGetCapabilities s = .next t) : t.mem = s.mem := by
  unfold execGetCapabilities at ht
  try dsimp only at ht
  (repeat' (split at ht)) <;> (first | (simp at ht; done) | (simp at ht; subst ht; first | rfl | (simp ; done) | (simp [*]; done) | (simp_all ; done)) | (simp_all; done))

theorem execNegotiateAlgorithms_mem (s : State) {t} (ht : execNegotiateAlgorithms s = .next t) : t.mem = s.mem := by
  unfold execNegotiateAlgorithms at ht
  try dsimp only at ht
  (repeat' (split at ht)) <;> (first | (simp at ht; done) | (simp at ht; subst ht; first | rfl | (simp ; done) | (simp [*]; done) | (simp_all ; done)) | (simp_all; done))

theorem execGetCertificate_mem (s : State) {t} (ht : execGetCertificate s = .next t) : t.mem = s.mem := by
  unfold execGetCertificate at ht
  try dsimp only at ht
  (repeat' (split at ht)) <;> (first | (simp at ht; done) | (simp at ht; subst ht; first | rfl | (simp ; done) | (simp [*]; done) | (simp_all ; done)) | (simp_all; done))

theorem execChallenge_mem (nonce : List Byte) (s : State) {t} (ht : execChallenge nonce s = .next t) : t.mem = s.mem := by
  unfold execChallenge at ht
  try dsimp only at ht
  (repeat' (split at ht)) <;> (first | (simp at ht; done) | (simp at ht; subst ht; first | rfl | (simp ; done) | (simp [*]; done) | (simp_all ; done)) | (simp_all; done))

theorem execGetMeasurements_mem (s : State) {t} (ht : execGetMeasurements s = .next t) : t.mem = s.mem := by
  unfold execGetMeasurements at ht
  try dsimp only at ht
  (repeat' (split at ht)) <;> (first | (simp at ht; done) | (simp at ht; subst ht; first | rfl | (simp ; done) | (simp [*]; done) | (simp_all ; done)) | (simp_all; done))

theorem execAkviaTelemetry_mem (item : Telemetry) (s : State) {t} (ht : execAkviaTelemetry item s = .next t) : t.mem = s.mem := by
  unfold execAkviaTelemetry at ht
  simp at ht
  subst ht
  simp

/-! Machine/Loader. -/

theorem State.mapPage_go_wf (va leaf n node : Nat) (s : State) (spare : List Nat) (hw : Memory.wf s.mem = true) {t}
    (ht : State.mapPage.go va leaf n node s spare = some t) : Memory.wf t.1.mem = true := by
  induction n generalizing node s spare with
  | zero =>
    simp only [State.mapPage.go] at ht
    split at ht
    · cases ht
    · simp only [Option.some.injEq] at ht
      subst ht
      exact State.writeMem_wf _ _ _ hw
  | succ n ih =>
    unfold State.mapPage.go at ht
    dsimp only at ht
    split at ht
    · split at ht
      · simp at ht
      · exact ih _ _ _ hw ht
    · split at ht
      · simp at ht
      · exact ih _ _ _ (State.writeMem_wf _ _ _ (State.writeMem_wf _ _ _ hw)) ht

theorem State.mapPage_wf (s : State) (root va leaf : Nat) (spare : List Nat) (hw : Memory.wf s.mem = true) {t} (ht : State.mapPage s root va leaf spare = some t) : Memory.wf t.1.mem = true := by
  exact State.mapPage_go_wf _ _ _ _ _ _ hw ht

theorem State.mapAll_wf (s : State) (root : Nat) (x1 : List (Nat × Nat × Nat)) (x2 : List Nat) (hw : Memory.wf s.mem = true) {t} (ht : State.mapAll s root x1 x2 = some t) : Memory.wf t.mem = true := by
  induction x1 generalizing s x2 with
  | nil =>
    simp only [State.mapAll, Option.some.injEq] at ht
    subst ht
    exact hw
  | cons p l ih =>
    obtain ⟨va, pa, bits⟩ := p
    unfold State.mapAll at ht
    split at ht
    · exact ih _ _ (State.mapPage_wf _ _ _ _ _ hw ‹_›) ht
    · simp at ht

@[simp] theorem State.unpoison_mem (s : State) (a n : Nat) : (State.unpoison s a n).mem = s.mem := (rfl)

@[simp] theorem State.writeSects_wf (s : State) (ps : List (Nat × Sect × Nat × Nat)) (cont : List (List Byte)) (hw : Memory.wf s.mem = true) : Memory.wf (State.writeSects s ps cont).mem = true := by
  unfold State.writeSects
  exact foldl_wf _ (fun s p h => (State.unpoison_mem _ _ _).symm ▸ State.writeMem_wf _ _ _ (State.flushRange_wf _ _ _ h)) _ _ hw

@[simp] theorem State.sealBufs_mem (s : State) (vd : Nat) (bufs : List (Nat × Nat)) : (State.sealBufs s vd bufs).mem = s.mem := (rfl)

theorem State.loadImage_wf (s : State) (vd : Nat) (f : List Byte) (choice : List Nat) (hw : Memory.wf s.mem = true) {t} (ht : State.loadImage s vd f choice = .ok t) : Memory.wf t.mem = true := by
  unfold State.loadImage at ht
  dsimp only at ht
  split at ht
  · simp at ht
  split at ht
  · simp at ht
  split at ht
  · simp at ht
  rename_i u hu
  simp only [Except.ok.injEq] at ht
  subst ht
  rw [State.modVd_mem, State.sealBufs_mem]
  exact State.mapAll_wf _ _ _ _ (State.writeSects_wf _ _ _ hw) hu

@[simp] theorem State.report_mem (s : State) (status : Nat) : (State.report s status).mem = s.mem := (rfl)

theorem execDriverImageLoad_wf (vd : Nat) (file : List Byte) (place : List Nat) (s : State) (hw : Memory.wf s.mem = true) {t} (ht : execDriverImageLoad vd file place s = .next t) : Memory.wf t.mem = true := by
  unfold execDriverImageLoad at ht
  dsimp only at ht
  (repeat' (split at ht)) <;> simp only [Host.Outcome.next.injEq] at ht <;> subst ht
  · exact hw
  · rw [State.report_mem]
    exact State.loadImage_wf _ _ _ _ hw ‹_›
  all_goals exact hw

theorem execImageUnload_wf (vd image : Nat) (s : State) (hw : Memory.wf s.mem = true) {t} (ht : execImageUnload vd image s = .next t) : Memory.wf t.mem = true := by
  unfold execImageUnload at ht
  dsimp only at ht
  (repeat' (split at ht)) <;> simp only [Host.Outcome.next.injEq] at ht <;> subst ht
  all_goals first
    | exact hw
    | (rw [State.modVd_mem]
       refine foldl_wf _ (fun s g h => ?_) _ _ hw
       apply State.dropXlate_wf
       split
       · split
         · exact State.writeMem_wf _ _ _ h
         · exact h
       · exact h)

@[simp] theorem State.extend_wf (s : State) (n : Nat) (f : List Byte) (hw : Memory.wf s.mem = true) : Memory.wf (State.extend s n f).mem = true := by
  unfold State.extend
  simp [hw]

@[simp] theorem State.mapFirmware_mem (s : State) (m : Tab Nat) : (State.mapFirmware s m).mem = s.mem := (rfl)

theorem State.placeFirmware_wf (s : State) (f : List Byte) (hw : Memory.wf s.mem = true) {t} (ht : State.placeFirmware s f = .ok t) : Memory.wf t.mem = true := by
  unfold State.placeFirmware at ht
  dsimp only at ht
  split at ht
  · simp at ht
  split at ht
  · simp at ht
  · simp only [Except.ok.injEq] at ht
    subst ht
    rw [State.sealBufs_mem, State.mapFirmware_mem]
    exact State.writeSects_wf _ _ _ hw

@[simp] theorem State.endFirmware_wf (s : State) (hw : Memory.wf s.mem = true) : Memory.wf (State.endFirmware s).mem = true := by
  unfold State.endFirmware
  exact foldl_wf _ (fun s w h => by simp [h]) _ _ hw

@[simp] theorem State.bumpWg_mem (s : State) : (State.bumpWg s).mem = s.mem := (rfl)

@[simp] theorem State.noteFirmware_mem (s : State) (f : List Byte) : (State.noteFirmware s f).mem = s.mem := (rfl)

@[simp] theorem State.startFirmware_wf (s : State) (f : List Byte) (hw : Memory.wf s.mem = true) : Memory.wf (State.startFirmware s f).mem = true := by
  unfold State.startFirmware
  extract_lets t w g
  rw [State.select_mem, State.noteFirmware_mem, State.setFib_mem, State.setSlot_mem, State.setWg_mem, State.bumpWg_mem]
  exact State.endFirmware_wf _ hw

@[simp] theorem State.loadFirmware_wf (s : State) (f : List Byte) (hw : Memory.wf s.mem = true) : Memory.wf (State.loadFirmware s f).mem = true := by
  unfold State.loadFirmware
  split
  · split
    · exact State.startFirmware_wf _ _ (State.placeFirmware_wf _ _ hw ‹_›)
    · exact hw
  · exact hw

theorem execFirmwareImageLoad_wf (file : List Byte) (s : State) (hw : Memory.wf s.mem = true) {t} (ht : execFirmwareImageLoad file s = .next t) : Memory.wf t.mem = true := by
  simp only [execFirmwareImageLoad, Host.Outcome.next.injEq] at ht
  subst ht
  exact State.loadFirmware_wf _ _ hw

theorem execPowerOnReset_wf (image : List Byte) (s : State) (hw : Memory.wf s.mem = true) {t} (ht : execPowerOnReset image s = .next t) : Memory.wf t.mem = true := by
  simp only [execPowerOnReset, Host.Outcome.next.injEq] at ht
  subst ht
  split <;> exact State.loadFirmware_wf _ _ State.reset_wf

end Sys2Proof.Machine
end

