-- ==== Sys2Proof/Laws/KeepIsa.lean ====
section
/-! SUPPORT. What the control, scalar, vector, pair and matrix words and the steps around them do to memory: each operation leaves it alone (the lemmas that end in _mem) or keeps its canonical form (those
that end in _wf). -/

namespace Sys2Proof.Machine

/-! Machine/Ctl. -/

@[simp] theorem State.control_wf (s : State) (k : Nat) (g : Nat → Option (W64 × Nat)) (hw : Memory.wf s.mem = true) : Memory.wf (State.control s k g).mem = true := by
  unfold State.control
  dsimp only
  (repeat' split) <;> simp [hw]

@[simp] theorem State.waitAt_mem (s : State) (k : Nat) (w : Wait) : (State.waitAt s k w).mem = s.mem := by
  unfold State.waitAt
  simp

theorem execClauseEntry_wf (w : W64) (s : State) (hw : Memory.wf s.mem = true) {t} (ht : execClauseEntry w s = .next t) : Memory.wf t.mem = true := by
  unfold execClauseEntry at ht
  dsimp only at ht
  (repeat' split at ht) <;> simp at ht <;> subst ht <;> simp [hw]

theorem execNonInstructionEncoding_wf (w : W64) (s : State) (hw : Memory.wf s.mem = true) {t} (ht : execNonInstructionEncoding w s = .next t) : Memory.wf t.mem = true := by
  unfold execNonInstructionEncoding at ht
  simp at ht
  subst ht
  simp [hw]

theorem execNop_mem (f : FC) (s : State) {t} (ht : execNop f s = .next t) : t.mem = s.mem := by
  unfold execNop at ht
  simp at ht
  subst ht
  simp

theorem execBra_wf (f : FC) (s : State) (hw : Memory.wf s.mem = true) {t} (ht : execBra f s = .next t) : Memory.wf t.mem = true := by
  unfold execBra at ht
  dsimp only at ht
  (repeat' split at ht) <;> simp at ht <;> subst ht <;> simp [hw]

theorem execBrp_wf (f : FC) (s : State) (hw : Memory.wf s.mem = true) {t} (ht : execBrp f s = .next t) : Memory.wf t.mem = true := by
  unfold execBrp at ht
  dsimp only at ht
  (repeat' split at ht) <;> simp at ht <;> subst ht <;> simp [hw]

theorem execBrs_wf (f : FC) (s : State) (hw : Memory.wf s.mem = true) {t} (ht : execBrs f s = .next t) : Memory.wf t.mem = true := by
  unfold execBrs at ht
  dsimp only at ht
  (repeat' split at ht) <;> simp at ht <;> subst ht <;> simp [hw]

theorem execBrx_wf (f : FC) (s : State) (hw : Memory.wf s.mem = true) {t} (ht : execBrx f s = .next t) : Memory.wf t.mem = true := by
  unfold execBrx at ht
  dsimp only at ht
  (repeat' split at ht) <;> simp at ht <;> subst ht <;> simp [hw]

@[simp] theorem State.callTo_wf (s : State) (k : Nat) (f : FC) (target : W64) (hw : Memory.wf s.mem = true) : Memory.wf (State.callTo s k f target).mem = true := by
  unfold State.callTo
  dsimp only
  split
  · exact State.control_wf _ _ _ hw
  split
  · have h := State.resident_wf s k ((s.fib k).entry.fp + 8 * f.b.toNat) (s.fib k).frontier (s.resFuel k ((s.fib k).entry.fp + 8 * f.b.toNat)) hw
    simp only [*, Res.st_stopped] at h
    exact h
  · have h := State.resident_wf s k ((s.fib k).entry.fp + 8 * f.b.toNat) (s.fib k).frontier (s.resFuel k ((s.fib k).entry.fp + 8 * f.b.toNat)) hw
    simp only [*, Res.st_done] at h
    apply State.control_wf
    rw [State.regWrites_mem]
    exact h

theorem execCall_wf (f : FC) (s : State) (hw : Memory.wf s.mem = true) {t} (ht : execCall f s = .next t) : Memory.wf t.mem = true := by
  unfold execCall at ht
  (repeat' split at ht) <;> simp at ht <;> subst ht <;> simp [hw]

theorem execCallx_wf (f : FC) (s : State) (hw : Memory.wf s.mem = true) {t} (ht : execCallx f s = .next t) : Memory.wf t.mem = true := by
  unfold execCallx at ht
  dsimp only at ht
  (repeat' split at ht) <;> simp at ht <;> subst ht <;> simp [hw]

@[simp] theorem State.exitAt_wf (s : State) (k : Nat) (taken : LaneMask) (hw : Memory.wf s.mem = true) : Memory.wf (State.exitAt s k taken).mem = true := by
  unfold State.exitAt
  simp [hw]

theorem execExit_wf (f : FC) (s : State) (hw : Memory.wf s.mem = true) {t} (ht : execExit f s = .next t) : Memory.wf t.mem = true := by
  unfold execExit at ht
  (repeat' split at ht) <;> simp at ht <;> subst ht <;> simp [hw]

@[simp] theorem State.retTo_wf (s : State) (k : Nat) (g : Nat → Option (W64 × Nat)) (hw : Memory.wf s.mem = true) : Memory.wf (State.retTo s k g).mem = true := by
  have hc : Memory.wf (s.control k g).mem = true := State.control_wf _ _ _ hw
  unfold State.retTo
  dsimp only
  split
  · exact hc
  · have h := State.resident_wf s k ((s.control k g).fib k).entry.fp ((s.control k g).fib k).frontier
      (s.resFuel k ((s.control k g).fib k).entry.fp) hw
    split
    · simp only [*, Res.st_stopped] at h
      exact h
    · simp only [*, Res.st_done] at h
      exact State.control_wf _ _ _ h

theorem execRet_wf (f : FC) (s : State) (hw : Memory.wf s.mem = true) {t} (ht : execRet f s = .next t) : Memory.wf t.mem = true := by
  unfold execRet at ht
  dsimp only at ht
  (repeat' split at ht) <;> simp at ht <;> subst ht <;> simp [hw]

theorem execWait_wf (f : FC) (s : State) (hw : Memory.wf s.mem = true) {t} (ht : execWait f s = .next t) : Memory.wf t.mem = true := by
  unfold execWait at ht
  dsimp only at ht
  (repeat' split at ht) <;> simp at ht <;> subst ht <;> simp [hw]

theorem execYield_wf (f : FC) (s : State) (hw : Memory.wf s.mem = true) {t} (ht : execYield f s = .next t) : Memory.wf t.mem = true := by
  unfold execYield at ht
  dsimp only at ht
  (repeat' split at ht) <;> simp at ht <;> subst ht <;> simp [hw]

theorem execFbar_wf (f : FC) (s : State) (hw : Memory.wf s.mem = true) {t} (ht : execFbar f s = .next t) : Memory.wf t.mem = true := by
  unfold execFbar at ht
  extract_lets k sl id mask b s2 at ht
  split at ht
  · simp only [Host.Outcome.next.injEq] at ht; subst ht; rw [State.finish_mem]; exact hw
  split at ht
  · simp only [Host.Outcome.next.injEq] at ht; subst ht; exact State.trapHere_wf _ _ _ _ _ _ hw
  split at ht
  · simp only [Host.Outcome.next.injEq] at ht; subst ht; exact State.trapHere_wf _ _ _ _ _ _ hw
  simp only [Host.Outcome.next.injEq] at ht
  subst ht
  rw [State.select_mem, State.checkBar_mem, State.waitAt_mem]
  exact hw

@[simp] theorem State.softTrap_wf (s : State) (k : Nat) (c : Cause) (f : FC) (hw : Memory.wf s.mem = true) : Memory.wf (State.softTrap s k c f).mem = true := by
  unfold State.softTrap
  split <;> simp [hw]

theorem execTrap_wf (f : FC) (s : State) (hw : Memory.wf s.mem = true) {t} (ht : execTrap f s = .next t) : Memory.wf t.mem = true := by
  unfold execTrap at ht
  simp at ht
  subst ht
  simp [hw]

theorem execBrkpt_wf (f : FC) (s : State) (hw : Memory.wf s.mem = true) {t} (ht : execBrkpt f s = .next t) : Memory.wf t.mem = true := by
  unfold execBrkpt at ht
  simp at ht
  subst ht
  simp [hw]

/-! Machine/Sca. -/

theorem execSadd_wf (f : V3) (s : State) (hw : Memory.wf s.mem = true) {t} (ht : execSadd f s = .next t) : Memory.wf t.mem = true := by
  unfold execSadd at ht
  simp at ht
  subst ht
  simp [hw]

theorem execSsub_wf (f : V3) (s : State) (hw : Memory.wf s.mem = true) {t} (ht : execSsub f s = .next t) : Memory.wf t.mem = true := by
  unfold execSsub at ht
  simp at ht
  subst ht
  simp [hw]

theorem execSmul_wf (f : V3) (s : State) (hw : Memory.wf s.mem = true) {t} (ht : execSmul f s = .next t) : Memory.wf t.mem = true := by
  unfold execSmul at ht
  simp at ht
  subst ht
  simp [hw]

theorem execSmulh_wf (f : V3) (s : State) (hw : Memory.wf s.mem = true) {t} (ht : execSmulh f s = .next t) : Memory.wf t.mem = true := by
  unfold execSmulh at ht
  simp at ht
  subst ht
  simp [hw]

theorem execSmin_wf (f : V3) (s : State) (hw : Memory.wf s.mem = true) {t} (ht : execSmin f s = .next t) : Memory.wf t.mem = true := by
  unfold execSmin at ht
  simp at ht
  subst ht
  simp [hw]

theorem execSmax_wf (f : V3) (s : State) (hw : Memory.wf s.mem = true) {t} (ht : execSmax f s = .next t) : Memory.wf t.mem = true := by
  unfold execSmax at ht
  simp at ht
  subst ht
  simp [hw]

theorem execSmad_wf (f : V3) (s : State) (hw : Memory.wf s.mem = true) {t} (ht : execSmad f s = .next t) : Memory.wf t.mem = true := by
  unfold execSmad at ht
  simp at ht
  subst ht
  simp [hw]

theorem execSabs_wf (f : V3) (s : State) (hw : Memory.wf s.mem = true) {t} (ht : execSabs f s = .next t) : Memory.wf t.mem = true := by
  unfold execSabs at ht
  simp at ht
  subst ht
  simp [hw]

theorem execSand_wf (f : V3) (s : State) (hw : Memory.wf s.mem = true) {t} (ht : execSand f s = .next t) : Memory.wf t.mem = true := by
  unfold execSand at ht
  simp at ht
  subst ht
  simp [hw]

theorem execSor_wf (f : V3) (s : State) (hw : Memory.wf s.mem = true) {t} (ht : execSor f s = .next t) : Memory.wf t.mem = true := by
  unfold execSor at ht
  simp at ht
  subst ht
  simp [hw]

theorem execSxor_wf (f : V3) (s : State) (hw : Memory.wf s.mem = true) {t} (ht : execSxor f s = .next t) : Memory.wf t.mem = true := by
  unfold execSxor at ht
  simp at ht
  subst ht
  simp [hw]

theorem execSnot_wf (f : V3) (s : State) (hw : Memory.wf s.mem = true) {t} (ht : execSnot f s = .next t) : Memory.wf t.mem = true := by
  unfold execSnot at ht
  simp at ht
  subst ht
  simp [hw]

theorem execSshl_wf (f : V3) (s : State) (hw : Memory.wf s.mem = true) {t} (ht : execSshl f s = .next t) : Memory.wf t.mem = true := by
  unfold execSshl at ht
  simp at ht
  subst ht
  simp [hw]

theorem execSshr_wf (f : V3) (s : State) (hw : Memory.wf s.mem = true) {t} (ht : execSshr f s = .next t) : Memory.wf t.mem = true := by
  unfold execSshr at ht
  simp at ht
  subst ht
  simp [hw]

theorem execSsra_wf (f : V3) (s : State) (hw : Memory.wf s.mem = true) {t} (ht : execSsra f s = .next t) : Memory.wf t.mem = true := by
  unfold execSsra at ht
  simp at ht
  subst ht
  simp [hw]

theorem execSbfe_wf (f : V3) (s : State) (hw : Memory.wf s.mem = true) {t} (ht : execSbfe f s = .next t) : Memory.wf t.mem = true := by
  unfold execSbfe at ht
  simp at ht
  subst ht
  simp [hw]

theorem execSbfi_wf (f : V3) (s : State) (hw : Memory.wf s.mem = true) {t} (ht : execSbfi f s = .next t) : Memory.wf t.mem = true := by
  unfold execSbfi at ht
  simp at ht
  subst ht
  simp [hw]

theorem execSpopc_wf (f : V3) (s : State) (hw : Memory.wf s.mem = true) {t} (ht : execSpopc f s = .next t) : Memory.wf t.mem = true := by
  unfold execSpopc at ht
  simp at ht
  subst ht
  simp [hw]

theorem execSclz_wf (f : V3) (s : State) (hw : Memory.wf s.mem = true) {t} (ht : execSclz f s = .next t) : Memory.wf t.mem = true := by
  unfold execSclz at ht
  simp at ht
  subst ht
  simp [hw]

theorem execSctz_wf (f : V3) (s : State) (hw : Memory.wf s.mem = true) {t} (ht : execSctz f s = .next t) : Memory.wf t.mem = true := by
  unfold execSctz at ht
  simp at ht
  subst ht
  simp [hw]

theorem execScmp_wf (f : V3) (s : State) (hw : Memory.wf s.mem = true) {t} (ht : execScmp f s = .next t) : Memory.wf t.mem = true := by
  unfold execScmp at ht
  simp at ht
  subst ht
  simp [hw]

theorem execSsel_wf (f : V3) (s : State) (hw : Memory.wf s.mem = true) {t} (ht : execSsel f s = .next t) : Memory.wf t.mem = true := by
  unfold execSsel at ht
  simp at ht
  subst ht
  simp [hw]

theorem execSmov_wf (f : V3) (s : State) (hw : Memory.wf s.mem = true) {t} (ht : execSmov f s = .next t) : Memory.wf t.mem = true := by
  unfold execSmov at ht
  simp at ht
  subst ht
  simp [hw]

theorem execSmovi_wf (f : VI) (s : State) (hw : Memory.wf s.mem = true) {t} (ht : execSmovi f s = .next t) : Memory.wf t.mem = true := by
  unfold execSmovi at ht
  simp at ht
  subst ht
  simp [hw]

theorem execSmovh_wf (f : VI) (s : State) (hw : Memory.wf s.mem = true) {t} (ht : execSmovh f s = .next t) : Memory.wf t.mem = true := by
  unfold execSmovh at ht
  simp at ht
  subst ht
  simp [hw]

theorem execSfromk_wf (f : V3) (s : State) (hw : Memory.wf s.mem = true) {t} (ht : execSfromk f s = .next t) : Memory.wf t.mem = true := by
  unfold execSfromk at ht
  simp at ht
  subst ht
  simp [hw]

theorem execSfromv_wf (f : V3) (s : State) (hw : Memory.wf s.mem = true) {t} (ht : execSfromv f s = .next t) : Memory.wf t.mem = true := by
  unfold execSfromv at ht
  dsimp only at ht
  (repeat' split at ht) <;> simp at ht <;> subst ht <;> simp [hw]

theorem execStov_wf (f : V3) (s : State) (hw : Memory.wf s.mem = true) {t} (ht : execStov f s = .next t) : Memory.wf t.mem = true := by
  unfold execStov at ht
  dsimp only at ht
  (repeat' split at ht) <;> simp at ht <;> subst ht <;> simp [hw]

/-! Machine/VecInt. -/

theorem execVadd_wf (f : V3) (s : State) (hw : Memory.wf s.mem = true) {t} (ht : execVadd f s = .next t) : Memory.wf t.mem = true := by
  unfold execVadd at ht
  simp at ht
  subst ht
  simp [hw]

theorem execVsub_wf (f : V3) (s : State) (hw : Memory.wf s.mem = true) {t} (ht : execVsub f s = .next t) : Memory.wf t.mem = true := by
  unfold execVsub at ht
  simp at ht
  subst ht
  simp [hw]

theorem execVmul_wf (f : V3) (s : State) (hw : Memory.wf s.mem = true) {t} (ht : execVmul f s = .next t) : Memory.wf t.mem = true := by
  unfold execVmul at ht
  simp at ht
  subst ht
  simp [hw]

theorem execVmulh_wf (f : V3) (s : State) (hw : Memory.wf s.mem = true) {t} (ht : execVmulh f s = .next t) : Memory.wf t.mem = true := by
  unfold execVmulh at ht
  simp at ht
  subst ht
  simp [hw]

theorem execVmin_wf (f : V3) (s : State) (hw : Memory.wf s.mem = true) {t} (ht : execVmin f s = .next t) : Memory.wf t.mem = true := by
  unfold execVmin at ht
  simp at ht
  subst ht
  simp [hw]

theorem execVmax_wf (f : V3) (s : State) (hw : Memory.wf s.mem = true) {t} (ht : execVmax f s = .next t) : Memory.wf t.mem = true := by
  unfold execVmax at ht
  simp at ht
  subst ht
  simp [hw]

theorem execVmad_wf (f : V3) (s : State) (hw : Memory.wf s.mem = true) {t} (ht : execVmad f s = .next t) : Memory.wf t.mem = true := by
  unfold execVmad at ht
  simp at ht
  subst ht
  simp [hw]

theorem execVabs_wf (f : V3) (s : State) (hw : Memory.wf s.mem = true) {t} (ht : execVabs f s = .next t) : Memory.wf t.mem = true := by
  unfold execVabs at ht
  simp at ht
  subst ht
  simp [hw]

theorem execVneg_wf (f : V3) (s : State) (hw : Memory.wf s.mem = true) {t} (ht : execVneg f s = .next t) : Memory.wf t.mem = true := by
  unfold execVneg at ht
  simp at ht
  subst ht
  simp [hw]

theorem execVand_wf (f : V3) (s : State) (hw : Memory.wf s.mem = true) {t} (ht : execVand f s = .next t) : Memory.wf t.mem = true := by
  unfold execVand at ht
  simp at ht
  subst ht
  simp [hw]

theorem execVor_wf (f : V3) (s : State) (hw : Memory.wf s.mem = true) {t} (ht : execVor f s = .next t) : Memory.wf t.mem = true := by
  unfold execVor at ht
  simp at ht
  subst ht
  simp [hw]

theorem execVxor_wf (f : V3) (s : State) (hw : Memory.wf s.mem = true) {t} (ht : execVxor f s = .next t) : Memory.wf t.mem = true := by
  unfold execVxor at ht
  simp at ht
  subst ht
  simp [hw]

theorem execVnot_wf (f : V3) (s : State) (hw : Memory.wf s.mem = true) {t} (ht : execVnot f s = .next t) : Memory.wf t.mem = true := by
  unfold execVnot at ht
  simp at ht
  subst ht
  simp [hw]

theorem execVlop3_wf (f : V3) (s : State) (hw : Memory.wf s.mem = true) {t} (ht : execVlop3 f s = .next t) : Memory.wf t.mem = true := by
  unfold execVlop3 at ht
  simp at ht
  subst ht
  simp [hw]

theorem execVshl_wf (f : V3) (s : State) (hw : Memory.wf s.mem = true) {t} (ht : execVshl f s = .next t) : Memory.wf t.mem = true := by
  unfold execVshl at ht
  simp at ht
  subst ht
  simp [hw]

theorem execVshr_wf (f : V3) (s : State) (hw : Memory.wf s.mem = true) {t} (ht : execVshr f s = .next t) : Memory.wf t.mem = true := by
  unfold execVshr at ht
  simp at ht
  subst ht
  simp [hw]

theorem execVsra_wf (f : V3) (s : State) (hw : Memory.wf s.mem = true) {t} (ht : execVsra f s = .next t) : Memory.wf t.mem = true := by
  unfold execVsra at ht
  simp at ht
  subst ht
  simp [hw]

theorem execVbfe_wf (f : V3) (s : State) (hw : Memory.wf s.mem = true) {t} (ht : execVbfe f s = .next t) : Memory.wf t.mem = true := by
  unfold execVbfe at ht
  simp at ht
  subst ht
  simp [hw]

theorem execVbfi_wf (f : V3) (s : State) (hw : Memory.wf s.mem = true) {t} (ht : execVbfi f s = .next t) : Memory.wf t.mem = true := by
  unfold execVbfi at ht
  simp at ht
  subst ht
  simp [hw]

theorem execVpopc_wf (f : V3) (s : State) (hw : Memory.wf s.mem = true) {t} (ht : execVpopc f s = .next t) : Memory.wf t.mem = true := by
  unfold execVpopc at ht
  simp at ht
  subst ht
  simp [hw]

theorem execVclz_wf (f : V3) (s : State) (hw : Memory.wf s.mem = true) {t} (ht : execVclz f s = .next t) : Memory.wf t.mem = true := by
  unfold execVclz at ht
  simp at ht
  subst ht
  simp [hw]

theorem execVbrev_wf (f : V3) (s : State) (hw : Memory.wf s.mem = true) {t} (ht : execVbrev f s = .next t) : Memory.wf t.mem = true := by
  unfold execVbrev at ht
  simp at ht
  subst ht
  simp [hw]

theorem execVperm_wf (f : V3) (s : State) (hw : Memory.wf s.mem = true) {t} (ht : execVperm f s = .next t) : Memory.wf t.mem = true := by
  unfold execVperm at ht
  simp at ht
  subst ht
  simp [hw]

theorem execVdot4_wf (f : V3) (s : State) (hw : Memory.wf s.mem = true) {t} (ht : execVdot4 f s = .next t) : Memory.wf t.mem = true := by
  unfold execVdot4 at ht
  simp at ht
  subst ht
  simp [hw]

theorem execVsad_wf (f : V3) (s : State) (hw : Memory.wf s.mem = true) {t} (ht : execVsad f s = .next t) : Memory.wf t.mem = true := by
  unfold execVsad at ht
  simp at ht
  subst ht
  simp [hw]

theorem execVpack_wf (f : V3) (s : State) (hw : Memory.wf s.mem = true) {t} (ht : execVpack f s = .next t) : Memory.wf t.mem = true := by
  unfold execVpack at ht
  simp at ht
  subst ht
  simp [hw]

theorem execVunpack_wf (f : V3) (s : State) (hw : Memory.wf s.mem = true) {t} (ht : execVunpack f s = .next t) : Memory.wf t.mem = true := by
  unfold execVunpack at ht
  simp at ht
  subst ht
  simp [hw]

theorem execVcmp_wf (f : V3) (s : State) (hw : Memory.wf s.mem = true) {t} (ht : execVcmp f s = .next t) : Memory.wf t.mem = true := by
  unfold execVcmp at ht
  dsimp only at ht
  (repeat' split at ht) <;> simp at ht <;> subst ht <;> simp [hw]

theorem execVsel_wf (f : V3) (s : State) (hw : Memory.wf s.mem = true) {t} (ht : execVsel f s = .next t) : Memory.wf t.mem = true := by
  unfold execVsel at ht
  dsimp only at ht
  (repeat' split at ht) <;> simp at ht <;> subst ht <;> simp [hw]

theorem execVmov_wf (f : V3) (s : State) (hw : Memory.wf s.mem = true) {t} (ht : execVmov f s = .next t) : Memory.wf t.mem = true := by
  unfold execVmov at ht
  simp at ht
  subst ht
  simp [hw]

theorem execVmovi_wf (f : VI) (s : State) (hw : Memory.wf s.mem = true) {t} (ht : execVmovi f s = .next t) : Memory.wf t.mem = true := by
  unfold execVmovi at ht
  dsimp only at ht
  (repeat' split at ht) <;> simp at ht <;> subst ht <;> simp [hw]

/-! Machine/FloatOps. -/

theorem execFadd_wf (f : V3) (s : State) (hw : Memory.wf s.mem = true) {t} (ht : execFadd f s = .next t) : Memory.wf t.mem = true := by
  unfold execFadd at ht
  simp at ht
  subst ht
  simp [hw]

theorem execFsub_wf (f : V3) (s : State) (hw : Memory.wf s.mem = true) {t} (ht : execFsub f s = .next t) : Memory.wf t.mem = true := by
  unfold execFsub at ht
  simp at ht
  subst ht
  simp [hw]

theorem execFmul_wf (f : V3) (s : State) (hw : Memory.wf s.mem = true) {t} (ht : execFmul f s = .next t) : Memory.wf t.mem = true := by
  unfold execFmul at ht
  simp at ht
  subst ht
  simp [hw]

theorem execFmin_wf (f : V3) (s : State) (hw : Memory.wf s.mem = true) {t} (ht : execFmin f s = .next t) : Memory.wf t.mem = true := by
  unfold execFmin at ht
  simp at ht
  subst ht
  simp [hw]

theorem execFmax_wf (f : V3) (s : State) (hw : Memory.wf s.mem = true) {t} (ht : execFmax f s = .next t) : Memory.wf t.mem = true := by
  unfold execFmax at ht
  simp at ht
  subst ht
  simp [hw]

theorem execFma_wf (f : V3) (s : State) (hw : Memory.wf s.mem = true) {t} (ht : execFma f s = .next t) : Memory.wf t.mem = true := by
  unfold execFma at ht
  simp at ht
  subst ht
  simp [hw]

theorem execFcmp_wf (f : V3) (s : State) (hw : Memory.wf s.mem = true) {t} (ht : execFcmp f s = .next t) : Memory.wf t.mem = true := by
  unfold execFcmp at ht
  dsimp only at ht
  (repeat' split at ht) <;> simp at ht <;> subst ht <;> simp [hw]

theorem execFclass_wf (f : V3) (s : State) (hw : Memory.wf s.mem = true) {t} (ht : execFclass f s = .next t) : Memory.wf t.mem = true := by
  unfold execFclass at ht
  simp at ht
  subst ht
  simp [hw]

theorem execFrcp_wf (f : V3) (s : State) (hw : Memory.wf s.mem = true) {t} (ht : execFrcp f s = .next t) : Memory.wf t.mem = true := by
  unfold execFrcp at ht
  simp at ht
  subst ht
  simp [hw]

theorem execFrsq_wf (f : V3) (s : State) (hw : Memory.wf s.mem = true) {t} (ht : execFrsq f s = .next t) : Memory.wf t.mem = true := by
  unfold execFrsq at ht
  simp at ht
  subst ht
  simp [hw]

theorem execFsqrt_wf (f : V3) (s : State) (hw : Memory.wf s.mem = true) {t} (ht : execFsqrt f s = .next t) : Memory.wf t.mem = true := by
  unfold execFsqrt at ht
  simp at ht
  subst ht
  simp [hw]

theorem execFex2_wf (f : V3) (s : State) (hw : Memory.wf s.mem = true) {t} (ht : execFex2 f s = .next t) : Memory.wf t.mem = true := by
  unfold execFex2 at ht
  simp at ht
  subst ht
  simp [hw]

theorem execFlg2_wf (f : V3) (s : State) (hw : Memory.wf s.mem = true) {t} (ht : execFlg2 f s = .next t) : Memory.wf t.mem = true := by
  unfold execFlg2 at ht
  simp at ht
  subst ht
  simp [hw]

theorem execFsin_wf (f : V3) (s : State) (hw : Memory.wf s.mem = true) {t} (ht : execFsin f s = .next t) : Memory.wf t.mem = true := by
  unfold execFsin at ht
  simp at ht
  subst ht
  simp [hw]

theorem execFcos_wf (f : V3) (s : State) (hw : Memory.wf s.mem = true) {t} (ht : execFcos f s = .next t) : Memory.wf t.mem = true := by
  unfold execFcos at ht
  simp at ht
  subst ht
  simp [hw]

theorem execFtanh_wf (f : V3) (s : State) (hw : Memory.wf s.mem = true) {t} (ht : execFtanh f s = .next t) : Memory.wf t.mem = true := by
  unfold execFtanh at ht
  simp at ht
  subst ht
  simp [hw]

theorem execFrint_wf (f : V3) (s : State) (hw : Memory.wf s.mem = true) {t} (ht : execFrint f s = .next t) : Memory.wf t.mem = true := by
  unfold execFrint at ht
  simp at ht
  subst ht
  simp [hw]

theorem execFscale_wf (f : V3) (s : State) (hw : Memory.wf s.mem = true) {t} (ht : execFscale f s = .next t) : Memory.wf t.mem = true := by
  unfold execFscale at ht
  simp at ht
  subst ht
  simp [hw]

theorem execFsgn_wf (f : V3) (s : State) (hw : Memory.wf s.mem = true) {t} (ht : execFsgn f s = .next t) : Memory.wf t.mem = true := by
  unfold execFsgn at ht
  simp at ht
  subst ht
  simp [hw]

theorem execFcvt_wf (f : V3) (s : State) (hw : Memory.wf s.mem = true) {t} (ht : execFcvt f s = .next t) : Memory.wf t.mem = true := by
  unfold execFcvt at ht
  simp at ht
  subst ht
  simp [hw]

theorem execIcvt_wf (f : V3) (s : State) (hw : Memory.wf s.mem = true) {t} (ht : execIcvt f s = .next t) : Memory.wf t.mem = true := by
  unfold execIcvt at ht
  simp at ht
  subst ht
  simp [hw]

/-! Machine/Lanes. -/

theorem execShfl_wf (f : V3) (s : State) (hw : Memory.wf s.mem = true) {t} (ht : execShfl f s = .next t) : Memory.wf t.mem = true := by
  unfold execShfl at ht
  simp at ht
  subst ht
  simp [hw]

theorem execQswp_wf (f : V3) (s : State) (hw : Memory.wf s.mem = true) {t} (ht : execQswp f s = .next t) : Memory.wf t.mem = true := by
  unfold execQswp at ht
  simp at ht
  subst ht
  simp [hw]

theorem execQbc_wf (f : V3) (s : State) (hw : Memory.wf s.mem = true) {t} (ht : execQbc f s = .next t) : Memory.wf t.mem = true := by
  unfold execQbc at ht
  simp at ht
  subst ht
  simp [hw]

theorem execVote_wf (f : V3) (s : State) (hw : Memory.wf s.mem = true) {t} (ht : execVote f s = .next t) : Memory.wf t.mem = true := by
  unfold execVote at ht
  dsimp only at ht
  (repeat' split at ht) <;> simp at ht <;> subst ht <;> simp [hw]

theorem execBallot_wf (f : V3) (s : State) (hw : Memory.wf s.mem = true) {t} (ht : execBallot f s = .next t) : Memory.wf t.mem = true := by
  unfold execBallot at ht
  dsimp only at ht
  (repeat' split at ht) <;> simp at ht <;> subst ht <;> simp [hw]

theorem execVred_wf (f : V3) (s : State) (hw : Memory.wf s.mem = true) {t} (ht : execVred f s = .next t) : Memory.wf t.mem = true := by
  unfold execVred at ht
  simp at ht
  subst ht
  simp [hw]

theorem execVscan_wf (f : V3) (s : State) (hw : Memory.wf s.mem = true) {t} (ht : execVscan f s = .next t) : Memory.wf t.mem = true := by
  unfold execVscan at ht
  simp at ht
  subst ht
  simp [hw]

theorem execPand_wf (f : V3) (s : State) (hw : Memory.wf s.mem = true) {t} (ht : execPand f s = .next t) : Memory.wf t.mem = true := by
  unfold execPand at ht
  simp at ht
  subst ht
  simp [hw]

theorem execPor_wf (f : V3) (s : State) (hw : Memory.wf s.mem = true) {t} (ht : execPor f s = .next t) : Memory.wf t.mem = true := by
  unfold execPor at ht
  simp at ht
  subst ht
  simp [hw]

theorem execPxor_wf (f : V3) (s : State) (hw : Memory.wf s.mem = true) {t} (ht : execPxor f s = .next t) : Memory.wf t.mem = true := by
  unfold execPxor at ht
  simp at ht
  subst ht
  simp [hw]

theorem execPnot_wf (f : V3) (s : State) (hw : Memory.wf s.mem = true) {t} (ht : execPnot f s = .next t) : Memory.wf t.mem = true := by
  unfold execPnot at ht
  simp at ht
  subst ht
  simp [hw]

theorem execPmov_wf (f : V3) (s : State) (hw : Memory.wf s.mem = true) {t} (ht : execPmov f s = .next t) : Memory.wf t.mem = true := by
  unfold execPmov at ht
  simp at ht
  subst ht
  simp [hw]

theorem execPcnt_wf (f : V3) (s : State) (hw : Memory.wf s.mem = true) {t} (ht : execPcnt f s = .next t) : Memory.wf t.mem = true := by
  unfold execPcnt at ht
  dsimp only at ht
  (repeat' split at ht) <;> simp at ht <;> subst ht <;> simp [hw]

/-! Machine/Pair. -/

theorem execPair_wf (f : FP) (s : State) (hw : Memory.wf s.mem = true) {t} (ht : execPair f s = .next t) : Memory.wf t.mem = true := by
  unfold execPair at ht
  dsimp only at ht
  (repeat' split at ht) <;> simp at ht <;> subst ht <;> simp [hw]

/-! Machine/Mtx. -/

theorem execGdecl_wf (f : FY) (s : State) (hw : Memory.wf s.mem = true) {t} (ht : execGdecl f s = .next t) : Memory.wf t.mem = true := by
  unfold execGdecl at ht
  dsimp only at ht
  (repeat' split at ht) <;> simp at ht <;> subst ht <;> simp [hw]

theorem execObres_wf (f : FY) (s : State) (hw : Memory.wf s.mem = true) {t} (ht : execObres f s = .next t) : Memory.wf t.mem = true := by
  unfold execObres at ht
  dsimp only at ht
  (repeat' split at ht) <;> simp at ht <;> subst ht <;> simp [hw]

theorem execObrel_wf (f : FY) (s : State) (hw : Memory.wf s.mem = true) {t} (ht : execObrel f s = .next t) : Memory.wf t.mem = true := by
  unfold execObrel at ht
  dsimp only at ht
  (repeat' split at ht) <;> simp at ht <;> subst ht <;> simp [hw]

@[simp] theorem State.obInFlight_mem (s : State) (w : Nat) : (State.obInFlight s w).2.mem = s.mem := by
  unfold State.obInFlight
  refine foldl_inv (fun r : List (Nat × List Byte) × State => r.2.mem = s.mem) _ (fun r e h => ?_) _ _ ?_
  · exact (State.takeBit_mem _).trans h
  · rfl

@[simp] theorem State.sign_wf (s : State) (w g : Nat) (r : GReg) (x : Sig) (hw : Memory.wf s.mem = true) : Memory.wf (State.sign s w g r x).mem = true := by
  unfold State.sign
  dsimp only
  (repeat' split) <;> simp [hw]

theorem execMma_wf (f : FX) (s : State) (hw : Memory.wf s.mem = true) {t} (ht : execMma f s = .next t) : Memory.wf t.mem = true := by
  unfold execMma at ht
  dsimp only at ht
  (repeat' split at ht) <;> simp at ht <;> subst ht <;> simp [hw]

@[simp] theorem State.lentCycles_mem (s : State) (wg : Nat) (op : MmaOp) : (State.lentCycles s wg op).2.mem = s.mem := by
  unfold State.lentCycles
  split <;> simp

theorem execMmaOperation_mem (wg g : Nat) (s : State) {t} (ht : execMmaOperation wg g s = .next t) : t.mem = s.mem := by
  unfold execMmaOperation at ht
  (repeat' split at ht) <;> simp at ht <;> subst ht <;> simp

theorem execAclr_wf (f : FX) (s : State) (hw : Memory.wf s.mem = true) {t} (ht : execAclr f s = .next t) : Memory.wf t.mem = true := by
  unfold execAclr at ht
  dsimp only at ht
  (repeat' split at ht) <;> simp at ht <;> subst ht <;> simp [hw]

@[simp] theorem State.readout_wf (s : State) (k : Nat) (f : FX) (acts : LaneMask) (bad : Nat → Bool) (res : Nat → List W32) (hw : Memory.wf s.mem = true) : Memory.wf (State.readout s k f acts bad res).mem = true := by
  unfold State.readout
  dsimp only
  (repeat' split) <;> simp [hw]

theorem execAget_wf (f : FX) (s : State) (hw : Memory.wf s.mem = true) {t} (ht : execAget f s = .next t) : Memory.wf t.mem = true := by
  unfold execAget at ht
  dsimp only at ht
  (repeat' split at ht) <;> simp at ht <;> subst ht <;> simp [hw]

theorem execAput_wf (f : FX) (s : State) (hw : Memory.wf s.mem = true) {t} (ht : execAput f s = .next t) : Memory.wf t.mem = true := by
  unfold execAput at ht
  dsimp only at ht
  (repeat' split at ht) <;> simp at ht <;> subst ht <;> simp [hw]

theorem execAout_wf (f : FX) (s : State) (hw : Memory.wf s.mem = true) {t} (ht : execAout f s = .next t) : Memory.wf t.mem = true := by
  unfold execAout at ht
  dsimp only at ht
  (repeat' split at ht) <;> simp at ht <;> subst ht <;> simp [hw]

theorem execAckr_wf (f : FX) (s : State) (hw : Memory.wf s.mem = true) {t} (ht : execAckr f s = .next t) : Memory.wf t.mem = true := by
  unfold execAckr at ht
  dsimp only at ht
  (repeat' split at ht) <;> simp at ht <;> subst ht <;> simp [hw]

theorem execObld_wf (f : FM) (s : State) (hw : Memory.wf s.mem = true) {t} (ht : execObld f s = .next t) : Memory.wf t.mem = true := by
  unfold execObld at ht
  dsimp only at ht
  (repeat' split at ht) <;> simp at ht <;> subst ht <;> simp (maxDischargeDepth := 20) [*]

theorem execObst_wf (f : FM) (s : State) (hw : Memory.wf s.mem = true) {t} (ht : execObst f s = .next t) : Memory.wf t.mem = true := by
  unfold execObst at ht
  dsimp only at ht
  (repeat' split at ht) <;> simp at ht <;> subst ht <;> simp [hw]

/-! Machine/Step. -/

@[simp] theorem State.withBatch_mem (s t : State) : (s.withBatch t).mem = t.mem := by
  unfold State.withBatch
  split
  · split
    · rfl
    · rfl
  · rfl

theorem batched_wf (s : State) (o : Out) (ho : ∀ t, o = .next t → Memory.wf t.mem = true) {t} (ht : batched s o = .next t) :
    Memory.wf t.mem = true := by
  unfold batched at ht
  split at ht
  · simp only [Host.Outcome.next.injEq] at ht
    subst ht
    rw [State.withBatch_mem]
    exact ho _ rfl
  · simp at ht
  · simp at ht

@[simp] theorem State.noteFetch_wf (s : State) (k : Nat) (pc : W64) (hw : Memory.wf s.mem = true) : Memory.wf (s.noteFetch k pc).mem = true := by
  unfold State.noteFetch
  simp [hw]

@[simp] theorem State.exchanges_mem (s : State) : s.exchanges.mem = s.mem := by
  unfold State.exchanges
  refine foldl_mem _ (fun s q => ?_) _ _
  split <;> simp

theorem settled_wf (o : Out) (ho : ∀ t, o = .next t → Memory.wf t.mem = true) {t} (ht : settled o = .next t) : Memory.wf t.mem = true := by
  unfold settled at ht
  split at ht
  · simp only [Host.Outcome.next.injEq] at ht
    subst ht
    exact State.settle_wf _ (ho _ rfl)
  · simp at ht
  · simp at ht

end Sys2Proof.Machine
end

