-- ==== Sys2Proof/Laws/Shared.lean ====
section
/-! SUPPORT. The shared window (R25): what a fibre finds in an entry that unordered writes have reached, and what a common `fbar`
leaves. -/

namespace Sys2Proof.Machine

theorem tfind_mem {α : Type} (t : Tab α) (k : Nat) (v : α) (h : tfind t k = some v) : (k, v) ∈ t := by
  induction t with
  | nil => cases h
  | cons x l ih =>
    obtain ⟨a, w⟩ := x
    simp only [tfind] at h
    split at h
    · rename_i he
      cases h
      subst he
      exact List.mem_cons_self
    · exact List.mem_cons_of_mem _ (ih h)

theorem getD_mod_mem {α : Type} (l : List α) (n : Nat) (d : α) (h : l ≠ []) : l.getD (n % l.length) d ∈ l := by
  have hl : n % l.length < l.length := Nat.mod_lt _ (List.length_pos_iff.2 h)
  rw [List.getD_eq_getElem?_getD, List.getElem?_eq_getElem hl]
  exact List.getElem_mem hl

/-- The values of a record. -/
def Race.all (r : Race) : List W32 := r.olds ++ r.ws.map (·.1)

theorem Race.seen_sub (r : Race) (f : Nat) (v : W32) (h : v ∈ r.seen f) : v ∈ r.all := by
  unfold Race.seen at h
  split at h
  · exact List.mem_append_right _ h
  · exact h

theorem Race.seen_ne (r : Race) (f : Nat) (v : W32) (h : v ∈ r.all) : r.seen f ≠ [] := by
  unfold Race.seen
  split
  · rename_i h'
    intro hn
    rw [List.map_eq_nil_iff.1 hn] at h'
    simp at h'
  · exact fun hn => by unfold Race.all at h; rw [hn] at h; simp at h

/-- One entry: the fibre finds a value that R25 allows, and no other entry changes. -/
theorem State.findAt_spec (s : State) (k p q : Nat) :
    ((s.findAt k p).slot (slotOf k)).races = (s.slot (slotOf k)).races ∧
    (q ≠ p → tget 0 ((s.findAt k p).slot (slotOf k)).stack q = tget 0 (s.slot (slotOf k)).stack q) ∧
    (∀ r, tfind (s.slot (slotOf k)).races p = some r → tget 0 (s.slot (slotOf k)).stack p ∈ r.all →
      tget 0 ((s.findAt k p).slot (slotOf k)).stack p ∈ r.seen (fibIdx k)) := by
  unfold State.findAt
  split
  · rename_i h
    exact ⟨rfl, fun _ => rfl, fun r hr => by rw [h] at hr; cases hr⟩
  · rename_i r h
    dsimp only
    split
    · rename_i hc
      refine ⟨rfl, fun _ => rfl, fun r' hr' ha => ?_⟩
      rw [h] at hr'
      cases hr'
      simp [Race.all] at ha hc
      exact absurd ha (by simpa using hc)
    · have key (n : Nat) (t : State) (ht : t.slots = s.slots) :
          (let u := t.modSlot (slotOf k) (fun x => { x with stack := tset 0 x.stack p ((r.seen (fibIdx k)).getD (n % (r.seen (fibIdx k)).length) 0) })
           (u.slot (slotOf k)).races = (s.slot (slotOf k)).races ∧ (q ≠ p → tget 0 (u.slot (slotOf k)).stack q = tget 0 (s.slot (slotOf k)).stack q) ∧
           (∀ r', tfind (s.slot (slotOf k)).races p = some r' → tget 0 (s.slot (slotOf k)).stack p ∈ r'.all → tget 0 (u.slot (slotOf k)).stack p ∈ r'.seen (fibIdx k))) := by
        have hs : t.slot (slotOf k) = s.slot (slotOf k) := by unfold State.slot; rw [ht]
        dsimp only
        rw [State.slot_modSlot_self, hs]
        refine ⟨rfl, fun hq => tget_tset_ne _ _ _ _ _ hq, fun r' hr' ha => ?_⟩
        rw [h] at hr'
        cases hr'
        show tget 0 (tset 0 _ _ _) _ ∈ _
        rw [tget_tset_self]
        exact getD_mod_mem _ _ _ (Race.seen_ne r _ _ ha)
      split
      · exact key 0 s rfl
      · exact key _ _ rfl

/-- Where a fibre issues, it finds in each entry with unordered writes a value that R25 allows, and what was there in all others. -/
theorem State.find_spec (s : State) (k q : Nat) :
    ((s.find k).slot (slotOf k)).races = (s.slot (slotOf k)).races ∧
    (tfind (s.slot (slotOf k)).races q = none → tget 0 ((s.find k).slot (slotOf k)).stack q = tget 0 (s.slot (slotOf k)).stack q) ∧
    (∀ r, tfind (s.slot (slotOf k)).races q = some r → tget 0 (s.slot (slotOf k)).stack q ∈ r.all →
      tget 0 ((s.find k).slot (slotOf k)).stack q ∈ r.seen (fibIdx k)) := by
  have gen : ∀ (ks : List Nat) (t : State), (t.slot (slotOf k)).races = (s.slot (slotOf k)).races →
      let u := ks.foldl (fun s q => s.findAt k q) t
      (u.slot (slotOf k)).races = (s.slot (slotOf k)).races ∧
      (tfind (s.slot (slotOf k)).races q = none → tget 0 (u.slot (slotOf k)).stack q = tget 0 (t.slot (slotOf k)).stack q) ∧
      (∀ r, tfind (s.slot (slotOf k)).races q = some r → tget 0 (t.slot (slotOf k)).stack q ∈ r.all →
        (q ∈ ks ∨ tget 0 (t.slot (slotOf k)).stack q ∈ r.seen (fibIdx k)) → tget 0 (u.slot (slotOf k)).stack q ∈ r.seen (fibIdx k)) := by
    intro ks
    induction ks with
    | nil => exact fun t ht => ⟨ht, fun _ => rfl, fun r _ _ h => h.resolve_left (by simp)⟩
    | cons p l ih =>
      intro t ht
      have hp := State.findAt_spec t k p q
      have hi := ih (t.findAt k p) (hp.1.trans ht)
      refine ⟨hi.1, fun hn => ?_, fun r hr ha hm => ?_⟩
      · refine (hi.2.1 hn).trans ?_
        by_cases hq : q = p
        · subst hq
          unfold State.findAt
          rw [ht, hn]
        · exact hp.2.1 hq
      · by_cases hq : q = p
        · subst hq
          have hs := hp.2.2 r (by rw [ht]; exact hr) ha
          exact hi.2.2 r hr (Race.seen_sub _ _ _ hs) (.inr hs)
        · have he := hp.2.1 hq
          refine hi.2.2 r hr (by rw [he]; exact ha) ?_
          rw [he]
          rcases hm with hm | hm
          · exact .inl ((List.mem_cons.1 hm).resolve_left hq)
          · exact .inr hm
  have h := gen ((s.slot (slotOf k)).races.map (·.1)) s rfl
  refine ⟨h.1, h.2.1, fun r hr ha => h.2.2 r hr ha (.inl ?_)⟩
  exact List.mem_map.2 ⟨(q, r), tfind_mem _ _ _ hr, rfl⟩

/-- An entry is in order for the fibres of a mask: its record is gone and it holds v, or each write that one of them sees is v. -/
def Slot.ordered (x : Slot) (among q : Nat) (v : W32) : Prop :=
  (tfind x.races q = none ∧ tget 0 x.stack q = v) ∨
  ∃ r, tfind x.races q = some r ∧ (∃ w ∈ r.ws, w.2 &&& among ≠ 0) ∧ ∀ w ∈ r.ws, w.2 &&& among ≠ 0 → w.1 = v

theorem Race.meet_spec (r : Race) (among n : Nat) (h : ∃ w ∈ r.ws, w.2 &&& among ≠ 0) :
    ∃ w ∈ r.ws, w.2 &&& among ≠ 0 ∧ ∃ m rest, (r.meet among n).ws = (w.1, m) :: rest ∧ m &&& among ≠ 0 ∧ ∀ u ∈ rest, u.2 &&& among = 0 := by
  obtain ⟨w, hw, hm⟩ := h
  unfold Race.meet
  dsimp only
  split
  · rename_i he
    have : w ∈ r.ws.filter (fun w => w.2 &&& among != 0) := List.mem_filter.2 ⟨hw, by simpa using hm⟩
    rw [he] at this
    simp at this
  · rename_i a t he
    have hin := getD_mod_mem (r.ws.filter (fun w => w.2 &&& among != 0)) n a (by rw [he]; simp)
    rw [he] at hin ⊢
    have hx : ∀ u ∈ a :: t, u ∈ r.ws ∧ u.2 &&& among ≠ 0 := fun u hu => by
      rw [← he] at hu
      have := List.mem_filter.1 hu
      exact ⟨this.1, by simpa using this.2⟩
    refine ⟨_, (hx _ hin).1, (hx _ hin).2, _, _, rfl, ?_, fun u hu => by simpa using (List.mem_filter.1 hu).2⟩
    have big : ∀ (l : List (W32 × Nat)) (m : Nat), (m &&& among) ≠ 0 → (l.foldl (fun m x => m ||| x.2) m) &&& among ≠ 0 := by
      intro l
      induction l with
      | nil => exact fun m h => h
      | cons x l ih =>
        intro m h
        refine ih _ (fun h0 => h ?_)
        rw [Nat.and_or_distrib_right] at h0
        exact (Nat.or_eq_zero_iff.1 h0).1
    refine big t _ (fun h0 => (hx a (by simp)).2 ?_)
    rw [Nat.and_or_distrib_right] at h0
    exact (Nat.or_eq_zero_iff.1 h0).1

/-- One entry: another entry does not change; this one comes into order at a value that one of the fibres saw, and one in order stays so. -/
theorem State.orderAt_spec (s : State) (slot among p q : Nat) :
    (q ≠ p → tfind ((s.orderAt slot among p).slot slot).races q = tfind (s.slot slot).races q ∧
      tget 0 ((s.orderAt slot among p).slot slot).stack q = tget 0 (s.slot slot).stack q) ∧
    (∀ r, tfind (s.slot slot).races p = some r → (∃ w ∈ r.ws, w.2 &&& among ≠ 0) →
      ∃ w ∈ r.ws, w.2 &&& among ≠ 0 ∧ ((s.orderAt slot among p).slot slot).ordered among p w.1) ∧
    (tfind (s.slot slot).races p = none → s.orderAt slot among p = s) := by
  unfold State.orderAt
  split
  · rename_i h
    exact ⟨fun _ => ⟨rfl, rfl⟩, fun r hr => absurd (h.symm.trans hr) nofun, fun _ => rfl⟩
  · rename_i r h
    dsimp only
    have key (c : W32 × State) (hc : c.2.slots = s.slots) :
        let u := c.2.modSlot slot (fun x => match (r.meet among c.1.toNat).ws with
          | [w] => if w.2 &&& (2 ^ (s.wg (slot / 16)).kd.fibres - 1) = 2 ^ (s.wg (slot / 16)).kd.fibres - 1
              then { x with stack := tset 0 x.stack p w.1, races := tdel x.races p } else { x with races := tput x.races p (r.meet among c.1.toNat) }
          | _ => { x with races := tput x.races p (r.meet among c.1.toNat) })
        (q ≠ p → tfind (u.slot slot).races q = tfind (s.slot slot).races q ∧ tget 0 (u.slot slot).stack q = tget 0 (s.slot slot).stack q) ∧
        (∀ r', tfind (s.slot slot).races p = some r' → (∃ w ∈ r'.ws, w.2 &&& among ≠ 0) → ∃ w ∈ r'.ws, w.2 &&& among ≠ 0 ∧ (u.slot slot).ordered among p w.1) := by
      have hs : c.2.slot slot = s.slot slot := by unfold State.slot; rw [hc]
      dsimp only
      rw [State.slot_modSlot_self, hs]
      refine ⟨fun hq => ?_, fun r' hr' hw => ?_⟩
      · (repeat' split) <;> simp [tfind_tdel_ne _ _ _ hq, tfind_tput_ne _ _ _ _ hq, tget_tset_ne _ _ _ _ _ hq]
      · rw [h] at hr'
        cases hr'
        obtain ⟨w, hin, hm, m, rest, hws, hmm, hrest⟩ := Race.meet_spec r among c.1.toNat hw
        refine ⟨w, hin, hm, ?_⟩
        have put : ({ s.slot slot with races := tput (s.slot slot).races p (r.meet among c.1.toNat) } : Slot).ordered among p w.1 := by
          refine .inr ⟨_, tfind_tput_self _ _ _, ?_, ?_⟩
          · rw [hws]; exact ⟨_, List.mem_cons_self, hmm⟩
          · rw [hws]
            intro u hu hn
            rcases List.mem_cons.1 hu with rfl | hu
            · rfl
            · exact absurd (hrest u hu) hn
        split
        · rename_i x heq
          rw [hws] at heq
          obtain ⟨rfl, -⟩ := List.cons.inj heq
          split
          · exact .inl ⟨tfind_tdel_self _ _, tget_tset_self _ _ _ _⟩
          · exact put
        · exact put
    refine ⟨?_, ?_, fun hn => by rw [h] at hn; cases hn⟩
    · split
      · exact (key _ (by rfl)).1
      · exact (key (0, s) rfl).1
    · split
      · exact (key _ (by rfl)).2
      · exact (key (0, s) rfl).2

/-- A common `fbar` of the fibres of a mask leaves each shared entry that one of them has written in order for them, at a value that one
of them saw (R25). -/
theorem State.order_spec (s : State) (slot among q : Nat) (r : Race) (hr : tfind (s.slot slot).races q = some r) (hw : ∃ w ∈ r.ws, w.2 &&& among ≠ 0) :
    ∃ w ∈ r.ws, w.2 &&& among ≠ 0 ∧ ((s.order slot among).slot slot).ordered among q w.1 := by
  have again (x : Slot) (v : W32) (t : State) (p : Nat) (ht : t.slot slot = x) (h : x.ordered among q v) : ((t.orderAt slot among p).slot slot).ordered among q v := by
    subst ht
    have hp := State.orderAt_spec t slot among p q
    by_cases hq : q = p
    · subst hq
      rcases h with ⟨h1, h2⟩ | ⟨r', h1, h2, h3⟩
      · rw [hp.2.2 h1]; exact .inl ⟨h1, h2⟩
      · obtain ⟨w, hin, hm, ho⟩ := hp.2.1 r' h1 h2
        rw [h3 w hin hm] at ho
        exact ho
    · have := hp.1 hq
      unfold Slot.ordered
      rw [this.1, this.2]
      exact h
  have gen : ∀ (ks : List Nat) (t : State),
      ((∃ w ∈ r.ws, w.2 &&& among ≠ 0 ∧ (t.slot slot).ordered among q w.1) ∨ (tfind (t.slot slot).races q = some r ∧ q ∈ ks)) →
      ∃ w ∈ r.ws, w.2 &&& among ≠ 0 ∧ ((ks.foldl (fun s q => s.orderAt slot among q) t).slot slot).ordered among q w.1 := by
    intro ks
    induction ks with
    | nil => exact fun t h => h.resolve_right (fun h => by simp at h)
    | cons p l ih =>
      intro t h
      refine ih _ ?_
      rcases h with ⟨w, hin, hm, ho⟩ | ⟨h1, h2⟩
      · exact .inl ⟨w, hin, hm, again _ _ t p rfl ho⟩
      · by_cases hq : q = p
        · subst hq
          exact .inl ((State.orderAt_spec t slot among q q).2.1 r h1 hw)
        · refine .inr ⟨?_, (List.mem_cons.1 h2).resolve_left hq⟩
          rw [((State.orderAt_spec t slot among p q).1 hq).1]
          exact h1
  exact gen _ s (.inr ⟨hr, List.mem_map.2 ⟨(q, r), tfind_mem _ _ _ hr, rfl⟩⟩)

end Sys2Proof.Machine
end

