-- ==== Sys2Proof/Laws/Words.lean ====
section
/-! SUPPORT. Fields and words: each format's word has its fields where the decoder reads them, and no other bit. -/

namespace Sys2Proof

/-- The field of n bits at bit lo of two appended words, from the low one, and from the high one. -/
theorem extract_append_low {a b : Nat} (x : BitVec a) (y : BitVec b) (lo n : Nat) (h : lo + n ≤ b) :
    (x ++ y).extractLsb' lo n = y.extractLsb' lo n := by
  ext i hi
  simp only [BitVec.getElem_extractLsb', BitVec.getLsbD_append]
  rw [if_pos (by omega)]

theorem extract_append_high {a b : Nat} (x : BitVec a) (y : BitVec b) (lo n : Nat) (h : b ≤ lo) :
    (x ++ y).extractLsb' lo n = x.extractLsb' (lo - b) n := by
  ext i hi
  simp only [BitVec.getElem_extractLsb', BitVec.getLsbD_append]
  rw [if_neg (by omega)]
  congr 1
  omega

theorem extract_whole {n : Nat} (x : BitVec n) : x.extractLsb' 0 n = x := by
  ext i hi
  simp

theorem bit_append_low {a b : Nat} (x : BitVec a) (y : BitVec b) (i : Nat) (h : i < b) : (x ++ y).getLsbD i = y.getLsbD i := by
  rw [BitVec.getLsbD_append, if_pos h]

theorem bit_append_high {a b : Nat} (x : BitVec a) (y : BitVec b) (i : Nat) (h : b ≤ i) : (x ++ y).getLsbD i = x.getLsbD (i - b) := by
  rw [BitVec.getLsbD_append, if_neg (by omega)]

theorem bit_ofBool (x : Bool) : (BitVec.ofBool x).getLsbD 0 = x := by cases x <;> rfl

/-- A bit as a field of one bit. -/
theorem ofBool_bit {n : Nat} (w : BitVec n) (i : Nat) : BitVec.ofBool (w.getLsbD i) = w.extractLsb' i 1 := by
  ext j hj
  have : j = 0 := by omega
  subst this
  simp

/-- Two adjacent fields of a word are one. -/
theorem extract_join {n : Nat} (w : BitVec n) (hi lo a b : Nat) (h : hi = lo + b) :
    w.extractLsb' hi a ++ w.extractLsb' lo b = w.extractLsb' lo (a + b) := by
  subst h
  ext i hi
  rw [← BitVec.getLsbD_eq_getElem, BitVec.getLsbD_append]
  simp only [BitVec.getElem_extractLsb', BitVec.getLsbD_extractLsb']
  split
  · simp [*]
  · have h1 : i - b < a := by omega
    have h2 : lo + b + (i - b) = lo + i := by omega
    simp [h1, h2]

theorem V3.ofWord_toWord (op : BitVec 8) (f : V3) : V3.ofWord (f.toWord op) = f := by
  obtain ⟨⟨_, _, _, _, _⟩, _, _, _, _, _, _, _, _, _, _⟩ := f
  simp (disch := omega) only [V3.ofWord, V3.toWord, Head.ofWord, Head.toWord, extract_append_low, extract_append_high, extract_whole, bit_append_low, bit_append_high,
    Nat.reduceSub, bit_ofBool]

theorem V3.opOf_toWord (op : BitVec 8) (f : V3) : opOf (f.toWord op) = op.toNat := by
  simp (disch := omega) only [opOf, V3.toWord, extract_append_high, Nat.reduceSub, extract_whole]

theorem V3.toWord_ofWord (op : BitVec 8) (w : W64) (h : opOf w = op.toNat) : (V3.ofWord w).toWord op = w := by
  have ho : op = w.extractLsb' 56 8 := BitVec.eq_of_toNat_eq h.symm
  subst ho
  simp (disch := omega) only [V3.ofWord, V3.toWord, Head.ofWord, Head.toWord, ofBool_bit, extract_join]
  exact extract_whole w

theorem VI.ofWord_toWord (op : BitVec 8) (f : VI) : VI.ofWord (f.toWord op) = f := by
  obtain ⟨_, _, _, _, _, _, _, _⟩ := f
  simp (disch := omega) only [VI.ofWord, VI.toWord, extract_append_low, extract_append_high, extract_whole, bit_append_low, bit_append_high,
    Nat.reduceSub, bit_ofBool]

theorem VI.opOf_toWord (op : BitVec 8) (f : VI) : opOf (f.toWord op) = op.toNat := by
  simp (disch := omega) only [opOf, VI.toWord, extract_append_high, Nat.reduceSub, extract_whole]

theorem VI.toWord_ofWord (op : BitVec 8) (w : W64) (h : opOf w = op.toNat) : (VI.ofWord w).toWord op = w := by
  have ho : op = w.extractLsb' 56 8 := BitVec.eq_of_toNat_eq h.symm
  subst ho
  simp (disch := omega) only [VI.ofWord, VI.toWord, ofBool_bit, extract_join]
  exact extract_whole w

theorem FM.ofWord_toWord (op : BitVec 8) (f : FM) : FM.ofWord (f.toWord op) = f := by
  obtain ⟨⟨_, _, _, _, _⟩, _, _, _, _, _, _, _, _, _, _⟩ := f
  simp (disch := omega) only [FM.ofWord, FM.toWord, Head.ofWord, Head.toWord, extract_append_low, extract_append_high, extract_whole, bit_append_low, bit_append_high,
    Nat.reduceSub, bit_ofBool]

theorem FM.opOf_toWord (op : BitVec 8) (f : FM) : opOf (f.toWord op) = op.toNat := by
  simp (disch := omega) only [opOf, FM.toWord, extract_append_high, Nat.reduceSub, extract_whole]

theorem FM.toWord_ofWord (op : BitVec 8) (w : W64) (h : opOf w = op.toNat) : (FM.ofWord w).toWord op = w := by
  have ho : op = w.extractLsb' 56 8 := BitVec.eq_of_toNat_eq h.symm
  subst ho
  simp (disch := omega) only [FM.ofWord, FM.toWord, Head.ofWord, Head.toWord, ofBool_bit, extract_join]
  exact extract_whole w

theorem FX.ofWord_toWord (op : BitVec 8) (f : FX) : FX.ofWord (f.toWord op) = f := by
  obtain ⟨⟨_, _, _, _, _⟩, _, _, _, _, _, _, _, _, _⟩ := f
  simp (disch := omega) only [FX.ofWord, FX.toWord, Head.ofWord, Head.toWord, extract_append_low, extract_append_high, extract_whole, bit_append_low, bit_append_high,
    Nat.reduceSub, bit_ofBool]

theorem FX.opOf_toWord (op : BitVec 8) (f : FX) : opOf (f.toWord op) = op.toNat := by
  simp (disch := omega) only [opOf, FX.toWord, extract_append_high, Nat.reduceSub, extract_whole]

theorem FX.toWord_ofWord (op : BitVec 8) (w : W64) (h : opOf w = op.toNat) : (FX.ofWord w).toWord op = w := by
  have ho : op = w.extractLsb' 56 8 := BitVec.eq_of_toNat_eq h.symm
  subst ho
  simp (disch := omega) only [FX.ofWord, FX.toWord, Head.ofWord, Head.toWord, ofBool_bit, extract_join]
  exact extract_whole w

theorem FC.ofWord_toWord (op : BitVec 8) (f : FC) : FC.ofWord (f.toWord op) = f := by
  obtain ⟨⟨_, _, _, _, _⟩, _, _, _⟩ := f
  simp (disch := omega) only [FC.ofWord, FC.toWord, Head.ofWord, Head.toWord, extract_append_low, extract_append_high, extract_whole, bit_append_low, bit_append_high,
    Nat.reduceSub, bit_ofBool]

theorem FC.opOf_toWord (op : BitVec 8) (f : FC) : opOf (f.toWord op) = op.toNat := by
  simp (disch := omega) only [opOf, FC.toWord, extract_append_high, Nat.reduceSub, extract_whole]

theorem FC.toWord_ofWord (op : BitVec 8) (w : W64) (h : opOf w = op.toNat) : (FC.ofWord w).toWord op = w := by
  have ho : op = w.extractLsb' 56 8 := BitVec.eq_of_toNat_eq h.symm
  subst ho
  simp (disch := omega) only [FC.ofWord, FC.toWord, Head.ofWord, Head.toWord, ofBool_bit, extract_join]
  exact extract_whole w

theorem FQ.ofWord_toWord (op : BitVec 8) (f : FQ) : FQ.ofWord (f.toWord op) = f := by
  obtain ⟨⟨_, _, _, _, _⟩, _, _, _, _, _⟩ := f
  simp (disch := omega) only [FQ.ofWord, FQ.toWord, Head.ofWord, Head.toWord, extract_append_low, extract_append_high, extract_whole, bit_append_low, bit_append_high,
    Nat.reduceSub, bit_ofBool]

theorem FQ.opOf_toWord (op : BitVec 8) (f : FQ) : opOf (f.toWord op) = op.toNat := by
  simp (disch := omega) only [opOf, FQ.toWord, extract_append_high, Nat.reduceSub, extract_whole]

theorem FQ.toWord_ofWord (op : BitVec 8) (w : W64) (h : opOf w = op.toNat) : (FQ.ofWord w).toWord op = w := by
  have ho : op = w.extractLsb' 56 8 := BitVec.eq_of_toNat_eq h.symm
  subst ho
  simp (disch := omega) only [FQ.ofWord, FQ.toWord, Head.ofWord, Head.toWord, ofBool_bit, extract_join]
  exact extract_whole w

theorem FY.ofWord_toWord (op : BitVec 8) (f : FY) : FY.ofWord (f.toWord op) = f := by
  obtain ⟨⟨_, _, _, _, _⟩, _, _, _, _, _⟩ := f
  simp (disch := omega) only [FY.ofWord, FY.toWord, Head.ofWord, Head.toWord, extract_append_low, extract_append_high, extract_whole, bit_append_low, bit_append_high,
    Nat.reduceSub, bit_ofBool]

theorem FY.opOf_toWord (op : BitVec 8) (f : FY) : opOf (f.toWord op) = op.toNat := by
  simp (disch := omega) only [opOf, FY.toWord, extract_append_high, Nat.reduceSub, extract_whole]

theorem FY.toWord_ofWord (op : BitVec 8) (w : W64) (h : opOf w = op.toNat) : (FY.ofWord w).toWord op = w := by
  have ho : op = w.extractLsb' 56 8 := BitVec.eq_of_toNat_eq h.symm
  subst ho
  simp (disch := omega) only [FY.ofWord, FY.toWord, Head.ofWord, Head.toWord, ofBool_bit, extract_join]
  exact extract_whole w

theorem FP.ofWord_toWord (f : FP) : FP.ofWord f.toWord = f := by
  obtain ⟨_, _, _, _, _, _, _, _, _, _, _, _⟩ := f
  simp (disch := omega) only [FP.ofWord, FP.toWord, extract_append_low, extract_append_high, extract_whole, bit_append_low, bit_append_high,
    Nat.reduceSub, bit_ofBool]

theorem FP.toWord_ofWord (w : W64) : (FP.ofWord w).toWord = w := by
  simp (disch := omega) only [FP.ofWord, FP.toWord, ofBool_bit, extract_join]
  exact extract_whole w

theorem Hdr.ofWord_toWord (f : Hdr) : Hdr.ofWord f.toWord = f := by
  obtain ⟨_, _, _, _, _, _, _⟩ := f
  simp (disch := omega) only [Hdr.ofWord, Hdr.toWord, extract_append_low, extract_append_high, extract_whole, bit_append_low, bit_append_high,
    Nat.reduceSub, bit_ofBool]

theorem Hdr.toWord_ofWord (w : W64) : (Hdr.ofWord w).toWord = w := by
  simp (disch := omega) only [Hdr.ofWord, Hdr.toWord, ofBool_bit, extract_join]
  exact extract_whole w

end Sys2Proof
end

