-- ==== Sys2Proof/Machine/AsmText.lean ====
section
/-! DEFINITION. The text that `lomas` reads, up to its expressions (R90 to R92): lines, names, register names, literals and
expressions with at most one symbol that is not placed. A source is a String, so that it is UTF-8 text. -/

namespace Sys2Proof.Asm

/-- The errors of R120. A line that has several is refused with the first that is met from left to right. -/
inductive Err where
  | syntax_ | unknownMnemonic | unknownSuffix | noField | fieldRange | fieldTwice | illegalForm | operands | immRange | offRange
  | target | notPairable | clauseClass | clauseFull | clauseEmpty | labelInClause | alignInClause | ephPlace | dataInText
  | badSection | regName | redefined | undefined | relocForm | outOfKernel | kernelNest | descLimit
  deriving DecidableEq, Repr

/-! Characters, names and literals (R91, R92). -/

def inRange (lo hi c : Char) : Bool := lo.toNat ≤ c.toNat && c.toNat ≤ hi.toNat
def isDigit (c : Char) : Bool := inRange '0' '9' c
def isStart (c : Char) : Bool := inRange 'a' 'z' c || inRange 'A' 'Z' c || c = '_'
def isPart (c : Char) : Bool := isStart c || isDigit c || c = '$'
def isBlank (c : Char) : Bool := c = ' ' || c = '\t' || c = '\r'

def trimLeft (t : List Char) : List Char := t.dropWhile isBlank
def trim (t : List Char) : List Char := (trimLeft (trimLeft t).reverse).reverse

/-- A decimal number. -/
def decimal (t : List Char) : Option Nat :=
  if t.isEmpty then none else t.foldl (fun n c => match n with
    | some n => if isDigit c then some (10 * n + (c.toNat - 48)) else none
    | none => none) (some 0)

/-- How many registers a kind has (R23, R91). -/
def kindSize (c : Char) : Nat :=
  match c with
  | 'v' | 'k' => 64 | 's' => 32 | 'q' | 'o' => 16 | 'p' | 'g' | 'd' | 'a' | 'l' => 8 | _ => 0

/-- A register name of R23. -/
def regName (t : List Char) : Option (Char × Nat) :=
  match t with
  | c :: ds => match decimal ds with
    | some n => if n < kindSize c && (ds.length = 1 || ds.head? != some '0') then some (c, n) else none
    | none => none
  | [] => none

/-- A name that a symbol may bear, but for the names of registers (R91). -/
def nameOk (t : List Char) : Bool :=
  match t with
  | c :: r => isStart c && r.all isPart && t.length ≤ 255
  | [] => false

def digitOf (c : Char) : Nat :=
  if isDigit c then c.toNat - 48 else if inRange 'a' 'f' c then c.toNat - 87 else if inRange 'A' 'F' c then c.toNat - 55 else 99

def inBase (b : Nat) (t : List Char) : Option Nat :=
  if t.isEmpty then none else t.foldl (fun n c => match n with
    | some n => if digitOf c < b then some (b * n + digitOf c) else none
    | none => none) (some 0)

/-- An integer literal: decimal, hexadecimal or binary, with underscores between digits (R92). -/
def intLit (t : List Char) : Option Nat :=
  match t with
  | '0' :: 'x' :: r => inBase 16 (r.filter (· != '_'))
  | '0' :: 'b' :: r => inBase 2 (r.filter (· != '_'))
  | c :: _ => if isDigit c then inBase 10 (t.filter (· != '_')) else none
  | [] => none

/-- A float literal without its sign, as m × 10^e: digits with a point, an exponent or both (R92). -/
def floatLit (t : List Char) : Option (Nat × Int) :=
  let body := t.takeWhile (fun c => c != 'e')
  let expo := t.drop body.length
  let whole := body.takeWhile isDigit
  let rest := body.drop whole.length
  let frac : Option (List Char) := match rest with
    | [] => if expo.isEmpty then none else some []
    | '.' :: r => if r.all isDigit then some r else none
    | _ => none
  let e : Option Int := match expo with
    | [] => some 0
    | _ :: '-' :: r => (decimal r).map (fun n => -(n : Int))
    | _ :: '+' :: r => (decimal r).map (fun n => (n : Int))
    | _ :: r => (decimal r).map (fun n => (n : Int))
  match frac, e with
  | some f, some e => (decimal (whole ++ f)).map (fun m => (m, e - (f.length : Int)))
  | _, _ => none

/-- A literal's value in a format, by rne (R100, R114): a power of ten below one leaves a sticky bit under a quotient of more bits than any
format has. -/
def floatBits (f : Machine.Fmt) (neg : Bool) (m : Nat) (e : Int) : Nat :=
  if 0 ≤ e then f.round 0 (.num neg (m * 10 ^ e.toNat) 0)
  else
    let q := 10 ^ e.natAbs
    let k := 4 * e.natAbs + 256
    let n := m * 2 ^ k
    f.round 0 (.num neg (2 * (n / q) + (if n % q = 0 then 0 else 1)) (-((k : Int) + 1)))

/-- A float literal with its sign. -/
def signedFloat (t : List Char) : Option (Bool × Nat × Int) :=
  match trim t with
  | '-' :: r => (floatLit (trim r)).map (fun x => (true, x))
  | r => (floatLit r).map (fun x => (false, x))

/-! Expressions (R92). -/

/-- The value of an expression: a number, or a number added to a symbol that is not placed, with −1 or 1 times the address of the statement,
or one half of such a sum. -/
structure Val where
  sym  : Option String
  here : Int
  half : Option Bool
  c    : W64
  deriving DecidableEq, Repr

def Val.ofNum (c : W64) : Val := { sym := none, here := 0, half := none, c := c }
def Val.plain (v : Val) : Bool := v.sym.isNone && v.here = 0 && v.half.isNone

/-- What an expression is read in: the symbols that are placed, which are those that an `.equ` has defined (log entry 78), and the address of
the statement, from the start of its section. -/
structure Env where
  syms : List (String × W64)
  here : W64
  deriving DecidableEq, Repr

/-- Without a symbol that is not placed, the address of the statement is a number. -/
def Val.settle (v : Val) (env : Env) : Val :=
  if v.sym.isNone && v.half.isNone then Val.ofNum (v.c + BitVec.ofInt 64 v.here * env.here) else v

/-- A value that must be a number (R92, R115). -/
def Val.num (v : Val) : Except Err Int := if v.plain then .ok v.c.toInt else .error .relocForm

inductive Op where
  | add | sub | mul | div | rem | shl | shr | band | bxor | bor | neg | inv
  deriving DecidableEq, Repr

/-- The precedence of C. -/
def Op.prec : Op → Nat
  | .bor => 1 | .bxor => 2 | .band => 3 | .shl | .shr => 4 | .add | .sub => 5 | .mul | .div | .rem => 6 | .neg | .inv => 7

/-- An operation on two numbers, in 64-bit two's complement; / and % truncate towards zero (log entry 78: a division by zero is refused,
and >> shifts the sign in). -/
def Op.compute (o : Op) (a b : W64) : Except Err W64 :=
  match o with
  | .add => .ok (a + b)
  | .sub => .ok (a - b)
  | .mul => .ok (a * b)
  | .div => if b = 0 then .error .immRange else .ok (a.sdiv b)
  | .rem => if b = 0 then .error .immRange else .ok (a.srem b)
  | .shl => .ok (a <<< b.toNat)
  | .shr => .ok (a.sshiftRight b.toNat)
  | .band => .ok (a &&& b)
  | .bxor => .ok (a ^^^ b)
  | .bor => .ok (a ||| b)
  | .neg => .ok (-b)
  | .inv => .ok (~~~b)

/-- An operation on two values: a symbol may only be added to, and the statement's address only subtracted from it (R115). -/
def Op.apply (env : Env) (o : Op) (a b : Val) : Except Err Val :=
  if (a.settle env).plain && (b.settle env).plain && !(o = .add || o = .sub || o = .neg) then
    (o.compute (a.settle env).c (b.settle env).c).map Val.ofNum
  else if a.half.isSome || b.half.isSome then .error .relocForm
  else match o with
  | .add =>
    if a.sym.isSome && b.sym.isSome then .error .relocForm
    else .ok { sym := a.sym.or b.sym, here := a.here + b.here, half := none, c := a.c + b.c }
  | .sub => if b.sym.isSome then .error .relocForm else .ok { a with here := a.here - b.here, c := a.c - b.c }
  | .neg => if b.sym.isSome then .error .relocForm else .ok { b with here := -b.here, c := -b.c }
  | _ => .error .relocForm

inductive Tok where
  | num (n : Nat) | name (t : List Char) | here | op (o : Op) | open_ | close | half (hi : Bool)
  deriving DecidableEq, Repr

/-- The tokens of an expression. -/
def lexExpr : Nat → List Char → Option (List Tok)
  | 0, _ => none
  | fuel + 1, t =>
    match t with
    | [] => some []
    | '<' :: '<' :: r => (lexExpr fuel r).map (.op .shl :: ·)
    | '>' :: '>' :: r => (lexExpr fuel r).map (.op .shr :: ·)
    | 'l' :: 'o' :: '(' :: r => (lexExpr fuel r).map (.half false :: ·)
    | 'h' :: 'i' :: '(' :: r => (lexExpr fuel r).map (.half true :: ·)
    | c :: r =>
      if isBlank c then lexExpr fuel r
      else if isDigit c then
        let w := t.takeWhile (fun x => isPart x && x != '$')
        match intLit w with
        | some n => (lexExpr fuel (t.drop w.length)).map (.num n :: ·)
        | none => none
      else if isStart c then
        let w := t.takeWhile isPart
        (lexExpr fuel (t.drop w.length)).map (.name w :: ·)
      else
        let tok : Option Tok := match c with
          | '+' => some (.op .add) | '-' => some (.op .sub) | '*' => some (.op .mul) | '/' => some (.op .div) | '%' => some (.op .rem)
          | '&' => some (.op .band) | '^' => some (.op .bxor) | '|' => some (.op .bor) | '~' => some (.op .inv)
          | '(' => some .open_ | ')' => some .close | '.' => some .here | _ => none
        match tok with
        | some k => (lexExpr fuel r).map (k :: ·)
        | none => none

/-- What waits on the operator stack: an operator, a parenthesis, or `lo(` and `hi(`. -/
inductive Wait where
  | op (o : Op) | par (half : Option Bool)
  deriving DecidableEq, Repr

structure Stacks where
  vals : List Val
  ops  : List Wait
  deriving DecidableEq, Repr

/-- Perform the operator on top. -/
def reduceTop (env : Env) (o : Op) (s : Stacks) : Except Err Stacks :=
  match o, s.vals with
  | .neg, b :: r | .inv, b :: r => match o.apply env (Val.ofNum 0) b with
    | .ok v => .ok { s with vals := v :: r }
    | .error e => .error e
  | _, b :: a :: r => match o.apply env a b with
    | .ok v => .ok { s with vals := v :: r }
    | .error e => .error e
  | _, _ => .error .syntax_

/-- Perform the waiting operators that bind at least as tightly as p. -/
def reduceTo (env : Env) (p : Nat) (vals : List Val) : List Wait → Except Err Stacks
  | .op o :: r => if p ≤ o.prec then
      match reduceTop env o { vals := vals, ops := r } with
      | .ok s => reduceTo env p s.vals r
      | .error e => .error e
    else .ok { vals := vals, ops := .op o :: r }
  | ops => .ok { vals := vals, ops := ops }

/-- `lo` and `hi` of a value: bits [31:0] and [63:32]. -/
def halfOf (env : Env) (h : Option Bool) (v : Val) : Except Err Val :=
  let v := v.settle env
  match h with
  | none => .ok v
  | some hi =>
    if v.plain then .ok (Val.ofNum (if hi then (v.c >>> 32) else v.c &&& 0xFFFFFFFF))
    else if v.half.isNone && v.here = 0 then .ok { v with half := some hi }
    else .error .relocForm

/-- Evaluate tokens; `want` says that an operand comes next. -/
def evalToks (env : Env) : List Tok → Bool → Stacks → Except Err Val
  | [], want, s =>
    if want then .error .syntax_ else
    match reduceTo env 0 s.vals s.ops with
    | .ok { vals := [v], ops := [] } => .ok v
    | .ok _ => .error .syntax_
    | .error e => .error e
  | t :: r, true, s =>
    match t with
    | .num n => if n < 2 ^ 64 then evalToks env r false { s with vals := Val.ofNum (BitVec.ofNat 64 n) :: s.vals } else .error .immRange
    | .name w =>
      let n := String.ofList w
      if (regName w).isSome then .error .regName
      else evalToks env r false { s with vals := (match env.syms.lookup n with
        | some x => Val.ofNum x
        | none => { sym := some n, here := 0, half := none, c := 0 }) :: s.vals }
    | .here => evalToks env r false { s with vals := { sym := none, here := 1, half := none, c := 0 } :: s.vals }
    | .op .sub => evalToks env r true { s with ops := .op .neg :: s.ops }
    | .op .inv => evalToks env r true { s with ops := .op .inv :: s.ops }
    | .open_ => evalToks env r true { s with ops := .par none :: s.ops }
    | .half h => evalToks env r true { s with ops := .par (some h) :: s.ops }
    | _ => .error .syntax_
  | t :: r, false, s =>
    match t with
    | .op .inv => .error .syntax_
    | .op o =>
      match reduceTo env o.prec s.vals s.ops with
      | .ok s => evalToks env r true { s with ops := .op o :: s.ops }
      | .error e => .error e
    | .close =>
      match reduceTo env 0 s.vals s.ops with
      | .ok { vals := v :: vs, ops := .par h :: os } =>
        match halfOf env h v with
        | .ok v => evalToks env r false { vals := v :: vs, ops := os }
        | .error e => .error e
      | .ok _ => .error .syntax_
      | .error e => .error e
    | _ => .error .syntax_

/-- The value of an expression. -/
def evalExpr (env : Env) (t : List Char) : Except Err Val :=
  match lexExpr (t.length + 1) t with
  | some ts => (evalToks env ts true { vals := [], ops := [] }).map (·.settle env)
  | none => .error .syntax_

/-- An expression that must be a number. -/
def evalNum (env : Env) (t : List Char) : Except Err Int :=
  match evalExpr env t with
  | .ok v => v.num
  | .error e => .error e

/-- A number within bounds. -/
def evalIn (env : Env) (lo hi : Int) (t : List Char) : Except Err Int :=
  match evalNum env t with
  | .ok n => if lo ≤ n && n ≤ hi then .ok n else .error .immRange
  | .error e => .error e

/-! Lines (R90). -/

/-- A line without its comment. -/
def uncomment : List Char → List Char
  | '/' :: '/' :: _ => []
  | c :: r => c :: uncomment r
  | [] => []

/-- The parts of a text between separators that stand outside parentheses and brackets. -/
def splitTop (sep : Char) : Nat → List Char → List Char → List (List Char)
  | _, cur, [] => [cur.reverse]
  | d, cur, c :: r =>
    if c = sep && d = 0 then cur.reverse :: splitTop sep 0 [] r
    else splitTop sep (if c = '(' || c = '[' then d + 1 else if c = ')' || c = ']' then d - 1 else d) (c :: cur) r

/-- The lines of a source. -/
def linesOf (cur : List Char) : List Char → List (List Char)
  | [] => [cur.reverse]
  | c :: r => if c = '\n' then cur.reverse :: linesOf [] r else linesOf (c :: cur) r

/-- The first word of a text, and what follows it. -/
def firstWord (t : List Char) : List Char × List Char :=
  let t := trimLeft t
  let w := t.takeWhile (fun c => !isBlank c)
  (w, trim (t.drop w.length))

/-- A label at the start of a line, and the statement after it. -/
def takeLabel (t : List Char) : Option (List Char) × List Char :=
  let t := trim t
  let w := t.takeWhile isPart
  match t.drop w.length with
  | ':' :: r => if w.isEmpty then (none, t) else (some w, trim r)
  | _ => (none, t)

/-- The halves of a statement at `||` between blanks (R104). -/
def splitPair (cur : List Char) : List Char → Option (List Char × List Char)
  | b :: '|' :: '|' :: c :: r => if isBlank b && isBlank c then some (cur.reverse, r) else splitPair (b :: cur) ('|' :: '|' :: c :: r)
  | c :: r => splitPair (c :: cur) r
  | [] => none

/-- A list of operands: none for an empty text. -/
def operandList (t : List Char) : List (List Char) := if (trim t).isEmpty then [] else (splitTop ',' 0 [] t).map trim

end Sys2Proof.Asm
end

