-- ==== Sys2Proof/Machine/AsmWord.lean ====
section
/-! DEFINITION. The words that `lomas` writes (R93 to R104): mnemonics with the operands that each entry gives them, suffixes, fields, and
pairs. A statement becomes a word with the registers that it reads and writes, and with what is to be filled in once labels stand. -/

namespace Sys2Proof.Asm

/-! Fields of the formats (R65, R71 to R80). -/

inductive Form where
  | v3 | vi | m | mx | c | q | y
  deriving DecidableEq, Repr

/-- A field of a word: its name, lowest bit and width. -/
structure Field where
  name  : String
  lo    : Nat
  width : Nat
  deriving DecidableEq, Repr

def headFields : List Field := [⟨"OP", 56, 8⟩, ⟨"SOS", 55, 1⟩, ⟨"GN", 54, 1⟩, ⟨"GP", 51, 3⟩, ⟨"LA", 47, 4⟩, ⟨"TOK", 44, 3⟩]

/-- The fields of a format. SAT is bit 12 of MODE in V3, and RND stands for MODE where a rounding mode is named. -/
def Form.fields : Form → List Field
  | .v3 => headFields ++ [⟨"D", 38, 6⟩, ⟨"A", 32, 6⟩, ⟨"B", 26, 6⟩, ⟨"C", 20, 6⟩, ⟨"TY", 15, 5⟩, ⟨"MODE", 12, 3⟩, ⟨"RND", 12, 3⟩,
      ⟨"SAT", 12, 1⟩, ⟨"MOD", 8, 4⟩, ⟨"Z", 7, 1⟩, ⟨"BSEL", 5, 2⟩, ⟨"SUB", 0, 5⟩]
  | .vi => headFields.take 4 ++ [⟨"TY", 46, 5⟩, ⟨"MODE", 44, 2⟩, ⟨"D", 38, 6⟩, ⟨"A", 32, 6⟩, ⟨"IMM", 0, 32⟩]
  | .m => headFields ++ [⟨"D", 38, 6⟩, ⟨"A", 32, 6⟩, ⟨"B", 26, 6⟩, ⟨"TY", 21, 5⟩, ⟨"SCOPE", 18, 3⟩, ⟨"STR", 17, 1⟩, ⟨"SPACE", 15, 2⟩,
      ⟨"CNT", 13, 2⟩, ⟨"ABASE", 11, 2⟩, ⟨"OFF", 0, 11⟩]
  | .mx => headFields ++ [⟨"ACC", 41, 3⟩, ⟨"OBH", 37, 4⟩, ⟨"BV", 31, 6⟩, ⟨"G", 28, 3⟩, ⟨"TYA", 23, 5⟩, ⟨"TYB", 18, 5⟩, ⟨"CK", 17, 1⟩,
      ⟨"CLR", 16, 1⟩, ⟨"OBOFF", 0, 16⟩]
  | .c => headFields ++ [⟨"A", 38, 6⟩, ⟨"B", 32, 6⟩, ⟨"TGT", 0, 32⟩]
  | .q => headFields ++ [⟨"Q", 40, 4⟩, ⟨"A", 34, 6⟩, ⟨"B", 28, 6⟩, ⟨"C", 22, 6⟩]
  | .y => headFields ++ [⟨"D", 38, 6⟩, ⟨"A", 32, 6⟩, ⟨"B", 26, 6⟩, ⟨"SYSNUM", 14, 12⟩, ⟨"SUB", 0, 14⟩]

/-- A value of a field that a suffix names (R93). -/
structure Enum where
  suffix : String
  field  : String
  val    : Nat
  deriving DecidableEq, Repr

def enums (field : String) (names : List String) : List Enum := names.mapIdx (fun i n => ⟨n, field, i⟩)

/-- The codes of TY (R73). -/
def typeNames : List String :=
  ["i8", "n8", "i16", "n16", "i32", "n32", "i64", "n64", "f16", "bf16", "f32", "f64", "f8a", "f8b", "i16x2", "n16x2", "i8x4", "n8x4",
   "f16x2", "bf16x2", "bfp2", "bfp3", "bfp4", "bfp5", "bfp6", "bfp7", "bfp8"]
def scopeNames : List String := ["fib", "slt", "wg", "clu", "die", "dev", "pod", "sys"]
def condNames : List String := ["eq", "ne", "lt", "le", "gt", "ge", "ord", "uno", "equ", "ltu", "leu", "gtu", "geu", "neo"]
def roundNames : List String := ["rne", "rz", "ru", "rd", "rna"]
def foldNames : List String := ["add", "min", "max", "and", "or", "xor"]

/-- The enumerators of a format (R93). -/
def Form.enums : Form → List Enum
  | .v3 => Asm.enums "TY" typeNames ++ Asm.enums "RND" roundNames ++ [⟨"rn", "RND", 0⟩, ⟨"sat", "SAT", 1⟩, ⟨"z", "Z", 1⟩]
  | .vi => Asm.enums "TY" typeNames
  | .m => Asm.enums "TY" typeNames ++ Asm.enums "SCOPE" scopeNames ++ Asm.enums "STR" ["weak", "strong"]
      ++ Asm.enums "SPACE" ["glob", "scr", "obuf"] ++ Asm.enums "CNT" ["x1", "x2", "x4", "x8"]
  | .mx => [⟨"ck", "CK", 1⟩, ⟨"clr", "CLR", 1⟩]
  | .c => []
  | .q => []
  | .y => []

/-! Operands (R97 to R102). -/

/-- The registers that an operand names: one; a pair where the word's type has 64 bits, by TY or, for the source of a conversion, by SUB; n
registers; 2^CNT registers. -/
inductive Span where
  | one | ty | src | run (n : Nat) | cnt
  deriving DecidableEq, Repr

inductive Use where
  | r | w | rw
  deriving DecidableEq, Repr

/-- An operand. -/
inductive Opd where
  | v (field : String) (use : Use) (span : Span)
  | sreg (field : String) (use : Use) (span : Span)     -- s0 to s31
  | ssrc (field : String) (span : Span)                 -- s0 to s31, or k0 to k31
  | kreg (field : String)                               -- k0 to k63
  | bsel (span : Span)                                  -- the B operand of V3 (R98)
  | reg (kind : Char) (field : String) (use : Use)      -- p, q, g, a, o or l
  | mem (scalar : Bool) (second : Bool)                 -- a memory operand; [sA + off] alone; with a second datum in B
  | num (field : String) (lo hi : Int) (unit : Int)
  | width                                               -- a power of two, by its logarithm (R269)
  | inc                                                 -- an increment: a scalar source or a literal (R361)
  | imm                                                 -- the immediate of VI (R100)
  | target                                              -- a control target (R102)
  | tokens                                              -- the tokens of `wait` (R174)
  | oboff
  | sysname                                             -- a system register by name (R148)
  deriving DecidableEq, Repr

/-- Whether an operand is an expression, so that a register in its place is of the wrong kind (R97). -/
def Opd.isExpr : Opd → Bool
  | .num .. | .width | .imm | .target | .oboff => true
  | _ => false

/-- How MODE is read: not at all, as SAT, as a rounding mode, or by the types (R71, R217, R230, R242). -/
inductive Mode where
  | none | sat | rnd | byTy | byBoth
  deriving DecidableEq, Repr

/-- What a mnemonic's entry says: its format; further fields and enumerators; how MODE is read; whether it uses SCOPE; which source operands
take modifiers; and its lists of operands, each with the values of fields under which it is meant. -/
structure Row where
  form   : Form
  forms  : List (List (String × Nat) × List Opd)
  fields : List Field := []
  enums  : List Enum := []
  mode   : Mode := .none
  scope  : Bool := false
  mods   : Bool := false
  deriving Repr

def vD : Opd := .v "D" .w .ty
def vA : Opd := .v "A" .r .ty
def vC : Opd := .v "C" .r .ty
def bV : Opd := .bsel .ty
def bN : Opd := .bsel .one
def sD : Opd := .sreg "D" .w .one
def sA : Opd := .ssrc "A" .one
def sB : Opd := .ssrc "B" .one
def sC : Opd := .ssrc "C" .one
def pD : Opd := .reg 'p' "D" .w
def pA : Opd := .reg 'p' "A" .r
def memA : Opd := .mem false false
def memS : Opd := .mem true false
def mem2 : Opd := .mem false true
def memS2 : Opd := .mem true true

def v3 (mode : Mode) (os : List Opd) : Row := { form := .v3, mode := mode, forms := [([], os)] }
def flt (os : List Opd) : Row := { form := .v3, mode := .rnd, mods := true, forms := [([], os)] }
def Row.with (r : Row) (es : List Enum) : Row := { r with enums := es }
def mrow (scope : Bool) (os : List Opd) : Row := { form := .m, scope := scope, forms := [([], os)] }
def crow (os : List Opd) : Row := { form := .c, forms := [([], os)] }
def qrow (os : List Opd) : Row := { form := .q, forms := [([], os)] }
def yrow (os : List Opd) : Row := { form := .y, forms := [([], os)] }

/-- The counter sub-fields of the syn class (R361). -/
def synFields : List Field := [⟨"SCOPE", 14, 3⟩, ⟨"SPACE", 17, 1⟩, ⟨"IMM", 18, 1⟩, ⟨"RET", 0, 1⟩]
def synEnums : List Enum := enums "SCOPE" scopeNames ++ enums "SPACE" ["glob", "scr"] ++ [⟨"ret", "RET", 1⟩]
def syn (scope : Bool) (forms : List (List (String × Nat) × List Opd)) : Row :=
  { form := .y, scope := scope, fields := synFields, enums := synEnums, forms := forms }

/-- The sub-fields of the copy words (R372): those of all four, those of the three copies, and the bits 8 to 15 of each word alone. -/
def copyFields : List Field := [⟨"SSP", 0, 2⟩, ⟨"DSP", 2, 2⟩, ⟨"CSP", 4, 1⟩, ⟨"SCOPE", 5, 3⟩, ⟨"PEER", 16, 6⟩]
def copyEnums : List Enum :=
  enums "SSP" ["sglob", "sscr"] ++ enums "DSP" ["dglob", "dscr"] ++ enums "CSP" ["cglob", "cscr"] ++ enums "SCOPE" scopeNames
def moveFields : List Field := [⟨"SCATTER", 9, 1⟩, ⟨"CMP", 10, 2⟩, ⟨"TW", 12, 4⟩]
def moveEnums : List Enum := [⟨"scatter", "SCATTER", 1⟩, ⟨"zc", "CMP", 1⟩, ⟨"zd", "CMP", 2⟩]
def engineWord (fields : List Field) (es : List Enum) (forms : List (List (String × Nat) × List Opd)) : Row :=
  { form := .q, scope := true, fields := copyFields ++ fields, enums := copyEnums ++ es, forms := forms }
def copy (forms : List (List (String × Nat) × List Opd)) : Row :=
  engineWord (⟨"GATHER", 8, 1⟩ :: moveFields) (⟨"gather", "GATHER", 1⟩ :: moveEnums) forms
def run4 : Opd := .ssrc "A" (.run 4)
def qN : Opd := .reg 'q' "Q" .r

/-- The readout words' run of BV (R348). -/
def bvRun (n : Nat) (u : Use) : Opd := .v "BV" u (.run n)
def col : Opd := .num "OBOFF" 0 3 1

def atomics (os : List Opd) : Row :=
  { form := .m, scope := true, fields := [⟨"AOP", 7, 4⟩, ⟨"OFF", 0, 7⟩],
    enums := enums "AOP" ["add", "min", "max", "and", "or", "xor", "xchg", "incw", "decw"], forms := [([], os)] }

/-- The entries of the instructions that have a mnemonic of their own. DESIGN CHOICE (log entry 78): `mma` and `gdecl` change the convergence
register that they name, so that it counts as read and written in R112. -/
def rowOf (n : String) : Option Row :=
  match n with
  | "nop" | "ret" | "exit" | "yield" => some (crow [])
  | "bra" => some (crow [.target])
  | "brp" => some ((crow [.target]).with (enums "A" ["any", "all"]))
  | "brs" => some ((crow [.ssrc "A" .one, .target]).with (enums "B" ["eqz", "nez", "ltz", "gez"]))
  | "brx" => some (crow [.v "A" .r .one, .target])
  | "call" => some (crow [.target, .num "B" 0 504 8])
  | "callx" => some (crow [sA, .num "B" 0 504 8])
  | "wait" => some (crow [.tokens])
  | "fbar" => some (crow [.num "A" 0 3 1, .num "B" 0 15 1])
  | "trap" | "brkpt" => some (crow [.num "TGT" 0 65535 1])
  | "sadd" | "ssub" | "smul" => some (v3 .sat [sD, sA, bV])
  | "smulh" | "smin" | "smax" | "sand" | "sor" | "sxor" | "sshl" | "sshr" | "ssra" | "sbfe" => some (v3 .none [sD, sA, bV])
  | "smad" => some (v3 .sat [sD, sA, bV, sC])
  | "sbfi" | "ssel" => some (v3 .none [sD, sA, bV, sC])
  | "sabs" => some (v3 .sat [sD, sA])
  | "snot" | "spopc" | "sclz" | "sctz" | "smov" => some (v3 .none [sD, sA])
  | "scmp" => some ((v3 .none [pD, sA, bV]).with (enums "MOD" condNames))
  | "smovi" => some { form := .vi, forms := [([], [sD, .imm])] }
  | "smovh" => some { form := .vi, enums := enums "MODE" ["hi", "lo"], forms := [([], [sD, sA, .imm])] }
  | "sfromk" => some (v3 .none [sD, .kreg "A"])
  | "sfromv" => some (v3 .none [sD, vA, bN])
  | "stov" => some (v3 .none [vD, sA])
  | "vadd" | "vsub" | "vmul" => some (v3 .sat [vD, vA, bV])
  | "vmulh" | "vmin" | "vmax" | "vand" | "vor" | "vxor" => some (v3 .none [vD, vA, bV])
  | "vmad" | "vdot4" | "vsad" => some (v3 .sat [vD, vA, bV, vC])
  | "vlop3" | "vperm" => some (v3 .none [vD, vA, bV, vC])
  | "vabs" | "vneg" => some (v3 .sat [vD, vA])
  | "vnot" | "vpopc" | "vclz" | "vbrev" | "vmov" => some (v3 .none [vD, vA])
  | "vshl" | "vshr" | "vsra" | "vbfe" => some (v3 .none [vD, vA, bN])
  | "vbfi" => some (v3 .none [vD, vA, bN, vC])
  | "vpack" => some (v3 .byTy [vD, vA, bV])
  | "vunpack" => some ((v3 .none [vD, vA]).with (enums "SUB" ["e0", "e1", "e2", "e3"]))
  | "vcmp" => some ((v3 .none [pD, vA, bV]).with (enums "MOD" condNames))
  | "vsel" => some (v3 .none [vD, vA, bV, .reg 'p' "C" .r])
  | "vmovi" => some { form := .vi, forms := [([], [vD, .imm])] }
  | "fadd" | "fsub" | "fmul" | "fmin" | "fmax" => some (flt [vD, vA, bV])
  | "fma" => some (flt [vD, vA, bV, vC])
  | "fcmp" => some ((v3 .none [pD, vA, bV]).with (enums "MOD" condNames))
  | "fclass" => some (v3 .rnd [vD, vA])
  | "frcp" | "frsq" | "fsqrt" | "fex2" | "flg2" | "fsin" | "fcos" | "ftanh" | "frint" => some (flt [vD, vA])
  | "fscale" => some (flt [vD, vA, bN])
  | "fsgn" => some { form := .v3, mode := .rnd, enums := enums "SUB" ["copy", "ncopy", "xor", "abs", "neg"],
                     forms := [([("SUB", 3)], [vD, vA]), ([("SUB", 4)], [vD, vA]), ([], [vD, vA, bV])] }
  | "fcvt" => some ((v3 .rnd [vD, .v "A" .r .src]).with ((enums "SUB" typeNames).take 14 |>.map (fun e => { e with suffix := "from_" ++ e.suffix })))
  | "icvt" => some ((v3 .byBoth [vD, .v "A" .r .src]).with ((enums "SUB" typeNames).take 14 |>.map (fun e => { e with suffix := "from_" ++ e.suffix })))
  | "shfl" => some ((v3 .none [vD, vA, bN]).with (enums "SUB" ["idx", "up", "down", "xor"]))
  | "qswp" => some ((v3 .none [vD, vA]).with (enums "SUB" ["h", "v", "d"]))
  | "qbc" => some (v3 .none [vD, vA, bN])
  | "vote" => some ((v3 .none [pD, pA]).with (enums "SUB" ["any", "all", "uni"]))
  | "ballot" => some ((v3 .none [sD, pA]).with (enums "SUB" ["all", "lo", "hi"]))
  | "vred" => some ((v3 .byTy [vD, vA]).with (enums "SUB" foldNames))
  | "vscan" => some { form := .v3, mode := .byTy, fields := [⟨"FOLD", 0, 3⟩, ⟨"EXCL", 3, 1⟩],
                      enums := enums "FOLD" foldNames ++ [⟨"excl", "EXCL", 1⟩], forms := [([], [vD, vA])] }
  | "pand" | "por" | "pxor" => some ((v3 .none [pD, pA, .reg 'p' "B" .r]).with [⟨"na", "SUB", 1⟩, ⟨"nb", "SUB", 2⟩, ⟨"nab", "SUB", 3⟩])
  | "pnot" | "pmov" => some (v3 .none [pD, pA])
  | "pcnt" => some (v3 .none [sD, pA])
  | "ld" => some (mrow true [.v "D" .w .cnt, memA])
  | "st" => some (mrow true [.v "D" .r .cnt, memA])
  | "lds" => some (mrow true [.sreg "D" .w .cnt, memS])
  | "sts" => some (mrow true [.sreg "D" .r .cnt, memS])
  | "ldt" => some (mrow true [.v "D" .w .cnt, .reg 'l' "A" .r, sB, .width])
  | "stt" => some (mrow true [.v "D" .r .cnt, .reg 'l' "A" .r, sB, .width])
  | "lrec" => some (mrow true [.reg 'l' "D" .w, memS])
  | "prf" => some ((mrow false [memA]).with (enums "D" ["to_l0", "to_cc", "to_l2"]))
  | "cwb" | "cinv" => some (mrow true [memA])
  | "seal" | "lkl" | "ulk" => some (mrow false [sD, memS2, sB])
  | "unseal" => some (mrow false [sD, memS])
  | "atom" => some (atomics [.v "D" .rw .ty, memA])
  | "red" => some (atomics [.v "D" .r .ty, memA])
  | "atomx" => some (mrow true [.v "D" .rw .ty, mem2, .v "B" .r .ty])
  | "gdef" => some (mrow false [sD, memS2, sB])
  | "gadd" => some (mrow true [.v "D" .r .one, memA])
  | "gld" => some (mrow true [.v "D" .w .one, mem2, sB])
  | "fence" => some { form := .m, scope := true, fields := [⟨"FK", 13, 2⟩], enums := enums "FK" ["acq", "rel", "full"], forms := [([], [])] }
  | "gdecl" => some ((yrow [.reg 'g' "D" .rw]).with (enums "SUB" ["bind", "free"]))
  | "obres" => some (yrow [.reg 'o' "D" .w, sA, sB])
  | "obrel" => some (yrow [.reg 'o' "D" .rw])
  | "obld" | "obst" => some (mrow true [.v "D" .r .one, memA])
  | "mma" => some { form := .mx, forms := [([], [.reg 'a' "ACC" .rw, .reg 'o' "OBH" .r, bvRun 8 .r, .reg 'g' "G" .rw, .oboff])] }
  | "aclr" => some { form := .mx, forms := [([], [.reg 'a' "ACC" .w])] }
  | "aget" => some { form := .mx, forms := [([("CK", 1)], [bvRun 2 .w, .reg 'a' "ACC" .r]), ([], [bvRun 8 .w, .reg 'a' "ACC" .r, col])] }
  | "aput" => some { form := .mx, forms := [([("CK", 1)], [.reg 'a' "ACC" .w, bvRun 2 .r]), ([], [.reg 'a' "ACC" .w, bvRun 8 .r, col])] }
  | "aout" => some { form := .mx, forms := [([("CK", 1)], [.reg 'a' "ACC" .r]), ([], [.reg 'a' "ACC" .r, col])] }
  | "ackr" => some { form := .mx, forms := [([], [bvRun 2 .w, .reg 'a' "ACC" .r])] }
  | "qpush" => some (qrow [qN, .v "A" .r .one])
  | "qpop" => some (qrow [.v "A" .w .one, qN])
  | "qstat" => some (qrow [.sreg "A" .w .one, qN])
  | "qbind" => some { form := .q, fields := [⟨"FREE", 0, 1⟩], enums := [⟨"free", "FREE", 1⟩],
                      forms := [([("FREE", 1)], [.sreg "A" .w .one, qN]), ([], [.sreg "A" .w .one, qN, sB])] }
  | "cpy" => some (copy [([("GATHER", 1), ("SCATTER", 1)], [qN, run4, .reg 'l' "B" .r, .reg 'l' "C" .r]), ([("GATHER", 1)], [qN, run4, .reg 'l' "B" .r]),
                         ([("SCATTER", 1)], [qN, run4, .reg 'l' "C" .r]), ([], [qN, run4])])
  | "cpym" => some (copy [([], [qN, run4, sB])])
  | "cpyr" => some (engineWord (⟨"GET", 8, 1⟩ :: moveFields) (⟨"get", "GET", 1⟩ :: moveEnums) [([], [qN, run4, sC]), ([], [qN, run4])])
  | "coll" => some (engineWord [⟨"COP", 8, 3⟩, ⟨"CTY", 11, 5⟩] [] [([], [qN, run4, sB])])
  | "cadd" => some (syn true [([("RET", 1)], [sD, sA, .inc]), ([], [sA, .inc])])
  | "cwait" => some (syn true [([("RET", 1)], [sD, sA, sB]), ([], [sA, sB])])
  | "cread" => some (syn true [([], [sD, sA])])
  | "cphase" => some ((yrow [sD, sA, sB]).with (enums "SUB" ["gen", "next", "rem"]))
  | "cbind" | "cunbind" => some (syn false [([], [sD, sA])])
  | "cset" => some (syn true [([], [sA, sB])])
  | "launch" | "lstat" | "halt" | "scan" => some (yrow [sD, sA])
  | "rdsr" => some { form := .y, forms := [([], [sD, .sysname]), ([], [sD])] }
  | "wrsr" => some { form := .y, forms := [([], [.sysname, sA]), ([], [sA])] }
  | "tret" => some (crow [])
  | "tlbi" => some { form := .y, enums := enums "SUB" ["page", "range", "ctx", "walk"],
                     forms := [([("SUB", 0)], [sA]), ([("SUB", 1)], [sA, sB]), ([], [])] }
  | "bankmode" => some ((yrow [sD, sA]).with (enums "SUB" ["cache", "scratch", "fifo"]))
  | "dmr" => some ((yrow []).with (enums "SUB" ["off", "on"]))
  | _ => none

/-- The mnemonics of each class, in the order of their OP codes from 0x01 (R85). -/
def opNames : Cls → List String
  | .ctl => ["nop", "bra", "brp", "brs", "brx", "call", "callx", "ret", "exit", "wait", "yield", "fbar", "trap", "brkpt"]
  | .sca => ["sadd", "ssub", "smul", "smulh", "smad", "sabs", "smin", "smax", "sand", "sor", "sxor", "snot", "sshl", "sshr", "ssra", "sbfe", "sbfi",
             "spopc", "sclz", "sctz", "scmp", "ssel", "smov", "smovi", "smovh", "sfromk", "sfromv", "stov"]
  | .vec => ["vadd", "vsub", "vmul", "vmulh", "vmad", "vabs", "vneg", "vmin", "vmax", "vand", "vor", "vxor", "vnot", "vlop3", "vshl", "vshr", "vsra",
             "vbfe", "vbfi", "vpopc", "vclz", "vbrev", "vperm", "vdot4", "vsad", "vpack", "vunpack", "vcmp", "vsel", "vmov", "vmovi", "fadd", "fsub",
             "fmul", "fma", "fmin", "fmax", "fcmp", "fclass", "frcp", "frsq", "fsqrt", "fex2", "flg2", "fsin", "fcos", "ftanh", "frint", "fscale",
             "fsgn", "fcvt", "icvt", "shfl", "qswp", "qbc", "vote", "ballot", "vred", "vscan", "pand", "por", "pxor", "pnot", "pmov", "pcnt"]
  | .pair => []
  | .mem => ["ld", "st", "lds", "sts", "ldt", "stt", "lrec", "prf", "cwb", "cinv", "seal", "unseal", "lkl", "ulk", "atom", "atomx", "red", "gdef",
             "gadd", "gld", "fence"]
  | .mtx => ["gdecl", "obres", "obrel", "obld", "obst", "mma", "aclr", "aget", "aput", "aout", "ackr"]
  | .eng => ["qpush", "qpop", "qstat", "qbind", "cpy", "cpym", "cpyr", "coll"]
  | .syn => ["cadd", "cwait", "cread", "cphase", "cbind", "cunbind", "cset"]
  | .sys => ["launch", "lstat", "rdsr", "wrsr", "tret", "halt", "tlbi", "bankmode", "dmr", "scan"]

def classes : List Cls := [.ctl, .sca, .vec, .mem, .mtx, .eng, .syn, .sys]

/-- The class and OP of a mnemonic. -/
def opcodeOf (n : String) : Option (Cls × Nat) :=
  classes.findSome? (fun c => ((opNames c).findIdx? (fun x => x == n)).map (fun i => (c, i + 1)))

/-- Long-latency words (R86). -/
def longWord (c : Cls) (n : String) : Bool :=
  match c with
  | .vec => ["frcp", "frsq", "fsqrt", "fex2", "flg2", "fsin", "fcos", "ftanh", "vred", "vscan"].contains n
  | .mem => true
  | .mtx => ["obres", "obld", "obst", "mma", "aget", "aput", "aout", "ackr"].contains n
  | .eng => ["qpush", "qpop", "cpy", "cpym", "cpyr", "coll"].contains n
  | .syn => ["cadd", "cwait", "cread", "cset"].contains n
  | .sys => ["launch", "lstat", "rdsr", "wrsr", "tlbi", "bankmode", "scan"].contains n
  | _ => false

/-- The system registers by name (R30, and the chapters that give them). -/
def sysNumber (n : String) : Option Nat :=
  match n with
  | "FEATURE" => some 0x001 | "CLOCK" => some 0x010 | "ENERGY_CTX" => some 0x011 | "ISLAND_SEL" => some 0x012 | "ISLAND_ENERGY" => some 0x013
  | "FIBRE_ID" => some 0x020 | "FUNC_MODE" => some 0x030 | "ENERGY_REPORT" => some 0x031 | "FALLBACK_RING" => some 0x032
  | "FALLBACK_CTR" => some 0x033 | "QUEUE_BASE" => some 0x040 | "DISPATCH_DESC" => some 0x041 | "DISPATCH_ARGS" => some 0x042
  | "STACK_STATE" => some 0x050 | "SPILL_CMD" => some 0x051 | "TRAP_CAUSE" => some 0x060 | "TRAP_PC" => some 0x061 | "TRAP_RESUME" => some 0x062
  | "TRAP_ADDR" => some 0x063 | "TRAP_ENTRY" => some 0x064 | "TRAP_SAVE0" => some 0x068 | "TRAP_SAVE1" => some 0x069 | "TRAP_SAVE2" => some 0x06A
  | "TRAP_SAVE3" => some 0x06B | "WATCHDOG" => some 0x06C | "KILL_CAUSE" => some 0x06D | "PREEMPT_TIMEOUT" => some 0x06E
  | "SCR_PASSES" => some 0x120 | "SCR_REQUESTS" => some 0x121 | "ATOM_REPLAYS" => some 0x128 | "PF_ISSUED" => some 0x130 | "PF_USED" => some 0x131
  | "PF_LATE" => some 0x132 | "PF_EVICTED_UNUSED" => some 0x133 | "OCC_CLU" => some 0x140 | "OCC_L2" => some 0x141 | "OB_CONFLICTS" => some 0x160
  | "ENG_DEADLINE" => some 0x170 | "ENG_FAULT" => some 0x171 | "COLL_DONE" => some 0x172 | "CPYZ_IN" => some 0x173 | "CPYZ_OUT" => some 0x174
  | "XLATE_IN" => some 0x200 | "XLATE_OUT" => some 0x201 | "HEAP_BASE" => some 0x210 | "HEAP_LIMIT" => some 0x211 | "HEAP_OFFSET" => some 0x212
  | "PT_ROOT" => some 0x213 | "PROMOTE" => some 0x214 | "MEM_RETIRE" => some 0x240 | "MEM_RETIRE_STATUS" => some 0x241
  | "PROVINCE_SEL" => some 0x242 | "PROVINCE_STATE" => some 0x243 | "TABLE_SEL" => some 0x244 | "TABLE_DATA" => some 0x245 | "MEM_SHARE" => some 0x246
  | "SCRUB_CTL" => some 0x247 | "SCRUB_RANGE" => some 0x248 | "ROW_REPAIR" => some 0x249 | "MEM_EVENT" => some 0x24A | "FAULT_INJECT" => some 0x3F0
  | _ => none

/-! Building a word. -/

/-- A register by its kind's letter and its number. -/
abbrev Reg := Char × Nat

/-- What is filled in once labels stand: a control target, or a field that becomes a relocation of the kind (R42, R115). -/
inductive Fix where
  | target (sym : String) (add : Int)
  | reloc (kind : Nat) (sym : String) (add : Int)
  deriving DecidableEq, Repr

/-- A word under construction: the fields of its row, the fields that are set, the registers that it reads and writes, and what is filled in later. -/
structure Build where
  geo  : List Field := []
  sets : List (Field × Nat) := []
  rd   : List Reg := []
  wr   : List Reg := []
  fix  : Option Fix := none
  deriving DecidableEq, Repr

def Field.meets (f g : Field) : Bool := f.lo < g.lo + g.width && g.lo < f.lo + f.width

/-- Set a field; a second setting of any of its bits is FIELD_TWICE, a value wider than the field FIELD_RANGE (R94). A signed field takes a
negative value of its width. -/
def Build.put (b : Build) (f : Field) (v : Int) : Except Err Build :=
  let signed := f.name = "OFF" || f.name = "TGT" || f.name = "IMM" || f.name = "B"
  if b.sets.any (fun s => f.meets s.1) then .error .fieldTwice
  else if (0 ≤ v && v < 2 ^ f.width) || (signed && -(2 ^ (f.width - 1) : Int) ≤ v && v < 0) then
    .ok { b with sets := b.sets ++ [(f, (v % 2 ^ f.width).toNat)] }
  else .error .fieldRange

/-- Whether a field is set under this name. -/
def Build.named (b : Build) (n : String) : Bool := b.sets.any (fun s => s.1.name == n)

/-- The word. -/
def Build.word (b : Build) : W64 := b.sets.foldl (fun w s => w ||| (BitVec.ofNat 64 s.2 <<< s.1.lo)) 0

/-- The value of a field once any of its bits is set, under whatever name (R94). -/
def Build.value (b : Build) (n : String) : Option Nat :=
  match b.geo.find? (fun f => f.name == n) with
  | some f => if b.sets.any (fun s => f.meets s.1) then some (b.word.extractLsb' f.lo f.width).toNat else none
  | none => none

def Row.allFields (r : Row) : List Field := r.fields ++ r.form.fields
def Row.allEnums (r : Row) : List Enum := r.enums ++ r.form.enums

/-- Set a field by its name. -/
def Build.set (b : Build) (r : Row) (n : String) (v : Int) : Except Err Build :=
  match r.allFields.find? (fun f => f.name == n) with
  | some f => b.put f v
  | none => .error .noField

/-- The text after the mnemonic's points: an enumerator, `d0` to `d7`, or FIELD=value (R93, R94). -/
def Build.suffix (b : Build) (r : Row) (env : Env) (t : List Char) : Except Err Build :=
  let n := String.ofList t
  let key := t.takeWhile (fun c => c != '=')
  match t.drop key.length with
  | _ :: val =>
    let k := String.ofList key
    -- The bit of the named field at which an enumerator's own field begins.
    let within (e : Enum) : Option Nat :=
      match r.allFields.find? (fun f => f.name == k), r.allFields.find? (fun f => f.name == e.field) with
      | some f, some g => if f.lo ≤ g.lo && g.lo + g.width ≤ f.lo + f.width then some (g.lo - f.lo) else none
      | _, _ => none
    if k == "RND" || k == "FOLD" || k == "EXCL" || !r.allFields.any (fun f => f.name == k) then .error .noField
    else match r.allEnums.find? (fun e => e.suffix == String.ofList val && (within e).isSome), typeNames.findIdx? (fun x => x == String.ofList val) with
    | some e, _ => b.set r (if k == "MODE" then e.field else k) (if k == "MODE" then e.val else e.val * 2 ^ (within e).getD 0)
    | none, some i => if k == "TYA" || k == "TYB" || k == "CTY" then b.set r k i else .error .relocForm
    | none, none => match evalNum env val with
      | .ok v => b.set r k v
      | .error e => .error e
  | [] =>
    match r.allEnums.find? (fun e => e.suffix == n) with
    | some e => b.set r e.field e.val
    | none =>
      match regName t with
      | some ('d', i) =>
        if r.form = .vi then .error .unknownSuffix
        else match b.set r "LA" 15 with
          | .ok b => b.set r "TOK" i
          | .error e => .error e
      | _ => .error .unknownSuffix

def is64 (sca : Bool) (ty : Nat) : Bool := ty = 6 || ty = 7 || ty = 11 || (sca && ty = 0)

/-- How many registers an operand names. -/
def Build.span (b : Build) (sca : Bool) : Span → Nat
  | .one => 1
  | .ty => if is64 sca ((b.value "TY").getD 0) then 2 else 1
  | .src => if is64 false ((b.value "SUB").getD 0) then 2 else 1
  | .run n => n
  | .cnt => 2 ^ (b.value "CNT").getD 0

def regs (k : Char) (n count : Nat) : List Reg := (List.range count).map (fun i => (k, n + i))

def Build.use (b : Build) (u : Use) (rs : List Reg) : Build :=
  { b with rd := b.rd ++ (if u = .w then [] else rs), wr := b.wr ++ (if u = .r then [] else rs) }

/-- A scalar source field: s0 to s31, or k0 to k31 as 32 to 63 (R69). -/
def srcField (t : List Char) : Option (Nat × List Reg) :=
  match regName t with
  | some ('s', n) => some (n, [('s', n)])
  | some ('k', n) => if n < 32 then some (n + 32, []) else none
  | _ => none

/-- A source's modifiers and its register: −, | | and −| | (R99), as negate and absolute. -/
def modifiers (t : List Char) : Nat × List Char :=
  let bars (t : List Char) : Option (List Char) := match t with
    | '|' :: r => match r.reverse with
      | '|' :: x => some (trim x.reverse)
      | _ => none
    | _ => none
  match t with
  | '-' :: r => match bars (trim r) with
    | some x => (3, x)
    | none => if (regName (trim r)).isSome then (1, trim r) else (0, t)
  | _ => match bars t with
    | some x => (2, x)
    | none => (0, t)

/-- The modifiers of an operand set their half of MOD where the entry takes them. -/
def Build.mods (b : Build) (r : Row) (second : Bool) (m : Nat) : Except Err Build :=
  if m = 0 then .ok b else if r.mods then b.put ⟨"MOD", if second then 10 else 8, 2⟩ m else .error .operands

/-- The B operand of V3 (R98). -/
def Build.bOperand (b : Build) (r : Row) (env : Env) (sca : Bool) (sp : Span) (t : List Char) : Except Err Build :=
  let (m, t') := modifiers t
  let place (b : Build) (sel : Nat) (v : Int) (rs : List Reg) : Except Err Build :=
    match b.mods r true m with
    | .error e => .error e
    | .ok b => match b.set r "B" v with
      | .error e => .error e
      | .ok b =>
        if b.value "BSEL" = some 2 && sel = 1 && 32 ≤ v then .ok (b.use .r rs)
        else match b.set r "BSEL" sel with
          | .error e => .error e
          | .ok b => .ok (b.use .r rs)
  match regName t' with
  | some ('v', n) => place b 0 n (regs 'v' n (b.span sca sp))
  | some ('s', n) => place b 1 n [('s', n)]
  | some ('k', n) =>
    if b.value "BSEL" = some 2 && n < 32 then place b 1 (n + 32 : Nat) [] |>.map (fun x =>
      { x with sets := x.sets.map (fun s => if s.1.name == "B" then (s.1, n) else s) })
    else if n < 32 then place b 1 (n + 32 : Nat) [] else place b 2 n []
  | some _ => .error .operands
  | none =>
    let float := (b.value "TY").any (fun ty => [8, 9, 10, 11, 12, 13, 18, 19].contains ty)
    match signedFloat t with
    | some (neg, x, e) =>
      let whole := if 0 ≤ e then some (x * 10 ^ e.toNat) else if x % 10 ^ e.natAbs = 0 then some (x / 10 ^ e.natAbs) else none
      match whole with
      | some w => let v : Int := if neg then -(w : Int) else w
        if float && -32 ≤ v && v ≤ 31 then (b.set r "B" v).bind (fun b => b.set r "BSEL" 3) else .error .immRange
      | none => .error .immRange
    | none =>
      match evalIn env (-32) 31 t with
      | .ok v => (b.set r "B" v).bind (fun b => b.set r "BSEL" 3)
      | .error e => .error e

/-- A memory operand (R101): the terms between the brackets. -/
def Build.memOperand (b : Build) (r : Row) (env : Env) (scalar second : Bool) (t : List Char) : Except Err Build :=
  let inner : Option (List Char) := match t with
    | '[' :: x => match x.reverse with
      | ']' :: y => some (trim y.reverse)
      | _ => none
    | _ => none
  match inner with
  | none => .error .operands
  | some x =>
    let term (stop : List Char) : List Char × List Char := let w := stop.takeWhile (fun c => c != '+' && c != '-'); (trim w, trim (stop.drop w.length))
    let (first, rest) := term x
    let off (b : Build) (t : List Char) : Except Err Build :=
      let small := r.fields.any (fun f => f.name == "OFF")
      let t := match t with
        | '+' :: y => y
        | _ => t
      if (trim t).isEmpty then b.set r "OFF" 0
      else match evalExpr env t with
        | .error e => .error e
        | .ok v =>
          if v.plain then
            let n := v.c.toInt
            if (if small then -64 ≤ n && n ≤ 63 else -1024 ≤ n && n ≤ 1023) then b.set r "OFF" n else .error .offRange
          else match v.sym, v.here, v.half with
            | some s, 0, none => (b.set r "OFF" 0).map (fun b => { b with fix := some (.reloc (if small then 9 else 7) s v.c.toInt) })
            | _, _, _ => .error .relocForm
    let base (b : Build) (a mode : Nat) (rs : List Reg) : Except Err Build := ((b.set r "A" a).bind (fun b => b.set r "ABASE" mode)).map (fun b => b.use .r rs)
    match srcField first with
    | some (a, rs) =>
      let (idx, rest') := term (match rest with
        | '+' :: y => trim y
        | _ => [])
      match regName idx with
      | some ('v', n) =>
        if scalar || second then .error .operands
        else (base b a 0 (rs ++ [('v', n)])).bind (fun b => (b.set r "B" n).bind (fun b => off b rest'))
      | _ => (base b a 2 rs).bind (fun b => off b rest)
    | none =>
      let hi := first.takeWhile (fun c => c != ':')
      match regName (trim hi), regName (trim ((first.drop hi.length).drop 1)) with
      | some ('v', h), some ('v', l) =>
        if scalar || h != l + 1 || l % 2 = 1 then .error .operands
        else (base b l 1 [('v', l), ('v', h)]).bind (fun b => off b rest)
      | _, _ => .error .operands

/-- The immediate of VI (R100). -/
def Build.immOperand (b : Build) (r : Row) (env : Env) (t : List Char) : Except Err Build :=
  let ty := (b.value "TY").getD 0
  match signedFloat t with
  | some (neg, m, e) =>
    if ty = 10 then b.set r "IMM" (floatBits Machine.f32 neg m e)
    else if ty = 18 || ty = 19 then
      let h := floatBits (if ty = 18 then Machine.f16 else Machine.bf16) neg m e
      b.set r "IMM" (65536 * h + h : Nat)
    else .error .immRange
  | none =>
    match evalExpr env t with
    | .error e => .error e
    | .ok v =>
      if v.plain then
        let n := v.c.toInt
        if -(2 ^ 31 : Int) ≤ n && n < 2 ^ 32 then b.set r "IMM" (n % 2 ^ 32) else .error .immRange
      else match v.sym, v.here, v.half with
        | some s, 0, some hi => (b.set r "IMM" 0).map (fun b => { b with fix := some (.reloc (if hi then 6 else 5) s v.c.toInt) })
        | _, _, _ => .error .relocForm

/-- The tokens of `wait`: a list joined by |, or `all` (R174). -/
def tokenMask (t : List Char) : Except Err Nat :=
  if String.ofList t == "all" then .ok 0
  else (splitTop '|' 0 [] t).foldl (fun m x => match m, regName (trim x) with
    | .ok m, some ('d', i) => .ok (m ||| 2 ^ i)
    | .error e, _ => .error e
    | _, _ => .error .operands) (.ok 0)

/-- One operand. -/
def Build.operand (b : Build) (r : Row) (env : Env) (sca : Bool) (o : Opd) (t : List Char) : Except Err Build :=
  if (regName t).isSome && o.isExpr then .error .operands
  else match o with
  | .v f u sp =>
    let (m, t') := modifiers t
    if m != 0 && (f != "A" || !r.mods) then .error .operands else
    match regName t' with
    | some ('v', n) => ((b.mods r false m).bind (fun b => b.set r f n)).map (fun b => b.use u (regs 'v' n (b.span sca sp)))
    | _ => .error .operands
  | .sreg f u sp => match regName t with
    | some ('s', n) => (b.set r f n).map (fun b => b.use u (regs 's' n (b.span false sp)))
    | _ => .error .operands
  | .ssrc f sp => match srcField t with
    | some (n, rs) => (b.set r f n).map (fun b => b.use .r (if rs.isEmpty then [] else regs 's' n (b.span false sp)))
    | none => .error .operands
  | .kreg f => match regName t with
    | some ('k', n) => b.set r f n
    | _ => .error .operands
  | .bsel sp => b.bOperand r env sca sp t
  | .reg k f u => match regName t with
    | some (k', n) => if k' = k then (b.set r f n).map (fun b => if k = 'q' || (k = 'p' && n = 7) then b else b.use u [(k, n)]) else .error .operands
    | none => .error .operands
  | .mem scalar second => b.memOperand r env scalar second t
  | .num f lo hi unit => match evalIn env lo hi t with
    | .ok v => if v % unit = 0 then b.set r f (v / unit) else .error .immRange
    | .error e => .error e
  | .width => match evalIn env 1 512 t with
    | .ok v => match (List.range 10).find? (fun i => (2 ^ i : Int) = v) with
      | some i => b.set r "OFF" i
      | none => .error .immRange
    | .error e => .error e
  | .inc => match srcField t with
    | some (n, rs) => (b.set r "B" n).map (fun b => b.use .r rs)
    | none => match evalIn env 0 63 t with
      | .ok v => (b.set r "B" v).bind (fun b => if b.value "IMM" = some 1 then .ok b else b.set r "IMM" 1)
      | .error e => .error e
  | .imm => b.immOperand r env t
  | .target => match evalExpr env t with
    | .error e => .error e
    | .ok v => match v.sym, v.here, v.half with
      | some s, 0, none => (b.set r "TGT" 0).map (fun b => { b with fix := some (.target s v.c.toInt) })
      | _, _, _ => .error .target
  | .tokens => (tokenMask t).bind (fun m => b.set r "TGT" m)
  | .oboff => match evalExpr env t with
    | .error e => .error e
    | .ok v =>
      if v.plain then (if 0 ≤ v.c.toInt && v.c.toInt ≤ 65535 then b.set r "OBOFF" v.c.toInt else .error .immRange)
      else match v.sym, v.here, v.half with
        | some s, 0, none => (b.set r "OBOFF" 0).map (fun b => { b with fix := some (.reloc 8 s v.c.toInt) })
        | _, _, _ => .error .relocForm
  | .sysname => match sysNumber (String.ofList t) with
    | some n => b.set r "SYSNUM" n
    | none => .error .operands

def Build.operandsOf (b : Build) (r : Row) (env : Env) (sca : Bool) : List Opd → List (List Char) → Except Err Build
  | [], [] => .ok b
  | o :: os, t :: ts => match b.operand r env sca o t with
    | .ok b => b.operandsOf r env sca os ts
    | .error e => .error e
  | _, _ => .error .operands

/-- The list of operands that is meant: the first whose fields have the values named, and, where two lists have the same, the one of the right
length. -/
def Row.pick (r : Row) (b : Build) (count : Nat) : List Opd :=
  let sysFree := (b.value "SYSNUM").isSome
  let fit := r.forms.filter (fun f => f.1.all (fun c => (b.value c.1).getD 0 = c.2))
  let same := fit.filter (fun f => f.1.length = ((fit.head?).map (·.1.length)).getD 0)
  let chosen := if sysFree then same.getLast? else if r.forms.any (fun f => f.2.contains .sysname) then same.head? else match same.find? (fun f => f.2.length = count) with
    | some f => some f
    | none => same.head?
  (chosen.map (·.2)).getD []

/-- Whether a rounding mode, or SAT, may be named (R71, R217, R230, R242). -/
def Build.modeOk (b : Build) (r : Row) : Bool :=
  let float (n : String) : Bool := (b.value n).any (fun ty => (8 ≤ ty && ty ≤ 13) || ty = 18 || ty = 19)
  let rnd := match r.mode with
    | .rnd => true
    | .byTy => float "TY"
    | .byBoth => float "TY" || float "SUB"
    | _ => false
  let sat := match r.mode with
    | .sat => true
    | .byTy => !float "TY"
    | .byBoth => !float "TY" && !float "SUB"
    | _ => false
  (!b.named "RND" || rnd) && (!b.named "SAT" || sat)

/-! Statements (R90, R93 to R104). -/

/-- The statement's prefixed tokens: the guard and `sos` (R103). -/
structure Lead where
  gn  : Nat := 0
  gp  : Nat := 7
  set : Bool := false
  sos : Bool := false
  deriving DecidableEq, Repr

def leadTokens : Nat → Lead → List Char → Except Err (Lead × List Char)
  | 0, l, t => .ok (l, trim t)
  | fuel + 1, l, t =>
    let (w, r) := firstWord t
    match w with
    | '?' :: '!' :: g => match regName g with
      | some ('p', n) => if l.set then .error .syntax_ else leadTokens fuel { l with gn := 1, gp := n, set := true } r
      | _ => .error .syntax_
    | '?' :: g => match regName g with
      | some ('p', n) => if l.set then .error .syntax_ else leadTokens fuel { l with gp := n, set := true } r
      | _ => .error .syntax_
    | ['s', 'o', 's'] => if l.sos then .error .syntax_ else leadTokens fuel { l with sos := true } r
    | _ => .ok (l, trim t)

/-- An assembled statement: its class and word, the registers it reads and writes, what is filled in later, whether `lomas` is to compute LA,
and whether it is long-latency, uses a token or is a raw word. -/
structure Stm where
  line : Nat
  cls  : Cls
  word : W64
  rd   : List Reg
  wr   : List Reg
  fix  : Option Fix := none
  long : Bool := false
  auto : Bool := false
  token : Bool := false
  raw  : Bool := false
  ret  : Bool := false
  xfer : Bool := false
  eph  : Bool := false
  deriving DecidableEq, Repr

/-- A statement that is no pair. -/
def single (env : Env) (line : Nat) (l : Lead) (mnem ops : List Char) : Except Err Stm :=
  match splitTop '.' 0 [] mnem with
  | [] => .error .syntax_
  | n :: sfx =>
    let name := String.ofList n
    match opcodeOf name, rowOf name with
    | some (cls, op), some r =>
      let start : Except Err Build := ({ geo := r.allFields } : Build).set r "OP" op
      match sfx.foldl (fun b t => b.bind (fun b => b.suffix r env t)) start with
      | .error e => .error e
      | .ok b =>
        let lead (b : Build) : Except Err Build :=
          let guard (b : Build) : Except Err Build := if l.set || ((b.value "GN").isNone && (b.value "GP").isNone) then (b.set r "GN" l.gn).bind (fun b => b.set r "GP" l.gp)
            else if (b.value "GP").isNone then b.set r "GP" 7 else .ok b
          (guard b).bind (fun b => if l.sos then b.set r "SOS" 1 else .ok b)
        let defaults (b : Build) : Except Err Build :=
          (if (name == "lds" || name == "sts") && (b.value "TY").isNone then b.set r "TY" 6 else .ok b).bind (fun b =>
            if r.scope && (b.value "SCOPE").isNone then b.set r "SCOPE" 2 else .ok b)
        let ts := operandList ops
        match (lead b).bind defaults with
        | .error e => .error e
        | .ok b =>
          match b.operandsOf r env (cls = .sca) (r.pick b ts.length) ts with
          | .error e => .error e
          | .ok c =>
            if !c.modeOk r then .error .illegalForm
            else
              let gp := (c.value "GP").getD 7
              let long := longWord cls name
              .ok { line := line, cls := cls, word := c.word, rd := c.rd ++ (if gp = 7 then [] else [('p', gp)]), wr := c.wr, fix := c.fix, long := long,
                    auto := long && (c.value "LA").isNone,
                    token := c.value "LA" = some 15 || name == "wait", ret := name == "ret",
                    xfer := ["bra", "brp", "brs", "brx", "call", "callx", "ret", "exit"].contains name }
    | _, _ => .error .unknownMnemonic

/-! Pairs (R81 to R84, R104). -/

def pairVec : List String := ["vadd", "vsub", "vmul", "vmin", "vmax", "vand", "vor", "vxor", "vshl", "vshr", "vsra", "vmov", "fadd", "fsub", "fmul", "fmin", "fmax"]
def pairSca : List String := ["sadd", "ssub", "smul", "sand", "sor", "sxor", "sshl", "sshr", "smin", "smax", "smov", "smovi12", "scmp"]
def pairTypes : List String := ["i32", "n32", "f32", "i16x2", "n16x2", "f16x2", "bf16x2"]

def vregOf (t : List Char) : Option Nat := match regName t with
  | some ('v', n) => some n
  | _ => none

/-- The vector half: VOP, VTY and its registers. -/
def vecHalf (mnem : List Char) (ops : List (List Char)) : Except Err (Nat × Nat × Nat × Nat × Option Nat) :=
  match splitTop '.' 0 [] mnem with
  | n :: sfx =>
    match pairVec.findIdx? (fun x => x == String.ofList n) with
    | none => .error .notPairable
    | some vop =>
      match sfx with
      | [t] => match pairTypes.findIdx? (fun x => x == String.ofList t || "VTY=" ++ x == String.ofList t), ops.map vregOf with
        | some ty, [some d, some a, some b] => if vop = 11 then .error .operands else .ok (vop, ty, d, a, some b)
        | some ty, [some d, some a] => if vop = 11 then .ok (vop, ty, d, a, none) else .error .operands
        | _, _ => .error .operands
      | _ => .error .operands
  | [] => .error .notPairable

/-- The scalar half: SOP, its destination, its sources and SIMM12. -/
def scaHalf (env : Env) (mnem : List Char) (ops : List (List Char)) : Except Err (Nat × Nat × List (Nat × List Reg) × Int) :=
  match splitTop '.' 0 [] mnem with
  | n :: sfx =>
    match pairSca.findIdx? (fun x => x == String.ofList n) with
    | none => .error .notPairable
    | some sop =>
      let dest (k : Char) (t : List Char) : Option Nat := match regName t with
        | some (k', n) => if k' = k then some n else none
        | none => none
      match sop, sfx, ops with
      | 11, [], [d, i] => match dest 's' d, evalIn env (-2048) 2047 i with
        | some d, .ok v => .ok (sop, d, [], v)
        | some _, .error e => .error e
        | none, _ => .error .operands
      | 12, [c], [d, a, b] => match dest 'p' d, srcField a, srcField b, (condNames.take 6).findIdx? (fun x => x == String.ofList c) with
        | some d, some a, some b, some c => .ok (sop, d, [a, b], c)
        | _, _, _, _ => .error .operands
      | 10, [], [d, a] => match dest 's' d, srcField a with
        | some d, some a => .ok (sop, d, [a], 0)
        | _, _ => .error .operands
      | _, [], [d, a, b] => if 10 ≤ sop then .error .operands else match dest 's' d, srcField a, srcField b with
        | some d, some a, some b => .ok (sop, d, [a, b], 0)
        | _, _, _ => .error .operands
      | _, _, _ => .error .operands
  | [] => .error .notPairable

/-- A pair statement. -/
def pairStm (env : Env) (line : Nat) (l : Lead) (vec sca : List Char) : Except Err Stm :=
  let (vm, vo) := firstWord vec
  let (sm, so) := firstWord sca
  if l.sos then .error .operands else
  match vecHalf vm (operandList vo), scaHalf env sm (operandList so) with
  | .error e, _ => .error e
  | _, .error e => .error e
  | .ok (vop, ty, vd, va, vb), .ok (sop, d, srcs, imm) =>
    let f (i : Nat) : Nat := ((srcs[i]?).map (·.1)).getD 0
    let w : FP := { vop := BitVec.ofNat 5 vop, sop := BitVec.ofNat 4 sop, gn := l.gn = 1, gp := BitVec.ofNat 3 l.gp, vty := BitVec.ofNat 3 ty,
                    vd := BitVec.ofNat 6 vd, va := BitVec.ofNat 6 va, vb := BitVec.ofNat 6 (vb.getD 0), sd := BitVec.ofNat 6 d,
                    sa := BitVec.ofNat 6 (f 0), sb := BitVec.ofNat 6 (f 1), simm := BitVec.ofInt 12 imm }
    .ok { line := line, cls := .pair, word := w.toWord,
          rd := [('v', va)] ++ (match vb with
            | some b => [('v', b)]
            | none => []) ++ srcs.flatMap (·.2) ++ (if l.gp = 7 then [] else [('p', l.gp)]),
          wr := [('v', vd), (if sop = 12 then ('p', d) else ('s', d))] }

/-- An instruction statement. -/
def statement (env : Env) (line : Nat) (t : List Char) : Except Err Stm :=
  match splitPair [] t with
  | some (a, b) =>
    match leadTokens 4 {} a, leadTokens 4 {} b with
    | .ok (l, r), .ok (m, b) => if m.set || m.sos then .error .operands else pairStm env line l r b
    | _, _ => .error .operands
  | none =>
    match leadTokens 4 {} t with
    | .error e => .error e
    | .ok (l, r) =>
      let (m, o) := firstWord r
      if m.isEmpty then .error .syntax_ else single env line l m o

end Sys2Proof.Asm
end

