-- ==== Sys2Proof/Machine/Asm.lean ====
section
/-! DEFINITION. The assembler `lomas` (R105 to R120): clauses, the computation of LA, sections, data, symbols, kernels, and the object file
that it writes in the format of R35 to R52. -/

namespace Sys2Proof.Asm

open Sys2Proof.Machine

/-! What is assembled. -/

/-- What a relocation is against: a symbol, or the start of a section. -/
inductive Ref where
  | sym (name : String)
  | sect (i : Nat)
  deriving DecidableEq, Repr

/-- A relocation in a section (R41). -/
structure Rel where
  place : Nat
  kind  : Nat
  ref   : Ref
  add   : Int
  deriving DecidableEq, Repr

/-- A clause: its offset, the kernel it belongs to, its header's fields, whether `.clause` frames it, and its words. A word's bit of EPH stands
in `eph` and, after `.eph`, in the word. -/
structure Clause where
  at_    : Nat
  kern   : Option Nat
  bpri   : Nat
  wtok   : Nat := 0
  eph    : Nat := 0
  named  : Option Nat := none
  framed : Bool := false
  stms   : List Stm := []
  deriving DecidableEq, Repr

/-- A section: clauses in TEXT, bytes elsewhere. -/
structure Sec where
  name    : String
  type    : Nat
  align   : Nat
  body    : List Byte := []
  clauses : List Clause := []
  rels    : List Rel := []
  deriving DecidableEq, Repr

/-- A defined symbol: the section's index, or none for an absolute one. -/
structure Def where
  name  : String
  sect  : Option Nat
  value : Nat
  kind  : Nat
  deriving DecidableEq, Repr

/-- A kernel that is open or closed: its name, section and CODE, the directives that have stood in it with their numbers, FLAGS, the handler,
and its argument entries as the bytes of R50 with the default image. -/
structure Kern where
  name   : String
  sect   : Nat
  code   : Nat
  given  : List (String × Int) := []
  flags  : Nat := 4
  trap   : Option String := none
  args   : List (List Byte) := []
  image  : List Byte := []
  deriving DecidableEq, Repr

structure Src where
  secs   : List Sec := [⟨".text", 1, 6, [], [], []⟩]
  cur    : Nat := 0
  open_  : Bool := false
  bpri   : Nat := 0x80
  ephs   : Bool := false
  syms   : List (String × W64) := []
  defs   : List Def := []
  binds  : List (String × Nat) := []
  kern   : Option Kern := none
  kerns  : List Kern := []
  kdesc  : List Byte := []
  krels  : List Rel := []
  args   : List Byte := []
  strs   : List Byte := [0]
  deriving DecidableEq, Repr

def Sec.none_ : Sec := ⟨"", 0, 0, [], [], []⟩
def Src.sec (a : Src) : Sec := a.secs.getD a.cur Sec.none_
def Src.setSec (a : Src) (x : Sec) : Src := { a with secs := a.secs.set a.cur x }

def Clause.size (c : Clause) : Nat := 8 * (c.stms.length + 1)

/-- The bytes of a section so far. -/
def Sec.size (x : Sec) : Nat :=
  if x.type = 1 then (match x.clauses.getLast? with
    | some c => c.at_ + c.size
    | none => 0)
  else x.body.length

/-- The clause that is being written. -/
def Src.clause (a : Src) : Option Clause := if a.open_ then a.sec.clauses.getLast? else none

def Src.putClause (a : Src) (c : Clause) : Src := a.setSec { a.sec with clauses := a.sec.clauses.dropLast ++ [c] }

def Src.env (a : Src) (here : Nat) : Env := { syms := a.syms, here := BitVec.ofNat 64 here }
def Src.envHere (a : Src) : Env := a.env a.sec.size

/-- The classes of the statements of a clause that are no raw words. -/
def Clause.classes (c : Clause) : List Cls := (c.stms.filter (fun x => !x.raw)).map (·.cls)

/-- The last word is a TERM word: a control statement after one of another class (R61, R106, R110). -/
def Clause.term (c : Clause) : Bool :=
  match c.stms.getLast? with
  | some x => !x.raw && x.cls = .ctl && c.classes.any (fun k => k != .ctl)
  | none => false

/-- CLS: the class of the statements, or the number that a clause of raw words names. -/
def Clause.cls (c : Clause) : Nat :=
  match c.classes with
  | k :: _ => k.code.toNat
  | [] => c.named.getD 0

/-! Clauses (R105 to R111). -/

/-- A framed clause is checked when it ends (R110, R111; log entry 78 for the errors of CLS). -/
def Clause.check (c : Clause) : Except Err Unit :=
  let body := if c.term then c.classes.dropLast else c.classes
  if !c.framed then .ok ()
  else if c.stms.isEmpty then .error .clauseEmpty
  else if !body.all (fun k => some k = body.head?) then .error .clauseClass
  else if c.classes.isEmpty != c.named.isSome then .error .operands
  else if 2 ^ c.stms.length ≤ c.eph then .error .ephPlace
  else .ok ()

/-- End the clause that is being written. -/
def Src.close (a : Src) : Except Err Src :=
  match a.clause with
  | none => .ok { a with open_ := false }
  | some c => match c.check with
    | .ok _ => .ok { a with open_ := false, bpri := c.bpri }
    | .error e => .error e

/-- Open a clause at the end of the section; BPRI is copied from the previous clause (R108). -/
def Src.opened (a : Src) : Src :=
  let c : Clause := { at_ := a.sec.size, kern := a.kern.map (fun _ => a.kerns.length), bpri := a.bpri }
  { (a.setSec { a.sec with clauses := a.sec.clauses ++ [c] }) with open_ := true }

/-- A clause of `nop` words, as many bytes long as `n` says. -/
def Src.nops (a : Src) (n : Nat) : Src :=
  let word : Stm := { line := 0, cls := .ctl, word := 0x0138000000000000, rd := [], wr := [] }
  let b := a.opened
  match b.clause with
  | some c => { (b.putClause { c with stms := List.replicate (n / 8 - 1) word }) with open_ := false }
  | none => b

/-- Fill a gap with clauses of 16 to 136 bytes, leaving no 8 bytes over (R114). -/
def Src.fill (a : Src) : Nat → Nat → Src
  | 0, _ => a
  | fuel + 1, gap =>
    if gap = 0 then a
    else
      let n := if gap ≤ 136 then gap else if gap = 144 then 128 else 136
      (a.nops n).fill fuel (gap - n)

def log2Of (n : Nat) : Nat := ((List.range 13).find? (fun i => 2 ^ i = n)).getD 0

/-- Pad the section to a multiple of n: zero bytes in data, nop clauses in TEXT, where a gap of 8 is widened by n (R114). -/
def Src.alignTo (a : Src) (n : Nat) : Src :=
  let x := a.sec
  let gap := (n - x.size % n) % n
  let a := a.setSec { x with align := max x.align (log2Of n) }
  if x.type = 1 then a.fill 1000 (if gap = 8 then gap + n else gap)
  else a.setSec { a.sec with body := a.sec.body ++ List.replicate gap 0 }

/-- The relocation of a word whose field is filled in later (R115). -/
def Stm.rels (x : Stm) (place : Nat) : List Rel :=
  match x.fix with
  | some (.reloc k s d) => [{ place := place, kind := k, ref := .sym s, add := d }]
  | _ => []

/-- Put a word into the clause that is being written. -/
def Src.word (a : Src) (c : Clause) (x : Stm) : Src :=
  let place := c.at_ + c.size
  let a := a.putClause { c with stms := c.stms ++ [{ x with eph := a.ephs && !x.raw }] }
  { (a.setSec { a.sec with rels := a.sec.rels ++ x.rels place }) with ephs := a.ephs && x.raw }

/-- An automatic clause takes another statement: the rules 3 and 4 of R105, and R106. -/
def Clause.takes (c : Clause) (x : Stm) : Bool :=
  c.stms.length < 16 && (c.classes.head? = some x.cls || x.cls = .ctl)

/-- An instruction statement (R105, R106, R110). -/
def Src.instr (a : Src) (line : Nat) (t : List Char) : Except Err Src :=
  if a.sec.type != 1 then .error .syntax_
  else match statement (a.envHere) line t with
  | .error e => .error e
  | .ok x =>
    match a.clause with
    | some c =>
      if c.framed then (if c.stms.length < 16 then .ok (a.word c x) else .error .clauseFull)
      else if c.takes x then
        let b := a.word c x
        if x.xfer || c.classes.head? != some x.cls then b.close else .ok b
      else anew
    | none => anew
where
  anew : Except Err Src :=
    match a.close with
    | .error e => .error e
    | .ok a =>
      let b := a.opened
      match statement b.envHere line t, b.clause with
      | .ok x, some c => if x.xfer then (b.word c x).close else .ok (b.word c x)
      | .error e, _ => .error e
      | _, none => .error .syntax_

/-! Labels and symbols (R91, R116, R117). -/

/-- A name that is to be defined (R91, R116). -/
def Src.fresh (a : Src) (t : List Char) : Except Err String :=
  let n := String.ofList t
  if !nameOk t then .error .syntax_
  else if (regName t).isSome then .error .regName
  else if a.defs.any (fun d => d.name == n) || (a.kern.any (fun k => k.name == n)) then .error .redefined
  else .ok n

/-- A label: in TEXT it ends the clause before it and marks the next header; in SEALED it starts a buffer (R107, R110, R116, R117). -/
def Src.label (a : Src) (t : List Char) : Except Err Src :=
  match a.fresh t with
  | .error e => .error e
  | .ok n =>
    if a.ephs then .error .ephPlace
    else if a.clause.any (fun c => c.framed && c.stms.isEmpty) then .error .labelInClause
    else match a.close with
    | .error e => .error e
    | .ok a =>
      let a := if a.sec.type = 6 then (a.alignTo 32).alignTo 256 else a
      .ok { a with defs := a.defs ++ [⟨n, some a.cur, a.sec.size, if a.sec.type = 1 then 1 else 3⟩] }

/-! Data (R114, R115). -/

/-- The size and the least and greatest values of a data directive. -/
def dataRow (n : String) : Option Nat :=
  match n with
  | ".byte" => some 1 | ".half" => some 2 | ".word" => some 4 | ".dword" => some 8 | _ => none

/-- A value of n bytes, and the kind of its relocation: 0 for none. -/
def datum (env : Env) (n : Nat) (t : List Char) : Except Err (Nat × Nat × String × Int) :=
  match evalExpr env t with
  | .error e => .error e
  | .ok v =>
    let c := v.c.toInt
    if v.plain then
      if n = 8 || (-(2 ^ (8 * n - 1) : Int) ≤ c && c < 2 ^ (8 * n)) then .ok ((c % 2 ^ (8 * n)).toNat, 0, "", 0) else .error .immRange
    else match n, v.sym, v.here, v.half with
      | 8, some s, 0, none => .ok (0, 1, s, c)
      | 4, some s, 0, none => .ok (0, 2, s, c)
      | 4, some s, -1, none => .ok (0, 3, s, c)
      | _, _, _, _ => .error .relocForm

/-- Place bytes, with a relocation where the kind is not 0. -/
def Src.place (a : Src) (bs : List Byte) (kind : Nat) (s : String) (add : Int) : Src :=
  let x := a.sec
  a.setSec { x with body := x.body ++ bs, rels := x.rels ++ (if kind = 0 then [] else [⟨x.size, kind, .sym s, add⟩]) }

/-- A data directive's list. The point is the address of the statement, so that a difference from it in a later element is made up for in the
addend, which R42 takes from the element's own place. -/
def Src.data (a : Src) (env : Env) (n : Nat) : List (List Char) → Except Err Src
  | [] => .ok a
  | t :: r => match datum env n t with
    | .ok (v, k, s, d) => (a.place (leBytes n v) k s (if k = 3 then d + (a.sec.size : Int) - env.here.toNat else d)).data env n r
    | .error e => .error e

/-- A list of float literals. -/
def Src.floats (a : Src) (f : Fmt) (n : Nat) : List (List Char) → Except Err Src
  | [] => .ok a
  | t :: r => match signedFloat t with
    | some (neg, m, e) => (a.place (leBytes n (floatBits f neg m e)) 0 "" 0).floats f n r
    | none => .error .syntax_

/-- A raw instruction word (R111). -/
def Src.rawWord (a : Src) (line : Nat) (c : Clause) (t : List Char) : Except Err Src :=
  if c.stms.length = 16 then .error .clauseFull
  else match datum (a.env (c.at_ + c.size)) 8 t with
  | .error e => .error e
  | .ok (v, k, s, d) => .ok (a.word c { line := line, cls := .ctl, word := BitVec.ofNat 64 v, rd := [], wr := [], raw := true,
                                        fix := if k = 0 then none else some (.reloc k s d) })

/-! Kernels (R118, R119). -/

/-- A string's bytes with its NUL. -/
def strz (n : String) : List Byte := n.toList.map (fun c => BitVec.ofNat 8 c.toNat) ++ [0]

def Kern.num (k : Kern) (n : String) (dflt : Int) : Int := (k.given.lookup n).getD dflt
def Kern.shared (k : Kern) : Nat := (k.num ".shared" 0).toNat
def Kern.fibres (k : Kern) : Nat := (k.num ".fibres" 1).toNat

/-- The descriptor (R44, R119), before its relocations. -/
def Kern.desc (k : Kern) (codeSize template : Nat) : KDesc :=
  let up (n : Int) : Nat := ((n + 1023) / 1024 * 1024).toNat
  { code := 0, trapvec := 0, spill := BitVec.ofInt 64 (k.num "base" 0), spillStride := (k.num "stride" 0).toNat, codeSize := codeSize,
    scratch := up (k.num ".scratch" 0), ob := up (k.num ".ob" 0), childReserve := (k.num ".child_reserve" 0).toNat,
    energy := (k.num ".energy" 0).toNat, argsSize := (k.num ".args" 0).toNat,
    stack := (k.num ".stack" (min 256 ((256 - k.shared) / k.fibres / 8 * 8) : Nat)).toNat, slots := (k.num ".slots" 1).toNat, fibres := k.fibres,
    shared := k.shared, prio := (k.num ".prio" 0).toNat, flags := BitVec.ofNat 16 k.flags, version := 1, template := template, rsvZero := true }

def descBytes (d : KDesc) : List Byte :=
  leBytes 8 d.code.toNat ++ leBytes 8 d.trapvec.toNat ++ leBytes 8 d.spill.toNat ++ leBytes 4 d.spillStride ++ leBytes 4 d.codeSize ++
  leBytes 4 d.scratch ++ leBytes 4 d.ob ++ leBytes 4 d.childReserve ++ leBytes 4 d.energy ++ leBytes 2 d.argsSize ++ leBytes 2 d.stack ++
  [BitVec.ofNat 8 d.slots, BitVec.ofNat 8 d.fibres, BitVec.ofNat 8 d.shared, BitVec.ofNat 8 d.prio] ++ leBytes 2 d.flags.toNat ++
  leBytes 2 d.version ++ leBytes 4 d.template ++ List.replicate 64 0

/-- The kernel's template (R50): the head, the entries and the default image. -/
def Kern.templateBytes (k : Kern) : List Byte :=
  let n := (k.num ".args" 0).toNat
  leBytes 2 n ++ leBytes 2 k.args.length ++ leBytes 4 0 ++ k.args.flatten ++ (k.image ++ List.replicate ((8 - n % 8) % 8) 0)

/-- `.end_kernel` (R118): the checks of R47 and R50, the template, the descriptor with its relocations, and the kernel's symbol. -/
def Src.endKernel (a : Src) : Except Err Src :=
  match a.kern with
  | none => .error .outOfKernel
  | some k =>
    let hasArgs := k.given.any (fun g => g.1 == ".args")
    let size := (a.secs.getD k.sect Sec.none_).size - k.code
    let d := k.desc size (if hasArgs then a.args.length else 0xFFFFFFFF)
    let fits := k.given.all (fun g => 0 ≤ g.2 && g.2 < 2 ^ 64) && d.energy < 2 ^ 32 && d.spillStride < 2 ^ 32 && d.codeSize < 2 ^ 32 && size != 0
    if !fits || !d.ok [(0, 1)] || (hasArgs && (templateOk k.templateBytes a.strs).isNone) then .error .descLimit
    else
      let at_ := a.kdesc.length
      .ok { a with
        kern := none, kerns := a.kerns ++ [k], bpri := 0x80
        defs := a.defs ++ [⟨k.name, none, at_, 2⟩]
        kdesc := a.kdesc ++ descBytes d
        krels := a.krels ++ [⟨at_, 1, .sect k.sect, k.code⟩] ++ (match k.trap with
          | some s => [⟨at_ + 8, 1, .sym s, 0⟩]
          | none => [])
        args := if hasArgs then a.args ++ k.templateBytes else a.args }

/-- `.kernel` (R118): the first clause is aligned to 64 bytes, and its BPRI is 0x80 (R108). -/
def Src.kernel (a : Src) (t : List Char) : Except Err Src :=
  if a.kern.isSome then .error .kernelNest
  else if a.sec.type != 1 then .error .syntax_
  else match a.fresh t with
  | .error e => .error e
  | .ok n =>
    let b := a.alignTo 64
    .ok { b with kern := some { name := n, sect := b.cur, code := b.sec.size }, bpri := 0x80 }

/-- Note a directive of the kernel; a second one is FIELD_TWICE. -/
def Kern.give (k : Kern) (n : String) (v : Int) : Except Err Kern :=
  if k.given.any (fun g => g.1 == n) then .error .fieldTwice else .ok { k with given := k.given ++ [(n, v)] }

/-- The codes of AKIND (R50). -/
def akind (t : List Char) : Option Nat := ["value", "global", "sealed", "counter"].findIdx? (fun x => x == String.ofList t)

/-- `.arg` (R119): one entry, its name's string, and its bytes of the default image. -/
def Src.arg (a : Src) (k : Kern) (env : Env) (ops : List (List Char)) : Except Err Src :=
  let add (n o z kd : List Char) (v : Except Err Int) : Except Err Src :=
    match akind kd, evalNum env o, evalNum env z, v with
    | some kd, .ok o, .ok z, .ok v =>
      if !nameOk n then .error .syntax_
      else if !([1, 2, 4, 8].contains z) || o < 0 || 512 < o + z then .error .descLimit
      else if v < -(2 ^ (8 * z.toNat - 1) : Int) || (2 ^ (8 * z.toNat) : Int) ≤ v then .error .immRange
      else
        let e := leBytes 2 o.toNat ++ [BitVec.ofNat 8 z.toNat, BitVec.ofNat 8 kd] ++ leBytes 4 a.strs.length ++ leBytes 8 0
        let image := k.image.take o.toNat ++ leBytes z.toNat (v % 2 ^ (8 * z.toNat)).toNat ++ k.image.drop (o + z).toNat
        .ok { a with strs := a.strs ++ strz (String.ofList n), kern := some { k with args := k.args ++ [e], image := image.take k.image.length } }
    | none, _, _, _ => .error .operands
    | _, .error e, _, _ => .error e
    | _, _, .error e, _ => .error e
    | _, _, _, .error e => .error e
  if !k.given.any (fun g => g.1 == ".args") then .error .operands
  else match ops with
  | [n, o, z, kd] => add n o z kd (.ok 0)
  | [n, o, z, kd, v] => add n o z kd (evalNum env v)
  | _ => .error .operands

/-- The directives of R119 that take one number. -/
def numDirs : List String := [".slots", ".fibres", ".shared", ".stack", ".scratch", ".ob", ".args", ".child_reserve", ".energy", ".prio"]
def otherDirs : List String := [".gang", ".shadow", ".idempotent", ".faultmode", ".spill", ".trapvec"]

/-- A directive of a kernel, other than `.arg` (R119). -/
def Kern.directive (k : Kern) (env : Env) (n : String) (ops : List (List Char)) : Except Err Kern :=
  let flag (b : Nat) : Except Err Kern := if ops.isEmpty then .ok { k with flags := k.flags ||| b } else .error .operands
  let r : Except Err (Kern × Int) :=
    if numDirs.contains n then
      match ops with
      | [t] => match evalNum env t with
        | .ok v => .ok ({ k with image := if n == ".args" then List.replicate (min v.toNat 512) 0 else k.image }, v)
        | .error e => .error e
      | _ => .error .operands
    else (match n, ops.map String.ofList with
    | ".gang", _ => flag 1
    | ".shadow", _ => flag 2
    | ".idempotent", _ => flag 16
    | ".faultmode", ["freeze"] => .ok k
    | ".faultmode", ["runahead"] => .ok { k with flags := k.flags ||| 8 }
    | ".spill", ["trap"] => .ok k
    | ".spill", ["hw", _, _] => match evalNum env (ops.getD 1 []), evalNum env (ops.getD 2 []) with
      | .ok b, .ok z => ((k.give "base" b).bind (fun k => k.give "stride" z)).map (fun (k : Kern) => { k with flags := k.flags &&& 0xFFFB })
      | .error e, _ => .error e
      | _, .error e => .error e
    | ".trapvec", [s] => if nameOk s.toList && (regName s.toList).isNone then .ok { k with trap := some s } else .error .operands
    | _, _ => .error .operands).map (fun k => (k, 0))
  if k.given.any (fun g => g.1 == n) then .error .fieldTwice
  else match r with
  | .ok (k, v) => k.give n v
  | .error e => .error e

/-! Directives (R109 to R119). -/

/-- The type of a section's name: the name itself, or its beginning before a point (R113). -/
def sectType (t : List Char) : Option Nat :=
  [(".text", 1), (".data", 4), (".rodata", 5), (".sealed", 6)].findSome? (fun e =>
    let n := e.1.toList
    if t = n || (n ++ ['.']).isPrefixOf t then some e.2 else none)

def leastAlign (type : Nat) : Nat := if type = 1 then 6 else if type = 6 then 8 else 3

/-- `.section` (R113). -/
def Src.section_ (a : Src) (t : List Char) : Except Err Src :=
  match sectType t with
  | none => .error .badSection
  | some ty =>
    let n := String.ofList t
    match a.secs.findIdx? (fun x => x.name == n) with
    | some i => .ok { a with cur := i }
    | none => .ok { a with secs := a.secs ++ [⟨n, ty, leastAlign ty, [], [], []⟩], cur := a.secs.length }

/-- One operand of `.clause`: the field and its value (R110). -/
def frameField (env : Env) (t : List Char) : Except Err (String × Nat) :=
  let key := trim (t.takeWhile (fun c => c != '='))
  let val := trim ((t.dropWhile (fun c => c != '=')).drop 1)
  let k := String.ofList key
  let width := match k with
    | "BPRI" | "WTOK" => 8 | "EPH" => 16 | "CLS" => 4 | _ => 0
  if val.isEmpty then .error .syntax_
  else if k == "CNT" || k == "TERM" then .error .operands
  else if width = 0 then .error .noField
  else
    let toks := (splitTop '|' 0 [] val).map (fun x => regName (trim x))
    if k == "WTOK" && toks.all (fun x => x.any (fun r => r.1 = 'd')) then
      .ok (k, toks.foldl (fun m x => m ||| 2 ^ (x.map (·.2)).getD 0) 0)
    else match k == "CLS", classes.find? (fun c => opNames c != [] && String.ofList val == className c), evalNum env val with
      | true, some c, _ => .ok (k, c.code.toNat)
      | _, _, .ok v => if 0 ≤ v && v < 2 ^ width then .ok (k, v.toNat) else .error .fieldRange
      | _, _, .error e => .error e
where
  className : Cls → String
    | .ctl => "ctl" | .sca => "sca" | .vec => "vec" | .pair => "pair" | .mem => "mem" | .mtx => "mtx" | .eng => "eng" | .syn => "syn" | .sys => "sys"

/-- The operands of `.clause`; a second value of a field is FIELD_TWICE. -/
def frameFields (env : Env) (fs : List (String × Nat)) : List (List Char) → Except Err (List (String × Nat))
  | [] => .ok fs
  | t :: r => match frameField env t with
    | .ok f => if fs.any (fun g => g.1 == f.1) then .error .fieldTwice else frameFields env (fs ++ [f]) r
    | .error e => .error e

/-- `.clause` (R110). -/
def Src.frame (a : Src) (ops : List (List Char)) : Except Err Src :=
  if a.sec.type != 1 then .error .syntax_
  else match frameFields a.envHere [] ops with
  | .error e => .error e
  | .ok fs =>
    let b := a.opened
    match b.clause with
    | some c => .ok (b.putClause { c with framed := true, bpri := (fs.lookup "BPRI").getD c.bpri, wtok := (fs.lookup "WTOK").getD 0,
                                          eph := (fs.lookup "EPH").getD 0, named := fs.lookup "CLS" })
    | none => .ok b

/-- `.global` and `.local` (R116). -/
def Src.bind_ (a : Src) (b : Nat) (ops : List (List Char)) : Except Err Src :=
  if ops.isEmpty || !ops.all nameOk then .error .syntax_
  else if ops.any (fun t => (regName t).isSome) then .error .regName
  else .ok { a with binds := ops.map (fun t => (String.ofList t, b)) ++ a.binds }

/-- `.equ` (R116). -/
def Src.equ (a : Src) (ops : List (List Char)) : Except Err Src :=
  match ops with
  | [n, e] => match a.fresh n, evalNum a.envHere e with
    | .ok n, .ok v => .ok { a with syms := a.syms ++ [(n, BitVec.ofInt 64 v)], defs := a.defs ++ [⟨n, none, (v % 2 ^ 64).toNat, 0⟩] }
    | .error e, _ => .error e
    | _, .error e => .error e
  | _ => .error .syntax_

/-- The directives that do not end a framed clause. -/
def Src.minor (a : Src) (n : String) (t : List Char) : Except Err Src :=
  let ops := operandList t
  match n with
  | ".global" => a.bind_ 1 ops
  | ".local" => a.bind_ 0 ops
  | ".equ" => a.equ ops
  | _ =>
    if !(numDirs.contains n || otherDirs.contains n || n == ".arg") then .error .syntax_
    else match a.kern with
    | none => .error .outOfKernel
    | some k =>
      if n == ".arg" then a.arg k a.envHere ops
      else match k.directive a.envHere n ops with
      | .ok k => .ok { a with kern := some k }
      | .error e => .error e

/-- `.align` (R114). -/
def Src.align (a : Src) (t : List Char) : Except Err Src :=
  match evalNum a.envHere t with
  | .error e => .error e
  | .ok v => if 8 ≤ v && v ≤ 4096 && (List.range 13).any (fun i => (2 ^ i : Int) = v) then .ok (a.alignTo v.toNat) else .error .immRange

/-- A directive. Any but `.eph` ends an automatic clause (R105 rule 1); a framed one ends with `.clause`, a change of section, or the start or
end of a kernel (R110). -/
def Src.directive (a : Src) (line : Nat) (n : String) (t : List Char) : Except Err Src :=
  let major := [".clause", ".section", ".kernel", ".end_kernel"].contains n
  let isData := (dataRow n).isSome || n == ".f32" || n == ".bf16"
  let ops := operandList t
  if n == ".eph" then (if t.isEmpty then .ok { a with ephs := true } else .error .syntax_)
  else match a.clause with
  | some c =>
    if c.framed && n == ".dword" then (match ops with
      | [t] => a.rawWord line c t
      | _ => .error .operands)
    else if c.framed && n == ".align" then .error .alignInClause
    else if c.framed && isData then .error .dataInText
    else if c.framed && !major then a.minor n t
    else outside isData ops
  | none => outside isData ops
where
  outside (isData : Bool) (ops : List (List Char)) : Except Err Src :=
    if a.ephs then .error .ephPlace
    else match a.close with
    | .error e => .error e
    | .ok a =>
      match n with
      | ".section" => a.section_ t
      | ".clause" => a.frame ops
      | ".kernel" => a.kernel t
      | ".end_kernel" => a.endKernel
      | ".align" => a.align t
      | _ =>
        if isData then
          (if a.sec.type = 1 then .error .dataInText
           else if ops.isEmpty then .error .syntax_
           else match dataRow n with
             | some z => a.data a.envHere z ops
             | none => if n == ".f32" then a.floats f32 4 ops else a.floats bf16 2 ops)
        else a.minor n t

/-- One line (R90). -/
def Src.line (a : Src) (i : Nat) (t : List Char) : Except Err Src :=
  let (l, r) := takeLabel (uncomment t)
  let rest (a : Src) : Except Err Src :=
    match r with
    | [] => .ok a
    | '.' :: _ => let (w, o) := firstWord r; a.directive i (String.ofList w) o
    | _ => a.instr i r
  match l with
  | some n => match a.label n with
    | .ok a => rest a
    | .error e => .error e
  | none => rest a

/-- The lines in order. -/
def Src.lines (a : Src) : Nat → List (List Char) → Except Err Src
  | _, [] => .ok a
  | i, t :: r => match a.line i t with
    | .ok a => a.lines (i + 1) r
    | .error e => .error e

/-- The end of the source (log entry 78: an open kernel is refused). -/
def Src.finish (a : Src) : Except Err Src :=
  if a.ephs then .error .ephPlace
  else if a.kern.isSome then .error .syntax_
  else match a.close with
  | .error e => .error e
  | .ok a => .ok { a with secs := a.secs.map (fun x => if x.type = 6 then { x with body := x.body ++ List.replicate ((32 - x.body.length % 32) % 32) 0 } else x) }

/-! LA (R112). -/

/-- A word where it stands: its clause, its address, the class in which it is decoded, and whether a label stands before it. -/
structure Place where
  stm    : Stm
  at_    : Nat
  cls    : Cls
  kern   : Option Nat
  marked : Bool
  bit    : Bool
  deriving DecidableEq, Repr

/-- The words of a clause. -/
def Clause.places (c : Clause) (marked : Bool) : List Place :=
  c.stms.mapIdx (fun i x =>
    { stm := x, at_ := c.at_ + 8 * (i + 1), kern := c.kern, marked := marked && i = 0, bit := x.eph || c.eph / 2 ^ i % 2 = 1
      cls := if x.raw then (Cls.ofCode (BitVec.ofNat 4 c.cls)).getD .sys else x.cls })

/-- The rest of a run: up to the first control word, which belongs to it, or the point before a label. -/
def runOf : List Place → List Place
  | [] => []
  | x :: r => if x.marked then [] else if x.cls = .ctl then [x] else x :: runOf r

/-- The registers that a word reads: `ret` reads its link (R171). -/
def Place.reads (x : Place) (shared : Nat) : List Reg :=
  if x.stm.ret then x.stm.rd ++ [('v', 62 - shared), ('v', 63 - shared)] else x.stm.rd

/-- Whether a word ends the count of another: it reads or writes a register that the other writes, uses a token, or is a raw word, whose
registers are not known (log entry 78). -/
def Place.ends (x : Place) (shared : Nat) (wr : List Reg) : Bool :=
  x.stm.raw || x.stm.token || (x.reads shared).any wr.contains || x.stm.wr.any wr.contains

/-- LA of a word (R112). -/
def laOf (shared : Nat) (x : Place) (after : List Place) : Nat :=
  let run := runOf after
  min 14 (if x.stm.wr.isEmpty then run else run.takeWhile (fun y => !y.ends shared x.stm.wr)).length

def laField (w : W64) : Nat := (w.extractLsb' 47 4).toNat

/-- A control word after which the fibre's next word is not the next in memory: always guarded, and no conditional branch. -/
def Place.leaves (x : Place) : Bool :=
  x.stm.xfer && (x.stm.word.extractLsb' 51 4).toNat = 7 && !([3, 4].contains (x.stm.word.extractLsb' 56 8).toNat)

/-- The words that follow in the fibre, as far as memory shows them. -/
def flowOf : List Place → List Place
  | [] => []
  | x :: r => if x.leaves then [x] else x :: flowOf r

/-- Whether an explicit LA's window, the next LA words of the fibre, holds a word that reads the destination (R67, R112). -/
def overlaps (shared : Nat) (x : Place) (after : List Place) : Bool :=
  x.stm.long && !x.stm.auto && laField x.stm.word != 15
    && ((flowOf after).take (laField x.stm.word)).any (fun y => !y.stm.raw && (y.reads shared).any x.stm.wr.contains)

/-! The words as they are written. -/

/-- The definition of a name. -/
def Src.def? (a : Src) (n : String) : Option Def := a.defs.find? (fun d => d.name == n)

/-- Whether an undefined name is declared global (R116). -/
def Src.isGlobal (a : Src) (n : String) : Bool := a.binds.lookup n = some 1

/-- A control target: the distance in words, where it is defined in the same section; a TGT32 relocation where it is undefined and global, or
stands in another TEXT section. With its expression it must again be a label of that section, so that it is a header (R78, R102, R107). -/
def Src.target (a : Src) (sect at_ : Nat) (n : String) (add : Int) : Except Err (W64 × List Rel) :=
  let rel : Except Err (W64 × List Rel) := .ok (0, [⟨at_, 4, .sym n, add⟩])
  match a.def? n with
  | none => if a.isGlobal n then rel else .error .undefined
  | some d => match d.kind, d.sect with
    | 1, some i =>
      let dest := (d.value : Int) + add
      if !a.defs.any (fun e => e.kind = 1 && e.sect = some i && (e.value : Int) = dest) then .error .target
      else if i != sect then rel
      else
        let d := dest - at_
        if -(2 ^ 34 : Int) ≤ d && d < 2 ^ 34 then .ok (BitVec.ofNat 64 (d / 8 % 2 ^ 32).toNat, []) else .error .target
    | _, _ => .error .target

/-- The shared-window size and the fibres of the kernel in which a word stands; outside a kernel the least and the most (log entry 78). -/
def Src.ctx (a : Src) (k : Option Nat) : Nat × Nat :=
  match k with
  | some i => match a.kerns[i]? with
    | some k => (k.shared, k.fibres)
    | none => (0, 4)
  | none => (0, 4)

/-- The checks of R96 and R109 on a word, and its final bits. The fibre of a barrier's mask is one that the mask names. -/
def Src.emit (a : Src) (sect : Nat) (x : Place) (after : List Place) : Except Err (W64 × List Rel × List Nat) :=
  let (sh, f) := a.ctx x.kern
  if x.stm.raw then .ok (x.stm.word, [], [])
  else
    let w := if x.stm.auto then x.stm.word ||| (BitVec.ofNat 64 (laOf sh x after) <<< 47) else x.stm.word
    let who := ((List.range 4).find? (fun i => w.getLsbD (32 + i))).getD 0
    let k (e : Bool) : DecCtx := { shared := sh, fibres := f, fibre := who, eph := e }
    let ok (e : Bool) : Bool := match decode (k e) x.cls w with
      | .ok (.nonInstructionEncoding _) => false
      | .ok _ => true
      | .error _ => false
    if !ok false then .error .illegalForm
    else if x.bit && !ok true then .error .ephPlace
    else
      let warn := if overlaps sh x after then [x.stm.line] else []
      match x.stm.fix with
      | some (.target n d) => match a.target sect x.at_ n d with
        | .ok (t, rs) => .ok (w ||| t, rs, warn)
        | .error e => .error e
      | _ => .ok (w, [], warn)

/-- What a section's words come to: their bits in order, relocations and warnings. -/
structure Emitted where
  words : List W64
  rels  : List Rel
  warns : List Nat
  deriving DecidableEq, Repr

def Src.emitAll (a : Src) (sect : Nat) : List Place → Except Err Emitted
  | [] => .ok ⟨[], [], []⟩
  | x :: r => match a.emit sect x r, a.emitAll sect r with
    | .ok (w, rs, ws), .ok e => .ok ⟨w :: e.words, rs ++ e.rels, ws ++ e.warns⟩
    | .error e, _ => .error e
    | _, .error e => .error e

/-- The header of a clause (R59). -/
def Clause.header (c : Clause) : W64 :=
  let eph := c.stms.mapIdx (fun i x => if x.eph then 2 ^ i else 0)
  Hdr.toWord { cls := BitVec.ofNat 4 c.cls, cnt := BitVec.ofNat 4 (c.stms.length - 1), wtok := BitVec.ofNat 8 c.wtok, bpri := BitVec.ofNat 8 c.bpri,
               eph := BitVec.ofNat 16 (eph.foldl (· ||| ·) c.eph), term := c.term, rsv := 0 }

/-- The 64-bit words of clauses, headers and instruction words in turn. -/
def weave : List Clause → List W64 → List W64
  | [], _ => []
  | c :: r, ws => (c.header :: ws.take c.stms.length) ++ weave r (ws.drop c.stms.length)

/-- A TEXT section's bytes, with its relocations and warnings. -/
def Src.text (a : Src) (i : Nat) (x : Sec) : Except Err (Sec × List Nat) :=
  let marked (c : Clause) : Bool := a.defs.any (fun d => d.sect = some i && d.kind = 1 && d.value = c.at_)
  match a.emitAll i (x.clauses.flatMap (fun c => c.places (marked c))) with
  | .ok e => .ok ({ x with body := (weave x.clauses e.words).flatMap (fun w => leBytes 8 w.toNat), rels := x.rels ++ e.rels }, e.warns)
  | .error e => .error e

def Src.texts (a : Src) : Nat → List Sec → Except Err (List Sec × List Nat)
  | _, [] => .ok ([], [])
  | i, x :: r =>
    match (if x.type = 1 then a.text i x else .ok (x, [])), a.texts (i + 1) r with
    | .ok (y, w), .ok (ys, ws) => .ok (y :: ys, w ++ ws)
    | .error e, _ => .error e
    | _, .error e => .error e

/-- Every name that a relocation uses is defined or global (R116). -/
def Src.refsOk (a : Src) : List Rel → Except Err Unit
  | [] => .ok ()
  | r :: t => match r.ref with
    | .sect _ => a.refsOk t
    | .sym n => if (a.def? n).isSome || a.isGlobal n then a.refsOk t else .error .undefined

/-- A handler stands in TEXT (R102, R119). -/
def Src.handlersOk (a : Src) : Bool :=
  a.krels.all (fun r => match r.ref with
    | .sect _ => true
    | .sym n => (a.def? n).all (fun d => d.kind = 1))

/-! The object file (R35 to R52, R120). -/

/-- The string section, and the offsets of strings added to it one after another. -/
def addStrs (tab : List Byte) : List String → List Byte × List Nat
  | [] => (tab, [])
  | n :: r => let (t, os) := addStrs (tab ++ strz n) r; (t, tab.length :: os)

/-- A symbol of the object (R40). -/
structure SymRec where
  name : String
  kind : Nat
  bind : Nat
  sect : Nat
  value : Nat
  size : Nat
  deriving DecidableEq, Repr

/-- The undefined global names, in the order of their declaration. -/
def Src.undefs (a : Src) : List String :=
  (a.binds.reverse.map (·.1)).foldl (fun l n => if l.contains n || (a.def? n).isSome || !a.isGlobal n then l else l ++ [n]) []

/-- The symbol records (R40, R116): one for the section of each kernel, the definitions, the undefined names. The sections of the source
are numbered from 1, and KDESC follows them. -/
def Src.symbols (a : Src) : List SymRec :=
  let bind (n : String) : Nat := if a.isGlobal n then 1 else 0
  let next (d : Def) : Nat := match d.sect with
    | some i => (a.defs.filter (fun e => e.sect = some i && d.value < e.value)).foldl (fun m e => min m e.value) (a.secs.getD i Sec.none_).size
    | none => d.value
  (a.secs.mapIdx (fun i x => (⟨x.name, 4, 0, i + 1, 0, 0⟩ : SymRec)))
  ++ a.defs.map (fun d => match d.kind with
    | 2 => ⟨d.name, 2, 1, a.secs.length + 1, d.value, 128⟩
    | 0 => ⟨d.name, 0, bind d.name, 0xFFFF, d.value, 0⟩
    | k => ⟨d.name, k, bind d.name, (d.sect.map (· + 1)).getD 0, d.value, if k = 3 then next d - d.value else 0⟩)
  ++ a.undefs.map (fun n => ⟨n, 0, 1, 0, 0, 0⟩)

/-- The index of what a relocation is against. -/
def symIndex (ss : List SymRec) (r : Ref) : Nat :=
  1 + ((match r with
    | .sect i => ss.findIdx? (fun (s : SymRec) => s.kind = 4 && s.sect = i + 1)
    | .sym n => ss.findIdx? (fun (s : SymRec) => s.kind != 4 && s.name == n)).getD 0)

def relBytes (ss : List SymRec) (r : Rel) : List Byte :=
  leBytes 8 r.place ++ leBytes 4 (symIndex ss r.ref) ++ leBytes 2 r.kind ++ leBytes 2 0 ++ leBytes 8 (r.add % 2 ^ 64).toNat

/-- A note record of the owner "Akvia" (R52). -/
def noteBytes (ntype : Nat) (desc : List Byte) : List Byte :=
  leBytes 4 6 ++ leBytes 4 desc.length ++ leBytes 4 ntype ++ strz "Akvia" ++ [0, 0] ++ desc ++ List.replicate ((4 - desc.length % 4) % 4) 0

/-- The highest frame register that a kernel's words name (R52). -/
def Src.highest (a : Src) (k : Nat) : Nat :=
  let regs := a.secs.flatMap (fun x => (x.clauses.filter (fun c => c.kern = some k)).flatMap (fun c => c.stms.flatMap (fun w => w.rd ++ w.wr)))
  (regs.filter (fun r => r.1 = 'v' && r.2 < 64 - (a.ctx (some k)).1)).foldl (fun m r => max m r.2) 0

/-- The deepest call depth of a kernel (R52): 0 where its words hold no `call`, `callx` or raw word; otherwise it depends on its callees, and no
rule says how it is found (log entry 78). -/
def Src.depth (a : Src) (k : Nat) : Nat :=
  let ws := a.secs.flatMap (fun x => (x.clauses.filter (fun c => c.kern = some k)).flatMap (·.stms))
  if ws.any (fun w => w.raw || (w.cls = .ctl && [6, 7].contains (w.word.extractLsb' 56 8).toNat)) then Config.callDepth k else 0

/-- The notes (R52, R120): PRODUCER, and RESOURCES of each kernel. -/
def Src.notes (a : Src) (ss : List SymRec) : List Byte :=
  noteBytes 1 (Config.producer.filter (fun b => b != 0) ++ [0])
  ++ a.kerns.zipIdx.flatMap (fun (k, i) =>
    noteBytes 3 (leBytes 4 (symIndex ss (.sym k.name)) ++ leBytes 4 (a.highest i) ++ leBytes 4 (a.depth i) ++ leBytes 4 0))

/-- A section of the file. -/
structure FileSec where
  name  : String
  type  : Nat
  align : Nat
  link  : Nat
  body  : List Byte
  deriving DecidableEq, Repr

def roundUp (n m : Nat) : Nat := (n + m - 1) / m * m

/-- The contents one after another from an offset, each at its alignment: the bytes, and the offset of each. -/
def layOut (pos : Nat) : List FileSec → List Byte × List Nat
  | [] => ([], [])
  | x :: r =>
    let o := roundUp pos (2 ^ x.align)
    let (b, os) := layOut (o + x.body.length) r
    (List.replicate (o - pos) 0 ++ x.body ++ b, o :: os)

/-- SFLAGS of a type (R37). -/
def flagsOf (type : Nat) : Nat := match sectRow type with
  | some (f, _, _, _) => f
  | none => 0

/-- The addresses of the allocated sections: one after another from 0 (log entry 78). -/
def addrsOf (pos : Nat) : List FileSec → List Nat
  | [] => []
  | x :: r =>
    if flagsOf x.type % 2 = 1 then roundUp pos (2 ^ x.align) :: addrsOf (roundUp pos (2 ^ x.align) + x.body.length) r
    else 0 :: addrsOf pos r

/-- One entry of the section table (R36). -/
def entryBytes (x : FileSec) (name addr off : Nat) : List Byte :=
  leBytes 4 name ++ leBytes 2 x.type ++ leBytes 2 (flagsOf x.type) ++ leBytes 8 addr ++ leBytes 8 off ++ leBytes 8 x.body.length ++
  leBytes 4 x.link ++ leBytes 2 x.align ++ leBytes 2 0

/-- The header (R35): RELOC set, EXEC clear, DEVICE as the option says. -/
def headerBytes (device : Bool) (count strtab size : Nat) : List Byte :=
  [0x4C, 0x4F, 0x46, 0x1A] ++ leBytes 2 1 ++ leBytes 2 0 ++ leBytes 2 64 ++ leBytes 2 40 ++ leBytes 2 count ++ leBytes 2 strtab ++
  leBytes 4 (if device then 6 else 4) ++ leBytes 2 0x4C5A ++ leBytes 2 0 ++ leBytes 8 64 ++ leBytes 8 0 ++ leBytes 8 size ++ leBytes 16 0

/-- The sections of the file, before the strings: those of the source, then what `lomas` writes itself (R113). -/
def Src.fileSecs (a : Src) (ss : List SymRec) (secs : List Sec) : List FileSec :=
  let src := secs.map (fun x => (⟨x.name, x.type, x.align, 0, x.body⟩ : FileSec))
  let kd := secs.length + 1
  let rela := (secs.zipIdx.filter (fun e => !e.1.rels.isEmpty)).map (fun (x, i) => (⟨".rela", 10, 3, i + 1, x.rels.flatMap (relBytes ss)⟩ : FileSec))
  src ++ (if a.kerns.isEmpty then [] else [⟨".kdesc", 2, 7, 0, a.kdesc⟩])
  ++ (if a.args.isEmpty then [] else [⟨".args", 3, 3, 0, a.args⟩]) ++ [⟨".note", 7, 2, 0, a.notes ss⟩] ++ rela
  ++ (if a.krels.isEmpty then [] else [⟨".rela", 10, 3, kd, a.krels.flatMap (relBytes ss)⟩])

/-- The bytes of the object file. -/
def Src.file (a : Src) (device : Bool) (secs : List Sec) : List Byte :=
  let b := { a with secs := secs }
  let ss := b.symbols
  let fs := b.fileSecs ss secs
  let (tab1, names) := addStrs a.strs (ss.map (·.name))
  let (tab, secNames) := addStrs tab1 (fs.map (·.name) ++ [".symtab", ".strtab"])
  let symBytes := List.replicate 24 0 ++ (ss.zip names).flatMap (fun (s, o) =>
    leBytes 4 o ++ leBytes 1 s.kind ++ leBytes 1 s.bind ++ leBytes 2 s.sect ++ leBytes 8 s.value ++ leBytes 8 s.size)
  let all := fs ++ [⟨".symtab", 9, 3, 0, symBytes⟩, ⟨".strtab", 11, 0, 0, tab⟩]
  let count := all.length + 1
  let (body, offs) := layOut (64 + 40 * count) all
  let addrs := addrsOf 0 all
  let table := (all.zip (secNames.zip (addrs.zip offs))).flatMap (fun (x, n, ad, o) => entryBytes x n ad o)
  headerBytes device count (count - 1) (64 + 40 * count + body.length) ++ List.replicate 40 0 ++ table ++ body

/-- What `lomas` answers: the file, and the lines that draw LA_OVERLAP. -/
structure Object where
  file  : List Byte
  warns : List Nat
  deriving DecidableEq, Repr

/-- `lomas` (R90 to R120): any error leaves no file. -/
def lomas (device : Bool) (source : String) : Except Err Object :=
  match (({} : Src).lines 1 (linesOf [] source.toList)).bind Src.finish with
  | .error e => .error e
  | .ok a =>
    match a.texts 0 a.secs with
    | .error e => .error e
    | .ok (secs, warns) =>
      match a.refsOk (secs.flatMap (·.rels) ++ a.krels) with
      | .error e => .error e
      | .ok _ => if !a.handlersOk then .error .target else .ok { file := a.file device secs, warns := warns }

end Sys2Proof.Asm
end

