-- ==== Sys2Proof/Tests/Slice0.lean ====
section
/-! SUPPORT. Tests: words that the spec writes out, ill-formed words, single steps worked out by hand from the rules, and for each
statement with hypotheses a state and operands that meet them. -/

set_option autoImplicit false
set_option Elab.async false

open Sys2Proof Sys2Proof.Machine

namespace Sys2Proof.Tests

/-- The guard "always", LA 0, TOK 0. -/
abbrev hd0 : Head := headAlways

/-- The guard "never". -/
def hdN : Head := { hd0 with gn := true }

/-- A header of the vec class with two words. -/
def vecHdr : W64 := 0x2100000000000000

/-- An entry of lanes 0, 1 and 2 at the first word of that clause. -/
def e0 : Entry := { Entry.empty with pc := 4104, hdr := 4096, hw := vecHdr, inside := true, mask := 7 }

def kd0 : KDesc := { KDesc.empty with code := 4096, trapvec := 8192, stack := 64, slots := 1, fibres := 1, scratch := 1024, ob := 1024, flags := 1 }

/-- A running fibre at USER, of workgroup 1, slot 0, fibre 0. -/
def f0 : Fibre := { Fibre.empty with life := .running, launched := 0xFFFFFFFF, pregs := [(0, 0xFFFFFFFF)], frontier := [e0] }

def w0 : Wg := { Wg.empty with life := .running, grid := 1, kd := kd0, threads := 32 }

def g0 : Grid := { Grid.empty with st := .running, kd := kd0, gx := 1, gy := 1, gz := 1, threads := 32, held := 1, next := 1 }

/-- Virtual device 0, its heap the first 64 MiB of device memory. -/
def v0 : Vd := { Vd.empty with enabled := true, heapLimit := 0x4000000, cfg := { FunctionCfg.empty with cores := [0, 1], gridQuota := 16 }, quotaUsed := 1, nextGrid := 2 }

/-- One fibre about to issue on core 0. -/
def s0 : State :=
  { State.reset with
    cur := 64, fibres := [(64, f0)], slots := [(16, { Slot.empty with active := true })], wgs := [(1, w0)], nextWg := 2,
    grids := [(gkey 0 1, g0)], vds := [(0, v0)], damask := { Damask.empty with ready := true } }

/-- The same with another fibre, or another virtual device. -/
def withF (f : Fibre) : State := { s0 with fibres := [(64, f)] }
def withV (v : Vd) : State := { s0 with vds := [(0, v)] }
def withW (w : Wg) : State := { s0 with wgs := [(1, w)] }

/-! Ill-formed words: one for each check of WellFormed, and each check lets a good word pass. -/

/-- A fibre with S 8, F 4 and number 1, and the same with the header's EPH bit on. -/
def c0 : DecCtx := { shared := 8, fibres := 4, fibre := 1, eph := false }
def cE : DecCtx := { c0 with eph := true }

def z3 : V3 := { hd := hd0, d := 0, a := 0, b := 0, c := 0, ty := 4, mode := 0, md := 0, z := false, bsel := 0, sub := 0 }
def zi : VI := { sos := false, gn := false, gp := 7, ty := 4, mode := 0, d := 0, a := 0, imm := 0 }
def zm : FM := { hd := hd0, d := 0, a := 0, b := 0, ty := 0, scope := 0, str := false, space := 0, cnt := 0, abase := 0, off := 0 }
def zx : FX := { hd := hd0, acc := 0, obh := 0, bv := 0, g := 0, tya := 0, tyb := 0, ck := false, clr := false, oboff := 0 }
def zc : FC := { hd := hd0, a := 0, b := 0, tgt := 0 }
def zq : FQ := { hd := hd0, q := 0, a := 0, b := 0, c := 0, sub := 0 }
def zy : FY := { hd := hd0, d := 0, a := 0, b := 0, num := 0, sub := 0 }
def zp : FP := { vop := 0, sop := 0, gn := false, gp := 7, vty := 0, vd := 0, va := 0, vb := 0, sd := 0, sa := 0, sb := 0, simm := 0 }

/-- LA 1, and TOK 1 with LA 0 (R67). -/
def hdL : Head := { hd0 with la := 1 }
def hdT : Head := { hd0 with tok := 1 }

theorem test_wf_fixed : Instr.wellFormed c0 (.vadd z3) = true ∧ Instr.wellFormed cE (.vadd z3) = true ∧
    Instr.wellFormed c0 (.vadd { z3 with hd := hdL }) = false ∧ Instr.wellFormed c0 (.vadd { z3 with hd := hdT }) = false ∧ Instr.wellFormed cE (.bra zc) = false := by decide
theorem test_wf_long : Instr.wellFormed c0 (.frcp { z3 with ty := 10, hd := hdL }) = true ∧ Instr.wellFormed c0 (.frcp { z3 with ty := 10, hd := hdT }) = false ∧
    Instr.wellFormed c0 (.frcp { z3 with ty := 10, hd := { hdT with la := 15 } }) = true ∧ Instr.wellFormed cE (.frcp { z3 with ty := 10 }) = false := by decide
theorem test_wf_scalar_destination : Instr.wellFormed c0 (.sadd { z3 with d := 31, bsel := 1 }) = true ∧ Instr.wellFormed c0 (.sadd { z3 with d := 32, bsel := 1 }) = false := by decide
theorem test_wf_predicate : Instr.wellFormed c0 (.pnot { z3 with ty := 0, a := 7 }) = true ∧ Instr.wellFormed c0 (.pnot { z3 with ty := 0, a := 8 }) = false := by decide
theorem test_wf_handle : Instr.wellFormed c0 (.obrel { zy with d := 15 }) = true ∧ Instr.wellFormed c0 (.obrel { zy with d := 16 }) = false := by decide
theorem test_wf_even : Instr.wellFormed c0 (.vadd { z3 with ty := 6, d := 2 }) = true ∧ Instr.wellFormed c0 (.vadd { z3 with ty := 6, d := 3 }) = false := by decide
theorem test_wf_source_type : Instr.wellFormed c0 (.fcvt { z3 with ty := 10, sub := 11, a := 2 }) = true ∧ Instr.wellFormed c0 (.fcvt { z3 with ty := 10, sub := 11, a := 3 }) = false ∧
    Instr.wellFormed c0 (.fcvt { z3 with ty := 10, sub := 10 }) = false := by decide
theorem test_wf_run : Instr.wellFormed c0 (.ld { zm with d := 54, ty := 4, cnt := 1 }) = true ∧ Instr.wellFormed c0 (.ld { zm with d := 55, ty := 4, cnt := 1 }) = false ∧
    Instr.wellFormed c0 (.ld { zm with d := 56, ty := 4, cnt := 3 }) = true ∧ Instr.wellFormed c0 (.ld { zm with d := 57, ty := 4, cnt := 3 }) = false := by decide
theorem test_wf_type : Instr.wellFormed c0 (.vmul { z3 with ty := 14 }) = true ∧ Instr.wellFormed c0 (.vmul { z3 with ty := 16 }) = false := by decide
theorem test_wf_saturation : Instr.wellFormed c0 (.vadd { z3 with mode := 1 }) = true ∧ Instr.wellFormed c0 (.vadd { z3 with mode := 2 }) = false ∧ Instr.wellFormed c0 (.vmin { z3 with mode := 1 }) = false := by decide
theorem test_wf_rounding : Instr.wellFormed c0 (.fadd { z3 with ty := 10, mode := 4 }) = true ∧ Instr.wellFormed c0 (.fadd { z3 with ty := 10, mode := 5 }) = false := by decide
theorem test_wf_modifiers : Instr.wellFormed c0 (.fcmp { z3 with ty := 10, md := 13 }) = true ∧ Instr.wellFormed c0 (.fcmp { z3 with ty := 10, md := 14 }) = false ∧
    Instr.wellFormed c0 (.vcmp { z3 with md := 5 }) = true ∧ Instr.wellFormed c0 (.vcmp { z3 with md := 6 }) = false ∧ Instr.wellFormed c0 (.vadd { z3 with md := 1 }) = false ∧
    Instr.wellFormed c0 (.frint { z3 with ty := 10, md := 3 }) = true ∧ Instr.wellFormed c0 (.frint { z3 with ty := 10, md := 4 }) = false := by decide
theorem test_wf_zeroing : Instr.wellFormed c0 (.vadd { z3 with z := true }) = true ∧ Instr.wellFormed c0 (.vcmp { z3 with z := true }) = false := by decide
theorem test_wf_unused : Instr.wellFormed c0 (.vadd { z3 with c := 1 }) = false ∧ Instr.wellFormed c0 (.vadd { z3 with sub := 1 }) = false ∧ Instr.wellFormed c0 (.vabs { z3 with b := 1 }) = false := by decide
theorem test_wf_b_operand : Instr.wellFormed c0 (.sadd { z3 with bsel := 0 }) = false ∧ Instr.wellFormed c0 (.pand { z3 with ty := 0, b := 8 }) = false ∧ Instr.wellFormed c0 (.qbc { z3 with ty := 5 }) = false := by decide
theorem test_wf_immediate : Instr.wellFormed c0 (.vmovi zi) = true ∧ Instr.wellFormed c0 (.vmovi { zi with ty := 11 }) = false ∧ Instr.wellFormed c0 (.vmovi { zi with mode := 1 }) = false ∧
    Instr.wellFormed c0 (.smovh { zi with ty := 6, mode := 1 }) = true ∧ Instr.wellFormed c0 (.smovh { zi with ty := 6, mode := 2 }) = false ∧ Instr.wellFormed c0 (.smovi { zi with d := 32 }) = false := by decide
theorem test_wf_sub : Instr.wellFormed c0 (.fsgn { z3 with ty := 10, sub := 4 }) = true ∧ Instr.wellFormed c0 (.fsgn { z3 with ty := 10, sub := 5 }) = false ∧ Instr.wellFormed c0 (.vunpack { z3 with ty := 16, sub := 3 }) = true ∧
    Instr.wellFormed c0 (.vunpack { z3 with ty := 14, sub := 2 }) = false ∧ Instr.wellFormed c0 (.shfl { z3 with ty := 5, sub := 4 }) = false ∧ Instr.wellFormed c0 (.icvt { z3 with ty := 8, sub := 9 }) = false := by decide
theorem test_wf_reduction : Instr.wellFormed c0 (.vred { z3 with ty := 10, sub := 2 }) = true ∧ Instr.wellFormed c0 (.vred { z3 with ty := 10, sub := 3 }) = false := by decide
theorem test_wf_address : Instr.wellFormed c0 (.ld { zm with abase := 1, a := 2 }) = true ∧ Instr.wellFormed c0 (.ld { zm with abase := 1, a := 3 }) = false ∧ Instr.wellFormed c0 (.ld { zm with abase := 2, b := 1 }) = false ∧
    Instr.wellFormed c0 (.ld { zm with abase := 3 }) = false ∧ Instr.wellFormed c0 (.ld { zm with space := 3 }) = false := by decide
theorem test_wf_memory_fields : Instr.wellFormed c0 (.cwb { zm with ty := 1 }) = false ∧ Instr.wellFormed c0 (.prf { zm with d := 3 }) = false ∧ Instr.wellFormed c0 (.lds { zm with abase := 2, d := 31, cnt := 1 }) = false ∧
    Instr.wellFormed c0 (.ldt { zm with off := 10 }) = false ∧ Instr.wellFormed c0 (.fence { zm with cnt := 3 }) = false ∧ Instr.wellFormed c0 (.lrec { zm with abase := 2, space := 2 }) = false ∧
    Instr.wellFormed c0 (.ld { zm with ty := 8 }) = false ∧ Instr.wellFormed c0 (.ld { zm with ty := 0, cnt := 1 }) = false ∧ Instr.wellFormed c0 (.ld { zm with ty := 7 }) = false := by decide
theorem test_wf_atomic : Instr.wellFormed c0 (.atom { zm with ty := 4, off := 768 }) = true ∧ Instr.wellFormed c0 (.red { zm with ty := 4, off := 768 }) = false ∧ Instr.wellFormed c0 (.atom { zm with ty := 10, off := 384 }) = false ∧
    Instr.wellFormed c0 (.atom { zm with ty := 9, off := 128 }) = false ∧ Instr.wellFormed c0 (.atomx { zm with ty := 4 }) = false ∧ Instr.wellFormed c0 (.gadd { zm with ty := 5 }) = false := by decide
theorem test_wf_matrix : Instr.wellFormed c0 (.mma { zx with tya := 8, tyb := 9 }) = true ∧ Instr.wellFormed c0 (.mma { zx with tya := 8, tyb := 12 }) = false ∧ Instr.wellFormed c0 (.mma { zx with tya := 20, tyb := 0 }) = true ∧
    Instr.wellFormed c0 (.mma { zx with tya := 0, tyb := 20 }) = false ∧ Instr.wellFormed c0 (.mma { zx with tya := 8, tyb := 8, bv := 49 }) = false := by decide
theorem test_wf_readout : Instr.wellFormed c0 (.aget { zx with oboff := 3 }) = true ∧ Instr.wellFormed c0 (.aget { zx with oboff := 4 }) = false ∧ Instr.wellFormed c0 (.aget { zx with ck := true, oboff := 1 }) = false ∧
    Instr.wellFormed c0 (.ackr { zx with ck := true }) = false ∧ Instr.wellFormed c0 (.aclr { zx with clr := true }) = false := by decide
theorem test_wf_source_run : Instr.wellFormed c0 (.coll { zq with q := 1, a := 28 }) = true ∧ Instr.wellFormed c0 (.coll { zq with q := 1, a := 29 }) = false ∧ Instr.wellFormed c0 (.coll { zq with q := 1, a := 60 }) = true ∧
    Instr.wellFormed c0 (.coll { zq with q := 1, a := 61 }) = false ∧ Instr.wellFormed c0 (.coll { zq with q := 0 }) = false := by decide
theorem test_wf_queue : Instr.wellFormed c0 (.qpop { zq with q := 4 }) = true ∧ Instr.wellFormed c0 (.qpop { zq with q := 3 }) = false ∧ Instr.wellFormed c0 (.qpush { zq with q := 7 }) = false ∧ Instr.wellFormed c0 (.qstat { zq with q := 3 }) = false ∧
    Instr.wellFormed c0 (.qbind { zq with q := 8, b := 1, sub := 1 }) = false ∧ Instr.wellFormed c0 (.cpyr { zq with q := 2 }) = false ∧ Instr.wellFormed c0 (.cpym { zq with sub := 1 }) = false := by decide
theorem test_wf_shift : Instr.wellFormed c0 (.call { zc with b := 6 }) = true ∧ Instr.wellFormed c0 (.call { zc with b := 7 }) = false ∧ Instr.wellFormed c0 (.call { zc with b := 0 }) = false ∧
    Instr.wellFormed { c0 with shared := 32 } (.call { zc with b := 5 }) = false := by decide
theorem test_wf_control : Instr.wellFormed c0 (.exit { zc with tgt := 1 }) = false ∧ Instr.wellFormed c0 (.bra { zc with a := 1 }) = false ∧ Instr.wellFormed c0 (.brp { zc with a := 2 }) = false ∧ Instr.wellFormed c0 (.brs { zc with b := 4 }) = false ∧
    Instr.wellFormed c0 (.wait { zc with tgt := 256 }) = false ∧ Instr.wellFormed c0 (.trap { zc with tgt := 65536 }) = false := by decide
theorem test_wf_fibre_barrier : Instr.wellFormed c0 (.fbar { zc with a := 3, b := 15 }) = true ∧ Instr.wellFormed c0 (.fbar { zc with a := 4, b := 15 }) = false ∧ Instr.wellFormed c0 (.fbar { zc with b := 1 }) = false ∧
    Instr.wellFormed c0 (.fbar { zc with b := 18 }) = false := by decide
theorem test_wf_pair : Instr.wellFormed c0 (.pair { zp with sop := 12, sd := 7, simm := 5 }) = true ∧ Instr.wellFormed c0 (.pair { zp with sop := 12, sd := 8 }) = false ∧ Instr.wellFormed c0 (.pair { zp with sop := 12, simm := 6 }) = false ∧
    Instr.wellFormed c0 (.pair { zp with sop := 13 }) = false ∧ Instr.wellFormed c0 (.pair { zp with vop := 17 }) = false ∧ Instr.wellFormed c0 (.pair { zp with vop := 12 }) = false ∧ Instr.wellFormed c0 (.pair { zp with simm := 1 }) = false ∧
    Instr.wellFormed c0 (.pair { zp with vop := 11, vb := 1 }) = false ∧ Instr.wellFormed c0 (.pair { zp with sop := 11, sa := 1 }) = false ∧ Instr.wellFormed c0 (.pair { zp with sd := 32 }) = false := by decide
theorem test_wf_counter : Instr.wellFormed c0 (.cadd { zy with num := 31 }) = true ∧ Instr.wellFormed c0 (.cadd { zy with num := 32 }) = false ∧ Instr.wellFormed c0 (.cwait { zy with num := 16 }) = false ∧
    Instr.wellFormed c0 (.cbind { zy with num := 1 }) = false ∧ Instr.wellFormed c0 (.cadd { zy with d := 1 }) = false ∧ Instr.wellFormed c0 (.cphase { zy with sub := 3 }) = false := by decide
theorem test_wf_system : Instr.wellFormed c0 (.tlbi { zy with sub := 4 }) = false ∧ Instr.wellFormed c0 (.tlbi { zy with sub := 2, a := 1 }) = false ∧ Instr.wellFormed c0 (.bankmode { zy with sub := 3 }) = false ∧
    Instr.wellFormed c0 (.dmr { zy with sub := 2 }) = false ∧ Instr.wellFormed c0 (.rdsr { zy with d := 32 }) = false ∧ Instr.wellFormed c0 (.gdecl { zy with sub := 2 }) = false := by decide

/-! Words of each class, as the spec writes them or bit by bit from its formats (R65 to R81). -/

/-- A fibre that shares no window and is alone in its slot. -/
def cD : DecCtx := { shared := 0, fibres := 1, fibre := 0, eph := false }

theorem test_decode_bra_guarded : decode cD .ctl 0x0208000000000005 = .ok (.bra { zc with hd := { hd0 with gp := 1 }, tgt := 5 }) := by decide
theorem test_decode_bra_back : decode cD .ctl 0x02380000FFFFFFFA = .ok (.bra { zc with tgt := 0xFFFFFFFA }) := by decide
theorem test_decode_exit : decode cD .ctl 0x0938000000000000 = .ok (.exit zc) := by decide
theorem test_decode_shfl : decode cD .vec 0x3538014304028063 = .ok (.shfl { z3 with d := 5, a := 3, b := 1, ty := 5, bsel := 3, sub := 3 }) := by decide
theorem test_decode_ld : decode cD .mem 0x0138010608A88010 = .ok (.ld { zm with d := 4, a := 6, b := 2, ty := 5, scope := 2, space := 1, off := 16 }) := by decide
theorem test_decode_ldt : decode cD .mem 0x053800C110088002 = .ok (.ldt { zm with d := 3, a := 1, b := 4, scope := 2, space := 1, off := 2 }) := by decide
theorem test_decode_fence : decode cD .mem 0x1538000000142000 = .ok (.fence { zm with scope := 5, cnt := 1 }) := by decide
theorem test_decode_atom : decode cD .mem 0x0F38010608B40008 = .ok (.atom { zm with d := 4, a := 6, b := 2, ty := 5, scope := 5, off := 8 }) := by decide
theorem test_decode_red : decode cD .mem 0x113801C4048C017C = .ok (.red { zm with d := 7, a := 4, b := 1, ty := 4, scope := 3, off := 380 }) := by decide
theorem test_decode_gld : decode cD .mem 0x1438024C35541000 = .ok (.gld { zm with d := 9, a := 12, b := 13, ty := 10, scope := 5, abase := 2 }) := by decide
theorem test_decode_cadd : decode cD .syn 0x0138019E04068001 = .ok (.cadd { zy with d := 6, a := 30, b := 1, num := 26, sub := 1 }) := by decide
theorem test_decode_cphase : decode cD .syn 0x043801C624000001 = .ok (.cphase { zy with d := 7, a := 6, b := 9, sub := 1 }) := by decide
theorem test_decode_qpop : decode cD .eng 0x0238045000000000 = .ok (.qpop { zq with q := 4, a := 20 }) := by decide
theorem test_decode_cpy : decode cD .eng 0x0538002000000054 = .ok (.cpy { zq with a := 8, sub := 84 }) := by decide
theorem test_decode_halt : decode cD .sys 0x0638010600000000 = .ok (.halt { zy with d := 4, a := 6 }) := by decide
theorem test_decode_dmr : decode cD .sys 0x0938000000000001 = .ok (.dmr { zy with sub := 1 }) := by decide
theorem test_decode_tret : decode cD .sys 0x0538000000000000 = .ok (.tret zc) := by decide
theorem test_decode_scan : decode cD .sys 0x0A38010600000000 = .ok (.scan { zy with d := 4, a := 6 }) := by decide
theorem test_decode_none : decode cD .ctl 0x0038000000000000 = .ok (.nonInstructionEncoding 0x0038000000000000) := by decide

/-! Headers and words of the spec's worked examples (the end of each section of spec/). -/

theorem test_header_vec : Hdr.ofWord 0x2101400001000000 = { cls := 2, cnt := 1, wtok := 1, bpri := 0x40, eph := 1, term := false, rsv := 0 } := by decide
theorem test_header_term : Hdr.ofWord 0x4100800000800000 = { cls := 4, cnt := 1, wtok := 0, bpri := 0x80, eph := 0, term := true, rsv := 0 } := by decide
theorem test_decode_fma : decode cD .vec 0x2338014108350000 = .ok (.fma { z3 with d := 5, a := 1, b := 2, c := 3, ty := 10 }) := by decide
theorem test_decode_fadd : decode cD .vec 0x2010018510051020 = .ok (.fadd { z3 with hd := { hd0 with gp := 2 }, d := 6, a := 5, b := 4, ty := 10, mode := 1, bsel := 1 }) := by decide
theorem test_decode_vadd : decode cD .vec 0x013801020C071000 = .ok (.vadd { z3 with d := 4, a := 2, b := 3, ty := 14, mode := 1 }) := by decide
theorem test_decode_smin : decode cD .sca 0x073801C58C028020 = .ok (.smin { z3 with d := 7, a := 5, b := 35, ty := 5, bsel := 1 }) := by decide
theorem test_decode_vmovi : decode cD .vec 0x1F3A81803FC00000 = .ok (.vmovi { zi with ty := 10, d := 6, imm := 0x3FC00000 }) := by decide
theorem test_decode_pair : decode cD .pair 0x700A0420C4162000 = .ok (.pair { zp with vop := 14, gp := 1, vty := 2, vd := 1, va := 2, vb := 3, sd := 4, sa := 5, sb := 34 }) := by decide
theorem test_decode_pair_bad : decode cD .pair 0x70080420C4162000 = .error .illegalEncoding := by decide
theorem test_decode_rdsr : decode cD .sys 0x0338014000004000 = .ok (.rdsr { zy with d := 5, num := 1 }) := by decide
theorem test_decode_launch : decode cD .sys 0x013FA10600000000 = .ok (.launch { zy with hd := { hd0 with la := 15, tok := 2 }, d := 4, a := 6 }) := by decide
/-- `mma a1, o2, v16, g3` of bf16 by f16: OP 0x01, ACC 1, OBH 2, BV 16, G 3, TYA 9, TYB 8, OBOFF 4 (R77). -/
theorem test_decode_mma : decode cD .mtx 0x0638024834A00004 = .ok (.mma { zx with acc := 1, obh := 2, bv := 16, g := 3, tya := 9, tyb := 8, oboff := 4 }) := by decide

/-! Single words on lane 0: v1, v2 and v3 hold the operands and v4 receives the result. Each expected value stands in the table of worked
examples beside R210 to R230, or is worked out by hand from the rule named. -/

/-- `s0` with operands in lane 0. -/
def sV (a b c : W32) : State := { s0 with slots := [(16, { Slot.empty with active := true, stack := [(32, a), (64, b), (96, c)] })] }

/-- What a word leaves in lane 0 of v4. -/
def outV (i : Instr) (a b c : W32) : Option W32 :=
  match exec i (sV a b c) with
  | .next t => some (t.mySlot.at 4 0)
  | _ => none

/-- A V3 word from v1, v2 and v3 to v4. -/
def o3 (ty : BitVec 5) (mode : BitVec 3) : V3 := { z3 with d := 4, a := 1, b := 2, c := 3, ty := ty, mode := mode }

theorem test_vadd_wraps : outV (.vadd (o3 14 0)) 0x7FF00005 0x0020FFF0 0 = some 0x8010FFF5 := by decide
theorem test_vadd_sat : outV (.vadd (o3 14 1)) 0x7FF00005 0x0020FFF0 0 = some 0x7FFFFFF5 := by decide
theorem test_vsub_sat : outV (.vsub (o3 5 1)) 3 5 0 = some 0 := by decide
theorem test_vmulh : outV (.vmulh (o3 4 0)) 0x80000000 3 0 = some 0xFFFFFFFE := by decide
theorem test_vmulh_unsigned : outV (.vmulh (o3 5 0)) 0x80000000 3 0 = some 1 := by decide
theorem test_vdot4 : outV (.vdot4 (o3 16 0)) 0x80FF0203 0x01010402 10 = some 0xFFFFFF97 := by decide
theorem test_vsad : outV (.vsad (o3 17 0)) 0x0A141E28 0x14141414 1 = some 0x29 := by decide
theorem test_vperm : outV (.vperm (o3 5 0)) 0x44332211 0x88776655 0xF740 = some 0xFF885511 := by decide
theorem test_vbfe : outV (.vbfe (o3 4 0)) 0xF00 0x408 0 = some 0xFFFFFFFF := by decide
theorem test_vbfi : outV (.vbfi (o3 5 0)) 0xFFFFFFFF 0x404 5 = some 0xFFFFFF5F := by decide
theorem test_vsra : outV (.vsra (o3 4 0)) 0x80000000 33 0 = some 0xFFFFFFFF := by decide
theorem test_vclz : outV (.vclz (o3 15 0)) 0x00010000 0 0 = some 0x000F0010 := by decide
theorem test_vabs_corner : outV (.vabs (o3 4 0)) 0x80000000 0 0 = some 0x80000000 ∧ outV (.vabs (o3 4 1)) 0x80000000 0 0 = some 0x7FFFFFFF := by decide
/-- R211: SUB 0x0A is the exclusive or of three. -/
theorem test_vlop3_xor : outV (.vlop3 { o3 5 0 with sub := 0x0A }) 0xFF00FF00 0xF0F0F0F0 0xCCCCCCCC = some 0xC33CC33C := by decide
theorem test_fadd_even : outV (.fadd (o3 10 0)) 0x3F800000 0x33800000 0 = some 0x3F800000 := by decide
theorem test_fadd_up : outV (.fadd (o3 10 2)) 0x3F800000 0x33800000 0 = some 0x3F800001 := by decide
theorem test_fmin_nan : outV (.fmin (o3 10 0)) 0x7FA00000 0x40000000 0 = some 0x40000000 := by decide
theorem test_fmin_zero : outV (.fmin (o3 10 0)) 0x80000000 0 0 = some 0x80000000 := by decide
theorem test_fsgn_copy : outV (.fsgn (o3 10 0)) 0x7FA00000 0xBF800000 0 = some 0xFFA00000 := by decide
theorem test_frint_down : outV (.frint (o3 10 3)) 0xBF000000 0 0 = some 0xBF800000 := by decide
theorem test_fscale : outV (.fscale (o3 10 0)) 0x3FC00000 (BitVec.ofInt 32 (-130)) 0 = some 0x000C0000 := by decide
theorem test_fclass : outV (.fclass (o3 10 0)) 1 0 0 = some 0x20 := by decide
theorem test_fcvt : outV (.fcvt { o3 12 0 with sub := 10 }) 0x43960000 0 0 = some 0x79 := by decide
theorem test_fcvt_overflow : outV (.fcvt { o3 12 0 with sub := 10 }) 0x43EB0000 0 0 = some 0x7F ∧ outV (.fcvt { o3 12 1 with sub := 10 }) 0x43EB0000 0 0 = some 0x7E := by decide
theorem test_vpack : outV (.vpack (o3 19 0)) 0x3F808000 0xC0000000 0 = some 0xC0003F80 := by decide
theorem test_icvt : outV (.icvt { o3 4 1 with sub := 10 }) 0xC0300000 0 0 = some 0xFFFFFFFE := by decide

/-- What a scalar word leaves in s4 when s1, s2 and s3 hold its operands. -/
def outS (i : Instr) (a b c : W64) : Option W64 :=
  match exec i (withF { f0 with sregs := [(1, a), (2, b), (3, c)] }) with
  | .next t => some (t.me.sreg 4)
  | _ => none

def o3s (ty : BitVec 5) (mode : BitVec 3) : V3 := { o3 ty mode with bsel := 1 }

/-- R205, R210: a 32-bit sum is extended by its type. -/
theorem test_sadd_extends : outS (.sadd (o3s 4 0)) 0x7FFFFFFF 1 0 = some 0xFFFFFFFF80000000 ∧ outS (.sadd (o3s 5 0)) 0x7FFFFFFF 1 0 = some 0x80000000 := by decide
theorem test_sadd_sat : outS (.sadd (o3s 6 1)) 0x7FFFFFFFFFFFFFFF 1 0 = some 0x7FFFFFFFFFFFFFFF := by decide
/-- R212: a count of the width or more. -/
theorem test_sshr_width : outS (.sshr (o3s 5 0)) 0x80000000 32 0 = some 0 ∧ outS (.ssra (o3s 4 0)) 0x80000000 40 0 = some 0xFFFFFFFFFFFFFFFF := by decide
theorem test_sctz_zero : outS (.sctz (o3s 5 0)) 0 0 0 = some 32 := by decide

/-! Witnesses: for each statement with hypotheses, a state and operands that meet them, one for each of its clauses. -/

theorem plain0 : Plain s0 := ⟨rfl, rfl, rfl, rfl, rfl, by decide⟩
/-- A state with nothing of that kind in it is calm. -/
theorem calmOf {s : State} (h : s.evictions = [] ∧ s.ucopies = [] ∧ s.drains = [] ∧ s.poison = [] ∧ s.cc = [] ∧ s.l0 = [] ∧ s.damask.err = []) (p : ∀ q, s.damask.lost q = false)
    (m : ∀ q, (s.damask.prov q).locked = false) (b : (s.wg (wgOf s.cur)).scratchBad = []) (o : (s.wg (wgOf s.cur)).obBad = []) : Calm s where
  evictions := h.1
  copies := h.2.1
  drains := h.2.2.1
  poison := h.2.2.2.1
  copied := by simp [h.2.2.2.2.1, h.2.2.2.2.2.1]
  errors := h.2.2.2.2.2.2
  present := p
  moves := m
  scratch := b
  buffer := o
theorem calm0 : Calm s0 := calmOf (by trivial) (fun _ => rfl) (fun _ => rfl) rfl rfl
theorem canTrap0 : CanTrap s0 := ⟨by decide, rfl, rfl, rfl, rfl, by decide⟩
theorem acts0 : s0.acts s0.cur hd0 ≠ 0 := by decide
theorem clean0 : CleanCopies s0 ∧ NoOldCopies s0 := ⟨fun _ h => (nomatch h), fun _ h => (nomatch h)⟩

/-! Arithmetic, floats and lanes. A 64-bit destination is v4, v5. -/

theorem wit_IntegersAndLogic : (Plain s0 ∧ s0.pairOk 4 true ∧ s0.acts s0.cur (o3s 4 0).hd ≠ 0) ∧ (o3s 4 0).scaOk ∧ (o3s 0 0).scaOk ∧ (o3s 7 1).scaOk ∧ (o3s 6 0).scaOk :=
  ⟨⟨plain0, by intro _; decide, acts0⟩, .inr (.inl rfl), .inl rfl, .inr (.inr (.inr (.inr rfl))), .inr (.inr (.inr (.inl rfl)))⟩
theorem wit_FieldsBytesAndPacks : (Plain s0 ∧ s0.pairOk 4 true ∧ s0.acts s0.cur (o3s 4 0).hd ≠ 0) ∧ (o3s 5 0).scaOk ∧ (o3 16 0).ty = 16 ∧ (o3 17 0).ty = 17 ∧ (o3 14 0).ty = 14 ∧ (o3 19 0).ty = 19 :=
  ⟨⟨plain0, by intro _; decide, acts0⟩, .inr (.inr (.inl rfl)), by decide⟩
theorem wit_ComparesAndMoves : Plain s0 ∧ s0.pairOk 4 true ∧ s0.acts s0.cur (o3s 4 0).hd ≠ 0 ∧ s0.acts s0.cur (viHead zi) ≠ 0 ∧ (o3s 4 0).scaOk := ⟨plain0, by intro _; decide, acts0, acts0, .inr (.inl rfl)⟩
theorem wit_FloatArithmetic : Plain s0 ∧ s0.pairOk 4 true ∧ (o3 18 0).ty = 18 ∧ (o3 19 0).ty = 19 ∧ (o3 10 4).ty = 10 ∧ (o3 11 3).ty = 11 := ⟨plain0, by intro _; decide, rfl, rfl, rfl, rfl⟩
theorem wit_FloatSelects : Plain s0 ∧ s0.pairOk 4 true ∧ (o3 11 0).ty = 11 ∧ ({ o3 10 0 with sub := 4 } : V3).sub.toNat < 5 := ⟨plain0, by intro _; decide, rfl, by decide⟩
theorem wit_FloatConversionsAndFunctions : Plain s0 ∧ s0.pairOk 4 true ∧ s0.acts s0.cur (o3 10 0).hd ≠ 0 ∧ tyFloat 13 = true ∧ tyFloat 8 = true ∧ tyFloat 7 = false ∧
    specialOf 0 f32 (f32.value 0) = some 0x7F800000 ∧ specialOf 1 f64 (f64.value 0xFFF0000000000000) = some 0x7FF8000000000000 ∧ specialOf 4 f32 (f32.value 0x80000000) = some 0xFF800000 ∧
    specialOf 6 f32 (f32.value 0x80000000) = some 0x3F800000 ∧ specialOf 7 f32 (f32.value 0xFF800000) = some 0xBF800000 :=
  ⟨plain0, by intro _; decide, acts0, rfl, rfl, rfl, rfl, rfl, rfl, rfl, rfl⟩
/-- The largest finite f8a, 448, is within the range, and so is 0. -/
theorem wit_RoundingIsCorrect : f8a ∈ [f64, f32, f16, bf16, f8a, f8b] ∧ |ratOf (.num true 448 0)| ≤ ratOf (f8a.value (f8a.maxBits false)) ∧ |ratOf (.num false 0 0)| ≤ ratOf (f64.value (f64.maxBits false)) := by
  refine ⟨by simp, ?_, ?_⟩
  · have : f8a.value (f8a.maxBits false) = .num false 14 5 := by decide
    rw [this]; norm_num [ratOf]
  · have : f64.value (f64.maxBits false) = .num false 0x1FFFFFFFFFFFFF 971 := by decide
    rw [this]; norm_num [ratOf]
theorem wit_LaneExchanges : Plain s0 ∧ s0.pairOk 4 true ∧ (s0.acts s0.cur (o3 5 0).hd).getLsbD 2 = true ∧ (s0.acts s0.cur (o3 5 0).hd).getLsbD 3 = false := ⟨plain0, by intro _; decide, rfl, rfl⟩
theorem wit_ReductionsAndScans : Plain s0 ∧ s0.acts s0.cur (o3 10 0).hd ≠ 0 ∧ ({ o3 10 0 with sub := 2 } : V3).sub.toNat % 8 ≤ 2 ∧ ({ o3 7 0 with sub := 13 } : V3).sub.toNat % 8 ≤ 5 := ⟨plain0, acts0, by decide, by decide⟩
theorem wit_VotesAndPredicates : Plain s0 ∧ s0.acts s0.cur (o3 0 0).hd ≠ 0 ∧ ({ o3 0 0 with sub := 2 } : V3).sub.toNat < 3 := ⟨plain0, acts0, by decide⟩
theorem wit_PairWord : Plain s0 ∧ s0.guard s0.cur zp.gn zp.gp ≠ 0 ∧ ({ zp with sop := 12 } : FP).sop.toNat ≤ 12 ∧ ({ zp with vop := 16, vty := 6 } : FP).vop.toNat ≤ 16 ∧ pairTy 2 = 10 ∧ pairTy 5 = 18 ∧ pairTy 6 = 19 :=
  ⟨plain0, by decide, by decide, by decide, rfl, rfl, rfl⟩

/-! Control. -/

/-- `Branches` has no hypothesis but `Plain`; a `brs` is taken and not taken, and a vote passes and fails. -/
theorem wit_Branches : Plain s0 ∧ s0.acts s0.cur zc.hd = 7 ∧ s0.acts s0.cur hdN = 0 ∧ (s0.ssrc s0.cur zc.a).toInt = 0 ∧ s0.me.helper.getLsbD 0 = false := ⟨plain0, rfl, rfl, rfl, rfl⟩

/-- A stack of 128 entries has room for the frame of a call with B 1. -/
def sCall (f : Fibre) : State := { withF f with wgs := [(1, { w0 with kd := { kd0 with stack := 128 } })] }
def fc1 : FC := { zc with b := 1 }
/-- In a frame at 8, whose link register pair holds 4096 and `n` in its low bits. -/
def sRet (n : W32) : State := { sCall { f0 with frontier := [{ e0 with fp := 8 }] } with
  slots := [(16, { Slot.empty with active := true, stack := (List.range 3).map (fun l => (32 * 70 + l, 4096 + n)) })] }
/-- The entry that the caller goes on with. -/
def sBack : State := (sRet 1).control 64 (fun _ => some (4096, 0))
/-- The same frame where a handler makes the moves, in a stack of 64 entries. -/
def sOut : State := { sRet 1 with wgs := [(1, { w0 with kd := { kd0 with flags := 5 } })] }
theorem wit_CallsAndReturns : (∃ u, (sCall f0).resident 64 8 (sCall f0).me.frontier ((sCall f0).resFuel 64 8) = .done u ∧ Plain (sCall f0) ∧ Plain u ∧ u.cur = 64 ∧ u.me.entry = e0 ∧ u.wgs = (sCall f0).wgs) ∧
    (sCall f0).acts 64 fc1.hd ≠ 0 ∧ (sCall f0).me.entry.fp + 8 * fc1.b.toNat = 8 ∧ (sCall f0).ventry 64 8 62 ≠ (sCall f0).ventry 64 8 63 ∧
    ((sCall f0).ssrc 64 fc1.a).toNat % 8 = 0 ∧ (((withF { f0 with sregs := [(0, 4)] }).ssrc 64 fc1.a).toNat % 8 ≠ 0 ∧ CanTrap (withF { f0 with sregs := [(0, 4)] })) ∧
    (Plain (sRet 1) ∧ (sRet 1).me.entry.fp ≠ 0 ∧ (sRet 1).movesOutside 64 = false ∧ (∀ l, l < 32 → ((sRet 1).acts 64 zc.hd).getLsbD l = true → ((sRet 1).linkAt 64 l).toNat % 8 = 1) ∧
      ∃ u, (sRet 1).resident 64 0 sBack.me.frontier ((sRet 1).resFuel 64 0) = .done u ∧ Plain u ∧ u.cur = 64 ∧ u.me.entry = (sRet 1).me.entry) ∧
    (sBack.me.entry.fp = 0 ∧ (sOut.movesOutside 64 = true ∧ (sOut.wg (wgOf 64)).depth < sOut.me.entry.fp + 64)) ∧
    (Plain (sRet 7) ∧ CanTrap (sRet 7) ∧ ((sRet 7).acts 64 zc.hd).getLsbD 0 = true ∧ ((sRet 7).linkAt 64 0).toNat % 8 = 7) := by
  refine ⟨⟨_, rfl, ⟨rfl, rfl, rfl, rfl, rfl, by decide⟩, ⟨rfl, rfl, rfl, rfl, rfl, by decide⟩, rfl, rfl, rfl⟩, by decide, by decide, by decide, by decide, ⟨by decide, ⟨by decide, rfl, rfl, rfl, rfl, by decide⟩⟩,
    ⟨⟨rfl, rfl, rfl, rfl, rfl, by decide⟩, by decide, rfl, by decide, _, rfl, ⟨rfl, rfl, rfl, rfl, rfl, by decide⟩, rfl, rfl⟩, by decide,
    ⟨rfl, rfl, rfl, rfl, rfl, by decide⟩, ⟨by decide, rfl, rfl, rfl, rfl, by decide⟩, by decide⟩

/-- Lanes are left, and none is: all 32 stand in the entry. -/
def sAll : State := withF { f0 with frontier := [{ e0 with mask := 0xFFFFFFFF }] }
theorem wit_LanesExit : Plain s0 ∧ s0.me.launched &&& ~~~(s0.me.exited ||| s0.acts s0.cur zc.hd) ≠ 0 ∧ s0.me.entry.fp = 0 ∧ Plain sAll ∧ sAll.me.launched &&& ~~~(sAll.me.exited ||| sAll.acts sAll.cur zc.hd) = 0 ∧ sAll.me.entry.fp = 0 :=
  ⟨plain0, by decide, rfl, ⟨rfl, rfl, rfl, rfl, rfl, by decide⟩, by decide, rfl⟩

/-- A load that is not complete holds token 2. -/
def pd : Pending := { la := none, tok := some 2, kind := .load, wr := [], ready := false, poison := none, pc := 4104, obOld := [] }
def sPend : State := withF { f0 with pend := [pd] }
/-- A barrier at which fibre 1 of two has arrived, or with another mask. -/
def sBar (m a : BitVec 4) : State := { s0 with slots := [(16, { Slot.empty with active := true, bars := [(2, { mask := m, arrived := a })] })] }
def sTwo : State := { s0 with fibres := [(64, f0), (65, f0)] }
def fBar : FC := { zc with a := 2, b := 3 }
theorem wit_WaitsBarriersAndClauses : Plain s0 ∧ s0.acts s0.cur zc.hd ≠ 0 ∧ Plain sPend ∧ sPend.me.holds 4 ∧ ¬ s0.me.holds 4 ∧ sPend.me.pend ≠ [] ∧ s0.me.pend = [] ∧
    (Plain (sBar 3 2) ∧ Plain sTwo ∧ fBar.a.toNat = 2 ∧ (tget { mask := 3, arrived := 0 } (sBar 3 2).mySlot.bars 2).mask = 3 ∧ ∀ i, i < 4 → (3 : BitVec 4).getLsbD i = true → i = fibIdx (sBar 3 2).cur ∨ (2 : BitVec 4).getLsbD i = true) ∧
    ((tget { mask := 3, arrived := 0 } sTwo.mySlot.bars 2).mask = 3 ∧ fibIdx sTwo.cur = 0 ∧ sTwo.fibreDone 65 = false) ∧ ((sBar 1 0).mySlot.bars ≠ [] ∧ (tget { mask := 3, arrived := 0 } (sBar 1 0).mySlot.bars 2).mask ≠ 3 ∧ CanTrap (sBar 1 0)) ∧
    ((Hdr.ofWord vecHdr).cls.toNat ≤ 8 ∧ (Hdr.ofWord vecHdr).rsv = 0 ∧ (Hdr.ofWord vecHdr).eph.toNat < 2 ^ ((Hdr.ofWord vecHdr).cnt.toNat + 1) ∧ s0.me.frontier ≠ []) ∧
    ((Hdr.ofWord 0x2101400001000000).wtok ≠ 0 ∧ sPend.me.holds (Hdr.ofWord 0x2004000000000000).wtok ∧ ¬ sPend.me.holds (Hdr.ofWord 0x2101400001000000).wtok) ∧
    8 < (Hdr.ofWord 0x9000000000000000).cls.toNat ∧ ((Hdr.ofWord 0x2000000000000001).rsv ≠ 0 ∧ 2 ^ ((Hdr.ofWord 0x2000000002000000).cnt.toNat + 1) ≤ (Hdr.ofWord 0x2000000002000000).eph.toNat) ∧ CanTrap s0 := by
  refine ⟨plain0, acts0, ⟨rfl, rfl, rfl, rfl, rfl, by decide⟩, ⟨2, by decide⟩, fun h => ?_, by decide, rfl, ⟨⟨rfl, rfl, rfl, rfl, rfl, by decide⟩, ⟨rfl, rfl, rfl, rfl, rfl, by decide⟩, rfl, by decide, by decide⟩, by decide, ⟨by decide, by decide, ⟨by decide, rfl, rfl, rfl, rfl, by decide⟩⟩,
    by decide, ⟨by decide, ⟨2, by decide⟩, ?_⟩, by decide, by decide, canTrap0⟩
  · obtain ⟨i, _, _, h⟩ := h; cases h
  · rintro ⟨i, h, m, x⟩
    revert x m; revert i; decide

/-! The shared window (R25): two fibres of slot 0 share physical entries 248 to 255; fibre 0 has written 5 where 3 stood, and both stand at fbar 2. -/

def rc : Race := { olds := [3], ws := [(5, 1)] }
def sWindow (a : BitVec 4) (es : List Entry) : State :=
  { withW { w0 with kd := { kd0 with fibres := 2, shared := 8 }, threads := 64 } with
    fibres := [(64, f0), (65, { f0 with frontier := es })]
    slots := [(16, { Slot.empty with active := true, bars := [(2, { mask := 3, arrived := a })], stack := [(8128, 5)], window := 248, races := [(8128, rc)] })] }
def eBar : Entry := { e0 with wait := .fbar 2 }
theorem wit_SharedWindow :
    (Plain (sWindow 2 [eBar]) ∧ (sWindow 2 [eBar]).acts (sWindow 2 [eBar]).cur fBar.hd ≠ 0 ∧ fBar.a.toNat = 2 ∧ (tget { mask := fBar.b.extractLsb' 0 4, arrived := 0 } (sWindow 2 [eBar]).mySlot.bars 2).mask = fBar.b.extractLsb' 0 4 ∧
      (∀ i, i < 4 → (fBar.b.extractLsb' 0 4).getLsbD i = true → i = fibIdx (sWindow 2 [eBar]).cur ∨ (2 : BitVec 4).getLsbD i = true) ∧ tfind (sWindow 2 [eBar]).mySlot.races (32 * 254 + 0) = some rc ∧ (5, 1).2 &&& (fBar.b.extractLsb' 0 4).toNat ≠ 0) ∧
    (248 ≤ 254 ∧ 247 < (sWindow 0 [e0]).mySlot.window ∧ tfind (sWindow 0 [e0]).mySlot.races (32 * 255) = none ∧ (sWindow 0 [e0]).mySlot.at 254 0 ∈ rc.olds ++ rc.ws.map (·.1)) := by
  refine ⟨⟨⟨rfl, rfl, rfl, rfl, rfl, by decide⟩, by decide, by decide, by decide, by decide, by decide, by decide⟩, by decide⟩
/-- The sibling that sees neither write may find 3 or 5; after the common `fbar` it finds 5. -/
theorem test_window_seen : rc.seen 0 = [5] ∧ rc.seen 1 = [3, 5] := by decide
theorem test_window_fbar : (match exec (.fbar fBar) (sWindow 2 [eBar]) with | .next t => decide (t.mySlot.races = [] ∧ t.mySlot.at 254 0 = 5) | _ => false) = true := by decide +kernel
/-- Two writes that nothing has ordered: the fibres of a common `fbar` find one of them. -/
theorem test_window_two : ((noteRace (some rc) 5 1 7).meet 3 1).ws = [(5, 3)] ∧ ((noteRace (some rc) 5 1 7).meet 3 0).ws = [(7, 3)] := by decide

/-! The B operand (R203): a scalar or an immediate is the same value in every element. -/

theorem test_scalar_packed : scalElems 14 0x1234567812345678 = 0x56785678 ∧ immElems 14 0x3F = 0xFFFFFFFF ∧ immElems 18 1 = 0x3C003C00 := by decide
theorem wit_VecOperands : (o3s 14 0).bsel = 1 ∧ (o3s 14 0).els = 2 ∧ (o3 18 0).w = 16 ∧ tyFloat 18 = true ∧ tyFloat 14 = false ∧ (o3 5 0).els = 1 ∧ (o3 5 0).bsel = 0 := by decide

/-! Memory. -/

/-- TidyLocs can be decided where no access is to an UNTRACKED page. -/
def tidy (as : List Acc) : Bool :=
  as.all (fun a => (a.ps.getD []).all (fun p => p.locs.all (fun l => match l with
    | .dev pa at_ _ => pa % 32 + p.len ≤ 32 && at_ != 1
    | _ => true)))

theorem tidy_locs (as : List Acc) (h : tidy as = true) : TidyLocs as := by
  have key : ∀ a ∈ as, ∀ ps, a.ps = some ps → ∀ p ∈ ps, ∀ l ∈ p.locs, ∀ pa at_ b, l = .dev pa at_ b → pa % 32 + p.len ≤ 32 ∧ at_ ≠ 1 := by
    intro a ha ps hp p hpm l hl pa at_ b e
    have := List.all_eq_true.mp h a ha
    rw [hp] at this
    have := List.all_eq_true.mp (List.all_eq_true.mp this p hpm) l hl
    subst e
    simpa using this
  exact ⟨fun a ha ps hp p hpm l hl pa at_ b e => (key a ha ps hp p hpm l hl pa at_ b e).1,
    .inl fun a ha ps hp p hpm l hl pa b e => (key a ha ps hp p hpm l hl pa 1 b e).2 rfl⟩

/-- Only lane 0 acts. -/
def sOne : State := withF { f0 with frontier := [{ e0 with mask := 1 }] }

/-- Where s0 holds the scalar registers r, or with other memory. -/
def sS (r : List (Nat × W64)) : State := withF { f0 with sregs := r }

/-- A layout record of two 4-byte elements, of which the third lane's is masked (R268). -/
def lrec0 : BitVec 256 := BitVec.ofNat 256 (2 ^ 58 + 4 * 2 ^ 96 + 2 ^ 192 + 2 * 2 ^ 208 + 2 ^ 224 + 2 ^ 240)
def sTile : State := withF { f0 with lregs := [(1, lrec0)] }
def ldf : FM := { zm with d := 4, ty := 4, abase := 0 }
def ldScr : FM := { ldf with space := 1 }
def tileF : FM := { zm with d := 4, a := 1, space := 1 }

theorem wit_Loads : Plain s0 ∧ Calm s0 ∧ CleanCopies s0 ∧ s0.acts s0.cur ldf.hd ≠ 0 ∧
    (∃ as, s0.planAll 64 0 .rd (s0.isHelper 64) (s0.plainElems 64 ldf (lanesOf (s0.acts 64 hd0))) = .ok as ∧ TidyLocs as) ∧
    (∃ as, s0.planAll 64 1 .rd (s0.isHelper 64) (s0.plainElems 64 ldScr (lanesOf (s0.acts 64 hd0))) = .ok as ∧ TidyLocs as) ∧
    (∃ as, s0.planAll 64 1 .rd (fun _ => s0.onlyHelpers 64 (s0.acts 64 hd0)) (s0.scalarElems 64 { ldScr with abase := 2 }) = .ok as ∧ TidyLocs as) ∧
    (Plain sTile ∧ ∃ as, sTile.planAll 64 1 .rd (sTile.isHelper 64) (sTile.tileElems 64 tileF (lanesOf (sTile.acts 64 hd0))) = .ok as ∧ as.length = 2 ∧ TidyLocs as) ∧
    (∃ as, s0.planAll 64 0 .rd (fun _ => s0.onlyHelpers 64 (s0.acts 64 hd0)) [{ lane := 0, e := 0, addr := s0.laneAddr 64 { zm with abase := 2 } 0, len := 32, al := 32 }] = .ok as ∧ TidyLocs as) :=
  ⟨plain0, calm0, clean0.1, acts0, ⟨_, rfl, tidy_locs _ (by decide)⟩, ⟨_, rfl, tidy_locs _ (by decide)⟩, ⟨_, rfl, tidy_locs _ (by decide)⟩,
    ⟨⟨rfl, rfl, rfl, rfl, rfl, by decide⟩, ⟨_, rfl, by decide, tidy_locs _ (by decide)⟩⟩, ⟨_, rfl, tidy_locs _ (by decide)⟩⟩

theorem wit_Stores : Plain s0 ∧ Calm s0 ∧ CleanCopies s0 ∧ s0.acts s0.cur ldf.hd ≠ 0 ∧ s0.acts 64 hd0 &&& ~~~s0.me.helper ≠ 0 ∧
    (∃ as, s0.planAll 64 0 .wr (s0.isHelper 64) (s0.plainElems 64 ldf (lanesOf (s0.acts 64 hd0 &&& ~~~s0.me.helper))) = .ok as ∧ TidyLocs as) ∧
    (∃ as, s0.planAll 64 1 .wr (s0.isHelper 64) (s0.plainElems 64 ldScr (lanesOf (s0.acts 64 hd0 &&& ~~~s0.me.helper))) = .ok as ∧ TidyLocs as) ∧
    (∃ as, s0.planAll 64 1 .wr (fun _ => false) (s0.scalarElems 64 { ldScr with abase := 2 }) = .ok as ∧ TidyLocs as) ∧
    (Plain sTile ∧ ∃ as, sTile.planAll 64 1 .wr (sTile.isHelper 64) (sTile.tileElems 64 tileF (lanesOf (sTile.acts 64 hd0 &&& ~~~sTile.me.helper))) = .ok as ∧ as.length = 2 ∧ TidyLocs as) :=
  ⟨plain0, calm0, clean0.1, acts0, by decide, ⟨_, rfl, tidy_locs _ (by decide)⟩, ⟨_, rfl, tidy_locs _ (by decide)⟩, ⟨_, rfl, tidy_locs _ (by decide)⟩,
    ⟨⟨rfl, rfl, rfl, rfl, rfl, by decide⟩, ⟨_, rfl, by decide, tidy_locs _ (by decide)⟩⟩⟩

/-- An address above the heap, one just past the scratch window, and a root entry that says MIG. -/
def sHigh : State := sS [(0, 0x8000000)]
def sEnd : State := sS [(0, 1024)]
def sMig : State := { sHigh with mem := [(0, 1), (1, 1)] }
theorem wit_AccessFaults :
    (Plain sHigh ∧ sHigh.acts sHigh.cur ldf.hd ≠ 0) ∧ (Plain sEnd ∧ CanTrap sEnd ∧ ∃ w ∈ memElems sEnd ldScr, w.2.1 = true ∧ ∃ x, sEnd.firstFault 64 1 .wr w.2.2.2 w.2.2.1 x (.fault .protection)) ∧
    (∃ w ∈ memElems sHigh ldf, w.2.1 = false ∧ ∃ x, sHigh.firstFault 64 0 .rd w.2.2.2 w.2.2.1 x (.fault .pageFault)) ∧
    (Plain sMig ∧ ∃ w ∈ memElems sMig ldf, w.2.1 = false ∧ ∃ x, sMig.firstFault 64 0 .rd w.2.2.2 w.2.2.1 x .mig) := by
  refine ⟨⟨⟨rfl, rfl, rfl, rfl, rfl, by decide⟩, by decide⟩, ⟨⟨rfl, rfl, rfl, rfl, rfl, by decide⟩, ⟨by decide, rfl, rfl, rfl, rfl, by decide⟩, ?_⟩, ?_, ⟨rfl, rfl, rfl, rfl, rfl, by decide⟩, ?_⟩
  · exact ⟨_, .tail _ (.tail _ (.tail _ (.tail _ (.head _)))), rfl, _, [], _, rfl, rfl, fun _ => rfl, fun _ h => (nomatch h)⟩
  · exact ⟨_, .head _, rfl, _, [], _, rfl, rfl, fun _ => rfl, fun _ h => (nomatch h)⟩
  · exact ⟨_, .head _, rfl, _, [], _, rfl, rfl, fun h => (nomatch h rfl), fun _ h => (nomatch h)⟩

/-- A dirty copy of line 0 in cluster 0. -/
def lineD : Line := { Line.empty with fresh := false, valid := 3, dirty := 1, data := 0x55 }
def sDirty : State := { s0 with cc := [(hkey 0 0, lineD)] }
theorem calmD : Calm sDirty := ⟨rfl, rfl, rfl, rfl, by decide, rfl, fun _ => rfl, fun _ => rfl, rfl, rfl⟩
theorem wit_CachesAndFences : Plain sDirty ∧ Calm sDirty ∧ sDirty.mem = [] ∧ sDirty.acts sDirty.cur zm.hd ≠ 0 ∧ sDirty.anyMig 64 (sDirty.lineAddrs 64 zm (sDirty.acts 64 zm.hd)) = false ∧ (Plain sMig ∧ Calm sMig ∧ sMig.anyMig 64 (sMig.lineAddrs 64 zm (sMig.acts 64 zm.hd)) = true) ∧ sureLane sDirty zm 0 ∧ laneLine sDirty zm 0 0 ∧ dirtyAt sDirty 0 ∧
    Calm s0 ∧ (∀ p ∈ s0.me.pend, p.poison = none) ∧ Plain sPend ∧ (∀ p ∈ sPend.me.pend, p.poison = none) := by
  refine ⟨⟨rfl, rfl, rfl, rfl, rfl, by decide⟩, calmD, rfl, by decide, by decide +kernel, ⟨⟨rfl, rfl, rfl, rfl, rfl, by decide⟩, calmOf (by trivial) (fun _ => rfl) (fun _ => rfl) rfl rfl, by decide +kernel⟩, ⟨by decide, by decide, .inl fun i h => (nomatch h)⟩, ⟨0, 0, false, [], 1, by decide +kernel, by decide⟩, ⟨lineD, by decide +kernel, rfl, by decide⟩,
    calm0, fun _ h => (nomatch h), ⟨rfl, rfl, rfl, rfl, rfl, by decide⟩, ?_⟩
  intro p hp
  cases hp with
  | head => rfl
  | tail _ h => nomatch h

/-! Atomics, counters, bindings, completions. -/

def amf (ty : BitVec 5) (sp : BitVec 2) : FM := { zm with d := 4, ty := ty, space := sp, abase := 2 }
def atomPlan (s : State) (f : FM) (isRed : Bool) (off : W64) (u : Nat → Upd) (as : List Acc) : Prop :=
  s.planWith s.cur f.space.toNat .wr (s.isHelper s.cur) (fun e ps => atomicRefuse f.ty.toNat (u e.lane) isRed ps) (s.atomElems s.cur f off (lanesOf (s.acts s.cur f.hd &&& ~~~s.me.helper))) = .ok as

theorem wit_Atomics : Plain s0 ∧ Calm s0 ∧ NoOldCopies s0 ∧ s0.redInU = false ∧ s0.acts s0.cur (amf 4 0).hd ≠ 0 ∧ (amf 4 0).space ≠ 2 ∧
    (∃ as, atomPlan s0 (amf 4 0) true (FM.aoff (amf 4 0)) (fun l => .op (FM.aop (amf 4 0)) (s0.atomVal 64 (amf 4 0) 4 l)) as ∧ as.length = 3) ∧
    (∃ as, atomPlan s0 (amf 7 1) false (FM.aoff (amf 7 1)) (fun l => .op (FM.aop (amf 7 1)) (s0.atomVal 64 (amf 7 1) 4 l)) as ∧ as.length = 3) ∧
    (∃ as, atomPlan s0 (amf 12 1) false (FM.aoff (amf 12 1)) (fun l => .op (FM.aop (amf 12 1)) (s0.atomVal 64 (amf 12 1) 4 l)) as ∧ FM.aop (amf 12 1) = 0) ∧
    (∃ as, atomPlan s0 (amf 10 0) false (FM.offset (amf 10 0)) (fun l => .cas (s0.atomVal 64 (amf 10 0) 4 l) (s0.atomVal 64 (amf 10 0) 0 l)) as ∧ as.length = 3) ∧
    (Plain sOne ∧ Calm sOne ∧ (amf 9 0).ty = 9 ∧ ∃ a, atomPlan sOne (amf 9 0) false (FM.aoff (amf 9 0)) (fun l => .op 0 (sOne.atomVal 64 (amf 9 0) 4 l)) [a] ∧
      a.ps = some [{ len := 2, locs := [.dev 0 0 false] }]) :=
  ⟨plain0, calm0, clean0.2, rfl, acts0, by decide, ⟨_, rfl, rfl⟩, ⟨_, rfl, rfl⟩, ⟨_, rfl, rfl⟩, ⟨_, rfl, rfl⟩, ⟨rfl, rfl, rfl, rfl, rfl, by decide⟩, calmOf (by trivial) (fun _ => rfl) (fun _ => rfl) rfl rfl, rfl, ⟨_, rfl, rfl⟩⟩

def sSup : State := withF { f0 with priv := .supervisor }
/-- An earlier `unseal` of the fibre is not performed. -/
def sUnseal : State := withF { f0 with pend := [{ pd with kind := .unseal 0 }] }
theorem wit_Counters : Plain s0 ∧ Calm s0 ∧ NoOldCopies s0 ∧ s0.acts s0.cur zy.hd &&& ~~~s0.me.helper ≠ 0 ∧ (s0.redInU = false ∧ s0.relBlocked 64 = false ∧ s0.waitsOn 64 false 0 = [] ∧ sUnseal.relBlocked 64 = true) ∧ (s0.ssrc 64 zy.b).toNat < 2 ^ 36 ∧
    (∃ a, ctrAcc s0 zy .wr (.op 9 0) a) ∧ (∃ a, ctrAcc s0 { zy with num := 8 } .wr (.op 9 0) a) ∧ (∃ a, ctrAcc s0 zy .rd .read a) ∧
    (2 ^ 36 ≤ ((sS [(1, 0x1000000000)]).ssrc 64 1).toNat ∧ CanTrap (sS [(1, 0x1000000000)]) ∧ Plain (sS [(1, 0x1000000000)])) ∧
    (Plain sSup ∧ Calm sSup ∧ sSup.me.priv ≠ .user ∧ ∃ a, ctrAcc sSup zy .wr (.op 6 0) a) ∧ (s0.me.priv = .user ∧ CanTrap s0) :=
  ⟨plain0, calm0, clean0.2, by decide, by decide, by decide, ⟨_, rfl⟩, ⟨_, rfl⟩, ⟨_, rfl⟩, ⟨by decide, ⟨by decide, rfl, rfl, rfl, rfl, by decide⟩, rfl, rfl, rfl, rfl, rfl, by decide⟩,
    ⟨⟨rfl, rfl, rfl, rfl, rfl, by decide⟩, calmOf (by trivial) (fun _ => rfl) (fun _ => rfl) rfl rfl, by decide, ⟨_, rfl⟩⟩, rfl, canTrap0⟩

def sBound (b : List (Bool × Nat)) (n : Nat) : State := { withF { f0 with bound := b } with vds := [(0, { v0 with binds := n })] }
theorem wit_PhasesAndBindings : Plain s0 ∧ s0.acts s0.cur zy.hd ≠ 0 ∧ (∃ a, ctrAcc s0 zy .rd .read a) ∧
    ((FY.scr zy, (s0.ssrc 64 zy.a).toNat) = (false, 0) ∧ (false, 0) ∈ (sBound [(false, 0)] 1).me.bound ∧ (∃ a, ctrAcc (sBound [(false, 0)] 1) zy .rd .read a)) ∧
    ((false, 0) ∉ s0.me.bound ∧ s0.me.bound.length ≠ 4 ∧ (s0.vd 0).binds ≠ 4096) ∧
    ((false, 0) ∉ (sBound [(true, 0), (true, 8), (true, 16), (true, 24)] 4).me.bound ∧ (sBound [(true, 0), (true, 8), (true, 16), (true, 24)] 4).me.bound.length = 4) ∧
    ((sBound [] 4096).vd (s0.vdOf 64)).binds = 4096 :=
  ⟨plain0, acts0, ⟨_, rfl⟩, ⟨by decide, by decide, ⟨_, rfl⟩⟩, by decide, by decide, by decide⟩

def sPd (p : Pending) : State := withF { f0 with pend := [p] }
def cw (n : W64) : CWait := ⟨0, false, 5, n, none⟩
theorem wit_Completions :
    (((sPd { pd with ready := true }).fib 64).pend[0]? = some { pd with ready := true }) ∧
    (((sPd { pd with ready := true, poison := some (1, 64) }).fib 64).pend[0]? = some { pd with ready := true, poison := some (1, 64) } ∧ ((sPd pd).fib 64).raised = none) ∧
    (((sPd pd).fib 64).pend[0]? = some pd ∧ pd.ready = false) ∧
    (∀ n ∈ [0, 1], let s := sPd { pd with kind := .cwait (cw n) }
      Calm s ∧ NoOldCopies s ∧ (s.wg (wgOf 64)).scratchBad = [] ∧ (∃ p, (s.fib 64).pend[0]? = some p ∧ p.kind = .cwait (cw n)) ∧
      ∃ a, s.ctrPlan 64 false .rd 0 .read false = .ok [a] ∧ (runAtoms 8 (fun _ o => o) [a] (s.byteAt (wgOf 64))).1.map (·.2) = [0]) := by
  refine ⟨rfl, ⟨rfl, rfl⟩, ⟨rfl, rfl⟩, ?_⟩
  intro n hn
  rcases List.mem_cons.mp hn with rfl | h
  all_goals try obtain rfl := List.mem_singleton.mp h
  all_goals exact ⟨calmOf (by trivial) (fun _ => rfl) (fun _ => rfl) rfl rfl, fun _ h => (nomatch h), rfl, ⟨_, rfl, rfl⟩, ⟨{ lane := 0, e := 0, addr := 0, len := 8, ps := some [{ len := 8, locs := [.dev 0 0 false] }] }, by decide +kernel, by decide +kernel⟩⟩

/-! Sealing, locking, regions. -/

/-- Scalar registers and virtual device 0. -/
def sX (r : List (Nat × W64)) (v : Vd) : State := { sS r with vds := [(0, v)] }
def ctxF : FM := { zm with d := 7, b := 1, abase := 2 }
def sl (va len : Nat) : Seal := { va := va, len := len, ending := false, readers := [] }

theorem wit_none_acts : (s0.acts s0.cur ({ ctxF with hd := hdN } : FM).hd) &&& ~~~s0.me.helper = 0 := by decide

/-- What a copy command reads, from address 0. -/
def cmd0 : Cmd :=
  { kind := 0, st := .running, standIn := false, vd := 0, wg := 1, fib := 64, grid := gkey 0 1, cluster := 0, word := 0, scope := 5, src := 0, dst := 4096, n := 64, ctr := 0, sb := 0, sc := 0, lb := 0, lc := 0,
    pos := 0, added := 0, prio := 0, record := 0, wait := none, result := none, born := 0, host := none }

/-- Both the seal's own statuses, at the edges of its rules, and an unseal with and without a command that reads the buffer. Which lines share a set of the cluster's cache is open (log entry 34): that a set may hold too many locked lines is shown
for the case that all share one. -/
theorem wit_SealsAndLocks :
    (Plain (sX [(1, 256)] v0) ∧ Calm (sX [(1, 256)] v0) ∧ (sX [(1, 256)] v0).acts 64 ctxF.hd &&& ~~~(sX [(1, 256)] v0).me.helper ≠ 0) ∧
    (((sS [(0, 128), (1, 32)]).laneAddr 64 ctxF 0).toNat % 256 ≠ 0 ∧ ((s0.ssrc 64 ctxF.b).toNat = 0) ∧ 2 ^ 36 < ((sS [(1, 0x1000000020)]).ssrc 64 ctxF.b).toNat) ∧
    (∃ x ∈ ((sX [(1, 256)] { v0 with seals := [sl 224 32] }).vd 0).seals, 0 < x.va + x.len ∧ x.va < 256) ∧
    (((sX [(1, 256)] { v0 with seals := List.replicate 4096 (sl 256 32) }).vd 0).seals.length = 4096 ∧ ∀ x ∈ List.replicate 4096 (sl 256 32), ¬ (x.va < 256)) ∧
    (∃ p ∈ pagesOf 0x8000000 256, ∀ x, (sX [(0, 0x8000000), (1, 256)] v0).xlate 0 0 p = .ok x → x.w = false) ∧
    (pagesOf 0 256 = [0] ∧ ∃ x, (sX [(1, 256)] v0).xlate 0 0 0 = .ok x ∧ x.w = true) ∧
    (Plain (sX [] { v0 with seals := [sl 0 256] }) ∧ Calm (sX [] { v0 with seals := [sl 0 256] }) ∧ CleanCopies (sX [] { v0 with seals := [sl 0 256] }) ∧ (sX [] { v0 with seals := [sl 0 256] }).readersOf 0 0 256 = [] ∧
      ({ sX [] { v0 with seals := [sl 0 256] } with cmds := [(1, cmd0)] } : State).readersOf 0 0 256 = [1] ∧ (sX [] { v0 with seals := [sl 0 256] }).anyMig 64 (pagesOf 0 256) = false ∧ s0.me.pend = []) ∧
    ((sX [(1, 256)] v0).relBlocked 64 = false ∧ sUnseal.relBlocked 64 = true ∧ (sX [(1, 256)] v0).anyMig 64 (pagesOf 0 256) = false ∧ sMig.anyMig 64 (pagesOf 0x8000000 256) = true) ∧
    (1024 < (linesOf 0 65600).length ∧ ¬ 1024 < (linesOf 0 64).length ∧ (sS [(0, 0x8000000), (1, 64)]).devAddr 0 0 0x8000000 = none ∧ s0.devAddr 0 0 0 = some 0) ∧
    (∀ set : Nat → Nat, (∀ l, set l = set 0) → ∃ l ∈ List.range 9, 8 < ((([] : List Nat) ++ List.range 9).eraseDups.filter (fun x => set x = set l)).length) := by
  refine ⟨⟨⟨rfl, rfl, rfl, rfl, rfl, by decide⟩, calmOf (by trivial) (fun _ => rfl) (fun _ => rfl) rfl rfl, by decide⟩, by decide +kernel, ⟨sl 224 32, by decide, by decide⟩, ⟨?_, ?_⟩, ⟨0x8000000, by decide +kernel, ?_⟩, ⟨by decide +kernel, _, rfl, rfl⟩,
    ⟨⟨rfl, rfl, rfl, rfl, rfl, by decide⟩, calmOf (by trivial) (fun _ => rfl) (fun _ => rfl) rfl rfl, fun _ h => (nomatch h), by decide, by decide +kernel⟩, by decide +kernel, by decide +kernel, ?_⟩
  · exact List.length_replicate
  · intro x h; obtain rfl := List.eq_of_mem_replicate h; decide
  · have : (sX [(0, 0x8000000), (1, 256)] v0).xlate 0 0 0x8000000 = .error (.fault .pageFault) := by decide +kernel
    rw [this]; intro x h; cases h
  · intro set h
    refine ⟨0, by decide, ?_⟩
    have : (fun x => decide (set x = set 0)) = fun _ => true := funext fun x => by simp [h x]
    rw [this]; decide

def gdf (ty : BitVec 5) : FM := { ctxF with ty := ty }
def rg0 (b : W32) : Region := { va := 0, len := 64, ty := 10, budget := b }
theorem wit_RegionsDefined : Plain (sS [(1, 0x3F80000000000040)]) ∧ Calm (sS [(1, 0x3F80000000000040)]) ∧ s0.books = [] ∧ (s0.acts 64 ({ ctxF with hd := hdN } : FM).hd &&& ~~~s0.me.helper = 0) ∧ (s0.acts 64 ctxF.hd &&& ~~~s0.me.helper ≠ 0) ∧
    (((sS [(1, 0x3F80000000000040)]).ssrc 64 ctxF.b).extractLsb' 0 32 = 64 ∧ f32.value 0x3F800000 = .num false 0x800000 (-23) ∧ f32.value 0x80000000 = .num true 0 (-149)) ∧
    (∃ r ∈ [rg0 0], 0 < r.va + r.len ∧ r.va < 64) ∧ (List.replicate 64 (rg0 0)).length = 64 ∧ (∀ r ∈ List.replicate 64 { rg0 0 with va := 64 }, ¬ r.va < 64) ∧
    (∀ len pa sb, s0.globalPiece 0 0 .wr 0x8000000 1 ≠ .ok { len := len, locs := [.dev pa 0 sb] }) ∧ pagesOf 0x8000000 64 = [0x8000000] ∧ s0.anyMig 64 [0x8000000] = false ∧ sMig.anyMig 64 [0x8000000] = true ∧ s0.globalPiece 0 0 .wr 0 1 = .ok { len := 1, locs := [.dev 0 0 false] } ∧
    (s0.ssrc 64 ctxF.b).extractLsb' 0 32 = 0 := by
  refine ⟨⟨rfl, rfl, rfl, rfl, rfl, by decide⟩, calmOf (by trivial) (fun _ => rfl) (fun _ => rfl) rfl rfl, rfl, by decide, by decide, by decide +kernel, ⟨rg0 0, by decide, by decide⟩, by decide, ?_, ?_, by decide +kernel, by decide +kernel, by decide +kernel, by decide +kernel, by decide⟩
  · intro x h; obtain rfl := List.eq_of_mem_replicate h; decide
  · intro len pa sb h
    have : s0.globalPiece 0 0 .wr 0x8000000 1 = .error (.fault .pageFault) := by decide +kernel
    rw [this] at h; cases h

/-- One lane adds x to an element of a region with budget b. -/
def sGz (b x : W32) : State := { sOne with vds := [(0, { v0 with regions := [rg0 b] })], slots := [(16, { Slot.empty with active := true, stack := [(128, x)] })] }
def gzF : FM := { zm with d := 4, ty := 10, abase := 2 }
def accZ : Acc := { lane := 0, e := 0, addr := 0, len := 4, ps := some [{ len := 4, locs := [.dev 0 0 false] }] }
def drain0 : Drain := { cluster := 0, line := 0, ty := 4, parts := [(0, 5)], mag := 0 }
/-- A word waits for that drain. -/
def sDrain : State := { withF { f0 with pend := [{ pd with kind := .drain 0 [0] }] } with drains := [drain0] }
theorem wit_GauzeWords :
    (∀ p ∈ [((0 : W32), (0 : W32)), (0x40800000, 0x3F800000), (0x40800000, 0x40400000)], let s := sGz p.1 p.2
      Plain s ∧ Calm s ∧ NoOldCopies s ∧ s.books = [] ∧ s.acts 64 gzF.hd ≠ 0 ∧ s.regionOf (s.vdOf 64) 0 = some (rg0 p.1) ∧ s.planWith 64 0 .wr (s.isHelper 64) (fun e ps => match (match s.regionOf (s.vdOf 64) e.addr.toNat with
        | some r => if r.ty = 10 then none else some Cause.protection
        | none => none) with
        | some c => some c
        | none => atomicRefuse 10 (.op 0 (s.atomVal 64 gzF 4 e.lane)) false ps) (s.atomElems 64 gzF (FM.offset gzF) (lanesOf (s.acts 64 gzF.hd &&& ~~~s.me.helper))) = .ok [accZ]) ∧
    (grantShare 0 [] 0 = 0 ∧ grantShare 0x40800000 [] 0 = 0x3F800000 ∧ le32 (addUp32 0 (gaddMag 10 0x3F800000)) 0x3F800000 = true ∧ le32 (addUp32 0 (gaddMag 10 0x40400000)) 0x3F800000 = false) ∧
    (∀ d ∈ [drain0], d.cluster = 0 → d.line ≠ 1) ∧ (Calm { sDrain with drains := [], ucopies := [] } ∧ sDrain.drains = [drain0] ∧ drain0.ty = 4 ∧ drain0.parts = [(0, 5)] ∧ (5 : W64).toNat < 2 ^ 32 ∧ (sDrain.fib 64).pend.map (·.kind) = [.drain 0 [0]]) ∧
    (let s := sGz 0x40800000 0;
      (∀ p ∈ s.me.pend, ∀ cl ls, p.kind ≠ .drain cl ls) ∧ s.planWith 64 0 .rd (s.isHelper 64) (fun e ps => match s.regionOf (s.vdOf 64) e.addr.toNat with
        | some r => if r.ty = 10 then none else some Cause.protection
        | none => atomicRefuse 10 .read false ps) (s.atomElems 64 gzF (FM.offset gzF) (lanesOf (s.acts 64 gzF.hd &&& ~~~s.me.helper))) = .ok [accZ]) := by
  refine ⟨?_, by decide +kernel, by decide, ⟨calmOf (by trivial) (fun _ => rfl) (fun _ => rfl) rfl rfl, by decide⟩, fun _ h => (nomatch h), by decide +kernel⟩
  intro p hp
  rcases List.mem_cons.mp hp with rfl | hp
  · exact ⟨⟨rfl, rfl, rfl, rfl, rfl, by decide⟩, calmOf (by trivial) (fun _ => rfl) (fun _ => rfl) rfl rfl, fun _ h => (nomatch h), rfl, by decide, by decide, by decide +kernel⟩
  rcases List.mem_cons.mp hp with rfl | hp
  · exact ⟨⟨rfl, rfl, rfl, rfl, rfl, by decide⟩, calmOf (by trivial) (fun _ => rfl) (fun _ => rfl) rfl rfl, fun _ h => (nomatch h), rfl, by decide, by decide, by decide +kernel⟩
  obtain rfl := List.mem_singleton.mp hp
  exact ⟨⟨rfl, rfl, rfl, rfl, rfl, by decide⟩, calmOf (by trivial) (fun _ => rfl) (fun _ => rfl) rfl rfl, fun _ h => (nomatch h), rfl, by decide, by decide, by decide +kernel⟩

/-! The matrix unit. -/

def sW (r : List (Nat × W64)) (w : Wg) : State := { sS r with wgs := [(1, w)] }
def gr (g : Option Nat) (x : List Sig) : Wg := { w0 with gregs := [(0, { gang := g, signs := [], base := 0, sigs := x })] }

theorem wit_MatrixHandles : Plain s0 ∧ s0.acts s0.cur zy.hd ≠ 0 ∧ CanTrap s0 ∧ s0.myWg.kd.flags.getLsbD 0 = true ∧ zy.sub.getLsbD 0 = false ∧ ({ zy with sub := 1 } : FY).sub.getLsbD 0 = true ∧
    ({ kd0 with flags := 2 } : KDesc).flags.getLsbD 0 = false ∧ (tget GReg.empty s0.myWg.gregs 0).gang = none ∧
    (Plain (sW [] (gr (some 0) [])) ∧ gangOf 64 = 0 ∧ (tget GReg.empty (sW [] (gr (some 0) [])).myWg.gregs 0).gang = some 0 ∧ (tget GReg.empty (sW [] (gr (some 1) [])).myWg.gregs 0).gang = some 1) ∧
    (let a : W64 := 0x40002000; let b : W64 := 1
      (a.extractLsb' 0 13).toNat + (a.extractLsb' 13 14).toNat = 1 ∧ s0.myWg.kd.ob / 64 = 16 ∧ (a.extractLsb' 27 5).toNat = 8 ∧ a.getLsbD 32 = false ∧ a.getLsbD 33 = false ∧ a.extractLsb' 34 30 = 0 ∧ (b.extractLsb' 0 16).toNat = 1 ∧
      b.extractLsb' 29 3 = 0 ∧ (b.extractLsb' 32 6).toNat ≤ 32 ∧ (b.extractLsb' 46 6).toNat ≤ 32 ∧ b.extractLsb' 52 12 = 0) ∧
    ((0x40002010 : W64).extractLsb' 0 13).toNat + ((0x40002010 : W64).extractLsb' 13 14).toNat = 17 ∧ ((0x10002000 : W64).extractLsb' 27 5).toNat = 2 ∧ (s0.ssrc 64 0).extractLsb' 13 14 = 0 := by
  refine ⟨plain0, acts0, canTrap0, ?_, ?_, ?_, ?_, ?_, ⟨⟨rfl, rfl, rfl, rfl, rfl, by decide⟩, ?_⟩, ?_⟩ <;> decide

/-- A bf16 record of one row over the first unit; one whose B field is far out; the four fibres of the gang, and three signatures of the others. -/
def or0 : ORec := { off := 0, size := 16, ty := 9, l32 := false, trans := false, rowb := 1, scale := 0, mExt := 1, kExt := 1, nExt := 1 }
def sig (q : Nat) : Sig := { op := 0, quarter := q, fib := 64 + 4 * q, acc := 0, tya := 9, tyb := 8, ck := false, clr := false, oboff := 0, orec := or0, b := [] }
def wM (x : List Sig) : Wg := { gr (some 0) x with orecs := [(0, or0)] }
def sGang (x : List Sig) : State := { sW [] (wM x) with fibres := [(64, f0), (68, f0), (72, f0), (76, f0)] }
def mmaF : FX := { zx with tya := 9, tyb := 8 }
theorem wit_MatrixOperations :
    (Plain (sW [] (wM [])) ∧ (sW [] (wM [])).acts 64 mmaF.hd ≠ 0 ∧ CanTrap (sW [] (wM [])) ∧ (wM []).kd.flags.getLsbD 0 = true ∧ gangOf 64 = 0 ∧ (s0.myWg.gregs = [] ∧ CanTrap s0) ∧ tfind (gr (some 0) []).orecs 0 = none ∧
      tfind (wM []).orecs 0 = some or0 ∧ or0.ty = mmaF.tya.toNat ∧ or0.ty ≠ ({ mmaF with tya := 8 } : FX).tya.toNat ∧ (sW [] (wM [])).fibreDone 68 = true) ∧
    (Plain (sGang []) ∧ (sGang []).acts 64 mmaF.hd ≠ 0 ∧ (∀ i, i < 4 → (sGang []).fibreDone (64 + 4 * i) = false) ∧ (sGang []).quarterOf 64 = 0 ∧ or0.sliceFault 0 = none ∧ (or0.sliceFault 1024).isSome = true) ∧
    (Plain (sGang [sig 1, sig 2, sig 3]) ∧ ([sig 1, sig 2, sig 3].filter (fun y => y.op = 0)).length = 3 ∧ (∀ y ∈ [sig 1, sig 2, sig 3], y.acc = mmaF.acc.toNat ∧ y.tya = mmaF.tya.toNat ∧ y.tyb = mmaF.tyb.toNat ∧ y.ck = mmaF.ck ∧ y.clr = mmaF.clr) ∧
      (sig 1).acc ≠ ({ mmaF with acc := 1 } : FX).acc.toNat ∧ CanTrap (sGang [sig 1])) ∧
    (let w := { w0 with issued := [{ g := 0, op := 0, sigs := [sig 0, sig 1, sig 2, sig 3], old := [] }] };
      ((sW [] w).wg 1).issued = { g := 0, op := 0, sigs := [sig 0, sig 1, sig 2, sig 3], old := [] } :: [] ∧ ([sig 0, sig 1, sig 2, sig 3].map (fun y => y.quarter)).Perm [0, 1, 2, 3] ∧
      (∀ x ∈ [sig 0, sig 1, sig 2, sig 3], x.tya = 9 ∧ x.tyb = 8 ∧ x.acc = 0 ∧ x.ck = false ∧ x.clr = false ∧ x.orec.ty = 9) ∧ ((sW [] w).wg 1).obBad = [] ∧ (sW [] w).obBusy 1 = false) ∧ ((s0.wg 1).issued = [] ∧ ∀ e ∈ (sGang []).fibres, e.2.pend = []) := by
  refine ⟨⟨⟨rfl, rfl, rfl, rfl, rfl, by decide⟩, by decide, ⟨by decide, rfl, rfl, rfl, rfl, by decide⟩, by decide, by decide, ⟨rfl, canTrap0⟩, by decide, by decide, by decide, by decide, by decide⟩,
    ⟨⟨rfl, rfl, rfl, rfl, rfl, by decide⟩, by decide, by decide, by decide, by decide +kernel, by decide +kernel⟩, ⟨⟨rfl, rfl, rfl, rfl, rfl, by decide⟩, by decide, by decide, by decide, ⟨by decide, rfl, rfl, rfl, rfl, by decide⟩⟩, ⟨rfl, List.Perm.refl _, by decide, rfl, by decide⟩, rfl, by decide⟩

/-- An element of tile 0 in error. -/
def sTileBad (h : LaneMask) : State := { sW [] { w0 with tileBad := [(0, true)] } with fibres := [(64, { f0 with helper := h })] }
theorem wit_AccumulatorWords : Plain s0 ∧ s0.acts s0.cur zx.hd ≠ 0 ∧ s0.myWg.kd.flags.getLsbD 0 = true ∧ s0.acts s0.cur zx.hd &&& ~~~s0.me.helper ≠ 0 ∧ (∀ e, accBad s0.myWg e = false) ∧
    (Plain (sTileBad 0) ∧ (sTileBad 0).acts 64 zx.hd ≠ 0 ∧ (sTileBad 0).me.helper = 0 ∧ ((sTileBad 0).acts 64 zx.hd).getLsbD 0 = true ∧ (∃ e ∈ accRow zx 0 0, accBad (sTileBad 0).myWg e = true)) ∧
    (Plain (sTileBad 7) ∧ (sTileBad 7).acts 64 zx.hd &&& ~~~(sTileBad 7).me.helper = 0) := by
  refine ⟨plain0, acts0, by decide, by decide, ?_, ⟨⟨rfl, rfl, rfl, rfl, rfl, by decide⟩, by decide, by decide, by decide, ⟨(false, 0), by decide, by decide⟩⟩, ⟨rfl, rfl, rfl, rfl, rfl, by decide⟩, by decide⟩
  rintro ⟨b, e⟩
  cases b <;> rfl

theorem wit_OperandBufferCopies : Plain s0 ∧ Calm s0 ∧ CleanCopies s0 ∧ s0.acts s0.cur ldf.hd ≠ 0 ∧
    (∃ as, s0.obPlan 64 { zm with d := 4 } true (lanesOf (s0.acts 64 hd0 &&& ~~~s0.me.helper)) = .ok as ∧ TidyLocs (as.map (·.2)) ∧ as.length = 3) ∧
    (∃ as, s0.obPlan 64 { zm with d := 4 } false (lanesOf (s0.acts 64 hd0 &&& ~~~s0.me.helper)) = .ok as ∧ TidyLocs (as.map (·.2)) ∧ as.length = 3) :=
  ⟨plain0, calm0, clean0.1, acts0, ⟨_, rfl, tidy_locs _ (by decide), by decide⟩, ⟨_, rfl, tidy_locs _ (by decide), by decide⟩⟩

/-! Queues and engines. -/

/-- Name q8 is bound to bank 63, which holds a queue of n entries; the readout FIFO of quarter 0 holds one. -/
def sQ (n : Nat) : State := { sW [] { w0 with qbind := [(8, 63)], readout := [(0, [[(0, 1)]])] } with banks := [(63, { mode := .fifo, next := none, fifo := List.replicate n [] })] }
def q8 : FQ := { zq with q := 8 }
theorem wit_Queues : Plain s0 ∧ CanTrap s0 ∧ s0.acts s0.cur q8.hd ≠ 0 ∧ s0.acts s0.cur q8.hd &&& ~~~s0.me.helper ≠ 0 ∧ tfind s0.myWg.qbind 8 = none ∧ 8 ≤ q8.q.toNat ∧ (tget [] s0.myWg.readout 0 = [] ∧ s0.mySlot.quarter % 4 = 0) ∧
    (Plain (sQ 0) ∧ tfind (sQ 0).myWg.qbind 8 = some 63 ∧ ((sQ 0).bank 63).fifo = [] ∧ (sQ 0).acts 64 q8.hd &&& ~~~(sQ 0).me.helper ≠ 0) ∧ (((sQ 1).bank 63).fifo = [[]] ∧ tget [] (sQ 1).myWg.readout 0 = [[(0, 1)]]) ∧
    (Plain (sQ 2048) ∧ 2048 ≤ ((sQ 2048).bank 63).fifo.length) ∧ (Plain (sTileBad 7) ∧ (sTileBad 7).acts 64 q8.hd ≠ 0 ∧ (sTileBad 7).acts 64 q8.hd &&& ~~~(sTileBad 7).me.helper = 0) ∧
    (∀ n, n ∈ [0, 1, 2, 3, 7, 8, 15] → ({ zq with q := BitVec.ofNat 4 n } : FQ).q.toNat = n) ∧ (s0.ssrc 64 q8.b).toNat < 64 ∧ 64 ≤ ((sS [(1, 64)]).ssrc 64 1).toNat ∧ ((s0.bank 0).mode ≠ .fifo) ∧
    (((sQ 0).bank 63).mode = .fifo ∧ ((sQ 0).bank 63).next = none ∧ (∀ e ∈ (sQ 0).wgs, e.2.vd = 0)) ∧
    (∃ e ∈ ([(1, w0), (2, { w0 with vd := 1, qbind := [(8, 63)] })] : List (Nat × Wg)), e.2.vd ≠ 0 ∧ clusterOf e.2.core = 0 ∧ ∃ p ∈ e.2.qbind, p.2 = 63) := by
  refine ⟨plain0, canTrap0, acts0, by decide, by decide, by decide, by decide, ⟨⟨rfl, rfl, rfl, rfl, rfl, by decide⟩, by decide, by decide, by decide⟩, by decide, ⟨⟨rfl, rfl, rfl, rfl, rfl, by decide⟩, ?_⟩, ⟨⟨rfl, rfl, rfl, rfl, rfl, by decide⟩, by decide, by decide⟩,
    by decide, by decide, by decide, by decide, by decide, ?_⟩
  · show 2048 ≤ (List.replicate 2048 ([] : Tab W32)).length
    rw [List.length_replicate]
  · exact ⟨_, .tail _ (.head _), by decide, by decide, (8, 63), by decide, rfl⟩

def ctl0 : FQ := { zq with a := 8 }
/-- Full queues: 64 commands wait. -/
def cmds64 : Tab Cmd := (List.range 64).map (fun i => (i, { cmd0 with st := .queued }))
theorem wit_EnginePushes : Plain s0 ∧ s0.drains = [] ∧ s0.acts s0.cur ctl0.hd ≠ 0 ∧ s0.acts s0.cur ctl0.hd &&& ~~~s0.me.helper ≠ 0 ∧ CanTrap s0 ∧ (∀ p ∈ pushes ctl0, s0.pushTrap 64 (s0.capture 64 p.2 ctl0) = none) ∧
    ((sS [(11, 4)]).pushTrap 64 ((sS [(11, 4)]).capture 64 0 ctl0) = some (.misaligned, 4)) ∧ (s0.cmds = [] ∧ s0.relBlocked 64 = false ∧ (s0.vd 0).toHost = false ∧ s0.me.pend = [] ∧ sUnseal.relBlocked 64 = true ∧ s0.feature.getLsbD 24 = true ∧ s0.feature.getLsbD 25 = true ∧ (s0.vd (s0.vdOf 64)).engDeadline.toNat % 65536 ≠ 0) ∧
    (((sX [] { v0 with engDeadline := 0 }).vd 0).engDeadline.toNat % 65536 = 0 ∧ ((sX [] { v0 with engDeadline := 0 }).vd 0).funcMode.getLsbD 3 = false ∧ ∀ e ∈ (sX [] { v0 with engDeadline := 0 }).fibres, ∀ x ∈ e.2.pend, x.kind ≠ .push 0) ∧
    (64 ≤ (cmds64.filter (fun e => e.2.st = .queued && s0.sameEngine 0 0 e.2)).length ∧ ctl0.hd.sos = false) ∧ (Plain (sTileBad 7) ∧ (sTileBad 7).acts 64 ctl0.hd &&& ~~~(sTileBad 7).me.helper = 0) := by
  refine ⟨plain0, rfl, acts0, by decide, canTrap0, by decide +kernel, by decide +kernel, by decide, ⟨by decide, by decide, ?_⟩, by decide +kernel, ⟨rfl, rfl, rfl, rfl, rfl, by decide⟩, by decide⟩
  intro e he x hx
  obtain rfl := List.mem_singleton.mp he
  cases hx

theorem fresh_locs (ps : List Piece) (h : tidy [{ lane := 0, e := 0, addr := 0, len := 0, ps := some ps }] = true) : freshLocs ps := by
  intro p hp l hl pa b e
  have h := List.all_eq_true.mp (List.all_eq_true.mp (List.all_eq_true.mp h _ (.head _)) p hp) l hl
  subst e
  simp at h

/-- A copy of 64 bytes, queued or running, with its counter absent, in scratch or in the heap. -/
def sCmd (c : Cmd) : State := { s0 with cmds := [(1, c)], nextCmd := 2 }
def cmdQ : Cmd := { cmd0 with st := .queued }
/-- The fibre's `unseal` is still under way when the second command is pushed. -/
def sBehind : State := { s0 with fibres := [(64, { f0 with pend := [{ pd with kind := .unseal 0 }, { pd with kind := .push 2 }] })], cmds := [(2, cmdQ)], nextCmd := 3 }
theorem wit_EngineCopies :
    ((sCmd cmdQ).upNext cmdQ (sCmd cmdQ).cmds = some (1, cmdQ) ∧ (sBehind.upNext cmdQ sBehind.cmds).map (·.1) = none ∧ sBehind.mayAccept 2 cmdQ = false) ∧
    (({ sCmd cmdQ with clock := 655350 } : State).cmdOverdue cmdQ = true ∧ (sCmd cmdQ).mayAccept 1 cmdQ = true ∧ (sCmd cmdQ).cmdOverdue cmdQ = false ∧ (s0.vd 0).toHost = false) ∧
    (∀ c ∈ [cmd0, { cmd0 with ctr := 8, word := 16 }, { cmd0 with ctr := 8 }], (Calm (sCmd c) ∧ NoOldCopies (sCmd c)) ∧
      (c.st = .running ∧ c.host = none ∧ ((sCmd c).wg c.wg).scratchBad = [] ∧ c.cmp = 0 ∧ c.gather = false ∧ c.scatter = false ∧ c.pos < c.n ∧ c.dsp = false ∧ (sCmd c).live c.wg = true ∧ ((sCmd c).grid c.grid).st = .running) ∧
      (∀ x ∈ ((sCmd c).vd c.vd).seals, x.ending = false) ∧ ∃ ps qs, (sCmd c).engPlan c c.ssp .rd 1 0 64 = .ok ps ∧ (sCmd c).engPlan c c.dsp .wr 1 4096 64 = .ok qs ∧ freshLocs ps ∧ freshLocs qs) ∧
    (({ cmd0 with ctr := 8, word := 16 } : Cmd).csp = true ∧ 8 + 8 ≤ (s0.wg 1).kd.scratch ∧ cmd0.csp = false ∧ s0.ctrAt 0 0 8 = some [{ len := 8, locs := [.dev 8 0 false] }]) := by
  refine ⟨by decide +kernel, by decide +kernel, ?_, by decide +kernel⟩
  intro c hc
  rcases List.mem_cons.mp hc with rfl | hc
  · exact ⟨⟨calmOf (by trivial) (fun _ => rfl) (fun _ => rfl) rfl rfl, fun _ h => (nomatch h)⟩, by decide +kernel, fun _ h => (nomatch h), _, _, rfl, rfl, fresh_locs _ (by decide), fresh_locs _ (by decide)⟩
  rcases List.mem_cons.mp hc with rfl | hc
  · exact ⟨⟨calmOf (by trivial) (fun _ => rfl) (fun _ => rfl) rfl rfl, fun _ h => (nomatch h)⟩, by decide +kernel, fun _ h => (nomatch h), _, _, rfl, rfl, fresh_locs _ (by decide), fresh_locs _ (by decide)⟩
  obtain rfl := List.mem_singleton.mp hc
  exact ⟨⟨calmOf (by trivial) (fun _ => rfl) (fun _ => rfl) rfl rfl, fun _ h => (nomatch h)⟩, by decide +kernel, fun _ h => (nomatch h), _, _, rfl, rfl, fresh_locs _ (by decide), fresh_locs _ (by decide)⟩

theorem ok_of {ε α : Type} {x : Except ε α} (h : (match x with | .ok _ => true | .error _ => false) = true) : ∃ g, x = .ok g := by
  cases x with
  | ok g => exact ⟨g, rfl⟩
  | error e => cases h

/-- A sum of i32 of two ranks; and a collective of one rank, whose group record stands at address 0, with its result. -/
def coll0 : Cmd := { cmd0 with kind := 3, word := 0x2000, n := 8 }
def sColl : State := { sCmd { coll0 with result := some [1, 2, 3, 4, 5, 6, 7, 8] } with mem := [(0, 1)] }
theorem wit_Collectives : (coll0.kind = 3 ∧ ([[1, 2, 3, 4, 5, 6, 7, 8], [1, 0, 0, 0, 1, 0, 0, 0]] : List (List Byte)).length = 2 ∧ (∀ b ∈ ([[1, 2, 3, 4, 5, 6, 7, 8], [1, 0, 0, 0, 1, 0, 0, 0]] : List (List Byte)), b.length = coll0.n) ∧ coll0.cty = 4 ∧ coll0.n % (4 * 2) = 0 ∧ coll0.cop = 0) ∧
    (cmd0.kind ≠ 3 ∧ tfind (sCmd cmd0).cmds 1 = some cmd0) ∧
    coll0.host = none ∧
    (let c := { coll0 with result := some [1, 2, 3, 4, 5, 6, 7, 8] };
      Calm sColl ∧ NoOldCopies sColl ∧ tfind sColl.cmds 1 = some c ∧ c.st = .running ∧ c.standIn = false ∧ (∃ g, sColl.groupRec c = .ok g) ∧ c.ctr = 0 ∧ (sColl.grid c.grid).st = .running ∧ (∀ x ∈ (sColl.vd c.vd).seals, x.ending = false) ∧
      ∃ qs, sColl.engPlan c false .wr 1 4096 8 = .ok qs ∧ freshLocs qs) := by
  refine ⟨by decide +kernel, by decide +kernel, rfl, calmOf (by trivial) (fun _ => rfl) (fun _ => rfl) rfl rfl, fun _ h => (nomatch h), by decide +kernel, rfl, rfl, ok_of (by decide +kernel), rfl, by decide +kernel, fun _ h => (nomatch h), ⟨_, rfl, fresh_locs _ (by decide)⟩⟩

/-! System registers and words. -/

/-- A fibre at a level, with scalar registers. -/
def sP (p : Priv) (r : List (Nat × W64)) : State := withF { f0 with priv := p, sregs := r }
def yN (n : BitVec 12) : FY := { zy with d := 5, num := n }

theorem wit_RegisterReads : Plain s0 ∧ CanTrap s0 ∧ s0.acts s0.cur (yN 1).hd ≠ 0 ∧ s0.acts s0.cur hdN = 0 ∧ (∀ r ∈ sysRows, r.1 ≠ (0x002 : BitVec 12).toNat) ∧ (∀ r ∈ sysRows, r.1 = (0x030 : BitVec 12).toNat → s0.me.priv.code < r.2.1.code) ∧
    (∃ r ∈ sysRows, r.1 = (0x030 : BitVec 12).toNat) ∧ ({ s0 with feature := 0 } : State).feature.getLsbD 24 = false ∧ ({ s0 with feature := 0 } : State).feature.getLsbD 25 = false ∧ s0.feature.getLsbD 24 = true ∧ s0.feature.getLsbD 25 = true ∧
    (∃ r ∈ sysRows, r.1 = 1 ∧ runsAt s0 (yN 1).hd r.2.1) ∧ (∃ r ∈ sysRows, r.1 = 0x240 ∧ runsAt (sP .device []) (yN 1).hd r.2.1) ∧ Plain (sP .device []) ∧ s0.me.move < 4 := by
  refine ⟨plain0, canTrap0, acts0, by decide, by decide, by decide, ⟨_, .tail _ (.tail _ (.tail _ (.tail _ (.tail _ (.tail _ (.head _)))))), by decide⟩, by decide, by decide, by decide, by decide, ⟨_, .head _, by decide, by decide, by decide⟩, ?_,
    ⟨rfl, rfl, rfl, rfl, rfl, by decide⟩, by decide⟩
  refine ⟨(0x240, .supervisor, some .supervisor), by decide, by decide, by decide, by decide⟩

/-- A page of host memory stands in the core's TLB. -/
def sHost : State := { s0 with tlb := [{ level := 0, holder := 0, vd := 0, va := 0x8000000, size := 4096, pa := 0, w := true, x := true, attr := 3, repl := [] }] }

theorem wit_ClearingReads : (∃ c ∈ clearings, c.num = (yN 0x171).num.toNat ∧ Plain s0 ∧ runsAt s0 (yN 0x171).hd c.level) ∧ (∃ c ∈ clearings, c.num = (yN 0x06D).num.toNat ∧ Plain (sP .supervisor []) ∧ runsAt (sP .supervisor []) (yN 0x06D).hd c.level) ∧
    (∃ c ∈ clearings, (s0.fib 64).priv.code < c.level.code) ∧ 1 ≤ ((sP .supervisor []).fib 64).priv.code ∧ (((sP .supervisor []).fib 64).xlateIn.getLsbD 63 = false ∧ (sP .supervisor []).globalPiece 0 0 .rd 0 1 = .ok { len := 1, locs := [.dev 0 0 false] }) ∧
    ((0x8000000000000000 : W64).getLsbD 63 = true ∧ ((sP .device []).fib 64).priv = .device) ∧ s0.globalPiece 0 0 .rd 0x8000000 1 = .error (.fault .pageFault) ∧
    (∃ p, sHost.globalPiece 0 0 .rd 0x8000000 1 = .ok p ∧ ∀ pa b c, p.locs.head? ≠ some (.dev pa b c)) := by
  refine ⟨⟨_, .tail _ (.head _), by decide, plain0, by decide, by decide⟩, ⟨_, .head _, by decide, ⟨rfl, rfl, rfl, rfl, rfl, by decide⟩, by decide, by decide⟩, ⟨_, .head _, by decide⟩, by decide, by decide +kernel, by decide, by decide +kernel, ⟨{ len := 1, locs := [.host 0] }, by decide +kernel, ?_⟩⟩
  intro pa b c h
  cases h

theorem wit_RegisterWrites : Plain s0 ∧ CanTrap s0 ∧ s0.acts s0.cur (yN 0x062).hd &&& ~~~s0.me.helper ≠ 0 ∧ s0.acts s0.cur hdN &&& ~~~s0.me.helper = 0 ∧ (∃ r ∈ plainWrites, r.1 = (yN 0x062).num.toNat ∧ r.2.1.code ≤ s0.me.priv.code) ∧
    (∀ r ∈ sysRows, r.1 ≠ (0x002 : BitVec 12).toNat) ∧ (∀ r ∈ sysRows, r.1 = (0x001 : BitVec 12).toNat → ∀ p, r.2.2 = some p → s0.me.priv.code < p.code) ∧ (∃ r ∈ plainWrites, (s0.fib 64).priv.code < r.2.1.code) ∧ (64 : Nat) < 2 ^ 60 := by
  refine ⟨plain0, canTrap0, by decide, by decide, ⟨_, .tail _ (.tail _ (.tail _ (.tail _ (.tail _ (.tail _ (.tail _ (.head _))))))), by decide, by decide⟩, by decide, ?_, ⟨_, .head _, by decide⟩, by decide⟩
  have : ∀ r ∈ sysRows, r.1 = (0x001 : BitVec 12).toNat → r.2.2 = none := by decide
  intro r h e p q
  rw [this r h e] at q
  cases q

theorem wit_injection : (s0.wg (wgOf 64)).kd.flags.getLsbD 0 = true ∧ ((sW [] { w0 with kd := { kd0 with flags := 0 } }).wg (wgOf 64)).kd.flags.getLsbD 0 = false ∧ field 0x4000 14 5 < 2 ∧ 2 ≤ field 0x8000 14 5 ∧ (s0.fib 64).priv = .user ∧
    ((sP .supervisor []).fib 64).priv ≠ .user ∧ (64 = s0.cur ∧ Plain s0 ∧ s0.acts 64 (yN 0x3F0).hd &&& ~~~s0.me.helper ≠ 0 ∧ (yN 0x3F0).num.toNat = 0x3F0 ∧ s0.ssrc 64 (yN 0x3F0).a = 0) ∧
    field 1 0 4 = 1 ∧ field 2 0 4 = 2 ∧ field 3 0 4 = 3 ∧ field 4 0 4 = 4 ∧ 5 ≤ field 15 0 4 ∧ field 0 0 4 = 0 := by
  refine ⟨?_, ?_, ?_, ?_, ?_, ?_, ⟨?_, plain0, ?_⟩, ?_⟩ <;> decide

/-- A chunk waits to be moved. -/
def sMove (m : Nat) : State := withF { f0 with move := m, lo := 8 }
/-- The sector that a fill reads is poisoned. -/
def sFillBad : State := { sMove 3 with poison := [(2048, true)] }
theorem wit_InjectionAndSpill : ((sMove 1).me.eph = [] ∧ (sMove 3).chunkBad 64 0x10000 = none ∧ (sFillBad.chunkBad 64 0x10000).isSome = true ∧ CanTrap sFillBad) ∧ (s0.fib 64).move = 0 ∧ (∀ m ∈ [1, 2, 3], ((sMove m).fib 64).move ≠ 0) ∧ (∃ u, (sMove 1).moveChunk 64 1 true 0x10000 = .ok u) ∧ (∃ u, (sMove 2).moveChunk 64 8 true 0x10000 = .ok u) ∧
    (∃ u, (sMove 3).moveChunk 64 0 false 0x10000 = .ok u) ∧ CanTrap (sMove 1) ∧ 64 = (sMove 1).cur ∧ (match (sMove 1).moveChunk 64 1 true 0x200000000000000 with
      | .error e => e = .fault .protection
      | .ok _ => False) :=
  ⟨⟨rfl, by decide +kernel, by decide +kernel, ⟨by decide, rfl, rfl, rfl, rfl, by decide⟩⟩, rfl, by decide, ⟨_, rfl⟩, ⟨_, rfl⟩, ⟨_, rfl⟩, ⟨by decide, rfl, rfl, rfl, rfl, by decide⟩, rfl, rfl⟩

/-! Privileged words. -/

/-- A second grid runs; s0 names it. -/
def sHalt : State := { sP .supervisor [(0, 2)] with grids := [(gkey 0 1, g0), (gkey 0 2, g0)] }
theorem wit_PrivilegedAndModeWords : (CanTrap s0 ∧ s0.me.priv = .user) ∧ (CanTrap (sP .supervisor []) ∧ (sP .supervisor []).me.priv = .supervisor) ∧
    (Plain (sP .supervisor []) ∧ runsAt (sP .supervisor []) zy.hd .supervisor ∧ (sP .supervisor []).drains = [] ∧ ({ zy with sub := 3 } : FY).sub.toNat < 4 ∧ (sP .supervisor []).acts 64 zy.hd &&& ~~~(sP .supervisor []).me.helper ≠ 0) ∧
    -- halt: a grid that runs and is not the issuing workgroup's, and none
    ((sHalt.ssrc 64 zy.a).toNat = 2 ∧ (sHalt.grid (gkey 0 2)).st = .running ∧ (∀ e ∈ sHalt.wgs, e.1 = 1 → gkey e.2.vd e.2.grid ≠ gkey 0 2) ∧ Plain sHalt ∧ ((sP .supervisor []).ssrc 64 zy.a).toNat = 0) ∧
    -- bankmode: masks that leave too few banks in CACHE mode and enough
    (((List.range 64).filter (fun b => if (0xFFFFFFFFFFFFFFFF : W64).getLsbD b then BankMode.scratch = .cache else (s0.bank b).mode = .cache)).length < 8 ∧
      8 ≤ ((List.range 64).filter (fun b => if (1 : W64).getLsbD b then BankMode.scratch = .cache else (s0.bank b).mode = .cache)).length) ∧
    ((s0.bank 0).next = none ∧ ({ s0 with banks := [(0, { mode := .cache, next := some .fifo, fifo := [] })] } : State).bank 0 = { mode := .cache, next := some .fifo, fifo := [] }) ∧
    -- dmr
    ((s0.me.launched &&& ~~~s0.me.exited) &&& 0xFFFF ≠ 0 ∧ s0.acts 64 zy.hd ≠ 0 ∧ ({ zy with sub := 1 } : FY).sub = 1 ∧ (withF { f0 with shadow := true }).me.shadow = true) ∧
    -- scan
    (Plain (sP .device []) ∧ runsAt (sP .device []) zy.hd .device ∧ ((sP .device []).ssrc 64 zy.a).toNat = 0 ∧ 0 < s0.coreCount ∧ s0.coreCount ≤ ((sP .device [(0, 511)]).ssrc 64 zy.a).toNat ∧ ((s0.core 0).inPass = false ∧ (s0.core 0).draining = false ∧ (s0.core 0).dead = false) ∧
      (({ sP .device [] with cores := [(0, { s0.core 0 with dead := true })] } : State).core 0).dead = true) := by
  refine ⟨⟨canTrap0, rfl⟩, ⟨⟨by decide, rfl, rfl, rfl, rfl, by decide⟩, rfl⟩, ⟨⟨rfl, rfl, rfl, rfl, rfl, by decide⟩, ⟨by decide, by decide⟩, rfl, by decide, by decide⟩, ⟨by decide, by decide, by decide, ⟨rfl, rfl, rfl, rfl, rfl, by decide⟩, by decide⟩, by decide, by decide, by decide,
    ⟨⟨rfl, rfl, rfl, rfl, rfl, by decide⟩, ⟨by decide, by decide⟩, by decide, by decide, by decide, by decide, by decide⟩⟩

/-! Traps. -/

def x0 : TrapInfo := { cause := .userTrap, lane := 0, addr := 0, code := 3, pc := 4104, resume := 4112 }
def sRaised : State := withF { f0 with raised := some x0 }
/-- In the handler, entered from `e0`. -/
def sHandler (r : W64) : State := withF { f0 with trap := { Frame.empty with inh := true, entry := some e0, entryResume := 4112, resume := r } }
theorem wit_Traps : Plain s0 ∧ CanTrap s0 ∧ s0.acts s0.cur zc.hd ≠ 0 ∧ s0.me.trap.inh = false ∧ ((sRaised.fib 64).raised = some x0 ∧ (sRaised.fib 64).life = .running ∧ CanEnter sRaised 64) ∧ (s0.fib 64).raised = none ∧
    (∃ p ∈ (sPend.fib 64).pend, p.ready = false ∧ p.isCwait = false) ∧ (∀ r ∈ [4112, 4160], Plain (sHandler r) ∧ (sHandler r).acts 64 zc.hd ≠ 0 ∧ (sHandler r).me.trap.inh = true ∧ (sHandler r).me.trap.entry = some e0) := by
  refine ⟨plain0, canTrap0, acts0, rfl, ⟨rfl, rfl, by decide, fun _ h => (nomatch h), rfl, .inl rfl, rfl, by decide⟩, rfl, ⟨pd, by decide, by decide⟩, ?_⟩
  intro r hr
  rcases List.mem_cons.mp hr with rfl | h
  · exact ⟨⟨rfl, rfl, rfl, rfl, rfl, by decide⟩, by decide, rfl, rfl⟩
  · obtain rfl := List.mem_singleton.mp h
    exact ⟨⟨rfl, rfl, rfl, rfl, rfl, by decide⟩, by decide, rfl, rfl⟩

/-- The limit is 1 million ns and has passed; a page fault freezes the fibre; a copy waits for a page. -/
def sLate : State := { sX [] { v0 with watchdog := 1 } with clock := 1000000 }
def fz : Freeze := { pages := [0x8000], cause := .pageFault, lane := 0, addr := 0x8000000, write := false }
def sFrozen : State := withF { f0 with frozen := some fz }
theorem wit_WatchdogAndFaultService :
    (let s := sLate; (s.wg 1).kd.slots ≤ 16 ∧ (s.wg 1).kd.fibres ≤ 4 ∧ (s.wg 1).kd.trapvec ≠ 0 ∧ (s.wg 1).life = .running ∧ s.awake 64 = true ∧ (s.fib 64).trap.inh = false ∧ (s.vd (s.vdOf 64)).watchdog.toNat % 65536 = 1 ∧ 1000000 ≤ s.clock - (s.fib 64).wdFrom ∧ CanEnter s 64) ∧
    ((sFrozen.fib 64).frozen = some fz ∧ (∀ p ∈ fz.pages.take 1, p ∉ ([] : List Nat)) ∧ (∃ p ∈ fz.pages.take 1, p ∈ [0x8000]) ∧ CanEnter sFrozen 64 ∧ (sFrozen.fib 64).raised = none) ∧ (s0.fib 64).frozen = none ∧
    (tfind (sCmd { cmd0 with wait := some 7 }).cmds 1 = some { cmd0 with wait := some 7 } ∧ 7 ∉ ([] : List Nat)) := by
  refine ⟨⟨by decide, by decide, by decide, rfl, by decide, rfl, by decide, by decide, by decide, fun _ h => (nomatch h), rfl, .inl rfl, rfl, by decide⟩, ⟨rfl, by decide, ⟨0x8000, by decide⟩, ⟨by decide, fun _ h => (nomatch h), rfl, .inl rfl, rfl, by decide⟩, rfl⟩, rfl, by decide +kernel⟩

/-! Launching and placing. -/

/-- A launch record, a queue entry and a descriptor, and a memory that holds them at 0x10000, 0x30000 and 0x20000. -/
def recB (desc args gx threads lflags parent : Nat) : List Byte :=
  leBytes 8 desc ++ leBytes 8 args ++ leBytes 16 0 ++ leBytes 4 gx ++ leBytes 4 1 ++ leBytes 4 1 ++ leBytes 4 threads ++ leBytes 2 0 ++ leBytes 2 lflags ++ leBytes 4 parent ++ leBytes 8 0
def queueB (flags : Nat) : List Byte := List.replicate 29 0 ++ leBytes 3 flags
def descB (argsSize stack : Nat) : List Byte := leBytes 8 4096 ++ List.replicate 40 0 ++ leBytes 2 argsSize ++ leBytes 2 stack ++ [1, 1, 0, 0] ++ leBytes 2 4 ++ leBytes 2 1 ++ List.replicate 68 0
def img0 : Image := { id := 1, descs := [0x20000, 0x8000000], texts := [(4096, 4096)], spans := [], frames := [] }
def vL : Vd := { v0 with queueBase := 0x30001, images := [img0] }
def sL (r q d : List Byte) (v : Vd) : State := { sX [(0, 0x10000)] v with fibres := [(64, { f0 with priv := .supervisor, sregs := [(0, 0x10000)] })], mem := cells 0x10000 r ++ cells 0x20000 d ++ cells 0x30000 q }
def sL0 (r : List Byte) : State := sL r (queueB 1) (descB 0 64) vL

theorem recOk : RecordOk (LaunchRec.ofBytes (recB 0x20000 0 1 0 0 0)) 1 := by constructor <;> decide
theorem descOk : DescOk (KDesc.ofBytes (descB 0 64)) [(4096, 4096)] := by constructor <;> decide

/-- Every clause of the order of checks, at the edge of its rule: an address that is no multiple of 64; faults at the record, the queue entry, the descriptor and the arguments; an extent of 0 and of 2^21; a disabled queue; an unlisted descriptor; a stack of 56; 33 and 32
threads; misaligned arguments; a full and a free quota; a parent that has no reserve and one that has. -/
theorem wit_Launches :
    (let s := sL0 (recB 0x20000 0 1 0 0 0); Plain s ∧ s.drains = [] ∧ s.acts s.cur zy.hd &&& ~~~s.me.helper ≠ 0 ∧ 1 ≤ s.me.priv.code ∧ s.relBlocked 64 = false ∧ sUnseal.relBlocked 64 = true ∧ (s.ssrc 64 zy.a).toNat % 64 = 0 ∧ ((sS [(0, 8)]).ssrc 64 zy.a).toNat % 64 ≠ 0 ∧
      s.tryRead 0 0 0x8000000 64 = .error (.fault .pageFault) ∧ s.tryRead 0 0 0x10000 64 = .ok (recB 0x20000 0 1 0 0 0) ∧ vL.queueBase.toNat % 128 = 1 ∧ vL.queueBase.toNat / 2048 % 2 ^ 46 * 2048 = 0x30000 ∧
      s.tryRead 0 0 0x30000 32 = .ok (queueB 1) ∧ (QueueEnt.ofBytes (queueB 1)).enabled = true ∧ (QueueEnt.ofBytes (queueB 2)).enabled = false ∧ s.tryRead 0 0 0x20000 128 = .ok (descB 0 64)) ∧
    (RecordOk (LaunchRec.ofBytes (recB 0x20000 0 1 0 0 0)) 1 ∧ ¬ RecordOk (LaunchRec.ofBytes (recB 0x20000 0 0 0 0 0)) 1 ∧ (1 ≤ (LaunchRec.ofBytes (recB 0x20000 0 2097152 0 0 0)).gx ∧ (LaunchRec.ofBytes (recB 0x20000 0 2097152 0 0 0)).gx ≤ 2 ^ 21)) ∧
    (((0x8000001 : W64).toNat / 2048 % 2 ^ 46 * 2048 = 0x8000000) ∧ (∃ i ∈ vL.images, 0x20000 ∈ i.descs) ∧ ¬ (∃ i ∈ v0.images, 0x20000 ∈ i.descs) ∧ ∃ i ∈ vL.images, 0x8000000 ∈ i.descs) ∧
    (DescOk (KDesc.ofBytes (descB 0 64)) [(4096, 4096)] ∧ ¬ DescOk (KDesc.ofBytes (descB 0 56)) [(4096, 4096)]) ∧
    (32 * 1 * 1 < (LaunchRec.ofBytes (recB 0x20000 0 1 33 0 0)).threads ∧ (LaunchRec.ofBytes (recB 0x20000 0 1 32 0 0)).threads ≤ 32 * 1 * 1 ∧ (KDesc.ofBytes (descB 16 64)).argsSize ≠ 0 ∧ (KDesc.ofBytes (descB 0 64)).argsSize = 0 ∧
      (LaunchRec.ofBytes (recB 0x20000 4 1 0 0 0)).args % 8 ≠ 0 ∧ (LaunchRec.ofBytes (recB 0x20000 0x8000000 1 0 0 0)).args % 8 = 0 ∧ (match (sL0 []).tryRead 0 0 0x8000 16 with
        | .ok _ => true
        | .error _ => false) = true) ∧
    (vL.quotaUsed + 1 ≤ vL.cfg.gridQuota ∧ ({ vL with quotaUsed := 16 } : Vd).cfg.gridQuota < 16 + 1 ∧ (LaunchRec.ofBytes (recB 0x20000 0 1 0 1 1)).lflags = 1 ∧ (LaunchRec.ofBytes (recB 0x20000 0 1 0 1 1)).parent = 1 ∧ g0.reserve < 1 ∧
      ({ g0 with reserve := 1 } : Grid).st = .running ∧ 1 ≤ ({ g0 with reserve := 1 } : Grid).reserve ∧ (1 : Nat) ≠ vL.nextGrid) := by
  refine ⟨⟨⟨rfl, rfl, rfl, rfl, rfl, by decide⟩, rfl, by decide, by decide, by decide, by decide, by decide, by decide, by decide +kernel, by decide +kernel, by decide, by decide, by decide +kernel, by decide, by decide, by decide +kernel⟩, ⟨recOk, fun h => absurd h.gx.1 (by decide), by decide⟩, ⟨by decide, by decide, by decide, by decide⟩,
    ⟨descOk, fun h => absurd h.stack.2.1 (by decide)⟩, ⟨by decide, by decide, by decide, by decide, by decide, by decide, by decide +kernel⟩, by decide⟩

/-- A grid of two workgroups, one of which has started. -/
def sGrid : State := { s0 with grids := [(gkey 0 1, { g0 with gx := 2 })] }
/-- A copy that a built-in kernel of the runtime is to perform. -/
def sStand : State := sCmd { cmd0 with st := .placing, standIn := true }
theorem wit_GridsAndPlacement :
    (Plain (sP .supervisor [(0, 1)]) ∧ (sP .supervisor [(0, 1)]).acts 64 zy.hd &&& ~~~(sP .supervisor [(0, 1)]).me.helper ≠ 0 ∧ 1 ≤ (sP .supervisor [(0, 1)]).me.priv.code ∧ ((sP .supervisor [(0, 1)]).ssrc 64 zy.a).toNat = 1 ∧ (tfind s0.grids (gkey 0 1)).isSome = true ∧
      (s0.grids.filter (fun e => e.1 / 2 ^ 32 = 0 && 1 < e.1 % 2 ^ 32 && (e.2.st = .confirmed || e.2.st = .killed))).length < 4096 ∧ ((sP .supervisor []).ssrc 64 zy.a).toNat = 0) ∧
    (s0.bestStand 0 s0.cmds = none ∧ sStand.bestStand 0 sStand.cmds = some (1, 0, [(1, 0)]) ∧ sStand.bestGrid 0 (sStand.grids.map (·.1)) = none ∧ sGrid.bestStand 0 sGrid.cmds = none) ∧
    (s0.bestGrid 0 (s0.grids.map (·.1)) = none ∧ (∃ core slots banks, sGrid.bestGrid 0 (sGrid.grids.map (·.1)) = some (gkey 0 1, core, slots, banks)) ∧ (sGrid.grid (gkey 0 1)).kd.slots ≤ 16 ∧ (sGrid.grid (gkey 0 1)).kd.fibres ≤ 4 ∧
      64 ≤ (sGrid.grid (gkey 0 1)).kd.stack ∧ (sGrid.grid (gkey 0 1)).kd.flags.getLsbD 1 = false) ∧
    ((0 : W64) &&& 0x01FFFFFFFFFFFFFF = 0 ∧ (s0.vd 0).enabled = true ∧ (match (sL0 (recB 0x20000 0 1 0 0 0)).admitRec 0 0 (dispatcherRec 0x20000 0) true with
        | .ok p => decide (p.1 = 0)
        | .error _ => false) = true ∧
      (match s0.admitRec 0 0 (dispatcherRec 0x20000 0) true with
        | .ok p => decide (p.1 ≠ 0)
        | .error _ => false) = true) := by
  refine ⟨⟨⟨rfl, rfl, rfl, rfl, rfl, by decide⟩, by decide, by decide, by decide, by decide +kernel, by decide +kernel, by decide⟩, by decide +kernel, ⟨by decide +kernel, ⟨_, _, _, rfl⟩, by decide, by decide, by decide, by decide⟩, by decide, by decide, by decide +kernel, by decide +kernel⟩

/-! Scheduling. -/

/-- A workgroup of two slots: slot 16 active, slot 17 pending; each fibre about to read a header, or waiting for a token. -/
def eH (w : Wait) : Entry := { e0 with inside := false, wait := w }
def sTwoSlots (w : Wait) : State :=
  { s0 with fibres := [(64, { f0 with frontier := [eH w] }), (68, { f0 with frontier := [eH .none] })], wgs := [(1, { w0 with kd := { kd0 with slots := 2, flags := 0 } })],
            slots := [(16, { Slot.empty with active := true, idle := 56, residence := 2048 }), (17, Slot.empty)] }
theorem wit_SchedulingAndPriorities :
    (((sTwoSlots .none).slot 16).active = true ∧ 56 ≤ ((sTwoSlots .none).slot 16).idle ∧ ((sTwoSlots .none).issuer 16).isSome = true ∧ ¬ (56 ≤ (s0.slot 16).idle)) ∧
    (16 ∈ (sTwoSlots (.tok 1)).slotsOf 0 ∧ ((sTwoSlots (.tok 1)).slot 16).active = true ∧ (sTwoSlots (.tok 1)).slotStalled 16 = true ∧ 17 ∈ (sTwoSlots (.tok 1)).slotsOf 0 ∧ ((sTwoSlots (.tok 1)).slot 17).active = false ∧ (sTwoSlots (.tok 1)).slotStalled 17 = false ∧ tget 0 (sTwoSlots (.tok 1)).xchg 0 = 0 ∧ tget 0 ({ s0 with xchg := [(0, 4)] } : State).xchg 0 ≠ 0) ∧
    (16 ∈ (sTwoSlots .none).slotsOf 0 ∧ 2048 ≤ ((sTwoSlots .none).slot 16).residence ∧ ((sTwoSlots .none).fib 64).entry.inside = false ∧ (∀ i, i < 4 → i ≠ 0 → (sTwoSlots .none).awake (4 * 16 + i) = false) ∧ (sTwoSlots .none).slotStalled 17 = false ∧ ((sTwoSlots .none).slot 16).turn % 4 = 0) ∧
    s0.slotsOf 0 = [16] ∧ s0.slotStalled 16 = false ∧ 64 ∈ s0.fibres.map (·.1) ∧ reaches s0 8 64 64 := by
  refine ⟨by decide +kernel, by decide +kernel, by decide +kernel, by decide +kernel, by decide +kernel, by decide, .inl rfl⟩

/-- Two virtual devices share core 0; a workgroup stops there, and one is saved. -/
def sShare : State := { s0 with vds := [(0, v0), (1, v0)] }
def sStop (l : WgLife) : State := { s0 with wgs := [(1, { w0 with life := l })], slots := [(16, { Slot.empty with active := true, stopped := true })] }
theorem wit_SlicesAndSaving :
    ((s0.fib 64).move = 0 ∧ (∀ m ∈ [1, 2, 3], ((sMove m).fib 64).move ≠ 0) ∧ (s0.wg 1).kd.flags.getLsbD 2 = false ∧ ({ kd0 with flags := 4 } : KDesc).flags.getLsbD 2 = true ∧ (∃ u, (sMove 1).moveChunk 64 1 true 1024 = .ok u) ∧ ∃ u, (sMove 3).moveChunk 64 0 false 0 = .ok u) ∧
    ((s0.sharers 0).length ≤ 1 ∧ 2 ≤ (sShare.sharers 0).length ∧ sShare.sliceVd 0 = some 0 ∧ 1 < ({ v0 with cfg := { v0.cfg with weight := 2 } } : Vd).cfg.weight ∧ (sShare.vd 0).cfg.weight ≤ 1 ∧
      (s0.core 0).sliceFrom + 1000 * (sShare.vd 0).cfg.sliceUs ≤ s0.clock + 1000 * (sShare.vd 0).cfg.sliceUs ∧ s0.clock < (s0.core 0).sliceFrom + 1000 * 1 ∧ (s0.core 0).draining = false) ∧
    ((sMove 3).me.eph = [] ∧ (sMove 3).chunkBad 64 0 = none) ∧
    ((s0.wg 1).life = .running ∧ ((sStop (.stopping false)).wg 1).life = .stopping false) ∧
    (let s := sStop (.stopping true); (∃ b, (s.wg 1).life = .stopping b) ∧ (∀ i, i < (s.wg 1).kd.slots → s.halts (16 * 1 + i) = true) ∧ (s.wg 1).issued = [] ∧ s.cc = [] ∧ (∀ k ∈ (s.wg 1).fibreKeys 1, (s.fib k).pend = [])) ∧
    (let s := sStop .saved; (s.wg 1).life = .saved ∧ s.cc = [] ∧ s.l0 = [] ∧ s.isDispatcher 1 = false ∧ s.mayRun 0 0 (s.grid (gkey 0 1)).urgent = true ∧ (∃ slots banks, s.fits 0 (s.wg 1).kd = some (slots, banks)) ∧ s.mayRun 0 5 false = false) := by
  refine ⟨⟨rfl, by decide, by decide, by decide, ⟨_, rfl⟩, ⟨_, rfl⟩⟩, by decide +kernel, ⟨rfl, by decide +kernel⟩, by decide, ⟨⟨true, rfl⟩, by decide, rfl, rfl, by decide +kernel⟩, ⟨rfl, rfl, rfl, by decide +kernel, by decide +kernel, ⟨_, _, rfl⟩, by decide +kernel⟩⟩

/-! Energy, passes, containment. -/

theorem wit_Energy : (∃ t, exec (.energyMeterInterval [{ island := 0, nj := 5, slots := [(1, 1)], moved := [] }]) s0 = .next t) ∧ (59 < 60 ∧ 59 % 20 ≥ 12) ∧ [0, 1].Nodup ∧ (3600000 < 3600001 ∧ 3419999 < 3420000) ∧ (∀ e ∈ s0.vds, e.2.hostEnergy = false) ∧ (¬ fusedOff s0 0 ∧ fusedOff { s0 with feature := 2 } 0) ∧ (s0.clock / 1000000 ≤ s0.windowFrom / 1000000 ∧ sLate.windowFrom / 1000000 < sLate.clock / 1000000) ∧
    (0 ∈ s0.vds.map (·.1) ∧ (s0.vd 0).enabled = true ∧ 3 ∈ (({ v0 with energy := [(3, QEnergy.empty)] } : Vd).energy.map (·.1)) ∧ (s0.vds.filter (fun e => e.1 = 0)).length = 1) :=
  ⟨⟨_, rfl⟩, by decide, by decide, by decide, by decide, by simp only [fusedOff]; decide, by decide⟩

/-- Core 0 in a pass that ends, and in one that it is to fail; a grid that is PROVISIONAL since its one workgroup ended there. -/
def gP (fl : BitVec 16) : Grid := { g0 with st := .provisional, kd := { kd0 with flags := fl }, cores := [(0, 1, 2)], since := [(0, 0)] }
def sPass (fl : BitVec 16) : State := { s0 with cores := [(0, { s0.core 0 with inPass := true, waiter := some (1, 0) })], wgs := [], grids := [(gkey 0 1, gP fl)] }
theorem wit_ScansAndContainment :
    ((s0.vd 0).funcMode.getLsbD 4 = false ∧ ((sX [] { v0 with funcMode := 16 }).vd 0).funcMode.getLsbD 4 = true) ∧ scannable s0 0 ∧ (s0.core 0).fenced = false ∧ 9 * s0.rotation + 0 = 0 ∧
    (let s : State := { sX [] { v0 with funcMode := 16 } with clock := 10000000 }; scannable s 0 ∧ (s.core 0).fenced = false ∧ 10000000 ≤ s.clock - (s.core 0).lastScan) ∧ ¬ scannable s0 511 ∧
    (let s := sPass 0; (s.core 0).inPass = true ∧ (s.core 0).waiter = some (1, 0) ∧ s.scanResults.length < 64 ∧ gkey 0 1 ∈ s.grids.map (·.1) ∧ (s.grid (gkey 0 1)).st = .provisional ∧ (s.grid (gkey 0 1)).disp = false ∧ s.busy (gkey 0 1) = false ∧ (s.grid (gkey 0 1)).confAdded = false ∧
      (s.grid (gkey 0 1)).replay = [] ∧ (∀ x ∈ (s.grid (gkey 0 1)).cores, x.1 = 0 ∧ x.2.2 = 2) ∧ (0, 0) ∈ (s.grid (gkey 0 1)).since ∧ (s.grid (gkey 0 1)).kd.flags.getLsbD 4 = false) ∧
    ((gP 16).kd.flags.getLsbD 4 = true ∧ ∃ x ∈ ({ gP 0 with cores := [(1, 1, 2)] } : Grid).cores, x.1 ≠ 0 ∨ x.2.2 ≠ 2) ∧
    (Agent.core 0 ∈ ({ s0 with dead := [.core 0] } : State).dead ∧ Agent.core 0 ∉ s0.dead ∧ 0 ∈ s0.vds.map (·.1) ∧ (∃ e ∈ s0.wgs, e.2.vd = 0 ∧ s0.onCore e.1 = true ∧ s0.coreIn (.core 0) e.2.core = true) ∧ (∃ e ∈ [(1, cmd0)], e.2.vd = 0 ∧ s0.cmdNeeds (.cluster 0) e.2 = true)) := by
  refine ⟨by decide, ⟨by decide, by decide⟩, by decide, by decide, ⟨⟨by decide, by decide⟩, by decide, by decide⟩, fun h => absurd h.1 (by decide), by decide +kernel, by decide +kernel, by decide, by decide, by decide, by decide +kernel, by decide +kernel⟩

/-! Main memory. -/

def sDam (d : Damask) : State := { s0 with damask := d }
def d0 : Damask := s0.damask
/-- Province 0 in another entry. -/
def dP (e : Prov) : Damask := { d0 with provinces := [(0, e)] }
def p0 : Prov := d0.prov 0
def ret0 (phase next : Nat) : Retire := { phase := phase, next := next, stack := 0, whole := false, planned := false, todo := [0], all := [0] }

theorem struck0 (u : LostUnit) (x : Nat) (hs : lostStack u = 0) (hx : x < 1024) (hn : namesUnit u 0 x) (hm : (d0.chanMask (d0.setEnt 0).maskset 0 (x / 32)).testBit (x % 32) = true) : struckBy d0 u 0 := by
  refine ⟨by decide, ?_, ?_, .inr ⟨x, hx, ?_, ?_, ?_⟩⟩ <;> rw [hs]
  · decide
  · decide
  · exact hn
  · exact hm
  · rfl

/-- Province 0 may move to its spare frame: no other province has live slots before firmware is up. -/
def dU : Damask := { d0 with ready := false, provinces := [(0, { p0 with newFrame := p0.spare })] }
theorem dU_live (q : Nat) : dU.liveSlots q = [] := by
  have h : dU.prov q = { p0 with newFrame := p0.spare } ∨ dU.prov q = Prov.empty false q := by
    by_cases h : q = 0
    · subst h; exact .inl rfl
    · right; simp [dU, Damask.prov, tget, tfind, Ne.symm h]
  have m : (dU.setEnt 0).members = [] := by decide
  rcases h with h | h <;> unfold Damask.liveSlots <;> rw [h]
  · rfl
  · simp [Prov.empty, m]
theorem dU_room : dU.roomOk 0 = true := by
  unfold Damask.roomOk
  simp only [dU_live, List.all_nil, List.all_eq_true.2 (fun _ _ => rfl)]
  decide

def l2d : L2Line := { vd := 0, dirty := true, pf := none, flight := false, use := 0 }
/-- The set that a province moves to holds a stack that is lost. -/
def dHurt : Damask := { dP { p0 with st := .restriping, locked := true, wm := 4194303 } with failStack := [(0, true)] }
theorem wit_LossAndMoves :
    (unitExists (.bank 0 0) ∧ d0.stackFailed 0 = false ∧ d0.retire = none ∧ (0 < 2560 ∧ struckBy d0 (.bank 0 0) 0)) ∧ (unitExists (.tsvGroup 11 31 1 9) ∧ d0.stackFailed 11 = false ∧ ∀ p, p < 2560 → ¬ struckBy d0 (.tsvGroup 11 31 1 9) p) ∧ { d0 with retire := some (ret0 1 3) }.retire ≠ none ∧
    (({ d0 with failStack := [(3, true)] } : Damask).stackFailed (lostStack (.stack 3)) = true ∧ 12 ≤ lostStack (.stack 12)) ∧ tget false d0.flushing 0 = false ∧
    (tget false ({ d0 with flushing := [(0, true)] } : Damask).flushing 0 = true ∧ (({ d0 with flushing := [(0, true)] } : Damask).home (64 * 0)).par.stack = 0 ∧ tfind ([(0, l2d)] : Tab L2Line) 0 = some l2d) ∧
    ((dP { p0 with st := .restriping }).prov 0 = { p0 with st := .restriping } ∧ (dP { p0 with st := .restriping, locked := true }).prov 0 = { p0 with st := .restriping, locked := true } ∧
      (dP { p0 with st := .restriping, locked := true, wm := 4194303 }).prov 0 = { p0 with st := .restriping, locked := true, wm := 4194303 } ∧ 4194303 + 1 = 2 ^ 22 ∧ (dP { p0 with st := .rebuilding, locked := true }).prov 0 = { p0 with st := .rebuilding, locked := true } ∧
      p0.st = .normal) ∧
    ((∃ x ∈ (dHurt.setEnt (dHurt.prov 0).newSet).members, dHurt.stackFailed x = true) ∧ (∀ x ∈ (d0.setEnt p0.newSet).members, d0.stackFailed x = false) ∧ d0.failUnit = []) ∧
    ({ d0 with retire := some (ret0 4 1) }.retire = some (ret0 4 1) ∧ (∀ p ∈ (ret0 2 3).todo, d0.working (ret0 2 3) p = false) ∧ (ret0 2 3).todo ≠ [] ∧ (ret0 2 3).todo.Nodup ∧ (ret0 5 3).phase = 5 ∧ (ret0 3 3).todo.head? = some 0 ∧ (∀ p ∈ (ret0 3 3).todo, d0.working (ret0 3 3) p = false)) ∧
    ((dP { p0 with newFrame := 1073807360 }).roomOk 0 = false ∧ dU.roomOk 0 = true) := by
  refine ⟨⟨⟨by decide, by decide⟩, by decide, rfl, by decide, struck0 _ 0 rfl (by decide) ⟨rfl, rfl⟩ (by decide +kernel)⟩, ⟨⟨by decide, by decide, by decide, by decide⟩, by decide, ?_⟩, by decide, by decide, by decide, by decide +kernel, by decide +kernel, by decide +kernel, by decide, ⟨by decide +kernel, dU_room⟩⟩
  rintro p _ ⟨_, _, _, ⟨k, h⟩ | ⟨x, _, h, _⟩⟩
  · cases h
  · exact h

theorem notStruck {d : Damask} {u : LostUnit} (h : d.stackFailed (lostStack u) = true) : ∀ p, p < 2560 → ¬ struckBy d u p := by
  rintro p _ ⟨_, _, f, _⟩
  rw [h] at f
  cases f

/-- MEM_RETIRE words: KIND 0 to 3 of stack 0, PLANNED or not; a province that is owned, free, retired, and past the last; phases that wait and that do not. -/
theorem wit_memoryRetirement :
    (d0.retire = none ∧ struckBy d0 (retireNames 0 0) 0 ∧ struckBy d0 (retireNames 1 1) 0 ∧ struckBy d0 (retireNames 2 2) 0 ∧ struckBy d0 (retireNames 3 3) 0 ∧ (0 : W64).getLsbD 3 = false ∧ (8 : W64).getLsbD 3 = true ∧ struckBy d0 (retireNames 0 8) 0) ∧
    ((s0.vd 0).funcMode.getLsbD 2 = false ∧ ((sX [] { v0 with funcMode := 4 }).vd 0).funcMode.getLsbD 2 = true) ∧ (∀ p, p < 2560 → ¬ struckBy { d0 with failStack := [(0, true)] } (retireNames 0 0) p) ∧ { d0 with retire := some (ret0 2 3) }.retire ≠ none ∧
    (2560 ≤ field 0x3FFC0000 18 12 ∧ field 0 18 12 = 0 ∧ (d0.prov 0).owner ≠ none ∧ (dP { p0 with owner := none }).prov 0 = { p0 with owner := none } ∧ (dP { p0 with owner := none, st := .retired }).prov 0 = { p0 with owner := none, st := .retired } ∧ p0.st ≠ .retired) ∧
    ((ret0 2 3).phase ≠ 4 ∧ (ret0 2 3).phase ≠ 5 ∧ (ret0 4 1).phase = 4 ∧ (ret0 5 3).phase = 5) := by
  refine ⟨⟨rfl, struck0 _ 0 rfl (by decide) ⟨rfl, rfl⟩ (by decide +kernel), struck0 _ 0 rfl (by decide) ⟨rfl, rfl⟩ (by decide +kernel), struck0 _ 0 rfl (by decide) ⟨rfl, rfl⟩ (by decide +kernel), struck0 _ 0 rfl (by decide) rfl (by decide +kernel), by decide, by decide,
    struck0 _ 0 rfl (by decide) ⟨rfl, rfl⟩ (by decide +kernel)⟩, by decide, notStruck (by decide), by decide, by decide +kernel, by decide⟩

/-- The patrol within and outside its range, at its last line, over a line of one wrong bit; row repairs busy, of a row that does not exist, of a bank with no repair row left and with one; one that ends. -/
theorem wit_RetirementAndRepair :
    (d0.scrubCtl.getLsbD 16 = true ∧ ¬ 2560 * 2 ^ 22 < 2560 * 2 ^ 22 ∧ tget 0 d0.err 0 = 0 ∧ 2560 * 2 ^ 22 - 1 + 1 = 2560 * 2 ^ 22 ∧ ((s0.vd 0).funcMode.getLsbD 6 = false)) ∧
    (let d := { d0 with err := [(0, 1)] }; (d.prov 0).locked = false ∧ tget 0 d.err 0 ≠ 0 ∧ d.lost (d.home (64 * 0)).at_ = false ∧ readLine (d.tsvOf (d.home (64 * 0)).at_) (tget 0 d.err 0) = .ok (some 2) false false) ∧
    (let h := d0.home (64 * 0); h.k = 0 ∧ tget 0 ({ s0 with parErr := [(parKey h, 1)] } : State).parErr (parKey h) ≠ 0 ∧ d0.lost h.par = false ∧ readLine (d0.tsvOf h.par) 1 = .ok (some 2) false false) ∧
    (field 0x100000000 32 3 = 1 ∧ field d0.rowRepair 32 3 ≠ 1 ∧ 12 ≤ field 12 0 4 ∧ 65540 ≤ field 0x40010000 14 17 ∧ tget 2 ({ d0 with repairs := [(0, 0)] } : Damask).repairs 0 = 0 ∧ tget 2 d0.repairs 0 ≠ 0) ∧
    (d0.repairMap = [] ∧ ([(5, 1000001)] : Tab Nat).find? (fun e => 1000000 ≤ e.2) = some (5, 1000001) ∧ d0.err = [] ∧ s0.parErr = [] ∧ d0.repairing ≠ some 5 ∧ ({ d0 with repairing := some 5 } : Damask).repairing = some 5) := by
  refine ⟨⟨by decide, by decide +kernel, rfl, by decide +kernel, by decide⟩, by decide +kernel, by decide +kernel, by decide +kernel, by decide +kernel⟩

/-! The world outside. -/

/-- A firmware image has been accepted; virtual device 0 has no function, or port 0 belongs to its partition. -/
def sNet (v : Vd) (p : Port) : State := { s0 with firmware := some [], vds := [(0, v)], ports := [(0, p)] }
def port0 : Port := { Port.empty with lanes := 3, part := some 0 }
def pk (q : BitVec 12) (b : PktBody) : Packet := { seq := q, part := 0, crc := true, ack := 0, body := b }
theorem wit_OutsideAccesses :
    (v0.enabled = true ∧ ({ v0 with enabled := false } : Vd).enabled = false ∧ (0xFF8 < 0x1000 ∧ 0x1000 ≤ 0x1000) ∧ tget 0 ({ v0 with slots := [(0, 8)] } : Vd).slots (8 / 16) = 8 ∧ s0.ctrAt 0 0 8 = some [{ len := 8, locs := [.dev 8 0 false] }] ∧ s0.ctrAt 0 0 9 = none ∧
      (2 ^ 36 ≤ (0x1000000000 : W64).toNat ∧ (0xFFFFFFFFF : W64).toNat < 2 ^ 36) ∧ Calm s0 ∧ NoOldCopies s0 ∧ v0.fbDone = v0.fbPosted) ∧
    (s0.firmware = none ∧ (sNet { v0 with enabled := false } port0).firmware ≠ none ∧ 63 < 64 ∧ (∀ e ∈ (sNet { v0 with enabled := false } port0).vds, e.2.enabled = true → e.2.cfg.partition ≠ 5) ∧ (∃ e ∈ (sNet v0 port0).vds, e.2.enabled = true ∧ e.2.cfg.partition = 0) ∧
      (∀ e ∈ (sNet { v0 with enabled := false } port0).vds, e.2.enabled = false) ∧ ∃ e ∈ (sNet v0 port0).vds, e.2.enabled = true ∧ e.2.cfg.partition ≠ 5 ∧ ∃ p ∈ [0], (tget Port.empty (sNet v0 port0).ports p).part = some e.2.cfg.partition) ∧
    (ctxPieces s0 0 0 .wr 0 3 = .ok [{ len := 3, locs := [.dev 0 0 false] }] ∧ ctxPieces s0 0 0 .wr 0x8000000 3 = .error (.fault .pageFault) ∧ (match s0.tryRead 0 0 0 8 with
        | .ok _ => true
        | .error _ => false) = true ∧ s0.tryRead 0 0 0x8000000 8 = .error (.fault .pageFault) ∧ 15 < 16 ∧ s0.ctrAt 0 0 (BitVec.ofNat 64 8) ≠ none) ∧
    (let x := tget Port.empty (sNet v0 port0).ports 0; x.lanes ≠ 0 ∧ (pk 0 (.store 0 0 [1])).crc = true ∧ x.part = some (pk 0 (.store 0 0 [1])).part ∧ (pk 0 (.store 0 0 [1])).seq = x.rx ∧ (pk 1 (.add 0 8 1)).seq ≠ x.rx ∧ x.part ≠ some ({ pk 0 (.store 0 0 [1]) with part := 1 } : Packet).part) ∧
    (0 < field s0.feature 17 7 ∧ s0.pktWaits (.store 0 0 [1]) = false ∧ sMig.pktWaits (.store 0 0x8000000 [1]) = true ∧ s0.ctrWaits 0 0 8 = false ∧ sMig.ctrWaits 0 0 0x8000000 = true ∧ s0.cmds = []) ∧
    (let es : List Nat := [0, 1].filter (fun t => 5 < t + 1000000) ++ [5]; 3 ≤ es.length) := by
  refine ⟨⟨by decide, by decide, by decide, by decide, by decide +kernel, by decide +kernel, by decide, calm0, clean0.2, by decide⟩, by decide, by decide +kernel, by decide, by decide +kernel, by decide⟩

/-- The least image (R35 to R40): a symbol table with its null symbol and a string table, and, if asked, eight bytes of DATA. -/
def lof (data : Bool) : List Byte :=
  let n := if data then 4 else 3
  let sect (ty fl off size al : Nat) : List Byte := leBytes 4 0 ++ leBytes 2 ty ++ leBytes 2 fl ++ leBytes 8 0 ++ leBytes 8 off ++ leBytes 8 size ++ leBytes 4 0 ++ leBytes 2 al ++ leBytes 2 0
  let base := 64 + 40 * n
  leBytes 4 0x1A464F4C ++ leBytes 4 1 ++ leBytes 2 64 ++ leBytes 2 40 ++ leBytes 2 n ++ leBytes 2 2 ++ leBytes 4 1 ++ leBytes 2 0x4C5A ++ leBytes 2 0 ++ leBytes 8 64 ++ leBytes 8 0 ++ leBytes 8 (base + 25 + if data then 15 else 0) ++ leBytes 16 0
    ++ List.replicate 40 0 ++ sect 9 0 base 24 3 ++ sect 11 0 (base + 24) 1 0 ++ (if data then sect 4 3 (base + 32) 8 3 else []) ++ List.replicate 25 0 ++ (if data then List.replicate 15 0 else [])

/-- An unsigned image that a function takes, one whose DATA has no place, and one that is no image; an image with and without a grid of its kernel. That firmware is accepted rests on a signature, whose check is open (log entry 8): its clause has a witness only for what is refused. -/
theorem wit_BootAndImages :
    (checkImage true (fusedKeys s0) true (field s0.feature 4 4) [] ≠ 0 ∧ s0.cc = [] ∧ s0.l0 = [] ∧ s0.ucopies = [] ∧ s0.drains = []) ∧ (checkImage false v0.keys v0.cfg.signed (field s0.feature 4 4) (lof false) = 0 ∧ (s0.loadImage 0 (lof false) []).isOk = true ∧ v0.enabled = true) ∧
    (checkImage false v0.keys v0.cfg.signed (field s0.feature 4 4) (lof true) = 0 ∧ (s0.loadImage 0 (lof true) []).isOk = false) ∧ checkImage false v0.keys v0.cfg.signed (field s0.feature 4 4) [] ≠ 0 ∧
    ((∀ x ∈ v0.images, x.id ≠ 1) ∧ vL.images.find? (fun x => x.id = 1) = some img0 ∧ (∀ e ∈ s0.grids, e.2.desc ∉ img0.descs) ∧ ∃ e ∈ [(gkey 0 1, { g0 with desc := 0x20000 })], e.1 / 2 ^ 32 = 0 ∧ e.2.st = .running ∧ e.2.desc ∈ img0.descs) := by
  refine ⟨by decide +kernel, by decide +kernel, by decide +kernel, by decide +kernel, by decide +kernel⟩

/-! The whole machine. -/

/-- A fibre about to run a word of an executable page at 4096, which holds the word at its second place. -/
def sRun (w : W64) (ins : Bool) : State :=
  { withF { f0 with frontier := [{ e0 with inside := ins }] } with
      vds := [(0, { v0 with heapLimit := 0 })], mem := cells 4104 (leBytes 8 w.toNat)
      tlb := [{ level := 0, holder := 0, vd := 0, va := 4096, size := 4096, pa := 4096, w := false, x := true, attr := 0, repl := [] }] }
theorem wit_StepRunsDecodedWord :
    (∀ w ∈ [(0x013801020C071000 : W64), 0x0138000000000000], let s := sRun w true; s.agenda = [] ∧ s.pick = some (0, 16, 64) ∧ (let u := s.chosen 0 16 64; (u.fib 64).entry.inside = true ∧ (∃ v, u.readyFrame 64 = .done v ∧ v.cur = 64 ∧ v.fetch 64 (v.fib 64).entry.pc = .ok w ∧
      (w = 0x013801020C071000 → ∃ i, decode (v.decCtx 64) (v.fib 64).entry.cls w = .ok i) ∧ (w = 0x0138000000000000 → decode (v.decCtx 64) (v.fib 64).entry.cls w = .error .illegalEncoding)))) ∧
    (let s := sRun 0 false; s.agenda = [] ∧ s.pick = some (0, 16, 64) ∧ ((s.chosen 0 16 64).fib 64).entry.inside = false ∧ ∃ w, (s.chosen 0 16 64).fetch 64 ((s.chosen 0 16 64).fib 64).entry.pc = .ok w) := by
  refine ⟨?_, rfl, by decide +kernel, by decide +kernel, ⟨0, by decide +kernel⟩⟩
  intro w hw
  rcases List.mem_cons.mp hw with rfl | h
  · exact ⟨rfl, by decide +kernel, by decide +kernel, ⟨_, rfl, by decide +kernel, by decide +kernel, fun _ => ⟨.vadd { z3 with d := 4, a := 2, b := 3, ty := 14, mode := 1 }, by decide +kernel⟩, fun h => absurd h (by decide)⟩⟩
  · obtain rfl := List.mem_singleton.mp h
    exact ⟨rfl, by decide +kernel, by decide +kernel, ⟨_, rfl, by decide +kernel, by decide +kernel, fun h => absurd h (by decide), fun _ => by decide +kernel⟩⟩
/-- A word of every field at a value of its own: d 14, a 1, b 2, ty 14. -/
def vEnc : Instr := .vadd { o3 14 1 with c := 0 }
theorem wit_DecodeInvertsEncode : (encode vEnc).isSome = true ∧ Instr.wellFormed cD vEnc = true := by decide
def iNever : Instr := .smin { o3s 5 0 with hd := hdN }
theorem wit_GuardFalseWordIsPassed : (encode iNever).isSome = true ∧ Plain s0 ∧ s0.guard s0.cur true 7 = 0 ∧ s0.me.priv = .user ∧ (∀ f, iNever ≠ .exit f) ∧ (∀ f, iNever ≠ .ret f) ∧ (∀ f, iNever ≠ .cset f) :=
  ⟨by decide, plain0, by decide, rfl, nofun, nofun, nofun⟩
/-- A machine whose memory is in canonical form takes a step. -/
theorem wit_StepKeepsMemoryCanonical : MemOk (sRun 0x013801020C071000 true) ∧ (match step (sRun 0x013801020C071000 true) with | .next _ => true | _ => false) = true := ⟨by unfold MemOk; decide +kernel, by decide +kernel⟩

/-- R457: of fifteen packets of 18 flits, fourteen are kept for replay and one waits; an acknowledgement of the first lets it go out. -/
theorem test_replay_store_holds_256_flits :
    (let x := Port.empty.flush ((List.range 15).map (fun _ => (0, PktBody.store 0 0 (List.replicate 256 0))))
     x.replay.length = 14 ∧ x.queue.length = 1 ∧ (x.acknowledge 0).replay.length = 14 ∧ (x.acknowledge 0).queue = []) := by decide +kernel

/-! Page tables: a page at 0x10000 that is the node of levels 4, 3 and 2 (its entry 0 names itself) and of level 1, whose entry 1 names the table of 512 pages behind it: 32 groups of 64 KiB in the frame at 4 MiB, in motion or not. -/

/-- An entry of the table of pages: valid, a leaf, W, CONTIG, and MIG where the pages are in motion. -/
def leafE (m : Bool) : W64 := if m then 0x400147 else 0x400047
def pteWord (m : Bool) (q : Nat) : W64 :=
  if q = 0 then 0x10001 else if q = 1 then 0x11001 else if q < 512 then 0 else leafE m + BitVec.ofNat 64 (4096 * (q - 512))
def pteByte (m : Bool) (n : Nat) : Byte := (pteWord m (n / 8)).extractLsb' (8 * (n % 8)) 8
def tables (m : Bool) : Tab Byte := cells 0x10000 ((List.range 8192).map (pteByte m))
def sPtM (m : Tab Byte) : State := { s0 with mem := m, vds := [(0, { v0 with heapLimit := 0, ptRoot := 0x10000, promote := 1 })] }
theorem sPtM_mem (m : Tab Byte) : (sPtM m).mem = m := rfl
def sPt (m : Bool) : State := sPtM (tables m)

theorem tables_ok (m : Bool) : MemOk (sPt m) := by
  have := twf_writeTab [] 0x10000 ((List.range 8192).map (pteByte m)) rfl
  simpa [MemOk, Memory.wf, writeTab, sPt, sPtM_mem, tables] using this

theorem tables_get (m : Bool) (n : Nat) (h : n < 8192) : tget memDefault (tables m) (0x10000 + n) = pteByte m n := by
  have := tget_writeTab [] 0x10000 ((List.range 8192).map (pteByte m)) n (by simpa using h)
  simpa [writeTab, tables] using this

theorem bytes_word (w : W64) : w64OfBytes ((List.range 8).map (fun i => w.extractLsb' (8 * i) 8)) = w := by
  have : List.range 8 = [0, 1, 2, 3, 4, 5, 6, 7] := rfl
  apply BitVec.eq_of_toNat_eq
  have := w.isLt
  simp [w64OfBytes, leNat, Nat.shiftRight_eq_div_pow, ‹List.range 8 = _›]
  omega

theorem node_eq (m : Bool) (q : Nat) (h : q < 1024) : (sPt m).nodeEntry 0 (0x10000 + 8 * q) = pteWord m q := by
  have : (sPt m).readMem (0x10000 + 8 * q) 8 = (List.range 8).map (fun i => (pteWord m q).extractLsb' (8 * i) 8) := by
    rw [State.readMem, sPt, sPtM_mem, readTab_eq]
    refine List.map_congr_left (fun i hi => ?_)
    have hi := List.mem_range.1 hi
    rw [Nat.add_assoc, tables_get m (8 * q + i) (by omega), pteByte, show (8 * q + i) / 8 = q by omega, show (8 * q + i) % 8 = i by omega]
  have c (l : Nat) : (sPt m).combine l = sPt m := rfl
  rw [State.nodeEntry, if_pos rfl, c, this, bytes_word]

theorem contig_ok (m : Bool) (va : Nat) : (sPt m).contigOk 0 0x11000 va = true := by
  have hb : 0x11000 + va / 65536 * 16 % 512 * 8 = 0x10000 + 8 * (512 + 16 * (va / 65536 % 32)) := by omega
  have hg : va / 65536 % 32 < 32 := Nat.mod_lt _ (by decide)
  generalize hx : va / 65536 % 32 = g at hb hg
  unfold State.contigOk
  simp only [hb, Bool.and_eq_true, decide_eq_true_eq, List.all_eq_true, List.mem_range]
  have h0 := node_eq m (512 + 16 * g) (by omega)
  have all : ∀ m g, g < 32 → pteAddr (pteWord m (512 + 16 * g)) % 65536 = 0 ∧ ∀ i, i < 16 → pteWord m (512 + 16 * g + i) = pteWord m (512 + 16 * g) + BitVec.ofNat 64 (4096 * i) := by decide +kernel
  rw [h0]
  refine ⟨(all m g hg).1, fun i hi => ?_⟩
  rw [show 0x10000 + 8 * (512 + 16 * g) + 8 * i = 0x10000 + 8 * (512 + 16 * g + i) by omega, node_eq m _ (by omega)]
  exact (all m g hg).2 i hi

theorem joins (m g : Bool) : (sPt m).joinable 0x11000 g = if m = g then some (leafE m, (List.range 32).map (fun i => 0x400000 + 65536 * i)) else none := by
  have he : (List.range 32).map (fun i => (sPt m).nodeEntry 0 (0x11000 + 128 * i)) = (List.range 32).map (fun i => pteWord m (512 + 16 * i)) :=
    List.map_congr_left (fun i hi => by
      have := List.mem_range.1 hi
      rw [show 0x11000 + 128 * i = 0x10000 + 8 * (512 + 16 * i) by omega, node_eq m _ (by omega)])
  unfold State.joinable
  simp only [he, contig_ok, List.all_eq_true.2 (fun _ _ => rfl)]
  revert m g
  decide +kernel

theorem sPt_root (m : Bool) : ((sPt m).vd 0).ptRoot = 0x10000 := rfl
theorem node0 (m : Bool) : (sPt m).nodeEntry 0 0x10000 = 0x10001 := node_eq m 0 (by decide)
theorem node1 (m : Bool) : (sPt m).nodeEntry 0 0x10008 = 0x11001 := node_eq m 1 (by decide)
theorem node2 (m : Bool) : (sPt m).nodeEntry 0 0x10010 = 0 := node_eq m 2 (by decide)
theorem node512 (m : Bool) : (sPt m).nodeEntry 0 0x11000 = leafE m := by
  have h := node_eq m 512 (by decide)
  cases m <;> exact h

theorem level1 (m : Bool) : (sPt m).level1At 0 0x200000 = some 0x10008 := by
  unfold State.level1At
  rw [sPt_root]
  have a : (0x10000 : W64).toNat + 0x200000 / 2 ^ (12 + 9 * 4) % 512 * 8 = 0x10000 := by decide
  have b : 0x10000 + 0x200000 / 2 ^ (12 + 9 * 3) % 512 * 8 = 0x10000 := by decide
  have c : 0x10000 + 0x200000 / 2 ^ (12 + 9 * 2) % 512 * 8 = 0x10000 := by decide
  have p : pteAddr 0x10001 = 0x10000 := by decide
  have t : (BitVec.getLsbD (0x10001 : W64) 0 && !BitVec.getLsbD (0x10001 : W64) 1 && !BitVec.getLsbD (0x10001 : W64) 7 && !BitVec.getLsbD (0x10001 : W64) 8 &&
    decide ((BitVec.extractLsb' 57 6 (0x10001 : W64)).toNat = 0)) = true := by decide
  simp only [a, node0, p, t, if_true, b, c] <;> rfl

/-- A walk through an entry that names a node, at an entry that is not valid, and at a group of 64 KiB. -/
theorem walk_node (s : State) (va l node : Nat) (e : W64) (he : e = 0x10001 ∨ e = 0x11001) (h : s.nodeEntry 0 (node + va / 2 ^ (12 + 9 * (l + 1)) % 512 * 8) = e) :
    s.walkFrom 0 va (l + 2) 0 node = s.walkFrom 0 va (l + 1) 0 (pteAddr e) := by
  rw [State.walkFrom_succ, h]
  rcases he with rfl | rfl <;> simp
theorem walk_none (s : State) (va l node : Nat) (h : s.nodeEntry 0 (node + va / 2 ^ (12 + 9 * l) % 512 * 8) = 0) : s.walkFrom 0 va (l + 1) 0 node = .error (.fault .pageFault) := by
  rw [State.walkFrom_succ, h]
  simp
theorem walk_leaf (s : State) (va node : Nat) (h : s.nodeEntry 0 (node + va / 2 ^ (12 + 9 * 0) % 512 * 8) = 0x400047) (hc : s.contigOk 0 node va = true) (ho : s.frameOwned 0 0x400000 65536 = true) :
    s.walkFrom 0 va 1 0 node = .ok { va := va / 65536 * 65536, size := 65536, pa := 0x400000, w := true, x := false, attr := 0, repl := [] } := by
  rw [State.walkFrom_succ, h, hc]
  simp [pteAddr, pageSize, ho]

theorem walk_table (va : Nat) (h : va < 2 ^ 30) : (sPt false).walk 0 0 va = (sPt false).walkFrom 0 va 2 0 0x10000 := by
  have z (l : Nat) (hl : 2 ≤ l) : va / 2 ^ (12 + 9 * l) % 512 * 8 = 0 := by
    have : va / 2 ^ (12 + 9 * l) = 0 := Nat.div_eq_of_lt (Nat.lt_of_lt_of_le h (Nat.pow_le_pow_right (by decide) (by omega)))
    rw [this]
  have r : (sPt false).walkStart 0 0 va = (5, 0, 0x10000) := rfl
  have s (l : Nat) (hl : 2 ≤ l) : (sPt false).walkFrom 0 va (l + 1) 0 0x10000 = (sPt false).walkFrom 0 va l 0 0x10000 := by
    obtain ⟨k, rfl⟩ : ∃ k, l = k + 1 := ⟨l - 1, by omega⟩
    have h := walk_node (sPt false) va k 0x10000 0x10001 (.inl rfl) (by rw [z (k + 1) hl]; exact node0 _)
    rwa [show pteAddr 0x10001 = 0x10000 by decide] at h
  unfold State.walk
  rw [r]
  show (sPt false).walkFrom 0 va 5 0 0x10000 = _
  rw [s 4 (by decide), s 3 (by decide), s 2 (by decide)]

theorem walk_ok : ∃ x, (sPt false).walk 0 0 0x200000 = .ok x ∧ x.va ≤ 0x200000 ∧ 0x200000 < x.va + x.size ∧ x.pa = 0x400000 := by
  refine ⟨{ va := 0x200000, size := 65536, pa := 0x400000, w := true, x := false, attr := 0, repl := [] }, ?_, by decide, by decide, rfl⟩
  rw [walk_table _ (by decide), walk_node _ 0x200000 0 0x10000 0x11001 (.inr rfl) (by exact node1 _)]
  exact walk_leaf _ 0x200000 0x11000 (by exact node512 _) (contig_ok _ _) rfl

theorem walk_error : (sPt false).walk 0 0 0x400000 = .error (.fault .pageFault) := by
  rw [walk_table _ (by decide)]
  exact walk_none _ 0x400000 1 0x10000 (by exact node2 _)

theorem sPt_quiet (m : Bool) : (sPt m).ucopies = [] ∧ (sPt m).drains = [] ∧ (sPt m).cc = [] ∧ (sPt m).l0 = [] ∧ (sPt m).damask.err = [] ∧ (sPt m).poison = [] ∧ (sPt m).tlb = [] ∧ (sPt m).walks = [] := ⟨rfl, rfl, rfl, rfl, rfl, rfl, rfl, rfl⟩

theorem promotes (m : Bool) : Promotes (sPt m) 0 0x200000 0x600000 0x10008 where
  on := by cases m <;> decide
  range := by decide
  aligned := by decide
  owned := rfl
  at_ := level1 m
  node := by rw [node1]; decide

/-- A walk that finds a page of 64 KiB and one that faults; a table of 512 pages, not in motion and in motion, that join into the frame at 6 MiB. -/
theorem wit_WalksAndPromotions :
    (0x400000 < 2 ^ 57 ∧ 0 < (sPt false).coreCount ∧ (sPt false).inHeap 0 0x200000 = false ∧ (sPt false).inHeap 0 0x400000 = false ∧ (∀ p, (sPt false).damask.lost p = false) ∧
      (sPt false).walk 0 0 0x400000 = .error (.fault .pageFault) ∧ ∃ x, (sPt false).walk 0 0 0x200000 = .ok x ∧ x.va ≤ 0x200000 ∧ 0x200000 < x.va + x.size ∧ x.pa = 0x400000) ∧
    (∀ m, Promotes (sPt m) 0 0x200000 0x600000 0x10008 ∧ MemOk (sPt m) ∧ pteAddr ((sPt m).nodeEntry 0 0x10008) = 0x11000 ∧ (∀ g, ((sPt m).joinable 0x11000 g).isSome = (m == g))) ∧
    ((sPt true).joinable 0x11000 true = some (leafE true, (List.range 32).map (fun i => 0x400000 + 65536 * i)) ∧
      0x400000 / 2 ^ 28 = 0x600000 / 2 ^ 28 ∧ (∀ f ∈ (List.range 32).map (fun i => 0x400000 + 65536 * i), f / 2 ^ 21 ≠ 0x600000 / 2 ^ 21) ∧ 0x10008 + 8 ≤ 0x600000) := by
  refine ⟨⟨by decide, by decide, rfl, rfl, fun _ => rfl, walk_error, walk_ok⟩, fun m => ⟨promotes m, tables_ok m, ?_, fun g => ?_⟩, joins true true, by decide, by decide, by decide⟩
  · rw [node1]; decide
  · rw [joins]; cases m <;> cases g <;> rfl

/-! Where words and events complete. -/

/-- One lane, an element of a region with a budget, of an empty one, and no region. -/
theorem wit_MemoryWordsComplete :
    (∀ r ∈ [[], [(1, (256 : W64))]], let s := sX r v0; Plain s ∧ s.acts s.cur ctxF.hd &&& ~~~s.me.helper ≠ 0 ∧ s.me.pend = [] ∧ s.relBlocked s.cur = false ∧ s.me.entry.wait = .none ∧
      s.anyMig 64 (s.lineAddrs 64 ctxF (s.acts 64 ctxF.hd)) = false ∧ s.anyMig 64 (pagesOf 0 (s.ssrc 64 ctxF.b).toNat) = false ∧ (s.ssrc 64 ctxF.b).toNat = 256 * r.length ∧ (255 + 0) / 64 - 0 / 64 < 1024 ∧ ∀ x ∈ (s.vd 0).seals, x.va = 0 → x.ending = true) ∧
    (Plain (sP .supervisor []) ∧ 1 ≤ (sP .supervisor []).me.priv.code ∧ zy.hd = ctxF.hd ∧ (sP .supervisor []).acts 64 ctxF.hd &&& ~~~(sP .supervisor []).me.helper ≠ 0 ∧ (sP .supervisor []).me.pend = [] ∧ (sP .supervisor []).relBlocked 64 = false) ∧
    (let s := sX [] { v0 with seals := [sl 0 256] }; Plain s ∧ (∃ x ∈ (s.vd 0).seals, x.va = 0 ∧ x.ending = false) ∧ ∀ x ∈ (s.vd 0).seals, x.va = 0 → s.anyMig 64 (pagesOf x.va x.len) = false) ∧
    (let s := sGz 0x40800000 0x3F800000; Plain s ∧ s.acts s.cur gzF.hd &&& ~~~s.me.helper ≠ 0 ∧ s.me.pend = [] ∧ s.relBlocked 64 = false ∧
      s.planWith 64 0 .wr (s.isHelper 64) (fun e ps => match (match s.regionOf (s.vdOf 64) e.addr.toNat with
          | some r => if r.ty = 10 then none else some Cause.protection
          | none => none) with
        | some c => some c
        | none => atomicRefuse 10 (.op 0 (s.atomVal 64 gzF 4 e.lane)) false ps) (s.atomElems 64 gzF (FM.offset gzF) (lanesOf (s.storeLanes 64 (s.acts 64 gzF.hd)))) = .ok [accZ] ∧
      s.planWith 64 0 .rd (s.isHelper 64) (fun e ps => match s.regionOf (s.vdOf 64) e.addr.toNat with
        | some r => if r.ty = 10 then none else some Cause.protection
        | none => atomicRefuse 10 .read false ps) (s.atomElems 64 gzF (FM.offset gzF) (lanesOf (s.acts 64 gzF.hd &&& ~~~s.me.helper))) = .ok [accZ]) := by
  refine ⟨?_, ⟨⟨rfl, rfl, rfl, rfl, rfl, by decide⟩, by decide +kernel⟩, ⟨⟨rfl, rfl, rfl, rfl, rfl, by decide⟩, by decide +kernel⟩, ⟨⟨rfl, rfl, rfl, rfl, rfl, by decide⟩, by decide +kernel⟩⟩
  intro r h
  rcases List.mem_cons.mp h with rfl | h
  · exact ⟨⟨rfl, rfl, rfl, rfl, rfl, by decide⟩, by decide +kernel⟩
  · obtain rfl := List.mem_singleton.mp h
    exact ⟨⟨rfl, rfl, rfl, rfl, rfl, by decide⟩, by decide +kernel⟩

/-- Core 0's slice has run its length, or the time to stop is past; a workgroup that has stopped, and one that is saved. -/
def sSpent : State := { sShare with clock := 10000000 }
theorem wit_EventsComplete :
    (∃ core slots banks, sGrid.bestStand 0 sGrid.cmds = none ∧ sGrid.bestGrid 0 (sGrid.grids.map (·.1)) = some (gkey 0 1, core, slots, banks)) ∧ sSpent.sliceOver 0 = true ∧
    ({ sStop (.stopping false) with clock := 20000 } : State).timedOut 0 = true ∧ (sStop (.stopping true)).saveable 1 = true ∧
    (let s := sStop .saved; (s.wg 1).life = .saved ∧ (∃ slots banks, s.fits 0 (s.wg 1).kd = some (slots, banks)) ∧ s.isDispatcher 1 = false ∧ s.mayRun 0 0 (s.grid (gkey 0 1)).urgent = true) ∧
    ((sMove 1).fib 64).move ≠ 0 ∧ ((sMove 1).wg 1).kd.flags.getLsbD 2 = false ∧ (∃ u, (sMove 1).moveChunk 64 ((sMove 1).moveOf 64 1) true ((sMove 1).spillBase 64 ((sMove 1).moveOf 64 1)) = .ok u) ∧
    (sMove 3).chunkBad 64 ((sMove 3).spillBase 64 ((sMove 3).moveOf 64 3)) = none ∧ ∃ u, (sMove 3).moveChunk 64 ((sMove 3).moveOf 64 3) false ((sMove 3).spillBase 64 ((sMove 3).moveOf 64 3)) = .ok u := by
  refine ⟨⟨_, _, _, by decide +kernel, rfl⟩, by decide +kernel, by decide +kernel, by decide +kernel, ⟨rfl, ⟨_, _, rfl⟩, by decide +kernel, by decide +kernel⟩, by decide, by decide, ⟨_, rfl⟩, by decide +kernel, ⟨_, rfl⟩⟩

/-! The host's two questions: a header and a word as the 128 bits of the table's row (log entry 1). -/

def rowMovi : Nat := 0x1F3A81803FC00000 * 2 ^ 64 + 0x2100000000000000
theorem test_tableWord : decodeTableWord 128 rowMovi = some (.vmovi { zi with ty := 10, d := 6, imm := 0x3FC00000 }) := by decide +kernel
/-- The very next step after reset moves the constant into v6 of every lane and passes the word. -/
theorem test_withFetchWord :
    (match step (State.reset.withFetchWord 128 rowMovi) with
     | .next t => decide ((t.slot (16 * State.reset.nextWg)).at 6 0 = 0x3FC00000 ∧ (t.slot (16 * State.reset.nextWg)).at 6 31 = 0x3FC00000 ∧ (t.fib (64 * State.reset.nextWg)).entry.pc = 4112)
     | _ => false) = true := by decide +kernel

/-! The assembler: words that chapter 04 writes out, clauses, a descriptor, and errors. -/

/-- The 64-bit words of the first section of a source. -/
def asmWords (s : String) : Option (List W64) :=
  match (({} : Asm.Src).lines 1 (Asm.linesOf [] s.toList)).bind Asm.Src.finish with
  | .error _ => none
  | .ok a => match a.texts 0 (a.secs.take 1) with
    | .error _ => none
    | .ok (ss, _) => (ss.head?).map (fun x => (records 8 x.body).map (fun b => BitVec.ofNat 64 (leNat b)))

/-- The error of a source. -/
def asmErr (s : String) : Option Asm.Err :=
  match (({} : Asm.Src).lines 1 (Asm.linesOf [] s.toList)).bind Asm.Src.finish with
  | .error e => some e
  | .ok a => match a.texts 0 a.secs with
    | .error e => some e
    | .ok _ => none

/-- The kernel `scale` of chapter 04, its last three clauses: LA 0 of the load, LA 1 of the store, and the TERM word. -/
theorem test_asm_scale : asmWords "ld.n32 v2, [s5 + v1]\nfmul.f32 v2, v2, k1\nst.n32 v2, [s5 + v1]\nexit" =
    some [0x4000800000000000, 0x0138008504A80000, 0x2000800000000000, 0x2238008284050020, 0x4100800000800000, 0x0238808504A80000, 0x0938000000000000] := by
  decide +kernel

/-- The framed clause and the pair that chapter 03 writes out. -/
theorem test_asm_frame : asmWords ".clause WTOK=d0, BPRI=0x40\n.eph\nfma.f32.rne v5, v1, v2, v3\n?p2 fadd.f32.MODE=rz v6, v5, s4" =
    some [0x2101400001000000, 0x2338014108350000, 0x2010018510051020] := by decide +kernel

theorem test_asm_pair : asmWords ".clause BPRI=0x40\n?p1 fmul.f32 v1, v2, v3 || sadd s4, s5, k2" =
    some [0x3000400000000000, 0x700A0420C4162000] := by decide +kernel

/-- The descriptor of `scale`: FLAGS 0x1C, STACK 256, PRIO 2. -/
theorem test_asm_descriptor : (match ({} : Asm.Src).lines 1 (Asm.linesOf [] ".kernel k\n.faultmode runahead\n.idempotent\n.prio 2\nexit\n.end_kernel".toList) with
    | .ok a => let d := KDesc.ofBytes a.kdesc; d.flags = 0x1C && d.stack = 256 && d.prio = 2 && d.codeSize = 16 && d.template = 0xFFFFFFFF
    | .error _ => false) = true := by decide +kernel

theorem test_asm_branch : asmWords "x: nop\nbra x" = some [0x0100800000000000, 0x0138000000000000, 0x02380000FFFFFFFE] := by decide +kernel

theorem test_asm_errors : asmErr "fadd.i32 v1, v2, v3" = some .illegalForm ∧ asmErr "fadd.f32 v1, v2, 40" = some .immRange
    ∧ asmErr ".clause\nx: nop" = some .labelInClause ∧ asmErr "bra x" = some .undefined ∧ asmErr ".kernel k\n.gang\nexit\n.end_kernel" = some .descLimit := by
  decide +kernel

end Sys2Proof.Tests
end

section
/-! SUPPORT. The proofs of the scope: main memory keeps its canonical form over every step (R8). -/

namespace Sys2Proof.Machine

/-! The canonical form of main memory (R8). -/

/-- Every instruction and every event keeps main memory canonical: the law of its own arm says so. -/
theorem exec_wf (i : Instr) (s : State) (hw : Memory.wf s.mem = true) {t : State} (ht : exec i s = .next t) : Memory.wf t.mem = true := by
  match i, ht with
  | .nop f, ht => exact execNop_mem f s ht ▸ hw
  | .bra f, ht => exact execBra_wf f s hw ht
  | .brp f, ht => exact execBrp_wf f s hw ht
  | .brs f, ht => exact execBrs_wf f s hw ht
  | .brx f, ht => exact execBrx_wf f s hw ht
  | .call f, ht => exact execCall_wf f s hw ht
  | .callx f, ht => exact execCallx_wf f s hw ht
  | .ret f, ht => exact execRet_wf f s hw ht
  | .exit f, ht => exact execExit_wf f s hw ht
  | .wait f, ht => exact execWait_wf f s hw ht
  | .yield f, ht => exact execYield_wf f s hw ht
  | .fbar f, ht => exact execFbar_wf f s hw ht
  | .trap f, ht => exact execTrap_wf f s hw ht
  | .brkpt f, ht => exact execBrkpt_wf f s hw ht
  | .sadd f, ht => exact execSadd_wf f s hw ht
  | .ssub f, ht => exact execSsub_wf f s hw ht
  | .smul f, ht => exact execSmul_wf f s hw ht
  | .smulh f, ht => exact execSmulh_wf f s hw ht
  | .smad f, ht => exact execSmad_wf f s hw ht
  | .sabs f, ht => exact execSabs_wf f s hw ht
  | .smin f, ht => exact execSmin_wf f s hw ht
  | .smax f, ht => exact execSmax_wf f s hw ht
  | .sand f, ht => exact execSand_wf f s hw ht
  | .sor f, ht => exact execSor_wf f s hw ht
  | .sxor f, ht => exact execSxor_wf f s hw ht
  | .snot f, ht => exact execSnot_wf f s hw ht
  | .sshl f, ht => exact execSshl_wf f s hw ht
  | .sshr f, ht => exact execSshr_wf f s hw ht
  | .ssra f, ht => exact execSsra_wf f s hw ht
  | .sbfe f, ht => exact execSbfe_wf f s hw ht
  | .sbfi f, ht => exact execSbfi_wf f s hw ht
  | .spopc f, ht => exact execSpopc_wf f s hw ht
  | .sclz f, ht => exact execSclz_wf f s hw ht
  | .sctz f, ht => exact execSctz_wf f s hw ht
  | .scmp f, ht => exact execScmp_wf f s hw ht
  | .ssel f, ht => exact execSsel_wf f s hw ht
  | .smov f, ht => exact execSmov_wf f s hw ht
  | .smovi f, ht => exact execSmovi_wf f s hw ht
  | .smovh f, ht => exact execSmovh_wf f s hw ht
  | .sfromk f, ht => exact execSfromk_wf f s hw ht
  | .sfromv f, ht => exact execSfromv_wf f s hw ht
  | .stov f, ht => exact execStov_wf f s hw ht
  | .vadd f, ht => exact execVadd_wf f s hw ht
  | .vsub f, ht => exact execVsub_wf f s hw ht
  | .vmul f, ht => exact execVmul_wf f s hw ht
  | .vmulh f, ht => exact execVmulh_wf f s hw ht
  | .vmad f, ht => exact execVmad_wf f s hw ht
  | .vabs f, ht => exact execVabs_wf f s hw ht
  | .vneg f, ht => exact execVneg_wf f s hw ht
  | .vmin f, ht => exact execVmin_wf f s hw ht
  | .vmax f, ht => exact execVmax_wf f s hw ht
  | .vand f, ht => exact execVand_wf f s hw ht
  | .vor f, ht => exact execVor_wf f s hw ht
  | .vxor f, ht => exact execVxor_wf f s hw ht
  | .vnot f, ht => exact execVnot_wf f s hw ht
  | .vlop3 f, ht => exact execVlop3_wf f s hw ht
  | .vshl f, ht => exact execVshl_wf f s hw ht
  | .vshr f, ht => exact execVshr_wf f s hw ht
  | .vsra f, ht => exact execVsra_wf f s hw ht
  | .vbfe f, ht => exact execVbfe_wf f s hw ht
  | .vbfi f, ht => exact execVbfi_wf f s hw ht
  | .vpopc f, ht => exact execVpopc_wf f s hw ht
  | .vclz f, ht => exact execVclz_wf f s hw ht
  | .vbrev f, ht => exact execVbrev_wf f s hw ht
  | .vperm f, ht => exact execVperm_wf f s hw ht
  | .vdot4 f, ht => exact execVdot4_wf f s hw ht
  | .vsad f, ht => exact execVsad_wf f s hw ht
  | .vpack f, ht => exact execVpack_wf f s hw ht
  | .vunpack f, ht => exact execVunpack_wf f s hw ht
  | .vcmp f, ht => exact execVcmp_wf f s hw ht
  | .vsel f, ht => exact execVsel_wf f s hw ht
  | .vmov f, ht => exact execVmov_wf f s hw ht
  | .vmovi f, ht => exact execVmovi_wf f s hw ht
  | .fadd f, ht => exact execFadd_wf f s hw ht
  | .fsub f, ht => exact execFsub_wf f s hw ht
  | .fmul f, ht => exact execFmul_wf f s hw ht
  | .fma f, ht => exact execFma_wf f s hw ht
  | .fmin f, ht => exact execFmin_wf f s hw ht
  | .fmax f, ht => exact execFmax_wf f s hw ht
  | .fcmp f, ht => exact execFcmp_wf f s hw ht
  | .fclass f, ht => exact execFclass_wf f s hw ht
  | .frcp f, ht => exact execFrcp_wf f s hw ht
  | .frsq f, ht => exact execFrsq_wf f s hw ht
  | .fsqrt f, ht => exact execFsqrt_wf f s hw ht
  | .fex2 f, ht => exact execFex2_wf f s hw ht
  | .flg2 f, ht => exact execFlg2_wf f s hw ht
  | .fsin f, ht => exact execFsin_wf f s hw ht
  | .fcos f, ht => exact execFcos_wf f s hw ht
  | .ftanh f, ht => exact execFtanh_wf f s hw ht
  | .frint f, ht => exact execFrint_wf f s hw ht
  | .fscale f, ht => exact execFscale_wf f s hw ht
  | .fsgn f, ht => exact execFsgn_wf f s hw ht
  | .fcvt f, ht => exact execFcvt_wf f s hw ht
  | .icvt f, ht => exact execIcvt_wf f s hw ht
  | .shfl f, ht => exact execShfl_wf f s hw ht
  | .qswp f, ht => exact execQswp_wf f s hw ht
  | .qbc f, ht => exact execQbc_wf f s hw ht
  | .vote f, ht => exact execVote_wf f s hw ht
  | .ballot f, ht => exact execBallot_wf f s hw ht
  | .vred f, ht => exact execVred_wf f s hw ht
  | .vscan f, ht => exact execVscan_wf f s hw ht
  | .pand f, ht => exact execPand_wf f s hw ht
  | .por f, ht => exact execPor_wf f s hw ht
  | .pxor f, ht => exact execPxor_wf f s hw ht
  | .pnot f, ht => exact execPnot_wf f s hw ht
  | .pmov f, ht => exact execPmov_wf f s hw ht
  | .pcnt f, ht => exact execPcnt_wf f s hw ht
  | .pair f, ht => exact execPair_wf f s hw ht
  | .ld f, ht => exact execLd_wf f s hw ht
  | .st f, ht => exact execSt_wf f s hw ht
  | .lds f, ht => exact execLds_wf f s hw ht
  | .sts f, ht => exact execSts_wf f s hw ht
  | .ldt f, ht => exact execLdt_wf f s hw ht
  | .stt f, ht => exact execStt_wf f s hw ht
  | .lrec f, ht => exact execLrec_wf f s hw ht
  | .prf f, ht => exact execPrf_wf f s hw ht
  | .cwb f, ht => exact execCwb_wf f s hw ht
  | .cinv f, ht => exact execCinv_wf f s hw ht
  | .seal f, ht => exact execSeal_wf f s hw ht
  | .unseal f, ht => exact execUnseal_wf f s hw ht
  | .lkl f, ht => exact execLkl_wf f s hw ht
  | .ulk f, ht => exact execUlk_wf f s hw ht
  | .atom f, ht => exact execAtom_wf f s hw ht
  | .atomx f, ht => exact execAtomx_wf f s hw ht
  | .red f, ht => exact execRed_wf f s hw ht
  | .gdef f, ht => exact execGdef_wf f s hw ht
  | .gadd f, ht => exact execGadd_wf f s hw ht
  | .gld f, ht => exact execGld_wf f s hw ht
  | .fence f, ht => exact execFence_wf f s hw ht
  | .gdecl f, ht => exact execGdecl_wf f s hw ht
  | .obres f, ht => exact execObres_wf f s hw ht
  | .obrel f, ht => exact execObrel_wf f s hw ht
  | .obld f, ht => exact execObld_wf f s hw ht
  | .obst f, ht => exact execObst_wf f s hw ht
  | .mma f, ht => exact execMma_wf f s hw ht
  | .aclr f, ht => exact execAclr_wf f s hw ht
  | .aget f, ht => exact execAget_wf f s hw ht
  | .aput f, ht => exact execAput_wf f s hw ht
  | .aout f, ht => exact execAout_wf f s hw ht
  | .ackr f, ht => exact execAckr_wf f s hw ht
  | .qpush f, ht => exact execQpush_wf f s hw ht
  | .qpop f, ht => exact execQpop_wf f s hw ht
  | .qstat f, ht => exact execQstat_wf f s hw ht
  | .qbind f, ht => exact execQbind_wf f s hw ht
  | .cpy f, ht => exact execCpy_wf f s hw ht
  | .cpym f, ht => exact execCpym_wf f s hw ht
  | .cpyr f, ht => exact execCpyr_wf f s hw ht
  | .coll f, ht => exact execColl_wf f s hw ht
  | .cadd f, ht => exact execCadd_wf f s hw ht
  | .cwait f, ht => exact execCwait_wf f s hw ht
  | .cread f, ht => exact execCread_wf f s hw ht
  | .cphase f, ht => exact execCphase_wf f s hw ht
  | .cbind f, ht => exact execCbind_wf f s hw ht
  | .cunbind f, ht => exact execCunbind_wf f s hw ht
  | .cset f, ht => exact execCset_wf f s hw ht
  | .launch f, ht => exact execLaunch_wf f s hw ht
  | .lstat f, ht => exact execLstat_wf f s hw ht
  | .rdsr f, ht => exact execRdsr_wf f s hw ht
  | .wrsr f, ht => exact execWrsr_wf f s hw ht
  | .tret f, ht => exact execTret_wf f s hw ht
  | .halt f, ht => exact execHalt_wf f s hw ht
  | .tlbi f, ht => exact execTlbi_wf f s hw ht
  | .bankmode f, ht => exact execBankmode_wf f s hw ht
  | .dmr f, ht => exact execDmr_wf f s hw ht
  | .scan f, ht => exact execScan_wf f s hw ht
  | .clauseEntry w, ht => exact execClauseEntry_wf w s hw ht
  | .longLatencyComplete fib idx part, ht => exact execLongLatencyComplete_mem fib idx part s ht ▸ hw
  | .cwaitComplete fib idx, ht => exact execCwaitComplete_wf fib idx s hw ht
  | .hostCwaitPoll fib idx, ht => exact execHostCwaitPoll_wf fib idx s hw ht
  | .slotPromotion slot, ht => exact execSlotPromotion_mem slot s ht ▸ hw
  | .slotExchange core quarter, ht => exact execSlotExchange_mem core quarter s ht ▸ hw
  | .longResidenceSwap core quarter, ht => exact execLongResidenceSwap_mem core quarter s ht ▸ hw
  | .spillCmdGo fib v, ht => exact execSpillCmdGo_wf fib v s hw ht
  | .workgroupPlacement cluster, ht => exact execWorkgroupPlacement_wf cluster s hw ht
  | .energyMeterInterval readings, ht => exact execEnergyMeterInterval_mem readings s ht ▸ hw
  | .powerClockStep milliwatts draw, ht => exact execPowerClockStep_mem milliwatts draw s ht ▸ hw
  | .sliceEnd core, ht => exact execSliceEnd_mem core s ht ▸ hw
  | .preemptTimeout core, ht => exact execPreemptTimeout_wf core s hw ht
  | .workgroupSave wg, ht => exact execWorkgroupSave_wf wg s hw ht
  | .workgroupRestore wg core, ht => exact execWorkgroupRestore_wf wg core s hw ht
  | .trapTake fib, ht => exact execTrapTake_wf fib s hw ht
  | .faultBatchServed fib ptes refused, ht => exact execFaultBatchServed_wf fib ptes refused s hw ht
  | .pageWalk core vd va, ht => exact execPageWalk_wf core vd va s hw ht
  | .pagePromotion vd va frame, ht => exact execPagePromotion_wf vd va frame s hw ht
  | .watchdogExpiry wg, ht => exact execWatchdogExpiry_wf wg s hw ht
  | .heartbeatLoss agent, ht => exact execHeartbeatLoss_wf agent s hw ht
  | .scanPassComplete core pass, ht => exact execScanPassComplete_wf core pass s hw ht
  | .unscannedCoreScan core, ht => exact execUnscannedCoreScan_mem core s ht ▸ hw
  | .scanReqWrite v, ht => exact execScanReqWrite_mem v s ht ▸ hw
  | .counterAddAddrWrite vd off size v, ht => exact execCounterAddAddrWrite_wf vd off size v s hw ht
  | .counterAddIncrement vd off size v, ht => exact execCounterAddIncrement_wf vd off size v s hw ht
  | .counterAddSetAndAdd vd off addr inc, ht => exact execCounterAddSetAndAdd_wf vd off addr inc s hw ht
  | .dropsRead vd, ht => exact execDropsRead_mem vd s ht ▸ hw
  | .functionEnable vd cfg, ht => exact execFunctionEnable_wf vd cfg s hw ht
  | .dispatchDescWrite vd v, ht => exact execDispatchDescWrite_wf vd v s hw ht
  | .bankDrainComplete cluster bank, ht => exact execBankDrainComplete_mem cluster bank s ht ▸ hw
  | .engineAccept cmd, ht => exact execEngineAccept_mem cmd s ht ▸ hw
  | .engineDeadline cmd, ht => exact execEngineDeadline_wf cmd s hw ht
  | .copyChunkDone cmd, ht => exact execCopyChunkDone_wf cmd s hw ht
  | .collectiveFoldDone cmd remote, ht => exact execCollectiveFoldDone_wf cmd remote s hw ht
  | .mmaOperation wg g, ht => exact execMmaOperation_mem wg g s ht ▸ hw
  | .gauzeDrainAck cluster line, ht => exact execGauzeDrainAck_wf cluster line s hw ht
  | .unitLoss u, ht => exact execUnitLoss_wf u s hw ht
  | .recoveryFlushEnd stack, ht => exact execRecoveryFlushEnd_mem stack s ht ▸ hw
  | .lineMove province, ht => exact execLineMove_wf province s hw ht
  | .patrolScrub line, ht => exact execPatrolScrub_mem line s ht ▸ hw
  | .dramRefresh stack channel, ht => exact execDramRefresh_mem stack channel s ht ▸ hw
  | .rowRepairGo fib v, ht => exact execRowRepairGo_mem fib v s ht ▸ hw
  | .memRetireBank fib v, ht => exact execMemRetireBank_wf fib v s hw ht
  | .memRetirePseudoChannel fib v, ht => exact execMemRetirePseudoChannel_wf fib v s hw ht
  | .memRetireChannel fib v, ht => exact execMemRetireChannel_wf fib v s hw ht
  | .memRetireStack fib v, ht => exact execMemRetireStack_wf fib v s hw ht
  | .memRetireProvince fib v, ht => exact execMemRetireProvince_wf fib v s hw ht
  | .memRetireStartPhase fib v, ht => exact execMemRetireStartPhase_wf fib v s hw ht
  | .memRetireBadKind fib v, ht => exact execMemRetireBadKind_mem fib v s ht ▸ hw
  | .memRetireStatusRead fib d, ht => exact execMemRetireStatusRead_wf fib d s hw ht
  | .memEventRead fib d, ht => exact execMemEventRead_wf fib d s hw ht
  | .xlateOutRead fib d, ht => exact execXlateOutRead_wf fib d s hw ht
  | .killCauseRead fib d, ht => exact execKillCauseRead_wf fib d s hw ht
  | .engFaultRead fib d, ht => exact execEngFaultRead_mem fib d s ht ▸ hw
  | .faultInjectTile fib v, ht => exact execFaultInjectTile_mem fib v s ht ▸ hw
  | .faultInjectChecksum fib v, ht => exact execFaultInjectChecksum_mem fib v s ht ▸ hw
  | .faultInjectRegister fib v, ht => exact execFaultInjectRegister_mem fib v s ht ▸ hw
  | .faultInjectScanFail fib v, ht => exact execFaultInjectScanFail_mem fib v s ht ▸ hw
  | .registerWrite fib num v, ht => exact execRegisterWrite_wf fib num v s hw ht
  | .twillPacketReceive port pkt, ht => exact execTwillPacketReceive_wf port pkt s hw ht
  | .twillCrcReplay port lane, ht => exact execTwillCrcReplay_mem port lane s ht ▸ hw
  | .twillPortLoss port, ht => exact execTwillPortLoss_wf port s hw ht
  | .hostMemoryAccess acc, ht => exact execHostMemoryAccess_wf acc s hw ht
  | .roceWorkRequest req, ht => exact execRoceWorkRequest_wf req s hw ht
  | .powerOnReset image, ht => exact execPowerOnReset_wf image s hw ht
  | .firmwareImageLoad file, ht => exact execFirmwareImageLoad_wf file s hw ht
  | .driverImageLoad vd file place, ht => exact execDriverImageLoad_wf vd file place s hw ht
  | .imageUnload vd image, ht => exact execImageUnload_wf vd image s hw ht
  | .challenge nonce, ht => exact execChallenge_mem nonce s ht ▸ hw
  | .akviaTelemetry item, ht => exact execAkviaTelemetry_mem item s ht ▸ hw
  | .nonInstructionEncoding w, ht => exact execNonInstructionEncoding_wf w s hw ht
  | .hostSpillMove fib, ht => exact execHostSpillMove_wf fib s hw ht
  | .functionDisable vd, ht => exact execFunctionDisable_wf vd s hw ht
  | .priorityInheritanceUpdate, ht => exact execPriorityInheritanceUpdate_mem s ht ▸ hw
  | .energyWindowOpen, ht => exact execEnergyWindowOpen_wf s hw ht
  | .scanRotation, ht => exact execScanRotation_mem s ht ▸ hw
  | .scanResultRead, ht => exact execScanResultRead_mem s ht ▸ hw
  | .phaseStart, ht => exact execPhaseStart_mem s ht ▸ hw
  | .rowRepairDone, ht => exact execRowRepairDone_mem s ht ▸ hw
  | .getVersion, ht => exact execGetVersion_mem s ht ▸ hw
  | .getCapabilities, ht => exact execGetCapabilities_mem s ht ▸ hw
  | .negotiateAlgorithms, ht => exact execNegotiateAlgorithms_mem s ht ▸ hw
  | .getCertificate, ht => exact execGetCertificate_mem s ht ▸ hw
  | .getMeasurements, ht => exact execGetMeasurements_mem s ht ▸ hw

theorem stepHeader_wf (s : State) (hw : Memory.wf s.mem = true) {t : State} (ht : stepHeader s = .next t) : Memory.wf t.mem = true := by
  unfold stepHeader at ht
  split at ht
  · cases ht
    exact State.fetchFault_wf _ _ _ _ hw
  · exact exec_wf _ _ (State.noteFetch_wf _ _ _ hw) ht

theorem stepWord_wf (s : State) (hw : Memory.wf s.mem = true) {t : State} (ht : stepWord s = .next t) : Memory.wf t.mem = true := by
  have hready := State.readyFrame_wf s s.cur hw
  unfold stepWord at ht
  split at ht
  next u hu =>
    rw [hu] at hready
    cases ht
    exact hready
  next u hu =>
    rw [hu] at hready
    split at ht
    · cases ht
      exact State.fetchFault_wf _ _ _ _ hready
    · split at ht
      · cases ht
        exact State.trapHere_wf _ _ _ _ _ _ hready
      · exact batched_wf _ _ (fun _ h => exec_wf _ _ (State.noteFetch_wf _ _ _ hready) h) ht

theorem stepFibre_wf (s : State) (hw : Memory.wf s.mem = true) {t : State} (ht : stepFibre s = .next t) : Memory.wf t.mem = true := by
  unfold stepFibre at ht
  split at ht
  · exact stepWord_wf s hw ht
  · exact stepHeader_wf s hw ht

theorem stepDevice_wf (s : State) (hw : Memory.wf s.mem = true) {t : State} (ht : stepDevice s = .next t) : Memory.wf t.mem = true := by
  have hcycle : Memory.wf s.cycle.exchanges.hostWatch.mem = true :=
    State.hostWatch_wf _ ((State.exchanges_mem _).symm ▸ State.cycle_wf _ hw)
  unfold stepDevice at ht
  dsimp only at ht
  split at ht
  · exact exec_wf _ _ hcycle ht
  · cases ht
    exact hcycle

theorem stepRaw_wf (s : State) (hw : Memory.wf s.mem = true) {t : State} (ht : stepRaw s = .next t) : Memory.wf t.mem = true := by
  unfold stepRaw at ht
  split at ht
  · split at ht
    · exact exec_wf _ _ (by exact hw) ht
    · cases ht
      exact hw
  · split at ht
    · exact stepFibre_wf _ ((State.chosen_mem _ _ _ _).symm ▸ hw) ht
    · exact stepDevice_wf s hw ht

/-- Settles O56: what a step can be keeps memory canonical, and so does the settling after it. -/
theorem stepKeepsMemoryCanonical : Obligations.StepKeepsMemoryCanonical :=
  fun s _ hs hst => settled_wf (stepRaw s) (fun _ h => stepRaw_wf s hs h) hst

end Sys2Proof.Machine
end

section
/-! SUPPORT. The proofs of the scope: one step fetches, decodes and executes (R87), and the state after reset (R10). -/

namespace Sys2Proof.Machine

/-! A step runs the word that is decoded (R87, R151, R155). -/

@[simp] theorem State.chosen_cur (s : State) (q slot k : Nat) : (s.chosen q slot k).cur = k := by
  unfold State.chosen
  split <;> rfl

/-- With no event in the agenda, a picked fibre issues. -/
theorem step_of_pick (s : State) (q slot k : Nat) (hagenda : s.agenda = []) (hpick : s.pick = some (q, slot, k)) :
    step s = settled (stepFibre (s.chosen q slot k)) := by
  unfold step stepRaw
  rw [hagenda]
  simp only [hpick]

/-- The first event of the agenda happens before any word. -/
theorem step_of_event (s : State) (i : Instr) (rest : List Instr) (hi : i.isEvent = true) :
    step { s with agenda := i :: rest } = settled (exec i { s with agenda := rest }) := by
  simp only [step, stepRaw, hi, if_true]

theorem stepFibre_of_inside (s : State) (h : (s.fib s.cur).entry.inside = true) : stepFibre s = stepWord s := if_pos h

theorem stepFibre_of_header (s : State) (h : (s.fib s.cur).entry.inside = false) : stepFibre s = stepHeader s := by
  simp [stepFibre, h]

/-- The frame of the word is not resident: making it so is the whole step. -/
theorem stepWord_of_stopped (s t : State) (h : s.readyFrame s.cur = .stopped t) : stepWord s = .next t := by
  simp only [stepWord, h]

/-- A word that decodes executes, and fixes its batch where it page-faults. -/
theorem stepWord_of_decode (s v : State) (w : W64) (i : Instr) (hv : s.readyFrame s.cur = .done v)
    (hw : v.fetch v.cur (v.fib v.cur).entry.pc = .ok w) (hi : decode (v.decCtx v.cur) (v.fib v.cur).entry.cls w = .ok i) :
    stepWord s = batched v (exec i (v.noteFetch v.cur (v.fib v.cur).entry.pc)) := by
  simp only [stepWord, hv, hw, hi]

/-- A word that decodes to nothing traps. -/
theorem stepWord_of_undecoded (s v : State) (w : W64) (r : Reject) (hv : s.readyFrame s.cur = .done v)
    (hw : v.fetch v.cur (v.fib v.cur).entry.pc = .ok w) (hr : decode (v.decCtx v.cur) (v.fib v.cur).entry.cls w = .error r) :
    stepWord s = .next (v.trapHere v.cur .illegalEncoding 0 0 0) := by
  simp only [stepWord, hv, hw, hr]

theorem stepHeader_of_fetch (s : State) (w : W64) (hw : s.fetch s.cur (s.fib s.cur).entry.pc = .ok w) :
    stepHeader s = exec (.clauseEntry w) (s.noteFetch s.cur (s.fib s.cur).entry.pc) := by
  simp only [stepHeader, hw]

/-- Where the fibre is not frozen afterwards, there is no batch to fix. -/
theorem State.withBatch_of_unfrozen (s t : State) (h : (t.fib s.cur).frozen = none) : s.withBatch t = t := by
  unfold State.withBatch
  rw [h]
  split
  next hf => cases hf
  next => rfl

/-- Settles O59: the equations of `step`, case by case. -/
theorem stepRunsDecodedWord : Obligations.StepRunsDecodedWord := by
  intro s q slot k hagenda hpick u e
  have hstep : step s = settled (stepFibre u) := step_of_pick s q slot k hagenda hpick
  have hcur : u.cur = k := s.chosen_cur q slot k
  refine ⟨fun v w hin hready hvk hfetch => ?_, fun t hin hready => ?_, fun w hout hfetch => ?_, fun i rest hi => step_of_event s i rest hi⟩
  · rw [stepFibre_of_inside u (by rw [hcur]; exact hin)] at hstep
    rw [← hcur] at hready
    subst hvk
    refine ⟨fun i hi => ?_, fun r hr => ?_⟩
    · rw [stepWord_of_decode u v w i hready hfetch hi] at hstep
      refine ⟨hstep, fun t ht hfrozen => ?_⟩
      rw [hstep, ht]
      show Host.Outcome.next (v.withBatch t).settle = _
      rw [State.withBatch_of_unfrozen v t hfrozen]
    · rw [hstep, stepWord_of_undecoded u v w r hready hfetch hr]
      rfl
  · rw [stepFibre_of_inside u (by rw [hcur]; exact hin), stepWord_of_stopped u t (by rw [hcur]; exact hready)] at hstep
    exact hstep
  · rw [stepFibre_of_header u (by rw [hcur]; exact hout), stepHeader_of_fetch u w (by rw [hcur]; exact hfetch), hcur] at hstep
    exact hstep

/-! The state after reset (R10): no table lists anything, so every accessor answers its default. -/

@[simp] theorem reset_vd (v : Nat) : State.reset.vd v = Vd.empty := rfl
@[simp] theorem reset_fib (k : Nat) : State.reset.fib k = Fibre.empty := rfl

/-- A fibre before its first instruction: scalars and predicates are 0 but for p7 (R27). -/
theorem Fibre.empty_sreg (n : Nat) : Fibre.empty.sreg n = 0 := rfl
theorem Fibre.empty_preg (n : Nat) (h : n < 7) : Fibre.empty.preg n = 0 := if_neg (by omega)

/-- Banks 0 to 47 of a cluster are CACHE after reset, 48 to 63 SCRATCH (R143). -/
theorem reset_bank_mode (c b : Nat) (h : b < 64) : (State.reset.bank (64 * c + b)).mode = if b < 48 then .cache else .scratch := by
  show (if (64 * c + b) % 64 < 48 then BankMode.cache else .scratch) = _
  rw [Nat.mul_add_mod, Nat.mod_eq_of_lt h]

/-- The clocks of the islands after reset (R453). -/
theorem reset_islandMhz (i : Nat) (h : i < 60) :
    tget (islandMhzReset i) State.reset.islandMhz i = if i % 20 < 12 then 800 else 1600 := by
  show (if i < 60 && i % 20 < 12 then 800 else 1600) = _
  simp [h]

/-- Settles O55: the fields of FEATURE, SCRUB_CTL and ROW_REPAIR are computed; all else is what an empty table reads as. -/
theorem resetState : Obligations.ResetState := by
  refine ⟨rfl, rfl, rfl, rfl, rfl, rfl, rfl, rfl, rfl, rfl, rfl, rfl, by decide, by decide, by decide, by decide, by decide, by decide, by decide,
    fun v => ⟨rfl, rfl, rfl, rfl, rfl, rfl, rfl, rfl, rfl, rfl, rfl, rfl, rfl, rfl, rfl, rfl⟩,
    fun k => ⟨rfl, rfl, rfl, rfl, rfl, rfl, rfl, rfl, Fibre.empty_sreg, Fibre.empty_preg⟩,
    reset_bank_mode, reset_islandMhz, by decide, by decide, rfl⟩

end Sys2Proof.Machine
end

section
/-! SUPPORT. The proofs of the scope: reads and writes of system registers (R9, R30, R149). -/

namespace Sys2Proof.Machine

/-! Numbers and levels (R30). -/

/-- The table of the statements and the model's levels agree on every assigned number. -/
theorem sysLevels_row : ∀ r ∈ sysRows, sysLevels r.1 = some r.2 := by decide

/-- A number that the model gives levels stands in the table. -/
theorem sysLevels_none (n : Nat) (h : ∀ r ∈ sysRows, r.1 ≠ n) : sysLevels n = none := by
  have hout (l : List Nat) (hl : ∀ m ∈ l, m ∈ sysRows.map (·.1)) : l.contains n = false := by
    rw [List.contains_eq_mem, decide_eq_false_iff_not]
    intro hm
    obtain ⟨r, hr, hrn⟩ := List.mem_map.1 (hl n hm)
    exact h r hr hrn
  unfold sysLevels
  iterate 6 rw [hout _ (by decide), if_neg Bool.false_ne_true]

theorem RegUser.mayRead_levels {u : RegUser} {n : Nat} (h : u.mayRead n = true) : sysLevels n ≠ none := by
  intro hn
  simp [RegUser.mayRead, hn] at h

theorem RegUser.mayWrite_levels {u : RegUser} {n : Nat} (h : u.mayWrite n = true) : sysLevels n ≠ none := by
  intro hn
  simp [RegUser.mayWrite, hn] at h

/-! What the words rdsr and wrsr do, case by case (R87, R149). -/

section
variable (s : State) (f : FY)

theorem rdsr_reads {v : W64} {u : State} (hp : Plain s) (ha : s.acts s.cur f.hd ≠ 0) (hr : (s.regUser s.cur).mayRead f.num.toNat = true)
    (hu : s.sysAbsent f.num.toNat = false) (hread : s.sysRead (s.regUser s.cur) f.num.toNat = .ok (v, u)) :
    exec (.rdsr f) s = .next (u.issue s.cur f.hd (mkPend .other [.sreg f.d.toNat v] true none)) := by
  show execRdsr f s = _
  simp only [execRdsr, Option.isNone_iff_eq_none, RegUser.mayRead_levels hr, hr, if_neg ha, State.pBadSrc_eq s _ hp, hu, hread,
    Bool.not_true, Bool.false_eq_true, if_false]

theorem wrsr_unassigned (hn : sysLevels f.num.toNat = none) : exec (.wrsr f) s = .next (s.trapHere s.cur .illegalEncoding 0 0 0) := by
  show execWrsr f s = _
  simp [execWrsr, hn]

theorem wrsr_privilege (hn : sysLevels f.num.toNat ≠ none) (hw : (s.regUser s.cur).mayWrite f.num.toNat = false) :
    exec (.wrsr f) s = .next (s.trapHere s.cur .privilege 0 0 0) := by
  show execWrsr f s = _
  simp [execWrsr, hn, hw]

theorem wrsr_idle (hw : (s.regUser s.cur).mayWrite f.num.toNat = true) (ha : s.acts s.cur f.hd &&& ~~~s.me.helper = 0) :
    exec (.wrsr f) s = .next (s.finish s.cur []) := by
  have hh : s.onlyHelpers s.cur (s.acts s.cur f.hd) = true := decide_eq_true ha
  show execWrsr f s = _
  simp [execWrsr, RegUser.mayWrite_levels hw, hw, hh]

theorem wrsr_writes (hp : Plain s) (hw : (s.regUser s.cur).mayWrite f.num.toNat = true) (ha : s.acts s.cur f.hd &&& ~~~s.me.helper ≠ 0)
    (hu : s.sysAbsent f.num.toNat = false) (hn : f.num.toNat ≠ 0x051) :
    exec (.wrsr f) s =
      .next ((s.sysWrite (s.regUser s.cur) f.num.toNat (s.ssrc s.cur f.a)).issue s.cur f.hd (mkPend .other [] true none)) := by
  have hh : s.onlyHelpers s.cur (s.acts s.cur f.hd) = false := decide_eq_false ha
  have hbad : s.aBad s.cur f = false := by simp [State.aBad, State.pBadSrc_eq s _ hp, State.sBadSrc_eq s _ hp]
  show execWrsr f s = _
  simp [execWrsr, RegUser.mayWrite_levels hw, hw, hh, hbad, hu, hn]

end

/-- Where the issuing fibre and its slot are as they were in a plain state, the state is plain. -/
theorem Plain.of_eq {s u : State} (hp : Plain s) (hcur : u.cur = s.cur) (hfib : u.fibres = s.fibres) (hslot : u.slots = s.slots) : Plain u := by
  have hme : u.me = s.me := by simp only [State.me, State.fib, hcur, hfib]
  have hmy : u.mySlot = s.mySlot := by simp only [State.mySlot, State.slot, hcur, hslot]
  exact ⟨hme ▸ hp.scalars, hme ▸ hp.predicates, hmy ▸ hp.vectors, hme ▸ hp.single, hme ▸ hp.windows, hme ▸ hp.lasting⟩

/-! Reads that clear (R9, R325, R330, R380, R436). -/

/-- A read of such a register answers its value, clears it, and touches no fibre and no slot. -/
structure ReadsClearing (s : State) (k : Nat) (c : Clearing) (u : State) : Prop where
  read   : s.sysRead (s.regUser k) c.num = .ok (c.value s k, u)
  clear  : c.clear s k u
  cur    : u.cur = s.cur
  fibres : u.fibres = s.fibres
  slots  : u.slots = s.slots

/-- Setting a vector of a device changes no other device. -/
theorem State.setVector_vd_ne (s : State) (vd n j : Nat) (on : Bool) (h : j ≠ vd) : (s.setVector vd n on).vd j = s.vd j :=
  State.vd_modVd_ne _ _ _ _ h

/-- MEM_EVENT: the oldest entry of the log, for virtual device 0 alone (R330). -/
theorem memEvent_reads (s : State) (u : RegUser) :
    ∃ t, s.readMemEvent u = (if u.vd = 0 then s.damask.events.headD 0 else 0, t) ∧ { t with damask := s.damask, vds := s.vds } = s ∧
      t.damask = { s.damask with events := if u.vd = 0 then s.damask.events.drop 1 else s.damask.events } := by
  unfold State.readMemEvent
  by_cases hvd : u.vd = 0
  · cases hev : s.damask.events with
    | nil => exact ⟨s.setVector 0 0 false, by simp [hvd], rfl, by rw [if_pos hvd, List.drop_nil, ← hev]; rfl⟩
    | cons e es =>
      exact ⟨({ s with damask := { s.damask with events := es } } : State).setVector 0 0 false, by simp [hvd], rfl, by simp [hvd, State.setVector]⟩
  · exact ⟨s, by simp [hvd], rfl, by simp [hvd]⟩

/-- The four registers of the table (R9). -/
theorem clearing_reads (s : State) (k : Nat) : ∀ c ∈ clearings, ∃ u, ReadsClearing s k c u := by
  intro c hc
  simp only [clearings, List.mem_cons, List.not_mem_nil, or_false] at hc
  rcases hc with rfl | rfl | rfl | rfl
  · -- KILL_CAUSE
    refine ⟨_, rfl, ⟨rfl, fun v hv => ?_, ?_, ?_⟩, rfl, rfl, rfl⟩
    · exact (State.setVector_vd_ne _ _ _ _ _ hv).trans (State.vd_modVd_ne _ _ _ _ hv)
    · simp [State.regUser, State.setVector]
    · simp [State.regUser, State.setVector]
  · -- ENG_FAULT
    exact ⟨_, rfl, ⟨rfl, fun w hw => State.wg_modWg_ne _ _ _ _ hw, State.wg_modWg_self _ _ _⟩, rfl, rfl, rfl⟩
  · -- MEM_RETIRE_STATUS
    exact ⟨_, rfl, rfl, rfl, rfl, rfl⟩
  · -- MEM_EVENT
    obtain ⟨t, hread, hrest, hlog⟩ := memEvent_reads s (s.regUser k)
    have hkeep {α : Type} (p : State → α) : p { t with damask := s.damask, vds := s.vds } = p s := congrArg p hrest
    exact ⟨t, congrArg Except.ok hread, ⟨hrest, hlog⟩, hkeep State.cur, hkeep State.fibres, hkeep State.slots⟩

/-- The level of the table is the read level of the register. -/
theorem clearing_mayRead (s : State) (k : Nat) : ∀ c ∈ clearings, (s.regUser k).mayRead c.num = decide (c.level.code ≤ (s.fib k).priv.code) := by
  intro c hc
  have hlevel : ∀ c ∈ clearings, (sysLevels c.num).map (·.1) = some c.level := by decide
  obtain ⟨⟨r, w⟩, hrow, hr⟩ := Option.map_eq_some_iff.1 (hlevel c hc)
  subst hr
  simp only [RegUser.mayRead, hrow]
  rfl

/-- No such register belongs to a unit that may be absent (R425). -/
theorem clearing_present (s : State) : ∀ c ∈ clearings, s.sysAbsent c.num = false := by
  have hnum : ∀ c ∈ clearings, c.num ≠ 0x172 ∧ c.num ≠ 0x173 ∧ c.num ≠ 0x174 := by decide
  intro c hc
  obtain ⟨h1, h2, h3⟩ := hnum c hc
  simp [State.sysAbsent, h1, h2, h3]

/-- The event of the table is a read of the register into a scalar. -/
theorem clearing_event (s : State) (k d : Nat) : ∀ c ∈ clearings, exec (c.instr k d) s = .next (s.readInto k d c.num) := by
  intro c hc
  simp only [clearings, List.mem_cons, List.not_mem_nil, or_false] at hc
  rcases hc with rfl | rfl | rfl | rfl <;> rfl

theorem State.readInto_ok {s u : State} {k n : Nat} {v : W64} (d : Nat) (hr : (s.regUser k).mayRead n = true)
    (hread : s.sysRead (s.regUser k) n = .ok (v, u)) : s.readInto k d n = u.modFib k (fun f => f.setSreg d v) := by
  simp [State.readInto, hr, hread]

theorem State.readInto_error {s : State} {k n : Nat} {e : XErr} (d : Nat) (hread : s.sysRead (s.regUser k) n = .error e) :
    s.readInto k d n = s := by
  simp [State.readInto, hread]

theorem State.readInto_denied {s : State} {k n : Nat} (d : Nat) (hr : (s.regUser k).mayRead n = false) : s.readInto k d n = s := by
  simp [State.readInto, hr]

/-! XLATE_OUT (R316). -/

/-- A field of a word that is written as a number below 2^64. -/
theorem field_ofNat (n lo w : Nat) (h : n < 2 ^ 64) : field (BitVec.ofNat 64 n) lo w = n / 2 ^ lo % 2 ^ w := by
  rw [field, BitVec.toNat_ofNat, Nat.mod_eq_of_lt h]

theorem getLsbD_ofNat_eq (n i : Nat) (b : Bool) (h : i < 64) (hb : n / 2 ^ i % 2 = b.toNat) : (BitVec.ofNat 64 n).getLsbD i = b := by
  rw [BitVec.getLsbD_ofNat, Nat.testBit_eq_decide_div_mod_eq, hb]
  cases b <;> simp [h]

theorem PState.code_lt (x : PState) : PState.code x < 8 := by cases x <;> decide

/-- The fields of a placement do not overlap (R316). -/
theorem placement_fields {c st ch pc bank row col par p : Nat} {isNew locked lost : Bool} (hc : c < 8) (hst : st < 16) (hch : ch < 32) (hpc : pc < 2)
    (hbank : bank < 16) (hrow : row < 2 ^ 17) (hcol : col < 16) (hpar : par < 16) (hp : p < 4096) :
    let v := BitVec.ofNat 64 (c + (if isNew then 8 else 0) + (if locked then 16 else 0) + (if lost then 32 else 0) + 128 + 2 ^ 8 * st + 2 ^ 12 * ch +
      2 ^ 17 * pc + 2 ^ 18 * bank + 2 ^ 22 * row + 2 ^ 39 * col + 2 ^ 43 * par + 2 ^ 47 * p)
    field v 0 3 = c ∧ v.getLsbD 3 = isNew ∧ v.getLsbD 4 = locked ∧ v.getLsbD 5 = lost ∧ v.getLsbD 7 = true ∧ field v 8 4 = st ∧
      field v 12 5 = ch ∧ field v 17 1 = pc ∧ field v 18 4 = bank ∧ field v 22 17 = row ∧ field v 39 4 = col ∧ field v 43 4 = par ∧
      field v 47 12 = p := by
  have hnum (b : Bool) (n : Nat) : (if b then n else 0) = n * b.toNat := by cases b <;> simp
  have hnew := isNew.toNat_le
  have hlock := locked.toNat_le
  have hlost := lost.toNat_le
  simp only [hnum]
  generalize hn : c + 8 * isNew.toNat + 16 * locked.toNat + 32 * lost.toNat + 128 + 2 ^ 8 * st + 2 ^ 12 * ch + 2 ^ 17 * pc + 2 ^ 18 * bank + 2 ^ 22 * row +
    2 ^ 39 * col + 2 ^ 43 * par + 2 ^ 47 * p = n
  have hlt : n < 2 ^ 64 := by omega
  simp only [field_ofNat _ _ _ hlt]
  refine ⟨?_, getLsbD_ofNat_eq _ _ _ (by decide) ?_, getLsbD_ofNat_eq _ _ _ (by decide) ?_, getLsbD_ofNat_eq _ _ _ (by decide) ?_,
    getLsbD_ofNat_eq _ _ _ (by decide) (?_ : _ = 1), ?_, ?_, ?_, ?_, ?_, ?_, ?_, ?_⟩ <;> omega

/-- The placement word holds its fields (R316). -/
theorem placeWord_fields (s : State) (pa : Nat) : outWord s pa (s.placeWord pa) := by
  unfold outWord
  extract_lets p e h
  split
  next hout => exact if_pos hout
  next hout =>
  split
  next hret =>
    have hword : s.placeWord pa = BitVec.ofNat 64 (4 + 2 ^ 47 * p) := (if_neg hout).trans (if_pos hret)
    rw [hword, field_ofNat _ _ _ (by omega), field_ofNat _ _ _ (by omega)]
    omega
  next hret =>
    intro hst hpar hunit hrow hcol
    have hst' : h.at_.stack < 16 := by omega
    have hpar' : h.par.stack < 16 := by omega
    have hch : h.at_.unit / 32 < 32 := by omega
    rw [show s.placeWord pa = _ from (if_neg hout).trans (if_neg hret)]
    exact placement_fields (PState.code_lt e.st) hst' hch (Nat.mod_lt _ (by decide)) (Nat.mod_lt _ (by decide)) hrow hcol hpar' (by omega)

/-- Reading XLATE_OUT reads a word and clears nothing. -/
theorem sysRead_xlateOut {s : State} {u : RegUser} {v : W64} (h : s.xlateOut u = .ok v) : s.sysRead u 0x201 = .ok (v, s) := by
  simp only [State.sysRead, h]

theorem sysRead_xlateOut_error {s : State} {u : RegUser} {e : XErr} (h : s.xlateOut u = .error e) : s.sysRead u 0x201 = .error e := by
  simp only [State.sysRead, h]

/-- An address in XLATE_IN that names a place itself (R316). -/
theorem xlateOut_physical (s : State) (k : Nat) (ha : (s.fib k).xlateIn.getLsbD 63 = true) (hp : (s.fib k).priv = .device) :
    s.xlateOut (s.regUser k) = .ok (s.placeWord ((s.fib k).xlateIn.toNat % 2 ^ 57)) :=
  if_pos (by simp [State.userFib, State.regUser, ha, hp])

/-- What XLATE_OUT answers where an address is translated (R316): nothing yet at a MIG entry, FAULT alone where the translation fails, the placement
of a byte of device memory, and 0 for a byte that lies elsewhere. -/
def State.placeOf (s : State) : Except XErr Piece → Except XErr W64
  | .error .mig => .error .mig
  | .error (.fault _) => .ok 64
  | .ok p => match p.locs with
    | .dev pa _ _ :: _ => .ok (s.placeWord pa)
    | _ => .ok 0

theorem xlateOut_translated (s : State) (k : Nat) (hphys : ¬ ((s.fib k).xlateIn.getLsbD 63 = true ∧ (s.fib k).priv = .device)) :
    s.xlateOut (s.regUser k) = s.placeOf (s.globalPiece (s.coreOf k) (s.vdOf k) .rd ((s.fib k).xlateIn.toNat % 2 ^ 57) 1) :=
  if_neg (by rw [Bool.and_eq_true, decide_eq_true_eq]; exact hphys)

theorem State.placeOf_device (s : State) {p : Piece} {pa b : Nat} {c : Bool} (h : p.locs = [.dev pa b c]) : s.placeOf (.ok p) = .ok (s.placeWord pa) := by
  simp only [State.placeOf, h]

theorem State.placeOf_elsewhere (s : State) {p : Piece} (h : ∀ pa b c, p.locs.head? ≠ some (.dev pa b c)) : s.placeOf (.ok p) = .ok 0 := by
  simp only [State.placeOf]
  split
  next pa b c rest hl => exact absurd (by rw [hl]; rfl) (h pa b c)
  next => rfl

/-- Settles O36: the reads of the table clear as `clearing_reads` says, by the word and by the event; XLATE_OUT as `State.placeOf` says. -/
theorem clearingReads : Obligations.ClearingReads := by
  refine ⟨fun s f c hc hn hp ⟨hacts, hlevel⟩ => ?_, fun s k d c hc => ⟨fun hlevel => ?_, fun hlevel => ?_⟩, ?_⟩
  · obtain ⟨u, hread, hclear, hcur, hfibres, hslots⟩ := clearing_reads s s.cur c hc
    rw [hn] at hread
    have hmay : (s.regUser s.cur).mayRead f.num.toNat = true := hn ▸ (clearing_mayRead s s.cur c hc).trans (decide_eq_true hlevel)
    have hpu : Plain u := hp.of_eq hcur hfibres hslots
    exact ⟨_, u, rdsr_reads s f hp hacts hmay (hn ▸ clearing_present s c hc) hread, hclear, hcur ▸ u.issue_owes f.hd _ _ _ hpu⟩
  · obtain ⟨u, hread, hclear, hcur, hfibres, hslots⟩ := clearing_reads s k c hc
    have hmay := (clearing_mayRead s k c hc).trans (decide_eq_true hlevel)
    refine ⟨_, u, (clearing_event s k d c hc).trans (congrArg _ (State.readInto_ok d hmay hread)), hclear, rfl, fun j hj => State.fib_modFib_ne _ _ _ _ hj, ?_, ?_, ?_⟩
    · rw [State.fib_modFib_self]
      rfl
    · rw [State.fib_modFib_self, Fibre.setSreg_self]
    · intro i hi
      rw [State.fib_modFib_self, Fibre.setSreg_ne _ _ _ _ hi]
  · have hmay := (clearing_mayRead s k c hc).trans (decide_eq_false (Nat.not_le.2 hlevel))
    exact (clearing_event s k d c hc).trans (congrArg _ (State.readInto_denied d hmay))
  · intro s k d hpriv a va phys reads
    have hmay : (s.regUser k).mayRead 0x201 = true := decide_eq_true hpriv
    have hreads {R : W64 → Prop} {v : W64} (hv : s.xlateOut (s.regUser k) = .ok v) (hR : R v) : reads R :=
      ⟨_, v, congrArg Host.Outcome.next (State.readInto_ok d hmay (sysRead_xlateOut hv)), rfl, hR⟩
    refine ⟨fun h => hreads (xlateOut_physical s k h.1 h.2) (placeWord_fields s va), fun h hmig => ?_, fun h c hfault => ?_, fun h p pa b c hok hloc => ?_,
      fun h p hok hloc => ?_⟩
    · exact congrArg Host.Outcome.next (State.readInto_error d (sysRead_xlateOut_error ((xlateOut_translated s k h).trans (congrArg s.placeOf hmig))))
    · exact hreads ((xlateOut_translated s k h).trans (congrArg s.placeOf hfault)) rfl
    · exact hreads ((xlateOut_translated s k h).trans ((congrArg s.placeOf hok).trans (s.placeOf_device hloc))) (placeWord_fields s pa)
    · exact hreads ((xlateOut_translated s k h).trans ((congrArg s.placeOf hok).trans (s.placeOf_elsewhere hloc))) rfl

end Sys2Proof.Machine
end

section
/-! SUPPORT. The proofs of the scope: writes of system registers (R9, R30, R149). -/

namespace Sys2Proof.Machine

/-! Where the registers of `plainReads` stand: in the device, the fibre, its virtual device, its workgroup or the memory controller. -/

/-- The registers of a virtual device. -/
def vdReads : List (Nat × (Vd → W64)) :=
  [(0x011, Vd.energyCtx), (0x030, Vd.funcMode), (0x031, Vd.energyReport), (0x032, Vd.fallbackRing), (0x033, Vd.fallbackCtr), (0x040, Vd.queueBase),
   (0x041, Vd.dispatchDesc), (0x042, Vd.dispatchArgs), (0x06C, Vd.watchdog), (0x128, Vd.atomReplays), (0x170, Vd.engDeadline), (0x210, Vd.heapBase),
   (0x211, Vd.heapLimit), (0x212, Vd.heapOffset), (0x213, Vd.ptRoot), (0x214, Vd.promote)]

/-- The registers of a fibre. -/
def fibReads : List (Nat × (Fibre → W64)) :=
  [(0x061, fun f => f.trap.pc), (0x062, fun f => f.trap.resume), (0x063, fun f => f.trap.addr), (0x068, fun f => tget 0 f.trap.save 0),
   (0x069, fun f => tget 0 f.trap.save 1), (0x06A, fun f => tget 0 f.trap.save 2), (0x06B, fun f => tget 0 f.trap.save 3),
   (0x120, Fibre.scrPasses), (0x121, Fibre.scrRequests), (0x130, Fibre.pfIssued), (0x131, Fibre.pfUsed), (0x132, Fibre.pfLate),
   (0x133, Fibre.pfEvicted), (0x200, Fibre.xlateIn)]

/-- The registers of the memory controller. -/
def damaskReads : List (Nat × (Damask → W64)) :=
  [(0x242, Damask.sel), (0x244, Damask.tableSel), (0x246, Damask.memShare), (0x247, Damask.scrubCtl), (0x248, Damask.scrubRange)]

/-- The registers of the device and of the workgroup. -/
def otherReads : List (Nat × (State → Nat → W64)) :=
  [(0x001, fun s _ => s.feature), (0x010, fun s _ => BitVec.ofNat 64 s.clock), (0x013, fun s _ => BitVec.ofNat 64 (tget 0 s.islandNj (s.islandSel.toNat % 64))),
   (0x06E, fun s _ => s.preemptTimeout), (0x160, fun s k => (s.wg (wgOf k)).obConf)]

/-- What holds of the registers of each place holds of all of them. -/
theorem plainReads_places {P : Nat × (State → Nat → W64) → Prop} (hvd : ∀ p ∈ vdReads, P (p.1, fun s k => p.2 (s.vd (s.vdOf k))))
    (hfib : ∀ p ∈ fibReads, P (p.1, fun s k => p.2 (s.fib k))) (hdamask : ∀ p ∈ damaskReads, P (p.1, fun s _ => p.2 s.damask))
    (hother : ∀ p ∈ otherReads, P p) : ∀ q ∈ plainReads, P q := by
  simp only [vdReads, fibReads, damaskReads, otherReads, plainReads, List.forall_mem_cons] at *
  simp only [*, List.not_mem_nil, false_imp_iff, implies_true, and_self]

/-- The registers of the device and of the workgroup are as they were where nothing that they show has changed. -/
theorem otherReads_kept {s t : State} {k : Nat} (hfeature : t.feature = s.feature) (hclock : t.clock = s.clock) (henergy : t.islandNj = s.islandNj)
    (hisland : t.islandSel = s.islandSel) (htime : t.preemptTimeout = s.preemptTimeout) (hwgs : t.wgs = s.wgs) : ∀ p ∈ otherReads, p.2 t k = p.2 s k := by
  simp [otherReads, State.wg, hfeature, hclock, henergy, hisland, htime, hwgs]

/-! A write to one place leaves the registers of the others (R149). -/

section
variable {s : State} {k : Nat} {r : Nat × Priv × (State → Nat → W64) × (W64 → W64 → W64)} {v : W64}

theorem written_modVd {g : Vd → Vd} (get : Vd → W64) (hget : r.2.2.1 = fun s k => get (s.vd (s.vdOf k)))
    (hval : get (g (s.vd (s.vdOf k))) = r.2.2.2 (get (s.vd (s.vdOf k))) v)
    (hothers : ∀ p ∈ vdReads, p.1 ≠ r.1 → p.2 (g (s.vd (s.vdOf k))) = p.2 (s.vd (s.vdOf k))) : Written s k r v (s.modVd (s.vdOf k) g) := by
  have hvd : (s.modVd (s.vdOf k) g).vd ((s.modVd (s.vdOf k) g).vdOf k) = g (s.vd (s.vdOf k)) := State.vd_modVd_self _ _ _
  refine ⟨rfl, fun _ _ => rfl, rfl, fun _ hj => State.vd_modVd_ne _ _ _ _ hj, ?_, plainReads_places (fun p hp hne _ => ?_) (fun _ _ _ _ => rfl)
    (fun _ _ _ _ => rfl) (fun p hp _ _ => otherReads_kept (s := s) (t := s.modVd _ g) rfl rfl rfl rfl rfl rfl p hp)⟩
  · rw [hget]
    exact (congrArg get hvd).trans hval
  · exact (congrArg p.2 hvd).trans (hothers p hp hne)

theorem written_modFib {g : Fibre → Fibre} (get : Fibre → W64) (hget : r.2.2.1 = fun s k => get (s.fib k))
    (hframe : { g (s.fib k) with trap := (s.fib k).trap } = s.fib k) (hval : get (g (s.fib k)) = r.2.2.2 (get (s.fib k)) v)
    (hothers : ∀ p ∈ fibReads, p.1 ≠ r.1 → p.2 (g (s.fib k)) = p.2 (s.fib k)) : Written s k r v (s.modFib k g) := by
  have hfib : (s.modFib k g).fib k = g (s.fib k) := State.fib_modFib_self _ _ _
  refine ⟨rfl, fun _ hj => State.fib_modFib_ne _ _ _ _ hj, hfib.symm ▸ hframe, fun _ _ => rfl, ?_, plainReads_places (fun _ _ _ _ => rfl)
    (fun p hp hne _ => ?_) (fun _ _ _ _ => rfl) (fun p hp _ _ => otherReads_kept (s := s) (t := s.modFib k g) rfl rfl rfl rfl rfl rfl p hp)⟩
  · rw [hget]
    exact (congrArg get hfib).trans hval
  · exact (congrArg p.2 hfib).trans (hothers p hp hne)

theorem State.setDamask_same_events (s : State) (d : Damask) (h : d.events = s.damask.events) : s.setDamask d = { s with damask := d } := by
  simp [State.setDamask, h]

theorem written_setDamask {d : Damask} (get : Damask → W64) (hget : r.2.2.1 = fun s _ => get s.damask)
    (hevents : d.events = s.damask.events) (hval : get d = r.2.2.2 (get s.damask) v)
    (hothers : ∀ p ∈ damaskReads, p.1 ≠ r.1 → p.2 d = p.2 s.damask) : Written s k r v (s.setDamask d) := by
  rw [State.setDamask_same_events _ _ hevents]
  refine ⟨rfl, fun _ _ => rfl, rfl, fun _ _ => rfl, ?_, plainReads_places (fun _ _ _ _ => rfl) (fun _ _ _ _ => rfl)
    (fun p hp hne _ => hothers p hp hne) (fun p hp _ _ => otherReads_kept (s := s) (t := { s with damask := d }) rfl rfl rfl rfl rfl rfl p hp)⟩
  rw [hget]
  exact hval

end

/-- Every register that a write merely sets (R149): the one it names, and no other. -/
theorem sysWrite_written (s : State) (k : Nat) (v : W64) : ∀ r ∈ plainWrites, Written s k r v (s.sysWrite (s.regUser k) r.1 v) := by
  intro r hr
  simp only [plainWrites, List.mem_cons, List.not_mem_nil, or_false] at hr
  rcases hr with rfl | rfl | rfl | rfl | rfl | rfl | rfl | rfl | rfl | rfl | rfl | rfl | rfl | rfl | rfl | rfl | rfl | rfl | rfl | rfl | rfl | rfl | rfl |
    rfl | rfl | rfl | rfl
  all_goals simp only [State.sysWrite, fibReg, List.contains_cons, List.contains_nil, Nat.reduceBEq, Bool.or_false, Bool.or_self, Bool.or_true,
    Bool.false_eq_true, if_true, if_false, State.regUser, State.sysWriteDev, State.sysWriteFib]
  · -- ISLAND_SEL
    refine ⟨rfl, fun _ _ => rfl, rfl, fun _ _ => rfl, rfl, plainReads_places (fun _ _ _ _ => rfl) (fun _ _ _ _ => rfl) (fun _ _ _ _ => rfl) ?_⟩
    simp [otherReads, State.wg]
  · exact written_modVd Vd.funcMode rfl rfl (by simp [vdReads])
  · exact written_modVd Vd.energyReport rfl rfl (by simp [vdReads])
  · exact written_modVd Vd.fallbackRing rfl rfl (by simp [vdReads])
  · exact written_modVd Vd.fallbackCtr rfl rfl (by simp [vdReads])
  · exact written_modVd Vd.queueBase rfl rfl (by simp [vdReads])
  · exact written_modVd Vd.dispatchArgs rfl rfl (by simp [vdReads])
  · exact written_modFib (fun f => f.trap.resume) rfl rfl rfl (by simp [fibReads])
  · exact written_modFib (fun f => tget 0 f.trap.save 0) rfl rfl (tget_tput_self _ _ _ _) (by simp [fibReads, tget_tput_ne])
  · exact written_modFib (fun f => tget 0 f.trap.save 1) rfl rfl (tget_tput_self _ _ _ _) (by simp [fibReads, tget_tput_ne])
  · exact written_modFib (fun f => tget 0 f.trap.save 2) rfl rfl (tget_tput_self _ _ _ _) (by simp [fibReads, tget_tput_ne])
  · exact written_modFib (fun f => tget 0 f.trap.save 3) rfl rfl (tget_tput_self _ _ _ _) (by simp [fibReads, tget_tput_ne])
  · exact written_modVd Vd.watchdog rfl rfl (by simp [vdReads])
  · -- PREEMPT_TIMEOUT
    refine ⟨rfl, fun _ _ => rfl, rfl, fun _ _ => rfl, rfl, plainReads_places (fun _ _ _ _ => rfl) (fun _ _ _ _ => rfl) (fun _ _ _ _ => rfl) ?_⟩
    simp [otherReads, State.wg]
  · exact written_modVd Vd.occClu rfl rfl (by simp [vdReads])
  · exact written_modVd Vd.occL2 rfl rfl (by simp [vdReads])
  · exact written_modVd Vd.engDeadline rfl rfl (by simp [vdReads])
  · exact written_modVd Vd.heapBase rfl rfl (by simp [vdReads])
  · exact written_modVd Vd.heapLimit rfl rfl (by simp [vdReads])
  · exact written_modVd Vd.heapOffset rfl rfl (by simp [vdReads])
  · exact written_modVd Vd.ptRoot rfl rfl (by simp [vdReads])
  · exact written_modVd Vd.promote rfl rfl (by simp [vdReads])
  · exact written_setDamask Damask.sel rfl rfl rfl (by simp [damaskReads])
  · exact written_setDamask Damask.tableSel rfl rfl rfl (by simp [damaskReads])
  · exact written_setDamask Damask.memShare rfl rfl rfl (by simp [damaskReads])
  · exact written_setDamask Damask.scrubCtl rfl rfl rfl (by simp [damaskReads])
  · exact written_setDamask Damask.scrubRange rfl rfl rfl (by simp [damaskReads])

/-! A write of a plain state leaves a plain state (R201). -/

section
variable {s u : State} {r : Nat × Priv × (State → Nat → W64) × (W64 → W64 → W64)} {v : W64} (h : Written s s.cur r v u)
include h

theorem written_cur : u.cur = s.cur := (congrArg State.cur h.frame :)
theorem written_slots : u.slots = s.slots := (congrArg State.slots h.frame :)
theorem written_mySlot : u.mySlot = s.mySlot := by simp only [State.mySlot, State.slot, written_cur h, written_slots h]

/-- The issuing fibre but for its trap frame. -/
theorem written_me : { u.me with trap := s.me.trap } = s.me := by
  simp only [State.me, written_cur h]
  exact h.fibre

theorem written_entry : u.me.entry = s.me.entry := (congrArg Fibre.entry (written_me h) :)
theorem written_pend : u.me.pend = s.me.pend := (congrArg Fibre.pend (written_me h) :)

theorem written_plain (hp : Plain s) : Plain u where
  scalars := (congrArg Fibre.sBad (written_me h) :).trans hp.scalars
  predicates := (congrArg Fibre.pBad (written_me h) :).trans hp.predicates
  vectors := written_mySlot h ▸ hp.vectors
  single := (congrArg Fibre.shadow (written_me h) :).trans hp.single
  windows := (congrArg Fibre.eph (written_me h) :).trans hp.windows
  lasting := written_entry h ▸ hp.lasting

end

/-- Whether a fibre may write a register that a write merely sets. -/
theorem plainWrites_mayWrite (s : State) (k : Nat) : ∀ r ∈ plainWrites, (s.regUser k).mayWrite r.1 = decide (r.2.1.code ≤ (s.fib k).priv.code) := by
  have hlevel : ∀ r ∈ plainWrites, (sysLevels r.1).map (·.2) = some (some r.2.1) ∧ [0x240, 0x241, 0x249].contains r.1 = false := by decide
  intro r hr
  obtain ⟨hr, hnot⟩ := hlevel r hr
  obtain ⟨⟨_, w⟩, hrow, hw⟩ := Option.map_eq_some_iff.1 hr
  subst hw
  simp only [RegUser.mayWrite, hrow, hnot, Bool.false_and, Bool.not_false, Bool.and_true]
  rfl

/-- A fibre below the write level of a register, or at any level where no level writes it, may not write it (R30). -/
theorem mayWrite_false (s : State) (k : Nat) (r : Nat × Priv × Option Priv) (hr : r ∈ sysRows)
    (hlevel : ∀ p, r.2.2 = some p → (s.fib k).priv.code < p.code) : (s.regUser k).mayWrite r.1 = false := by
  obtain ⟨n, l, w⟩ := r
  cases w with
  | none => simp [RegUser.mayWrite, sysLevels_row _ hr]
  | some p => simp [RegUser.mayWrite, sysLevels_row _ hr, State.regUser, Nat.not_le.2 (hlevel p rfl)]

/-- Settles O37: the write of a row is `sysWrite_written`, and the words and the event come to it by their cases. -/
theorem registerWrites : Obligations.RegisterWrites := by
  refine ⟨fun s f hp => ⟨fun r hr hn hlevel hnone => ?_, fun htrap => ⟨fun hrows => ?_, fun r hr hn hlevel => ?_⟩, fun r hr hn hsome hlevel => ?_⟩,
    fun s k v hk r hr => ⟨fun hlevel => ?_, fun hlevel => ?_⟩⟩
  · have hmay := (plainWrites_mayWrite s s.cur r hr).trans (decide_eq_true hlevel)
    exact ⟨_, wrsr_idle s f (hn ▸ hmay) (not_not.1 hnone), s.finish_quiet hp⟩
  · exact ⟨_, wrsr_unassigned s f (sysLevels_none _ hrows), s.trapHere_took _ _ _ _ htrap⟩
  · have hmay := mayWrite_false s s.cur r hr hlevel
    have hrow : sysLevels f.num.toNat ≠ none := hn ▸ sysLevels_row r hr ▸ Option.some_ne_none _
    exact ⟨_, wrsr_privilege s f hrow (hn ▸ hmay), s.trapHere_took _ _ _ _ htrap⟩
  · have hmay := (plainWrites_mayWrite s s.cur r hr).trans (decide_eq_true hlevel)
    have hnum : ∀ r ∈ plainWrites, r.1 ≠ 0x051 ∧ r.1 ≠ 0x172 ∧ r.1 ≠ 0x173 ∧ r.1 ≠ 0x174 := by decide
    obtain ⟨h51, h172, h173, h174⟩ := hnum r hr
    have hpresent : s.sysAbsent r.1 = false := by simp [State.sysAbsent, h172, h173, h174]
    have hw := sysWrite_written s s.cur (s.ssrc s.cur f.a) r hr
    have howes := State.issue_owes _ f.hd .other true [] (written_plain hw hp)
    rw [written_cur hw] at howes
    exact ⟨_, _, hn ▸ wrsr_writes s f hp (hn ▸ hmay) hsome (hn ▸ hpresent) (hn ▸ h51), hw, written_entry hw, written_pend hw, howes⟩
  · have hmay := (plainWrites_mayWrite s k r hr).trans (decide_eq_true hlevel)
    refine ⟨_, ?_, sysWrite_written s k v r hr⟩
    show execRegisterWrite k r.1 v s = _
    simp only [execRegisterWrite, State.writer, if_pos hk, hmay, if_true]
  · have hmay := (plainWrites_mayWrite s k r hr).trans (decide_eq_false (Nat.not_le.2 hlevel))
    show execRegisterWrite k r.1 v s = _
    simp only [execRegisterWrite, State.writer, if_pos hk, hmay, Bool.false_eq_true, if_false]

end Sys2Proof.Machine
end

section
/-! SUPPORT. The proofs of the scope: what a file holds, and where the firmware loader puts it (R36 to R43, R56). -/

namespace Sys2Proof.Machine

/-! Bytes and tables that are written several times. -/

theorem leNat_zeros (bs : List Byte) (h : ∀ b ∈ bs, b = 0) : leNat bs = 0 := by
  induction bs with
  | nil => rfl
  | cons b bs ih =>
    have hb : b = 0 := h b List.mem_cons_self
    simp [leNat, hb, ih (fun x hx => h x (List.mem_cons_of_mem _ hx))]

theorem fieldAt_zeros (bs : List Byte) (o n : Nat) (h : ∀ b ∈ bs, b = 0) : fieldAt bs o n = 0 :=
  leNat_zeros _ (fun b hb => h b (List.mem_of_mem_drop (List.mem_of_mem_take hb)))

/-- A write covers an address. -/
def covers (w : Nat × List Byte) (x : Nat) : Prop := w.1 ≤ x ∧ x < w.1 + w.2.length

theorem tget_writeTab_covered (m : Tab Byte) (w : Nat × List Byte) (x : Nat) (h : covers w x) :
    tget memDefault (writeTab m w.1 w.2) x = w.2.getD (x - w.1) 0 := by
  obtain ⟨hlo, hhi⟩ := h
  have hi : x - w.1 < w.2.length := by omega
  have hx : x = w.1 + (x - w.1) := by omega
  rw [List.getD_eq_getElem _ _ hi, ← tget_writeTab m w.1 w.2 (x - w.1) hi, ← hx]

theorem tget_writeTab_uncovered (m : Tab Byte) (w : Nat × List Byte) (x : Nat) (h : ¬ covers w x) :
    tget memDefault (writeTab m w.1 w.2) x = tget memDefault m x :=
  tget_writeTab_ne m w.1 w.2 x (by unfold covers at h; omega)

/-- Several writes, one after another. -/
def writeAll (m : Tab Byte) (ws : List (Nat × List Byte)) : Tab Byte := ws.foldl (fun m w => writeTab m w.1 w.2) m

/-- An address that no write covers reads as before. -/
theorem writeAll_uncovered (ws : List (Nat × List Byte)) (m : Tab Byte) (x : Nat) (h : ∀ w ∈ ws, ¬ covers w x) :
    tget memDefault (writeAll m ws) x = tget memDefault m x := by
  induction ws generalizing m with
  | nil => rfl
  | cons w ws ih =>
    exact (ih _ (fun w' hw => h w' (List.mem_cons_of_mem _ hw))).trans (tget_writeTab_uncovered m w x (h w List.mem_cons_self))

/-- An address that every write which covers it leaves with one byte, and some write covers, reads as that byte. -/
theorem writeAll_covered (ws : List (Nat × List Byte)) (m : Tab Byte) (x : Nat) (v : Byte)
    (hsame : ∀ w ∈ ws, covers w x → w.2.getD (x - w.1) 0 = v) (hsome : tget memDefault m x = v ∨ ∃ w ∈ ws, covers w x) :
    tget memDefault (writeAll m ws) x = v := by
  induction ws generalizing m with
  | nil => exact hsome.resolve_right (by simp)
  | cons w ws ih =>
    refine ih _ (fun w' hw => hsame w' (List.mem_cons_of_mem _ hw)) ?_
    by_cases hw : covers w x
    · exact .inl ((tget_writeTab_covered m w x hw).trans (hsame w List.mem_cons_self hw))
    · refine hsome.imp (fun h => (tget_writeTab_uncovered m w x hw).trans h) (fun ⟨w', hw', hc⟩ => ?_)
      rcases List.mem_cons.1 hw' with rfl | hw'
      · exact absurd hc hw
      · exact ⟨w', hw', hc⟩

/-- A key that is put with one value alone reads as it. -/
theorem tget_foldl_tput {α β : Type} (d : α) (key : β → Nat) (val : β → α) (gs : List β) (m : Tab α) (k : Nat) (v : α)
    (hsame : ∀ g ∈ gs, key g = k → val g = v) (hsome : tget d m k = v ∨ ∃ g ∈ gs, key g = k) :
    tget d (gs.foldl (fun m g => tput m (key g) (val g)) m) k = v := by
  induction gs generalizing m with
  | nil => exact hsome.resolve_right (by simp)
  | cons g gs ih =>
    refine ih _ (fun g' hg => hsame g' (List.mem_cons_of_mem _ hg)) ?_
    by_cases hg : key g = k
    · subst hg
      exact .inl ((tget_tput_self _ _ _ _).trans (hsame g List.mem_cons_self rfl))
    · refine hsome.imp (fun h => (tget_tput_ne _ _ _ _ _ (Ne.symm hg)).trans h) (fun ⟨g', hg', hk⟩ => ?_)
      rcases List.mem_cons.1 hg' with rfl | hg'
      · exact absurd hk hg
      · exact ⟨g', hg', hk⟩

/-! The sections of a file that passes the checks (R36, R56). -/

theorem pairwise_iff {α : Type} (p : α → α → Bool) (l : List α) : pairwise p l = true ↔ l.Pairwise (fun a b => p a b = true) := by
  induction l with
  | nil => simp [pairwise]
  | cons a l ih => simp [pairwise, ih]

theorem Sect.meets_symm (x y : Sect) : x.meets y = y.meets x := by
  simp only [Sect.meets, Bool.and_comm, Bool.and_left_comm]

/-- What the checks say of the sections: the first is empty, the others stand in the file and share no address. -/
structure TidySections (f : List Byte) : Prop where
  first  : ∀ x : Sect, (lofSections f)[0]? = some x → x.alloc = false
  inFile : ∀ x ∈ (lofSections f).drop 1, x.offset + x.size ≤ f.length
  apart  : ∀ (i j : Nat) (x y : Sect), i ≠ j → (lofSections f)[i]? = some x → (lofSections f)[j]? = some y → x.meets y = false

theorem Sect.meets_unallocated {x : Sect} (y : Sect) (h : x.alloc = false) : x.meets y = false := by simp [Sect.meets, h]

/-- Two sections that do not meet have no address in common. -/
theorem Sect.not_both {x y : Sect} (h : x.meets y = false) (hx : x.alloc = true) (hy : y.alloc = true) {a : Nat} (hax : x.addr ≤ a ∧ a < x.addr + x.size)
    (hay : y.addr ≤ a ∧ a < y.addr + y.size) : False := by
  have hm : x.meets y = true := by
    simp only [Sect.meets, hx, hy, Bool.true_and, Bool.and_eq_true, bne_iff_ne, decide_eq_true_eq]
    omega
  exact Bool.false_ne_true (h.symm.trans hm)

/-- Step 3 of R56 makes the sections tidy. -/
theorem tidySections_of_layoutOk {f : List Byte} (h : layoutOk f = true) : TidySections f := by
  simp only [layoutOk, Bool.and_eq_true] at h
  obtain ⟨⟨⟨⟨⟨⟨⟨h, -⟩, -⟩, -⟩, -⟩, -⟩, -⟩, -⟩ := h
  obtain ⟨⟨⟨⟨-, hzero⟩, hok⟩, -⟩, hpair⟩ := h
  rw [pairwise_iff] at hpair
  have hfirst : ∀ x : Sect, (lofSections f)[0]? = some x → x.alloc = false := by
    intro x hx
    simp only [lofSections, List.getElem?_map, Option.map_eq_some_iff] at hx
    obtain ⟨i, hi, rfl⟩ := hx
    have hi0 : i = 0 := by
      have := List.getElem?_eq_some_iff.1 hi
      simpa using this.2.symm
    subst hi0
    have hz : ∀ b ∈ (f.drop (shOffset f + 40 * 0)).take 40, b = 0 := by simpa [List.all_eq_true] using hzero
    show decide (fieldAt ((f.drop (shOffset f + 40 * 0)).take 40) 6 2 % 2 = 1) = false
    rw [fieldAt_zeros _ 6 2 hz]
    rfl
  have hlt : ∀ (i j : Nat) (x y : Sect), i < j → (lofSections f)[i]? = some x → (lofSections f)[j]? = some y → x.meets y = false := by
    intro i j x y hij hx hy
    cases i with
    | zero => exact Sect.meets_unallocated y (hfirst x hx)
    | succ i =>
      obtain ⟨j, rfl⟩ := Nat.exists_eq_succ_of_ne_zero (Nat.ne_zero_of_lt hij)
      obtain ⟨hil, rfl⟩ := List.getElem?_eq_some_iff.1 hx
      obtain ⟨hjl, rfl⟩ := List.getElem?_eq_some_iff.1 hy
      have := List.pairwise_iff_getElem.1 hpair i j (by simp; omega) (by simp; omega) (by omega)
      simpa using this
  refine ⟨hfirst, fun x hx => ?_, fun i j x y hij hx hy => ?_⟩
  · have hxok := List.all_eq_true.1 hok x hx
    unfold Sect.ok at hxok
    split at hxok
    · cases hxok
    · simp only [Bool.and_eq_true, decide_eq_true_eq] at hxok
      exact hxok.1.1.1.2
  · rcases Nat.lt_or_gt_of_ne hij with h | h
    · exact hlt i j x y h hx hy
    · rw [Sect.meets_symm]
      exact hlt j i y x h hy hx

/-! Where the firmware loader puts a file's sections (R38, R56). -/

/-- Every allocated section, by its index, at its own address. -/
def firmSects (f : List Byte) : List (Nat × Sect × Nat × Nat) := (allocated (lofSections f)).map (fun e => (e.1, e.2, e.2.addr, e.2.addr))

/-- The pages of these sections. -/
def firmPages (f : List Byte) : List (Nat × Nat × Nat) := (firmSects f).flatMap (fun p => sectPages p.2.1.type p.2.2.1 p.2.2.2 p.2.1.size)

/-- The leaf bits of these pages, by page number. -/
def firmLeaves (f : List Byte) : Tab Nat := (firmPages f).foldl (fun m g => tput m (g.1 / 4096) g.2.2) []

/-- What the loader makes of the file before it changes anything: an error, or the linked image. -/
def State.firmPlan (s : State) (f : List Byte) : Except Nat Linked :=
  if !(firmSects f).all (fun p => s.firmPlaceOk p.2.1) || pagesClash (firmPages f) then .error 12 else linkImage f (firmSects f) 0

/-- The state in which a linked image stands. -/
def State.placed (s : State) (f : List Byte) (l : Linked) : State :=
  ((s.writeSects (firmSects f) l.cont).mapFirmware (firmLeaves f)).sealBufs firmVd l.bufs

/-- The placement of a firmware image is its plan, carried out. -/
theorem placeFirmware_eq (s : State) (f : List Byte) : s.placeFirmware f = (s.firmPlan f).map (s.placed f) := by
  unfold State.placeFirmware State.firmPlan
  dsimp only
  show (if (!(firmSects f).all (fun p => s.firmPlaceOk p.2.1) || pagesClash (firmPages f)) = true then _ else _) = _
  split
  · rfl
  · show (match linkImage f (firmSects f) 0 with | .error e => _ | .ok l => _) = _
    cases linkImage f (firmSects f) 0 <;> rfl

/-- The plan looks at the state of the provinces alone. -/
theorem firmPlan_congr {s t : State} (f : List Byte) (h : t.damask = s.damask) : t.firmPlan f = s.firmPlan f := by
  have hplace : t.firmPlaceOk = s.firmPlaceOk := by
    funext x
    simp only [State.firmPlaceOk, h]
  simp only [State.firmPlan, hplace]

/-- The pages of the sections, one for each 4 KiB that a section meets. -/
theorem mem_sectPages (type va pa n i : Nat) (h : i < n) :
    ((va + i) / 4096 * 4096, (pa / 4096 + ((va + i) / 4096 - va / 4096)) * 4096, sectLeaf type) ∈ sectPages type va pa n := by
  have hdiv : (va + i) / 4096 ≤ (va + n - 1) / 4096 := Nat.div_le_div_right (by omega)
  have hle : va / 4096 ≤ (va + i) / 4096 := Nat.div_le_div_right (by omega)
  rw [sectPages, if_neg (by omega)]
  refine List.mem_map.2 ⟨(va + i) / 4096 - va / 4096, List.mem_range.2 (by omega), ?_⟩
  rw [show va / 4096 + ((va + i) / 4096 - va / 4096) = (va + i) / 4096 by omega]

theorem sectPages_aligned (type va pa n : Nat) : ∀ g ∈ sectPages type va pa n, g.1 / 4096 * 4096 = g.1 := by
  intro g hg
  unfold sectPages at hg
  split at hg
  · cases hg
  · obtain ⟨i, -, rfl⟩ := List.mem_map.1 hg
    simp

theorem mem_allocated (ss : List Sect) (i : Nat) (x : Sect) : (i, x) ∈ allocated ss ↔ ss[i]? = some x ∧ x.alloc = true := by
  simp only [allocated, List.mem_filter, List.mem_map, List.mem_range, Prod.mk.injEq]
  refine and_congr_left (fun _ => ⟨?_, ?_⟩)
  · rintro ⟨j, hj, rfl, rfl⟩
    rw [List.getD_eq_getElem _ _ hj, List.getElem?_eq_getElem hj]
  · intro h
    obtain ⟨hi, rfl⟩ := List.getElem?_eq_some_iff.1 h
    exact ⟨i, hi, rfl, List.getD_eq_getElem _ _ hi⟩

theorem mem_firmSects {f : List Byte} {i : Nat} {x : Sect} (h : (lofSections f)[i]? = some x) (ha : x.alloc = true) : (i, x, x.addr, x.addr) ∈ firmSects f :=
  List.mem_map.2 ⟨(i, x), (mem_allocated _ _ _).2 ⟨h, ha⟩, rfl⟩

/-- Where no two sections ask for one page in different ways, a page has the leaf bits of every section that meets it (R38). -/
theorem firmLeaves_sect {f : List Byte} (hclash : pagesClash (firmPages f) = false) {x : Sect} (hx : x ∈ lofSections f) (ha : x.alloc = true) {i : Nat}
    (hi : i < x.size) : tget plainLeaf (firmLeaves f) ((x.addr + i) / 4096) = sectLeaf x.type := by
  obtain ⟨n, hn⟩ := List.mem_iff_getElem?.1 hx
  have hg := mem_sectPages x.type x.addr x.addr x.size i hi
  generalize hgd : ((x.addr + i) / 4096 * 4096, (x.addr / 4096 + ((x.addr + i) / 4096 - x.addr / 4096)) * 4096, sectLeaf x.type) = g at hg
  have hmem : g ∈ firmPages f := List.mem_flatMap.2 ⟨_, mem_firmSects hn ha, hg⟩
  have hkey : g.1 / 4096 = (x.addr + i) / 4096 := by rw [← hgd]; simp
  have haligned : ∀ q ∈ firmPages f, q.1 / 4096 * 4096 = q.1 := fun q hq => by
    obtain ⟨p, -, hp⟩ := List.mem_flatMap.1 hq
    exact sectPages_aligned _ _ _ _ q hp
  refine tget_foldl_tput plainLeaf (fun q : Nat × Nat × Nat => q.1 / 4096) (fun q => q.2.2) _ _ _ _ (fun q hq hqk => ?_) (.inr ⟨g, hmem, hkey⟩)
  have hsame : q.1 = g.1 := by rw [← haligned q hq, ← haligned g hmem, hqk, hkey]
  have hqg : q = g := by
    by_contra hne
    have : pagesClash (firmPages f) = true := List.any_eq_true.2 ⟨q, hq, List.any_eq_true.2 ⟨g, hmem, by simp [hne, hsame]⟩⟩
    exact Bool.false_ne_true (hclash.symm.trans this)
  rw [hqg, ← hgd]

/-! The bytes of a placed image (R56). -/

/-- The writes of a placement. -/
def sectWrites (ps : List (Nat × Sect × Nat × Nat)) (cont : List (List Byte)) : List (Nat × List Byte) := ps.map (fun p => (p.2.2.2, cont.getD p.1 []))

/-- Contents that have the sizes of their sections. -/
def SizesKept (f : List Byte) (cont : List (List Byte)) : Prop := ∀ (i : Nat) (x : Sect), (lofSections f)[i]? = some x → x.alloc = true → (cont.getD i []).length = x.size

theorem firm_covers {f : List Byte} {cont : List (List Byte)} (hsize : SizesKept f cont) {w : Nat × List Byte} (hw : w ∈ sectWrites (firmSects f) cont) :
    ∃ (i : Nat) (x : Sect), (lofSections f)[i]? = some x ∧ x.alloc = true ∧ w = (x.addr, cont.getD i []) ∧ w.2.length = x.size := by
  obtain ⟨p, hp, rfl⟩ := List.mem_map.1 hw
  obtain ⟨⟨i, x⟩, hx, rfl⟩ := List.mem_map.1 hp
  obtain ⟨hix, ha⟩ := (mem_allocated _ _ _).1 hx
  exact ⟨i, x, hix, ha, rfl, hsize i x hix ha⟩

/-- Outside the sections memory is as it was. -/
theorem firm_rest {f : List Byte} {cont : List (List Byte)} (hsize : SizesKept f cont) (m : Tab Byte) {a : Nat}
    (h : ∀ x ∈ lofSections f, x.alloc = true → a < x.addr ∨ x.addr + x.size ≤ a) :
    tget memDefault (writeAll m (sectWrites (firmSects f) cont)) a = tget memDefault m a := by
  refine writeAll_uncovered _ _ _ (fun w hw hc => ?_)
  obtain ⟨i, x, hix, ha, rfl, hlen⟩ := firm_covers hsize hw
  obtain ⟨hlo, hhi⟩ := hc
  have := h x (List.mem_of_getElem? hix) ha
  omega

/-- In the sections stand their contents. -/
theorem firm_bytes {f : List Byte} (htidy : TidySections f) {cont : List (List Byte)} (hsize : SizesKept f cont) (m : Tab Byte) {n : Nat} {x : Sect}
    (hx : (lofSections f)[n]? = some x) (ha : x.alloc = true) {i : Nat} (hi : i < x.size) :
    tget memDefault (writeAll m (sectWrites (firmSects f) cont)) (x.addr + i) = (cont.getD n []).getD i 0 := by
  refine writeAll_covered _ _ _ _ (fun w hw hc => ?_) (.inr ⟨(x.addr, cont.getD n []), ?_, ?_⟩)
  · obtain ⟨j, y, hjy, hay, rfl, hlen⟩ := firm_covers hsize hw
    obtain ⟨hlo, hhi⟩ := hc
    have hnj : n = j := by
      by_contra hne
      exact Sect.not_both (htidy.apart n j x y hne hx hjy) ha hay (a := x.addr + i) (by omega) (by omega)
    subst hnj
    obtain rfl : x = y := Option.some.inj (hx.symm.trans hjy)
    simp
  · exact List.mem_map.2 ⟨_, mem_firmSects hx ha, rfl⟩
  · have := hsize n x hx ha
    exact ⟨by simp, by simp only; omega⟩

end Sys2Proof.Machine
end

section
/-! SUPPORT. The proofs of the scope: what the loaders' checks and linking say of an image (R41 to R43, R56). -/

namespace Sys2Proof.Machine

/-! Linking keeps the sizes of the sections (R41 to R43). -/

theorem leBytes_length (n v : Nat) : (leBytes n v).length = n := by
  induction n generalizing v with
  | zero => rfl
  | succ n ih => simp [leBytes, ih]

theorem patch_length {b : List Byte} {o n : Nat} (w v : Nat) (h : o + n ≤ b.length) : (patch b o n w v).length = b.length := by
  simp only [patch, List.length_append, List.length_take, leBytes_length, List.length_drop]
  omega

/-- Two lists of contents have the same sizes. -/
def SameSizes (c d : List (List Byte)) : Prop := ∀ i, (d.getD i []).length = (c.getD i []).length

theorem SameSizes.set {c : List (List Byte)} {i : Nat} {b : List Byte} (h : b.length = (c.getD i []).length) : SameSizes c (c.set i b) := by
  intro j
  by_cases hj : i = j
  · subst hj
    by_cases hi : i < c.length
    · simpa [List.getD, hi] using h
    · rw [List.set_eq_of_length_le (by omega)]
  · simp [List.getD, List.getElem?_set_ne hj]

/-- One relocation keeps them, since its place lies in its section. -/
theorem applyRel_sameSizes {addrs : Addrs} {syms : List Sym} {link : Nat} {c d : List (List Byte)} {r : List Byte} (h : applyRel addrs syms link c r = .ok d) :
    SameSizes c d := by
  unfold applyRel at h
  dsimp only at h
  split at h
  · cases h
  next y _ =>
    split at h
    · cases h
    next hok =>
      simp only [Bool.or_eq_true, decide_eq_true_eq, not_or, Nat.not_lt] at hok
      split at h
      · cases h
      · obtain rfl := Except.ok.inj h
        exact SameSizes.set (patch_length _ _ hok.1.2)

/-- All of them keep them. -/
theorem relocate_sameSizes {addrs : Addrs} {ss : List Sect} {syms : List Sym} {f : List Byte} {c d : List (List Byte)} (h : relocate addrs ss syms f c = .ok d) :
    SameSizes c d := by
  refine foldl_inv (fun e : Except Nat (List (List Byte)) => ∀ d, e = .ok d → SameSizes c d) _ (fun e x he => ?_) _ (.ok c) ?_ d h
  · refine foldl_inv (fun e : Except Nat (List (List Byte)) => ∀ d, e = .ok d → SameSizes c d) _ (fun e r he d hd => ?_) _ e he
    cases e with
    | error _ => cases hd
    | ok b => exact fun i => (applyRel_sameSizes hd i).trans (he b rfl i)
  · intro d hd
    obtain rfl := Except.ok.inj hd
    exact fun _ => rfl

/-- A file without relocations is linked as it is. -/
theorem relocate_none (addrs : Addrs) {ss : List Sect} (syms : List Sym) (f : List Byte) (c : List (List Byte)) (h : ∀ x ∈ ss, x.type ≠ 10) :
    relocate addrs ss syms f c = .ok c := by
  have hnone : ss.filter (fun x => x.type = 10) = [] := List.filter_eq_nil_iff.2 (fun x hx => by simpa using h x hx)
  unfold relocate
  rw [hnone]
  rfl

/-- What linking has checked. -/
structure LinkedWell (f : List Byte) (held : Nat) (l : Linked) : Prop where
  cont  : ∃ addrs, relocate addrs (lofSections f) (symbols (lofSections f) f) f ((lofSections f).map (fun x => x.bytes f)) = .ok l.cont
  bufs  : ∀ b ∈ l.bufs, b.1 % 256 = 0 ∧ b.2 % 32 = 0
  count : held + l.bufs.length ≤ 4096

theorem linkImage_ok {f : List Byte} {ps : List (Nat × Sect × Nat × Nat)} {held : Nat} {l : Linked} (h : linkImage f ps held = .ok l) : LinkedWell f held l := by
  unfold linkImage at h
  dsimp only at h
  split at h
  · cases h
  next c hc =>
    split at h
    · cases h
    · split at h
      · cases h
      next hb =>
        obtain rfl := Except.ok.inj h
        simp only [Bool.or_eq_true, Bool.not_eq_true', decide_eq_true_eq, not_or, Bool.not_eq_false, Bool.and_eq_true, Nat.not_lt] at hb
        obtain ⟨⟨hal, -⟩, hn⟩ := hb
        exact ⟨⟨_, hc⟩, by simpa [List.all_eq_true] using hal, hn⟩

theorem getD_map_bytes {f : List Byte} {i : Nat} {x : Sect} (h : (lofSections f)[i]? = some x) : ((lofSections f).map (fun x => x.bytes f)).getD i [] = x.bytes f := by
  simp [List.getD, h]

/-- The contents of a linked image have their sections' sizes. -/
theorem LinkedWell.sizes {f : List Byte} {held : Nat} {l : Linked} (h : LinkedWell f held l) (htidy : TidySections f) : SizesKept f l.cont := by
  intro i x hi ha
  obtain ⟨addrs, hc⟩ := h.cont
  have hpos : 0 < i := Nat.pos_of_ne_zero (fun h0 => by
    subst h0
    exact Bool.false_ne_true ((htidy.first x hi).symm.trans ha))
  have hmem : x ∈ (lofSections f).drop 1 := List.mem_iff_getElem?.2 ⟨i - 1, by rw [List.getElem?_drop, show 1 + (i - 1) = i by omega]; exact hi⟩
  have hfile := htidy.inFile x hmem
  rw [relocate_sameSizes hc i, getD_map_bytes hi]
  simp only [Sect.bytes, List.length_take, List.length_drop]
  omega

/-- Where no section holds relocations the contents are the file's own. -/
theorem LinkedWell.contents {f : List Byte} {held : Nat} {l : Linked} (h : LinkedWell f held l) (hno : ∀ x ∈ lofSections f, x.type ≠ 10) {n : Nat} {x : Sect}
    (hx : (lofSections f)[n]? = some x) {i : Nat} (hi : i < x.size) : (l.cont.getD n []).getD i 0 = f.getD (x.offset + i) 0 := by
  obtain ⟨addrs, hc⟩ := h.cont
  rw [relocate_none addrs _ f _ hno] at hc
  rw [← Except.ok.inj hc, getD_map_bytes hx]
  simp [Sect.bytes, List.getD, hi]

/-! The checks (R56). -/

/-- A signature that does not refuse the image is valid, or is absent where none is asked for. -/
theorem signed_or_unsigned {n : Nat} {must : Bool} (h : ¬ (¬ n = 0 ∧ ¬ (n = 6 ∧ must = false))) : n = 0 ∨ (n = 6 ∧ must = false) := by
  by_contra hno
  exact h (not_or.1 hno)

/-- The first check that fails gives the status. -/
theorem checkImage_firstFailure (device : Bool) (keys : List (List Byte)) (must : Bool) (step : Nat) (f : List Byte) :
    firstFailure device keys must step f (checkImage device keys must step f) := by
  have hexecBit : (lofFlags f % 2 = 0) ↔ (lofFlags f).testBit 0 = false := by simp [Nat.testBit_zero]
  have hdevBit : decide (lofFlags f / 2 % 2 = 1) = (lofFlags f).testBit 1 := by
    rw [Nat.testBit_eq_decide_div_mod_eq, pow_one]
  generalize hn : checkImage device keys must step f = n
  unfold checkImage at hn
  unfold firstFailure
  simp only [hexecBit, hdevBit, Bool.or_eq_true, bne_iff_ne, decide_eq_true_eq, Bool.not_eq_true', Bool.and_eq_true, or_assoc, ne_eq] at hn ⊢
  simp only [lofFlags] at hn
  split_ifs with hmagic hversion hlayout hexec hdev hsig hstep
  · simpa only [hmagic, if_true] using hn.symm
  · simpa only [hmagic, hversion, if_true, if_false] using hn.symm
  · simpa only [hmagic, hversion, hlayout, if_true, if_false] using hn.symm
  · simpa only [hmagic, hversion, hlayout, hexec, if_true, if_false] using hn.symm
  · simp only [hmagic, hversion, hlayout, hexec, hdev, if_false, not_true_eq_false] at hn
    simpa [hsig.1, hsig.2] using hn.symm
  · simp only [hmagic, hversion, hlayout, hexec, hdev, if_false, not_true_eq_false] at hn
    rcases signed_or_unsigned hsig with h0 | h6
    · simpa [h0, Nat.not_le.2 hstep] using hn.symm
    · simpa [h6, Nat.not_le.2 hstep] using hn.symm
  · simp only [hmagic, hversion, hlayout, hexec, hdev, if_false, not_true_eq_false] at hn
    rcases signed_or_unsigned hsig with h0 | h6
    · simpa [h0, Nat.not_lt.1 hstep] using hn.symm
    · simpa [h6, Nat.not_lt.1 hstep] using hn.symm
  · simpa only [hmagic, hversion, hlayout, hexec, hdev, if_true, if_false, not_false_eq_true, reduceCtorEq] using hn.symm

/-- An accepted file has passed step 3. -/
theorem layoutOk_of_checkImage {device : Bool} {keys : List (List Byte)} {must : Bool} {step : Nat} {f : List Byte} (h : checkImage device keys must step f = 0) :
    layoutOk f = true := by
  have hf := checkImage_firstFailure device keys must step f
  rw [h] at hf
  by_contra hl
  simp [firstFailure, hl] at hf

end Sys2Proof.Machine
end

section
/-! SUPPORT. The proofs of the scope: what flushing, placing and starting firmware leave unchanged (R55, R56, R462). -/

namespace Sys2Proof.Machine

/-! No cache operation changes the measurement registers (R462). -/

theorem foldl_measure {β : Type} (g : State → β → State) (hg : ∀ s x, (g s x).measure = s.measure) (l : List β) (s : State) : (l.foldl g s).measure = s.measure :=
  foldl_inv (fun t : State => t.measure = s.measure) g (fun t x h => (hg t x).trans h) l s rfl

@[simp] theorem State.msix_measure (s : State) (vd n : Nat) : (s.msix vd n).measure = s.measure := rfl

@[simp] theorem State.setDamask_measure (s : State) (d : Damask) : (s.setDamask d).measure = s.measure := by
  unfold State.setDamask
  dsimp only
  split <;> rfl

@[simp] theorem State.logEvent_measure (s : State) (e : W64) : (s.logEvent e).measure = s.measure := State.setDamask_measure _ _

@[simp] theorem State.poisonLine_measure (s : State) (line : Nat) (a b : Bool) : (s.poisonLine line a b).measure = s.measure := rfl

@[simp] theorem State.dramRead_measure (s : State) (line : Nat) : (s.dramRead line).measure = s.measure := by
  unfold State.dramRead
  dsimp only
  split
  · split <;> simp
  · split
    · rfl
    · split
      · rfl
      · simp
      · split <;> simp

@[simp] theorem State.pfHit_measure (s : State) (pf : Option Nat) (flight : Bool) : (s.pfHit pf flight).measure = s.measure := by
  cases pf <;> rfl

@[simp] theorem State.pfOut_measure (s : State) (pf : Option Nat) : (s.pfOut pf).measure = s.measure := by
  cases pf <;> rfl

@[simp] theorem State.l2Fill_measure (s : State) (vd line : Nat) (pf : Option Nat) : (s.l2Fill vd line pf).measure = s.measure := by
  unfold State.l2Fill
  split
  · split
    · rfl
    · simp
  · dsimp only
    split <;> simp

@[simp] theorem State.parityUpdate_measure (s : State) (line : Nat) : (s.parityUpdate line).measure = s.measure := by
  unfold State.parityUpdate
  dsimp only
  split <;> rfl

@[simp] theorem State.l2Dirty_measure (s : State) (vd line : Nat) : (s.l2Dirty vd line).measure = s.measure := by
  unfold State.l2Dirty
  dsimp only
  split <;> simp

@[simp] theorem State.residueDrop_measure (s : State) (holder line : Nat) : (s.residueDrop holder line).measure = s.measure := by
  unfold State.residueDrop
  split <;> rfl

@[simp] theorem State.dropShadows_measure (s : State) (pa n : Nat) : (s.dropShadows pa n).measure = s.measure := by
  unfold State.dropShadows
  split <;> rfl

@[simp] theorem State.writeMem_measure (s : State) (a : Nat) (bs : List Byte) : (s.writeMem a bs).measure = s.measure := rfl

@[simp] theorem State.setElem_measure (s : State) (pa ty v : Nat) : (s.setElem pa ty v).measure = s.measure := rfl

@[simp] theorem State.shadowAdd_measure (s : State) (holder pa ty : Nat) (f : Fmt) (x : W32) : (s.shadowAdd holder pa ty f x).measure = s.measure := by
  unfold State.shadowAdd
  simp

@[simp] theorem State.updateElem_measure (s : State) (holder pa aop ty x : Nat) : (s.updateElem holder pa aop ty x).measure = s.measure := by
  unfold State.updateElem
  split
  · split <;> simp
  · simp

@[simp] theorem State.foldPart_measure (s : State) (pa aop ty : Nat) (v : W64) : (s.foldPart pa aop ty v).measure = s.measure := by
  unfold State.foldPart
  split
  · rfl
  · split <;> simp

@[simp] theorem State.foldSector_measure (s : State) (line sec : Nat) (tag : Option (Nat × Nat)) (parts : Tab W64) :
    (s.foldSector line sec tag parts).measure = s.measure := by
  unfold State.foldSector
  split
  · rfl
  · refine foldl_measure _ (fun s e => ?_) _ _
    split <;> simp

@[simp] theorem State.drainU_measure (s : State) (cluster line : Nat) : (s.drainU cluster line).measure = s.measure := by
  unfold State.drainU
  split
  · rfl
  · simp

@[simp] theorem State.foldDrain_measure (s : State) (d : Drain) : (s.foldDrain d).measure = s.measure := by
  have hparts : (d.parts.foldl (fun s e => s.foldPart (64 * d.line + e.1) 0 d.ty e.2) s).measure = s.measure :=
    foldl_measure _ (fun s e => State.foldPart_measure ..) _ _
  unfold State.foldDrain
  dsimp only
  split <;> split <;> exact hparts

@[simp] theorem State.combine_measure (s : State) (line : Nat) : (s.combine line).measure = s.measure := by
  unfold State.combine
  split
  · rfl
  · exact (foldl_measure _ (fun s e => State.drainU_measure ..) _ _).trans (foldl_measure _ (fun s d => State.foldDrain_measure ..) _ _)

@[simp] theorem State.setPoison_measure (s : State) (sector : Nat) (bad : Bool) : (s.setPoison sector bad).measure = s.measure := rfl

@[simp] theorem State.writeBackSector_measure (s : State) (cluster line sec : Nat) : (s.writeBackSector cluster line sec).measure = s.measure := by
  unfold State.writeBackSector
  split
  · rfl
  · split
    · dsimp only
      split <;> simp
    · rfl

@[simp] theorem State.ccDrop_measure (s : State) (cluster line : Nat) : (s.ccDrop cluster line).measure = s.measure := by
  unfold State.ccDrop State.writeBack
  dsimp only
  split <;> simp

@[simp] theorem State.l0Drop_measure (s : State) (core line : Nat) : (s.l0Drop core line).measure = s.measure := by
  unfold State.l0Drop
  split <;> simp

@[simp] theorem State.flushRange_measure (s : State) (a n : Nat) : (s.flushRange a n).measure = s.measure := by
  simp [State.flushRange, foldl_measure]

@[simp] theorem State.unpoison_measure (s : State) (a n : Nat) : (s.unpoison a n).measure = s.measure := rfl

@[simp] theorem State.writeSects_measure (s : State) (ps : List (Nat × Sect × Nat × Nat)) (cont : List (List Byte)) : (s.writeSects ps cont).measure = s.measure := by
  unfold State.writeSects
  exact foldl_measure _ (fun s p => by simp) _ _

/-! Where no cache holds data, a placement changes memory alone, and what copies of text and prefetches were kept (R56). -/

/-- No cluster's cache, no update-only copy and no drain holds data. -/
def NoCopies (s : State) : Prop := s.cc = [] ∧ s.ucopies = [] ∧ s.drains = []

/-- From one state to another a placement has gone on: memory is `m`, and copies have gone. -/
structure Placing (s t : State) (m : Tab Byte) : Prop where
  rest   : { t with mem := s.mem, fibres := s.fibres, l0 := s.l0, shadows := s.shadows, icache := s.icache, poison := s.poison } = s
  mem    : t.mem = m
  fibres : s.l0 = [] → t.l0 = [] ∧ t.fibres = s.fibres
  poison : s.poison = [] → t.poison = []

theorem Placing.refl (s : State) : Placing s s s.mem := ⟨rfl, rfl, fun h => ⟨h, rfl⟩, id⟩

theorem Placing.trans {s t u : State} {m n : Tab Byte} (h : Placing s t m) (g : Placing t u n) : Placing s u n := by
  refine ⟨?_, g.mem, fun h0 => ?_, fun hp => g.poison (h.poison hp)⟩
  · have hrest := h.rest
    rw [← g.rest] at hrest
    exact hrest
  · obtain ⟨hl0, hf⟩ := h.fibres h0
    obtain ⟨gl0, gf⟩ := g.fibres hl0
    exact ⟨gl0, gf.trans hf⟩

theorem Placing.noCopies {s t : State} {m : Tab Byte} (h : Placing s t m) (hs : NoCopies s) : NoCopies t := by
  obtain ⟨hc, hu, hd⟩ := hs
  exact ⟨(congrArg State.cc h.rest :).trans hc, (congrArg State.ucopies h.rest :).trans hu, (congrArg State.drains h.rest :).trans hd⟩

theorem Placing.l0Drop (s : State) (core line : Nat) : Placing s (s.l0Drop core line) s.mem := by
  unfold State.l0Drop
  split
  · exact Placing.refl s
  next x hx =>
    refine ⟨?_, ?_, fun h => ?_, fun h => ?_⟩
    · cases x.pf <;> rfl
    · cases x.pf <;> rfl
    · rw [h] at hx
      cases hx
    · cases x.pf <;> exact h

theorem Placing.dropShadows {s t : State} {m : Tab Byte} (h : Placing s t m) (a n : Nat) : Placing s (t.dropShadows a n) m := by
  unfold State.dropShadows
  split
  · exact h
  · exact ⟨h.rest, h.mem, h.fibres, h.poison⟩

theorem Placing.foldl {β : Type} (g : State → β → State) (hg : ∀ s x, Placing s (g s x) s.mem) (l : List β) (s : State) : Placing s (l.foldl g s) s.mem :=
  foldl_inv (fun t : State => Placing s t s.mem) g (fun t x h => h.mem ▸ h.trans (hg t x)) l s (Placing.refl s)

theorem Placing.icache {s t : State} {m : Tab Byte} (h : Placing s t m) (ic : Tab ISect) : Placing s { t with icache := ic } m :=
  ⟨h.rest, h.mem, h.fibres, h.poison⟩

theorem Placing.written {s t : State} {m : Tab Byte} (h : Placing s t m) (a : Nat) (bs : List Byte) : Placing s (t.writeMem a bs) (writeTab m a bs) :=
  ⟨h.rest, congrArg (writeTab · a bs) h.mem, h.fibres, h.poison⟩

theorem Placing.unpoison {s t : State} {m : Tab Byte} (h : Placing s t m) (a n : Nat) : Placing s (t.unpoison a n) m :=
  ⟨h.rest, h.mem, h.fibres, fun hp => by simp [State.unpoison, h.poison hp]⟩

theorem Placing.flushRange {s : State} (hs : NoCopies s) (a n : Nat) : Placing s (s.flushRange a n) s.mem := by
  obtain ⟨hc, hu, hd⟩ := hs
  unfold State.flushRange
  simp only [hc, hu, hd, List.map_nil, List.append_nil, List.filter_nil, List.foldl_nil]
  exact ((Placing.foldl _ (fun s k => Placing.l0Drop s _ _) _ s).dropShadows a n).icache _

theorem Placing.writeSect {s : State} (hs : NoCopies s) (a : Nat) (bs : List Byte) :
    Placing s (((s.flushRange a bs.length).writeMem a bs).unpoison a bs.length) (writeTab s.mem a bs) :=
  ((Placing.flushRange hs a bs.length).written a bs).unpoison a bs.length

/-- The sections' contents stand in memory. -/
theorem Placing.writeSects {s : State} (hs : NoCopies s) (ps : List (Nat × Sect × Nat × Nat)) (cont : List (List Byte)) :
    Placing s (s.writeSects ps cont) (writeAll s.mem (sectWrites ps cont)) := by
  unfold State.writeSects
  induction ps generalizing s with
  | nil => exact Placing.refl s
  | cons p ps ih =>
    have hp := Placing.writeSect hs p.2.2.2 (cont.getD p.1 [])
    have := hp.trans (ih (hp.noCopies hs))
    rw [hp.mem] at this
    exact this

end Sys2Proof.Machine
end

section
/-! SUPPORT. The proofs of the scope: how a firmware program starts, and what its placement leaves (R31, R35, R55, R56). -/

namespace Sys2Proof.Machine

/-! The firmware that ran until now ends. -/

/-- Workgroups have been released on the way from one state to another. -/
def Releasing (s t : State) : Prop := { t with vds := s.vds, wgs := s.wgs, fibres := s.fibres, slots := s.slots, banks := s.banks } = s

theorem State.release_releasing {s t : State} (h : Releasing s t) (w : Nat) (life : WgLife) : Releasing s (t.release w life) := h

theorem State.release_life (s : State) (w : Nat) (life : WgLife) : ((s.release w life).wg w).life = life := by
  show ((tget Wg.empty (tput s.wgs w _) w)).life = life
  rw [tget_tput_self]

theorem State.release_wg_ne (s : State) {w j : Nat} (life : WgLife) (h : j ≠ w) : (s.release w life).wg j = s.wg j :=
  tget_tput_ne _ _ _ _ _ h

/-- A workgroup that one of several releases kills is killed after them all. -/
theorem foldl_release_killed (ws : List Nat) (s : State) (w : Nat) (h : w ∈ ws ∨ (s.wg w).life = .killed) :
    ((ws.foldl (fun (t : State) w => t.release w .killed) s).wg w).life = .killed := by
  induction ws generalizing s with
  | nil => exact h.resolve_left (by simp)
  | cons v ws ih =>
    refine ih _ ?_
    by_cases hv : w = v
    · subst hv
      exact .inr (State.release_life s w .killed)
    · refine h.imp (fun hm => (List.mem_cons.1 hm).resolve_left hv) (fun hk => ?_)
      rw [State.release_wg_ne s _ hv]
      exact hk

theorem State.endFirmware_releasing (s : State) : Releasing s s.endFirmware :=
  foldl_inv (fun t : State => Releasing s t) _ (fun _ w h => State.release_releasing h w .killed) _ s rfl

theorem State.endFirmware_none (s : State) (h : s.wgs = []) : s.endFirmware = s := by simp [State.endFirmware, h]

/-- A workgroup on the management core that has not ended is killed. -/
theorem State.endFirmware_killed (s : State) {w : Nat} (hcore : (s.wg w).core = s.coreCount) (hlife : (s.wg w).life ≠ .ended) :
    (s.endFirmware.wg w).life = .killed := by
  refine foldl_release_killed _ s w (.inl ?_)
  cases hf : tfind s.wgs w with
  | none =>
    have : s.wg w = Wg.empty := by simp [State.wg, tget, hf]
    rw [this] at hlife
    exact absurd rfl hlife
  | some x =>
    have hx : s.wg w = x := by simp [State.wg, tget, hf]
    exact List.mem_map.2 ⟨(w, x), List.mem_filter.2 ⟨tfind_mem _ _ _ hf, by simpa [← hx] using hcore⟩, rfl⟩

/-! The program starts. -/

/-- From the state `t` with workgroup number `w` free, the firmware's workgroup begins on core `c`. -/
def State.beginFirmware (t : State) (w c : Nat) (f : List Byte) : State :=
  (((((t.dropIc c).bumpWg.setWg w { Wg.empty with life := .running, vd := firmVd, grid := 2 ^ 32 - 1, core := c, threads := 32 }).setSlot (16 * w)
    { Slot.empty with active := true, stack := firstStack KDesc.empty 0 }).setFib (64 * w) (firmwareFibre f)).noteFirmware f)

/-- What has been taken, set and noted when the firmware's workgroup begins, before its one entry looks at its header. -/
def State.firmwareSet (s : State) (f : List Byte) : State := s.endFirmware.beginFirmware s.nextWg s.coreCount f

/-- What a start changes. -/
def Starting (s t : State) : Prop :=
  { t with vds := s.vds, wgs := s.wgs, fibres := s.fibres, slots := s.slots, banks := s.banks, icache := s.icache, nextWg := s.nextWg, firmware := s.firmware } = s

theorem State.startFirmware_eq (s : State) (f : List Byte) : s.startFirmware f = (s.firmwareSet f).select (64 * s.nextWg) := by
  have hw : (s.endFirmware.dropIc s.coreCount).nextWg = s.nextWg := (congrArg State.nextWg s.endFirmware_releasing :)
  have hc : (s.endFirmware.dropIc s.coreCount).coreCount = s.coreCount := (congrArg State.coreCount s.endFirmware_releasing :)
  unfold State.startFirmware State.firmwareSet State.beginFirmware
  simp only [hw, hc]

theorem State.startFirmware_near (s : State) (f : List Byte) : Near (64 * s.nextWg) (s.firmwareSet f) (s.startFirmware f) :=
  s.startFirmware_eq f ▸ Near.select _ _

theorem Starting.of_releasing {s t : State} (h : Releasing s t) : Starting s t :=
  (congrArg (fun u : State => { u with icache := s.icache, nextWg := s.nextWg, firmware := s.firmware }) h :)

theorem Starting.dropIc {s t : State} (h : Starting s t) (c : Nat) : Starting s (t.dropIc c) := h

theorem Starting.bumpWg {s t : State} (h : Starting s t) : Starting s t.bumpWg := h

theorem Starting.setWg {s t : State} (h : Starting s t) (w : Nat) (x : Wg) : Starting s (t.setWg w x) := h

theorem Starting.setSlot {s t : State} (h : Starting s t) (k : Nat) (x : Slot) : Starting s (t.setSlot k x) := h

theorem Starting.setFib {s t : State} (h : Starting s t) (k : Nat) (x : Fibre) : Starting s (t.setFib k x) := h

theorem Starting.noteFirmware {s t : State} (h : Starting s t) (f : List Byte) : Starting s (t.noteFirmware f) := h

theorem State.firmwareSet_starting (s : State) (f : List Byte) : Starting s (s.firmwareSet f) :=
  ((((((Starting.of_releasing s.endFirmware_releasing).dropIc _).bumpWg).setWg _ _).setSlot _ _).setFib _ _).noteFirmware f

theorem State.startFirmware_starting (s : State) (f : List Byte) : Starting s (s.startFirmware f) := by
  have h := s.firmwareSet_starting f
  unfold Starting at h
  rw [← (s.startFirmware_near f).rest] at h
  exact h

theorem State.startFirmware_firmware (s : State) (f : List Byte) : (s.startFirmware f).firmware = some f :=
  (congrArg State.firmware (s.startFirmware_near f).rest :)

theorem State.startFirmware_wg (s : State) (f : List Byte) (w : Nat) : (s.startFirmware f).wg w = (s.firmwareSet f).wg w :=
  congrArg (tget Wg.empty · w) (s.startFirmware_near f).wgs

theorem State.startFirmware_place (s : State) (f : List Byte) :
    ((s.startFirmware f).wg s.nextWg).life = .running ∧ ((s.startFirmware f).wg s.nextWg).core = s.coreCount := by
  have h : (s.startFirmware f).wg s.nextWg = _ := (s.startFirmware_wg f s.nextWg).trans (tget_tput_self _ _ _ _)
  rw [h]
  exact ⟨rfl, rfl⟩

/-- A workgroup of the firmware before it is killed. -/
theorem State.startFirmware_killed (s : State) (f : List Byte) {w : Nat} (hcore : (s.wg w).core = s.coreCount) (hne : w ≠ s.nextWg) (hlife : (s.wg w).life ≠ .ended) :
    ((s.startFirmware f).wg w).life = .killed := by
  rw [State.startFirmware_wg]
  have h : (s.firmwareSet f).wg w = s.endFirmware.wg w := tget_tput_ne _ _ _ _ _ hne
  rw [h]
  exact s.endFirmware_killed hcore hlife

theorem State.startFirmware_fibre (s : State) (f : List Byte) :
    let x := (s.startFirmware f).fib (64 * s.nextWg)
    x.life = .running ∧ x.priv = .device ∧ x.launched = BitVec.allOnes 32 ∧ x.entry.pc = BitVec.ofNat 64 (fieldAt f 0x20 8) ∧ x.entry.fp = 0 ∧ x.entry.inside = false ∧
      x.entry.mask = BitVec.allOnes 32 := by
  have hfib : (s.firmwareSet f).fib (64 * s.nextWg) = firmwareFibre f := State.fib_setFib_self _ _ _
  have hone : s.startFirmware f = _ := (s.startFirmware_eq f).trans (State.select_one _ _ _ (congrArg Fibre.frontier hfib) (show BitVec.allOnes 32 ≠ 0 by decide))
  rw [hone, hfib, State.fib_setFib_self]
  obtain ⟨hpc, hin, hfp, hmask, -⟩ := (s.firmwareSet f).peek_outside (64 * s.nextWg)
    { Entry.empty with pc := BitVec.ofNat 64 (fieldAt f 0x20 8), hdr := BitVec.ofNat 64 (fieldAt f 0x20 8), mask := BitVec.allOnes 32 } rfl
  exact ⟨rfl, rfl, rfl, hpc, hfp, hin, hmask⟩

theorem State.startFirmware_fresh (s : State) (f : List Byte) (h : s.wgs = []) : (s.startFirmware f).vds = s.vds ∧ (s.startFirmware f).banks = s.banks := by
  have hset : (s.firmwareSet f).vds = s.vds ∧ (s.firmwareSet f).banks = s.banks := by
    simp [State.firmwareSet, State.beginFirmware, State.endFirmware_none s h, State.dropIc, State.bumpWg, State.noteFirmware]
  exact ⟨(congrArg State.vds (s.startFirmware_near f).rest :).trans hset.1, (congrArg State.banks (s.startFirmware_near f).rest :).trans hset.2⟩

/-! A placed image (R38, R56). -/

theorem firmPlan_ok {s : State} {f : List Byte} {l : Linked} (h : s.firmPlan f = .ok l) : pagesClash (firmPages f) = false ∧ LinkedWell f 0 l := by
  unfold State.firmPlan at h
  split at h
  · cases h
  next hno =>
    simp only [Bool.or_eq_true, not_or, Bool.not_eq_true] at hno
    exact ⟨hno.2, linkImage_ok h⟩

@[simp] theorem State.placed_measure (s : State) (f : List Byte) (l : Linked) : (s.placed f l).measure = s.measure := by
  simp [State.placed, State.mapFirmware, State.sealBufs]

/-- A placement has changed memory, copies, the firmware's pages and virtual devices alone. -/
def PlacedRest (s t : State) : Prop :=
  { t with mem := s.mem, fibres := s.fibres, l0 := s.l0, shadows := s.shadows, icache := s.icache, poison := s.poison, vds := s.vds, firmMap := s.firmMap } = s

theorem PlacedRest.of_placing {s t : State} {m : Tab Byte} (h : Placing s t m) : PlacedRest s t :=
  (congrArg (fun u : State => { u with vds := s.vds, firmMap := s.firmMap }) h.rest :)

theorem PlacedRest.mapFirmware {s t : State} (h : PlacedRest s t) (m : Tab Nat) : PlacedRest s (t.mapFirmware m) := h

theorem PlacedRest.sealBufs {s t : State} (h : PlacedRest s t) (vd : Nat) (bufs : List (Nat × Nat)) : PlacedRest s (t.sealBufs vd bufs) := h

theorem State.mapFirmware_vd (s : State) (m : Tab Nat) {v : Nat} (h : v ≠ firmVd) : (s.mapFirmware m).vd v = s.vd v := State.vd_modVd_ne _ _ _ _ h

theorem State.sealBufs_vd (s : State) (vd : Nat) (bufs : List (Nat × Nat)) {v : Nat} (h : v ≠ vd) : (s.sealBufs vd bufs).vd v = s.vd v :=
  State.vd_modVd_ne _ _ _ _ h

/-- A firmware image has been placed where no cache holds data. -/
structure FirmwarePlaced (s : State) (f : List Byte) (l : Linked) (t : State) : Prop where
  rest   : PlacedRest s t
  mem    : t.mem = writeAll s.mem (sectWrites (firmSects f) l.cont)
  vds    : ∀ v, v ≠ firmVd → t.vd v = s.vd v
  map    : t.firmMap = firmLeaves f
  poison : s.poison = [] → t.poison = []

theorem State.placed_placed {s : State} (hs : NoCopies s) (f : List Byte) (l : Linked) : FirmwarePlaced s f l (s.placed f l) := by
  have h := Placing.writeSects hs (firmSects f) l.cont
  unfold State.placed
  generalize s.writeSects (firmSects f) l.cont = t at h
  refine ⟨((PlacedRest.of_placing h).mapFirmware _).sealBufs _ _, h.mem, fun v hv => ?_, rfl, h.poison⟩
  rw [State.sealBufs_vd _ _ _ hv, State.mapFirmware_vd _ _ hv]
  exact (congrArg (State.vd · v) h.rest :)

/-- An image that is placed, and started, runs. -/
theorem firmwareRuns_of_placed {s p : State} {f : List Byte} {l : Linked} (hp : FirmwarePlaced s f l p) (htidy : TidySections f) (hclash : pagesClash (firmPages f) = false)
    (hlink : LinkedWell f 0 l) : FirmwareRuns s f ((p.startFirmware f).report 0) := by
  have hsize := hlink.sizes htidy
  have hnext : p.nextWg = s.nextWg := (congrArg State.nextWg hp.rest :)
  have hcore : p.coreCount = s.coreCount := (congrArg State.coreCount hp.rest :)
  have hmem : (p.startFirmware f).mem = writeAll s.mem (sectWrites (firmSects f) l.cont) := (congrArg State.mem (p.startFirmware_starting f) :).trans hp.mem
  have hmap : (p.startFirmware f).firmMap = firmLeaves f := (congrArg State.firmMap (p.startFirmware_starting f) :).trans hp.map
  have hfib := p.startFirmware_fibre f
  have hplace := p.startFirmware_place f
  have himage := p.startFirmware_firmware f
  rw [hnext] at hfib hplace
  rw [hcore] at hplace
  generalize p.startFirmware f = t at *
  refine ⟨⟨himage, rfl⟩, hfib, hplace, fun hno x hx ha i hi => ?_, fun a h => ?_, fun x hx ha i hi => ?_⟩
  · obtain ⟨n, hn⟩ := List.mem_iff_getElem?.1 hx
    exact (congrArg (tget memDefault · _) hmem).trans ((firm_bytes htidy hsize s.mem hn ha hi).trans (hlink.contents hno hn hi))
  · exact (congrArg (tget memDefault · a) hmem).trans (firm_rest hsize s.mem h)
  · exact (congrArg (tget plainLeaf · _) hmap).trans (firmLeaves_sect hclash hx ha hi)

/-- What runs depends on nothing of the state before but the number of the workgroup, the core, and memory. -/
theorem firmwareRuns_congr {r s t : State} {f : List Byte} (hnext : r.nextWg = s.nextWg) (hcore : r.coreCount = s.coreCount) (hmem : r.mem = s.mem)
    (h : FirmwareRuns r f t) : FirmwareRuns s f t := by
  obtain ⟨himage, hfibre, hplace, hbytes, hrest, hattrs⟩ := h
  rw [hnext] at hfibre hplace
  rw [hcore] at hplace
  rw [hmem] at hrest
  exact ⟨himage, hfibre, hplace, hbytes, hrest, hattrs⟩

/-! The loader (R55, R56). -/

theorem State.stepping_eq (s : State) : s.stepping = field s.feature 4 4 := by
  simp [State.stepping, field, BitVec.extractLsb'_toNat, Nat.shiftRight_eq_div_pow]

/-- The status of the first seven steps for a firmware image. -/
def State.firmwareStatus (s : State) (f : List Byte) : Nat := checkImage true (fusedKeys s) true (field s.feature 4 4) f

theorem firmwareStatus_eq (s : State) (f : List Byte) : checkImage true s.trusted true s.stepping f = s.firmwareStatus f := by
  rw [State.stepping_eq]
  rfl

theorem loadFirmware_refused {s : State} {f : List Byte} (h : s.firmwareStatus f ≠ 0) : s.loadFirmware f = s.report (s.firmwareStatus f) := by
  unfold State.loadFirmware
  rw [firmwareStatus_eq]
  split
  next h0 => exact absurd h0 h
  · rfl

theorem loadFirmware_unplaced {s : State} {f : List Byte} (h : s.firmwareStatus f = 0) {e : Nat} (he : s.firmPlan f = .error e) : s.loadFirmware f = s.report e := by
  unfold State.loadFirmware
  rw [firmwareStatus_eq, h, placeFirmware_eq, he]
  rfl

theorem loadFirmware_placed {s : State} {f : List Byte} (h : s.firmwareStatus f = 0) {l : Linked} (hl : s.firmPlan f = .ok l) :
    s.loadFirmware f = ((s.placed f l).startFirmware f).report 0 := by
  unfold State.loadFirmware
  rw [firmwareStatus_eq, h, placeFirmware_eq, hl]
  rfl

/-- The three things that a load can be. -/
theorem loadFirmware_cases (s : State) (f : List Byte) :
    (s.firmwareStatus f ≠ 0 ∧ s.loadFirmware f = s.report (s.firmwareStatus f)) ∨
    (∃ e, s.firmwareStatus f = 0 ∧ s.firmPlan f = .error e ∧ s.loadFirmware f = s.report e) ∨
    ∃ l, s.firmwareStatus f = 0 ∧ s.firmPlan f = .ok l ∧ s.loadFirmware f = ((s.placed f l).startFirmware f).report 0 := by
  by_cases h : s.firmwareStatus f = 0
  · cases hp : s.firmPlan f with
    | error e => exact .inr (.inl ⟨e, h, rfl, loadFirmware_unplaced h hp⟩)
    | ok l => exact .inr (.inr ⟨l, h, rfl, loadFirmware_placed h hp⟩)
  · exact .inl ⟨h, loadFirmware_refused h⟩

theorem State.loadFirmware_measure (s : State) (f : List Byte) : (s.loadFirmware f).measure = s.measure := by
  rcases loadFirmware_cases s f with ⟨-, h⟩ | ⟨e, -, -, h⟩ | ⟨l, -, -, h⟩
  · rw [h]; rfl
  · rw [h]; rfl
  · rw [h]
    exact (congrArg State.measure ((s.placed f l).startFirmware_starting f) :).trans (s.placed_measure f l)

end Sys2Proof.Machine
end

section
/-! SUPPORT. The proofs of the scope: power-on, and images of firmware (R10, R38, R55, R56, R462). -/

namespace Sys2Proof.Machine

theorem State.extend_measure_self (s : State) (n : Nat) (f : List Byte) : tget 0 (s.extend n f).measure n = extended (tget 0 s.measure n) f := tget_tput_self _ _ _ _

theorem State.extend_measure_ne (s : State) {n m : Nat} (f : List Byte) (h : m ≠ n) : tget 0 (s.extend n f).measure m = tget 0 s.measure m := tget_tput_ne _ _ _ _ _ h

/-- The placement fails with the error of its plan, and succeeds where the plan does. -/
theorem placeFirmware_error {s : State} {f : List Byte} {e : Nat} : s.placeFirmware f = .error e ↔ s.firmPlan f = .error e := by
  rw [placeFirmware_eq]
  cases s.firmPlan f <;> simp [Except.map]

theorem placeFirmware_isOk {s : State} {f : List Byte} : (∃ u, s.placeFirmware f = .ok u) ↔ ∃ l, s.firmPlan f = .ok l := by
  rw [placeFirmware_eq]
  cases s.firmPlan f <;> simp [Except.map]

/-- An image that is placed and started runs, and the firmware before it is killed. -/
theorem firmware_started {s p : State} {f : List Byte} {l : Linked} (hp : FirmwarePlaced s f l p) (hst : s.firmwareStatus f = 0) (hl : s.firmPlan f = .ok l) :
    FirmwareRuns s f ((p.startFirmware f).report 0) ∧
      ∀ w, (s.wg w).core = s.coreCount → w ≠ s.nextWg → (s.wg w).life ≠ .ended → (((p.startFirmware f).report 0).wg w).life = .killed := by
  obtain ⟨hclash, hlink⟩ := firmPlan_ok hl
  refine ⟨firmwareRuns_of_placed hp (tidySections_of_layoutOk (layoutOk_of_checkImage hst)) hclash hlink, fun w hcore hne hlife => ?_⟩
  have hwg : p.wg w = s.wg w := (congrArg (State.wg · w) hp.rest :)
  have hcount : p.coreCount = s.coreCount := (congrArg State.coreCount hp.rest :)
  have hnext : p.nextWg = s.nextWg := (congrArg State.nextWg hp.rest :)
  exact p.startFirmware_killed f (by rw [hwg, hcount, hcore]) (by rw [hnext]; exact hne) (by rw [hwg]; exact hlife)

/-- What a load of firmware has done: the register is extended, a refused image leaves the rest, and its status is reported. -/
theorem firmwareLoad (s : State) (f : List Byte) :
    let st := checkImage true (fusedKeys s) true (field s.feature 4 4) f
    let ok : Prop := st = 0 ∧ ∃ u, s.placeFirmware f = .ok u
    ∃ t, exec (.firmwareImageLoad f) s = .next t ∧ tget 0 t.measure 1 = extended (tget 0 s.measure 1) f ∧ (∀ n, n ≠ 1 → tget 0 t.measure n = tget 0 s.measure n) ∧
      (¬ ok → { t with measure := s.measure, loadStatus := s.loadStatus } = s) ∧ (st ≠ 0 → t.loadStatus = st) ∧ (∀ e, st = 0 → s.placeFirmware f = .error e → t.loadStatus = e) ∧
      (ok → s.cc = [] → s.ucopies = [] → s.drains = [] → FirmwareRuns s f t ∧ ∀ w, (s.wg w).core = s.coreCount → w ≠ s.nextWg → (s.wg w).life ≠ .ended → (t.wg w).life = .killed) := by
  have hplan : (s.extend 1 f).firmPlan f = s.firmPlan f := firmPlan_congr f rfl
  have hstatus : (s.extend 1 f).firmwareStatus f = s.firmwareStatus f := rfl
  have hmeasure := (s.extend 1 f).loadFirmware_measure f
  refine ⟨(s.extend 1 f).loadFirmware f, rfl, ?_, fun n hn => ?_, ?_⟩
  · rw [hmeasure, State.extend_measure_self]
  · rw [hmeasure, State.extend_measure_ne s f hn]
  show (¬ (s.firmwareStatus f = 0 ∧ _) → _) ∧ (s.firmwareStatus f ≠ 0 → _ = s.firmwareStatus f) ∧ (∀ e, s.firmwareStatus f = 0 → _) ∧ (s.firmwareStatus f = 0 ∧ _ → _)
  rw [placeFirmware_isOk]
  simp only [placeFirmware_error, ← hplan, ← hstatus]
  rcases loadFirmware_cases (s.extend 1 f) f with ⟨hst, h⟩ | ⟨e, hst, he, h⟩ | ⟨l, hst, hl, h⟩
  · rw [h]
    exact ⟨fun _ => rfl, fun _ => rfl, fun _ h0 => absurd h0 hst, fun hok => absurd hok.1 hst⟩
  · rw [h]
    refine ⟨fun _ => rfl, fun h0 => absurd hst h0, fun e' _ he' => Except.error.inj (he.symm.trans he'), fun ⟨_, l, hl⟩ => ?_⟩
    rw [he] at hl
    cases hl
  · rw [h]
    refine ⟨fun hno => absurd ⟨hst, l, hl⟩ hno, fun h0 => absurd hst h0, fun e' _ he' => ?_, fun _ hc hu hd => ?_⟩
    · rw [hl] at he'
      cases he'
    · have hp := State.placed_placed (s := s.extend 1 f) ⟨hc, hu, hd⟩ f l
      generalize (s.extend 1 f).placed f l = p at *
      obtain ⟨hruns, hkilled⟩ := firmware_started hp hst hl
      exact ⟨firmwareRuns_congr (r := s.extend 1 f) rfl rfl rfl hruns, hkilled⟩

/-! Power-on (R10, R462). -/

/-- The package at its reset values, with what is fused and what stands outside it, before the ROM reads an image. -/
def State.rebooted (s : State) : State :=
  { State.reset with
    agenda := s.agenda, evictions := s.evictions, free := s.free, dt := s.dt, redInU := s.redInU, feature := s.feature, hostMem := s.hostMem,
    peerMem := s.peerMem, clusterMap := s.clusterMap, fuseKeys := s.fuseKeys, keys := s.keys }

/-- What the ROM does with an image: it measures it and loads it, and firmware that runs sets up the tables of R312. -/
def State.booted (s : State) (image : List Byte) : State :=
  let t := (s.rebooted.extend 0 image).loadFirmware image
  if t.firmware.isSome then { t with damask := { t.damask with ready := true } } else t

theorem exec_powerOnReset (image : List Byte) (s : State) : exec (.powerOnReset image) s = .next (s.booted image) := rfl

theorem State.booted_refused {s : State} {image : List Byte} {e : Nat} (h : (s.rebooted.extend 0 image).loadFirmware image = (s.rebooted.extend 0 image).report e) :
    s.booted image = (s.rebooted.extend 0 image).report e := by
  unfold State.booted
  rw [h]
  rfl

theorem State.booted_started {s p : State} {image : List Byte} (h : (s.rebooted.extend 0 image).loadFirmware image = (p.startFirmware image).report 0) :
    s.booted image = { (p.startFirmware image).report 0 with damask := { (p.startFirmware image).damask with ready := true } } := by
  have hsome : ((p.startFirmware image).report 0).firmware.isSome = true := congrArg Option.isSome (p.startFirmware_firmware image)
  unfold State.booted
  rw [h]
  exact if_pos hsome

/-- What a power-on reset leaves, whether firmware runs after it or not. -/
structure FreshPackage (s t : State) : Prop where
  vds   : ∀ v, v < 64 → t.vd v = Vd.empty
  empty : t.grids = [] ∧ t.cmds = [] ∧ t.l2 = [] ∧ t.cc = [] ∧ t.tlb = [] ∧ t.clock = 0 ∧ t.banks = [] ∧ t.ports = [] ∧ t.poison = []
  kept  : t.hostMem = s.hostMem ∧ t.peerMem = s.peerMem ∧ t.feature = s.feature ∧ t.fuseKeys = s.fuseKeys

theorem freshPackage_refused (s : State) (image : List Byte) (e : Nat) : FreshPackage s ((s.rebooted.extend 0 image).report e) :=
  ⟨fun _ _ => rfl, ⟨rfl, rfl, rfl, rfl, rfl, rfl, rfl, rfl, rfl⟩, ⟨rfl, rfl, rfl, rfl⟩⟩

/-- What a placement and a start leave of the fields that a fresh package is about. -/
theorem freshPackage_started {s r p : State} {image : List Byte} {l : Linked} (hr : FreshPackage s r) (hwgs : r.wgs = []) (hp : FirmwarePlaced r image l p) :
    FreshPackage s (p.startFirmware image) := by
  have hs := p.startFirmware_starting image
  have hpw : p.wgs = [] := (congrArg State.wgs hp.rest :).trans hwgs
  obtain ⟨hvds, hbanks⟩ := p.startFirmware_fresh image hpw
  obtain ⟨hv, ⟨h1, h2, h3, h4, h5, h6, h7, h8, h9⟩, ⟨k1, k2, k3, k4⟩⟩ := hr
  generalize p.startFirmware image = t at *
  refine ⟨fun v hlt => ?_, ⟨?_, ?_, ?_, ?_, ?_, ?_, ?_, ?_, ?_⟩, ?_, ?_, ?_, ?_⟩
  · exact (congrArg (tget Vd.empty · v) hvds).trans ((hp.vds v (Nat.ne_of_lt hlt)).trans (hv v hlt))
  · exact (congrArg State.grids hs :).trans ((congrArg State.grids hp.rest :).trans h1)
  · exact (congrArg State.cmds hs :).trans ((congrArg State.cmds hp.rest :).trans h2)
  · exact (congrArg State.l2 hs :).trans ((congrArg State.l2 hp.rest :).trans h3)
  · exact (congrArg State.cc hs :).trans ((congrArg State.cc hp.rest :).trans h4)
  · exact (congrArg State.tlb hs :).trans ((congrArg State.tlb hp.rest :).trans h5)
  · exact (congrArg State.clock hs :).trans ((congrArg State.clock hp.rest :).trans h6)
  · exact hbanks.trans ((congrArg State.banks hp.rest :).trans h7)
  · exact (congrArg State.ports hs :).trans ((congrArg State.ports hp.rest :).trans h8)
  · exact (congrArg State.poison hs :).trans (hp.poison h9)
  · exact (congrArg State.hostMem hs :).trans ((congrArg State.hostMem hp.rest :).trans k1)
  · exact (congrArg State.peerMem hs :).trans ((congrArg State.peerMem hp.rest :).trans k2)
  · exact (congrArg State.feature hs :).trans ((congrArg State.feature hp.rest :).trans k3)
  · exact (congrArg State.fuseKeys hs :).trans ((congrArg State.fuseKeys hp.rest :).trans k4)

/-- The tables of R312 are of no account for what runs, nor for what is fresh. -/
theorem firmwareRuns_damask {s t : State} {f : List Byte} (h : FirmwareRuns s f t) (d : Damask) : FirmwareRuns s f { t with damask := d } :=
  ⟨h.image, h.fibre, h.place, h.bytes, h.rest, h.attrs⟩

theorem freshPackage_ready {s t : State} (h : FreshPackage s t) (d : Damask) : FreshPackage s { t.report 0 with damask := d } := ⟨h.vds, h.empty, h.kept⟩

theorem State.booted_measure (s : State) (image : List Byte) : (s.booted image).measure = (s.rebooted.extend 0 image).measure := by
  unfold State.booted
  dsimp only
  split <;> exact State.loadFirmware_measure _ _

/-- The ROM's image is accepted and can be placed, or it is not. -/
theorem booted_fresh (s : State) (image : List Byte) : FreshPackage s (s.booted image) := by
  have hr := freshPackage_refused s image 0
  rcases loadFirmware_cases (s.rebooted.extend 0 image) image with ⟨-, h⟩ | ⟨e, -, -, h⟩ | ⟨l, -, -, h⟩
  · rw [State.booted_refused h]
    exact freshPackage_refused s image _
  · rw [State.booted_refused h]
    exact freshPackage_refused s image _
  · rw [State.booted_started h]
    exact freshPackage_ready (freshPackage_started (r := s.rebooted.extend 0 image) ⟨hr.vds, hr.empty, hr.kept⟩ rfl (State.placed_placed ⟨rfl, rfl, rfl⟩ image l)) _

/-- Whether the firmware runs after a power-on reset. -/
theorem booted_firmware (s : State) (image : List Byte) :
    let st := checkImage true (fusedKeys s) true (field s.feature 4 4) image
    let ok : Prop := st = 0 ∧ ∃ u, State.reset.placeFirmware image = .ok u
    let t := s.booted image
    (¬ ok → t.firmware = none ∧ t.fibres = [] ∧ t.wgs = [] ∧ t.mem = [] ∧ t.damask = State.reset.damask) ∧ (st ≠ 0 → t.loadStatus = st) ∧
      (ok → FirmwareRuns { State.reset with feature := s.feature } image t ∧ t.damask = { State.reset.damask with ready := true }) := by
  have hplan : (s.rebooted.extend 0 image).firmPlan image = State.reset.firmPlan image := firmPlan_congr image rfl
  have hstatus : (s.rebooted.extend 0 image).firmwareStatus image = s.firmwareStatus image := rfl
  show (¬ (s.firmwareStatus image = 0 ∧ _) → _) ∧ (s.firmwareStatus image ≠ 0 → _ = s.firmwareStatus image) ∧ (s.firmwareStatus image = 0 ∧ _ → _)
  rw [placeFirmware_isOk, ← hplan, ← hstatus]
  rcases loadFirmware_cases (s.rebooted.extend 0 image) image with ⟨hst, h⟩ | ⟨e, hst, he, h⟩ | ⟨l, hst, hl, h⟩
  · rw [State.booted_refused h]
    exact ⟨fun _ => ⟨rfl, rfl, rfl, rfl, rfl⟩, fun _ => rfl, fun hok => absurd hok.1 hst⟩
  · rw [State.booted_refused h]
    refine ⟨fun _ => ⟨rfl, rfl, rfl, rfl, rfl⟩, fun h0 => absurd hst h0, fun ⟨_, l, hl⟩ => ?_⟩
    rw [he] at hl
    cases hl
  · rw [State.booted_started h]
    refine ⟨fun hno => absurd ⟨hst, l, hl⟩ hno, fun h0 => absurd hst h0, fun _ => ?_⟩
    have hp := State.placed_placed (s := s.rebooted.extend 0 image) ⟨rfl, rfl, rfl⟩ image l
    generalize (s.rebooted.extend 0 image).placed image l = p at *
    have hdamask : (p.startFirmware image).damask = State.reset.damask := (congrArg State.damask (p.startFirmware_starting image) :).trans (congrArg State.damask hp.rest :)
    refine ⟨?_, ?_⟩
    · have hruns : FirmwareRuns { State.reset with feature := s.feature } image ((p.startFirmware image).report 0) :=
        firmwareRuns_congr (r := s.rebooted.extend 0 image) rfl rfl rfl (firmware_started hp hst hl).1
      exact firmwareRuns_damask hruns _
    · rw [hdamask]

/-- R10, R38, R55, R56, R462. -/
theorem bootAndFirmware : bootAndFirmwareRule := by
  refine ⟨fun s image => ?_, firmwareLoad⟩
  obtain ⟨hvds, ⟨h1, h2, h3, h4, h5, h6, h7, h8, h9⟩, ⟨k1, k2, k3, k4⟩⟩ := booted_fresh s image
  have hmeasure := s.booted_measure image
  refine ⟨s.booted image, exec_powerOnReset image s, hvds, h1, h2, h3, h4, h5, h6, h7, h8, h9, k1, k2, k3, k4, ?_, fun n hn => ?_, booted_firmware s image⟩
  · rw [hmeasure, State.extend_measure_self]
    rfl
  · rw [hmeasure, State.extend_measure_ne _ _ hn]
    rfl

end Sys2Proof.Machine
end

section
/-! SUPPORT. The proofs of the scope: images of the driver loader, attestation and telemetry (R55 to R57, R463). -/

namespace Sys2Proof.Machine

/-! Mapping an image changes memory alone (R56, R300). -/

def OnlyMem (s t : State) : Prop := { t with mem := s.mem } = s

theorem OnlyMem.trans {s t u : State} (h : OnlyMem s t) (g : OnlyMem t u) : OnlyMem s u := by
  unfold OnlyMem at *
  rw [← g] at h
  exact h

theorem OnlyMem.refl (s : State) : OnlyMem s s := rfl

theorem OnlyMem.writeMem {s t : State} (h : OnlyMem s t) (a : Nat) (bs : List Byte) : OnlyMem s (t.writeMem a bs) := h

theorem State.mapPage_go_onlyMem {va leaf n node : Nat} {s : State} {spare : List Nat} {t : State × List Nat} (ht : State.mapPage.go va leaf n node s spare = some t) :
    OnlyMem s t.1 := by
  induction n generalizing node s spare with
  | zero =>
    simp only [State.mapPage.go] at ht
    split at ht
    · cases ht
    · obtain rfl := Option.some.inj ht
      rfl
  | succ n ih =>
    unfold State.mapPage.go at ht
    dsimp only at ht
    split at ht
    · split at ht
      · cases ht
      · exact ih ht
    · split at ht
      · cases ht
      · exact OnlyMem.trans (((OnlyMem.refl s).writeMem _ _).writeMem _ _) (ih ht)

theorem State.mapAll_onlyMem {s t : State} {root : Nat} {pages : List (Nat × Nat × Nat)} {spare : List Nat} (ht : s.mapAll root pages spare = some t) : OnlyMem s t := by
  induction pages generalizing s spare with
  | nil =>
    obtain rfl := Option.some.inj ht
    rfl
  | cons p l ih =>
    obtain ⟨va, pa, bits⟩ := p
    unfold State.mapAll at ht
    split at ht
    next u sp hp => exact OnlyMem.trans (State.mapPage_go_onlyMem hp) (ih ht)
    · cases ht

/-! DRIVER_IMAGE_LOAD (R56). -/

/-- The number of an image is above every number that is there. -/
theorem lt_nextImage (l : List Image) {x : Image} (hx : x ∈ l) : x.id < l.foldl (fun m i => max m i.id) 0 + 1 := by
  have hle : ∀ (l : List Image) (m : Nat), m ≤ l.foldl (fun m i => max m i.id) m ∧ ∀ x ∈ l, x.id ≤ l.foldl (fun m i => max m i.id) m := by
    intro l
    induction l with
    | nil => exact fun m => ⟨Nat.le_refl m, by simp⟩
    | cons y l ih =>
      intro m
      obtain ⟨hm, hl⟩ := ih (max m y.id)
      refine ⟨Nat.le_trans (Nat.le_max_left _ _) hm, fun x hx => ?_⟩
      rcases List.mem_cons.1 hx with rfl | hx
      · exact Nat.le_trans (Nat.le_max_right _ _) hm
      · exact hl x hx
  exact Nat.lt_succ_of_le ((hle l 0).2 x hx)

/-- What loading an image leaves as it was. -/
def Loading (s t : State) : Prop :=
  { t with mem := s.mem, vds := s.vds, shadows := s.shadows, icache := s.icache, poison := s.poison, loadStatus := s.loadStatus } = s

/-- Where level 0 holds nothing either, a placement changes no fibre. -/
theorem Loading.of_placing {s t : State} {m : Tab Byte} (h : Placing s t m) (hl0 : s.l0 = []) : Loading s t := by
  obtain ⟨htl0, hfib⟩ := h.fibres hl0
  have hrest := h.rest
  rw [← hfib, hl0, ← htl0] at hrest
  exact (congrArg (fun u : State => { u with vds := s.vds, loadStatus := s.loadStatus }) hrest :)

theorem Loading.onlyMem {s t u : State} (h : Loading s t) (g : OnlyMem t u) : Loading s u := by
  unfold Loading OnlyMem at *
  rw [← g] at h
  exact h

theorem Loading.sealBufs {s t : State} (h : Loading s t) (vd : Nat) (bufs : List (Nat × Nat)) : Loading s (t.sealBufs vd bufs) := h

theorem Loading.modVd {s t : State} (h : Loading s t) (vd : Nat) (g : Vd → Vd) : Loading s (t.modVd vd g) := h

theorem Loading.report {s t : State} (h : Loading s t) (e : Nat) : Loading s (t.report e) := h

/-- The sealed buffer that a data object of SEALED becomes. -/
def sealOf (b : Nat × Nat) : Seal := { va := b.1, len := b.2, ending := false, readers := [] }

/-- What a successful load has done: it has linked, placed and mapped the image, sealed its buffers and listed it. -/
theorem loadImage_ok {s u : State} {vd : Nat} {f : List Byte} {choice : List Nat} (h : s.loadImage vd f choice = .ok u) :
    ∃ ps l root pages nodes t img, LinkedWell f (s.vd vd).seals.length l ∧ (s.writeSects ps l.cont).mapAll root pages nodes = some t ∧
      (∀ x ∈ (t.vd vd).images, x.id < img.id) ∧ u = (t.sealBufs vd l.bufs).modVd vd (fun v => { v with images := v.images ++ [img] }) := by
  unfold State.loadImage at h
  dsimp only at h
  split at h
  · cases h
  · split at h
    · cases h
    next l hl =>
      split at h
      · cases h
      next t ht => exact ⟨_, l, _, _, _, t, _, linkImage_ok hl, ht, fun x hx => lt_nextImage _ hx, (Except.ok.inj h).symm⟩

/-- A load that succeeds lists the image in its virtual device, with its seals, where no cache holds data. -/
theorem driverLoad_listed {s u : State} {vd : Nat} {f : List Byte} {choice : List Nat} (h : s.loadImage vd f choice = .ok u) (hs : NoCopies s) (hl0 : s.l0 = []) :
    Loading s u ∧ (∀ j, j ≠ vd → u.vd j = s.vd j) ∧
      ∃ img bufs, u.vd vd = { s.vd vd with images := (s.vd vd).images ++ [img], seals := (s.vd vd).seals ++ bufs } ∧ (∀ x ∈ (s.vd vd).images, x.id < img.id) ∧
        (s.vd vd).seals.length + bufs.length ≤ 4096 ∧ ∀ b ∈ bufs, b.va % 256 = 0 ∧ b.len % 32 = 0 ∧ b.ending = false := by
  obtain ⟨ps, l, root, pages, nodes, t, img, hlink, hmap, himg, rfl⟩ := loadImage_ok h
  have hp := Placing.writeSects hs ps l.cont
  have ht : Loading s t := (Loading.of_placing hp hl0).onlyMem (State.mapAll_onlyMem hmap)
  have hvd : ∀ j, t.vd j = s.vd j := fun j =>
    (congrArg (State.vd · j) (State.mapAll_onlyMem hmap) :).trans (congrArg (State.vd · j) hp.rest :)
  refine ⟨(ht.sealBufs _ _).modVd _ _, fun j hj => ?_, img, l.bufs.map sealOf, ?_, fun x hx => himg x (by rwa [hvd]), ?_, fun b hb => ?_⟩
  · rw [State.vd_modVd_ne _ _ _ _ hj, State.sealBufs_vd _ _ _ hj, hvd]
  · rw [State.vd_modVd_self, State.sealBufs, State.vd_modVd_self, hvd]
    rfl
  · rw [List.length_map]
    exact hlink.count
  · obtain ⟨c, hc, rfl⟩ := List.mem_map.1 hb
    obtain ⟨hva, hlen⟩ := hlink.bufs c hc
    exact ⟨hva, hlen, rfl⟩

/-- The status of the first seven steps for a driver image. -/
def State.driverStatus (s : State) (vd : Nat) (f : List Byte) : Nat := checkImage false (s.vd vd).keys (s.vd vd).cfg.signed (field s.feature 4 4) f

theorem exec_driverImageLoad_off {s : State} {vd : Nat} (f : List Byte) (place : List Nat) (h : (s.vd vd).enabled = false) :
    exec (.driverImageLoad vd f place) s = .next s := if_pos (by simp [h])

theorem driverStatus_eq (s : State) (vd : Nat) (f : List Byte) : checkImage false (s.vd vd).keys (s.vd vd).cfg.signed s.stepping f = s.driverStatus vd f := by
  rw [State.stepping_eq]
  rfl

theorem exec_driverImageLoad_refused {s : State} {vd : Nat} {f : List Byte} (place : List Nat) (hon : (s.vd vd).enabled = true) (hst : s.driverStatus vd f ≠ 0) :
    exec (.driverImageLoad vd f place) s = .next (s.report (s.driverStatus vd f)) := by
  show execDriverImageLoad vd f place s = _
  unfold execDriverImageLoad
  rw [if_neg (by simp [hon]), driverStatus_eq]
  split
  next h0 => exact absurd h0 hst
  · rfl

theorem exec_driverImageLoad_unplaced {s : State} {vd : Nat} {f : List Byte} {place : List Nat} {e : Nat} (hon : (s.vd vd).enabled = true) (hst : s.driverStatus vd f = 0)
    (he : s.loadImage vd f place = .error e) : exec (.driverImageLoad vd f place) s = .next (s.report e) := by
  show execDriverImageLoad vd f place s = _
  unfold execDriverImageLoad
  rw [if_neg (by simp [hon]), driverStatus_eq, hst, he]
  rfl

theorem exec_driverImageLoad_placed {s u : State} {vd : Nat} {f : List Byte} {place : List Nat} (hon : (s.vd vd).enabled = true) (hst : s.driverStatus vd f = 0)
    (hu : s.loadImage vd f place = .ok u) : exec (.driverImageLoad vd f place) s = .next (u.report 0) := by
  show execDriverImageLoad vd f place s = _
  unfold execDriverImageLoad
  rw [if_neg (by simp [hon]), driverStatus_eq, hst, hu]
  rfl

/-- R56: what a load does, by the check that fails, if one does. -/
theorem driverLoad (s : State) (vd : Nat) (file : List Byte) (place : List Nat) :
    let v := s.vd vd
    let st := checkImage false v.keys v.cfg.signed (field s.feature 4 4) file
    let i := Instr.driverImageLoad vd file place
    (v.enabled = false → exec i s = .next s) ∧
    (v.enabled = true → st ≠ 0 → exec i s = .next { s with loadStatus := st }) ∧
    (∀ e, v.enabled = true → st = 0 → s.loadImage vd file place = .error e → exec i s = .next { s with loadStatus := e }) ∧
    (∀ u, v.enabled = true → st = 0 → s.loadImage vd file place = .ok u → s.cc = [] → s.l0 = [] → s.ucopies = [] → s.drains = [] → ∃ t, exec i s = .next t ∧ t.loadStatus = 0 ∧
      { t with mem := s.mem, vds := s.vds, shadows := s.shadows, icache := s.icache, poison := s.poison, loadStatus := s.loadStatus } = s ∧ (∀ j, j ≠ vd → t.vd j = s.vd j) ∧
      ∃ img bufs, (t.vd vd) = { v with images := v.images ++ [img], seals := v.seals ++ bufs } ∧ (∀ x ∈ v.images, x.id < img.id) ∧ v.seals.length + bufs.length ≤ 4096 ∧
        (∀ b ∈ bufs, b.va % 256 = 0 ∧ b.len % 32 = 0 ∧ b.ending = false)) := by
  refine ⟨exec_driverImageLoad_off file place, exec_driverImageLoad_refused place, fun e hon hst he => exec_driverImageLoad_unplaced hon hst he,
    fun u hon hst hu hc hl0 huc hd => ?_⟩
  obtain ⟨hrest, hvd, himg⟩ := driverLoad_listed hu ⟨hc, huc, hd⟩ hl0
  exact ⟨u.report 0, exec_driverImageLoad_placed hon hst hu, rfl, hrest.report 0, hvd, himg⟩

/-! IMAGE_UNLOAD (R57). -/

/-- A grid of an image is admitted or running. -/
theorem imageBusy_iff (s : State) (vd : Nat) (img : Image) :
    s.imageBusy vd img = true ↔ ∃ e ∈ s.grids, e.1 / 2 ^ 32 = vd ∧ (e.2.st = .admitted ∨ e.2.st = .running) ∧ e.2.desc ∈ img.descs := by
  simp [State.imageBusy, and_assoc]

/-- The leaf of a page of an unloaded image is cleared, where there is one. -/
def State.clearLeaf (s : State) (vd : Nat) (g : Nat × Nat) : State :=
  match s.level1At vd g.1 with
  | some a =>
    let e := s.nodeEntry 0 a
    if e.getLsbD 0 && !e.getLsbD 1 then s.writeMem (pteAddr e + g.1 / 4096 % 512 * 8) (List.replicate 8 0) else s
  | none => s

/-- A page of an unloaded image is mapped and translated no more. -/
def State.unmapSpan (vd : Nat) (s : State) (g : Nat × Nat) : State := (s.clearLeaf vd g).dropXlate vd g.1 g.2

/-- What is left of a virtual device's images and seals. -/
def Vd.withoutImage (v : Vd) (id : Nat) (img : Image) : Vd :=
  { v with images := v.images.filter (fun x => x.id != id), seals := v.seals.filter (fun x => !img.spans.any (fun g => g.1 ≤ x.va && x.va < g.1 + g.2)) }

theorem exec_imageUnload_none {s : State} {vd id : Nat} (h : (s.vd vd).images.find? (fun x => x.id = id) = none) : exec (.imageUnload vd id) s = .next s := by
  show execImageUnload vd id s = _
  unfold execImageUnload
  rw [h]

theorem exec_imageUnload_busy {s : State} {vd id : Nat} {img : Image} (h : (s.vd vd).images.find? (fun x => x.id = id) = some img) (hb : s.imageBusy vd img = true) :
    exec (.imageUnload vd id) s = .next (s.report 14) := by
  show execImageUnload vd id s = _
  unfold execImageUnload
  rw [h]
  exact if_pos hb

theorem exec_imageUnload_idle {s : State} {vd id : Nat} {img : Image} (h : (s.vd vd).images.find? (fun x => x.id = id) = some img) (hb : ¬ s.imageBusy vd img = true) :
    exec (.imageUnload vd id) s = .next (((img.spans.foldl (State.unmapSpan vd) s).report 0).modVd vd (fun v => v.withoutImage id img)) := by
  show execImageUnload vd id s = _
  unfold execImageUnload
  rw [h]
  exact if_neg hb

/-- What unmapping leaves as it was. -/
def Unmapping (s t : State) : Prop := { t with mem := s.mem, tlb := s.tlb, walks := s.walks } = s

theorem State.clearLeaf_onlyMem (s : State) (vd : Nat) (g : Nat × Nat) : OnlyMem s (s.clearLeaf vd g) := by
  unfold State.clearLeaf
  split
  · dsimp only
    split <;> rfl
  · rfl

theorem Unmapping.unmapSpan {s t : State} (h : Unmapping s t) (vd : Nat) (g : Nat × Nat) : Unmapping s (State.unmapSpan vd t g) := by
  have hc := t.clearLeaf_onlyMem vd g
  unfold State.unmapSpan
  generalize t.clearLeaf vd g = u at hc
  unfold Unmapping at *
  unfold OnlyMem at hc
  rw [← hc] at h
  exact h

/-- No translation that meets a page of the image is left in its context. -/
theorem foldl_unmapSpan_tlb (vd : Nat) (spans : List (Nat × Nat)) (s : State) :
    ∀ e ∈ (spans.foldl (State.unmapSpan vd) s).tlb, e ∈ s.tlb ∧ (e.vd = vd → ∀ g ∈ spans, ¬ (e.va < g.1 + g.2 ∧ g.1 < e.va + e.size)) := by
  induction spans generalizing s with
  | nil => exact fun e he => ⟨he, fun _ g hg => by cases hg⟩
  | cons g l ih =>
    intro e he
    obtain ⟨hin, hrest⟩ := ih _ e he
    have htlb : (s.clearLeaf vd g).tlb = s.tlb := (congrArg State.tlb (s.clearLeaf_onlyMem vd g) :)
    obtain ⟨hmem, hkeep⟩ := List.mem_filter.1 hin
    rw [htlb] at hmem
    refine ⟨hmem, fun hvd g' hg' => ?_⟩
    rcases List.mem_cons.1 hg' with rfl | hg'
    · intro hmeets
      simp [hvd, hmeets] at hkeep
    · exact hrest hvd g' hg'

/-- R57: what an unload does. -/
theorem imageUnload (s : State) (vd id : Nat) :
    let v := s.vd vd
    let i := Instr.imageUnload vd id
    let busy (img : Image) : Prop := ∃ e ∈ s.grids, e.1 / 2 ^ 32 = vd ∧ (e.2.st = .admitted ∨ e.2.st = .running) ∧ e.2.desc ∈ img.descs
    ((∀ x ∈ v.images, x.id ≠ id) → exec i s = .next s) ∧
    (∀ img, v.images.find? (fun x => x.id = id) = some img → busy img → exec i s = .next { s with loadStatus := 14 }) ∧
    (∀ img, v.images.find? (fun x => x.id = id) = some img → ¬ busy img → ∃ t, exec i s = .next t ∧ t.loadStatus = 0 ∧
      { t with mem := s.mem, tlb := s.tlb, walks := s.walks, vds := s.vds, loadStatus := s.loadStatus } = s ∧
      (∀ x ∈ (t.vd vd).images, x.id ≠ id) ∧ (∀ x ∈ v.images, x.id ≠ id → x ∈ (t.vd vd).images) ∧
      (∀ e ∈ t.tlb, e.vd = vd → ∀ g ∈ img.spans, ¬ (e.va < g.1 + g.2 ∧ g.1 < e.va + e.size)) ∧
      ∀ x ∈ (t.vd vd).seals, ∀ g ∈ img.spans, ¬ (g.1 ≤ x.va ∧ x.va < g.1 + g.2)) := by
  refine ⟨fun hno => exec_imageUnload_none (List.find?_eq_none.2 (fun x hx => by simpa using hno x hx)),
    fun img himg hbusy => exec_imageUnload_busy himg ((imageBusy_iff s vd img).2 hbusy), fun img himg hidle => ?_⟩
  have hexec := exec_imageUnload_idle himg (fun hb => hidle ((imageBusy_iff s vd img).1 hb))
  have hrest : Unmapping s (img.spans.foldl (State.unmapSpan vd) s) := foldl_inv (fun t : State => Unmapping s t) _ (fun t g h => h.unmapSpan vd g) _ s rfl
  have htlb := foldl_unmapSpan_tlb vd img.spans s
  generalize img.spans.foldl (State.unmapSpan vd) s = t at *
  have hvd : ((t.report 0).modVd vd (fun v => v.withoutImage id img)).vd vd = (s.vd vd).withoutImage id img :=
    (State.vd_modVd_self _ _ _).trans (congrArg (fun v : Vd => v.withoutImage id img) (congrArg (State.vd · vd) hrest :))
  refine ⟨_, hexec, rfl, (congrArg (fun u : State => { u with vds := s.vds, loadStatus := s.loadStatus }) hrest :), fun x hx => ?_, fun x hx hne => ?_,
    fun e he => (htlb e he).2, fun x hx g hg hin => ?_⟩
  · rw [hvd] at hx
    simpa using (List.mem_filter.1 hx).2
  · rw [hvd]
    exact List.mem_filter.2 ⟨hx, by simpa using hne⟩
  · rw [hvd] at hx
    have hany := (List.mem_filter.1 hx).2
    have : img.spans.any (fun g => g.1 ≤ x.va && x.va < g.1 + g.2) = true := List.any_eq_true.2 ⟨g, hg, by simpa using hin⟩
    simp [this] at hany

/-- R55 to R57. -/
theorem driverImages : driverImagesRule := ⟨checkImage_firstFailure, driverLoad, imageUnload⟩

/-! Attestation and telemetry (R463). -/

/-- An answer of the responder changes the responder alone. -/
theorem answer_spdm (s : State) {stage kind : Nat} (bs : List Byte) (h : kind ≤ stage) :
    { s.answer stage kind bs with spdm := s.spdm } = s ∧ (s.answer stage kind bs).spdm.kind = kind ∧ (s.answer stage kind bs).spdm.answer = bs ∧
      kind ≤ (s.answer stage kind bs).spdm.stage := ⟨rfl, rfl, rfl, Nat.le_trans h (Nat.le_max_right _ _)⟩

/-- R463. -/
theorem attestationAndTelemetry : attestationAndTelemetryRule := by
  intro s nonce island
  refine ⟨⟨_, rfl, answer_spdm s _ (Nat.le_refl 1)⟩, ⟨_, rfl, answer_spdm s _ (Nat.le_refl 2)⟩, ⟨_, rfl, answer_spdm s _ (Nat.le_refl 3)⟩,
    ⟨_, rfl, answer_spdm s _ (Nat.le_refl 4)⟩, ⟨_, rfl, answer_spdm s _ (Nat.le_refl 5)⟩, ⟨_, rfl, answer_spdm s _ (Nat.le_refl 6)⟩,
    ⟨_, rfl, rfl, rfl⟩, ⟨_, rfl, rfl, rfl⟩, ⟨_, rfl, rfl, rfl⟩⟩

/-- Settles O52: boot and firmware, the driver's images, and attestation, each by its own rule. -/
theorem bootAndImages : Obligations.BootAndImages := ⟨bootAndFirmware, driverImages, attestationAndTelemetry⟩

end Sys2Proof.Machine
end

section
/-! SUPPORT. The proofs of the scope: reads of system registers (R30, R149, R425, R426). -/

namespace Sys2Proof.Machine

/-! What the word rdsr does where it reads nothing (R87). -/

section
variable (s : State) (f : FY)

theorem rdsr_unassigned (hn : sysLevels f.num.toNat = none) : exec (.rdsr f) s = .next (s.trapHere s.cur .illegalEncoding 0 0 0) := by
  show execRdsr f s = _
  simp [execRdsr, hn]

theorem rdsr_privilege (hn : sysLevels f.num.toNat ≠ none) (hr : (s.regUser s.cur).mayRead f.num.toNat = false) :
    exec (.rdsr f) s = .next (s.trapHere s.cur .privilege 0 0 0) := by
  show execRdsr f s = _
  simp [execRdsr, hn, hr]

theorem rdsr_idle (hr : (s.regUser s.cur).mayRead f.num.toNat = true) (ha : s.acts s.cur f.hd = 0) : exec (.rdsr f) s = .next (s.finish s.cur []) := by
  show execRdsr f s = _
  simp only [execRdsr, Option.isNone_iff_eq_none, RegUser.mayRead_levels hr, hr, if_pos ha, Bool.not_true, Bool.false_eq_true, if_false]

theorem rdsr_absent (hp : Plain s) (ha : s.acts s.cur f.hd ≠ 0) (hr : (s.regUser s.cur).mayRead f.num.toNat = true) (hu : s.sysAbsent f.num.toNat = true) :
    exec (.rdsr f) s = .next (s.trapHere s.cur .unitAbsent 0 0 0) := by
  show execRdsr f s = _
  simp only [execRdsr, Option.isNone_iff_eq_none, RegUser.mayRead_levels hr, hr, if_neg ha, State.pBadSrc_eq s _ hp, hu, Bool.not_true,
    Bool.false_eq_true, if_false, if_true]

end

/-- A fibre reads a register of the table where its level is at least the register's (R30). -/
theorem mayRead_row (s : State) (k : Nat) (r : Nat × Priv × Option Priv) (hr : r ∈ sysRows) :
    (s.regUser k).mayRead r.1 = decide (r.2.1.code ≤ (s.fib k).priv.code) := by
  simp only [RegUser.mayRead, sysLevels_row r hr]
  rfl

/-- The units that FEATURE may show absent are those of COLL_DONE, CPYZ_IN and CPYZ_OUT (R425). -/
theorem sysAbsent_coll (s : State) (h : s.feature.getLsbD 24 = false) : s.sysAbsent 0x172 = true := by
  simp only [State.sysAbsent, State.collPresent, h]
  rfl

theorem sysAbsent_cpyz (s : State) {n : Nat} (hn : n = 0x173 ∨ n = 0x174) (h : s.feature.getLsbD 25 = false) : s.sysAbsent n = true := by
  rcases hn with rfl | rfl <;>
    simp only [State.sysAbsent, State.cpyzPresent, h] <;>
    rfl

theorem sysAbsent_false (s : State) {n : Nat} (hcoll : n = 0x172 → s.feature.getLsbD 24 = true)
    (hcpyz : n = 0x173 ∨ n = 0x174 → s.feature.getLsbD 25 = true) : s.sysAbsent n = false := by
  by_cases h : n = 0x172
  · simp [State.sysAbsent, State.collPresent, h, hcoll h]
  · by_cases h' : n = 0x173 ∨ n = 0x174
    · simp [State.sysAbsent, State.cpyzPresent, h, hcpyz h']
    · simp [State.sysAbsent, h, not_or.1 h']

/-! What a read answers, and what it leaves alone (R149). -/

/-- A read of a register, XLATE_OUT apart, answers a value and touches no fibre and no slot. -/
theorem sysRead_answers (s : State) (u : RegUser) (n : Nat) (hn : n ≠ 0x201) :
    ∃ v t, s.sysRead u n = .ok (v, t) ∧ t.cur = s.cur ∧ t.fibres = s.fibres ∧ t.slots = s.slots := by
  unfold State.sysRead
  split
  · exact ⟨_, _, rfl, rfl, rfl, rfl⟩
  · exact ⟨_, _, rfl, rfl, rfl, rfl⟩
  · exact absurd rfl hn
  · exact ⟨_, _, rfl, rfl, rfl, rfl⟩
  · obtain ⟨t, hread, hrest, -⟩ := memEvent_reads s u
    exact ⟨_, t, congrArg Except.ok hread, (congrArg State.cur hrest :), (congrArg State.fibres hrest :), (congrArg State.slots hrest :)⟩
  · split <;> exact ⟨_, _, rfl, rfl, rfl, rfl⟩
  · split <;> exact ⟨_, _, rfl, rfl, rfl, rfl⟩
  · exact ⟨_, _, rfl, rfl, rfl, rfl⟩

/-- The registers of `plainReads` read as they stand, and a read leaves everything as it is. -/
theorem sysRead_plain (s : State) (k : Nat) : ∀ p ∈ plainReads, s.sysRead (s.regUser k) p.1 = .ok (p.2 s k, s) := by
  refine plainReads_places ?_ ?_ ?_ ?_ <;>
    simp only [vdReads, fibReads, damaskReads, otherReads, List.forall_mem_cons, List.not_mem_nil, false_imp_iff, implies_true, and_true] <;>
    and_intros <;> rfl

/-! The fields of the words that a read puts together (R168, R426). -/

theorem causeWord_fields (x : Frame) :
    field x.causeWord 0 5 = x.cause.toNat ∧ x.causeWord.getLsbD 5 = x.inh ∧ field x.causeWord 6 5 = x.lane.toNat ∧ field x.causeWord 16 16 = x.code.toNat := by
  have hcause := x.cause.isLt
  have hlane := x.lane.isLt
  have hcode := x.code.isLt
  have hinh : (if x.inh then 32 else 0) = 32 * x.inh.toNat := by cases x.inh <;> rfl
  have hbit := x.inh.toNat_le
  unfold Frame.causeWord
  rw [hinh, field_ofNat _ _ _ (by omega), field_ofNat _ _ _ (by omega), field_ofNat _ _ _ (by omega)]
  refine ⟨by omega, getLsbD_ofNat_eq _ _ _ (by decide) (by omega), by omega, by omega⟩

theorem entryWord_fields (x : Frame) :
    field x.entryWord 0 32 = x.mask.toNat ∧ field x.entryWord 32 24 = x.fp % 2 ^ 24 ∧ field x.entryWord 56 8 = x.bpri.toNat := by
  have hmask := x.mask.isLt
  have hbpri := x.bpri.isLt
  unfold Frame.entryWord
  rw [field_ofNat _ _ _ (by omega), field_ofNat _ _ _ (by omega), field_ofNat _ _ _ (by omega)]
  omega

theorem stackWord_fields (x : Fibre) (hmove : x.move < 4) :
    field x.stackWord 0 24 = x.lo % 2 ^ 24 ∧ field x.stackWord 48 2 = x.move ∧
      field x.stackWord 24 24 = (if x.move = 0 then x.entry.fp else x.moveFp) % 2 ^ 24 := by
  unfold Fibre.stackWord
  generalize (if x.move = 0 then x.entry.fp else x.moveFp) = fp
  rw [field_ofNat _ _ _ (by omega), field_ofNat _ _ _ (by omega), field_ofNat _ _ _ (by omega)]
  omega

/-- The limit of an occupancy register is its low field, whatever the count above it (R265). -/
theorem occupancy_limit (limit : W64) (count : Nat) : field (BitVec.ofNat 64 (limit.toNat % 2048 + 2 ^ 32 * count)) 0 11 = field limit 0 11 := by
  simp only [field, BitVec.toNat_ofNat]
  omega

/-- Every level reads a register of the level USER. -/
theorem mayRead_user (s : State) (k : Nat) (r : Nat × Priv × Option Priv) (hr : r ∈ sysRows) (hu : r.2.1 = .user) : (s.regUser k).mayRead r.1 = true :=
  (mayRead_row s k r hr).trans (decide_eq_true (hu ▸ Nat.zero_le _))

/-- Settles O35: the refusals in the order of `execRdsr`, and the values as `sysRead_plain` and the words above give them. -/
theorem registerReads : Obligations.RegisterReads := by
  intro s f hp n owes trap
  have hn : n = f.num.toNat := rfl
  clear_value n
  subst hn
  refine ⟨fun r hr hn hlevel hnone => ?_, fun htrap => ⟨fun hrows => ?_, fun r hr hn hlevel => ?_, fun hacts => ⟨fun hcoll habsent => ?_, fun hcpyz habsent => ?_⟩⟩,
    fun r hr hn ⟨hacts, hlevel⟩ hxlate hcoll hcpyz => ?_⟩
  · have hmay := (mayRead_row s s.cur r hr).trans (decide_eq_true hlevel)
    exact ⟨_, rdsr_idle s f (hn ▸ hmay) hnone, s.finish_quiet hp⟩
  · exact ⟨_, rdsr_unassigned s f (sysLevels_none _ hrows), s.trapHere_took _ _ _ _ htrap⟩
  · have hmay := (mayRead_row s s.cur r hr).trans (decide_eq_false (Nat.not_le.2 hlevel))
    have hrow : sysLevels f.num.toNat ≠ none := hn ▸ sysLevels_row r hr ▸ Option.some_ne_none _
    exact ⟨_, rdsr_privilege s f hrow (hn ▸ hmay), s.trapHere_took _ _ _ _ htrap⟩
  · have hmay := mayRead_user s s.cur (0x172, .user, none) (by decide) rfl
    exact ⟨_, rdsr_absent s f hp hacts (hcoll ▸ hmay) (hcoll ▸ sysAbsent_coll s habsent), s.trapHere_took _ _ _ _ htrap⟩
  · have hmay : (s.regUser s.cur).mayRead f.num.toNat = true := by
      rcases hcpyz with h | h
      · exact h ▸ mayRead_user s s.cur (0x173, .user, none) (by decide) rfl
      · exact h ▸ mayRead_user s s.cur (0x174, .user, none) (by decide) rfl
    exact ⟨_, rdsr_absent s f hp hacts hmay (sysAbsent_cpyz s hcpyz habsent), s.trapHere_took _ _ _ _ htrap⟩
  · have hmay : (s.regUser s.cur).mayRead f.num.toNat = true := hn ▸ (mayRead_row s s.cur r hr).trans (decide_eq_true hlevel)
    have hpresent := sysAbsent_false s hcoll hcpyz
    -- a read that leaves the state as it is, of a value that is known
    have hreads {m : Nat} {P : W64 → Prop} {v : W64} (hread : s.sysRead (s.regUser s.cur) m = .ok (v, s)) (hP : P v) (hm : f.num.toNat = m) : owes P :=
      ⟨_, v, rdsr_reads s f hp hacts hmay hpresent (hm ▸ hread), s.issue_owes f.hd _ _ _ hp, hP⟩
    refine ⟨?_, fun p hpl hpn => hreads (sysRead_plain s s.cur p hpl) rfl hpn.symm, hreads rfl rfl, hreads rfl (causeWord_fields s.me.trap),
      hreads rfl (entryWord_fields s.me.trap), fun hm hmove => hreads rfl (stackWord_fields s.me hmove) hm, hreads rfl rfl, hreads rfl rfl, hreads rfl rfl,
      hreads rfl (occupancy_limit _ _), hreads rfl (occupancy_limit _ _), hreads rfl rfl⟩
    obtain ⟨v, u, hread, hcur, hfibres, hslots⟩ := sysRead_answers s (s.regUser s.cur) f.num.toNat hxlate
    have hme : u.me = s.me := by simp only [State.me, State.fib, hcur, hfibres]
    have howes := (hcur ▸ u.issue_owes f.hd .other true [.sreg f.d.toNat v] (hp.of_eq hcur hfibres hslots)).pend
    rw [hme, show u.headed f.hd _ = s.newPend f.hd .other true [.sreg f.d.toNat v] none by simp only [State.newPend, State.headed, hme]] at howes
    exact ⟨_, v, rdsr_reads s f hp hacts hmay hpresent hread, howes⟩

end Sys2Proof.Machine
end

section
/-! SUPPORT. The proofs of the scope: what the caches and main memory leave unchanged while they serve an access, a write-back or a counter's add
(R255 to R261, R272, R317 to R324, R360, R395, R401). -/

namespace Sys2Proof.Machine

/-! A table whose values are all changed. -/

theorem tfind_mapValues {α β : Type} (t : Tab α) (g : Nat → α → β) (k : Nat) : tfind (t.map (fun e => (e.1, g e.1 e.2))) k = (tfind t k).map (g k) := by
  induction t with
  | nil => rfl
  | cons e t ih =>
    obtain ⟨a, v⟩ := e
    by_cases h : a = k
    · subst h
      simp [tfind]
    · simpa [tfind, h] using ih

theorem tget_mapValues {α β : Type} (d : α) (d' : β) (t : Tab α) (g : Nat → α → β) (k : Nat) (hd : g k d = d') :
    tget d' (t.map (fun e => (e.1, g e.1 e.2))) k = g k (tget d t k) := by
  unfold tget
  rw [tfind_mapValues]
  cases tfind t k with
  | none => exact hd.symm
  | some v => rfl

/-! The caches and the Damask layer work: prefetches are counted, and no fibre changes otherwise (R255, R266, R317). -/

/-- Caches, update-only copies and main memory have changed, and prefetches have been counted. -/
structure CacheWork (s t : State) : Prop where
  rest : { t with mem := s.mem, poison := s.poison, fibres := s.fibres, vds := s.vds, l0 := s.l0, cc := s.cc, l2 := s.l2, msc := s.msc, pmsc := s.pmsc,
                  parErr := s.parErr, ucopies := s.ucopies, books := s.books, shadows := s.shadows, damask := s.damask } = s
  fibs : ∀ k, (t.fib k).bare = (s.fib k).bare

namespace CacheWork

theorem refl (s : State) : CacheWork s s := ⟨rfl, fun _ => rfl⟩

theorem trans {s t u : State} (h : CacheWork s t) (g : CacheWork t u) : CacheWork s u := by
  refine ⟨?_, fun k => (g.fibs k).trans (h.fibs k)⟩
  have hrest := h.rest
  rw [← g.rest] at hrest
  exact hrest

theorem foldl {β : Type} {g : State → β → State} (hg : ∀ t x, CacheWork t (g t x)) (l : List β) (s : State) : CacheWork s (l.foldl g s) :=
  foldl_inv (fun t => CacheWork s t) g (fun t x h => h.trans (hg t x)) l s (refl s)

variable {s t : State} (h : CacheWork s t)
include h

theorem count {k : Nat} {g : Fibre → Fibre} (hg : (g (t.fib k)).bare = (t.fib k).bare) : CacheWork s (t.modFib k g) := by
  refine ⟨h.rest, fun j => ?_⟩
  by_cases hj : j = k
  · rw [hj, State.fib_modFib_self, hg]
    exact h.fibs k
  · rw [State.fib_modFib_ne _ _ _ _ hj]
    exact h.fibs j

theorem modVd (vd : Nat) (g : Vd → Vd) : CacheWork s (t.modVd vd g) := ⟨h.rest, h.fibs⟩

theorem setCc (cc : Tab Line) : CacheWork s { t with cc := cc } := ⟨h.rest, h.fibs⟩

theorem setDamask (d : Damask) : CacheWork s (t.setDamask d) := by
  unfold State.setDamask State.msix
  dsimp only
  split <;> exact ⟨h.rest, h.fibs⟩

theorem poisonLine (line : Nat) (a b : Bool) : CacheWork s (t.poisonLine line a b) := ⟨h.rest, h.fibs⟩

theorem dramRead (line : Nat) : CacheWork s (t.dramRead line) := by
  have hfail (e : W64) : CacheWork s ((t.poisonLine line true true).logEvent e) := (h.poisonLine line true true).setDamask _
  unfold State.dramRead
  dsimp only
  split
  · split
    · exact h
    · exact hfail _
  · split
    · exact h
    · split
      · exact h.poisonLine line _ _
      · exact (h.setDamask _).poisonLine line _ _
      · split
        · exact h
        · exact hfail _

theorem pfHit (pf : Option Nat) (flight : Bool) : CacheWork s (t.pfHit pf flight) := by
  cases pf with
  | none => exact h
  | some k =>
    unfold State.pfHit
    exact h.count (by cases flight <;> rfl)

theorem pfOut (pf : Option Nat) : CacheWork s (t.pfOut pf) := by
  cases pf with
  | none => exact h
  | some k =>
    unfold State.pfOut
    exact h.count rfl

theorem l2Fill (vd line : Nat) (pf : Option Nat) : CacheWork s (t.l2Fill vd line pf) := by
  unfold State.l2Fill
  split
  next x _ =>
    split
    · exact h
    · exact ⟨(h.pfHit x.pf x.flight).rest, (h.pfHit x.pf x.flight).fibs⟩
  · dsimp only
    split
    · exact ⟨h.rest, h.fibs⟩
    · exact ⟨(h.dramRead line).rest, (h.dramRead line).fibs⟩

theorem parityUpdate (line : Nat) : CacheWork s (t.parityUpdate line) := by
  unfold State.parityUpdate
  dsimp only
  split
  · exact ⟨h.rest, h.fibs⟩
  · exact h

theorem l2Dirty (vd line : Nat) : CacheWork s (t.l2Dirty vd line) := by
  have hfill := h.l2Fill vd line none
  unfold State.l2Dirty
  dsimp only
  split
  · exact ⟨hfill.rest, hfill.fibs⟩
  · exact ⟨(hfill.parityUpdate line).rest, (hfill.parityUpdate line).fibs⟩

theorem residueDrop (holder line : Nat) : CacheWork s (t.residueDrop holder line) := by
  unfold State.residueDrop
  split
  · exact h
  · exact ⟨h.rest, h.fibs⟩

theorem dropShadows (pa n : Nat) : CacheWork s (t.dropShadows pa n) := by
  unfold State.dropShadows
  split
  · exact h
  · exact ⟨h.rest, h.fibs⟩

theorem writeMem (a : Nat) (bs : List Byte) : CacheWork s (t.writeMem a bs) := ⟨h.rest, h.fibs⟩

theorem setElem (pa ty v : Nat) : CacheWork s (t.setElem pa ty v) := h.writeMem _ _

theorem shadowAdd (holder pa ty : Nat) (f : Fmt) (x : W32) : CacheWork s (t.shadowAdd holder pa ty f x) := by
  have hdrop := h.dropShadows pa (tyBytes ty)
  exact ⟨hdrop.rest, hdrop.fibs⟩

theorem updateElem (holder pa aop ty x : Nat) : CacheWork s (t.updateElem holder pa aop ty x) := by
  have hset (v : Nat) : CacheWork s ((t.dropShadows pa (tyBytes ty)).setElem pa ty v) := (h.dropShadows _ _).setElem _ _ _
  unfold State.updateElem
  split
  · split
    · exact h.shadowAdd _ _ _ _ _
    · exact hset _
  · exact hset _

theorem foldPart (pa aop ty : Nat) (v : W64) : CacheWork s (t.foldPart pa aop ty v) := by
  unfold State.foldPart
  split
  · exact h.setElem _ _ _
  · split
    · exact h.shadowAdd _ _ _ _ _
    · exact h.updateElem _ _ _ _ _

theorem foldSector (line sec : Nat) (tag : Option (Nat × Nat)) (parts : Tab W64) : CacheWork s (t.foldSector line sec tag parts) := by
  unfold State.foldSector
  split
  · exact h
  · refine h.trans (foldl (fun u e => ?_) _ _)
    split
    · exact (refl u).foldPart _ _ _ _
    · exact refl u

theorem drainU (cluster line : Nat) : CacheWork s (t.drainU cluster line) := by
  unfold State.drainU
  split
  · exact h
  next u _ =>
    have hfold := ((h.l2Dirty (match tfind t.l2 line with | some x => x.vd | none => 0) line).foldSector line 0 u.tag0 u.parts).foldSector line 1 u.tag1 u.parts
    exact ⟨hfold.rest, hfold.fibs⟩

theorem setPoison (sector : Nat) (bad : Bool) : CacheWork s (t.setPoison sector bad) := ⟨h.rest, h.fibs⟩

theorem writeBackSector (cluster line sec : Nat) : CacheWork s (t.writeBackSector cluster line sec) := by
  unfold State.writeBackSector
  split
  · exact h
  next x _ =>
    split
    · dsimp only
      split
      · exact ⟨(h.l2Dirty x.vd line).rest, (h.l2Dirty x.vd line).fibs⟩
      · have hwrite := ((h.writeMem (64 * line + 32 * sec) (x.bytes (32 * sec) 32)).setPoison (2 * line + sec) (x.bad.getLsbD sec)).l2Dirty x.vd line
        exact ⟨hwrite.rest, hwrite.fibs⟩
    · exact h

theorem writeBack (cluster line : Nat) : CacheWork s (t.writeBack cluster line) := (h.writeBackSector cluster line 0).writeBackSector cluster line 1

theorem ccDrop (cluster line : Nat) : CacheWork s (t.ccDrop cluster line) := by
  have hback := (h.writeBack cluster line).residueDrop (cluster + 1) line
  unfold State.ccDrop
  dsimp only
  split
  · exact hback
  next x _ => exact ⟨(hback.pfOut x.pf).rest, (hback.pfOut x.pf).fibs⟩

theorem touchFresh (w : Who) (line sec attr : Nat) : CacheWork s (t.touchFresh w line sec attr) := by
  have hc := h.pfHit (tget Line.empty t.cc (hkey (clusterOf w.core) line)).pf (tget Line.empty t.cc (hkey (clusterOf w.core) line)).flight
  unfold State.touchFresh
  dsimp only
  split
  · have hz := h.pfHit (tget Line.empty t.l0 (hkey w.core line)).pf (tget Line.empty t.l0 (hkey w.core line)).flight
    exact ⟨hz.rest, hz.fibs⟩
  · split
    · exact ⟨hc.rest, hc.fibs⟩
    · exact ⟨(hc.l2Fill w.vd line none).rest, (hc.l2Fill w.vd line none).fibs⟩

theorem readFresh (w : Who) (line sec attr : Nat) : CacheWork s (t.readFresh w line sec attr) := by
  unfold State.readFresh
  split
  · exact (h.writeBack _ _).touchFresh _ _ _ _
  · exact h.touchFresh _ _ _ _

theorem plainCopy (cl line : Nat) : CacheWork s (t.plainCopy cl line).2 := by
  unfold State.plainCopy
  dsimp only
  split
  · exact h.writeBack _ _
  · exact h

theorem readCc (w : Who) (line sec : Nat) : CacheWork s (t.readCc w line sec).2 := by
  have hhit := (h.plainCopy (clusterOf w.core) line).pfHit (t.plainCopy (clusterOf w.core) line).1.pf (t.plainCopy (clusterOf w.core) line).1.flight
  unfold State.readCc
  dsimp only
  split
  · exact ⟨hhit.rest, hhit.fibs⟩
  · exact ⟨(hhit.l2Fill w.vd line none).rest, (hhit.l2Fill w.vd line none).fibs⟩

theorem fillL0 (w : Who) (line sec : Nat) (c : Line) : CacheWork s (t.fillL0 w line sec c) := ⟨h.rest, h.fibs⟩

theorem l0Update (core pa : Nat) (bs : List Byte) : CacheWork s (t.l0Update core pa bs) := by
  unfold State.l0Update
  split
  · split
    · exact h
    · exact ⟨h.rest, h.fibs⟩
  · exact h

theorem writeFresh (w : Who) (pa : Nat) (bs : List Byte) : CacheWork s (t.writeFresh w pa bs) := by
  have hc := h.pfHit (tget Line.empty t.cc (hkey (clusterOf w.core) (pa / 64))).pf (tget Line.empty t.cc (hkey (clusterOf w.core) (pa / 64))).flight
  unfold State.writeFresh
  dsimp only
  split
  · exact ⟨hc.rest, hc.fibs⟩
  · exact ⟨(hc.l2Fill w.vd (pa / 64) none).rest, (hc.l2Fill w.vd (pa / 64) none).fibs⟩

theorem writeWide (w : Who) (pa : Nat) (bs : List Byte) : CacheWork s (t.writeWide w pa bs) := by
  have hwrite := ((h.writeBack (clusterOf w.core) (pa / 64)).l2Dirty w.vd (pa / 64)).writeMem pa bs
  unfold State.writeWide
  dsimp only
  split
  · split
    · exact hwrite.l0Update _ _ _
    · exact (hwrite.setCc _).l0Update _ _ _
  · exact hwrite.l0Update _ _ _

theorem writeCc (w : Who) (pa : Nat) (bs : List Byte) : CacheWork s (t.writeCc w pa bs) := by
  have hread := h.readCc w (pa / 64) (sectorBit pa)
  exact (hread.setCc _).l0Update _ _ _

theorem moveLine (line : Nat) : CacheWork s (t.moveLine line) := by
  have hdrop := h.residueDrop 0 line
  unfold State.moveLine
  dsimp only
  split
  · exact ⟨hdrop.rest, hdrop.fibs⟩
  · exact ⟨(hdrop.dramRead line).rest, (hdrop.dramRead line).fibs⟩

theorem rebuildStripe (p : Nat) : CacheWork s (t.rebuildStripe p) := by
  unfold State.rebuildStripe
  dsimp only
  split
  · exact ⟨h.rest, h.fibs⟩
  · split
    · exact h.moveLine _
    · exact h
  · exact h

theorem endMove (p : Nat) : CacheWork s (t.endMove p) := by
  unfold State.endMove
  dsimp only
  split
  · exact (h.rebuildStripe p).setDamask _
  · split
    · have hmove := h.moveLine (p * 2 ^ 22 + (t.damask.prov p).wm)
      generalize t.moveLine (p * 2 ^ 22 + (t.damask.prov p).wm) = u at hmove
      have hset : CacheWork s { u with damask := u.damask.setProv p { u.damask.prov p with wm := (t.damask.prov p).wm + 1, locked := false } } :=
        ⟨hmove.rest, hmove.fibs⟩
      have hparity := hset.parityUpdate (p * 2 ^ 22 + (t.damask.prov p).wm)
      split
      · exact (show CacheWork s (State.newParity _ p) from ⟨hparity.rest, hparity.fibs⟩).setDamask _
      · exact hparity
    · exact h

theorem meetLine (vd pa n : Nat) : CacheWork s (t.meetLine vd pa n) := by
  unfold State.meetLine
  split
  · exact (h.endMove _).modVd _ _
  · exact h

end CacheWork

/-! Accesses reach memory of every kind, and drains in flight are folded: pending words may become able to complete (R395, R401). -/

/-- A fibre but for its counts and its pending words. -/
def Fibre.idle (f : Fibre) : Fibre := { f.bare with pend := [] }

/-- Memory of every kind has changed, drains have been folded, and adds to counters have been made or wait. -/
structure MemWork (s t : State) : Prop where
  rest : { t with mem := s.mem, poison := s.poison, hostMem := s.hostMem, peerMem := s.peerMem, fibres := s.fibres, wgs := s.wgs, vds := s.vds, l0 := s.l0,
                  cc := s.cc, l2 := s.l2, msc := s.msc, pmsc := s.pmsc, parErr := s.parErr, waitAdds := s.waitAdds, ucopies := s.ucopies, books := s.books,
                  drains := s.drains, shadows := s.shadows, damask := s.damask } = s
  fibs : ∀ k, (t.fib k).idle = (s.fib k).idle
  wgs  : ∀ w, { t.wg w with scratch := (s.wg w).scratch, ob := (s.wg w).ob } = s.wg w

theorem CacheWork.memWork {s t : State} (h : CacheWork s t) : MemWork s t := by
  have hwgs : t.wgs = s.wgs := (congrArg State.wgs h.rest :)
  refine ⟨?_, fun k => congrArg (fun f : Fibre => { f with pend := [] }) (h.fibs k), fun w => by simp only [State.wg, hwgs]⟩
  exact (congrArg (fun u : State => { u with hostMem := s.hostMem, peerMem := s.peerMem, wgs := s.wgs, waitAdds := s.waitAdds, drains := s.drains }) h.rest :)

namespace MemWork

theorem refl (s : State) : MemWork s s := (CacheWork.refl s).memWork

theorem trans {s t u : State} (h : MemWork s t) (g : MemWork t u) : MemWork s u := by
  refine ⟨?_, fun k => (g.fibs k).trans (h.fibs k), fun w => ?_⟩
  · have hrest := h.rest
    rw [← g.rest] at hrest
    exact hrest
  · have hwg := h.wgs w
    rw [← g.wgs w] at hwg
    exact hwg

theorem foldl {β : Type} {g : State → β → State} (hg : ∀ t x, MemWork t (g t x)) (l : List β) (s : State) : MemWork s (l.foldl g s) :=
  foldl_inv (fun t => MemWork s t) g (fun t x h => h.trans (hg t x)) l s (refl s)

theorem cached {s t u : State} (h : MemWork s t) (g : CacheWork t u) : MemWork s u := h.trans g.memWork

theorem modWg {s t : State} (h : MemWork s t) (w : Nat) (scratch ob : Tab Byte) :
    MemWork s (t.setWg w { t.wg w with scratch := scratch, ob := ob }) := by
  refine ⟨h.rest, h.fibs, fun j => ?_⟩
  by_cases hj : j = w
  · rw [hj, State.wg_setWg_self]
    exact h.wgs w
  · rw [State.wg_setWg_ne _ _ _ _ hj]
    exact h.wgs j

theorem pending {s t : State} (h : MemWork s t) (g : Fibre → List Pending) (hg : g Fibre.empty = []) :
    MemWork s { t with fibres := t.fibres.map (fun e => (e.1, { e.2 with pend := g e.2 })) } := by
  refine ⟨h.rest, fun k => ?_, h.wgs⟩
  have hfib : tget Fibre.empty (t.fibres.map (fun e => (e.1, { e.2 with pend := g e.2 }))) k = { t.fib k with pend := g (t.fib k) } :=
    tget_mapValues Fibre.empty Fibre.empty t.fibres (fun _ f => { f with pend := g f }) k (by rw [hg]; rfl)
  exact (congrArg Fibre.idle hfib).trans (h.fibs k)

theorem foldDrain {s t : State} (h : MemWork s t) (d : Drain) : MemWork s (t.foldDrain d) := by
  have hparts := h.cached (CacheWork.foldl (fun u e => (CacheWork.refl u).foldPart (64 * d.line + e.1) 0 d.ty e.2) d.parts t)
  unfold State.foldDrain
  extract_lets u1 u2 u3 k
  have hu3 : MemWork s u3 := by
    unfold u3
    split
    · exact ⟨hparts.rest, hparts.fibs, hparts.wgs⟩
    · exact pending (t := u2) ⟨hparts.rest, hparts.fibs, hparts.wgs⟩ (fun f => f.pend.map _) rfl
  split
  · exact hu3
  · exact ⟨hu3.rest, hu3.fibs, hu3.wgs⟩

theorem combine {s t : State} (h : MemWork s t) (line : Nat) : MemWork s (t.combine line) := by
  unfold State.combine
  split
  · exact h
  · exact (h.trans (foldl (fun u d => (refl u).foldDrain d) _ _)).trans (foldl (fun u e => ((CacheWork.refl u).drainU _ _).memWork) _ _)

theorem readLoc {s t : State} (h : MemWork s t) (w : Who) (l : Loc) (n : Nat) : MemWork s (t.readLoc w l n).2 := by
  cases l with
  | scr o => exact h
  | ob o => exact h
  | host a => exact h
  | peer p a => exact h
  | dev pa attr b =>
    have hc := h.combine (pa / 64)
    unfold State.readLoc
    dsimp only
    generalize t.combine (pa / 64) = u at hc
    have hu := CacheWork.refl u
    split
    · exact hc.cached (hu.readFresh _ _ _ _)
    · split
      · exact hc.cached ((hu.writeBack _ _).l2Fill _ _ _)
      · split
        · have hhit := hu.pfHit (tget Line.plain u.l0 (hkey w.core (pa / 64))).pf (tget Line.plain u.l0 (hkey w.core (pa / 64))).flight
          exact hc.cached ⟨hhit.rest, hhit.fibs⟩
        · dsimp only
          split
          · exact hc.cached ((hu.readCc _ _ _).fillL0 _ _ _ _)
          · exact hc.cached (hu.readCc _ _ _)

theorem writeLoc {s t : State} (h : MemWork s t) (w : Who) (l : Loc) (bs : List Byte) : MemWork s (t.writeLoc w l bs) := by
  cases l with
  | scr o => exact h.modWg w.wg _ _
  | ob o => exact h.modWg w.wg _ _
  | host a => exact ⟨h.rest, h.fibs, h.wgs⟩
  | peer p a => exact ⟨h.rest, h.fibs, h.wgs⟩
  | dev pa attr b =>
    have hc := h.combine (pa / 64)
    unfold State.writeLoc
    dsimp only
    generalize t.combine (pa / 64) = u at hc
    have hu := (CacheWork.refl u).dropShadows pa bs.length
    split
    · exact hc.cached (hu.writeFresh _ _ _)
    · split
      · exact hc.cached (hu.writeWide _ _ _)
      · exact hc.cached (hu.writeCc _ _ _)

theorem readPieces {s t : State} (h : MemWork s t) (w : Who) (ps : List Piece) : MemWork s (t.readPieces w ps).2 := by
  induction ps generalizing t with
  | nil => exact h
  | cons p ps ih =>
    unfold State.readPieces
    split
    · exact ih h
    · exact ih (h.readLoc w _ _)

theorem writePieces {s t : State} (h : MemWork s t) (w : Who) (ps : List Piece) (bs : List Byte) : MemWork s (t.writePieces w ps bs) := by
  induction ps generalizing t bs with
  | nil => exact h
  | cons p ps ih => exact ih (h.trans (foldl (fun u l => (refl u).writeLoc w l _) _ _)) _

/-! Adds to counters and the ends of grids (R128, R360). -/

theorem ctrAdd {s t u : State} (h : MemWork s t) {core vd : Nat} {a inc : W64} (hadd : t.ctrAdd core vd a inc = some u) : MemWork s u := by
  unfold State.ctrAdd at hadd
  split at hadd
  · cases hadd
  next ps _ =>
    cases hadd
    refine MemWork.writePieces (MemWork.readPieces (h.trans (foldl (fun u p => foldl (fun u l => ?_) _ _) _ _)) _ _) _ _ _
    cases l with
    | dev pa attr b => exact ((CacheWork.refl u).meetLine _ _ _).memWork
    | _ => exact refl u

theorem ctrAddOrDrop {s t : State} (h : MemWork s t) (core vd : Nat) (a inc : W64) : MemWork s (t.ctrAddOrDrop core vd a inc) := by
  unfold State.ctrAddOrDrop
  split
  next u hu => exact h.ctrAdd hu
  · split
    · exact ⟨h.rest, h.fibs, h.wgs⟩
    · exact ⟨h.rest, h.fibs, h.wgs⟩

theorem gridAdd {s t : State} (h : MemWork s t) (g : Nat) (a : W64) : MemWork s (t.gridAdd g a) := by
  unfold State.gridAdd
  split
  · exact h
  · exact h.ctrAddOrDrop _ _ _ _

theorem flushGrid {s t : State} (h : MemWork s t) (k : Nat) : MemWork s (t.flushGrid k) :=
  h.cached (CacheWork.foldl (fun u _ => (CacheWork.refl u).writeBack _ _) _ t)

theorem modVd {s t : State} (h : MemWork s t) (vd : Nat) (g : Vd → Vd) : MemWork s (t.modVd vd g) := ⟨h.rest, h.fibs, h.wgs⟩

end MemWork

end Sys2Proof.Machine
end

section
/-! SUPPORT. The proofs of the scope: what the ends of workgroups and grids leave of fibres, workgroups and grids (R20, R128, R435, R436). -/

namespace Sys2Proof.Machine

/-! A grid is settled: its counters take their adds (R128). -/

/-- Memory has worked and grids have changed. -/
def Settling (s t : State) : Prop := MemWork s { t with grids := s.grids }

namespace Settling

theorem refl (s : State) : Settling s s := MemWork.refl s

theorem trans {s t u : State} (h : Settling s t) (g : Settling t u) : Settling s u := by
  refine ⟨?_, fun k => (g.fibs k).trans (h.fibs k), fun w => ?_⟩
  · have hrest := h.rest
    rw [← (congrArg (fun v : State => { v with grids := s.grids }) g.rest :)] at hrest
    exact hrest
  · have hwg : { t.wg w with scratch := (s.wg w).scratch, ob := (s.wg w).ob } = s.wg w := h.wgs w
    rw [← (g.wgs w : { u.wg w with scratch := (t.wg w).scratch, ob := (t.wg w).ob } = t.wg w)] at hwg
    exact hwg

theorem mem {s t u : State} (h : Settling s t) (g : MemWork t u) : Settling s u :=
  h.trans ⟨(congrArg (fun v : State => { v with grids := t.grids }) g.rest :), g.fibs, g.wgs⟩

theorem setGrid {s t : State} (h : Settling s t) (k : Nat) (x : Grid) : Settling s (t.setGrid k x) := h

theorem cur {s t : State} (h : Settling s t) : t.cur = s.cur := (congrArg State.cur h.rest :)

theorem slots {s t : State} (h : Settling s t) : t.slots = s.slots := (congrArg State.slots h.rest :)

end Settling

theorem MemWork.grids {s t : State} (h : MemWork s t) : t.grids = s.grids := (congrArg State.grids h.rest :)

theorem MemWork.grid {s t : State} (h : MemWork s t) (k : Nat) : t.grid k = s.grid k := congrArg (tget Grid.empty · k) h.grids

theorem MemWork.returnUnits {s t : State} (h : MemWork s t) (k : Nat) : MemWork s (t.returnUnits k) := h.modVd _ _

theorem MemWork.killCause {s t : State} (h : MemWork s t) (vd code lstatus id : Nat) : MemWork s (t.killCause vd code lstatus id) := by
  unfold State.killCause
  split
  · exact (h.modVd _ _).modVd _ _
  · exact h

theorem State.settleGrid_settling (s : State) (k : Nat) : Settling s (s.settleGrid k) := by
  unfold State.settleGrid
  extract_lets g u v
  have hu : Settling s u := by
    unfold u
    split
    · exact Settling.refl s
    · exact (Settling.refl s).mem (((MemWork.refl s).flushGrid k).gridAdd k _)
  have hv : Settling s v := hu.setGrid k _
  clear_value v
  split
  · exact Settling.refl s
  · split
    · exact hv
    · split
      · exact (hv.setGrid k _).mem ((MemWork.refl _).gridAdd _ _)
      · split
        · exact (hv.setGrid k _).mem (((MemWork.refl _).returnUnits k).gridAdd _ _)
        · exact hv

/-- A killed grid stays killed when it is settled. -/
theorem State.settleGrid_killed (s : State) (k : Nat) (h : (s.grid k).st = .killed) : ((s.settleGrid k).grid k).st = .killed := by
  unfold State.settleGrid
  extract_lets g u v
  split
  · exact h
  · split
    · exact (congrArg Grid.st (State.grid_setGrid_self _ _ _)).trans h
    · rw [((MemWork.refl _).gridAdd _ _).grid, State.grid_setGrid_self]
      exact h

/-! A workgroup is released (R436). -/

/-- A release stops the fibres of its workgroup and leaves every other fibre alone. -/
theorem State.release_tfind (s : State) (w : Nat) (life : WgLife) (k : Nat) :
    tfind (s.release w life).fibres k = (tfind s.fibres k).map (fun f => if wgOf k = w then f.stop else f) := by
  have hmap : (s.release w life).fibres = s.fibres.map (fun e => (e.1, if wgOf e.1 = w then e.2.stop else e.2)) :=
    List.map_congr_left (fun e _ => by split <;> rfl)
  rw [hmap]
  exact tfind_mapValues s.fibres (fun k f => if wgOf k = w then f.stop else f) k

theorem State.release_fib_ne (s : State) {w k : Nat} (life : WgLife) (h : wgOf k ≠ w) : (s.release w life).fib k = s.fib k := by
  simp only [State.fib, tget, State.release_tfind, if_neg h, Option.map_id_fun', id]

/-- A fibre that does not run does not run after a release. -/
theorem State.release_notRunning (s : State) (w : Nat) (life : WgLife) (k : Nat) (h : (s.fib k).life ≠ .running) : ((s.release w life).fib k).life ≠ .running := by
  by_cases hk : wgOf k = w
  · simp only [State.fib, tget, State.release_tfind, if_pos hk]
    cases tfind s.fibres k with
    | none => exact nofun
    | some f => exact nofun
  · rwa [State.release_fib_ne s life hk]

/-- A release empties barriers and takes slots out of their active sets; nothing else of a slot changes. -/
theorem State.release_stackBad (s : State) (w : Nat) (life : WgLife) (k : Nat) : ((s.release w life).slot k).stackBad = (s.slot k).stackBad := by
  have hmap : (s.release w life).slots = s.slots.map (fun e => (e.1, if e.1 / 16 = w then { e.2 with active := false, bars := [] } else e.2)) :=
    List.map_congr_left (fun e _ => by split <;> rfl)
  have hslot : (s.release w life).slot k = if k / 16 = w then { s.slot k with active := false, bars := [] } else s.slot k := by
    unfold State.slot
    rw [hmap]
    exact tget_mapValues Slot.empty Slot.empty s.slots (fun k x => if k / 16 = w then { x with active := false, bars := [] } else x) k (by split <;> rfl)
  rw [hslot]
  split <;> rfl

theorem State.release_wg_self (s : State) (w : Nat) (life : WgLife) :
    (s.release w life).wg w = { s.wg w with life := life, orecs := [], gregs := [], issued := [], readout := [], qbind := [], locks := [], banks := [] } :=
  tget_tput_self _ _ _ _

/-! The energy of a workgroup is settled (R142). -/

theorem State.settleEnergy_memWork (s : State) (w : Nat) : MemWork s (s.settleEnergy w) := by
  unfold State.settleEnergy
  dsimp only
  split
  · exact MemWork.refl s
  · exact (MemWork.refl s).modVd _ _

end Sys2Proof.Machine
end

section
/-! SUPPORT. The proofs of the scope: barriers that open, fibres that end, and lanes that exit (R17, R18, R20, R171, R177, R179). -/

namespace Sys2Proof.Machine

/-! A completed barrier opens (R179). -/

/-- An entry waits at the barrier no more. -/
def Entry.unpark (id : Nat) (e : Entry) : Entry := if e.wait = .fbar id then { e with wait := .none } else e

/-- The entries of a fibre that wait at the barrier, those that a trap has set aside among them, are released. -/
def State.unpark (s : State) (id k : Nat) : State :=
  let f := s.fib k
  if f.frontier.any (fun e => e.wait = .fbar id) then
    (s.setFib k { f with frontier := f.frontier.map (Entry.unpark id), trap := { f.trap with aside := f.trap.aside.map (Entry.unpark id) } }).select k
  else if f.trap.aside.any (fun e => e.wait = .fbar id) then s.setFib k { f with trap := { f.trap with aside := f.trap.aside.map (Entry.unpark id) } }
  else s

/-- The barrier of a slot is gone, and the entries of its shared window are in order for the fibres of a mask. -/
def State.dropBar (s : State) (slot id among : Nat) : State := (s.order slot among).modSlot slot (fun x => { x with bars := tdel x.bars id })

theorem State.openBar_eq (s : State) (slot id : Nat) (b : Bar) (h : tfind (s.slot slot).bars id = some b) :
    s.openBar slot id = (List.range 4).foldl (fun s i => s.unpark id (4 * slot + i)) (s.dropBar slot id b.mask.toNat) := by
  unfold State.openBar
  rw [h]
  rfl

/-- What changes where a fibre is released: its frontier, and the entries that a trap has set aside. -/
theorem State.unpark_fib (s : State) (id k : Nat) :
    Near k s (s.unpark id k) ∧ (s.unpark id k).slots = s.slots ∧
      ∃ fr aside, (s.unpark id k).fib k = { s.fib k with frontier := fr, trap := { (s.fib k).trap with aside := aside } } := by
  unfold State.unpark
  dsimp only
  split
  · obtain ⟨fr, hfr⟩ := State.select_fib (s.setFib k { s.fib k with
      frontier := (s.fib k).frontier.map (Entry.unpark id), trap := { (s.fib k).trap with aside := (s.fib k).trap.aside.map (Entry.unpark id) } }) k
    rw [State.fib_setFib_self] at hfr
    refine ⟨(Near.setFib k s _).trans (Near.select k _), ?_, fr, _, hfr⟩
    unfold State.select
    dsimp only
    split <;> rfl
  · split
    · exact ⟨Near.setFib k s _, rfl, _, _, State.fib_setFib_self _ _ _⟩
    · exact ⟨Near.refl k s, rfl, _, _, rfl⟩

theorem State.order_fibres (s : State) (slot among : Nat) : (s.order slot among).fibres = s.fibres := by
  refine foldl_inv (fun t : State => t.fibres = s.fibres) _ (fun t q h => ?_) _ s rfl
  unfold State.orderAt
  split
  · exact h
  · dsimp only
    split <;> exact h

theorem State.dropBar_fib (s : State) (slot id among k : Nat) : (s.dropBar slot id among).fib k = s.fib k :=
  congrArg (tget Fibre.empty · k) (s.order_fibres slot among)

/-! Whether a fibre runs (R20). -/

theorem State.setFib_life (s : State) {j : Nat} {f : Fibre} (h : f.life = (s.fib j).life) (k : Nat) : ((s.setFib j f).fib k).life = (s.fib k).life := by
  by_cases hk : k = j
  · rw [hk, State.fib_setFib_self, h]
  · rw [State.fib_setFib_ne _ _ _ _ hk]

theorem State.unpark_life (s : State) (id j k : Nat) : ((s.unpark id j).fib k).life = (s.fib k).life := by
  obtain ⟨hnear, -, fr, aside, hfib⟩ := s.unpark_fib id j
  by_cases hk : k = j
  · rw [hk, hfib]
  · rw [hnear.fibres k hk]

theorem State.checkBar_life (s : State) (slot id k : Nat) : ((s.checkBar slot id).fib k).life = (s.fib k).life := by
  unfold State.checkBar
  split
  · rfl
  next b hb =>
    split
    · rw [State.openBar_eq s slot id b hb]
      exact foldl_inv (fun t : State => (t.fib k).life = (s.fib k).life) _ (fun t i h => (t.unpark_life id _ k).trans h) _ _
        (congrArg Fibre.life (s.dropBar_fib slot id _ k))
    · rfl

theorem State.signed_life (s : State) (w g : Nat) (x : Sig) (k : Nat) : ((s.signed w g x).fib k).life = (s.fib k).life := by
  unfold State.signed State.modFib
  exact s.setFib_life (by rfl) k

theorem State.dropSigs_life (s : State) (j k : Nat) : ((s.dropSigs j).fib k).life = (s.fib k).life := by
  refine foldl_inv (fun t : State => (t.fib k).life = (s.fib k).life) _ (fun t i h => ?_) _ s rfl
  dsimp only
  split
  · exact foldl_inv (fun u : State => (u.fib k).life = (s.fib k).life) _ (fun u x hu => (u.signed_life _ _ x k).trans hu) _ _ h
  · exact h

theorem MemWork.life {s t : State} (h : MemWork s t) (k : Nat) : (t.fib k).life = (s.fib k).life := (congrArg Fibre.life (h.fibs k) :)

theorem Settling.life {s t : State} (h : Settling s t) (k : Nat) : (t.fib k).life = (s.fib k).life := (congrArg Fibre.life (h.fibs k) :)

/-- A fibre that does not run does not run after its workgroup, or another, has ended. -/
theorem State.endWg_notRunning (s : State) (w k : Nat) (h : (s.fib k).life ≠ .running) : ((s.endWg w).fib k).life ≠ .running := by
  have hrelease : (((s.settleEnergy w).release w .ended).fib k).life ≠ .running :=
    State.release_notRunning _ w _ k (by rwa [(s.settleEnergy_memWork w).life k])
  unfold State.endWg
  extract_lets x j u g g'
  change (u.fib k).life ≠ .running at hrelease
  clear_value u g'
  split
  · exact hrelease
  · split
    · exact ((State.settleGrid_settling _ _).life k).symm ▸ hrelease
    · exact hrelease

/-- A fibre with no launched lane left has ended (R20). -/
theorem State.endFibre_done (s : State) (k : Nat) (h : (s.fib k).launched &&& ~~~(s.fib k).exited = 0) : (s.endFibre k).fibreDone k = true := by
  have hstop (u : State) (vd : Nat) (g : Vd → Vd) : ((((u.modFib k Fibre.stop).modVd vd g).fib k).life) = .ended :=
    congrArg Fibre.life (State.fib_modFib_self u k Fibre.stop)
  unfold State.endFibre
  extract_lets f s1 v n s2 s3 s4 w
  rw [if_neg (by simpa using h)]
  have hend : (s4.fib k).life ≠ .running := by
    rw [show (s4.fib k).life = (s3.fib k).life from (State.dropSigs_life _ _ _).trans
      (foldl_inv (fun t : State => (t.fib k).life = (s3.fib k).life) _ (fun t i h => (t.checkBar_life _ _ k).trans h) _ s3 rfl), hstop]
    exact nofun
  unfold State.fibreDone
  split
  · simpa using s4.endWg_notRunning w k hend
  · simpa using hend

theorem State.endFibre_runs (s : State) (k : Nat) (h : (s.fib k).launched &&& ~~~(s.fib k).exited ≠ 0) : s.endFibre k = s := by
  unfold State.endFibre
  dsimp only
  exact if_pos (by simpa using h)

/-! Lanes leave their fibre (R17, R18, R177). -/

/-- The lanes of a fibre that have exited once those of `m` exit: helper lanes go with the last launched lane of their quad. -/
def Fibre.gone (f : Fibre) (m : LaneMask) : LaneMask :=
  let ex := f.exited ||| m
  ex ||| (f.helper &&& ~~~(quadsOf (f.launched &&& ~~~ex)))

/-- Entries without the lanes of a mask. -/
def withoutLanes (m : LaneMask) (l : List Entry) : List Entry := (l.map (fun e => { e with mask := e.mask &&& ~~~m })).filter (fun e => e.mask != 0)

theorem quadsOf_getLsbD (m : LaneMask) (l : Nat) : (quadsOf m).getLsbD l = (decide (l < 32) && (List.range 4).any (fun i => m.getLsbD (4 * (l / 4) + i))) := by
  simp [quadsOf, List.range_succ, Nat.mul_comm, Bool.or_assoc]

theorem Fibre.gone_getLsbD (f : Fibre) (m : LaneMask) (l : Nat) (hl : l < 32) :
    (f.gone m).getLsbD l = (f.exited.getLsbD l || m.getLsbD l ||
      (f.helper.getLsbD l && (List.range 4).all (fun i => !(f.launched &&& ~~~(f.exited ||| m)).getLsbD (4 * (l / 4) + i)))) := by
  simp only [Fibre.gone, BitVec.getLsbD_or, BitVec.getLsbD_and, BitVec.getLsbD_not, quadsOf_getLsbD, hl, decide_true, Bool.true_and, List.not_any_eq_all_not]

/-- The helper lanes that go are none of the launched lanes that are left. -/
theorem Fibre.launched_gone (f : Fibre) (m : LaneMask) : f.launched &&& ~~~(f.gone m) = f.launched &&& ~~~(f.exited ||| m) := by
  refine BitVec.eq_of_getLsbD_eq (fun l hl => ?_)
  have hquad : (f.launched &&& ~~~(f.exited ||| m)).getLsbD l = true →
      (List.range 4).all (fun i => !(f.launched &&& ~~~(f.exited ||| m)).getLsbD (4 * (l / 4) + i)) = false := by
    intro h
    rw [List.all_eq_false]
    exact ⟨l % 4, List.mem_range.2 (Nat.mod_lt _ (by decide)), by rw [Nat.div_add_mod]; simpa using h⟩
  rw [BitVec.getLsbD_and, BitVec.getLsbD_not, Fibre.gone_getLsbD f m l hl]
  generalize (List.range 4).all _ = q at hquad
  simp only [BitVec.getLsbD_and, BitVec.getLsbD_not, BitVec.getLsbD_or, hl, decide_true, Bool.true_and] at *
  revert hquad
  cases f.launched.getLsbD l <;> cases f.exited.getLsbD l <;> cases m.getLsbD l <;> simp +contextual

theorem standsIn_withoutLanes (m : LaneMask) (fr : List Entry) (l : Nat) (x : Entry) :
    standsIn (withoutLanes m fr) l x ↔ standsIn fr l x ∧ m.getLsbD l = false := by
  simp only [standsIn, withoutLanes, List.mem_filter, List.mem_map]
  constructor
  · rintro ⟨_, ⟨⟨e, he, rfl⟩, -⟩, hl, hplace⟩
    have hlt := BitVec.lt_of_getLsbD hl
    simp only [BitVec.getLsbD_and, BitVec.getLsbD_not, hlt, decide_true, Bool.true_and, Bool.and_eq_true, Bool.not_eq_true'] at hl
    exact ⟨⟨e, he, hl.1, hplace⟩, hl.2⟩
  · rintro ⟨⟨e, he, hl, hplace⟩, hm⟩
    have hlt := BitVec.lt_of_getLsbD hl
    have hbit : (e.mask &&& ~~~m).getLsbD l = true := by rw [BitVec.getLsbD_and, BitVec.getLsbD_not, hl, hm, decide_eq_true hlt]; rfl
    refine ⟨_, ⟨⟨e, he, rfl⟩, ?_⟩, hbit, hplace⟩
    simp only [bne_iff_ne, ne_eq]
    intro h0
    rw [h0] at hbit
    simp at hbit

/-! A control word puts a fibre in the place of the issuing one, which selects again (R159). -/

theorem State.setFib_setFib (s : State) (k : Nat) (f g : Fibre) : (s.setFib k f).setFib k g = s.setFib k g := by simp only [State.setFib, tput_tput]

/-- The issuing fibre is `f`, and has selected again. -/
def State.reselect (s : State) (f : Fibre) : State := (s.setFib s.cur f).select s.cur

theorem State.reselect_near (s : State) (f : Fibre) : Near s.cur s (s.reselect f) := (Near.setFib s.cur s _).trans (Near.select s.cur _)

theorem State.reselect_cur (s : State) (f : Fibre) : (s.reselect f).cur = s.cur := (s.reselect_near f).cur

theorem State.reselect_me (s : State) (f : Fibre) : ∃ fr, (s.reselect f).me = { f with frontier := fr } := by
  obtain ⟨fr, hfib⟩ := State.select_fib (s.setFib s.cur f) s.cur
  unfold State.me
  rw [s.reselect_cur f]
  exact ⟨fr, hfib.trans (by rw [State.fib_setFib_self])⟩

theorem State.reselect_stands (s : State) (f : Fibre) (l : Nat) (x : Entry) : (s.reselect f).me.stands l x ↔ f.stands l x := by
  have hstands := State.select_stands (s.setFib s.cur f) s.cur l x
  rw [State.fib_setFib_self] at hstands
  unfold State.me
  rw [s.reselect_cur f]
  exact hstands

theorem State.reselect_mySlot (s : State) (f : Fibre) : (s.reselect f).mySlot = s.mySlot := by
  unfold State.mySlot
  rw [s.reselect_cur f]
  exact State.select_slot _ _ _

theorem State.reselect_leaveClauses (s : State) (f : Fibre) (h : f.eph = []) : (s.reselect f).leaveClauses s.cur = s.reselect f := by
  obtain ⟨fr, hme⟩ := s.reselect_me f
  unfold State.me at hme
  rw [s.reselect_cur f] at hme
  exact State.leaveClauses_eq _ _ (by rw [hme]; exact h)

/-! What a control word at which lanes exit leaves (R163, R177). -/

/-- A fibre whose lanes of `m` exit at its word: the lanes left of its entry stand at Next, and results owed to the lanes gone are discarded. -/
def Fibre.leave (f : Fibre) (m : LaneMask) : Fibre :=
  { f.countWord with
    exited := f.gone m
    frontier := withoutLanes (f.gone m) (addEntry { f.entry.next with mask := f.entry.mask &&& ~~~m } (f.frontier.drop 1))
    trap := { f.trap with aside := withoutLanes (f.gone m) f.trap.aside }
    pend := f.countWord.pend.map (fun p => { p with wr := p.wr.filter (fun r => match r with
      | .stk _ l _ => !(f.gone m).getLsbD l
      | _ => true) }) }

theorem State.exitAt_eq (s : State) (m : LaneMask) (h : s.me.eph = []) : s.exitAt s.cur m = (s.reselect (s.me.leave m)).endFibre s.cur := by
  unfold State.exitAt
  rw [State.counted_eq s s.cur h]
  simp only [State.modFib_eq, State.exitLanes, State.fib_setFib_self, State.setFib_setFib]
  exact congrArg (State.endFibre · s.cur) (s.reselect_leaveClauses (s.me.leave m) h)

/-- The launched lanes that have not exited are those that were left before the helper lanes went. -/
theorem State.reselect_leave_launched (s : State) (m : LaneMask) :
    ((s.reselect (s.me.leave m)).fib s.cur).launched &&& ~~~((s.reselect (s.me.leave m)).fib s.cur).exited = s.me.launched &&& ~~~(s.me.exited ||| m) := by
  obtain ⟨fr, hme⟩ := s.reselect_me (s.me.leave m)
  have hfib : (s.reselect (s.me.leave m)).fib s.cur = { s.me.leave m with frontier := fr } := s.reselect_cur (s.me.leave m) ▸ hme
  rw [hfib]
  exact Fibre.launched_gone s.me m

/-- What is left of the fibre where some launched lane stays. -/
theorem State.exitAt_stays (s : State) (m : LaneMask) (hp : Plain s) (hleft : s.me.launched &&& ~~~(s.me.exited ||| m) ≠ 0) :
    s.exitAt s.cur m = s.reselect (s.me.leave m) :=
  (s.exitAt_eq m hp.windows).trans (State.endFibre_runs _ _ (s.reselect_leave_launched m ▸ hleft))

/-- The fibre ends with its last launched lane. -/
theorem State.exitAt_ends (s : State) (m : LaneMask) (hp : Plain s) (hleft : s.me.launched &&& ~~~(s.me.exited ||| m) = 0) :
    (s.exitAt s.cur m).fibreDone s.cur = true := by
  rw [s.exitAt_eq m hp.windows]
  exact State.endFibre_done _ _ (s.reselect_leave_launched m ▸ hleft)

theorem exit_exits (s : State) (f : FC) (hp : Plain s) : exec (.exit f) s = .next (s.exitAt s.cur (s.acts s.cur f.hd)) := by
  show execExit f s = _
  simp [execExit, State.ctlBad, State.pBadSrc_eq s _ hp]

theorem ret_exits (s : State) (f : FC) (hp : Plain s) (hfp : s.me.entry.fp = 0) : exec (.ret f) s = .next (s.exitAt s.cur (s.acts s.cur f.hd)) := by
  have hfp' : (s.fib s.cur).entry.fp = 0 := hfp
  show execRet f s = _
  simp [execRet, State.ctlBad, State.pBadSrc_eq s _ hp, hfp']

/-- Settles O14: both words exit by `State.exitAt`, and its two cases are where a launched lane stays and where none does. -/
theorem lanesExit : Obligations.LanesExit := by
  intro s f hp taken left gone end_
  have hgone (l : Nat) (hl : l < 32) : (s.me.gone taken).getLsbD l = gone l := Fibre.gone_getLsbD s.me taken l hl
  have hstays (hleft : left ≠ 0) : end_ (s.exitAt s.cur taken) := by
    obtain ⟨fr, hme⟩ := s.reselect_me (s.me.leave taken)
    have hstands := s.reselect_stands (s.me.leave taken)
    rw [s.exitAt_stays taken hp hleft]
    refine ⟨(s.reselect_near _).local, s.reselect_mySlot _, by rw [hme]; rfl, by rw [hme]; rfl, by rw [hme]; rfl, fun l hl => ?_, fun l x hg hl => ?_,
      fun l hl hm hg => ?_⟩
    · rw [hme]
      exact hgone l hl
    · rw [hstands, Fibre.stands, Fibre.leave, standsIn_withoutLanes, hgone l hl, hg]
      exact fun h => Bool.noConfusion h.2
    · rw [hstands, Fibre.stands, Fibre.leave, standsIn_withoutLanes, standsIn_addEntry, standsIn_single, hgone l hl]
      have htaken : taken.getLsbD l = false := by
        simp only [gone, Bool.or_eq_false_iff] at hg
        exact hg.1.2
      refine ⟨.inl ⟨?_, rfl, rfl, rfl⟩, hg⟩
      rw [BitVec.getLsbD_and, BitVec.getLsbD_not, hm, htaken, decide_eq_true hl]
      rfl
  exact ⟨fun h => ⟨⟨_, exit_exits s f hp, hstays h⟩, fun hfp => ⟨_, ret_exits s f hp hfp, hstays h⟩⟩,
    fun h => ⟨⟨_, exit_exits s f hp, s.exitAt_ends taken hp h⟩, fun hfp => ⟨_, ret_exits s f hp hfp, s.exitAt_ends taken hp h⟩⟩⟩

end Sys2Proof.Machine
end

section
/-! SUPPORT. The proofs of the scope: waits, barriers of a slot and their shared window, and clause headers (R25, R58, R62, R64, R178, R179, R278). -/

namespace Sys2Proof.Machine

/-! Waits for tokens and for all words (R62, R178). -/

/-- What a wait has become once the words that it waited for have completed. -/
def Fibre.wokenWait (f : Fibre) (w : Wait) : Wait :=
  match w with
  | .tok m => if (List.range 8).any (fun t => m.getLsbD t && f.held t) then .tok m else .none
  | .wtok m => if (List.range 8).any (fun t => m.getLsbD t && f.held t) then .wtok m else .none
  | .all => if f.pend.isEmpty then .none else .all
  | w => w

theorem Fibre.any_held (f : Fibre) (m : BitVec 8) : (List.range 8).any (fun t => m.getLsbD t && f.held t) = true ↔ f.holds m := by
  simp [Fibre.holds, List.any_eq_true]

theorem Fibre.wokenWait_tok (f : Fibre) (m : BitVec 8) : (f.holds m → f.wokenWait (.tok m) = .tok m) ∧ (¬ f.holds m → f.wokenWait (.tok m) = .none) := by
  rw [← f.any_held m]
  exact ⟨fun h => if_pos h, fun h => if_neg h⟩

theorem Fibre.wokenWait_wtok (f : Fibre) (m : BitVec 8) : (f.holds m → f.wokenWait (.wtok m) = .wtok m) ∧ (¬ f.holds m → f.wokenWait (.wtok m) = .none) := by
  rw [← f.any_held m]
  exact ⟨fun h => if_pos h, fun h => if_neg h⟩

theorem Fibre.wokenWait_all (f : Fibre) : (f.pend ≠ [] → f.wokenWait .all = .all) ∧ (f.pend = [] → f.wokenWait .all = .none) :=
  ⟨fun h => if_neg (by simpa using h), fun h => if_pos (by simpa using h)⟩

/-- A word that is counted holds the token that it held. -/
theorem Fibre.countWord_wokenWait (f : Fibre) (w : Wait) : f.countWord.wokenWait w = f.wokenWait w := by
  have hheld (t : Nat) : f.countWord.held t = f.held t := by
    unfold Fibre.held Fibre.countWord
    rw [List.any_map]
    refine congrArg (List.any f.pend) (funext fun p => ?_)
    cases hla : p.la <;> simp [hla]
  have hpend : f.countWord.pend.isEmpty = f.pend.isEmpty := by simp [Fibre.countWord]
  simp only [Fibre.wokenWait, hheld, hpend]

theorem Fibre.map_woken (f : Fibre) (fr : List Entry) :
    fr.map (fun e => match e.wait with
      | .tok m => if (List.range 8).any (fun t => m.getLsbD t && f.held t) then e else { e with wait := .none }
      | .wtok m => if (List.range 8).any (fun t => m.getLsbD t && f.held t) then e else { e with wait := .none }
      | .all => if f.pend.isEmpty then { e with wait := .none } else e
      | _ => e) = fr.map (fun e => { e with wait := f.wokenWait e.wait }) := by
  refine List.map_congr_left (fun e _ => ?_)
  obtain ⟨pc, hdr, hw, inside, bpri, fp, mask, wait⟩ := e
  cases wait <;> simp only [Fibre.wokenWait] <;> split <;> rfl

theorem State.wake_eq (s : State) (k : Nat) :
    s.wake k = s.setFib k { s.fib k with frontier := (s.fib k).frontier.map (fun e => { e with wait := (s.fib k).wokenWait e.wait }) } := by
  rw [← Fibre.map_woken]
  rfl

/-- Where the waits of entries change and nothing else of them, a lane stands where it stood, with its wait changed. -/
theorem standsIn_mapWait (g : Wait → Wait) {fr : List Entry} {l : Nat} {x : Entry} (h : standsIn fr l x) :
    standsIn (fr.map (fun e => { e with wait := g e.wait })) l { x with wait := g x.wait } := by
  obtain ⟨e, he, hl, hpc, hfp, hwait⟩ := h
  exact ⟨_, List.mem_map.2 ⟨e, he, rfl⟩, hl, hpc, hfp, congrArg g hwait⟩

/-- A fibre whose entry waits at Next; a wait for what has completed has ended. -/
def Fibre.waiting (f : Fibre) (w : Wait) : Fibre :=
  { f.countWord with
    frontier := (addEntry { f.entry.next with wait := w } (f.frontier.drop 1)).map (fun e => { e with wait := f.wokenWait e.wait }) }

theorem State.waitAt_eq (s : State) (w : Wait) (h : s.me.eph = []) : s.waitAt s.cur w = s.reselect (s.me.waiting w) := by
  unfold State.waitAt
  rw [State.counted_eq s s.cur h]
  simp only [State.modFib_eq, State.wake_eq, State.fib_setFib_self, State.setFib_setFib]
  refine Eq.trans ?_ (s.reselect_leaveClauses (s.me.waiting w) h)
  have hwoken : (fun e : Entry => { e with wait := s.me.wokenWait e.wait }) = fun e => { e with wait := s.me.countWord.wokenWait e.wait } := by
    simp only [Fibre.countWord_wokenWait]
  unfold Fibre.waiting
  rw [hwoken]
  rfl

theorem Entry.next_mask (e : Entry) : e.next.mask = e.mask := by
  unfold Entry.next
  split <;> rfl

/-- What a word leaves that waits: nothing has changed but its place. -/
theorem State.waitAt_quiet (s : State) (w : Wait) (hp : Plain s) : Quiet s (s.waitAt s.cur w) := by
  obtain ⟨fr, hme⟩ := s.reselect_me (s.me.waiting w)
  rw [s.waitAt_eq w hp.windows]
  exact ⟨(s.reselect_near _).local, s.reselect_mySlot _, by rw [hme]; rfl, by unfold SamePend; rw [hme]; rfl⟩

theorem State.waitAt_stands (s : State) (w : Wait) (hp : Plain s) (l : Nat) (hl : s.me.entry.mask.getLsbD l = true) :
    (s.waitAt s.cur w).me.stands l (s.atNextWaiting (s.me.wokenWait w)) := by
  rw [s.waitAt_eq w hp.windows, State.reselect_stands]
  refine standsIn_mapWait s.me.wokenWait (x := s.atNextWaiting w) ?_
  rw [standsIn_addEntry]
  exact .inl ((standsIn_single _ _ _).2 ⟨(congrArg (·.getLsbD l) s.me.entry.next_mask).trans hl, rfl, rfl, rfl⟩)

/-! nop, yield and wait (R155, R178). -/

theorem exec_nop (s : State) (f : FC) : exec (.nop f) s = .next (s.finish s.cur []) := rfl

section
variable (s : State) (f : FC)

theorem State.ctlBad_eq (hp : Plain s) : s.ctlBad s.cur f false = false := by
  simp [State.ctlBad, State.pBadSrc_eq s _ hp]

theorem exec_yield (hp : Plain s) (ha : s.acts s.cur f.hd ≠ 0) :
    exec (.yield f) s = .next ((s.finish s.cur []).modSlot (slotOf s.cur) (fun x => { x with turn := 4 + fibIdx s.cur })) := by
  show execYield f s = _
  simp only [execYield, if_neg ha, s.ctlBad_eq f hp, Bool.false_eq_true, if_false]

theorem exec_wait (hp : Plain s) (ha : s.acts s.cur f.hd ≠ 0) :
    exec (.wait f) s = .next (s.waitAt s.cur (if f.tgt.extractLsb' 0 8 = 0 then .all else .tok (f.tgt.extractLsb' 0 8))) := by
  show execWait f s = _
  simp only [execWait, if_neg ha, s.ctlBad_eq f hp, Bool.false_eq_true, if_false]

end

/-! fbar (R25, R179). -/

/-- The barrier of an fbar as the fibre finds it, and once the fibre has arrived. -/
def State.barOf (s : State) (f : FC) : Bar := tget { mask := f.b.extractLsb' 0 4, arrived := 0 } s.mySlot.bars f.a.toNat

def State.arrivedBar (s : State) (f : FC) : Bar := { s.barOf f with arrived := (s.barOf f).arrived ||| BitVec.ofNat 4 (2 ^ fibIdx s.cur) }

/-- Every fibre of the mask has arrived or exited, now that this one has arrived. -/
def State.barFull (s : State) (f : FC) : Prop :=
  ∀ i, i < 4 → (f.b.extractLsb' 0 4).getLsbD i = true → i = fibIdx s.cur ∨ (s.barOf f).arrived.getLsbD i = true ∨ s.fibreDone (4 * slotOf s.cur + i) = true

/-- The fibre has arrived at the barrier. -/
def State.atBar (s : State) (f : FC) : State := s.modSlot (slotOf s.cur) (fun x => { x with bars := tput x.bars f.a.toNat (s.arrivedBar f) })

/-- The fibre has arrived, and its entry is parked there. -/
def State.parked (s : State) (f : FC) : State := (s.atBar f).waitAt s.cur (.fbar f.a.toNat)

section
variable (s : State) (f : FC) (hp : Plain s) (ha : s.acts s.cur f.hd ≠ 0)
include hp ha

theorem exec_fbar (hm : (s.barOf f).mask = f.b.extractLsb' 0 4) :
    exec (.fbar f) s = .next (((s.parked f).checkBar (slotOf s.cur) f.a.toNat).select s.cur) := by
  show execFbar f s = _
  have hm' : (tget { mask := f.b.extractLsb' 0 4, arrived := 0 } (s.slot (slotOf s.cur)).bars f.a.toNat).mask = f.b.extractLsb' 0 4 := hm
  simp only [execFbar, if_neg ha, s.ctlBad_eq f hp, hm', bne_self_eq_false, Bool.false_eq_true, if_false, State.parked, State.atBar, State.arrivedBar, State.barOf, State.mySlot]

theorem exec_fbar_clash (hm : (s.barOf f).mask ≠ f.b.extractLsb' 0 4) : exec (.fbar f) s = .next (s.trapHere s.cur .illegalEncoding 0 0 0) := by
  show execFbar f s = _
  have hm' : (tget { mask := f.b.extractLsb' 0 4, arrived := 0 } (s.slot (slotOf s.cur)).bars f.a.toNat).mask ≠ f.b.extractLsb' 0 4 := hm
  simp only [execFbar, if_neg ha, s.ctlBad_eq f hp, Bool.false_eq_true, if_false, if_pos (bne_iff_ne.2 hm')]

end

/-! What a fibre's entries wait for, where entries are added and selected (R158, R159). -/

theorem addEntry_waits {p : Wait → Prop} {x : Entry} {fr : List Entry} (hx : p x.wait) (h : ∀ e ∈ fr, p e.wait) : ∀ e ∈ addEntry x fr, p e.wait := by
  induction fr with
  | nil =>
    unfold addEntry
    split
    · exact h
    · exact List.forall_mem_singleton.2 hx
  | cons y fr ih =>
    obtain ⟨hy, hfr⟩ := List.forall_mem_cons.1 h
    unfold addEntry
    split
    · exact List.forall_mem_cons.2 ⟨hy, hfr⟩
    · exact List.forall_mem_cons.2 ⟨hy, ih hfr⟩

theorem mergeAll_waits {p : Wait → Prop} {fr : List Entry} (h : ∀ e ∈ fr, p e.wait) : ∀ e ∈ mergeAll fr, p e.wait := by
  have hgen (acc : List Entry) (hacc : ∀ e ∈ acc, p e.wait) : ∀ e ∈ fr.foldl (fun acc e => addEntry e acc) acc, p e.wait := by
    induction fr generalizing acc with
    | nil => exact hacc
    | cons x fr ih =>
      obtain ⟨hx, hfr⟩ := List.forall_mem_cons.1 h
      exact ih hfr _ (addEntry_waits hx hacc)
  exact hgen [] nofun

theorem State.select_waits {p : Wait → Prop} (s : State) (k : Nat) (h : ∀ e ∈ (s.fib k).frontier, p e.wait) :
    ∀ e ∈ ((s.select k).fib k).frontier, p e.wait := by
  have hmerged : ∀ e ∈ mergeAll ((s.fib k).frontier.map (fun e => s.peek k e)), p e.wait := by
    refine mergeAll_waits (List.forall_mem_map.2 fun e he => ?_)
    obtain ⟨-, -, -, -, -, hwait⟩ := s.peek_place k e
    exact hwait ▸ h e he
  unfold State.select
  dsimp only
  split
  · rwa [State.fib_setFib_self]
  next b hb =>
    rw [State.fib_setFib_self]
    exact List.forall_mem_cons.2 ⟨hmerged b (bestEntry_mem _ _ hb), fun e he => hmerged e (List.mem_filter.1 he).1⟩

/-! What a barrier that opens leaves of its slot and of the entries that waited (R179). -/

theorem Entry.unpark_eq (id : Nat) (e : Entry) : e.unpark id = { e with wait := if e.wait = .fbar id then .none else e.wait } := by
  unfold Entry.unpark
  split <;> rfl

/-- No entry of the fibre waits at the barrier. -/
def Fibre.freeOf (f : Fibre) (id : Nat) : Prop := ∀ e ∈ f.frontier, e.wait ≠ .fbar id

/-- A lane of the fibre stands at a place, and waits there at the barrier or not at all. -/
def Fibre.metAt (f : Fibre) (id l : Nat) (x : Entry) : Prop := f.stands l { x with wait := .fbar id } ∨ f.stands l { x with wait := .none }

theorem Fibre.metAt_free {f : Fibre} {id l : Nat} {x : Entry} (h : f.metAt id l x) (hfree : f.freeOf id) : f.stands l { x with wait := .none } := by
  refine h.resolve_left ?_
  rintro ⟨e, he, -, -, -, hwait⟩
  exact hfree e he hwait

theorem State.unpark_self_frees (s : State) (id k : Nat) : ((s.unpark id k).fib k).freeOf id := by
  unfold State.unpark
  dsimp only
  split
  · refine State.select_waits (p := (· ≠ .fbar id)) _ k ?_
    rw [State.fib_setFib_self]
    refine List.forall_mem_map.2 fun e _ => ?_
    rw [Entry.unpark_eq]
    dsimp only
    split
    · exact nofun
    next h => exact h
  next hnone =>
    have hfree : (s.fib k).freeOf id := by simpa [Fibre.freeOf] using hnone
    split
    · rw [State.fib_setFib_self]
      exact hfree
    · exact hfree

theorem State.unpark_frees (s : State) (id j k : Nat) (h : (s.fib k).freeOf id) : ((s.unpark id j).fib k).freeOf id := by
  by_cases hk : k = j
  · rw [hk]
    exact s.unpark_self_frees id j
  · rwa [(s.unpark_fib id j).1.fibres k hk]

theorem State.unpark_metAt (s : State) (id j k l : Nat) (x : Entry) (h : (s.fib k).metAt id l x) : ((s.unpark id j).fib k).metAt id l x := by
  by_cases hk : k = j
  · subst hk
    unfold State.unpark
    dsimp only
    split
    · refine .inr ((State.select_stands _ k l _).2 ?_)
      rw [State.fib_setFib_self, Fibre.stands, funext (Entry.unpark_eq id)]
      rcases h with h | h
      · simpa using standsIn_mapWait (fun w => if w = .fbar id then .none else w) h
      · simpa using standsIn_mapWait (fun w => if w = .fbar id then .none else w) h
    · split
      · rw [State.fib_setFib_self]
        exact h
      · exact h
  · rwa [(s.unpark_fib id j).1.fibres k hk]

/-- What one step of a fold brings about and no step undoes holds at its end. -/
theorem foldl_reaches {α β : Type} (P : α → Prop) (step : α → β → α) {l : List β} {x : β} (hx : x ∈ l) (hdo : ∀ a, P (step a x))
    (hkeep : ∀ a, ∀ y ∈ l, P a → P (step a y)) (a : α) : P (l.foldl step a) := by
  induction l generalizing a with
  | nil => cases hx
  | cons y l ih =>
    have hlater (a : α) (z : β) (hz : z ∈ l) (ha : P a) : P (step a z) := hkeep a z (List.mem_cons_of_mem _ hz) ha
    rcases List.mem_cons.1 hx with rfl | hx
    · exact List.foldlRecOn l step (hdo a) (fun a ha z hz => hlater a z hz ha)
    · exact ih hx hlater _

/-- The fibres of a slot are released one after the other. -/
def State.unparkAll (s : State) (slot id : Nat) : State := (List.range 4).foldl (fun s i => s.unpark id (4 * slot + i)) s

theorem State.unparkAll_slots (s : State) (slot id : Nat) : (s.unparkAll slot id).slots = s.slots :=
  foldl_inv (fun t : State => t.slots = s.slots) _ (fun t _ h => (t.unpark_fib id _).2.1.trans h) _ s rfl

theorem State.unparkAll_cur (s : State) (slot id : Nat) : (s.unparkAll slot id).cur = s.cur :=
  foldl_inv (fun t : State => t.cur = s.cur) _ (fun t _ h => (t.unpark_fib id _).1.cur.trans h) _ s rfl

theorem State.unparkAll_metAt (s : State) (slot id k l : Nat) (x : Entry) (h : (s.fib k).metAt id l x) : ((s.unparkAll slot id).fib k).metAt id l x :=
  foldl_inv (fun t : State => (t.fib k).metAt id l x) _ (fun t _ h => t.unpark_metAt id _ k l x h) _ s h

theorem State.unparkAll_frees (s : State) (slot id i : Nat) (hi : i < 4) : ((s.unparkAll slot id).fib (4 * slot + i)).freeOf id := by
  exact foldl_reaches (fun t : State => (t.fib (4 * slot + i)).freeOf id) _ (List.mem_range.2 hi) (fun t => t.unpark_self_frees id _)
    (fun t _ _ h => t.unpark_frees id _ _ h) s

theorem State.orderAt_same (s : State) (slot among q : Nat) :
    (s.orderAt slot among q).cur = s.cur ∧ ((s.orderAt slot among q).slot slot).bars = (s.slot slot).bars := by
  unfold State.orderAt
  split
  · exact ⟨rfl, rfl⟩
  next r _ =>
    have hput (u : State) (hu : u.slots = s.slots) (hcur : u.cur = s.cur) (g : Slot → Slot) (hg : ∀ x, (g x).bars = x.bars) :
        (u.modSlot slot g).cur = s.cur ∧ ((u.modSlot slot g).slot slot).bars = (s.slot slot).bars := by
      refine ⟨hcur, ?_⟩
      rw [State.slot_modSlot_self, hg]
      simp only [State.slot, hu]
    refine hput _ (by split <;> rfl) (by split <;> rfl) _ fun x => ?_
    split
    · split <;> rfl
    · rfl

theorem State.order_same (s : State) (slot among : Nat) :
    (s.order slot among).cur = s.cur ∧ ((s.order slot among).slot slot).bars = (s.slot slot).bars := by
  refine foldl_inv (fun t : State => t.cur = s.cur ∧ (t.slot slot).bars = (s.slot slot).bars) _ (fun t q h => ?_) _ s ⟨rfl, rfl⟩
  obtain ⟨hcur, hbars⟩ := t.orderAt_same slot among q
  exact ⟨hcur.trans h.1, hbars.trans h.2⟩

theorem tdel_tput {α : Type} (t : Tab α) (k : Nat) (v : α) : tdel (tput t k v) k = tdel t k := by
  induction t with
  | nil => simp [tput, tdel]
  | cons e t ih =>
    obtain ⟨a, w⟩ := e
    unfold tput
    split
    · simp [tdel]
    · split
      next h => simp [tdel, h]
      next h => simp [tdel, Ne.symm h, ih]

section
variable (s : State) (slot id : Nat) (b : Bar) (hb : tfind (s.slot slot).bars id = some b)
include hb

theorem State.openBar_unparks : s.openBar slot id = (s.dropBar slot id b.mask.toNat).unparkAll slot id := s.openBar_eq slot id b hb

/-- The slot of a barrier that has opened: the barrier is gone, and the shared window is in order. -/
theorem State.openBar_slot : (s.openBar slot id).slot slot =
    { (s.order slot b.mask.toNat).slot slot with bars := tdel (s.slot slot).bars id } := by
  rw [s.openBar_unparks slot id b hb]
  refine (congrArg (tget Slot.empty · slot) (State.unparkAll_slots _ _ _)).trans ((State.slot_modSlot_self _ _ _).trans ?_)
  rw [(s.order_same slot b.mask.toNat).2]

theorem State.openBar_cur : (s.openBar slot id).cur = s.cur := by
  rw [s.openBar_unparks slot id b hb, State.unparkAll_cur]
  exact (s.order_same slot _).1

theorem State.openBar_metAt (k l : Nat) (x : Entry) (h : (s.fib k).metAt id l x) : ((s.openBar slot id).fib k).metAt id l x := by
  rw [s.openBar_unparks slot id b hb]
  refine State.unparkAll_metAt _ _ _ _ _ _ ?_
  rwa [s.dropBar_fib]

theorem State.openBar_frees (i : Nat) (hi : i < 4) : ((s.openBar slot id).fib (4 * slot + i)).freeOf id := by
  rw [s.openBar_unparks slot id b hb]
  exact State.unparkAll_frees _ _ _ _ hi

end

/-! An fbar that completes its barrier, and one that does not (R25, R179). -/

theorem Quiet.life {s t : State} (h : Quiet s t) : t.me.life = s.me.life := (congrArg Fibre.life h.kept :)

theorem quarter_slot_fib (k : Nat) : k = 4 * slotOf k + fibIdx k := by
  unfold slotOf fibIdx
  omega

section
variable (s : State) (f : FC) (hp : Plain s)
include hp

/-- The fibre has arrived: its slot holds the barrier, and its lanes wait there. -/
theorem State.parked_facts : Quiet (s.atBar f) (s.parked f) ∧
    (∀ l, s.me.entry.mask.getLsbD l = true → (s.parked f).me.stands l (s.atNextWaiting (.fbar f.a.toNat))) := by
  have hq : Plain (s.atBar f) :=
    ⟨hp.scalars, hp.predicates, (congrArg Slot.stackBad (State.slot_modSlot_self _ _ _)).trans hp.vectors, hp.single, hp.windows, hp.lasting⟩
  exact ⟨State.waitAt_quiet _ _ hq, fun l hl => State.waitAt_stands _ _ hq l hl⟩

theorem State.parked_cur : (s.parked f).cur = s.cur := (congrArg State.cur (s.parked_facts f hp).1.near.rest :)

theorem State.parked_slot : (s.parked f).slot (slotOf s.cur) = { s.mySlot with bars := tput s.mySlot.bars f.a.toNat (s.arrivedBar f) } := by
  have hslot := (s.parked_facts f hp).1.slot
  unfold State.mySlot at hslot
  rw [s.parked_cur f hp] at hslot
  exact hslot.trans (State.slot_modSlot_self _ _ _)

theorem State.parked_bar : tfind ((s.parked f).slot (slotOf s.cur)).bars f.a.toNat = some (s.arrivedBar f) := by
  rw [s.parked_slot f hp]
  exact tfind_tput_self _ _ _

theorem State.parked_done (k : Nat) : (s.parked f).fibreDone k = s.fibreDone k := by
  obtain ⟨hq, -⟩ := s.parked_facts f hp
  unfold State.fibreDone
  by_cases hk : k = s.cur
  · have hlife := hq.life
    unfold State.me at hlife
    rw [s.parked_cur f hp] at hlife
    rw [hk, hlife]
    rfl
  · rw [hq.near.fibres k hk]
    rfl

/-- The barrier is looked at with the fibre arrived. -/
theorem State.parked_full (hm : (s.barOf f).mask = f.b.extractLsb' 0 4) :
    (List.range 4).all (fun i => !(s.arrivedBar f).mask.getLsbD i || (s.arrivedBar f).arrived.getLsbD i || (s.parked f).fibreDone (4 * slotOf s.cur + i)) = true ↔
      s.barFull f := by
  simp only [List.all_eq_true, List.mem_range, State.barFull, State.arrivedBar, hm, s.parked_done f hp]
  refine forall₂_congr fun i hi => ?_
  have hbit : (BitVec.ofNat 4 (2 ^ fibIdx s.cur)).getLsbD i = decide (i = fibIdx s.cur) := by
    simp only [BitVec.getLsbD_ofNat, hi, decide_true, Bool.true_and, Nat.testBit_two_pow, eq_comm]
  rw [BitVec.getLsbD_or, hbit]
  cases (f.b.extractLsb' 0 4).getLsbD i <;> simp [or_assoc, or_left_comm]

/-- Some fibre has not arrived: the barrier stays. -/
theorem State.parked_waits (hm : (s.barOf f).mask = f.b.extractLsb' 0 4) (hfull : ¬ s.barFull f) :
    (s.parked f).checkBar (slotOf s.cur) f.a.toNat = s.parked f := by
  unfold State.checkBar
  rw [s.parked_bar f hp]
  exact if_neg (fun h => hfull ((s.parked_full f hp hm).1 h))

/-- Every fibre has arrived or exited: the barrier opens. -/
theorem State.parked_opens (hm : (s.barOf f).mask = f.b.extractLsb' 0 4) (hfull : s.barFull f) :
    (s.parked f).checkBar (slotOf s.cur) f.a.toNat = (s.parked f).openBar (slotOf s.cur) f.a.toNat := by
  unfold State.checkBar
  rw [s.parked_bar f hp]
  exact if_pos ((s.parked_full f hp hm).2 hfull)

/-- What an fbar leaves that completes its barrier. -/
theorem State.opened_slot : (((s.parked f).openBar (slotOf s.cur) f.a.toNat).select s.cur).mySlot =
    { ((s.parked f).order (slotOf s.cur) (s.arrivedBar f).mask.toNat).slot (slotOf s.cur) with bars := tdel s.mySlot.bars f.a.toNat } := by
  have hopen := (s.parked f).openBar_slot (slotOf s.cur) f.a.toNat _ (s.parked_bar f hp)
  have hcur := (s.parked f).openBar_cur (slotOf s.cur) f.a.toNat _ (s.parked_bar f hp)
  unfold State.mySlot
  rw [(Near.select _ _).cur, hcur, s.parked_cur f hp, State.select_slot, hopen, s.parked_slot f hp, tdel_tput]
  rfl

theorem State.opened_frees (i : Nat) (hi : i < 4) :
    ((((s.parked f).openBar (slotOf s.cur) f.a.toNat).select s.cur).fib (4 * slotOf s.cur + i)).freeOf f.a.toNat := by
  have hopen := (s.parked f).openBar_frees (slotOf s.cur) f.a.toNat _ (s.parked_bar f hp) i hi
  by_cases hk : 4 * slotOf s.cur + i = s.cur
  · rw [hk] at hopen ⊢
    exact State.select_waits (p := (· ≠ .fbar f.a.toNat)) _ _ hopen
  · rwa [(Near.select _ _).fibres _ hk]

theorem State.opened_stands (l : Nat) (hl : s.me.entry.mask.getLsbD l = true) :
    (((s.parked f).openBar (slotOf s.cur) f.a.toNat).select s.cur).me.stands l (s.atNextWaiting .none) := by
  have hcur := (s.parked f).openBar_cur (slotOf s.cur) f.a.toNat _ (s.parked_bar f hp)
  have hparked := (s.parked_facts f hp).2 l hl
  have hfrees := (s.parked f).openBar_frees (slotOf s.cur) f.a.toNat _ (s.parked_bar f hp) (fibIdx s.cur) (Nat.mod_lt _ (by decide))
  unfold State.me at hparked ⊢
  rw [s.parked_cur f hp] at hparked hcur
  rw [(Near.select _ _).cur, hcur, State.select_stands]
  rw [← quarter_slot_fib] at hfrees
  exact Fibre.metAt_free ((s.parked f).openBar_metAt _ _ _ (s.parked_bar f hp) s.cur l (s.atNextWaiting .none) (.inl hparked)) hfrees

end

/-- nop, yield, wait and fbar. -/
theorem waitsAndBarriers : waitsAndBarriersRule := by
  refine ⟨fun s f hp => ⟨_, exec_nop s f, s.finish_quiet hp⟩, fun s f hp ha => ⟨_, exec_yield s f hp ha, ?_⟩, ?_, ?_⟩
  · obtain ⟨hnear, hslot, hkept, hpend⟩ := s.finish_quiet hp
    have hcur : (s.finish s.cur []).cur = s.cur := (congrArg State.cur hnear.rest :)
    refine ⟨⟨hnear.rest, hnear.fibres, fun j hj => (State.slot_modSlot_ne _ _ _ _ hj).trans (hnear.slots j hj)⟩, hkept, hpend, ?_⟩
    unfold State.mySlot at hslot ⊢
    rw [hcur] at hslot
    refine (congrArg ((s.finish s.cur []).modSlot _ _).slot (congrArg slotOf hcur)).trans ((State.slot_modSlot_self _ _ _).trans ?_)
    rw [hslot]
  · intro s f m hp ha
    obtain ⟨t, ht, hq, hstands⟩ : ∃ t, exec (.wait f) s = .next t ∧ Quiet s t ∧
        ∀ l, s.me.entry.mask.getLsbD l = true → t.me.stands l (s.atNextWaiting (s.me.wokenWait (if m = 0 then .all else .tok m))) :=
      ⟨_, exec_wait s f hp ha, s.waitAt_quiet _ hp, s.waitAt_stands _ hp⟩
    refine ⟨t, ht, hq.near, hq.slot, hq.kept, hq.pend, fun l _ hl => ⟨fun hm => ?_, fun hm => ?_⟩⟩
    · rw [if_neg hm] at hstands
      refine ⟨fun h => ?_, fun h => ?_⟩
      · rw [← (s.me.wokenWait_tok m).1 h]
        exact hstands l hl
      · rw [← (s.me.wokenWait_tok m).2 h]
        exact hstands l hl
    · rw [if_pos hm] at hstands
      refine ⟨fun h => ?_, fun h => ?_⟩
      · rw [← s.me.wokenWait_all.1 h]
        exact hstands l hl
      · rw [← s.me.wokenWait_all.2 h]
        exact hstands l hl
  · intro s f id m b full hp ha
    refine ⟨fun hm => ⟨_, exec_fbar s f hp ha hm, fun hfull => ?_, fun hfull => ?_, fun hfull => ?_⟩, fun hm hcan =>
      ⟨_, exec_fbar_clash s f hp ha hm, s.trapHere_took _ _ _ _ hcan⟩⟩
    · rw [s.parked_waits f hp hm hfull]
      refine ⟨?_, fun l _ hl => ?_⟩
      · unfold State.mySlot
        rw [(Near.select _ _).cur, s.parked_cur f hp, State.select_slot, s.parked_slot f hp]
        rfl
      · have hparked := (s.parked_facts f hp).2 l hl
        unfold State.me at hparked ⊢
        rw [s.parked_cur f hp] at hparked
        rwa [(Near.select _ _).cur, s.parked_cur f hp, State.select_stands]
    · rw [s.parked_opens f hp hm hfull]
      exact ⟨congrArg Slot.bars (s.opened_slot f hp), fun l _ hl => s.opened_stands f hp l hl⟩
    · rw [s.parked_opens f hp hm hfull]
      exact fun i hi => s.opened_frees f hp i hi

/-! The shared window (R25). -/

/-- A write of an entry that several fibres share: its writer sees it alone, and a sibling what was there or it. -/
theorem noteRace_seen (r : Option Race) (now : W32) (f : Nat) (v : W32) :
    (∀ g, v ∈ (noteRace r now f v).seen g) ∧
      (r = none → (noteRace r now f v).seen f = [v] ∧ ∀ g, g ≠ f → (noteRace r now f v).seen g = [now, v]) := by
  refine ⟨fun g => ?_, ?_⟩
  · unfold Race.seen
    cases r <;> split <;> simp [noteRace]
  · rintro rfl
    refine ⟨?_, fun g hg => ?_⟩
    · simp [Race.seen, noteRace, Nat.testBit_two_pow_self]
    · simp [Race.seen, noteRace, Ne.symm hg]

/-- A state that waits for its word issues it: of its slot's registers, what the fibre finds in the shared window may change. -/
theorem State.chosen_slot (s : State) (q k : Nat) :
    ((s.fib k).entry.inside = false → ((s.chosen q (slotOf k) k).slot (slotOf k)).stack = (s.slot (slotOf k)).stack) ∧
    ((s.fib k).entry.inside = true → ((s.chosen q (slotOf k) k).slot (slotOf k)).stack = ((s.find k).slot (slotOf k)).stack) := by
  unfold State.chosen
  refine ⟨fun h => ?_, fun h => ?_⟩
  · rw [if_neg (by simp [h])]
    show ((s.modSlot (slotOf k) (fun x => { x with turn := fibIdx k })).slot (slotOf k)).stack = _
    rw [State.slot_modSlot_self]
  · rw [if_pos h]
    show (((s.find k).modSlot (slotOf k) (fun x => { x with turn := fibIdx k, idle := 0, promoted := false, fired := true })).slot (slotOf k)).stack = _
    rw [State.slot_modSlot_self]

/-- What the shared window holds after the word of a writer, the choice of a fibre, and a common fbar. -/
theorem sharedWindow : sharedWindowRule := by
  refine ⟨?_, ?_, ?_⟩
  · intro s k e l v hl x y
    have hkey : (32 * e + l) / 32 = e := by omega
    have hslot : y = x.put k (.stk e l v) := s.regWrite_slot k (.stk e l v)
    obtain ⟨hall, hfirst⟩ := noteRace_seen (tfind x.races (32 * e + l)) (x.at e l) (fibIdx k) v
    rw [hslot]
    refine ⟨tget_tset_self _ _ _ _, fun hown => ?_, fun hshared => ⟨_, ?_, hall, fun hnone => hfirst hnone⟩⟩
    · simp [Slot.put, hkey, hown]
    · simp only [Slot.put, hkey, if_neg (Nat.not_lt.2 hshared)]
      exact tfind_tput_self _ _ _
  · intro s q k e l x y
    obtain ⟨houtside, hinside⟩ := s.chosen_slot q k
    obtain ⟨-, hkeeps, hfinds⟩ := s.find_spec k (32 * e + l)
    refine ⟨fun hnone => ?_, fun r hin hr hold => ?_⟩
    · cases hin : (s.fib k).entry.inside
      · exact congrArg (tget 0 · (32 * e + l)) (houtside hin)
      · exact (congrArg (tget 0 · (32 * e + l)) (hinside hin)).trans (hkeeps hnone)
    · have hfound := hfinds r hr hold
      rwa [← hinside hin] at hfound
  · intro s f m b hp ha hm hfull
    refine ⟨_, exec_fbar s f hp ha hm, fun e l r hr hw => ?_⟩
    have hmask : (s.arrivedBar f).mask = m := hm
    rw [s.parked_opens f hp hm hfull, s.opened_slot f hp, hmask]
    have hparked : tfind ((s.parked f).slot (slotOf s.cur)).races (32 * e + l) = some r := by
      rw [s.parked_slot f hp]
      exact hr
    obtain ⟨w, hin, hsees, hordered⟩ := (s.parked f).order_spec (slotOf s.cur) m.toNat (32 * e + l) r hparked hw
    refine ⟨w, hin, hsees, ?_⟩
    generalize ((s.parked f).order (slotOf s.cur) m.toNat).slot (slotOf s.cur) = x at hordered ⊢
    rcases hordered with hone | ⟨r', hr', -, hone⟩
    · exact .inl hone
    · exact .inr ⟨r', hr', hone⟩

/-! Headers (R58, R62, R64, R278). -/

theorem Cls.ofCode_of_le (c : BitVec 4) (h : c.toNat ≤ 8) : ∃ cls, Cls.ofCode c = some cls ∧ (cls = .mem ↔ c = 4) := by
  have hmem : c = 4 ↔ c.toNat = 4 := by bv_omega
  rw [hmem]
  unfold Cls.ofCode
  interval_cases c.toNat <;> simp

theorem Cls.ofCode_of_gt (c : BitVec 4) (h : 8 < c.toNat) : Cls.ofCode c = none := by
  have hlt := c.isLt
  unfold Cls.ofCode
  interval_cases c.toNat <;> rfl

section
variable (h : Hdr)

theorem Hdr.check_ok (hcls : h.cls.toNat ≤ 8) (hrsv : h.rsv = 0) (heph : h.eph.toNat < 2 ^ (h.cnt.toNat + 1)) :
    ∃ cls, h.check = .ok cls ∧ (cls = .mem ↔ h.cls = 4) := by
  obtain ⟨cls, hcode, hmem⟩ := Cls.ofCode_of_le h.cls hcls
  refine ⟨cls, ?_, hmem⟩
  unfold Hdr.check
  rw [hcode]
  exact if_pos (by simp [hrsv, heph])

theorem Hdr.check_class (hcls : 8 < h.cls.toNat) : h.check = .error .illegalClass := by
  unfold Hdr.check
  rw [Cls.ofCode_of_gt h.cls hcls]

theorem Hdr.check_encoding (hcls : h.cls.toNat ≤ 8) (hbad : h.rsv ≠ 0 ∨ 2 ^ (h.cnt.toNat + 1) ≤ h.eph.toNat) : h.check = .error .illegalEncoding := by
  obtain ⟨cls, hcode, -⟩ := Cls.ofCode_of_le h.cls hcls
  unfold Hdr.check
  rw [hcode]
  refine if_neg ?_
  simpa only [Bool.and_eq_true, decide_eq_true_eq, not_and_or, Nat.not_lt] using hbad

end

/-- The place of the lanes of an entry that enters a clause: its first word. -/
def Entry.enter (e : Entry) (w : W64) (wait : Wait) : Entry :=
  { e with hdr := e.pc, pc := e.pc + 8, hw := w, inside := true, bpri := (Hdr.ofWord w).bpri, wait := wait }

/-- The fibre whose entry enters a clause; a mem clause is a new group. -/
def Fibre.enter (f : Fibre) (w : W64) (wait : Wait) : Fibre :=
  { f.setEntry (f.entry.enter w wait) with group := f.group + if (Hdr.ofWord w).cls = 4 then 1 else 0 }

/-- The fibre whose entry enters a clause and waits for tokens; the wait has ended where none is held. -/
def Fibre.enterHeld (f : Fibre) (w : W64) (m : BitVec 8) : Fibre :=
  { f.enter w (.wtok m) with frontier := (f.enter w (.wtok m)).frontier.map (fun e => { e with wait := f.wokenWait e.wait }) }

theorem Fibre.setEntry_kept (f : Fibre) (e : Entry) : (f.setEntry e).kept = f.kept ∧ (f.setEntry e).pend = f.pend := by
  unfold Fibre.setEntry
  split <;> exact ⟨rfl, rfl⟩

theorem Fibre.setEntry_frontier {f : Fibre} (h : f.frontier ≠ []) (e : Entry) : ∃ rest, (f.setEntry e).frontier = e :: rest := by
  unfold Fibre.setEntry
  split
  next rest _ => exact ⟨rest, rfl⟩
  next hnil => exact absurd hnil h

theorem Fibre.entry_of_cons {f : Fibre} {e : Entry} {rest : List Entry} (h : f.frontier = e :: rest) : f.entry = e := by
  unfold Fibre.entry
  rw [h]

theorem Fibre.enter_wokenWait (f : Fibre) (w : W64) (wait v : Wait) : (f.enter w wait).wokenWait v = f.wokenWait v := by
  have hpend : (f.enter w wait).pend = f.pend := (f.setEntry_kept _).2
  unfold Fibre.wokenWait Fibre.held
  rw [hpend]

theorem State.wake_enter (s : State) (w : W64) (m : BitVec 8) :
    ((s.setFib s.cur (s.me.enter w (.wtok m))).wake s.cur).select s.cur = s.reselect (s.me.enterHeld w m) := by
  rw [State.wake_eq, State.fib_setFib_self, State.setFib_setFib, funext (s.me.enter_wokenWait w (.wtok m))]
  rfl

/-- A header that passes its check lets its entry into the clause. -/
theorem exec_clauseEntry (s : State) (w : W64) (hcls : (Hdr.ofWord w).cls.toNat ≤ 8) (hrsv : (Hdr.ofWord w).rsv = 0)
    (heph : (Hdr.ofWord w).eph.toNat < 2 ^ ((Hdr.ofWord w).cnt.toNat + 1)) :
    exec (.clauseEntry w) s = .next (if (Hdr.ofWord w).wtok = 0 then s.setFib s.cur (s.me.enter w .none) else s.reselect (s.me.enterHeld w (Hdr.ofWord w).wtok)) := by
  obtain ⟨cls, hcheck, hmem⟩ := Hdr.check_ok (Hdr.ofWord w) hcls hrsv heph
  have hgroup (n : Nat) : (if cls = .mem then n + 1 else n) = n + if (Hdr.ofWord w).cls = 4 then 1 else 0 := by
    simp only [hmem]
    split <;> rfl
  show execClauseEntry w s = _
  simp only [execClauseEntry, hcheck, ← s.wake_enter]
  by_cases hw : (Hdr.ofWord w).wtok = 0
  · simp only [if_pos hw, hgroup]
    rfl
  · simp only [if_neg hw, hgroup]
    rfl

/-- Entering a clause, and the two traps of a header. -/
theorem clauseEntry : clauseEntryRule := by
  intro s w h place
  refine ⟨fun hcls hrsv heph hfr => ⟨_, exec_clauseEntry s w hcls hrsv heph, ?_⟩, fun hcan hcls => ⟨s.trapHere s.cur .illegalClass 0 0 0, ?_, ?_⟩,
    fun hcan hcls hbad => ⟨s.trapHere s.cur .illegalEncoding 0 0 0, ?_, ?_⟩⟩
  · by_cases hw : h.wtok = 0
    · rw [if_pos hw]
      obtain ⟨rest, hrest⟩ := Fibre.setEntry_frontier hfr (s.me.entry.enter w .none)
      obtain ⟨hkept, hpend⟩ := s.me.setEntry_kept (s.me.entry.enter w .none)
      have hme : (s.setFib s.cur (s.me.enter w .none)).me = s.me.enter w .none := State.fib_setFib_self _ _ _
      refine ⟨(Near.setFib _ _ _).local, rfl, ?_, ?_, ?_, ?_, fun _ => ?_, fun hne => absurd hw hne, fun hne => absurd hw hne⟩
      all_goals rw [hme]
      · rfl
      · exact (congrArg Fibre.sregs hkept :)
      · exact (congrArg Fibre.pregs hkept :)
      · exact hpend
      · exact Fibre.entry_of_cons hrest
    · rw [if_neg hw]
      obtain ⟨rest, hrest⟩ := Fibre.setEntry_frontier hfr (s.me.entry.enter w (.wtok h.wtok))
      obtain ⟨hkept, hpend⟩ := s.me.setEntry_kept (s.me.entry.enter w (.wtok h.wtok))
      obtain ⟨fr, hme⟩ := s.reselect_me (s.me.enterHeld w h.wtok)
      have hstands (l : Nat) (hl : s.me.entry.mask.getLsbD l = true) :
          (s.reselect (s.me.enterHeld w h.wtok)).me.stands l { place with wait := s.me.wokenWait (.wtok h.wtok) } := by
        rw [State.reselect_stands]
        refine standsIn_mapWait s.me.wokenWait (x := { place with wait := .wtok h.wtok }) ?_
        show standsIn (s.me.setEntry (s.me.entry.enter w (.wtok h.wtok))).frontier l _
        rw [hrest, standsIn_cons, standsIn_single]
        exact .inl ⟨hl, rfl, rfl, rfl⟩
      refine ⟨(s.reselect_near _).local, s.reselect_mySlot _, ?_, ?_, ?_, ?_, fun h0 => absurd h0 hw, fun _ hheld l hl => ?_, fun _ hheld l hl => ?_⟩
      · rw [hme]
        rfl
      · rw [hme]
        exact (congrArg Fibre.sregs hkept :)
      · rw [hme]
        exact (congrArg Fibre.pregs hkept :)
      · rw [hme]
        exact hpend
      · rw [← (s.me.wokenWait_wtok h.wtok).1 hheld]
        exact hstands l hl
      · rw [← (s.me.wokenWait_wtok h.wtok).2 hheld]
        exact hstands l hl
  · show execClauseEntry w s = _
    simp only [execClauseEntry, Hdr.check_class (Hdr.ofWord w) hcls]
  · exact s.trapHere_took _ _ _ _ hcan
  · show execClauseEntry w s = _
    simp only [execClauseEntry, Hdr.check_encoding (Hdr.ofWord w) hcls hbad]
  · exact s.trapHere_took _ _ _ _ hcan

/-- Settles O15: a word that waits stands at Next with its wait (`State.waitAt_stands`); a barrier that opens frees every entry that waited at it
(`State.openBar_frees`) and leaves the shared window in order (`State.order_spec`). -/
theorem waitsBarriersAndClauses : Obligations.WaitsBarriersAndClauses := ⟨waitsAndBarriers, sharedWindow, clauseEntry⟩

end Sys2Proof.Machine
end

section
/-! SUPPORT. The proofs of the scope: the status of a grid (R134, R135). -/

namespace Sys2Proof.Machine

theorem gkey_vd {vd id : Nat} (h : id < 2 ^ 32) : gkey vd id / 2 ^ 32 = vd := by
  unfold gkey
  omega

theorem State.aBad_eq (s : State) (f : FY) (hp : Plain s) : s.aBad s.cur f = false := by
  simp [State.aBad, State.pBadSrc_eq s _ hp, State.sBadSrc_eq s _ hp]

theorem exec_lstat (s : State) (f : FY) (hp : Plain s) (ha : s.acts s.cur f.hd &&& ~~~s.me.helper ≠ 0) (hpriv : 1 ≤ s.me.priv.code) :
    exec (.lstat f) s = .next (s.issue s.cur f.hd (mkPend .other [.sreg f.d.toNat (s.lstatWord (s.vdOf s.cur) (s.ssrc s.cur f.a))] true none)) := by
  have hlevel : s.atLeast s.cur .supervisor = true := decide_eq_true hpriv
  have hhelp : s.onlyHelpers s.cur (s.acts s.cur f.hd) = false := decide_eq_false ha
  show execLstat f s = _
  simp only [execLstat, hlevel, hhelp, s.aBad_eq f hp, Bool.not_true, Bool.false_eq_true, if_false]

/-- What `lstat` says of a grid that it knows. -/
def Grid.statusWord (x : Grid) (noFit waits : Bool) : W64 :=
  BitVec.ofNat 64 (x.st.code + (if noFit then 16 else 0) + (if waits then 32 else 0) + 256 * min x.done (2 ^ 56 - 1))

theorem Grid.statusWord_fields (x : Grid) (noFit waits : Bool) :
    field (x.statusWord noFit waits) 0 4 = x.st.code ∧ (x.statusWord noFit waits).getLsbD 4 = noFit ∧ (x.statusWord noFit waits).getLsbD 5 = waits ∧
      field (x.statusWord noFit waits) 6 2 = 0 ∧ field (x.statusWord noFit waits) 8 56 = min x.done (2 ^ 56 - 1) := by
  have hst : x.st.code < 16 := by cases x.st <;> decide
  have hfit : (if noFit then 16 else 0) = 16 * noFit.toNat := by cases noFit <;> rfl
  have hwait : (if waits then 32 else 0) = 32 * waits.toNat := by cases waits <;> rfl
  have hfit1 := noFit.toNat_le
  have hwait1 := waits.toNat_le
  have hdone : min x.done (2 ^ 56 - 1) < 2 ^ 56 := by omega
  unfold Grid.statusWord
  rw [hfit, hwait]
  generalize min x.done (2 ^ 56 - 1) = done at hdone
  rw [field_ofNat _ _ _ (by omega), field_ofNat _ _ _ (by omega), field_ofNat _ _ _ (by omega)]
  exact ⟨by omega, getLsbD_ofNat_eq _ _ _ (by decide) (by omega), getLsbD_ofNat_eq _ _ _ (by decide) (by omega), by omega, by omega⟩

/-- The grids that `lstat` knows: those of the virtual device after which fewer than 4,096 later ones have ended. -/
def State.knowsGrid (s : State) (vd id : Nat) : Prop :=
  id ≠ 0 ∧ id < 2 ^ 32 ∧ (tfind s.grids (gkey vd id)).isSome = true ∧ s.laterEnded vd id < 4096

theorem State.lstatWord_known (s : State) (vd : Nat) (a : W64) (h : s.knowsGrid vd a.toNat) :
    s.lstatWord vd a = (s.grid (gkey vd a.toNat)).statusWord (s.noFit (gkey vd a.toNat))
      ((s.grid (gkey vd a.toNat)).ready && !s.energyOk (gkey vd a.toNat)) := by
  obtain ⟨h0, hlt, hsome, hlater⟩ := h
  have hnone : (tfind s.grids (gkey vd a.toNat)).isNone = false := by simpa using hsome
  unfold State.lstatWord
  refine if_neg ?_
  simp only [Bool.or_eq_true, decide_eq_true_eq, hnone, Bool.false_eq_true, or_false, not_or, Nat.not_le]
  exact ⟨⟨hlt, h0⟩, hlater⟩

theorem State.lstatWord_unknown (s : State) (vd : Nat) (a : W64) (h : ¬ s.knowsGrid vd a.toNat) : s.lstatWord vd a = 0 := by
  unfold State.lstatWord
  refine if_pos ?_
  by_contra hcond
  simp only [Bool.or_eq_true, decide_eq_true_eq, not_or, Nat.not_le, Option.isNone_iff_eq_none] at hcond
  obtain ⟨⟨⟨hlt, h0⟩, hsome⟩, hlater⟩ := hcond
  exact h ⟨h0, hlt, Option.isSome_iff_ne_none.2 hsome, hlater⟩

/-- The word of lstat, of a grid that it knows and of any other identifier. -/
theorem lstatAnswers : lstatRule := by
  intro s f hp ha hpriv vd id x known
  refine ⟨_, _, exec_lstat s f hp ha hpriv, s.issue_owes f.hd .other true _ hp, fun h => s.lstatWord_unknown vd _ h, fun h => ?_⟩
  have hlt : id < 2 ^ 32 := h.2.1
  rw [s.lstatWord_known vd _ h]
  obtain ⟨hst, hfit, hwait, hzero, hdone⟩ := x.statusWord_fields (s.noFit (gkey vd id)) (x.ready && !s.energyOk (gkey vd id))
  have hcode (st : GridState) (hx : x.st = st) : field (x.statusWord (s.noFit (gkey vd id)) (x.ready && !s.energyOk (gkey vd id))) 0 4 = st.code := hx ▸ hst
  refine ⟨hcode .admitted, hcode .running, hcode .provisional, hcode .confirmed, hcode .killed, ?_, ?_, hzero, hdone⟩
  · rw [hfit, State.noFit, gkey_vd hlt]
    simp only [x, List.all_eq_true, Option.isNone_iff_eq_none]
  · rw [hwait]
    simp

end Sys2Proof.Machine
end

section
/-! SUPPORT. The proofs of the scope: the dispatcher ends and starts (R124). -/

namespace Sys2Proof.Machine

/-! The running dispatcher ends. -/

/-- A workgroup is listed that is neither ended nor killed. -/
theorem State.wg_listed (s : State) {w : Nat} (h : (s.wg w).life ≠ .ended) : tfind s.wgs w = some (s.wg w) := by
  unfold State.wg tget at h ⊢
  cases hf : tfind s.wgs w with
  | none => rw [hf] at h; exact absurd rfl h
  | some x => rfl

/-- A workgroup that is neither ended nor killed is on its core or saved. -/
theorem State.onCore_or_saved (s : State) {w : Nat} (hended : (s.wg w).life ≠ .ended) (hkilled : (s.wg w).life ≠ .killed) :
    s.onCore w = true ∨ (s.wg w).life = .saved := by
  unfold State.onCore
  cases hlife : (s.wg w).life with
  | running => exact .inl rfl
  | stopping b => exact .inl rfl
  | saved => exact .inr rfl
  | ended => exact absurd hlife hended
  | killed => exact absurd hlife hkilled

theorem foldl_release_releasing (ws : List Nat) (s : State) (life : WgLife) : Releasing s (ws.foldl (fun (t : State) w => t.release w life) s) :=
  foldl_inv (fun t : State => Releasing s t) _ (fun _ w h => State.release_releasing h w life) ws s rfl

/-- Of a virtual device, a release frees bindings alone. -/
theorem State.release_vd (s : State) (w : Nat) (life : WgLife) (j : Nat) : { (s.release w life).vd j with binds := (s.vd j).binds } = s.vd j := by
  by_cases hj : j = (s.wg w).vd
  · subst hj
    exact (congrArg (fun v : Vd => { v with binds := (s.vd (s.wg w).vd).binds })
      (State.vd_modVd_self s (s.wg w).vd (fun v => { v with binds := v.binds - s.bindsOf w })) :)
  · exact (congrArg (fun v : Vd => { v with binds := (s.vd j).binds }) (State.vd_modVd_ne s (s.wg w).vd j (fun v => { v with binds := v.binds - s.bindsOf w }) hj) :)

theorem foldl_release_vd (ws : List Nat) (s : State) (life : WgLife) (j : Nat) :
    { (ws.foldl (fun (t : State) w => t.release w life) s).vd j with binds := (s.vd j).binds } = s.vd j := by
  refine foldl_inv (fun t : State => { t.vd j with binds := (s.vd j).binds } = s.vd j) _ (fun t w h => ?_) ws s rfl
  have hstep := t.release_vd w life j
  rw [← h, ← hstep]

/-- The end of a dispatcher releases its workgroups and kills its grid. -/
structure DispatcherEnded (s : State) (vd : Nat) (u : State) : Prop where
  rest   : Releasing s { u with grids := s.grids }
  vds    : ∀ j, { u.vd j with binds := (s.vd j).binds } = s.vd j
  others : ∀ g, g ≠ gkey vd 0 → u.grid g = s.grid g
  grid   : (u.grid (gkey vd 0)).st = .killed
  wgs    : ∀ w, gkey (s.wg w).vd (s.wg w).grid = gkey vd 0 → (s.wg w).life ≠ .ended → (s.wg w).life ≠ .killed → (u.wg w).life = .killed

theorem State.stopDispatcher_ended (s : State) (vd : Nat) : DispatcherEnded s vd (s.stopDispatcher vd) := by
  unfold State.stopDispatcher
  extract_lets k ws u
  have hrel : Releasing s u := foldl_release_releasing ws s .killed
  have hrest : Releasing s { u with grids := s.grids } := (congrArg (fun v : State => { v with grids := s.grids }) hrel :)
  have hgrids : u.grids = s.grids := (congrArg State.grids hrel :)
  have hvds : ∀ j, { u.vd j with binds := (s.vd j).binds } = s.vd j := foldl_release_vd ws s .killed
  have hwgs (w : Nat) (hgrid : gkey (s.wg w).vd (s.wg w).grid = gkey vd 0) (hended : (s.wg w).life ≠ .ended) (hkilled : (s.wg w).life ≠ .killed) :
      (u.wg w).life = .killed := by
    refine foldl_release_killed ws s w (.inl (List.mem_map.2 ⟨(w, s.wg w), List.mem_filter.2 ⟨tfind_mem _ _ _ (s.wg_listed hended), ?_⟩, rfl⟩))
    have hlive : s.live w = true := by simp [State.live, hended, hkilled]
    rcases s.onCore_or_saved hended hkilled with hon | hsaved
    · simp [k, hgrid, hlive, hon]
    · simp [k, hgrid, hsaved]
  clear_value u
  split
  next g _ =>
    refine ⟨hrest, hvds, fun j hj => ?_, (congrArg Grid.st (State.grid_setGrid_self _ _ _)), hwgs⟩
    rw [State.grid_setGrid_ne _ _ _ _ hj]
    exact congrArg (tget Grid.empty · j) hgrids
  next hnone =>
    refine ⟨hrest, hvds, fun j _ => congrArg (tget Grid.empty · j) hgrids, ?_, hwgs⟩
    unfold State.grid tget
    rw [hnone]
    rfl

/-! A dispatcher starts, or fails to (R124, R130). -/

/-- A dispatcher's record is admitted as the virtual device's grid 0, or fails with a status and leaves all as it is. -/
theorem State.admitRec_dispatcher {s : State} {core vd : Nat} {r : LaunchRec} {st : Nat} {t : State} (h : s.admitRec core vd r true = .ok (st, t)) :
    (st = 0 ∧ ∃ g, t = s.setGrid (gkey vd 0) g ∧ g.st = .admitted ∧ g.disp = true) ∨ (st ≠ 0 ∧ t = s) := by
  have hfails {n : Nat} (hn : n ≠ 0) (h : (Except.ok (n, s) : Except XErr (Nat × State)) = .ok (st, t)) :
      (st = 0 ∧ ∃ g, t = s.setGrid (gkey vd 0) g ∧ g.st = .admitted ∧ g.disp = true) ∨ (st ≠ 0 ∧ t = s) := by
    cases h
    exact .inr ⟨hn, rfl⟩
  have hfault {e : XErr} (h : (match e with | .mig => .error .mig | .fault _ => .ok (7, s) : Except XErr (Nat × State)) = .ok (st, t)) :
      (st = 0 ∧ ∃ g, t = s.setGrid (gkey vd 0) g ∧ g.st = .admitted ∧ g.disp = true) ∨ (st ≠ 0 ∧ t = s) := by
    cases e with
    | mig => cases h
    | fault c => exact hfails (by decide) h
  have hadmits {kd : KDesc} {args : List Byte} {q : QueueEnt} (h : (Except.ok (s.admitGrid vd r kd args q true) : Except XErr (Nat × State)) = .ok (st, t)) :
      (st = 0 ∧ ∃ g, t = s.setGrid (gkey vd 0) g ∧ g.st = .admitted ∧ g.disp = true) ∨ (st ≠ 0 ∧ t = s) := by
    cases h
    exact .inl ⟨rfl, _, rfl, rfl, rfl⟩
  unfold State.admitRec at h
  dsimp only at h
  split at h
  · exact hfails (by decide) h
  · split at h
    · exact hfault h
    · exact hfails (by decide) h
    · split at h
      · exact hfails (by decide) h
      · split at h
        · exact hfault h
        · split at h
          · exact hfails (by decide) h
          · split at h
            · exact hfails (by decide) h
            · split at h
              · exact hadmits h
              · split at h
                · exact hfails (by decide) h
                · split at h
                  · exact hfault h
                  · exact hadmits h

/-- The first kill is reported, with its vector. -/
theorem State.killCause_first (s : State) (vd code st : Nat) (h : (s.vd vd).killCause = 0) :
    ((s.killCause vd code st 0).vd vd).killCause = BitVec.ofNat 64 (code + 32 * st) ∧ ((s.killCause vd code st 0).vd vd).msix.getLsbD 2 = true := by
  unfold State.killCause
  rw [if_pos h]
  unfold State.msix
  rw [State.vd_modVd_self, State.vd_modVd_self]
  refine ⟨rfl, ?_⟩
  show ((s.vd vd).msix ||| BitVec.ofNat 5 (2 ^ 2)).getLsbD 2 = true
  rw [BitVec.getLsbD_or]
  simp

section
variable (u : State) (vd : Nat)

theorem State.startDispatcher_none (h : (u.vd vd).dispatchDesc = 0 ∨ (u.vd vd).enabled = false) : u.startDispatcher vd = u := by
  unfold State.startDispatcher
  dsimp only
  exact if_pos (by simpa using h)

variable (hdesc : (u.vd vd).dispatchDesc ≠ 0) (hon : (u.vd vd).enabled = true) {t : State}
include hdesc hon

theorem State.startDispatcher_started (h : u.admitRec (((u.vd vd).cfg.reserved ++ (u.vd vd).cfg.cores).headD 0) vd
    (dispatcherRec (u.vd vd).dispatchDesc (u.vd vd).dispatchArgs) true = .ok (0, t)) : u.startDispatcher vd = t := by
  unfold dispatcherRec at h
  unfold State.startDispatcher
  dsimp only
  rw [if_neg (by simpa [hon] using hdesc), h]
  rfl

theorem State.startDispatcher_failed {st : Nat} (hst : st ≠ 0) (h : u.admitRec (((u.vd vd).cfg.reserved ++ (u.vd vd).cfg.cores).headD 0) vd
    (dispatcherRec (u.vd vd).dispatchDesc (u.vd vd).dispatchArgs) true = .ok (st, t)) : u.startDispatcher vd = t.killCause vd 28 st 0 := by
  unfold dispatcherRec at h
  unfold State.startDispatcher
  dsimp only
  rw [if_neg (by simpa [hon] using hdesc), h]
  split
  next h0 => cases h0; exact absurd rfl hst
  next h1 => cases h1; rfl
  next h2 => cases h2

end

/-- A write of DISPATCH_DESC: the running dispatcher ends first, and the one that is named starts or its failure is reported. -/
theorem dispatcherWritten : dispatcherRule := by
  intro s vd v a
  obtain ⟨hrest, hvds, hothers, hgrid, hwgs⟩ := (s.modVd vd (fun x => { x with dispatchDesc := a })).stopDispatcher_ended vd
  have hexec : exec (.dispatchDescWrite vd v) s = .next (((s.modVd vd (fun x => { x with dispatchDesc := a })).stopDispatcher vd).startDispatcher vd) := rfl
  generalize (s.modVd vd (fun x => { x with dispatchDesc := a })).stopDispatcher vd = u at *
  have hvd := hvds vd
  rw [State.vd_modVd_self] at hvd
  have hdesc : (u.vd vd).dispatchDesc = a := (congrArg Vd.dispatchDesc hvd :)
  have hargs : (u.vd vd).dispatchArgs = (s.vd vd).dispatchArgs := (congrArg Vd.dispatchArgs hvd :)
  have hon : (u.vd vd).enabled = (s.vd vd).enabled := (congrArg Vd.enabled hvd :)
  have hcfg : (u.vd vd).cfg = (s.vd vd).cfg := (congrArg Vd.cfg hvd :)
  have hkill : (u.vd vd).killCause = (s.vd vd).killCause := (congrArg Vd.killCause hvd :)
  refine ⟨_, u, hexec, hdesc, (congrArg State.mem hrest :), hothers, hgrid, hwgs, fun hnone => ?_, fun ha hen st t' hadmit => ?_⟩
  · exact u.startDispatcher_none vd (by rwa [hdesc, hon])
  · rw [← hcfg, ← hargs, ← hdesc] at hadmit
    rw [← hdesc] at ha
    rw [← hon] at hen
    rcases State.admitRec_dispatcher hadmit with ⟨rfl, g, rfl, hst, hdisp⟩ | ⟨hst, rfl⟩
    · rw [u.startDispatcher_started vd ha hen hadmit, State.grid_setGrid_self]
      exact ⟨fun _ => ⟨rfl, hst, hdisp⟩, fun h => absurd rfl h⟩
    · rw [State.startDispatcher_failed _ vd ha hen hst hadmit]
      exact ⟨fun h => absurd h hst, fun _ => ⟨((MemWork.refl _).killCause vd 28 st 0).grids, fun h0 => State.killCause_first _ vd 28 st (hkill.trans h0)⟩⟩

end Sys2Proof.Machine
end

section
/-! SUPPORT. The proofs of the scope: which workgroup is placed, and what its start leaves (R26, R27, R138, R139, R140, R381). -/

namespace Sys2Proof.Machine

/-! The grid that is placed (R139). -/

/-- A grid has no higher PRIO than another, and at its PRIO no higher CLASS. -/
def State.yields (s : State) (a b : Nat) : Prop :=
  (s.grid a).kd.prio ≤ (s.grid b).kd.prio ∧ ((s.grid a).kd.prio = (s.grid b).kd.prio → (s.grid a).qclass ≤ (s.grid b).qclass)

theorem State.yields_trans {s : State} {a b c : Nat} (hab : s.yields a b) (hbc : s.yields b c) : s.yields a c := by
  obtain ⟨hab, hab'⟩ := hab
  obtain ⟨hbc, hbc'⟩ := hbc
  refine ⟨hab.trans hbc, fun h => ?_⟩
  have hb : (s.grid a).kd.prio = (s.grid b).kd.prio := le_antisymm hab (h ▸ hbc)
  exact (hab' hb).trans (hbc' (hb ▸ h))

theorem State.ranks_yields (s : State) (a b : Nat) : (s.ranks a b = true → s.yields b a) ∧ (s.ranks a b = false → s.yields a b) := by
  unfold State.ranks State.yields
  dsimp only
  generalize (s.grid a).kd.prio = pa, (s.grid b).kd.prio = pb, (s.grid a).qclass = qa, (s.grid b).qclass = qb
  refine ⟨fun h => ?_, fun h => ?_⟩
  · split at h
    · have hlt : pb < pa := by simpa using h
      exact ⟨le_of_lt hlt, fun he => absurd he (ne_of_lt hlt)⟩
    next hp =>
      have hpe : pa = pb := by simpa using hp
      split at h
      · have hlt : qb < qa := by simpa using h
        exact ⟨le_of_eq hpe.symm, fun _ => le_of_lt hlt⟩
      next hq =>
        have hqe : qa = qb := by simpa using hq
        exact ⟨le_of_eq hpe.symm, fun _ => le_of_eq hqe.symm⟩
  · split at h
    next hp =>
      have hne : pa ≠ pb := by simpa using hp
      have hle : pa ≤ pb := by simpa using h
      exact ⟨hle, fun he => absurd he hne⟩
    next hp =>
      have hpe : pa = pb := by simpa using hp
      split at h
      · exact ⟨le_of_eq hpe, fun _ => by simpa using h⟩
      next hq => exact ⟨le_of_eq hpe, fun _ => le_of_eq (by simpa using hq)⟩

theorem State.bestGrid_none (s : State) (cluster : Nat) {l : List Nat} (h : s.bestGrid cluster l = none) : ∀ g ∈ l, s.place cluster g = none := by
  induction l with
  | nil => exact nofun
  | cons a l ih =>
    unfold State.bestGrid at h
    split at h
    next hplace => exact List.forall_mem_cons.2 ⟨hplace, ih h⟩
    · cases h
    · split at h <;> cases h

/-- The best grid of a list can be placed, and every other one that can be placed yields to it. -/
theorem State.bestGrid_best (s : State) (cluster : Nat) {l : List Nat} {g : Nat} {p : Nat × List (Nat × Nat) × Tab Nat} (h : s.bestGrid cluster l = some (g, p)) :
    s.place cluster g = some p ∧ ∀ a ∈ l, (s.place cluster a).isSome = true → s.yields a g := by
  have hself (a : Nat) : s.yields a a := ⟨le_rfl, fun _ => le_rfl⟩
  induction l generalizing g p with
  | nil => cases h
  | cons a l ih =>
    unfold State.bestGrid at h
    split at h
    next hplace =>
      obtain ⟨hp, hall⟩ := ih h
      exact ⟨hp, List.forall_mem_cons.2 ⟨fun hsome => absurd hsome (by simp [hplace]), hall⟩⟩
    next q hplace hnone =>
      cases h
      exact ⟨hplace, List.forall_mem_cons.2 ⟨fun _ => hself a, fun b hb hsome => absurd hsome (by simp [s.bestGrid_none cluster hnone b hb])⟩⟩
    next q b hplace hbest =>
      obtain ⟨hp, hall⟩ := ih hbest
      obtain ⟨hwins, hloses⟩ := s.ranks_yields a b.1
      split at h
      next hr =>
        cases h
        exact ⟨hplace, List.forall_mem_cons.2 ⟨fun _ => hself a, fun c hc hsome => State.yields_trans (hall c hc hsome) (hwins hr)⟩⟩
      next hr =>
        cases h
        exact ⟨hp, List.forall_mem_cons.2 ⟨fun _ => hloses (by simpa using hr), hall⟩⟩

/-! The stand-in that is placed (R381). -/

theorem State.bestStand_mem (s : State) (cluster : Nat) {l : List (Nat × Cmd)} {id : Nat} {p : Nat × List (Nat × Nat)} (h : s.bestStand cluster l = some (id, p)) :
    ∃ c, (id, c) ∈ l ∧ s.placeStand cluster c = some p := by
  induction l with
  | nil => cases h
  | cons e l ih =>
    have hrest {o : Option (Nat × Nat × List (Nat × Nat))} (ho : s.bestStand cluster l = o) (h : o = some (id, p)) :
        ∃ c, (id, c) ∈ e :: l ∧ s.placeStand cluster c = some p := by
      obtain ⟨c, hc, hp⟩ := ih (ho.trans h)
      exact ⟨c, List.mem_cons_of_mem _ hc, hp⟩
    unfold State.bestStand at h
    split at h
    · exact hrest rfl h
    next q hplace _ =>
      cases h
      exact ⟨e.2, List.mem_cons_self, hplace⟩
    next q b hplace hbest =>
      rcases ite_eq_iff.1 h with ⟨-, h⟩ | ⟨-, h⟩
      · exact hrest hbest h
      · cases h
        exact ⟨e.2, List.mem_cons_self, hplace⟩

/-- A stand-in that can be placed waits for its place, which is in the cluster. -/
theorem State.placeStand_some (s : State) {cluster : Nat} {c : Cmd} {core : Nat} {slots : List (Nat × Nat)} (h : s.placeStand cluster c = some (core, slots)) :
    c.st = .placing ∧ clusterOf core = cluster := by
  unfold State.placeStand at h
  split at h
  · cases h
  next hst =>
    refine ⟨by simpa using hst, ?_⟩
    obtain ⟨k, hk, hplace⟩ := List.exists_of_findSome?_eq_some h
    obtain ⟨i, hi, rfl⟩ := List.mem_map.1 hk
    have hi8 := List.mem_range.1 hi
    split at hplace
    · obtain ⟨p, -, hp⟩ := Option.map_eq_some_iff.1 hplace
      cases hp
      unfold clusterOf
      omega
    · cases hplace

/-! Slots are used again (R27, R138). -/

theorem tget_filter_key {α : Type} (d : α) (t : Tab α) (p : Nat → Bool) {k : Nat} (h : p k = true) : tget d (t.filter (fun e => p e.1)) k = tget d t k := by
  unfold tget
  rw [tfind_filter_key, if_pos h]

/-- What is dropped of workgroups that have ended: nothing of a live one. -/
theorem State.reuse_wg (s : State) (core : Nat) (places : List (Nat × Nat)) {j : Nat} (h : s.live j = true) : (s.reuse core places).wg j = s.wg j := by
  unfold State.reuse
  extract_lets old gone slots
  have hgone : gone.any (fun x => x / 16 = j) = false := by
    rw [List.any_eq_false]
    intro x hx
    obtain ⟨e, he, rfl⟩ := List.mem_map.1 hx
    have hold := (List.mem_filter.1 he).2
    simp only [old, Bool.and_eq_true, Bool.not_eq_true'] at hold
    simp only [decide_eq_true_eq]
    rintro rfl
    exact Bool.noConfusion (h.symm.trans hold.1.1)
  clear_value gone
  split
  · rfl
  · exact (tget_filter_key Wg.empty s.wgs (fun k => !gone.any (fun x => x / 16 = k) || slots.any (fun x => x.1 / 16 = k)) (k := j) (by simp [hgone]) :)

theorem State.reuse_rest (s : State) (core : Nat) (places : List (Nat × Nat)) :
    { s.reuse core places with slots := s.slots, fibres := s.fibres, wgs := s.wgs } = s := by
  unfold State.reuse
  dsimp only
  split <;> rfl

theorem State.seat_stack (s : State) (slot quarter pslot k : Nat) : ((s.seat slot quarter pslot).slot k).stack = (s.slot k).stack := by
  unfold State.seat
  dsimp only
  by_cases hk : k = slot
  · rw [hk, State.slot_modSlot_self]
  · rw [State.slot_modSlot_ne _ _ _ _ hk]

/-! A stand-in starts (R381). -/

/-- The workgroup of a stand-in. -/
def State.standWg (s : State) (id core : Nat) (c : Cmd) : Wg :=
  { Wg.empty with life := .running, vd := c.vd, grid := 2 ^ 40 + id, core := core, kd := standKd c, started := s.clock }

theorem State.startStand_placed (s : State) {id : Nat} (core : Nat) (slots : List (Nat × Nat)) {c : Cmd} (h : tfind s.cmds id = some c) :
    (s.startStand id core slots).grids = s.grids ∧ (s.startStand id core slots).nextWg = s.nextWg + 1 ∧
      tfind (s.startStand id core slots).cmds id = some { c with st := .running, host := some s.nextWg } ∧
      (s.startStand id core slots).wgs = tput (s.reuse core slots).wgs s.nextWg (s.standWg id core c) := by
  have hgrids : (s.reuse core slots).grids = s.grids := (congrArg State.grids (s.reuse_rest core slots) :)
  unfold State.startStand
  rw [h]
  dsimp only
  generalize s.reuse core slots = u at hgrids ⊢
  refine ⟨?_, ?_, ?_, ?_⟩
  · exact hgrids
  · rfl
  · exact tfind_tput_self _ _ _
  · rfl

end Sys2Proof.Machine
end

section
/-! SUPPORT. The proofs of the scope: what a workgroup of a grid finds when it starts (R26, R27, R139, R140). -/

namespace Sys2Proof.Machine

/-! Tables that are filled key by key. -/

section
variable {α β : Type} [DecidableEq α] (d : α) (key : β → Nat) (val : β → α)

theorem tget_foldl_tset_ne {l : List β} {k : Nat} (h : ∀ x ∈ l, key x ≠ k) (t : Tab α) : tget d (l.foldl (fun t x => tset d t (key x) (val x)) t) k = tget d t k := by
  induction l generalizing t with
  | nil => rfl
  | cons x l ih =>
    obtain ⟨hx, hl⟩ := List.forall_mem_cons.1 h
    exact (ih hl _).trans (tget_tset_ne _ _ _ _ _ hx.symm)

theorem tget_foldl_tset_mem {l : List β} {x : β} (hx : x ∈ l) (h : ∀ y ∈ l, key y = key x → val y = val x) (t : Tab α) :
    tget d (l.foldl (fun t x => tset d t (key x) (val x)) t) (key x) = val x := by
  have hkeep (l : List β) (h : ∀ y ∈ l, key y = key x → val y = val x) (t : Tab α) (ht : tget d t (key x) = val x) :
      tget d (l.foldl (fun t x => tset d t (key x) (val x)) t) (key x) = val x := by
    induction l generalizing t with
    | nil => exact ht
    | cons y l ih =>
      obtain ⟨hy, hl⟩ := List.forall_mem_cons.1 h
      refine ih hl _ ?_
      by_cases hk : key y = key x
      · rw [← hk, tget_tset_self, hy hk]
      · rwa [tget_tset_ne _ _ _ _ _ (Ne.symm hk)]
  induction l generalizing t with
  | nil => cases hx
  | cons y l ih =>
    obtain ⟨hy, hl⟩ := List.forall_mem_cons.1 h
    rcases List.mem_cons.1 hx with rfl | hx
    · exact hkeep l hl _ (tget_tset_self _ _ _ _)
    · exact ih hx hl _

end

/-! What a workgroup's registers hold (R26, R27). -/

/-- The argument block is read as k registers; beyond it they are 0. -/
theorem kregsOf_get (args : List Byte) (n : Nat) : tget 0 (kregsOf args) n = w64OfBytes ((args.drop (8 * n)).take 8) := by
  unfold kregsOf
  by_cases hn : n < (args.length + 7) / 8
  · refine tget_foldl_tset_mem 0 (fun i => i) (fun i => w64OfBytes ((args.drop (8 * i)).take 8)) (List.mem_range.2 hn) (fun y _ hy => ?_) []
    rw [show y = n from hy]
  · rw [tget_foldl_tset_ne 0 (fun i => i) (fun i => w64OfBytes ((args.drop (8 * i)).take 8)) (fun i hi => ?_) [], List.drop_eq_nil_of_le (by omega)]
    · rfl
    · have := List.mem_range.1 hi
      show i ≠ n
      omega

/-- The entries of a slot's register stack: v0 of each fibre is its threads' numbers, and all else is 0. -/
theorem firstStack_get (kd : KDesc) (slot e l : Nat) (hl : l < 32) (hdepth : 64 ≤ kd.stack) :
    tget 0 (firstStack kd slot) (32 * e + l) =
      if e % kd.stack = 0 ∧ e / kd.stack < kd.fibres then BitVec.ofNat 32 (32 * (slot * kd.fibres + e / kd.stack) + l) else 0 := by
  have hpairs : firstStack kd slot = ((List.range kd.fibres).flatMap (fun f => lanes.map (fun l => (f, l)))).foldl
      (fun t x => tset 0 t (32 * (x.1 * kd.stack) + x.2) (BitVec.ofNat 32 (32 * (slot * kd.fibres + x.1) + x.2))) [] := by
    rw [List.foldl_flatMap]
    simp only [List.foldl_map]
    rfl
  have hmem (x : Nat × Nat) : x ∈ (List.range kd.fibres).flatMap (fun f => lanes.map (fun l => (f, l))) ↔ x.1 < kd.fibres ∧ x.2 < 32 := by
    obtain ⟨f, l⟩ := x
    simp [lanes]
  rw [hpairs]
  have hkey {x : Nat × Nat} (hx : x.2 < 32) (h : 32 * (x.1 * kd.stack) + x.2 = 32 * e + l) : x.1 * kd.stack = e ∧ x.2 = l := by omega
  split
  next h =>
    obtain ⟨hmod, hlt⟩ := h
    have he : e / kd.stack * kd.stack = e := Nat.div_mul_cancel (Nat.dvd_of_mod_eq_zero hmod)
    have hget := tget_foldl_tset_mem (0 : W32) (fun x : Nat × Nat => 32 * (x.1 * kd.stack) + x.2)
      (fun x => BitVec.ofNat 32 (32 * (slot * kd.fibres + x.1) + x.2)) ((hmem (e / kd.stack, l)).2 ⟨hlt, hl⟩) (fun y hy hk => ?_) []
    · rwa [show 32 * ((e / kd.stack, l).1 * kd.stack) + (e / kd.stack, l).2 = 32 * e + l by rw [he]] at hget
    · obtain ⟨hf, hlane⟩ := hkey ((hmem y).1 hy).2 (by rw [hk, he])
      have hy1 : y.1 = e / kd.stack := by rw [← hf, Nat.mul_div_cancel _ (by omega)]
      rw [hy1, hlane]
  next h =>
    refine (tget_foldl_tset_ne (0 : W32) _ _ (fun y hy hk => h ?_) []).trans rfl
    obtain ⟨hfib, hlane⟩ := (hmem y).1 hy
    obtain ⟨hf, -⟩ := hkey hlane hk
    rw [← hf]
    exact ⟨Nat.mul_mod_left _ _, by rwa [Nat.mul_div_cancel _ (by omega)]⟩

section
variable (g : Grid) (priv : Priv) (index slot fib now : Nat)

/-- The lanes of a fibre that are launched: those that have a thread. -/
theorem Fibre.first_launched (l : Nat) (hl : l < 32) :
    (Fibre.first g priv index slot fib now).launched.getLsbD l = true ↔ 32 * (slot * g.kd.fibres + fib) + l < g.threads := by
  show (maskOf (fun i => 32 * (slot * g.kd.fibres + fib) + i < g.threads)).getLsbD l = true ↔ _
  rw [maskOf_getLsbD]
  simp [hl]

/-- The registers of a fibre before its first word (R27). -/
theorem Fibre.first_registers :
    let f := Fibre.first g priv index slot fib now
    f.preg 0 = f.launched ∧ f.exited = 0 ∧ f.sreg 0 = BitVec.ofNat 64 index ∧ f.sreg 2 = BitVec.ofNat 64 (g.gx * g.gy * g.gz) ∧
      f.sreg 3 = BitVec.ofNat 64 (16 * slot + fib) ∧
      f.sreg 1 = BitVec.ofNat 64 (index % max 1 g.gx + 2 ^ 21 * (index / max 1 g.gx % max 1 g.gy) + 2 ^ 42 * (index / max 1 g.gx / max 1 g.gy)) ∧
      (∀ n, 4 ≤ n → f.sreg n = 0) ∧ (∀ n, 1 ≤ n → n < 7 → f.preg n = 0) ∧ f.priv = priv := by
  refine ⟨rfl, rfl, rfl, rfl, rfl, rfl, fun n hn => ?_, fun n hn hlt => ?_, rfl⟩
  · simp only [Fibre.sreg, Fibre.first, tget, tfind]
    rw [if_neg (by omega), if_neg (by omega), if_neg (by omega), if_neg (by omega)]
  · simp only [Fibre.preg, Fibre.first, tget, tfind]
    rw [if_neg (by omega), if_neg (by omega)]

/-- A fibre with a launched lane runs, at the kernel's first header; one without has not started. -/
theorem Fibre.first_starts (h : (Fibre.first g priv index slot fib now).launched ≠ 0) :
    (Fibre.first g priv index slot fib now).life = .running ∧ ∃ e, (Fibre.first g priv index slot fib now).frontier = [e] ∧ e.mask ≠ 0 ∧
      e.pc = g.kd.code ∧ e.fp = 0 ∧ e.inside = false := by
  refine ⟨if_neg h, _, if_neg h, ?_, rfl, rfl, rfl⟩
  intro h0
  refine h (BitVec.eq_of_getLsbD_eq fun l hl => ?_)
  have hbit := congrArg (·.getLsbD l) h0
  simp only [BitVec.getLsbD_or] at hbit
  have hzero : (0 : LaneMask).getLsbD l = false := by simp
  rw [hzero] at hbit ⊢
  exact (Bool.or_eq_false_iff.1 hbit).1

theorem Fibre.first_idle (h : (Fibre.first g priv index slot fib now).launched = 0) :
    (Fibre.first g priv index slot fib now).life = .notStarted ∧ (Fibre.first g priv index slot fib now).frontier = [] := ⟨if_pos h, if_pos h⟩

end

/-- A fibre has been set and has selected: the first place of `f` is at a header. -/
def Fibre.begun (f x : Fibre) : Prop :=
  ∃ fr, x = { f with frontier := fr } ∧ (f.frontier = [] → fr = []) ∧
    ∀ e, f.frontier = [e] → e.mask ≠ 0 → e.inside = false → x.entry.pc = e.pc ∧ x.entry.fp = e.fp ∧ x.entry.inside = false

theorem State.reselectAt_begun (s : State) (k : Nat) (f : Fibre) : f.begun (((s.setFib k f).select k).fib k) := by
  have hself : (s.setFib k f).fib k = f := State.fib_setFib_self _ _ _
  obtain ⟨fr, hfr⟩ := State.select_fib (s.setFib k f) k
  rw [hself] at hfr
  refine ⟨fr, hfr, fun hnil => ?_, fun e he hm hin => ?_⟩
  · have hwaits := State.select_waits (p := fun _ => False) (s.setFib k f) k (by rw [hself, hnil]; exact nofun)
    rw [hfr] at hwaits
    exact List.eq_nil_iff_forall_not_mem.2 hwaits
  · obtain ⟨hpc, hinside, hfp, -⟩ := (s.setFib k f).peek_outside k e hin
    rw [State.select_one _ k e (by rw [hself, he]) hm, State.fib_setFib_self]
    exact ⟨hpc, hfp, hinside⟩

/-! A workgroup of a grid starts (R139, R140). -/

/-- The index of the workgroup that a grid starts next, and whether it ran before (R450). -/
def Grid.due (x : Grid) : Nat × Bool :=
  match x.replay with
  | r :: _ => r
  | [] => (x.next, false)

/-- The level of a grid's fibres (R30). -/
def Grid.level (x : Grid) : Priv := if x.disp then .supervisor else .user

/-- The workgroup that starts. -/
def State.gridWg (s : State) (g core : Nat) (banks : Tab Nat) : Wg :=
  let x := s.grid g
  { Wg.empty with
    life := .running, vd := g / 2 ^ 32, grid := g % 2 ^ 32, index := x.due.1, core := core, kd := x.kd, threads := x.threads,
    kregs := kregsOf x.args, started := s.clock, charge := x.charge, banks := banks, again := x.due.2 }

/-- The registers and the window of slot i of the workgroup. -/
def Grid.firstSlot (x : Grid) (spill : List Nat) (i : Nat) : Slot :=
  { Slot.empty with stack := firstStack x.kd i, spillIdx := nth spill i, window := if x.kd.fibres ≤ 1 then 256 else 256 - x.kd.shared }

/-- Slots of a workgroup are seated. -/
def State.seatAll (t : State) (w : Nat) (x : Grid) (spill : List Nat) (places : List (Nat × Nat)) : State :=
  (List.range x.kd.slots).foldl (fun t i =>
    (t.setSlot (16 * w + i) (x.firstSlot spill i)).seat (16 * w + i) (places.getD i (0, 0)).1 (places.getD i (0, 0)).2) t

/-- Fibres of a workgroup begin. -/
def State.beginAll (t : State) (w : Nat) (x : Grid) (now : Nat) : State :=
  (List.range x.kd.slots).foldl (fun t i => (List.range x.kd.fibres).foldl (fun t f =>
    let k := 64 * w + 4 * i + f
    let t := t.setFib k (Fibre.first x x.level x.due.1 i f now)
    let t := if x.kd.flags.getLsbD 1 && (t.fib k).life = .running then t.dmrOn k else t
    t.select k) t) t

/-- The state in which the workgroup of a grid has its number. -/
def State.numbered (s : State) (g core : Nat) (places : List (Nat × Nat)) (banks : Tab Nat) : State :=
  let u := (s.reuse core places).dropIc core
  { u.chargeStart g with nextWg := u.nextWg + 1 }.setWg u.nextWg (u.gridWg g core banks)

theorem State.startWg_eq (s : State) (g core : Nat) (places : List (Nat × Nat)) (banks : Tab Nat) :
    let u := (s.reuse core places).dropIc core
    let x := u.grid g
    let spill := if x.kd.flags.getLsbD 2 then List.replicate x.kd.slots 0 else spillIndices (u.heldSpill x.kd.spill) x.kd.slots
    s.startWg g core places banks = (((s.numbered g core places banks).seatAll u.nextWg x spill places).beginAll u.nextWg x u.clock).setGrid g
      { x with st := if x.st = .admitted then .running else x.st, next := if x.replay.isEmpty then x.next + 1 else x.next,
               replay := x.replay.drop 1, cores := x.cores ++ [(core, x.due.1, 0)], since := x.since ++ [(core, x.due.1)] } := rfl

/-- Fibres and slots alone have changed. -/
def Staffing (s t : State) : Prop := { t with fibres := s.fibres, slots := s.slots } = s

theorem Staffing.near {s t u : State} {k : Nat} (h : Staffing s t) (g : Near k t u) : Staffing s u := by
  have hrest := h
  unfold Staffing at hrest
  rw [← g.rest] at hrest
  exact hrest

theorem Staffing.seated {s t : State} (h : Staffing s t) (k quarter pslot : Nat) (x : Slot) : Staffing s ((t.setSlot k x).seat k quarter pslot) := h

theorem State.seatAll_staffing (t : State) (w : Nat) (x : Grid) (spill : List Nat) (places : List (Nat × Nat)) : Staffing t (t.seatAll w x spill places) :=
  foldl_inv (fun u : State => Staffing t u) _ (fun _ _ h => h.seated _ _ _ _) _ t rfl

theorem State.seatAll_stack (t : State) (w : Nat) (x : Grid) (spill : List Nat) (places : List (Nat × Nat)) {i : Nat} (hi : i < x.kd.slots) :
    ((t.seatAll w x spill places).slot (16 * w + i)).stack = firstStack x.kd i := by
  refine foldl_reaches (fun u : State => (u.slot (16 * w + i)).stack = firstStack x.kd i) _ (List.mem_range.2 hi) (fun u => ?_) (fun u j _ h => ?_) t
  · rw [State.seat_stack, State.slot_setSlot_self]
    rfl
  · rw [State.seat_stack]
    by_cases hj : j = i
    · rw [hj, State.slot_setSlot_self]
      rfl
    · rw [State.slot_setSlot_ne _ _ _ _ (by omega)]
      exact h

theorem Near.copyFrame (k : Nat) (s : State) (fp : Nat) (m : LaneMask) : Near k s (s.copyFrame k fp m) := by
  unfold State.copyFrame
  exact Near.modSlot k s _

theorem Near.dmrOn (k : Nat) (s : State) : Near k s (s.dmrOn k) := by
  unfold State.dmrOn
  extract_lets f u
  have hu : Near k s u := foldl_inv (fun t : State => Near k s t) _ (fun t e h => h.trans (Near.copyFrame k t e.fp e.mask)) _ s (Near.refl k s)
  exact hu.trans (Near.setFib k u _)

/-- One fibre begins. -/
def State.begin (t : State) (x : Grid) (k : Nat) (f : Fibre) : State :=
  let t := t.setFib k f
  let t := if x.kd.flags.getLsbD 1 && (t.fib k).life = .running then t.dmrOn k else t
  t.select k

theorem State.beginAll_eq (t : State) (w : Nat) (x : Grid) (now : Nat) : t.beginAll w x now =
    (List.range x.kd.slots).foldl (fun t i => (List.range x.kd.fibres).foldl (fun t f =>
      t.begin x (64 * w + 4 * i + f) (Fibre.first x x.level x.due.1 i f now)) t) t := rfl

theorem Near.begin (t : State) (x : Grid) (k : Nat) (f : Fibre) : Near k t (t.begin x k f) := by
  unfold State.begin
  dsimp only
  split
  · exact ((Near.setFib k t f).trans (Near.dmrOn k _)).trans (Near.select k _)
  · exact (Near.setFib k t f).trans (Near.select k _)

theorem State.beginAll_staffing (t : State) (w : Nat) (x : Grid) (now : Nat) : Staffing t (t.beginAll w x now) := by
  rw [State.beginAll_eq]
  exact foldl_inv (fun u : State => Staffing t u) _ (fun u _ h => foldl_inv (fun u : State => Staffing t u) _ (fun u _ h => h.near (Near.begin u x _ _)) _ u h) _ t rfl

/-- Fibre f of slot i of the workgroup has begun. -/
def State.hasBegun (x : Grid) (w now i f : Nat) (u : State) : Prop := (Fibre.first x x.level x.due.1 i f now).begun (u.fib (64 * w + 4 * i + f))

section
variable (x : Grid) (hmode : x.kd.flags.getLsbD 1 = false)
include hmode

theorem State.begin_plain (t : State) (k : Nat) (f : Fibre) : t.begin x k f = (t.setFib k f).select k := by
  unfold State.begin
  simp only [hmode, Bool.false_and, Bool.false_eq_true, if_false]

theorem State.beginAll_slot (t : State) (w now k : Nat) : (t.beginAll w x now).slot k = t.slot k := by
  rw [State.beginAll_eq]
  refine foldl_inv (fun u : State => u.slot k = t.slot k) _ (fun u i h => foldl_inv (fun u : State => u.slot k = t.slot k) _ (fun u f h => ?_) _ u h) _ t rfl
  rw [u.begin_plain x hmode, State.select_slot]
  exact h

theorem State.begin_hasBegun (t : State) (w now i f : Nat) :
    (t.begin x (64 * w + 4 * i + f) (Fibre.first x x.level x.due.1 i f now)).hasBegun x w now i f := by
  rw [t.begin_plain x hmode]
  exact t.reselectAt_begun _ _

theorem State.beginAll_hasBegun (t : State) (w now : Nat) (hfib : x.kd.fibres ≤ 4) {i f : Nat} (hi : i < x.kd.slots) (hf : f < x.kd.fibres) :
    (t.beginAll w x now).hasBegun x w now i f := by
  have hkeep (j : Nat) (u : State) (g : Nat) (hg : g ∈ List.range x.kd.fibres) (h : u.hasBegun x w now i f) :
      (u.begin x (64 * w + 4 * j + g) (Fibre.first x x.level x.due.1 j g now)).hasBegun x w now i f := by
    have hg4 := List.mem_range.1 hg
    by_cases hk : 64 * w + 4 * i + f = 64 * w + 4 * j + g
    · obtain ⟨rfl, rfl⟩ : i = j ∧ f = g := by omega
      exact u.begin_hasBegun x hmode w now i f
    · unfold State.hasBegun at h ⊢
      rwa [(Near.begin u x _ _).fibres _ hk]
  rw [State.beginAll_eq]
  refine foldl_reaches (State.hasBegun x w now i f) _ (List.mem_range.2 hi) (fun u => ?_) (fun u j _ h => ?_) t
  · exact foldl_reaches (State.hasBegun x w now i f) _ (List.mem_range.2 hf) (fun u => u.begin_hasBegun x hmode w now i f) (hkeep i) u
  · exact List.foldlRecOn (motive := State.hasBegun x w now i f) _ _ h (fun u h g hg => hkeep j u g hg h)

end

/-! The workgroup that starts has its number, and no live one changes. -/

section
variable (s : State) (g core : Nat) (places : List (Nat × Nat)) (banks : Tab Nat)

theorem State.reused_rest : { (s.reuse core places).dropIc core with slots := s.slots, fibres := s.fibres, wgs := s.wgs, icache := s.icache } = s :=
  (congrArg (fun u : State => { u with icache := s.icache }) (s.reuse_rest core places) :)

theorem State.chargeStart_rest : { s.chargeStart g with budgetLeft := s.budgetLeft, vds := s.vds } = s := by
  unfold State.chargeStart
  dsimp only
  split <;> rfl

theorem State.numbered_wgs : (s.numbered g core places banks).nextWg = s.nextWg + 1 ∧
    (s.numbered g core places banks).wgs = tput (s.reuse core places).wgs s.nextWg (s.gridWg g core banks) := by
  have hrest := s.reused_rest core places
  have hwgs : ((s.reuse core places).dropIc core).wgs = (s.reuse core places).wgs := rfl
  unfold State.numbered
  dsimp only
  generalize (s.reuse core places).dropIc core = u at hrest hwgs ⊢
  have hnext : u.nextWg = s.nextWg := (congrArg State.nextWg hrest :)
  have hwg : u.gridWg g core banks = s.gridWg g core banks := (congrArg (State.gridWg · g core banks) hrest :)
  have hcharge : (u.chargeStart g).wgs = (s.reuse core places).wgs := (congrArg State.wgs (u.chargeStart_rest g) :).trans hwgs
  rw [hnext, hwg]
  refine ⟨rfl, ?_⟩
  show tput (u.chargeStart g).wgs _ _ = _
  rw [hcharge]

/-- What a start leaves of its grid's workgroup, of the other workgroups, and of slots and fibres. -/
structure GridStarted (t : State) : Prop where
  next  : t.nextWg = s.nextWg + 1
  wg    : t.wg s.nextWg = s.gridWg g core banks
  live  : ∀ j, j ≠ s.nextWg → s.live j = true → t.wg j = s.wg j
  stack : (s.grid g).kd.flags.getLsbD 1 = false → ∀ i, i < (s.grid g).kd.slots → (t.slot (16 * s.nextWg + i)).stack = firstStack (s.grid g).kd i
  fib   : (s.grid g).kd.flags.getLsbD 1 = false → (s.grid g).kd.fibres ≤ 4 → ∀ i f, i < (s.grid g).kd.slots → f < (s.grid g).kd.fibres →
    (Fibre.first (s.grid g) (s.grid g).level (s.grid g).due.1 i f s.clock).begun (t.fib (64 * s.nextWg + 4 * i + f))

theorem State.startWg_started : GridStarted s g core banks (s.startWg g core places banks) := by
  have hrest := s.reused_rest core places
  obtain ⟨hnumber, hwgs⟩ := s.numbered_wgs g core places banks
  have hkept := fun j => s.reuse_wg core places (j := j)
  rw [s.startWg_eq g core places banks]
  generalize (s.reuse core places).dropIc core = u at hrest ⊢
  have hnext : u.nextWg = s.nextWg := (congrArg State.nextWg hrest :)
  have hclock : u.clock = s.clock := (congrArg State.clock hrest :)
  have hgrid : u.grid g = s.grid g := (congrArg (State.grid · g) hrest :)
  rw [hnext, hclock, hgrid]
  generalize (if (s.grid g).kd.flags.getLsbD 2 then List.replicate (s.grid g).kd.slots 0 else spillIndices (u.heldSpill (s.grid g).kd.spill) (s.grid g).kd.slots) = spill
  generalize s.numbered g core places banks = v at hnumber hwgs
  have hseat := v.seatAll_staffing s.nextWg (s.grid g) spill places
  have hstack := fun i hi => v.seatAll_stack s.nextWg (s.grid g) spill places (i := i) hi
  generalize v.seatAll s.nextWg (s.grid g) spill places = q at hseat hstack
  have hbegin := q.beginAll_staffing s.nextWg (s.grid g) s.clock
  have hslots := fun hmode k => State.beginAll_slot (s.grid g) hmode q s.nextWg s.clock k
  have hbegun := fun hmode hfib i f hi hf => State.beginAll_hasBegun (s.grid g) hmode q s.nextWg s.clock hfib (i := i) (f := f) hi hf
  generalize q.beginAll s.nextWg (s.grid g) s.clock = t at hbegin hslots hbegun
  have hall : t.nextWg = s.nextWg + 1 ∧ t.wgs = tput (s.reuse core places).wgs s.nextWg (s.gridWg g core banks) :=
    ⟨(congrArg State.nextWg hbegin :).trans ((congrArg State.nextWg hseat :).trans hnumber),
      (congrArg State.wgs hbegin :).trans ((congrArg State.wgs hseat :).trans hwgs)⟩
  obtain ⟨hn, hw⟩ := hall
  refine ⟨hn, ?_, fun j hj hlive => ?_, fun hmode i hi => ?_, fun hmode hfib i f hi hf => hbegun hmode hfib i f hi hf⟩
  · show tget Wg.empty t.wgs s.nextWg = _
    rw [hw, tget_tput_self]
  · show tget Wg.empty t.wgs j = _
    rw [hw, tget_tput_ne _ _ _ _ _ hj]
    exact hkept j hlive
  · exact (congrArg Slot.stack (hslots hmode _)).trans (hstack i hi)

end

/-! What WORKGROUP_PLACEMENT does (R139, R381). -/

section
variable (s : State) (cluster : Nat)

theorem exec_placement_none (hstand : s.bestStand cluster s.cmds = none) (hgrid : s.bestGrid cluster (s.grids.map (·.1)) = none) :
    exec (.workgroupPlacement cluster) s = .next s := by
  show execWorkgroupPlacement cluster s = _
  unfold execWorkgroupPlacement
  rw [hstand, hgrid]

theorem exec_placement_stand {id core : Nat} {slots : List (Nat × Nat)} {c : Cmd} (hstand : s.bestStand cluster s.cmds = some (id, core, slots))
    (hcmd : tfind s.cmds id = some c) (hahead : ∀ g p, s.bestGrid cluster (s.grids.map (·.1)) = some (g, p) → (s.grid g).kd.prio ≤ c.prio) :
    exec (.workgroupPlacement cluster) s = .next (s.startStand id core slots) := by
  show execWorkgroupPlacement cluster s = _
  unfold execWorkgroupPlacement
  rw [hstand]
  cases hgrid : s.bestGrid cluster (s.grids.map (·.1)) with
  | none => rfl
  | some b =>
    obtain ⟨g, core', slots', banks⟩ := b
    have hnot : ¬ c.prio < (s.grid g).kd.prio := Nat.not_lt.2 (hahead g _ hgrid)
    simp only [hcmd, hnot, decide_false, Bool.false_eq_true, if_false]

theorem exec_placement_grid {g core : Nat} {slots : List (Nat × Nat)} {banks : Tab Nat}
    (hgrid : s.bestGrid cluster (s.grids.map (·.1)) = some (g, core, slots, banks))
    (hahead : ∀ id p c, s.bestStand cluster s.cmds = some (id, p) → tfind s.cmds id = some c → c.prio < (s.grid g).kd.prio) :
    exec (.workgroupPlacement cluster) s = .next (s.startWg g core slots banks) := by
  show execWorkgroupPlacement cluster s = _
  unfold execWorkgroupPlacement
  rw [hgrid]
  cases hstand : s.bestStand cluster s.cmds with
  | none => rfl
  | some b =>
    obtain ⟨id, core', slots'⟩ := b
    cases hcmd : tfind s.cmds id with
    | none => simp only [hcmd, if_true]
    | some c => simp only [hcmd, hahead id _ c hstand hcmd, decide_true, if_true]

end

theorem Grid.due_index (x : Grid) : x.due.1 = match x.replay with
    | r :: _ => r.1
    | [] => x.next := by
  unfold Grid.due
  cases x.replay <;> rfl

/-- What a fibre holds and where it stands once its workgroup has started (R26, R27). -/
theorem Grid.begun_started (x : Grid) {f : Fibre} (i j now : Nat) (h : (Fibre.first x x.level x.due.1 i j now).begun f) :
    (∀ l, l < 32 → (f.launched.getLsbD l = true ↔ 32 * (i * x.kd.fibres + j) + l < x.threads)) ∧ f.preg 0 = f.launched ∧ f.exited = 0 ∧
      f.sreg 0 = BitVec.ofNat 64 x.due.1 ∧ f.sreg 2 = BitVec.ofNat 64 (x.gx * x.gy * x.gz) ∧ f.sreg 3 = BitVec.ofNat 64 (16 * i + j) ∧
      f.sreg 1 = BitVec.ofNat 64 (x.due.1 % max 1 x.gx + 2 ^ 21 * (x.due.1 / max 1 x.gx % max 1 x.gy) + 2 ^ 42 * (x.due.1 / max 1 x.gx / max 1 x.gy)) ∧
      (∀ n, 4 ≤ n → f.sreg n = 0) ∧ (∀ n, 1 ≤ n → n < 7 → f.preg n = 0) ∧ (x.disp = true → f.priv = .supervisor) ∧ (x.disp = false → f.priv = .user) ∧
      (f.launched ≠ 0 → f.life = .running ∧ f.entry.pc = x.kd.code ∧ f.entry.fp = 0 ∧ f.entry.inside = false) ∧
      (f.launched = 0 → f.life = .notStarted ∧ f.frontier = []) := by
  obtain ⟨fr, rfl, hnil, hone⟩ := h
  have hlaunched := Fibre.first_launched x x.level x.due.1 i j now
  obtain ⟨hp0, hexited, hs0, hs2, hs3, hs1, hsrest, hprest, hpriv⟩ := Fibre.first_registers x x.level x.due.1 i j now
  refine ⟨hlaunched, hp0, hexited, hs0, hs2, hs3, hs1, hsrest, hprest, fun hd => hpriv.trans (by simp [Grid.level, hd]),
    fun hd => hpriv.trans (by simp [Grid.level, hd]), fun hl => ?_, fun hl => ?_⟩
  · obtain ⟨hlife, e, he, hmask, hpc, hfp, hin⟩ := Fibre.first_starts x x.level x.due.1 i j now hl
    obtain ⟨hpc', hfp', hin'⟩ := hone e he hmask hin
    exact ⟨hlife, hpc'.trans hpc, hfp'.trans hfp, hin'⟩
  · obtain ⟨hlife, hfr⟩ := Fibre.first_idle x x.level x.due.1 i j now hl
    exact ⟨hlife, hnil hfr⟩

/-- Which workgroup starts, and with what. -/
theorem placementStarts : placementRule := by
  intro s cluster
  refine ⟨fun hstand hgrid => exec_placement_none s cluster hstand hgrid, fun id core slots c hstand hcmd hlisted hahead => ?_, ?_⟩
  · obtain ⟨c', hmem, hplace⟩ := s.bestStand_mem cluster hstand
    obtain rfl : c' = c := Option.some.inj ((hlisted _ hmem).symm.trans hcmd)
    obtain ⟨hst, hcluster⟩ := s.placeStand_some hplace
    obtain ⟨hgrids, hnext, hcmds, hwgs⟩ := s.startStand_placed core slots hcmd
    have hwg : (s.startStand id core slots).wg s.nextWg = s.standWg id core c' := (congrArg (tget Wg.empty · s.nextWg) hwgs).trans (tget_tput_self _ _ _ _)
    refine ⟨hst, _, exec_placement_stand s cluster hstand hcmd hahead, s.startStand_mem id core slots, hgrids, hnext, hcmds, ?_, ?_, ?_, ?_, hcluster,
      fun j hj hlive => ?_⟩
    · rw [hwg]; rfl
    · rw [hwg]; rfl
    · rw [hwg]; rfl
    · rw [hwg]; rfl
    · exact (congrArg (tget Wg.empty · j) hwgs).trans ((tget_tput_ne _ _ _ _ _ hj).trans (s.reuse_wg core slots hlive))
  · intro g core slots banks hgrid hahead hslots hfibres hdepth x w index thread
    obtain ⟨hplace, hbest⟩ := s.bestGrid_best cluster hgrid
    obtain ⟨hnext, hwg, hlive, hstack, hfib⟩ := s.startWg_started g core slots banks
    have hindex : x.due.1 = index := x.due_index
    refine ⟨hbest, hplace, _, exec_placement_grid s cluster hgrid hahead, hnext, s.startWg_mem g core slots banks, (congrArg Wg.life hwg :),
      (congrArg Wg.vd hwg :), (congrArg Wg.grid hwg :), (congrArg Wg.core hwg :), (congrArg Wg.index hwg :).trans hindex, (congrArg Wg.kd hwg :),
      (congrArg Wg.scratch hwg :), (congrArg Wg.ob hwg :), (congrArg Wg.tiles hwg :), (congrArg Wg.banks hwg :), hlive,
      fun i j hi hj hmode => ?_, fun i e l hi hl hmode => ?_, fun n _ => ?_⟩
    · rw [← hindex]
      exact x.begun_started _ _ _ (hfib hmode hfibres i j hi hj)
    · rw [Slot.at, hstack hmode i hi]
      exact firstStack_get x.kd i e l hl hdepth
    · exact (congrArg (fun y : Wg => tget 0 y.kregs n) hwg).trans (kregsOf_get x.args n)

/-- Settles O44: the word of `lstat` field by field, the best grid of a cluster (`State.bestGrid_best`) and what its workgroup finds
(`State.startWg_started`), and the dispatcher that ends before another starts (`State.stopDispatcher_ended`, `State.admitRec_dispatcher`). -/
theorem gridsAndPlacement : Obligations.GridsAndPlacement := ⟨lstatAnswers, placementStarts, dispatcherWritten⟩

end Sys2Proof.Machine
end

section
/-! SUPPORT. The proofs of the scope: the levels of privileged words, halt, tlbi and scan (R31, R87, R305, R436, R437, R440, R442). -/

namespace Sys2Proof.Machine

/-! A word below its level takes PRIVILEGE (R31, R87). -/

section
variable (s : State) (f : FY)

theorem atLeast_user (h : s.me.priv = .user) : s.atLeast s.cur .supervisor = false := by
  have hpriv : (s.fib s.cur).priv = .user := h
  simp only [State.atLeast, hpriv]
  rfl

theorem atLeast_supervisor (h : s.me.priv = .user ∨ s.me.priv = .supervisor) : s.atLeast s.cur .device = false := by
  have hpriv : (s.fib s.cur).priv = .user ∨ (s.fib s.cur).priv = .supervisor := h
  unfold State.atLeast
  rcases hpriv with hpriv | hpriv <;> rw [hpriv] <;> rfl

theorem supervisor_words_refused (h : s.me.priv = .user) : ∀ i ∈ [Instr.launch f, .lstat f, .halt f, .tlbi f, .bankmode f, .scan f],
    exec i s = .next (s.trapHere s.cur .privilege 0 0 0) := by
  have hlevel := atLeast_user s h
  have hdevice := atLeast_supervisor s (.inl h)
  simp only [List.forall_mem_cons, List.not_mem_nil, false_imp_iff, implies_true, and_true]
  refine ⟨?_, ?_, ?_, ?_, ?_, ?_⟩
  · show execLaunch f s = _
    simp only [execLaunch, hlevel, Bool.not_false, if_true]
  · show execLstat f s = _
    simp only [execLstat, hlevel, Bool.not_false, if_true]
  · show execHalt f s = _
    simp only [execHalt, hlevel, Bool.not_false, if_true]
  · show execTlbi f s = _
    simp only [execTlbi, hlevel, Bool.not_false, if_true]
  · show execBankmode f s = _
    simp only [execBankmode, hlevel, Bool.not_false, if_true]
  · show execScan f s = _
    simp only [execScan, hdevice, Bool.not_false, if_true]

theorem scan_refused (h : s.me.priv = .supervisor) : exec (.scan f) s = .next (s.trapHere s.cur .privilege 0 0 0) := by
  show execScan f s = _
  simp only [execScan, atLeast_supervisor s (.inr h), Bool.not_false, if_true]

end

/-- The words that take PRIVILEGE at USER, and scan at SUPERVISOR. -/
theorem privilegedWords : privilegedWordsRule := by
  intro s f hcan
  exact ⟨fun h i hi => ⟨_, supervisor_words_refused s f h i hi, s.trapHere_took _ _ _ _ hcan⟩, fun h => ⟨_, scan_refused s f h, s.trapHere_took _ _ _ _ hcan⟩⟩

/-! halt (R436, R437). -/

section
variable (s : State) (f : FY)

theorem exec_halt (hp : Plain s) (hruns : runsAt s f.hd .supervisor) : exec (.halt f) s =
    if ((s.ssrc s.cur f.a).toNat ≠ 0 ∧ (s.ssrc s.cur f.a).toNat < 2 ^ 32 ∧
      ((s.grid (gkey (s.vdOf s.cur) (s.ssrc s.cur f.a).toNat)).st = .admitted ∨ (s.grid (gkey (s.vdOf s.cur) (s.ssrc s.cur f.a).toNat)).st = .running))
    then .next ((s.killGrid (gkey (s.vdOf s.cur) (s.ssrc s.cur f.a).toNat) 31 0).finish s.cur [.sreg f.d.toNat 0])
    else .next (s.finish s.cur [.sreg f.d.toNat 1]) := by
  have hlevel : s.atLeast s.cur .supervisor = true := decide_eq_true hruns.2
  show execHalt f s = _
  simp only [execHalt, hlevel, if_neg hruns.1, s.aBad_eq f hp, Bool.not_true, Bool.false_eq_true, if_false, Bool.and_eq_true, bne_iff_ne, ne_eq,
    decide_eq_true_eq, Bool.or_eq_true, and_assoc]

end

/-- The workgroups of a grid that its kill ends. -/
def State.toKill (s : State) (k : Nat) : List Nat :=
  (s.wgs.filter (fun e => gkey e.2.vd e.2.grid = k && e.2.life != .ended && e.2.life != .killed)).map (·.1)

/-- A workgroup is killed: its energy is settled, and what it holds is released. -/
def State.killOne (s : State) (w : Nat) : State := (s.settleEnergy w).release w .killed

theorem State.killGrid_eq (s : State) (k code lstatus : Nat) (h : (s.grid k).st ≠ .killed) (h' : (s.grid k).st ≠ .confirmed) :
    s.killGrid k code lstatus =
      let t := (((s.toKill k).foldl State.killOne s).setGrid k { s.grid k with st := .killed, cores := [], since := [], replay := [] }).killCause (k / 2 ^ 32) code lstatus
        (if (s.grid k).disp then 0 else k % 2 ^ 32)
      if (s.grid k).disp then t else (t.returnUnits k).settleGrid k := by
  unfold State.killGrid
  exact if_neg (by simp [h, h'])

/-- What the kill of workgroups keeps of a fibre of another one, and of slots. -/
structure Killing (s : State) (k : Nat) (t : State) : Prop where
  cur   : t.cur = s.cur
  fib   : (t.fib k).idle = (s.fib k).idle
  slots : ∀ j, (t.slot j).stackBad = (s.slot j).stackBad

namespace Killing

variable {s t u : State} {k : Nat}

theorem refl (s : State) (k : Nat) : Killing s k s := ⟨rfl, rfl, fun _ => rfl⟩

theorem settled (h : Killing s k t) (g : Settling t u) : Killing s k u :=
  ⟨g.cur.trans h.cur, (g.fibs k).trans h.fib, fun j => (congrArg (fun x => (tget Slot.empty x j).stackBad) g.slots).trans (h.slots j)⟩

theorem worked (h : Killing s k t) (g : MemWork t u) : Killing s k u := h.settled ((Settling.refl t).mem g)

theorem release (h : Killing s k t) {w : Nat} (hw : wgOf k ≠ w) (life : WgLife) : Killing s k (t.release w life) :=
  ⟨h.cur, (congrArg Fibre.idle (t.release_fib_ne life hw)).trans h.fib, fun j => (t.release_stackBad w life j).trans (h.slots j)⟩

theorem killOne (h : Killing s k t) {w : Nat} (hw : wgOf k ≠ w) : Killing s k (t.killOne w) := (h.worked (t.settleEnergy_memWork w)).release hw .killed

end Killing

/-- A workgroup has been killed: its bindings and locks are gone. -/
def Wg.isKilled (x : Wg) : Prop := x.life = .killed ∧ x.qbind = [] ∧ x.locks = []

theorem MemWork.isKilled {s t : State} (h : MemWork s t) {w : Nat} (hw : (s.wg w).isKilled) : (t.wg w).isKilled := by
  have hwg := h.wgs w
  obtain ⟨hlife, hbind, hlocks⟩ := hw
  exact ⟨(congrArg Wg.life hwg :).trans hlife, (congrArg Wg.qbind hwg :).trans hbind, (congrArg Wg.locks hwg :).trans hlocks⟩

theorem Settling.isKilled {s t : State} (h : Settling s t) {w : Nat} (hw : (s.wg w).isKilled) : (t.wg w).isKilled := (MemWork.isKilled h hw : _)

theorem State.killOne_isKilled (s : State) (w : Nat) : ((s.killOne w).wg w).isKilled := by
  unfold State.killOne
  rw [State.release_wg_self]
  exact ⟨rfl, rfl, rfl⟩

theorem State.killOne_keeps (s : State) (v w : Nat) (h : (s.wg w).isKilled) : ((s.killOne v).wg w).isKilled := by
  by_cases hv : w = v
  · rw [hv]
    exact s.killOne_isKilled v
  · unfold State.killOne
    rw [State.release_wg_ne _ _ hv]
    exact (s.settleEnergy_memWork v).isKilled h

/-- What is left once a grid that was ADMITTED or RUNNING is killed. -/
structure GridKilled (s : State) (g : Nat) (t : State) : Prop where
  grid : (t.grid g).st = .killed
  wgs  : ∀ w, gkey (s.wg w).vd (s.wg w).grid = g → (s.wg w).life ≠ .ended → (s.wg w).life ≠ .killed → (t.wg w).isKilled
  me   : (∀ e ∈ s.wgs, e.1 = wgOf s.cur → gkey e.2.vd e.2.grid ≠ g) → Killing s s.cur t

theorem State.killGrid_killed (s : State) (g code lstatus : Nat) (h : (s.grid g).st = .admitted ∨ (s.grid g).st = .running) :
    GridKilled s g (s.killGrid g code lstatus) := by
  have hkilled : (s.grid g).st ≠ .killed := by rintro h'; simp [h'] at h
  have hconfirmed : (s.grid g).st ≠ .confirmed := by rintro h'; simp [h'] at h
  have hwgs (w : Nat) (hgrid : gkey (s.wg w).vd (s.wg w).grid = g) (hended : (s.wg w).life ≠ .ended) (hlife : (s.wg w).life ≠ .killed) :
      (((s.toKill g).foldl State.killOne s).wg w).isKilled := by
    have hmem : w ∈ s.toKill g :=
      List.mem_map.2 ⟨(w, s.wg w), List.mem_filter.2 ⟨tfind_mem _ _ _ (s.wg_listed hended), by simp [hgrid, hended, hlife]⟩, rfl⟩
    exact foldl_reaches (fun t : State => (t.wg w).isKilled) State.killOne hmem (fun t => t.killOne_isKilled w) (fun t v _ h => t.killOne_keeps v w h) s
  have hme (hother : ∀ e ∈ s.wgs, e.1 = wgOf s.cur → gkey e.2.vd e.2.grid ≠ g) : Killing s s.cur ((s.toKill g).foldl State.killOne s) := by
    refine List.foldlRecOn (motive := Killing s s.cur) _ _ (Killing.refl s s.cur) (fun t ht w hw => ht.killOne ?_)
    rintro rfl
    obtain ⟨e, he, hkey⟩ := List.mem_map.1 hw
    obtain ⟨hlisted, hcond⟩ := List.mem_filter.1 he
    simp only [Bool.and_eq_true, decide_eq_true_eq] at hcond
    exact hother e hlisted hkey hcond.1.1
  rw [s.killGrid_eq g code lstatus hkilled hconfirmed]
  generalize (s.toKill g).foldl State.killOne s = u at hwgs hme
  extract_lets x t
  have hset : Settling u (u.setGrid g { s.grid g with st := .killed, cores := [], since := [], replay := [] }) := (Settling.refl u).setGrid g _
  have hcause : MemWork (u.setGrid g { s.grid g with st := .killed, cores := [], since := [], replay := [] }) t := (MemWork.refl _).killCause _ _ _ _
  have ht : Settling u t := hset.mem hcause
  have htgrid : (t.grid g).st = .killed := by
    rw [hcause.grid, State.grid_setGrid_self]
  clear_value t
  split
  · exact ⟨htgrid, fun w h1 h2 h3 => ht.isKilled (hwgs w h1 h2 h3), fun ho => (hme ho).settled ht⟩
  · have hunits : MemWork t (t.returnUnits g) := (MemWork.refl t).returnUnits g
    have hall : Settling u ((t.returnUnits g).settleGrid g) := (ht.mem hunits).trans ((t.returnUnits g).settleGrid_settling g)
    exact ⟨State.settleGrid_killed _ _ (by rwa [hunits.grid]), fun w h1 h2 h3 => hall.isKilled (hwgs w h1 h2 h3), fun ho => (hme ho).settled hall⟩

/-- A state is plain where the issuing fibre is as in a plain one, but for its pending words and its counts. -/
theorem Killing.plain {s t : State} (h : Killing s s.cur t) (hp : Plain s) : Plain t := by
  have hidle : t.me.idle = s.me.idle := by
    unfold State.me
    rw [h.cur]
    exact h.fib
  have hfrontier : t.me.frontier = s.me.frontier := (congrArg Fibre.frontier hidle :)
  have hentry : t.me.entry = s.me.entry := by unfold Fibre.entry; rw [hfrontier]
  have hbad : t.mySlot.stackBad = s.mySlot.stackBad := by
    unfold State.mySlot
    rw [h.cur]
    exact h.slots _
  exact ⟨(congrArg Fibre.sBad hidle :).trans hp.scalars, (congrArg Fibre.pBad hidle :).trans hp.predicates, hbad.trans hp.vectors,
    (congrArg Fibre.shadow hidle :).trans hp.single, (congrArg Fibre.eph hidle :).trans hp.windows, hentry ▸ hp.lasting⟩

/-- halt of a live grid of the virtual device, and of anything else. -/
theorem haltKills : haltRule := by
  intro s f hp hruns vd a g live
  refine ⟨fun hdead => ⟨_, (exec_halt s f hp hruns).trans (if_neg hdead), s.finish_sreg f.d.toNat 1 hp⟩, fun hlive hother => ?_⟩
  have hexec : exec (.halt f) s = .next ((s.killGrid g 31 0).finish s.cur [.sreg f.d.toNat 0]) := (exec_halt s f hp hruns).trans (if_pos hlive)
  obtain ⟨hgrid, hwgs, hme⟩ := s.killGrid_killed g 31 0 hlive.2.2
  have hkilling := hme hother
  generalize s.killGrid g 31 0 = u at hexec hgrid hwgs hkilling
  have hcur : u.finish s.cur [.sreg f.d.toNat 0] = u.finish u.cur [.sreg f.d.toNat 0] := by rw [hkilling.cur]
  rw [hcur] at hexec
  obtain ⟨hnear, -, -, -, hdest, hothers⟩ := u.finish_sreg f.d.toNat 0 (hkilling.plain hp)
  have hidle : u.me.idle = s.me.idle := by
    unfold State.me
    rw [hkilling.cur]
    exact hkilling.fib
  have hsregs : u.me.sregs = s.me.sregs := (congrArg Fibre.sregs hidle :)
  refine ⟨_, hexec, ?_, hdest, fun n hn => ?_, fun w h1 h2 h3 => ?_⟩
  · rw [show ((u.finish u.cur [.sreg f.d.toNat 0]).grid g) = u.grid g from (congrArg (State.grid · g) hnear.rest :)]
    exact hgrid
  · rw [hothers n hn]
    unfold Fibre.sreg
    rw [hsregs]
  · rw [show ((u.finish u.cur [.sreg f.d.toNat 0]).wg w) = u.wg w from (congrArg (State.wg · w) hnear.rest :)]
    exact hwgs w h1 h2 h3

end Sys2Proof.Machine
end

section
/-! SUPPORT. The proofs of the scope: tlbi and scan (R305, R440, R442). -/

namespace Sys2Proof.Machine

/-! tlbi (R305). -/

/-- With no drain in flight a release folds none. -/
theorem State.foldMine_none (s : State) (k : Nat) (h : s.drains = []) : s.foldMine k = s := by
  unfold State.foldMine
  refine foldl_inv (fun t : State => t = s) _ (fun t p ht => ?_) _ s rfl
  subst ht
  split
  · simp [h]
  · rfl

/-- What a tlbi drops, by its form. -/
def State.tlbiDrop (s : State) (vd sub a b : Nat) : State :=
  if sub = 0 then (if 2 ^ 57 ≤ a then s else s.dropXlate vd a 1)
  else if sub = 1 then if 2 ^ 40 ≤ b then s.dropContext vd else if 2 ^ 57 ≤ a || b = 0 then s else s.dropXlate vd a b
  else if sub = 2 then s.dropContext vd
  else { s with walks := s.walks.filter (fun t => t.vd != vd) }

/-- Of the cached translations, `all` of the virtual device, those that meet a range, or the walk-cache entries have gone. -/
structure Dropped (s : State) (vd : Nat) (all part walks : Prop) (a n : Nat) (u : State) : Prop where
  rest  : { u with tlb := s.tlb, walks := s.walks } = s
  tlb   : ∀ e, e ∈ u.tlb ↔ e ∈ s.tlb ∧ ¬ (e.vd = vd ∧ (all ∨ (part ∧ meets e.va e.size a n)))
  walks : ∀ e, e ∈ u.walks ↔ e ∈ s.walks ∧ ¬ (e.vd = vd ∧ (all ∨ walks ∨ (part ∧ meets (e.va * 2 ^ (12 + 9 * e.level)) (2 ^ (12 + 9 * e.level)) a n)))

section
variable (s : State) (vd : Nat) {all part walks : Prop} (a n : Nat)

theorem Dropped.nothing (hall : ¬ all) (hpart : ¬ part) (hwalks : ¬ walks) : Dropped s vd all part walks a n s :=
  ⟨rfl, fun e => by simp [hall, hpart], fun e => by simp [hall, hpart, hwalks]⟩

theorem Dropped.dropContext (hall : all) : Dropped s vd all part walks a n (s.dropContext vd) :=
  ⟨rfl, fun e => by simp [State.dropContext, hall], fun e => by simp [State.dropContext, hall]⟩

theorem Dropped.dropWalks (hall : ¬ all) (hpart : ¬ part) (hwalks : walks) :
    Dropped s vd all part walks a n { s with walks := s.walks.filter (fun t => t.vd != vd) } :=
  ⟨rfl, fun e => by simp [hall, hpart], fun e => by simp [hwalks]⟩

theorem Dropped.dropXlate (hall : ¬ all) (hpart : part) (hwalks : ¬ walks) : Dropped s vd all part walks a n (s.dropXlate vd a n) := by
  refine ⟨rfl, fun e => ?_, fun e => ?_⟩ <;>
    simp only [State.dropXlate, List.mem_filter, hall, hpart, hwalks, true_and, false_or, meets, Bool.not_eq_true', Bool.and_eq_false_iff, decide_eq_false_iff_not,
      not_and_or]

end

theorem State.tlbiDrop_dropped (s : State) (vd sub a b : Nat) (h : sub < 4) :
    Dropped s vd (sub = 2 ∨ (sub = 1 ∧ 2 ^ 40 ≤ b)) (sub ≤ 1 ∧ a < 2 ^ 57 ∧ (if sub = 0 then 1 else if sub = 1 then b else 0) ≠ 0) (sub = 3) a
      (if sub = 0 then 1 else if sub = 1 then b else 0) (s.tlbiDrop vd sub a b) := by
  unfold State.tlbiDrop
  obtain rfl | rfl | rfl | rfl : sub = 0 ∨ sub = 1 ∨ sub = 2 ∨ sub = 3 := by omega
  · simp only [if_true]
    split
    next ha => exact Dropped.nothing s vd _ _ (by omega) (by omega) (by omega)
    next ha => exact Dropped.dropXlate s vd _ _ (by omega) (by omega) (by omega)
  · simp only [Nat.one_ne_zero, if_false, if_true]
    split
    next hb => exact Dropped.dropContext s vd _ _ (.inr ⟨trivial, hb⟩)
    next hb =>
      split
      next h0 =>
        have hnone : 2 ^ 57 ≤ a ∨ b = 0 := by simpa only [Bool.or_eq_true, decide_eq_true_eq] using h0
        exact Dropped.nothing s vd _ _ (by omega) (by omega) (by omega)
      next h0 =>
        have hsome : ¬ (2 ^ 57 ≤ a ∨ b = 0) := by simpa only [Bool.or_eq_true, decide_eq_true_eq] using h0
        exact Dropped.dropXlate s vd _ _ (by omega) (by omega) (by omega)
  · exact Dropped.dropContext s vd _ _ (.inl rfl)
  · exact Dropped.dropWalks s vd _ _ (by omega) (by omega) rfl

/-- The forms of a word are the values of its SUB field. -/
theorem FY.sub_form (f : FY) : (f.sub = 0 ↔ f.sub.toNat = 0) ∧ (f.sub = 1 ↔ f.sub.toNat = 1) ∧ (f.sub = 2 ↔ f.sub.toNat = 2) ∧ (f.sub = 3 ↔ f.sub.toNat = 3) := by
  refine ⟨?_, ?_, ?_, ?_⟩ <;> bv_omega

section
variable (s : State) (f : FY) (hruns : runsAt s f.hd .supervisor)
include hruns

theorem exec_tlbi_waits (hrel : s.relBlocked s.cur = true) : exec (.tlbi f) s = .next s := by
  have hlevel : s.atLeast s.cur .supervisor = true := decide_eq_true hruns.2
  show execTlbi f s = _
  simp only [execTlbi, hlevel, if_neg hruns.1, hrel, Bool.not_true, Bool.false_eq_true, if_false, if_true]

theorem exec_tlbi (hp : Plain s) (hdrains : s.drains = []) (hrel : s.relBlocked s.cur = false) : exec (.tlbi f) s =
    .next ((s.tlbiDrop (s.vdOf s.cur) f.sub.toNat (s.ssrc s.cur f.a).toNat (s.ssrc s.cur f.b).toNat).issue s.cur f.hd (mkPend .other [] true none)) := by
  have hlevel : s.atLeast s.cur .supervisor = true := decide_eq_true hruns.2
  show execTlbi f s = _
  simp only [execTlbi, hlevel, if_neg hruns.1, hrel, s.pBadSrc_eq _ hp, s.sBadSrc_eq _ hp, s.foldMine_none _ hdrains, Bool.not_true, Bool.and_false, Bool.or_self,
    Bool.false_eq_true, if_false, State.tlbiDrop, FY.sub_form f]


end

/-- tlbi waits for its release, and then drops by its form. -/
theorem tlbiDrops : tlbiRule := by
  intro s f hp hruns hdrains hform vd a b all n part
  refine ⟨exec_tlbi_waits s f hruns, fun hrel => ?_⟩
  have hexec := exec_tlbi s f hruns hp hdrains hrel
  have hdrop := s.tlbiDrop_dropped vd f.sub.toNat a b hform
  obtain ⟨h0, h1, h2, h3⟩ := FY.sub_form f
  simp only [← h0, ← h1, ← h2, ← h3] at hdrop
  change exec (.tlbi f) s = .next ((s.tlbiDrop vd f.sub.toNat a b).issue s.cur f.hd _) at hexec
  generalize s.tlbiDrop vd f.sub.toNat a b = u at hexec hdrop
  obtain ⟨hrest, htlb, hwalks⟩ := hdrop
  have hcur : u.cur = s.cur := (congrArg State.cur hrest :)
  have hu : Plain u := hp.of_eq hcur (congrArg State.fibres hrest :) (congrArg State.slots hrest :)
  rw [← hcur] at hexec
  exact ⟨_, u, hexec, u.issue_owes f.hd .other true [] hu, hrest, htlb, hwalks⟩

/-! scan (R440, R442). -/

section
variable (s : State) (f : FY) (hp : Plain s) (hruns : runsAt s f.hd .device)
include hp hruns

theorem exec_scan : exec (.scan f) s =
    if 512 ≤ (s.ssrc s.cur f.a).toNat ∨ s.coreCount ≤ (s.ssrc s.cur f.a).toNat then .next (s.issue s.cur f.hd (mkPend .other [.sreg f.d.toNat 3] true none))
    else if s.scanFree (s.ssrc s.cur f.a).toNat = true then
      .next ((s.issue s.cur f.hd (mkPend (.scan (s.ssrc s.cur f.a).toNat) [.sreg f.d.toNat 0] false none)).drain (s.ssrc s.cur f.a).toNat (some (0, s.cur)))
    else .next (s.issue s.cur f.hd (mkPend .other [.sreg f.d.toNat 2] true none)) := by
  have hlevel : s.atLeast s.cur .device = true := decide_eq_true hruns.2
  show execScan f s = _
  simp only [execScan, hlevel, if_neg hruns.1, s.aBad_eq f hp, Bool.not_true, Bool.false_eq_true, if_false, Bool.or_eq_true, decide_eq_true_eq]
  split
  · rfl
  · cases s.scanFree (s.ssrc s.cur f.a).toNat <;> rfl

end

/-- The workgroups of a list begin to stop. -/
def State.stopAll (s : State) (l : List (Nat × Wg)) : State := l.foldl (fun s e => s.stopWg e.1) s

theorem State.stopAll_rest (s : State) (l : List (Nat × Wg)) : { s.stopAll l with wgs := s.wgs } = s :=
  foldl_inv (fun t : State => { t with wgs := s.wgs } = s) (fun t (e : Nat × Wg) => t.stopWg e.1) (fun _ _ h => h) l s rfl

theorem State.stopWg_life_self (s : State) (w : Nat) : ((s.stopWg w).wg w).life = if (s.wg w).life = .running then .stopping false else (s.wg w).life :=
  congrArg Wg.life (State.wg_modWg_self _ _ _)

/-- A workgroup on the list that ran stops. -/
theorem State.stopAll_stops (s : State) {l : List (Nat × Wg)} {w : Nat} (hrun : (s.wg w).life = .running) (hmem : ∃ e ∈ l, e.1 = w) :
    ((s.stopAll l).wg w).life = .stopping false := by
  have hkeep (t : State) (v : Nat) (h : (t.wg w).life = .stopping false) : ((t.stopWg v).wg w).life = .stopping false := by
    by_cases hv : w = v
    · subst hv
      rw [State.stopWg_life_self, h]
      rfl
    · exact (congrArg Wg.life (State.wg_modWg_ne _ _ _ _ hv)).trans h
  obtain ⟨e, he, rfl⟩ := hmem
  unfold State.stopAll
  induction l generalizing s with
  | nil => cases he
  | cons x l ih =>
    by_cases hx : e.1 = x.1
    · refine foldl_inv (fun t : State => (t.wg e.1).life = .stopping false) _ (fun t y h => hkeep t y.1 h) l _ ?_
      show ((s.stopWg x.1).wg e.1).life = .stopping false
      rw [← hx, State.stopWg_life_self, hrun]
      rfl
    · refine ih (s.stopWg x.1) ((List.mem_cons.1 he).resolve_left ?_) ((congrArg Wg.life (State.wg_modWg_ne _ _ _ _ hx)).trans hrun)
      rintro rfl
      exact hx rfl

/-- What a pass that starts, or does not yet, changes. -/
theorem State.startPass_core (s : State) (c : Nat) : { s.startPass c with cores := s.cores, grids := s.grids } = s ∧
    (∀ j, j ≠ c → (s.startPass c).core j = s.core j) ∧ ((s.startPass c).core c).draining = (s.core c).draining ∧
      ((s.startPass c).core c).waiter = (s.core c).waiter := by
  unfold State.startPass
  dsimp only
  split
  · exact ⟨rfl, fun _ _ => rfl, rfl, rfl⟩
  · exact ⟨rfl, fun j hj => State.core_setCore_ne _ _ _ _ hj, (congrArg Core.draining (State.core_setCore_self s c _) :),
      (congrArg Core.waiter (State.core_setCore_self s c _) :)⟩

/-- Cores, workgroups and grids alone have changed. -/
def CoreWork (s t : State) : Prop := { t with cores := s.cores, wgs := s.wgs, grids := s.grids } = s

theorem CoreWork.trans {s t u : State} (h : CoreWork s t) (g : CoreWork t u) : CoreWork s u := by
  have hrest := h
  unfold CoreWork at hrest g
  rw [← g] at hrest
  exact hrest

/-- What a core's drain leaves. -/
structure Draining (s : State) (c : Nat) (waiter : Option (Nat × Nat)) (t : State) : Prop where
  rest     : CoreWork s t
  draining : (t.core c).draining = true
  waiter   : (t.core c).waiter = waiter
  others   : ∀ j, j ≠ c → t.core j = s.core j
  wgs      : ∀ w, (s.wg w).core = c → (s.wg w).life = .running → (t.wg w).life = .stopping false

theorem State.drain_draining (s : State) (c : Nat) (waiter : Option (Nat × Nat)) : Draining s c waiter (s.drain c waiter) := by
  have heq : s.drain c waiter = ((s.setCore c { s.core c with draining := true, waiter := waiter, passFrom := s.clock }).stopAll (s.wgsOn c)).startPass c := rfl
  have hself : (s.setCore c { s.core c with draining := true, waiter := waiter, passFrom := s.clock }).core c =
      { s.core c with draining := true, waiter := waiter, passFrom := s.clock } := State.core_setCore_self _ _ _
  have hne := fun j hj => State.core_setCore_ne s c j { s.core c with draining := true, waiter := waiter, passFrom := s.clock } hj
  rw [heq]
  have hset : CoreWork s (s.setCore c { s.core c with draining := true, waiter := waiter, passFrom := s.clock }) := rfl
  have hwgs : (s.setCore c { s.core c with draining := true, waiter := waiter, passFrom := s.clock }).wgs = s.wgs := rfl
  generalize s.setCore c { s.core c with draining := true, waiter := waiter, passFrom := s.clock } = u at hself hne hset hwgs
  have hwg (w : Nat) : u.wg w = s.wg w := congrArg (tget Wg.empty · w) hwgs
  have hstops := fun w hrun hmem => u.stopAll_stops (l := s.wgsOn c) (w := w) hrun hmem
  have hrest := u.stopAll_rest (s.wgsOn c)
  generalize u.stopAll (s.wgsOn c) = v at hstops hrest
  have hcore (j : Nat) : v.core j = u.core j := (congrArg (State.core · j) hrest :)
  obtain ⟨hpass, hothers, hdraining, hwaiter⟩ := v.startPass_core c
  refine ⟨?_, ?_, ?_, fun j hj => ?_, fun w hw hrun => ?_⟩
  · have hstop : CoreWork u v := (congrArg (fun x : State => { x with cores := u.cores, grids := u.grids }) hrest :)
    have hstart : CoreWork v (v.startPass c) := (congrArg (fun x : State => { x with wgs := v.wgs }) hpass :)
    exact (hset.trans hstop).trans hstart
  · rw [hdraining, hcore, hself]
  · rw [hwaiter, hcore, hself]
  · rw [hothers j hj, hcore, hne j hj]
  · have hlisted : tfind s.wgs w = some (s.wg w) := s.wg_listed (by rw [hrun]; exact nofun)
    have hon : s.onCore w = true := by unfold State.onCore; rw [hrun]
    rw [show (v.startPass c).wg w = v.wg w from (congrArg (State.wg · w) hpass :)]
    refine hstops w (by rw [hwg, hrun]) ⟨(w, s.wg w), List.mem_filter.2 ⟨tfind_mem _ _ _ hlisted, ?_⟩, rfl⟩
    simp [hw, hon]

/-- scan: a core that the package lacks, one that cannot be scanned now, and one that drains. -/
theorem scanDrains : scanRule := by
  intro s f hp hruns a now free
  have hexec := exec_scan s f hp hruns
  have hfree : s.scanFree a = true ↔ a < s.coreCount ∧ free := by
    simp [State.scanFree, free, and_assoc]
  have hnow (v : W64) := s.issue_owes f.hd .other true [.sreg f.d.toNat v] hp
  refine ⟨fun h => ⟨_, hexec.trans (if_pos h), hnow 3⟩, fun ha hc hnot => ⟨_, hexec.trans ((if_neg ?_).trans (if_neg ?_)), hnow 2⟩, fun ha hc hfr => ?_⟩
  · exact not_or.2 ⟨Nat.not_le.2 ha, Nat.not_le.2 hc⟩
  · exact fun h => hnot (hfree.1 h).2
  · have howes := s.issue_owes f.hd (.scan a) false [.sreg f.d.toNat 0] hp
    have hdrain := hexec.trans ((if_neg (not_or.2 ⟨Nat.not_le.2 ha, Nat.not_le.2 hc⟩)).trans (if_pos (hfree.2 ⟨hc, hfr⟩)))
    change exec (.scan f) s = .next ((s.issue s.cur f.hd (mkPend (.scan a) [.sreg f.d.toNat 0] false none)).drain a (some (0, s.cur))) at hdrain
    generalize s.issue s.cur f.hd (mkPend (.scan a) [.sreg f.d.toNat 0] false none) = u at howes hdrain
    obtain ⟨hrest, hdraining, hwaiter, hothers, hwgs⟩ := u.drain_draining a (some (0, s.cur))
    have hwg (w : Nat) : u.wg w = s.wg w := (congrArg (State.wg · w) howes.near.rest :)
    have hcore (j : Nat) : u.core j = s.core j := (congrArg (State.core · j) howes.near.rest :)
    refine ⟨_, u, hdrain, howes, hrest, hdraining, hwaiter, fun j hj => (hothers j hj).trans (hcore j), fun w hw hrun => ?_⟩
    exact hwgs w (by rwa [hwg]) (by rwa [hwg])

end Sys2Proof.Machine
end

section
/-! SUPPORT. The proofs of the scope: bank modes (R143 to R145, R291). -/

namespace Sys2Proof.Machine

/-! A bank leaves CACHE mode (R145, R291). -/

/-- Caches and main memory have worked, and locks and banks have changed. -/
def BankWork (s t : State) : Prop := CacheWork s { t with wgs := s.wgs, banks := s.banks }

namespace BankWork

theorem refl (s : State) : BankWork s s := CacheWork.refl s

theorem trans {s t u : State} (h : BankWork s t) (g : BankWork t u) : BankWork s u := by
  refine ⟨?_, fun k => (g.fibs k).trans (h.fibs k)⟩
  have hrest := h.rest
  rw [← (congrArg (fun v : State => { v with wgs := s.wgs, banks := s.banks }) g.rest :)] at hrest
  exact hrest

theorem cache {s t : State} (h : CacheWork s t) : BankWork s t :=
  ⟨(congrArg (fun v : State => { v with wgs := s.wgs, banks := s.banks }) h.rest :), h.fibs⟩

theorem setBank {s t : State} (h : BankWork s t) (b : Nat) (x : Bank) : BankWork s (t.setBank b x) := h

theorem cur {s t : State} (h : BankWork s t) : t.cur = s.cur := (congrArg State.cur h.rest :)

theorem me {s t : State} (h : BankWork s t) : t.me.bare = s.me.bare := by
  have hfib := h.fibs s.cur
  unfold State.me
  rw [h.cur]
  exact hfib

theorem plain {s t : State} (h : BankWork s t) (hp : Plain s) : Plain t := by
  have hslots : t.slots = s.slots := (congrArg State.slots h.rest :)
  have hidle : (t.fib s.cur).idle = (s.fib s.cur).idle := (congrArg (fun f : Fibre => { f with pend := [] }) (h.fibs s.cur) :)
  exact Killing.plain ⟨h.cur, hidle, fun j => congrArg (fun x => (tget Slot.empty x j).stackBad) hslots⟩ hp

end BankWork

theorem CacheWork.banks {s t : State} (h : CacheWork s t) : t.banks = s.banks := (congrArg State.banks h.rest :)

/-- The lines, copies and locks of a bank that leaves CACHE mode go. -/
theorem State.emptyBank_work (s : State) (cl : Nat) (banks : List Nat) (b : Nat) : BankWork s (s.emptyBank cl banks b) ∧ (s.emptyBank cl banks b).banks = s.banks := by
  unfold State.emptyBank
  extract_lets mine t u
  have ht : CacheWork s t := CacheWork.foldl (fun v k => (CacheWork.refl v).drainU cl (k % 2 ^ 52)) _ s
  have hu : CacheWork t u := CacheWork.foldl (fun v k => (CacheWork.refl v).ccDrop cl (k % 2 ^ 52)) _ t
  have hsu := ht.trans hu
  clear_value u
  exact ⟨(BankWork.cache hsu : BankWork s u), hsu.banks⟩

/-- A bank of the cluster begins to change to the mode `m`; one in CACHE mode is emptied. -/
def State.beginChange (s : State) (cl : Nat) (m : BankMode) (t : State) (b : Nat) : State :=
  let t := if (s.bank (64 * cl + b)).mode = .cache then t.emptyBank cl (s.cacheBanks cl) b else t
  t.setBank (64 * cl + b) { t.bank (64 * cl + b) with next := some m }

/-- The banks of a list begin to change. -/
def State.beginChanges (s : State) (cl : Nat) (m : BankMode) (l : List Nat) : State := l.foldl (s.beginChange cl m) s

theorem State.beginChange_bank (s : State) (cl : Nat) (m : BankMode) (t : State) (b : Nat) :
    BankWork t (s.beginChange cl m t b) ∧ (s.beginChange cl m t b).bank (64 * cl + b) = { t.bank (64 * cl + b) with next := some m } ∧
      ∀ j, j ≠ 64 * cl + b → (s.beginChange cl m t b).bank j = t.bank j := by
  have hset (u : State) (hu : BankWork t u) (hbanks : u.banks = t.banks) :
      BankWork t (u.setBank (64 * cl + b) { u.bank (64 * cl + b) with next := some m }) ∧
      (u.setBank (64 * cl + b) { u.bank (64 * cl + b) with next := some m }).bank (64 * cl + b) = { t.bank (64 * cl + b) with next := some m } ∧
      ∀ j, j ≠ 64 * cl + b → (u.setBank (64 * cl + b) { u.bank (64 * cl + b) with next := some m }).bank j = t.bank j := by
    have hbank (j : Nat) : u.bank j = t.bank j := by simp only [State.bank, hbanks]
    refine ⟨hu.setBank _ _, ?_, fun j hj => (State.bank_setBank_ne _ _ _ _ hj).trans (hbank j)⟩
    rw [State.bank_setBank_self, hbank]
  unfold State.beginChange
  dsimp only
  split
  · exact hset _ (t.emptyBank_work cl _ b).1 (t.emptyBank_work cl _ b).2
  · exact hset t (BankWork.refl t) rfl

theorem State.beginChanges_work (s : State) (cl : Nat) (m : BankMode) (l : List Nat) : BankWork s (s.beginChanges cl m l) :=
  foldl_inv (fun t : State => BankWork s t) _ (fun t b h => h.trans (s.beginChange_bank cl m t b).1) l s (BankWork.refl s)

/-- Each bank of the list has a mode to come, and no other bank has changed. -/
theorem State.beginChanges_bank (s : State) (cl : Nat) (m : BankMode) (l : List Nat) :
    (∀ b ∈ l, (s.beginChanges cl m l).bank (64 * cl + b) = { s.bank (64 * cl + b) with next := some m }) ∧
      ∀ j, (∀ b ∈ l, j ≠ 64 * cl + b) → (s.beginChanges cl m l).bank j = s.bank j := by
  have hmodes (t : State) (j : Nat) (x : Bank) (h : t.bank j = { x with next := some m }) (b : Nat) :
      (s.beginChange cl m t b).bank j = { x with next := some m } := by
    obtain ⟨-, hself, hne⟩ := s.beginChange_bank cl m t b
    by_cases hj : j = 64 * cl + b
    · rw [hj] at h ⊢
      rw [hself, h]
    · rw [hne j hj, h]
  have hkept (l : List Nat) (t : State) (j : Nat) (hj : ∀ b ∈ l, j ≠ 64 * cl + b) : (l.foldl (s.beginChange cl m) t).bank j = t.bank j :=
    List.foldlRecOn (motive := fun u : State => u.bank j = t.bank j) l _ rfl (fun u hu b hb => ((s.beginChange_bank cl m u b).2.2 j (hj b hb)).trans hu)
  have hgen (l : List Nat) (t : State) (b : Nat) (hb : b ∈ l) :
      (l.foldl (s.beginChange cl m) t).bank (64 * cl + b) = { t.bank (64 * cl + b) with next := some m } := by
    induction l generalizing t with
    | nil => cases hb
    | cons c l ih =>
      obtain ⟨-, hself, hne⟩ := s.beginChange_bank cl m t c
      by_cases hc : b = c
      · subst hc
        exact foldl_inv (fun u : State => u.bank (64 * cl + b) = { t.bank (64 * cl + b) with next := some m }) _ (fun u c h => hmodes u _ _ h c) l _ hself
      · refine (ih (s.beginChange cl m t c) ((List.mem_cons.1 hb).resolve_left hc)).trans ?_
        rw [hne _ (by omega)]
  exact ⟨fun b hb => hgen l s b hb, fun j hj => hkept l s j hj⟩

/-- Where no bank of the list is in CACHE mode, banks alone change. -/
theorem State.beginChanges_banks (s : State) (cl : Nat) (m : BankMode) (l : List Nat) (h : ∀ b ∈ l, (s.bank (64 * cl + b)).mode ≠ .cache) :
    { s.beginChanges cl m l with banks := s.banks } = s := by
  refine List.foldlRecOn (motive := fun u : State => { u with banks := s.banks } = s) l _ rfl (fun u hu b hb => ?_)
  unfold State.beginChange
  rw [if_neg (h b hb)]
  exact hu

/-! bankmode (R144). -/

/-- The banks of a mask that are in another mode than `m`. -/
def State.wantBanks (s : State) (cl : Nat) (req : W64) (m : BankMode) : List Nat :=
  (List.range 64).filter (fun b => req.getLsbD b && (s.bank (64 * cl + b)).mode != m)

theorem State.bankInUse_iff (s : State) (cl b : Nat) : s.bankInUse cl b = true ↔ ∃ e ∈ s.wgs, clusterOf e.2.core = cl ∧
    ((s.onCore e.1 = true ∧ tget 0 e.2.banks b ≠ 0) ∨ ((s.wg e.1).life ≠ .ended ∧ (s.wg e.1).life ≠ .killed ∧ ∃ q ∈ e.2.qbind, q.2 = b)) := by
  simp only [State.bankInUse, State.live, List.any_eq_true, Bool.and_eq_true, Bool.or_eq_true, bne_iff_ne, ne_eq, decide_eq_true_eq, and_assoc]

theorem bitsWhere_getLsbD (p : Nat → Bool) (b : Nat) (hb : b < 64) : (BitVec.ofNat 64 (bitsWhere 64 p)).getLsbD b = p b := by
  obtain ⟨hbits, -⟩ := foldl_bits p 64
  unfold bitsWhere
  rw [BitVec.getLsbD_ofNat, hbits b]
  simp [hb]

theorem bankModeOf_sub (f : FY) : bankModeOf f.sub.toNat = if f.sub = 0 then .cache else if f.sub = 1 then .scratch else .fifo := by
  obtain ⟨h0, h1, -, -⟩ := FY.sub_form f
  simp only [bankModeOf, h0, h1]

/-- A bank of the mask is in another mode than the one asked for. -/
def State.wantsBank (s : State) (cl : Nat) (req : W64) (m : BankMode) (b : Nat) : Prop := req.getLsbD b = true ∧ (s.bank (64 * cl + b)).mode ≠ m

theorem State.mem_wantBanks (s : State) (cl : Nat) (req : W64) (m : BankMode) (b : Nat) : b ∈ s.wantBanks cl req m ↔ b < 64 ∧ s.wantsBank cl req m b := by
  simp [State.wantBanks, State.wantsBank]

/-- The banks that a bankmode changes, and the word of those that it leaves to their users. -/
def State.takeBanks (s : State) (cl : Nat) (req : W64) (m : BankMode) : List Nat := (s.wantBanks cl req m).filter (fun b => !s.bankInUse cl b)

def State.refusedWord (s : State) (cl : Nat) (req : W64) (m : BankMode) : W64 :=
  BitVec.ofNat 64 (bitsWhere 64 (fun b => ((s.wantBanks cl req m).filter (fun b => s.bankInUse cl b)).contains b))

section
variable (s : State) (cl : Nat) (req : W64) (m : BankMode)

theorem State.mem_takeBanks (b : Nat) : b ∈ s.takeBanks cl req m ↔ b < 64 ∧ s.wantsBank cl req m b ∧ ¬ s.bankInUse cl b = true := by
  unfold State.takeBanks
  rw [List.mem_filter, s.mem_wantBanks]
  simp [and_assoc]

theorem State.takeBanks_isEmpty : (s.takeBanks cl req m).isEmpty = true ↔ ∀ b, b < 64 → s.wantsBank cl req m b → s.bankInUse cl b = true := by
  rw [List.isEmpty_iff, List.eq_nil_iff_forall_not_mem]
  refine forall_congr' fun b => ?_
  rw [s.mem_takeBanks]
  tauto

theorem State.refusedWord_getLsbD (b : Nat) (hb : b < 64) : (s.refusedWord cl req m).getLsbD b = true ↔ s.wantsBank cl req m b ∧ s.bankInUse cl b = true := by
  unfold State.refusedWord
  rw [bitsWhere_getLsbD _ b hb, List.contains_iff_mem, List.mem_filter, s.mem_wantBanks]
  exact ⟨fun h => ⟨h.1.2, h.2⟩, fun h => ⟨⟨hb, h.1⟩, h.2⟩⟩

/-- The banks that a bankmode takes have a mode to come; no other has changed. -/
theorem State.changed_bank :
    (∀ b, b < 64 → (s.wantsBank cl req m b ∧ ¬ s.bankInUse cl b = true →
      (s.beginChanges cl m (s.takeBanks cl req m)).bank (64 * cl + b) = { s.bank (64 * cl + b) with next := some m }) ∧
      (¬ (s.wantsBank cl req m b ∧ ¬ s.bankInUse cl b = true) →
        (s.beginChanges cl m (s.takeBanks cl req m)).bank (64 * cl + b) = s.bank (64 * cl + b))) ∧
    (∀ j, j / 64 ≠ cl → (s.beginChanges cl m (s.takeBanks cl req m)).bank j = s.bank j) := by
  obtain ⟨hself, hne⟩ := s.beginChanges_bank cl m (s.takeBanks cl req m)
  refine ⟨fun b hb => ⟨fun h => hself b ((s.mem_takeBanks cl req m b).2 ⟨hb, h⟩), fun h => hne _ fun c hc hk => ?_⟩, fun j hj => hne j fun c hc hk => hj ?_⟩
  · obtain rfl : b = c := by omega
    exact h ((s.mem_takeBanks cl req m b).1 hc).2
  · have := ((s.mem_takeBanks cl req m c).1 hc).1
    omega

end

section
variable (s : State) (f : FY) (hp : Plain s) (ha : s.acts s.cur f.hd &&& ~~~s.me.helper ≠ 0) (hpriv : 1 ≤ s.me.priv.code)
include hp ha hpriv

theorem exec_bankmode : exec (.bankmode f) s =
    if ((List.range 64).filter (fun b => if (s.ssrc s.cur f.a).getLsbD b then bankModeOf f.sub.toNat = .cache else
      (s.bank (64 * clusterOf (s.coreOf s.cur) + b)).mode = .cache)).length < 8
    then .next (s.issue s.cur f.hd (mkPend (.bank (clusterOf (s.coreOf s.cur))) [.sreg f.d.toNat (s.ssrc s.cur f.a)] true none))
    else .next ((s.beginChanges (clusterOf (s.coreOf s.cur)) (bankModeOf f.sub.toNat)
        (s.takeBanks (clusterOf (s.coreOf s.cur)) (s.ssrc s.cur f.a) (bankModeOf f.sub.toNat))).issue s.cur f.hd
      (mkPend (.bank (clusterOf (s.coreOf s.cur)))
        [.sreg f.d.toNat (s.refusedWord (clusterOf (s.coreOf s.cur)) (s.ssrc s.cur f.a) (bankModeOf f.sub.toNat))]
        (s.takeBanks (clusterOf (s.coreOf s.cur)) (s.ssrc s.cur f.a) (bankModeOf f.sub.toNat)).isEmpty none)) := by
  have hlevel : s.atLeast s.cur .supervisor = true := decide_eq_true hpriv
  have hhelp : s.onlyHelpers s.cur (s.acts s.cur f.hd) = false := decide_eq_false ha
  show execBankmode f s = _
  simp only [execBankmode, hlevel, hhelp, s.aBad_eq f hp, Bool.not_true, Bool.false_eq_true, if_false]
  rfl

end

/-- Where banks change, the word is owed with those that are left, and completes at once where none changes. -/
theorem State.changed_owes (s : State) (f : FY) (cl : Nat) (req : W64) (m : BankMode) (hp : Plain s) :
    Owes (s.beginChanges cl m (s.takeBanks cl req m)) f.hd (.bank cl) (s.takeBanks cl req m).isEmpty [.sreg f.d.toNat (s.refusedWord cl req m)]
      ((s.beginChanges cl m (s.takeBanks cl req m)).issue s.cur f.hd
        (mkPend (.bank cl) [.sreg f.d.toNat (s.refusedWord cl req m)] (s.takeBanks cl req m).isEmpty none)) := by
  have hwork := s.beginChanges_work cl m (s.takeBanks cl req m)
  have howes := (s.beginChanges cl m (s.takeBanks cl req m)).issue_owes f.hd (.bank cl) (s.takeBanks cl req m).isEmpty
    [.sreg f.d.toNat (s.refusedWord cl req m)] (hwork.plain hp)
  rwa [hwork.cur] at howes

/-! The bank has drained (R145). -/

/-- Another bank of the cluster still drains. -/
def State.stillDrains (s : State) (cl b : Nat) : Bool := (List.range 64).any (fun j => j != b && (s.bank (64 * cl + j)).next.isSome)

/-- The words that wait for the banks of a cluster complete. -/
def Fibre.banksReady (f : Fibre) (cl : Nat) : Fibre := { f with pend := f.pend.map (fun p => if p.kind = .bank cl then { p with ready := true } else p) }

theorem exec_bankDrainComplete (s : State) (cl b : Nat) {m : BankMode} (h : (s.bank (64 * cl + b)).next = some m) : exec (.bankDrainComplete cl b) s = .next
    (if s.stillDrains cl b then s.setBank (64 * cl + b) { mode := m, next := none, fifo := [] }
    else { s.setBank (64 * cl + b) { mode := m, next := none, fifo := [] } with fibres := s.fibres.map (fun e => (e.1, e.2.banksReady cl)) }) := by
  have hstill : (List.range 64).any (fun j => ((s.setBank (64 * cl + b) { mode := m, next := none, fifo := [] }).bank (64 * cl + j)).next.isSome) = s.stillDrains cl b := by
    unfold State.stillDrains
    congr 1
    funext j
    by_cases hj : j = b
    · rw [hj, State.bank_setBank_self]
      simp
    · rw [State.bank_setBank_ne _ _ _ _ (by omega)]
      simp [hj]
  show execBankDrainComplete cl b s = _
  unfold execBankDrainComplete
  simp only [h, hstill]
  cases s.stillDrains cl b <;> rfl

theorem bankDrain (s : State) (cl b : Nat) {m : BankMode} (h : (s.bank (64 * cl + b)).next = some m) :
    ∃ t, exec (.bankDrainComplete cl b) s = .next t ∧ { t with banks := s.banks, fibres := s.fibres } = s ∧
      t.bank (64 * cl + b) = { mode := m, next := none, fifo := [] } ∧ (∀ j, j ≠ 64 * cl + b → t.bank j = s.bank j) ∧
      ∀ k, t.fib k = if s.stillDrains cl b then s.fib k else (s.fib k).banksReady cl := by
  refine ⟨_, exec_bankDrainComplete s cl b h, ?_⟩
  cases s.stillDrains cl b
  · exact ⟨rfl, State.bank_setBank_self _ _ _, fun j hj => State.bank_setBank_ne _ _ _ _ hj,
      fun k => tget_mapValues Fibre.empty Fibre.empty s.fibres (fun _ f => f.banksReady cl) k rfl⟩
  · exact ⟨rfl, State.bank_setBank_self _ _ _, fun j hj => State.bank_setBank_ne _ _ _ _ hj, fun k => rfl⟩

/-- bankmode, and the end of a bank's drain. -/
theorem bankModesChange : bankRule := by
  refine ⟨fun s f hp ha hpriv _ => ?_, fun s cl b => ⟨fun hnone => ?_, fun m hm => ?_⟩⟩
  · have hexec := exec_bankmode s f hp ha hpriv
    simp only [← State.bankInUse_iff, ← bankModeOf_sub f]
    generalize bankModeOf f.sub.toNat = m at hexec ⊢
    generalize clusterOf (s.coreOf s.cur) = cl at hexec ⊢
    generalize s.ssrc s.cur f.a = req at hexec ⊢
    refine ⟨fun hfew => ⟨_, hexec.trans (if_pos hfew), s.issue_owes f.hd (.bank cl) true _ hp⟩, fun hmany => ?_⟩
    obtain ⟨hbanks, hothers⟩ := s.changed_bank cl req m
    have hwork := s.beginChanges_work cl m (s.takeBanks cl req m)
    exact ⟨_, _, _, _, hexec.trans (if_neg (Nat.not_lt.2 hmany)), s.changed_owes f cl req m hp, s.refusedWord_getLsbD cl req m, s.takeBanks_isEmpty cl req m,
      hbanks, hothers, hwork.cur, hwork.me, fun hm => s.beginChanges_banks cl m _ fun b hb => hm ▸ ((s.mem_takeBanks cl req m b).1 hb).2.1.2⟩
  · show execBankDrainComplete cl b s = _
    unfold execBankDrainComplete
    simp only [hnone]
  · obtain ⟨t, hexec, hrest, hself, hne, hfib⟩ := bankDrain s cl b hm
    refine ⟨t, hexec, hrest, hself, hne, fun k => ?_⟩
    rw [hfib k]
    unfold State.stillDrains
    split
    · exact ⟨rfl, rfl⟩
    · exact ⟨rfl, rfl⟩

end Sys2Proof.Machine
end

section
/-! SUPPORT. The proofs of the scope: shadow mode (R443). -/

namespace Sys2Proof.Machine

/-! A word that writes nothing, where no window is open (R63). -/

/-- A window that holds no register's old value. -/
def EphWin.blank (w : EphWin) : Prop := w.old = [] ∧ w.pold = []

theorem State.endWindow_blank (s : State) (k : Nat) {w : EphWin} (h : w.blank) : s.endWindow k w = s := by
  obtain ⟨hold, hpold⟩ := h
  unfold State.endWindow
  rw [hold, hpold]
  rfl

theorem State.closeWindows_blank (s : State) (k : Nat) (p : EphWin → Bool) (h : ∀ w ∈ (s.fib k).eph, w.blank) :
    Near k s (s.closeWindows k p) ∧ (s.closeWindows k p).slots = s.slots ∧ ∃ eph, (s.closeWindows k p).fib k = { s.fib k with eph := eph } := by
  unfold State.closeWindows
  extract_lets ws t
  split
  · exact ⟨Near.refl k s, rfl, _, rfl⟩
  · have hfold : (ws.filter p).foldl (fun t w => t.endWindow k w) t = t :=
      List.foldlRecOn (motive := fun u : State => u = t) _ _ rfl (fun u hu w hw => by rw [hu]; exact t.endWindow_blank k (h w (List.mem_filter.1 hw).1))
    rw [hfold]
    exact ⟨Near.modFib k s _, rfl, _, State.fib_modFib_self _ _ _⟩

/-- What such a word leaves of its fibre: its lanes stand at Next. -/
structure Passed (s t : State) : Prop where
  near  : Near s.cur s t
  slots : t.slots = s.slots
  fib   : ∃ fr eph, t.fib s.cur = { s.me.countWord with frontier := fr, eph := eph } ∧
    ∀ l x, standsIn fr l x ↔ standsIn (s.me.entry.next :: s.me.frontier.drop 1) l x

theorem State.advance_blank (s : State) (k : Nat) (h : ∀ w ∈ (s.fib k).eph, w.blank) :
    Near k s (s.advance k) ∧ (s.advance k).slots = s.slots ∧ ∃ fr eph, (s.advance k).fib k = { s.fib k with frontier := fr, eph := eph } ∧
      ∀ l x, standsIn fr l x ↔ standsIn ((s.fib k).entry.next :: (s.fib k).frontier.drop 1) l x := by
  unfold State.advance
  extract_lets f e n t
  have ht : t.fib k = { f with frontier := mergeAll (n :: f.frontier.drop 1) } := State.fib_setFib_self _ _ _
  have hnear : Near k s t := Near.setFib k s _
  split
  · exact ⟨hnear, rfl, _, f.eph, ht, fun l x => standsIn_mergeAll _ l x⟩
  · obtain ⟨fr, hfr⟩ := State.select_fib t k
    have hstands (l : Nat) (x : Entry) : standsIn fr l x ↔ standsIn (n :: f.frontier.drop 1) l x := by
      have hsel := State.select_stands t k l x
      rw [hfr, ht] at hsel
      exact hsel.trans (standsIn_mergeAll _ l x)
    have hslots : (t.select k).slots = s.slots := by
      unfold State.select
      dsimp only
      split <;> rfl
    obtain ⟨hclose, hcloseSlots, eph, hcloseFib⟩ := (t.select k).closeWindows_blank k
      (fun w => w.left = 0 || !((t.select k).fib k).frontier.any (fun e => e.inside && e.hdr = w.hdr)) (by rw [hfr, ht]; exact h)
    exact ⟨(hnear.trans (Near.select k t)).trans hclose, hcloseSlots.trans hslots, fr, eph, hcloseFib.trans (by rw [hfr, ht]), hstands⟩

theorem State.finish_passed (s : State) (h : s.me.eph = []) : Passed s (s.finish s.cur []) := by
  unfold State.finish State.finishWith
  extract_lets e s1 old s2 s3
  have hs1 : s1 = s.setFib s.cur s.me.countWord := State.counted_eq s s.cur h
  have hme : s1.fib s.cur = s.me.countWord := by rw [hs1, State.fib_setFib_self]
  have hs2 : s2 = s1 := State.supersede_eq _ _ _ (by rw [hme]; exact h)
  have hs3 : Near s.cur s s3 ∧ s3.slots = s.slots ∧ ∃ eph, s3.fib s.cur = { s.me.countWord with eph := eph } ∧ ∀ w ∈ eph, w.blank := by
    have hcount : Near s.cur s s1 ∧ s1.slots = s.slots := by rw [hs1]; exact ⟨Near.setFib _ _ _, rfl⟩
    unfold s3
    rw [hs2]
    split
    · refine ⟨hcount.1.trans (Near.modFib _ _ _), hcount.2, _, (State.fib_modFib_self _ _ _).trans (by rw [hme]), ?_⟩
      rw [show s.me.countWord.eph = [] from h]
      exact List.forall_mem_singleton.2 ⟨rfl, rfl⟩
    · exact ⟨hcount.1, hcount.2, _, hme, fun w hw => absurd (h ▸ hw) (by simp)⟩
  obtain ⟨hnear, hslots, eph, hfib, hblank⟩ := hs3
  obtain ⟨hadv, hadvSlots, fr, eph', hadvFib, hstands⟩ := s3.advance_blank s.cur (by rw [hfib]; exact hblank)
  rw [hfib] at hadvFib hstands
  exact ⟨hnear.trans hadv, hadvSlots.trans hslots, fr, eph', hadvFib, hstands⟩

/-! Masks of the lanes below 16 and above. -/

theorem lowLanes (l : Nat) : (0xFFFF : LaneMask).getLsbD l = decide (l < 16) := by
  show (BitVec.ofNat 32 (2 ^ 16 - 1)).getLsbD l = _
  rw [BitVec.getLsbD_ofNat, Nat.testBit_two_pow_sub_one]
  by_cases h : l < 16
  · simp [h, Nat.lt_trans h (by decide : 16 < 32)]
  · simp [h]

theorem highLanes (l : Nat) (hl : l < 32) : (0xFFFF0000 : LaneMask).getLsbD l = decide (16 ≤ l) := by
  show (~~~(0xFFFF : LaneMask)).getLsbD l = _
  rw [BitVec.getLsbD_not, lowLanes]
  by_cases h : l < 16
  · simp [h]
  · simp [h, hl, Nat.not_lt.1 h]

theorem dupHalf_getLsbD (m : LaneMask) (l : Nat) (hl : l < 16) : (dupHalf m).getLsbD l = m.getLsbD l ∧ (dupHalf m).getLsbD (16 + l) = m.getLsbD l := by
  rw [show dupHalf m = m &&& (0xFFFF : LaneMask) ||| m <<< 16 from rfl]
  refine ⟨?_, ?_⟩
  · rw [BitVec.getLsbD_or, BitVec.getLsbD_and, lowLanes, BitVec.getLsbD_shiftLeft]
    simp [hl]
  · rw [BitVec.getLsbD_or, BitVec.getLsbD_and, lowLanes, BitVec.getLsbD_shiftLeft]
    simp [show 16 + l < 32 by omega]

/-- A launched lane below 16 has not exited, and has not where the lanes below 16 are the same. -/
theorem launched_left {a b a' b' : LaneMask} (h : (a &&& ~~~b) &&& 0xFFFF ≠ 0) (ha : ∀ l, l < 16 → a'.getLsbD l = a.getLsbD l)
    (hb : ∀ l, l < 16 → b'.getLsbD l = b.getLsbD l) : a' &&& ~~~b' ≠ 0 := by
  intro h0
  refine h (BitVec.eq_of_getLsbD_eq fun l hl => ?_)
  have hbit := congrArg (·.getLsbD l) h0
  simp only [BitVec.getLsbD_and, BitVec.getLsbD_not, lowLanes] at hbit ⊢
  by_cases hlow : l < 16
  · rw [ha l hlow, hb l hlow] at hbit
    rw [hbit]
    simp
  · simp [hlow]

/-! dmr.on copies frames (R443). -/

/-- The places of a frame that are copied: its entries in the lanes below 16 of a mask. -/
def State.framePlaces (s : State) (k fp : Nat) (m : LaneMask) : List (Nat × Nat) :=
  ((List.range (64 - (s.wg (wgOf k)).sh)).map (fun i => s.ventry k fp i)).flatMap (fun e => (lanesOf (m &&& 0xFFFF)).map (fun l => (e, l)))

theorem State.mem_framePlaces (s : State) (k fp : Nat) (m : LaneMask) (e l : Nat) : (e, l) ∈ s.framePlaces k fp m ↔
    (∃ i, i < 64 - (s.wg (wgOf k)).sh ∧ s.ventry k fp i = e) ∧ l < 16 ∧ m.getLsbD l = true := by
  simp only [State.framePlaces, List.mem_flatMap, List.mem_map, List.mem_range, mem_lanesOf, BitVec.getLsbD_and, Bool.and_eq_true, Prod.mk.injEq]
  constructor
  · rintro ⟨_, ⟨i, hi, rfl⟩, l', ⟨-, hm, hlow⟩, rfl, rfl⟩
    rw [lowLanes, decide_eq_true_eq] at hlow
    exact ⟨⟨i, hi, rfl⟩, hlow, hm⟩
  · rintro ⟨⟨i, hi, rfl⟩, hlow, hm⟩
    exact ⟨_, ⟨i, hi, rfl⟩, l, ⟨by omega, hm, (lowLanes l).trans (decide_eq_true hlow)⟩, rfl, rfl⟩

section
variable (s : State) (k fp : Nat) (m : LaneMask)

theorem State.copyFrame_stack : ((s.copyFrame k fp m).slot (slotOf k)).stack = (s.framePlaces k fp m).foldl
    (fun t x => tset 0 t (32 * x.1 + 16 + x.2) ((s.slot (slotOf k)).at x.1 x.2)) (s.slot (slotOf k)).stack := by
  unfold State.copyFrame State.framePlaces
  rw [State.slot_modSlot_self, List.foldl_flatMap]
  simp only [List.foldl_map]
  rfl

/-- The lanes below 16 keep what they hold. -/
theorem State.copyFrame_low (i l : Nat) (hl : l < 16) : ((s.copyFrame k fp m).slot (slotOf k)).at i l = (s.slot (slotOf k)).at i l := by
  unfold Slot.at
  rw [s.copyFrame_stack]
  refine tget_foldl_tset_ne (0 : W32) (fun x : Nat × Nat => 32 * x.1 + 16 + x.2) _ (fun x hx => ?_) _
  have := ((s.mem_framePlaces k fp m x.1 x.2).1 hx).2.1
  omega

/-- A place that is copied holds in the lane above what it holds below. -/
theorem State.copyFrame_copies (e l : Nat) (h : (e, l) ∈ s.framePlaces k fp m) :
    ((s.copyFrame k fp m).slot (slotOf k)).at e (16 + l) = (s.slot (slotOf k)).at e l := by
  have hl := ((s.mem_framePlaces k fp m e l).1 h).2.1
  have hget := tget_foldl_tset_mem (0 : W32) (fun x : Nat × Nat => 32 * x.1 + 16 + x.2) (fun x => (s.slot (slotOf k)).at x.1 x.2) h (fun y hy hk => ?_)
    (s.slot (slotOf k)).stack
  · rw [← s.copyFrame_stack] at hget
    exact (congrArg (tget 0 _) (by omega)).trans hget
  · have hy16 := ((s.mem_framePlaces k fp m y.1 y.2).1 hy).2.1
    obtain ⟨h1, h2⟩ : y.1 = e ∧ y.2 = l := by dsimp only at hk; omega
    show (s.slot (slotOf k)).at y.1 y.2 = (s.slot (slotOf k)).at e l
    rw [h1, h2]

/-- A lane above 16 that holds what the lane below holds does so after a copy. -/
theorem State.copyFrame_keeps (e l : Nat) (hl : l < 16) (h : (s.slot (slotOf k)).at e (16 + l) = (s.slot (slotOf k)).at e l) :
    ((s.copyFrame k fp m).slot (slotOf k)).at e (16 + l) = ((s.copyFrame k fp m).slot (slotOf k)).at e l := by
  rw [s.copyFrame_low k fp m e l hl]
  by_cases hin : (e, l) ∈ s.framePlaces k fp m
  · exact s.copyFrame_copies k fp m e l hin
  · rw [← h]
    unfold Slot.at
    rw [s.copyFrame_stack]
    refine tget_foldl_tset_ne (0 : W32) (fun x : Nat × Nat => 32 * x.1 + 16 + x.2) _ (fun x hx hk => hin ?_) _
    have hx16 := ((s.mem_framePlaces k fp m x.1 x.2).1 hx).2.1
    obtain ⟨h1, h2⟩ : x.1 = e ∧ x.2 = l := by omega
    exact h1 ▸ h2 ▸ hx

theorem State.copyFrame_wgs : (s.copyFrame k fp m).wgs = s.wgs := rfl

end

/-- The frames of all entries are copied. -/
def State.copyFrames (s : State) (k : Nat) (fr : List Entry) : State := fr.foldl (fun s e => s.copyFrame k e.fp e.mask) s

section
variable (s : State) (k : Nat) (fr : List Entry)

theorem State.copyFrames_rest : { s.copyFrames k fr with slots := s.slots } = s :=
  foldl_inv (fun t : State => { t with slots := s.slots } = s) (fun t (e : Entry) => t.copyFrame k e.fp e.mask) (fun _ _ h => h) fr s rfl

theorem State.copyFrames_low (i l : Nat) (hl : l < 16) : ((s.copyFrames k fr).slot (slotOf k)).at i l = (s.slot (slotOf k)).at i l :=
  foldl_inv (fun t : State => (t.slot (slotOf k)).at i l = (s.slot (slotOf k)).at i l) _ (fun t e h => (t.copyFrame_low k e.fp e.mask i l hl).trans h) fr s rfl

/-- With the workgroups `w`, an entry of the register stack holds in the lane above what it holds in a lane below 16. -/
def State.mirrors (w : Tab Wg) (k e l : Nat) (t : State) : Prop := t.wgs = w → (t.slot (slotOf k)).at e (16 + l) = (t.slot (slotOf k)).at e l

theorem State.copyFrame_mirrors (t : State) {e : Entry} (i l : Nat) (hi : i < 64 - (s.wg (wgOf k)).sh) (hl : l < 16) (hm : e.mask.getLsbD l = true) :
    (t.copyFrame k e.fp e.mask).mirrors s.wgs k (s.ventry k e.fp i) l := by
  intro ht
  replace ht := (t.copyFrame_wgs k e.fp e.mask).symm.trans ht
  have hwg : t.wg (wgOf k) = s.wg (wgOf k) := congrArg (tget Wg.empty · (wgOf k)) ht
  rw [t.copyFrame_low k e.fp e.mask _ l hl]
  refine t.copyFrame_copies k e.fp e.mask _ l ((t.mem_framePlaces k e.fp e.mask _ l).2 ⟨⟨i, by rwa [hwg], ?_⟩, hl, hm⟩)
  unfold State.ventry
  rw [hwg]

/-- The frame of an entry is copied in each of its lanes below 16. -/
theorem State.copyFrames_copies {e : Entry} (he : e ∈ fr) (i l : Nat) (hi : i < 64 - (s.wg (wgOf k)).sh) (hl : l < 16) (hm : e.mask.getLsbD l = true) :
    ((s.copyFrames k fr).slot (slotOf k)).at (s.ventry k e.fp i) (16 + l) = (s.slot (slotOf k)).at (s.ventry k e.fp i) l := by
  have hcopied : (s.copyFrames k fr).mirrors s.wgs k (s.ventry k e.fp i) l :=
    foldl_reaches (State.mirrors s.wgs k (s.ventry k e.fp i) l) (fun s (e : Entry) => s.copyFrame k e.fp e.mask) he
      (fun t => s.copyFrame_mirrors k t i l hi hl hm)
      (fun t y _ h ht => t.copyFrame_keeps k y.fp y.mask _ l hl (h ((t.copyFrame_wgs k y.fp y.mask).symm.trans ht))) s
  exact (hcopied (congrArg State.wgs (s.copyFrames_rest k fr) :)).trans (s.copyFrames_low k fr _ l hl)

end

/-! dmr (R443). -/

section
variable (s : State) (f : FY) (ha : s.acts s.cur f.hd ≠ 0)
include ha

theorem exec_dmr_on (hp : Plain s) (hsub : f.sub = 1) : exec (.dmr f) s = .next (((s.finish s.cur []).dmrOn s.cur).endFibre s.cur) := by
  have hframe : s.frameBad s.cur = false := by simp [State.frameBad, s.stackPoison_eq _ hp]
  show execDmr f s = _
  simp only [execDmr, if_neg ha, s.pBadSrc_eq _ hp, hframe, Bool.and_false, Bool.or_self, Bool.false_eq_true, if_false, if_pos hsub]

theorem exec_dmr_off (hp : s.me.pBad = []) (hsub : f.sub = 0) : exec (.dmr f) s = .next (((s.finish s.cur []).dmrOff s.cur).endFibre s.cur) := by
  have hbad : s.pBadSrc s.cur f.hd.gp.toNat = false := by
    have hfib : (s.fib s.cur).pBad = [] := hp
    simp [State.pBadSrc, hfib, tget, tfind]
  have hne : f.sub ≠ 1 := by rw [hsub]; decide
  show execDmr f s = _
  simp only [execDmr, if_neg ha, hbad, if_neg hne, decide_eq_false hne, Bool.false_and, Bool.or_self, Bool.false_eq_true, if_false]

end

/-- The fibre once shadow mode is on. -/
def Fibre.shadowed (f : Fibre) : Fibre :=
  { f with shadow := true, launched := dupHalf f.launched, helper := dupHalf f.helper, exited := dupHalf f.exited,
           pregs := f.pregs.map (fun p => (p.1, dupHalf p.2)),
           frontier := (f.frontier.map (fun e => { e with mask := dupHalf e.mask })).filter (fun e => e.mask != 0),
           trap := { f.trap with aside := (f.trap.aside.map (fun e => { e with mask := dupHalf e.mask })).filter (fun e => e.mask != 0) } }

theorem State.dmrOn_eq (s : State) (k : Nat) : s.dmrOn k = (s.copyFrames k (s.fib k).frontier).setFib k (s.fib k).shadowed := rfl

theorem Fibre.shadowed_preg (f : Fibre) (n l : Nat) (hl : l < 16) :
    (f.shadowed.preg n).getLsbD (16 + l) = (f.preg n).getLsbD l ∧ (f.shadowed.preg n).getLsbD l = (f.preg n).getLsbD l := by
  unfold Fibre.preg
  split
  · simp only [BitVec.getLsbD_allOnes]
    simp [show 16 + l < 32 by omega, show l < 32 by omega]
  · rw [show tget 0 f.shadowed.pregs (n % 8) = dupHalf (tget 0 f.pregs (n % 8)) from tget_mapValues 0 0 f.pregs (fun _ m => dupHalf m) (n % 8) rfl]
    exact (dupHalf_getLsbD _ l hl).symm

/-- A lane of an entry of the frontier has an entry with its FP once its fibre has passed a word. -/
theorem Passed.entry {s t : State} (h : Passed s t) {e : Entry} (he : e ∈ s.me.frontier) {l : Nat} (hl : e.mask.getLsbD l = true) :
    ∃ y ∈ (t.fib s.cur).frontier, y.mask.getLsbD l = true ∧ y.fp = e.fp := by
  obtain ⟨-, -, fr, eph, hfib, hstands⟩ := h
  have hfp (x : Entry) : x.next.fp = x.fp := by
    unfold Entry.next
    split <;> rfl
  have hnew : ∃ x, standsIn (s.me.entry.next :: s.me.frontier.drop 1) l x ∧ x.fp = e.fp := by
    cases hfr : s.me.frontier with
    | nil => rw [hfr] at he; cases he
    | cons y rest =>
      rw [hfr] at he
      rcases List.mem_cons.1 he with rfl | he
      · rw [s.me.entry_of_cons hfr]
        refine ⟨e.next, ⟨e.next, List.mem_cons_self, ?_, rfl, rfl, rfl⟩, hfp e⟩
        rwa [Entry.next_mask]
      · exact ⟨e, ⟨e, List.mem_cons_of_mem _ he, hl, rfl, rfl, rfl⟩, rfl⟩
  obtain ⟨x, hx, hxfp⟩ := hnew
  obtain ⟨y, hy, hym, -, hyfp, -⟩ := (hstands l x).2 hx
  rw [hfib]
  exact ⟨y, hy, hym, hyfp.trans hxfp⟩

theorem Passed.slot {s t : State} (h : Passed s t) (k : Nat) : t.slot k = s.slot k := congrArg (tget Slot.empty · k) h.slots

theorem Passed.wg {s t : State} (h : Passed s t) (w : Nat) : t.wg w = s.wg w := congrArg (tget Wg.empty · w) h.near.wgs

/-- dmr.on. -/
theorem dmr_on (s : State) (f : FY) (ha : s.acts s.cur f.hd ≠ 0) (hleft : (s.me.launched &&& ~~~s.me.exited) &&& 0xFFFF ≠ 0) (hp : Plain s) (hsub : f.sub = 1) :
    ∃ t, exec (.dmr f) s = .next t ∧ (∃ fr eph, t.me = Fibre.shadowed { s.me.countWord with frontier := fr, eph := eph }) ∧
      (∀ e ∈ s.me.frontier, ∀ i l, i < 64 - (s.wg (wgOf s.cur)).sh → l < 16 → e.mask.getLsbD l = true →
        t.mySlot.at (s.ventry s.cur e.fp i) (16 + l) = s.mySlot.at (s.ventry s.cur e.fp i) l) ∧
      (∀ i l, l < 16 → t.mySlot.at i l = s.mySlot.at i l) := by
  have hpassed := s.finish_passed hp.windows
  have hexec := exec_dmr_on s f ha hp hsub
  generalize s.finish s.cur [] = u at hpassed hexec
  obtain ⟨fr, eph, hfib, -⟩ := hpassed.fib
  have hself : (u.dmrOn s.cur).fib s.cur = (u.fib s.cur).shadowed := by rw [State.dmrOn_eq, State.fib_setFib_self]
  rw [State.endFibre_runs _ _ (by
    rw [hself, hfib]
    exact launched_left hleft (fun l hl => (dupHalf_getLsbD _ l hl).1) (fun l hl => (dupHalf_getLsbD _ l hl).1))] at hexec
  have hcur : (u.dmrOn s.cur).cur = s.cur := (congrArg State.cur (u.copyFrames_rest s.cur (u.fib s.cur).frontier) :).trans hpassed.near.cur
  have hslot (i l : Nat) : (u.dmrOn s.cur).mySlot.at i l = ((u.copyFrames s.cur (u.fib s.cur).frontier).slot (slotOf s.cur)).at i l := by
    unfold State.mySlot
    rw [hcur]
    rfl
  have hmySlot : u.slot (slotOf s.cur) = s.mySlot := hpassed.slot _
  have hwg := hpassed.wg (wgOf s.cur)
  refine ⟨_, hexec, ⟨fr, eph, ?_⟩, fun e he i l hi hl hm => ?_, fun i l hl => ?_⟩
  · unfold State.me
    rw [hcur, hself, hfib]
    rfl
  · obtain ⟨y, hy, hym, hyfp⟩ := hpassed.entry he hm
    have hcopies := u.copyFrames_copies s.cur _ hy i l (by rwa [hwg]) hl hym
    have hentry : u.ventry s.cur y.fp i = s.ventry s.cur e.fp i := by simp only [State.ventry, hwg, hyfp]
    rw [hslot, ← hentry, hcopies, hmySlot]
  · rw [hslot, u.copyFrames_low s.cur _ i l hl, hmySlot]

/-- The fibre once shadow mode is off, where `l` and `h` are its launch kinds. -/
def Fibre.unshadowed (f : Fibre) (l h : LaneMask) : Fibre :=
  let launched := (f.launched &&& 0xFFFF) ||| (l &&& 0xFFFF0000)
  let helper := (f.helper &&& 0xFFFF) ||| (h &&& 0xFFFF0000)
  let cut (l : List Entry) : List Entry := (l.map (fun e => { e with mask := e.mask &&& (launched ||| helper) })).filter (fun e => e.mask != 0)
  let fr := cut f.frontier
  let aside := cut f.trap.aside
  let entry := f.trap.entry.map (fun e => { e with mask := e.mask &&& (launched ||| helper) })
  let here := (fr ++ aside ++ entry.toList).foldl (fun m e => m ||| e.mask) 0
  { f with shadow := false, launched := launched, helper := helper, exited := (f.exited &&& 0xFFFF) ||| ((launched ||| helper) &&& ~~~here &&& 0xFFFF0000),
           frontier := fr, trap := { f.trap with aside := aside, entry := entry } }

theorem State.dmrOff_single (s : State) (k : Nat) (h : (s.fib k).shadow = false) : s.dmrOff k = s := by
  unfold State.dmrOff
  dsimp only
  rw [h]
  rfl

theorem State.dmrOff_shadow (s : State) (k : Nat) (h : (s.fib k).shadow = true) : s.dmrOff k =
    s.setFib k ((s.fib k).unshadowed (maskOf (fun i => 32 * (slotIdx k * (s.wg (wgOf k)).kd.fibres + fibIdx k) + i < (s.wg (wgOf k)).threads))
      (launchKinds (s.wg (wgOf k)).threads (32 * (slotIdx k * (s.wg (wgOf k)).kd.fibres + fibIdx k))).2) := by
  unfold State.dmrOff
  dsimp only
  rw [h]
  rfl

theorem lowHigh_getLsbD (a b : LaneMask) (l : Nat) (hl : l < 32) :
    ((a &&& 0xFFFF) ||| (b &&& 0xFFFF0000)).getLsbD l = if l < 16 then a.getLsbD l else b.getLsbD l := by
  rw [BitVec.getLsbD_or, BitVec.getLsbD_and, BitVec.getLsbD_and, lowLanes, highLanes l hl]
  by_cases h : l < 16
  · simp [h]
  · simp [h, Nat.not_lt.1 h]

/-- dmr.off in shadow mode. -/
theorem dmr_off (s : State) (f : FY) (ha : s.acts s.cur f.hd ≠ 0) (hleft : (s.me.launched &&& ~~~s.me.exited) &&& 0xFFFF ≠ 0) (hshadow : s.me.shadow = true)
    (hbad : s.me.pBad = []) (heph : s.me.eph = []) (hsub : f.sub = 0) :
    let w := s.wg (wgOf s.cur)
    ∃ t, exec (.dmr f) s = .next t ∧ t.mySlot = s.mySlot ∧ ∃ fr eph h, t.me = Fibre.unshadowed { s.me.countWord with frontier := fr, eph := eph }
      (maskOf (fun i => 32 * (slotIdx s.cur * w.kd.fibres + fibIdx s.cur) + i < w.threads)) h := by
  intro w
  have hpassed := s.finish_passed heph
  have hexec := exec_dmr_off s f ha hbad hsub
  generalize s.finish s.cur [] = u at hpassed hexec
  obtain ⟨fr, eph, hfib, -⟩ := hpassed.fib
  have hoff := u.dmrOff_shadow s.cur (by rw [hfib]; exact hshadow)
  rw [hoff, hfib, hpassed.wg] at hexec
  rw [State.endFibre_runs _ _ (by
    rw [State.fib_setFib_self]
    exact launched_left hleft (fun l hl => (lowHigh_getLsbD _ _ l (by omega)).trans (if_pos hl)) (fun l hl => (lowHigh_getLsbD _ _ l (by omega)).trans (if_pos hl)))] at hexec
  have hcur : u.cur = s.cur := hpassed.near.cur
  refine ⟨_, hexec, ?_, fr, eph, (launchKinds w.threads (32 * (slotIdx s.cur * w.kd.fibres + fibIdx s.cur))).2, ?_⟩
  · exact (congrArg (fun k => u.slot (slotOf k)) hcur).trans (hpassed.slot _)
  · show (u.setFib s.cur _).fib u.cur = _
    rw [hcur, State.fib_setFib_self]

/-- dmr.off where shadow mode is off. -/
theorem dmr_off_single (s : State) (f : FY) (ha : s.acts s.cur f.hd ≠ 0) (hleft : (s.me.launched &&& ~~~s.me.exited) &&& 0xFFFF ≠ 0) (hp : Plain s) (hsub : f.sub = 0) :
    ∃ t, exec (.dmr f) s = .next t ∧ Quiet s t := by
  have hexec := exec_dmr_off s f ha hp.predicates hsub
  have hquiet := s.finish_quiet hp
  have hpassed := s.finish_passed hp.windows
  generalize s.finish s.cur [] = u at hexec hquiet hpassed
  obtain ⟨fr, eph, hfib, -⟩ := hpassed.fib
  rw [u.dmrOff_single s.cur (by rw [hfib]; exact hp.single), State.endFibre_runs _ _ (by
    rw [hfib]
    exact launched_left hleft (fun _ _ => rfl) (fun _ _ => rfl))] at hexec
  exact ⟨u, hexec, hquiet⟩

/-- dmr in its three cases. -/
theorem dmrShadows : dmrRule := by
  intro s f ha hleft
  refine ⟨fun hp hsub => ?_, fun hp hsub => dmr_off_single s f ha hleft hp hsub, fun hshadow hbad heph hsub => ?_⟩
  · obtain ⟨t, hexec, ⟨fr, eph, hme⟩, hframes, hlow⟩ := dmr_on s f ha hleft hp hsub
    refine ⟨t, hexec, by rw [hme]; rfl, by rw [hme]; rfl, fun l hl => ?_, hframes, hlow⟩
    rw [hme]
    exact ⟨(dupHalf_getLsbD _ l hl).2, (dupHalf_getLsbD _ l hl).1, (dupHalf_getLsbD _ l hl).2, (dupHalf_getLsbD _ l hl).2,
      fun n => Fibre.shadowed_preg _ n l hl⟩
  · obtain ⟨t, hexec, hslot, fr, eph, h, hme⟩ := dmr_off s f ha hleft hshadow hbad heph hsub
    refine ⟨t, hexec, by rw [hme]; rfl, by rw [hme]; rfl, by rw [hme]; rfl, by rw [hslot], fun l hl => ?_, fun l hl hlt => ?_⟩
    · rw [hme]
      exact (lowHigh_getLsbD _ _ l (by omega)).trans (if_pos hl)
    · rw [hme]
      have hkind := (lowHigh_getLsbD s.me.launched (maskOf (fun i => 32 * (slotIdx s.cur * (s.wg (wgOf s.cur)).kd.fibres + fibIdx s.cur) + i <
        (s.wg (wgOf s.cur)).threads)) l hlt).trans (if_neg (Nat.not_lt.2 hl))
      rw [maskOf_getLsbD] at hkind
      refine (Eq.congr_left hkind).trans ?_
      simp [hlt]

/-- Settles O39: a fibre below the level of a word traps first; `halt` kills by `State.killGrid_killed`, `tlbi` drops by `State.tlbiDrop_dropped`,
`bankmode` changes banks by `State.changed_bank`, `dmr` copies by `State.copyFrames_copies`, and `scan` drains by `State.drain_draining`. -/
theorem privilegedAndModeWords : Obligations.PrivilegedAndModeWords := ⟨privilegedWords, ⟨haltKills, tlbiDrops, bankModesChange⟩, dmrShadows, scanDrains⟩

end Sys2Proof.Machine
end

section
/-! SUPPORT. The proofs of the scope: launch (R47, R126, R127, R130 to R133). -/

namespace Sys2Proof.Machine

/-! What the checks of records ask (R47, R127). -/

/-- A record passes just where it keeps R127 and names a queue below QCOUNT. -/
theorem LaunchRec.ok_iff (r : LaunchRec) (qcount : Nat) : r.ok qcount false = true ↔ RecordOk r qcount := by
  simp only [LaunchRec.ok, LaunchRec.child, Bool.and_eq_true, Bool.or_eq_true, decide_eq_true_eq, Bool.false_or, Nat.lt_min, and_assoc]
  constructor
  · rintro ⟨hprov, hconf, hx, hx', hy, hy', hz, hz', hqueue, hcount, hflags, hparent, hrsv⟩
    exact ⟨hprov, hconf, ⟨hx, hx'⟩, ⟨hy, hy'⟩, ⟨hz, hz'⟩, ⟨hqueue, hcount⟩, hflags, by omega, hrsv⟩
  · rintro ⟨hprov, hconf, ⟨hx, hx'⟩, ⟨hy, hy'⟩, ⟨hz, hz'⟩, ⟨hqueue, hcount⟩, hflags, hparent, hrsv⟩
    exact ⟨hprov, hconf, hx, hx', hy, hy', hz, hz', hqueue, hcount, hflags, by omega, hrsv⟩

/-- A descriptor passes just where it keeps R47. -/
theorem KDesc.ok_iff (d : KDesc) (texts : List (Nat × Nat)) : d.ok texts = true ↔ DescOk d texts := by
  have himp (b : Bool) (p : Prop) : (b = true ∨ p) ↔ (b = false → p) := by cases b <;> simp
  have himp' (b : Bool) (p : Prop) : (b = false ∨ p) ↔ (b = true → p) := by cases b <;> simp
  simp only [KDesc.ok, Bool.and_eq_true, decide_eq_true_eq, List.any_eq_true, List.contains_iff_mem, List.mem_cons, List.not_mem_nil, or_false, Bool.or_eq_true,
    Bool.not_eq_true', bne_iff_ne, himp, himp', and_assoc]
  constructor
  · rintro ⟨hcode, htext, hscratch, hscratch', hob, hob', hreserve, hargs, hstack, hmin, hmax, hslots, hslots', hfibres, hfibres', hshared, hprio, hflags, hversion,
      hrsv, hroom, hgang, hspill⟩
    exact ⟨⟨hcode, htext⟩, ⟨hscratch, hscratch'⟩, ⟨hob, hob'⟩, hreserve, hargs, ⟨hstack, hmin, hmax⟩, ⟨hslots, hslots'⟩, ⟨hfibres, hfibres'⟩, hshared, hprio, hflags,
      hversion, hrsv, hroom, hgang, hspill⟩
  · rintro ⟨⟨hcode, htext⟩, ⟨hscratch, hscratch'⟩, ⟨hob, hob'⟩, hreserve, hargs, ⟨hstack, hmin, hmax⟩, ⟨hslots, hslots'⟩, ⟨hfibres, hfibres'⟩, hshared, hprio, hflags,
      hversion, hrsv, hroom, hgang, hspill⟩
    exact ⟨hcode, htext, hscratch, hscratch', hob, hob', hreserve, hargs, hstack, hmin, hmax, hslots, hslots', hfibres, hfibres', hshared, hprio, hflags, hversion,
      hrsv, hroom, hgang, hspill⟩

/-- An image of the virtual device lists a descriptor. -/
theorem Vd.lists_iff (v : Vd) (d : Nat) : v.images.any (fun i => i.descs.contains d) = true ↔ ∃ i ∈ v.images, d ∈ i.descs := by
  simp only [List.any_eq_true, List.contains_iff_mem]

/-- CHILD is a record's one flag (R127). -/
theorem LaunchRec.child_false {r : LaunchRec} (h : r.lflags = 0) : r.child = false := by simp [LaunchRec.child, h]
theorem LaunchRec.child_true {r : LaunchRec} (h : r.lflags = 1) : r.child = true := by simp [LaunchRec.child, h]

/-! The checks in their order (R130): each answers where those before it pass. -/

/-- The address of a record's queue entry (R125). -/
def State.queueAt (s : State) (vd : Nat) (r : LaunchRec) : Nat := (s.vd vd).queueTable + 32 * r.queue

/-- The record keeps R127, its queue's entry is `q`, which is ENABLED, and an image lists its descriptor. -/
structure Listed (s : State) (core vd : Nat) (r : LaunchRec) (q : QueueEnt) : Prop where
  record  : RecordOk r (s.vd vd).qcount
  entry   : ∃ b, s.tryRead core vd (s.queueAt vd r) 32 = .ok b ∧ QueueEnt.ofBytes b = q
  enabled : q.enabled = true
  image   : ∃ i ∈ (s.vd vd).images, r.desc ∈ i.descs

/-- And the descriptor that it names is `kd`, which keeps R47 and has room for its THREADS. -/
structure Described (s : State) (core vd : Nat) (r : LaunchRec) (q : QueueEnt) (kd : KDesc) : Prop extends Listed s core vd r q where
  desc    : ∃ b, s.tryRead core vd r.desc 128 = .ok b ∧ KDesc.ofBytes b = kd
  valid   : DescOk kd ((s.vd vd).images.flatMap (fun i => i.texts))
  threads : r.threads ≤ 32 * kd.fibres * kd.slots

section
variable {s : State} {core vd : Nat}

theorem State.launchAt_misaligned {a : Nat} (ha : a % 64 ≠ 0) : s.launchAt core vd a = .ok (3, s) := by
  simp only [State.launchAt, bne_iff_ne.2 ha, if_true]

theorem State.launchAt_unread {a : Nat} {c : Cause} (ha : a % 64 = 0) (hread : s.tryRead core vd a 64 = .error (.fault c)) : s.launchAt core vd a = .ok (7, s) := by
  simp only [State.launchAt, ha, hread, bne_self_eq_false, Bool.false_eq_true, if_false]

theorem State.launchAt_read {a : Nat} {b : List Byte} (ha : a % 64 = 0) (hread : s.tryRead core vd a 64 = .ok b) :
    s.launchAt core vd a = s.admitRec core vd (LaunchRec.ofBytes b) false := by
  simp only [State.launchAt, ha, hread, bne_self_eq_false, Bool.false_eq_true, if_false]

variable {r : LaunchRec}

theorem State.queueEntry_unread {c : Cause} (hread : s.tryRead core vd (s.queueAt vd r) 32 = .error (.fault c)) :
    s.queueEntry core vd r false = .error (.fault c) := by
  unfold State.queueAt at hread
  simp only [State.queueEntry, hread, Bool.false_eq_true, if_false]

theorem State.queueEntry_read {b : List Byte} (hread : s.tryRead core vd (s.queueAt vd r) 32 = .ok b) :
    s.queueEntry core vd r false = .ok (if (QueueEnt.ofBytes b).enabled then some (QueueEnt.ofBytes b) else none) := by
  unfold State.queueAt at hread
  simp only [State.queueEntry, hread, Bool.false_eq_true, if_false]

theorem State.admitRec_malformed (hrec : ¬ RecordOk r (s.vd vd).qcount) : s.admitRec core vd r false = .ok (3, s) := by
  have hok : r.ok (s.vd vd).qcount false = false := Bool.eq_false_iff.2 (mt (r.ok_iff _).1 hrec)
  simp only [State.admitRec, hok, Bool.not_false, if_true]

section
variable (hrec : RecordOk r (s.vd vd).qcount)
include hrec

theorem State.admitRec_queueUnread {c : Cause} (hread : s.tryRead core vd (s.queueAt vd r) 32 = .error (.fault c)) : s.admitRec core vd r false = .ok (7, s) := by
  simp only [State.admitRec, (r.ok_iff _).2 hrec, State.queueEntry_unread hread, Bool.not_true, Bool.false_eq_true, if_false]

variable {b : List Byte} (hread : s.tryRead core vd (s.queueAt vd r) 32 = .ok b)
include hread

theorem State.admitRec_disabled (hoff : (QueueEnt.ofBytes b).enabled = false) : s.admitRec core vd r false = .ok (3, s) := by
  simp only [State.admitRec, (r.ok_iff _).2 hrec, State.queueEntry_read hread, hoff, Bool.not_true, Bool.false_eq_true, if_false]

theorem State.admitRec_unlisted (hon : (QueueEnt.ofBytes b).enabled = true) (himage : ¬ ∃ i ∈ (s.vd vd).images, r.desc ∈ i.descs) :
    s.admitRec core vd r false = .ok (6, s) := by
  have hlists : (s.vd vd).images.any (fun i => i.descs.contains r.desc) = false := Bool.eq_false_iff.2 (mt ((s.vd vd).lists_iff _).1 himage)
  simp only [State.admitRec, (r.ok_iff _).2 hrec, State.queueEntry_read hread, hon, hlists, Bool.not_true, Bool.not_false, Bool.false_eq_true, if_false, if_true]

end

variable {q : QueueEnt}

section
variable (h : Listed s core vd r q)
include h

/-- The queue entry of a listed record is its `q`. -/
theorem Listed.queueEntry : s.queueEntry core vd r false = .ok (some q) := by
  obtain ⟨b, hread, rfl⟩ := h.entry
  rw [State.queueEntry_read hread, if_pos h.enabled]

theorem Listed.record_ok : r.ok (s.vd vd).qcount false = true := (r.ok_iff _).2 h.record

theorem Listed.image_any : (s.vd vd).images.any (fun i => i.descs.contains r.desc) = true := ((s.vd vd).lists_iff _).2 h.image

theorem State.admitRec_descUnread {c : Cause} (hread : s.tryRead core vd r.desc 128 = .error (.fault c)) : s.admitRec core vd r false = .ok (7, s) := by
  simp only [State.admitRec, h.record_ok, h.queueEntry, h.image_any, hread, Bool.not_true, Bool.false_eq_true, if_false]

variable {b : List Byte} (hread : s.tryRead core vd r.desc 128 = .ok b)
include hread

theorem State.admitRec_invalid (hvalid : ¬ DescOk (KDesc.ofBytes b) ((s.vd vd).images.flatMap (fun i => i.texts))) : s.admitRec core vd r false = .ok (2, s) := by
  have hok : (KDesc.ofBytes b).ok ((s.vd vd).images.flatMap (fun i => i.texts)) = false := Bool.eq_false_iff.2 (mt ((KDesc.ofBytes b).ok_iff _).1 hvalid)
  simp only [State.admitRec, h.record_ok, h.queueEntry, h.image_any, hread, hok, Bool.not_true, Bool.not_false, Bool.false_eq_true,
    if_false, if_true]

theorem State.admitRec_crowded (hvalid : DescOk (KDesc.ofBytes b) ((s.vd vd).images.flatMap (fun i => i.texts)))
    (hmany : 32 * (KDesc.ofBytes b).fibres * (KDesc.ofBytes b).slots < r.threads) : s.admitRec core vd r false = .ok (3, s) := by
  simp only [State.admitRec, h.record_ok, h.queueEntry, h.image_any, hread, ((KDesc.ofBytes b).ok_iff _).2 hvalid, hmany,
    Bool.not_true, Bool.false_eq_true, if_false, if_true]

end

section
variable {kd : KDesc} (h : Described s core vd r q kd)
include h

/-- A record whose kernel takes no arguments. -/
theorem State.admitRec_noArgs (hsize : kd.argsSize = 0) : s.admitRec core vd r false = .ok (s.admitGrid vd r kd [] q false) := by
  obtain ⟨b, hread, rfl⟩ := h.desc
  simp only [State.admitRec, h.record_ok, h.queueEntry, h.image_any, hread, ((KDesc.ofBytes b).ok_iff _).2 h.valid, Nat.not_lt.2 h.threads,
    hsize, Bool.not_true, Bool.false_eq_true, if_false, if_true]

variable (hsize : kd.argsSize ≠ 0)
include hsize

theorem State.admitRec_argsMisaligned (halign : r.args % 8 ≠ 0) : s.admitRec core vd r false = .ok (3, s) := by
  obtain ⟨b, hread, rfl⟩ := h.desc
  simp only [State.admitRec, h.record_ok, h.queueEntry, h.image_any, hread, ((KDesc.ofBytes b).ok_iff _).2 h.valid, Nat.not_lt.2 h.threads,
    hsize, bne_iff_ne.2 halign, Bool.not_true, Bool.false_eq_true, if_false, if_true]

theorem State.admitRec_argsUnread {c : Cause} (halign : r.args % 8 = 0) (hargs : s.tryRead core vd r.args kd.argsSize = .error (.fault c)) :
    s.admitRec core vd r false = .ok (7, s) := by
  obtain ⟨b, hread, rfl⟩ := h.desc
  simp only [State.admitRec, h.record_ok, h.queueEntry, h.image_any, hread, ((KDesc.ofBytes b).ok_iff _).2 h.valid, Nat.not_lt.2 h.threads,
    hsize, halign, hargs, bne_self_eq_false, Bool.not_true, Bool.false_eq_true, if_false]

theorem State.admitRec_args {args : List Byte} (halign : r.args % 8 = 0) (hargs : s.tryRead core vd r.args kd.argsSize = .ok args) :
    s.admitRec core vd r false = .ok (s.admitGrid vd r kd args q false) := by
  obtain ⟨b, hread, rfl⟩ := h.desc
  simp only [State.admitRec, h.record_ok, h.queueEntry, h.image_any, hread, ((KDesc.ofBytes b).ok_iff _).2 h.valid, Nat.not_lt.2 h.threads,
    hsize, halign, hargs, bne_self_eq_false, Bool.not_true, Bool.false_eq_true, if_false]

end

end

/-! Admission (R131 to R133). -/

theorem gkey_ne {vd m n : Nat} (h : m ≠ n) : gkey vd m ≠ gkey vd n := by
  unfold gkey
  omega

/-- A new grid holds what was read at its admission. -/
theorem Grid.admitted_holds (r : LaunchRec) (kd : KDesc) (args : List Byte) (q : QueueEnt) : AdmittedGrid r kd args q (Grid.admitted r kd args q false) :=
  ⟨⟨rfl, rfl, rfl, rfl⟩, ⟨rfl, rfl, rfl⟩, ⟨rfl, rfl, rfl, rfl⟩, ⟨rfl, rfl⟩, ⟨rfl, rfl⟩, rfl, rfl, rfl, rfl, rfl, rfl, rfl⟩

theorem Grid.admitted_parent (r : LaunchRec) (kd : KDesc) (args : List Byte) (q : QueueEnt) :
    (Grid.admitted r kd args q false).parent = if r.child then some r.parent else none := rfl

/-- A grid enters its virtual device under the next identifier, with `used` units of the quota then in use. -/
def State.enter (s : State) (vd : Nat) (g : Grid) (used : Nat) : State :=
  (s.setGrid (gkey vd (s.vd vd).nextGrid) g).setVd vd { s.vd vd with nextGrid := (s.vd vd).nextGrid + 1, quotaUsed := used }

/-- A grid gives `draw` units of its reserve to a child. -/
def State.giveUnits (s : State) (k draw : Nat) : State :=
  s.setGrid k { s.grid k with reserve := (s.grid k).reserve - draw, held := (s.grid k).held - draw }

/-- The virtual device has taken a grid in, and nothing outside grids and this virtual device has changed. -/
structure TakesIn (s : State) (vd : Nat) (g : Grid) (used : Nat) (u : State) : Prop where
  rest   : { u with grids := s.grids, vds := s.vds } = s
  grid   : u.grid (gkey vd (s.vd vd).nextGrid) = g
  self   : u.vd vd = { s.vd vd with nextGrid := (s.vd vd).nextGrid + 1, quotaUsed := used }
  others : ∀ j, j ≠ vd → u.vd j = s.vd j

section
variable (s : State) (vd : Nat) (g : Grid) (used : Nat)

theorem State.enter_rest : { s.enter vd g used with grids := s.grids, vds := s.vds } = s := rfl

/-- The grids may already have changed otherwise, as a parent's have (R133). -/
theorem State.enter_takesIn {t : State} (hrest : { t with grids := s.grids } = s) : TakesIn s vd g used (t.enter vd g used) := by
  have hvds : t.vds = s.vds := (congrArg State.vds hrest :)
  have hvd (j : Nat) : t.vd j = s.vd j := congrArg (tget Vd.empty · j) hvds
  have henter : { t.enter vd g used with grids := s.grids, vds := t.vds } = s :=
    (congrArg (fun x : State => { x with grids := s.grids }) (t.enter_rest vd g used)).trans hrest
  refine ⟨hvds ▸ henter, ?_, ?_, fun j hj => (State.vd_setVd_ne _ _ _ _ hj).trans (hvd j)⟩
  · rw [← hvd vd]
    exact State.grid_setGrid_self _ _ _
  · rw [← hvd vd]
    exact State.vd_setVd_self _ _ _

theorem State.giveUnits_rest (k draw : Nat) : { s.giveUnits k draw with grids := s.grids } = s := rfl

theorem State.enter_grid_ne {j : Nat} (hj : j ≠ gkey vd (s.vd vd).nextGrid) : (s.enter vd g used).grid j = s.grid j := State.grid_setGrid_ne _ _ _ _ hj

end

section
variable (s : State) (vd : Nat) (r : LaunchRec) (kd : KDesc) (args : List Byte) (q : QueueEnt)

theorem State.parentOk_iff (draw : Nat) : s.parentOk vd r draw = true ↔
    r.parent ≠ 0 ∧ ((s.grid (gkey vd r.parent)).st = .admitted ∨ (s.grid (gkey vd r.parent)).st = .running) ∧ draw ≤ (s.grid (gkey vd r.parent)).reserve := by
  simp only [State.parentOk, Bool.and_eq_true, Bool.or_eq_true, decide_eq_true_eq, bne_iff_ne, and_assoc]

section
variable (hchild : r.child = false)
include hchild

theorem State.admitGrid_quotaFull (hfull : (s.vd vd).cfg.gridQuota < (s.vd vd).quotaUsed + (1 + kd.childReserve)) : s.admitGrid vd r kd args q false = (5, s) := by
  simp only [State.admitGrid, hchild, hfull, Bool.false_eq_true, if_false, if_true]

theorem State.admitGrid_quota (hroom : (s.vd vd).quotaUsed + (1 + kd.childReserve) ≤ (s.vd vd).cfg.gridQuota) : s.admitGrid vd r kd args q false =
    (2 ^ 32 * (s.vd vd).nextGrid, s.enter vd (Grid.admitted r kd args q false) ((s.vd vd).quotaUsed + (1 + kd.childReserve))) := by
  simp only [State.admitGrid, State.enter, hchild, Nat.not_lt.2 hroom, Bool.false_eq_true, if_false]

end

section
variable (hchild : r.child = true)
include hchild

theorem State.admitGrid_refused (hparent : s.parentOk vd r (1 + kd.childReserve) = false) : s.admitGrid vd r kd args q false = (1, s) := by
  simp only [State.admitGrid, hchild, hparent, Bool.false_eq_true, if_false, if_true]

theorem State.admitGrid_child (hparent : s.parentOk vd r (1 + kd.childReserve) = true) : s.admitGrid vd r kd args q false =
    (2 ^ 32 * (s.vd vd).nextGrid, (s.giveUnits (gkey vd r.parent) (1 + kd.childReserve)).enter vd (Grid.admitted r kd args q false) (s.vd vd).quotaUsed) := by
  simp only [State.admitGrid, State.enter, State.giveUnits, State.vd_setGrid, hchild, hparent, Bool.false_eq_true, if_false, if_true]

end

end

/-! The word (R130). -/

/-- A launch gives its status, and leaves the state that the admission left with the word's result owed. -/
def LaunchGives (s : State) (f : FY) (n : Nat) (P : State → Prop) : Prop :=
  ∃ t u, exec (.launch f) s = .next t ∧ P u ∧ Owes u f.hd .other true [.sreg f.d.toNat (BitVec.ofNat 64 n)] t

section
variable {s : State} {f : FY} (ha : s.acts s.cur f.hd &&& ~~~s.me.helper ≠ 0) (hpriv : 1 ≤ s.me.priv.code)
include ha hpriv

theorem exec_launch_waits (hrel : s.relBlocked s.cur = true) : exec (.launch f) s = .next s := by
  have hlevel : s.atLeast s.cur .supervisor = true := decide_eq_true hpriv
  have hhelp : s.onlyHelpers s.cur (s.acts s.cur f.hd) = false := decide_eq_false ha
  show execLaunch f s = _
  simp only [execLaunch, hlevel, hhelp, hrel, Bool.not_true, Bool.false_eq_true, if_false, if_true]

/-- The answer of the checks is the word's. -/
theorem exec_launch (hp : Plain s) (hdrains : s.drains = []) (hrel : s.relBlocked s.cur = false) {n : Nat} {u : State}
    (hlaunch : s.launchAt (s.coreOf s.cur) (s.vdOf s.cur) (s.ssrc s.cur f.a).toNat = .ok (n, u)) :
    exec (.launch f) s = .next (u.issue s.cur f.hd (mkPend .other [.sreg f.d.toNat (BitVec.ofNat 64 n)] true none)) := by
  have hlevel : s.atLeast s.cur .supervisor = true := decide_eq_true hpriv
  have hhelp : s.onlyHelpers s.cur (s.acts s.cur f.hd) = false := decide_eq_false ha
  show execLaunch f s = _
  simp only [execLaunch, hlevel, hhelp, hrel, s.aBad_eq f hp, s.foldMine_none _ hdrains, hlaunch, Bool.not_true, Bool.false_eq_true, if_false]

/-- Where grids and virtual devices alone have changed, the word owes its status. -/
theorem launchGives_of_answer (hp : Plain s) (hdrains : s.drains = []) (hrel : s.relBlocked s.cur = false) {n : Nat} {u : State} {P : State → Prop}
    (hlaunch : s.launchAt (s.coreOf s.cur) (s.vdOf s.cur) (s.ssrc s.cur f.a).toNat = .ok (n, u)) (hrest : { u with grids := s.grids, vds := s.vds } = s) (hP : P u) :
    LaunchGives s f n P := by
  have hcur : u.cur = s.cur := (congrArg State.cur hrest :)
  have hu : Plain u := hp.of_eq hcur (congrArg State.fibres hrest :) (congrArg State.slots hrest :)
  have howes := u.issue_owes f.hd .other true [.sreg f.d.toNat (BitVec.ofNat 64 n)] hu
  rw [hcur] at howes
  exact ⟨_, u, exec_launch ha hpriv hp hdrains hrel hlaunch, hP, howes⟩

end

/-- Settles O43: the checks of R130 answer one after another by the lemmas `State.launchAt_…` and `State.admitRec_…`; a record that passes them all is settled
by its quota (`State.admitGrid_quota`) or its parent (`State.admitGrid_child`). -/
theorem launches : Obligations.Launches := by
  intro s f hp hdrains ha hpriv vd v core a gives fails read
  refine ⟨exec_launch_waits ha hpriv, fun hrel => ?_⟩
  have hgives {n : Nat} {u : State} {P : State → Prop} (hlaunch : s.launchAt core vd a = .ok (n, u)) (hrest : { u with grids := s.grids, vds := s.vds } = s)
      (hP : P u) : gives n P := launchGives_of_answer ha hpriv hp hdrains hrel hlaunch hrest hP
  have hfails {n : Nat} (hlaunch : s.launchAt core vd a = .ok (n, s)) : fails n := hgives hlaunch rfl rfl
  refine ⟨fun halign => hfails (State.launchAt_misaligned halign), fun c halign hread => hfails (State.launchAt_unread halign hread), ?_⟩
  intro b halign hread r qcount entry
  rw [State.launchAt_read halign hread] at hgives hfails
  refine ⟨fun hrec => hfails (State.admitRec_malformed hrec), fun c hrec hqueue => hfails (State.admitRec_queueUnread hrec hqueue), ?_⟩
  intro qb hrec hqueue q listed
  have hlisted (hon : q.enabled = true) (himage : listed) : Listed s core vd r q := ⟨hrec, ⟨qb, hqueue, rfl⟩, hon, himage⟩
  refine ⟨fun hoff => hfails (State.admitRec_disabled hrec hqueue hoff), fun hon himage => hfails (State.admitRec_unlisted hrec hqueue hon himage),
    fun c hon himage hdesc => hfails (State.admitRec_descUnread (hlisted hon himage) hdesc), ?_⟩
  intro db hon himage hdesc kd ok
  have hl := hlisted hon himage
  have hdescribed (hok : ok) (hroom : r.threads ≤ 32 * kd.fibres * kd.slots) : Described s core vd r q kd := ⟨hl, ⟨db, hdesc, rfl⟩, hok, hroom⟩
  refine ⟨fun hok => hfails (State.admitRec_invalid hl hdesc hok), fun hok hmany => hfails (State.admitRec_crowded hl hdesc hok hmany),
    fun hok hroom hsize halign => hfails (State.admitRec_argsMisaligned (hdescribed hok hroom) hsize halign),
    fun c hok hroom hsize halign hargs => hfails (State.admitRec_argsUnread (hdescribed hok hroom) hsize halign hargs), ?_⟩
  intro args hok hroom hargs draw id pk p accepts takes
  have hadmit : s.admitRec core vd r false = .ok (s.admitGrid vd r kd args q false) := by
    obtain ⟨hsize, rfl⟩ | ⟨hsize, halign, hargs⟩ := hargs
    · exact State.admitRec_noArgs (hdescribed hok hroom) hsize
    · exact State.admitRec_args (hdescribed hok hroom) hsize halign hargs
  rw [hadmit] at hgives hfails
  have htakes {u : State} {used : Nat} (h : TakesIn s vd (Grid.admitted r kd args q false) used u) : takes u :=
    ⟨h.rest, h.grid ▸ Grid.admitted_holds r kd args q, congrArg Vd.nextGrid h.self, h.others⟩
  have hparent : accepts ↔ s.parentOk vd r draw = true := (s.parentOk_iff vd r draw).symm
  refine ⟨fun hflags hfull => ?_, fun hflags hfree => ?_, fun hflags hrefused => ?_, fun hflags haccepts hne => ?_⟩
  · exact hfails (congrArg _ (s.admitGrid_quotaFull vd r kd args q (LaunchRec.child_false hflags) hfull))
  · have hchild := LaunchRec.child_false hflags
    have hin := s.enter_takesIn vd (Grid.admitted r kd args q false) (v.quotaUsed + draw) rfl
    exact hgives (congrArg _ (s.admitGrid_quota vd r kd args q hchild hfree)) hin.rest
      ⟨htakes hin, (congrArg Vd.quotaUsed hin.self :), (congrArg Grid.parent hin.grid).trans (Grid.admitted_parent r kd args q ▸ by simp [hchild]),
        fun j hj => s.enter_grid_ne vd _ _ hj⟩
  · exact hfails (congrArg _ (s.admitGrid_refused vd r kd args q (LaunchRec.child_true hflags) (Bool.eq_false_iff.2 (mt hparent.2 hrefused))))
  · have hchild := LaunchRec.child_true hflags
    have hin := s.enter_takesIn vd (Grid.admitted r kd args q false) v.quotaUsed (s.giveUnits_rest pk draw)
    exact hgives (congrArg _ (s.admitGrid_child vd r kd args q hchild (hparent.1 haccepts))) hin.rest
      ⟨htakes hin, (congrArg Vd.quotaUsed hin.self :), (congrArg Grid.parent hin.grid).trans (Grid.admitted_parent r kd args q ▸ by simp [hchild]),
        ((s.giveUnits pk draw).enter_grid_ne vd _ _ (gkey_ne hne)).trans (State.grid_setGrid_self _ _ _),
        fun j hj hpk => ((s.giveUnits pk draw).enter_grid_ne vd _ _ hj).trans (State.grid_setGrid_ne _ _ _ _ hpk)⟩

end Sys2Proof.Machine
end

section
/-! SUPPORT. The proofs of the scope: where a saved workgroup's slots do not keep their registers when it is restored (R434). -/

namespace Sys2Proof.Machine

/-- A saved workgroup whose descriptor has 17 slots, one more than a workgroup's keys name: its last slot goes by the key of slot 0 of
workgroup 2, which has ended on core 0 and left a register there. -/
def overhanging : State :=
  { State.reset with
    vds   := [(0, { Vd.empty with enabled := true, cfg := { FunctionCfg.empty with cores := [0] } })]
    wgs   := [(1, { Wg.empty with life := .saved, kd := { KDesc.empty with slots := 17 } }), (2, Wg.empty)]
    slots := [(32, { Slot.empty with stack := [(0, 1)] })] }

/-- It fits on core 0. -/
theorem overhanging_fits : ∃ slots banks, overhanging.fits 0 (overhanging.wg 1).kd = some (slots, banks) := ⟨_, _, rfl⟩

/-- Its restore uses the place of the ended workgroup's slot again, so slot 16 of the restored one holds nothing. -/
theorem overhanging_restored : ∃ t, exec (.workgroupRestore 1 0) overhanging = .next t ∧ (t.slot 32).stack = [] := ⟨_, rfl, by decide +kernel⟩

/-- Refutes O45: the last clause, that a restored workgroup's slots keep their registers, puts no bound on the descriptor's SLOTS. With 17 of them, which no descriptor
that R44 accepts has, the last slot goes by a key of the next workgroup's, whose ended slot's place is used again (R27, R138). -/
theorem not_slicesAndSaving : ¬ Obligations.SlicesAndSaving := by
  intro h
  unfold Obligations.SlicesAndSaving at h
  obtain ⟨-, -, -, hrestore⟩ := h
  obtain ⟨slots, banks, hfits⟩ := overhanging_fits
  obtain ⟨t, ht, hlost⟩ := overhanging_restored
  have hmay : overhanging.mayRun 0 0 false = true := by decide +kernel
  obtain ⟨u, hu, -, -, -, -, hkept⟩ := (hrestore overhanging 1 0).2 slots banks rfl hmay hfits (List.forall_mem_nil _) (List.forall_mem_nil _)
  obtain rfl : u = t := by simpa [hu] using ht
  obtain ⟨hstack, -⟩ := hkept 16 (by decide)
  rw [hlost] at hstack
  exact absurd hstack (by decide)

end Sys2Proof.Machine
end

section
/-! SUPPORT. The proofs of the scope: energy metering, clock steps and energy windows (R142, R452 to R454). -/

namespace Sys2Proof.Machine

/-! What is charged to workgroups and virtual devices (R453). -/

/-- The sum of what a list's members that `p` picks count. -/
def sumWhere {β : Type} (p : β → Prop) [DecidablePred p] (n : β → Nat) (l : List β) : Nat := ((l.filter (fun e => p e)).map n).sum

theorem sumWhere_nil {β : Type} (p : β → Prop) [DecidablePred p] (n : β → Nat) : sumWhere p n [] = 0 := rfl

theorem sumWhere_cons {β : Type} (p : β → Prop) [DecidablePred p] (n : β → Nat) (e : β) (l : List β) :
    sumWhere p n (e :: l) = (if p e then n e else 0) + sumWhere p n l := by
  unfold sumWhere
  by_cases h : p e <;> simp [h]

/-- Workgroups have been charged energy, and nothing else of them and of the package has changed but virtual devices. -/
structure Charged (s t : State) : Prop where
  rest : { t with wgs := s.wgs, vds := s.vds } = s
  wgs  : ∀ w, { t.wg w with measured := (s.wg w).measured } = s.wg w

theorem Charged.refl (s : State) : Charged s s := ⟨rfl, fun _ => rfl⟩

theorem Charged.trans {s t u : State} (h : Charged s t) (g : Charged t u) : Charged s u := by
  refine ⟨?_, fun w => ?_⟩
  · have hrest := h.rest
    rw [← g.rest] at hrest
    exact hrest
  · have hwg := h.wgs w
    rw [← g.wgs w] at hwg
    exact hwg

theorem Charged.foldl {β : Type} {g : State → β → State} (hg : ∀ t x, Charged t (g t x)) (l : List β) (s : State) : Charged s (l.foldl g s) :=
  foldl_inv (fun t => Charged s t) g (fun t x h => h.trans (hg t x)) l s (Charged.refl s)

theorem Charged.vdOf {s t : State} (h : Charged s t) (w : Nat) : (t.wg w).vd = (s.wg w).vd := (congrArg Wg.vd (h.wgs w) :)

section
variable (s : State) (w vd nj : Nat)

theorem State.chargeWg_charged : Charged s (s.chargeWg w nj) := by
  have hmod : Charged s (s.modWg w (fun x => { x with measured := x.measured + nj })) := by
    refine ⟨rfl, fun j => ?_⟩
    by_cases hj : j = w
    · rw [hj, State.wg_modWg_self]
    · rw [State.wg_modWg_ne _ _ _ _ hj]
  unfold State.chargeWg
  dsimp only
  split
  · exact hmod
  · exact ⟨hmod.rest, hmod.wgs⟩

theorem State.chargeVd_charged : Charged s (s.chargeVd vd nj) := ⟨rfl, fun _ => rfl⟩

theorem State.chargeWg_measured (j : Nat) : ((s.chargeWg w nj).wg j).measured = (s.wg j).measured + if w = j then nj else 0 := by
  have hmod : ((s.modWg w (fun x => { x with measured := x.measured + nj })).wg j).measured = (s.wg j).measured + if w = j then nj else 0 := by
    by_cases hj : j = w
    · rw [hj, State.wg_modWg_self, if_pos rfl]
    · rw [State.wg_modWg_ne _ _ _ _ hj, if_neg (Ne.symm hj), Nat.add_zero]
  unfold State.chargeWg
  dsimp only
  split <;> exact hmod

/-- What a workgroup is charged counts in its queue's window, not in ENERGY_CTX. -/
theorem State.chargeWg_energyCtx (j : Nat) : ((s.chargeWg w nj).vd j).energyCtx = (s.vd j).energyCtx := by
  unfold State.chargeWg
  dsimp only
  split
  · rfl
  · by_cases hj : j = (s.wg w).vd
    · rw [hj, State.vd_modVd_self]
      rfl
    · rw [State.vd_modVd_ne _ _ _ _ hj]
      rfl

theorem State.chargeVd_energyCtx (j : Nat) : ((s.chargeVd vd nj).vd j).energyCtx = (s.vd j).energyCtx + BitVec.ofNat 64 (if vd = j then nj else 0) := by
  unfold State.chargeVd
  by_cases hj : j = vd
  · rw [hj, State.vd_modVd_self, if_pos rfl]
  · rw [State.vd_modVd_ne _ _ _ _ hj, if_neg (Ne.symm hj)]
    exact (BitVec.add_zero _).symm

end

/-- The slots of a cluster island's interval are charged one after another. -/
def State.chargeSlots (s : State) (c : Nat → Nat) (l : List (Nat × Nat)) : State := l.foldl (fun s e => (s.chargeWg e.1 (c e.2)).chargeVd (s.wg e.1).vd (c e.2)) s

theorem State.chargeSlots_charged (s : State) (c : Nat → Nat) (l : List (Nat × Nat)) : Charged s (s.chargeSlots c l) :=
  Charged.foldl (fun t e => (t.chargeWg_charged e.1 _).trans ((t.chargeWg e.1 _).chargeVd_charged _ _)) l s

theorem State.chargeSlots_measured (s : State) (c : Nat → Nat) (l : List (Nat × Nat)) (w : Nat) :
    ((s.chargeSlots c l).wg w).measured = (s.wg w).measured + sumWhere (fun e => e.1 = w) (fun e => c e.2) l := by
  induction l generalizing s with
  | nil => rfl
  | cons e l ih =>
    have hstep : (((s.chargeWg e.1 (c e.2)).chargeVd (s.wg e.1).vd (c e.2)).wg w).measured = (s.wg w).measured + if e.1 = w then c e.2 else 0 :=
      s.chargeWg_measured e.1 (c e.2) w
    rw [sumWhere_cons, ← Nat.add_assoc, ← hstep]
    exact ih _

theorem State.chargeSlots_energyCtx (s : State) (c : Nat → Nat) (l : List (Nat × Nat)) (v : Nat) :
    ((s.chargeSlots c l).vd v).energyCtx = (s.vd v).energyCtx + BitVec.ofNat 64 (sumWhere (fun e => (s.wg e.1).vd = v) (fun e => c e.2) l) := by
  induction l generalizing s with
  | nil => exact (BitVec.add_zero _).symm
  | cons e l ih =>
    have hstep : (((s.chargeWg e.1 (c e.2)).chargeVd (s.wg e.1).vd (c e.2)).vd v).energyCtx =
        (s.vd v).energyCtx + BitVec.ofNat 64 (if (s.wg e.1).vd = v then c e.2 else 0) := by
      rw [State.chargeVd_energyCtx, State.chargeWg_energyCtx]
    have hsame : Charged s ((s.chargeWg e.1 (c e.2)).chargeVd (s.wg e.1).vd (c e.2)) := s.chargeSlots_charged c [e]
    have hlater := ih ((s.chargeWg e.1 (c e.2)).chargeVd (s.wg e.1).vd (c e.2))
    simp only [hsame.vdOf] at hlater
    rw [sumWhere_cons, BitVec.ofNat_add, ← BitVec.add_assoc, ← hstep]
    exact hlater

/-- The context of another island's interval are charged what they moved. -/
def State.chargeMoved (s : State) (c : Nat → Nat) (l : List (Nat × Nat)) : State := l.foldl (fun s e => s.chargeVd e.1 (c e.2)) s

theorem State.chargeMoved_wgs (s : State) (c : Nat → Nat) (l : List (Nat × Nat)) : (s.chargeMoved c l).wgs = s.wgs :=
  foldl_inv (fun t : State => t.wgs = s.wgs) (fun t (e : Nat × Nat) => t.chargeVd e.1 (c e.2)) (fun _ _ h => h) l s rfl

theorem State.chargeMoved_energyCtx (s : State) (c : Nat → Nat) (l : List (Nat × Nat)) (v : Nat) :
    ((s.chargeMoved c l).vd v).energyCtx = (s.vd v).energyCtx + BitVec.ofNat 64 (sumWhere (fun e => e.1 = v) (fun e => c e.2) l) := by
  induction l generalizing s with
  | nil => exact (BitVec.add_zero _).symm
  | cons e l ih =>
    rw [sumWhere_cons, BitVec.ofNat_add, ← BitVec.add_assoc, ← State.chargeVd_energyCtx]
    exact ih _

/-! An island's interval (R452, R453). -/

/-- On an OLZ3-A every cluster position has its cluster. -/
theorem State.islandOff_iff (s : State) (i : Nat) : s.islandOff i = true ↔ fusedOff s i := by
  have hA : s.isA = true ↔ field s.feature 0 4 = 1 := by
    unfold State.isA field
    rw [decide_eq_true_iff, ← BitVec.toNat_inj]
    simp
  unfold State.islandOff fusedOff State.lcluster
  simp only [Bool.and_eq_true, decide_eq_true_eq, ne_eq, ← hA, Bool.or_eq_true]
  by_cases h60 : i < 60
  · by_cases h12 : i % 20 < 12
    · rw [if_neg (by omega)]
      cases s.isA
      · simp [h60, h12]
      · simp only [if_true, not_true_eq_false, false_and, and_false, iff_false]
        omega
    · simp [h12]
  · simp [h60]

/-- The island's meter has counted. -/
def State.metered (s : State) (r : IslandReading) : State :=
  if s.islandOff r.island then s else { s with islandNj := tput s.islandNj r.island (tget 0 s.islandNj r.island + r.nj) }

theorem shareOf_eq (nj part total : Nat) : shareOf nj part total = nj * part / total := by
  unfold shareOf
  split
  next h => rw [h, Nat.div_zero]
  · rfl

section
variable (s : State) (held : List (Nat × Nat)) (r : IslandReading)

theorem State.metered_rest : { s.metered r with islandNj := s.islandNj } = s := by
  unfold State.metered
  split <;> rfl

theorem State.metered_off (i : Nat) (hoff : fusedOff s i) : tget 0 (s.metered r).islandNj i = tget 0 s.islandNj i := by
  unfold State.metered
  split
  · rfl
  next hr => exact tget_tput_ne _ _ _ _ _ (fun h => hr ((s.islandOff_iff _).2 (h ▸ hoff)))

theorem State.metered_on (i : Nat) (hon : ¬ fusedOff s i) : tget 0 (s.metered r).islandNj i = tget 0 s.islandNj i + if r.island = i then r.nj else 0 := by
  unfold State.metered
  by_cases hi : r.island = i
  · subst hi
    rw [if_neg (mt (s.islandOff_iff _).1 hon), if_pos rfl]
    exact tget_tput_self _ _ _ _
  · rw [if_neg hi, Nat.add_zero]
    split
    · rfl
    · exact tget_tput_ne _ _ _ _ _ (Ne.symm hi)

/-- One interval counts for its island, and charges workgroups and virtual devices. -/
theorem State.meterIsland_charged : Charged (s.metered r) (s.meterIsland held r) := by
  unfold State.metered State.meterIsland
  split
  · exact Charged.refl s
  · dsimp only
    generalize { s with islandNj := tput s.islandNj r.island (tget 0 s.islandNj r.island + r.nj) } = u
    split
    · exact Charged.refl u
    · split
      · exact u.chargeSlots_charged (fun n => shareOf r.nj n (sumSnd r.slots)) r.slots
      · exact Charged.foldl (fun t e => (t.chargeVd_charged _ _).trans (Charged.foldl (fun t h => t.chargeWg_charged _ _) _ _)) _ u

section
variable (hon : ¬ fusedOff s r.island)
include hon

theorem State.meterIsland_cluster (h60 : r.island < 60) (h12 : r.island % 20 < 12) :
    s.meterIsland held r = (s.metered r).chargeSlots (fun n => shareOf r.nj n (sumSnd r.slots)) r.slots := by
  unfold State.meterIsland State.metered
  rw [if_neg (mt (s.islandOff_iff _).1 hon), if_neg (mt (s.islandOff_iff _).1 hon), if_neg (Nat.not_le.2 h60), if_pos h12]
  rfl

/-- Without slot-cycles of clusters in the interval no workgroup is charged for another island. -/
theorem State.meterIsland_moved (h60 : r.island < 60) (h12 : 12 ≤ r.island % 20) :
    s.meterIsland [] r = (s.metered r).chargeMoved (fun n => shareOf r.nj n (sumSnd r.moved)) r.moved := by
  unfold State.meterIsland State.metered
  rw [if_neg (mt (s.islandOff_iff _).1 hon), if_neg (mt (s.islandOff_iff _).1 hon), if_neg (Nat.not_le.2 h60), if_neg (Nat.not_lt.2 h12)]
  rfl

theorem State.meterIsland_none (h60 : 60 ≤ r.island) : s.meterIsland held r = s.metered r := by
  unfold State.meterIsland State.metered
  rw [if_neg (mt (s.islandOff_iff _).1 hon), if_neg (mt (s.islandOff_iff _).1 hon), if_pos h60]

end

end

/-- Meters, workgroups and virtual devices alone have changed. -/
def Metering (s t : State) : Prop := { t with wgs := s.wgs, vds := s.vds, islandNj := s.islandNj } = s

theorem State.meterIsland_metering (s : State) (held : List (Nat × Nat)) (r : IslandReading) : Metering s (s.meterIsland held r) := by
  have hmeter := s.metered_rest r
  have hwgs : (s.metered r).wgs = s.wgs := (congrArg State.wgs hmeter :)
  have hvds : (s.metered r).vds = s.vds := (congrArg State.vds hmeter :)
  have hrest := (congrArg (fun u : State => { u with islandNj := s.islandNj }) (s.meterIsland_charged held r).rest :)
  rw [hmeter, hwgs, hvds] at hrest
  exact hrest

theorem Metering.fusedOff_iff {s t : State} (h : Metering s t) (i : Nat) : fusedOff t i ↔ fusedOff s i := by
  unfold Metering at h
  rw [← h]
  rfl

section
variable (held : List (Nat × Nat)) (rs : List IslandReading)

theorem State.meterAll_metering (s : State) : Metering s (rs.foldl (fun s r => s.meterIsland held r) s) := by
  refine foldl_inv (fun t : State => Metering s t) _ (fun t r h => ?_) rs s rfl
  have hstep := t.meterIsland_metering held r
  unfold Metering at h hstep ⊢
  rw [← hstep] at h
  exact h

theorem State.meterIsland_nj (s : State) (r : IslandReading) : (s.meterIsland held r).islandNj = (s.metered r).islandNj :=
  (congrArg State.islandNj (s.meterIsland_charged held r).rest :)

theorem State.meterAll_off (s : State) (i : Nat) (hoff : fusedOff s i) :
    tget 0 (rs.foldl (fun s r => s.meterIsland held r) s).islandNj i = tget 0 s.islandNj i := by
  induction rs generalizing s with
  | nil => rfl
  | cons r rs ih =>
    rw [List.foldl_cons, ih _ (((s.meterIsland_metering held r).fusedOff_iff i).2 hoff), State.meterIsland_nj, s.metered_off r i hoff]

theorem State.meterAll_on (s : State) (i : Nat) (hon : ¬ fusedOff s i) : tget 0 (rs.foldl (fun s r => s.meterIsland held r) s).islandNj i =
    tget 0 s.islandNj i + sumWhere (fun r => r.island = i) (fun r => r.nj) rs := by
  induction rs generalizing s with
  | nil => rfl
  | cons r rs ih =>
    rw [List.foldl_cons, ih _ (mt ((s.meterIsland_metering held r).fusedOff_iff i).1 hon), State.meterIsland_nj, s.metered_on r i hon, sumWhere_cons, Nat.add_assoc]

end

theorem energyMetered : meterRule := by
  refine ⟨fun s rs => ⟨_, rfl, State.meterAll_metering _ rs s, fun i => ⟨State.meterAll_off _ rs s i, State.meterAll_on _ rs s i⟩⟩, ?_⟩
  intro s r t hon ht share
  have hshare (l : List (Nat × Nat)) (n : Nat) : shareOf r.nj n (sumSnd l) = share l n := shareOf_eq _ _ _
  have hrest := s.metered_rest r
  have hwgs : (s.metered r).wgs = s.wgs := (congrArg State.wgs hrest :)
  have hvds : (s.metered r).vds = s.vds := (congrArg State.vds hrest :)
  have hwg (w : Nat) : (s.metered r).wg w = s.wg w := congrArg (tget Wg.empty · w) hwgs
  have hvd (v : Nat) : (s.metered r).vd v = s.vd v := congrArg (tget Vd.empty · v) hvds
  have hexec : t = s.meterIsland (if r.island < 60 && r.island % 20 < 12 then r.slots else []) r := by
    simpa [exec, execEnergyMeterInterval] using ht.symm
  subst hexec
  refine ⟨fun h60 h12 => ?_, fun h60 h12 => ?_, fun h60 => ?_⟩
  · rw [s.meterIsland_cluster _ r hon h60 h12]
    refine ⟨fun w => ?_, fun v => ?_⟩
    · rw [State.chargeSlots_measured, hwg]
      simp only [hshare]
      rfl
    · rw [State.chargeSlots_energyCtx, hvd]
      simp only [hshare, hwg]
      rfl
  · rw [if_neg (by simp [h60, h12]), s.meterIsland_moved r hon h60 h12]
    refine ⟨(State.chargeMoved_wgs _ _ _).trans hwgs, fun v => ?_⟩
    rw [State.chargeMoved_energyCtx, hvd]
    simp only [hshare]
    rfl
  · rw [s.meterIsland_none _ r hon h60]
    exact ⟨hwgs, hvds⟩

/-! Clock steps (R454). -/

/-- A table whose listed keys each take one step reads as the step at a key of the list, and as before elsewhere. -/
theorem tget_foldl_step (d : Nat → Nat) (g : Nat → Nat) (l : List Nat) (hl : l.Nodup) (t : Tab Nat) (step : Tab Nat → Nat → Tab Nat)
    (hself : ∀ t i, tget (d i) (step t i) i = g (tget (d i) t i)) (hne : ∀ t i j, j ≠ i → tget (d j) (step t i) j = tget (d j) t j) (i : Nat) :
    tget (d i) (l.foldl step t) i = if i ∈ l then g (tget (d i) t i) else tget (d i) t i := by
  induction l generalizing t with
  | nil => rfl
  | cons a l ih =>
    obtain ⟨ha, hl⟩ := List.nodup_cons.1 hl
    rw [List.foldl_cons, ih hl]
    by_cases hi : i = a
    · subst hi
      rw [if_neg ha, if_pos List.mem_cons_self, hself]
    · simp only [List.mem_cons, hi, false_or, hne t a i hi]

theorem mem_computeIslands (i : Nat) : i ∈ computeIslands ↔ i < 60 ∧ i % 20 < 12 := by simp [computeIslands]

theorem computeIslands_nodup : computeIslands.Nodup := List.nodup_range.filter _

section
variable (s : State) (mw : Nat) (draw : List Nat)

/-- The clocks of the drawn compute islands, a step down. -/
def State.slowed : Tab Nat :=
  (draw.filter (fun i => computeIslands.contains i)).foldl (fun t i => tput t i (max 400 (tget (islandMhzReset i) t i - 50))) s.islandMhz

/-- The clocks of all compute islands, a step up. It is irreducible lest the list of islands be computed. -/
@[irreducible] def State.quickened : Tab Nat :=
  computeIslands.foldl (fun t i => if tget (islandMhzReset i) t i < 800 then tput t i (min 800 (tget (islandMhzReset i) t i + 50)) else t) s.islandMhz

theorem State.slowed_get (hdraw : draw.Nodup) (i : Nat) : tget (islandMhzReset i) (s.slowed draw) i =
    if i ∈ draw ∧ i < 60 ∧ i % 20 < 12 then max 400 (tget (islandMhzReset i) s.islandMhz i - 50) else tget (islandMhzReset i) s.islandMhz i := by
  unfold State.slowed
  rw [tget_foldl_step islandMhzReset (fun n => max 400 (n - 50)) _ (hdraw.filter _) _ _ (fun t i => tget_tput_self _ _ _ _)
    (fun t i j hj => tget_tput_ne _ _ _ _ _ hj)]
  simp [mem_computeIslands]

theorem State.quickened_get (i : Nat) : tget (islandMhzReset i) s.quickened i =
    if (i < 60 ∧ i % 20 < 12) ∧ tget (islandMhzReset i) s.islandMhz i < 800 then min 800 (tget (islandMhzReset i) s.islandMhz i + 50)
    else tget (islandMhzReset i) s.islandMhz i := by
  unfold State.quickened
  rw [tget_foldl_step islandMhzReset (fun n => if n < 800 then min 800 (n + 50) else n) _ computeIslands_nodup]
  · simp only [mem_computeIslands, ite_and]
  · intro t i
    split
    · exact tget_tput_self _ _ _ _
    · rfl
  · intro t i j hj
    split
    · exact tget_tput_ne _ _ _ _ _ hj
    · rfl

theorem exec_powerClockStep : exec (.powerClockStep mw draw) s = .next (if 3600000 < mw then { s with islandMhz := s.slowed draw }
    else if mw < 3420000 then { s with islandMhz := s.quickened } else s) := by
  show execPowerClockStep mw draw s = _
  unfold execPowerClockStep State.quickened
  dsimp only
  split
  · rfl
  · split <;> rfl

end

theorem clocksStep : clockRule := by
  intro s mw draw hdraw mhz compute
  have hexec := exec_powerClockStep s mw draw
  by_cases hhigh : 3600000 < mw
  · rw [if_pos hhigh] at hexec
    refine ⟨_, hexec, rfl, fun i => ⟨fun _ => ⟨fun h => ?_, fun h => ?_⟩, fun h => by omega, fun _ h => by omega⟩⟩
    · exact (s.slowed_get draw hdraw i).trans (if_pos h)
    · exact (s.slowed_get draw hdraw i).trans (if_neg h)
  · rw [if_neg hhigh] at hexec
    by_cases hlow : mw < 3420000
    · rw [if_pos hlow] at hexec
      refine ⟨_, hexec, rfl, fun i => ⟨fun h => absurd h hhigh, fun _ => ⟨fun h => ?_, fun h => ?_⟩, fun h => by omega⟩⟩
      · exact (s.quickened_get i).trans (if_pos h)
      · exact (s.quickened_get i).trans (if_neg h)
    · rw [if_neg hlow] at hexec
      exact ⟨_, hexec, rfl, fun i => ⟨fun h => absurd h hhigh, fun h => absurd h hlow, fun _ _ => rfl⟩⟩

/-! Energy windows (R142). -/

/-- A virtual device in hardware mode opens its next window: what its queues owe beyond their budgets, and their debts, are owed in it. -/
def Vd.nextWindow (v : Vd) (budget : Nat → Nat) : Vd :=
  { v with energy := v.energy.map (fun e => (e.1, { QEnergy.empty with owed := (e.2.owed - budget e.1) + e.2.debt })), window := v.window + 1 }

theorem State.openWindow_hardware (s : State) (vd : Nat) (h : (s.vd vd).hostEnergy = false) :
    s.openWindow vd = s.modVd vd (fun v => v.nextWindow (s.queueBudget vd)) := by
  unfold State.openWindow
  dsimp only
  rw [if_neg (by simp [h])]
  rfl

theorem Vd.nextWindow_queue (v : Vd) (budget : Nat → Nat) (q : Nat) : tget QEnergy.empty (v.nextWindow budget).energy q =
    { QEnergy.empty with owed := ((tget QEnergy.empty v.energy q).owed - budget q) + (tget QEnergy.empty v.energy q).debt } :=
  tget_mapValues QEnergy.empty QEnergy.empty v.energy (fun q e => { QEnergy.empty with owed := (e.owed - budget q) + e.debt }) q
    (by simp [QEnergy.empty])

/-- Windows have opened in hardware mode. -/
structure WindowsOpened (s t : State) : Prop where
  rest : { t with vds := s.vds } = s
  mode : ∀ v, (t.vd v).hostEnergy = false

theorem WindowsOpened.next {s t : State} (h : WindowsOpened s t) (vd : Nat) : WindowsOpened s (t.openWindow vd) := by
  rw [t.openWindow_hardware vd (h.mode vd)]
  refine ⟨h.rest, fun v => ?_⟩
  by_cases hv : v = vd
  · rw [hv, State.vd_modVd_self]
    exact h.mode vd
  · rw [State.vd_modVd_ne _ _ _ _ hv]
    exact h.mode v

/-- All windows of a list of virtual devices open. -/
def State.openAll (s : State) (l : List Nat) : State := l.foldl (fun t v => t.openWindow v) s

section
variable {s : State} (hmode : ∀ v, (s.vd v).hostEnergy = false) (v : Nat)
include hmode

theorem State.openAll_opened (l : List Nat) : WindowsOpened s (s.openAll l) :=
  foldl_inv (fun t => WindowsOpened s t) _ (fun _ vd h => h.next vd) l s ⟨rfl, hmode⟩

/-- A virtual device of the list has opened a window. -/
theorem State.openAll_mem {l : List Nat} (hv : v ∈ l) : ∃ x b, (s.openAll l).vd v = Vd.nextWindow x b := by
  have hinv : WindowsOpened s (s.openAll l) ∧ ∃ x b, (s.openAll l).vd v = Vd.nextWindow x b := by
    induction l using List.reverseRecOn with
    | nil => cases hv
    | append_singleton l a ih =>
      have hopened := State.openAll_opened hmode l
      have hlast : s.openAll (l ++ [a]) = (s.openAll l).openWindow a := List.foldl_concat ..
      rw [hlast]
      refine ⟨hopened.next a, ?_⟩
      rw [(s.openAll l).openWindow_hardware a (hopened.mode a)]
      by_cases ha : v = a
      · subst ha
        exact ⟨_, _, State.vd_modVd_self _ _ _⟩
      · rw [State.vd_modVd_ne _ _ _ _ ha]
        exact (ih ((List.mem_append.1 hv).resolve_right (by simpa using ha))).2
  exact hinv.2

/-- One that does not stand in the list has opened none. -/
theorem State.openAll_not_mem {l : List Nat} (hv : v ∉ l) : (s.openAll l).vd v = s.vd v := by
  have hkeep (t : State) (a : Nat) (ha : a ∈ l) (h : WindowsOpened s t ∧ t.vd v = s.vd v) : WindowsOpened s (t.openWindow a) ∧ (t.openWindow a).vd v = s.vd v := by
    obtain ⟨hopened, hsame⟩ := h
    refine ⟨hopened.next a, ?_⟩
    rw [t.openWindow_hardware a (hopened.mode a), State.vd_modVd_ne _ _ _ _ (ne_of_mem_of_not_mem ha hv).symm, hsame]
  exact (List.foldlRecOn (motive := fun t => WindowsOpened s t ∧ t.vd v = s.vd v) l _ ⟨⟨rfl, hmode⟩, rfl⟩ (fun t h a ha => hkeep t a ha h)).2

/-- One that stands in the list once has opened one window. -/
theorem State.openAll_once {l : List Nat} (hv : l.count v = 1) : (s.openAll l).vd v = (s.vd v).nextWindow (s.queueBudget v) := by
  induction l generalizing s with
  | nil => cases hv
  | cons a l ih =>
    have hnext : WindowsOpened s (s.openWindow a) := WindowsOpened.next ⟨rfl, hmode⟩ a
    show ((s.openWindow a).openAll l).vd v = _
    by_cases ha : a = v
    · subst ha
      rw [State.openAll_not_mem hnext.mode a (List.count_eq_zero.1 (by simpa using hv)), s.openWindow_hardware a (hmode a), State.vd_modVd_self]
    · rw [ih hnext.mode (by rwa [List.count_cons_of_ne ha] at hv), s.openWindow_hardware a (hmode a), State.vd_modVd_ne _ _ _ _ (Ne.symm ha)]
      rfl

end

/-- A listed key's value stands in the table. -/
theorem tget_mem {α : Type} (d : α) (t : Tab α) {k : Nat} (h : k ∈ t.map (·.1)) : (k, tget d t k) ∈ t := by
  induction t with
  | nil => cases h
  | cons e t ih =>
    obtain ⟨a, x⟩ := e
    by_cases ha : a = k
    · subst ha
      simp [tget, tfind]
    · have hk := (List.mem_cons.1 h).resolve_left (Ne.symm ha)
      have htail : tget d ((a, x) :: t) k = tget d t k := by simp [tget, tfind, ha]
      rw [htail]
      exact List.mem_cons_of_mem _ (ih hk)

/-- What holds of every value of a table, and of the value of an unlisted key, holds of what any key reads as. -/
theorem tget_all {α : Type} (d : α) (t : Tab α) (P : α → Prop) (hd : P d) (h : ∀ e ∈ t, P e.2) (k : Nat) : P (tget d t k) := by
  unfold tget
  cases hk : tfind t k with
  | none => exact hd
  | some x => exact h _ (tfind_mem _ _ _ hk)

/-- The virtual devices that are enabled. -/
def State.enabledVds (s : State) : List Nat := (s.vds.filter (fun e => e.2.enabled)).map (·.1)

section
variable (s : State) {v : Nat} (hv : v ∈ s.vds.map (·.1)) (hon : (s.vd v).enabled = true)
include hv hon

theorem State.mem_enabledVds : v ∈ s.enabledVds :=
  List.mem_map.2 ⟨(v, s.vd v), List.mem_filter.2 ⟨tget_mem _ _ hv, hon⟩, rfl⟩

theorem State.enabledVds_count (hone : (s.vds.filter (fun e => e.1 = v)).length = 1) : s.enabledVds.count v = 1 := by
  have hsome : 0 < s.enabledVds.count v := List.count_pos_iff.2 (s.mem_enabledVds hv hon)
  have hmost : s.enabledVds.count v ≤ (s.vds.filter (fun e => e.1 = v)).length := by
    unfold State.enabledVds List.count
    rw [List.countP_map, List.countP_eq_length_filter, List.filter_filter, ← List.countP_eq_length_filter, ← List.countP_eq_length_filter]
    exact List.countP_mono_left (fun e _ h => by simpa using (Bool.and_eq_true_iff.1 h).1)
  omega

end

theorem windowsOpen : windowRule := by
  intro s
  refine ⟨fun hclosed => if_pos (by simpa [State.windowOver] using hclosed), fun hover hmode => ?_⟩
  have hexec : exec .energyWindowOpen s = .next (State.openAll { s with budgetLeft := s.deviceBudget, windowFrom := s.clock / 1000000 * 1000000 } s.enabledVds) :=
    if_neg (by simpa [State.windowOver] using hover)
  have hvds : ({ s with budgetLeft := s.deviceBudget, windowFrom := s.clock / 1000000 * 1000000 } : State).vds = s.vds := rfl
  have hbudget (v q : Nat) : ({ s with budgetLeft := s.deviceBudget, windowFrom := s.clock / 1000000 * 1000000 } : State).queueBudget v q = s.queueBudget v q := rfl
  have hrest : { ({ s with budgetLeft := s.deviceBudget, windowFrom := s.clock / 1000000 * 1000000 } : State) with
    budgetLeft := s.budgetLeft, windowFrom := s.windowFrom } = s := rfl
  have hleft : ({ s with budgetLeft := s.deviceBudget, windowFrom := s.clock / 1000000 * 1000000 } : State).budgetLeft = s.deviceBudget := rfl
  have hfrom : ({ s with budgetLeft := s.deviceBudget, windowFrom := s.clock / 1000000 * 1000000 } : State).windowFrom = s.clock / 1000000 * 1000000 := rfl
  generalize ({ s with budgetLeft := s.deviceBudget, windowFrom := s.clock / 1000000 * 1000000 } : State) = u at *
  have hvd (v : Nat) : u.vd v = s.vd v := congrArg (tget Vd.empty · v) hvds
  have hhard (v : Nat) : (u.vd v).hostEnergy = false := by
    rw [hvd]
    exact tget_all Vd.empty s.vds (fun x => x.hostEnergy = false) (by decide) hmode v
  have hopened := State.openAll_opened hhard s.enabledVds
  refine ⟨_, hexec, ?_, (congrArg State.budgetLeft hopened.rest :).trans hleft, (congrArg State.windowFrom hopened.rest :).trans hfrom, ?_⟩
  · rw [← hvds]
    exact (congrArg (fun t : State => { t with budgetLeft := s.budgetLeft, windowFrom := s.windowFrom }) hopened.rest :).trans hrest
  · intro v q hv hon _ e e'
    have hqueue (x : Vd) (b : Nat → Nat) (h : (u.openAll s.enabledVds).vd v = x.nextWindow b) : e' =
        { QEnergy.empty with owed := ((tget QEnergy.empty x.energy q).owed - b q) + (tget QEnergy.empty x.energy q).debt } := by
      unfold e'
      rw [h]
      exact x.nextWindow_queue b q
    obtain ⟨x, b, hx⟩ := State.openAll_mem hhard v (s.mem_enabledVds hv hon)
    refine ⟨by rw [hqueue x b hx]; rfl, by rw [hqueue x b hx]; rfl, by rw [hqueue x b hx]; rfl, fun hone => ?_⟩
    have honce := State.openAll_once hhard v (s.enabledVds_count hv hon hone)
    rw [hvd] at honce
    rw [hqueue _ _ honce, honce]
    exact ⟨by rw [hbudget], rfl⟩

/-- Settles O47: an interval's charges are sums over its lists (`State.chargeSlots_measured`, `State.chargeMoved_energyCtx`), a clock step changes each island once
(`tget_foldl_step`), and a window opens for each enabled virtual device (`State.openAll_once`). -/
theorem energy : Obligations.Energy := ⟨energyMetered, clocksStep, windowsOpen⟩

end Sys2Proof.Machine
end

section
/-! SUPPORT. The proofs of the scope: placements, slices, saves, restores and host spill moves that take place (R124, R136, R139, R166, R432 to R434). -/

namespace Sys2Proof.Machine

/-! Slices and pre-emption (R136, R432). -/

/-- A core whose slice has run its length has a current slice. -/
theorem State.sliceOver_sliceVd {s : State} {core : Nat} (h : s.sliceOver core = true) : ∃ v, s.sliceVd core = some v := by
  unfold State.sliceOver at h
  cases hv : s.sliceVd core with
  | none => simp [hv] at h
  | some v => exact ⟨v, rfl⟩

/-- At the end of a slice the next one begins at once. -/
theorem exec_sliceEnd_from {s : State} {core : Nat} (h : s.sliceOver core = true) :
    ∃ t, exec (.sliceEnd core) s = .next t ∧ (t.core core).sliceFrom = s.clock := by
  obtain ⟨v, hv⟩ := State.sliceOver_sliceVd h
  show ∃ t, execSliceEnd core s = .next t ∧ _
  unfold execSliceEnd
  rw [hv]
  dsimp only
  rw [h, if_neg (by decide)]
  generalize (if (decide ((s.core core).slice = v) && (s.core core).sliceLeft != 0) = true then (s.core core).sliceLeft else (s.vd v).cfg.weight) = left
  split
  · refine ⟨_, rfl, ?_⟩
    rw [State.core_setCore_self]
  · refine ⟨_, rfl, foldl_inv (fun t : State => (t.core core).sliceFrom = s.clock) _ (fun t e ht => ?_) _ _ ?_⟩
    · split <;> exact ht
    · rw [State.core_setCore_self]

/-- What PREEMPT_TIMEOUT does to one workgroup. -/
def State.cutWg (s : State) (w : Nat) : State :=
  s.modWg w (fun x => { x with life := if x.life = .stopping false then .stopping true else x.life })

theorem State.cutWg_life_self (s : State) (w : Nat) :
    ((s.cutWg w).wg w).life = if (s.wg w).life = .stopping false then .stopping true else (s.wg w).life :=
  congrArg Wg.life (State.wg_modWg_self _ _ _)

theorem State.cutWg_stopped (s : State) (w : Nat) {b : Bool} (h : (s.wg w).life = .stopping b) : ((s.cutWg w).wg w).life = .stopping true := by
  rw [State.cutWg_life_self, h]
  cases b <;> rfl

theorem State.cutWg_wg_ne (s : State) {w j : Nat} (h : j ≠ w) : (s.cutWg w).wg j = s.wg j := State.wg_modWg_ne _ _ _ _ h

/-- A workgroup of the list that was stopping has stopped between words. -/
theorem State.cutAll_stopped (l : List (Nat × Wg)) {w : Nat} (hmem : ∃ e ∈ l, e.1 = w) (s : State) {b : Bool} (h : (s.wg w).life = .stopping b) :
    ((l.foldl (fun s e => s.cutWg e.1) s).wg w).life = .stopping true := by
  induction l generalizing s b with
  | nil => simp at hmem
  | cons x l ih =>
    have hkeep (t : State) (e : Nat × Wg) (ht : (t.wg w).life = .stopping true) : ((t.cutWg e.1).wg w).life = .stopping true := by
      by_cases he : w = e.1
      · subst he
        exact t.cutWg_stopped _ ht
      · rwa [t.cutWg_wg_ne he]
    by_cases hx : w = x.1
    · exact foldl_inv (fun t : State => (t.wg w).life = .stopping true) _ hkeep l _ (hx ▸ s.cutWg_stopped x.1 (hx ▸ h))
    · refine ih ?_ (s.cutWg x.1) (by rwa [s.cutWg_wg_ne hx])
      obtain ⟨e, he, rfl⟩ := hmem
      exact ⟨e, (List.mem_cons.1 he).resolve_left (fun h => hx (h ▸ rfl)), rfl⟩

/-- A workgroup that is stopping stands on its core's list. -/
theorem State.stopping_wgsOn (s : State) {core w : Nat} {b : Bool} (hcore : (s.wg w).core = core) (hlife : (s.wg w).life = .stopping b) :
    (w, s.wg w) ∈ s.wgsOn core := by
  have hlisted : tfind s.wgs w = some (s.wg w) := s.wg_listed (by rw [hlife]; exact nofun)
  have hon : s.onCore w = true := by unfold State.onCore; rw [hlife]
  exact List.mem_filter.2 ⟨tfind_mem _ _ _ hlisted, by simp [hcore, hon]⟩

theorem exec_preemptTimeout_stopped {s : State} {core : Nat} (h : s.timedOut core = true) :
    ∃ t, exec (.preemptTimeout core) s = .next t ∧ ∀ w, (s.wg w).core = core → (s.wg w).life = .stopping false → (t.wg w).life = .stopping true := by
  have hexec : exec (.preemptTimeout core) s = .next ((s.wgsOn core).foldl (fun s e => s.cutWg e.1) s) := if_neg (by simp [h])
  exact ⟨_, hexec, fun w hcore hlife => State.cutAll_stopped _ ⟨_, s.stopping_wgsOn hcore hlife, rfl⟩ s hlife⟩

/-! Saving and restoring (R433, R434). -/

theorem State.leaveCluster_cacheWork (s : State) (cl vd : Nat) : CacheWork s (s.leaveCluster cl vd) :=
  CacheWork.foldl (fun t k => (CacheWork.refl t).writeBack cl (k % 2 ^ 52)) _ s

theorem CacheWork.wgs {s t : State} (h : CacheWork s t) : t.wgs = s.wgs := (congrArg State.wgs h.rest :)

/-- A workgroup that leaves its core's cluster, and the pass that may start there, change no workgroup. -/
theorem State.leaveCore_wg (s : State) (cl vd core w : Nat) : ((s.leaveCluster cl vd).startPass core).wg w = s.wg w := by
  have hpass : ((s.leaveCluster cl vd).startPass core).wgs = (s.leaveCluster cl vd).wgs :=
    (congrArg State.wgs ((s.leaveCluster cl vd).startPass_core core).1 :)
  exact congrArg (tget Wg.empty · w) (hpass.trans (s.leaveCluster_cacheWork cl vd).wgs)

theorem exec_workgroupSave_saved {s : State} {w : Nat} (h : s.saveable w = true) :
    ∃ t, exec (.workgroupSave w) s = .next t ∧ (t.wg w).life = .saved := by
  show ∃ t, execWorkgroupSave w s = .next t ∧ _
  unfold execWorkgroupSave
  rw [h, if_neg (by decide)]
  refine ⟨_, rfl, ?_⟩
  rw [State.leaveCore_wg, State.wg_setWg_self]

/-- Slots take their places. -/
def State.seatSlots (t : State) (w : Nat) (places : List (Nat × Nat)) (n : Nat) : State :=
  (List.range n).foldl (fun t i => t.seat (16 * w + i) (places.getD i (0, 0)).1 (places.getD i (0, 0)).2) t

theorem State.seatSlots_wgs (t : State) (w : Nat) (places : List (Nat × Nat)) (n : Nat) : (t.seatSlots w places n).wgs = t.wgs := by
  unfold State.seatSlots
  refine foldl_inv (fun u : State => u.wgs = t.wgs) _ (fun _ _ h => ?_) _ _ rfl
  exact h

/-- The fibres of a workgroup count WATCHDOG from now on, less what they had counted. -/
def State.resumeWatch (t : State) (ks : List Nat) (now : Nat) : State :=
  ks.foldl (fun t k => t.modFib k (fun f => { f with wdFrom := now - f.wdFrom })) t

theorem State.resumeWatch_wgs (t : State) (ks : List Nat) (now : Nat) : (t.resumeWatch ks now).wgs = t.wgs := by
  unfold State.resumeWatch
  refine foldl_inv (fun u : State => u.wgs = t.wgs) _ (fun _ _ h => ?_) _ _ rfl
  exact h

/-- A workgroup that is restored runs on its new core with its new banks. -/
theorem exec_workgroupRestore_runs {s : State} {w core : Nat} {slots : List (Nat × Nat)} {banks : Tab Nat} (hsaved : (s.wg w).life = .saved)
    (hfits : s.fits core (s.wg w).kd = some (slots, banks))
    (hmay : (if s.isDispatcher w then (s.vd (s.wg w).vd).cfg.cores.contains core || (s.vd (s.wg w).vd).cfg.reserved.contains core
      else s.mayRun (s.wg w).vd core (s.grid (gkey (s.wg w).vd (s.wg w).grid)).urgent) = true) :
    ∃ t, exec (.workgroupRestore w core) s = .next t ∧ t.wg w = { s.wg w with life := .running, core := core, banks := banks } := by
  show ∃ t, execWorkgroupRestore w core s = .next t ∧ _
  unfold execWorkgroupRestore
  extract_lets x g v may
  have hgo : ¬ ((x.life != .saved || !may) = true) := by
    rw [show x.life = .saved from hsaved, show may = true from hmay]
    decide
  rw [if_neg hgo, hfits]
  dsimp only
  generalize ((s.reuse core slots).dropIc core).arrive core x.vd = u
  refine ⟨_, rfl, ?_⟩
  have hwgs : (((u.setWg w { x with life := .running, core := core, banks := banks }).seatSlots w slots x.kd.slots).resumeWatch (x.fibreKeys w) s.clock).wgs =
      (u.setWg w { x with life := .running, core := core, banks := banks }).wgs := (State.resumeWatch_wgs _ _ _).trans (State.seatSlots_wgs _ _ _ _)
  have hwg := (congrArg (tget Wg.empty · w) hwgs).trans (State.wg_setWg_self u w _)
  split <;> exact hwg

/-! The dispatcher (R124). -/

/-- A dispatcher that starts, or fails to, leaves DISPATCH_DESC. -/
theorem State.startDispatcher_desc (s : State) (vd : Nat) : ((s.startDispatcher vd).vd vd).dispatchDesc = (s.vd vd).dispatchDesc := by
  have hkill (code st : Nat) : ((s.killCause vd code st 0).vd vd).dispatchDesc = (s.vd vd).dispatchDesc := by
    unfold State.killCause
    split
    · unfold State.msix
      rw [State.vd_modVd_self, State.vd_modVd_self]
    · rfl
  unfold State.startDispatcher
  extract_lets v core r
  split
  · rfl
  · split
    next t hadmit =>
      rcases State.admitRec_dispatcher hadmit with ⟨-, g, rfl, -⟩ | ⟨hst, -⟩
      · rfl
      · exact absurd rfl hst
    next st t hst hadmit =>
      rcases State.admitRec_dispatcher hadmit with ⟨rfl, -⟩ | ⟨-, rfl⟩
      · exact absurd rfl hst
      · exact hkill 28 st
    · exact hkill 28 7

theorem exec_dispatchDescWrite_desc (s : State) (vd : Nat) (a : W64) :
    ∃ t, exec (.dispatchDescWrite vd a) s = .next t ∧ (t.vd vd).dispatchDesc = a &&& 0x01FFFFFFFFFFFFFF := by
  refine ⟨_, rfl, ?_⟩
  unfold State.setDispatchDesc
  rw [State.startDispatcher_desc]
  exact (congrArg Vd.dispatchDesc (((s.modVd vd (fun x => { x with dispatchDesc := a &&& 0x01FFFFFFFFFFFFFF })).stopDispatcher_ended vd).vds vd) :).trans
    (congrArg Vd.dispatchDesc (State.vd_modVd_self _ _ _))

/-! A host's spill move (R165, R166). -/

/-- The fibre's resident window is where it was, with the same move pending. -/
def SameWindow (k : Nat) (s t : State) : Prop := (t.fib k).lo = (s.fib k).lo ∧ (t.fib k).move = (s.fib k).move

theorem SameWindow.trans {k : Nat} {s t u : State} (h : SameWindow k s t) (g : SameWindow k t u) : SameWindow k s u :=
  ⟨g.1.trans h.1, g.2.trans h.2⟩

theorem SameWindow.modFib {k : Nat} {s t : State} (h : SameWindow k s t) (g : Fibre → Fibre) (hlo : (g (t.fib k)).lo = (t.fib k).lo)
    (hmove : (g (t.fib k)).move = (t.fib k).move) : SameWindow k s (t.modFib k g) :=
  h.trans ⟨(congrArg Fibre.lo (State.fib_modFib_self t k g)).trans hlo, (congrArg Fibre.move (State.fib_modFib_self t k g)).trans hmove⟩

/-- The end of a window writes registers only. -/
theorem SameWindow.endWindow {k : Nat} {s t : State} (h : SameWindow k s t) (w : EphWin) : SameWindow k s (t.endWindow k w) := by
  have hreg (u : State) (r : RegWrite) (hu : SameWindow k s u) : SameWindow k s (u.regWrite k r) := by
    refine hu.trans ⟨?_, ?_⟩ <;> rw [State.regWrite_fib] <;> cases r <;> rfl
  have hpreg (u : State) (i : Nat) (m v : LaneMask) (hu : SameWindow k s u) : SameWindow k s (u.modFib k (fun f => f.setPreg i m v)) := by
    refine hu.modFib _ ?_ ?_ <;> unfold Fibre.setPreg <;> split <;> rfl
  unfold State.endWindow
  refine foldl_inv (SameWindow k s) _ (fun u p hu => ?_) _ _ (foldl_inv (SameWindow k s) _ (fun u r hu => ?_) _ _ h)
  · dsimp only
    split
    · exact hpreg _ _ _ _ hu
    · exact hu
  · dsimp only
    split
    · exact hreg _ _ hu
    · exact hu

theorem State.closeWindows_sameWindow (s : State) (k : Nat) (p : EphWin → Bool) : SameWindow k s (s.closeWindows k p) := by
  unfold State.closeWindows
  dsimp only
  split
  · exact ⟨rfl, rfl⟩
  · exact foldl_inv (SameWindow k s) _ (fun u w hu => hu.endWindow w) _ _ (SameWindow.modFib ⟨rfl, rfl⟩ _ rfl rfl)

/-- A chunk that is moved changes memory and stack entries, and no fibre's window. -/
theorem State.moveChunk_sameWindow {s u : State} {k c : Nat} {out : Bool} {a : W64} (h : s.moveChunk k c out a = .ok u) : SameWindow k s u := by
  have hmem {t : State} (ht : MemWork s t) : SameWindow k s t := ⟨(congrArg Fibre.lo (ht.fibs k) :), (congrArg Fibre.move (ht.fibs k) :)⟩
  unfold State.moveChunk at h
  split at h
  · cases h
  · split at h <;> cases h
    · exact hmem ((MemWork.refl s).writePieces _ _ _)
    · exact (hmem ((MemWork.refl s).readPieces _ _)).trans ⟨rfl, rfl⟩

/-- Once a move has been made, none is pending; LO has followed a move out or in. -/
theorem State.didMove_window (u : State) (k n : Nat) : ((u.didMove k n).fib k).move = 0 ∧ (n = 1 → ((u.didMove k n).fib k).lo = (u.fib k).lo + 8) ∧
    (n = 3 → ((u.didMove k n).fib k).lo = (u.fib k).lo - 8) := by
  have hclosed := (u.modFib k (fun f => f.moved n)).closeWindows_sameWindow k (fun w => w.left = 0)
  obtain ⟨hlo, hmove⟩ := hclosed
  rw [State.fib_modFib_self] at hlo hmove
  refine ⟨hmove.trans ?_, fun h => hlo.trans ?_, fun h => hlo.trans ?_⟩
  · unfold Fibre.moved
    split
    · rfl
    · split <;> rfl
  · subst h; rfl
  · subst h; rfl

theorem exec_hostSpillMove_moves {s u : State} {k : Nat} (hmove : (s.fib k).move ≠ 0) (hflag : (s.wg (wgOf k)).kd.flags.getLsbD 2 = false)
    (hgood : (s.fib k).move = 3 → s.chunkBad k (s.spillBase k (s.moveOf k 3)) = none)
    (hok : s.moveChunk k (s.moveOf k (s.fib k).move) ((s.fib k).move != 3) (s.spillBase k (s.moveOf k (s.fib k).move)) = .ok u) :
    exec (.hostSpillMove k) s = .next (u.didMove k (s.fib k).move) := by
  have hchunk : (if (s.fib k).move = 3 then s.chunkBad k (s.spillBase k (s.moveOf k (s.fib k).move)) else none) = none := by
    split
    next h => rw [h]; exact hgood h
    · rfl
  show execHostSpillMove k s = _
  unfold execHostSpillMove
  dsimp only
  rw [hflag, hchunk, hok, if_neg (by simp [hmove])]

/-- Settles O54: the placement's start (`State.startWg_started`), what each later step of an event leaves of a core, a workgroup or a fibre's window, and the record that
a write of DISPATCH_DESC starts from (`State.startDispatcher_desc`). -/
theorem eventsComplete : Obligations.EventsComplete := by
  refine ⟨fun s cluster g core slots banks hstand hgrid => ?_, fun s core h => exec_sliceEnd_from h, fun s core h => exec_preemptTimeout_stopped h,
    fun s w h => exec_workgroupSave_saved h, fun s w core slots banks hsaved hfits hmay => ?_, fun s vd v => exec_dispatchDescWrite_desc s vd v,
    fun s k u hmove hflag hgood hok => ?_⟩
  · have hstart := s.startWg_started g core slots banks
    refine ⟨_, exec_placement_grid s cluster hgrid (fun id p c h _ => ?_), hstart.next, ?_, ?_, ?_⟩
    · rw [hstand] at h
      cases h
    · rw [hstart.wg]; rfl
    · rw [hstart.wg]; rfl
    · rw [hstart.wg]; rfl
  · obtain ⟨t, hexec, hwg⟩ := exec_workgroupRestore_runs hsaved hfits (by
      split at hmay
      next h => rw [if_pos h]; simpa using hmay
      next h => rw [if_neg h]; exact hmay)
    exact ⟨t, hexec, (congrArg Wg.life hwg :), (congrArg Wg.core hwg :), (congrArg Wg.banks hwg :)⟩
  · obtain ⟨hlo, -⟩ := State.moveChunk_sameWindow hok
    obtain ⟨hnone, hout, hin⟩ := u.didMove_window k (s.fib k).move
    exact ⟨_, exec_hostSpillMove_moves hmove hflag hgood hok, hnone, fun h => (hout h).trans (by rw [hlo]), fun h => (hin h).trans (by rw [hlo])⟩

end Sys2Proof.Machine
end

section
/-! SUPPORT. The proofs of the scope: what the work of memory leaves of virtual devices: vectors become pending, and replays of atomics are counted (R322, R456). -/

namespace Sys2Proof.Machine

/-- Vectors have become pending, and replays of atomics have been counted. -/
structure Vd.Worked (x y : Vd) : Prop where
  rest : { y with msix := x.msix, atomReplays := x.atomReplays } = x
  msix : ∀ i, x.msix.getLsbD i = true → y.msix.getLsbD i = true

namespace Vd.Worked

theorem refl (x : Vd) : Vd.Worked x x := ⟨rfl, fun _ h => h⟩

theorem trans {x y z : Vd} (h : Vd.Worked x y) (g : Vd.Worked y z) : Vd.Worked x z := by
  refine ⟨?_, fun i hi => g.msix i (h.msix i hi)⟩
  have hrest := h.rest
  rw [← g.rest] at hrest
  exact hrest

theorem vector (x : Vd) (m : BitVec 5) : Vd.Worked x { x with msix := x.msix ||| m } :=
  ⟨rfl, fun i hi => by show (x.msix ||| m).getLsbD i = true; rw [BitVec.getLsbD_or, hi, Bool.true_or]⟩

theorem replay (x : Vd) (n : W64) : Vd.Worked x { x with atomReplays := n } := ⟨rfl, fun _ h => h⟩

end Vd.Worked

/-- The same of every virtual device. -/
structure VdsWork (s t : State) : Prop where
  vd : ∀ v, Vd.Worked (s.vd v) (t.vd v)

namespace VdsWork

theorem refl (s : State) : VdsWork s s := ⟨fun _ => Vd.Worked.refl _⟩

theorem trans {s t u : State} (h : VdsWork s t) (g : VdsWork t u) : VdsWork s u := ⟨fun v => (h.vd v).trans (g.vd v)⟩

theorem foldl {β : Type} {g : State → β → State} (hg : ∀ t x, VdsWork t (g t x)) (l : List β) (s : State) : VdsWork s (l.foldl g s) :=
  foldl_inv (fun t => VdsWork s t) g (fun t x h => h.trans (hg t x)) l s (refl s)

variable {s t u : State} (h : VdsWork s t)
include h

/-- What changes no virtual device. -/
theorem same (hvds : u.vds = t.vds) : VdsWork s u := by
  refine ⟨fun v => ?_⟩
  have hv : u.vd v = t.vd v := congrArg (tget Vd.empty · v) hvds
  rw [hv]
  exact h.vd v

theorem modVd (vd : Nat) {g : Vd → Vd} (hg : ∀ x, Vd.Worked x (g x)) : VdsWork s (t.modVd vd g) := by
  refine ⟨fun v => ?_⟩
  by_cases hv : v = vd
  · subst hv
    rw [State.vd_modVd_self]
    exact (h.vd v).trans (hg _)
  · rw [State.vd_modVd_ne _ _ _ _ hv]
    exact h.vd v

theorem msix (vd n : Nat) : VdsWork s (t.msix vd n) := h.modVd vd (fun x => Vd.Worked.vector x _)

theorem setDamask (d : Damask) : VdsWork s (t.setDamask d) := by
  have hset : VdsWork s { t with damask := d } := h.same rfl
  unfold State.setDamask
  dsimp only
  split
  · exact hset.msix 0 0
  · exact hset

theorem dramRead (line : Nat) : VdsWork s (t.dramRead line) := by
  have hpoison (u : State) (a b : Bool) (hu : VdsWork s u) : VdsWork s (u.poisonLine line a b) := hu.same rfl
  have hfail (e : W64) : VdsWork s ((t.poisonLine line true true).logEvent e) := (hpoison t true true h).setDamask _
  unfold State.dramRead
  dsimp only
  split
  · split
    · exact h
    · exact hfail _
  · split
    · exact h
    · split
      · exact hpoison _ _ _ h
      · exact hpoison _ _ _ (h.setDamask _)
      · split
        · exact h
        · exact hfail _

theorem pfHit (pf : Option Nat) (flight : Bool) : VdsWork s (t.pfHit pf flight) := h.same (by cases pf <;> rfl)

theorem pfOut (pf : Option Nat) : VdsWork s (t.pfOut pf) := h.same (by cases pf <;> rfl)

theorem l2Fill (vd line : Nat) (pf : Option Nat) : VdsWork s (t.l2Fill vd line pf) := by
  unfold State.l2Fill
  split
  next x _ =>
    split
    · exact h
    · exact (h.pfHit x.pf x.flight).same rfl
  · dsimp only
    split
    · exact h.same rfl
    · exact (h.dramRead line).same rfl

theorem parityUpdate (line : Nat) : VdsWork s (t.parityUpdate line) := by
  unfold State.parityUpdate
  dsimp only
  split
  · exact h.same rfl
  · exact h

theorem l2Dirty (vd line : Nat) : VdsWork s (t.l2Dirty vd line) := by
  have hfill := h.l2Fill vd line none
  unfold State.l2Dirty
  dsimp only
  split
  · exact hfill.same rfl
  · exact (hfill.parityUpdate line).same rfl

theorem residueDrop (holder line : Nat) : VdsWork s (t.residueDrop holder line) := by
  unfold State.residueDrop
  split
  · exact h
  · exact h.same rfl

theorem dropShadows (pa n : Nat) : VdsWork s (t.dropShadows pa n) := by
  unfold State.dropShadows
  split
  · exact h
  · exact h.same rfl

theorem shadowAdd (holder pa ty : Nat) (f : Fmt) (x : W32) : VdsWork s (t.shadowAdd holder pa ty f x) :=
  (h.dropShadows pa (tyBytes ty)).same rfl

theorem updateElem (holder pa aop ty x : Nat) : VdsWork s (t.updateElem holder pa aop ty x) := by
  have hset (v : Nat) : VdsWork s ((t.dropShadows pa (tyBytes ty)).setElem pa ty v) := (h.dropShadows _ _).same rfl
  unfold State.updateElem
  split
  · split
    · exact h.shadowAdd _ _ _ _ _
    · exact hset _
  · exact hset _

theorem foldPart (pa aop ty : Nat) (v : W64) : VdsWork s (t.foldPart pa aop ty v) := by
  unfold State.foldPart
  split
  · exact h.same rfl
  · split
    · exact h.shadowAdd _ _ _ _ _
    · exact h.updateElem _ _ _ _ _

theorem foldSector (line sec : Nat) (tag : Option (Nat × Nat)) (parts : Tab W64) : VdsWork s (t.foldSector line sec tag parts) := by
  unfold State.foldSector
  split
  · exact h
  · refine h.trans (foldl (fun u e => ?_) _ _)
    split
    · exact (refl u).foldPart _ _ _ _
    · exact refl u

theorem drainU (cluster line : Nat) : VdsWork s (t.drainU cluster line) := by
  unfold State.drainU
  split
  · exact h
  next x _ =>
    exact (((h.l2Dirty (match tfind t.l2 line with | some x => x.vd | none => 0) line).foldSector line 0 x.tag0 x.parts).foldSector line 1 x.tag1 x.parts).same rfl

theorem writeBackSector (cluster line sec : Nat) : VdsWork s (t.writeBackSector cluster line sec) := by
  unfold State.writeBackSector
  split
  · exact h
  next x _ =>
    split
    · dsimp only
      split
      · exact (h.l2Dirty x.vd line).same rfl
      · have hwrite : VdsWork s ((t.writeMem (64 * line + 32 * sec) (x.bytes (32 * sec) 32)).setPoison (2 * line + sec) (x.bad.getLsbD sec)) := h.same rfl
        exact (hwrite.l2Dirty x.vd line).same rfl
    · exact h

theorem writeBack (cluster line : Nat) : VdsWork s (t.writeBack cluster line) := (h.writeBackSector cluster line 0).writeBackSector cluster line 1

theorem touchFresh (w : Who) (line sec attr : Nat) : VdsWork s (t.touchFresh w line sec attr) := by
  have hc := h.pfHit (tget Line.empty t.cc (hkey (clusterOf w.core) line)).pf (tget Line.empty t.cc (hkey (clusterOf w.core) line)).flight
  unfold State.touchFresh
  dsimp only
  split
  · exact (h.pfHit (tget Line.empty t.l0 (hkey w.core line)).pf (tget Line.empty t.l0 (hkey w.core line)).flight).same rfl
  · split
    · exact hc.same rfl
    · exact (hc.l2Fill w.vd line none).same rfl

theorem readFresh (w : Who) (line sec attr : Nat) : VdsWork s (t.readFresh w line sec attr) := by
  unfold State.readFresh
  split
  · exact (h.writeBack _ _).touchFresh _ _ _ _
  · exact h.touchFresh _ _ _ _

theorem readCc (w : Who) (line sec : Nat) : VdsWork s (t.readCc w line sec).2 := by
  have hcopy : VdsWork s (t.plainCopy (clusterOf w.core) line).2 := by
    unfold State.plainCopy
    dsimp only
    split
    · exact h.writeBack _ _
    · exact h
  have hhit := hcopy.pfHit (t.plainCopy (clusterOf w.core) line).1.pf (t.plainCopy (clusterOf w.core) line).1.flight
  unfold State.readCc
  dsimp only
  split
  · exact hhit.same rfl
  · exact (hhit.l2Fill w.vd line none).same rfl

theorem l0Update (core pa : Nat) (bs : List Byte) : VdsWork s (t.l0Update core pa bs) := by
  unfold State.l0Update
  split
  · split
    · exact h
    · exact h.same rfl
  · exact h

theorem writeFresh (w : Who) (pa : Nat) (bs : List Byte) : VdsWork s (t.writeFresh w pa bs) := by
  have hc := h.pfHit (tget Line.empty t.cc (hkey (clusterOf w.core) (pa / 64))).pf (tget Line.empty t.cc (hkey (clusterOf w.core) (pa / 64))).flight
  unfold State.writeFresh
  dsimp only
  split
  · exact hc.same rfl
  · exact (hc.l2Fill w.vd (pa / 64) none).same rfl

theorem writeWide (w : Who) (pa : Nat) (bs : List Byte) : VdsWork s (t.writeWide w pa bs) := by
  have hdirty := (h.writeBack (clusterOf w.core) (pa / 64)).l2Dirty w.vd (pa / 64)
  have hwrite : VdsWork s (((t.writeBack (clusterOf w.core) (pa / 64)).l2Dirty w.vd (pa / 64)).writeMem pa bs) := hdirty.same rfl
  have hcc (c : Tab Line) : VdsWork s { ((t.writeBack (clusterOf w.core) (pa / 64)).l2Dirty w.vd (pa / 64)).writeMem pa bs with cc := c } := hdirty.same rfl
  unfold State.writeWide
  dsimp only
  split
  · split
    · exact hwrite.l0Update _ _ _
    · exact (hcc _).l0Update _ _ _
  · exact hwrite.l0Update _ _ _

theorem writeCc (w : Who) (pa : Nat) (bs : List Byte) : VdsWork s (t.writeCc w pa bs) := by
  have hcc (c : Tab Line) : VdsWork s { (t.readCc w (pa / 64) (sectorBit pa)).2 with cc := c } := (h.readCc w (pa / 64) (sectorBit pa)).same rfl
  exact (hcc _).l0Update _ _ _

theorem moveLine (line : Nat) : VdsWork s (t.moveLine line) := by
  have hdrop := h.residueDrop 0 line
  unfold State.moveLine
  dsimp only
  split
  · exact hdrop.same rfl
  · exact (hdrop.dramRead line).same rfl

theorem rebuildStripe (p : Nat) : VdsWork s (t.rebuildStripe p) := by
  unfold State.rebuildStripe
  dsimp only
  split
  · exact h.same rfl
  · split
    · exact h.moveLine _
    · exact h
  · exact h

theorem endMove (p : Nat) : VdsWork s (t.endMove p) := by
  unfold State.endMove
  dsimp only
  split
  · exact (h.rebuildStripe p).setDamask _
  · split
    · have hmove := h.moveLine (p * 2 ^ 22 + (t.damask.prov p).wm)
      generalize t.moveLine (p * 2 ^ 22 + (t.damask.prov p).wm) = u at hmove
      have hset : VdsWork s { u with damask := u.damask.setProv p { u.damask.prov p with wm := (t.damask.prov p).wm + 1, locked := false } } := hmove.same rfl
      have hparity := hset.parityUpdate (p * 2 ^ 22 + (t.damask.prov p).wm)
      split
      · exact (show VdsWork s (State.newParity _ p) from hparity.same rfl).setDamask _
      · exact hparity
    · exact h

theorem meetLine (vd pa n : Nat) : VdsWork s (t.meetLine vd pa n) := by
  unfold State.meetLine
  split
  · exact (h.endMove _).modVd vd (fun x => Vd.Worked.replay x _)
  · exact h

theorem foldDrain (d : Drain) : VdsWork s (t.foldDrain d) := by
  have hparts := h.trans (foldl (fun u e => (refl u).foldPart (64 * d.line + e.1) 0 d.ty e.2) d.parts t)
  unfold State.foldDrain
  extract_lets u1 u2 u3 k
  have hu3 : u3.vds = u1.vds := by
    unfold u3
    split <;> rfl
  split
  · exact hparts.same hu3
  · exact hparts.same hu3

theorem combine (line : Nat) : VdsWork s (t.combine line) := by
  unfold State.combine
  split
  · exact h
  · exact (h.trans (foldl (fun u d => (refl u).foldDrain d) _ _)).trans (foldl (fun u e => (refl u).drainU _ _) _ _)

theorem readLoc (w : Who) (l : Loc) (n : Nat) : VdsWork s (t.readLoc w l n).2 := by
  cases l with
  | scr o => exact h
  | ob o => exact h
  | host a => exact h
  | peer p a => exact h
  | dev pa attr b =>
    have hc := h.combine (pa / 64)
    unfold State.readLoc
    dsimp only
    generalize t.combine (pa / 64) = u at hc
    split
    · exact hc.readFresh _ _ _ _
    · split
      · exact (hc.writeBack _ _).l2Fill _ _ _
      · split
        · exact (hc.pfHit (tget Line.plain u.l0 (hkey w.core (pa / 64))).pf (tget Line.plain u.l0 (hkey w.core (pa / 64))).flight).same rfl
        · dsimp only
          split
          · exact (hc.readCc w (pa / 64) (sectorBit pa)).same rfl
          · exact hc.readCc _ _ _

theorem writeLoc (w : Who) (l : Loc) (bs : List Byte) : VdsWork s (t.writeLoc w l bs) := by
  cases l with
  | scr o => exact h.same rfl
  | ob o => exact h.same rfl
  | host a => exact h.same rfl
  | peer p a => exact h.same rfl
  | dev pa attr b =>
    have hc := (h.combine (pa / 64)).dropShadows pa bs.length
    unfold State.writeLoc
    dsimp only
    generalize (t.combine (pa / 64)).dropShadows pa bs.length = u at hc
    split
    · exact hc.writeFresh _ _ _
    · split
      · exact hc.writeWide _ _ _
      · exact hc.writeCc _ _ _

omit h in
theorem readPieces (h : VdsWork s t) (w : Who) (ps : List Piece) : VdsWork s (t.readPieces w ps).2 := by
  induction ps generalizing t with
  | nil => exact h
  | cons p ps ih =>
    unfold State.readPieces
    split
    · exact ih h
    · exact ih (h.readLoc w _ _)

omit h in
theorem writePieces (h : VdsWork s t) (w : Who) (ps : List Piece) (bs : List Byte) : VdsWork s (t.writePieces w ps bs) := by
  induction ps generalizing t bs with
  | nil => exact h
  | cons p ps ih => exact ih (h.trans (foldl (fun u l => (refl u).writeLoc w l _) _ _)) _

theorem ctrAdd {core vd : Nat} {a inc : W64} (hadd : t.ctrAdd core vd a inc = some u) : VdsWork s u := by
  unfold State.ctrAdd at hadd
  split at hadd
  · cases hadd
  next ps _ =>
    cases hadd
    refine VdsWork.writePieces (VdsWork.readPieces (h.trans (foldl (fun u p => foldl (fun u l => ?_) _ _) _ _)) _ _) _ _ _
    cases l with
    | dev pa attr b => exact (refl u).meetLine _ _ _
    | _ => exact refl u

theorem flushGrid (k : Nat) : VdsWork s (t.flushGrid k) := h.trans (foldl (fun u _ => (refl u).writeBack _ _) _ t)

end VdsWork

end Sys2Proof.Machine
end

section
/-! SUPPORT. The proofs of the scope: the ends of grids, one grid at a time (R128, R436, R440, R441, R450). -/

namespace Sys2Proof.Machine

/-! A grid is settled or killed: no core, no command and no other grid changes. -/

/-- One grid has had its turn: no core, no scan result, no command and no other grid has changed. -/
structure Turn (k : Nat) (s t : State) : Prop where
  rest   : (t.cores, t.scanResults, t.cmds) = (s.cores, s.scanResults, s.cmds)
  others : ∀ j, j ≠ k → t.grid j = s.grid j

namespace Turn

theorem refl (k : Nat) (s : State) : Turn k s s := ⟨rfl, fun _ _ => rfl⟩

theorem trans {k : Nat} {s t u : State} (h : Turn k s t) (g : Turn k t u) : Turn k s u :=
  ⟨g.rest.trans h.rest, fun j hj => (g.others j hj).trans (h.others j hj)⟩

variable {k : Nat} {s t u : State} (h : Turn k s t)
include h

theorem mem (g : MemWork t u) : Turn k s u :=
  h.trans ⟨Prod.ext (congrArg State.cores g.rest :) (Prod.ext (congrArg State.scanResults g.rest :) (congrArg State.cmds g.rest :)), fun _ _ => g.grid _⟩

theorem setGrid (x : Grid) : Turn k s (t.setGrid k x) := h.trans ⟨rfl, fun j hj => State.grid_setGrid_ne _ _ _ _ hj⟩

theorem release (w : Nat) (life : WgLife) : Turn k s (t.release w life) := h.trans ⟨rfl, fun _ _ => rfl⟩

theorem killOne (w : Nat) : Turn k s (t.killOne w) := (h.mem (t.settleEnergy_memWork w)).release w .killed

end Turn

theorem State.settleGrid_turn (s : State) (k : Nat) : Turn k s (s.settleGrid k) := by
  unfold State.settleGrid
  extract_lets g u v
  have hu : Turn k s u := by
    unfold u
    split
    · exact Turn.refl k s
    · exact (Turn.refl k s).mem (((MemWork.refl s).flushGrid k).gridAdd k _)
  have hv : Turn k s v := hu.setGrid _
  clear_value v
  split
  · exact Turn.refl k s
  · split
    · exact hv
    · split
      · exact (hv.setGrid _).mem ((MemWork.refl _).gridAdd _ _)
      · split
        · exact (hv.setGrid _).mem (((MemWork.refl _).returnUnits k).gridAdd _ _)
        · exact hv

theorem State.killGrid_turn (s : State) (k code lstatus : Nat) : Turn k s (s.killGrid k code lstatus) := by
  by_cases hdone : (s.grid k).st = .killed ∨ (s.grid k).st = .confirmed
  · have hsame : s.killGrid k code lstatus = s := if_pos (by simpa using hdone)
    rw [hsame]
    exact Turn.refl k s
  · have hall : Turn k s ((s.toKill k).foldl State.killOne s) := foldl_inv (Turn k s) _ (fun t w ht => ht.killOne w) _ _ (Turn.refl k s)
    rw [s.killGrid_eq k code lstatus (fun h => hdone (.inl h)) (fun h => hdone (.inr h))]
    dsimp only
    generalize (s.toKill k).foldl State.killOne s = u at hall
    generalize (if (s.grid k).disp = true then 0 else k % 2 ^ 32) = id
    have ht := (hall.setGrid { s.grid k with st := .killed, cores := [], since := [], replay := [] }).mem
      ((MemWork.refl _).killCause (k / 2 ^ 32) code lstatus id)
    split
    · exact ht
    · exact (ht.mem ((MemWork.refl _).returnUnits k)).trans (State.settleGrid_turn _ k)

/-! What settling leaves of the grid itself. -/

/-- A grid has been settled: its adds may have been made, and if it was PROVISIONAL with no core left to pass it may be CONFIRMED. -/
structure Grid.Settled (x y : Grid) : Prop where
  rest : { y with st := x.st, provAdded := x.provAdded, confAdded := x.confAdded } = x
  st   : y.st = x.st ∨ (x.st = .provisional ∧ x.cores = [] ∧ x.replay = [] ∧ y.st = .confirmed)

theorem State.settleGrid_settled (s : State) (k : Nat) : Grid.Settled (s.grid k) ((s.settleGrid k).grid k) := by
  have hadd (t : State) (x : Grid) (a : W64) (h : Grid.Settled (s.grid k) x) : Grid.Settled (s.grid k) (((t.setGrid k x).gridAdd k a).grid k) := by
    rw [((MemWork.refl (t.setGrid k x)).gridAdd k a).grid, State.grid_setGrid_self]
    exact h
  unfold State.settleGrid
  extract_lets g u v
  have hv : v.grid k = { g with provAdded := true } := State.grid_setGrid_self _ _ _
  clear_value v
  split
  · exact ⟨rfl, .inl rfl⟩
  next hopen =>
    split
    · rw [hv]
      exact ⟨rfl, .inl rfl⟩
    · split
      · exact hadd v _ _ ⟨rfl, .inl rfl⟩
      next hkilled =>
        split
        next hempty =>
          have hprov : g.st = .provisional := by
            simp only [Bool.or_eq_true, Bool.not_eq_true', Bool.or_eq_false_iff, decide_eq_false_iff_not, not_or, not_and_or, not_not] at hopen
            exact hopen.2.resolve_right hkilled
          obtain ⟨hcores, hreplay⟩ := (Bool.and_eq_true _ _ ▸ hempty : _ ∧ _)
          rw [((MemWork.refl _).gridAdd k g.conf).grid, ((MemWork.refl _).returnUnits k).grid, State.grid_setGrid_self]
          exact ⟨rfl, .inr ⟨hprov, List.isEmpty_iff.1 hcores, List.isEmpty_iff.1 hreplay, rfl⟩⟩
        · rw [hv]
          exact ⟨rfl, .inl rfl⟩

/-- A PROVISIONAL grid with nothing left to wait for is CONFIRMED. -/
theorem State.settleGrid_confirms (s : State) (k : Nat) (hst : (s.grid k).st = .provisional) (hdisp : (s.grid k).disp = false) (hbusy : s.busy k = false)
    (hconf : (s.grid k).confAdded = false) (hcores : (s.grid k).cores = []) (hreplay : (s.grid k).replay = []) :
    ((s.settleGrid k).grid k).st = .confirmed := by
  have hgo : ¬ ((s.grid k).disp || s.busy k || !(decide ((s.grid k).st = .provisional) || decide ((s.grid k).st = .killed))) = true := by
    rw [hdisp, hbusy, hst]
    decide
  have hkilled : ¬ (s.grid k).st = .killed := by rw [hst]; decide
  have hwaits : ¬ (s.grid k).confAdded = true := by rw [hconf]; decide
  unfold State.settleGrid
  extract_lets g u v
  rw [if_neg hgo, if_neg hwaits, if_neg hkilled, if_pos (by rw [hcores, hreplay]; rfl), ((MemWork.refl _).gridAdd k g.conf).grid,
    ((MemWork.refl _).returnUnits k).grid, State.grid_setGrid_self]

/-- A grid that is not CONFIRMED is killed by its kill. -/
theorem State.killGrid_st (s : State) (k code lstatus : Nat) (h : (s.grid k).st ≠ .confirmed) : ((s.killGrid k code lstatus).grid k).st = .killed := by
  by_cases hkilled : (s.grid k).st = .killed
  · have hsame : s.killGrid k code lstatus = s := if_pos (by simp [hkilled])
    rw [hsame]
    exact hkilled
  · rw [s.killGrid_eq k code lstatus hkilled h]
    dsimp only
    generalize (s.toKill k).foldl State.killOne s = u
    generalize (if (s.grid k).disp = true then 0 else k % 2 ^ 32) = id
    have ht : ((((u.setGrid k { s.grid k with st := .killed, cores := [], since := [], replay := [] })).killCause (k / 2 ^ 32) code lstatus id).grid k).st = .killed := by
      rw [((MemWork.refl _).killCause _ _ _ _).grid, State.grid_setGrid_self]
    split
    · exact ht
    · exact State.settleGrid_killed _ _ (by rwa [((MemWork.refl _).returnUnits k).grid])

/-! A fold whose steps meet one element. -/

/-- What holds until a step meets `x`, what that step brings about from it, and what no step undoes. -/
theorem foldl_meets {α β : Type} (before after : α → Prop) (step : α → β → α) {l : List β} {x : β} (hx : x ∈ l)
    (hwait : ∀ a y, y ≠ x → before a → before (step a y)) (hdo : ∀ a, before a → after (step a x)) (hkeep : ∀ a y, after a → after (step a y))
    (a : α) (ha : before a) : after (l.foldl step a) := by
  induction l generalizing a with
  | nil => cases hx
  | cons y l ih =>
    by_cases hy : y = x
    · subst hy
      exact foldl_inv after step hkeep l _ (hdo a ha)
    · exact ih ((List.mem_cons.1 hx).resolve_left (Ne.symm hy)) _ (hwait a y hy ha)

end Sys2Proof.Machine
end

section
/-! SUPPORT. The proofs of the scope: scan passes begin and end (R147, R440 to R442, R444, R450). -/

namespace Sys2Proof.Machine

/-! A core drains (R440). -/

theorem State.scanFree_iff (s : State) (c : Nat) : s.scanFree c = true ↔ scannable s c := by
  simp [State.scanFree, scannable, and_assoc]

/-- A workgroup is where it was, and goes on or begins to stop. -/
def Wg.goesOn (x y : Wg) : Prop := y.core = x.core ∧ (y.life = x.life ∨ (x.life = .running ∧ y.life = .stopping false))

theorem Wg.goesOn_trans {x y z : Wg} (h : x.goesOn y) (g : y.goesOn z) : x.goesOn z := by
  obtain ⟨hcore, hlife⟩ := h
  obtain ⟨gcore, glife⟩ := g
  refine ⟨gcore.trans hcore, ?_⟩
  rcases hlife with hlife | ⟨hrun, hstop⟩
  · rwa [← hlife]
  · rcases glife with glife | ⟨hrun', -⟩
    · exact .inr ⟨hrun, glife.trans hstop⟩
    · rw [hstop] at hrun'
      cases hrun'

theorem State.stopWg_goesOn (s : State) (v w : Nat) : (s.wg w).goesOn ((s.stopWg v).wg w) := by
  by_cases hw : w = v
  · subst hw
    refine ⟨(congrArg Wg.core (State.wg_modWg_self s w _) :), ?_⟩
    rw [State.stopWg_life_self]
    split
    next hrun => exact .inr ⟨hrun, rfl⟩
    · exact .inl rfl
  · rw [show (s.stopWg v).wg w = s.wg w from State.wg_modWg_ne _ _ _ _ hw]
    exact ⟨rfl, .inl rfl⟩

theorem State.drain_goesOn (s : State) (c : Nat) (waiter : Option (Nat × Nat)) (w : Nat) : (s.wg w).goesOn ((s.drain c waiter).wg w) := by
  have hpass (t : State) : (t.startPass c).wg w = t.wg w := (congrArg (State.wg · w) (t.startPass_core c).1 :)
  unfold State.drain
  dsimp only
  rw [hpass]
  exact foldl_inv (fun t : State => (s.wg w).goesOn (t.wg w)) _ (fun t e h => Wg.goesOn_trans h (t.stopWg_goesOn e.1 w)) _ _ ⟨rfl, .inl rfl⟩

/-- A core that drains stays as fenced as it was, and as long unscanned. -/
theorem State.drain_fenced (s : State) (c : Nat) (waiter : Option (Nat × Nat)) :
    ((s.drain c waiter).core c).fenced = (s.core c).fenced ∧ ((s.drain c waiter).core c).lastScan = (s.core c).lastScan := by
  have hpass (t : State) : ((t.startPass c).core c).fenced = (t.core c).fenced ∧ ((t.startPass c).core c).lastScan = (t.core c).lastScan := by
    unfold State.startPass
    dsimp only
    split
    · exact ⟨rfl, rfl⟩
    · exact ⟨(congrArg Core.fenced (State.core_setCore_self t c _) :), (congrArg Core.lastScan (State.core_setCore_self t c _) :)⟩
  have hstop (u : State) (l : List (Nat × Wg)) : (u.stopAll l).core c = u.core c := (congrArg (State.core · c) (u.stopAll_rest l) :)
  have hset := State.core_setCore_self s c { s.core c with draining := true, waiter := waiter, passFrom := s.clock }
  obtain ⟨hfenced, hscan⟩ := hpass ((s.setCore c { s.core c with draining := true, waiter := waiter, passFrom := s.clock }).stopAll (s.wgsOn c))
  rw [hstop, hset] at hfenced hscan
  exact ⟨hfenced, hscan⟩

/-! The rotation (R440). -/

/-- The turn of one core in the rotation. -/
def State.rotate (s : State) (c : Nat) : State := if s.scanFree c && !(s.core c).fenced then s.drain c none else s

theorem State.rotate_free {s : State} {c : Nat} (hfree : scannable s c) (hfenced : (s.core c).fenced = false) : s.rotate c = s.drain c none :=
  if_pos (by rw [(s.scanFree_iff c).2 hfree, hfenced]; rfl)

theorem State.rotate_skips {s : State} {c : Nat} (h : ¬ scannable s c ∨ (s.core c).fenced = true) : s.rotate c = s := by
  refine if_neg (Bool.not_eq_true _ ▸ ?_)
  rcases h with hfree | hfenced
  · rw [Bool.eq_false_iff.2 (mt (s.scanFree_iff c).1 hfree), Bool.false_and]
  · rw [hfenced, Bool.not_true, Bool.and_false]

theorem State.rotate_work (s : State) (c : Nat) : CoreWork s (s.rotate c) ∧ (∀ j, j ≠ c → (s.rotate c).core j = s.core j) ∧
    ∀ w, (s.wg w).goesOn ((s.rotate c).wg w) := by
  unfold State.rotate
  split
  · have hdrain := s.drain_draining c none
    exact ⟨hdrain.rest, hdrain.others, s.drain_goesOn c none⟩
  · exact ⟨rfl, fun _ _ => rfl, fun _ => ⟨rfl, .inl rfl⟩⟩

theorem CoreWork.coreCount {s t : State} (h : CoreWork s t) : t.coreCount = s.coreCount := (congrArg State.coreCount h :)

/-- Whether a core can be scanned depends on its record. -/
theorem scannable_congr {s t : State} {c : Nat} (h : CoreWork s t) (hcore : t.core c = s.core c) : scannable t c ↔ scannable s c := by
  unfold scannable
  rw [h.coreCount, hcore]

section
variable (s : State) (l : List Nat) {c : Nat}

theorem State.rotateAll_work : CoreWork s (l.foldl State.rotate s) :=
  foldl_inv (CoreWork s) _ (fun t c h => h.trans (t.rotate_work c).1) l s rfl

/-- A core that is not of the group, or that is not scanned, is left alone. -/
theorem State.rotateAll_skips (h : c ∉ l ∨ ¬ scannable s c ∨ (s.core c).fenced = true) : (l.foldl State.rotate s).core c = s.core c := by
  refine (List.foldlRecOn (motive := fun t => CoreWork s t ∧ t.core c = s.core c) l _ ⟨rfl, rfl⟩ (fun t ht a ha => ?_)).2
  obtain ⟨hwork, hcore⟩ := ht
  refine ⟨hwork.trans (t.rotate_work a).1, ?_⟩
  by_cases hac : a = c
  · subst hac
    rw [State.rotate_skips (by rw [scannable_congr hwork hcore, hcore]; exact h.resolve_left (fun h => h ha)), hcore]
  · rw [(t.rotate_work a).2.1 c (Ne.symm hac), hcore]

/-- A core of the group that is scanned drains. -/
theorem State.rotateAll_drains (hc : c ∈ l) (hfree : scannable s c) (hfenced : (s.core c).fenced = false) :
    ((l.foldl State.rotate s).core c).draining = true ∧ ((l.foldl State.rotate s).core c).waiter = none ∧
      ∀ w, (s.wg w).core = c → (s.wg w).life = .running → ((l.foldl State.rotate s).wg w).life = .stopping false := by
  refine foldl_meets (fun t => CoreWork s t ∧ t.core c = s.core c ∧ ∀ w, (s.wg w).goesOn (t.wg w))
    (fun t => (t.core c).draining = true ∧ (t.core c).waiter = none ∧ ∀ w, (s.wg w).core = c → (s.wg w).life = .running → (t.wg w).life = .stopping false)
    State.rotate hc (fun t a ha ht => ?_) (fun t ht => ?_) (fun t a ht => ?_) s ⟨rfl, rfl, fun _ => ⟨rfl, .inl rfl⟩⟩
  · obtain ⟨hwork, hcore, hwgs⟩ := ht
    obtain ⟨hstep, hothers, hgoes⟩ := t.rotate_work a
    exact ⟨hwork.trans hstep, (hothers c (Ne.symm ha)).trans hcore, fun w => Wg.goesOn_trans (hwgs w) (hgoes w)⟩
  · obtain ⟨hwork, hcore, hwgs⟩ := ht
    rw [State.rotate_free ((scannable_congr hwork hcore).2 hfree) (by rw [hcore]; exact hfenced)]
    have hdrain := t.drain_draining c none
    refine ⟨hdrain.draining, hdrain.waiter, fun w hw hrun => ?_⟩
    obtain ⟨hat, hlife | ⟨-, hstop⟩⟩ := hwgs w
    · exact hdrain.wgs w (hat.trans hw) (hlife.trans hrun)
    · obtain ⟨-, hlife | ⟨hrun', -⟩⟩ := t.drain_goesOn c none w
      · exact hlife.trans hstop
      · rw [hstop] at hrun'
        cases hrun'
  · obtain ⟨hdraining, hwaiter, hwgs⟩ := ht
    obtain ⟨-, hothers, hgoes⟩ := t.rotate_work a
    have hstays (w : Nat) (hw : (s.wg w).core = c) (hrun : (s.wg w).life = .running) : ((t.rotate a).wg w).life = .stopping false := by
      obtain ⟨-, hlife | ⟨hrun', -⟩⟩ := hgoes w
      · exact hlife.trans (hwgs w hw hrun)
      · rw [hwgs w hw hrun] at hrun'
        cases hrun'
    by_cases hac : a = c
    · subst hac
      have hbusy : ¬ scannable t a := fun ⟨_, _, hfree, _⟩ => by simp [hdraining] at hfree
      rw [State.rotate_skips (.inl hbusy)]
      exact ⟨hdraining, hwaiter, hwgs⟩
    · rw [hothers c (Ne.symm hac)]
      exact ⟨hdraining, hwaiter, hstays⟩

end

theorem scansStart : scanStarts := by
  refine ⟨fun s => ⟨fun hhost => if_pos hhost, fun hdevice => ?_⟩, fun s c => ?_, fun s v => ?_, fun s => rfl⟩
  · have hexec : exec .scanRotation s = .next { ((List.range 9).map (fun i => 9 * s.rotation + i)).foldl State.rotate s with
        rotation := (s.rotation + 1) % max 1 ((s.coreCount + 8) / 9) } := if_neg hdevice
    have hgroup (c : Nat) : c ∈ (List.range 9).map (fun i => 9 * s.rotation + i) ↔ 9 * s.rotation ≤ c ∧ c < 9 * s.rotation + 9 := by
      simp only [List.mem_map, List.mem_range]
      exact ⟨fun ⟨i, hi, h⟩ => by omega, fun h => ⟨c - 9 * s.rotation, by omega, by omega⟩⟩
    have hwork := s.rotateAll_work ((List.range 9).map (fun i => 9 * s.rotation + i))
    refine ⟨_, hexec, (congrArg (fun t : State => { t with rotation := s.rotation }) hwork :), rfl, fun i hi hfree hfenced => ?_, fun c hc => ?_⟩
    · exact s.rotateAll_drains _ ((hgroup _).2 ⟨by omega, by omega⟩) hfree hfenced
    · refine s.rotateAll_skips _ ?_
      rcases hc with hc | hc | hc
      · exact .inl (fun h => by have := (hgroup c).1 h; omega)
      · exact .inl (fun h => by have := (hgroup c).1 h; omega)
      · exact .inr hc
  · have hcond : (s.hostRotation && s.scanFree c && !(s.core c).fenced && decide (10000000 ≤ s.clock - (s.core c).lastScan)) = true ↔
        (s.vd 0).funcMode.getLsbD 4 = true ∧ scannable s c ∧ (s.core c).fenced = false ∧ 10000000 ≤ s.clock - (s.core c).lastScan := by
      simp [State.hostRotation, s.scanFree_iff, and_assoc]
    refine ⟨fun hdue => ⟨_, if_pos (hcond.2 hdue), ?_⟩, fun hnot => if_neg (mt hcond.1 hnot)⟩
    have hdrain := s.drain_draining c none
    exact ⟨hdrain.rest, ⟨hdrain.draining, hdrain.waiter, s.drain_fenced c none⟩, hdrain.others, hdrain.wgs⟩
  · refine ⟨fun hfree => ⟨_, if_pos ((s.scanFree_iff _).2 hfree), ?_⟩, fun hnot => if_neg (mt (s.scanFree_iff _).1 hnot)⟩
    have hdrain := s.drain_draining (v.toNat % 512) (some (1, 0))
    exact ⟨hdrain.rest, ⟨hdrain.draining, hdrain.waiter, s.drain_fenced _ _⟩, hdrain.others, hdrain.wgs⟩

/-! A pass ends (R440, R441). -/

/-- The turn of one grid where a core has passed. -/
def State.passGrid (core : Nat) (s : State) (k : Nat) : State :=
  (s.setGrid k { s.grid k with cores := (s.grid k).cores.filter (fun x => !(x.1 = core && x.2.2 = 2)), since := (s.grid k).since.filter (fun x => x.1 != core) }).settleGrid k

theorem State.passGrid_turn (s : State) (core k : Nat) : Turn k s (s.passGrid core k) := ((Turn.refl k s).setGrid _).trans (State.settleGrid_turn _ k)

theorem State.passGrid_settled (s : State) (core k : Nat) : Grid.Settled
    { s.grid k with cores := (s.grid k).cores.filter (fun x => !(x.1 = core && x.2.2 = 2)), since := (s.grid k).since.filter (fun x => x.1 != core) }
    ((s.passGrid core k).grid k) := by
  have h := (s.setGrid k { s.grid k with
    cores := (s.grid k).cores.filter (fun x => !(x.1 = core && x.2.2 = 2)), since := (s.grid k).since.filter (fun x => x.1 != core) }).settleGrid_settled k
  rwa [State.grid_setGrid_self] at h

theorem State.passOk_eq (s : State) (core : Nat) : s.passOk core = (s.grids.map (·.1)).foldl (State.passGrid core) s := rfl

theorem MemWork.replayed {s t : State} (h : MemWork s t) (k : Nat) : (t.grid k).replay = (s.grid k).replay := congrArg Grid.replay (h.grid k)

/-- A workgroup runs again: its grid's turn; earlier replays stand, and one of its index is added. -/
theorem State.replayWg_turn (s : State) (k i : Nat) : Turn k s (s.replayWg k i) ∧ ((s.replayWg k i).grid k).kd = (s.grid k).kd ∧
    ∃ b, ((s.replayWg k i).grid k).replay = (s.grid k).replay ++ [(i, b)] := by
  unfold State.replayWg
  extract_lets w again u g
  have hu : Turn k s u ∧ u.grid k = s.grid k := by
    unfold u
    generalize w = v
    cases v with
    | some v => exact ⟨(Turn.refl k s).killOne v, (s.settleEnergy_memWork v).grid k⟩
    | none => exact ⟨Turn.refl k s, rfl⟩
  obtain ⟨hturn, hgrid⟩ := hu
  refine ⟨hturn.setGrid _, ?_, again, ?_⟩
  · rw [State.grid_setGrid_self]
    exact (congrArg Grid.kd hgrid :)
  · rw [State.grid_setGrid_self]
    exact (congrArg (fun x : Grid => x.replay ++ [(i, again)]) hgrid :)

/-- A grid's runs on a core since its last pass. -/
def Grid.hits (g : Grid) (core : Nat) : List Nat := ((g.since.filter (fun x => x.1 = core)).map (·.2)).eraseDups

theorem Grid.mem_hits {g : Grid} {core i : Nat} (h : (core, i) ∈ g.since) : i ∈ g.hits core :=
  List.mem_eraseDups.2 (List.mem_map.2 ⟨(core, i), List.mem_filter.2 ⟨h, by simp⟩, rfl⟩)

/-- A grid forgets its runs on a core. -/
def State.forgetRuns (core k : Nat) (s : State) : State :=
  s.setGrid k { s.grid k with cores := (s.grid k).cores.filter (fun x => x.1 != core), since := (s.grid k).since.filter (fun x => x.1 != core) }

/-- The turn of one grid where a core has failed. -/
def State.failGrid (core : Nat) (s : State) (k : Nat) : State :=
  if ((s.grid k).hits core).isEmpty || (s.grid k).st = .killed || (s.grid k).st = .confirmed then (s.forgetRuns core k).settleGrid k
  else if (s.grid k).kd.flags.getLsbD 4 then ((((s.grid k).hits core).foldl (fun s i => s.replayWg k i) s).forgetRuns core k).settleGrid k
  else s.killGrid k 29 0

theorem State.passFail_eq (s : State) (core : Nat) : s.passFail core = (s.grids.map (·.1)).foldl (State.failGrid core) s := rfl

/-- What a grid's turn ends with where its core has failed: it has forgotten its runs there and is settled. -/
theorem State.forgetRuns_settled (s : State) (core k : Nat) : Turn k s ((s.forgetRuns core k).settleGrid k) ∧ Grid.Settled
    { s.grid k with cores := (s.grid k).cores.filter (fun x => x.1 != core), since := (s.grid k).since.filter (fun x => x.1 != core) }
    (((s.forgetRuns core k).settleGrid k).grid k) := by
  have h := (s.forgetRuns core k).settleGrid_settled k
  rw [show (s.forgetRuns core k).grid k = _ from State.grid_setGrid_self _ _ _] at h
  exact ⟨((Turn.refl k s).setGrid _).trans (State.settleGrid_turn _ k), h⟩

theorem Grid.Settled.replay {x y : Grid} (h : Grid.Settled x y) : y.replay = x.replay := (congrArg Grid.replay h.rest :)

theorem Grid.Settled.kd {x y : Grid} (h : Grid.Settled x y) : y.kd = x.kd := (congrArg Grid.kd h.rest :)

theorem Grid.Settled.killed {x y : Grid} (h : Grid.Settled x y) (hx : x.st = .killed) : y.st = .killed := by
  rcases h.st with hst | ⟨hprov, -⟩
  · exact hst.trans hx
  · rw [hx] at hprov
    cases hprov

/-- Workgroups of a list run again. -/
theorem State.replayAll_turn (s : State) (k : Nat) (l : List Nat) :
    let t := l.foldl (fun s i => s.replayWg k i) s
    Turn k s t ∧ (t.grid k).kd = (s.grid k).kd ∧ (∀ x ∈ (s.grid k).replay, x ∈ (t.grid k).replay) ∧ ∀ i ∈ l, ∃ b, (i, b) ∈ (t.grid k).replay := by
  induction l generalizing s with
  | nil => exact ⟨Turn.refl k s, rfl, fun _ h => h, fun _ h => nomatch h⟩
  | cons i l ih =>
    obtain ⟨hturn, hkd, b, hreplay⟩ := s.replayWg_turn k i
    obtain ⟨hturns, hkds, hkeeps, hadds⟩ := ih (s.replayWg k i)
    refine ⟨hturn.trans hturns, hkds.trans hkd, fun x hx => hkeeps x (by rw [hreplay]; exact List.mem_append_left _ hx), fun j hj => ?_⟩
    rcases List.mem_cons.1 hj with rfl | hj
    · exact ⟨b, hkeeps _ (by rw [hreplay]; exact List.mem_append_right _ (List.mem_singleton.2 rfl))⟩
    · exact hadds j hj

theorem State.failGrid_turn (s : State) (core k : Nat) : Turn k s (s.failGrid core k) := by
  unfold State.failGrid
  split
  · exact (s.forgetRuns_settled core k).1
  · split
    · exact (s.replayAll_turn k _).1.trans (State.forgetRuns_settled _ core k).1
    · exact s.killGrid_turn k 29 0

theorem Turn.grids {k j : Nat} {s t : State} (h : Turn k s t) (hj : k ≠ j) : t.grid j = s.grid j ∧ t.cmds = s.cmds :=
  ⟨h.others j (Ne.symm hj), (congrArg (fun x => x.2.2) h.rest :)⟩

/-- What the turns of grids leave of cores and scan results. -/
theorem foldl_turn {g : State → Nat → State} (hg : ∀ t k, Turn k t (g t k)) (l : List Nat) (s : State) :
    (l.foldl g s).cores = s.cores ∧ (l.foldl g s).scanResults = s.scanResults :=
  foldl_inv (fun t : State => t.cores = s.cores ∧ t.scanResults = s.scanResults) g
    (fun t k h => ⟨(congrArg (fun x => x.1) (hg t k).rest :).trans h.1, (congrArg (fun x => x.2.1) (hg t k).rest :).trans h.2⟩) l s ⟨rfl, rfl⟩

section
variable {s : State} {core k : Nat} (hk : k ∈ s.grids.map (·.1))
include hk

/-- A grid that has its turn among all, when its core has passed. -/
theorem State.passOk_meets (after : Grid → Prop) (hdo : ∀ t : State, t.grid k = s.grid k → t.cmds = s.cmds → after ((t.passGrid core k).grid k))
    (hkeep : ∀ t : State, after (t.grid k) → after ((t.passGrid core k).grid k)) : after ((s.passOk core).grid k) := by
  rw [State.passOk_eq]
  refine foldl_meets (fun t : State => t.grid k = s.grid k ∧ t.cmds = s.cmds) (fun t => after (t.grid k)) _ hk (fun t j hj ht => ?_)
    (fun t ht => hdo t ht.1 ht.2) (fun t j ht => ?_) s ⟨rfl, rfl⟩
  · obtain ⟨hgrid, hcmds⟩ := (t.passGrid_turn core j).grids hj
    exact ⟨hgrid.trans ht.1, hcmds.trans ht.2⟩
  · by_cases hj : j = k
    · subst hj
      exact hkeep t ht
    · rw [((t.passGrid_turn core j).grids hj).1]
      exact ht

/-- The same when its core has failed. -/
theorem State.passFail_meets (after : Grid → Prop) (hdo : ∀ t : State, t.grid k = s.grid k → after ((t.failGrid core k).grid k))
    (hkeep : ∀ t : State, after (t.grid k) → after ((t.failGrid core k).grid k)) : after ((s.passFail core).grid k) := by
  rw [State.passFail_eq]
  refine foldl_meets (fun t : State => t.grid k = s.grid k) (fun t => after (t.grid k)) _ hk (fun t j hj ht => ?_) (fun t ht => hdo t ht) (fun t j ht => ?_) s rfl
  · exact ((t.failGrid_turn core j).grids hj).1.trans ht
  · by_cases hj : j = k
    · subst hj
      exact hkeep t ht
    · rw [((t.failGrid_turn core j).grids hj).1]
      exact ht

/-- A PROVISIONAL grid that waits for this pass alone is CONFIRMED. -/
theorem State.passOk_confirms (hst : (s.grid k).st = .provisional) (hdisp : (s.grid k).disp = false) (hbusy : s.busy k = false) (hconf : (s.grid k).confAdded = false)
    (hreplay : (s.grid k).replay = []) (hcores : ∀ x ∈ (s.grid k).cores, x.1 = core ∧ x.2.2 = 2) : ((s.passOk core).grid k).st = .confirmed := by
  refine State.passOk_meets hk (fun x => x.st = .confirmed) (fun t hgrid hcmds => ?_) (fun t ht => ?_)
  · have hempty : (t.grid k).cores.filter (fun x => !(x.1 = core && x.2.2 = 2)) = [] := by
      rw [hgrid, List.filter_eq_nil_iff]
      intro x hx
      obtain ⟨hcore, hran⟩ := hcores x hx
      simp [hcore, hran]
    refine State.settleGrid_confirms _ k ?_ ?_ ?_ ?_ ?_ ?_
    · rw [State.grid_setGrid_self]; exact (congrArg Grid.st hgrid).trans hst
    · rw [State.grid_setGrid_self]; exact (congrArg Grid.disp hgrid).trans hdisp
    · exact (congrArg (fun l => l.any (fun e : Nat × Cmd => decide (e.2.grid = k))) hcmds :).trans hbusy
    · rw [State.grid_setGrid_self]; exact (congrArg Grid.confAdded hgrid).trans hconf
    · rw [State.grid_setGrid_self]; exact hempty
    · rw [State.grid_setGrid_self]; exact (congrArg Grid.replay hgrid).trans hreplay
  · rcases (t.passGrid_settled core k).st with hst | ⟨hprov, -⟩
    · exact hst.trans ht
    · cases ht.symm.trans hprov

/-- One that waits for another core, or for a later pass, stays PROVISIONAL. -/
theorem State.passOk_waits (hst : (s.grid k).st = .provisional) (hcores : ∃ x ∈ (s.grid k).cores, x.1 ≠ core ∨ x.2.2 ≠ 2) :
    ((s.passOk core).grid k).st = .provisional := by
  have hturn (t : State) (h : (t.grid k).st = .provisional ∧ ∃ x ∈ (t.grid k).cores, x.1 ≠ core ∨ x.2.2 ≠ 2) :
      ((t.passGrid core k).grid k).st = .provisional ∧ ∃ x ∈ ((t.passGrid core k).grid k).cores, x.1 ≠ core ∨ x.2.2 ≠ 2 := by
    obtain ⟨hprov, x, hx, hwaits⟩ := h
    have hsettled := t.passGrid_settled core k
    have hleft : x ∈ (t.grid k).cores.filter (fun x => !(x.1 = core && x.2.2 = 2)) := List.mem_filter.2 ⟨hx, by simpa [← not_and_or] using hwaits⟩
    refine ⟨?_, x, by rw [show ((t.passGrid core k).grid k).cores = _ from (congrArg Grid.cores hsettled.rest :)]; exact hleft, hwaits⟩
    rcases hsettled.st with hst | ⟨-, hempty, -⟩
    · exact hst.trans hprov
    · rw [show (t.grid k).cores.filter (fun x => !(x.1 = core && x.2.2 = 2)) = [] from hempty] at hleft
      cases hleft
  exact (State.passOk_meets hk (fun x => x.st = .provisional ∧ ∃ y ∈ x.cores, y.1 ≠ core ∨ y.2.2 ≠ 2)
    (fun t hgrid _ => hturn t (by rw [hgrid]; exact ⟨hst, hcores⟩)) hturn).1

section
variable (hkilled : (s.grid k).st ≠ .killed) (hconfirmed : (s.grid k).st ≠ .confirmed)
include hkilled hconfirmed

/-- A grid that ran on a failed core and is not IDEMPOTENT is killed. -/
theorem State.passFail_kills (hran : ∃ i, (core, i) ∈ (s.grid k).since) (hflag : (s.grid k).kd.flags.getLsbD 4 = false) : ((s.passFail core).grid k).st = .killed := by
  refine State.passFail_meets hk (fun x => x.st = .killed) (fun t hgrid => ?_) (fun t ht => ?_)
  · obtain ⟨i, hi⟩ := hran
    have hhit : ((s.grid k).hits core).isEmpty = false := by
      rw [List.isEmpty_eq_false_iff]
      exact List.ne_nil_of_mem (Grid.mem_hits hi)
    unfold State.failGrid
    rw [hgrid, hhit, hflag, if_neg (by simp [hkilled, hconfirmed]), if_neg (by decide)]
    exact t.killGrid_st k 29 0 (by rw [hgrid]; exact hconfirmed)
  · unfold State.failGrid
    rw [if_pos (by simp [ht])]
    exact (t.forgetRuns_settled core k).2.killed ht

/-- One that is IDEMPOTENT runs its workgroups of that core again. -/
theorem State.passFail_replays {i : Nat} (hran : (core, i) ∈ (s.grid k).since) (hflag : (s.grid k).kd.flags.getLsbD 4 = true) :
    ∃ b, (i, b) ∈ ((s.passFail core).grid k).replay := by
  have hforgets (t : State) (h : (∃ b, (i, b) ∈ (t.grid k).replay) ∧ (t.grid k).kd.flags.getLsbD 4 = true) :
      (∃ b, (i, b) ∈ (((t.forgetRuns core k).settleGrid k).grid k).replay) ∧ (((t.forgetRuns core k).settleGrid k).grid k).kd.flags.getLsbD 4 = true := by
    have hsettled := (t.forgetRuns_settled core k).2
    rw [hsettled.replay, hsettled.kd]
    exact h
  refine (State.passFail_meets hk (fun x => (∃ b, (i, b) ∈ x.replay) ∧ x.kd.flags.getLsbD 4 = true) (fun t hgrid => ?_) (fun t ht => ?_)).1
  · have hmem := Grid.mem_hits hran
    have hhit : ((s.grid k).hits core).isEmpty = false := by
      rw [List.isEmpty_eq_false_iff]
      exact List.ne_nil_of_mem hmem
    obtain ⟨-, hkd, -, hadds⟩ := t.replayAll_turn k ((s.grid k).hits core)
    unfold State.failGrid
    rw [hgrid, hhit, hflag, if_neg (by simp [hkilled, hconfirmed]), if_pos rfl]
    exact hforgets _ ⟨hadds i hmem, by rw [hkd, hgrid]; exact hflag⟩
  · obtain ⟨⟨b, hb⟩, hflag⟩ := ht
    unfold State.failGrid
    split
    · exact hforgets t ⟨⟨b, hb⟩, hflag⟩
    · obtain ⟨-, hkd, hkeeps, -⟩ := t.replayAll_turn k ((t.grid k).hits core)
      exact hforgets _ ⟨⟨b, hkeeps _ hb⟩, by rw [hkd]; exact hflag⟩

end

end

/-- The answer of a pass changes no core and no grid, and goes to SCAN_RESULT where that asked for it and has room. -/
theorem State.postScan_answers (s : State) (core : Nat) (waiter : Option (Nat × Nat)) (res : Nat) :
    (s.postScan core waiter res).cores = s.cores ∧ (s.postScan core waiter res).grids = s.grids ∧
      ∀ x, waiter = some (1, x) → s.scanResults.length < 64 → (s.postScan core waiter res).scanResults = s.scanResults ++ [(core, res)] := by
  unfold State.postScan
  split
  · exact ⟨rfl, rfl, fun x h => by cases h⟩
  · refine ⟨by split <;> rfl, by split <;> rfl, fun x _ hroom => ?_⟩
    rw [if_pos hroom]
  · exact ⟨rfl, rfl, fun x h => by cases h⟩

/-- A core whose pass has ended. -/
def Core.scanned (x : Core) (now : Nat) (ok : Bool) : Core :=
  { x with inPass := false, draining := false, failNext := false, lastScan := now, waiter := none, fenced := x.fenced || !ok }

theorem scansEnd : scanEnds := by
  intro s c pass hin ok
  have hexec : exec (.scanPassComplete c pass) s = .next ((if ok then (s.setCore c ((s.core c).scanned s.clock ok)).passOk c
      else (s.setCore c ((s.core c).scanned s.clock ok)).passFail c).postScan c (s.core c).waiter (if ok then 0 else 1)) := by
    show execScanPassComplete c pass s = _
    unfold execScanPassComplete
    exact if_neg (by rw [hin]; decide)
  have hself := State.core_setCore_self s c ((s.core c).scanned s.clock ok)
  have hne := fun j hj => State.core_setCore_ne s c j ((s.core c).scanned s.clock ok) hj
  have hrest : ∀ x, (s.setCore c x).grids = s.grids ∧ (s.setCore c x).scanResults = s.scanResults ∧ (s.setCore c x).cmds = s.cmds := fun _ => ⟨rfl, rfl, rfl⟩
  have hrest := hrest ((s.core c).scanned s.clock ok)
  generalize s.setCore c ((s.core c).scanned s.clock ok) = u at hexec hself hne hrest
  obtain ⟨hgrids, hscans, hcmds⟩ := hrest
  have hgrid (g : Nat) : u.grid g = s.grid g := congrArg (tget Grid.empty · g) hgrids
  have hbusy (g : Nat) : u.busy g = s.busy g := congrArg (fun l => l.any (fun e : Nat × Cmd => decide (e.2.grid = g))) hcmds
  have hkey {g : Nat} (h : g ∈ s.grids.map (·.1)) : g ∈ u.grids.map (·.1) := by rwa [hgrids]
  have hturns : (if ok then u.passOk c else u.passFail c).cores = u.cores ∧ (if ok then u.passOk c else u.passFail c).scanResults = u.scanResults := by
    split
    · exact foldl_turn (fun t k => t.passGrid_turn c k) _ u
    · exact foldl_turn (fun t k => t.failGrid_turn c k) _ u
  obtain ⟨hcores, hresults⟩ := hturns
  obtain ⟨hpcores, hpgrids, hpost⟩ := (if ok then u.passOk c else u.passFail c).postScan_answers c (s.core c).waiter (if ok then 0 else 1)
  have hcore (j : Nat) : ((if ok then u.passOk c else u.passFail c).postScan c (s.core c).waiter (if ok then 0 else 1)).core j = u.core j :=
    congrArg (tget Core.empty · j) (hpcores.trans hcores)
  have hend (g : Nat) : ((if ok then u.passOk c else u.passFail c).postScan c (s.core c).waiter (if ok then 0 else 1)).grid g =
    (if ok then u.passOk c else u.passFail c).grid g := congrArg (tget Grid.empty · g) hpgrids
  refine ⟨_, hexec, (hcore c).trans hself, fun j hj => (hcore j).trans (hne j hj), fun x hx hroom => ?_, fun g hg hok hst hdisp hb hconf hreplay hall => ?_,
    fun g hg hok hst hwaits => ?_, fun g hg hok hkilled hconf hran hflag => ?_, fun g i hg hok hkilled hconf hran hflag => ?_⟩
  · rw [hpost x hx (by rw [hresults, hscans]; exact hroom), hresults, hscans]
  · rw [hend, if_pos hok]
    rw [← hgrid] at hst hdisp hconf hreplay hall
    exact State.passOk_confirms (hkey hg) hst hdisp (by rw [hbusy]; exact hb) hconf hreplay hall
  · rw [hend, if_pos hok]
    rw [← hgrid] at hst hwaits
    exact State.passOk_waits (hkey hg) hst hwaits
  · rw [hend, if_neg (by rw [hok]; decide)]
    rw [← hgrid] at hkilled hconf hran hflag
    exact State.passFail_kills (hkey hg) hkilled hconf hran hflag
  · rw [hend, if_neg (by rw [hok]; decide)]
    rw [← hgrid] at hkilled hconf hran hflag
    exact State.passFail_replays (hkey hg) hkilled hconf hran hflag

end Sys2Proof.Machine
end

section
/-! SUPPORT. The proofs of the scope: containment after a lost heartbeat (R380, R381, R439). -/

namespace Sys2Proof.Machine

/-- A virtual device that was contained stays so, and its pending vectors stay pending. -/
structure Vd.StaysContained (x y : Vd) : Prop where
  contained : x.contained = true → y.contained = true
  msix      : ∀ i, x.msix.getLsbD i = true → y.msix.getLsbD i = true

namespace Vd.StaysContained

theorem refl (x : Vd) : Vd.StaysContained x x := ⟨id, fun _ => id⟩

theorem trans {x y z : Vd} (h : Vd.StaysContained x y) (g : Vd.StaysContained y z) : Vd.StaysContained x z :=
  ⟨fun hx => g.contained (h.contained hx), fun i hi => g.msix i (h.msix i hi)⟩

theorem worked {x y : Vd} (h : Vd.Worked x y) : Vd.StaysContained x y := ⟨fun hx => (congrArg Vd.contained h.rest :).trans hx, h.msix⟩

end Vd.StaysContained

/-- Dead agents and cores, and contained virtual devices, are what they were. -/
structure Staying (s t : State) : Prop where
  agents : (t.dead, t.cores) = (s.dead, s.cores)
  vds    : ∀ v, Vd.StaysContained (s.vd v) (t.vd v)

namespace Staying

theorem refl (s : State) : Staying s s := ⟨rfl, fun _ => Vd.StaysContained.refl _⟩

theorem trans {s t u : State} (h : Staying s t) (g : Staying t u) : Staying s u := ⟨g.agents.trans h.agents, fun v => (h.vds v).trans (g.vds v)⟩

theorem foldl {β : Type} {g : State → β → State} (hg : ∀ t x, Staying t (g t x)) (l : List β) (s : State) : Staying s (l.foldl g s) :=
  foldl_inv (fun t => Staying s t) g (fun t x h => h.trans (hg t x)) l s (refl s)

variable {s t u : State} (h : Staying s t)
include h

/-- What changes none of these. -/
theorem same (heq : (u.dead, u.cores, u.vds) = (t.dead, t.cores, t.vds)) : Staying s u := by
  simp only [Prod.mk.injEq] at heq
  obtain ⟨hdead, hcores, hvds⟩ := heq
  refine h.trans ⟨Prod.ext hdead hcores, fun v => ?_⟩
  rw [show u.vd v = t.vd v from congrArg (tget Vd.empty · v) hvds]
  exact Vd.StaysContained.refl _

theorem modVd (vd : Nat) {g : Vd → Vd} (hg : ∀ x, Vd.StaysContained x (g x)) : Staying s (t.modVd vd g) := by
  refine h.trans ⟨rfl, fun v => ?_⟩
  by_cases hv : v = vd
  · subst hv
    rw [State.vd_modVd_self]
    exact hg _
  · rw [State.vd_modVd_ne _ _ _ _ hv]
    exact Vd.StaysContained.refl _

/-- A change of what a virtual device holds besides. -/
theorem countVd (vd : Nat) {g : Vd → Vd} (hg : ∀ x, ((g x).contained, (g x).msix) = (x.contained, x.msix)) : Staying s (t.modVd vd g) :=
  h.modVd vd (fun x => ⟨fun hx => (congrArg Prod.fst (hg x) :).trans hx, fun i hi => (congrArg (fun y => y.2.getLsbD i) (hg x) :).trans hi⟩)

theorem msix (vd n : Nat) : Staying s (t.msix vd n) := h.modVd vd (fun x => Vd.StaysContained.worked (Vd.Worked.vector x _))

theorem worked (hmem : MemWork t u) (hvds : VdsWork t u) : Staying s u :=
  h.trans ⟨Prod.ext (congrArg State.dead hmem.rest :) (congrArg State.cores hmem.rest :), fun v => Vd.StaysContained.worked (hvds.vd v)⟩

theorem ctrAdd {core vd : Nat} {a inc : W64} (hadd : t.ctrAdd core vd a inc = some u) : Staying s u :=
  h.worked ((MemWork.refl t).ctrAdd hadd) ((VdsWork.refl t).ctrAdd hadd)

theorem gridAdd (k : Nat) (a : W64) : Staying s (t.gridAdd k a) := by
  unfold State.gridAdd
  split
  · exact h
  · unfold State.ctrAddOrDrop
    split
    next u hu => exact h.ctrAdd hu
    · split
      · exact h.same rfl
      · exact h.countVd _ (fun _ => rfl)

theorem returnUnits (k : Nat) : Staying s (t.returnUnits k) := h.countVd _ (fun _ => rfl)

theorem settleGrid (k : Nat) : Staying s (t.settleGrid k) := by
  unfold State.settleGrid
  extract_lets g u v
  have hu : Staying s u := by
    unfold u
    split
    · exact h
    · exact (h.worked ((MemWork.refl t).flushGrid k) ((VdsWork.refl t).flushGrid k)).gridAdd k _
  have hset (w : State) (x : Grid) (hw : Staying s w) : Staying s (w.setGrid k x) := hw.same rfl
  have hv : Staying s v := hset u _ hu
  clear_value v
  split
  · exact h
  · split
    · exact hv
    · split
      · exact (hset v _ hv).gridAdd _ _
      · split
        · exact ((hset v _ hv).returnUnits k).gridAdd _ _
        · exact hv

theorem killCause (vd code lstatus id : Nat) : Staying s (t.killCause vd code lstatus id) := by
  unfold State.killCause
  split
  · refine Staying.msix (h.countVd vd ?_) vd 2
    exact fun _ => rfl
  · exact h

theorem release (w : Nat) (life : WgLife) : Staying s (t.release w life) :=
  (h.countVd (t.wg w).vd (g := fun v => { v with binds := v.binds - t.bindsOf w }) (fun _ => rfl)).same rfl

theorem killOne (w : Nat) : Staying s (t.killOne w) := by
  refine Staying.release ?_ w .killed
  unfold State.settleEnergy
  dsimp only
  split
  · exact h
  · exact h.countVd _ (fun _ => rfl)

theorem killGrid (k code lstatus : Nat) : Staying s (t.killGrid k code lstatus) := by
  by_cases hdone : (t.grid k).st = .killed ∨ (t.grid k).st = .confirmed
  · rw [show t.killGrid k code lstatus = t from if_pos (by simpa using hdone)]
    exact h
  · have hall : Staying s ((t.toKill k).foldl State.killOne t) := h.trans (foldl (fun u w => (refl u).killOne w) _ t)
    rw [t.killGrid_eq k code lstatus (fun h => hdone (.inl h)) (fun h => hdone (.inr h))]
    dsimp only
    generalize (t.toKill k).foldl State.killOne t = u at hall
    generalize (if (t.grid k).disp = true then 0 else k % 2 ^ 32) = id
    have hset : Staying s (u.setGrid k { t.grid k with st := .killed, cores := [], since := [], replay := [] }) := hall.same rfl
    split
    · exact hset.killCause _ _ _ _
    · exact ((hset.killCause _ _ _ _).returnUnits k).settleGrid k

end Staying

/-- What no end of a command undoes: besides, killed grids are killed. -/
structure Halting (s t : State) : Prop where
  stays  : Staying s t
  killed : ∀ g, (s.grid g).st = .killed → (t.grid g).st = .killed

namespace Halting

theorem refl (s : State) : Halting s s := ⟨Staying.refl s, fun _ => id⟩

theorem trans {s t u : State} (h : Halting s t) (g : Halting t u) : Halting s u := ⟨h.stays.trans g.stays, fun k hk => g.killed k (h.killed k hk)⟩

theorem foldl {β : Type} {g : State → β → State} (hg : ∀ t x, Halting t (g t x)) (l : List β) (s : State) : Halting s (l.foldl g s) :=
  foldl_inv (fun t => Halting s t) g (fun t x h => h.trans (hg t x)) l s (refl s)

variable {s t u : State} (h : Halting s t)
include h

/-- What changes no grid. -/
theorem still (hstays : Staying t u) (hgrids : u.grids = t.grids) : Halting s u := by
  refine h.trans ⟨hstays, fun g hg => ?_⟩
  rwa [show u.grid g = t.grid g from congrArg (tget Grid.empty · g) hgrids]

theorem same (heq : (u.dead, u.cores, u.vds, u.grids) = (t.dead, t.cores, t.vds, t.grids)) : Halting s u := by
  simp only [Prod.mk.injEq] at heq
  obtain ⟨hdead, hcores, hvds, hgrids⟩ := heq
  exact h.still ((Staying.refl t).same (by rw [hdead, hcores, hvds])) hgrids

theorem settleGrid (k : Nat) : Halting s (t.settleGrid k) := by
  refine h.trans ⟨(Staying.refl t).settleGrid k, fun g hg => ?_⟩
  by_cases hk : g = k
  · subst hk
    exact t.settleGrid_killed g hg
  · rwa [(t.settleGrid_turn k).others g hk]

theorem release (w : Nat) (life : WgLife) : Halting s (t.release w life) := h.still ((Staying.refl t).release w life) rfl

theorem ctrAdd {core vd : Nat} {a inc : W64} (hadd : t.ctrAdd core vd a inc = some u) : Halting s u :=
  h.still ((Staying.refl t).ctrAdd hadd) ((MemWork.refl t).ctrAdd hadd).grids

/-! Commands (R380). -/

theorem recordFault (w cause engine addr : Nat) : Halting s (t.recordFault w cause engine addr) := by
  unfold State.recordFault
  split
  · exact h.same rfl
  · exact h

theorem scratchAdd (w off inc : Nat) : Halting s (t.scratchAdd w off inc) := by
  unfold State.scratchAdd
  split
  · exact h
  · exact h.same rfl

theorem engAdd (c : Cmd) (inc : Nat) : Halting s (t.engAdd c inc) := by
  unfold State.engAdd
  split
  · exact h
  · split
    · exact h.scratchAdd _ _ _
    · split
      next u hu => exact h.ctrAdd hu
      · split
        · exact h.recordFault _ _ _ _
        · exact h.same rfl
        · exact h

theorem peerAdd (c : Cmd) (port inc : Nat) : Halting s (t.peerAdd c port inc) := by
  unfold State.peerAdd
  split
  · exact h
  · exact h.same rfl

theorem lateAdds (c : Cmd) (count : Nat) : Halting s (t.lateAdds c count) := by
  unfold State.lateAdds
  split
  · split
    · exact h
    · exact h.trans (foldl (fun u w => (refl u).scratchAdd _ _ _) _ t)
  · exact h.engAdd _ _
  · split
    · exact h.engAdd _ _
    · dsimp only
      split
      · exact (h.peerAdd _ _ _).engAdd _ _
      · exact h.engAdd _ _
  · exact h.engAdd _ _

theorem endSeal (vd va : Nat) : Halting s (t.endSeal vd va) := by
  unfold State.endSeal
  split
  · exact h
  · split
    · exact h
    · exact (h.still (u := t.modVd vd (fun v => { v with seals := v.seals.filter (fun y => y.va != va) }))
        ((Staying.refl t).countVd vd (fun _ => rfl)) rfl).same rfl

theorem finishCmd (id : Nat) : Halting s (t.finishCmd id) := by
  unfold State.finishCmd
  split
  · exact h
  next c _ =>
    extract_lets u v w
    have hu : Halting s u := h.same rfl
    have hv : Halting s v := by
      unfold v
      split
      · exact hu.release _ _
      · exact hu
    exact (hv.trans (foldl (fun x (y : Seal) => (refl x).endSeal c.vd y.va) _ v)).settleGrid _

theorem engFail (id : Nat) (c : Cmd) (cause addr count : Nat) : Halting s (t.engFail id c cause addr count) := by
  have hfault := h.recordFault c.wg cause c.engine addr
  unfold State.engFail
  extract_lets u die v
  have hv : Halting s v := by
    unfold v
    split
    · exact hfault.same rfl
    · exact hfault
  exact (hv.lateAdds c count).finishCmd id

end Halting

/-! A virtual device is contained (R439). -/

/-- What the containment of a virtual device keeps of all: besides, a grid is CONFIRMED after it only if it was before. -/
structure Containing (s t : State) : Prop where
  halts : Halting s t
  open_ : ∀ g, (s.grid g).st ≠ .confirmed → (t.grid g).st ≠ .confirmed

theorem Containing.trans {s t u : State} (h : Containing s t) (g : Containing t u) : Containing s u :=
  ⟨h.halts.trans g.halts, fun k hk => g.open_ k (h.open_ k hk)⟩

theorem Containing.refl (s : State) : Containing s s := ⟨Halting.refl s, fun _ => id⟩

theorem State.killGrid_containing (s : State) (k code lstatus : Nat) : Containing s (s.killGrid k code lstatus) := by
  have hturn := s.killGrid_turn k code lstatus
  refine ⟨⟨(Staying.refl s).killGrid k code lstatus, fun g hg => ?_⟩, fun g hg => ?_⟩
  · by_cases hk : g = k
    · subst hk
      exact s.killGrid_st g code lstatus (by rw [hg]; decide)
    · rwa [hturn.others g hk]
  · by_cases hk : g = k
    · subst hk
      rw [s.killGrid_st g code lstatus hg]
      decide
    · rwa [hturn.others g hk]

/-- The grids of a virtual device are killed for its containment. -/
def State.killForLoss (s : State) (k : Nat) : State := s.killGrid k (if (s.grid k).disp then 30 else 14) 0

theorem State.contain_eq (s : State) (vd : Nat) : s.contain vd =
    ((((s.grids.filter (fun e => e.1 / 2 ^ 32 = vd)).map (·.1)).foldl State.killForLoss s).modVd vd (fun v => { v with contained := true })).msix vd 1 := rfl

theorem State.contain_containing (s : State) (vd : Nat) : Containing s (s.contain vd) := by
  have hall : Containing s (((s.grids.filter (fun e => e.1 / 2 ^ 32 = vd)).map (·.1)).foldl State.killForLoss s) :=
    foldl_inv (Containing s) _ (fun t k ht => ht.trans (t.killGrid_containing k _ 0)) _ s (Containing.refl s)
  rw [s.contain_eq vd]
  generalize ((s.grids.filter (fun e => e.1 / 2 ^ 32 = vd)).map (·.1)).foldl State.killForLoss s = u at hall
  have hmark : Staying u ((u.modVd vd (fun v => { v with contained := true })).msix vd 1) :=
    Staying.msix ((Staying.refl u).modVd vd (g := fun v => { v with contained := true }) (fun _ => ⟨fun _ => rfl, fun _ => id⟩)) vd 1
  exact hall.trans ⟨(Halting.refl u).still hmark rfl, fun _ => id⟩

/-- A virtual device has halted: it is contained, with vector 1 pending, and of those of its grids that `live` picks each is killed. -/
structure Halted (v : Nat) (live : Nat → Prop) (t : State) : Prop where
  contained : (t.vd v).contained = true
  vector    : (t.vd v).msix.getLsbD 1 = true
  grids     : ∀ g, g / 2 ^ 32 = v → live g → (t.grid g).st = .killed

theorem Halted.keeps {v : Nat} {live : Nat → Prop} {s t : State} (h : Halted v live s) (g : Halting s t) : Halted v live t :=
  ⟨(g.stays.vds v).contained h.contained, (g.stays.vds v).msix 1 h.vector, fun k hk hl => g.killed k (h.grids k hk hl)⟩

/-- An unlisted grid counts as killed. -/
theorem State.grid_listed (s : State) {g : Nat} (h : (s.grid g).st ≠ .killed) : (g, s.grid g) ∈ s.grids := by
  unfold State.grid tget at h ⊢
  cases hf : tfind s.grids g with
  | none => rw [hf] at h; exact absurd rfl h
  | some x => exact tfind_mem _ _ _ hf

theorem State.contain_halted (s : State) (v : Nat) : Halted v (fun g => (s.grid g).st ≠ .confirmed) (s.contain v) := by
  have hgrids (g : Nat) (hv : g / 2 ^ 32 = v) (hopen : (s.grid g).st ≠ .confirmed) :
      ((((s.grids.filter (fun e => e.1 / 2 ^ 32 = v)).map (·.1)).foldl State.killForLoss s).grid g).st = .killed := by
    by_cases hkilled : (s.grid g).st = .killed
    · exact foldl_inv (fun t : State => (t.grid g).st = .killed) _ (fun t k ht => (t.killGrid_containing k _ 0).halts.killed g ht) _ s hkilled
    · have hmem : g ∈ (s.grids.filter (fun e => e.1 / 2 ^ 32 = v)).map (·.1) :=
        List.mem_map.2 ⟨_, List.mem_filter.2 ⟨s.grid_listed hkilled, by simpa using hv⟩, rfl⟩
      exact foldl_meets (fun t : State => (t.grid g).st ≠ .confirmed) (fun t => (t.grid g).st = .killed) _ hmem
        (fun t k _ ht => (t.killGrid_containing k _ 0).open_ g ht) (fun t ht => t.killGrid_st g _ 0 ht)
        (fun t k ht => (t.killGrid_containing k _ 0).halts.killed g ht) s hopen
  rw [s.contain_eq v]
  generalize ((s.grids.filter (fun e => e.1 / 2 ^ 32 = v)).map (·.1)).foldl State.killForLoss s = u at hgrids
  have hvd : (((u.modVd v (fun x => { x with contained := true })).msix v 1).vd v) =
      { u.vd v with contained := true, msix := (u.vd v).msix ||| BitVec.ofNat 5 (2 ^ 1) } := by
    unfold State.msix
    rw [State.vd_modVd_self, State.vd_modVd_self]
  refine ⟨by rw [hvd], ?_, hgrids⟩
  rw [hvd]
  show ((u.vd v).msix ||| BitVec.ofNat 5 (2 ^ 1)).getLsbD 1 = true
  rw [BitVec.getLsbD_or]
  simp

/-- Each virtual device of a list is contained. -/
def State.containAll (s : State) (l : List Nat) : State := l.foldl State.contain s

theorem State.containAll_halted (s : State) (l : List Nat) : Halting s (s.containAll l) ∧
    ∀ v ∈ l, Halted v (fun g => (s.grid g).st ≠ .confirmed) (s.containAll l) := by
  refine ⟨Halting.foldl (fun t v => (t.contain_containing v).halts) l s, fun v hv => ?_⟩
  refine foldl_meets (Containing s) (Halted v (fun g => (s.grid g).st ≠ .confirmed)) State.contain hv (fun t w _ ht => ht.trans (t.contain_containing w))
    (fun t ht => ?_) (fun t w ht => ht.keeps (t.contain_containing w).halts) s (Containing.refl s)
  obtain ⟨hcontained, hvector, hgrids⟩ := t.contain_halted v
  exact ⟨hcontained, hvector, fun g hg hopen => hgrids g hg (ht.open_ g hopen)⟩

theorem State.rehost_halting (s : State) (a : Agent) : Halting s (s.rehost a) :=
  Halting.foldl (fun t e => ((Halting.refl t).release (e.2.host.getD 0) .killed).same rfl) _ s

/-! HEARTBEAT_LOSS (R439). -/

/-- An agent has been declared dead, and a core is marked so. -/
def State.declare (s : State) (a : Agent) : State :=
  match a with
  | .core n => { s with dead := a :: s.dead }.modCore n (fun c => { c with dead := true })
  | _ => { s with dead := a :: s.dead }

/-- A command that the agent's loss leaves without its other side fails. -/
def State.failCmd (s : State) (id : Nat) : State :=
  match tfind s.cmds id with
  | some c => s.engFail id c 6 0 2
  | none => s

theorem State.failCmd_halting (s : State) (id : Nat) : Halting s (s.failCmd id) := by
  unfold State.failCmd
  split
  · exact (Halting.refl s).engFail _ _ _ _ _
  · exact Halting.refl s

/-- The virtual devices that need an agent. -/
def State.needers (s : State) (a : Agent) : List Nat := (s.vds.filter (fun e => e.2.enabled && s.needs a e.1)).map (·.1)

theorem exec_heartbeatLoss {s : State} {a : Agent} (h : a ∉ s.dead) : exec (.heartbeatLoss a) s =
    .next (((s.cmds.filter (fun e => s.cmdNeeds a e.2)).map (·.1)).foldl State.failCmd (((s.declare a).containAll (s.needers a)).rehost a)) := by
  show execHeartbeatLoss a s = _
  unfold execHeartbeatLoss
  rw [if_neg (by simpa using h)]
  cases a <;> rfl

theorem heartbeatLost : heartbeatRule := by
  intro s a held
  refine ⟨fun hdead => if_pos (by simpa using hdead), fun hlive => ⟨_, exec_heartbeatLoss hlive, ?_⟩⟩
  have hdeclared : (s.declare a).dead = a :: s.dead ∧ (s.declare a).grids = s.grids ∧ ∀ n, a = .core n → ((s.declare a).core n).dead = true := by
    cases a with
    | core n =>
      refine ⟨rfl, rfl, fun m hm => ?_⟩
      cases hm
      exact (congrArg Core.dead (State.core_modCore_self _ n (fun c => { c with dead := true })) :)
    | _ => exact ⟨rfl, rfl, fun _ h => nomatch h⟩
  obtain ⟨hdead, hgrids, hcore⟩ := hdeclared
  generalize s.declare a = u at hdead hgrids hcore
  obtain ⟨hall, hhalted⟩ := u.containAll_halted (s.needers a)
  have hlater : Halting (u.containAll (s.needers a))
      (((s.cmds.filter (fun e => s.cmdNeeds a e.2)).map (·.1)).foldl State.failCmd ((u.containAll (s.needers a)).rehost a)) :=
    (State.rehost_halting _ a).trans (Halting.foldl (fun t id => t.failCmd_halting id) _ _)
  generalize ((s.cmds.filter (fun e => s.cmdNeeds a e.2)).map (·.1)).foldl State.failCmd ((u.containAll (s.needers a)).rehost a) = t at hlater
  have hagents := (hall.trans hlater).stays.agents
  have hcores (n : Nat) : t.core n = u.core n := (congrArg (fun x => tget Core.empty x.2 n) hagents :)
  refine ⟨(congrArg Prod.fst hagents :).trans hdead, fun n hn => by rw [hcores]; exact hcore n hn, fun v hv hon hheld => ?_⟩
  have hneeds : v ∈ s.needers a := by
    refine List.mem_map.2 ⟨(v, s.vd v), List.mem_filter.2 ⟨tget_mem _ _ hv, ?_⟩, rfl⟩
    simp only [hon, Bool.true_and, State.needs, Bool.or_eq_true, List.any_eq_true, Bool.and_eq_true, decide_eq_true_eq]
    exact hheld.imp (fun ⟨e, he, hvd, hrun, hin⟩ => ⟨e, he, ⟨hvd, hrun⟩, hin⟩) (fun ⟨e, he, hvd, hneed⟩ => ⟨e, he, hvd, hneed⟩)
  obtain ⟨hcontained, hvector, hkilled⟩ := (hhalted v hneeds).keeps hlater
  exact ⟨hcontained, hvector, fun g hg hopen => hkilled g hg (by rw [show u.grid g = s.grid g from congrArg (tget Grid.empty · g) hgrids]; exact hopen)⟩

/-- Settles O48: a core's turn in the rotation (`State.rotateAll_drains`), a grid's turn when its core has passed or failed (`State.passOk_meets`,
`State.passFail_meets`), and what the ends that follow a containment do not undo (`Halting`). -/
theorem scansAndContainment : Obligations.ScansAndContainment := ⟨scansStart, scansEnd, heartbeatLost⟩

end Sys2Proof.Machine
end

section
/-! SUPPORT. The proofs of the scope: accesses of `.die` scope or wider where nothing else acts on memory (R258, R259, R272, R360). -/

namespace Sys2Proof.Machine

/-! Nothing but the access acts on memory. -/

/-- No update-only copy or drain is out, DRAM returns what was written, no line is in motion, and clusters hold no UNTRACKED copy. -/
structure Resting (s : State) : Prop where
  copies  : s.ucopies = []
  drains  : s.drains = []
  errors  : s.damask.err = []
  present : ∀ p, s.damask.lost p = false
  moves   : ∀ p, (s.damask.prov p).locked = false
  fresh   : NoOldCopies s

theorem Calm.resting {s : State} (h : Calm s) (hfresh : NoOldCopies s) : Resting s := ⟨h.copies, h.drains, h.errors, h.present, h.moves, hfresh⟩

/-- Copies and lines have moved between the caches of a state at rest, main memory holds `m`, and the rest is what it was. -/
structure Still (m : Tab Byte) (s t : State) : Prop where
  start : Resting s
  rest  : { t with mem := s.mem, fibres := s.fibres, l0 := s.l0, cc := s.cc, l2 := s.l2, msc := s.msc, pmsc := s.pmsc, parErr := s.parErr,
                   shadows := s.shadows } = s
  mem   : t.mem = m
  fresh : NoOldCopies t

namespace Still

theorem refl {s : State} (h : Resting s) : Still s.mem s s := ⟨h, rfl, rfl, h.fresh⟩

theorem resting {m : Tab Byte} {s t : State} (h : Still m s t) : Resting t := by
  have hdamask : t.damask = s.damask := (congrArg State.damask h.rest :)
  exact ⟨(congrArg State.ucopies h.rest :).trans h.start.copies, (congrArg State.drains h.rest :).trans h.start.drains, hdamask ▸ h.start.errors,
    hdamask ▸ h.start.present, hdamask ▸ h.start.moves, h.fresh⟩

theorem trans {m n : Tab Byte} {s t u : State} (h : Still m s t) (g : Still n t u) : Still n s u := by
  refine ⟨h.start, ?_, g.mem, g.fresh⟩
  have hrest := h.rest
  rw [← g.rest] at hrest
  exact hrest

variable {m : Tab Byte} {s t : State} (h : Still m s t)
include h

theorem putCc (k : Nat) {c : Line} (hc : c.fresh = true) : Still m s { t with cc := tput t.cc k c } := by
  refine ⟨h.start, h.rest, h.mem, fun e he => ?_⟩
  rcases mem_tput _ _ _ _ he with rfl | he
  · exact hc
  · exact h.fresh e he

theorem writeMem (a : Nat) (bs : List Byte) : Still (writeTab m a bs) s (t.writeMem a bs) :=
  ⟨h.start, h.rest, congrArg (fun x => writeTab x a bs) h.mem, h.fresh⟩

theorem pfHit (pf : Option Nat) (flight : Bool) : Still m s (t.pfHit pf flight) := by
  cases pf with
  | none => exact h
  | some k => exact ⟨h.start, h.rest, h.mem, h.fresh⟩

theorem dropShadows (pa n : Nat) : Still m s (t.dropShadows pa n) := by
  unfold State.dropShadows
  split
  · exact h
  · exact ⟨h.start, h.rest, h.mem, h.fresh⟩

theorem l0Update (core pa : Nat) (bs : List Byte) : Still m s (t.l0Update core pa bs) := by
  unfold State.l0Update
  split
  · split
    · exact h
    · exact ⟨h.start, h.rest, h.mem, h.fresh⟩
  · exact h

/-- DRAM returns the line. -/
theorem dramRead (line : Nat) : t.dramRead line = t := by
  have hr := h.resting
  unfold State.dramRead
  dsimp only
  rw [hr.present, if_neg (by decide), hr.errors]
  exact if_pos rfl

theorem l2Fill (vd line : Nat) : Still m s (t.l2Fill vd line none) := by
  unfold State.l2Fill
  split
  next x _ =>
    have hhit := h.pfHit x.pf x.flight
    exact ⟨h.start, hhit.rest, hhit.mem, hhit.fresh⟩
  · dsimp only
    split
    · exact ⟨h.start, h.rest, h.mem, h.fresh⟩
    · rw [h.dramRead]
      exact ⟨h.start, h.rest, h.mem, h.fresh⟩

theorem l2Dirty (vd line : Nat) : Still m s (t.l2Dirty vd line) := by
  have hfill := h.l2Fill vd line
  have hparity : Still m s ((t.l2Fill vd line none).parityUpdate line) := by
    unfold State.parityUpdate
    dsimp only
    split
    · exact ⟨h.start, hfill.rest, hfill.mem, hfill.fresh⟩
    · exact hfill
  unfold State.l2Dirty
  dsimp only
  split
  · exact ⟨h.start, hfill.rest, hfill.mem, hfill.fresh⟩
  · exact ⟨h.start, hparity.rest, hparity.mem, hparity.fresh⟩

/-- A copy that a cluster holds, or none, is one that hardware keeps fresh. -/
theorem held (k : Nat) : (tget Line.empty t.cc k).fresh = true := tget_all Line.empty t.cc (fun c => c.fresh = true) rfl h.fresh k

/-- A write-back of a fresh copy puts no bytes. -/
theorem writeBackSector (cluster line sec : Nat) : Still m s (t.writeBackSector cluster line sec) := by
  unfold State.writeBackSector
  split
  · exact h
  next x hx =>
    have hfresh : x.fresh = true := h.fresh _ (tfind_mem _ _ _ hx)
    split
    · exact (h.l2Dirty x.vd line).putCc _ hfresh
    · exact h

theorem writeBack (cluster line : Nat) : Still m s (t.writeBack cluster line) := (h.writeBackSector cluster line 0).writeBackSector cluster line 1

omit h in
theorem holdSector_fresh (c : Line) (hc : c.fresh = true) (u : State) (line sec : Nat) : (u.holdSector c line sec).fresh = true := by
  unfold State.holdSector
  rw [if_pos hc]
  exact hc

theorem touchFresh (w : Who) (line sec attr : Nat) : Still m s (t.touchFresh w line sec attr) := by
  have hheld := h.held (hkey (clusterOf w.core) line)
  unfold State.touchFresh
  extract_lets cl c z hit u c' z'
  have hc' : c'.fresh = true := holdSector_fresh c hheld u line sec
  have hu : Still m s u := by
    unfold u
    split
    · exact h.pfHit _ _
    · split
      · exact h.pfHit _ _
      · exact (h.pfHit _ _).l2Fill _ _
  have hput := hu.putCc (hkey cl line) (c := { c' with sealedCopy := decide (attr = 2) }) hc'
  exact ⟨h.start, hput.rest, hput.mem, hput.fresh⟩

theorem writeFresh (w : Who) (pa : Nat) (bs : List Byte) : Still (writeTab m pa bs) s (t.writeFresh w pa bs) := by
  have hheld := h.held (hkey (clusterOf w.core) (pa / 64))
  unfold State.writeFresh
  extract_lets line sec cl c u v c' c''
  have hc' : c'.fresh = true := holdSector_fresh c hheld v line sec
  have hv : Still m s v := by
    unfold v
    split
    · exact h.pfHit _ _
    · exact (h.pfHit _ _).l2Fill _ _
  exact (hv.writeMem pa bs).putCc _ hc'

theorem writeWide (w : Who) (pa : Nat) (bs : List Byte) : Still (writeTab m pa bs) s (t.writeWide w pa bs) := by
  have hwrite := ((h.writeBack (clusterOf w.core) (pa / 64)).l2Dirty w.vd (pa / 64)).writeMem pa bs
  unfold State.writeWide
  extract_lets line cl u v
  have hu : Still (writeTab m pa bs) s u := hwrite
  refine Still.l0Update ?_ w.core pa bs
  unfold v
  split
  next c hc =>
    rw [if_pos (hu.fresh _ (tfind_mem _ _ _ hc))]
    exact hu
  · exact hu

omit h in
theorem combine (h : Resting t) (line : Nat) : t.combine line = t := if_pos (by rw [h.copies, h.drains]; rfl)

omit h in
theorem meetLine (h : Resting t) (vd pa n : Nat) : t.meetLine vd pa n = t := by
  refine if_neg ?_
  have hnone : t.damask.lockedLine (pa / 64 / 2 ^ 22) = none := by
    unfold Damask.lockedLine
    dsimp only
    rw [h.moves]
    rfl
  unfold Damask.isLocked
  rw [hnone]
  exact Bool.false_ne_true

end Still

/-! Reads and writes of pieces. -/

section
variable {s : State} (h : Resting s) (w : Who) (hscope : 4 ≤ w.scope)
include h hscope

/-- A read of device memory at the line's home. -/
theorem State.readLoc_dev (pa attr n : Nat) (b : Bool) : (s.readLoc w (.dev pa attr b) n).1 = readTab s.mem pa n ∧ Still s.mem s (s.readLoc w (.dev pa attr b) n).2 := by
  have hs := Still.refl h
  unfold State.readLoc
  dsimp only
  rw [Still.combine h]
  split
  · have hread : Still s.mem s (s.readFresh w (pa / 64) (sectorBit pa) attr) := by
      unfold State.readFresh
      rw [if_pos hscope]
      exact (hs.writeBack _ _).touchFresh _ _ _ _
    exact ⟨congrArg (readTab · pa n) hread.mem, hread⟩
  · have hread := (hs.writeBack (clusterOf w.core) (pa / 64)).l2Fill w.vd (pa / 64)
    exact ⟨congrArg (readTab · pa n) hread.mem, hread⟩

theorem State.writeLoc_dev (pa attr : Nat) (b : Bool) (bs : List Byte) : Still (writeTab s.mem pa bs) s (s.writeLoc w (.dev pa attr b) bs) := by
  have hs := (Still.refl h).dropShadows pa bs.length
  unfold State.writeLoc
  dsimp only
  rw [Still.combine h]
  split
  · exact hs.writeFresh _ _ _
  · exact hs.writeWide _ _ _

end

/-! Bytes put at a location. -/

theorem tget_writeTab_if (m : Tab Byte) (a : Nat) (bs : List Byte) (x : Nat) :
    tget memDefault (writeTab m a bs) x = if a ≤ x ∧ x < a + bs.length then bs.getD (x - a) 0 else tget memDefault m x := by
  split
  next h => exact tget_writeTab_covered m (a, bs) x h
  next h => exact tget_writeTab_uncovered m (a, bs) x h

/-- Where a location begins: its space, and the address in it. -/
def Loc.place (l : Loc) : Spot :=
  match l with
  | .dev pa _ _ => (0, pa) | .scr o => (1, o) | .ob o => (2, o) | .host a => (3, a) | .peer p a => (4, hkey p a)

theorem Loc.spot_eq (l : Loc) (i : Nat) : l.spot i = (l.place.1, l.place.2 + i) := by cases l <;> rfl

theorem Bytes.put_eq (m : Bytes) (l : Loc) (bs : List Byte) (x : Spot) :
    m.put l bs x = if x.1 = l.place.1 ∧ l.place.2 ≤ x.2 ∧ x.2 < l.place.2 + bs.length then bs.getD (x.2 - l.place.2) 0 else m x := by
  unfold Bytes.put
  cases hfind : (List.range bs.length).find? (fun i => l.spot i = x) with
  | some i =>
    have hspot : l.spot i = x := by simpa using List.find?_some hfind
    have hi : i < bs.length := List.mem_range.1 (List.mem_of_find?_eq_some hfind)
    rw [l.spot_eq i] at hspot
    subst hspot
    simp [hi]
  | none =>
    refine (if_neg (fun ⟨hspace, hlo, hhi⟩ => ?_)).symm
    have hmiss := List.find?_eq_none.1 hfind (x.2 - l.place.2) (List.mem_range.2 (by omega))
    rw [l.spot_eq, Nat.add_sub_cancel' hlo, ← hspace] at hmiss
    exact hmiss (by simp)

/-- The device itself, at `.sys` scope, for a context. -/
def Who.sys (core vd : Nat) : Who := { core := core, wg := 0, vd := vd, scope := 7 }

theorem Who.sys_scope (core vd : Nat) : 4 ≤ (Who.sys core vd).scope := Nat.le_add_left 4 3

/-- An access reaches the homes of its pieces. -/
def State.meetPieces (s : State) (vd n : Nat) (ps : List Piece) : State :=
  ps.foldl (fun s p => p.locs.foldl (fun s l => match l with | .dev pa _ _ => s.meetLine vd pa n | _ => s) s) s

theorem State.putCtx_eq (s : State) (core vd : Nat) (ps : List Piece) (bs : List Byte) : s.putCtx core vd ps bs =
    ((s.meetPieces vd 0 ps).writePieces (Who.sys core vd) ps bs).clearPoison (Who.sys core vd) (coverage ps) := rfl

theorem State.ctrAdd_some {s : State} {core vd : Nat} {a : W64} {ps : List Piece} (inc : W64) (h : s.ctrAt core vd a = some ps) : s.ctrAdd core vd a inc =
    let r := (s.meetPieces vd 1 ps).ctrRead (Who.sys core vd) ps
    some (r.2.ctrWrite (Who.sys core vd) ps (satAdd r.1 inc)) := by
  unfold State.ctrAdd
  rw [h]
  rfl

theorem State.ctrAdd_none {s : State} {core vd : Nat} {a : W64} (inc : W64) (h : s.ctrAt core vd a = none) : s.ctrAdd core vd a inc = none := by
  unfold State.ctrAdd
  rw [h]

/-- Memory holds `b` as workgroup 0 finds it, at rest, and virtual devices are what they were. -/
structure Holds (s : State) (b : Bytes) (t : State) : Prop where
  bytes   : ∀ y : Spot, y.1 ≤ 4 → t.byteAt 0 y = b y
  vds     : t.vds = s.vds
  resting : Resting t

namespace Holds

theorem refl {s : State} (h : Resting s) : Holds s (s.byteAt 0) s := ⟨fun _ _ => rfl, rfl, h⟩

variable {s t : State} {b : Bytes} (h : Holds s b t)
include h

/-- What moves no byte. -/
theorem still {u : State} (g : Still t.mem t u) : Holds s b u := by
  have hbytes (y : Spot) : u.byteAt 0 y = t.byteAt 0 y := by
    have hwgs : u.wgs = t.wgs := (congrArg State.wgs g.rest :)
    have hhost : u.hostMem = t.hostMem := (congrArg State.hostMem g.rest :)
    have hpeer : u.peerMem = t.peerMem := (congrArg State.peerMem g.rest :)
    unfold State.byteAt State.wg
    rw [g.mem, hwgs, hhost, hpeer]
  exact ⟨fun y hy => (hbytes y).trans (h.bytes y hy), (congrArg State.vds g.rest :).trans h.vds, g.resting⟩

/-- A write of bytes at a location, through whatever caches. -/
theorem writeLoc (w : Who) (hwg : w.wg = 0) (hscope : 4 ≤ w.scope) (l : Loc) (bs : List Byte) : Holds s (b.put l bs) (t.writeLoc w l bs) := by
  have hput (y : Spot) (hy : y.1 ≤ 4) (hhit : y.1 = l.place.1 → (t.writeLoc w l bs).byteAt 0 y =
        if l.place.2 ≤ y.2 ∧ y.2 < l.place.2 + bs.length then bs.getD (y.2 - l.place.2) 0 else t.byteAt 0 y)
      (hmiss : y.1 ≠ l.place.1 → (t.writeLoc w l bs).byteAt 0 y = t.byteAt 0 y) : (t.writeLoc w l bs).byteAt 0 y = b.put l bs y := by
    rw [Bytes.put_eq]
    by_cases hspace : y.1 = l.place.1
    · rw [hhit hspace, h.bytes y hy]
      simp [hspace]
    · rw [hmiss hspace, h.bytes y hy, if_neg (fun hc => hspace hc.1)]
  have hrest (u : State) (hu : (u.ucopies, u.drains, u.damask, u.cc) = (t.ucopies, t.drains, t.damask, t.cc)) : Resting u := by
    simp only [Prod.mk.injEq] at hu
    obtain ⟨hcopies, hdrains, hdamask, hcc⟩ := hu
    obtain ⟨h1, h2, h3, h4, h5, h6⟩ := h.resting
    unfold NoOldCopies at h6
    exact ⟨hcopies ▸ h1, hdrains ▸ h2, hdamask ▸ h3, hdamask ▸ h4, hdamask ▸ h5, fun e he => h6 e (hcc ▸ he)⟩
  have hwg0 (g : Wg → Wg) : (t.modWg w.wg g).wg 0 = g (t.wg 0) := by rw [hwg]; exact State.wg_modWg_self _ _ _
  cases l with
  | dev pa attr sb =>
    have hstill := State.writeLoc_dev h.resting w hscope pa attr sb bs
    refine ⟨fun y hy => hput y hy (fun hspace => ?_) (fun hspace => ?_), (congrArg State.vds hstill.rest :).trans h.vds, hstill.resting⟩
    · obtain ⟨x, a⟩ := y
      obtain rfl : x = 0 := hspace
      show tget memDefault (t.writeLoc w (.dev pa attr sb) bs).mem a = _
      rw [hstill.mem]
      exact tget_writeTab_if _ _ _ _
    · have hwgs : (t.writeLoc w (.dev pa attr sb) bs).wgs = t.wgs := (congrArg State.wgs hstill.rest :)
      have hhost : (t.writeLoc w (.dev pa attr sb) bs).hostMem = t.hostMem := (congrArg State.hostMem hstill.rest :)
      have hpeer : (t.writeLoc w (.dev pa attr sb) bs).peerMem = t.peerMem := (congrArg State.peerMem hstill.rest :)
      obtain ⟨x, a⟩ := y
      unfold State.byteAt State.wg
      rw [hwgs, hhost, hpeer]
      match x, hspace with
      | 0, hspace => exact absurd rfl hspace
      | 1, _ | 2, _ | 3, _ | n + 4, _ => rfl
  | host a =>
    refine ⟨fun y hy => hput y hy (fun hspace => ?_) (fun hspace => ?_), h.vds, hrest _ rfl⟩
    · obtain ⟨x, c⟩ := y
      obtain rfl : x = 3 := hspace
      exact tget_writeTab_if _ _ _ _
    · obtain ⟨x, c⟩ := y
      match x, hspace with
      | 3, hspace => exact absurd rfl hspace
      | 0, _ | 1, _ | 2, _ | n + 4, _ => rfl
  | peer p a =>
    refine ⟨fun y hy => hput y hy (fun hspace => ?_) (fun hspace => ?_), h.vds, hrest _ rfl⟩
    · obtain ⟨x, c⟩ := y
      obtain rfl : x = 4 := hspace
      exact tget_writeTab_if _ _ _ _
    · obtain ⟨x, c⟩ := y
      match x, hy, hspace with
      | 4, _, hspace => exact absurd rfl hspace
      | 0, _, _ | 1, _, _ | 2, _, _ | 3, _, _ => rfl
  | scr o =>
    refine ⟨fun y hy => hput y hy (fun hspace => ?_) (fun hspace => ?_), h.vds, hrest _ rfl⟩
    · obtain ⟨x, c⟩ := y
      obtain rfl : x = 1 := hspace
      exact (congrArg (fun v : Wg => tget memDefault v.scratch c) (hwg0 _)).trans (tget_writeTab_if _ _ _ _)
    · obtain ⟨x, c⟩ := y
      match x, hspace with
      | 1, hspace => exact absurd rfl hspace
      | 2, _ => exact (congrArg (fun v : Wg => tget memDefault v.ob c) (hwg0 (fun x => { x with scratch := writeTab x.scratch o bs })) :)
      | 0, _ | 3, _ | n + 4, _ => rfl
  | ob o =>
    refine ⟨fun y hy => hput y hy (fun hspace => ?_) (fun hspace => ?_), h.vds, hrest _ rfl⟩
    · obtain ⟨x, c⟩ := y
      obtain rfl : x = 2 := hspace
      exact (congrArg (fun v : Wg => tget memDefault v.ob c) (hwg0 _)).trans (tget_writeTab_if _ _ _ _)
    · obtain ⟨x, c⟩ := y
      match x, hspace with
      | 2, hspace => exact absurd rfl hspace
      | 1, _ => exact (congrArg (fun v : Wg => tget memDefault v.scratch c) (hwg0 (fun x => { x with ob := writeTab x.ob o bs })) :)
      | 0, _ | 3, _ | n + 4, _ => rfl

omit h in
theorem writeLocs (h : Holds s b t) (w : Who) (hwg : w.wg = 0) (hscope : 4 ≤ w.scope) (ls : List Loc) (bs : List Byte) :
    Holds s (ls.foldl (fun m l => m.put l bs) b) (ls.foldl (fun u l => u.writeLoc w l bs) t) := by
  induction ls generalizing b t with
  | nil => exact h
  | cons l ls ih => exact ih (h.writeLoc w hwg hscope l bs)

omit h in
theorem writePieces (h : Holds s b t) (w : Who) (hwg : w.wg = 0) (hscope : 4 ≤ w.scope) (ps : List Piece) (bs : List Byte) :
    Holds s (b.putPieces (fun _ => true) ps bs) (t.writePieces w ps bs) := by
  induction ps generalizing b t bs with
  | nil => exact h
  | cons p ps ih =>
    unfold Bytes.putPieces State.writePieces
    rw [List.filter_true]
    exact ih (h.writeLocs w hwg hscope p.locs (bs.take p.len)) _

omit h in
theorem readPieces (h : Holds s b t) (w : Who) (hscope : 4 ≤ w.scope) (ps : List Piece) : Holds s b (t.readPieces w ps).2 := by
  induction ps generalizing t with
  | nil => exact h
  | cons p ps ih =>
    unfold State.readPieces
    split
    · exact ih h
    next l _ _ =>
      refine ih ?_
      cases l with
      | dev pa attr sb => exact h.still (State.readLoc_dev h.resting w hscope pa attr _ sb).2
      | _ => exact h

/-- No access waits for a move. -/
theorem meetPieces (vd : Nat) (n : Nat) (ps : List Piece) : t.meetPieces vd n ps = t := by
  unfold State.meetPieces
  refine List.foldlRecOn (motive := fun u : State => u = t) ps _ rfl (fun u hu p _ => ?_)
  refine List.foldlRecOn (motive := fun u : State => u = t) p.locs _ hu (fun u hu l _ => ?_)
  subst hu
  cases l with
  | dev pa attr sb => exact Still.meetLine h.resting vd pa n
  | _ => rfl

/-- The end of poison moves no byte. -/
theorem clearPoison (w : Who) (cov : List (Loc × Nat)) : Holds s b (t.clearPoison w cov) := by
  have hclean (u : State) (x : Nat) (hu : Holds s b u) : Holds s b (u.cleanCopies w x) := by
    have hs := Still.refl hu.resting
    unfold State.cleanCopies
    extract_lets line clean v
    have hv : Still u.mem u v := by
      unfold v
      split
      next c hc =>
        split
        · exact hs
        · exact hs.putCc _ (hs.fresh _ (tfind_mem _ _ _ hc))
      · exact hs
    clear_value v
    split
    · split
      · exact hu.still hv
      · exact hu.still ⟨hv.start, hv.rest, hv.mem, hv.fresh⟩
    · exact hu.still hv
  unfold State.clearPoison
  extract_lets full dev home u v x
  have hu : Holds s b u := by
    unfold u
    split
    · exact h
    · exact ⟨h.bytes, h.vds, ⟨h.resting.1, h.resting.2, h.resting.3, h.resting.4, h.resting.5, h.resting.6⟩⟩
  have hv : Holds s b v := by
    unfold v
    split
    · exact hu
    · exact foldl_inv (Holds s b) _ (fun t x ht => hclean t x ht) _ u hu
  clear_value u v
  split
  · exact hv
  · refine ⟨fun y hy => Eq.trans ?_ (hv.bytes y hy), hv.vds, ⟨hv.resting.1, hv.resting.2, hv.resting.3, hv.resting.4, hv.resting.5, hv.resting.6⟩⟩
    have hwg (z : Wg) (hz : (z.scratch, z.ob) = (x.scratch, x.ob)) : (((v.setWg w.wg z).wg 0).scratch, ((v.setWg w.wg z).wg 0).ob) = ((v.wg 0).scratch, (v.wg 0).ob) := by
      by_cases h0 : 0 = w.wg
      · rw [← h0, State.wg_setWg_self, hz, h0]
      · rw [State.wg_setWg_ne _ _ _ _ h0]
    have hsame := hwg { x with
      scratchBad := x.scratchBad.filter (fun e => !full (fun l => match l with | .scr o => some o | _ => none) e.1),
      obBad := x.obBad.filter (fun e => !cov.any (fun c => match c.1 with
        | .ob o => o ≤ e.1 && e.1 < o + c.2
        | _ => false)) } rfl
    simp only [Prod.mk.injEq] at hsame
    obtain ⟨hscratch, hob⟩ := hsame
    obtain ⟨z, a⟩ := y
    match z with
    | 1 => exact congrArg (tget memDefault · a) hscratch
    | 2 => exact congrArg (tget memDefault · a) hob
    | 0 | 3 | n + 4 => rfl

end Holds

/-! What the device writes for others, and counters. -/

theorem State.putCtx_holds {s : State} (h : Resting s) (core vd : Nat) (ps : List Piece) (bs : List Byte) :
    Holds s (Bytes.putPieces (fun _ => true) (s.byteAt 0) ps bs) (s.putCtx core vd ps bs) := by
  have hs := Holds.refl h
  rw [State.putCtx_eq, hs.meetPieces]
  exact (hs.writePieces (Who.sys core vd) rfl (Who.sys_scope _ _) ps bs).clearPoison _ _

theorem leNat_lt (bs : List Byte) : leNat bs < 256 ^ bs.length := by
  induction bs with
  | nil => exact Nat.one_pos
  | cons b bs ih =>
    have hb := b.isLt
    show b.toNat + 256 * leNat bs < 256 ^ (bs.length + 1)
    rw [Nat.pow_succ]
    omega

theorem satAdd_toNat (a b : W64) : (satAdd a b).toNat = min (a.toNat + b.toNat) (2 ^ 64 - 1) := by
  unfold satAdd
  split
  next h =>
    rw [BitVec.toNat_allOnes]
    omega
  next h =>
    rw [BitVec.toNat_add, Nat.mod_eq_of_lt (by omega)]
    omega

/-- An add to a counter in one page of device memory. -/
theorem State.ctrAdd_holds {s : State} (h : Resting s) {core vd pa attr : Nat} {a : W64} {sb : Bool} (inc : W64)
    (hat : s.ctrAt core vd a = some [{ len := 8, locs := [.dev pa attr sb] }]) :
    ∃ t, s.ctrAdd core vd a inc = some t ∧ Holds s (ctrAdded (s.byteAt 0) (.dev pa attr sb) inc.toNat) t := by
  have hs := Holds.refl h
  rw [State.ctrAdd_some inc hat, hs.meetPieces]
  refine ⟨_, rfl, ?_⟩
  have hread := hs.readPieces (Who.sys core vd) (Who.sys_scope _ _) [{ len := 8, locs := [.dev pa attr sb] }]
  have hwrite := hread.writePieces (Who.sys core vd) rfl (Who.sys_scope _ _) [{ len := 8, locs := [.dev pa attr sb] }]
    (leBytes 8 (satAdd (s.ctrRead (Who.sys core vd) [{ len := 8, locs := [.dev pa attr sb] }]).1 inc).toNat)
  have hvalue : (s.ctrRead (Who.sys core vd) [{ len := 8, locs := [.dev pa attr sb] }]).1 =
      BitVec.ofNat 64 (leNat (readTab s.mem pa 8)) := by
    have hloc := (State.readLoc_dev h (Who.sys core vd) (Who.sys_scope _ _) pa attr 8 sb).1
    show BitVec.ofNat 64 (leNat ((s.readLoc (Who.sys core vd) (.dev pa attr sb) 8).1 ++ [])) = _
    rw [List.append_nil, hloc]
  have hsmall : leNat (readTab s.mem pa 8) < 2 ^ 64 := by
    have hlt := leNat_lt (readTab s.mem pa 8)
    rwa [readTab_length] at hlt
  have hput : Bytes.putPieces (fun _ => true) (s.byteAt 0) [{ len := 8, locs := [.dev pa attr sb] }]
      (leBytes 8 (satAdd (s.ctrRead (Who.sys core vd) [{ len := 8, locs := [.dev pa attr sb] }]).1 inc).toNat) =
      ctrAdded (s.byteAt 0) (.dev pa attr sb) inc.toNat := by
    rw [hvalue, satAdd_toNat, BitVec.toNat_ofNat, Nat.mod_eq_of_lt hsmall, readTab_eq]
    show Bytes.put (s.byteAt 0) (.dev pa attr sb) ((leBytes 8 _).take 8) = _
    rw [List.take_of_length_le (by rw [leBytes_length])]
    rfl
  rw [hput] at hwrite
  exact hwrite

end Sys2Proof.Machine
end

section
/-! SUPPORT. The proofs of the scope: what the translation of an address depends on (R248, R298 to R303, R395, R460). -/

namespace Sys2Proof.Machine

/-! What a line holds once its update-only copies are combined (R395). -/

/-- Two states have the same main memory, with the same update-only copies, drains and shadows. -/
structure SameStore (s t : State) : Prop where
  mem     : t.mem = s.mem
  shadows : t.shadows = s.shadows
  drains  : t.drains = s.drains
  copies  : t.ucopies = s.ucopies

/-- One part of a drain is folded at the home. -/
def State.foldDrained (d : Drain) (s : State) (e : Nat × W64) : State := s.foldPart (64 * d.line + e.1) 0 d.ty e.2

/-- A drain is in flight no more, and words that waited for it may be able to complete. -/
def State.drained (s : State) (d : Drain) : State :=
  let s := { s with drains := s.drains.erase d }
  if s.drains.any (fun x => x.cluster = d.cluster && x.line = d.line) then s
  else { s with fibres := s.fibres.map (fun e => (e.1, { e.2 with pend := e.2.pend.map (fun p =>
    match p.kind with
    | .drain c ls => if c = d.cluster && ls.contains d.line then
        { p with kind := .drain c (ls.filter (fun l => l != d.line)), ready := ls.all (fun l => l = d.line) } else p
    | _ => p) })) }

theorem State.drained_store (s : State) (d : Drain) : SameStore { s with drains := s.drains.erase d } (s.drained d) := by
  unfold State.drained
  dsimp only
  split <;> exact ⟨rfl, rfl, rfl, rfl⟩

theorem State.foldDrain_eq (s : State) (d : Drain) : s.foldDrain d =
    let u := (d.parts.foldl (State.foldDrained d) s).drained d
    match tfind u.ucopies (hkey d.cluster d.line) with
    | none => u
    | some x => { u with ucopies := tput u.ucopies (hkey d.cluster d.line) { x with
        tracker := if x.parts.isEmpty then 0 else BitVec.ofNat 32 (f32.round 2 ((f32.value x.tracker.toNat).add false ((f32.value d.mag.toNat).negate))) } } := rfl

namespace SameStore

theorem refl (s : State) : SameStore s s := ⟨rfl, rfl, rfl, rfl⟩

theorem symm {s t : State} (h : SameStore s t) : SameStore t s := ⟨h.mem.symm, h.shadows.symm, h.drains.symm, h.copies.symm⟩

theorem trans {s t u : State} (h : SameStore s t) (g : SameStore t u) : SameStore s u :=
  ⟨g.mem.trans h.mem, g.shadows.trans h.shadows, g.drains.trans h.drains, g.copies.trans h.copies⟩

theorem foldl {β : Type} {f g : State → β → State} (hstep : ∀ s t x, SameStore s t → SameStore (f s x) (g t x)) (l : List β) {s t : State} (h : SameStore s t) :
    SameStore (l.foldl f s) (l.foldl g t) := by
  induction l generalizing s t with
  | nil => exact h
  | cons x l ih => exact ih (hstep s t x h)

/-! A line that becomes dirty in its slice moves no byte. -/

theorem setDamask {s t : State} (h : SameStore s t) (d : Damask) : SameStore s (t.setDamask d) := by
  have hset : SameStore s { t with damask := d } := h.trans ⟨rfl, rfl, rfl, rfl⟩
  unfold State.setDamask
  dsimp only
  split
  · exact hset.trans ⟨rfl, rfl, rfl, rfl⟩
  · exact hset

theorem dramRead {s t : State} (h : SameStore s t) (line : Nat) : SameStore s (t.dramRead line) := by
  have hpoison (u : State) (a b : Bool) (hu : SameStore s u) : SameStore s (u.poisonLine line a b) := hu.trans ⟨rfl, rfl, rfl, rfl⟩
  have hfail (e : W64) : SameStore s ((t.poisonLine line true true).logEvent e) := (hpoison t true true h).setDamask _
  unfold State.dramRead
  dsimp only
  split
  · split
    · exact h
    · exact hfail _
  · split
    · exact h
    · split
      · exact hpoison _ _ _ h
      · exact hpoison _ _ _ (h.setDamask _)
      · split
        · exact h
        · exact hfail _

theorem l2Dirty (t : State) (vd line : Nat) : SameStore t (t.l2Dirty vd line) := by
  have hhit (pf : Option Nat) (flight : Bool) : SameStore t (t.pfHit pf flight) := by cases pf <;> exact ⟨rfl, rfl, rfl, rfl⟩
  have hfill : SameStore t (t.l2Fill vd line none) := by
    unfold State.l2Fill
    split
    next x _ => exact (hhit x.pf x.flight).trans ⟨rfl, rfl, rfl, rfl⟩
    · dsimp only
      split
      · exact ⟨rfl, rfl, rfl, rfl⟩
      · exact ((refl t).dramRead line).trans ⟨rfl, rfl, rfl, rfl⟩
  have hparity (u : State) : SameStore u (u.parityUpdate line) := by
    unfold State.parityUpdate
    dsimp only
    split
    · exact ⟨rfl, rfl, rfl, rfl⟩
    · exact refl u
  unfold State.l2Dirty
  dsimp only
  split
  · exact hfill.trans ⟨rfl, rfl, rfl, rfl⟩
  · exact (hfill.trans (hparity _)).trans ⟨rfl, rfl, rfl, rfl⟩

/-! Folding at the home depends on main memory and what adds to it alone. -/

section
variable {s t : State} (h : SameStore s t)
include h

theorem elemAt (pa ty : Nat) : t.elemAt pa ty = s.elemAt pa ty := by unfold State.elemAt State.readMem; rw [h.mem]

theorem setElem (pa ty v : Nat) : SameStore (s.setElem pa ty v) (t.setElem pa ty v) :=
  ⟨congrArg (writeTab · pa _) h.mem, h.shadows, h.drains, h.copies⟩

theorem dropShadows (pa n : Nat) : SameStore (s.dropShadows pa n) (t.dropShadows pa n) := by
  unfold State.dropShadows
  rw [h.shadows]
  split
  · exact h
  · exact ⟨h.mem, rfl, h.drains, h.copies⟩

theorem shadowAdd (holder pa ty : Nat) (f : Fmt) (x : W32) : SameStore (s.shadowAdd holder pa ty f x) (t.shadowAdd holder pa ty f x) := by
  have hdrop := h.dropShadows pa (tyBytes ty)
  have hset := hdrop.setElem pa ty (f.round 0 (f32.value (add32 (match tfind s.shadows (skey holder pa ty) with
    | some b => b
    | none => rne32 (f.value (s.elemAt pa ty))) x).toNat))
  unfold State.shadowAdd
  rw [h.elemAt, h.shadows]
  exact ⟨hset.mem, congrArg (tput · _ _) hdrop.shadows, hset.drains, hset.copies⟩

theorem updateElem (holder pa aop ty x : Nat) : SameStore (s.updateElem holder pa aop ty x) (t.updateElem holder pa aop ty x) := by
  have hset (v : Nat) := (h.dropShadows pa (tyBytes ty)).setElem pa ty v
  unfold State.updateElem
  rw [h.elemAt]
  split
  · split
    · exact h.shadowAdd _ _ _ _ _
    · exact hset _
  · exact hset _

theorem foldPart (pa aop ty : Nat) (v : W64) : SameStore (s.foldPart pa aop ty v) (t.foldPart pa aop ty v) := by
  unfold State.foldPart
  rw [h.elemAt]
  split
  · exact h.setElem _ _ _
  · split
    · exact h.shadowAdd _ _ _ _ _
    · exact h.updateElem _ _ _ _ _

theorem foldSector (line sec : Nat) (tag : Option (Nat × Nat)) (parts : Tab W64) : SameStore (s.foldSector line sec tag parts) (t.foldSector line sec tag parts) := by
  unfold State.foldSector
  split
  · exact h
  · refine foldl (fun a b e hab => ?_) parts h
    split
    · exact hab.foldPart _ _ _ _
    · exact hab

theorem foldDrain (d : Drain) : SameStore (s.foldDrain d) (t.foldDrain d) := by
  have hparts : SameStore (d.parts.foldl (State.foldDrained d) s) (d.parts.foldl (State.foldDrained d) t) :=
    foldl (fun _ _ e hab => hab.foldPart (64 * d.line + e.1) 0 d.ty e.2) d.parts h
  rw [State.foldDrain_eq, State.foldDrain_eq]
  generalize d.parts.foldl (State.foldDrained d) s = u at hparts
  generalize d.parts.foldl (State.foldDrained d) t = v at hparts
  have herase : SameStore { u with drains := u.drains.erase d } { v with drains := v.drains.erase d } :=
    ⟨hparts.mem, hparts.shadows, congrArg (List.erase · d) hparts.drains, hparts.copies⟩
  have hended : SameStore (u.drained d) (v.drained d) := ((u.drained_store d).symm.trans herase).trans (v.drained_store d)
  dsimp only
  rw [hended.copies]
  split
  · exact hended
  · exact ⟨hended.mem, hended.shadows, hended.drains, rfl⟩

theorem drainU (cluster line : Nat) : SameStore (s.drainU cluster line) (t.drainU cluster line) := by
  have hdirty (vd vd' : Nat) : SameStore (s.l2Dirty vd line) (t.l2Dirty vd' line) := ((l2Dirty s vd line).symm.trans h).trans (l2Dirty t vd' line)
  unfold State.drainU
  rw [h.copies]
  split
  · exact h
  next u _ =>
    have hfold := ((hdirty (match tfind s.l2 line with | some x => x.vd | none => 0) (match tfind t.l2 line with | some x => x.vd | none => 0)).foldSector line 0
      u.tag0 u.parts).foldSector line 1 u.tag1 u.parts
    exact ⟨hfold.mem, hfold.shadows, hfold.drains, congrArg (tdel · _) hfold.copies⟩

theorem combine (line : Nat) : SameStore (s.combine line) (t.combine line) := by
  have hdrains (ds : List Drain) : SameStore (ds.foldl State.foldDrain s) (ds.foldl State.foldDrain t) := foldl (fun _ _ d hab => hab.foldDrain d) ds h
  have hcopies (u v : State) (us : Tab UCopy) (huv : SameStore u v) :
      SameStore (us.foldl (fun s e => s.drainU (e.1 / 2 ^ 52) line) u) (us.foldl (fun s e => s.drainU (e.1 / 2 ^ 52) line) v) :=
    foldl (fun _ _ e hab => hab.drainU (e.1 / 2 ^ 52) line) us huv
  unfold State.combine
  rw [h.drains, h.copies]
  split
  · exact h
  · have hfold := hdrains (s.drains.filter (fun d => d.line = line))
    dsimp only
    rw [show (List.foldl (fun s d => s.foldDrain d) t (s.drains.filter (fun d => d.line = line))).ucopies =
      (List.foldl (fun s d => s.foldDrain d) s (s.drains.filter (fun d => d.line = line))).ucopies from hfold.copies]
    exact hcopies _ _ _ hfold

end

end SameStore

/-! The translation of an address. -/

/-- Two states translate alike: memory, what walks and TLBs hold, the home of main memory, dead agents, and of virtual devices what places their addresses. -/
structure SameXlate (s t : State) : Prop where
  store : SameStore s t
  rest  : (t.peerMem, t.tlb, t.walks, t.dead, t.damask, t.feature, t.firmMap) = (s.peerMem, s.tlb, s.walks, s.dead, s.damask, s.feature, s.firmMap)
  vds   : ∀ v, ((t.vd v).heapBase, (t.vd v).heapLimit, (t.vd v).heapOffset, (t.vd v).ptRoot, (t.vd v).cfg, (t.vd v).seals) =
    ((s.vd v).heapBase, (s.vd v).heapLimit, (s.vd v).heapOffset, (s.vd v).ptRoot, (s.vd v).cfg, (s.vd v).seals)

namespace SameXlate

variable {s t : State} (h : SameXlate s t)
include h

theorem fields : t.peerMem = s.peerMem ∧ t.tlb = s.tlb ∧ t.walks = s.walks ∧ t.dead = s.dead ∧ t.damask = s.damask ∧ t.feature = s.feature ∧
    t.firmMap = s.firmMap := by simpa only [Prod.mk.injEq] using h.rest

theorem vdFields (v : Nat) : (t.vd v).heapBase = (s.vd v).heapBase ∧ (t.vd v).heapLimit = (s.vd v).heapLimit ∧ (t.vd v).heapOffset = (s.vd v).heapOffset ∧
    (t.vd v).ptRoot = (s.vd v).ptRoot ∧ (t.vd v).cfg = (s.vd v).cfg ∧ (t.vd v).seals = (s.vd v).seals := by simpa only [Prod.mk.injEq] using h.vds v

theorem nodeEntry (peer a : Nat) : t.nodeEntry peer a = s.nodeEntry peer a := by
  unfold State.nodeEntry State.readMem
  rw [(h.store.combine (a / 64)).mem, h.fields.1]

theorem contigOk (peer node va : Nat) : t.contigOk peer node va = s.contigOk peer node va := by
  unfold State.contigOk
  simp only [h.nodeEntry]

theorem replicas (a : Nat) : t.replicas a = s.replicas a := by
  unfold State.replicas
  simp only [h.nodeEntry]

theorem owned (vd pa : Nat) : t.owned vd pa = s.owned vd pa := by
  obtain ⟨-, -, -, -, hdamask, -⟩ := h.fields
  obtain ⟨-, -, -, -, hcfg, -⟩ := h.vdFields vd
  unfold State.owned
  rw [hdamask, hcfg]

theorem frameOwned (vd pa size : Nat) : t.frameOwned vd pa size = s.frameOwned vd pa size := by
  unfold State.frameOwned
  simp only [h.owned]

theorem walkFrom (vd va level peer node : Nat) : t.walkFrom vd va level peer node = s.walkFrom vd va level peer node := by
  obtain ⟨-, -, -, hdead, -⟩ := h.fields
  obtain ⟨-, -, -, -, hcfg, -⟩ := h.vdFields vd
  induction level generalizing peer node with
  | zero =>
    have hzero (u : State) : u.walkFrom vd va 0 peer node = .error (.fault .protection) := rfl
    rw [hzero, hzero]
  | succ level ih =>
    rw [State.walkFrom_succ, State.walkFrom_succ]
    simp only [hcfg, hdead, h.nodeEntry, h.contigOk, h.replicas, h.frameOwned, ih]

theorem walk (core vd va : Nat) : t.walk core vd va = s.walk core vd va := by
  obtain ⟨-, -, hwalks, -, -, hfeature, -⟩ := h.fields
  obtain ⟨-, -, -, hroot, -⟩ := h.vdFields vd
  have hdie (c : Nat) : t.dieOf c = s.dieOf c := by unfold State.dieOf State.isA; rw [hfeature]
  have hstart : t.walkStart core vd va = s.walkStart core vd va := by
    unfold State.walkStart
    rw [hwalks, hroot, hdie]
  unfold State.walk
  rw [hstart]
  exact h.walkFrom _ _ _ _ _

theorem xlate (core vd va : Nat) : t.xlate core vd va = s.xlate core vd va := by
  obtain ⟨-, htlb, -, -, -, hfeature, hfirm⟩ := h.fields
  obtain ⟨hbase, hlimit, hoffset, -⟩ := h.vdFields vd
  have hcount : t.coreCount = s.coreCount := by unfold State.coreCount; rw [hfeature]
  have hfirmware : t.firmXlate va = s.firmXlate va := by unfold State.firmXlate; rw [hfirm]
  have hheap : t.inHeap vd va = s.inHeap vd va := by unfold State.inHeap; dsimp only; rw [hbase, hlimit]
  have htlbOwned (x : Tlbe) : t.tlbOwned vd x = s.tlbOwned vd x := by
    unfold State.tlbOwned
    simp only [h.frameOwned]
  have hpaged : t.paged core vd va = s.paged core vd va := by
    unfold State.paged
    simp only [htlb, htlbOwned, h.walk]
  unfold State.xlate
  rw [hcount, hfirmware, hheap, hpaged, hbase, hoffset]
  simp only [h.owned]

theorem globalPiece (core vd : Nat) (ak : AK) (va len : Nat) : t.globalPiece core vd ak va len = s.globalPiece core vd ak va len := by
  obtain ⟨-, -, -, hdead, hdamask, -⟩ := h.fields
  obtain ⟨-, -, -, -, hcfg, hseals⟩ := h.vdFields vd
  have hseal : t.sealOf vd va = s.sealOf vd va := by unfold State.sealOf; rw [hseals]
  have hloc (l : Loc) : t.deadLoc vd l = s.deadLoc vd l := by
    unfold State.deadLoc
    rw [hdead, hdamask]
  unfold State.globalPiece
  rw [h.xlate, hseal]
  simp only [hloc, hcfg]

theorem pieces (core vd : Nat) (ak : AK) (a n : Nat) : ctxPieces t core vd ak a n = ctxPieces s core vd ak a n := by
  unfold ctxPieces
  simp only [h.globalPiece]

theorem ctrAt (core vd : Nat) (a : W64) : t.ctrAt core vd a = s.ctrAt core vd a := by
  unfold State.ctrAt
  rw [h.globalPiece]

theorem ctrWaits (core vd : Nat) (a : W64) : t.ctrWaits core vd a = s.ctrWaits core vd a := by
  unfold State.ctrWaits
  rw [h.globalPiece]

end SameXlate

end Sys2Proof.Machine
end

section
/-! SUPPORT. The proofs of the scope: the counter-add window (R121, R455). -/

namespace Sys2Proof.Machine

theorem State.modVd_vdOnly (s : State) (v : Nat) (g : Vd → Vd) : vdOnly s v (g (s.vd v)) (s.modVd v g) :=
  ⟨rfl, State.vd_modVd_self _ _ _, fun _ hj => State.vd_modVd_ne _ _ _ _ hj⟩

theorem vdOnly.trans {s t u : State} {v : Nat} {x y : Vd} (h : vdOnly s v x t) (g : vdOnly t v y u) : vdOnly s v y u := by
  obtain ⟨hrest, -, hothers⟩ := h
  obtain ⟨grest, gvd, gothers⟩ := g
  refine ⟨?_, gvd, fun j hj => (gothers j hj).trans (hothers j hj)⟩
  rw [← grest] at hrest
  exact hrest

/-! What a write of BAR0 does. -/

section
variable {s : State} {vd off size : Nat} (v : W64)

theorem State.mmioWrite_outside (h : (s.vd vd).enabled = false ∨ 0x1000 ≤ off) : s.mmioWrite vd off size v = s := if_pos (by simpa using h)

variable (hon : (s.vd vd).enabled = true) (hin : off < 0x1000)
include hon hin

theorem State.mmioWrite_inside : s.mmioWrite vd off size v = if size = 8 && off % 16 = 0 then s.slotAddr vd (off / 16) v
    else if size = 8 && off % 16 = 8 then s.slotAdd vd (off / 16) v else s.dropAdd vd := if_neg (by simp [hon, hin])

theorem State.mmioWrite_addr (hsize : size = 8) (hoff : off % 16 = 0) : s.mmioWrite vd off size v = s.slotAddr vd (off / 16) v := by
  rw [State.mmioWrite_inside v hon hin, if_pos (by simp [hsize, hoff])]

theorem State.mmioWrite_add (hsize : size = 8) (hoff : off % 16 = 8) : s.mmioWrite vd off size v = s.slotAdd vd (off / 16) v := by
  rw [State.mmioWrite_inside v hon hin, if_neg (by simp [hoff]), if_pos (by simp [hsize, hoff])]

theorem State.mmioWrite_other (h : size ≠ 8 ∨ (off % 16 ≠ 0 ∧ off % 16 ≠ 8)) : s.mmioWrite vd off size v = s.dropAdd vd := by
  have hneither : ¬ (size = 8 && decide (off % 16 = 0)) = true ∧ ¬ (size = 8 && decide (off % 16 = 8)) = true := by
    simp only [Bool.and_eq_true, decide_eq_true_eq]
    omega
  rw [State.mmioWrite_inside v hon hin, if_neg hneither.1, if_neg hneither.2]

end

/-! An add by a slot. -/

/-- The walk of a counter that waits names no counter yet. -/
theorem State.ctrWaits_ctrAt {s : State} {core vd : Nat} {a : W64} (h : s.ctrWaits core vd a = true) : s.ctrAt core vd a = none := by
  unfold State.ctrWaits at h
  unfold State.ctrAt
  obtain ⟨halign, hmig⟩ := Bool.and_eq_true_iff.1 h
  rw [if_neg (by simpa using halign)]
  cases hpiece : s.globalPiece core vd .wr a.toNat 8 with
  | error e => rfl
  | ok p => simp [hpiece] at hmig

/-- With no add that can be made, one is dropped, or waits. -/
theorem State.ctrAddOrDrop_none {s : State} {core vd : Nat} {a : W64} (inc : W64) (h : s.ctrAt core vd a = none) : s.ctrAddOrDrop core vd a inc =
    if s.ctrWaits core vd a then { s with waitAdds := s.waitAdds ++ [⟨core, vd, a, inc⟩] } else s.dropAdd vd := by
  unfold State.ctrAddOrDrop
  rw [State.ctrAdd_none inc h]
  rfl

theorem State.ctrAddOrDrop_some {s t : State} {core vd : Nat} {a inc : W64} (h : s.ctrAdd core vd a inc = some t) : s.ctrAddOrDrop core vd a inc = t := by
  unfold State.ctrAddOrDrop
  rw [h]

/-- Where no command of the virtual device is with the host, DONE has not advanced. -/
theorem State.fallbackDone_none {s : State} {vd : Nat} (h : ∀ e ∈ s.cmds, e.2.vd = vd → e.2.st ≠ .host) : s.fallbackDone vd = s := by
  have hany : s.cmds.any (fun e => e.2.vd = vd && e.2.st = .host) = false := by
    rw [List.any_eq_false]
    intro e he
    simpa using h e he
  unfold State.fallbackDone
  rw [hany]
  rfl

section
variable {s : State} {vd slot : Nat} {v a : W64} (ha : tget 0 (s.vd vd).slots slot = a)
include ha

theorem State.slotAdd_drops (h : v = 0 ∨ 2 ^ 36 ≤ v.toNat ∨ a = 0 ∨ (s.ctrAt 0 vd a = none ∧ s.ctrWaits 0 vd a = false)) : s.slotAdd vd slot v = s.dropAdd vd := by
  subst ha
  unfold State.slotAdd
  dsimp only
  split
  · rfl
  next hgood =>
    obtain ⟨hnone, hwaits⟩ : s.ctrAt 0 vd (tget 0 (s.vd vd).slots slot) = none ∧ s.ctrWaits 0 vd (tget 0 (s.vd vd).slots slot) = false := by
      simp only [Bool.or_eq_true, decide_eq_true_eq, not_or] at hgood
      obtain ⟨⟨hv, hsmall⟩, hname⟩ := hgood
      exact ((h.resolve_left hv).resolve_left hsmall).resolve_left hname
    rw [State.ctrAdd_none v hnone, State.ctrAddOrDrop_none v hnone, hwaits]
    rfl

variable (hv : v ≠ 0) (hsmall : v.toNat < 2 ^ 36) (hname : a ≠ 0)
include hv hsmall hname

theorem State.slotAdd_good : s.slotAdd vd slot v = match s.ctrAdd 0 vd a v with
    | some t => t.fallbackDone vd
    | none => s.ctrAddOrDrop 0 vd a v := by
  subst ha
  unfold State.slotAdd
  dsimp only
  have hgood : ¬ (decide (v = 0) || decide (2 ^ 36 ≤ v.toNat) || decide (tget 0 (s.vd vd).slots slot = 0)) = true := by
    rw [decide_eq_false hv, decide_eq_false (Nat.not_le.2 hsmall), decide_eq_false hname]
    decide
  exact if_neg hgood

theorem State.slotAdd_waits (h : s.ctrWaits 0 vd a = true) : s.slotAdd vd slot v = { s with waitAdds := s.waitAdds ++ [⟨0, vd, a, v⟩] } := by
  have hnone := State.ctrWaits_ctrAt h
  rw [State.slotAdd_good ha hv hsmall hname, State.ctrAdd_none v hnone, State.ctrAddOrDrop_none v hnone, h]
  rfl

theorem State.slotAdd_adds (hr : Resting s) {pa attr : Nat} {b : Bool} (hat : s.ctrAt 0 vd a = some [{ len := 8, locs := [.dev pa attr b] }])
    (hhost : ∀ e ∈ s.cmds, e.2.vd = vd → e.2.st ≠ .host) : Holds s (ctrAdded (s.byteAt 0) (.dev pa attr b) v.toNat) (s.slotAdd vd slot v) := by
  obtain ⟨t, hadd, hholds⟩ := State.ctrAdd_holds hr v hat
  have hcmds : t.cmds = s.cmds := (congrArg State.cmds ((MemWork.refl s).ctrAdd hadd).rest :)
  have hdone : s.slotAdd vd slot v = t := by
    rw [State.slotAdd_good ha hv hsmall hname, hadd]
    exact State.fallbackDone_none (by rw [hcmds]; exact hhost)
  rwa [hdone]

end

/-- A slot's ADDR is written: addresses translate as before. -/
theorem State.slotAddr_sameXlate (s : State) (vd slot : Nat) (a : W64) : SameXlate s (s.slotAddr vd slot a) := by
  refine ⟨⟨rfl, rfl, rfl, rfl⟩, rfl, fun v => ?_⟩
  unfold State.slotAddr
  by_cases hv : v = vd
  · subst hv
    rw [State.vd_modVd_self]
  · rw [State.vd_modVd_ne _ _ _ _ hv]

theorem counterAddWindow : counterAddWindowRule := by
  refine ⟨fun s vd off size v i hi => ?_, fun s vd off addr inc => ?_, fun s vd => ⟨_, rfl, s.modVd_vdOnly vd _⟩⟩
  · have hexec : exec i s = .next (s.mmioWrite vd off size v) := by
      simp only [List.mem_cons, List.not_mem_nil, or_false] at hi
      rcases hi with rfl | rfl <;> rfl
    rw [hexec]
    refine ⟨fun hout => congrArg _ (State.mmioWrite_outside v hout), fun hon hin => ⟨fun hsize hoff => ⟨_, rfl, ?_⟩, fun hother => ⟨_, rfl, ?_⟩,
      fun hsize hoff hbad => ⟨_, rfl, ?_⟩, fun hsize hoff hv hsmall hname hwaits => ?_, fun pa at_ b hsize hoff hv hsmall hname hat hcalm hfresh hhost => ⟨_, rfl, ?_⟩⟩⟩
    · rw [State.mmioWrite_addr v hon hin hsize hoff]
      exact s.modVd_vdOnly vd _
    · rw [State.mmioWrite_other v hon hin hother]
      exact s.modVd_vdOnly vd _
    · rw [State.mmioWrite_add v hon hin hsize hoff, State.slotAdd_drops rfl hbad]
      exact s.modVd_vdOnly vd _
    · rw [State.mmioWrite_add v hon hin hsize hoff, State.slotAdd_waits rfl hv hsmall hname hwaits]
    · rw [State.mmioWrite_add v hon hin hsize hoff]
      have hadds := State.slotAdd_adds rfl hv hsmall hname (hcalm.resting hfresh) hat hhost
      exact ⟨hadds.bytes, congrArg (fun x => (tget Vd.empty x vd).drops) hadds.vds⟩
  · have hsame := s.slotAddr_sameXlate vd (off / 16) addr
    have hset : vdOnly s vd { s.vd vd with slots := tput (s.vd vd).slots (off / 16) addr } (s.slotAddr vd (off / 16) addr) := s.modVd_vdOnly vd _
    have hslot : tget 0 ((s.slotAddr vd (off / 16) addr).vd vd).slots (off / 16) = addr := by
      rw [hset.2.1]
      exact tget_tput_self _ _ _ _
    have hinside (hon : (s.vd vd).enabled = true) (hin : off < 0x1000) : exec (.counterAddSetAndAdd vd off addr inc) s =
        if off % 16 = 0 then .next ((s.slotAddr vd (off / 16) addr).slotAdd vd (off / 16) inc) else .next (s.dropAdd vd) := if_neg (by simp [hon, hin])
    refine ⟨fun hout => if_pos (by simpa using hout), fun hon hin => ?_⟩
    rw [hinside hon hin]
    refine ⟨fun hoff => ⟨_, if_neg hoff, s.modVd_vdOnly vd _⟩, fun hoff hbad => ⟨_, if_pos hoff, ?_⟩,
      fun pa at_ b hoff hv hsmall hname hat hcalm hfresh hhost => ⟨_, if_pos hoff, ?_⟩⟩
    · rw [State.slotAdd_drops hslot (by rw [hsame.ctrAt, hsame.ctrWaits]; exact hbad)]
      have hdrop := (s.slotAddr vd (off / 16) addr).modVd_vdOnly vd (fun x => { x with drops := x.drops + 1 })
      rw [hset.2.1] at hdrop
      exact vdOnly.trans hset hdrop
    · obtain ⟨h1, h2, h3, h4, h5, h6⟩ := hcalm.resting hfresh
      have hadds := State.slotAdd_adds hslot hv hsmall hname ⟨h1, h2, h3, h4, h5, h6⟩ (by rw [hsame.ctrAt]; exact hat) hhost
      exact ⟨hadds.bytes, (congrArg (fun x => tget 0 (tget Vd.empty x vd).slots (off / 16)) hadds.vds).trans hslot⟩

end Sys2Proof.Machine
end

section
/-! SUPPORT. The proofs of the scope: accesses of the host and of the network (R421, R461). -/

namespace Sys2Proof.Machine

section
variable {s : State} {core vd a : Nat} {bs : List Byte}

theorem State.ctxWrite_ok {ps : List Piece} (h : ctxPieces s core vd .wr a bs.length = .ok ps) : s.ctxWrite core vd a bs = some (s.putCtx core vd ps bs) := by
  unfold ctxPieces at h
  unfold State.ctxWrite
  rw [h]

theorem State.ctxWrite_error {e : XErr} (h : ctxPieces s core vd .wr a bs.length = .error e) : s.ctxWrite core vd a bs = none := by
  unfold ctxPieces at h
  unfold State.ctxWrite
  rw [h]

end

/-- A completion that names no counter adds nothing. -/
theorem State.rdmaDone_zero (s : State) (vd n : Nat) : s.rdmaDone vd 0 n = s := if_pos rfl

theorem State.rdmaDone_memWork (s : State) (vd ctr n : Nat) : MemWork s (s.rdmaDone vd ctr n) := by
  unfold State.rdmaDone
  split
  · exact MemWork.refl s
  · exact (MemWork.refl s).ctrAddOrDrop _ _ _ _

/-- A completion adds the bytes moved to the counter that it names. -/
theorem State.rdmaDone_adds {s : State} (h : Resting s) {vd ctr n pa attr : Nat} {b : Bool} (hctr : ctr ≠ 0) (hn : n < 2 ^ 64)
    (hat : s.ctrAt 0 vd (BitVec.ofNat 64 ctr) = some [{ len := 8, locs := [.dev pa attr b] }]) :
    Holds s (ctrAdded (s.byteAt 0) (.dev pa attr b) n) (s.rdmaDone vd ctr n) := by
  obtain ⟨t, hadd, hholds⟩ := State.ctrAdd_holds h (BitVec.ofNat 64 n) hat
  rw [BitVec.toNat_ofNat, Nat.mod_eq_of_lt hn] at hholds
  unfold State.rdmaDone
  rw [if_neg hctr, State.ctrAddOrDrop_some hadd]
  exact hholds

theorem State.netSend_error {s : State} {vd a n : Nat} (ctr : Nat) {e : XErr} (h : s.tryRead 0 vd a n = .error e) : s.netSend vd a n ctr = s := by
  unfold State.netSend
  rw [h]

theorem State.netSend_ok {s : State} {vd a n : Nat} (ctr : Nat) {bs : List Byte} (h : s.tryRead 0 vd a n = .ok bs) :
    s.netSend vd a n ctr = ({ s with net := s.net ++ [bs] }).rdmaDone vd ctr n := by
  unfold State.netSend
  rw [h]

/-- Bytes that have gone out change no translation. -/
theorem State.sent_sameXlate (s : State) (net : List (List Byte)) : SameXlate s { s with net := net } := ⟨⟨rfl, rfl, rfl, rfl⟩, rfl, fun _ => rfl⟩

/-- What writes and sends do. -/
theorem exec_netSend (s : State) (port qp vd a n ctr : Nat) : ∀ r ∈ [WorkReq.write port qp vd a n ctr, .send port qp vd a n ctr],
    exec (.roceWorkRequest r) s = if port < 16 && (s.vd vd).enabled then .next (s.netSend vd a n ctr) else .next s := by
  intro r hr
  simp only [List.mem_cons, List.not_mem_nil, or_false] at hr
  rcases hr with rfl | rfl <;> rfl

/-- What an RDMA read does. -/
theorem exec_roceRead (s : State) (port qp vd a : Nat) (bs : List Byte) (ctr : Nat) : exec (.roceWorkRequest (.read port qp vd a bs ctr)) s =
    if port < 16 && (s.vd vd).enabled then (match s.ctxWrite 0 vd a bs with | some t => .next (t.rdmaDone vd ctr bs.length) | none => .next s) else .next s := rfl

theorem hostRead_still {s : State} (h : Resting s) (vd a n : Nat) : ∃ t, exec (.hostMemoryAccess (.read vd a n)) s = .next t ∧ Holds s (s.byteAt 0) t := by
  show ∃ t, execHostMemoryAccess (.read vd a n) s = .next t ∧ _
  unfold execHostMemoryAccess
  dsimp only
  split
  next ps _ =>
    split
    · exact ⟨_, rfl, (Holds.refl h).readPieces (Who.sys 0 vd) (Who.sys_scope 0 vd) ps⟩
    · exact ⟨_, rfl, Holds.refl h⟩
  · exact ⟨_, rfl, Holds.refl h⟩

theorem outsideAccess : accessRule := by
  refine ⟨fun s vd a bs ps => ⟨fun hoff => ?_, fun e herr => ?_, fun hon hcalm hfresh hok => ?_⟩, fun s vd a n hcalm hfresh => ?_, fun s port qp vd a n ctr r hr => ?_⟩
  · show (if (s.vd vd).enabled = true then _ else _) = _
    rw [hoff]
    rfl
  · show (if (s.vd vd).enabled = true then Host.Outcome.next ((s.ctxWrite 0 vd a bs).getD s) else Host.Outcome.next s) = _
    rw [State.ctxWrite_error herr]
    split <;> rfl
  · have hholds := State.putCtx_holds (hcalm.resting hfresh) 0 vd ps bs
    have hen : (s.vd vd).enabled = true := by simpa using hon
    refine ⟨⟨_, ?_, hholds.bytes⟩, fun port qp hport => ⟨_, ?_, hholds.bytes⟩⟩
    · show (if (s.vd vd).enabled = true then Host.Outcome.next ((s.ctxWrite 0 vd a bs).getD s) else Host.Outcome.next s) = _
      rw [hen, State.ctxWrite_ok hok]
      rfl
    · rw [exec_roceRead, State.ctxWrite_ok hok, if_pos (by simp [hen, hport])]
      dsimp only
      rw [State.rdmaDone_zero]
  · obtain ⟨t, hexec, hholds⟩ := hostRead_still (hcalm.resting hfresh) vd a n
    exact ⟨t, hexec, hholds.bytes⟩
  · rw [exec_netSend s port qp vd a n ctr r hr]
    refine ⟨fun hout => if_neg ?_, fun e herr => ?_, fun bs hport hen hok => ⟨_, if_pos (by simp [hport, hen]), ?_⟩⟩
    · rcases hout with hport | hoff
      · simp [Nat.not_lt.2 hport]
      · simp [hoff]
    · rw [State.netSend_error ctr herr]
      split <;> rfl
    · rw [State.netSend_ok ctr hok]
      have hsame := s.sent_sameXlate (s.net ++ [bs])
      refine ⟨(congrArg State.net (State.rdmaDone_memWork _ vd ctr n).rest :), fun hctr => by rw [hctr, State.rdmaDone_zero], ?_⟩
      intro pa at_ b hctr hat hcalm hfresh hn
      obtain ⟨h1, h2, h3, h4, h5, h6⟩ := hcalm.resting hfresh
      have hadds := State.rdmaDone_adds (s := { s with net := s.net ++ [bs] }) ⟨h1, h2, h3, h4, h5, h6⟩ hctr hn (by rw [hsame.ctrAt]; exact hat)
      exact hadds.bytes

end Sys2Proof.Machine
end

section
/-! SUPPORT. The proofs of the scope: functions are enabled and disabled (R121, R124, R142, R399, R460). -/

namespace Sys2Proof.Machine

/-! What firmware assigns (R460). -/

theorem Damask.prov_setProv_self (d : Damask) (p : Nat) (e : Prov) : (d.setProv p e).prov p = e := tget_tput_self _ _ _ _

theorem Damask.prov_setProv_ne (d : Damask) {p q : Nat} (e : Prov) (h : q ≠ p) : (d.setProv p e).prov q = d.prov q := tget_tput_ne _ _ _ _ _ h

/-- Provinces of a list get an owner, or lose theirs. -/
def Damask.own (d : Damask) (o : Option Nat) (ps : List Nat) : Damask :=
  ps.foldl (fun d p => if p < 2560 then d.setProv p { d.prov p with owner := o } else d) d

theorem Damask.own_owner (d : Damask) (o : Option Nat) (ps : List Nat) {p : Nat} (hp : p < 2560) :
    ((d.own o ps).prov p).owner = if p ∈ ps then o else (d.prov p).owner := by
  induction ps generalizing d with
  | nil => rfl
  | cons q ps ih =>
    show (((if q < 2560 then d.setProv q { d.prov q with owner := o } else d).own o ps).prov p).owner = _
    rw [ih]
    by_cases hpq : p = q
    · subst hpq
      rw [if_pos hp, Damask.prov_setProv_self]
      simp
    · have hsame : ((if q < 2560 then d.setProv q { d.prov q with owner := o } else d).prov p) = d.prov p := by
        split
        · exact d.prov_setProv_ne _ hpq
        · rfl
      rw [hsame]
      simp [hpq]

/-- Ports of a list belong to a partition. -/
def partition (t : Tab Port) (part : Nat) (ps : List Nat) : Tab Port := ps.foldl (fun t p => tput t p { tget Port.empty t p with part := some part }) t

theorem partition_get (t : Tab Port) (part : Nat) (ps : List Nat) (p : Nat) :
    tget Port.empty (partition t part ps) p = if p ∈ ps then { tget Port.empty t p with part := some part } else tget Port.empty t p := by
  induction ps generalizing t with
  | nil => rfl
  | cons q ps ih =>
    show tget Port.empty (partition (tput t q { tget Port.empty t q with part := some part }) part ps) p = _
    rw [ih]
    by_cases hpq : p = q
    · subst hpq
      rw [tget_tput_self]
      simp
    · rw [tget_tput_ne _ _ _ _ _ hpq]
      simp [hpq]

/-- Whether a partition has an enabled function. -/
def State.inUse (s : State) (part : Nat) : Prop := ∃ e ∈ s.vds, e.2.enabled = true ∧ e.2.cfg.partition = part

theorem State.inUse_iff (s : State) (part : Nat) : s.vds.any (fun e => e.2.enabled && e.2.cfg.partition = part) = true ↔ s.inUse part := by
  simp [State.inUse]

theorem State.assign_inUse {s : State} {cfg : FunctionCfg} (h : s.inUse cfg.partition) : s.assign cfg = s := if_pos ((s.inUse_iff _).2 h)

theorem State.assign_free {s : State} {cfg : FunctionCfg} (h : ¬ s.inUse cfg.partition) : s.assign cfg =
    { s with damask := (s.damask.own (some cfg.partition) cfg.owns).own none cfg.frees,
             ports := partition s.ports cfg.partition (cfg.ports.filter (fun p => p < (s.feature.extractLsb' 17 7).toNat)) } :=
  if_neg (mt (s.inUse_iff _).1 h)

/-! The dispatcher of a new function (R124). -/

/-- A dispatcher that starts, or fails to, changes its virtual device's last kill and vectors, and grids. -/
structure DispatcherStarted (s : State) (vd : Nat) (t : State) : Prop where
  rest   : { t with grids := s.grids, vds := s.vds } = s
  self   : { t.vd vd with killCause := (s.vd vd).killCause, msix := (s.vd vd).msix } = s.vd vd
  others : ∀ j, j ≠ vd → t.vd j = s.vd j

theorem State.killCause_started (s : State) (vd code st id : Nat) : DispatcherStarted s vd (s.killCause vd code st id) := by
  unfold State.killCause
  split
  · refine ⟨rfl, ?_, fun j hj => ?_⟩
    · unfold State.msix
      rw [State.vd_modVd_self, State.vd_modVd_self]
    · unfold State.msix
      rw [State.vd_modVd_ne _ _ _ _ hj, State.vd_modVd_ne _ _ _ _ hj]
  · exact ⟨rfl, rfl, fun _ _ => rfl⟩

theorem State.startDispatcher_dispatcherStarted (s : State) (vd : Nat) : DispatcherStarted s vd (s.startDispatcher vd) := by
  unfold State.startDispatcher
  extract_lets v core r
  split
  · exact ⟨rfl, rfl, fun _ _ => rfl⟩
  · split
    next t hadmit =>
      rcases State.admitRec_dispatcher hadmit with ⟨-, g, rfl, -⟩ | ⟨hst, -⟩
      · exact ⟨rfl, rfl, fun _ _ => rfl⟩
      · exact absurd rfl hst
    next st t hst hadmit =>
      rcases State.admitRec_dispatcher hadmit with ⟨rfl, -⟩ | ⟨-, rfl⟩
      · exact absurd rfl hst
      · exact State.killCause_started _ _ _ _ _
    · exact State.killCause_started _ _ _ _ _

/-! Enabling (R121, R142). -/

/-- A function's context is set up. -/
def State.setUp (s : State) (vd : Nat) (cfg : FunctionCfg) : State :=
  ((s.setBudget cfg.budget).assign cfg).modVd vd (fun v => { v with enabled := true, cfg := cfg, slots := [], energyCtx := 0 })

theorem exec_functionEnable {s : State} {vd : Nat} {cfg : FunctionCfg} (hfirm : s.firmware ≠ none) (hvd : vd < 64) (hoff : (s.vd vd).enabled = false)
    (hclash : s.clash cfg = false) : exec (.functionEnable vd cfg) s = .next ((s.setUp vd cfg).startDispatcher vd) := by
  refine if_neg ?_
  rw [hoff, hclash]
  simp [hfirm, Nat.not_le.2 hvd]

theorem State.setBudget_rest (s : State) (b : Option Nat) : { s.setBudget b with deviceBudget := s.deviceBudget } = s ∧
    (s.setBudget b).deviceBudget = match b with | some b => min b 3600000000 | none => s.deviceBudget := by
  cases b <;> exact ⟨rfl, rfl⟩

/-- The set-up changes provinces, ports, the device budget and the virtual device. -/
theorem State.setUp_rest (s : State) (vd : Nat) (cfg : FunctionCfg) :
    { s.setUp vd cfg with vds := s.vds, damask := s.damask, ports := s.ports, deviceBudget := s.deviceBudget } = s ∧
      (s.setUp vd cfg).vd vd = { s.vd vd with enabled := true, cfg := cfg, slots := [], energyCtx := 0 } ∧
      (∀ j, j ≠ vd → (s.setUp vd cfg).vd j = s.vd j) ∧ (s.setUp vd cfg).deviceBudget = (s.setBudget cfg.budget).deviceBudget := by
  have hbudget : { s.setBudget cfg.budget with damask := s.damask, ports := s.ports, deviceBudget := s.deviceBudget } = s :=
    (congrArg (fun t : State => { t with damask := s.damask, ports := s.ports }) (s.setBudget_rest cfg.budget).1 :)
  have hassign (u : State) : { u.assign cfg with damask := u.damask, ports := u.ports } = u := by
    unfold State.assign
    split <;> rfl
  unfold State.setUp
  have hrest := hassign (s.setBudget cfg.budget)
  generalize s.setBudget cfg.budget = u at hbudget hrest
  generalize u.assign cfg = t at hrest
  have hdev : t.deviceBudget = u.deviceBudget := (congrArg State.deviceBudget hrest :)
  have hvd (j : Nat) : t.vd j = s.vd j := (congrArg (State.vd · j) hrest :).trans (congrArg (State.vd · j) hbudget :)
  refine ⟨?_, ?_, fun j hj => ?_, hdev⟩
  · have ht : { t with damask := s.damask, ports := s.ports, deviceBudget := s.deviceBudget } = s := by
      rw [← hrest] at hbudget
      exact hbudget
    exact (congrArg (fun x : State => { x with vds := s.vds }) ht :)
  · rw [State.vd_modVd_self, hvd]
  · rw [State.vd_modVd_ne _ _ _ _ hj, hvd]

theorem State.setUp_assigned (s : State) (vd : Nat) (cfg : FunctionCfg) :
    (s.inUse cfg.partition → (s.setUp vd cfg).damask = s.damask ∧ (s.setUp vd cfg).ports = s.ports) ∧
    (¬ s.inUse cfg.partition → (s.setUp vd cfg).damask = (s.damask.own (some cfg.partition) cfg.owns).own none cfg.frees ∧
      (s.setUp vd cfg).ports = partition s.ports cfg.partition (cfg.ports.filter (fun p => p < (s.feature.extractLsb' 17 7).toNat))) := by
  have hbudget := (s.setBudget_rest cfg.budget).1
  unfold State.setUp
  generalize s.setBudget cfg.budget = u at hbudget
  have hvds : u.vds = s.vds := (congrArg State.vds hbudget :)
  have hdamask : u.damask = s.damask := (congrArg State.damask hbudget :)
  have hports : u.ports = s.ports := (congrArg State.ports hbudget :)
  have hfeature : u.feature = s.feature := (congrArg State.feature hbudget :)
  have huse : u.inUse cfg.partition ↔ s.inUse cfg.partition := by unfold State.inUse; rw [hvds]
  refine ⟨fun h => ?_, fun h => ?_⟩
  · rw [State.assign_inUse (huse.2 h)]
    exact ⟨hdamask, hports⟩
  · rw [State.assign_free (mt huse.1 h)]
    rw [← hdamask, ← hports, ← hfeature]
    exact ⟨rfl, rfl⟩

/-- A configuration that takes what another partition in use has. -/
theorem State.clash_iff (s : State) (cfg : FunctionCfg) : s.clash cfg = true ↔ ∃ e ∈ s.vds, e.2.enabled = true ∧ e.2.cfg.partition ≠ cfg.partition ∧
    ((∃ c ∈ cfg.cores ++ cfg.reserved, ∃ d ∈ e.2.cfg.cores ++ e.2.cfg.reserved, d / 8 = c / 8) ∨
      (∃ p ∈ cfg.owns ++ cfg.frees, (s.damask.prov p).owner = some e.2.cfg.partition) ∨ ∃ p ∈ cfg.ports, (tget Port.empty s.ports p).part = some e.2.cfg.partition) := by
  simp only [State.clash, List.any_eq_true, Bool.and_eq_true, Bool.or_eq_true, bne_iff_ne, decide_eq_true_eq, and_assoc, or_assoc, ne_eq]
  rfl

/-! Disabling (R399). -/

theorem State.settleRange_memWork (s : State) (core vd a n : Nat) : MemWork s (s.settleRange core vd a n) := by
  refine MemWork.foldl (fun t line => ?_) _ s
  have hcombine := (MemWork.refl t).combine line
  exact ⟨hcombine.rest, hcombine.fibs, hcombine.wgs⟩

theorem CacheWork.l0Drop {s t : State} (h : CacheWork s t) (core line : Nat) : CacheWork s (t.l0Drop core line) := by
  unfold State.l0Drop
  split
  · exact h
  next x _ => exact ⟨(h.pfOut x.pf).rest, (h.pfOut x.pf).fibs⟩

/-- The regions of a context are settled. -/
def State.settleRegions (s : State) (core vd : Nat) (rs : List Region) : State := rs.foldl (fun t r => t.settleRange core vd r.va r.len) s

/-- The workgroups of a context are killed. -/
def State.killContext (s : State) (vd : Nat) : State :=
  ((s.wgs.filter (fun e => e.2.vd = vd && s.live e.1)).map (·.1)).foldl (fun t w => t.release w .killed) s

/-- The caches drop a context's lines. -/
def State.dropLines (s : State) (vd : Nat) : State :=
  let t := ((s.cc.filter (fun e => e.2.vd = vd)).map (·.1)).foldl (fun t k => t.ccDrop (k / 2 ^ 52) (k % 2 ^ 52)) s
  ((t.l0.filter (fun e => e.2.vd = vd)).map (·.1)).foldl (fun t k => t.l0Drop (k / 2 ^ 52) (k % 2 ^ 52)) t

/-- Nothing of a context is left. -/
def State.forgetContext (t : State) (vd : Nat) : State :=
  { t with grids := t.grids.filter (fun e => e.1 / 2 ^ 32 != vd), cmds := t.cmds.filter (fun e => e.2.vd != vd), waitAdds := t.waitAdds.filter (fun a => a.vd != vd),
           tlb := t.tlb.filter (fun e => e.vd != vd), walks := t.walks.filter (fun e => e.vd != vd), vds := tput t.vds vd { Vd.empty with keys := (t.vd vd).keys } }

theorem exec_functionDisable {s : State} {vd : Nat} (h : (s.vd vd).enabled = true) : exec (.functionDisable vd) s = .next
    ((((s.settleRegions (((s.vd vd).cfg.reserved ++ (s.vd vd).cfg.cores).headD 0) vd (s.vd vd).regions).killContext vd).dropLines vd).forgetContext vd) :=
  if_neg (by simp [h])

theorem State.dropLines_wg (s : State) (vd w : Nat) : (s.dropLines vd).wg w = s.wg w := by
  have hcc : CacheWork s (((s.cc.filter (fun e => e.2.vd = vd)).map (·.1)).foldl (fun t k => t.ccDrop (k / 2 ^ 52) (k % 2 ^ 52)) s) :=
    CacheWork.foldl (fun t k => (CacheWork.refl t).ccDrop _ _) _ s
  unfold State.dropLines
  extract_lets t
  have hl0 : CacheWork t (((t.l0.filter (fun e => e.2.vd = vd)).map (·.1)).foldl (fun t k => t.l0Drop (k / 2 ^ 52) (k % 2 ^ 52)) t) :=
    CacheWork.foldl (fun t k => (CacheWork.refl t).l0Drop _ _) _ t
  exact congrArg (tget Wg.empty · w) ((CacheWork.trans hcc hl0).wgs)

/-- Of a context's workgroups none is left that has not ended or been killed. -/
theorem State.killContext_killed (s : State) {vd w : Nat} (hvd : (s.wg w).vd = vd) (hended : (s.wg w).life ≠ .ended) : ((s.killContext vd).wg w).life = .killed := by
  refine foldl_release_killed _ s w ?_
  by_cases hkilled : (s.wg w).life = .killed
  · exact .inr hkilled
  · have hlive : s.live w = true := by simp [State.live, hended, hkilled]
    exact .inl (List.mem_map.2 ⟨(w, s.wg w), List.mem_filter.2 ⟨tfind_mem _ _ _ (s.wg_listed hended), by simp [hvd, hlive]⟩, rfl⟩)

theorem functionsEnd (s : State) (vd : Nat) : ((s.vd vd).enabled = false → exec (.functionDisable vd) s = .next s) ∧
    ((s.vd vd).enabled = true → ∃ t, exec (.functionDisable vd) s = .next t ∧ (t.vd vd).enabled = false ∧ (t.vd vd).seals = [] ∧ (t.vd vd).regions = [] ∧ (t.vd vd).images = [] ∧
      (∀ e ∈ t.grids, e.1 / 2 ^ 32 ≠ vd) ∧ (∀ e ∈ t.cmds, e.2.vd ≠ vd) ∧ (∀ e ∈ t.tlb, e.vd ≠ vd) ∧ (∀ e ∈ t.walks, e.vd ≠ vd) ∧
      ∀ w, (s.wg w).vd = vd → (s.wg w).life ≠ .ended → (t.wg w).life ≠ .running ∧ (∀ b, (t.wg w).life ≠ .stopping b) ∧ (t.wg w).life ≠ .saved) := by
  refine ⟨fun hoff => if_pos (by simp [hoff]), fun hon => ⟨_, exec_functionDisable hon, ?_⟩⟩
  have hsettled : MemWork s (s.settleRegions (((s.vd vd).cfg.reserved ++ (s.vd vd).cfg.cores).headD 0) vd (s.vd vd).regions) :=
    MemWork.foldl (fun t r => t.settleRange_memWork _ _ _ _) _ s
  generalize s.settleRegions (((s.vd vd).cfg.reserved ++ (s.vd vd).cfg.cores).headD 0) vd (s.vd vd).regions = u at hsettled
  have hempty : (((u.killContext vd).dropLines vd).forgetContext vd).vd vd = { Vd.empty with keys := (((u.killContext vd).dropLines vd).vd vd).keys } := tget_tput_self _ _ _ _
  refine ⟨(congrArg Vd.enabled hempty :), (congrArg Vd.seals hempty :), (congrArg Vd.regions hempty :), (congrArg Vd.images hempty :),
    fun e he => by simpa using (List.mem_filter.1 he).2, fun e he => by simpa using (List.mem_filter.1 he).2, fun e he => by simpa using (List.mem_filter.1 he).2,
    fun e he => by simpa using (List.mem_filter.1 he).2, fun w hvd hended => ?_⟩
  have hwg := hsettled.wgs w
  have hkilled := u.killContext_killed (vd := vd) (w := w) ((congrArg Wg.vd hwg :).trans hvd) (fun h => hended ((congrArg Wg.life hwg :).symm.trans h))
  have hlife : ((((u.killContext vd).dropLines vd).forgetContext vd).wg w).life = .killed := (congrArg Wg.life ((u.killContext vd).dropLines_wg vd w)).trans hkilled
  rw [hlife]
  exact ⟨nofun, fun _ => nofun, nofun⟩

theorem functionsChange : functionRule := by
  refine ⟨fun s vd cfg => ⟨fun hno => if_pos ?_, fun hfirm hvd hoff hno => ⟨_, exec_functionEnable hfirm hvd hoff (Bool.eq_false_iff.2 (mt (s.clash_iff cfg).1 hno)), ?_⟩⟩,
    functionsEnd⟩
  · rcases hno with hfirm | hvd | hon | hclash
    · simp [hfirm]
    · simp [hvd]
    · simp [hon]
    · simp [(s.clash_iff cfg).2 hclash]
  · obtain ⟨hrest, hself, hothers, hbudget⟩ := s.setUp_rest vd cfg
    obtain ⟨hused, hfree⟩ := s.setUp_assigned vd cfg
    obtain ⟨hstart, hvdself, hvdothers⟩ := (s.setUp vd cfg).startDispatcher_dispatcherStarted vd
    rw [hself] at hvdself
    generalize s.setUp vd cfg = u at hrest hothers hbudget hused hfree hstart hvdself hvdothers
    generalize u.startDispatcher vd = t at hstart hvdself hvdothers
    have hdamask : t.damask = u.damask := (congrArg State.damask hstart :)
    have hports : t.ports = u.ports := (congrArg State.ports hstart :)
    refine ⟨(congrArg Vd.enabled hvdself :), (congrArg Vd.cfg hvdself :), (congrArg Vd.slots hvdself :), (congrArg Vd.energyCtx hvdself :),
      fun j hj => (hvdothers j hj).trans (hothers j hj), (congrArg State.mem hstart :).trans (congrArg State.mem hrest :),
      ((congrArg State.deviceBudget hstart :).trans hbudget).trans (s.setBudget_rest cfg.budget).2, fun hnone => ?_, fun huse => ?_⟩
    · obtain ⟨hd, hp⟩ := hfree (fun ⟨e, he, hon, hpart⟩ => hnone e he hon hpart)
      rw [hdamask, hports, hd, hp]
      refine ⟨fun p hlt => ?_, fun p => ?_⟩
      · rw [Damask.own_owner _ _ _ hlt, Damask.own_owner _ _ _ hlt]
      · rw [partition_get]
        exact if_congr (by simp [field, Nat.shiftRight_eq_div_pow]) rfl rfl
    · rw [hdamask, hports]
      exact hused huse

end Sys2Proof.Machine
end

section
/-! SUPPORT. The proofs of the scope: what a packet delivers leaves the Twill ports alone (R376, R378, R380, R393, R459). -/

namespace Sys2Proof.Machine

theorem MemWork.ports {s t : State} (h : MemWork s t) : t.ports = s.ports := (congrArg State.ports h.rest :)

theorem Settling.ports {s t : State} (h : Settling s t) : t.ports = s.ports := (congrArg State.ports h.rest :)

theorem State.ports_foldl {β : Type} {g : State → β → State} (hg : ∀ s x, (g s x).ports = s.ports) (l : List β) (s : State) : (l.foldl g s).ports = s.ports :=
  foldl_inv (fun t : State => t.ports = s.ports) g (fun t x h => (hg t x).trans h) l s rfl

/-! Bytes put in memory. -/

theorem State.meetPieces_memWork (s : State) (vd n : Nat) (ps : List Piece) : MemWork s (s.meetPieces vd n ps) := by
  refine MemWork.foldl (fun t p => MemWork.foldl (fun t l => ?_) _ t) ps s
  cases l with
  | dev pa attr b => exact ((CacheWork.refl t).meetLine _ _ _).memWork
  | _ => exact MemWork.refl t

theorem State.cleanCopies_ports (s : State) (w : Who) (sector : Nat) : (s.cleanCopies w sector).ports = s.ports := by
  unfold State.cleanCopies
  extract_lets line clean t
  have ht : t.ports = s.ports := by
    unfold t
    split
    · split <;> rfl
    · rfl
  split
  · split <;> exact ht
  · exact ht

theorem State.clearPoison_ports (s : State) (w : Who) (cov : List (Loc × Nat)) : (s.clearPoison w cov).ports = s.ports := by
  unfold State.clearPoison
  extract_lets full dev home t u x
  have ht : t.ports = s.ports := by
    unfold t
    split <;> rfl
  have hu : u.ports = s.ports := by
    unfold u
    split
    · exact ht
    · exact (State.ports_foldl (fun v y => v.cleanCopies_ports w y) _ t).trans ht
  split <;> exact hu

theorem State.putCtx_ports (s : State) (core vd : Nat) (ps : List Piece) (bs : List Byte) : (s.putCtx core vd ps bs).ports = s.ports := by
  rw [State.putCtx_eq, State.clearPoison_ports]
  exact ((s.meetPieces_memWork vd 0 ps).writePieces _ ps bs).ports

theorem State.pktStore_ports (s : State) (vd a : Nat) (bs : List Byte) : (s.pktStore vd a bs).ports = s.ports := by
  unfold State.pktStore
  split
  · exact s.putCtx_ports _ _ _ _
  · rfl

theorem State.engWrite_ports {s t : State} {c : Cmd} {scr : Bool} {al : Nat} {ws : List (Nat × List Byte)} (h : s.engWrite c scr al ws = .ok t) : t.ports = s.ports := by
  unfold State.engWrite at h
  split at h
  · cases h
    rfl
  · split at h
    · cases h
    next l _ =>
      cases h
      rw [State.clearPoison_ports, State.ports_foldl (fun u (w : List Piece × List Byte) => ((MemWork.refl u).writePieces c.who w.1 w.2).ports)]
      exact State.ports_foldl (fun u w => (u.meetPieces_memWork c.vd 0 w.1).ports) l s

/-! An atomic access at its element's execution point (R393). -/

theorem CacheWork.takeLine {s t : State} (h : CacheWork s t) (line : Nat) (keep : Option Nat) : CacheWork s (t.takeLine line keep) :=
  h.trans (CacheWork.foldl (fun u _ => (CacheWork.refl u).ccDrop _ _) _ t)

theorem CacheWork.touchDirty {s t : State} (h : CacheWork s t) (w : Who) (line sec : Nat) : CacheWork s (t.touchDirty w line sec) := ⟨h.rest, h.fibs⟩

theorem CacheWork.refresh {s t : State} (h : CacheWork s t) (core pa n : Nat) : CacheWork s (t.refresh core pa n) := by
  unfold State.refresh
  extract_lets bs k u
  refine CacheWork.l0Update ?_ core pa bs
  unfold u
  split
  · split
    · exact h
    · exact ⟨h.rest, h.fibs⟩
  · exact h

theorem State.atPoint_ports (s : State) (w : Who) (l : Loc) (ty aop x : Nat) : (s.atPoint w l ty (.op aop x)).2.2.ports = s.ports := by
  cases l with
  | scr o =>
    unfold State.atPoint
    dsimp only
    split <;> rfl
  | ob o => rfl
  | host a => rfl
  | peer p a => rfl
  | dev pa attr b =>
    unfold State.atPoint
    dsimp -zeta only
    extract_lets n line cl holder t u v old z
    have ht : MemWork s t := (MemWork.refl s).combine line
    have hu : MemWork s u := by
      unfold u
      split
      · exact ht.cached ((CacheWork.refl t).writeBackSector _ _ _)
      · exact ht.cached ((CacheWork.refl t).takeLine _ _)
    have hv : MemWork s v := hu.cached ((CacheWork.refl u).l2Fill _ _ _)
    split
    · exact hv.ports
    · refine (MemWork.cached hv (CacheWork.refresh (CacheWork.updateElem ?_ _ _ _ _ _) _ _ _)).ports
      unfold z
      split
      · exact (CacheWork.refl v).l2Dirty _ _
      · exact (CacheWork.refl v).touchDirty _ _ _

/-! An engine's adds (R376, R380). -/

theorem State.recordFault_ports (s : State) (w cause engine addr : Nat) : (s.recordFault w cause engine addr).ports = s.ports := by
  unfold State.recordFault
  split <;> rfl

theorem State.scratchAdd_ports (s : State) (w off inc : Nat) : (s.scratchAdd w off inc).ports = s.ports := by
  unfold State.scratchAdd
  split <;> rfl

theorem State.engAdd_ports (s : State) (c : Cmd) (inc : Nat) : (s.engAdd c inc).ports = s.ports := by
  unfold State.engAdd
  split
  · rfl
  · split
    · exact s.scratchAdd_ports _ _ _
    · split
      next t hadd => exact ((MemWork.refl s).ctrAdd hadd).ports
      · split
        · exact s.recordFault_ports _ _ _ _
        · rfl
        · rfl

/-! A command ends (R288, R381). -/

theorem State.endSeal_ports (s : State) (vd va : Nat) : (s.endSeal vd va).ports = s.ports := by
  unfold State.endSeal
  split
  · rfl
  · split <;> rfl

theorem State.finishCmd_ports (s : State) (id : Nat) : (s.finishCmd id).ports = s.ports := by
  unfold State.finishCmd
  split
  · rfl
  next c _ =>
    extract_lets t u v
    have hu : u.ports = s.ports := by
      unfold u
      split <;> rfl
    have hv : v.ports = u.ports := State.ports_foldl (fun w x => w.endSeal_ports _ _) _ u
    exact (v.settleGrid_settling c.grid).ports.trans (hv.trans hu)

/-! The bytes of a `cpyr` with GET arrive (R378). -/

theorem State.pageRequest_ports (s : State) (vd : Nat) : (s.pageRequest vd).ports = s.ports := by
  unfold State.pageRequest
  split <;> rfl

section
variable {c : Cmd} (hkind : c.kind = 2) (hget : c.get = true)
include hkind hget

theorem State.lateAdds_get (s : State) (count : Nat) : s.lateAdds c count = s.engAdd c (c.n - c.added) := by
  unfold State.lateAdds
  rw [hkind]
  exact if_pos hget

theorem State.engFail_ports (s : State) (id cause addr count : Nat) : (s.engFail id c cause addr count).ports = s.ports := by
  unfold State.engFail
  extract_lets t die u
  have hu : u.ports = s.ports := by
    unfold u
    rw [if_neg (by simp [hkind])]
    exact s.recordFault_ports _ _ _ _
  rw [State.finishCmd_ports, State.lateAdds_get hkind hget, State.engAdd_ports, hu]

theorem State.engFault_ports (s : State) (id : Nat) (e : XErr) (a count : Nat) : (s.engFault id c e a count).ports = s.ports := by
  unfold State.engFault
  split
  · rfl
  · split
    · exact State.pageRequest_ports _ _
    · exact State.engFail_ports hkind hget s _ _ _ _

theorem State.getBytes_ports (s : State) (id : Nat) (bs : List Byte) : (s.getBytes id c bs).ports = s.ports := by
  unfold State.getBytes
  extract_lets d pos full c'
  split
  · exact State.engFault_ports hkind hget s _ _ _ _
  next t hwrite =>
    extract_lets stop u
    have hu : u.ports = s.ports := (t.engAdd_ports _ _).trans (State.engWrite_ports hwrite)
    split
    · exact (u.finishCmd_ports id).trans hu
    · exact hu

end

/-- What a packet delivers leaves every port as it was. -/
theorem State.deliverPkt_ports (s : State) (b : PktBody) : (s.deliverPkt b).ports = s.ports := by
  cases b with
  | store vd a bs => exact s.pktStore_ports _ _ _
  | add vd a inc =>
    unfold State.deliverPkt
    dsimp only
    cases hadd : s.ctrAdd 0 vd (BitVec.ofNat 64 a) (BitVec.ofNat 64 inc) with
    | none => rfl
    | some t => exact ((MemWork.refl s).ctrAdd hadd).ports
  | red vd a aop ty v =>
    unfold State.deliverPkt
    dsimp only
    split
    · split
      · exact s.atPoint_ports _ _ _ _ _
      · rfl
    · rfl
  | read id bs =>
    unfold State.deliverPkt
    dsimp only
    split
    next c _ =>
      split
      next hgo =>
        obtain ⟨⟨hkind, hget⟩, -⟩ : (c.kind = 2 ∧ c.get = true) ∧ s.works c = true := by simpa using hgo
        exact State.getBytes_ports hkind hget s _ _
      · rfl
    · rfl
  | done id =>
    unfold State.deliverPkt
    dsimp only
    split
    · split
      · exact (State.finishCmd_ports _ _).trans (s.engAdd_ports _ _)
      · rfl
    · rfl

end Sys2Proof.Machine
end

section
/-! SUPPORT. The proofs of the scope: Twill packets, CRC errors and lost ports (R457 to R460). -/

namespace Sys2Proof.Machine

/-! Packets that have waited leave by a port (R457). -/

/-- The bodies of the packets that a port has not had acknowledged, and of those that wait, in their order. -/
def Port.bodies (x : Port) : List PktBody := x.replay.map (fun p => p.body) ++ x.queue.map (·.2)

/-- The flits that a port's replay store holds. -/
def Port.flits (x : Port) : Nat := (x.replay.map (fun p => pktFlits p.body)).sum

/-- A port's replay store, queue and next number have changed: packets of a list have left in their order, the rest wait. -/
structure Port.Flushed (x : Port) (l : List (Nat × PktBody)) (y : Port) : Prop where
  rest   : { y with replay := x.replay, queue := x.queue, next := x.next } = x
  replay : x.replay <+: y.replay
  bodies : y.bodies = x.replay.map (fun p => p.body) ++ l.map (·.2)
  room   : x.flits ≤ 256 → y.flits ≤ 256

theorem Port.emit_flits (x : Port) (part : Nat) (b : PktBody) : (x.emit part b).flits = x.flits + pktFlits b := by simp [Port.flits, Port.emit]

theorem Port.flush_flushed (x : Port) (l : List (Nat × PktBody)) : x.Flushed l (x.flush l) := by
  induction l generalizing x with
  | nil => exact ⟨rfl, List.prefix_rfl, rfl, id⟩
  | cons e l ih =>
    unfold Port.flush
    split
    next hroom =>
      obtain ⟨hrest, hreplay, hbodies, hfits⟩ := ih (x.emit e.1 e.2)
      refine ⟨(congrArg (fun y : Port => { y with replay := x.replay, next := x.next }) hrest :), (List.prefix_append _ _).trans hreplay, ?_, fun _ => hfits ?_⟩
      · rw [hbodies]
        simp [Port.emit]
      · rw [Port.emit_flits]
        exact of_decide_eq_true hroom
    · exact ⟨rfl, List.prefix_rfl, rfl, id⟩

/-- What a port keeps for replay once the packets up to a number are acknowledged. -/
def Port.unacked (x : Port) (ack : BitVec 12) : List Packet := match x.replay.findIdx? (fun q => q.seq = ack) with
  | some i => x.replay.drop (i + 1)
  | none => x.replay

theorem Port.acknowledge_eq (x : Port) (ack : BitVec 12) : x.acknowledge ack = ({ x with replay := x.unacked ack, acked := ack } : Port).flush x.queue := by
  unfold Port.acknowledge Port.unacked
  cases x.replay.findIdx? (fun q => q.seq = ack) <;> rfl

theorem Port.acknowledge_rx (x : Port) (ack : BitVec 12) : (x.acknowledge ack).rx = x.rx := by
  rw [Port.acknowledge_eq]
  exact (congrArg Port.rx (Port.flush_flushed { x with replay := x.unacked ack, acked := ack } x.queue).rest :)

theorem Port.acknowledge_heard (x : Port) (ack rx : BitVec 12) : Heard x (x.unacked ack) ack rx { x.acknowledge ack with rx := rx } := by
  rw [Port.acknowledge_eq]
  obtain ⟨hrest, hreplay, hbodies, hroom⟩ := Port.flush_flushed { x with replay := x.unacked ack, acked := ack } x.queue
  refine ⟨(congrArg (fun y : Port => { y with replay := x.replay, rx := rx }) hrest :), hreplay, hbodies, fun hempty => ?_, hroom⟩
  rw [hempty]
  simp [Port.flush, ← hempty]

/-! What a packet's body does. -/

/-- Of a piece whose locations outside this package are left out, each location here gets its bytes. -/
theorem Bytes.putPieces_filter (keep : Loc → Bool) (m : Bytes) (ps : List Piece) (bs : List Byte) :
    m.putPieces (fun _ => true) (ps.map (fun p => { p with locs := p.locs.filter keep })) bs = m.putPieces keep ps bs := by
  induction ps generalizing m bs with
  | nil => rfl
  | cons p ps ih =>
    rw [List.map_cons]
    unfold Bytes.putPieces
    rw [List.filter_true]
    exact ih _ _

/-- Ports have changed: memory and translations are what they were. -/
theorem State.setPorts_sameXlate (s : State) (ports : Tab Port) : SameXlate s { s with ports := ports } := ⟨⟨rfl, rfl, rfl, rfl⟩, rfl, fun _ => rfl⟩

theorem Resting.setPorts {s : State} (h : Resting s) (ports : Tab Port) : Resting { s with ports := ports } := by
  obtain ⟨hcopies, hdrains, herrors, hpresent, hmoves, hfresh⟩ := h
  exact ⟨hcopies, hdrains, herrors, hpresent, hmoves, hfresh⟩

section
variable {s : State} (h : Resting s) (ports : Tab Port)
include h

theorem State.deliverPkt_store {vd a : Nat} {bs : List Byte} {ps : List Piece} (hok : ctxPieces s 0 vd .wr a bs.length = .ok ps) (y : Spot) (hy : y.1 ≤ 4) :
    (({ s with ports := ports } : State).deliverPkt (.store vd a bs)).byteAt 0 y = Bytes.putPieces (fun l => match l with
      | .peer _ _ => false
      | _ => true) (s.byteAt 0) ps bs y := by
  have hpieces : ctxPieces { s with ports := ports } 0 vd .wr a bs.length = .ok ps := ((s.setPorts_sameXlate ports).pieces _ _ _ _ _).trans hok
  have hstore : ({ s with ports := ports } : State).deliverPkt (.store vd a bs) = ({ s with ports := ports } : State).putCtx 0 vd (ps.map Piece.near) bs := by
    unfold ctxPieces at hpieces
    show State.pktStore _ vd a bs = _
    unfold State.pktStore
    rw [hpieces]
  rw [hstore, (State.putCtx_holds (h.setPorts ports) 0 vd (ps.map Piece.near) bs).bytes y hy]
  exact congrFun (Bytes.putPieces_filter _ _ ps bs) y

theorem State.deliverPkt_add {vd a inc pa attr : Nat} {b : Bool} (hinc : inc < 2 ^ 64) (hat : s.ctrAt 0 vd (BitVec.ofNat 64 a) = some [{ len := 8, locs := [.dev pa attr b] }])
    (y : Spot) (hy : y.1 ≤ 4) : (({ s with ports := ports } : State).deliverPkt (.add vd a inc)).byteAt 0 y = ctrAdded (s.byteAt 0) (.dev pa attr b) inc y := by
  obtain ⟨t, hadd, hholds⟩ := State.ctrAdd_holds (h.setPorts ports) (BitVec.ofNat 64 inc) (((s.setPorts_sameXlate ports).ctrAt 0 vd (BitVec.ofNat 64 a)).trans hat)
  rw [BitVec.toNat_ofNat, Nat.mod_eq_of_lt hinc] at hholds
  have ht : ({ s with ports := ports } : State).deliverPkt (.add vd a inc) = t := by
    show (State.ctrAdd _ 0 vd _ _).getD _ = t
    rw [hadd]
    rfl
  rw [ht]
  exact hholds.bytes y hy

end

/-! A packet arrives (R457, R460). -/

/-- A packet is of the partition of a port that exists, with a good CRC, and what it names is not in motion. -/
def State.hears (s : State) (port : Nat) (p : Packet) : Prop :=
  let x := tget Port.empty s.ports port
  port < field s.feature 17 7 ∧ x.lanes ≠ 0 ∧ p.crc = true ∧ x.part = some p.part ∧ s.pktWaits p.body = false

theorem State.portCount_eq (s : State) : (s.feature.extractLsb' 17 7).toNat = field s.feature 17 7 := by simp [field, Nat.shiftRight_eq_div_pow]

section
variable {s : State} {port : Nat} {p : Packet}

theorem exec_packet_ignored (h : ¬ s.hears port p) : exec (.twillPacketReceive port p) s = .next s := by
  refine if_pos ?_
  rw [s.portCount_eq]
  unfold State.hears at h
  by_contra hno
  simp only [Bool.or_eq_true, decide_eq_true_eq, Bool.not_eq_true', bne_iff_ne, not_or, Bool.not_eq_true, not_not, Nat.not_le, ne_eq] at hno
  obtain ⟨⟨⟨⟨hport, hlanes⟩, hcrc⟩, hpart⟩, hwaits⟩ := hno
  exact h ⟨hport, hlanes, by simpa using hcrc, hpart, hwaits⟩

variable (h : s.hears port p)
include h

theorem exec_packet_heard : exec (.twillPacketReceive port p) s =
    let x := (tget Port.empty s.ports port).acknowledge p.ack
    let t := { s with ports := tput s.ports port x }
    if p.seq != x.rx then .next t else .next (({ t with ports := tput t.ports port { x with rx := x.rx + 1 } } : State).deliverPkt p.body) := by
  obtain ⟨hport, hlanes, hcrc, hpart, hwaits⟩ := h
  refine if_neg ?_
  rw [s.portCount_eq, hwaits, hcrc, hpart]
  simpa [Nat.not_le.2 hport] using hlanes

end

theorem packetReceived (s : State) (port : Nat) (p : Packet) :
    let x := tget Port.empty s.ports port
    (¬ s.hears port p → exec (.twillPacketReceive port p) s = .next s) ∧
    (s.hears port p → p.seq ≠ x.rx → ∃ t, exec (.twillPacketReceive port p) s = .next t ∧ { t with ports := s.ports } = s ∧
      Heard x (x.unacked p.ack) p.ack x.rx (tget Port.empty t.ports port) ∧ ∀ j, j ≠ port → tget Port.empty t.ports j = tget Port.empty s.ports j) ∧
    (s.hears port p → p.seq = x.rx → ∃ ports, exec (.twillPacketReceive port p) s = .next (({ s with ports := ports } : State).deliverPkt p.body) ∧
      Heard x (x.unacked p.ack) p.ack (x.rx + 1) (tget Port.empty ports port) ∧ ∀ j, j ≠ port → tget Port.empty ports j = tget Port.empty s.ports j) := by
  intro x
  have hrx : (x.acknowledge p.ack).rx = x.rx := x.acknowledge_rx p.ack
  refine ⟨exec_packet_ignored, fun hhear hseq => ⟨{ s with ports := tput s.ports port (x.acknowledge p.ack) }, ?_, rfl, ?_, fun j hj => tget_tput_ne _ _ _ _ _ hj⟩,
    fun hhear hseq => ⟨tput (tput s.ports port (x.acknowledge p.ack)) port { x.acknowledge p.ack with rx := x.rx + 1 }, ?_, ?_, fun j hj => ?_⟩⟩
  · rw [exec_packet_heard hhear]
    exact if_pos (by rw [hrx]; simpa using hseq)
  · have hheard := x.acknowledge_heard p.ack x.rx
    have hsame : ({ x.acknowledge p.ack with rx := x.rx } : Port) = x.acknowledge p.ack := by rw [← hrx]
    rw [tget_tput_self]
    rwa [hsame] at hheard
  · rw [exec_packet_heard hhear]
    refine (if_neg (by rw [hrx]; simpa using hseq)).trans ?_
    rw [hrx]
  · rw [tget_tput_self]
    exact x.acknowledge_heard p.ack (x.rx + 1)
  · rw [tget_tput_ne _ _ _ _ _ hj, tget_tput_ne _ _ _ _ _ hj]

/-! A CRC error counts against its lane (R458). -/

theorem lanes_drop (lanes : BitVec 2) (lane : Nat) {l : Nat} (hl : l < 2) :
    (lanes &&& ~~~(BitVec.ofNat 2 (2 ^ lane))).getLsbD l = (lanes.getLsbD l && l != lane) := by
  have hbit : (BitVec.ofNat 2 (2 ^ lane)).getLsbD l = (l == lane) := by
    rw [BitVec.getLsbD_ofNat, Nat.testBit_two_pow, decide_eq_true hl, Bool.true_and]
    exact (decide_eq_decide.2 eq_comm).trans (beq_eq_decide ..).symm
  rw [BitVec.getLsbD_and, BitVec.getLsbD_not, hbit]
  simp [hl, bne]

theorem crcErrorCounts (s : State) (port lane : Nat) :
    let x := tget Port.empty s.ports port
    let es := (tget [] x.crc lane).filter (fun t => s.clock < t + 1000000) ++ [s.clock]
    ∃ t, exec (.twillCrcReplay port lane) s = .next t ∧ { t with ports := s.ports } = s ∧ (∀ j, j ≠ port → tget Port.empty t.ports j = tget Port.empty s.ports j) ∧
      let y := tget Port.empty t.ports port
      { y with crc := x.crc, lanes := x.lanes } = x ∧ tget [] y.crc lane = es ∧ (es.length < 3 → y.lanes = x.lanes) ∧
      (3 ≤ es.length → lane < 2 → ∀ l, l < 2 → y.lanes.getLsbD l = (x.lanes.getLsbD l && l != lane)) := by
  intro x es
  refine ⟨_, rfl, rfl, fun j hj => tget_tput_ne _ _ _ _ _ hj, ?_⟩
  rw [tget_tput_self]
  exact ⟨rfl, tget_tput_self _ _ _ _, fun hfew => if_neg (Nat.not_le.2 hfew), fun hmany _ l hl => by rw [← lanes_drop x.lanes lane hl]; exact congrArg (BitVec.getLsbD · l) (if_pos hmany)⟩

/-! A port hands on what it carried (R457). -/

/-- Bodies go out by a port: they come after what it has, and nothing else changes. -/
theorem State.sendAll (s : State) (part p : Nat) (bs : List PktBody) : { bs.foldl (fun s b => s.send part p b) s with ports := s.ports } = s ∧
    (tget Port.empty (bs.foldl (fun s b => s.send part p b) s).ports p).bodies = (tget Port.empty s.ports p).bodies ++ bs ∧
    ∀ j, j ≠ p → tget Port.empty (bs.foldl (fun s b => s.send part p b) s).ports j = tget Port.empty s.ports j := by
  induction bs generalizing s with
  | nil => exact ⟨rfl, (List.append_nil _).symm, fun _ _ => rfl⟩
  | cons b bs ih =>
    obtain ⟨hrest, hbodies, hothers⟩ := ih (s.send part p b)
    refine ⟨(congrArg (fun t : State => { t with ports := s.ports }) hrest :), hbodies.trans ?_, fun j hj => (hothers j hj).trans (tget_tput_ne _ _ _ _ _ hj)⟩
    unfold State.send
    dsimp only
    rw [tget_tput_self, (Port.flush_flushed _ _).bodies]
    simp [Port.bodies]

/-- The next live port of a partition, from a port on. -/
def State.nextLive (s : State) (port : Nat) (part : Option Nat) : Option Nat :=
  let n := max 1 (s.feature.extractLsb' 17 7).toNat
  ((List.range n).map (fun i => (port + 1 + i) % n)).find? (fun p => (tget Port.empty s.ports p).lanes != 0 && (tget Port.empty s.ports p).part = part)

/-- A port carries nothing. -/
def State.losePort (s : State) (port : Nat) : State := { s with ports := tput s.ports port { tget Port.empty s.ports port with lanes := 0, replay := [], queue := [] } }

theorem exec_portLoss (s : State) (port : Nat) : exec (.twillPortLoss port) s =
    match (s.losePort port).nextLive port (tget Port.empty s.ports port).part, (tget Port.empty s.ports port).part with
    | some p, some part => .next ((tget Port.empty s.ports port).bodies.foldl (fun s b => s.send part p b) (s.losePort port))
    | _, _ => .next (s.losePort port) := rfl

theorem State.losePort_self (s : State) (port : Nat) :
    tget Port.empty (s.losePort port).ports port = { tget Port.empty s.ports port with lanes := 0, replay := [], queue := [] } := tget_tput_self _ _ _ _

theorem State.losePort_ne (s : State) {port j : Nat} (h : j ≠ port) : tget Port.empty (s.losePort port).ports j = tget Port.empty s.ports j := tget_tput_ne _ _ _ _ _ h

/-- The port that is lost is not the one that follows. -/
theorem State.losePort_nextLive (s : State) (port : Nat) (part : Option Nat) : (s.losePort port).nextLive port part =
    let n := max 1 (field s.feature 17 7)
    ((List.range n).map (fun i => (port + 1 + i) % n)).find? (fun p => p != port && (tget Port.empty s.ports p).lanes != 0 && (tget Port.empty s.ports p).part == part) := by
  rw [← s.portCount_eq]
  unfold State.nextLive
  dsimp only
  congr 1
  funext p
  by_cases hp : p = port
  · rw [hp, State.losePort_self]
    simp
  · rw [s.losePort_ne hp, bne_iff_ne.2 hp, Bool.true_and]
    exact congrArg _ (Bool.eq_iff_iff.2 (by simp))

theorem State.nextLive_ne {s : State} {port p : Nat} {part : Option Nat} (h : (s.losePort port).nextLive port part = some p) : p ≠ port := by
  rw [State.losePort_nextLive] at h
  have hlive := List.find?_some h
  simp only [Bool.and_eq_true, bne_iff_ne] at hlive
  exact hlive.1.1

theorem portLost (s : State) (port : Nat) :
    let x := tget Port.empty s.ports port
    let next := (s.losePort port).nextLive port x.part
    ∃ t, exec (.twillPortLoss port) s = .next t ∧ { t with ports := s.ports } = s ∧ tget Port.empty t.ports port = { x with lanes := 0, replay := [], queue := [] } ∧
      ∀ p, p ≠ port → (x.part ≠ none → next = some p → (tget Port.empty t.ports p).bodies = (tget Port.empty s.ports p).bodies ++ x.bodies) ∧
        (next ≠ some p → tget Port.empty t.ports p = tget Port.empty s.ports p) := by
  intro x next
  rw [exec_portLoss]
  have hlost (p : Nat) (hp : p ≠ port) := s.losePort_ne hp
  split
  next q part hnext hpart =>
    obtain ⟨hrest, hbodies, hothers⟩ := (s.losePort port).sendAll part q x.bodies
    have hq : q ≠ port := State.nextLive_ne hnext
    refine ⟨_, rfl, (congrArg (fun t : State => { t with ports := s.ports }) hrest :), (hothers port hq.symm).trans (s.losePort_self port), fun p hp => ⟨fun _ hsome => ?_, fun hother => ?_⟩⟩
    · obtain rfl : q = p := Option.some.inj (hnext.symm.trans hsome)
      rw [hbodies, s.losePort_ne hp]
    · have hpq : p ≠ q := fun h => hother (h ▸ hnext)
      exact (hothers p hpq).trans (s.losePort_ne hp)
  next hnone =>
    refine ⟨_, rfl, rfl, s.losePort_self port, fun p hp => ⟨fun hpart hsome => ?_, fun _ => s.losePort_ne hp⟩⟩
    obtain ⟨part, hpart⟩ := Option.ne_none_iff_exists'.1 hpart
    exact absurd hpart (hnone p part hsome)

theorem twill : twillRule := by
  refine ⟨fun s port p => ?_, crcErrorCounts, fun s port => ?_⟩
  · obtain ⟨hignored, hheard, htaken⟩ := packetReceived s port p
    refine ⟨hignored, hheard, fun hgood hseq => ?_⟩
    obtain ⟨ports, hexec, hport, hothers⟩ := htaken hgood hseq
    have hdelivered := State.deliverPkt_ports { s with ports := ports } p.body
    refine ⟨_, hexec, hdelivered ▸ hport, fun j hj => hdelivered ▸ hothers j hj, fun vd a bs ps hbody hcalm hfresh hok y hy => ?_, fun vd a inc pa at_ b hbody hinc hcalm hfresh hat y hy => ?_⟩
    · rw [hbody]
      exact State.deliverPkt_store (hcalm.resting hfresh) ports hok y hy
    · rw [hbody]
      exact State.deliverPkt_add (hcalm.resting hfresh) ports hinc hat y hy
  · obtain ⟨t, hexec, hrest, hself, hothers⟩ := portLost s port
    rw [State.losePort_nextLive] at hothers
    exact ⟨t, hexec, hrest, (congrArg Port.lanes hself :), (congrArg Port.replay hself :), (congrArg Port.queue hself :), hothers⟩

/-- Settles O51: writes in the counter-add window and accesses reach memory at rest (`State.ctrAdd_holds`, `State.putCtx_holds`), a context ends with its workgroups
killed (`State.killContext_killed`), and a port's packets leave in their order (`Port.flush_flushed`). -/
theorem outsideAccesses : Obligations.OutsideAccesses := ⟨counterAddWindow, functionsChange, outsideAccess, twill⟩

end Sys2Proof.Machine
end
